-- ==== Sys2Proof/Word.lean ====
section
/-!
DEFINITION. The word types of the part (R2, R3) and their plainest arithmetic.
-/

namespace Sys2Proof

/-- A byte of memory. -/
abbrev Byte := BitVec 8

/-- A 32-bit register (R8). -/
abbrev Word := BitVec 32

/-- A 64-bit operand, held in a register pair, low word in the even register (R2). -/
abbrev DWord := BitVec 64

/-- A 49-bit virtual address (R174), also the clause address of a PC (R355). -/
abbrev VAddr := BitVec 49

/-- An 8-bit register field: V0 to V255 (R81). -/
abbrev Reg := BitVec 8

/-- A predicate name P0 to P7 (R78, R81). -/
abbrev Pred := BitVec 3

/-- The pair whose low word is `lo` and whose high word is `hi` (R2). -/
def dwordOf (lo hi : Word) : DWord := hi ++ lo

/-- The low word of a 64-bit operand. -/
def DWord.lo (x : DWord) : Word := x.setWidth 32

/-- The high word of a 64-bit operand. -/
def DWord.hi (x : DWord) : Word := (x >>> 32).setWidth 32

end Sys2Proof
end

