-- ==== Sys2Proof/Config.lean ====
section
/-!
DEFINITION. What an implementation fixes and the spec leaves open. Every constant here is opaque: nothing can evaluate it, so a
statement about it holds for every value. Each is named in a row of the assumption log.
-/

namespace Sys2Proof.Config

/-- A free byte: the n-th byte whose value the spec leaves open (log 1). -/
opaque freeByte : Nat → Byte

/-- A free choice between two outcomes the spec both allows: the n-th (log 1). -/
opaque freeBool : Nat → Bool

/-- A free word: the n-th word whose value the spec leaves open (log 1). -/
opaque freeWord : Nat → Word

/-- The check word that the part computes over a save image: its length and its nonzero bytes by offset, the check apart (R366; log 12). -/
opaque saveCheck : Nat → List (Nat × Byte) → DWord

/-- The n-th byte of a save-image section whose inner layout the spec does not give (R365; log 12). -/
opaque saveByte : Nat → Nat → Byte

/-- The 64-byte hash of the key fused into the part (R392; log 13). -/
opaque fusedKeyHash : List Byte

/-- The security version fused into the part (R392; log 13). -/
opaque fusedSecver : Nat

/-- The modulus of the part's identity key (R394; log 13). -/
opaque identityModulus : Nat

/-- The secret exponent of the part's identity key (R394; log 13). -/
opaque identityExponent : Nat

/-- The part's certificate (R394; log 13). -/
opaque certificate : List Byte

/-- The TEXT into which the part's translator turns an NBC section, and the descriptor offsets it assigns (R380; log 14). -/
opaque nbcText : List Byte → List Byte

/-- The TEXT offset that the translator gives function n of an NBC section (R380; log 14). -/
opaque nbcEntry : List Byte → Nat → Nat

/-- The TEXT offset that the translator gives the n-th br_table label of an NBC section (R380; log 14). -/
opaque nbcLabel : List Byte → Nat → Nat

/-- The 32 bytes of a RAS log record, whose layout the spec does not give (R389; log 15). -/
opaque rasRecord : Nat → List Byte

/-- A correctly rounded result that the interval refinement of R155 did not separate within its fuel (never reached; log 16). -/
opaque roundFallback : Nat → Nat → Word

/-- How an UNCORR record names a register of a fibre: FID and register number in one 64-bit field (R388; log 15). -/
opaque regAddress : Nat → Nat → DWord

/-- A UALink port reaches the package of an accelerator ID, as the pod's switches are set (R383; log 48). -/
opaque portReaches : Nat → Nat → Bool

end Sys2Proof.Config
end

