-- ==== Sys2Proof/Syntax.lean ====
section
/-!
DEFINITION. The syntax of the part's steps: one constructor of `Instr` for each row of the opcode table. The first part holds the
native instructions of R82 in the order of their opcodes; the second the events of the part and of the world around it.
Fields an instruction does not use are not kept (R81).
-/

namespace Sys2Proof

/-- The control bits every instruction word carries (R78). -/
structure Ctl where
  stall : BitVec 4
  sbi   : BitVec 3
  pneg  : Bool
  pidx  : Pred
deriving DecidableEq, Repr

/-- Clause classes (R74). -/
inductive Class | gen | mem | xln | sfu | mat | sys
deriving DecidableEq, Repr

/-- Integer operand types, MOD[1:0] (R129). -/
inductive ITy | i32 | n32 | i64 | n64
deriving DecidableEq, Repr

/-- Integer compare conditions (R132). -/
inductive ICond | eq | ne | lt | le | gt | ge
deriving DecidableEq, Repr

/-- Operations of LOPI (R133). -/
inductive LogicOp | and | or | xor | andn
deriving DecidableEq, Repr

/-- Shift kinds of SHI (R134). -/
inductive ShiftKind | shl | shr | sar | rol
deriving DecidableEq, Repr

/-- Forms of MOVI (R141). -/
inductive MoviForm | w32 | s64 | z64
deriving DecidableEq, Repr

/-- The special registers of R144. -/
inductive SReg
  | fid | hlane | grpid | teamid | clusid | clpos | core | die | partid
  | lclk | lclkh | cyc | cych | win | dtlen | calld | pw | tbase | tcause | tpc | tinst | taddr
deriving DecidableEq, Repr

/-- Floating-point operand types, MOD[1:0] (R145). -/
inductive FTy | f32 | f16x2 | bf16x2
deriving DecidableEq, Repr

/-- Rounding modes (R40). -/
inductive Rnd | rne | rz | rdn | rup
deriving DecidableEq, Repr

/-- Operand modifiers: absolute value, then negation (R145). -/
structure FMods where
  na : Bool
  aa : Bool
  nb : Bool
  ab : Bool
  nc : Bool
  ac : Bool
deriving DecidableEq, Repr

/-- FCMP conditions (R148). -/
inductive FCond | eq | ne | lt | le | gt | ge | un | or
deriving DecidableEq, Repr

/-- The formats CVT accepts (R28, R152). -/
inductive CFmt
  | i8 | n8 | i16 | n16 | i32 | n32 | i64 | n64 | f32 | f16 | bf16 | e4m3 | e5m2 | e2m1 | e8m0
deriving DecidableEq, Repr

/-- The packed formats of PACK and UNPACK (R153). -/
inductive PFmt | f16x2 | bf16x2 | e4m3 | e5m2 | e2m1 | e8m0
deriving DecidableEq, Repr

/-- The participant-set operand MSRC of a cross-lane instruction (R158). -/
inductive MSrc | reg (m : Reg) | path | group
deriving DecidableEq, Repr

/-- LXCH modes (R165). -/
inductive XMode | from | rot | xor | refl
deriving DecidableEq, Repr

/-- VOTE operations (R166). -/
inductive VoteOp | ballot | all | any | eq
deriving DecidableEq, Repr

/-- XRED and XSCAN operations (R169). -/
inductive XOp | iadd | imin | imax | and | or | xor | fadd | fmin | fmax
deriving DecidableEq, Repr

/-- Access sizes 1, 2, 4, 8 and 16 bytes (R183). -/
inductive Size | n8 | n16 | n32 | n64 | n128
deriving DecidableEq, Repr

/-- Address spaces (R183, R269); a global access names its buffer record. -/
inductive Space | global (brec : BitVec 12) | vault | pool
deriving DecidableEq, Repr

/-- Source of an ACPY (R190). -/
inductive ASrc | global (brec : BitVec 12) | vault
deriving DecidableEq, Repr

/-- A memory operand of the MEM format (R80, R184). -/
structure MemOp where
  space : Space
  a     : Reg
  off   : BitVec 13
deriving DecidableEq, Repr

/-- Scopes (R248). -/
inductive Scope | fibre | group | team | cluster | die | device | fabric | system
deriving DecidableEq, Repr

/-- The ORDER field of the atomic control field (R269). -/
inductive Order | rlx | acq | rel | ar
deriving DecidableEq, Repr

/-- Fence kinds (R280). -/
inductive FenceKind | acq | rel | ar | sc
deriving DecidableEq, Repr

/-- The ordering part of the atomic control field (R269). -/
structure ACtl where
  uo    : Bool
  scope : Scope
  order : Order
deriving DecidableEq, Repr

/-- ATOM and ATOMN operations (R273). -/
inductive AtomOp | add | min | max | and | or | xor | swap | fadd | fmin | fmax
deriving DecidableEq, Repr

/-- WAITC conditions (R286). -/
inductive WCond | eq | ne | lt | le | gt | ge | ltu | leu | gtu | geu
deriving DecidableEq, Repr

/-- BAR and CBAR operations (R282). -/
inductive BarOp | sync | and | or | add | popc
deriving DecidableEq, Repr

/-- A host access to device memory over the Milesk Link (R326, R385). -/
inductive HostAcc
  | read (pa : Nat) (n : Nat)
  | own (pa : Nat)
  | write (pa : Nat) (data : List Byte)
deriving DecidableEq, Repr

/-- What a stale message carried (R327). -/
inductive MsgKind | ack | writeBack | other
deriving DecidableEq, Repr

/-- A link of the part (R382, R385, R386). -/
inductive Link | ualink (port : Nat) | cxl (port : Nat) | milesk
deriving DecidableEq, Repr

/-- A request that arrives at a UALink port (R382). -/
inductive LinkReq
  | read (pa : Nat) (n : Nat)
  | write (pa : Nat) (data : List Byte)
  | atomic (pa : Nat) (n : Nat) (op : AtomOp) (operand : Nat) (compare : Option Nat)
deriving DecidableEq, Repr

/-- Where a check of R387 meets an error. -/
inductive ErrLoc
  | mem (store : Nat) (pa : Nat)
  | vault (die core off : Nat)
  | reg (die core fid reg : Nat)
deriving DecidableEq, Repr

/-- Who meets an uncorrectable error: a context, with the team and group whose access it was when it was a fibre's (R388). -/
structure ErrReader where
  ctx   : Nat
  fibre : Option (Nat × Nat)
deriving DecidableEq, Repr

/-- The parameters that ranks exchange before a collective starts (R346). -/
structure CollParams where
  op    : Nat
  rmode : Nat
  rop   : Nat
  fmt   : Nat
  count : Nat
  root  : Nat
  ssh   : DWord
deriving DecidableEq, Repr

/-- What a peer rank brings to a collective: its source elements and its block scales (R344, R348). -/
structure PeerData where
  rank   : Nat
  src    : List Byte
  scales : List Byte
deriving DecidableEq, Repr

/-- How a collective ends outside this rank's own checks (R346). -/
inductive CollEnd | ok | link | fault
deriving DecidableEq, Repr

/-- Where the loader places the loaded sections of a code object: the virtual address of each section of the section table. -/
structure LoadPlan where
  ctxBlock : Nat
  base     : List Nat
deriving DecidableEq, Repr

/-- One step of the part: a native instruction, or an event. -/
inductive Instr
  -- Integer, logic and data movement (GEN)
  | nop (c : Ctl)
  | iadd (c : Ctl) (ty : ITy) (sat : Bool) (d a b : Reg)
  | isub (c : Ctl) (ty : ITy) (sat : Bool) (d a b : Reg)
  | imul (c : Ctl) (ty : ITy) (sat : Bool) (d a b : Reg)
  | imulh (c : Ctl) (ty : ITy) (d a b : Reg)
  | imad (c : Ctl) (ty : ITy) (sat : Bool) (d a b e : Reg)
  | imadw (c : Ctl) (ty : ITy) (d a b e : Reg)
  | idiv (c : Ctl) (ty : ITy) (d a b : Reg)
  | irem (c : Ctl) (ty : ITy) (d a b : Reg)
  | imin (c : Ctl) (ty : ITy) (d a b : Reg)
  | imax (c : Ctl) (ty : ITy) (d a b : Reg)
  | iabs (c : Ctl) (ty : ITy) (sat : Bool) (d a : Reg)
  | ineg (c : Ctl) (ty : ITy) (sat : Bool) (d a : Reg)
  | iaddi (c : Ctl) (ty : ITy) (sat : Bool) (d a : Reg) (imm : BitVec 24)
  | icmp (c : Ctl) (cond : ICond) (ty : ITy) (p : Pred) (a b : Reg)
  | icmpi (c : Ctl) (cond : ICond) (ty : ITy) (p : Pred) (a : Reg) (imm : BitVec 24)
  | and (c : Ctl) (ty : ITy) (d a b : Reg)
  | or (c : Ctl) (ty : ITy) (d a b : Reg)
  | xor (c : Ctl) (ty : ITy) (d a b : Reg)
  | not (c : Ctl) (ty : ITy) (d a : Reg)
  | blut3 (c : Ctl) (ty : ITy) (tt : BitVec 8) (d a b e : Reg)
  | lopi (c : Ctl) (op : LogicOp) (ty : ITy) (d a : Reg) (imm : BitVec 24)
  | shl (c : Ctl) (ty : ITy) (d a b : Reg)
  | shr (c : Ctl) (ty : ITy) (d a b : Reg)
  | sar (c : Ctl) (ty : ITy) (d a b : Reg)
  | rol (c : Ctl) (ty : ITy) (d a b : Reg)
  | shi (c : Ctl) (kind : ShiftKind) (ty : ITy) (d a : Reg) (imm : BitVec 24)
  | bfx (c : Ctl) (ty : ITy) (d a b : Reg)
  | bfi (c : Ctl) (ty : ITy) (d a b : Reg)
  | popc (c : Ctl) (ty : ITy) (d a : Reg)
  | clz (c : Ctl) (ty : ITy) (d a : Reg)
  | ctz (c : Ctl) (ty : ITy) (d a : Reg)
  | brev (c : Ctl) (ty : ITy) (d a : Reg)
  | permb (c : Ctl) (d a b e : Reg)
  | lea (c : Ctl) (ty : ITy) (sh : BitVec 3) (d a b : Reg)
  | sel (c : Ctl) (ty : ITy) (d a b : Reg) (p : Pred) (neg : Bool)
  | plop (c : Ctl) (tt : BitVec 8) (d a b e : Pred)
  | mov (c : Ctl) (ty : ITy) (d a : Reg)
  | movi (c : Ctl) (form : MoviForm) (d : Reg) (imm : Word)
  | movxRd (c : Ctl) (w64 : Bool) (d a base : Reg)
  | movxWr (c : Ctl) (w64 : Bool) (a base e : Reg)
  | srd (c : Ctl) (w64 : Bool) (sel : SReg) (d : Reg)
  | swr (c : Ctl) (a : Reg)
  -- Floating point (GEN)
  | fadd (c : Ctl) (ty : FTy) (rnd : Rnd) (m : FMods) (d a b : Reg)
  | fsub (c : Ctl) (ty : FTy) (rnd : Rnd) (m : FMods) (d a b : Reg)
  | fmul (c : Ctl) (ty : FTy) (rnd : Rnd) (m : FMods) (d a b : Reg)
  | ffma (c : Ctl) (ty : FTy) (rnd : Rnd) (m : FMods) (d a b e : Reg)
  | fmin (c : Ctl) (ty : FTy) (m : FMods) (d a b : Reg)
  | fmax (c : Ctl) (ty : FTy) (m : FMods) (d a b : Reg)
  | fcmp (c : Ctl) (cond : FCond) (ty : FTy) (m : FMods) (p : Pred) (a b : Reg) (q : Pred)
  | fclass (c : Ctl) (ty : FTy) (m : FMods) (d a : Reg)
  | frnd (c : Ctl) (ty : FTy) (rnd : Rnd) (m : FMods) (d a : Reg)
  | fscale (c : Ctl) (ty : FTy) (rnd : Rnd) (m : FMods) (d a b : Reg)
  | fgetexp (c : Ctl) (ty : FTy) (m : FMods) (d a : Reg)
  | fgetman (c : Ctl) (ty : FTy) (m : FMods) (d a : Reg)
  | fdot2 (c : Ctl) (ty : FTy) (rnd : Rnd) (m : FMods) (d a b e : Reg)
  | cvt (c : Ctl) (dst src : CFmt) (rnd : Rnd) (sat : Bool) (el : BitVec 3) (d a : Reg)
  | pack (c : Ctl) (pf : PFmt) (rnd : Rnd) (sat : Bool) (d a b : Reg)
  | unpack (c : Ctl) (pf : PFmt) (d a : Reg)
  -- Control
  | bra (c : Ctl) (off : BitVec 24) (hint : Bool)
  | brx (c : Ctl) (hint : Bool) (a : Reg)
  | call (c : Ctl) (off : BitVec 24) (hint : Bool)
  | callx (c : Ctl) (hint : Bool) (a : Reg)
  | ret (c : Ctl) (hint : Bool)
  | lpad (c : Ctl) (kinds : BitVec 3)
  | loop (c : Ctl) (off : BitVec 24) (a : Reg)
  | lbrk (c : Ctl) (hint : Bool)
  | spawn (c : Ctl) (off : BitVec 24) (a d : Reg)
  | exit (c : Ctl)
  | yield (c : Ctl)
  | bkpt (c : Ctl) (code : BitVec 12)
  | trap (c : Ctl) (code : BitVec 12)
  -- Special functions and random numbers (SFU)
  | rcp (c : Ctl) (ty : FTy) (m : FMods) (d a : Reg)
  | rsq (c : Ctl) (ty : FTy) (m : FMods) (d a : Reg)
  | sqrt (c : Ctl) (ty : FTy) (m : FMods) (d a : Reg)
  | fdiv (c : Ctl) (ty : FTy) (m : FMods) (d a b : Reg)
  | ex2 (c : Ctl) (ty : FTy) (m : FMods) (d a : Reg)
  | lg2 (c : Ctl) (ty : FTy) (m : FMods) (d a : Reg)
  | sinpi (c : Ctl) (ty : FTy) (m : FMods) (d a : Reg)
  | cospi (c : Ctl) (ty : FTy) (m : FMods) (d a : Reg)
  | tanh (c : Ctl) (ty : FTy) (m : FMods) (d a : Reg)
  | rand (c : Ctl) (unif : Bool) (d a b e : Reg)
  -- Cross-lane (XLN)
  | lxch (c : Ctl) (mode : XMode) (w64 edge : Bool) (ms : MSrc) (d a b : Reg)
  | vote (c : Ctl) (op : VoteOp) (neg : Bool) (ms : MSrc) (d : Reg) (a : Pred)
  | matchx (c : Ctl) (w64 : Bool) (ms : MSrc) (d a : Reg)
  | xred (c : Ctl) (op : XOp) (uns : Bool) (ms : MSrc) (d a : Reg)
  | xscan (c : Ctl) (op : XOp) (uns excl : Bool) (ms : MSrc) (d a : Reg)
  | lanemap (c : Ctl) (ms : MSrc) (a : Reg)
  | lanemapRd (c : Ctl) (d : Reg)
  | active (c : Ctl) (d : Reg)
  | elect (c : Ctl) (ms : MSrc) (p : Pred)
  -- Memory (MEM)
  | ld (c : Ctl) (sz : Size) (m : MemOp) (d : Reg)
  | st (c : Ctl) (sz : Size) (m : MemOp) (d : Reg)
  | prefL1 (c : Ctl) (sz : Size) (brec : BitVec 12) (a : Reg) (off : BitVec 13)
  | prefL2 (c : Ctl) (sz : Size) (brec : BitVec 12) (a : Reg) (off : BitVec 13)
  | cmaintWb (c : Ctl) (sz : Size) (brec : BitVec 12) (a : Reg) (off : BitVec 13)
  | cmaintWbinv (c : Ctl) (sz : Size) (brec : BitVec 12) (a : Reg) (off : BitVec 13)
  | cmaintWbmem (c : Ctl) (sz : Size) (brec : BitVec 12) (a : Reg) (off : BitVec 13)
  | fence (c : Ctl) (kind : FenceKind) (scope : Scope) (uo : Bool)
  | acqr (c : Ctl) (uo : Bool) (a : Reg)
  | acpy (c : Ctl) (sz : Size) (src : ASrc) (x y z : Reg)
  | mcpy (c : Ctl) (brec : BitVec 12) (x y z : Reg)
  | tbarInit (c : Ctl) (pool : Bool) (a : Reg) (off : BitVec 13) (d : Reg)
  | tbarArrive (c : Ctl) (pool : Bool) (a : Reg) (off : BitVec 13)
  | tbarArriveSect (c : Ctl) (pool : Bool) (a : Reg) (off : BitVec 13) (d : Reg)
  | tbarSect (c : Ctl) (pool : Bool) (a : Reg) (off : BitVec 13) (d : Reg)
  | tbarWait (c : Ctl) (pool : Bool) (a : Reg) (off : BitVec 13) (d : Reg)
  | tbarTest (c : Ctl) (pool : Bool) (a : Reg) (off : BitVec 13) (d : Reg)
  | atom (c : Ctl) (k : ACtl) (op : AtomOp) (ty : ITy) (sp : Space) (a d : Reg)
  | atomn (c : Ctl) (k : ACtl) (op : AtomOp) (ty : ITy) (sp : Space) (a d : Reg)
  | acas (c : Ctl) (k : ACtl) (ty : ITy) (sp : Space) (a d : Reg)
  | exsum (c : Ctl) (k : ACtl) (sp : Space) (a d : Reg)
  | excvt (c : Ctl) (k : ACtl) (bf16 clr : Bool) (sp : Space) (a d : Reg)
  | waitc (c : Ctl) (cond : WCond) (uo : Bool) (brec : BitVec 12) (a d : Reg)
  | llock (c : Ctl) (uo : Bool) (brec : BitVec 12) (a d : Reg)
  | lunlk (c : Ctl) (uo : Bool) (brec : BitVec 12) (a d : Reg)
  | ltry (c : Ctl) (uo : Bool) (brec : BitVec 12) (a d : Reg)
  | lstat (c : Ctl) (brec : BitVec 12) (a d : Reg)
  | bar (c : Ctl) (op : BarOp) (uo cnt : Bool) (id : BitVec 4) (d a b : Reg)
  | cbar (c : Ctl) (op : BarOp) (uo cnt : Bool) (id : BitVec 4) (d a b : Reg)
  -- Matrix, streams, tasks, collectives (MAT)
  | mxm (c : Ctl) (d a : Reg) (imm : BitVec 16)
  | mxldZero (c : Ctl) (int bank : Bool) (d : Reg)
  | mxldFill (c : Ctl) (int bank : Bool) (d b : Reg)
  | mxldRestore (c : Ctl) (int bank : Bool) (d a : Reg) (imm : BitVec 16)
  | mxst (c : Ctl) (bank : Bool) (d a : Reg) (imm : BitVec 16)
  | mxwait (c : Ctl) (a : Reg)
  | mstat (c : Ctl) (clr : Bool) (sel : BitVec 4) (d : Reg)
  | sshape (c : Ctl) (n : BitVec 3) (a : Reg)
  | sshapeRd (c : Ctl) (n : BitVec 3) (d : Reg)
  | strmOpen (c : Ctl) (d a : Reg)
  | strmSub (c : Ctl) (w : BitVec 3) (d a b : Reg)
  | strmUnsub (c : Ctl) (a : Reg)
  | strmClose (c : Ctl) (a : Reg)
  | taskpost (c : Ctl) (d a b : Reg) (imm : BitVec 16)
  | taskseq (c : Ctl) (d b : Reg)
  | taskseqWait (c : Ctl) (a b : Reg)
  | coll (c : Ctl) (d a : Reg) (imm : BitVec 16)
  | dxsync (c : Ctl) (d : Reg)
  | dxq (c : Ctl) (sel : BitVec 2) (d : Reg)
  -- System (SYS)
  | tret (c : Ctl) (keep : BitVec 8) (keepPw : Bool)
  | tretSkip (c : Ctl) (keep : BitVec 8) (keepPw : Bool)
  | caps (c : Ctl) (d a : Reg) (imm : BitVec 24)
  | elogSync (c : Ctl)
  | elogCnt (c : Ctl) (d : Reg)
  | elogPut (c : Ctl) (a b : Reg)
  | tlbiAll (c : Ctl)
  | tlbiVa (c : Ctl) (a : Reg)
  | tlbiPart (c : Ctl)
  | protld (c : Ctl) (slot : BitVec 3) (d a : Reg)
  | objdecl (c : Ctl) (slot : BitVec 3) (d a : Reg)
  | objrel (c : Ctl) (d a : Reg)
  -- Trap-emulated (GEN)
  | div64 (c : Ctl) (ty : ITy) (d a b : Reg)
  | rem64 (c : Ctl) (ty : ITy) (d a b : Reg)
  | mulh64 (c : Ctl) (ty : ITy) (d a b : Reg)
  | crcb (c : Ctl) (n : BitVec 2) (d a b : Reg)
  -- Events of a sub-core
  | bundleSeed (team grp : Nat)
  | clauseFetch (bundle : Nat)
  | clauseBoundary (bundle : Nat)
  | fairnessTimerExpiry (team grp : Nat)
  | readyButWaiting (team grp : Nat)
  | xlnExitCompletion (team grp : Nat)
  | eventRecordExpiry (team grp : Nat)
  | operationComplete (op : Nat)
  -- Fault queue
  | faultRecordPost (die : Nat)
  | answerRetry (die : Nat) (tag : BitVec 16)
  | answerFail (die : Nat) (tag : BitVec 16)
  | badtagClear (die : Nat)
  | faultQueueEnable (die : Nat) (value : DWord)
  -- Homes and engines
  | sliceRequestEnqueue (die core : Nat)
  | homeStorePerformed (die core line : Nat) (evict : Bool)
  | monitorReread (team grp lane : Nat)
  | waitcTimeout (team grp lane : Nat)
  | atomicRequestAtHome (req : Nat)
  | sluiceSectorLand (die core copy sectors : Nat)
  | acqrWriteback (req : Nat)
  | matrixOpComplete (die core : Nat)
  | causewayDataArrive (die core : Nat)
  | staitheTileDeliver (die core stream : Nat)
  | lockRequestAtHome (req : Nat)
  | unlockAtHome (req : Nat)
  | lockTimeout (team grp : Nat)
  | deadlockProbe (team grp : Nat)
  | absenceArrive (team grp : Nat)
  | presenceArrive (team grp : Nat)
  | lockholdMaxExpiry (team : Nat)
  -- Protocol events at one part of a coherence object
  | rd (die slice obj : Nat)
  | wr0 (die slice obj : Nat)
  | wr1 (die slice obj : Nat)
  | evc (die slice obj agent : Nat)
  | wb (die slice obj agent line : Nat)
  | ack (die slice obj : Nat)
  | staleMessage (die : Nat) (kind : MsgKind) (agent : Nat) (inc : BitVec 8)
  | hostMemoryAccess (acc : HostAcc)
  | bisnpResponse (line : Nat) (data : Option (List Byte))
  | hostLineWrite (pa : Nat) (data : List Byte)
  | retentionEnter (die core : Nat)
  | retentionWake (die core : Nat)
  -- Register writes of the companion processor
  | queueEnable (q : Nat) (value : DWord)
  | queueDisable (q : Nat) (value : DWord)
  | qtailWrite (q : Nat) (value : DWord)
  | registerWrite (off size : Nat) (value : DWord)
  | commit (p : Nat)
  | oversubClear (p : Nat)
  | resume (p : Nat)
  | drain (p : Nat)
  | kill (q : Nat)
  | lkcntClear (p : Nat)
  | staleCountersClear (die : Nat)
  | errorCountersClear (die : Nat)
  | declare (die agent : Nat)
  | replaysClear (port : Nat)
  | bootGo (image : List Byte)
  | attestGo
  | reset (deadSites : List (Nat × Nat × Nat)) (cxlBytes : List Nat)
  | codeObjectLoad (file : List Byte) (plan : LoadPlan)
  -- The Reeve
  | walkRecord (q : Nat)
  | linkFollow (q : Nat)
  | taskDistribute (task : Nat)
  | clusterPlace (task : Nat)
  | preemptDecision (task : Nat)
  | reclaimComplete (die core : Nat)
  | blockClearDone (die core block : Nat)
  | taskRetire (task : Nat)
  | taskFault (task : Nat)
  | swapwaitExpiry (team : Nat)
  | teamSave (team : Nat)
  | teamRestore (team : Nat)
  | teamRetire (team : Nat)
  | quantumCommit (task : Nat)
  -- Collectives and links
  | collectiveStart (die : Nat) (peers : List CollParams)
  | collectiveComplete (die : Nat) (outcome : CollEnd) (peers : List PeerData)
  | ualinkRequest (port : Nat) (req : LinkReq)
  | linkTraining (port width : Nat) (supported : Bool)
  | flitReplay (link : Link) (lane : Nat)
  | laneRetire (link : Link) (lane : Nat)
  | retrainDone (link : Link)
  | linkReplayTimeout (die agent : Nat)
  | selfTestFail (die agent : Nat)
  -- Power, thermal and RAS
  | throttleStep
  | partitionStop
  | unthrottleStep
  | thermalTrip (celsius : Nat)
  | scrub (die : Nat) (loc : ErrLoc) (corrected : Bool) (reader : Option ErrReader)
  | bankSpareCopy (die core bank : Nat)
  | l2WayReplace (die slice way : Nat)
  | coreRepair (die core : Nat)
deriving DecidableEq, Repr

end Sys2Proof
end

