-- ==== Sys2Proof/Machine/State.lean ====
section
/-!
DEFINITION. The state of the part, as plain data: every piece of state the spec gives the machine, the reasons a step can stop, and
the state right after reset.
-/

namespace Sys2Proof.Machine

/-- A fault of the model. -/
inductive Fault
  /-- Raised by the scheduler alone, when the agenda names a bundle that is not running; the hardware has no such step (safe). -/
  | noSuchBundle (bundle : Nat)
deriving DecidableEq, Repr

/-- A refusal: an instruction with no meaning. -/
inductive Refusal
  /-- Raised by an arm of the dispatcher whose instruction has no meaning yet (safe). -/
  | notModelled (mnemonic : String)
deriving DecidableEq, Repr

/-- A set of home lanes of one group (R7). -/
abbrev Lanes := BitVec 32

/-- A sparse table: the last value set for each key, in the order in which keys were first set. -/
abbrev FMap (β : Type) := List (Nat × β)

/-- Bytes by address, addresses strictly rising, no byte equal to 0 (log 3). -/
abbrev Memory := List Host.Cell

/-! ### Fibres and groups (chapters 1, 5, 6, 17) -/

/-- A register or predicate of a fibre, as R85 tracks it. -/
inductive RName | v (r : Reg) | p (p : Pred)
deriving DecidableEq, Repr

/-- One write of the running clause: where in the clause it issued and its fixed latency, 0 for a result of variable latency (R85). -/
structure WEntry where
  name : RName
  pos  : Nat
  lat  : Nat
  val  : Word
deriving DecidableEq, Repr

/-- One open loop level (R119). -/
structure LoopLevel where
  start : VAddr
  stop  : VAddr
  depth : Nat
deriving DecidableEq, Repr

/-- A trap frame (R355), with the COUNT of the trapped clause, which TEXT keeps (R77, R357). -/
structure Frame where
  tpc    : DWord
  tinst  : DWord
  tcause : Word
  pw     : Word
  taddr  : DWord
  v      : List Word
  count  : Nat
deriving DecidableEq, Repr

/-- What a fibre has done with the running clause: where it goes at the boundary (R98, R99). -/
inductive Leave
  /-- still in the bundle; falls through at the end -/
  | run
  /-- transferred control -/
  | goto (a : VAddr) (j : Nat)
  /-- returned from a trap: placed where the fall-through path stands (R357) -/
  | resume (a : VAddr) (j : Nat)
  /-- took a precise trap: next is the handler (R354) -/
  | trap
  /-- ended under EXIT (R124) -/
  | exit
  /-- waits after the instruction at the index (R198) -/
  | wait (j : Nat)
  /-- blocked before the instruction at the index (R202) -/
  | block (j : Nat)
  /-- parked at the cross-lane instruction at the index, with its participant set (R159) -/
  | park (j : Nat) (parts : Lanes)
  /-- finished the cross-lane instruction at the index with fibres that had been parked there (R159) -/
  | past (j : Nat)
  /-- asleep on a replayable fault at the index (R180) -/
  | sleep (j : Nat)
deriving DecidableEq, Repr

/-- What a waiting fibre waits for; `op` is its operation in flight, 0 when it carries no counter. -/
inductive Wait
  /-- a phase of the transaction barrier at a vault address (R197) -/
  | tbar (core addr : Nat) (phase : BitVec 4) (op : Nat)
  /-- a team or cluster barrier (R283) -/
  | bar (cluster : Bool) (id : Nat) (uo : Bool) (d : Option Reg) (op : Nat)
  /-- a monitor (R287); the deadline is in reference clocks -/
  | monitor (pa : Nat) (cond : WCond) (c : Word) (deadline : Option Nat) (uo : Bool) (d : Reg) (op : Nat)
  /-- the lock its group waits on (R297) -/
  | lock
  /-- a matrix ticket (R224) -/
  | mx (ticket : DWord) (op : Nat)
  /-- a completed sequence (R245) -/
  | seq (queue : Nat) (value : DWord) (op : Nat)
  /-- the core's matrix engine (R202) -/
  | engine
  /-- a commit of its deterministic grid (R332) -/
  | dx
deriving DecidableEq, Repr

/-- The state a fibre owns (R8), with the issue state of its running clause (R85, R88). -/
structure Fibre where
  live  : Bool
  pw    : BitVec 7
  regs  : List Word
  depth : Nat
  stack : List VAddr
  nest  : Nat
  lc    : List Word
  loops : List LoopLevel
  lclk  : BitVec 64
  frame : Frame
  h     : Bool
  d0    : Nat
  n0    : Nat
  /-- where the running clause has taken the fibre -/
  leave : Leave
  /-- registers and predicates as the clause began (R90) -/
  regs0 : List Word
  pw0   : BitVec 7
  /-- the writes of the running clause, newest first (R85) -/
  wlog  : List WEntry
  /-- registers awaiting the result of an operation in flight (R90) -/
  pend  : List (RName × Nat)
  /-- uncovered registers and the counter that covers each (R88) -/
  uncov : List (RName × Nat)
  wait  : Option Wait
  /-- outstanding requests that later accesses of the fibre follow (R251, R254, R281) -/
  order : Nat
  /-- lines of its loads that are on their way to their homes: later accesses to the same lines follow them (R251, R369) -/
  loads : List Nat
  /-- bytes it has stored in a vault under one of the two spaces, with no fence since, as they stood before: whether through the pool window, the core,
  the vault address, the byte (R252) -/
  crossed : List (Bool × Nat × Nat × Byte)
  /-- instructions performed with a counter and not yet complete (R123) -/
  busy  : Nat
  /-- logical clock at the last commit (R331) -/
  clkQ  : BitVec 64
  /-- commits that have passed while it waits (R330) -/
  waited : Nat
deriving DecidableEq, Repr

/-- Whether a path may issue: it waits (R198), is parked at a cross-lane instruction with its participant set, word and clause COUNT
(R159), sleeps on a replayable fault (R180), or has stopped for a quantum (R331). -/
inductive PathKind | ready | waiting | parked (parts : Lanes) (word : DWord) (count : Nat) | asleep | stopped
deriving DecidableEq, Repr

/-- A path: fibres of one group with one PC and one call depth (R97). -/
structure Path where
  pc    : VAddr
  idx   : Nat
  depth : Nat
  lanes : Lanes
  kind  : PathKind
deriving DecidableEq, Repr

/-- An open event record of a group (R359). -/
structure EventRec where
  cause  : Nat
  clause : VAddr
  count  : Nat
  opened : Nat
deriving DecidableEq, Repr

/-- What a lock's page says of its line. -/
structure LockPage where
  /-- its lines stay out of the L1: the lock moves alone (R298) -/
  noPin : Bool
  /-- fences stand beside the access (R250) -/
  so    : Bool
  /-- a line of an object follows its protocol (R177, R312) -/
  trk   : Bool
deriving DecidableEq, Repr

/-- A group's wait on a line lock (R291, R297, R304). -/
structure LockWait where
  line    : Nat
  uo      : Bool
  page    : LockPage
  /-- joined fibres: lane, result register, operation -/
  fibres  : List (Nat × Reg × Nat)
  absent  : Bool
  /-- in the overflow FIFO, with no entry (R306) -/
  inFifo  : Bool
  /-- remaining present clocks; none waits without limit -/
  left    : Option Nat
  /-- present clocks to the next probe; none when no probes run -/
  probe   : Option Nat
  /-- probe interval with which the wait began -/
  every   : Nat
  /-- the key of a deterministic request: clock, CLUSID, TEAMID, GRPID (R308) -/
  key     : List Nat
deriving DecidableEq, Repr

/-- A place an atomic acts on: a global physical address, or a vault address of a core. -/
inductive Place | mem (pa : Nat) | vault (core addr : Nat)
deriving DecidableEq, Repr

/-- What a Sluice copy moves (R190). -/
inductive CopyKind
  /-- one ACPY item: source, destination, size, barrier, vault addresses absolute on the core; the bytes it supplies, others being a
  higher lane's; its source's page is tracked -/
  | acpy (src : Place) (dst size bar : Nat) (keep : List Bool) (trk : Bool)
  /-- an MCPY: the shape record, the record base and the remaining sectors of each member in order -/
  | mcpy (shape : Nat) (base : Nat) (bytes dst mask bar : Nat)
deriving DecidableEq, Repr

/-- A request on its way to a home (R272, R293, R281, R369). -/
inductive ReqKind
  /-- the loads of n bytes of one group from one line, into registers from d: the page's order, C and TRK, and the lanes with their addresses -/
  | load (ord : Nat) (c trk : Bool) (line n : Nat) (d : Reg) (lanes : List (Nat × Nat))
  /-- lanes carry lane, result register, operand, second operand -/
  | atom (uo : Bool) (order : Order) (scope : Scope) (op : AtomOp) (ty : ITy) (ret : Bool) (pl : Place) (lanes : List (Nat × Reg × Nat))
  | acas (uo : Bool) (order : Order) (scope : Scope) (ty : ITy) (pl : Place) (lanes : List (Nat × Reg × Nat × Nat))
  | exsum (uo : Bool) (order : Order) (scope : Scope) (pl : Place) (lanes : List (Nat × Word))
  | excvt (uo : Bool) (order : Order) (scope : Scope) (bf16 clr : Bool) (pl : Place) (lanes : List (Nat × Reg))
  | lock (try_ uo : Bool) (line : Nat) (page : LockPage) (timeout : Word) (lanes : List (Nat × Reg))
  | unlock (uo : Bool) (line : Nat) (page : LockPage) (lanes : List (Nat × Reg))
  | acqr (uo : Bool) (die core lane : Nat)
deriving DecidableEq, Repr

/-- One buffered operation of a deterministic group (R332), with its operands as read at issue. -/
inductive DxEntry
  /-- global stores to tracked pages or to others: lane, physical address and bytes, in ascending home lane -/
  | st (trk : Bool) (w : List (Nat × Nat × List Byte))
  /-- vault and pool stores: core, vault address and bytes -/
  | stv (w : List (Nat × Nat × List Byte))
  /-- the requests of an ATOMN or EXSUM, each with the object and address of a tracked line -/
  | reqs (rs : List (Option (Nat × Nat) × ReqKind))
  | cmaint (op : Nat) (lines : List Nat)
  | tbar (code : Nat) (acts : List (Nat × Nat × Word))
  /-- the copies of an ACPY: lane and copy -/
  | acpy (items : List (Nat × CopyKind))
  | mcpy (leader : Nat) (kind : CopyKind)
  | sshape (n : Nat) (value : DWord)
  | elogSync
  | elogPut (a b : Word)
  /-- an event record that a later event of the quantum closed (R332, R359) -/
  | event (e : EventRec)
deriving DecidableEq, Repr

/-- A buffered operation with its operations in flight. -/
structure DxItem where
  what : DxEntry
  ops  : List Nat
deriving DecidableEq, Repr

/-- A group (R6): 32 home lanes on one sub-core. -/
structure Group where
  fibres  : List Fibre
  subcore : Nat
  wbase   : Nat
  gref    : Nat
  paths   : List Path
  /-- fairness timer (R106) -/
  timer   : Nat
  /-- the core clock of the due mark (R107) -/
  due     : Option Nat
  /-- core clock from which the front path counts as ready (R102) -/
  readyAt : Nat
  /-- a one-path YIELD passes over the group once (R125) -/
  skip    : Bool
  /-- SB1 to SB7; entry 0 unused (R87) -/
  sb      : List Nat
  /-- the bundle that runs the front path; 0 when none (R105) -/
  bundle  : Nat
  /-- remap table (R164) -/
  remap   : List Nat
  event   : Option EventRec
  /-- lines the group holds as locks, at most 8 (R291) -/
  held    : List Nat
  lwait   : Option LockWait
  /-- asleep on replayable faults, with the tags outstanding (R180) -/
  asleep  : Bool
  tags    : List Nat
  /-- 64 KiB regions answered FAIL for the instruction at hand (R180) -/
  failed  : List Nat
  /-- buffer of a deterministic group, oldest first (R332) -/
  dxbuf   : List DxItem
  /-- lanes freed in the running quantum (R334) -/
  dxgone  : Lanes
  /-- the group issued since the last commit (R336) -/
  dxran   : Bool
deriving DecidableEq, Repr

/-! ### The matrix engine (chapter 10) -/

/-- An MXM descriptor (R205). -/
structure MxmDesc where
  sshi : Nat
  bank : Bool
  sat  : Bool
  bsrc : Bool
  cw   : Bool
  role : Nat
  zero : Bool
  bsc  : Nat
  asc  : Nat
  ldb  : Nat
  bloc : Nat
  lda  : Nat
  aloc : Nat
  bfmt : Nat
  afmt : Nat
  k    : Nat
  n    : Nat
  m    : Nat
deriving DecidableEq, Repr

/-- An MXST store descriptor (R222). -/
structure MxstDesc where
  col0  : Nat
  row0  : Nat
  cols  : Nat
  rows  : Nat
  alpha : Word
  brec  : Nat
  glb   : Bool
  rnd   : Rnd
  sat   : Bool
  fmt   : Nat
  ldd   : Nat
  dst   : Nat
deriving DecidableEq, Repr

/-- A queued matrix operation (R203). -/
inductive MatKind
  | mxm (d : MxmDesc) (ssh : DWord)
  | zero (int : Bool) (bank : Bool)
  | fill (int : Bool) (bank : Bool) (value : Word)
  | restore (int : Bool) (bank : Bool) (off : Nat)
  | store (bank : Bool) (d : MxstDesc)
deriving DecidableEq, Repr

structure MatOp where
  ticket : DWord
  kind   : MatKind
  /-- tag of the fault record that pauses a store (R223) -/
  paused : Option Nat
deriving DecidableEq, Repr

/-- An accumulator bank (R211): `base` holds for every element not listed. -/
structure Bank where
  int   : Bool
  base  : BitVec 48
  elems : FMap (BitVec 48)
deriving DecidableEq, Repr

/-- A delivered stream tile (R217): shape facts and packed bytes. -/
structure Tile where
  fmt  : Nat
  ext0 : Nat
  ext1 : Nat
  ok   : Bool
  data : List Byte
deriving DecidableEq, Repr

/-- A subscription of the engine (R217). -/
structure Sub where
  stream : Nat
  next   : Nat
  window : Nat
  tiles  : List Tile
deriving DecidableEq, Repr

/-- What a chain operation sends east (R214): the header, the A rows and the A scales. -/
structure ChainMsg where
  k      : Nat
  afmt   : Nat
  rows   : Nat
  cw     : Bool
  data   : List (List Byte)
  scales : List (List Byte)
deriving DecidableEq, Repr

/-- Who holds a matrix engine (R202). -/
inductive Holder | team (tid : Nat) | task (id : Nat)
deriving DecidableEq, Repr

structure Engine where
  holder   : Option Holder
  reserved : Option Nat
  ab0      : Bank
  ab1      : Bank
  /-- bank modes as left by the last operation issued (R206) -/
  mode0    : Bool
  mode1    : Bool
  queue    : List MatOp
  subs     : List Sub
  /-- data waiting from the west neighbour, oldest first (R214) -/
  inbox    : List ChainMsg
  /-- the next of its data to send on is the head of the list: sent but not arrived -/
  outbox   : List ChainMsg
deriving DecidableEq, Repr

/-! ### Teams, clusters, grids (chapters 1, 3, 4, 10, 13, 16, 17) -/

/-- The values a launch takes from its kernel descriptor and CODE payload (R13, R48). -/
structure Kernel where
  kdesc    : Nat
  text     : Nat
  rodata   : Nat
  entry    : Nat
  trapoff  : Option Nat
  dtoff    : Nat
  dtlen    : Nat
  brtab    : Nat
  argva    : Nat
  arglen   : Nat
  nbrec    : Nat
  gpt      : Nat
  fpg      : Nat
  win      : Nat
  vbanks   : Nat
  fairq    : Nat
  lktmo    : Nat
  swapwait : Nat
  sbchk    : Bool
  clw      : Nat
  clh      : Nat
  ssh      : List DWord
  nclus    : Nat
  /-- the quantum of a deterministic grid (R329) -/
  dx       : Option Nat
deriving DecidableEq, Repr

/-- One barrier and its episode (R283); arrivals are (team, group, lane). -/
structure Barrier where
  open_  : Bool
  op     : BarOp
  cnt    : Bool
  count  : Nat
  acc    : Word
  nonz   : Nat
  waiters : List (Nat × Nat × Nat)
deriving DecidableEq, Repr

/-- The life of a team (R363 to R368, R58). -/
inductive TeamStatus
  | resident
  /-- seeds no bundle; drains for a save (R363); `swap` when it is a swap-out -/
  | saving (swap stop : Bool)
  /-- saved at the physical address, with the size in 64 KiB units and the check word; `swap` when swapped out -/
  | saved (addr units : Nat) (check : DWord) (swap : Bool)
  | halted
  | retired
deriving DecidableEq, Repr

structure Team where
  grid    : Nat
  ctx     : Nat
  part    : Nat
  clusid  : Nat
  teamid  : Nat
  die     : Nat
  core    : Nat
  prio    : Nat
  /-- clock and order of the placement (R103) -/
  placed  : Nat
  kern    : Kernel
  groups  : List Group
  bars    : List Barrier
  ssh     : List DWord
  /-- L0LOST, L1LOST, L2LOST, L3INEXACT (R213) -/
  swamp   : List Nat
  mflt    : Word
  issued  : DWord
  doneT   : DWord
  /-- first vault block, system blocks, data blocks (R66) -/
  run0    : Nat
  nsys    : Nat
  status  : TeamStatus
  /-- core clock from which every live fibre has been blocked (R363) -/
  blocked : Option Nat
  /-- clock of the decision to save, while it is deferred, and its LOCKHOLD_MAX (R300) -/
  defer   : Option (Nat × Nat)
  /-- the engine of a team saved as its holder (R229) -/
  mat     : Option Engine
  /-- the decision for which it is being saved: the task and its next cluster (R52) -/
  why     : Option (Nat × Nat)
  /-- decisions for which it was to be saved and the save pool had no room, none having been freed since (R364) -/
  full    : List (Nat × Nat)
  /-- since the decision to save it, a wait of it has been released or has expired, or a group of it has woken (R367) -/
  freed   : Bool
deriving DecidableEq, Repr

/-- A waiting synchronising operation of a deterministic grid (R332): its key and its fibres as (team, group, lane). -/
structure DxOp where
  key    : List Nat
  instr  : Instr
  word   : DWord
  clause : VAddr
  count  : Nat
  idx    : Nat
  team   : Nat
  lanes  : List (Nat × Nat)
  ops    : List (Nat × Nat)
deriving DecidableEq, Repr

structure Grid where
  task    : Nat
  ctx     : Nat
  part    : Nat
  queue   : Nat
  die     : Nat
  prio    : Option Nat
  kern    : Kernel
  next    : Nat
  retired : Nat
  commits : Nat
  dxops   : List DxOp
  /-- a commit is under way: its buffers have been applied, and it is held (R335) -/
  applied : Bool
  /-- the synchronising operations that the commit under way has still to perform, in ascending key (R334) -/
  todo    : List DxOp
  /-- a safe point has been reached and the grid's teams are being saved (R337) -/
  safe    : Bool
deriving DecidableEq, Repr

/-- A cluster: its four cluster barriers live while any member is resident or saved (R285). -/
structure Cluster where
  grid   : Nat
  clusid : Nat
  teams  : List Nat
  left   : Nat
  bars   : List Barrier
deriving DecidableEq, Repr

/-- A bundle (R104): one clause's worth of lanes. -/
structure Bundle where
  team    : Nat
  subcore : Nat
  pc      : VAddr
  idx     : Nat
  depth   : Nat
  /-- group and lanes, in ascending GRPID after the seed -/
  members : List (Nat × Lanes)
  fetched : Bool
  cls     : Nat
  words   : List DWord
  /-- the distance of R85 from the start of the clause -/
  pos     : Nat
  readyAt : Nat
  /-- core clock in which its last instruction issued, or it was seeded (R102) -/
  issued  : Nat
  /-- seeded and no instruction issued yet: it holds the clock in which it was seeded (R103) -/
  first   : Bool
  /-- the instruction that has just issued waits to issue again -/
  stall   : Bool
  /-- a fibre of the named groups performed YIELD -/
  yields  : List Nat
  /-- fibres created by SPAWN, by group: path lanes and entry -/
  spawns  : List (Nat × Lanes × VAddr)
deriving DecidableEq, Repr

/-! ### Operations in flight -/

/-- An instruction of variable latency in flight for one group (R87). -/
structure Op where
  team   : Nat
  grp    : Nat
  sb     : Nat
  /-- lanes whose effect is outstanding -/
  left   : List Nat
  /-- lanes that performed it -/
  lanes  : List Nat
  writes : List (Nat × RName × Word)
  /-- the register that takes the count of event records as it stands when the operation is complete (R360) -/
  sample : Option Reg
  /-- names of the accesses in flight that must end before it completes (R179) -/
  after  : List Nat
deriving DecidableEq, Repr

/-- The fields that name who caused a context-log record (R361). -/
structure LogWho where
  clusid : Nat
  teamid : Nat
  grpid  : Nat
  core   : Nat
  die    : Nat
deriving DecidableEq, Repr

/-- A kill decided in the running step (R362): context block, code, and the event's own record. -/
structure KillReq where
  ctx  : Nat
  code : Nat
  who  : LogWho
  data : List Byte
deriving DecidableEq, Repr

structure Req where
  team : Nat
  grp  : Nat
  op   : Nat
  kind : ReqKind
  /-- its page has TRK = 1: where its line belongs to an object as it reaches the home, the protocol takes it (R177, R271) -/
  trk  : Bool
  /-- its page is an SO page: fences stand beside it (R250) -/
  so   : Bool
  /-- requests of one instruction of a bundle at one vault, which are one event there; 0 for the others (R264) -/
  bunch : Nat
  /-- its slice has begun it (R370) -/
  begun : Bool
  /-- a class-0 read that missed in the L2, with the stack it goes to (R57) -/
  hbm  : Option Nat
deriving DecidableEq, Repr

structure Copy where
  team   : Nat
  /-- group and lane that asked: of an MCPY, the leader -/
  grp    : Nat
  lane   : Nat
  /-- operations to count down when it ends -/
  ops    : List Nat
  kind   : CopyKind
  done   : Nat
  /-- tag of the fault record that pauses it (R194) -/
  paused : Option Nat
  /-- the bytes of the source, from its first on, that a commit read at the copy's place in it (R334) -/
  data   : List Byte
deriving DecidableEq, Repr

/-! ### Cores, slices, dies (chapters 4, 9, 12 to 15, 22) -/

/-- An L1 or lent-block copy of a line (R177, R266, R312). -/
structure L1Line where
  line  : Nat
  data  : List Byte
  dirty : List Bool
  epoch : BitVec 12
  uo    : Bool
  /-- object ID and GEN of a tracked copy (R312) -/
  obj   : Option (Nat × Nat)
  /-- granted exclusively (R315) -/
  excl  : Bool
deriving DecidableEq, Repr

/-- A vault block that is not free (R66, R68, R71); a free one is lent where its partition lends (R70). A block is reclaimed for a
task's placement, and stands ready for it once done. -/
inductive BlockState | clearing | reclaim (task : Nat) (done : Bool) | owned (team : Nat) | task (id : Nat)
deriving DecidableEq, Repr

/-- A cached table entry (R178): root, level, the VA bits that index it, the entry. -/
structure TlbEntry where
  root  : Nat
  level : Nat
  pre   : Nat
  entry : DWord
deriving DecidableEq, Repr

structure Core where
  vault   : Memory
  blocks  : FMap BlockState
  l1      : List L1Line
  ecur    : BitVec 12
  tlb     : List TlbEntry
  /-- fetched words kept by the L0 and the loop buffers: root, address, word (R77) -/
  l0      : List (Nat × Nat × DWord)
  /-- buffer records kept since their first use: grid, index, record (R20) -/
  recs    : List (Nat × Nat × Nat)
  eng     : Engine
  copies  : FMap Copy
  /-- lines pinned under locks (R298) -/
  pins    : List Nat
  /-- object lookaside: IDs of objects known (R312) -/
  look    : List Nat
  asleep  : Bool
  /-- sleep-invalidate log and its overflow bit (R324) -/
  slog    : List (Nat × Nat)
  sover   : Bool
  /-- marked to drop every tracked line at wake (R325) -/
  sall    : Bool
  /-- clock since which the core has been idle (R398) -/
  idle    : Nat
  /-- sixteenths of clocks that the core has counted beyond those of its partition (R58, R144) -/
  gap     : Int
  /-- sub-cores that have issued, with the core clock of their last instruction (R103) -/
  slots   : FMap Nat
  /-- operations on the vault in its running clock: that clock, and for each aligned 16 bytes the last one's place in the clock's order (R199) -/
  bank    : Nat × List (Nat × List Nat)
  /-- spare vault banks in use (R391) -/
  spares  : List Nat
  /-- corrected words of each vault bank (R391) -/
  corr    : FMap Nat
deriving DecidableEq, Repr

/-- A lock table entry (R290); `queue` is the list from HEAD to TAIL along the NEXT links. -/
structure LockEntry where
  line   : Nat
  orph   : Bool
  holder : Option Nat
  queue  : List Nat
deriving DecidableEq, Repr

/-- One monitor of a group on one word (R288). -/
structure Monitor where
  team   : Nat
  grp    : Nat
  pa     : Nat
  table  : Bool
  bucket : Nat
  /-- a wake whose re-read is pending (R287) -/
  woken  : Bool
deriving DecidableEq, Repr

/-- What a core asks of a tracked line's home (R312). -/
inductive PReqKind
  /-- the loads of n bytes of a group into registers from d: the lanes with their addresses (R369) -/
  | ld (team grp : Nat) (lanes : List (Nat × Nat)) (d : Reg) (n : Nat) (op : Nat)
  /-- a store of the bytes by a fibre -/
  | st (team grp lane : Nat) (data : List Byte) (op : Nat)
  /-- an atomic request (R271) -/
  | atom (req : Nat)
  /-- a host access (R326) -/
  | hostRead
  | hostOwn (data : List Byte)
  /-- the release of the object (R322), for the fibres that asked -/
  | rel
  /-- a lock grant's fetch of the line, for a group (R295) -/
  | lock (team grp : Nat)
  /-- an access by an agent that keeps no copies: none reads, some writes the bytes (R310) -/
  | engine (data : Option (List Byte))
  /-- an event that moves no data, with its code: a line dropped, dirty bytes written back, a holder dead, a line taken back (R314, R316) -/
  | note (event : Nat)
  /-- the monitor read of a group (R271, R323) -/
  | watch (team grp : Nat)
deriving DecidableEq, Repr

structure PReq where
  kind  : PReqKind
  /-- requesting agent of R310 -/
  agent : Nat
  /-- die and core behind it -/
  die   : Nat
  core  : Nat
  pa    : Nat
deriving DecidableEq, Repr

/-- A part of an object at one slice (R311, R316). -/
structure ObjPart where
  state  : Nat
  owner  : Nat
  shr    : BitVec 74
  queue  : List PReq
  /-- second phase awaiting acknowledgements: entry and request -/
  second : Option (BitVec 32 × PReq)
deriving DecidableEq, Repr

/-- An object ID (R311), the same at every slice. -/
structure Obj where
  gen   : Nat
  v     : Bool
  pslot : Nat
  part  : Nat
  ctx   : Nat
  shape : Nat
  lines : List Nat
  /-- its release waits for the parts to come to state 0 (R322) -/
  rel   : Bool
deriving DecidableEq, Repr

structure Slice where
  /-- requests held in the slice's input queue, oldest first, each with the clock in which it entered (R370) -/
  inq     : List (Nat × Nat)
  /-- the clock in which the slice last began a request (R370) -/
  began   : Option Nat
  locks   : FMap LockEntry
  /-- locks that events have reached in the running clock: line, clock, step of the last (R305) -/
  turns   : List (Nat × Nat × Nat)
  /-- overflow FIFO: GREF and line (R306) -/
  fifo    : List (Nat × Nat)
  mons    : List Monitor
  /-- host directory: line and whether exclusive, least recently used first (R326) -/
  hostdir : List (Nat × Bool)
  parts   : FMap ObjPart
  /-- physical way that replaces a failed one (R391) -/
  spare   : Option Nat
deriving DecidableEq, Repr

/-- Who waits for the answer to a fault record (R180, R194, R217, R231, R241). -/
inductive FaultFor
  | group (team grp region : Nat)
  | copy (die core id : Nat)
  | mat (die core : Nat)
  | stream (die id : Nat)
  | walk (queue : Nat)
  | word (queue : Nat)
  | task (id : Nat)
  | coll (die : Nat)
deriving DecidableEq, Repr

/-- A fault record not yet answered (R181, R182). -/
structure FaultRec where
  tag  : Nat
  who  : FaultFor
  bytes : List Byte
deriving DecidableEq, Repr

/-- An open stream of a die's Staithe (R216, R217). -/
structure Stream where
  ctx     : Nat
  team    : Nat
  shape   : Nat
  base    : Nat
  tstride : Int
  tiles   : Nat
  replay  : Nat
  /-- replay buffer: tile index and bytes, oldest first -/
  buf     : List (Nat × List Byte)
  paused  : Option Nat
  /-- CLOSE waits for the last subscriber (R227) -/
  closing : Bool
deriving DecidableEq, Repr

/-- A collective descriptor (R343). -/
structure CollDesc where
  seq     : DWord
  cploff  : Nat
  dscoff  : Nat
  sscoff  : Nat
  dstoff  : Nat
  srcoff  : Nat
  count   : Nat
  cplbrec : Nat
  dstbrec : Nat
  srcbrec : Nat
  root    : Nat
  comm    : Nat
  ssh     : DWord
  fmt     : Nat
  rop     : Nat
  rmode   : Nat
  op      : Nat
deriving DecidableEq, Repr

/-- A collective accepted by a die's engine (R345, R346). -/
structure Coll where
  desc    : CollDesc
  ctx     : Nat
  part    : Nat
  /-- the Reeve's task, or the issuing team and the group of its leader -/
  task    : Option Nat
  team    : Nat
  grp     : Nat
  nranks  : Nat
  rank    : Nat
  /-- virtual addresses of source, destination and their scales, and of the completion word -/
  src     : Nat
  dst     : Nat
  ssc     : Nat
  dsc     : Nat
  cpl     : Option Nat
  /-- the ranks have exchanged their parameters, and it runs (R346) -/
  started : Bool
  failed  : Option Nat
  /-- tag of the fault record that pauses it -/
  paused  : Option Nat
  /-- virtual address of the rank map; the endpoint IDs of the ranks, once the engine has read them (R342, R383) -/
  map     : Nat
  ends    : List Nat
  /-- what the other die's rank has brought, when that rank has completed first (R346) -/
  got     : Option PeerData
deriving DecidableEq, Repr

structure Die where
  l2tlb  : List TlbEntry
  fqbase : DWord
  fqlog2 : Nat
  fqen   : Bool
  fqwr   : Word
  fqrd   : Word
  badtag : Bool
  /-- misses waiting for room in the ring, oldest first (R181) -/
  fqwait : List FaultRec
  /-- records posted and not answered -/
  fqout  : List FaultRec
  nexttag : Nat
  streams : FMap Stream
  colls  : List Coll
  /-- STALEWB, STALEACK, AGSEL (R328) -/
  stalewb  : Word
  staleack : Word
  agsel    : Nat
  /-- incarnation of each agent (R327) -/
  inc    : FMap (BitVec 8)
  /-- clock of an agent's last declaration, for its spacing (R327) -/
  dead   : FMap Nat
  uecnt  : Word
  cecnt  : Word
  rlwr   : Nat
  rlbase : Nat
  rasagent : Nat
  pkgid  : Nat
  pauses : Word
deriving DecidableEq, Repr

/-! ### Queues, partitions, contexts, tasks (chapters 3, 11, 17) -/

structure Queue where
  qbase  : DWord
  qhead  : DWord
  qtail  : DWord
  qcompa : DWord
  part   : Nat
  prio   : Nat
  en     : Bool
  qerr   : Nat
  qctx   : DWord
  /-- stopped by an error, QBASE unwritten since (R46) -/
  held   : Bool
  /-- the record that the walker was reading, for an answer, when EN was written 0: it stops after it (R46) -/
  last   : Option DWord
  /-- records that TASKPOST has appended and the walker has not entered (R244) -/
  ahead  : Nat
  /-- next sequence number (R237) -/
  seq    : DWord
  /-- completed sequence (R241) -/
  comp   : DWord
  /-- value last written to the completion word -/
  word   : DWord
  /-- writes at QCOMPA that wait for the answer to a fault record: offset and bytes (R241) -/
  pend   : List (Nat × List Byte)
  wordTag : Option Nat
  /-- the walk waits for an answer (R231) -/
  walkTag : Option Nat
  /-- the answer was FAIL: a chain fault on the record at QHEAD (R231) -/
  walkFail : Bool
  /-- the lowest sequence number that will never be covered: of a task that faulted or was discarded (R240, R242) -/
  stuck   : Option DWord
  /-- tasks that retired with IRQ and whose interrupt has not been raised (R241) -/
  irqs    : List DWord
deriving DecidableEq, Repr

/-- State of a tile (R236). -/
structure TileState where
  /-- entered writers that have not retired -/
  writers : Nat
  /-- some writer has retired since the partition was committed -/
  resident : Bool
  level2  : Bool
  place   : Nat
deriving DecidableEq, Repr

structure Partition where
  /-- staged descriptor (R53), 512 bits -/
  desc   : Nat
  /-- descriptor in force -/
  live   : Option Nat
  cstat  : Nat
  oversub : Word
  stopped : Bool
  /-- clock steps below 1.5 GHz (R58), 0 to 12 -/
  steps  : Nat
  /-- sixteenths of clocks counted by the partition's cores -/
  cyc16  : Nat
  dlprobe : Word
  holdmax : Word
  ndead  : Nat
  norph  : Nat
  nfull  : Nat
  novfl  : Nat
  ttbase : DWord
  ttlen  : Nat
  tiles  : FMap TileState
  cmbase : DWord
  cmlen  : Nat
  /-- a DRAIN waits for started tasks (R242) -/
  drain  : Bool
deriving DecidableEq, Repr

/-- A context in use (R351): the fixed fields of its block. -/
structure Ctx where
  id     : Word
  priv   : Bool
  root   : Nat
  part   : Nat
  elbase : Nat
  ellog2 : Nat
  clbase : Nat
  cllog2 : Nat
  savebase : Nat
  savelen  : Nat
  killed : Option Nat
  /-- save-pool runs in use: first unit and units (R365) -/
  saves  : List (Nat × Nat)
  /-- the capability list, fixed as the context came into use (R24, R25) -/
  caps   : List Word
deriving DecidableEq, Repr

/-- Progress of an entered task (R237 to R242). -/
inductive TaskState | entered | started | faulted
deriving DecidableEq, Repr

structure Task where
  die    : Nat
  queue  : Nat
  ctx    : Nat
  part   : Nat
  seq    : DWord
  /-- record address and bytes -/
  addr   : Nat
  bytes  : List Byte
  type   : Nat
  ins    : List Nat
  outs   : List Nat
  /-- descriptors of the named tiles: ADDR and BYTES (R235) -/
  tins   : List (Nat × Nat)
  touts  : List (Nat × Nat)
  irq    : Bool
  /-- clock of the entry (R51) -/
  entered : Nat
  /-- order among tasks: entry number, moved after the writers a deferred reader waits for (R238) -/
  order  : List Nat
  /-- tiles of which the task is a deferred reader, and those of them whose next writer has not been entered (R238) -/
  deferred : List Nat
  defer  : List Nat
  state  : TaskState
  prio   : Nat
  /-- engine: core of the die, where one runs it -/
  core   : Option Nat
  /-- vault run of an MXM task: first block and blocks -/
  run    : Option (Nat × Nat)
  grid   : Option Nat
  kern   : Option Kernel
  /-- the communicator entry of a COLL task, as read at the entry (R231) -/
  comm   : Nat
  paused : Option Nat
deriving DecidableEq, Repr

/-! ### Links, boot, attestation (chapter 22) -/

structure Port where
  replays : Word
  refused : Nat
  retired : Nat
  width   : Nat
deriving DecidableEq, Repr

structure CxlPort where
  /-- bytes attached (R386) -/
  cap   : Nat
  width : Nat
  retired : List Nat
  down  : Bool
deriving DecidableEq, Repr

structure Boot where
  addr  : DWord
  len   : Word
  stat  : Nat
  /-- the image that runs -/
  image : List Byte
deriving DecidableEq, Repr

structure Attest where
  nonce   : List DWord
  rptaddr : DWord
  stat    : Nat
  gen     : Nat
deriving DecidableEq, Repr

/-- Replays lately attributed to a lane: the link's number, the lane, the clock (R390). -/
structure Replay where
  link : Link
  lane : Nat
  at_  : Nat
deriving DecidableEq, Repr

/-- What the next step does. -/
inductive Move
  /-- an event happens -/
  | event (i : Instr)
  /-- a running bundle issues its next instruction -/
  | issue (bundle : Nat)
  /-- clocks pass -/
  | idle
deriving DecidableEq, Repr

/-- The state of the part. -/
structure State where
  /-- reference clocks since reset (R5) -/
  now     : Nat
  /-- the moves to come, each with the clocks that pass before it (log 2) -/
  agenda  : List (Nat × Move)
  /-- the bundle whose instruction is being performed -/
  focus   : Option Nat
  /-- free values taken so far (log 1) -/
  free    : Nat
  teams   : FMap Team
  grids   : FMap Grid
  clusters : List Cluster
  bundles : FMap Bundle
  ops     : FMap Op
  reqs    : FMap Req
  /-- next names of teams, grids, bundles, operations, requests, tasks, groups -/
  serial  : Nat
  /-- kills decided in the running step; none between steps -/
  kills   : List KillReq
  cores   : FMap Core
  slices  : FMap Slice
  dies    : FMap Die
  parts   : FMap Partition
  queues  : FMap Queue
  ctxs    : FMap Ctx
  /-- summation-shape presets that the loader found for a kernel descriptor: context block, its address, the presets (R13, R16) -/
  presets : List (Nat × Nat × List DWord)
  /-- BASE fields of buffer record templates that a launch fills from its argument block: context block, the field's address, the offset of the word in
  the block (R15) -/
  argmarks : List (Nat × Nat × Nat)
  /-- what the loader last reported: its code, the verifier's code, the place at fault (R16, R379) -/
  report  : Nat × Nat × Nat
  tasks   : FMap Task
  mem     : Memory
  objs    : FMap Obj
  /-- lines whose mark is 1 (R313) -/
  marks   : List Nat
  /-- lines for which a back-invalidation snoop awaits the host's answer (R326) -/
  snoops  : List Nat
  /-- runs of bytes that device agents have written to untracked lines whose snoops are outstanding: line, address, bytes (R326) -/
  snooped : List (Nat × Nat × List Byte)
  /-- protocol slots 0 to 7 (R318) -/
  prots   : List (Option (List Byte))
  ports   : FMap Port
  cxl     : FMap CxlPort
  /-- groups of Milesk Link lanes dropped, and whether it is down (R390) -/
  milesk  : List Nat
  mileskDown : Bool
  replays : List Replay
  /-- links that retrain (R390) -/
  retrain : List Link
  boot    : Boot
  attest  : Attest
  /-- interrupt messages sent, oldest first (R385) -/
  irqs    : List (BitVec 64)
  /-- dead core sites: die, column, site (R59) -/
  deadSites : List (Nat × Nat × Nat)
  /-- sites of cores declared dead whose column is to be repaired: die, column, site (R391) -/
  repair  : List (Nat × Nat × Nat)
  /-- clock of the last power step, and of the last stop (R58) -/
  pwrStep : Nat
  pwrFloor : Option Nat
  /-- clock from which, under pressure, no partition of fixed clock runs (R58) -/
  pwrQuiet : Option Nat
  /-- the thermal trip has removed power (R397) -/
  tripped : Bool
deriving DecidableEq, Repr

/-! ### Reset values -/

def Frame.reset : Frame := ⟨0, 0, 0, 0, 0, List.replicate 8 0, 0⟩

/-- A home lane with no fibre. -/
def Fibre.reset : Fibre :=
  { live := false, pw := 0, regs := [], depth := 0, stack := [], nest := 0, lc := [0, 0, 0], loops := [], lclk := 0,
    frame := Frame.reset, h := false, d0 := 0, n0 := 0, leave := .run, regs0 := [], pw0 := 0, wlog := [], pend := [], uncov := [],
    wait := none, order := 0, loads := [], crossed := [], busy := 0, clkQ := 0, waited := 0 }

def Barrier.reset : Barrier := ⟨false, .sync, false, 0, 0, 0, []⟩

/-- Both banks hold +0 in float mode (R211). -/
def Bank.reset : Bank := ⟨false, 0, []⟩

def Engine.reset : Engine := ⟨none, none, Bank.reset, Bank.reset, false, false, [], [], [], []⟩

def Core.reset : Core :=
  { vault := [], blocks := [], l1 := [], ecur := 0, tlb := [], l0 := [], recs := [], eng := Engine.reset, copies := [], pins := [], look := [],
    asleep := false, slog := [], sover := false, sall := false, idle := 0, gap := 0, slots := [], bank := (0, []), spares := [], corr := [] }

def Slice.reset : Slice := ⟨[], none, [], [], [], [], [], [], none⟩

/-- R311: OWNER resets to 127. -/
def ObjPart.reset : ObjPart := ⟨0, 127, 0, [], none⟩

def Obj.reset : Obj := ⟨0, false, 0, 0, 0, 0, [], false⟩

/-- R181, R328, R389: FQLOG2 resets to 6, every other field to 0. -/
def Die.reset : Die :=
  { l2tlb := [], fqbase := 0, fqlog2 := 6, fqen := false, fqwr := 0, fqrd := 0, badtag := false, fqwait := [], fqout := [],
    nexttag := 0, streams := [], colls := [], stalewb := 0, staleack := 0, agsel := 0, inc := [], dead := [], uecnt := 0, cecnt := 0,
    rlwr := 0, rlbase := 0, rasagent := 0, pkgid := 0, pauses := 0 }

/-- R45: PRIO resets to 31, every other field to 0; R237: sequence numbers start at 1. -/
def Queue.reset : Queue :=
  { qbase := 0, qhead := 0, qtail := 0, qcompa := 0, part := 0, prio := 31, en := false, qerr := 0, qctx := 0, held := false, last := none, ahead := 0,
    seq := 1, comp := 0, word := 0, pend := [], wordTag := none, walkTag := none, walkFail := false, stuck := none, irqs := [] }

/-- R53, R57, R235, R303, R341: DLPROBE resets to 64, LOCKHOLD_MAX to 16, every other field to 0. -/
def Partition.reset : Partition :=
  { desc := 0, live := none, cstat := 0, oversub := 0, stopped := false, steps := 0, cyc16 := 0, dlprobe := 64, holdmax := 16,
    ndead := 0, norph := 0, nfull := 0, novfl := 0, ttbase := 0, ttlen := 0, tiles := [], cmbase := 0, cmlen := 0, drain := false }

def TileState.reset : TileState := ⟨0, false, false, 0⟩

def Port.reset : Port := ⟨0, 0, 0, 0⟩

def CxlPort.reset : CxlPort := ⟨0, 0, [], false⟩

/-- The part right after reset: nothing runs, no firmware is loaded (R392), memory lists nothing. -/
def State.reset : State :=
  { now := 0, agenda := [], focus := none, free := 0, teams := [], grids := [], clusters := [], bundles := [], ops := [], reqs := [],
    serial := 1, kills := [], cores := [], slices := [], dies := [], parts := [], queues := [], ctxs := [], presets := [], argmarks := [], report := (0, 0, 0), tasks := [], mem := [], objs := [],
    marks := [], snoops := [], snooped := [], prots := List.replicate 8 none, ports := [], cxl := [], milesk := [], mileskDown := false, replays := [], retrain := [],
    boot := ⟨0, 0, 0, []⟩, attest := ⟨List.replicate 8 0, 0, 0, 0⟩, irqs := [], deadSites := [], repair := [], pwrStep := 0,
    pwrFloor := none, pwrQuiet := none, tripped := false }

end Sys2Proof.Machine
end

