-- ==== Sys2Proof/Machine/Base.lean ====
section
/-!
DEFINITION. Sparse tables, bytes and bit fields, memory, and the accessors of the state.
-/

namespace Sys2Proof.Machine

/-! ### Sparse tables -/

/-- The entry of a key. -/
def fget {β : Type} : FMap β → Nat → Option β
  | [], _ => none
  | (k, v) :: m, i => if k = i then some v else fget m i

/-- Set the entry of a key. -/
def fset {β : Type} : FMap β → Nat → β → FMap β
  | [], i, x => [(i, x)]
  | (k, v) :: m, i, x => if k = i then (k, x) :: m else (k, v) :: fset m i x

/-- Drop the entry of a key. -/
def fdel {β : Type} (m : FMap β) (i : Nat) : FMap β := m.filter (fun e => decide (e.1 ≠ i))

/-- Change the entry of a key, where there is one. -/
def fmod {β : Type} (m : FMap β) (i : Nat) (h : β → β) : FMap β :=
  m.map (fun e => if e.1 = i then (e.1, h e.2) else e)

/-! ### Bits and bytes -/

/-- Bits hi down to lo of a number. -/
def field (x hi lo : Nat) : Nat := (x >>> lo) % 2 ^ (hi - lo + 1)

/-- Bit i of a number. -/
def flag (x i : Nat) : Bool := x.testBit i

/-- The number that bytes in ascending address order denote (R2). -/
def leNat : List Byte → Nat
  | [] => 0
  | b :: bs => b.toNat + 256 * leNat bs

/-- The n low bytes of a number, in ascending address order (R2). -/
def leBytes : Nat → Nat → List Byte
  | 0, _ => []
  | n + 1, x => BitVec.ofNat 8 x :: leBytes n (x / 256)

/-- The signed value of the low w bits. -/
def sextNat (w x : Nat) : Int := (BitVec.ofNat w x).toInt

/-- The lanes of a set, in ascending order. -/
def lanesOf (m : Lanes) : List Nat := (List.range 32).filter (fun l => m.getLsbD l)

/-- The set of some lanes. -/
def laneSet (ls : List Nat) : Lanes := ls.foldl (fun m l => m ||| ((1 : BitVec 32) <<< l)) 0

/-! ### Memory -/

/-- The canonical form: addresses strictly rising, no byte 0 (log 3). -/
abbrev Memory.wf (m : Memory) : Prop := m.Pairwise (fun a b => a.1 < b.1) ∧ ∀ c ∈ m, c.2 ≠ 0

/-- The byte at an address; an unlisted byte reads 0 (R68 for vaults, log 3 for global memory). -/
def memRead : Memory → Nat → Byte
  | [], _ => 0
  | (k, v) :: m, a => if k = a then v else memRead m a

/-- Write a byte, keeping the canonical form. -/
def memWrite : Memory → Nat → Byte → Memory
  | [], a, b => if b = 0 then [] else [(a, b)]
  | (k, v) :: m, a, b =>
    if a < k then (if b = 0 then (k, v) :: m else (a, b) :: (k, v) :: m)
    else if k = a then (if b = 0 then m else (a, b) :: m)
    else (k, v) :: memWrite m a b

/-- Read n bytes. -/
def memReadN (m : Memory) (a n : Nat) : List Byte := (List.range n).map (fun i => memRead m (a + i))

/-- Write bytes at ascending addresses. -/
def memWriteN : Memory → Nat → List Byte → Memory
  | m, _, [] => m
  | m, a, b :: bs => memWriteN (memWrite m a b) (a + 1) bs

/-- Read an n-byte number. -/
def memNat (m : Memory) (a n : Nat) : Nat := leNat (memReadN m a n)

/-- Write zero to n bytes. -/
def memZero (m : Memory) (a n : Nat) : Memory := m.filter (fun c => c.1 < a || a + n ≤ c.1)

/-! ### Accessors of the state -/

/-- The key of a logical core (R7). -/
def coreKey (die core : Nat) : Nat := 72 * die + core

/-- The key of a slice (R171). -/
def sliceKey (die slice : Nat) : Nat := 16 * die + slice

def State.core (s : State) (k : Nat) : Core := (fget s.cores k).getD Core.reset
def State.slice (s : State) (k : Nat) : Slice := (fget s.slices k).getD Slice.reset
def State.die (s : State) (d : Nat) : Die := (fget s.dies d).getD Die.reset
def State.part (s : State) (p : Nat) : Partition := (fget s.parts p).getD Partition.reset
def State.queue (s : State) (q : Nat) : Queue := (fget s.queues q).getD Queue.reset
def State.obj (s : State) (i : Nat) : Obj := (fget s.objs i).getD Obj.reset
def State.port (s : State) (p : Nat) : Port := (fget s.ports p).getD Port.reset
def State.cxlPort (s : State) (p : Nat) : CxlPort := (fget s.cxl p).getD CxlPort.reset
def State.team (s : State) (t : Nat) : Option Team := fget s.teams t

def State.setCore (s : State) (k : Nat) (c : Core) : State := { s with cores := fset s.cores k c }
def State.setSlice (s : State) (k : Nat) (c : Slice) : State := { s with slices := fset s.slices k c }
def State.setDie (s : State) (k : Nat) (c : Die) : State := { s with dies := fset s.dies k c }
def State.setPart (s : State) (k : Nat) (c : Partition) : State := { s with parts := fset s.parts k c }
def State.setQueue (s : State) (k : Nat) (c : Queue) : State := { s with queues := fset s.queues k c }
def State.setObj (s : State) (k : Nat) (c : Obj) : State := { s with objs := fset s.objs k c }

def State.modCore (s : State) (k : Nat) (h : Core → Core) : State := s.setCore k (h (s.core k))
def State.modSlice (s : State) (k : Nat) (h : Slice → Slice) : State := s.setSlice k (h (s.slice k))
def State.modDie (s : State) (k : Nat) (h : Die → Die) : State := s.setDie k (h (s.die k))
def State.modPart (s : State) (k : Nat) (h : Partition → Partition) : State := s.setPart k (h (s.part k))
def State.modQueue (s : State) (k : Nat) (h : Queue → Queue) : State := s.setQueue k (h (s.queue k))

/-- Change a team. -/
def State.modTeam (s : State) (t : Nat) (h : Team → Team) : State := { s with teams := fmod s.teams t h }

/-- Change a group of a team. -/
def Team.modGroup (t : Team) (g : Nat) (h : Group → Group) : Team := { t with groups := t.groups.modify g h }

/-- Change the fibre in a home lane of a group. -/
def Group.modFibre (g : Group) (l : Nat) (h : Fibre → Fibre) : Group := { g with fibres := g.fibres.modify l h }

def State.modGroup (s : State) (t g : Nat) (h : Group → Group) : State := s.modTeam t (fun x => x.modGroup g h)

def State.modFibre (s : State) (t g l : Nat) (h : Fibre → Fibre) : State := s.modGroup t g (fun x => x.modFibre l h)

/-- A group of a team. -/
def State.group (s : State) (t g : Nat) : Option Group := (s.team t).bind (fun x => x.groups[g]?)

/-- The fibre in a home lane. -/
def State.fibre (s : State) (t g l : Nat) : Fibre := (((s.group t g).bind (fun x => x.fibres[l]?)).getD Fibre.reset)

/-- Core clocks that the cores of a partition have counted (R5, R58): timers at a core count these. -/
def State.coreClock (s : State) (p : Nat) : Nat := (s.part p).cyc16 / 16

/-- Core clocks of a team's core. -/
def State.coreNow (s : State) (t : Nat) : Nat := s.coreClock (((s.team t).map (fun x => x.part)).getD 0)

/-- Change a bundle. -/
def State.modBundle (s : State) (b : Nat) (h : Bundle → Bundle) : State := { s with bundles := fmod s.bundles b h }

/-- A fresh name. -/
def State.fresh (s : State) : Nat × State := (s.serial, { s with serial := s.serial + 1 })

/-- The part runs nothing before firmware runs and after a thermal trip (R392, R397). -/
def State.powered (s : State) : Bool := !s.tripped

end Sys2Proof.Machine
end

