-- ==== Sys2Proof/Machine/Num.lean ====
section
/-!
DEFINITION. Numbers: exact dyadic values, the floating-point formats of chapter 2, rounding, conversion, and the exact-sum word.
-/

namespace Sys2Proof.Machine

/-! ### Exact dyadic numbers -/

/-- The number m × 2^e. -/
structure Dy where
  m : Int
  e : Int
deriving DecidableEq, Repr

/-- 2 to a power that is taken as 0 when it is negative. -/
def p2 (k : Int) : Nat := 2 ^ k.toNat

def Dy.neg (a : Dy) : Dy := ⟨-a.m, a.e⟩
def Dy.abs (a : Dy) : Dy := ⟨a.m.natAbs, a.e⟩
def Dy.mul (a b : Dy) : Dy := ⟨a.m * b.m, a.e + b.e⟩

/-- The exact sum. -/
def Dy.add (a b : Dy) : Dy :=
  if a.m = 0 then b else if b.m = 0 then a
  else
    let e := min a.e b.e
    ⟨a.m * p2 (a.e - e) + b.m * p2 (b.e - e), e⟩

def Dy.sum (xs : List Dy) : Dy := xs.foldl Dy.add ⟨0, 0⟩

/-- The order of two numbers. -/
def Dy.cmp (a b : Dy) : Ordering := compare (a.add b.neg).m 0
def Dy.lt (a b : Dy) : Bool := a.cmp b == .lt
def Dy.le (a b : Dy) : Bool := a.cmp b != .gt

/-- floor(log2 |x|) of a nonzero number. -/
def Dy.log2 (a : Dy) : Int := (Nat.log2 a.m.natAbs : Int) + a.e

/-- Multiply by a power of two. -/
def Dy.scale (a : Dy) (k : Int) : Dy := ⟨a.m, a.e + k⟩

/-! ### Rounding (R40) -/

/-- Round m / 2^k to an integer magnitude; `neg` is the sign of the number. -/
def roundShift (mode : Rnd) (neg : Bool) (m k : Nat) : Nat :=
  let q := m / 2 ^ k
  let r := m % 2 ^ k
  let up := match mode with
    | .rne => decide (2 ^ k < 2 * r) || (decide (2 ^ k = 2 * r) && decide (q % 2 = 1))
    | .rz => false
    | .rdn => neg && decide (r ≠ 0)
    | .rup => !neg && decide (r ≠ 0)
  if up then q + 1 else q

/-- Round a magnitude m × 2^e to a multiple of 2^u: the multiple. -/
def roundUnit (mode : Rnd) (neg : Bool) (m : Nat) (e u : Int) : Nat :=
  if u ≤ e then m * p2 (e - u) else roundShift mode neg m (u - e).toNat

/-- Round a number to an integer. -/
def Dy.toInt (mode : Rnd) (a : Dy) : Int :=
  let q : Int := roundUnit mode (decide (a.m < 0)) a.m.natAbs a.e 0
  if a.m < 0 then -q else q

/-! ### Floating-point values and formats (R31, R32) -/

/-- What a floating-point code denotes. -/
inductive FVal | nan (signalling : Bool) | inf (neg : Bool) | fin (neg : Bool) (m : Nat) (e : Int)
deriving DecidableEq, Repr

inductive FF | f32 | f16 | bf16 | e4m3 | e5m2 | e2m1 | acc48
deriving DecidableEq, Repr

/-- Exponent bits. -/
def FF.ebits : FF → Nat | .f32 => 8 | .f16 => 5 | .bf16 => 8 | .e4m3 => 4 | .e5m2 => 5 | .e2m1 => 2 | .acc48 => 9
/-- Fraction bits. -/
def FF.fbits : FF → Nat | .f32 => 23 | .f16 => 10 | .bf16 => 7 | .e4m3 => 3 | .e5m2 => 2 | .e2m1 => 1 | .acc48 => 38
def FF.bias : FF → Int | .f32 => 127 | .f16 => 15 | .bf16 => 127 | .e4m3 => 7 | .e5m2 => 15 | .e2m1 => 1 | .acc48 => 255
def FF.width (f : FF) : Nat := 1 + f.ebits + f.fbits
def FF.hasInf : FF → Bool | .e4m3 | .e2m1 => false | _ => true
/-- The code of the largest finite value (R31). -/
def FF.maxCode : FF → Nat
  | .f32 => 0x7F7FFFFF | .f16 => 0x7BFF | .bf16 => 0x7F7F | .e4m3 => 0x7E | .e5m2 => 0x7B | .e2m1 => 0x7 | .acc48 => 0x7FBFFFFFFFFF
def FF.infCode : FF → Nat
  | .f32 => 0x7F800000 | .f16 => 0x7C00 | .bf16 => 0x7F80 | .e5m2 => 0x7C | .acc48 => 0x7FC000000000 | _ => 0
/-- The canonical NaN (R32); E2M1 has none, and a NaN becomes +0 there (R43). -/
def FF.nanCode : FF → Nat
  | .f32 => 0x7FC00000 | .f16 => 0x7E00 | .bf16 => 0x7FC0 | .e4m3 => 0x7F | .e5m2 => 0x7E | .e2m1 => 0 | .acc48 => 0x7FE000000000
def FF.signBit (f : FF) : Nat := 2 ^ (f.ebits + f.fbits)

/-- The value of a code (R31, R32). -/
def FF.value (f : FF) (x : Nat) : FVal :=
  let s := flag x (f.ebits + f.fbits)
  let e := x / 2 ^ f.fbits % 2 ^ f.ebits
  let m := x % 2 ^ f.fbits
  let top := 2 ^ f.ebits - 1
  if e = top && f.hasInf then
    if m = 0 then .inf s else .nan (!flag m (f.fbits - 1))
  else if f = .e4m3 && decide (e = top) && decide (m = 7) then .nan false
  else if e = 0 then .fin s m (1 - f.bias - f.fbits)
  else .fin s (m + 2 ^ f.fbits) ((e : Int) - f.bias - f.fbits)

/-- The code of a magnitude m × 2^e rounded as though the exponent had no upper bound (R41): codes beyond the largest finite one mean
overflow. -/
def FF.roundMag (f : FF) (mode : Rnd) (neg : Bool) (m : Nat) (e : Int) : Nat :=
  if m = 0 then 0
  else
    let u := max ((Nat.log2 m : Int) + e - f.fbits) (1 - f.bias - f.fbits)
    let q := roundUnit mode neg m e u
    if q < 2 ^ f.fbits then q
    else if q < 2 ^ (f.fbits + 1) then (u + f.bias + f.fbits).toNat * 2 ^ f.fbits + (q - 2 ^ f.fbits)
    else (u + 1 + f.bias + f.fbits).toNat * 2 ^ f.fbits + (q / 2 - 2 ^ f.fbits)

/-- An infinite result, under SAT or NOSAT (R41). -/
def FF.infinite (f : FF) (sat neg : Bool) : Nat :=
  let sg := if neg then f.signBit else 0
  if sat then sg + f.maxCode
  else if f.hasInf then sg + f.infCode
  else if f = .e4m3 then f.nanCode
  else sg + f.maxCode

/-- Round a nonzero or zero finite number to a format: the code, and whether it overflowed (R40 to R42). -/
def FF.roundFin (f : FF) (mode : Rnd) (sat neg : Bool) (m : Nat) (e : Int) : Nat × Bool :=
  let c := f.roundMag mode neg m e
  let sg := if neg then f.signBit else 0
  if f.maxCode < c then
    let inf := match mode with
      | .rne => true | .rz => false | .rdn => neg | .rup => !neg
    (if inf then f.infinite sat neg else sg + f.maxCode, true)
  else (sg + c, false)

/-- The code of a value rounded to a format, and whether a finite value overflowed (R43). -/
def FF.encode (f : FF) (mode : Rnd) (sat : Bool) : FVal → Nat × Bool
  | .nan _ => (f.nanCode, false)
  | .inf neg => (f.infinite sat neg, false)
  | .fin neg m e => f.roundFin mode sat neg m e

/-- Encode an exact number; a zero takes the sign given. -/
def FF.ofDy (f : FF) (mode : Rnd) (sat zeroNeg : Bool) (a : Dy) : Nat × Bool :=
  f.roundFin mode sat (if a.m = 0 then zeroNeg else decide (a.m < 0)) a.m.natAbs a.e

/-- The exact number of a finite value; 0 for a special. -/
def FVal.dy : FVal → Dy
  | .fin neg m e => ⟨if neg then -(m : Int) else m, e⟩
  | _ => ⟨0, 0⟩

def FVal.isNan : FVal → Bool | .nan _ => true | _ => false
def FVal.isSig : FVal → Bool | .nan s => s | _ => false
def FVal.isInf : FVal → Bool | .inf _ => true | _ => false
def FVal.isZero : FVal → Bool | .fin _ m _ => decide (m = 0) | _ => false
def FVal.isFin : FVal → Bool | .fin _ _ _ => true | _ => false
/-- The sign; false for a NaN. -/
def FVal.sign : FVal → Bool | .nan _ => false | .inf n => n | .fin n _ _ => n
def FVal.negate : FVal → FVal | .nan s => .nan s | .inf n => .inf (!n) | .fin n m e => .fin (!n) m e
def FVal.absolute : FVal → FVal | .nan s => .nan s | .inf _ => .inf false | .fin _ m e => .fin false m e

/-- E8M0 (R33). -/
def e8m0Value (x : Nat) : FVal := if x = 0xFF then .nan false else .fin false 1 ((x : Int) - 127)

/-- Any value to E8M0 (R43). -/
def toE8m0 : FVal → Nat
  | .nan _ => 0xFF
  | .inf _ => 0xFF
  | .fin _ m e => if m = 0 then 0 else (max 0 (min 254 ((Nat.log2 m : Int) + e + 127))).toNat

/-! ### Conversion between formats (R43, R44) -/

/-- The float format of a conversion format. -/
def cfloat : CFmt → Option FF
  | .f32 => some .f32 | .f16 => some .f16 | .bf16 => some .bf16 | .e4m3 => some .e4m3 | .e5m2 => some .e5m2 | .e2m1 => some .e2m1
  | _ => none

/-- The signed integer formats. -/
def csigned : CFmt → Bool
  | .i8 | .i16 | .i32 | .i64 => true
  | _ => false

/-- The width of an integer format; none for the others. -/
def cintWidth : CFmt → Option Nat
  | .i8 | .n8 => some 8 | .i16 | .n16 => some 16 | .i32 | .n32 => some 32 | .i64 | .n64 => some 64
  | _ => none

/-- The lowest and highest values of an integer format (R30). -/
def intRange (signed : Bool) (w : Nat) : Int × Int :=
  if signed then (-(2 ^ (w - 1) : Int), 2 ^ (w - 1) - 1) else (0, 2 ^ w - 1)

/-- Saturate to an integer range. -/
def clampInt (signed : Bool) (w : Nat) (x : Int) : Int := max (intRange signed w).1 (min (intRange signed w).2 x)

/-- The low w bits of an integer. -/
def wrapNat (w : Nat) (x : Int) : Nat := (x % (2 ^ w : Int)).toNat

/-- What a source code denotes (R43). -/
def csource (f : CFmt) (x : Nat) : FVal :=
  match cfloat f, cintWidth f with
  | some g, _ => g.value (x % 2 ^ g.width)
  | none, some w =>
    let v : Int := if csigned f then sextNat w x else (x % 2 ^ w : Nat)
    .fin (decide (v < 0)) v.natAbs 0
  | none, none => e8m0Value (x % 256)

/-- The pairs that R43 lists as exact among those a CVT can name, and a format to itself (R152). DESIGN CHOICE (log 36): a pair that the list does not
name is no exact pair, so SAT turns the Inf of E5M2 into the largest finite value of F16 or BF16. -/
def exactPair (dst src : CFmt) : Bool := decide (dst = src) || (decide (dst = .f32) && (cintWidth src).isNone)

/-- A conversion: the destination code, and the event it logs: 1 invalid, 3 overflow (R43, R44). -/
def convert (dst src : CFmt) (mode : Rnd) (sat : Bool) (x : Nat) : Nat × Option Nat :=
  let v := csource src x
  let fromFloat := (cintWidth src).isNone
  match cfloat dst, cintWidth dst with
  | some g, _ =>
    let r := g.encode mode (sat && !exactPair dst src) v
    let ev :=
      if v.isSig then some 1
      else if v.isNan then (if g = .e2m1 then some 1 else none)
      else if v.isInf then (if g.hasInf then none else some 1)
      else if r.2 then some 3
      else none
    (r.1, ev)
  | none, some w =>
    match v with
    | .nan _ => (0, some 1)
    | .inf neg => (wrapNat w (if neg then (intRange (csigned dst) w).1 else (intRange (csigned dst) w).2), some 1)
    | .fin _ _ _ =>
      let i := v.dy.toInt mode
      let c := clampInt (csigned dst) w i
      (wrapNat w c, if fromFloat && decide (c ≠ i) then some 1 else none)
  | none, none => (toE8m0 v, if v.isSig || v.isInf then some 1 else none)

/-- Convert without events, to a float format (R43). -/
def toFF (f : FF) (mode : Rnd) (sat : Bool) (v : FVal) : Nat := (f.encode mode sat v).1

/-! ### The exact-sum word (R38, R39, R277) -/

/-- The value of an exact-sum word (R39). -/
def eswValue (x : Nat) : FVal :=
  let n := field x 503 0
  let v : Int := if flag x 503 then (n : Int) - 2 ^ 504 else n
  if decide (field x 511 508 ≠ 0) || flag x 506 || flag x 507 || (flag x 504 && flag x 505) then .nan false
  else if flag x 504 then .inf false
  else if flag x 505 then .inf true
  else .fin (decide (v < 0)) v.natAbs (-149)

/-- Add an exact integer and flags to an exact-sum word (R277). -/
def eswAdd (x : Nat) (add : Int) (pinf ninf nan : Bool) : Nat :=
  let n := field x 503 0
  let v : Int := if flag x 503 then (n : Int) - 2 ^ 504 else n
  let w := v + add
  let ovf := decide (w < -(2 ^ 503 : Int)) || decide ((2 ^ 503 : Int) - 1 < w)
  let b (c : Bool) (i : Nat) : Nat := if c || flag x i then 2 ^ i else 0
  wrapNat 504 w + b pinf 504 + b ninf 505 + b nan 506 + b ovf 507 + field x 511 508 * 2 ^ 508

/-- Add some F32 codes to an exact-sum word (R277). -/
def eswSum (x : Nat) (vs : List Word) : Nat :=
  let fs := vs.map (fun v => FF.f32.value v.toNat)
  let n := (Dy.sum (fs.map (fun v => v.dy.scale 149))).toInt .rne
  eswAdd x n (fs.any (fun v => v == .inf false)) (fs.any (fun v => v == .inf true)) (fs.any FVal.isNan)

/-! ### Sums and extremes of F32 codes at a home (R274, R275) -/

/-- The exact sum of a list of F32 codes, rounded once (R274). -/
def fsumF32 (xs : List Word) : Word :=
  let vs := xs.map (fun v => FF.f32.value v.toNat)
  if vs.any FVal.isNan || (vs.contains (.inf false) && vs.contains (.inf true)) then 0x7FC00000#32
  else if vs.contains (.inf false) then 0x7F800000#32
  else if vs.contains (.inf true) then 0xFF800000#32
  else BitVec.ofNat 32 (FF.f32.ofDy .rne false (vs.all FVal.sign) (Dy.sum (vs.map FVal.dy))).1

/-- One value comes before another, with −0 before +0 and infinities at the ends; neither is a NaN. -/
def FVal.before (a b : FVal) : Bool :=
  match a, b with
  | .inf x, .inf y => x && !y
  | .inf x, _ => x
  | _, .inf y => !y
  | _, _ => if a.isZero && b.isZero then a.sign && !b.sign else a.dy.lt b.dy

/-- One step of FMIN or FMAX at a home (R275). -/
def fextreme (max : Bool) (m v : Word) : Word :=
  let a := FF.f32.value m.toNat
  let b := FF.f32.value v.toNat
  if a.isNan && b.isNan then 0x7FC00000#32
  else if b.isNan then m
  else if a.isNan then v
  else if max then (if a.before b then v else m)
  else (if b.before a then v else m)

end Sys2Proof.Machine
end

