-- ==== Sys2Proof/Machine/Flags.lean ====
section
/-!
DEFINITION. What comparisons put into predicates, and the arithmetic events that results raise (R44, R132, R145 to R148).
-/

namespace Sys2Proof.Machine

/-- The causes of arithmetic events (R358). -/
def evInvalid : Nat := 1
def evDivZero : Nat := 2
def evOverflow : Nat := 3
def evIntDivZero : Nat := 4

/-- The condition of an integer compare (R132). -/
def icondHolds (c : ICond) (a b : Int) : Bool :=
  match c with
  | .eq => decide (a = b) | .ne => decide (a ≠ b)
  | .lt => decide (a < b) | .le => decide (a ≤ b)
  | .gt => decide (b < a) | .ge => decide (b ≤ a)

/-- The order of two values that are no NaN; −0 and +0 are equal. -/
def FVal.less (a b : FVal) : Bool :=
  match a, b with
  | .inf x, .inf y => x && !y
  | .inf x, _ => x
  | _, .inf y => !y
  | _, _ => a.dy.lt b.dy

/-- The condition of a floating-point compare (R148). -/
def fcondHolds (c : FCond) (a b : FVal) : Bool :=
  let nan := a.isNan || b.isNan
  match c with
  | .eq => !nan && !a.less b && !b.less a
  | .ne => nan || a.less b || b.less a
  | .lt => !nan && a.less b
  | .le => !nan && !b.less a
  | .gt => !nan && b.less a
  | .ge => !nan && !a.less b
  | .un => nan
  | .or => !nan

/-- The compare logs FP invalid (R148). -/
def fcondInvalid (c : FCond) (a b : FVal) : Bool :=
  match c with
  | .lt | .le | .gt | .ge => a.isNan || b.isNan
  | _ => a.isSig || b.isSig

/-- A predicate's value as the word the register log holds. -/
def boolWord (b : Bool) : Word := if b then 1 else 0

/-- At most one event for an element: invalid before divide-by-zero before overflow (R145). -/
def oneEvent (invalid divzero overflow : Bool) : List Nat :=
  if invalid then [evInvalid] else if divzero then [evDivZero] else if overflow then [evOverflow] else []

end Sys2Proof.Machine
end

