-- ==== Sys2Proof/Machine/Mem.lean ====
section
/-!
DEFINITION. Addresses: the physical map and homes, partitions' descriptors, translation, buffer and shape records, the vault and the
pool window, and the L1 as a store of lines.
-/

namespace Sys2Proof.Machine

/-! ### Physical addresses (R171, R172) -/

/-- The memory a physical address lies in: an HBM stack, a CXL port, or the host (R171). -/
inductive MemKind | hbm (stack : Nat) | cxl (port : Nat) | host
deriving DecidableEq, Repr

/-- The memory at a physical address; none where the map has none. -/
def memKind (pa : Nat) : Option MemKind :=
  if pa < 0x8000000000 then some (.hbm (pa / 0x1000000000))
  else if pa < 0x8000000000000 then none
  else if pa < 0x8800000000000 then some (.cxl ((pa - 0x8000000000000) / 0x100000000000))
  else if pa < 0xC000000000000 then none
  else if pa < 0x10000000000000 then some .host
  else none

/-- The home die of a physical address (R171). -/
def homeDie (pa : Nat) : Nat :=
  match memKind pa with
  | some (.hbm st) => st / 4
  | some (.cxl p) => p / 4
  | _ => 0

/-- The exclusive or of the n low nibbles of a number. -/
def nibbleXor : Nat → Nat → Nat
  | 0, _ => 0
  | n + 1, x => (x % 16) ^^^ nibbleXor n (x / 16)

/-- The home slice of a physical address (R172). -/
def homeSlice (pa : Nat) : Nat := nibbleXor 10 (pa / 128)

/-- The key of the home slice. -/
def homeKey (pa : Nat) : Nat := sliceKey (homeDie pa) (homeSlice pa)

/-- Memory stands at every byte of a run: inside the attached capacity of a CXL port (R176, R386). -/
def State.present (s : State) (pa n : Nat) : Bool :=
  match memKind pa, memKind (pa + n - 1) with
  | some (.hbm _), some (.hbm _) => true
  | some (.cxl c), some (.cxl e) => decide (c = e) && decide (pa + n - 0x8000000000000 - c * 0x100000000000 ≤ (s.cxlPort c).cap)
  | some .host, some .host => true
  | _, _ => false

/-! ### Partition descriptors (R53) -/

/-- A rectangle of a descriptor on a die: first column and row, width, height (R53); none when it is not present. -/
def descRect (d die : Nat) : Option (Nat × Nat × Nat × Nat) :=
  let r := field d (if die = 0 then 239 else 255) (if die = 0 then 224 else 240)
  if flag r 15 then some (field r 14 12, field r 11 8, field r 6 4 + 1, field r 3 0 + 1) else none

def descIsol (d : Nat) : Bool := flag d 0
def descFixclk (d : Nat) : Bool := flag d 1
def descNolend (d : Nat) : Bool := flag d 2
def descShed (d : Nat) : Nat := field d 10 8
def descHbmstk (d : Nat) : Nat := field d 319 312

/-- The descriptor in force of a partition; 0 when none is committed. -/
def State.desc (s : State) (p : Nat) : Nat := ((s.part p).live).getD 0

/-- The logical core lies in the partition's rectangle on its die. -/
def State.inRect (s : State) (p die core : Nat) : Bool :=
  match descRect (s.desc p) die with
  | some (x, y, w, h) => decide (x ≤ core % 8) && decide (core % 8 < x + w) && decide (y ≤ core / 8) && decide (core / 8 < y + h)
  | none => false

/-- A logical core is absent when its column has no working spare left for it (R59, R60): the column's working sites, counted from the
north, end before its row. -/
def State.absentCore (s : State) (die core : Nat) : Bool :=
  decide (10 - (s.deadSites.filter (fun d => decide (d.1 = die) && decide (d.2.1 = core % 8))).length ≤ core / 8)

/-- The working sites of a column, from the north (R59). -/
def State.sitesOf (s : State) (die col : Nat) : List Nat := (List.range 10).filter (fun y => !s.deadSites.contains (die, col, y))

/-- The logical row of a working site (R59). -/
def State.rowOf (s : State) (die col site : Nat) : Nat := ((s.sitesOf die col).filter (fun y => decide (y < site))).length

/-- The partition whose rectangle holds a core. -/
def State.partOf (s : State) (k : Nat) : Option Nat := (List.range 8).find? (fun p => s.inRect p (k / 72) (k % 72))

/-- A free block of a core is lent (R70). -/
def State.lendsAt (s : State) (k : Nat) : Bool :=
  match s.partOf k with
  | some p => !descNolend (s.desc p)
  | none => false

/-- Blocks of a core that are lent (R70). -/
def State.lentBlocks (s : State) (k : Nat) : Nat :=
  if s.lendsAt k then ((List.range 256).filter (fun b => (fget (s.core k).blocks b).isNone)).length else 0

/-- Lines that an L1 of 256 KiB holds (R1). -/
def l1Lines : Nat := 2048

/-- Lines that a core's L1 and its lent blocks of 32 KiB hold (R1, R70). -/
def State.l1Room (s : State) (k : Nat) : Nat := l1Lines + 256 * s.lentBlocks k

/-- Sixteenths of clocks that a core has counted since the reset: those of its partition, or of the reference clock, and its gap (R5, R58, R144). -/
def State.tick16 (s : State) (k : Nat) : Int :=
  (match s.partOf k with | some p => ((s.part p).cyc16 : Int) | none => 16 * (s.now : Int)) + (s.core k).gap

/-! ### Translation (R174 to R178) -/

/-- What an access needs of its page (R176). -/
inductive Acc | read | write | rw | fetch | maint
deriving DecidableEq, Repr

/-- Why a walk gives no page (R176). -/
inductive XErr | miss (level : Nat) | malformed | perm
deriving DecidableEq, Repr

/-- What a walk gives: the physical address and the page's kind. -/
structure Leaf where
  pa  : Nat
  ord : Nat
  c   : Bool
  trk : Bool
deriving DecidableEq, Repr

/-- The VA bits above the page or table range of a level (R174). -/
def levelShift : Nat → Nat
  | 0 => 39 | 1 => 30 | 2 => 21 | _ => 16

/-- The index of an address in its table at a level (R174). -/
def levelIndex (level va : Nat) : Nat :=
  match level with
  | 0 => field va 48 39 | 1 => field va 38 30 | 2 => field va 29 21 | _ => field va 20 16

/-- A cached table entry (R178). -/
def tlbFind (t : List TlbEntry) (root level va : Nat) : Option DWord :=
  (t.find? (fun e => decide (e.root = root) && decide (e.level = level) && decide (e.pre = va / 2 ^ levelShift level))).map (·.entry)

/-- The entry a walk uses: the cached one or memory's, whichever of the two the part takes when they differ (R178). -/
def State.walkEntry (s : State) (ck : Option Nat) (die root level va table : Nat) : DWord :=
  let m : DWord := BitVec.ofNat 64 (memNat s.mem (table + 8 * levelIndex level va) 8)
  let c := match ck with
    | some k => tlbFind (s.core k).tlb root level va
    | none => none
  match c.or (tlbFind (s.die die).l2tlb root level va) with
  | some e => if e = m then m else if Config.freeBool s.free then e else m
  | none => m

/-- A leaf breaks a rule of R176 for the partition. -/
def State.leafBad (s : State) (part level : Nat) (e : Nat) : Bool :=
  let pa := field e 51 12 * 4096
  let size := 2 ^ levelShift level
  decide (field e 7 6 = 3) || decide (pa % size ≠ 0) || !(s.present pa size) ||
  (flag e 52 != (match memKind pa with | some (.cxl _) => true | _ => false)) ||
  decide (field e 55 53 ≠ part) ||
  (descIsol (s.desc part) && (match memKind pa with | some (.hbm st) => !flag (descHbmstk (s.desc part)) st | _ => false))

/-- The access is not allowed by the leaf (R176). -/
def accBad (e : Nat) : Acc → Bool
  | .read => !flag e 3
  | .write => !flag e 4
  | .rw => !(flag e 3 && flag e 4)
  | .fetch => !flag e 5
  | .maint => !(flag e 3 || flag e 4)

/-- A walk from a level, by fuel; the path of entries read is given with the result, for the TLBs. -/
def State.walk (s : State) (ck : Option Nat) (die root part va : Nat) (acc : Acc) :
    Nat → Nat → Nat → List TlbEntry → Except XErr Leaf × List TlbEntry
  | 0, _, _, path => (.error .malformed, path)
  | fuel + 1, level, table, path =>
    let ew := s.walkEntry ck die root level va table
    let e := ew.toNat
    if !flag e 0 then (.error (.miss level), path)
    else
      let path := ⟨root, level, va / 2 ^ levelShift level, ew⟩ :: path
      if flag e 1 then
        if level = 0 || decide (field e 63 56 ≠ 0) || decide (field e 11 10 ≠ 0) || flag e 2 || s.leafBad part level e then
          (.error .malformed, path)
        else if accBad e acc then (.error .perm, path)
        else (.ok ⟨field e 51 12 * 4096 + va % 2 ^ levelShift level, field e 7 6, flag e 9, flag e 8⟩, path)
      else if level = 3 || decide (field e 63 52 ≠ 0) || decide (field e 11 2 ≠ 0) then (.error .malformed, path)
      else s.walk ck die root part va acc fuel (level + 1) (field e 51 12 * 4096) path

/-- The translation of a virtual address for a context, through a core's TLB or a die's (R174 to R178). -/
def State.translate (s : State) (ck : Option Nat) (die : Nat) (ctx : Ctx) (va : Nat) (acc : Acc) : Except XErr Leaf :=
  (s.walk ck die ctx.root ctx.part va acc 4 0 ctx.root []).1

/-- Keep entries in a TLB of a size, newest first. -/
def tlbAdd (cap : Nat) (t : List TlbEntry) (es : List TlbEntry) : List TlbEntry :=
  (es ++ t.filter (fun o => !(es.any (fun e => decide (e.root = o.root) && decide (e.level = o.level) && decide (e.pre = o.pre))))).take cap

/-- The TLBs keep the valid entries that a walk read (R178), and its free choices are spent. -/
def State.fillTlb (s : State) (ck : Option Nat) (die : Nat) (ctx : Ctx) (va : Nat) (acc : Acc) : State :=
  let es := (s.walk ck die ctx.root ctx.part va acc 4 0 ctx.root []).2
  let s1 := match ck with
    | some k => s.modCore k (fun c => { c with tlb := tlbAdd 2048 c.tlb es })
    | none => s
  let s2 := s1.modDie die (fun d => { d with l2tlb := tlbAdd 32768 d.l2tlb es })
  { s2 with free := s2.free + 1 }

/-! ### Buffer records (R18 to R20) -/

structure BufRec where
  base : Nat
  len  : Nat
  rd   : Bool
  wr   : Bool
  at_  : Bool
deriving DecidableEq, Repr

/-- The fields of a 256-bit record (R18). -/
def bufRecOf (x : Nat) : BufRec := ⟨field x 63 0, field x 127 64, flag x 128, flag x 129, flag x 130⟩

/-- The permission bit an access asks of its record (R19, R185, R270). -/
inductive RecPerm | rd | wr | at_ | rdOrWr
deriving DecidableEq, Repr

def BufRec.allows (b : BufRec) : RecPerm → Bool
  | .rd => b.rd | .wr => b.wr | .at_ => b.at_ | .rdOrWr => b.rd || b.wr

/-- The access test of R19. -/
def BufRec.passes (b : BufRec) (p : RecPerm) (off : Int) (size : Nat) : Bool :=
  decide (0 ≤ off) && decide (off + size ≤ b.len) && decide ((b.base : Int) + off + size ≤ 0x2000000000000) && b.allows p

/-- The context of a team. -/
def State.ctxOf (s : State) (t : Team) : Ctx := (fget s.ctxs t.ctx).getD ⟨0, false, 0, t.part, 0, 6, 0, 6, 0, 0, none, [], []⟩

/-- The record table entry of a launch: the record, or the virtual address whose translation failed and why; none when the index lies
beyond the table (R19). -/
def State.bufRec (s : State) (t : Team) (i : Nat) : Option (Except (Nat × XErr) BufRec) :=
  if i = 0 then some (.ok ⟨0, 0x2000000000000, true, true, true⟩)
  else if i = 1 then some (.ok ⟨t.kern.argva, t.kern.arglen, true, false, false⟩)
  else if t.kern.nbrec + 2 ≤ i then none
  else
    let ck := coreKey t.die t.core
    let va := t.kern.brtab + 32 * (i - 2)
    match s.translate (some ck) t.die (s.ctxOf t) va .read with
    | .error e => some (.error (va, e))
    | .ok lf =>
      let m := memNat s.mem lf.pa 32
      let kept := ((s.core ck).recs.find? (fun r => decide (r.1 = t.grid) && decide (r.2.1 = i))).map (fun r => r.2.2)
      match kept with
      | some k => some (.ok (bufRecOf (if k = m then m else if Config.freeBool s.free then k else m)))
      | none => some (.ok (bufRecOf m))

/-- The core keeps a record it has read (R20). -/
def State.keepRec (s : State) (t : Team) (i : Nat) : State :=
  if i < 2 then s
  else
    let ck := coreKey t.die t.core
    match s.translate (some ck) t.die (s.ctxOf t) (t.kern.brtab + 32 * (i - 2)) .read with
    | .error _ => s
    | .ok lf =>
      if (s.core ck).recs.any (fun r => decide (r.1 = t.grid) && decide (r.2.1 = i)) then s
      else s.modCore ck (fun c => { c with recs := (t.grid, i, memNat s.mem lf.pa 32) :: c.recs })

/-! ### Shape records (R21, R22) -/

structure Shape where
  brec   : Nat
  esize  : Nat
  rank   : Nat
  fmt    : Nat
  offset : Nat
  ext    : List Nat
  stride : List Int
  resv   : Bool
deriving DecidableEq, Repr

/-- The fields of a 512-bit shape record (R21); unused extents count as 1 (R22). -/
def shapeOf (x : Nat) : Shape :=
  let rank := field x 17 16 + 1
  { brec := field x 11 0, esize := field x 15 12, rank := rank, fmt := field x 31 24, offset := field x 127 64,
    ext := (List.range 4).map (fun d => if d < rank then field x (159 + 32 * d) (128 + 32 * d) else 1),
    stride := (List.range 4).map (fun d => sextNat 64 (field x (319 + 64 * d) (256 + 64 * d))),
    resv := decide (field x 23 18 ≠ 0) || decide (field x 63 32 ≠ 0) }

/-- Element bytes; a half-byte element counts as packed (R22). -/
def Shape.half (h : Shape) : Bool := decide (h.esize = 7)
def Shape.esBytes (h : Shape) : Nat := if h.half then 1 else 2 ^ h.esize
def Shape.extent (h : Shape) (d : Nat) : Nat := h.ext.getD d 1
def Shape.str (h : Shape) (d : Nat) : Int := h.stride.getD d 0
def Shape.count (h : Shape) : Nat := h.extent 0 * h.extent 1 * h.extent 2 * h.extent 3
def Shape.empty (h : Shape) : Bool := decide (h.count = 0)

/-- Bytes along dimension 0: packed pairs for half-byte elements (R22). -/
def Shape.units0 (h : Shape) : Nat := if h.half then h.extent 0 / 2 else h.extent 0

/-- Total bytes of the tile, packed densely. -/
def Shape.bytes (h : Shape) : Nat := if h.half then h.count / 2 else h.count * h.esBytes

/-- The stride between units along dimension 0. -/
def Shape.str0 (h : Shape) : Int := if h.half then 1 else h.str 0

/-- The offset in the record of unit u, in linear order with dimension 0 fastest (R22). -/
def Shape.unitOff (h : Shape) (u : Nat) : Int :=
  let u0 := h.units0
  let i0 := u % u0; let r := u / u0
  let i1 := r % h.extent 1; let r2 := r / h.extent 1
  let i2 := r2 % h.extent 2; let i3 := r2 / h.extent 2
  (h.offset : Int) + i0 * h.str0 + i1 * h.str 1 + i2 * h.str 2 + i3 * h.str 3

/-- The offset of byte b of the densely packed tile. -/
def Shape.byteOff (h : Shape) (b : Nat) : Int := h.unitOff (b / h.esBytes) + (b % h.esBytes : Nat)

/-- Lowest and highest offset that any element touches (R22). -/
def Shape.low (h : Shape) : Int :=
  let t (n : Nat) (st : Int) : Int := if st < 0 then ((n : Int) - 1) * st else 0
  (h.offset : Int) + t h.units0 h.str0 + t (h.extent 1) (h.str 1) + t (h.extent 2) (h.str 2) + t (h.extent 3) (h.str 3)

def Shape.high (h : Shape) : Int :=
  let t (n : Nat) (st : Int) : Int := if 0 < st then ((n : Int) - 1) * st else 0
  (h.offset : Int) + t h.units0 h.str0 + t (h.extent 1) (h.str 1) + t (h.extent 2) (h.str 2) + t (h.extent 3) (h.str 3)
    + ((h.esBytes : Int) - 1)

/-- The field checks of a shape that need no record (R22). -/
def Shape.fieldsBad (h : Shape) : Bool :=
  h.resv || decide (h.esize = 5) || decide (h.esize = 6) || decide (7 < h.esize) || (h.half && decide (h.extent 0 % 2 = 1))

/-- The shape is malformed against a record under a permission (R22). -/
def Shape.badFor (h : Shape) (b : BufRec) (p : RecPerm) : Bool :=
  h.fieldsBad || (!h.empty && !(b.passes p h.low 1 && b.passes p h.high 1))

/-! ### The vault and the pool window (R66 to R69) -/

/-- Bytes of a team's data region (R67). -/
def Team.dataBytes (t : Team) : Nat := t.kern.vbanks * 32768

/-- The vault address of offset 0 of a team's data region (R66). -/
def Team.dataBase (t : Team) : Nat := (t.run0 + t.nsys) * 32768

/-- The access test of R67. -/
def Team.vaultOk (t : Team) (o : Int) (size : Nat) : Bool := decide (0 ≤ o) && decide (o + size ≤ t.dataBytes)

/-- The core key of a team. -/
def Team.key (t : Team) : Nat := coreKey t.die t.core

/-- The member of a team's cluster with a TEAMID (R69). -/
def State.member (s : State) (t : Team) (m : Nat) : Option (Nat × Team) :=
  s.teams.find? (fun e => decide (e.2.grid = t.grid) && decide (e.2.clusid = t.clusid) && decide (e.2.teamid = m))

/-- A place in the pool window: the core and vault address, or none where the access fails its test (R69). A member that has retired
keeps its place in the window with no storage behind it (log 20). -/
def State.poolPlace (s : State) (t : Team) (p : Int) (size : Nat) : Option (Nat × Nat) :=
  if p < 0 then none
  else
    let m := p.toNat / 0x800000
    let o := p.toNat % 0x800000
    if t.kern.clw * t.kern.clh ≤ m || !(t.vaultOk o size) then none
    else match s.member t m with
      | some (_, x) => some (x.key, x.dataBase + o)
      | none => some (144, o)

def State.vaultRead (s : State) (core addr n : Nat) : List Byte := memReadN (s.core core).vault addr n

/-- Write bytes of a vault; the place of a retired member (core 144) holds nothing. -/
def State.vaultWrite (s : State) (core addr : Nat) (bs : List Byte) : State :=
  if core = 144 then s else s.modCore core (fun c => { c with vault := memWriteN c.vault addr bs })

/-! ### The L1 (R177, R266) -/

/-- The copy of a line that a core holds. -/
def Core.line (c : Core) (l : Nat) : Option L1Line := c.l1.find? (fun x => decide (x.line = l))

/-- Replace or add a line. -/
def Core.setLine (c : Core) (x : L1Line) : Core := { c with l1 := x :: c.l1.filter (fun y => decide (y.line ≠ x.line)) }

/-- Drop a line. -/
def Core.dropLine (c : Core) (l : Nat) : Core := { c with l1 := c.l1.filter (fun y => decide (y.line ≠ l)) }

/-- The copy can serve a read (R266, R312). -/
def Core.lineValid (c : Core) (x : L1Line) : Bool := x.obj.isSome || x.uo || decide (x.epoch = c.ecur)

/-- The dirty bytes of a line as writes: physical address and byte. -/
def L1Line.dirtyBytes (x : L1Line) : List (Nat × Byte) :=
  ((List.range 128).filter (fun i => x.dirty.getD i false)).map (fun i => (128 * x.line + i, x.data.getD i 0))

/-- A clean copy. -/
def L1Line.clean (x : L1Line) : L1Line := { x with dirty := List.replicate 128 false }

/-- Overwrite bytes of a list at an offset. -/
def patch {β : Type} (xs : List β) (off : Nat) (ys : List β) : List β := xs.take off ++ ys ++ xs.drop (off + ys.length)

/-- Store bytes into a copy. -/
def L1Line.store (x : L1Line) (off : Nat) (bs : List Byte) : L1Line :=
  { x with data := patch x.data off bs, dirty := patch x.dirty off (List.replicate bs.length true) }

/-- A fresh copy of a line as its home stands. -/
def State.freshLine (s : State) (l : Nat) (epoch : BitVec 12) (uo : Bool) (obj : Option (Nat × Nat)) (excl : Bool) : L1Line :=
  ⟨l, memReadN s.mem (128 * l) 128, List.replicate 128 false, epoch, uo, obj, excl⟩

/-- The declared object of a context that holds a line (R312). -/
def State.objOf (s : State) (ctx line : Nat) : Option (Nat × Obj) :=
  s.objs.find? (fun e => e.2.v && decide (e.2.ctx = ctx) && e.2.lines.contains line)

/-- The object that an access of a context through a page meets: a page with TRK = 0 is never tested (R312). -/
def State.objIf (s : State) (trk : Bool) (ctx line : Nat) : Option (Nat × Obj) := if trk then s.objOf ctx line else none

/-- The declared object of any context that holds a line. -/
def State.objAny (s : State) (line : Nat) : Option (Nat × Obj) :=
  s.objs.find? (fun e => e.2.v && e.2.lines.contains line)

end Sys2Proof.Machine
end

