-- ==== Sys2Proof/WellFormed.lean ====
section
/-!
DEFINITION. Which instruction terms the encodings of the spec admit: the field checks of R81, R88 and each instruction's own description
that depend on the instruction word alone. A word whose term fails them raises ILLEGAL (R83, step 1).
-/

namespace Sys2Proof

/-- The type is 64 bits wide (R129). -/
def ITy.is64 : ITy → Bool
  | .i32 | .n32 => false
  | .i64 | .n64 => true

/-- The type is signed (R129). -/
def ITy.signed : ITy → Bool
  | .i32 | .i64 => true
  | .n32 | .n64 => false

/-- The width of the type in bits (R129). -/
def ITy.width (t : ITy) : Nat := if t.is64 then 64 else 32

/-- The register number is a multiple of `n` (R81, R153, R186). -/
def Reg.mult (r : Reg) (n : Nat) : Bool := r.toNat % n == 0

/-- An operand marked w: a pair named by its even register under a 64-bit type (R81, R129). -/
def Reg.okW (r : Reg) (t : ITy) : Bool := !t.is64 || r.mult 2

/-- The data register of an access of this size (R186). -/
def Reg.okData (r : Reg) (sz : Size) : Bool :=
  match sz with
  | .n64 => r.mult 2
  | .n128 => r.mult 4
  | _ => true

/-- The address register: a pair when the space is GLOBAL through record 0 (R81, R184, R270). -/
def Space.okAddr (sp : Space) (a : Reg) : Bool :=
  match sp with
  | .global brec => brec != 0#12 || a.mult 2
  | _ => true

/-- The width in bits of a format (R28). -/
def CFmt.width : CFmt → Nat
  | .i8 | .n8 | .e4m3 | .e5m2 | .e8m0 => 8
  | .i16 | .n16 | .f16 | .bf16 => 16
  | .i32 | .n32 | .f32 => 32
  | .i64 | .n64 => 64
  | .e2m1 => 4

/-- Source elements of the format in one register: the range of the element index of CVT (R152). -/
def CFmt.elems (f : CFmt) : Nat := if f.width ≥ 32 then 1 else 32 / f.width

/-- W64 is allowed on the register (R143, R144). -/
def SReg.may64 : SReg → Bool
  | .lclk | .cyc | .tbase | .tpc | .tinst | .taddr => true
  | _ => false

/-- The register is read only with W64 (R144). -/
def SReg.must64 : SReg → Bool
  | .tbase | .tpc | .tinst | .taddr => true
  | _ => false

/-- No modifier of operand A is set (R145). -/
def FMods.noA (m : FMods) : Bool := !m.na && !m.aa
/-- No modifier of operand B is set (R145). -/
def FMods.noB (m : FMods) : Bool := !m.nb && !m.ab
/-- No modifier of operand C is set (R145). -/
def FMods.noC (m : FMods) : Bool := !m.nc && !m.ac

/-- The alignment PACK asks of its sources (R153). -/
def PFmt.packAlign : PFmt → Nat
  | .f16x2 | .bf16x2 => 1
  | .e4m3 | .e5m2 | .e8m0 => 2
  | .e2m1 => 4

/-- The number of elements of a packed format (R153). -/
def PFmt.elems : PFmt → Nat
  | .f16x2 | .bf16x2 => 2
  | .e4m3 | .e5m2 | .e8m0 => 4
  | .e2m1 => 8

/-- The instruction names a dependency counter (R78, R88). -/
def Ctl.counted (c : Ctl) : Bool := c.sbi != 0#3

/-- The result's type admits a float operation code of an atomic: only the I32 code (R273). -/
def AtomOp.okType (op : AtomOp) (t : ITy) : Bool :=
  match op with
  | .fadd | .fmin | .fmax => t == .i32
  | _ => true

/-- Fields that SYNC and a count-less barrier leave unused hold zero (R81, R282). -/
def barFieldsOk (op : BarOp) (cnt : Bool) (d a b : Reg) : Bool :=
  (op != .sync || (d == 0#8 && a == 0#8)) && (cnt || b == 0#8)

/-- A native instruction that the encodings of the spec admit; of an event, that its arguments lie in their ranges. -/
def Instr.wellFormed : Instr → Bool
  | .nop _ => true
  | .iadd _ t _ d a b | .isub _ t _ d a b | .imul _ t _ d a b => d.okW t && a.okW t && b.okW t
  | .imulh _ t _ _ _ => !t.is64
  | .imad _ t _ _ _ _ _ => !t.is64
  | .imadw _ t d _ _ e => !t.is64 && d.mult 2 && e.mult 2
  | .idiv _ t _ _ _ | .irem _ t _ _ _ => !t.is64
  | .imin _ t d a b | .imax _ t d a b => d.okW t && a.okW t && b.okW t
  | .iabs _ t _ d a => t.signed && d.okW t && a.okW t
  | .ineg _ t _ d a => d.okW t && a.okW t
  | .iaddi _ t _ d a _ => d.okW t && a.okW t
  | .icmp _ _ t _ a b => a.okW t && b.okW t
  | .icmpi _ _ t _ a _ => a.okW t
  | .and _ t d a b | .or _ t d a b | .xor _ t d a b => d.okW t && a.okW t && b.okW t
  | .not _ t d a => d.okW t && a.okW t
  | .blut3 _ t _ d a b e => d.okW t && a.okW t && b.okW t && e.okW t
  | .lopi _ _ t d a _ => d.okW t && a.okW t
  | .shl _ t d a _ | .shr _ t d a _ | .sar _ t d a _ | .rol _ t d a _ => d.okW t && a.okW t
  | .shi _ _ t d a _ => d.okW t && a.okW t
  | .bfx _ t _ _ _ | .bfi _ t _ _ _ => !t.is64
  | .popc _ t _ a | .clz _ t _ a | .ctz _ t _ a => a.okW t
  | .brev _ t d a => d.okW t && a.okW t
  | .permb _ _ _ _ _ => true
  | .lea _ t _ d a _ => d.okW t && a.okW t
  | .sel _ t d a b _ _ => d.okW t && a.okW t && b.okW t
  | .plop _ _ _ _ _ _ => true
  | .mov _ t d a => d.okW t && a.okW t
  | .movi _ f d _ => f == .w32 || d.mult 2
  | .movxRd _ w d _ _ => !w || d.mult 2
  | .movxWr _ w _ _ e => !w || e.mult 2
  | .srd _ w r d => if w then r.may64 && d.mult 2 else !r.must64
  | .swr _ _ => true
  | .fadd _ _ _ m _ _ _ | .fsub _ _ _ m _ _ _ | .fmul _ _ _ m _ _ _ => m.noC
  | .ffma _ _ _ _ _ _ _ _ => true
  | .fmin _ _ m _ _ _ | .fmax _ _ m _ _ _ => m.noC
  | .fcmp _ _ t m _ _ _ q => m.noC && (t != .f32 || q == 0#3)
  | .fclass _ _ m _ _ | .fgetexp _ _ m _ _ | .fgetman _ _ m _ _ => m.noB && m.noC
  | .frnd _ _ _ m _ _ => m.noB && m.noC
  | .fscale _ _ _ m _ _ _ => m.noB && m.noC
  | .fdot2 _ t _ _ _ _ _ _ => t != .f32
  | .cvt _ dst src _ _ el d a =>
      decide (el.toNat < src.elems) && (dst.width != 64 || d.mult 2) && (src.width != 64 || a.mult 2)
  | .pack _ pf _ _ _ a b => a.mult pf.packAlign && b.mult pf.packAlign
  | .unpack _ pf d _ => d.mult pf.elems
  | .bra _ _ _ | .brx _ _ _ | .call _ _ _ | .callx _ _ _ | .ret _ _ => true
  | .lpad _ k => k != 0#3
  | .loop _ _ _ | .lbrk _ _ | .spawn _ _ _ _ | .exit _ | .yield _ | .bkpt _ _ | .trap _ _ => true
  | .rcp _ _ m _ _ | .rsq _ _ m _ _ | .sqrt _ _ m _ _ | .ex2 _ _ m _ _ | .lg2 _ _ m _ _
  | .sinpi _ _ m _ _ | .cospi _ _ m _ _ | .tanh _ _ m _ _ => m.noB && m.noC
  | .fdiv _ _ m _ _ _ => m.noC
  | .rand _ _ _ _ _ _ => true
  | .lxch c mode w edge _ d a _ =>
      c.counted && (!edge || mode == .rot || mode == .refl) && (!w || (d.mult 2 && a.mult 2))
  | .vote c op _ _ d _ => c.counted && (op == .ballot || decide (d.toNat < 8))
  | .matchx c w _ _ a => c.counted && (!w || a.mult 2)
  | .xred c op u _ _ _ => c.counted && (!u || op == .imin || op == .imax)
  | .xscan c op u _ _ _ _ => c.counted && (!u || op == .imin || op == .imax)
  | .lanemap _ _ _ => true
  | .lanemapRd c _ | .active c _ | .elect c _ _ => c.counted
  | .ld c sz m d => c.counted && d.okData sz && m.space.okAddr m.a
  | .st _ sz m d => d.okData sz && m.space.okAddr m.a
  | .prefL1 c _ brec a _ | .prefL2 c _ brec a _ => !c.counted && (Space.global brec).okAddr a
  | .cmaintWb _ _ brec a _ | .cmaintWbinv _ _ brec a _ | .cmaintWbmem _ _ brec a _ => (Space.global brec).okAddr a
  | .fence _ _ _ _ | .acqr _ _ _ => true
  | .acpy _ sz src _ y _ =>
      (sz == .n32 || sz == .n64 || sz == .n128) &&
      (match src with | .global brec => brec != 0#12 || y.mult 2 | .vault => true)
  | .mcpy _ _ _ _ z => z.mult 2
  | .tbarInit _ _ _ _ _ | .tbarArrive _ _ _ _ | .tbarArriveSect _ _ _ _ _ | .tbarSect _ _ _ _ _ | .tbarWait _ _ _ _ _ => true
  | .tbarTest c _ _ _ _ => c.counted
  | .atom c _ op t sp a d => c.counted && op.okType t && d.okW t && sp.okAddr a
  | .atomn _ _ op t sp a d => op.okType t && d.okW t && sp.okAddr a
  | .acas c _ t sp a d => c.counted && d.mult (if t.is64 then 4 else 2) && sp.okAddr a
  | .exsum _ _ sp a _ => sp.okAddr a
  | .excvt c k _ clr sp a _ => c.counted && (clr || k.order == .rlx || k.order == .acq) && sp.okAddr a
  | .waitc c _ _ brec a d => c.counted && d.mult 2 && (Space.global brec).okAddr a
  | .llock c _ brec a d | .lunlk c _ brec a d | .ltry c _ brec a d => c.counted && d.mult 2 && (Space.global brec).okAddr a
  | .lstat c brec a _ => c.counted && (Space.global brec).okAddr a
  | .bar c op _ cnt _ d a b => (c.counted || op == .sync) && barFieldsOk op cnt d a b
  | .cbar c op _ cnt id d a b => (c.counted || op == .sync) && decide (id.toNat < 4) && barFieldsOk op cnt d a b
  | .mxm c d _ _ | .mxldZero c _ _ d | .mxldFill c _ _ d _ | .mxldRestore c _ _ d _ _ | .mxst c _ d _ _ => c.counted && d.mult 2
  | .mxwait _ a => a.mult 2
  | .mstat c clr n _ => c.counted && decide (n.toNat ≤ 8) && (!clr || decide (n.toNat ≤ 3) || n == 8#4)
  | .sshape _ _ a => a.mult 2
  | .sshapeRd c _ d => c.counted && d.mult 2
  | .strmOpen c _ _ => c.counted
  | .strmSub c w _ _ _ => c.counted && decide (1 ≤ w.toNat) && decide (w.toNat ≤ 4)
  | .strmUnsub _ _ | .strmClose _ _ => true
  | .taskpost c d _ _ _ => c.counted && d.mult 4
  | .taskseq c d _ => c.counted && d.mult 2
  | .taskseqWait _ a _ => a.mult 2
  | .coll c _ _ _ => c.counted
  | .dxsync c d => c.counted && d.mult 2
  | .dxq c _ _ => c.counted
  | .tret c _ _ | .tretSkip c _ _ => !c.counted
  | .caps _ _ _ _ | .elogSync _ | .elogPut _ _ _ => true
  | .elogCnt c _ => c.counted
  | .tlbiAll _ | .tlbiPart _ => true
  | .tlbiVa _ a => a.mult 2
  | .protld c _ d a => c.counted && d.mult 2 && a.mult 2
  | .objdecl c _ d _ => c.counted && d.mult 2
  | .objrel c _ _ => c.counted
  | .div64 _ t d a b | .rem64 _ t d a b | .mulh64 _ t d a b => t.is64 && d.mult 2 && a.mult 2 && b.mult 2
  | .crcb _ _ _ _ _ => true
  | .bundleSeed _ g | .fairnessTimerExpiry _ g | .readyButWaiting _ g | .xlnExitCompletion _ g | .eventRecordExpiry _ g
  | .lockTimeout _ g | .deadlockProbe _ g | .absenceArrive _ g | .presenceArrive _ g => decide (g < 64)
  | .clauseFetch _ | .clauseBoundary _ | .operationComplete _ | .atomicRequestAtHome _ | .acqrWriteback _
  | .lockRequestAtHome _ | .unlockAtHome _ | .lockholdMaxExpiry _ => true
  | .faultRecordPost die | .answerRetry die _ | .answerFail die _ | .badtagClear die | .faultQueueEnable die _
  | .staleMessage die _ _ _ | .staleCountersClear die | .errorCountersClear die
  | .collectiveStart die _ | .collectiveComplete die _ _ => decide (die < 2)
  | .sliceRequestEnqueue die core | .homeStorePerformed die core _ _ | .sluiceSectorLand die core _ _
  | .matrixOpComplete die core | .causewayDataArrive die core | .retentionEnter die core | .retentionWake die core
  | .reclaimComplete die core | .coreRepair die core => decide (die < 2) && decide (core < 72)
  | .staitheTileDeliver die core stream => decide (die < 2) && decide (core < 72) && decide (stream < 64)
  | .blockClearDone die core block | .bankSpareCopy die core block => decide (die < 2) && decide (core < 72) && decide (block < 256)
  | .monitorReread _ g l | .waitcTimeout _ g l => decide (g < 64) && decide (l < 32)
  | .rd die slice obj | .wr0 die slice obj | .wr1 die slice obj | .ack die slice obj | .evc die slice obj _ | .wb die slice obj _ _ =>
      decide (die < 2) && decide (slice < 16) && decide (obj < 4096)
  | .l2WayReplace die slice way => decide (die < 2) && decide (slice < 16) && decide (way < 16)
  | .declare die agent => decide (die < 2) && decide (agent < 128)
  | .linkReplayTimeout die agent | .selfTestFail die agent => decide (die < 2) && (decide (agent < 74) || (decide (256 ≤ agent) && decide (agent < 264)))
  | .queueEnable q v => decide (q < 256) && v.getLsbD 0
  | .queueDisable q v => decide (q < 256) && !v.getLsbD 0
  | .qtailWrite q _ | .kill q | .walkRecord q | .linkFollow q => decide (q < 256)
  | .commit p | .oversubClear p | .resume p | .drain p | .lkcntClear p => decide (p < 8)
  | .replaysClear p | .ualinkRequest p _ | .linkTraining p _ _ => decide (p < 18)
  | .hostMemoryAccess _ | .bisnpResponse _ _ | .hostLineWrite _ _ | .registerWrite _ _ _ | .bootGo _ | .attestGo | .reset _ _
  | .codeObjectLoad _ _ | .taskDistribute _ | .clusterPlace _ | .preemptDecision _ | .taskRetire _ | .taskFault _
  | .swapwaitExpiry _ | .teamSave _ | .teamRestore _ | .teamRetire _ | .quantumCommit _ | .flitReplay _ _ | .laneRetire _ _
  | .retrainDone _ | .throttleStep | .partitionStop | .unthrottleStep | .thermalTrip _ | .scrub _ _ _ _ => true

end Sys2Proof
end

