-- ==== Sys2Proof/Decode.lean ====
section
/-!
DEFINITION. The decoder and the encoder of instruction words (R78, R80, R82 and each instruction's MOD table). Fields are taken as
natural numbers out of the word, and put back the same way.
-/

namespace Sys2Proof

/-- Why a word is no instruction: both raise ILLEGAL (R83, step 1). -/
inductive DecodeError
  /-- The opcode is unassigned (R82). -/
  | unassigned
  /-- A field holds a value the spec does not define (R81, R88). -/
  | field
deriving DecidableEq, Repr

/-- Bits `lo` to `lo + n - 1` of a word (R3). -/
def bits (w lo n : Nat) : Nat := w / 2 ^ lo % 2 ^ n

/-- One bit of a word (R3). -/
def bit (w i : Nat) : Bool := w / 2 ^ i % 2 == 1

/-- The control bits of a word (R78). -/
def ctlOf (w : Nat) : Ctl :=
  { stall := BitVec.ofNat 4 (bits w 52 4), sbi := BitVec.ofNat 3 (bits w 49 3), pneg := bit w 48, pidx := BitVec.ofNat 3 (bits w 45 3) }

/-- An 8-bit register field at bit `lo` (R80). -/
def regAt (w lo : Nat) : Reg := BitVec.ofNat 8 (bits w lo 8)

/-- A field that names a predicate: bits above [2:0] must be zero (R81). -/
def predAt (w lo : Nat) : Option Pred := if bits w lo 8 < 8 then some (BitVec.ofNat 3 (bits w lo 8)) else none

def ityOf (n : Nat) : ITy := match n % 4 with | 0 => .i32 | 1 => .n32 | 2 => .i64 | _ => .n64
def ITy.code : ITy → Nat | .i32 => 0 | .n32 => 1 | .i64 => 2 | .n64 => 3

def icondOf (n : Nat) : Option ICond :=
  match n with | 0 => some .eq | 1 => some .ne | 2 => some .lt | 3 => some .le | 4 => some .gt | 5 => some .ge | _ => none
def ICond.code : ICond → Nat | .eq => 0 | .ne => 1 | .lt => 2 | .le => 3 | .gt => 4 | .ge => 5

def logicOf (n : Nat) : LogicOp := match n with | 0 => .and | 1 => .or | 2 => .xor | _ => .andn
def LogicOp.code : LogicOp → Nat | .and => 0 | .or => 1 | .xor => 2 | .andn => 3

def shiftOf (n : Nat) : ShiftKind := match n with | 0 => .shl | 1 => .shr | 2 => .sar | _ => .rol
def ShiftKind.code : ShiftKind → Nat | .shl => 0 | .shr => 1 | .sar => 2 | .rol => 3

def moviOf (n : Nat) : Option MoviForm := match n with | 0 => some .w32 | 1 => some .s64 | 2 => some .z64 | _ => none
def MoviForm.code : MoviForm → Nat | .w32 => 0 | .s64 => 1 | .z64 => 2

/-- Selectors of R144. -/
def sregOf (n : Nat) : Option SReg :=
  match n with
  | 0x00 => some .fid | 0x01 => some .hlane | 0x02 => some .grpid | 0x03 => some .teamid | 0x04 => some .clusid
  | 0x05 => some .clpos | 0x06 => some .core | 0x07 => some .die | 0x08 => some .partid | 0x10 => some .lclk | 0x11 => some .lclkh
  | 0x12 => some .cyc | 0x13 => some .cych | 0x18 => some .win | 0x19 => some .dtlen | 0x1A => some .calld | 0x1B => some .pw
  | 0x20 => some .tbase | 0x22 => some .tcause | 0x24 => some .tpc | 0x26 => some .tinst | 0x28 => some .taddr | _ => none
def SReg.code : SReg → Nat
  | .fid => 0x00 | .hlane => 0x01 | .grpid => 0x02 | .teamid => 0x03 | .clusid => 0x04 | .clpos => 0x05 | .core => 0x06 | .die => 0x07
  | .partid => 0x08 | .lclk => 0x10 | .lclkh => 0x11 | .cyc => 0x12 | .cych => 0x13 | .win => 0x18 | .dtlen => 0x19 | .calld => 0x1A
  | .pw => 0x1B | .tbase => 0x20 | .tcause => 0x22 | .tpc => 0x24 | .tinst => 0x26 | .taddr => 0x28

def ftyOf (n : Nat) : Option FTy := match n % 4 with | 0 => some .f32 | 1 => some .f16x2 | 2 => some .bf16x2 | _ => none
def FTy.code : FTy → Nat | .f32 => 0 | .f16x2 => 1 | .bf16x2 => 2

def rndOf (n : Nat) : Rnd := match n % 4 with | 0 => .rne | 1 => .rz | 2 => .rdn | _ => .rup
def Rnd.code : Rnd → Nat | .rne => 0 | .rz => 1 | .rdn => 2 | .rup => 3

/-- Operand modifiers, MOD[9:4] (R145). -/
def fmodsOf (n : Nat) : FMods := { na := bit n 4, aa := bit n 5, nb := bit n 6, ab := bit n 7, nc := bit n 8, ac := bit n 9 }
def FMods.code (m : FMods) : Nat :=
  m.na.toNat * 16 + m.aa.toNat * 32 + m.nb.toNat * 64 + m.ab.toNat * 128 + m.nc.toNat * 256 + m.ac.toNat * 512

def fcondOf (n : Nat) : FCond :=
  match n with | 0 => .eq | 1 => .ne | 2 => .lt | 3 => .le | 4 => .gt | 5 => .ge | 6 => .un | _ => .or
def FCond.code : FCond → Nat | .eq => 0 | .ne => 1 | .lt => 2 | .le => 3 | .gt => 4 | .ge => 5 | .un => 6 | .or => 7

/-- Format codes that CVT accepts (R28, R152). -/
def cfmtOf (n : Nat) : Option CFmt :=
  match n with
  | 0x01 => some .i8 | 0x02 => some .n8 | 0x03 => some .i16 | 0x04 => some .n16 | 0x05 => some .i32 | 0x06 => some .n32
  | 0x07 => some .i64 | 0x08 => some .n64 | 0x10 => some .f32 | 0x11 => some .f16 | 0x12 => some .bf16 | 0x13 => some .e4m3
  | 0x14 => some .e5m2 | 0x15 => some .e2m1 | 0x16 => some .e8m0 | _ => none
def CFmt.code : CFmt → Nat
  | .i8 => 0x01 | .n8 => 0x02 | .i16 => 0x03 | .n16 => 0x04 | .i32 => 0x05 | .n32 => 0x06 | .i64 => 0x07 | .n64 => 0x08
  | .f32 => 0x10 | .f16 => 0x11 | .bf16 => 0x12 | .e4m3 => 0x13 | .e5m2 => 0x14 | .e2m1 => 0x15 | .e8m0 => 0x16

def pfmtOf (n : Nat) : Option PFmt :=
  match n with
  | 0 => some .f16x2 | 1 => some .bf16x2 | 2 => some .e4m3 | 3 => some .e5m2 | 4 => some .e2m1 | 5 => some .e8m0 | _ => none
def PFmt.code : PFmt → Nat | .f16x2 => 0 | .bf16x2 => 1 | .e4m3 => 2 | .e5m2 => 3 | .e2m1 => 4 | .e8m0 => 5

/-- MSRC and the mask register field (R158, R162). -/
def msrcOf (w : Nat) : Option MSrc :=
  match bits w 11 2 with | 0 => some (.reg (regAt w 13)) | 1 => some .path | 2 => some .group | _ => none
/-- The M field and MSRC bits of a participant operand. -/
def MSrc.code : MSrc → Nat | .reg m => m.toNat * 2 ^ 13 | .path => 2048 | .group => 4096

def xmodeOf (n : Nat) : XMode := match n with | 0 => .from | 1 => .rot | 2 => .xor | _ => .refl
def XMode.code : XMode → Nat | .from => 0 | .rot => 1 | .xor => 2 | .refl => 3

def voteOf (n : Nat) : VoteOp := match n with | 0 => .ballot | 1 => .all | 2 => .any | _ => .eq
def VoteOp.code : VoteOp → Nat | .ballot => 0 | .all => 1 | .any => 2 | .eq => 3

def xopOf (n : Nat) : Option XOp :=
  match n with
  | 0 => some .iadd | 1 => some .imin | 2 => some .imax | 3 => some .and | 4 => some .or | 5 => some .xor
  | 6 => some .fadd | 7 => some .fmin | 8 => some .fmax | _ => none
def XOp.code : XOp → Nat
  | .iadd => 0 | .imin => 1 | .imax => 2 | .and => 3 | .or => 4 | .xor => 5 | .fadd => 6 | .fmin => 7 | .fmax => 8

def sizeOf' (n : Nat) : Option Size :=
  match n with | 0 => some .n8 | 1 => some .n16 | 2 => some .n32 | 3 => some .n64 | 4 => some .n128 | _ => none
def Size.code : Size → Nat | .n8 => 0 | .n16 => 1 | .n32 => 2 | .n64 => 3 | .n128 => 4

/-- The BREC field (R80). -/
def brecAt (w : Nat) : BitVec 12 := BitVec.ofNat 12 (bits w 17 12)
/-- The OFF13 field (R80). -/
def off13At (w : Nat) : BitVec 13 := BitVec.ofNat 13 (bits w 4 13)

/-- Space and size of LD and ST, MOD[3:0] (R183). -/
def memOpOf (w : Nat) : Option (Size × MemOp) :=
  let n := bits w 0 4
  let sp := if n < 5 then Space.global (brecAt w) else if n < 10 then .vault else .pool
  (sizeOf' (n % 5)).bind fun sz => if n < 15 then some (sz, { space := sp, a := regAt w 29, off := off13At w }) else none

/-- The BREC field and MOD base of a space. -/
def Space.memCode : Space → Nat | .global b => b.toNat * 2 ^ 17 | .vault => 5 | .pool => 10

/-- SPACE of the atomic control field (R269). -/
def aspaceOf (w : Nat) : Option Space :=
  match bits w 9 2 with | 0 => some (.global (brecAt w)) | 1 => some .vault | 2 => some .pool | _ => none
def Space.actlCode : Space → Nat | .global b => b.toNat * 2 ^ 17 | .vault => 512 | .pool => 1024

def scopeOf (n : Nat) : Scope :=
  match n with
  | 0 => .fibre | 1 => .group | 2 => .team | 3 => .cluster | 4 => .die | 5 => .device | 6 => .fabric | _ => .system
def Scope.code : Scope → Nat
  | .fibre => 0 | .group => 1 | .team => 2 | .cluster => 3 | .die => 4 | .device => 5 | .fabric => 6 | .system => 7

def orderOf (n : Nat) : Order := match n with | 0 => .rlx | 1 => .acq | 2 => .rel | _ => .ar
def Order.code : Order → Nat | .rlx => 0 | .acq => 1 | .rel => 2 | .ar => 3

def fenceOf (n : Nat) : FenceKind := match n with | 0 => .acq | 1 => .rel | 2 => .ar | _ => .sc
def FenceKind.code : FenceKind → Nat | .acq => 0 | .rel => 1 | .ar => 2 | .sc => 3

/-- UO, SCOPE and ORDER of the atomic control field (R269). -/
def actlOf (w : Nat) : ACtl := { uo := bit w 16, scope := scopeOf (bits w 13 3), order := orderOf (bits w 11 2) }
def ACtl.code (k : ACtl) : Nat := k.uo.toNat * 65536 + k.scope.code * 8192 + k.order.code * 2048

def atomOf (n : Nat) : Option AtomOp :=
  match n with
  | 0 => some .add | 1 => some .min | 2 => some .max | 3 => some .and | 4 => some .or | 5 => some .xor | 6 => some .swap
  | 7 => some .fadd | 8 => some .fmin | 9 => some .fmax | _ => none
def AtomOp.code : AtomOp → Nat
  | .add => 0 | .min => 1 | .max => 2 | .and => 3 | .or => 4 | .xor => 5 | .swap => 6 | .fadd => 7 | .fmin => 8 | .fmax => 9

def wcondOf (n : Nat) : Option WCond :=
  match n with
  | 0 => some .eq | 1 => some .ne | 2 => some .lt | 3 => some .le | 4 => some .gt | 5 => some .ge
  | 6 => some .ltu | 7 => some .leu | 8 => some .gtu | 9 => some .geu | _ => none
def WCond.code : WCond → Nat
  | .eq => 0 | .ne => 1 | .lt => 2 | .le => 3 | .gt => 4 | .ge => 5 | .ltu => 6 | .leu => 7 | .gtu => 8 | .geu => 9

def barOf (n : Nat) : Option BarOp :=
  match n with | 0 => some .sync | 1 => some .and | 2 => some .or | 3 => some .add | 4 => some .popc | _ => none
def BarOp.code : BarOp → Nat | .sync => 0 | .and => 1 | .or => 2 | .add => 3 | .popc => 4

/-- `some x` when the check holds. -/
def guardOpt {α : Type} (ok : Bool) (x : α) : Option α := if ok then some x else none

/-- A barrier instruction, with the fields it leaves unused as zero (R282). -/
def decodeBar (w : Nat) (mk : BarOp → Bool → Bool → BitVec 4 → Reg → Reg → Reg → Instr) : Option Instr :=
  (barOf (bits w 4 3)).bind fun op =>
    let cnt := bit w 8
    let z := op == .sync
    guardOpt (bits w 9 4 == 0)
      (mk op (bit w 7) cnt (BitVec.ofNat 4 (bits w 0 4)) (if z then 0#8 else regAt w 37) (if z then 0#8 else regAt w 29)
        (if cnt then regAt w 21 else 0#8))

/-- A lock instruction: LCTL holds only UO (R292). -/
def decodeLock (w : Nat) (mk : Bool → BitVec 12 → Reg → Reg → Instr) : Option Instr :=
  guardOpt (bits w 0 16 == 0) (mk (bit w 16) (brecAt w) (regAt w 29) (regAt w 37))

/-- A transaction-barrier instruction (R196). -/
def decodeTbar (c : Ctl) (w : Nat) : Option Instr :=
  let pool := bit w 3
  let a := regAt w 29
  let off := off13At w
  let d := regAt w 37
  match bits w 0 3 with
  | 0 => some (.tbarInit c pool a off d)
  | 1 => some (.tbarArrive c pool a off)
  | 2 => some (.tbarArriveSect c pool a off d)
  | 3 => some (.tbarSect c pool a off d)
  | 4 => some (.tbarWait c pool a off d)
  | 5 => some (.tbarTest c pool a off d)
  | _ => none

/-- GEN integer, logic and data-movement opcodes 0x00 to 0x29 and 0xE0 to 0xE3 (R130 to R143, R154). -/
def decodeGen (opc : Nat) (c : Ctl) (w : Nat) : Option Instr :=
  let d := regAt w 37
  let a := regAt w 29
  let b := regAt w 21
  let e := regAt w 13
  let m := bits w 0 13
  let t := ityOf m
  let sat := bit w 2
  let mi := bits w 0 5
  let imm := BitVec.ofNat 24 (bits w 5 24)
  match opc with
  | 0x00 => guardOpt (m == 0) (.nop c)
  | 0x01 => guardOpt (m < 8) (.iadd c t sat d a b)
  | 0x02 => guardOpt (m < 8) (.isub c t sat d a b)
  | 0x03 => guardOpt (m < 8) (.imul c t sat d a b)
  | 0x04 => guardOpt (m < 4) (.imulh c t d a b)
  | 0x05 => guardOpt (m < 8) (.imad c t sat d a b e)
  | 0x06 => guardOpt (m < 4) (.imadw c t d a b e)
  | 0x07 => guardOpt (m < 4) (.idiv c t d a b)
  | 0x08 => guardOpt (m < 4) (.irem c t d a b)
  | 0x09 => guardOpt (m < 4) (.imin c t d a b)
  | 0x0A => guardOpt (m < 4) (.imax c t d a b)
  | 0x0B => guardOpt (m < 8) (.iabs c t sat d a)
  | 0x0C => guardOpt (m < 8) (.ineg c t sat d a)
  | 0x0D => guardOpt (mi < 8) (.iaddi c t sat d a imm)
  | 0x0E => (icondOf (bits w 2 3)).bind fun k => (predAt w 37).bind fun p => guardOpt (m < 32) (.icmp c k t p a b)
  | 0x0F => (icondOf (bits w 2 3)).bind fun k => (predAt w 37).bind fun p => some (.icmpi c k t p a imm)
  | 0x10 => guardOpt (m < 4) (.and c t d a b)
  | 0x11 => guardOpt (m < 4) (.or c t d a b)
  | 0x12 => guardOpt (m < 4) (.xor c t d a b)
  | 0x13 => guardOpt (m < 4) (.not c t d a)
  | 0x14 => guardOpt (bits w 2 1 == 0 && bits w 11 2 == 0) (.blut3 c t (BitVec.ofNat 8 (bits w 3 8)) d a b e)
  | 0x15 => guardOpt (mi < 16) (.lopi c (logicOf (bits w 2 2)) t d a imm)
  | 0x16 => guardOpt (m < 4) (.shl c t d a b)
  | 0x17 => guardOpt (m < 4) (.shr c t d a b)
  | 0x18 => guardOpt (m < 4) (.sar c t d a b)
  | 0x19 => guardOpt (m < 4) (.rol c t d a b)
  | 0x1A => guardOpt (mi < 16) (.shi c (shiftOf (bits w 2 2)) t d a imm)
  | 0x1B => guardOpt (m < 4) (.bfx c t d a b)
  | 0x1C => guardOpt (m < 4) (.bfi c t d a b)
  | 0x1D => guardOpt (m < 4) (.popc c t d a)
  | 0x1E => guardOpt (m < 4) (.clz c t d a)
  | 0x1F => guardOpt (m < 4) (.ctz c t d a)
  | 0x20 => guardOpt (m < 4) (.brev c t d a)
  | 0x21 => guardOpt (m == 0) (.permb c d a b e)
  | 0x22 => guardOpt (m < 32) (.lea c t (BitVec.ofNat 3 (bits w 2 3)) d a b)
  | 0x23 => (predAt w 13).bind fun p => guardOpt (m < 8) (.sel c t d a b p (bit w 2))
  | 0x24 => (predAt w 37).bind fun pd => (predAt w 29).bind fun pa => (predAt w 21).bind fun pb => (predAt w 13).bind fun pc =>
      guardOpt (bits w 0 3 == 0 && bits w 11 2 == 0) (.plop c (BitVec.ofNat 8 (bits w 3 8)) pd pa pb pc)
  | 0x25 => guardOpt (m < 4) (.mov c t d a)
  | 0x26 => (moviOf mi).bind fun f => some (.movi c f d (BitVec.ofNat 32 (bits w 5 32)))
  | 0x27 => match m with
    | 0 => some (.movxRd c false d a b)
    | 1 => some (.movxWr c false a b e)
    | 2 => some (.movxRd c true d a b)
    | 3 => some (.movxWr c true a b e)
    | _ => none
  | 0x28 => (sregOf (bits w 5 24)).bind fun r => guardOpt (mi < 2) (.srd c (bit w 0) r d)
  | 0x29 => guardOpt (bits w 5 24 == 0x1B && mi == 0) (.swr c a)
  | 0xE0 => guardOpt (m < 4) (.div64 c t d a b)
  | 0xE1 => guardOpt (m < 4) (.rem64 c t d a b)
  | 0xE2 => guardOpt (m < 4) (.mulh64 c t d a b)
  | 0xE3 => guardOpt (m < 4) (.crcb c (BitVec.ofNat 2 m) d a b)
  | _ => none

/-- Floating-point and SFU opcodes 0x30 to 0x3F and 0x50 to 0x59 (R145 to R157). -/
def decodeFloat (opc : Nat) (c : Ctl) (w : Nat) : Option Instr :=
  let d := regAt w 37
  let a := regAt w 29
  let b := regAt w 21
  let e := regAt w 13
  let m := bits w 0 13
  let r := rndOf (bits w 2 2)
  let k := fmodsOf m
  let cond0 := bits w 10 3 == 0
  let sfu := cond0 && bits w 2 2 == 0
  match opc with
  | 0x30 => (ftyOf m).bind fun t => guardOpt cond0 (.fadd c t r k d a b)
  | 0x31 => (ftyOf m).bind fun t => guardOpt cond0 (.fsub c t r k d a b)
  | 0x32 => (ftyOf m).bind fun t => guardOpt cond0 (.fmul c t r k d a b)
  | 0x33 => (ftyOf m).bind fun t => guardOpt cond0 (.ffma c t r k d a b e)
  | 0x34 => (ftyOf m).bind fun t => guardOpt cond0 (.fmin c t k d a b)
  | 0x35 => (ftyOf m).bind fun t => guardOpt cond0 (.fmax c t k d a b)
  | 0x36 => (ftyOf m).bind fun t => (predAt w 37).bind fun p =>
      if t = .f32 then some (.fcmp c (fcondOf (bits w 10 3)) t k p a b 0#3)
      else (predAt w 13).bind fun q => some (.fcmp c (fcondOf (bits w 10 3)) t k p a b q)
  | 0x37 => (ftyOf m).bind fun t => guardOpt cond0 (.fclass c t k d a)
  | 0x38 => (ftyOf m).bind fun t => guardOpt cond0 (.frnd c t r k d a)
  | 0x39 => (ftyOf m).bind fun t => guardOpt cond0 (.fscale c t r k d a b)
  | 0x3A => (ftyOf m).bind fun t => guardOpt cond0 (.fgetexp c t k d a)
  | 0x3B => (ftyOf m).bind fun t => guardOpt cond0 (.fgetman c t k d a)
  | 0x3C => (ftyOf m).bind fun t => guardOpt cond0 (.fdot2 c t r k d a b e)
  | 0x3D => (cfmtOf (bits w 21 8)).bind fun dst => (cfmtOf (bits w 13 8)).bind fun src =>
      guardOpt (bits w 0 2 == 0 && bits w 8 5 == 0) (.cvt c dst src r (bit w 4) (BitVec.ofNat 3 (bits w 5 3)) d a)
  | 0x3E => (pfmtOf (bits w 5 3)).bind fun pf => guardOpt (bits w 0 2 == 0 && bits w 8 5 == 0) (.pack c pf r (bit w 4) d a b)
  | 0x3F => (pfmtOf (bits w 5 3)).bind fun pf => guardOpt (bits w 0 5 == 0 && bits w 8 5 == 0) (.unpack c pf d a)
  | 0x50 => (ftyOf m).bind fun t => guardOpt sfu (.rcp c t k d a)
  | 0x51 => (ftyOf m).bind fun t => guardOpt sfu (.rsq c t k d a)
  | 0x52 => (ftyOf m).bind fun t => guardOpt sfu (.sqrt c t k d a)
  | 0x53 => (ftyOf m).bind fun t => guardOpt sfu (.fdiv c t k d a b)
  | 0x54 => (ftyOf m).bind fun t => guardOpt sfu (.ex2 c t k d a)
  | 0x55 => (ftyOf m).bind fun t => guardOpt sfu (.lg2 c t k d a)
  | 0x56 => (ftyOf m).bind fun t => guardOpt sfu (.sinpi c t k d a)
  | 0x57 => (ftyOf m).bind fun t => guardOpt sfu (.cospi c t k d a)
  | 0x58 => (ftyOf m).bind fun t => guardOpt sfu (.tanh c t k d a)
  | 0x59 => guardOpt (m < 2) (.rand c (bit w 0) d a b e)
  | _ => none

/-- Control opcodes 0x40 to 0x4C (R110). -/
def decodeControl (opc : Nat) (c : Ctl) (w : Nat) : Option Instr :=
  let off := BitVec.ofNat 24 (bits w 21 24)
  let hint := bit w 20
  let a := regAt w 12
  let m := bits w 0 12
  match opc with
  | 0x40 => guardOpt (m == 0) (.bra c off hint)
  | 0x41 => guardOpt (m == 0) (.brx c hint a)
  | 0x42 => guardOpt (m == 0) (.call c off hint)
  | 0x43 => guardOpt (m == 0) (.callx c hint a)
  | 0x44 => guardOpt (m == 0) (.ret c hint)
  | 0x45 => guardOpt (m < 8) (.lpad c (BitVec.ofNat 3 m))
  | 0x46 => guardOpt (m == 0) (.loop c off a)
  | 0x47 => guardOpt (m == 0) (.lbrk c hint)
  | 0x48 => guardOpt (m < 256) (.spawn c off a (BitVec.ofNat 8 m))
  | 0x49 => guardOpt (m == 0) (.exit c)
  | 0x4A => guardOpt (m == 0) (.yield c)
  | 0x4B => some (.bkpt c (BitVec.ofNat 12 m))
  | 0x4C => some (.trap c (BitVec.ofNat 12 m))
  | _ => none

/-- Cross-lane opcodes 0x60 to 0x67 (R162). -/
def decodeXln (opc : Nat) (c : Ctl) (w : Nat) : Option Instr :=
  let d := regAt w 37
  let a := regAt w 29
  let b := regAt w 21
  match opc with
  | 0x60 => (msrcOf w).bind fun s => guardOpt (bits w 4 7 == 0) (.lxch c (xmodeOf (bits w 0 2)) (bit w 2) (bit w 3) s d a b)
  | 0x61 => (msrcOf w).bind fun s => (predAt w 29).bind fun p =>
      guardOpt (bits w 3 8 == 0) (.vote c (voteOf (bits w 0 2)) (bit w 2) s d p)
  | 0x62 => (msrcOf w).bind fun s => guardOpt (bits w 1 10 == 0) (.matchx c (bit w 0) s d a)
  | 0x63 => (msrcOf w).bind fun s => (xopOf (bits w 0 4)).bind fun op => guardOpt (bits w 5 6 == 0) (.xred c op (bit w 4) s d a)
  | 0x64 => (msrcOf w).bind fun s => (xopOf (bits w 0 4)).bind fun op =>
      guardOpt (bits w 6 5 == 0) (.xscan c op (bit w 4) (bit w 5) s d a)
  | 0x65 =>
      if bit w 0 then guardOpt (bits w 1 10 == 0) (.lanemapRd c d)
      else (msrcOf w).bind fun s => guardOpt (bits w 1 10 == 0) (.lanemap c s a)
  | 0x66 => guardOpt (bits w 0 13 == 0) (.active c d)
  | 0x67 => (msrcOf w).bind fun s => (predAt w 37).bind fun p => guardOpt (bits w 0 11 == 0) (.elect c s p)
  | _ => none

/-- Memory opcodes 0x80 to 0x94 (R183 to R199, R269 to R302). -/
def decodeMem (opc : Nat) (c : Ctl) (w : Nat) : Option Instr :=
  let d := regAt w 37
  let a := regAt w 29
  let b := regAt w 21
  let brec := brecAt w
  let off := off13At w
  let k := actlOf w
  let t := ityOf (bits w 7 2)
  match opc with
  | 0x80 => (memOpOf w).bind fun (sz, m) => some (.ld c sz m d)
  | 0x81 => (memOpOf w).bind fun (sz, m) => some (.st c sz m d)
  | 0x82 => (sizeOf' (bits w 0 4)).bind fun sz =>
      match d.toNat with | 0 => some (.prefL1 c sz brec a off) | 1 => some (.prefL2 c sz brec a off) | _ => none
  | 0x83 => (sizeOf' (bits w 0 4)).bind fun sz =>
      match d.toNat with
      | 0 => some (.cmaintWb c sz brec a off)
      | 1 => some (.cmaintWbinv c sz brec a off)
      | 2 => some (.cmaintWbmem c sz brec a off)
      | _ => none
  | 0x84 => guardOpt (bits w 6 7 == 0) (.fence c (fenceOf (bits w 0 2)) (scopeOf (bits w 2 3)) (bit w 5))
  | 0x85 => guardOpt (bits w 1 12 == 0) (.acqr c (bit w 0) a)
  | 0x86 =>
      let src := if bit w 2 then ASrc.vault else .global brec
      let z := regAt w 9
      match bits w 0 2 with
      | 0 => guardOpt (bits w 3 6 == 0) (.acpy c .n32 src d a z)
      | 1 => guardOpt (bits w 3 6 == 0) (.acpy c .n64 src d a z)
      | 2 => guardOpt (bits w 3 6 == 0) (.acpy c .n128 src d a z)
      | _ => none
  | 0x87 => guardOpt (bits w 0 9 == 0) (.mcpy c brec d a (regAt w 9))
  | 0x88 => decodeTbar c w
  | 0x89 => (aspaceOf w).bind fun sp => (atomOf (bits w 0 4)).bind fun op => guardOpt (bits w 4 3 == 0) (.atom c k op t sp a d)
  | 0x8A => (aspaceOf w).bind fun sp => (atomOf (bits w 0 4)).bind fun op => guardOpt (bits w 4 3 == 0) (.atomn c k op t sp a d)
  | 0x8B => (aspaceOf w).bind fun sp => guardOpt (bits w 0 7 == 0) (.acas c k t sp a d)
  | 0x8C => (aspaceOf w).bind fun sp => guardOpt (bits w 0 9 == 0) (.exsum c k sp a d)
  | 0x8D => (aspaceOf w).bind fun sp =>
      guardOpt (bits w 0 4 < 2 && bits w 5 4 == 0) (.excvt c k (bit w 0) (bit w 4) sp a d)
  | 0x8E => (wcondOf (bits w 0 4)).bind fun cond =>
      guardOpt (bits w 4 9 == 0 && bits w 13 3 == 5) (.waitc c cond (bit w 16) brec a d)
  | 0x8F => decodeLock w (.llock c)
  | 0x90 => decodeLock w (.lunlk c)
  | 0x91 => decodeLock w (.ltry c)
  | 0x92 => guardOpt (bits w 0 17 == 0) (.lstat c brec a d)
  | 0x93 => decodeBar w (.bar c)
  | 0x94 => decodeBar w (.cbar c)
  | _ => let _ := b; none

/-- Matrix, stream, task and collective opcodes 0xA0 to 0xAB (R219, R243, R338, R345). -/
def decodeMat (opc : Nat) (c : Ctl) (w : Nat) : Option Instr :=
  let d := regAt w 37
  let a := regAt w 29
  let b := regAt w 21
  let n := bits w 5 16
  let imm := BitVec.ofNat 16 n
  let m := bits w 0 5
  match opc with
  | 0xA0 => guardOpt (m == 0) (.mxm c d a imm)
  | 0xA1 =>
      match m % 4 with
      | 0 => guardOpt (m < 16) (.mxldZero c (bit w 2) (bit w 3) d)
      | 1 => guardOpt (m < 16) (.mxldFill c (bit w 2) (bit w 3) d b)
      | 2 => guardOpt (m < 16) (.mxldRestore c (bit w 2) (bit w 3) d a imm)
      | _ => none
  | 0xA2 => guardOpt (m == 0 || m == 8) (.mxst c (bit w 3) d a imm)
  | 0xA3 => guardOpt (m == 0 && n == 0) (.mxwait c a)
  | 0xA4 => guardOpt (m < 2 && n ≤ 8) (.mstat c (bit w 0) (BitVec.ofNat 4 n) d)
  | 0xA5 =>
      match m with
      | 0 => guardOpt (n < 8) (.sshape c (BitVec.ofNat 3 n) a)
      | 1 => guardOpt (n < 8) (.sshapeRd c (BitVec.ofNat 3 n) d)
      | _ => none
  | 0xA6 =>
      match m with
      | 0 => some (.strmOpen c d a)
      | 1 => guardOpt (1 ≤ n && n ≤ 4) (.strmSub c (BitVec.ofNat 3 n) d a b)
      | 2 => some (.strmUnsub c a)
      | 3 => some (.strmClose c a)
      | _ => none
  | 0xA7 => guardOpt (m == 0) (.taskpost c d a b imm)
  | 0xA8 =>
      match m with
      | 0 => guardOpt (n == 0) (.taskseq c d b)
      | 1 => guardOpt (n == 0) (.taskseqWait c a b)
      | _ => none
  | 0xA9 => guardOpt (m == 0) (.coll c d a imm)
  | 0xAA => guardOpt (m == 0 && n == 0) (.dxsync c d)
  | 0xAB => guardOpt (m == 0 && n < 4) (.dxq c (BitVec.ofNat 2 n) d)
  | _ => none

/-- System opcodes 0xC0 to 0xC6 (R27, R179, R319, R357, R360). -/
def decodeSys (opc : Nat) (c : Ctl) (w : Nat) : Option Instr :=
  let d := regAt w 37
  let a := regAt w 29
  let b := regAt w 21
  let m := bits w 0 13
  match opc with
  | 0xC0 =>
      if bit w 8 then guardOpt (bits w 10 3 == 0) (.tretSkip c (BitVec.ofNat 8 (bits w 0 8)) (bit w 9))
      else guardOpt (bits w 10 3 == 0) (.tret c (BitVec.ofNat 8 (bits w 0 8)) (bit w 9))
  | 0xC1 => guardOpt (bits w 0 5 == 0) (.caps c d a (BitVec.ofNat 24 (bits w 5 24)))
  | 0xC2 => match m with | 0 => some (.elogSync c) | 1 => some (.elogCnt c d) | 2 => some (.elogPut c a b) | _ => none
  | 0xC3 => match m with | 0 => some (.tlbiAll c) | 1 => some (.tlbiVa c a) | 2 => some (.tlbiPart c) | _ => none
  | 0xC4 => guardOpt (m < 8) (.protld c (BitVec.ofNat 3 m) d a)
  | 0xC5 => guardOpt (m < 8) (.objdecl c (BitVec.ofNat 3 m) d a)
  | 0xC6 => guardOpt (m == 0) (.objrel c d a)
  | _ => none

/-- The opcode map (R82). -/
def opcAssigned (n : Nat) : Bool :=
  n ≤ 0x29 || (0x30 ≤ n && n ≤ 0x4C) || (0x50 ≤ n && n ≤ 0x59) || (0x60 ≤ n && n ≤ 0x67) || (0x80 ≤ n && n ≤ 0x94) ||
  (0xA0 ≤ n && n ≤ 0xAB) || (0xC0 ≤ n && n ≤ 0xC6) || (0xE0 ≤ n && n ≤ 0xE3)

/-- The term of a word, before the checks that `Instr.wellFormed` makes. -/
def rawDecode (w : Nat) : Option Instr :=
  let opc := bits w 56 8
  let c := ctlOf w
  if opc < 0x30 || 0xE0 ≤ opc then decodeGen opc c w
  else if opc < 0x40 then decodeFloat opc c w
  else if opc < 0x50 then decodeControl opc c w
  else if opc < 0x60 then decodeFloat opc c w
  else if opc < 0x80 then decodeXln opc c w
  else if opc < 0xA0 then decodeMem opc c w
  else if opc < 0xC0 then decodeMat opc c w
  else decodeSys opc c w

/-- The instruction of a 64-bit word, or why it is none (R82, R83). -/
def decodeWord (w : DWord) : Except DecodeError Instr :=
  match rawDecode w.toNat with
  | some i => if i.wellFormed then .ok i else .error .field
  | none => if opcAssigned (bits w.toNat 56 8) then .error .field else .error .unassigned

/-- The word whose bytes, from the lowest address upward, are given (R2). -/
def wordOfBytes : List Byte → Nat
  | [] => 0
  | x :: xs => x.toNat + 256 * wordOfBytes xs

/-- The `n` bytes of a word, least significant first (R2). -/
def bytesOfWord : Nat → Nat → List Byte
  | 0, _ => []
  | n + 1, w => BitVec.ofNat 8 w :: bytesOfWord n (w / 256)

/-- Decoding any bytes: the instruction of the first eight, with the bytes after it. -/
def decodeBytes (bs : List Byte) : Except DecodeError (Instr × List Byte) :=
  if bs.length < 8 then .error .field
  else match decodeWord (BitVec.ofNat 64 (wordOfBytes (bs.take 8))) with
    | .ok i => .ok (i, bs.drop 8)
    | .error e => .error e

/-- The instruction the decoder reads from the low `nbits` of a word; the bits above are zero. -/
def decodeTableWord (nbits w : Nat) : Option Instr :=
  match decodeWord (BitVec.ofNat 64 (w % 2 ^ nbits)) with
  | .ok i => some i
  | .error _ => none

/-! ### The encoder -/

/-- A word from its opcode, control bits and the 45 bits of its format (R78). -/
def mkWord (opc : Nat) (c : Ctl) (rest : Nat) : DWord :=
  BitVec.ofNat 64 (opc * 2 ^ 56 + c.stall.toNat * 2 ^ 52 + c.sbi.toNat * 2 ^ 49 + c.pneg.toNat * 2 ^ 48 + c.pidx.toNat * 2 ^ 45 + rest)

/-- The RRR format (R80). -/
def fRRR (d a b e m : Nat) : Nat := d * 2 ^ 37 + a * 2 ^ 29 + b * 2 ^ 21 + e * 2 ^ 13 + m
/-- The RRI format (R80). -/
def fRRI (d a imm m : Nat) : Nat := d * 2 ^ 37 + a * 2 ^ 29 + imm * 2 ^ 5 + m
/-- The RI32 format (R80). -/
def fRI32 (d imm m : Nat) : Nat := d * 2 ^ 37 + imm * 2 ^ 5 + m
/-- The MEM format (R80). -/
def fMEM (d a brec off m : Nat) : Nat := d * 2 ^ 37 + a * 2 ^ 29 + brec * 2 ^ 17 + off * 2 ^ 4 + m
/-- The MEM format with a 17-bit control field (R269, R292). -/
def fMEMC (d a brec m : Nat) : Nat := d * 2 ^ 37 + a * 2 ^ 29 + brec * 2 ^ 17 + m
/-- The BR format (R80). -/
def fBR (off : Nat) (hint : Bool) (a m : Nat) : Nat := off * 2 ^ 21 + hint.toNat * 2 ^ 20 + a * 2 ^ 12 + m
/-- The CPY format (R80). -/
def fCPY (x y brec z m : Nat) : Nat := x * 2 ^ 37 + y * 2 ^ 29 + brec * 2 ^ 17 + z * 2 ^ 9 + m
/-- The MAT format (R80). -/
def fMAT (d a b imm m : Nat) : Nat := d * 2 ^ 37 + a * 2 ^ 29 + b * 2 ^ 21 + imm * 2 ^ 5 + m
/-- The XLN format with its participant operand (R80, R158). -/
def fXLN (d a b : Nat) (s : MSrc) (m : Nat) : Nat := d * 2 ^ 37 + a * 2 ^ 29 + b * 2 ^ 21 + s.code + m

/-- MOD of a floating-point instruction (R145). -/
def fFMOD (t : FTy) (r : Nat) (k : FMods) (cond : Nat) : Nat := cond * 1024 + k.code + r * 4 + t.code

/-- BREC of a space; zero where the space has none. -/
def Space.brec : Space → Nat | .global b => b.toNat | _ => 0
/-- MOD base of a space in LD and ST (R183). -/
def Space.modBase : Space → Nat | .global _ => 0 | .vault => 5 | .pool => 10
/-- SPACE bits of the atomic control field (R269). -/
def Space.actlBits : Space → Nat | .global _ => 0 | .vault => 512 | .pool => 1024

/-- The word of an instruction; events have none. -/
def encode : Instr → Option DWord
  | .nop c => mkWord 0x00 c 0
  | .iadd c t s d a b => mkWord 0x01 c (fRRR d.toNat a.toNat b.toNat 0 (s.toNat * 4 + t.code))
  | .isub c t s d a b => mkWord 0x02 c (fRRR d.toNat a.toNat b.toNat 0 (s.toNat * 4 + t.code))
  | .imul c t s d a b => mkWord 0x03 c (fRRR d.toNat a.toNat b.toNat 0 (s.toNat * 4 + t.code))
  | .imulh c t d a b => mkWord 0x04 c (fRRR d.toNat a.toNat b.toNat 0 t.code)
  | .imad c t s d a b e => mkWord 0x05 c (fRRR d.toNat a.toNat b.toNat e.toNat (s.toNat * 4 + t.code))
  | .imadw c t d a b e => mkWord 0x06 c (fRRR d.toNat a.toNat b.toNat e.toNat t.code)
  | .idiv c t d a b => mkWord 0x07 c (fRRR d.toNat a.toNat b.toNat 0 t.code)
  | .irem c t d a b => mkWord 0x08 c (fRRR d.toNat a.toNat b.toNat 0 t.code)
  | .imin c t d a b => mkWord 0x09 c (fRRR d.toNat a.toNat b.toNat 0 t.code)
  | .imax c t d a b => mkWord 0x0A c (fRRR d.toNat a.toNat b.toNat 0 t.code)
  | .iabs c t s d a => mkWord 0x0B c (fRRR d.toNat a.toNat 0 0 (s.toNat * 4 + t.code))
  | .ineg c t s d a => mkWord 0x0C c (fRRR d.toNat a.toNat 0 0 (s.toNat * 4 + t.code))
  | .iaddi c t s d a i => mkWord 0x0D c (fRRI d.toNat a.toNat i.toNat (s.toNat * 4 + t.code))
  | .icmp c k t p a b => mkWord 0x0E c (fRRR p.toNat a.toNat b.toNat 0 (k.code * 4 + t.code))
  | .icmpi c k t p a i => mkWord 0x0F c (fRRI p.toNat a.toNat i.toNat (k.code * 4 + t.code))
  | .and c t d a b => mkWord 0x10 c (fRRR d.toNat a.toNat b.toNat 0 t.code)
  | .or c t d a b => mkWord 0x11 c (fRRR d.toNat a.toNat b.toNat 0 t.code)
  | .xor c t d a b => mkWord 0x12 c (fRRR d.toNat a.toNat b.toNat 0 t.code)
  | .not c t d a => mkWord 0x13 c (fRRR d.toNat a.toNat 0 0 t.code)
  | .blut3 c t tt d a b e => mkWord 0x14 c (fRRR d.toNat a.toNat b.toNat e.toNat (tt.toNat * 8 + t.code))
  | .lopi c op t d a i => mkWord 0x15 c (fRRI d.toNat a.toNat i.toNat (op.code * 4 + t.code))
  | .shl c t d a b => mkWord 0x16 c (fRRR d.toNat a.toNat b.toNat 0 t.code)
  | .shr c t d a b => mkWord 0x17 c (fRRR d.toNat a.toNat b.toNat 0 t.code)
  | .sar c t d a b => mkWord 0x18 c (fRRR d.toNat a.toNat b.toNat 0 t.code)
  | .rol c t d a b => mkWord 0x19 c (fRRR d.toNat a.toNat b.toNat 0 t.code)
  | .shi c k t d a i => mkWord 0x1A c (fRRI d.toNat a.toNat i.toNat (k.code * 4 + t.code))
  | .bfx c t d a b => mkWord 0x1B c (fRRR d.toNat a.toNat b.toNat 0 t.code)
  | .bfi c t d a b => mkWord 0x1C c (fRRR d.toNat a.toNat b.toNat 0 t.code)
  | .popc c t d a => mkWord 0x1D c (fRRR d.toNat a.toNat 0 0 t.code)
  | .clz c t d a => mkWord 0x1E c (fRRR d.toNat a.toNat 0 0 t.code)
  | .ctz c t d a => mkWord 0x1F c (fRRR d.toNat a.toNat 0 0 t.code)
  | .brev c t d a => mkWord 0x20 c (fRRR d.toNat a.toNat 0 0 t.code)
  | .permb c d a b e => mkWord 0x21 c (fRRR d.toNat a.toNat b.toNat e.toNat 0)
  | .lea c t sh d a b => mkWord 0x22 c (fRRR d.toNat a.toNat b.toNat 0 (sh.toNat * 4 + t.code))
  | .sel c t d a b p n => mkWord 0x23 c (fRRR d.toNat a.toNat b.toNat p.toNat (n.toNat * 4 + t.code))
  | .plop c tt d a b e => mkWord 0x24 c (fRRR d.toNat a.toNat b.toNat e.toNat (tt.toNat * 8))
  | .mov c t d a => mkWord 0x25 c (fRRR d.toNat a.toNat 0 0 t.code)
  | .movi c f d i => mkWord 0x26 c (fRI32 d.toNat i.toNat f.code)
  | .movxRd c w d a b => mkWord 0x27 c (fRRR d.toNat a.toNat b.toNat 0 (w.toNat * 2))
  | .movxWr c w a b e => mkWord 0x27 c (fRRR 0 a.toNat b.toNat e.toNat (w.toNat * 2 + 1))
  | .srd c w r d => mkWord 0x28 c (fRRI d.toNat 0 r.code w.toNat)
  | .swr c a => mkWord 0x29 c (fRRI 0 a.toNat 0x1B 0)
  | .fadd c t r k d a b => mkWord 0x30 c (fRRR d.toNat a.toNat b.toNat 0 (fFMOD t r.code k 0))
  | .fsub c t r k d a b => mkWord 0x31 c (fRRR d.toNat a.toNat b.toNat 0 (fFMOD t r.code k 0))
  | .fmul c t r k d a b => mkWord 0x32 c (fRRR d.toNat a.toNat b.toNat 0 (fFMOD t r.code k 0))
  | .ffma c t r k d a b e => mkWord 0x33 c (fRRR d.toNat a.toNat b.toNat e.toNat (fFMOD t r.code k 0))
  | .fmin c t k d a b => mkWord 0x34 c (fRRR d.toNat a.toNat b.toNat 0 (fFMOD t 0 k 0))
  | .fmax c t k d a b => mkWord 0x35 c (fRRR d.toNat a.toNat b.toNat 0 (fFMOD t 0 k 0))
  | .fcmp c f t k p a b q => mkWord 0x36 c (fRRR p.toNat a.toNat b.toNat q.toNat (fFMOD t 0 k f.code))
  | .fclass c t k d a => mkWord 0x37 c (fRRR d.toNat a.toNat 0 0 (fFMOD t 0 k 0))
  | .frnd c t r k d a => mkWord 0x38 c (fRRR d.toNat a.toNat 0 0 (fFMOD t r.code k 0))
  | .fscale c t r k d a b => mkWord 0x39 c (fRRR d.toNat a.toNat b.toNat 0 (fFMOD t r.code k 0))
  | .fgetexp c t k d a => mkWord 0x3A c (fRRR d.toNat a.toNat 0 0 (fFMOD t 0 k 0))
  | .fgetman c t k d a => mkWord 0x3B c (fRRR d.toNat a.toNat 0 0 (fFMOD t 0 k 0))
  | .fdot2 c t r k d a b e => mkWord 0x3C c (fRRR d.toNat a.toNat b.toNat e.toNat (fFMOD t r.code k 0))
  | .cvt c dst src r s n d a =>
      mkWord 0x3D c (fRRR d.toNat a.toNat dst.code src.code (n.toNat * 32 + s.toNat * 16 + r.code * 4))
  | .pack c pf r s d a b => mkWord 0x3E c (fRRR d.toNat a.toNat b.toNat 0 (pf.code * 32 + s.toNat * 16 + r.code * 4))
  | .unpack c pf d a => mkWord 0x3F c (fRRR d.toNat a.toNat 0 0 (pf.code * 32))
  | .bra c o h => mkWord 0x40 c (fBR o.toNat h 0 0)
  | .brx c h a => mkWord 0x41 c (fBR 0 h a.toNat 0)
  | .call c o h => mkWord 0x42 c (fBR o.toNat h 0 0)
  | .callx c h a => mkWord 0x43 c (fBR 0 h a.toNat 0)
  | .ret c h => mkWord 0x44 c (fBR 0 h 0 0)
  | .lpad c k => mkWord 0x45 c (fBR 0 false 0 k.toNat)
  | .loop c o a => mkWord 0x46 c (fBR o.toNat false a.toNat 0)
  | .lbrk c h => mkWord 0x47 c (fBR 0 h 0 0)
  | .spawn c o a d => mkWord 0x48 c (fBR o.toNat false a.toNat d.toNat)
  | .exit c => mkWord 0x49 c 0
  | .yield c => mkWord 0x4A c 0
  | .bkpt c n => mkWord 0x4B c n.toNat
  | .trap c n => mkWord 0x4C c n.toNat
  | .rcp c t k d a => mkWord 0x50 c (fRRR d.toNat a.toNat 0 0 (fFMOD t 0 k 0))
  | .rsq c t k d a => mkWord 0x51 c (fRRR d.toNat a.toNat 0 0 (fFMOD t 0 k 0))
  | .sqrt c t k d a => mkWord 0x52 c (fRRR d.toNat a.toNat 0 0 (fFMOD t 0 k 0))
  | .fdiv c t k d a b => mkWord 0x53 c (fRRR d.toNat a.toNat b.toNat 0 (fFMOD t 0 k 0))
  | .ex2 c t k d a => mkWord 0x54 c (fRRR d.toNat a.toNat 0 0 (fFMOD t 0 k 0))
  | .lg2 c t k d a => mkWord 0x55 c (fRRR d.toNat a.toNat 0 0 (fFMOD t 0 k 0))
  | .sinpi c t k d a => mkWord 0x56 c (fRRR d.toNat a.toNat 0 0 (fFMOD t 0 k 0))
  | .cospi c t k d a => mkWord 0x57 c (fRRR d.toNat a.toNat 0 0 (fFMOD t 0 k 0))
  | .tanh c t k d a => mkWord 0x58 c (fRRR d.toNat a.toNat 0 0 (fFMOD t 0 k 0))
  | .rand c u d a b e => mkWord 0x59 c (fRRR d.toNat a.toNat b.toNat e.toNat u.toNat)
  | .lxch c m w g s d a b => mkWord 0x60 c (fXLN d.toNat a.toNat b.toNat s (g.toNat * 8 + w.toNat * 4 + m.code))
  | .vote c op n s d a => mkWord 0x61 c (fXLN d.toNat a.toNat 0 s (n.toNat * 4 + op.code))
  | .matchx c w s d a => mkWord 0x62 c (fXLN d.toNat a.toNat 0 s w.toNat)
  | .xred c op u s d a => mkWord 0x63 c (fXLN d.toNat a.toNat 0 s (u.toNat * 16 + op.code))
  | .xscan c op u x s d a => mkWord 0x64 c (fXLN d.toNat a.toNat 0 s (x.toNat * 32 + u.toNat * 16 + op.code))
  | .lanemap c s a => mkWord 0x65 c (fXLN 0 a.toNat 0 s 0)
  | .lanemapRd c d => mkWord 0x65 c (d.toNat * 2 ^ 37 + 1)
  | .active c d => mkWord 0x66 c (d.toNat * 2 ^ 37)
  | .elect c s p => mkWord 0x67 c (fXLN p.toNat 0 0 s 0)
  | .ld c sz m d => mkWord 0x80 c (fMEM d.toNat m.a.toNat m.space.brec m.off.toNat (m.space.modBase + sz.code))
  | .st c sz m d => mkWord 0x81 c (fMEM d.toNat m.a.toNat m.space.brec m.off.toNat (m.space.modBase + sz.code))
  | .prefL1 c sz r a o => mkWord 0x82 c (fMEM 0 a.toNat r.toNat o.toNat sz.code)
  | .prefL2 c sz r a o => mkWord 0x82 c (fMEM 1 a.toNat r.toNat o.toNat sz.code)
  | .cmaintWb c sz r a o => mkWord 0x83 c (fMEM 0 a.toNat r.toNat o.toNat sz.code)
  | .cmaintWbinv c sz r a o => mkWord 0x83 c (fMEM 1 a.toNat r.toNat o.toNat sz.code)
  | .cmaintWbmem c sz r a o => mkWord 0x83 c (fMEM 2 a.toNat r.toNat o.toNat sz.code)
  | .fence c k sc u => mkWord 0x84 c (fRRR 0 0 0 0 (u.toNat * 32 + sc.code * 4 + k.code))
  | .acqr c u a => mkWord 0x85 c (fRRR 0 a.toNat 0 0 u.toNat)
  | .acpy c sz src x y z =>
      let n := match sz with | .n64 => 1 | .n128 => 2 | _ => 0
      match src with
      | .global r => mkWord 0x86 c (fCPY x.toNat y.toNat r.toNat z.toNat n)
      | .vault => mkWord 0x86 c (fCPY x.toNat y.toNat 0 z.toNat (4 + n))
  | .mcpy c r x y z => mkWord 0x87 c (fCPY x.toNat y.toNat r.toNat z.toNat 0)
  | .tbarInit c p a o d => mkWord 0x88 c (fMEM d.toNat a.toNat 0 o.toNat (p.toNat * 8))
  | .tbarArrive c p a o => mkWord 0x88 c (fMEM 0 a.toNat 0 o.toNat (p.toNat * 8 + 1))
  | .tbarArriveSect c p a o d => mkWord 0x88 c (fMEM d.toNat a.toNat 0 o.toNat (p.toNat * 8 + 2))
  | .tbarSect c p a o d => mkWord 0x88 c (fMEM d.toNat a.toNat 0 o.toNat (p.toNat * 8 + 3))
  | .tbarWait c p a o d => mkWord 0x88 c (fMEM d.toNat a.toNat 0 o.toNat (p.toNat * 8 + 4))
  | .tbarTest c p a o d => mkWord 0x88 c (fMEM d.toNat a.toNat 0 o.toNat (p.toNat * 8 + 5))
  | .atom c k op t sp a d => mkWord 0x89 c (fMEMC d.toNat a.toNat sp.brec (k.code + sp.actlBits + t.code * 128 + op.code))
  | .atomn c k op t sp a d => mkWord 0x8A c (fMEMC d.toNat a.toNat sp.brec (k.code + sp.actlBits + t.code * 128 + op.code))
  | .acas c k t sp a d => mkWord 0x8B c (fMEMC d.toNat a.toNat sp.brec (k.code + sp.actlBits + t.code * 128))
  | .exsum c k sp a d => mkWord 0x8C c (fMEMC d.toNat a.toNat sp.brec (k.code + sp.actlBits))
  | .excvt c k bf clr sp a d => mkWord 0x8D c (fMEMC d.toNat a.toNat sp.brec (k.code + sp.actlBits + clr.toNat * 16 + bf.toNat))
  | .waitc c w u r a d => mkWord 0x8E c (fMEMC d.toNat a.toNat r.toNat (u.toNat * 65536 + 40960 + w.code))
  | .llock c u r a d => mkWord 0x8F c (fMEMC d.toNat a.toNat r.toNat (u.toNat * 65536))
  | .lunlk c u r a d => mkWord 0x90 c (fMEMC d.toNat a.toNat r.toNat (u.toNat * 65536))
  | .ltry c u r a d => mkWord 0x91 c (fMEMC d.toNat a.toNat r.toNat (u.toNat * 65536))
  | .lstat c r a d => mkWord 0x92 c (fMEMC d.toNat a.toNat r.toNat 0)
  | .bar c op u n id d a b =>
      mkWord 0x93 c (fRRR d.toNat a.toNat b.toNat 0 (n.toNat * 256 + u.toNat * 128 + op.code * 16 + id.toNat))
  | .cbar c op u n id d a b =>
      mkWord 0x94 c (fRRR d.toNat a.toNat b.toNat 0 (n.toNat * 256 + u.toNat * 128 + op.code * 16 + id.toNat))
  | .mxm c d a i => mkWord 0xA0 c (fMAT d.toNat a.toNat 0 i.toNat 0)
  | .mxldZero c t k d => mkWord 0xA1 c (fMAT d.toNat 0 0 0 (k.toNat * 8 + t.toNat * 4))
  | .mxldFill c t k d b => mkWord 0xA1 c (fMAT d.toNat 0 b.toNat 0 (k.toNat * 8 + t.toNat * 4 + 1))
  | .mxldRestore c t k d a i => mkWord 0xA1 c (fMAT d.toNat a.toNat 0 i.toNat (k.toNat * 8 + t.toNat * 4 + 2))
  | .mxst c k d a i => mkWord 0xA2 c (fMAT d.toNat a.toNat 0 i.toNat (k.toNat * 8))
  | .mxwait c a => mkWord 0xA3 c (fMAT 0 a.toNat 0 0 0)
  | .mstat c r n d => mkWord 0xA4 c (fMAT d.toNat 0 0 n.toNat r.toNat)
  | .sshape c n a => mkWord 0xA5 c (fMAT 0 a.toNat 0 n.toNat 0)
  | .sshapeRd c n d => mkWord 0xA5 c (fMAT d.toNat 0 0 n.toNat 1)
  | .strmOpen c d a => mkWord 0xA6 c (fMAT d.toNat a.toNat 0 0 0)
  | .strmSub c w d a b => mkWord 0xA6 c (fMAT d.toNat a.toNat b.toNat w.toNat 1)
  | .strmUnsub c a => mkWord 0xA6 c (fMAT 0 a.toNat 0 0 2)
  | .strmClose c a => mkWord 0xA6 c (fMAT 0 a.toNat 0 0 3)
  | .taskpost c d a b i => mkWord 0xA7 c (fMAT d.toNat a.toNat b.toNat i.toNat 0)
  | .taskseq c d b => mkWord 0xA8 c (fMAT d.toNat 0 b.toNat 0 0)
  | .taskseqWait c a b => mkWord 0xA8 c (fMAT 0 a.toNat b.toNat 0 1)
  | .coll c d a i => mkWord 0xA9 c (fMAT d.toNat a.toNat 0 i.toNat 0)
  | .dxsync c d => mkWord 0xAA c (fMAT d.toNat 0 0 0 0)
  | .dxq c n d => mkWord 0xAB c (fMAT d.toNat 0 0 n.toNat 0)
  | .tret c k p => mkWord 0xC0 c (fRRR 0 0 0 0 (p.toNat * 512 + k.toNat))
  | .tretSkip c k p => mkWord 0xC0 c (fRRR 0 0 0 0 (p.toNat * 512 + 256 + k.toNat))
  | .caps c d a i => mkWord 0xC1 c (fRRI d.toNat a.toNat i.toNat 0)
  | .elogSync c => mkWord 0xC2 c 0
  | .elogCnt c d => mkWord 0xC2 c (fRRR d.toNat 0 0 0 1)
  | .elogPut c a b => mkWord 0xC2 c (fRRR 0 a.toNat b.toNat 0 2)
  | .tlbiAll c => mkWord 0xC3 c 0
  | .tlbiVa c a => mkWord 0xC3 c (fRRR 0 a.toNat 0 0 1)
  | .tlbiPart c => mkWord 0xC3 c 2
  | .protld c n d a => mkWord 0xC4 c (fRRR d.toNat a.toNat 0 0 n.toNat)
  | .objdecl c n d a => mkWord 0xC5 c (fRRR d.toNat a.toNat 0 0 n.toNat)
  | .objrel c d a => mkWord 0xC6 c (fRRR d.toNat a.toNat 0 0 0)
  | .div64 c t d a b => mkWord 0xE0 c (fRRR d.toNat a.toNat b.toNat 0 t.code)
  | .rem64 c t d a b => mkWord 0xE1 c (fRRR d.toNat a.toNat b.toNat 0 t.code)
  | .mulh64 c t d a b => mkWord 0xE2 c (fRRR d.toNat a.toNat b.toNat 0 t.code)
  | .crcb c n d a b => mkWord 0xE3 c (fRRR d.toNat a.toNat b.toNat 0 n.toNat)
  | _ => none

end Sys2Proof
end

