-- ==== Sys2Proof/Machine/Operands.lean ====
section
/-!
DEFINITION. Which registers and predicates an instruction names, its control bits, its class and its latency (R78 to R90), and the
values its operands have for a fibre.
-/

namespace Sys2Proof

open Machine (RName)

/-! ### Facts of the instruction word -/

/-- The control bits of a native instruction; none for an event. -/
def Instr.ctl : Instr → Option Ctl
  | .nop c | .iadd c _ _ _ _ _ | .isub c _ _ _ _ _ | .imul c _ _ _ _ _ | .imulh c _ _ _ _ | .imad c _ _ _ _ _ _
  | .imadw c _ _ _ _ _ | .idiv c _ _ _ _ | .irem c _ _ _ _ | .imin c _ _ _ _ | .imax c _ _ _ _ | .iabs c _ _ _ _
  | .ineg c _ _ _ _ | .iaddi c _ _ _ _ _ | .icmp c _ _ _ _ _ | .icmpi c _ _ _ _ _ | .and c _ _ _ _ | .or c _ _ _ _
  | .xor c _ _ _ _ | .not c _ _ _ | .blut3 c _ _ _ _ _ _ | .lopi c _ _ _ _ _ | .shl c _ _ _ _ | .shr c _ _ _ _
  | .sar c _ _ _ _ | .rol c _ _ _ _ | .shi c _ _ _ _ _ | .bfx c _ _ _ _ | .bfi c _ _ _ _ | .popc c _ _ _
  | .clz c _ _ _ | .ctz c _ _ _ | .brev c _ _ _ | .permb c _ _ _ _ | .lea c _ _ _ _ _ | .sel c _ _ _ _ _ _
  | .plop c _ _ _ _ _ | .mov c _ _ _ | .movi c _ _ _ | .movxRd c _ _ _ _ | .movxWr c _ _ _ _ | .srd c _ _ _ | .swr c _
  | .fadd c _ _ _ _ _ _ | .fsub c _ _ _ _ _ _ | .fmul c _ _ _ _ _ _ | .ffma c _ _ _ _ _ _ _ | .fmin c _ _ _ _ _
  | .fmax c _ _ _ _ _ | .fcmp c _ _ _ _ _ _ _ | .fclass c _ _ _ _ | .frnd c _ _ _ _ _ | .fscale c _ _ _ _ _ _
  | .fgetexp c _ _ _ _ | .fgetman c _ _ _ _ | .fdot2 c _ _ _ _ _ _ _ | .cvt c _ _ _ _ _ _ _ | .pack c _ _ _ _ _ _
  | .unpack c _ _ _ | .bra c _ _ | .brx c _ _ | .call c _ _ | .callx c _ _ | .ret c _ | .lpad c _ | .loop c _ _
  | .lbrk c _ | .spawn c _ _ _ | .exit c | .yield c | .bkpt c _ | .trap c _ | .rcp c _ _ _ _ | .rsq c _ _ _ _
  | .sqrt c _ _ _ _ | .fdiv c _ _ _ _ _ | .ex2 c _ _ _ _ | .lg2 c _ _ _ _ | .sinpi c _ _ _ _ | .cospi c _ _ _ _
  | .tanh c _ _ _ _ | .rand c _ _ _ _ _ | .lxch c _ _ _ _ _ _ _ | .vote c _ _ _ _ _ | .matchx c _ _ _ _
  | .xred c _ _ _ _ _ | .xscan c _ _ _ _ _ _ | .lanemap c _ _ | .lanemapRd c _ | .active c _ | .elect c _ _
  | .ld c _ _ _ | .st c _ _ _ | .prefL1 c _ _ _ _ | .prefL2 c _ _ _ _ | .cmaintWb c _ _ _ _ | .cmaintWbinv c _ _ _ _
  | .cmaintWbmem c _ _ _ _ | .fence c _ _ _ | .acqr c _ _ | .acpy c _ _ _ _ _ | .mcpy c _ _ _ _ | .tbarInit c _ _ _ _
  | .tbarArrive c _ _ _ | .tbarArriveSect c _ _ _ _ | .tbarSect c _ _ _ _ | .tbarWait c _ _ _ _ | .tbarTest c _ _ _ _
  | .atom c _ _ _ _ _ _ | .atomn c _ _ _ _ _ _ | .acas c _ _ _ _ _ | .exsum c _ _ _ _ | .excvt c _ _ _ _ _ _
  | .waitc c _ _ _ _ _ | .llock c _ _ _ _ | .lunlk c _ _ _ _ | .ltry c _ _ _ _ | .lstat c _ _ _ | .bar c _ _ _ _ _ _ _
  | .cbar c _ _ _ _ _ _ _ | .mxm c _ _ _ | .mxldZero c _ _ _ | .mxldFill c _ _ _ _ | .mxldRestore c _ _ _ _ _
  | .mxst c _ _ _ _ | .mxwait c _ | .mstat c _ _ _ | .sshape c _ _ | .sshapeRd c _ _ | .strmOpen c _ _ | .strmSub c _ _ _ _
  | .strmUnsub c _ | .strmClose c _ | .taskpost c _ _ _ _ | .taskseq c _ _ | .taskseqWait c _ _ | .coll c _ _ _ | .dxsync c _
  | .dxq c _ _ | .tret c _ _ | .tretSkip c _ _ | .caps c _ _ _ | .elogSync c | .elogCnt c _ | .elogPut c _ _ | .tlbiAll c
  | .tlbiVa c _ | .tlbiPart c | .protld c _ _ _ | .objdecl c _ _ _ | .objrel c _ _ | .div64 c _ _ _ _ | .rem64 c _ _ _ _
  | .mulh64 c _ _ _ _ | .crcb c _ _ _ _ => some c
  | _ => none

/-- The class of R82; none for a control instruction, which may stand in a clause of any class, and for an event. -/
def Instr.cls : Instr → Option Class
  | .nop _ | .iadd .. | .isub .. | .imul .. | .imulh .. | .imad .. | .imadw .. | .idiv .. | .irem .. | .imin .. | .imax ..
  | .iabs .. | .ineg .. | .iaddi .. | .icmp .. | .icmpi .. | .and .. | .or .. | .xor .. | .not .. | .blut3 .. | .lopi ..
  | .shl .. | .shr .. | .sar .. | .rol .. | .shi .. | .bfx .. | .bfi .. | .popc .. | .clz .. | .ctz .. | .brev .. | .permb ..
  | .lea .. | .sel .. | .plop .. | .mov .. | .movi .. | .movxRd .. | .movxWr .. | .srd .. | .swr .. | .fadd .. | .fsub ..
  | .fmul .. | .ffma .. | .fmin .. | .fmax .. | .fcmp .. | .fclass .. | .frnd .. | .fscale .. | .fgetexp .. | .fgetman ..
  | .fdot2 .. | .cvt .. | .pack .. | .unpack .. | .div64 .. | .rem64 .. | .mulh64 .. | .crcb .. => some .gen
  | .rcp .. | .rsq .. | .sqrt .. | .fdiv .. | .ex2 .. | .lg2 .. | .sinpi .. | .cospi .. | .tanh .. | .rand .. => some .sfu
  | .lxch .. | .vote .. | .matchx .. | .xred .. | .xscan .. | .lanemap .. | .lanemapRd .. | .active .. | .elect .. => some .xln
  | .ld .. | .st .. | .prefL1 .. | .prefL2 .. | .cmaintWb .. | .cmaintWbinv .. | .cmaintWbmem .. | .fence .. | .acqr .. | .acpy ..
  | .mcpy .. | .tbarInit .. | .tbarArrive .. | .tbarArriveSect .. | .tbarSect .. | .tbarWait .. | .tbarTest .. | .atom .. | .atomn ..
  | .acas .. | .exsum .. | .excvt .. | .waitc .. | .llock .. | .lunlk .. | .ltry .. | .lstat .. | .bar .. | .cbar .. => some .mem
  | .mxm .. | .mxldZero .. | .mxldFill .. | .mxldRestore .. | .mxst .. | .mxwait .. | .mstat .. | .sshape .. | .sshapeRd ..
  | .strmOpen .. | .strmSub .. | .strmUnsub .. | .strmClose .. | .taskpost .. | .taskseq .. | .taskseqWait .. | .coll .. | .dxsync ..
  | .dxq .. => some .mat
  | .tret .. | .tretSkip .. | .caps .. | .elogSync .. | .elogCnt .. | .elogPut .. | .tlbiAll .. | .tlbiVa .. | .tlbiPart ..
  | .protld .. | .objdecl .. | .objrel .. => some .sys
  | _ => none

/-- The CLASS code of R74. -/
def Class.code : Class → Nat
  | .gen => 0 | .mem => 1 | .xln => 2 | .sfu => 3 | .mat => 4 | .sys => 5

/-- TLBI and PROTLD are privileged (R82). -/
def Instr.privileged : Instr → Bool
  | .tlbiAll _ | .tlbiVa _ _ | .tlbiPart _ | .protld _ _ _ _ => true
  | _ => false

/-- The trap-emulated opcodes 0xE0 to 0xE3 (R83). -/
def Instr.emulated : Instr → Bool
  | .div64 .. | .rem64 .. | .mulh64 .. | .crcb .. => true
  | _ => false

/-- The fixed latency of R84; 0 for a result of variable latency or none. -/
def Instr.latency : Instr → Nat
  | .iadd .. | .isub .. | .imin .. | .imax .. | .iabs .. | .ineg .. | .iaddi .. | .icmp .. | .icmpi .. | .and .. | .or .. | .xor ..
  | .not .. | .blut3 .. | .lopi .. | .shl .. | .shr .. | .sar .. | .rol .. | .shi .. | .bfx .. | .bfi .. | .popc .. | .clz .. | .ctz ..
  | .brev .. | .permb .. | .lea .. | .sel .. | .plop .. | .mov .. | .movi .. => 4
  | .imul .. | .imulh .. | .imad .. | .imadw .. | .movxRd .. | .movxWr .. | .fdot2 .. => 6
  | .idiv .. | .irem .. => 24
  | .srd .. | .caps .. => 8
  | .fadd .. | .fsub .. | .fmul .. | .ffma .. | .fmin .. | .fmax .. | .fcmp .. | .fclass .. | .frnd .. | .fscale .. | .fgetexp ..
  | .fgetman .. | .cvt .. | .pack .. | .unpack .. => 5
  | .rcp .. | .rsq .. | .sqrt .. | .fdiv .. | .ex2 .. | .lg2 .. | .sinpi .. | .cospi .. | .tanh .. => 18
  | .rand .. => 10
  | _ => 0

/-- n registers from r. -/
def regs (r : Reg) (n : Nat) : List RName := (List.range n).map (fun i => RName.v (r + BitVec.ofNat 8 i))

/-- One register. -/
def rg (r : Reg) : List RName := [.v r]

/-- A register or, when wide, the pair named by it (R81). -/
def rgW (r : Reg) (wide : Bool) : List RName := if wide then regs r 2 else rg r

/-- A predicate operand; P7 is no state (R78). -/
def pg (p : Pred) : List RName := if p = 7#3 then [] else [.p p]

/-- The address register of a memory operand: a pair when GLOBAL through record 0 (R184, R270). -/
def addrRegs (sp : Space) (a : Reg) : List RName :=
  match sp with
  | .global b => rgW a (decide (b = 0#12))
  | _ => rg a

/-- Registers that hold an access of this size (R186). -/
def Size.regs : Size → Nat
  | .n8 | .n16 | .n32 => 1
  | .n64 => 2
  | .n128 => 4

/-- The bytes of an access (R183). -/
def Size.bytes : Size → Nat
  | .n8 => 1 | .n16 => 2 | .n32 => 4 | .n64 => 8 | .n128 => 16

/-- The mask register of a cross-lane instruction (R158). -/
def MSrc.regs : MSrc → List RName
  | .reg m => rg m
  | _ => []

/-- The registers and predicates an instruction reads as operands, its own predicate apart (R81, R85). -/
def Instr.reads : Instr → List RName
  | .iadd _ t _ _ a b | .isub _ t _ _ a b | .imul _ t _ _ a b | .imin _ t _ a b | .imax _ t _ a b | .and _ t _ a b | .or _ t _ a b
  | .xor _ t _ a b | .icmp _ _ t _ a b => rgW a t.is64 ++ rgW b t.is64
  | .imulh _ _ _ a b | .idiv _ _ _ a b | .irem _ _ _ a b | .bfx _ _ _ a b => rg a ++ rg b
  | .bfi _ _ d a b => rg a ++ rg b ++ rg d
  | .imad _ _ _ _ a b e => rg a ++ rg b ++ rg e
  | .imadw _ _ _ a b e => rg a ++ rg b ++ regs e 2
  | .iabs _ t _ _ a | .ineg _ t _ _ a | .iaddi _ t _ _ a _ | .icmpi _ _ t _ a _ | .not _ t _ a | .lopi _ _ t _ a _ | .shi _ _ t _ a _
  | .popc _ t _ a | .clz _ t _ a | .ctz _ t _ a | .brev _ t _ a | .mov _ t _ a => rgW a t.is64
  | .blut3 _ t _ _ a b e => rgW a t.is64 ++ rgW b t.is64 ++ rgW e t.is64
  | .shl _ t _ a b | .shr _ t _ a b | .sar _ t _ a b | .rol _ t _ a b | .lea _ t _ _ a b => rgW a t.is64 ++ rg b
  | .permb _ _ a b e => rg a ++ rg b ++ rg e
  | .sel _ t _ a b p _ => rgW a t.is64 ++ rgW b t.is64 ++ pg p
  | .plop _ _ _ a b e => pg a ++ pg b ++ pg e
  | .movxRd _ _ _ a _ => rg a
  | .movxWr _ w a _ e => rg a ++ rgW e w
  | .srd _ _ r _ => if r = .pw then (List.range 7).map (fun i => RName.p (BitVec.ofNat 3 i)) else []
  | .swr _ a => rg a
  | .fadd _ _ _ _ _ a b | .fsub _ _ _ _ _ a b | .fmul _ _ _ _ _ a b | .fmin _ _ _ _ a b | .fmax _ _ _ _ a b | .fcmp _ _ _ _ _ a b _
  | .fscale _ _ _ _ _ a b | .fdiv _ _ _ _ a b => rg a ++ rg b
  | .ffma _ _ _ _ _ a b e | .fdot2 _ _ _ _ _ a b e => rg a ++ rg b ++ rg e
  | .fclass _ _ _ _ a | .frnd _ _ _ _ _ a | .fgetexp _ _ _ _ a | .fgetman _ _ _ _ a | .unpack _ _ _ a | .rcp _ _ _ _ a | .rsq _ _ _ _ a
  | .sqrt _ _ _ _ a | .ex2 _ _ _ _ a | .lg2 _ _ _ _ a | .sinpi _ _ _ _ a | .cospi _ _ _ _ a | .tanh _ _ _ _ a => rg a
  | .cvt _ _ src _ _ _ _ a => rgW a (src.width == 64)
  | .pack _ pf _ _ _ a b => regs a (pf.elems / 2) ++ regs b (pf.elems / 2)
  | .brx _ _ a | .callx _ _ a | .loop _ _ a | .spawn _ _ a _ => rg a
  | .rand _ _ _ a b e => rg a ++ rg b ++ rg e
  | .lxch _ _ w _ ms _ a b => rgW a w ++ rg b ++ ms.regs
  | .vote _ _ _ ms _ a => pg a ++ ms.regs
  | .matchx _ w ms _ a => rgW a w ++ ms.regs
  | .xred _ _ _ ms _ a | .xscan _ _ _ _ ms _ a => rg a ++ ms.regs
  | .lanemap _ ms a => rg a ++ ms.regs
  | .elect _ ms _ => ms.regs
  | .ld _ _ m _ => addrRegs m.space m.a
  | .st _ sz m d => addrRegs m.space m.a ++ regs d sz.regs
  | .prefL1 _ _ b a _ | .prefL2 _ _ b a _ | .cmaintWb _ _ b a _ | .cmaintWbinv _ _ b a _ | .cmaintWbmem _ _ b a _ => addrRegs (.global b) a
  | .acqr _ _ a => rg a
  | .acpy _ _ src x y z =>
      rg x ++ (match src with | .global b => rgW y (decide (b = 0#12)) | .vault => rg y) ++ rg z
  | .mcpy _ _ x y z => rg x ++ rg y ++ regs z 2
  | .tbarInit _ _ a _ d | .tbarArriveSect _ _ a _ d | .tbarSect _ _ a _ d | .tbarWait _ _ a _ d => rg a ++ rg d
  | .tbarArrive _ _ a _ | .tbarTest _ _ a _ _ => rg a
  | .atom _ _ _ t sp a d | .atomn _ _ _ t sp a d => addrRegs sp a ++ rgW d t.is64
  | .acas _ _ t sp a d => addrRegs sp a ++ regs d (if t.is64 then 4 else 2)
  | .exsum _ _ sp a d => addrRegs sp a ++ rg d
  | .excvt _ _ _ _ sp a _ => addrRegs sp a
  | .waitc _ _ _ b a d => addrRegs (.global b) a ++ regs d 2
  | .llock _ _ b a d => addrRegs (.global b) a ++ rg d
  | .lunlk _ _ b a _ | .ltry _ _ b a _ | .lstat _ b a _ => addrRegs (.global b) a
  | .bar _ op _ cnt _ _ a b | .cbar _ op _ cnt _ _ a b => (if op = .sync then [] else rg a) ++ (if cnt then rg b else [])
  | .mxm _ _ a _ | .mxst _ _ _ a _ | .mxldRestore _ _ _ _ a _ | .strmOpen _ _ a | .strmUnsub _ a | .strmClose _ a | .coll _ _ a _ => rg a
  | .mxldFill _ _ _ _ b => rg b
  | .mxwait _ a | .sshape _ _ a | .tlbiVa _ a => regs a 2
  | .strmSub _ _ _ a b | .taskpost _ _ a b _ => rg a ++ rg b
  | .taskseq _ _ b => rg b
  | .taskseqWait _ a b => regs a 2 ++ rg b
  | .caps _ _ a _ => rg a
  | .elogPut _ a b => rg a ++ rg b
  | .protld _ _ _ a => regs a 2
  | .objdecl _ _ _ a | .objrel _ _ a => rg a
  | .div64 _ _ _ a b | .rem64 _ _ _ a b | .mulh64 _ _ _ a b => regs a 2 ++ regs b 2
  | .crcb _ _ _ a b => rg a ++ rg b
  | _ => []

/-- The registers and predicates an instruction writes as results. -/
def Instr.writes : Instr → List RName
  | .iadd _ t _ d _ _ | .isub _ t _ d _ _ | .imul _ t _ d _ _ | .imin _ t d _ _ | .imax _ t d _ _ | .iabs _ t _ d _ | .ineg _ t _ d _
  | .iaddi _ t _ d _ _ | .and _ t d _ _ | .or _ t d _ _ | .xor _ t d _ _ | .not _ t d _ | .blut3 _ t _ d _ _ _ | .lopi _ _ t d _ _
  | .shl _ t d _ _ | .shr _ t d _ _ | .sar _ t d _ _ | .rol _ t d _ _ | .shi _ _ t d _ _ | .brev _ t d _ | .lea _ t _ d _ _
  | .sel _ t d _ _ _ _ | .mov _ t d _ => rgW d t.is64
  | .imulh _ _ d _ _ | .imad _ _ _ d _ _ _ | .idiv _ _ d _ _ | .irem _ _ d _ _ | .bfx _ _ d _ _ | .bfi _ _ d _ _ | .popc _ _ d _
  | .clz _ _ d _ | .ctz _ _ d _ | .permb _ d _ _ _ => rg d
  | .imadw _ _ d _ _ _ => regs d 2
  | .icmp _ _ _ p _ _ | .icmpi _ _ _ p _ _ | .plop _ _ p _ _ _ => pg p
  | .movi _ f d _ => rgW d (f != .w32)
  | .movxRd _ w d _ _ => rgW d w
  | .srd _ w _ d => rgW d w
  | .swr .. => (List.range 7).map (fun i => RName.p (BitVec.ofNat 3 i))
  | .fadd _ _ _ _ d _ _ | .fsub _ _ _ _ d _ _ | .fmul _ _ _ _ d _ _ | .ffma _ _ _ _ d _ _ _ | .fmin _ _ _ d _ _ | .fmax _ _ _ d _ _
  | .fclass _ _ _ d _ | .frnd _ _ _ _ d _ | .fscale _ _ _ _ d _ _ | .fgetexp _ _ _ d _ | .fgetman _ _ _ d _ | .fdot2 _ _ _ _ d _ _ _
  | .rcp _ _ _ d _ | .rsq _ _ _ d _ | .sqrt _ _ _ d _ | .fdiv _ _ _ d _ _ | .ex2 _ _ _ d _ | .lg2 _ _ _ d _ | .sinpi _ _ _ d _
  | .cospi _ _ _ d _ | .tanh _ _ _ d _ | .rand _ _ d _ _ _ | .pack _ _ _ _ d _ _ => rg d
  | .fcmp _ _ t _ p _ _ q => pg p ++ (if t = .f32 then [] else pg q)
  | .cvt _ dst _ _ _ _ d _ => rgW d (dst.width == 64)
  | .unpack _ pf d _ => regs d pf.elems
  | .spawn _ _ _ d => rg d
  | .lxch _ _ w _ _ d _ _ => rgW d w
  | .vote _ op _ _ d _ => if op = .ballot then rg d else pg (d.setWidth 3)
  | .matchx _ _ _ d _ | .xred _ _ _ _ d _ | .xscan _ _ _ _ _ d _ | .lanemapRd _ d | .active _ d => rg d
  | .elect _ _ p => pg p
  | .ld _ sz _ d => regs d sz.regs
  | .tbarTest _ _ _ _ d => rg d
  | .atom _ _ _ t _ _ d | .acas _ _ t _ _ d => rgW d t.is64
  | .excvt _ _ _ _ _ _ d => rg d
  | .waitc _ _ _ _ _ d | .llock _ _ _ _ d | .lunlk _ _ _ _ d | .ltry _ _ _ _ d => regs d 2
  | .lstat _ _ _ d => rg d
  | .bar _ op _ _ _ d _ _ | .cbar _ op _ _ _ d _ _ => if op = .sync then [] else rg d
  | .mxm _ d _ _ | .mxldZero _ _ _ d | .mxldFill _ _ _ d _ | .mxldRestore _ _ _ d _ _ | .mxst _ _ d _ _ => regs d 2
  | .mstat _ _ _ d | .strmOpen _ d _ | .strmSub _ _ d _ _ | .coll _ d _ _ | .dxq _ _ d => rg d
  | .sshapeRd _ _ d | .taskseq _ d _ | .dxsync _ d => regs d 2
  | .taskpost _ d _ _ _ => regs d 4
  | .caps _ d _ _ | .elogCnt _ d | .objrel _ d _ => rg d
  | .protld _ _ d _ | .objdecl _ _ d _ => regs d 2
  | .div64 _ _ d _ _ | .rem64 _ _ d _ _ | .mulh64 _ _ d _ _ => regs d 2
  | .crcb _ _ d _ _ => rg d
  | _ => []

end Sys2Proof

namespace Sys2Proof.Machine

/-! ### The registers of a fibre -/

/-- A register as it stands. -/
def Fibre.reg (f : Fibre) (r : Reg) : Word := f.regs.getD r.toNat 0

/-- A predicate as it stands; P7 reads 1 (R78). -/
def Fibre.pred (f : Fibre) (p : Pred) : Bool := p == 7#3 || f.pw.getLsbD p.toNat

/-- The value of a name as it stands. -/
def Fibre.cur (f : Fibre) : RName → Word
  | .v r => f.reg r
  | .p p => if f.pred p then 1 else 0

/-- The value a name held when the clause began (R90). -/
def Fibre.atStart (f : Fibre) : RName → Word
  | .v r => f.regs0.getD r.toNat 0
  | .p p => if p == 7#3 || f.pw0.getLsbD p.toNat then 1 else 0

/-- The write is unfinished for a read at the position (R85). -/
def WEntry.unfinished (e : WEntry) (pos : Nat) : Bool := decide (pos - e.pos < e.lat)

/-- The latest write of the name in the running clause. -/
def Fibre.lastWrite (f : Fibre) (x : RName) : Option WEntry := f.wlog.find? (fun e => decide (e.name = x))

/-- The read of the name at the position is undersized (R85). -/
def Fibre.undersized (f : Fibre) (pos : Nat) (x : RName) : Bool :=
  match f.lastWrite x with
  | some e => e.unfinished pos
  | none => false

/-- The value that a read of the name at the position returns (R90). -/
def Fibre.view (f : Fibre) (pos : Nat) (x : RName) : Word :=
  if f.undersized pos x then
    match f.wlog.find? (fun e => decide (e.name = x) && decide (e.lat ≠ 0) && !e.unfinished pos) with
    | some e => e.val
    | none => f.atStart x
  else f.cur x

/-- A register operand. -/
def Fibre.get (f : Fibre) (pos : Nat) (r : Reg) : Word := f.view pos (.v r)

/-- A predicate operand (R79). -/
def Fibre.getP (f : Fibre) (pos : Nat) (p : Pred) : Bool := p == 7#3 || f.view pos (.p p) != 0

/-- A 64-bit operand (R2). -/
def Fibre.get64 (f : Fibre) (pos : Nat) (r : Reg) : DWord := dwordOf (f.get pos r) (f.get pos (r + 1))

/-- An integer operand of a type, as its 64 bits: a register zero-extended, or a pair. -/
def Fibre.getW (f : Fibre) (pos : Nat) (r : Reg) (wide : Bool) : DWord :=
  if wide then f.get64 pos r else (f.get pos r).setWidth 64

/-- Set a name to a value. A name outside the window changes nothing, and P7 is not written (R78). -/
def Fibre.put (f : Fibre) (x : RName) (v : Word) : Fibre :=
  match x with
  | .v r => { f with regs := f.regs.set r.toNat v }
  | .p p =>
    if p = 7#3 then f
    else { f with pw := if v != 0 then f.pw ||| ((1 : BitVec 7) <<< p.toNat) else f.pw &&& ~~~((1 : BitVec 7) <<< p.toNat) }

/-- A result of fixed latency: it is written in issue order, and an earlier write in flight is discarded (R85, R90). -/
def Fibre.write (f : Fibre) (pos lat : Nat) (w : RName × Word) : Fibre :=
  let g := f.put w.1 w.2
  { g with wlog := ⟨w.1, pos, lat, w.2⟩ :: f.wlog, pend := f.pend.filter (fun e => decide (e.1 ≠ w.1)) }

/-- Several results of one instruction. -/
def Fibre.writeAll (f : Fibre) (pos lat : Nat) (ws : List (RName × Word)) : Fibre := ws.foldl (fun g w => g.write pos lat w) f

/-- Announce results of variable latency: each name awaits the operation, and those it awaited before, and is uncovered by the counter (R88, R90). -/
def Fibre.announce (f : Fibre) (pos op sb : Nat) (xs : List RName) : Fibre :=
  xs.foldl (fun g x => { g with
    wlog := ⟨x, pos, 0, 0⟩ :: g.wlog,
    pend := (x, op) :: g.pend,
    uncov := (x, sb) :: g.uncov }) f

/-- A name no longer awaits an operation, nor any issued before it; the list has the latest first. -/
def arrive (x : RName) (op : Nat) : List (RName × Nat) → List (RName × Nat)
  | [] => []
  | e :: es => if e = (x, op) then es.filter (fun d => decide (d.1 ≠ x)) else e :: arrive x op es

/-- The writes of a completed operation: those names that still await it, earlier operations on them being discarded (R90). -/
def Fibre.land (f : Fibre) (op : Nat) (ws : List (RName × Word)) : Fibre :=
  ws.foldl (fun g w =>
    if g.pend.any (fun e => decide (e.1 = w.1) && decide (e.2 = op)) then
      { g.put w.1 w.2 with pend := arrive w.1 op g.pend }
    else g) f

/-- A register name lies outside the window (R81). -/
def RName.outside (win : Nat) : RName → Bool
  | .v r => decide (win ≤ r.toNat)
  | .p _ => false

/-- The 64-bit result of a wide operation, as writes of the pair (R2). -/
def wr64 (d : Reg) (x : DWord) : List (RName × Word) := [(.v d, x.lo), (.v (d + 1), x.hi)]

/-- A result of a type: one register or a pair. -/
def wrW (d : Reg) (wide : Bool) (x : DWord) : List (RName × Word) := if wide then wr64 d x else [(.v d, x.lo)]

end Sys2Proof.Machine
end

