-- ==== Sys2Proof/Machine/Home.lean ====
section
/-!
DEFINITION. What happens at the home of a line: writes take their place, monitors are judged, waiting fibres are released; and the L1
of a core above it.
-/

namespace Sys2Proof.Machine

/-! ### Releasing a waiting fibre (R100, R198) -/

/-- Two paths stand at the same place (R100). -/
def Path.sameSpot (p q : Path) : Bool := decide (p.pc = q.pc) && decide (p.idx = q.idx) && decide (p.depth = q.depth)

/-- The path at an index becomes ready. It merges with a ready path at the same place that is not in a running bundle (R100). -/
def Group.readyPath (g : Group) (i : Nat) : Group :=
  match g.paths[i]? with
  | none => g
  | some p =>
    let q := { p with kind := .ready }
    let mate := (List.range g.paths.length).find? (fun j =>
      decide (j ≠ i) && !(decide (j = 0) && decide (g.bundle ≠ 0)) &&
      (match g.paths[j]? with | some r => decide (r.kind = .ready) && r.sameSpot q | none => false))
    match mate with
    | none => { g with paths := g.paths.set i q }
    | some j =>
      let r := (g.paths[j]?).getD q
      let both := { q with lanes := q.lanes ||| r.lanes }
      if j < i then { g with paths := (g.paths.set j both).eraseIdx i } else { g with paths := (g.paths.set i both).eraseIdx j }

/-- No fibre of the lanes waits. -/
def Group.noneWait (g : Group) (ls : Lanes) : Bool := (lanesOf ls).all (fun l => decide (((g.fibres[l]?).bind (·.wait)) = none))

/-- The first waiting path of the group whose last fibre has been released. -/
def Group.released (g : Group) : Option Nat :=
  (List.range g.paths.length).find? (fun i => match g.paths[i]? with | some p => decide (p.kind = .waiting) && g.noneWait p.lanes | none => false)

/-- Make ready each waiting path of the group whose last fibre has been released, by fuel (R198). -/
def Group.settleGo (now : Nat) : Nat → Group → Group
  | 0, g => g
  | n + 1, g =>
    match g.released with
    | none => g
    | some i => Group.settleGo now n (if i = 0 then { g.readyPath i with readyAt := now } else g.readyPath i)

/-- Make ready each waiting path of the group whose last fibre has been released (R198). -/
def Group.settleWaits (g : Group) (now : Nat) : Group := Group.settleGo now g.paths.length g

/-- An operation hands results to a lane and counts it off. -/
def State.opLane (s : State) (op lane : Nat) (ws : List (RName × Word)) : State :=
  { s with ops := fmod s.ops op (fun o => { o with left := o.left.filter (fun l => decide (l ≠ lane)),
                                                   writes := o.writes ++ ws.map (fun w => (lane, w.1, w.2)) }) }

/-- Release a waiting fibre with its results: it finishes the instruction (R330), and its path becomes ready with its last fibre; a team
that is out may come back (R367). -/
def State.release (s : State) (t g l op : Nat) (ws : List (RName × Word)) : State :=
  (((s.opLane op l ws).modFibre t g l (fun f => { f with wait := none, waited := 0, lclk := f.lclk + 1 })).modGroup t g (fun x => x.settleWaits (s.coreNow t))).modTeam t (fun x => { x with freed := true })

/-! ### Acquires (R266) -/

/-- What a write performs at a home as one event: some runs of bytes of one line, each with its address (R262, R263). -/
abbrev HomeEvent := List (Nat × List Byte)

/-- The writes that a core's line owes its home: all its dirty bytes at once (R263); of a UO page, those of each aligned 16 bytes apart (R262, R263). -/
def owed (x : L1Line) : List HomeEvent :=
  let ws : HomeEvent := x.dirtyBytes.map (fun b => (b.1, [b.2]))
  (if x.uo then (List.range 8).map (fun i => ws.filter (fun w => decide (w.1 % 128 / 16 = i))) else [ws]).filter (fun e => !e.isEmpty)

/-- An acquire at TEAM scope or wider by an agent of a core: the epoch advances; on its wrap, and for UO lines when `uo`, lines are
written back and invalidated. The writes owed are given back. -/
def State.acquireGo (s : State) (k : Nat) (uo : Bool) : State × List HomeEvent :=
  let c := s.core k
  let drop (x : L1Line) : Bool := x.obj.isNone && ((uo && x.uo) || (!x.uo && decide (c.ecur = 4095#12)))
  (s.setCore k { c with ecur := c.ecur + 1, l1 := c.l1.filter (fun x => !drop x) }, (c.l1.filter drop).flatMap owed)

/-! ### Monitors (R287, R288) -/

/-- The condition of a WAITC (R286). -/
def condHolds (k : WCond) (w c : Word) : Bool :=
  match k with
  | .eq => w == c | .ne => w != c
  | .lt => w.slt c | .le => w.sle c | .gt => c.slt w | .ge => c.sle w
  | .ltu => w.ult c | .leu => w.ule c | .gtu => c.ult w | .geu => c.ule w

/-- The overflow bucket of a line (R288). -/
def monBucket (pa : Nat) : Nat := (pa / 128 % 64) ^^^ (pa / 8192 % 64)

/-- The word a monitor watches. -/
def State.word (s : State) (pa : Nat) : Word := BitVec.ofNat 32 (memNat s.mem pa 4)

/-- A core's own untracked copy of a line goes before a read of the line at its home, so that no later read of the core finds older bytes (R251, R271);
a pinned copy is the line's only one and stays. The writes owed are given back. -/
def State.forsake (s : State) (k l : Nat) : State × List HomeEvent :=
  match (s.core k).line l with
  | some x => if x.obj.isSome || (s.core k).pins.contains l then (s, []) else (s.modCore k (fun c => c.dropLine l), owed x)
  | none => (s, [])

/-- Release one lane that waits on a monitored word whose condition holds (R287). -/
def State.judgeLane (m : Monitor) (w : Word) (a : State × List HomeEvent) (l : Nat) : State × List HomeEvent :=
  match (a.1.fibre m.team m.grp l).wait with
  | some (.monitor pa k c _ uo d op) =>
    if pa = m.pa && condHolds k w c then
      let s1 := a.1.release m.team m.grp l op [(.v d, 0), (.v (d + 1), w)]
      match s1.team m.team with
      | some t =>
        let q := s1.acquireGo t.key uo
        let r := q.1.forsake t.key (pa / 128)
        (r.1, a.2 ++ q.2 ++ r.2)
      | none => (s1, a.2)
    else a
  | _ => a

/-- Some lane of a group waits on the monitored word. -/
def State.monWatched (s : State) (m : Monitor) : Bool :=
  (List.range 32).any (fun l => match (s.fibre m.team m.grp l).wait with | some (.monitor pa ..) => decide (pa = m.pa) | _ => false)

/-- Release the lanes of a group's monitor on a word whose condition holds, and drop the monitor when no lane is left (R287). -/
def State.judgeMon (s : State) (sk : Nat) (m : Monitor) : State × List HomeEvent :=
  let r := (List.range 32).foldl (State.judgeLane m (s.word m.pa)) (s, [])
  if r.1.monWatched m then r
  else (r.1.modSlice sk (fun x => { x with mons := x.mons.filter (fun n => decide (n.team ≠ m.team ∨ n.grp ≠ m.grp ∨ n.pa ≠ m.pa)) }), r.2)

/-- Judge one more monitor of a line. -/
def State.judgeNext (sk : Nat) (a : State × List HomeEvent) (m : Monitor) : State × List HomeEvent :=
  let q := a.1.judgeMon sk m
  (q.1, a.2 ++ q.2)

/-- A write performed at the home of an address: table monitors of the line are judged, and every monitor of the line's bucket is
woken (R287). -/
def State.judge (s : State) (pa : Nat) : State × List HomeEvent :=
  let sk := homeKey pa
  if (s.slice sk).mons.isEmpty then (s, [])
  else
    let s1 := s.modSlice sk (fun x => { x with mons := x.mons.map (fun m =>
      if !m.table && decide (m.bucket = monBucket pa) then { m with woken := true } else m) })
    ((s1.slice sk).mons.filter (fun m => m.table && decide (m.pa / 128 = pa / 128))).foldl (State.judgeNext sk) (s1, [])

/-- The bytes of an event stand in memory. -/
def memEvent (m : Memory) (e : HomeEvent) : Memory := e.foldl (fun m w => memWriteN m w.1 w.2) m

/-! ### The host's copies (R326) -/

/-- The host holds the line, and a device access of the kind must wait for its answer: any access to a line held exclusive, a write to
a line held shared. -/
def State.hostHolds (s : State) (line : Nat) (write : Bool) : Bool :=
  (s.slice (homeKey (128 * line))).hostdir.any (fun e => decide (e.1 = line) && (e.2 || write))

/-- A device access to a line waits for the host: for its copy, or for an answer that is on its way. -/
def State.hostBars (s : State) (line : Nat) (write : Bool) : Bool := s.hostHolds line write || s.snoops.contains line

/-- Ask the host for a line (BISnpInv). -/
def State.snoop (s : State) (line : Nat) : State := if s.snoops.contains line then s else { s with snoops := s.snoops ++ [line] }

/-- A write reaches the home of an untracked line that the host holds: its copy is asked for, and the bytes are kept for the data that it may send. The bytes
stand in memory from now on, and over the host's own when they come; what other agents could read of the line waits meanwhile (R326; log 49). -/
def State.hostOut (s : State) (w : HomeEvent) : State :=
  match w with
  | [] => s
  | (pa, _) :: _ =>
    let l := pa / 128
    if s.hostHolds l true && (s.objAny l).isNone then
      let a := s.snoop l
      { a with snooped := a.snooped ++ w.map (fun r => (l, r)) }
    else s

/-- Perform writes at their homes, in order, with what they release, each judged as it stands whole (R262, R287); fuel bounds the chain of releases. -/
def State.homeGo : Nat → List HomeEvent → State → State
  | 0, ws, s => { s with mem := ws.foldl memEvent s.mem }
  | n + 1, ws, s =>
    match ws with
    | [] => s
    | w :: rest =>
      let q := State.judge { s.hostOut w with mem := memEvent s.mem w } (w.headD (0, [])).1
      State.homeGo n (q.2 ++ rest) q.1

/-- Perform several writes at their homes, in order. -/
def State.homeWrites (s : State) (ws : List HomeEvent) : State := ws.foldl (fun (a : State) w => State.homeGo 4096 [w] a) s

/-- Bytes at ascending addresses as runs, none of which leaves its aligned n bytes. -/
def runsIn (n : Nat) : List (Nat × Byte) → List (Nat × List Byte)
  | [] => []
  | (a, b) :: rest =>
    match runsIn n rest with
    | (c, cs) :: more => if c = a + 1 && decide (c / n = a / n) then (a, b :: cs) :: more else (a, [b]) :: (c, cs) :: more
    | [] => [(a, [b])]

/-- The bytes of a run, each with its address. -/
def bytesAt (a : Nat) (bs : List Byte) : List (Nat × Byte) := (List.range bs.length).map (fun i => (a + i, bs.getD i 0))

/-- Perform a write at its home; each line of a longer run has a home of its own. -/
def State.homeWrite (s : State) (pa : Nat) (bs : List Byte) : State :=
  if bs.isEmpty then s
  else if pa % 128 + bs.length ≤ 128 then s.homeWrites [[(pa, bs)]]
  else s.homeWrites ((runsIn 128 (bytesAt pa bs)).map (fun r => [r]))

/-- An acquire at TEAM scope or wider by an agent of a core (R266). -/
def State.acquire (s : State) (k : Nat) (uo : Bool) : State :=
  let q := s.acquireGo k uo
  q.1.homeWrites q.2

/-! ### The L1 above the home (R177, R187, R266) -/

/-- Write the dirty bytes of a core's copy of a line to their home; the copy stays, clean (R189). -/
def State.pushLine (s : State) (k l : Nat) : State :=
  match (s.core k).line l with
  | none => s
  | some x => (s.modCore k (fun c => c.setLine x.clean)).homeWrites (owed x)

/-- Write back and drop a core's copy of a line; a pinned line is written back and stays, and a line of an object, which leaves as its protocol has it
(R189, R271, R298, R312). -/
def State.evictLine (s : State) (k l : Nat) : State :=
  (s.pushLine k l).modCore k (fun c => if c.pins.contains l || ((c.line l).bind (·.obj)).isSome then c else c.dropLine l)

/-- A pinned copy takes the bytes its line now has at the home (R271). -/
def State.refreshPin (s : State) (k l : Nat) : State :=
  if (s.core k).pins.contains l then
    s.modCore k (fun c => match c.line l with
      | some x => c.setLine { x with data := memReadN s.mem (128 * l) 128 }
      | none => c)
  else s

/-- The core in which a line is pinned (R298). -/
def State.pinnedAt (s : State) (line : Nat) : Option Nat := (s.cores.find? (fun e => e.2.pins.contains line)).map (·.1)

def State.unpin (s : State) (k line : Nat) : State := s.modCore k (fun c => { c with pins := c.pins.filter (fun l => decide (l ≠ line)) })

/-- The home recalls a pinned line that belongs to no object: its dirty bytes are written back and the holder's copy goes (R298); lines of objects
follow their protocol. -/
def State.recall (s : State) (line : Nat) : State :=
  match s.pinnedAt line with
  | some k => if (((s.core k).line line).bind (·.obj)).isSome then s else (s.unpin k line).evictLine k line
  | none => s

/-- A line pinned in another core is recalled for an access of a core at the home (R271, R298). -/
def State.recallFrom (s : State) (k line : Nat) : State := if s.pinnedAt line = some k then s else s.recall line

/-- Write back every dirty line of a core that the page kinds cover: RC lines, and UO lines when `uo` (R253, R267). -/
def State.pushAll (s : State) (k : Nat) (uo : Bool) : State :=
  ((s.core k).l1.filter (fun x => (uo || !x.uo) && x.obj.isNone && x.dirty.contains true)).foldl (fun a x => a.pushLine k x.line) s

/-- A FENCE.SC.SYSTEM of a core's fibre, without .UO (R250, R254). -/
def State.fullFence (s : State) (k : Nat) : State := (s.pushAll k false).acquire k false

/-- The fences that stand beside an SO access. -/
def State.soFence (s : State) (k : Nat) (so : Bool) : State := if so then s.fullFence k else s

/-- Lines of the page may be held in the L1 (R177). -/
def Leaf.cached (lf : Leaf) : Bool := lf.c && decide (lf.ord ≠ 0)

/-- The untracked line that leaves a full L1: one that is not pinned, which the spec does not say (log 1, log 44). -/
def State.l1Victim (s : State) (k : Nat) : Option Nat :=
  let ls := ((s.core k).l1.filter (fun x => x.obj.isNone && !(s.core k).pins.contains x.line)).map (·.line)
  ls[(Config.freeWord s.free).toNat % ls.length]?

/-- The L1 and the lent blocks of a core can take one line more (R1, R70). -/
def State.l1Open (s : State) (k : Nat) : Bool :=
  decide ((s.core k).l1.length < l1Lines) || decide ((s.core k).l1.length < s.l1Room k)

/-- A full L1 gives up a line that it may drop (R70, R177). -/
def State.makeRoom (s : State) (k : Nat) : State :=
  if s.l1Open k then s
  else match s.l1Victim k with
    | some l => { s.evictLine k l with free := s.free + 1 }
    | none => s

/-- Make a core's copy of an untracked line fit to serve a read: a stale copy is written back and refilled (R266); a missing one is filled, where a line of
a full L1 can leave for it. -/
def State.fill (s : State) (k l : Nat) (uo : Bool) : State :=
  match (s.core k).line l with
  | some x =>
    if (s.core k).lineValid x then s
    else
      let s1 := s.pushLine k l
      s1.modCore k (fun c => c.setLine (s1.freshLine l c.ecur uo none x.excl))
  | none =>
    let s1 := s.makeRoom k
    if s1.l1Open k then s1.modCore k (fun c => c.setLine (s1.freshLine l c.ecur uo none false)) else s1

/-- A load of n bytes of an untracked line by a core: its value is fixed here (R247). -/
def State.load (s : State) (k : Nat) (lf : Leaf) (n : Nat) : List Byte × State :=
  let l := lf.pa / 128
  if lf.cached then
    let s1 := s.fill k l (decide (lf.ord = 2))
    (match (s1.core k).line l with
    | some x => ((x.data.drop (lf.pa % 128)).take n, s1)
    | none => (memReadN s1.mem lf.pa n, s1))
  else
    let s1 := s.evictLine k l
    (memReadN s1.mem lf.pa n, s1)

/-- A store of bytes of an untracked line by a core: into its L1, or performed at the home (R177, R187). -/
def State.store (s : State) (k : Nat) (lf : Leaf) (bs : List Byte) : State :=
  let l := lf.pa / 128
  if lf.cached then
    let s1 := s.fill k l (decide (lf.ord = 2))
    match (s1.core k).line l with
    | some x => s1.modCore k (fun c => c.setLine (x.store (lf.pa % 128) bs))
    | none => s1.homeWrite lf.pa bs
  else (s.evictLine k l).homeWrite lf.pa bs

/-! ### The host against an engine (R326) -/

/-- The lines whose copies the host must give up before an access to a line: the line, or, of an object, those of the line's part. -/
def State.heldBack (s : State) (line : Nat) (write : Bool) : List Nat :=
  (match s.objAny line with
    | some (_, o) => o.lines.filter (fun l => decide (homeKey (128 * l) = homeKey (128 * line)))
    | none => [line]).filter (fun l => s.hostBars l write)

/-- Lines that the host holds against an engine's access: their snoops go out (R326). -/
def State.engineSnoops (s : State) (pas : List Nat) (write : Bool) : Option State :=
  let ls := ((pas.map (· / 128)).eraseDups).flatMap (fun l => s.heldBack l write)
  if ls.isEmpty then none else some (ls.foldl (fun (a : State) l => a.snoop l) s)

/-- Lines of a range of memory that the host holds against an access: their snoops go out (R326). -/
def State.rangeSnoops (s : State) (pa n : Nat) (write : Bool) : Option State :=
  s.engineSnoops (((s.slices.flatMap (fun e => e.2.hostdir.map (fun x => 128 * x.1))).filter (fun a => decide (pa ≤ a) && decide (a < pa + n)))) write

/-- The lines of a run of bytes. -/
def linesOf (pa n : Nat) : List Nat := if n = 0 then [] else (List.range ((pa + n - 1) / 128 - pa / 128 + 1)).map (fun i => pa / 128 + i)

end Sys2Proof.Machine
end

