-- ==== Sys2Proof/Machine/Logs.lean ====
section
/-!
DEFINITION. Interrupt messages, the rings of a context, and arithmetic events (R352, R358 to R361, R385).
-/

namespace Sys2Proof.Machine

/-- Send an interrupt message (R385). -/
def State.irq (s : State) (kind die arg : Nat) : State :=
  { s with irqs := s.irqs ++ [BitVec.ofNat 64 (kind + (die % 2) * 256 + (arg % 0x100000000) * 65536)] }

/-- A counter of a context block (R351): byte offset from the block. -/
def State.ctxWord (s : State) (k off : Nat) : Nat := memNat s.mem (k + off) 4

def State.setCtxWord (s : State) (k off v : Nat) : State := s.homeWrite (k + off) (leBytes 4 (v % 0x100000000))

/-- A saturating 32-bit count of a context block. -/
def State.bumpCtx (s : State) (k off : Nat) : State :=
  if s.ctxWord k off = 0xFFFFFFFF then s else s.setCtxWord k off (s.ctxWord k off + 1)

/-- Write one 32-byte event record to a context's event ring, or count it lost (R352). -/
def State.eventWrite (s : State) (k : Nat) (bytes : List Byte) : State :=
  match fget s.ctxs k with
  | none => s
  | some c =>
    let wr := s.ctxWord k 64
    let rd := s.ctxWord k 28
    if 2 ^ c.ellog2 < (wr + 0x100000000 - rd) % 0x100000000 + 1 then s.bumpCtx k 68
    else (s.homeWrite (c.elbase + 32 * (wr % 2 ^ c.ellog2)) bytes).setCtxWord k 64 (wr + 1)

/-- The bytes of a context-log record: the header, then the payload from byte 16, in u units (R361). -/
def logBytes (code u : Nat) (w : LogWho) (payload : List Byte) : List Byte :=
  let hdr := code + u * 256 + (w.clusid % 0x100000000) * 2 ^ 32 + (w.teamid % 256) * 2 ^ 64 + (w.grpid % 256) * 2 ^ 72
    + (w.core % 256) * 2 ^ 80 + (w.die % 2) * 2 ^ 88
  (leBytes 16 hdr ++ payload ++ List.replicate (64 * u) 0).take (64 * u)

/-- Write units to the context log and advance CLWR with its interrupt. -/
def State.logUnits (s : State) (k : Nat) (c : Ctx) (die : Nat) (units : List (List Byte)) (n : Nat) : State :=
  let wr := s.ctxWord k 72
  let s1 := (List.range units.length).foldl (fun a i =>
    a.homeWrite (c.clbase + 64 * ((wr + i) % 2 ^ c.cllog2)) (units.getD i [])) s
  (s1.setCtxWord k 72 (wr + n)).irq 4 die c.id.toNat

/-- Split bytes into 64-byte units. -/
def units64 : Nat → List Byte → List (List Byte)
  | 0, _ => []
  | n + 1, bs => bs.take 64 :: units64 n (bs.drop 64)

/-- Append a record of u units to a context's log, with the PADs that keep it from wrapping, or count it lost (R352). -/
def State.ctxLog (s : State) (k code u : Nat) (w : LogWho) (payload : List Byte) : State :=
  match fget s.ctxs k with
  | none => s
  | some c =>
    let size := 2 ^ c.cllog2
    let wr := s.ctxWord k 72
    let used := (wr + 0x100000000 - s.ctxWord k 44) % 0x100000000
    let at_ := wr % size
    let p := if size < at_ + u then size - at_ else 0
    if size < used + p + u then s.bumpCtx k 76
    else
      let pad := logBytes 0 1 ⟨0, 0, 0, 0, 0⟩ []
      let s1 := if p = 0 then s else s.logUnits k c w.die (List.replicate p pad) p
      s1.logUnits k c w.die (units64 u (logBytes code u w payload)) u

/-- Who a group is, for a record. -/
def Team.who (t : Team) (g : Nat) : LogWho := ⟨t.clusid, t.teamid, g, t.core, t.die⟩

/-- The bytes of an event record (R358). -/
def eventBytes (t : Team) (g : Nat) (e : EventRec) : List Byte :=
  leBytes 32 (e.cause + e.count * 2 ^ 32 + g * 2 ^ 64 + t.teamid * 2 ^ 72 + t.die * 2 ^ 80 + t.core * 2 ^ 88 + t.clusid * 2 ^ 96
    + e.clause.toNat * 2 ^ 128)

/-- Write a closed event record of a group: to the ring, or in a deterministic grid to the group's buffer (R332, R359). -/
def State.closeEvent (s : State) (tid g : Nat) (e : EventRec) : State :=
  match s.team tid with
  | none => s
  | some t =>
    if t.kern.dx.isSome then s.modGroup tid g (fun x => { x with dxbuf := x.dxbuf ++ [⟨.event e, []⟩] })
    else s.eventWrite t.ctx (eventBytes t g e)

/-- Write the open record of a group to the ring (R359). -/
def State.flushEvent (s : State) (tid g : Nat) : State :=
  match s.team tid, s.group tid g with
  | some t, some x =>
    match x.event with
    | some e => (s.modGroup tid g (fun y => { y with event := none })).eventWrite t.ctx (eventBytes t g e)
    | none => s
  | _, _ => s

/-- One arithmetic event of a group (R359): it joins the open record, or closes it and opens another. -/
def State.logEvent (s : State) (tid g : Nat) (cause : Nat) (clause : VAddr) : State :=
  match (s.group tid g).bind (·.event) with
  | some e =>
    if e.cause = cause && e.clause = clause && decide (e.count < 65535) then
      s.modGroup tid g (fun x => { x with event := some { e with count := e.count + 1 } })
    else (s.closeEvent tid g e).modGroup tid g (fun x => { x with event := some ⟨cause, clause, 1, s.coreNow tid⟩ })
  | none => s.modGroup tid g (fun x => { x with event := some ⟨cause, clause, 1, s.coreNow tid⟩ })

/-- Several events of one instruction, in order. -/
def State.logEvents (s : State) (tid g : Nat) (clause : VAddr) (causes : List Nat) : State :=
  causes.foldl (fun a c => a.logEvent tid g c clause) s

/-- Ask for a context's death at the end of the step (R362). -/
def State.askKill (s : State) (k : KillReq) : State := { s with kills := s.kills ++ [k] }

end Sys2Proof.Machine
end

