-- ==== Sys2Proof/Machine/AtHome.lean ====
section
/-!
DEFINITION. Atomics and exact sums as their home performs them (R271 to R279).
-/

namespace Sys2Proof.Machine

/-- Bytes at a place. -/
def State.placeRead (s : State) (pl : Place) (n : Nat) : Nat :=
  match pl with
  | .mem pa => memNat s.mem pa n
  | .vault k a => memNat (s.core k).vault a n

/-- Write n bytes at a place. -/
def State.placeWrite (s : State) (pl : Place) (n x : Nat) : State :=
  match pl with
  | .mem pa => s.homeWrite pa (leBytes n x)
  | .vault k a => s.vaultWrite k a (leBytes n x)

/-- The order of scopes: at least TEAM (R266). -/
def scopeTeam : Scope → Bool
  | .fibre | .group => false
  | _ => true

/-- At least CLUSTER (R267). -/
def scopeCluster : Scope → Bool
  | .fibre | .group | .team => false
  | _ => true

/-- The ordering has a release side, an acquire side (R254). -/
def hasRel : Order → Bool | .rel | .ar => true | _ => false
def hasAcq : Order → Bool | .acq | .ar => true | _ => false

/-- The release side of an operation of a core: the stores it covers are performed at their homes (R267). -/
def State.releaseSide (s : State) (k : Nat) (uo : Bool) (scope : Scope) : State := if scopeCluster scope then s.pushAll k uo else s

/-- The acquire side: the epoch advances (R266). -/
def State.acquireSide (s : State) (k : Nat) (uo : Bool) (scope : Scope) : State := if scopeTeam scope then s.acquire k uo else s

/-- The new value of an atomic but FADD (R273, R275): m at the location, v the operand, w bits. -/
def atomStep (op : AtomOp) (ty : ITy) (m v : Nat) : Nat :=
  let w := ty.width
  let a : BitVec 64 := BitVec.ofNat 64 m
  let b : BitVec 64 := BitVec.ofNat 64 v
  let less : Bool := if ty.signed then decide (sextNat w m < sextNat w v) else decide (m % 2 ^ w < v % 2 ^ w)
  match op with
  | .add => (m + v) % 2 ^ w
  | .min => if less then m else v
  | .max => if less then v else m
  | .and => (a &&& b).toNat
  | .or => (a ||| b).toNat
  | .xor => (a ^^^ b).toNat
  | .swap => v
  | .fmin => (fextreme false (BitVec.ofNat 32 m) (BitVec.ofNat 32 v)).toNat
  | .fmax => (fextreme true (BitVec.ofNat 32 m) (BitVec.ofNat 32 v)).toNat
  | .fadd => m

/-- The values the location would have held before each lane and after the last, lanes in ascending order (R272, R274). -/
def atomChain (op : AtomOp) (ty : ITy) (m : Nat) (vs : List Nat) : List Nat :=
  match op with
  | .fadd =>
    m :: (List.range vs.length).map (fun i =>
      (fsumF32 ((m :: vs.take (i + 1)).map (BitVec.ofNat 32))).toNat)
  | _ => vs.foldl (fun (r : List Nat) v => r ++ [atomStep op ty (r.getLastD m) v]) [m]

/-- One ACAS request: the old value each lane sees and the value left (R276). -/
def acasChain (m : Nat) : List (Nat × Nat) → List Nat × Nat
  | [] => ([], m)
  | (c, w) :: rest => let r := acasChain (if m = c then w else m) rest; (m :: r.1, r.2)

/-- Some lane's comparison holds: otherwise the request makes no write (R276). -/
def acasHits (m : Nat) (ops : List (Nat × Nat)) : Bool := ((acasChain m ops).1.zip ops).any (fun e => decide (e.1 = e.2.1))

/-- The line of a place, for a global one. -/
def Place.line? : Place → Option Nat
  | .mem pa => some (pa / 128)
  | .vault _ _ => none

/-- A place that a request acts on, and whether the host's copies must go first. -/
def ReqKind.place? : ReqKind → Option (Place × Bool)
  | .atom _ _ _ _ _ _ pl _ | .acas _ _ _ _ pl _ | .exsum _ _ _ pl _ => some (pl, true)
  | .excvt _ _ _ _ clr pl _ => some (pl, clr)
  | _ => none

/-- The line that a request goes to. -/
def ReqKind.line? : ReqKind → Option Nat
  | .load _ _ _ l _ _ _ => some l
  | .lock _ _ l _ _ _ => some l
  | .unlock _ l _ _ => some l
  | k => k.place?.bind (fun p => p.1.line?)

/-! ### Requests at their slices (R370) -/

/-- The requests that stand in a slice's input queue. -/
def State.queued (s : State) (sk : Nat) : List (Nat × Nat) := (s.slice sk).inq.filter (fun e => (fget s.reqs e.1).isSome)

/-- A request may be performed: its slice has begun it, or may begin it now, as the first of its queue, one in a clock and none in the clock in which it
entered; one that goes to no line stands in no queue. -/
def State.mayBegin (s : State) (id : Nat) (r : Req) : Bool :=
  match r.kind.line? with
  | none => true
  | some l =>
    let sk := homeKey (128 * l)
    r.begun || (match s.queued sk with
      | e :: _ => decide (e.1 = id) && decide (e.2 < s.now) && decide ((s.slice sk).began ≠ some s.now)
      | [] => false)

/-- A slice begins a request: it leaves the queue. -/
def State.beginReq (s : State) (id : Nat) (r : Req) : State :=
  match r.kind.line? with
  | none => s
  | some l =>
    if r.begun then s
    else State.modSlice { s with reqs := fmod s.reqs id (fun x => { x with begun := true }) } (homeKey (128 * l))
      (fun z => { z with inq := z.inq.filter (fun e => decide (e.1 ≠ id)), began := some s.now })

/-- The operation is one that fibres of a group wait for until a commit performs it (R332). -/
def State.dxAwaits (s : State) (t g op : Nat) : Bool :=
  s.grids.any (fun e => e.2.dxops.any (fun x => decide (x.team = t) && x.ops.contains (g, op)))

/-- A lane's request has been performed: its results go to its operation and its later accesses may follow; a fibre that waited for a
commit is released (R334). -/
def State.answerLane (s : State) (r : Req) (lane : Nat) (ws : List (RName × Word)) : State :=
  if decide ((s.fibre r.team r.grp lane).wait = some .dx) && s.dxAwaits r.team r.grp r.op then s.release r.team r.grp lane r.op ws
  else (s.opLane r.op lane ws).modFibre r.team r.grp lane (fun f => { f with order := f.order - 1 })

/-- Nothing that the fibres have stored in a vault is any longer unordered with what they do next (R252). -/
def State.uncross (s : State) (t g : Nat) (ls : List Nat) : State := ls.foldl (fun (a : State) l => a.modFibre t g l (fun f => { f with crossed := [] })) s

/-- An atomic with both orderings at TEAM scope or wider stands between a fibre's accesses before and after it as a fence does (R252, R254). -/
def State.orderLanes (s : State) (r : Req) (order : Order) (scope : Scope) (ls : List Nat) : State :=
  if hasRel order && hasAcq order && scopeTeam scope then s.uncross r.team r.grp ls else s

/-- A width-typed result of an atomic. -/
def atomWrites (d : Reg) (ty : ITy) (x : Nat) : List (RName × Word) := wrW d ty.is64 (BitVec.ofNat 64 x)

/-- An operation's release side at its home, and the line it acts on out of the requester's own cache (R254, R267, R271). -/
def State.enterHome (s : State) (k : Nat) (uo : Bool) (order : Order) (scope : Scope) (pl : Place) : State :=
  let a := if hasRel order then s.releaseSide k uo scope else s
  match pl with
  | .mem pa => (a.recallFrom k (pa / 128)).evictLine k (pa / 128)
  | .vault _ _ => a

/-- An operation's acquire side at its home, with a pinned copy of its line as the operation leaves it (R254, R266, R298). -/
def State.leaveHome (s : State) (k : Nat) (uo : Bool) (order : Order) (scope : Scope) (pl : Place) : State :=
  let b := match pl with
    | .mem pa => s.refreshPin k (pa / 128)
    | .vault _ _ => s
  if hasAcq order then b.acquireSide k uo scope else b

/-- Perform a request at its home, as one indivisible step (R258, R271 to R278). -/
def State.performReq (s : State) (id : Nat) : State :=
  match fget s.reqs id with
  | none => s
  | some r =>
    match s.team r.team with
    | none => { s with reqs := fdel s.reqs id }
    | some t =>
      let k := t.key
      let s0 := { s with reqs := fdel s.reqs id }
      match r.kind with
      | .atom uo order scope op ty ret pl lanes =>
        let a := (s0.orderLanes r order scope (lanes.map (·.1))).enterHome k uo order scope pl
        let n := ty.width / 8
        let chain := atomChain op ty (a.placeRead pl n) (lanes.map (fun l => l.2.2))
        (lanes.zipIdx.foldl (fun (x : State) e => x.answerLane r e.1.1 (if ret then atomWrites e.1.2.1 ty (chain.getD e.2 0) else []))
          (a.placeWrite pl n (chain.getLastD 0))).leaveHome k uo order scope pl
      | .acas uo order scope ty pl lanes =>
        let a := (s0.orderLanes r order scope (lanes.map (·.1))).enterHome k uo order scope pl
        let n := ty.width / 8
        let ops := lanes.map (fun l => l.2.2)
        let q := acasChain (a.placeRead pl n) ops
        (lanes.zipIdx.foldl (fun (x : State) e => x.answerLane r e.1.1 (atomWrites e.1.2.1 ty (q.1.getD e.2 0)))
          (if acasHits (a.placeRead pl n) ops then a.placeWrite pl n q.2 else a)).leaveHome k uo order scope pl
      | .exsum uo order scope pl lanes =>
        let a := (s0.orderLanes r order scope (lanes.map (·.1))).enterHome k uo order scope pl
        let b := a.placeWrite pl 64 (eswSum (a.placeRead pl 64) (lanes.map (·.2)))
        (lanes.foldl (fun (x : State) l => x.answerLane r l.1 []) b).leaveHome k uo order scope pl
      | .excvt uo order scope bf16 clr pl lanes =>
        let b := lanes.foldl (fun (x : State) l =>
          let v := eswValue (x.placeRead pl 64)
          let code := toFF (if bf16 then .bf16 else .f32) .rne false v
          let y := if clr then x.placeWrite pl 64 0 else x
          y.answerLane r l.1 [(.v l.2, BitVec.ofNat 32 code)]) ((s0.orderLanes r order scope (lanes.map (·.1))).enterHome k uo order scope pl)
        b.leaveHome k uo order scope pl
      | _ => s

end Sys2Proof.Machine
end

