-- ==== Sys2Proof/Machine/Objects.lean ====
section
/-!
DEFINITION. The protocol engine of a home slice (R309 to R318, R326, R327): an event at a part of a coherence object, its two phases,
probes, pushes and grants.
-/

namespace Sys2Proof.Machine

/-! ### Protocol images (R315, R317) -/

/-- Entry (st, e) of the image in a slot; 0 when none is loaded. -/
def State.protEntry (s : State) (slot st e : Nat) : Nat :=
  match s.prots.getD slot none with
  | some img => leNat ((img.drop (64 + 4 * (16 * st + e))).take 4)
  | none => 0

/-- The header of the image in a slot. -/
def State.protHeader (s : State) (slot : Nat) : Nat :=
  match s.prots.getD slot none with
  | some img => leNat (img.take 64)
  | none => 0

/-- The kind of a state: 0 NONE, 1 SHARED, 2 EXCL, 3 TRANS (R317). -/
def State.protKind (s : State) (slot st : Nat) : Nat := field (s.protHeader slot) (41 + 2 * st) (40 + 2 * st)

/-- The protocol admits line locks (R317). -/
def State.protLocks (s : State) (slot : Nat) : Bool := flag (s.protHeader slot) 35

/-- Action n of an entry (R315). -/
def act (x n : Nat) : Bool := flag x (3 + n)

/-! ### Parts -/

/-- The part of an object at a slice. -/
def State.objPart (s : State) (sk id : Nat) : ObjPart := (fget (s.slice sk).parts id).getD ObjPart.reset

def State.setObjPart (s : State) (sk id : Nat) (p : ObjPart) : State := s.modSlice sk (fun x => { x with parts := fset x.parts id p })

def State.modObjPart (s : State) (sk id : Nat) (h : ObjPart → ObjPart) : State := s.setObjPart sk id (h (s.objPart sk id))

/-- The lines of the object that the slice homes (R309). -/
def Obj.linesAt (o : Obj) (sk : Nat) : List Nat := o.lines.filter (fun l => decide (homeKey (128 * l) = sk))

/-- The agent number of a core at a part: a core of the part's die, or the other die (R310). -/
def agentOf (sk die core : Nat) : Nat := if sk / 16 = die then core else 72

/-- The cores behind an agent of a part: the remote proxy stands for every core of the other die (R310). -/
def State.agentCores (s : State) (sk a : Nat) : List Nat :=
  if a < 72 then [72 * (sk / 16) + a]
  else if a = 72 then (s.cores.map (·.1)).filter (fun k => decide (k / 72 = 1 - sk / 16) && decide (k < 144))
  else []

/-- A core in retention logs the object of a probe or push that its power controller answers (R324). -/
def Core.logObject (c : Core) (id gen : Nat) : Core :=
  if c.slog.contains (id, gen) then c
  else if c.slog.length < 64 then { c with slog := c.slog ++ [(id, gen)] } else { c with sover := true }

/-- A core's copy of a line is gone, pinned or not. -/
def State.dropCopy (s : State) (k line : Nat) : State := (s.modCore k (fun c => c.dropLine line)).unpin k line

/-- Probe one core: its dirty lines of the part are written at the home; it keeps clean copies, or none, a pinned one never (R315, R316, R323, R324). -/
def State.probeCore (s : State) (k id gen : Nat) (lines : List Nat) (keep : Bool) : State :=
  if (s.core k).asleep then s.modCore k (fun c => c.logObject id gen)
  else
    ((s.core k).l1.filter (fun x => decide (x.obj = some (id, gen)) && lines.contains x.line)).foldl (fun a x =>
      let b := a.pushLine k x.line
      if keep && !(b.core k).pins.contains x.line then
        b.modCore k (fun c => match c.line x.line with | some y => c.setLine { y with excl := false } | none => c)
      else b.dropCopy k x.line) s

/-- Probe an agent for its lines of a part; for the host, back-invalidation snoops go out (R326). -/
def State.probe (s : State) (sk id a : Nat) (keep : Bool) : State :=
  let o := s.obj id
  let lines := o.linesAt sk
  if a = 73 then
    ((s.slice sk).hostdir.filter (fun e => lines.contains e.1)).foldl (fun x e => x.snoop e.1) s
  else (s.agentCores sk a).foldl (fun x k => x.probeCore k id o.gen lines keep) s

/-- Push written bytes to an agent's copies of a line (UPDS). -/
def State.pushBytes (s : State) (sk id a pa : Nat) (bs : List Byte) : State :=
  let o := s.obj id
  if a = 73 then (if (s.slice sk).hostdir.any (fun e => decide (e.1 = pa / 128)) then s.snoop (pa / 128) else s)
  else (s.agentCores sk a).foldl (fun x k =>
    if (x.core k).asleep then x.modCore k (fun c => c.logObject id o.gen)
    else x.modCore k (fun c => match c.line (pa / 128) with
      | some y => if y.obj = some (id, o.gen) then c.setLine { y with data := patch y.data (pa % 128) bs } else c
      | none => c)) s

/-- The agents of a sharer vector. -/
def sharers (v : BitVec 74) : List Nat := (List.range 74).filter (fun a => v.getLsbD a)

/-- Some monitor watches a word of the line (R323). -/
def State.watched (s : State) (line : Nat) : Bool := (s.slice (homeKey (128 * line))).mons.any (fun m => decide (m.pa / 128 = line))

/-- The remote proxy takes a line from the other cores behind it, or leaves them clean copies, before it passes a grant on to one (R310, R313). -/
def State.behindProxy (s : State) (sk id die core line : Nat) (excl : Bool) : State :=
  if sk / 16 = die then s
  else ((s.agentCores sk 72).filter (fun k => decide (k ≠ coreKey die core))).foldl (fun a k => a.probeCore k id (a.obj id).gen [line] (!excl)) s

/-- The bytes of a copy under those that a core has written in its own. -/
def L1Line.under (x y : L1Line) : L1Line :=
  { x with data := (List.range 128).map (fun i => if y.dirty.getD i false then y.data.getD i 0 else x.data.getD i 0), dirty := y.dirty, excl := x.excl || y.excl }

/-- A core keeps a copy of a line of an object that is sent to it, where its L1 has room (R70); what it has written in a copy of its own stands. -/
def State.grantCopy (s : State) (die core id line : Nat) (excl : Bool) : State :=
  let k := coreKey die core
  let tag := some (id, (s.obj id).gen)
  match ((s.core k).line line).bind (fun y => if y.obj = tag then some y else none) with
  | some y => s.modCore k (fun c => c.setLine ((s.freshLine line c.ecur false tag excl).under y))
  | none =>
    let a := s.makeRoom k
    if a.l1Open k || ((a.core k).line line).isSome then a.modCore k (fun c => c.setLine (a.freshLine line c.ecur false tag excl)) else a

/-- Grant a line to the core that asked for it (R310, R315). -/
def State.grant (s : State) (sk id x : Nat) (rq : PReq) : State :=
  if act x 0 || act x 1 then (s.behindProxy sk id rq.die rq.core (rq.pa / 128) (act x 1)).grantCopy rq.die rq.core id (rq.pa / 128) (act x 1) else s

/-- Registers that n loaded bytes give, from d (R186). -/
def loadWrites (d : Reg) (bs : List Byte) : List (RName × Word) :=
  if bs.length ≤ 4 then [(.v d, BitVec.ofNat 32 (leNat bs))]
  else (List.range (bs.length / 4)).map (fun i => (RName.v (d + BitVec.ofNat 8 i), BitVec.ofNat 32 (leNat ((bs.drop (4 * i)).take 4))))

/-- A lane's access has been performed: its later accesses may follow. -/
def State.laneDone (s : State) (t g l op : Nat) (ws : List (RName × Word)) : State :=
  (s.opLane op l ws).modFibre t g l (fun f => { f with order := f.order - 1 })

/-- A lane's load has been performed: its registers take the bytes as its operation completes, and its accesses to the line may follow. -/
def State.loadLane (s : State) (t g l op line : Nat) (so : Bool) (ws : List (RName × Word)) : State :=
  (s.opLane op l ws).modFibre t g l (fun f => if so then { f with order := f.order - 1 } else { f with loads := f.loads.erase line })

/-- Perform a store in the exclusive copy that a core has been granted; a watched copy is written through, and one that its L1 had no room for is
written at the home (R313, R323). -/
def State.storeCopy (s : State) (k pa : Nat) (bs : List Byte) : State :=
  match (s.core k).line (pa / 128) with
  | some x =>
    let s1 := s.modCore k (fun c => c.setLine (x.store (pa % 128) bs))
    if s.watched (pa / 128) then s1.pushLine k (pa / 128) else s1
  | none => s.homeWrite pa bs

/-- Bytes of a line of an object as a core finds them in the copy it has been sent, else at the home. -/
def State.copyRead (s : State) (k id pa n : Nat) : List Byte :=
  match (s.core k).line (pa / 128) with
  | some x => if x.obj = some (id, (s.obj id).gen) then (x.data.drop (pa % 128)).take n else memReadN s.mem pa n
  | none => memReadN s.mem pa n

/-! ### The host directory (R326) -/

/-- The host directory of a slice has room for a line, or holds it. -/
def State.hostRoom (s : State) (line : Nat) : Bool :=
  let dir := (s.slice (homeKey (128 * line))).hostdir
  dir.any (fun e => decide (e.1 = line)) || decide (dir.length < 4096)

/-- The least recently used line of a host directory is asked of the host. -/
def State.hostLru (s : State) (line : Nat) : State := s.snoop (((s.slice (homeKey (128 * line))).hostdir.headD (line, false)).1)

/-- The host directory takes a line, as the latest used; the least recently used of 4,096 is invalidated first. -/
def State.hostEnter (s : State) (line : Nat) (excl : Bool) : State :=
  if s.hostRoom line then
    s.modSlice (homeKey (128 * line)) (fun z => { z with hostdir := z.hostdir.filter (fun e => decide (e.1 ≠ line)) ++ [(line, excl)] })
  else s.hostLru line

/-- A host request of a part finds room in the directory; any other needs none. -/
def State.hostFits (s : State) (rq : PReq) : Bool :=
  match rq.kind with
  | .hostRead | .hostOwn _ => s.hostRoom (rq.pa / 128)
  | _ => true

/-- The bytes a request writes. -/
def PReqKind.data : PReqKind → Option (List Byte)
  | .st _ _ _ bs _ => some bs
  | .hostOwn bs => some bs
  | .engine d => d
  | _ => none

/-- The results of a request that its part completes and does not perform: the spec gives them no value (log 22). -/
def ReqKind.unperformed (k : ReqKind) (free : Nat) : List (Nat × List (RName × Word)) :=
  let v (i : Nat) : Nat := (Config.freeWord (free + i)).toNat
  match k with
  | .atom _ _ _ _ ty ret _ lanes => lanes.map (fun l => (l.1, if ret then atomWrites l.2.1 ty (v l.1) else []))
  | .acas _ _ _ ty _ lanes => lanes.map (fun l => (l.1, atomWrites l.2.1 ty (v l.1)))
  | .exsum _ _ _ _ lanes => lanes.map (fun l => (l.1, []))
  | .excvt _ _ _ _ _ _ lanes => lanes.map (fun l => (l.1, [(.v l.2, BitVec.ofNat 32 (v l.1))]))
  | _ => []

/-- A request that an entry neither performs nor grants completes all the same (R316). -/
def State.unperformedReq (s : State) (id : Nat) : State :=
  match fget s.reqs id with
  | none => s
  | some r =>
    (r.kind.unperformed s.free).foldl (fun (a : State) e => a.answerLane r e.1 e.2) { s with reqs := fdel s.reqs id, free := s.free + 32 }

/-- The second phase of an entry for a request: what NCH, GRS and GRX do, and the request completes (R316). An atomic that is granted its line is performed at
the home first. -/
def State.partFinish (s : State) (sk id x : Nat) (rq : PReq) : State :=
  let k := coreKey rq.die rq.core
  let grant := act x 0 || act x 1
  match rq.kind with
  | .ld t g lanes d n op =>
    let s1 := s.grant sk id x rq
    lanes.foldl (fun (a : State) e => a.loadLane t g e.1 op (rq.pa / 128) false (loadWrites d (s1.copyRead k id e.2 n))) s1
  | .st t g l bs op =>
    (if act x 1 then (s.grant sk id x rq).storeCopy k rq.pa bs
      else (if act x 11 && !act x 9 then s.homeWrite rq.pa bs else s).grant sk id x rq).laneDone t g l op []
  | .atom r =>
    if grant then ((s.behindProxy sk id rq.die rq.core (rq.pa / 128) true).performReq r).grant sk id x rq
    else if act x 11 then s.performReq r
    else s.unperformedReq r
  | .engine (some bs) => if (grant || act x 11) && !act x 9 then s.homeWrite rq.pa bs else s
  | .hostRead => if grant then s.hostEnter (rq.pa / 128) (act x 1) else s
  | .hostOwn bs =>
    let a := if (act x 1 || act x 11) && !act x 9 then s.homeWrite rq.pa bs else s
    if grant then a.hostEnter (rq.pa / 128) (act x 1) else a
  | .lock _ _ => s.grant sk id x rq
  | .engine none | .rel | .note _ | .watch _ _ => s

/-- The state an entry leads to: an entry of zero stays, but for the event ACK, which zero leads to state 0 (R318; log 22). -/
def nextState (x e st : Nat) : Nat := if x = 0 && decide (e ≠ 5) then st else field x 2 0

/-- SHR and OWNER after an entry's actions, in the order of R316. -/
def applyActs (x q : Nat) (p : ObjPart) : ObjPart :=
  let bitq : BitVec 74 := (1 : BitVec 74) <<< q
  let keeps := decide (q < 74)
  let p1 := if act x 5 then { p with shr := 0 } else p
  let p2 := if act x 6 then { p1 with owner := 127 } else p1
  let p3 := if act x 7 then { p2 with shr := if p2.owner < 74 && decide (p2.owner ≠ q) then p2.shr ||| ((1 : BitVec 74) <<< p2.owner) else p2.shr, owner := 127 } else p2
  let p4 := if act x 4 && keeps then { p3 with shr := p3.shr &&& ~~~bitq, owner := if p3.owner = q then 127 else p3.owner } else p3
  let p5 := if act x 2 && keeps then { p4 with shr := p4.shr ||| bitq } else p4
  if act x 3 && keeps then { p5 with owner := q } else p5

/-- The team and group whose request reaches a part. -/
def State.reqTeam (s : State) (k : PReqKind) : Option (Nat × Nat) :=
  match k with
  | .ld t g .. | .st t g .. | .lock t g | .watch t g => some (t, g)
  | .atom r => (fget s.reqs r).map (fun x => (x.team, x.grp))
  | _ => none

/-- Who is named in the record of a refused request. -/
def State.reqWho (s : State) (rq : PReq) : LogWho :=
  match (s.reqTeam rq.kind).bind (fun p => (s.team p.1).map (fun t => t.who p.2)) with
  | some w => w
  | none => ⟨0, 0, 0, rq.core, rq.die⟩

/-- The event record of a refused write (R316, R361). -/
def State.protFault (s : State) (id e : Nat) (rq : PReq) : State :=
  s.askKill ⟨(s.obj id).ctx, 6, s.reqWho rq, leBytes 8 id ++ leBytes 8 (128 * (rq.pa / 128)) ++ [BitVec.ofNat 8 e, BitVec.ofNat 8 rq.agent]⟩

/-- The agents that an entry probes, each with whether it keeps clean copies: the sharers and the owner; and the requester itself when the entry's probes
leave it no holder (R313, R315; log 22). -/
def probes (x q : Nat) (p : ObjPart) : List (Nat × Bool) :=
  let p1 := applyActs x q p
  (if act x 5 then ((sharers p.shr).filter (fun a => decide (a ≠ q))).map (fun a => (a, false)) else []) ++
  (if act x 6 && decide (p.owner ≠ q) then [(p.owner, false)] else []) ++
  (if act x 7 && decide (p.owner ≠ q) then [(p.owner, true)] else []) ++
  (if (act x 5 || act x 6 || act x 7) && decide (q < 74) && !(p1.shr.getLsbD q || decide (p1.owner = q)) then [(q, false)] else [])

/-- An event applies its entry at a part: the first phase, and the second at once unless acknowledgements are awaited (R316). -/
def State.partEvent (s : State) (sk id e : Nat) (rq : PReq) : State :=
  let o := s.obj id
  let p := s.objPart sk id
  let x := s.protEntry o.pslot p.state e
  let q := rq.agent
  if act x 12 then s.setObjPart sk id { p with queue := p.queue ++ [rq] }
  else if act x 13 then s.protFault id e rq
  else
    let s3 := (probes x q p).foldl (fun a b => a.probe sk id b.1 b.2) s
    let s4 := match rq.kind.data with
      | some bs => if act x 9 then s3.homeWrite rq.pa bs else s3
      | none => s3
    let s5 := if act x 10 && !s4.marks.contains (rq.pa / 128) then { s4 with marks := (rq.pa / 128) :: s4.marks } else s4
    let s6 := match rq.kind.data with
      | some bs => if act x 8 then (sharers p.shr).foldl (fun (a : State) b => a.pushBytes sk id b rq.pa bs) s5 else s5
      | none => s5
    let s7 := s6.modObjPart sk id (fun p1 => { applyActs x q p1 with state := nextState x e p.state })
    if flag x 19 then s7.modObjPart sk id (fun p1 => { p1 with second := some (BitVec.ofNat 32 x, rq) })
    else s7.partFinish sk id x rq

/-- Every answer of the host that a part awaits has come. -/
def State.hostAnswered (s : State) (sk id : Nat) : Bool := !((s.obj id).linesAt sk).any (fun l => s.snoops.contains l)

/-- An object whose release waits at its parts is released there, as far as they admit it (R322). -/
def State.relServe (s : State) (sk id : Nat) : State :=
  let p := s.objPart sk id
  if (s.obj id).rel && p.second.isNone && p.queue.any (fun q => decide (q.kind = .rel)) then
    (s.setObjPart sk id { p with queue := p.queue.filter (fun q => decide (q.kind ≠ .rel)) }).partEvent sk id 8 ⟨.rel, 127, sk / 16, 0, 0⟩
  else s

/-- A request that was queued during a release is served as untracked (R266, R322). -/
def State.serveUntracked (s : State) (rq : PReq) : State :=
  let k := coreKey rq.die rq.core
  let line := rq.pa / 128
  match rq.kind with
  | .ld t g lanes d n op => lanes.foldl (fun (a : State) e => let r := a.load k ⟨e.2, 1, true, true⟩ n; r.2.loadLane t g e.1 op line false (loadWrites d r.1)) s
  | .st t g l bs op => (s.homeWrite rq.pa bs).laneDone t g l op []
  | .atom r => s.performReq r
  | .engine (some bs) => s.homeWrite rq.pa bs
  | .hostRead => s.hostEnter line false
  | .hostOwn bs => if bs.isEmpty then s.hostEnter line true else s.homeWrite rq.pa bs
  | .lock _ _ | .engine none | .rel | .note _ | .watch _ _ => s

/-- The slices that home lines of an object. -/
def Obj.homes (o : Obj) : List Nat := (o.lines.map (fun l => homeKey (128 * l))).eraseDups

/-- An object leaves every slice once every part is in state 0: its ID goes to its next generation, and what waited is served as untracked (R322, R325). -/
def State.finishRelease (s : State) (id : Nat) : State :=
  let o := s.obj id
  if !o.rel || !o.homes.all (fun sk => decide ((s.objPart sk id).state = 0) && (s.objPart sk id).second.isNone) then s
  else
    let waiting := o.homes.flatMap (fun sk => (s.objPart sk id).queue)
    let gen := (o.gen + 1) % 65536
    let s2 := { s with objs := fset s.objs id { Obj.reset with gen := gen },
                       cores := s.cores.map (fun e => (e.1, { e.2 with
                         look := e.2.look.filter (fun i => decide (i ≠ id)),
                         sall := e.2.sall || (decide (gen = 0) && e.2.asleep),
                         l1 := e.2.l1.filter (fun x => match x.obj with | some (i, _) => decide (i ≠ id) | none => true) })) }
    let s3 := o.homes.foldl (fun a sk => a.modSlice sk (fun z => { z with parts := fdel z.parts id })) s2
    waiting.foldl (fun a rq => a.serveUntracked rq) s3

/-- The second phase of the entry that awaits acknowledgements, and then the event ACK (R316); a host's request first finds room in the directory (R326). -/
def State.partAck (s : State) (sk id : Nat) : State :=
  let p := s.objPart sk id
  match p.second with
  | none => s
  | some (x, rq) =>
    if !s.hostFits rq then s.hostLru (rq.pa / 128)
    else
      let s1 := (s.setObjPart sk id { p with second := none }).partFinish sk id x.toNat rq
      let y := s1.protEntry (s1.obj id).pslot (s1.objPart sk id).state 5
      ((s1.modObjPart sk id (fun q => { q with state := field y 2 0 })).relServe sk id).finishRelease id

/-- The acknowledgements an entry awaits arrive now, where it awaits any; the host's only when it has answered (R326). -/
def State.partSettle (s : State) (sk id : Nat) : State := if (s.objPart sk id).second.isSome && s.hostAnswered sk id then s.partAck sk id else s

/-- The code of the event that a request raises (R314). -/
def State.reqEvent (s : State) (rq : PReq) : Nat :=
  let wr := if s.marks.contains (rq.pa / 128) then 2 else 1
  match rq.kind with
  | .ld .. | .hostRead | .engine none => 0
  | .st .. | .hostOwn _ | .engine (some _) => wr
  | .atom _ | .watch _ _ => 6
  | .lock _ _ => 7
  | .rel => 8
  | .note e => e

/-- The agent holds a line of the part (R314). -/
def State.holdsPart (s : State) (sk id a : Nat) : Bool :=
  let o := s.obj id
  if a = 73 then (s.slice sk).hostdir.any (fun e => (o.linesAt sk).contains e.1)
  else (s.agentCores sk a).any (fun k => (s.core k).l1.any (fun x => decide (x.obj = some (id, o.gen)) && (o.linesAt sk).contains x.line))

/-- The agent stands as a holder of the part. -/
def ObjPart.names (p : ObjPart) (a : Nat) : Bool := p.shr.getLsbD a || decide (p.owner = a)

/-- A core writes back the dirty bytes of a line of an object: WB (R314). -/
def State.wbTracked (s : State) (k id line : Nat) : State :=
  let sk := homeKey (128 * line)
  match (s.core k).line line with
  | some x =>
    if x.dirty.contains true then
      (s.pushLine k line).partEvent sk id 4 ⟨.note 4, agentOf sk (k / 72) (k % 72), k / 72, k % 72, 128 * line⟩
    else s
  | none => s

/-- A core writes back the dirty bytes of a line, of an object or of none, and keeps its copy (R189, R314). -/
def State.pushAny (s : State) (k line : Nat) : State :=
  match ((s.core k).line line).bind (·.obj) with
  | some (id, gen) => if (s.obj id).gen = gen then s.wbTracked k id line else s.pushLine k line
  | none => s.pushLine k line

/-- An agent's last line of a part has gone: EVC, where it is a holder (R314). -/
def State.goneFrom (s : State) (sk id a line : Nat) : State :=
  if s.holdsPart sk id a || !(s.objPart sk id).names a then s
  else s.partEvent sk id 3 ⟨.note 3, a, if a = 72 then 1 - sk / 16 else sk / 16, if a < 72 then a else 0, 128 * line⟩

/-- A core drops a line of an object (R314). -/
def State.dropTracked (s : State) (k id line : Nat) : State :=
  let sk := homeKey (128 * line)
  ((s.wbTracked k id line).modCore k (fun c => c.dropLine line)).goneFrom sk id (agentOf sk (k / 72) (k % 72)) line

/-- A core drops its copy of a line that a declared object holds; any other stays. -/
def State.shed (s : State) (k line : Nat) : State :=
  match ((s.core k).line line).bind (·.obj) with
  | some (id, gen) => if decide ((s.obj id).gen = gen) && !(s.core k).pins.contains line then s.dropTracked k id line else s
  | none => s

/-- A core's own copies take their place at the home before an operation performed there, and go, all those of the line's part (R271, R309); a pinned one
stays. -/
def State.ownOut (s : State) (k id line : Nat) : State :=
  let o := s.obj id
  let part := o.linesAt (homeKey (128 * line))
  ((s.core k).l1.filter (fun x => decide (x.obj = some (id, o.gen)) && part.contains x.line)).foldl (fun (a : State) x =>
    if (a.core k).pins.contains x.line then a.wbTracked k id x.line else a.dropTracked k id x.line) s

/-- A request comes from the agent that owns an exclusive part: it raises no event (R314). -/
def State.ownsPart (s : State) (sk id : Nat) (rq : PReq) : Bool :=
  let p := s.objPart sk id
  let asks := match rq.kind with | .note _ | .rel | .watch _ _ | .engine _ => false | _ => true
  asks && decide (p.owner = rq.agent) && decide (s.protKind (s.obj id).pslot p.state = 2)

/-- Present a request to its part: the owner of an exclusive part is served without an event, and receives an exclusive copy (R314). -/
def State.partRequest (s : State) (sk id : Nat) (rq : PReq) : State :=
  let a := match rq.kind with | .atom _ => s.ownOut (coreKey rq.die rq.core) id (rq.pa / 128) | _ => s
  if a.ownsPart sk id rq then a.partFinish sk id 16 rq else a.partEvent sk id (a.reqEvent rq) rq

/-- The first queued request that the part does not stall in its state, with its place in the queue (R316); those of an object under release wait for its
end (R322). -/
def State.partNext (s : State) (sk id : Nat) : Option (Nat × PReq) :=
  let o := s.obj id
  let p := s.objPart sk id
  if o.rel then none
  else ((List.range p.queue.length).find? (fun i =>
    match p.queue[i]? with
    | some rq => s.ownsPart sk id rq || !act (s.protEntry o.pslot p.state (s.reqEvent rq)) 12
    | none => false)).bind (fun i => (p.queue[i]?).map (fun rq => (i, rq)))

/-- Take a queued request out of the queue and present it. -/
def State.partServe (s : State) (sk id i : Nat) (rq : PReq) : State :=
  (s.modObjPart sk id (fun p => { p with queue := p.queue.eraseIdx i })).partRequest sk id rq

/-- A core's object lookaside keeps the objects it has met, 64 of them (R312). -/
def State.meet (s : State) (k id : Nat) : State := s.modCore k (fun c => { c with look := (id :: c.look.filter (fun i => decide (i ≠ id))).take 64 })

/-- The part serves its next queued request, when it is one of those meant. -/
def State.serveIf (s : State) (sk id : Nat) (ok : PReq → Bool) : State :=
  match s.partNext sk id with
  | some (i, rq) => if !ok rq then s else if s.hostFits rq then s.partServe sk id i rq else s.hostLru (rq.pa / 128)
  | none => s

/-- Queue a request at the part of a line. -/
def State.partQueue (s : State) (id : Nat) (rq : PReq) : State :=
  s.modObjPart (homeKey rq.pa) id (fun p => { p with queue := p.queue ++ [rq] })

/-- An access of an agent that keeps no copies to a line of an object: the protocol runs at once, its acknowledgements with it (R310). -/
def State.engineAt (s : State) (id pa die : Nat) (data : Option (List Byte)) : State :=
  let sk := homeKey pa
  let s1 := s.partSettle sk id
  (s1.partEvent sk id (s1.reqEvent ⟨.engine data, 127, die, 0, pa⟩) ⟨.engine data, 127, die, 0, pa⟩).partSettle sk id

/-- Bytes of global memory as an engine reads them at their homes, through a page that is tracked or not (R310, R312). -/
def State.engineRead (s : State) (ctx die : Nat) (trk : Bool) (pa n : Nat) : List Byte × State :=
  match s.objIf trk ctx (pa / 128) with
  | some (id, _) => let s1 := s.engineAt id pa die none; (memReadN s1.mem pa n, s1)
  | none => let s1 := s.recall (pa / 128); (memReadN s1.mem pa n, s1)

/-- Bytes that an engine writes at their homes. -/
def State.engineWrite (s : State) (ctx die : Nat) (trk : Bool) (pa : Nat) (bs : List Byte) : State :=
  match s.objIf trk ctx (pa / 128) with
  | some (id, _) => s.engineAt id pa die (some bs)
  | none => (s.recall (pa / 128)).homeWrite pa bs

/-- A byte that an engine moves, with its page's address of it. -/
abbrev LeafByte := Leaf × Byte

/-- Bytes that an engine writes, sector by sector, those of pages that are not tracked first; of each sector the choice says whether it lands. -/
def State.engineBytes (s : State) (ctx die : Nat) (lands : Nat → Bool) (ps : List LeafByte) : State :=
  [false, true].foldl (fun (a : State) trk =>
    ((runsIn 4 ((ps.filter (fun p => p.1.trk == trk)).map (fun p => (p.1.pa, p.2)))).filter (fun r => lands r.1)).foldl
      (fun (b : State) r => b.engineWrite ctx die trk r.1 r.2) a) s

/-- Release an object at every part (R322): REL is applied, with the acknowledgements that have come; the object goes once every part is in state 0. -/
def State.releaseObject (s : State) (id : Nat) : State :=
  let keys := (s.obj id).homes
  ((keys.foldl (fun (a : State) sk =>
    let b := a.partSettle sk id
    (b.partEvent sk id 8 ⟨.rel, 127, sk / 16, 0, 0⟩).partSettle sk id) { s with objs := fmod s.objs id (fun o => { o with rel := true }) }).finishRelease id)

end Sys2Proof.Machine
end

