-- ==== Sys2Proof/Machine/LockHome.lean ====
section
/-!
DEFINITION. Line locks as their homes keep them (R290 to R308): requests, grants, releases, orphans, time-outs and probes.
-/

namespace Sys2Proof.Machine

/-- The group that a handle names (R290). -/
def State.byGref (s : State) (gr : Nat) : Option (Nat × Nat) :=
  s.teams.findSome? (fun e => ((List.range e.2.groups.length).find? (fun g =>
    match e.2.groups[g]? with | some x => decide (x.gref = gr) | none => false)).map (fun g => (e.1, g)))

/-- The handle of a group. -/
def State.grefOf (s : State) (t g : Nat) : Nat := ((s.group t g).map (·.gref)).getD 0

/-- The lock wait of a handle's group. -/
def State.waitOf (s : State) (gr : Nat) : Option LockWait := (s.byGref gr).bind (fun p => (s.group p.1 p.2).bind (·.lwait))

/-- The waiter is absent (R297). -/
def State.grefAbsent (s : State) (gr : Nat) : Bool := match s.waitOf gr with | some w => w.absent | none => true

/-- A line's entry in its slice's table: its index and contents. -/
def Slice.lockOf (x : Slice) (line : Nat) : Option (Nat × LockEntry) := x.locks.find? (fun e => decide (e.2.line = line))

/-- The lowest free index of the table of 2,048 (R290). -/
def Slice.freeLock (x : Slice) : Option Nat := (List.range 2048).find? (fun i => (fget x.locks i).isNone)

def State.lockEntry (s : State) (line : Nat) : Option LockEntry := ((s.slice (homeKey (128 * line))).lockOf line).map (·.2)

/-- A saturating 16-bit count. -/
def sat16 (n : Nat) : Nat := if n < 65535 then n + 1 else 65535

/-- Replace the entry of a line. -/
def State.setLock (s : State) (line : Nat) (h : LockEntry → LockEntry) : State :=
  s.modSlice (homeKey (128 * line)) (fun x => { x with locks := x.locks.map (fun e => if e.2.line = line then (e.1, h e.2) else e) })

/-- Every other core gives up its copy of a line, its dirty bytes first. -/
def State.expelOthers (s : State) (k line : Nat) : State :=
  (s.cores.map (·.1)).foldl (fun (a : State) j => if j = k || ((a.core j).line line).isNone then a else (a.unpin j line).evictLine j line) s

/-- A core has a line that belongs to no object in exclusive state, where its L1 has room (R295, R298). -/
def State.takeExclusive (s : State) (k line : Nat) : State :=
  ((s.expelOthers k line).fill k line false).modCore k (fun c => match c.line line with | some x => c.setLine { x with excl := true } | none => c)

/-- The object whose protocol takes a lock's line (R312). -/
def State.lockObj (s : State) (t : Team) (line : Nat) (trk : Bool) : Option (Nat × Obj) := s.objIf trk t.ctx line

/-- The line that the holder's core has is pinned there, 512 lines at most (R298). -/
def State.addPin (s : State) (k line : Nat) : State :=
  if ((s.core k).line line).isSome && decide ((s.core k).pins.length < 512) then
    s.modCore k (fun c => { c with pins := line :: c.pins.filter (fun l => decide (l ≠ line)) })
  else s

/-- Pin a granted line in the holder's core, in exclusive state (R298); for a line of an object, LCK is raised first (R314). -/
def State.pin (s : State) (t : Team) (tid g line : Nat) (trk : Bool) : State :=
  let k := t.key
  (match s.lockObj t line trk with
    | some (id, _) =>
      let sk := homeKey (128 * line)
      let rq : PReq := ⟨.lock tid g, agentOf sk t.die t.core, t.die, t.core, 128 * line⟩
      ((s.partSettle sk id).partRequest sk id rq).partSettle sk id
    | none => s.takeExclusive k line).addPin k line

/-- A group's access to a line: a line that it holds is pinned again in its core, and one that it does not hold is recalled from where it is pinned
(R298). -/
def State.meetPin (s : State) (t : Team) (g : Nat) (lf : Leaf) : State :=
  let line := lf.pa / 128
  if ((t.groups[g]?).map (fun x => x.held.contains line)).getD false then
    if !lf.cached || ((s.core t.key).pins.contains line && ((s.core t.key).line line).isSome) then s
    else (if (s.lockObj t line lf.trk).isSome then s else s.takeExclusive t.key line).addPin t.key line
  else s.recall line

/-- Give a result to the lanes of a request: V[D] the status, V[D+1] the locks the group holds (R292). -/
def State.lockResult (s : State) (t g st : Nat) (lanes : List (Nat × Reg × Nat)) : State :=
  let n := (((s.group t g).map (·.held)).getD []).length
  lanes.foldl (fun a l =>
    let ws : List (RName × Word) := [(.v l.2.1, BitVec.ofNat 32 st), (.v (l.2.1 + 1), BitVec.ofNat 32 n)]
    if (a.fibre t g l.1).wait.isSome then
      (a.release t g l.1 l.2.2 ws).modFibre t g l.1 (fun f => { f with order := f.order - 1 })
    else a.laneDone t g l.1 l.2.2 ws) s

/-- A fibre whose instruction was taken as finished waits at it after all: it leaves its bundle there (R297, R198, R330). A fibre that
waits for a commit only changes what it waits for. -/
def State.parkAtHome (s : State) (t g l : Nat) (w : Wait) : State :=
  let j := (((s.group t g).bind (fun x => fget s.bundles x.bundle)).map (fun b => b.idx - 1)).getD 0
  s.modFibre t g l (fun f =>
    if f.wait.isSome then { f with wait := some w } else { f with wait := some w, lclk := f.lclk - 1, leave := .wait j })

/-- End a group's wait with a status (R295, R304, R307); on an SO page a fence follows (R250). -/
def State.endWait (s : State) (t g st : Nat) : State :=
  match (s.group t g).bind (·.lwait) with
  | none => s
  | some w => ((s.modGroup t g (fun x => { x with lwait := none })).lockResult t g st w.fibres).soFence (((s.team t).map Team.key).getD 0) w.page.so

/-- The group becomes the holder of a line that has an entry: the status it receives is given back (R295). -/
def State.takeLock (s : State) (t g line : Nat) (uo : Bool) (page : LockPage) : Nat × State :=
  match s.team t with
  | none => (0, s)
  | some x =>
    let orph := ((s.lockEntry line).map (·.orph)).getD false
    let s1 := s.setLock line (fun e => { e with holder := some (s.grefOf t g), orph := false })
    let s2 := s1.modGroup t g (fun y => { y with held := y.held ++ [line] })
    let s3 := if orph then s2.modPart x.part (fun p => { p with norph := sat16 p.norph }) else s2
    let s4 := if page.noPin then s3 else s3.pin x t g line page.trk
    (if orph then 1 else 0, s4.acquire x.key uo)

/-- A queued waiter takes the lock: its wait ends with the grant's status. -/
def State.grantWaiter (s : State) (gr line : Nat) : State :=
  match s.byGref gr, s.waitOf gr with
  | some (t, g), some w =>
    let s1 := s.setLock line (fun e => { e with queue := e.queue.filter (fun h => decide (h ≠ gr)) })
    let r := s1.takeLock t g line w.uo w.page
    r.2.endWait t g r.1
  | _, _ => s

/-- Whether a request joins a queue ahead of another waiter: only within one deterministic grid, by key (R308). -/
def State.aheadOf (s : State) (gr other : Nat) : Bool :=
  match s.byGref gr, s.byGref other, s.waitOf gr, s.waitOf other with
  | some p, some q, some a, some b =>
    decide ((s.team p.1).map (·.grid) = (s.team q.1).map (·.grid)) && !a.key.isEmpty && !b.key.isEmpty && decide (a.key < b.key)
  | _, _, _, _ => false

/-- Insert a waiter: at the tail, or before the first waiter it goes ahead of. -/
def State.enqueue (s : State) (gr line : Nat) : State :=
  s.setLock line (fun e => { e with queue :=
    match (List.range e.queue.length).find? (fun i => s.aheadOf gr (e.queue.getD i 0)) with
    | some i => e.queue.take i ++ [gr] ++ e.queue.drop i
    | none => e.queue ++ [gr] })

/-- Take an entry at the lowest free index for a line (R290). -/
def State.openLock (s : State) (line : Nat) : State :=
  let sk := homeKey (128 * line)
  match (s.slice sk).freeLock with
  | some i => s.modSlice sk (fun x => { x with locks := fset x.locks i ⟨line, false, none, []⟩ })
  | none => s

/-- A request leaves the overflow FIFO of a slice for the queue of its line. -/
def State.leaveFifo (s : State) (sk gr line : Nat) : State :=
  let a := s.modSlice sk (fun x => { x with fifo := x.fifo.filter (fun q => decide (q.1 ≠ gr)) })
  (match a.byGref gr with
    | some (t, g) => a.modGroup t g (fun y => { y with lwait := y.lwait.map (fun (w : LockWait) => { w with inFifo := false }) })
    | none => a).enqueue gr line

/-- A waiter may be granted a lock now: one of a deterministic grid only in a commit of its grid (R308, R334). -/
def State.grantable (s : State) (gid : Option Nat) (gr : Nat) : Bool :=
  match s.waitOf gr with
  | some w => w.key.isEmpty || (gid.isSome && decide (((s.byGref gr).bind (fun p => s.team p.1)).map (·.grid) = gid))
  | none => true

/-- A present request of the overflow FIFO is decided again, by the last three branches of R295; the later ones for its line join the line's queue
(R306). -/
def State.decideFifo (s : State) (sk gr line : Nat) : State :=
  let later := ((((s.slice sk).fifo.dropWhile (fun q => decide (q.1 ≠ gr))).drop 1).filter (fun q => decide (q.2 = line))).map (·.1)
  let s1 := if (s.lockEntry line).isNone then s.openLock line else s
  let free := match s1.lockEntry line with | some e => e.holder.isNone && e.queue.all s1.grefAbsent && s1.grantable none gr | none => false
  let s2 := s1.leaveFifo sk gr line
  later.foldl (fun (a : State) h => a.leaveFifo sk h line) (if free then s2.grantWaiter gr line else s2)

/-- Give freed entries to requests waiting in the overflow FIFO, the oldest present one first (R306). -/
def State.serveFifo : Nat → Nat → State → State
  | 0, _, s => s
  | n + 1, sk, s =>
    if (s.slice sk).freeLock.isNone then s
    else
      match (s.slice sk).fifo.find? (fun q => !s.grefAbsent q.1) with
      | none => s
      | some (gr, line) => State.serveFifo n sk (s.decideFifo sk gr line)

/-- Free the entry of a line that nothing occupies any more (R290). -/
def State.tidyLock (s : State) (line : Nat) : State :=
  match s.lockEntry line with
  | some e =>
    if e.holder.isNone && e.queue.isEmpty && !e.orph then
      let sk := homeKey (128 * line)
      State.serveFifo 257 sk (s.modSlice sk (fun x => { x with locks := x.locks.filter (fun q => decide (q.2.line ≠ line)) }))
    else s
  | none => s

/-- The lock of a line is free: absent waiters at the head move to the tail, once over, and a present one is granted the lock (R296), in a commit of
some grid or outside one. -/
def State.passLockIn (s : State) (gid : Option Nat) (line : Nat) : State :=
  match s.lockEntry line with
  | none => s
  | some e =>
    let lead := e.queue.takeWhile s.grefAbsent
    let rest := e.queue.dropWhile s.grefAbsent
    match rest with
    | [] => s.tidyLock line
    | h :: more =>
      let s1 := s.setLock line (fun x => { x with queue := h :: more ++ lead })
      if s.grantable gid h then s1.grantWaiter h line else s1

def State.passLock (s : State) (line : Nat) : State := s.passLockIn none line

/-- The deferral of a team's save ends when it holds no lock (R300). -/
def State.endDefer (s : State) (t : Nat) : State := s.modTeam t (fun x => if x.groups.all (fun g => g.held.isEmpty) then { x with defer := none } else x)

/-- The holder gives the lock up: by a release, or orphaned when it dies (R296, R301); a commit of a deterministic grid passes it on at its end
(R308). -/
def State.dropLock (s : State) (t g line : Nat) (orphan : Bool) : State :=
  let k := ((s.team t).map Team.key).getD 0
  let s1 := ((s.modGroup t g (fun x => { x with held := x.held.filter (fun l => decide (l ≠ line)) })).unpin k line).endDefer t
  let s2 := s1.setLock line (fun e => { e with holder := none, orph := e.orph || orphan })
  if !orphan && ((s.team t).map (fun x => x.kern.dx.isSome)).getD false then s2 else s2.passLock line

/-- Locks that stand free with a present waiter pass to it in a commit of a grid (R296, R308). -/
def State.settleLocks (s : State) (gid : Nat) : State :=
  (s.slices.flatMap (fun e => (e.2.locks.filter (fun x => x.2.holder.isNone)).map (fun x => x.2.line))).foldl
    (fun (a : State) line => a.passLockIn (some gid) line) s

/-- Take a waiting group out of its queue or FIFO. -/
def State.leaveQueue (s : State) (t g : Nat) : State :=
  match (s.group t g).bind (·.lwait) with
  | none => s
  | some w =>
    let gr := s.grefOf t g
    let sk := homeKey (128 * w.line)
    let s1 := s.setLock w.line (fun e => { e with queue := e.queue.filter (fun h => decide (h ≠ gr)) })
    s1.modSlice sk (fun x => { x with fifo := x.fifo.filter (fun q => decide (q.1 ≠ gr)) })

/-- Every queued waiter is absent, or of the request's own deterministic grid with a later key (R295, R308). -/
def State.noneAhead (s : State) (t : Nat) (key : List Nat) (queue : List Nat) : Bool :=
  queue.all (fun h => s.grefAbsent h || (match s.byGref h, s.waitOf h with
    | some p, some w => decide ((s.team p.1).map (·.grid) = (s.team t).map (·.grid)) && !key.isEmpty && !w.key.isEmpty && decide (key < w.key)
    | _, _ => false))

/-- A request of a group for a line at its home (R295). -/
def State.lockRequest (s : State) (t g : Nat) (try_ uo : Bool) (line : Nat) (page : LockPage) (timeout : Word) (key : List Nat)
    (lanes : List (Nat × Reg × Nat)) : State :=
  match s.team t, s.group t g with
  | some tm, some x =>
    let sk := homeKey (128 * line)
    let gr := x.gref
    let noLocks := match s.lockObj tm line page.trk with | some (_, o) => !s.protLocks o.pslot | none => false
    let entry := (s.slice sk).lockOf line
    let full := (s.slice sk).freeLock.isNone
    let dl := (s.part tm.part).dlprobe.toNat
    let wait : LockWait :=
      { line := line, uo := uo, page := page, fibres := lanes, absent := false, inFifo := entry.isNone && full,
        left := if timeout = 0xFFFFFFFF#32 then none
                else some (1024 * (if timeout = 0#32 then (if tm.kern.lktmo = 0 then 65536 else tm.kern.lktmo) else timeout.toNat)),
        probe := if dl = 0 then none else some (1024 * dl), every := 1024 * dl, key := key }
    let park (a : State) : State :=
      lanes.foldl (fun b l => b.parkAtHome t g l.1 .lock) (a.modGroup t g (fun y => { y with lwait := some wait }))
    if noLocks then s.lockResult t g 4 lanes
    else if x.held.contains line then s.lockResult t g 6 lanes
    else if (match x.lwait with | some w => decide (w.line ≠ line) | none => false) || decide (8 ≤ x.held.length) then s.lockResult t g 5 lanes
    else if x.lwait.isSome then
      if try_ then s.lockResult t g 2 lanes
      else lanes.foldl (fun b l => b.parkAtHome t g l.1 .lock)
        (s.modGroup t g (fun y => { y with lwait := y.lwait.map (fun (w : LockWait) => { w with fibres := w.fibres ++ lanes }) }))
    else if entry.isNone && full then
      if try_ || decide (256 ≤ (s.slice sk).fifo.length) then
        (s.modPart tm.part (fun p => { p with nfull := sat16 p.nfull })).lockResult t g 7 lanes
      else park ((s.modPart tm.part (fun p => { p with novfl := sat16 p.novfl })).modSlice sk (fun z => { z with fifo := z.fifo ++ [(gr, line)] }))
    else
      let s1 := if entry.isNone then s.openLock line else s
      let e := (s1.lockEntry line).getD ⟨line, false, none, []⟩
      if e.holder.isNone && s1.noneAhead t key e.queue then
        let r := s1.takeLock t g line uo page
        r.2.lockResult t g r.1 lanes
      else if try_ then s1.lockResult t g 2 lanes
      else (park s1).enqueue gr line
  | _, _ => s

/-- A release by a group, once its stores have been performed (R296). -/
def State.unlockRequest (s : State) (t g : Nat) (uo : Bool) (line : Nat) (lanes : List (Nat × Reg × Nat)) : State :=
  match s.team t, s.group t g with
  | some tm, some x =>
    if x.held.contains line then
      (((s.pushAll tm.key uo).pushAny tm.key line).dropLock t g line false).lockResult t g 0 lanes
    else s.lockResult t g 4 lanes
  | _, _ => s

/-- The wait of a group expires (R304). -/
def State.lockExpire (s : State) (t g : Nat) : State :=
  match (s.group t g).bind (·.lwait) with
  | none => s
  | some w => ((s.leaveQueue t g).endWait t g 2).tidyLock w.line

/-- The waits-for walk of a probe: members from g, each with the line it waits on, at most 16 hops (R307). -/
def State.walkWaits (s : State) (goal : Nat) : Nat → Nat → List (Nat × Nat) → Option (List (Nat × Nat))
  | 0, _, _ => none
  | n + 1, line, seen =>
    match (s.lockEntry line).bind (·.holder) with
    | none => none
    | some h =>
      if h = goal then some seen
      else match s.waitOf h with
        | none => none
        | some w => s.walkWaits goal n w.line (seen ++ [(h, w.line)])

/-- A member of a DEADLOCK record: 16 bytes (R361). -/
def State.deadMember (s : State) (ctx : Nat) (m : Nat × Nat) : List Byte :=
  match s.byGref m.1 with
  | some (t, g) =>
    match s.team t with
    | some x =>
      if x.ctx = ctx then leBytes 16 (128 * m.2 + x.clusid * 2 ^ 64 + x.teamid * 2 ^ 96 + g * 2 ^ 104)
      else leBytes 16 (128 * m.2 + 2 ^ 112)
    | none => leBytes 16 (128 * m.2)
  | none => leBytes 16 (128 * m.2)

/-- A waiter's probe runs: when its walk returns to it, it is dequeued with DEADLOCK and the cycle is recorded (R307). -/
def State.lockProbe (s : State) (t g : Nat) : State :=
  match s.team t, (s.group t g).bind (·.lwait) with
  | some x, some w =>
    let gr := s.grefOf t g
    match s.walkWaits gr 16 w.line [(gr, w.line)] with
    | none => s
    | some cyc =>
      let n := cyc.length
      let s1 := s.ctxLog x.ctx 5 (1 + (n + 3) / 4) (x.who g) (leBytes 48 n ++ cyc.flatMap (s.deadMember x.ctx))
      let s2 := s1.modPart x.part (fun p => { p with ndead := sat16 p.ndead })
      ((s2.leaveQueue t g).endWait t g 3).tidyLock w.line
  | _, _ => s

/-- LSTAT of a line for a group (R302). -/
def State.lockStatus (s : State) (t g line : Nat) : Word :=
  match s.group t g with
  | none => 0
  | some x =>
    let e := (s.lockEntry line).getD ⟨line, false, none, []⟩
    let wself := match x.lwait with | some w => decide (w.line = line) | none => false
    let b (c : Bool) (i : Nat) : Nat := if c then 2 ^ i else 0
    BitVec.ofNat 32 (b (x.held.contains line) 31 + b e.holder.isSome 30 + b e.orph 29 + b wself 28 + x.held.length * 65536
      + min e.queue.length 65535)

/-- A present waiter takes at once a lock that stands free with its queue intact (R296). -/
def State.waiterPresent (s : State) (t g : Nat) : State :=
  match (s.group t g).bind (·.lwait) with
  | none => s
  | some w =>
    match s.lockEntry w.line with
    | some e =>
      if w.inFifo then s.decideFifo (homeKey (128 * w.line)) (s.grefOf t g) w.line
      else if e.holder.isNone && w.key.isEmpty then s.grantWaiter (s.grefOf t g) w.line else s
    | none => State.serveFifo 257 (homeKey (128 * w.line)) s

/-! ### Events of one clock (R305, R371) -/

/-- An event of a step reaches a lock too late for the running clock: 0 a change of presence, 1 a release, 2 an expiry, 3 a probe, 4 a request. -/
def State.lockLate (s : State) (line step : Nat) : Bool :=
  (s.slice (homeKey (128 * line))).turns.any (fun e => decide (e.1 = line) && decide (e.2.1 = s.now) && decide (step < e.2.2))

/-- An event of a step reaches a lock. -/
def State.lockTurn (s : State) (line step : Nat) : State :=
  s.modSlice (homeKey (128 * line)) (fun x => { x with turns := (line, s.now, step) :: x.turns.filter (fun e => decide (e.2.1 = s.now) && decide (e.1 ≠ line)) })

/-- The waits whose timeout, or whose probe, is due: team, group and the line; deterministic waits end at commits (R304, R307, R308). -/
def State.dueWaits (s : State) (left : LockWait → Option Nat) : List (Nat × Nat × Nat) :=
  s.teams.flatMap (fun e => (List.range e.2.groups.length).filterMap (fun g =>
    ((e.2.groups[g]?).bind (·.lwait)).bind (fun (w : LockWait) =>
      if !w.absent && w.key.isEmpty && decide (left w = some 0) then some (e.1, g, w.line) else none)))

/-- The place of a waiter's probe among those due: die and slice, entry index, place in the queue; those in an overflow FIFO last (R307). -/
def State.probeKey (s : State) (x : Nat × Nat × Nat) : List Nat :=
  let sk := homeKey (128 * x.2.2)
  match (s.slice sk).lockOf x.2.2 with
  | some (i, e) => [sk, 0, i, e.queue.findIdx (fun h => decide (h = s.grefOf x.1 x.2.1))]
  | none => [sk, 1, (s.slice sk).fifo.findIdx (fun q => decide (q.1 = s.grefOf x.1 x.2.1))]

/-- The probe that runs next of those due. -/
def State.nextProbe (s : State) : Option (Nat × Nat × Nat) :=
  (s.dueWaits (·.probe)).foldl (fun (b : Option (Nat × Nat × Nat)) x => match b with
    | some y => if s.probeKey x < s.probeKey y then some x else b
    | none => some x) none

end Sys2Proof.Machine
end

