-- ==== Sys2Proof/Machine/Faults.lean ====
section
/-!
DEFINITION. Replayable translation misses: fault records on their way to a die's fault queue (R180 to R182).
-/

namespace Sys2Proof.Machine

/-- What a fault record says of a miss (R182). -/
structure Miss where
  va     : Nat
  level  : Nat
  write  : Bool
  exec   : Bool
  sluice : Bool
  core   : Nat
  die    : Nat
  grp    : Nat
deriving DecidableEq, Repr

/-- The bytes of a fault record (R182). -/
def missBytes (c : Ctx) (m : Miss) (tag : Nat) : List Byte :=
  let b (x : Bool) (i : Nat) : Nat := if x then 2 ^ i else 0
  leBytes 32 (m.va % 2 ^ 49 + (tag % 65536) * 2 ^ 64 + (m.core % 256) * 2 ^ 88 + (m.die % 2) * 2 ^ 96 + (m.grp % 256) * 2 ^ 104
    + (c.part % 8) * 2 ^ 112 + b m.write 115 + b m.exec 116 + b m.sluice 117 + (m.level % 4) * 2 ^ 118 + c.id.toNat * 2 ^ 192)

/-- The home die of the context's root table, whose fault queue serves the context (R180). -/
def Ctx.rootDie (c : Ctx) : Nat := homeDie c.root

/-- The fault queue of the context is enabled: its misses can be replayed (R180). -/
def State.fqOn (s : State) (c : Ctx) : Bool := (s.die c.rootDie).fqen

/-- The next tag, passing over those of unanswered records (R181). -/
def Die.freeTag (x : Die) : Nat :=
  let used (n : Nat) : Bool := x.fqwait.any (fun r => decide (r.tag = n)) || x.fqout.any (fun r => decide (r.tag = n))
  (((List.range 65536).map (fun i => (x.nexttag + i) % 65536)).find? (fun n => !used n)).getD x.nexttag

/-- Hand a miss to the fault queue: it takes the next tag, and is written to the ring in order as room appears (R181). -/
def State.askFault (s : State) (c : Ctx) (who : FaultFor) (m : Miss) : Nat × State :=
  let d := c.rootDie
  let tag := (s.die d).freeTag
  (tag, s.modDie d (fun x => { x with nexttag := (tag + 1) % 65536, fqwait := x.fqwait ++ [⟨tag, who, missBytes c m tag⟩] }))

end Sys2Proof.Machine
end

