-- ==== Sys2Proof/Machine/Kill.lean ====
section
/-!
DEFINITION. The death of a context (R362), as one step.
-/

namespace Sys2Proof.Machine

/-- Mark the blocks of a team's run as being cleared (R68). -/
def State.clearRun (s : State) (k run0 n : Nat) : State :=
  s.modCore k (fun c => { c with blocks := (List.range n).foldl (fun b i => fset b (run0 + i) .clearing) c.blocks })

/-- The fibres of a core that wait for its engine go on (R202). -/
def State.wakeEngine (s : State) (k : Nat) : State :=
  s.teams.foldl (fun (a : State) e =>
    if e.2.key = k then
      (List.range e.2.groups.length).foldl (fun (b : State) g =>
        b.modGroup e.1 g (fun x =>
          Group.settleWaits { x with fibres := x.fibres.map (fun f => if f.wait = some .engine then { f with wait := none } else f) } (b.coreNow e.1))) a
    else a) s

/-- Free the matrix engine of a core: both banks zeroed in float mode, queue, subscriptions and chain data gone (R202). -/
def State.freeEngine (s : State) (k : Nat) : State :=
  (s.modCore k (fun c => { c with eng := { Engine.reset with reserved := c.eng.reserved } })).wakeEngine k

/-- Remove a team's monitors (R285, R289). -/
def State.dropMonitors (s : State) (tid : Nat) : State :=
  { s with slices := s.slices.map (fun (e : Nat × Slice) => (e.1, { e.2 with mons := e.2.mons.filter (fun m => decide (m.team ≠ tid)) })) }

/-- The groups of a team wait for no lock any more (R301). -/
def State.leaveLocks (s : State) (tid : Nat) : State :=
  match s.team tid with
  | none => s
  | some t => (List.range t.groups.length).foldl (fun (a : State) g =>
      match (a.group tid g).bind (·.lwait) with
      | some w => ((a.leaveQueue tid g).modGroup tid g (fun x => { x with lwait := none })).tidyLock w.line
      | none => a) s

/-- Orphan the locks that a team's groups hold; they wait for none (R301). `leak` writes the LOCKLEAK records of a retirement. -/
def State.orphanLocks (s : State) (tid : Nat) (leak : Bool) : State :=
  match s.team tid with
  | none => s
  | some t =>
    (List.range t.groups.length).foldl (fun b g =>
      (((b.group tid g).map (·.held)).getD []).foldl (fun (c : State) line =>
        let d := if leak then c.ctxLog t.ctx 4 1 (t.who g) (leBytes 8 (128 * line)) else c
        d.dropLock tid g line true) b) (s.leaveLocks tid)

/-- The engine of a core is reserved for a team no longer: fibres that wait for it go on (R202). -/
def State.unreserve (s : State) (k id : Nat) : State :=
  if (s.core k).eng.reserved = some id then (s.modCore k (fun c => { c with eng := { c.eng with reserved := none } })).wakeEngine k else s

/-- Nothing is kept any longer for a task or a saved team that waits for room: reclaimed blocks are free, and a reserved engine is not. -/
def State.unclaim (s : State) (id : Nat) : State :=
  (s.cores.map (·.1)).foldl (fun (a : State) k => a.unreserve k id)
    { s with cores := s.cores.map (fun (e : Nat × Core) => (e.1, { e.2 with
        blocks := e.2.blocks.filter (fun b => match b.2 with | .reclaim i _ => decide (i ≠ id) | _ => true) })) }

/-- A request at a part is a team's. -/
def State.ofTeam (s : State) (tid : Nat) (rq : PReq) : Bool := decide ((s.reqTeam rq.kind).map (·.1) = some tid)

/-- Stop a team with no drain (R362): its operations, requests, bundles, copies and engine work are abandoned. -/
def State.stopTeam (s : State) (tid : Nat) : State :=
  match s.team tid with
  | none => s
  | some t =>
    let k := t.key
    let resident := match t.status with | .saved .. => false | .retired => false | _ => true
    let s1 := (s.orphanLocks tid false).dropMonitors tid
    let s2 := { s1 with
      ops := s1.ops.filter (fun e => decide (e.2.team ≠ tid)),
      reqs := s1.reqs.filter (fun e => decide (e.2.team ≠ tid)),
      bundles := s1.bundles.filter (fun e => decide (e.2.team ≠ tid)),
      slices := s1.slices.map (fun (e : Nat × Slice) => (e.1, { e.2 with parts := e.2.parts.map (fun (p : Nat × ObjPart) => (p.1, { p.2 with
        queue := p.2.queue.filter (fun rq => !s1.ofTeam tid rq), second := p.2.second.map (fun (e : BitVec 32 × PReq) => if s1.ofTeam tid e.2 then (e.1, { e.2 with kind := .note 10 }) else e) })) })) }
    let s3 := s2.modCore k (fun c => { c with copies := c.copies.filter (fun e => decide (e.2.team ≠ tid)) })
    let s4 := if (s3.core k).eng.holder = some (.team tid) then s3.freeEngine k else s3
    let s5 := if resident then s4.clearRun k t.run0 (t.nsys + t.kern.vbanks) else s4
    (s5.unclaim tid).modTeam tid (fun x => { x with status := .retired, groups := [] })

/-- The completion interrupts of the tasks that the word covers (R241). -/
def State.settleIrqs (s : State) (q : Nat) : State :=
  let x := s.queue q
  let due := x.irqs.filter (fun n => n.ule x.word)
  due.foldl (fun (a : State) _ => a.irq 1 (q / 128) q) (s.setQueue q { x with irqs := x.irqs.filter (fun n => !n.ule x.word) })

/-- The completion word stands written (R241). -/
def State.wordWritten (s : State) (q : Nat) (bs : List Byte) : State :=
  (s.modQueue q (fun x => { x with word := BitVec.ofNat 64 (leNat bs) })).settleIrqs q

/-- The parts of a run of virtual addresses that lie in one line. -/
def linePieces (va n : Nat) : List (Nat × Nat) :=
  (linesOf va n).map (fun l => (max va (128 * l), min (va + n) (128 * (l + 1)) - max va (128 * l)))

/-- A run of bytes of one page: its address, its length, and whether the page is tracked. -/
structure Span where
  pa  : Nat
  n   : Nat
  trk : Bool
deriving DecidableEq, Repr

/-- Where a run of virtual addresses lies, or the address that fails and why. -/
def State.xlateRun (s : State) (key : Option Nat) (die : Nat) (c : Ctx) (va n : Nat) (acc : Acc) : Except (Nat × XErr) (List Span) :=
  (linePieces va n).foldl (fun (r : Except (Nat × XErr) (List Span)) p =>
    match r with
    | .error e => .error e
    | .ok ps =>
      if 0x2000000000000 < p.1 + p.2 then .error (p.1, .malformed)
      else match s.translate key die c p.1 acc with
        | .ok lf => .ok (ps ++ [⟨lf.pa, p.2, lf.trk⟩])
        | .error e => .error (p.1, e)) (.ok [])

/-- Read some runs of physical addresses as an engine. -/
def State.readRuns (s : State) (ctx die : Nat) (ps : List Span) : List Byte × State :=
  ps.foldl (fun (r : List Byte × State) p => let q := r.2.engineRead ctx die p.trk p.pa p.n; (r.1 ++ q.1, q.2)) ([], s)

/-- Write bytes to some runs of physical addresses as an engine. -/
def State.writeRuns (s : State) (ctx die : Nat) (ps : List Span) (bs : List Byte) : State :=
  (ps.foldl (fun (r : State × List Byte) p => (r.1.engineWrite ctx die p.trk p.pa (r.2.take p.n), r.2.drop p.n)) (s, bs)).1

/-- The context of a queue's block: as it came into use, or as the block stands. -/
def State.queueCtx (s : State) (q : Nat) : Ctx :=
  let k := (s.queue q).qctx.toNat
  match fget s.ctxs k with
  | some c => c
  | none => ⟨0, false, memNat s.mem k 8, (s.queue q).part, 0, 6, 0, 6, 0, 0, none, [], []⟩

/-- The TLB keeps the entries that a run of virtual addresses used (R178). -/
def State.fillRun (s : State) (key : Option Nat) (die : Nat) (c : Ctx) (va n : Nat) (acc : Acc) : State :=
  (linePieces va n).foldl (fun (a : State) p => a.fillTlb key die c p.1 acc) s

/-- Bytes that a queue owes at QCOMPA wait, for the answer to a fault record or, with none, for the host (R241, R326). -/
def Queue.owes (x : Queue) (tag : Option Nat) (off : Nat) (bs : List Byte) : Queue :=
  { x with pend := x.pend.filter (fun e => decide (e.1 ≠ off)) ++ [(off, bs)], wordTag := tag }

/-- A queue's write at QCOMPA is not made (R241). -/
def State.wordLost (s : State) (q : Nat) : State :=
  (s.modQueue q (fun x => { x with pend := [], wordTag := none, qerr := 12, en := false, held := true })).irq 2 (q / 128) q

/-- Perform, or let wait, the writes at a queue's QCOMPA (R241): through the translation of the queue's context, every byte or none, a line
that the host holds once it has answered (R326). -/
def State.queueWrite (s : State) (q : Nat) (off : Nat) (bs : List Byte) : State :=
  let x := s.queue q
  let die := q / 128
  let c := s.queueCtx q
  let va := x.qcompa.toNat + off
  if !x.pend.isEmpty then s.setQueue q (x.owes x.wordTag off bs)
  else
    match s.xlateRun none die c va bs.length .write with
    | .ok ps =>
      (match s.engineSnoops (ps.map (·.pa)) true with
      | some a => a.modQueue q (fun y => y.owes none off bs)
      | none =>
        let t := (s.fillRun none die c va bs.length .write).writeRuns x.qctx.toNat die ps bs
        if off = 0 then t.wordWritten q bs else t)
    | .error (a, .miss lv) =>
      if s.fqOn c then
        let r := s.askFault c (.word q) ⟨a, lv, true, false, true, 0xFF, die, 0⟩
        r.2.modQueue q (fun y => y.owes (some r.1) off bs)
      else s.wordLost q
    | .error _ => s.wordLost q

/-- The writes that waited at a queue's QCOMPA are made again (R241). -/
def State.retryWord (s : State) (q : Nat) : State :=
  let x := s.queue q
  x.pend.foldl (fun (a : State) p => a.queueWrite q p.1 p.2) (s.setQueue q { x with pend := [], wordTag := none })

/-- The error record of a queue, and its interrupt (R242). -/
def State.errorRecord (s : State) (q addr code : Nat) (seq : DWord) : State :=
  (s.queueWrite q 8 (leBytes 8 addr ++ leBytes 8 code ++ leBytes 8 seq.toNat)).irq 2 (q / 128) q

/-- A sequence number of a queue will never be covered (R240, R242). -/
def Queue.strand (x : Queue) (n : DWord) : Queue := { x with stuck := some (match x.stuck with | some m => if m.ult n then m else n | none => n) }

/-- Discard some tasks: their numbers are never covered, and blocks being reclaimed for them are free again (R242). -/
def State.discard (s : State) (ids : List Nat) : State :=
  let gone (id : Nat) : Bool := ids.contains id
  let s1 := (s.tasks.filter (fun e => gone e.1)).foldl (fun (a : State) e => (a.modQueue e.2.queue (fun q => q.strand e.2.seq)).unclaim e.1) s
  { s1 with tasks := s1.tasks.filter (fun e => !gone e.1) }

/-- A DRAIN whose started tasks have all retired or faulted ends: every tile of the partition is EMPTY (R242). -/
def State.settleDrain (s : State) (p : Nat) : State :=
  if (s.part p).drain && !(s.tasks.any (fun e => decide (e.2.part = p) && decide (e.2.state = .started))) then
    (s.discard ((s.tasks.filter (fun e => decide (e.2.part = p) && decide (e.2.state = .faulted))).map (·.1))).modPart p
      (fun x => { x with drain := false, tiles := [] })
  else s

/-- A task of a context is outstanding: entered and neither retired nor faulted. -/
def Task.outstanding (x : Task) : Bool := decide (x.state ≠ .faulted)

/-- A context block goes out of use when no enabled queue names it and no task of the context is outstanding (R351). A queue whose walker has
still to finish the record it was reading when EN was written 0 counts as enabled (R46; log 44). The context has ended, its streams close (R227),
and its objects are released (R314). -/
def State.tidyCtx (s : State) (k : Nat) : State :=
  if (List.range 256).any (fun q => let x := s.queue q; decide (x.qctx.toNat = k) && (x.en || x.last.isSome)) ||
      s.tasks.any (fun e => decide (e.2.ctx = k) && e.2.outstanding) then s
  else
    let a : State := { s with
      ctxs := fdel s.ctxs k,
      dies := s.dies.map (fun (e : Nat × Die) => (e.1, { e.2 with streams := e.2.streams.filter (fun x => decide (x.2.ctx ≠ k)) })) }
    (a.objs.filter (fun (e : Nat × Obj) => e.2.v && decide (e.2.ctx = k) && !e.2.rel)).foldl (fun (b : State) e => b.releaseObject e.1) a

/-- Writes at QCOMPA that waited for the host are made (R241, R326). -/
def State.retryWords (s : State) : State :=
  (s.queues.map (·.1)).foldl (fun (a : State) q =>
    let x := a.queue q
    if !x.pend.isEmpty && x.wordTag.isNone then (a.retryWord q).tidyCtx x.qctx.toNat else a) s

/-- A running task takes the path of a task fault (R240, R242): its queue stops and it never retires. -/
def State.failTask (s : State) (id : Nat) : State :=
  match fget s.tasks id with
  | none => s
  | some x =>
    let s1 := match x.core with
      | some k =>
        let a := if (s.core k).eng.holder = some (Holder.task id) then s.freeEngine k else s
        let b := match x.run with | some (r0, n) => a.clearRun k r0 n | none => a
        b
      | none => s
    let s2 := { s1 with tasks := fmod s1.tasks id (fun y => { y with state := .faulted, core := none, run := none, paused := none }) }
    ((s2.modQueue x.queue (fun q => { q with qerr := 10, en := false, held := true })).errorRecord x.queue x.addr 10 x.seq).settleDrain x.part

/-- A task fault; the task's context may go out of use with it. -/
def State.faultTask (s : State) (id : Nat) : State :=
  match fget s.tasks id with
  | none => s
  | some x => (s.failTask id).tidyCtx x.ctx

/-- Kill a context (R362). -/
def State.killContext (s : State) (r : KillReq) : State :=
  match fget s.ctxs r.ctx with
  | none => s
  | some c =>
    if c.killed.isSome then s
    else
      let s0 := { s with ctxs := fset s.ctxs r.ctx { c with killed := some r.code, saves := [] } }
      let tids := (s0.teams.filter (fun e => decide (e.2.ctx = r.ctx) && decide (e.2.status ≠ .retired))).map (·.1)
      let s1 := tids.foldl (fun a t => a.stopTeam t) (tids.foldl (fun a t => a.leaveLocks t) s0)
      let s2 := { s1 with
        clusters := s1.clusters.filter (fun x => !(s1.grids.any (fun g => decide (g.1 = x.grid) && decide (g.2.ctx = r.ctx)))),
        dies := s1.dies.map (fun (e : Nat × Die) => (e.1, { e.2 with
          streams := e.2.streams.filter (fun x => decide (x.2.ctx ≠ r.ctx)),
          colls := e.2.colls.filter (fun x => decide (x.ctx ≠ r.ctx)) })) }
      let s3 := (s2.objs.filter (fun (e : Nat × Obj) => e.2.v && decide (e.2.ctx = r.ctx))).foldl (fun (a : State) e => a.releaseObject e.1) s2
      let s4 := (s3.tasks.filter (fun (e : Nat × Task) => decide (e.2.ctx = r.ctx) && decide (e.2.state = .started))).foldl (fun (a : State) e => a.failTask e.1) s3
      let s5 := (List.range 256).foldl (fun (a : State) q =>
        let x := a.queue q
        if x.en && decide (x.qctx.toNat = r.ctx) then a.setQueue q { x with en := false, qerr := 10 } else a) s4
      let s51 := (s5.tasks.filter (fun e => decide (e.2.ctx = r.ctx))).foldl (fun (a : State) e => a.unclaim e.1) s5
      let s6 := { s51 with grids := s51.grids.filter (fun e => decide (e.2.ctx ≠ r.ctx)) }
      let s7 := if r.code = 12 then s6 else s6.ctxLog r.ctx r.code 1 r.who r.data
      let s8 := s7.ctxLog r.ctx 11 1 r.who [BitVec.ofNat 8 r.code]
      ((s8.setCtxWord r.ctx 84 r.code).irq 5 r.who.die c.id.toNat).tidyCtx r.ctx

/-- Apply the kills decided in the running step. -/
def State.runKills (s : State) : State :=
  if s.kills.isEmpty then s
  else
    let t := s.kills.foldl (fun a r => a.killContext r) s
    { t with kills := [] }

end Sys2Proof.Machine
end

