-- ==== Sys2Proof/Machine/Ops.lean ====
section
/-!
DEFINITION. The shared operations of native instructions: who performs one, its checks, taking a precise trap and returning from one,
waiting, sleeping on a miss, results in flight, and resolving memory operands (chapters 5, 6, 9 and 17).
-/

namespace Sys2Proof.Machine

/-! ### Who performs an instruction (R79, R104) -/

/-- An instruction being performed: its team, place, word, and fibres as (group, lane), groups ascending, then lanes. -/
structure Who where
  bundle : Nat
  team   : Nat
  clause : VAddr
  idx    : Nat
  count  : Nat
  pos    : Nat
  cls    : Nat
  word   : DWord
  active : List (Nat × Nat)
  perf   : List (Nat × Nat)
  /-- operations already open for its groups: those of a synchronising instruction performed at a commit (R334) -/
  ops    : List (Nat × Nat)
deriving DecidableEq, Repr

/-- The clause that follows (R73). -/
def Who.after (w : Who) : VAddr := w.clause + BitVec.ofNat 49 (8 * (w.count + 2))

/-- Insert a group's lanes in ascending group order. -/
def insertMember (m : Nat × Lanes) : List (Nat × Lanes) → List (Nat × Lanes)
  | [] => [m]
  | x :: xs => if m.1 < x.1 then m :: x :: xs else x :: insertMember m xs

/-- The fibres still in a bundle, groups ascending (R105). -/
def State.activeOf (s : State) (b : Bundle) : List (Nat × Nat) :=
  (b.members.foldr insertMember []).flatMap (fun m =>
    ((lanesOf m.2).filter (fun l => decide ((s.fibre b.team m.1 l).leave = .run))).map (fun l => (m.1, l)))

/-- The instruction at hand: the bundle in focus, before its control bits are judged. -/
def State.who (s : State) : Option Who :=
  match s.focus with
  | none => none
  | some i =>
    match fget s.bundles i with
    | none => none
    | some b =>
      let a := s.activeOf b
      some { bundle := i, team := b.team, clause := b.pc, idx := b.idx, count := b.words.length - 1, pos := b.pos, cls := b.cls,
             word := b.words.getD b.idx 0, active := a, perf := a, ops := [] }

/-- The fibre performs an instruction with these control bits (R79). The predicate is read as R90 reads it, with the checking scoreboard on as well:
which value of an undersized or uncovered predicate decides there who performs, and so takes STALLCHK, the spec does not say (log 45). -/
def Fibre.performs (f : Fibre) (pos : Nat) (c : Ctl) : Bool := f.getP pos c.pidx != c.pneg

/-- The groups of some fibres, ascending, each once. -/
def groupsOf (ls : List (Nat × Nat)) : List Nat := (ls.map (·.1)).eraseDups

/-- The lanes of a group among some fibres. -/
def lanesIn (ls : List (Nat × Nat)) (g : Nat) : List Nat := (ls.filter (fun x => decide (x.1 = g))).map (·.2)

/-- The leader: the performing fibre with the lowest home lane in the bundle (R193). -/
def Who.leader (w : Who) : Option (Nat × Nat) :=
  w.perf.foldl (fun (m : Option (Nat × Nat)) x => match m with | none => some x | some y => if x.2 < y.2 then some x else some y) none

/-! ### Precise traps (R353 to R357) -/

/-- A precise trap: its cause, reason and failing address. -/
structure Trap where
  cause  : Nat
  reason : Nat
  taddr  : DWord
deriving DecidableEq, Repr

def Trap.illegal : Trap := ⟨1, 0, 0⟩
def Trap.unimpl : Trap := ⟨2, 0, 0⟩
def Trap.malformed : Trap := ⟨3, 0, 0⟩
def Trap.window : Trap := ⟨4, 0, 0⟩
def Trap.stallchk : Trap := ⟨5, 0, 0⟩
def Trap.dispatch : Trap := ⟨6, 0, 0⟩
def Trap.cflow (reason : Nat) : Trap := ⟨7, reason, 0⟩
def Trap.misaligned (a : DWord) : Trap := ⟨8, 0, a⟩
def Trap.access (reason : Nat) (a : DWord) : Trap := ⟨9, reason, a⟩
def Trap.mismatch : Trap := ⟨10, 0, 0⟩
def Trap.bkpt : Trap := ⟨11, 0, 0⟩
def Trap.soft : Trap := ⟨12, 0, 0⟩

/-- TPC: the clause address and the instruction index (R355). -/
def tpcOf (clause : VAddr) (idx : Nat) : DWord := clause.setWidth 64 ||| (BitVec.ofNat 64 (idx % 16) <<< 52)

/-- The predicate word as SRD reads it, P7 among them (R8, R144). -/
def Fibre.pwWord (f : Fibre) : Word := f.pw.setWidth 32 ||| 0x80

/-- The frame that a trap writes (R354, R355). -/
def Fibre.frameFor (f : Fibre) (clause : VAddr) (idx count : Nat) (inst : DWord) (tr : Trap) : Frame :=
  { tpc := tpcOf clause idx, tinst := inst, tcause := BitVec.ofNat 32 (tr.cause + 256 * tr.reason), pw := f.pwWord, taddr := tr.taddr,
    v := (List.range 8).map (fun i => f.reg (BitVec.ofNat 8 i)), count := count }

/-- The 128 bytes of a frame (R355). -/
def Frame.bytes (f : Frame) : List Byte :=
  leBytes 8 f.tpc.toNat ++ leBytes 8 f.tinst.toNat ++ leBytes 4 f.tcause.toNat ++ leBytes 4 f.pw.toNat ++ leBytes 8 f.taddr.toNat
    ++ f.v.flatMap (fun w => leBytes 4 w.toNat) ++ List.replicate 64 0

/-- The handler clause of a team (R13, R354). -/
def Team.tbase (t : Team) : Option VAddr := t.kern.trapoff.map (fun o => BitVec.ofNat 49 (t.kern.text + o))

/-- Take a lane out of the paths of its group. -/
def Group.dropLane (g : Group) (l : Nat) : Group :=
  { g with paths := (g.paths.map (fun p => { p with lanes := p.lanes &&& ~~~((1 : BitVec 32) <<< l) })).filter (fun p => decide (p.lanes ≠ 0)) }

/-- A fibre that is in no bundle goes to a place at once: it forms a path at the head of the list (R99). -/
def State.placeNow (s : State) (t g l : Nat) (pc : VAddr) (idx : Nat) (kind : PathKind) (front : Bool) : State :=
  let d := (s.fibre t g l).depth
  s.modGroup t g (fun x =>
    let y := x.dropLane l
    let mate := y.paths.findIdx? (fun p => decide (p.pc = pc) && decide (p.idx = idx) && decide (p.depth = d) && decide (p.kind = kind))
    match mate with
    | some i => { y with paths := y.paths.modify i (fun p => { p with lanes := p.lanes ||| ((1 : BitVec 32) <<< l) }) }
    | none =>
      let p : Path := ⟨pc, idx, d, (1 : BitVec 32) <<< l, kind⟩
      { y with paths := if front then p :: y.paths else y.paths ++ [p], timer := if front then 0 else y.timer, readyAt := if front then s.coreNow t else y.readyAt })

/-- An operation hands nothing more to a lane that does not finish its instruction. -/
def State.dropOp (s : State) (w : Who) (g l : Nat) : State :=
  match w.ops.find? (fun e => decide (e.1 = g)) with
  | some e => s.opLane e.2 l []
  | none => s

/-- TAKING A PRECISE TRAP (R354): the frame and the trap registers are written; with no handler, or inside one, the context is killed;
else the handler is entered in the trap path. -/
def State.takeTrap (s : State) (w : Who) (inst : DWord) (g l : Nat) (tr : Trap) : State :=
  match s.team w.team with
  | none => s
  | some t =>
    let f := s.fibre w.team g l
    let fr := f.frameFor w.clause w.idx w.count inst tr
    let a := (t.run0 * 32768) + (g * 32 + l) * 128
    let s1 := ((s.dropOp w g l).vaultWrite t.key a fr.bytes).modFibre w.team g l (fun x => { x with frame := fr })
    let dead (code : Nat) : State :=
      (s1.modFibre w.team g l (fun x => { x with leave := .trap })).askKill
        ⟨t.ctx, code, t.who g, leBytes 8 fr.tpc.toNat ++ leBytes 8 fr.tinst.toNat ++ leBytes 8 fr.tcause.toNat ++ leBytes 8 fr.taddr.toNat⟩
    match t.tbase with
    | none => dead 1
    | some tb =>
      if f.h then dead 2
      else
        let s2 := s1.modFibre w.team g l (fun x => { x with h := true, d0 := x.depth, n0 := x.nest, leave := .trap })
        if f.wait.isSome then
          (s2.modFibre w.team g l (fun x => { x with wait := none, leave := .run })).placeNow w.team g l tb 0 .ready true
        else s2

/-- Several fibres take a trap. -/
def State.trapAll (s : State) (w : Who) (tr : Trap) (ls : List (Nat × Nat)) : State :=
  ls.foldl (fun a x => a.takeTrap w w.word x.1 x.2 tr) s

/-- RETURN FROM A TRAP (R357): V0 to V7 and PW come back from the frame but where they are kept, the handler's levels and calls are
discarded, and the fibre goes to the place given. -/
def Fibre.trapReturn (f : Fibre) (keep : BitVec 8) (keepPw : Bool) (pc : VAddr) (idx : Nat) : Fibre :=
  let regs := (List.range 8).foldl (fun (r : List Word) n => if keep.getLsbD n then r else r.set n (f.frame.v.getD n 0)) f.regs
  { f with regs := regs, pw := if keepPw then f.pw else f.frame.pw.setWidth 7, depth := f.d0, nest := f.n0,
           stack := f.stack.take f.d0, loops := f.loops.take f.n0, h := false, leave := .resume pc idx, wlog := [],
           pend := f.pend.filter (fun e => match e.1 with
             | .v r => keep.getLsbD r.toNat || decide (8 ≤ r.toNat)
             | .p _ => keepPw) }

/-! ### The checks of R83 -/

/-- The checking scoreboard is on (R89). -/
def Team.scoreboard (t : Team) : Bool := t.kern.sbchk || t.kern.dx.isSome

/-- The window, scoreboard and emulation checks of one performing fibre (R83, steps 2 to 4). -/
def laneCheck (i : Instr) (c : Ctl) (t : Team) (f : Fibre) (pos : Nat) : Option Trap :=
  let rs := i.reads
  let ws := i.writes
  if rs.any (RName.outside t.kern.win) || ws.any (RName.outside t.kern.win) then some .window
  else if t.scoreboard && ((pg c.pidx ++ rs).any (f.undersized pos) ||
      (pg c.pidx ++ rs ++ ws).any (fun x => f.uncov.any (fun u => decide (u.1 = x)))) then some .stallchk
  else if i.emulated then some .unimpl
  else none

/-- A LOOP whose END does not lie past its START (R119). -/
def loopBad (i : Instr) (w : Who) : Bool :=
  match i with
  | .loop _ off _ => decide ((w.clause + (off.signExtend 49 <<< 3)).toNat ≤ w.after.toNat)
  | _ => false

/-- The ILLEGAL checks that concern the whole bundle (R83, step 1). -/
def State.illegal (s : State) (i : Instr) (w : Who) : Bool :=
  !i.wellFormed || (match i.cls with | some k => decide (k.code ≠ w.cls) | none => false) ||
  (i.privileged && !(match s.team w.team with | some t => (s.ctxOf t).priv | none => false)) || loopBad i w

/-- The counter of a group. -/
def Group.counter (g : Group) (n : Nat) : Nat := g.sb.getD n 0

/-- The instruction waits to issue: nothing of it is performed (R87, R203). -/
def State.hold (s : State) (w : Who) : State := s.modBundle w.bundle (fun b => { b with stall := true })

/-- The bundle has just been held. -/
def State.isHeld (s : State) (w : Who) : Bool := ((fget s.bundles w.bundle).map (·.stall)).getD false

/-- A fibre has finished the instruction: it is still in the bundle, or left it by its own transfer (R330). -/
def Leave.finished : Leave → Bool
  | .run | .goto _ _ | .resume _ _ | .exit | .past _ => true
  | _ => false

/-- The logical clocks of the fibres that finished the instruction rise by 1 (R330). -/
def State.countClocks (s : State) (w : Who) : State :=
  w.active.foldl (fun a x => a.modFibre w.team x.1 x.2 (fun f => if f.leave.finished then { f with lclk := f.lclk + 1 } else f)) s

/-- A group whose counter stands at 63 has no room for another operation under it (R87). -/
def Team.noRoom (t : Team) (n : Nat) (g : Nat) : Bool := match t.groups[g]? with | some x => decide (63 ≤ x.counter n) | none => false

/-- The verdict of the checks on a performing fibre. -/
def State.verdict (s : State) (i : Instr) (c : Ctl) (t : Team) (w : Who) (x : Nat × Nat) : Option Trap :=
  laneCheck i c t (s.fibre w.team x.1 x.2) w.pos

/-- Take the traps of a verdict. -/
def State.trapIf (s : State) (w : Who) (x : (Nat × Nat) × Option Trap) : State :=
  match x.2 with
  | some tr => s.takeTrap w w.word x.1.1 x.1.2 tr
  | none => s

/-- The instruction at hand with the fibres that perform it. -/
def Who.by (w : Who) (perf : List (Nat × Nat)) : Who := { w with perf := perf }

/-- The fibres of a bundle that perform an instruction with these control bits (R79). -/
def State.performers (s : State) (w : Who) (c : Ctl) : List (Nat × Nat) :=
  w.active.filter (fun x => (s.fibre w.team x.1 x.2).performs w.pos c)

/-- What an instruction of a context comes to: a kill of the context that it brings about is applied first, and nothing else of it has an effect
(R362). -/
def State.endNative (s0 : State) (ctx : Nat) (r : State) : State :=
  if r.kills.any (fun k => decide (k.ctx = ctx)) then { s0 with kills := r.kills }.runKills else r.runKills

/-- Perform a native instruction: the bundle in focus performs it, or none does (R79, R83). A fibre that fails a check takes its trap;
the others go on to the instruction's own meaning. -/
def native (i : Instr) (s : State) (body : Who → State → State) : Host.Outcome State Fault Refusal :=
  match s.who, i.ctl with
  | some w, some c =>
    match s.team w.team with
    | none => .next s
    | some t =>
      let perf := s.performers w c
      if c.counted && (groupsOf perf).any (t.noRoom c.sbi.toNat) then .next (s.hold w)
      else if s.illegal i w then .next (s.endNative t.ctx ((s.trapAll w .illegal perf).countClocks w))
      else
        let judged := perf.map (fun x => (x, s.verdict i c t w x))
        let s1 := judged.foldl (fun a x => a.trapIf w x) s
        let good := (judged.filter (fun x => x.2.isNone)).map (·.1)
        let s2 := if good.isEmpty then s1 else body (w.by good) s1
        .next (s.endNative t.ctx (if s2.isHeld w then s2 else s2.countClocks w))
  | _, _ => .next s

/-- Perform an event of the part: one that has lost its power does nothing (R397). -/
def event (s : State) (body : State → State) : Host.Outcome State Fault Refusal :=
  if s.tripped then .next s else .next (body s).runKills

/-! ### Register-only instructions -/

/-- What a register-only instruction does for one fibre: its results and the arithmetic events it logs, or a trap. -/
inductive AluRes
  | ok (ws : List (RName × Word)) (events : List Nat)
  | trap (t : Trap)
deriving DecidableEq, Repr

/-- Perform a register-only instruction of fixed latency for one fibre (R84, R85). -/
def State.aluLane (i : Instr) (h : Fibre → Nat → AluRes) (w : Who) (s : State) (x : Nat × Nat) : State :=
  match h (s.fibre w.team x.1 x.2) w.pos with
  | .ok ws ev => (s.modFibre w.team x.1 x.2 (fun f => f.writeAll w.pos i.latency ws)).logEvents w.team x.1 w.clause ev
  | .trap tr => s.takeTrap w w.word x.1 x.2 tr

/-- The same, for every performing fibre. -/
def aluBody (i : Instr) (h : Fibre → Nat → AluRes) (w : Who) (s : State) : State := w.perf.foldl (State.aluLane i h w) s

def alu (i : Instr) (s : State) (h : Fibre → Nat → AluRes) : Host.Outcome State Fault Refusal := native i s (aluBody i h)

/-! ### Results in flight (R87, R88) -/

/-- Open the operation of each group whose fibres perform the instruction: its counter goes up, and its results are announced. The
operation of each group is given back. -/
def State.openOps (s : State) (i : Instr) (w : Who) (perf : List (Nat × Nat)) : List (Nat × Nat) × State :=
  let sb := match i.ctl with | some c => c.sbi.toNat | none => 0
  (groupsOf perf).foldl (fun (r : List (Nat × Nat) × State) g =>
    let q := r.2.fresh
    let ls := lanesIn perf g
    let s1 := { q.2 with ops := fset q.2.ops q.1 ⟨w.team, g, sb, ls, ls, [], none, []⟩ }
    let s2 := s1.modGroup w.team g (fun x => { x with
      sb := x.sb.modify sb (fun n => if sb = 0 then n else n + 1),
      fibres := (List.range x.fibres.length).map (fun l =>
        let f := x.fibres.getD l Fibre.reset
        if ls.contains l then
          let f1 := f.announce w.pos q.1 sb i.writes
          if sb = 0 then f1 else { f1 with busy := f1.busy + 1 }
        else f) })
    (r.1 ++ [(g, q.1)], s2)) ([], s)

/-- The operation of a group. -/
def opOf (ops : List (Nat × Nat)) (g : Nat) : Nat := ((ops.find? (fun e => decide (e.1 = g))).map (·.2)).getD 0

/-- The operations of an instruction's groups: those already open, or new ones. -/
def State.openFor (s : State) (i : Instr) (w : Who) (perf : List (Nat × Nat)) : List (Nat × Nat) × State :=
  if w.ops.isEmpty then s.openOps i w perf else (w.ops, s)

/-- A lane's part of the instruction is complete. A fibre that waits for a commit is released (R334); others were never held. -/
def State.doneLane (s : State) (w : Who) (g l op : Nat) (ws : List (RName × Word)) : State :=
  if (s.fibre w.team g l).wait.isSome then s.release w.team g l op ws else s.opLane op l ws

/-- A lane's request goes to a home: later accesses of the fibre follow it (R251). -/
def State.order (s : State) (t g l : Nat) : State := s.modFibre t g l (fun f => { f with order := f.order + 1 })

/-- A fibre waits at the instruction: it leaves the bundle after it (R198). -/
def State.waitLane (s : State) (w : Who) (g l : Nat) (x : Wait) : State :=
  s.modFibre w.team g l (fun f => if f.wait.isSome then { f with wait := some x } else { f with wait := some x, leave := .wait w.idx })

/-- Event records written and dropped, modulo 2^32. -/
def State.eventCount (s : State) (ctx : Nat) : Word := BitVec.ofNat 32 (s.ctxWord ctx 64 + s.ctxWord ctx 68)

/-- An operation takes the count of event records when it is complete (R360). -/
def State.sampleOp (s : State) (op : Nat) (d : Reg) : State := { s with ops := fmod s.ops op (fun o => { o with sample := some d }) }

/-- The results of an operation for a lane, a count taken now among them (R360). -/
def State.opWrites (s : State) (o : Op) (l : Nat) : List (RName × Word) :=
  (o.writes.filter (fun e => decide (e.1 = l))).map (·.2) ++
  (match o.sample, s.team o.team with | some d, some t => [(.v d, s.eventCount t.ctx)] | _, _ => [])

/-- Remove an operation whose lanes have all been answered: results are written and its counter goes down (R87, R90). -/
def State.completeOp (s : State) (id : Nat) : State :=
  match fget s.ops id with
  | none => s
  | some o =>
    let s1 := { s with ops := fdel s.ops id }
    let s2 := s1.modGroup o.team o.grp (fun x => { x with
      sb := x.sb.modify o.sb (fun n => n - 1),
      fibres := (List.range x.fibres.length).map (fun l =>
        let f := x.fibres.getD l Fibre.reset
        if o.lanes.contains l then
          let f1 := f.land id (s.opWrites o l)
          { f1 with pend := f1.pend.filter (fun e => decide (e.2 ≠ id)), busy := if o.sb = 0 then f1.busy else f1.busy - 1 }
        else f) })
    s2

/-- The effective key of a request in a deterministic grid (R332). -/
def State.dxKey (s : State) (w : Who) (g l : Nat) : List Nat :=
  match s.team w.team with
  | some t => [(s.fibre w.team g l).lclk.toNat, t.clusid, t.teamid, g, l]
  | none => []

/-- A fibre that cannot finish waits at the instruction; one that waits for a commit goes on doing so (R334). -/
def State.waitOr (s : State) (w : Who) (g l : Nat) (x : Wait) : State :=
  if (s.fibre w.team g l).wait.isSome then s else s.waitLane w g l x

/-- How the fibres of a synchronising instruction make operations of a commit (R332): a leader-operand instruction is one operation of the
bundle, an aggregated request one of each group and location, a lock request one of each group; the others one of each fibre. -/
inductive Split | bundle | group | fibre | location (sp : Space) (a : Reg)
deriving DecidableEq, Repr

/-- The fibres of each operation. -/
def Split.parts (k : Split) (s : State) (w : Who) : List (List (Nat × Nat)) :=
  match k with
  | .bundle => [w.perf]
  | .group => (groupsOf w.perf).map (fun g => w.perf.filter (fun x => decide (x.1 = g)))
  | .fibre => w.perf.map (fun x => [x])
  | .location sp a =>
    let key (x : Nat × Nat) : Nat × Nat :=
      let f := s.fibre w.team x.1 x.2
      (x.1, match sp with | .global b => if b = 0#12 then (f.get64 w.pos a).toNat else (f.get w.pos a).toNat | _ => (f.get w.pos a).toNat)
    ((w.perf.map key).eraseDups).map (fun e => w.perf.filter (fun x => decide (key x = e)))

/-- A synchronising instruction (R332): outside a deterministic grid it acts at once; inside one its fibres wait for a commit. -/
def syncBody (i : Instr) (split : Split) (act : Who → State → State) (w : Who) (s : State) : State :=
  match s.team w.team with
  | none => s
  | some t =>
    if t.kern.dx.isNone then act w s
    else
      let parts := split.parts s w
      let q := s.openOps i w w.perf
      let s1 := w.perf.foldl (fun a x => a.waitLane w x.1 x.2 .dx) q.2
      parts.foldl (fun a p =>
        let lead := p.foldl (fun (m : Nat × Nat) x => if x.2 < m.2 then x else m) (p.headD (0, 0))
        { a with grids := fmod a.grids t.grid (fun g => { g with dxops := g.dxops ++
          [⟨a.dxKey w lead.1 lead.2, i, w.word, w.clause, w.count, w.idx, w.team, p,
            q.1.filter (fun e => p.any (fun x => decide (x.1 = e.1)))⟩] }) }) s1

/-- A later access of a fibre waits to issue behind its outstanding requests (R251, R254, R281); behind its loads too, unless `lax`: a load or a store waits
for those of its own line alone. -/
def State.orderedFor (s : State) (lax : Bool) (w : Who) : Bool :=
  w.perf.all (fun x => let f := s.fibre w.team x.1 x.2; decide (f.order = 0) && (lax || f.loads.isEmpty))

def State.ordered (s : State) (w : Who) : Bool := s.orderedFor false w

/-- Hold an instruction while an earlier request of a performing fibre is outstanding. -/
def afterOrder (act : Who → State → State) (w : Who) (s : State) : State := if s.ordered w then act w s else s.hold w

/-! ### Memory operands (R184, R185, R270) -/

/-- What resolving an operand gives a fibre. -/
inductive Res (α : Type)
  | trap (t : Trap)
  | miss (va level : Nat) (write : Bool)
  | ok (x : α)
deriving DecidableEq, Repr

/-- A resolved place: a global one with its page's kind, or a vault byte. -/
inductive Target
  | glob (va : Nat) (lf : Leaf)
  | vault (core addr : Nat)
deriving DecidableEq, Repr

def dw (x : Int) : DWord := BitVec.ofInt 64 x

/-- Translate an address for a fibre's access (R176, R180). -/
def State.xlate (s : State) (t : Team) (g : Nat) (va : Nat) (acc : Acc) (reason2 : Nat) : Res Leaf :=
  let c := s.ctxOf t
  match s.translate (some t.key) t.die c va acc with
  | .ok lf => .ok lf
  | .error (.miss lv) =>
    let failed := match t.groups[g]? with | some x => x.failed.contains (va / 65536) | none => false
    if failed || !s.fqOn c then .trap (.access (if reason2 = 5 then 5 else 3) (BitVec.ofNat 64 va))
    else .miss va lv (acc == .write || acc == .rw)
  | .error _ => .trap (.access reason2 (BitVec.ofNat 64 va))

/-- A buffer record for a fibre: the record, or why there is none (R19). -/
def State.recFor (s : State) (t : Team) (g i : Nat) (off : Int) : Res BufRec :=
  match s.bufRec t i with
  | none => .trap (.access 1 (dw off))
  | some (.ok b) => .ok b
  | some (.error (va, _)) =>
    match s.xlate t g va .read 2 with
    | .ok _ => .trap (.access 2 (BitVec.ofNat 64 va))
    | .trap tr => .trap tr
    | .miss v l wr => .miss v l wr

/-- Resolve a global access (R185): the record, its test, the alignment, the translation. -/
def State.resolveGlobal (s : State) (t : Team) (g i : Nat) (off : Int) (size al : Nat) (perm : RecPerm) (acc : Acc) : Res Target :=
  match s.recFor t g i off with
  | .trap tr => .trap tr
  | .miss v l wr => .miss v l wr
  | .ok b =>
    let va : Int := b.base + off
    if !(b.passes perm off size) then .trap (.access 1 (dw va))
    else if va.toNat % al ≠ 0 then .trap (.misaligned (dw va))
    else match s.xlate t g va.toNat acc 2 with
      | .ok lf => .ok (.glob va.toNat lf)
      | .trap tr => .trap tr
      | .miss v l wr => .miss v l wr

/-- Resolve a vault access (R67, R185). -/
def State.resolveVault (t : Team) (o : Int) (size al : Nat) : Res Target :=
  if !(t.vaultOk o size) then .trap (.access 1 (dw o))
  else if o.toNat % al ≠ 0 then .trap (.misaligned (dw o))
  else .ok (.vault t.key (t.dataBase + o.toNat))

/-- Resolve a pool access (R69, R185). -/
def State.resolvePool (s : State) (t : Team) (p : Int) (size al : Nat) : Res Target :=
  match s.poolPlace t p size with
  | none => .trap (.access 1 (dw p))
  | some (k, a) => if p.toNat % 0x800000 % al ≠ 0 then .trap (.misaligned (dw p)) else .ok (.vault k a)

/-- Resolve the operand of a space with a displacement (R184, R270). -/
def State.resolve (s : State) (t : Team) (g : Nat) (f : Fibre) (pos : Nat) (sp : Space) (a : Reg) (disp : Int) (size : Nat)
    (perm : RecPerm) (acc : Acc) : Res Target :=
  match sp with
  | .global b =>
    let base : Int := if b = 0#12 then (f.get64 pos a).toNat else (f.get pos a).toNat
    s.resolveGlobal t g b.toNat (base + disp) size size perm acc
  | .vault => State.resolveVault t ((f.get pos a).toNat + disp) size size
  | .pool => s.resolvePool t ((f.get pos a).toNat + disp) size size

/-- A group sleeps on the regions it missed (R180): its fibres leave the bundle at the instruction, and a record is asked for each
distinct region. -/
def State.sleepGroup (s : State) (w : Who) (g : Nat) (misses : List (Nat × Nat × Bool)) (exec : Bool) : State :=
  match s.team w.team with
  | none => s
  | some t =>
    let c := s.ctxOf t
    let s1 := (lanesIn w.active g).foldl (fun a l =>
      if (a.fibre w.team g l).wait.isSome then
        ((a.dropOp w g l).modFibre w.team g l (fun f => { f with wait := none })).placeNow w.team g l w.clause w.idx .asleep false
      else a.modFibre w.team g l (fun f => if f.leave = .run then { f with leave := .sleep w.idx } else f)) s
    let first := misses.foldl (fun (r : List (Nat × Nat × Bool)) m => if r.any (fun e => decide (e.1 / 65536 = m.1 / 65536)) then r else r ++ [m]) []
    let r := first.foldl (fun (a : List Nat × State) m =>
      let q := a.2.askFault c (.group w.team g (m.1 / 65536)) ⟨m.1, m.2.1, m.2.2, exec, false, t.core, t.die, g⟩
      (a.1 ++ [q.1], q.2)) ([], s1)
    r.2.modGroup w.team g (fun x => { x with asleep := true, tags := x.tags ++ r.1 })

/-- Resolve for every performing fibre, group by group: a group with a miss sleeps and performs nothing; in the others each failing
fibre takes its trap. The fibres that go on are given back with what they resolved (R83, R180). -/
def State.gate {α : Type} (s : State) (w : Who) (res : Nat → Nat → Res α) : List (Nat × Nat × α) × State :=
  (groupsOf w.perf).foldl (fun (r : List (Nat × Nat × α) × State) g =>
    let outs := (lanesIn w.perf g).map (fun l => (l, res g l))
    let misses := outs.filterMap (fun o => match o.2 with | .miss v lv wr => some (v, lv, wr) | _ => none)
    if !misses.isEmpty then (r.1, r.2.sleepGroup w g misses false)
    else
      let s1 := outs.foldl (fun (a : State) o => match o.2 with | .trap tr => a.takeTrap w w.word g o.1 tr | _ => a) r.2
      let s2 := s1.modGroup w.team g (fun x => { x with failed := [] })
      (r.1 ++ outs.filterMap (fun o => match o.2 with | .ok x => some (g, o.1, x) | _ => none), s2)) ([], s)

/-- The outcome of a leader-operand check (R193): the value, or the trap of every performing fibre, or the sleep of every group. -/
def State.leaderGate {α : Type} (s : State) (w : Who) (r : Res α) : Option α × State :=
  match r with
  | .ok x => (some x, (groupsOf w.perf).foldl (fun (a : State) g => a.modGroup w.team g (fun y => { y with failed := [] })) s)
  | .trap tr => (none, s.trapAll w tr w.perf)
  | .miss va lv wr => (none, (groupsOf w.perf).foldl (fun (a : State) g => a.sleepGroup w g [(va, lv, wr)] false) s)

/-- Go on with a result, or keep its trap or miss. -/
def Res.andThen {α β : Type} (r : Res α) (h : α → Res β) : Res β :=
  match r with
  | .ok x => h x
  | .trap t => .trap t
  | .miss v l wr => .miss v l wr

/-- A check: a trap when it fails. -/
def Res.check (bad : Bool) (t : Trap) : Res Unit := if bad then .trap t else .ok ()

/-- The fibres of resolved operands. -/
def pairsOf {α : Type} (ls : List (Nat × Nat × α)) : List (Nat × Nat) := ls.map (fun x => (x.1, x.2.1))

/-- The TLB and the record store of a team's core keep what an access used (R20, R178). -/
def State.touch (s : State) (t : Team) (x : Target) (acc : Acc) : State :=
  match x with
  | .glob va _ => s.fillTlb (some t.key) t.die (s.ctxOf t) va acc
  | .vault _ _ => s

def State.touchAll (s : State) (t : Team) (ls : List (Nat × Nat × Target)) (acc : Acc) : State := ls.foldl (fun a x => a.touch t x.2.2 acc) s

end Sys2Proof.Machine
end

