-- ==== Sys2Proof/Machine/Integer.lean ====
section
/-!
DEFINITION. The integer, logic, shift, bit-field, selection and data-movement instructions of the GEN class, and its trap-emulated
opcodes (R128 to R144, R154).
-/

namespace Sys2Proof.Machine

/-! ### Operand values (R129) -/

/-- The value of an operand's bits read as its type (R30). -/
def ityVal (t : ITy) (x : DWord) : Int :=
  if t.signed then sextNat t.width x.toNat else (x.toNat % 2 ^ t.width : Nat)

/-- An operand as a value of the type. -/
def Fibre.ival (f : Fibre) (pos : Nat) (t : ITy) (r : Reg) : Int := ityVal t (f.getW pos r t.is64)

/-- The bits of an exact result under the type: wrapped, or clamped to the type's range (R129). -/
def intResult (t : ITy) (sat : Bool) (r : Int) : DWord := BitVec.ofInt 64 (if sat then clampInt t.signed t.width r else r)

/-- One result of the type, no event. -/
def okW (d : Reg) (t : ITy) (x : DWord) : AluRes := .ok (wrW d t.is64 x) []

/-- One 32-bit result, no event. -/
def ok32 (d : Reg) (x : Word) : AluRes := .ok [(.v d, x)] []

/-- A predicate result. -/
def okP (p : Pred) (b : Bool) : AluRes := .ok [(.p p, boolWord b)] []

/-- A binary arithmetic instruction on values of the type. -/
def binArith (t : ITy) (sat : Bool) (d a b : Reg) (op : Int → Int → Int) (f : Fibre) (pos : Nat) : AluRes :=
  okW d t (intResult t sat (op (f.ival pos t a) (f.ival pos t b)))

/-- A binary instruction on the bits of the type. -/
def binBits (t : ITy) (d a b : Reg) (op : DWord → DWord → DWord) (f : Fibre) (pos : Nat) : AluRes :=
  okW d t (op (f.getW pos a t.is64) (f.getW pos b t.is64))

/-- The signed value of a 24-bit immediate. -/
def imm24 (x : BitVec 24) : Int := x.toInt

/-! ### Integer arithmetic (R130, R131) -/

def execNop (c : Ctl) (s : State) : Host.Outcome State Fault Refusal := alu (.nop c) s (fun _ _ => .ok [] [])

def execIadd (c : Ctl) (ty : ITy) (sat : Bool) (d a b : Reg) (s : State) : Host.Outcome State Fault Refusal :=
  alu (.iadd c ty sat d a b) s (binArith ty sat d a b (· + ·))

def execIsub (c : Ctl) (ty : ITy) (sat : Bool) (d a b : Reg) (s : State) : Host.Outcome State Fault Refusal :=
  alu (.isub c ty sat d a b) s (binArith ty sat d a b (· - ·))

def execImul (c : Ctl) (ty : ITy) (sat : Bool) (d a b : Reg) (s : State) : Host.Outcome State Fault Refusal :=
  alu (.imul c ty sat d a b) s (binArith ty sat d a b (· * ·))

def execImulh (c : Ctl) (ty : ITy) (d a b : Reg) (s : State) : Host.Outcome State Fault Refusal :=
  alu (.imulh c ty d a b) s (binArith ty false d a b (fun x y => Int.fdiv (x * y) (2 ^ 32)))

def execImad (c : Ctl) (ty : ITy) (sat : Bool) (d a b e : Reg) (s : State) : Host.Outcome State Fault Refusal :=
  alu (.imad c ty sat d a b e) s (fun f pos =>
    okW d ty (intResult ty sat (f.ival pos ty a * f.ival pos ty b + f.ival pos ty e)))

/-- The 64-bit type of the same signedness. -/
def wideOf (t : ITy) : ITy := if t.signed then .i64 else .n64

def execImadw (c : Ctl) (ty : ITy) (d a b e : Reg) (s : State) : Host.Outcome State Fault Refusal :=
  alu (.imadw c ty d a b e) s (fun f pos =>
    okW d .n64 (BitVec.ofInt 64 (f.ival pos ty a * f.ival pos ty b + f.ival pos (wideOf ty) e)))

/-- The quotient and remainder of R131 at the type's width: the result of a zero divisor, and the event. -/
def divide (t : ITy) (x y : DWord) : DWord × DWord × List Nat :=
  let a := ityVal t x
  let b := ityVal t y
  if b = 0 then (BitVec.allOnes 64, x, [evIntDivZero])
  else
    let q := Int.tdiv a b
    (BitVec.ofInt 64 q, BitVec.ofInt 64 (a - b * q), [])

def execIdiv (c : Ctl) (ty : ITy) (d a b : Reg) (s : State) : Host.Outcome State Fault Refusal :=
  alu (.idiv c ty d a b) s (fun f pos =>
    let r := divide ty (f.getW pos a false) (f.getW pos b false)
    .ok [(.v d, r.1.lo)] r.2.2)

def execIrem (c : Ctl) (ty : ITy) (d a b : Reg) (s : State) : Host.Outcome State Fault Refusal :=
  alu (.irem c ty d a b) s (fun f pos =>
    let r := divide ty (f.getW pos a false) (f.getW pos b false)
    .ok [(.v d, r.2.1.lo)] r.2.2)

def execImin (c : Ctl) (ty : ITy) (d a b : Reg) (s : State) : Host.Outcome State Fault Refusal :=
  alu (.imin c ty d a b) s (binArith ty false d a b min)

def execImax (c : Ctl) (ty : ITy) (d a b : Reg) (s : State) : Host.Outcome State Fault Refusal :=
  alu (.imax c ty d a b) s (binArith ty false d a b max)

def execIabs (c : Ctl) (ty : ITy) (sat : Bool) (d a : Reg) (s : State) : Host.Outcome State Fault Refusal :=
  alu (.iabs c ty sat d a) s (fun f pos => okW d ty (intResult ty sat (f.ival pos ty a).natAbs))

def execIneg (c : Ctl) (ty : ITy) (sat : Bool) (d a : Reg) (s : State) : Host.Outcome State Fault Refusal :=
  alu (.ineg c ty sat d a) s (fun f pos => okW d ty (intResult ty sat (-(f.ival pos ty a))))

def execIaddi (c : Ctl) (ty : ITy) (sat : Bool) (d a : Reg) (imm : BitVec 24) (s : State) : Host.Outcome State Fault Refusal :=
  alu (.iaddi c ty sat d a imm) s (fun f pos => okW d ty (intResult ty sat (f.ival pos ty a + imm24 imm)))

def execIcmp (c : Ctl) (cond : ICond) (ty : ITy) (p : Pred) (a b : Reg) (s : State) : Host.Outcome State Fault Refusal :=
  alu (.icmp c cond ty p a b) s (fun f pos => okP p (icondHolds cond (f.ival pos ty a) (f.ival pos ty b)))

/-- An immediate sign-extended to the type's width, then read as the type (R132). -/
def immVal (t : ITy) (imm : BitVec 24) : Int := ityVal t (imm.signExtend 64)

def execIcmpi (c : Ctl) (cond : ICond) (ty : ITy) (p : Pred) (a : Reg) (imm : BitVec 24) (s : State) : Host.Outcome State Fault Refusal :=
  alu (.icmpi c cond ty p a imm) s (fun f pos => okP p (icondHolds cond (f.ival pos ty a) (immVal ty imm)))

/-! ### Logic (R133) -/

def execAnd (c : Ctl) (ty : ITy) (d a b : Reg) (s : State) : Host.Outcome State Fault Refusal :=
  alu (.and c ty d a b) s (binBits ty d a b (· &&& ·))

def execOr (c : Ctl) (ty : ITy) (d a b : Reg) (s : State) : Host.Outcome State Fault Refusal :=
  alu (.or c ty d a b) s (binBits ty d a b (· ||| ·))

def execXor (c : Ctl) (ty : ITy) (d a b : Reg) (s : State) : Host.Outcome State Fault Refusal :=
  alu (.xor c ty d a b) s (binBits ty d a b (· ^^^ ·))

def execNot (c : Ctl) (ty : ITy) (d a : Reg) (s : State) : Host.Outcome State Fault Refusal :=
  alu (.not c ty d a) s (fun f pos => okW d ty (~~~(f.getW pos a ty.is64)))

/-- Bit k of a table, as a mask of 64 bits. -/
def ttMask (tt : BitVec 8) (k : Nat) : DWord := if tt.getLsbD k then BitVec.allOnes 64 else 0

/-- The lookup of R133 at every bit: a gives index bit 0, b bit 1, c bit 2. -/
def blut (tt : BitVec 8) (a b c : DWord) : DWord :=
  (List.range 8).foldl (fun r k =>
    let pick (x : DWord) (i : Nat) : DWord := if k.testBit i then x else ~~~x
    r ||| (ttMask tt k &&& pick a 0 &&& pick b 1 &&& pick c 2)) 0

def execBlut3 (c : Ctl) (ty : ITy) (tt : BitVec 8) (d a b e : Reg) (s : State) : Host.Outcome State Fault Refusal :=
  alu (.blut3 c ty tt d a b e) s (fun f pos =>
    okW d ty (blut tt (f.getW pos a ty.is64) (f.getW pos b ty.is64) (f.getW pos e ty.is64)))

def execLopi (c : Ctl) (op : LogicOp) (ty : ITy) (d a : Reg) (imm : BitVec 24) (s : State) : Host.Outcome State Fault Refusal :=
  alu (.lopi c op ty d a imm) s (fun f pos =>
    let x := f.getW pos a ty.is64
    let y := imm.signExtend 64
    okW d ty (match op with | .and => x &&& y | .or => x ||| y | .xor => x ^^^ y | .andn => x &&& ~~~y))

/-! ### Shifts (R134) -/

/-- A shift of the type's width by a count of any size. -/
def shiftBits (k : ShiftKind) (t : ITy) (x : DWord) (n : Nat) : DWord :=
  if t.is64 then
    match k with
    | .shl => x <<< n | .shr => x >>> n | .sar => x.sshiftRight n | .rol => x.rotateLeft n
  else
    let y : Word := x.lo
    (match k with
    | .shl => y <<< n | .shr => y >>> n | .sar => y.sshiftRight n | .rol => y.rotateLeft n).setWidth 64

/-- A shift whose count is in a register. -/
def shiftBy (k : ShiftKind) (ty : ITy) (d a b : Reg) (f : Fibre) (pos : Nat) : AluRes :=
  okW d ty (shiftBits k ty (f.getW pos a ty.is64) (f.get pos b).toNat)

def execShl (c : Ctl) (ty : ITy) (d a b : Reg) (s : State) : Host.Outcome State Fault Refusal :=
  alu (.shl c ty d a b) s (shiftBy .shl ty d a b)

def execShr (c : Ctl) (ty : ITy) (d a b : Reg) (s : State) : Host.Outcome State Fault Refusal :=
  alu (.shr c ty d a b) s (shiftBy .shr ty d a b)

def execSar (c : Ctl) (ty : ITy) (d a b : Reg) (s : State) : Host.Outcome State Fault Refusal :=
  alu (.sar c ty d a b) s (shiftBy .sar ty d a b)

def execRol (c : Ctl) (ty : ITy) (d a b : Reg) (s : State) : Host.Outcome State Fault Refusal :=
  alu (.rol c ty d a b) s (shiftBy .rol ty d a b)

def execShi (c : Ctl) (kind : ShiftKind) (ty : ITy) (d a : Reg) (imm : BitVec 24) (s : State) : Host.Outcome State Fault Refusal :=
  alu (.shi c kind ty d a imm) s (fun f pos => okW d ty (shiftBits kind ty (f.getW pos a ty.is64) (imm.signExtend 32).toNat))

/-! ### Bit fields and counts (R135 to R138) -/

/-- The offset and width that a field operand names (R135). -/
def fieldOff (b : Word) : Nat := b.toNat % 64
def fieldWid (b : Word) : Nat := b.toNat / 256 % 64

/-- BFX (R135). -/
def bitExtract (sg : Bool) (a b : Word) : Word :=
  let off := fieldOff b
  let wid := fieldWid b
  if wid = 0 then 0
  else if 32 ≤ off then (if sg && a.msb then BitVec.allOnes 32 else 0)
  else
    let n := min (off + wid) 32 - off
    let x := field a.toNat (off + n - 1) off
    if sg then BitVec.ofInt 32 (sextNat n x) else BitVec.ofNat 32 x

def execBfx (c : Ctl) (ty : ITy) (d a b : Reg) (s : State) : Host.Outcome State Fault Refusal :=
  alu (.bfx c ty d a b) s (fun f pos => ok32 d (bitExtract ty.signed (f.get pos a) (f.get pos b)))

/-- BFI (R136). -/
def bitInsert (old a b : Word) : Word :=
  let mask : Word := ((BitVec.ofNat 32 (2 ^ fieldWid b - 1)) <<< fieldOff b)
  (old &&& ~~~mask) ||| ((a <<< fieldOff b) &&& mask)

def execBfi (c : Ctl) (ty : ITy) (d a b : Reg) (s : State) : Host.Outcome State Fault Refusal :=
  alu (.bfi c ty d a b) s (fun f pos => ok32 d (bitInsert (f.get pos d) (f.get pos a) (f.get pos b)))

/-- The number of 1 bits among the low w. -/
def popCount (w : Nat) (x : DWord) : Nat := ((List.range w).filter (fun i => x.getLsbD i)).length

/-- The number of 0 bits above the highest 1 of the low w. -/
def leadZeros (w : Nat) (x : DWord) : Nat := ((List.range w).takeWhile (fun i => !x.getLsbD (w - 1 - i))).length

/-- The number of 0 bits below the lowest 1 of the low w. -/
def trailZeros (w : Nat) (x : DWord) : Nat := ((List.range w).takeWhile (fun i => !x.getLsbD i)).length

def execPopc (c : Ctl) (ty : ITy) (d a : Reg) (s : State) : Host.Outcome State Fault Refusal :=
  alu (.popc c ty d a) s (fun f pos => ok32 d (BitVec.ofNat 32 (popCount ty.width (f.getW pos a ty.is64))))

def execClz (c : Ctl) (ty : ITy) (d a : Reg) (s : State) : Host.Outcome State Fault Refusal :=
  alu (.clz c ty d a) s (fun f pos => ok32 d (BitVec.ofNat 32 (leadZeros ty.width (f.getW pos a ty.is64))))

def execCtz (c : Ctl) (ty : ITy) (d a : Reg) (s : State) : Host.Outcome State Fault Refusal :=
  alu (.ctz c ty d a) s (fun f pos => ok32 d (BitVec.ofNat 32 (trailZeros ty.width (f.getW pos a ty.is64))))

def execBrev (c : Ctl) (ty : ITy) (d a : Reg) (s : State) : Host.Outcome State Fault Refusal :=
  alu (.brev c ty d a) s (fun f pos =>
    let x := f.getW pos a ty.is64
    okW d ty (if ty.is64 then x.reverse else x.lo.reverse.setWidth 64))

/-- Result byte j of PERMB (R138). -/
def permByte (src : DWord) (ctl : Word) (j : Nat) : Nat :=
  let n := field ctl.toNat (4 * j + 3) (4 * j)
  let b := field src.toNat (8 * (n % 8) + 7) (8 * (n % 8))
  if n < 8 then b else if b < 128 then 0 else 255

def permBytes (src : DWord) (ctl : Word) : Word :=
  BitVec.ofNat 32 (permByte src ctl 0 + permByte src ctl 1 * 2 ^ 8 + permByte src ctl 2 * 2 ^ 16 + permByte src ctl 3 * 2 ^ 24)

def execPermb (c : Ctl) (d a b e : Reg) (s : State) : Host.Outcome State Fault Refusal :=
  alu (.permb c d a b e) s (fun f pos => ok32 d (permBytes (dwordOf (f.get pos a) (f.get pos b)) (f.get pos e)))

def execLea (c : Ctl) (ty : ITy) (sh : BitVec 3) (d a b : Reg) (s : State) : Host.Outcome State Fault Refusal :=
  alu (.lea c ty sh d a b) s (fun f pos =>
    let x : Int := if ty.signed then (f.get pos b).toInt else (f.get pos b).toNat
    okW d ty (intResult ty false (f.ival pos ty a + x * 2 ^ sh.toNat)))

/-! ### Selection and data movement (R140 to R142) -/

def execSel (c : Ctl) (ty : ITy) (d a b : Reg) (p : Pred) (neg : Bool) (s : State) : Host.Outcome State Fault Refusal :=
  alu (.sel c ty d a b p neg) s (fun f pos =>
    okW d ty (if f.getP pos p != neg then f.getW pos a ty.is64 else f.getW pos b ty.is64))

def execPlop (c : Ctl) (tt : BitVec 8) (d a b e : Pred) (s : State) : Host.Outcome State Fault Refusal :=
  alu (.plop c tt d a b e) s (fun f pos =>
    okP d (tt.getLsbD ((f.getP pos a).toNat + 2 * (f.getP pos b).toNat + 4 * (f.getP pos e).toNat)))

def execMov (c : Ctl) (ty : ITy) (d a : Reg) (s : State) : Host.Outcome State Fault Refusal :=
  alu (.mov c ty d a) s (fun f pos => okW d ty (f.getW pos a ty.is64))

def execMovi (c : Ctl) (form : MoviForm) (d : Reg) (imm : Word) (s : State) : Host.Outcome State Fault Refusal :=
  alu (.movi c form d imm) s (fun _ _ =>
    match form with
    | .w32 => ok32 d imm
    | .s64 => okW d .i64 (imm.signExtend 64)
    | .z64 => okW d .n64 (imm.setWidth 64))

/-- The checks of a register chosen at run time (R142): the window, then the scoreboard. -/
def movxCheck (t : Team) (f : Fibre) (pos idx : Nat) (w64 read : Bool) : Option Trap :=
  if t.kern.win ≤ idx || (w64 && (decide (idx % 2 = 1) || decide (t.kern.win ≤ idx + 1))) then some .window
  else
    let names := regs (BitVec.ofNat 8 idx) (if w64 then 2 else 1)
    if t.scoreboard && ((read && names.any (f.undersized pos)) || names.any (fun x => f.uncov.any (fun u => decide (u.1 = x)))) then
      some .stallchk
    else none

/-- The register that a fibre names: zext32(V[A]) + base (R142). -/
def movxIdx (f : Fibre) (pos : Nat) (a base : Reg) : Nat := (f.get pos a).toNat + base.toNat

/-- Do something for each performing fibre that needs its team. -/
def perLane (w : Who) (s : State) (h : Team → State → Nat → Nat → State) : State :=
  match s.team w.team with
  | none => s
  | some t => w.perf.foldl (fun a x => h t a x.1 x.2) s

def execMovxRd (c : Ctl) (w64 : Bool) (d a base : Reg) (s : State) : Host.Outcome State Fault Refusal :=
  native (.movxRd c w64 d a base) s (fun w s => perLane w s (fun t s g l =>
    let f := s.fibre w.team g l
    let idx := movxIdx f w.pos a base
    match movxCheck t f w.pos idx w64 true with
    | some tr => s.takeTrap w w.word g l tr
    | none => s.modFibre w.team g l (fun f => f.writeAll w.pos 6 (wrW d w64 (f.getW w.pos (BitVec.ofNat 8 idx) w64)))))

def execMovxWr (c : Ctl) (w64 : Bool) (a base e : Reg) (s : State) : Host.Outcome State Fault Refusal :=
  native (.movxWr c w64 a base e) s (fun w s => perLane w s (fun t s g l =>
    let f := s.fibre w.team g l
    let idx := movxIdx f w.pos a base
    match movxCheck t f w.pos idx w64 false with
    | some tr => s.takeTrap w w.word g l tr
    | none => s.modFibre w.team g l (fun f => f.writeAll w.pos 6 (wrW (BitVec.ofNat 8 idx) w64 (f.getW w.pos e w64)))))

/-! ### Special registers (R7, R143, R144) -/

/-- The core clocks counted by a partition's cores since the last reset (R58, R144). -/
def State.cyc (s : State) (t : Team) : DWord := if t.kern.dx.isSome then 0 else BitVec.ofInt 64 (s.tick16 t.key / 16)

/-- The value of a special register for a fibre (R144). -/
def State.sreg (s : State) (t : Team) (g l : Nat) (f : Fibre) (pos : Nat) (r : SReg) : DWord :=
  match r with
  | .fid => BitVec.ofNat 64 (g * 32 + l)
  | .hlane => BitVec.ofNat 64 l
  | .grpid => BitVec.ofNat 64 g
  | .teamid => BitVec.ofNat 64 t.teamid
  | .clusid => BitVec.ofNat 64 t.clusid
  | .clpos => BitVec.ofNat 64 (t.teamid % t.kern.clw + t.teamid / t.kern.clw * 256)
  | .core => BitVec.ofNat 64 t.core
  | .die => BitVec.ofNat 64 t.die
  | .partid => BitVec.ofNat 64 t.part
  | .lclk => f.lclk
  | .lclkh => f.lclk >>> 32
  | .cyc => s.cyc t
  | .cych => s.cyc t >>> 32
  | .win => BitVec.ofNat 64 (t.kern.win * 65536 + (t.groups[g]?.map (·.wbase)).getD 0)
  | .dtlen => BitVec.ofNat 64 t.kern.dtlen
  | .calld => BitVec.ofNat 64 f.depth
  | .pw => BitVec.ofNat 64 ((List.range 7).foldl (fun n i => n + (if f.getP pos (BitVec.ofNat 3 i) then 2 ^ i else 0)) 0x80)
  | .tbase => match t.tbase with | some a => a.setWidth 64 | none => 0
  | .tcause => f.frame.tcause.setWidth 64
  | .tpc => f.frame.tpc
  | .tinst => f.frame.tinst
  | .taddr => f.frame.taddr

def execSrd (c : Ctl) (w64 : Bool) (sel : SReg) (d : Reg) (s : State) : Host.Outcome State Fault Refusal :=
  native (.srd c w64 sel d) s (fun w s => perLane w s (fun t s g l =>
    s.modFibre w.team g l (fun f => f.writeAll w.pos 8 (wrW d w64 (s.sreg t g l f w.pos sel)))))

/-- SWR writes all seven predicates before the next instruction issues, as a write of latency 1 (R84, R143; log 21). -/
def execSwr (c : Ctl) (a : Reg) (s : State) : Host.Outcome State Fault Refusal :=
  native (.swr c a) s (fun w s => perLane w s (fun _ s g l =>
    s.modFibre w.team g l (fun f =>
      let v := f.get w.pos a
      f.writeAll w.pos 1 ((List.range 7).map (fun i => (RName.p (BitVec.ofNat 3 i), boolWord (v.getLsbD i)))))))

/-! ### Trap-emulated opcodes (R154): a fibre that performs one takes UNIMPL at the emulation check of R83 -/

def execDiv64 (c : Ctl) (ty : ITy) (d a b : Reg) (s : State) : Host.Outcome State Fault Refusal := alu (.div64 c ty d a b) s (fun _ _ => .trap .unimpl)

def execRem64 (c : Ctl) (ty : ITy) (d a b : Reg) (s : State) : Host.Outcome State Fault Refusal := alu (.rem64 c ty d a b) s (fun _ _ => .trap .unimpl)

def execMulh64 (c : Ctl) (ty : ITy) (d a b : Reg) (s : State) : Host.Outcome State Fault Refusal := alu (.mulh64 c ty d a b) s (fun _ _ => .trap .unimpl)

def execCrcb (c : Ctl) (n : BitVec 2) (d a b : Reg) (s : State) : Host.Outcome State Fault Refusal := alu (.crcb c n d a b) s (fun _ _ => .trap .unimpl)

end Sys2Proof.Machine
end

