-- ==== Sys2Proof/Machine/Memory.lean ====
section
/-!
DEFINITION. Loads, stores, prefetches, cache maintenance, fences and remote acquires (R183 to R189, R250 to R267, R280, R281, R333), and
the moment at which a store of an L1 copy is performed at its home.
-/

namespace Sys2Proof.Machine

/-! ### Ground shared by memory instructions -/

/-- The team runs in a deterministic grid. -/
def Team.dx (t : Team) : Bool := t.kern.dx.isSome

/-- The displacement of a memory operand (R184). -/
def MemOpDisp (off : BitVec 13) (size : Nat) : Int := off.toInt * size

/-- A performing fibre names a member of its cluster that is saved: the access waits until the member is restored. -/
def State.poolAway (s : State) (w : Who) (t : Team) (sp : Space) (a : Reg) (disp : Int) : Bool :=
  match sp with
  | .pool => w.perf.any (fun x =>
      let p : Int := ((s.fibre w.team x.1 x.2).get w.pos a).toNat + disp
      decide (0 ≤ p) && (match s.member t (p.toNat / 0x800000) with
        | some (_, m) => (match m.status with | .saved .. => true | _ => false)
        | none => false))
  | _ => false

/-- The lines of some targets that the host is asked for before the access (R326): of an object only when its part is not to ask itself, as before an
operation at the home and in a deterministic grid. -/
def State.hostLines (s : State) (t : Team) (perm : RecPerm) (ls : List (Nat × Nat × Target)) (write : Bool) : List Nat :=
  (ls.flatMap (fun x => match x.2.2 with
    | .glob _ lf =>
      if (s.objIf lf.trk t.ctx (lf.pa / 128)).isNone then (if s.hostBars (lf.pa / 128) write then [lf.pa / 128] else [])
      else if t.dx || decide (perm = .at_) then s.heldBack (lf.pa / 128) write else []
    | .vault _ _ => [])).eraseDups

/-- Some target is on an SO page. -/
def anySo (ls : List (Nat × Nat × Target)) : Bool :=
  ls.any (fun x => match x.2.2 with | .glob _ lf => decide (lf.ord = 0) | .vault _ _ => false)

/-- The record of a GLOBAL operand is kept since its first use (R20). -/
def State.keepSpace (s : State) (t : Team) (sp : Space) : State :=
  match sp with
  | .global b => s.keepRec t b.toNat
  | _ => s

/-- Why a memory instruction has yet to wait once its operands are known. -/
abbrev Turn := Team → List (Nat × Nat × Target) → Who → State → Bool

/-- A memory instruction of performing fibres with one operand each: it waits behind earlier requests, an absent member, its turn or the host; then
groups that miss sleep, failing fibres trap, and the others go on. -/
def homeWith (lax : Bool) (turn : Turn) (sp : Space) (a : Reg) (disp : Int) (size : Nat) (perm : RecPerm) (acc : Acc) (write : Bool)
    (more : Target → Res Target) (go : Team → List (Nat × Nat × Target) → Who → State → State) (w : Who) (s : State) : State :=
  match s.team w.team with
  | none => s
  | some t =>
    if !s.orderedFor lax w || s.poolAway w t sp a disp then s.hold w
    else
      let r := s.gate w (fun g l => (s.resolve t g (s.fibre w.team g l) w.pos sp a disp size perm acc).andThen more)
      let held := s.hostLines t perm r.1 write
      if turn t r.1 w s then s.hold w
      else if !held.isEmpty then (held.foldl (fun (x : State) l => x.snoop l) s).hold w
      else
        go t r.1 w ((r.2.touchAll t r.1 acc).keepSpace t sp)

/-- It waits for nothing more. -/
def noTurn : Turn := fun _ _ _ _ => false

/-- The same with no checks beyond the resolution's. -/
def homeBody (sp : Space) (a : Reg) (disp : Int) (size : Nat) (perm : RecPerm) (acc : Acc) (write : Bool)
    (go : Team → List (Nat × Nat × Target) → Who → State → State) : Who → State → State :=
  homeWith false noTurn sp a disp size perm acc write .ok go

/-- Nothing that the performing fibres have stored in a vault is any longer unordered with what they do next (R252). -/
def State.uncrossAll (s : State) (w : Who) : State := w.perf.foldl (fun (a : State) x => a.uncross w.team x.1 [x.2]) s

/-- The full fence of fibres that access an SO page (R250). -/
def State.soFenceBy (s : State) (w : Who) (k : Nat) (so : Bool) : State := if so then (s.uncrossAll w).fullFence k else s

/-- Fences stand beside an access that is performed as it issues, where it is to an SO page (R250). -/
def beside (go : Team → List (Nat × Nat × Target) → Who → State → State) (t : Team) (ls : List (Nat × Nat × Target)) (w : Who) (s : State) : State :=
  let so := anySo ls
  (go t ls w (s.soFenceBy w t.key so)).soFence t.key so

/-- The same for accesses performed as they issue. -/
def memBody (sp : Space) (a : Reg) (disp : Int) (size : Nat) (perm : RecPerm) (acc : Acc) (write : Bool)
    (go : Team → List (Nat × Nat × Target) → Who → State → State) : Who → State → State :=
  homeBody sp a disp size perm acc write (beside go)

/-! ### The order of one bank clock (R199) -/

/-- The running clock of a core's vault banks. -/
def State.bankNow (s : State) (k : Nat) : Nat := (s.tick16 k / 16).toNat

/-- The place in the running clock's order of the last operation on the 16 bytes about a vault address; none yet at []. -/
def State.bankLast (s : State) (k a : Nat) : List Nat :=
  let b := (s.core k).bank
  if b.1 = s.bankNow k then ((b.2.find? (fun e => decide (e.1 = a / 16))).map (·.2)).getD [] else []

/-- An operation on a vault address comes too late for its place in the running clock: it waits for the next. -/
def State.bankLate (s : State) (key : List Nat) (k a : Nat) : Bool := !(s.bankLast k a).isEmpty && !decide (s.bankLast k a < key)

/-- An operation on a vault address takes its place in the running clock. -/
def State.bankTake (s : State) (key : List Nat) (k a : Nat) : State :=
  if k = 144 then s
  else s.modCore k (fun c => { c with bank :=
    (s.bankNow k, (a / 16, key) :: (if c.bank.1 = s.bankNow k then c.bank.2.filter (fun e => decide (e.1 ≠ a / 16)) else [])) })

/-- The vault addresses of some targets. -/
def vaultSpots (ls : List (Nat × Nat × Target)) : List (Nat × Nat) :=
  ls.filterMap (fun x => match x.2.2 with | .vault k a => some (k, a) | .glob _ _ => none)

/-- The place of an instruction's operations on barriers: the step of R199, then core, GRPID and home lane of its first fibre. -/
def bankKey (step : Nat) (t : Team) (ls : List (Nat × Nat × Target)) : List Nat :=
  match ls with
  | [] => [step, t.key]
  | x :: rest => let m := rest.foldl (fun (b : Nat × Nat) y => if y.1 < b.1 || (decide (y.1 = b.1) && decide (y.2.1 < b.2)) then (y.1, y.2.1) else b) (x.1, x.2.1)
    [step, t.key, m.1, m.2]

/-- Some target is at a bank where the running clock is past the instruction's step. A deterministic grid's operations take their order at the commit. -/
def bankTurn (step : Nat) : Turn := fun t ls _ s => !t.dx && (vaultSpots ls).any (fun p => s.bankLate (bankKey step t ls) p.1 p.2)

/-- The instruction's operations take their places at the banks. -/
def State.bankAll (s : State) (step : Nat) (t : Team) (ls : List (Nat × Nat × Target)) : State :=
  if t.dx then s else (vaultSpots ls).foldl (fun (a : State) p => a.bankTake (bankKey step t ls) p.1 p.2) s

/-! ### VAULT against POOL (R252) -/

/-- The bytes of a vault access that the fibre has stored under the other of the two spaces with no fence since. -/
def Fibre.crossings (f : Fibre) (pool : Bool) (k a n : Nat) : List (Bool × Nat × Nat × Byte) :=
  f.crossed.filter (fun e => e.1 != pool && decide (e.2.1 = k) && decide (a ≤ e.2.2.1) && decide (e.2.2.1 < a + n))

/-- The crossings of an instruction's accesses. -/
def State.crossingsOf (s : State) (w : Who) (pool : Bool) (n : Nat) (ls : List (Nat × Nat × Target)) : List (Bool × Nat × Nat × Byte) :=
  ls.flatMap (fun x => match x.2.2 with | .vault k a => (s.fibre w.team x.1 x.2.1).crossings pool k a n | .glob _ _ => [])

/-- The instruction's accesses, one event at the vault (R264), go before those stores, as the part may choose where each fibre that touches such a byte
has stored it so itself, over the same byte (log 46). -/
def State.crossOld (s : State) (w : Who) (pool : Bool) (n : Nat) (ls : List (Nat × Nat × Target)) : Bool :=
  let all := s.crossingsOf w pool n ls
  !all.isEmpty && Config.freeBool s.free && ls.all (fun x => match x.2.2 with
    | .vault k a => all.all (fun e => !(decide (e.2.1 = k) && decide (a ≤ e.2.2.1) && decide (e.2.2.1 < a + n)) ||
        ((s.fibre w.team x.1 x.2.1).crossings pool k a n).contains e)
    | .glob _ _ => true)

/-- Bytes with those of some crossings laid over them. -/
def layOld (es : List (Bool × Nat × Nat × Byte)) (a : Nat) (bs : List Byte) : List Byte :=
  (List.range bs.length).map (fun i => match es.find? (fun e => decide (e.2.2.1 = a + i)) with | some e => e.2.2.2 | none => bs.getD i 0)

/-- After the instruction its fibres' crossings at the bytes it touched stand no longer, unless it has gone before them as a load. -/
def State.uncrossAt (s : State) (w : Who) (pool : Bool) (n : Nat) (ls : List (Nat × Nat × Target)) : State :=
  ls.foldl (fun (a : State) x => match x.2.2 with
    | .vault k v => a.modFibre w.team x.1 x.2.1 (fun f => let gone := f.crossings pool k v n; { f with crossed := f.crossed.filter (fun e => !gone.contains e) })
    | .glob _ _ => a) s

/-- Loads of a bundle have chosen whether they go before the crossed stores. -/
def State.crossLoad (s : State) (w : Who) (pool old : Bool) (n : Nat) (ls : List (Nat × Nat × Target)) : State :=
  if (s.crossingsOf w pool n ls).isEmpty then s
  else let a := if old then s else s.uncrossAt w pool n ls; { a with free := a.free + 1 }

/-- Stores of a bundle are crossed by later loads under the other space, until a fence: before holds memory as it stood before them. -/
def State.crossStore (s before : State) (w : Who) (pool old : Bool) (n : Nat) (ls : List (Nat × Nat × Target)) : State :=
  let a := if (before.crossingsOf w pool n ls).isEmpty then s else let b := s.uncrossAt w pool n ls; { b with free := b.free + 1 }
  if old then a
  else ls.foldl (fun (b : State) x => match x.2.2 with
    | .vault k v => b.modFibre w.team x.1 x.2.1 (fun f => { f with crossed := f.crossed ++ ((List.range n).filter (fun i =>
        !f.crossed.any (fun e => e.1 == pool && decide (e.2.1 = k) && decide (e.2.2.1 = v + i)))).map (fun i => (pool, k, v + i, (before.vaultRead k (v + i) 1).getD 0 0)) })
    | .glob _ _ => b) a

/-- The access goes through the pool window. -/
def isPool : Space → Bool | .pool => true | _ => false

/-! ### Loads (R186) -/

/-- Lay a buffered store over bytes read at an address. -/
def overlayOne (a : Nat) (bs : List Byte) (wa : Nat) (ws : List Byte) : List Byte :=
  (List.range bs.length).map (fun i => if wa ≤ a + i && a + i < wa + ws.length then ws.getD (a + i - wa) 0 else bs.getD i 0)

/-- The bytes a load sees through its own group's buffer (R333). -/
def overlay (buf : List DxItem) (x : Target) (bs : List Byte) : List Byte :=
  buf.foldl (fun r e =>
    match e.what, x with
    | .st _ ws, .glob _ lf => ws.foldl (fun q v => overlayOne lf.pa q v.2.1 v.2.2) r
    | .stv ws, .vault k a => ws.foldl (fun q v => if v.1 = k then overlayOne a q v.2.1 v.2.2 else q) r
    | _, _ => r) bs

/-- A core's copy of a line of an object that serves a read (R312). -/
def State.copyOf (s : State) (k id gen line : Nat) : Option L1Line :=
  match (s.core k).line line with
  | some x => if x.obj = some (id, gen) then some x else none
  | none => none

/-- Bytes of a descriptor or record in global memory as a fibre's own read finds them: its core's copy, else the home (R246, R251, R312). -/
def State.fibreSees (s : State) (t : Team) (g : Nat) (lf : Leaf) (n : Nat) : List Byte :=
  let buf := if t.dx then ((t.groups[g]?).map (·.dxbuf)).getD [] else []
  let bytes := match s.objIf lf.trk t.ctx (lf.pa / 128) with
    | some (id, o) =>
      (match s.copyOf t.key id o.gen (lf.pa / 128) with
      | some c => (c.data.drop (lf.pa % 128)).take n
      | none => (s.engineRead t.ctx t.die lf.trk lf.pa n).1)
    | none => (s.load t.key (if t.dx then { lf with c := false } else lf) n).1
  overlay buf (.glob 0 lf) bytes

/-- A core's copy of an untracked line that serves a read: a hit (R177, R266). -/
def State.hitOf (s : State) (k : Nat) (lf : Leaf) : Option L1Line :=
  match (s.core k).line (lf.pa / 128) with
  | some x => if lf.cached && (s.core k).lineValid x && x.obj.isNone then some x else none
  | none => none

/-- The copy in which a core finds a line of a page: of an object, or an untracked one; the object too (R177, R312). -/
def State.findCopy (s : State) (t : Team) (lf : Leaf) : Option L1Line :=
  match s.objIf lf.trk t.ctx (lf.pa / 128) with
  | some (id, o) => s.copyOf t.key id o.gen (lf.pa / 128)
  | none => s.hitOf t.key lf

/-- What a load of one fibre finds as it issues: in the vault, or in its core's copy; none where its line is asked for (R369). A deterministic grid's loads
are performed as they issue (log 46). -/
def State.loadNow (s : State) (t : Team) (w : Who) (pool old : Bool) (g l n : Nat) (x : Target) : Option (List Byte) × State :=
  let buf := if t.dx then ((s.group w.team g).map (·.dxbuf)).getD [] else []
  match x with
  | .vault k a =>
    let bs := overlay buf x (s.vaultRead k a n)
    (some (if old then layOld ((s.fibre w.team g l).crossings pool k a n) a bs else bs), s)
  | .glob _ lf =>
    if t.dx then
      match s.objIf lf.trk t.ctx (lf.pa / 128) with
      | some (id, _) => let r := (s.meet t.key id).engineRead t.ctx t.die lf.trk lf.pa n; (some (overlay buf x r.1), r.2)
      | none => let r := s.load t.key { lf with c := false } n; (some (overlay buf x r.1), r.2)
    else
      let s1 := match s.objIf lf.trk t.ctx (lf.pa / 128) with
        | some (id, _) => s.meet t.key id
        | none => s
      ((s1.findCopy t lf).map (fun c => (c.data.drop (lf.pa % 128)).take n), s1)

/-- What the loads of some fibres find, one after another. -/
def State.loadAll (s : State) (t : Team) (w : Who) (pool old : Bool) (n : Nat) (ls : List (Nat × Nat × Target)) :
    List ((Nat × Nat × Target) × Option (List Byte)) × State :=
  ls.foldl (fun (r : List ((Nat × Nat × Target) × Option (List Byte)) × State) x =>
    let q := r.2.loadNow t w pool old x.1 x.2.1 n x.2.2
    (r.1 ++ [(x, q.1)], q.2)) ([], s)

/-- Insert a number in ascending order, once. -/
def insertUp (x : Nat) : List Nat → List Nat
  | [] => [x]
  | y :: ys => if x < y then x :: y :: ys else if x = y then y :: ys else y :: insertUp x ys

/-- The numbers of a list, each once, ascending. -/
def ascending (xs : List Nat) : List Nat := xs.foldr insertUp []

/-- Send a request. -/
def State.sendReq (s : State) (r : Req) : State := let q := s.fresh; { q.2 with reqs := fset q.2.reqs q.1 r }

/-- One request for each group and each line that its loads miss, in ascending line address (R369); to an SO page its fibres' later accesses follow it, to
others those to the line (R250, R251). -/
def State.askLines (s : State) (w : Who) (ops : List (Nat × Nat)) (d : Reg) (n : Nat) (xs : List (Nat × Nat × Leaf)) : State :=
  (groupsOf (pairsOf xs)).foldl (fun (a : State) g =>
    let mine := xs.filter (fun x => decide (x.1 = g))
    (ascending (mine.map (fun x => x.2.2.pa / 128))).foldl (fun (b : State) line =>
      let here := mine.filter (fun x => decide (x.2.2.pa / 128 = line))
      match here with
      | [] => b
      | x :: _ =>
        let lf := x.2.2
        here.foldl (fun (c : State) y => c.modFibre w.team g y.2.1 (fun f =>
            if lf.ord = 0 then { f with order := f.order + 1 } else { f with loads := f.loads ++ [line] }))
          (b.sendReq ⟨w.team, g, opOf ops g, .load lf.ord lf.c lf.trk line n d (here.map (fun y => (y.2.1, y.2.2.pa))), lf.trk, decide (lf.ord = 0), 0, false, none⟩)) a) s

/-- The page of a global target. -/
def Target.leaf? : Target → Option Leaf
  | .glob _ lf => some lf
  | .vault _ _ => none

/-- An access waits for a load of its fibre from the same line that is on its way, and one to an SO page for every load of its fibre (R250, R251). -/
def loadTurn : Turn := fun _ ls w s => ls.any (fun x => match x.2.2.leaf? with
  | some lf => let f := s.fibre w.team x.1 x.2.1; f.loads.contains (lf.pa / 128) || (decide (lf.ord = 0) && !f.loads.isEmpty)
  | none => false)

/-- Plain accesses wait for their turn at the banks too: they are the fifth step of a bank clock (R199). -/
def plainTurn : Turn := fun t ls w s => loadTurn t ls w s || bankTurn 4 t ls w s

/-- What some groups' accesses mean for lines pinned under locks (R298). -/
def State.meetPins (s : State) (t : Team) (ls : List (Nat × Nat × Target)) : State :=
  ls.foldl (fun (a : State) x => match x.2.2.leaf? with | some lf => a.meetPin t x.1 lf | none => a) s

/-- LD of the performing fibres. -/
def loadBody (i : Instr) (sp : Space) (d : Reg) (n : Nat) (t : Team) (ls : List (Nat × Nat × Target)) (w : Who) (s : State) : State :=
  let so := anySo ls
  let old := s.crossOld w (isPool sp) n ls
  let r := ((s.soFenceBy w t.key so).meetPins t ls).loadAll t w (isPool sp) old n ls
  let q := ((r.2.crossLoad w (isPool sp) old n ls).bankAll 4 t ls).openOps i w (pairsOf ls)
  let now := r.1.foldl (fun (a : State) e => match e.2 with
    | some bs => a.doneLane w e.1.1 e.1.2.1 (opOf q.1 e.1.1) (loadWrites d bs)
    | none => a) q.2
  (now.askLines w q.1 d n (r.1.filterMap (fun e => if e.2.isNone then e.1.2.2.leaf?.map (fun lf => (e.1.1, e.1.2.1, lf)) else none))).soFence t.key (so && t.dx)

def execLd (c : Ctl) (sz : Size) (m : MemOp) (d : Reg) (s : State) : Host.Outcome State Fault Refusal :=
  native (.ld c sz m d) s (homeWith true plainTurn m.space m.a (MemOpDisp m.off sz.bytes) sz.bytes .rd .read false .ok
    (loadBody (.ld c sz m d) m.space d sz.bytes))

/-- A request for a line is performed at its home, its line brought into the L1 where it may be (R177, R369): for a line of an object it goes to the
object's part. A line that the host holds is asked of it first (R326). -/
def State.performLoad (s : State) (id : Nat) : State :=
  match fget s.reqs id with
  | none => s
  | some r =>
    match r.kind, s.team r.team with
    | .load ord c trk line n d lanes, some t =>
      let gone : State := { s with reqs := fdel s.reqs id }
      (match s.objIf trk t.ctx line with
      | some (o, x) =>
        (match s.copyOf t.key o x.gen line with
        | some y => lanes.foldl (fun (a : State) e => a.loadLane r.team r.grp e.1 r.op line false (loadWrites d ((y.data.drop (e.2 % 128)).take n))) gone
        | none => gone.partQueue o ⟨.ld r.team r.grp lanes d n r.op, agentOf (homeKey (128 * line)) t.die t.core, t.die, t.core, 128 * line⟩)
      | none =>
        if s.hostBars line false then s.snoop line
        else
          (lanes.foldl (fun (a : State) e =>
            let q := a.load t.key ⟨e.2, ord, c, trk⟩ n
            q.2.loadLane r.team r.grp e.1 r.op line (decide (ord = 0)) (loadWrites d q.1)) (gone.meetPin t r.grp ⟨128 * line, ord, c, trk⟩)).soFence t.key (decide (ord = 0)))
    | _, _ => s

/-- A request is a load's. -/
def ReqKind.isLoad : ReqKind → Bool
  | .load .. => true
  | _ => false

/-- The load requests of an operation that their slices may begin, or have begun, are performed. -/
def State.serveLoads (s : State) (op : Nat) : State :=
  (s.reqs.filter (fun e => decide (e.2.op = op) && e.2.kind.isLoad)).foldl (fun (a : State) e =>
    match fget a.reqs e.1 with
    | some r => if a.mayBegin e.1 r then (a.beginReq e.1 r).performLoad e.1 else a
    | none => a) s

/-! ### Stores (R187) -/

/-- Insert into a list of lanes in ascending home lane. -/
def insertLane {α : Type} (x : Nat × Nat × α) : List (Nat × Nat × α) → List (Nat × Nat × α)
  | [] => [x]
  | y :: ys => if x.2.1 < y.2.1 then x :: y :: ys else y :: insertLane x ys

/-- The performing fibres of a bundle in ascending home lane. -/
def byLane {α : Type} (ls : List (Nat × Nat × α)) : List (Nat × Nat × α) := ls.foldr insertLane []

/-- The data of a store: the low bytes of its registers (R187). -/
def Fibre.storeData (f : Fibre) (pos : Nat) (d : Reg) (sz : Size) : List Byte :=
  ((List.range sz.regs).flatMap (fun i => leBytes 4 (f.get pos (d + BitVec.ofNat 8 i)).toNat)).take sz.bytes

/-- A store of one fibre, where it is performed now: whether its request goes to the part of an object instead. A store with a counter is
performed at its home before it completes. -/
def State.storeNow (s : State) (t : Team) (w : Who) (counted pool old : Bool) (bs : List Byte) (g l : Nat) (x : Target) : Bool × State :=
  match x with
  | .vault k a =>
    let es := if old then (s.fibre w.team g l).crossings pool k a bs.length else []
    (false, s.vaultWrite k a (if es.isEmpty then bs else layOld (es.map (fun e => (e.1, e.2.1, e.2.2.1, (s.vaultRead k e.2.2.1 1).getD 0 0))) a bs))
  | .glob _ lf =>
    match s.objIf lf.trk t.ctx (lf.pa / 128) with
    | some (id, o) =>
      let s1 := s.meet t.key id
      match s1.copyOf t.key id o.gen (lf.pa / 128) with
      | some c =>
        if c.excl then
          let s2 := s1.storeCopy t.key lf.pa bs
          (false, if counted then s2.wbTracked t.key id (lf.pa / 128) else s2)
        else (true, s1)
      | none => (true, s1)
    | none =>
      let s1 := s.store t.key lf bs
      (false, if counted then s1.pushLine t.key (lf.pa / 128) else s1)

/-- The stores of some fibres, in their order; those whose requests go to parts are given back. -/
def State.storeAll (s : State) (t : Team) (w : Who) (counted pool old : Bool) (data : Nat → Nat → List Byte) (ls : List (Nat × Nat × Target)) :
    List (Nat × Nat × Target) × State :=
  ls.foldl (fun (r : List (Nat × Nat × Target) × State) x =>
    let q := r.2.storeNow t w counted pool old (data x.1 x.2.1) x.1 x.2.1 x.2.2
    (if q.1 then r.1 ++ [x] else r.1, q.2)) ([], s)

/-- A store's request goes to the part of the object. -/
def State.storeQueue (s : State) (t : Team) (w : Who) (op : Nat) (bs : List Byte) (x : Nat × Nat × Target) : State :=
  match x.2.2 with
  | .glob _ lf =>
    match s.objOf t.ctx (lf.pa / 128) with
    | some (id, _) =>
      (s.partQueue id ⟨.st w.team x.1 x.2.1 bs op, agentOf (homeKey lf.pa) t.die t.core, t.die, t.core, lf.pa⟩).order w.team x.1 x.2.1
    | none => s
  | .vault _ _ => s

/-- Buffer an operation of a group for the next commit (R332). -/
def State.dxPush (s : State) (w : Who) (g : Nat) (e : DxEntry) (ops : List Nat) : State :=
  s.modGroup w.team g (fun x => { x with dxbuf := x.dxbuf ++ [⟨e, ops⟩] })

/-- The stores of a group as buffered entries: those to memory, then those to vaults. -/
def storeEntries (ls : List (Nat × List Byte × Target)) : List DxEntry :=
  let gl (trk : Bool) := ls.filterMap (fun x => match x.2.2 with | .glob _ lf => if lf.trk == trk then some (x.1, lf.pa, x.2.1) else none | .vault _ _ => none)
  let vl := ls.filterMap (fun x => match x.2.2 with | .vault k a => some (k, a, x.2.1) | .glob _ _ => none)
  ([DxEntry.st false (gl false), .st true (gl true), .stv vl]).filter (fun e => match e with | .st _ [] => false | .stv [] => false | _ => true)

/-- ST of the performing fibres. -/
def storeBody (i : Instr) (counted : Bool) (sp : Space) (d : Reg) (sz : Size) (t : Team) (ls : List (Nat × Nat × Target)) (w : Who) (s : State) : State :=
  let data (g l : Nat) : List Byte := (s.fibre w.team g l).storeData w.pos d sz
  if t.dx then
    let q := s.openOps i w (pairsOf ls)
    (groupsOf (pairsOf ls)).foldl (fun (a : State) g =>
      (storeEntries ((ls.filter (fun x => decide (x.1 = g))).map (fun x => (x.2.1, data g x.2.1, x.2.2)))).foldl
        (fun (b : State) e => b.dxPush w g e [opOf q.1 g]) a) q.2
  else
    let old := s.crossOld w (isPool sp) sz.bytes ls
    let r := (s.meetPins t ls).storeAll t w counted (isPool sp) old data (byLane ls)
    let q := ((r.2.crossStore s w (isPool sp) old sz.bytes ls).bankAll 4 t ls).openOps i w (pairsOf ls)
    let s1 := r.1.foldl (fun (a : State) x => a.storeQueue t w (opOf q.1 x.1) (data x.1 x.2.1) x) q.2
    (ls.filter (fun x => !r.1.contains x)).foldl (fun (a : State) x => a.doneLane w x.1 x.2.1 (opOf q.1 x.1) []) s1

def execSt (c : Ctl) (sz : Size) (m : MemOp) (d : Reg) (s : State) : Host.Outcome State Fault Refusal :=
  native (.st c sz m d) s (homeWith true plainTurn m.space m.a (MemOpDisp m.off sz.bytes) sz.bytes .wr .write true .ok
    (beside (storeBody (.st c sz m d) c.counted m.space d sz)))

/-! ### Prefetch and maintenance (R188, R189) -/

/-- The lines that some fibres' operands name; a fibre that fails a check names none (R188). -/
def State.prefLines (s : State) (w : Who) (t : Team) (brec : BitVec 12) (a : Reg) (disp : Int) (size : Nat) : List Leaf :=
  w.perf.filterMap (fun x =>
    match s.resolve t x.1 (s.fibre w.team x.1 x.2) w.pos (.global brec) a disp size .rd .read with
    | .ok (.glob _ lf) => some lf
    | _ => none)

/-- PREF.L1: a line that the L1 may hold is brought there. -/
def execPrefL1 (c : Ctl) (sz : Size) (brec : BitVec 12) (a : Reg) (off : BitVec 13) (s : State) : Host.Outcome State Fault Refusal :=
  native (.prefL1 c sz brec a off) s (fun w s =>
    match s.team w.team with
    | none => s
    | some t =>
      if t.dx then s
      else (s.prefLines w t brec a (MemOpDisp off sz.bytes) sz.bytes).foldl (fun (x : State) lf =>
        if lf.cached && !lf.trk && !x.hostBars (lf.pa / 128) false then x.fill t.key (lf.pa / 128) (decide (lf.ord = 2)) else x) s)

/-- PREF.L2 changes timing only. -/
def execPrefL2 (c : Ctl) (sz : Size) (brec : BitVec 12) (a : Reg) (off : BitVec 13) (s : State) : Host.Outcome State Fault Refusal :=
  native (.prefL2 c sz brec a off) s (fun _ s => s)

/-- Maintenance of a core's copy of a line: 0 WB, 1 WBINV, 2 WBMEM (R189). -/
def State.maintain (s : State) (k line op : Nat) : State :=
  match (s.core k).line line with
  | none => s
  | some x =>
    match x.obj with
    | some (id, _) =>
      if op = 1 && !(s.core k).pins.contains line then s.dropTracked k id line else s.wbTracked k id line
    | none => if op = 1 then s.evictLine k line else s.pushLine k line

/-- The line of a global target. -/
def Target.line : Target → Nat
  | .glob _ lf => lf.pa / 128
  | .vault _ _ => 0

/-- CMAINT of every performing fibre. -/
def cmaintBody (i : Instr) (op : Nat) (sz : Size) (brec : BitVec 12) (a : Reg) (off : BitVec 13) : Who → State → State :=
  memBody (.global brec) a (MemOpDisp off sz.bytes) sz.bytes .rdOrWr .maint false (fun t ls w s =>
    if t.dx then
      let q := s.openOps i w (pairsOf ls)
      (groupsOf (pairsOf ls)).foldl (fun (b : State) g =>
        b.dxPush w g (.cmaint op ((ls.filter (fun x => decide (x.1 = g))).map (fun x => x.2.2.line))) [opOf q.1 g]) q.2
    else
      let q := (ls.foldl (fun (b : State) x => b.maintain t.key x.2.2.line op) s).openOps i w (pairsOf ls)
      ls.foldl (fun (b : State) x => b.doneLane w x.1 x.2.1 (opOf q.1 x.1) []) q.2)

def execCmaintWb (c : Ctl) (sz : Size) (brec : BitVec 12) (a : Reg) (off : BitVec 13) (s : State) : Host.Outcome State Fault Refusal :=
  native (.cmaintWb c sz brec a off) s (cmaintBody (.cmaintWb c sz brec a off) 0 sz brec a off)

def execCmaintWbinv (c : Ctl) (sz : Size) (brec : BitVec 12) (a : Reg) (off : BitVec 13) (s : State) : Host.Outcome State Fault Refusal :=
  native (.cmaintWbinv c sz brec a off) s (cmaintBody (.cmaintWbinv c sz brec a off) 1 sz brec a off)

def execCmaintWbmem (c : Ctl) (sz : Size) (brec : BitVec 12) (a : Reg) (off : BitVec 13) (s : State) : Host.Outcome State Fault Refusal :=
  native (.cmaintWbmem c sz brec a off) s (cmaintBody (.cmaintWbmem c sz brec a off) 2 sz brec a off)

/-! ### Fences and remote acquire (R280, R281) -/

/-- The effect of a fence of a core's fibres: its release side, then its acquire side. -/
def State.fence (s : State) (k : Nat) (kind : FenceKind) (scope : Scope) (uo : Bool) : State :=
  let s1 := match kind with
    | .acq => s
    | _ => s.releaseSide k uo scope
  match kind with
  | .rel => s1
  | _ => s1.acquireSide k uo scope

/-- A fence of the performing fibres (R280): one that covers both sides at TEAM scope or wider orders their accesses to vaults too (R252). -/
def State.fenceBy (s : State) (w : Who) (k : Nat) (kind : FenceKind) (scope : Scope) (uo : Bool) : State :=
  (match kind with
    | .ar | .sc => if scopeTeam scope then s.uncrossAll w else s
    | _ => s).fence k kind scope uo

def execFence (c : Ctl) (kind : FenceKind) (scope : Scope) (uo : Bool) (s : State) : Host.Outcome State Fault Refusal :=
  native (.fence c kind scope uo) s (afterOrder (fun w s =>
    match s.team w.team with
    | none => s
    | some t =>
      let q := (if t.dx then s else s.fenceBy w t.key kind scope uo).openOps (.fence c kind scope uo) w w.perf
      w.perf.foldl (fun (a : State) x => a.doneLane w x.1 x.2 (opOf q.1 x.1) []) q.2))

/-- An access that has a name is still on its way: a request, a copy, or an operation's request at a part of an object (R179). -/
def State.inFlight (s : State) (name : Nat) : Bool :=
  (fget s.reqs name).isSome || s.cores.any (fun e => (fget e.2.copies name).isSome) ||
  s.slices.any (fun e => e.2.parts.any (fun p => (p.2.queue ++ (match p.2.second with | some x => [x.2] | none => [])).any (fun rq => match rq.kind with
    | .ld _ _ _ _ _ op => decide (op = name)
    | .st _ _ _ _ op => decide (op = name)
    | _ => false)))

/-- The accesses to memory of some teams that are on their way with a physical address (R179). -/
def State.flying (s : State) (mine : Nat → Bool) : List Nat :=
  (s.reqs.filter (fun e => mine e.2.team && e.2.kind.line?.isSome)).map (·.1) ++
  s.cores.flatMap (fun e => (e.2.copies.filter (fun c => mine c.2.team && (match c.2.kind with | .acpy (.mem _) .. => true | _ => false))).map (·.1)) ++
  s.slices.flatMap (fun e => e.2.parts.flatMap (fun p => (p.2.queue ++ (match p.2.second with | some x => [x.2] | none => [])).filterMap (fun rq => match rq.kind with
    | .ld t _ _ _ _ op => if mine t then some op else none
    | .st t _ _ _ op => if mine t then some op else none
    | _ => none)))

/-- An operation waits for some accesses to end before it completes. -/
def State.opAfter (s : State) (op : Nat) (names : List Nat) : State := { s with ops := fmod s.ops op (fun o => { o with after := o.after ++ names }) }

/-- The victim of an ACQR is no core of the partition (R281). -/
def State.victimBad (s : State) (t : Team) (v : Word) : Bool :=
  let core := v.toNat % 256
  let die := v.toNat / 256 % 2
  decide (72 ≤ core) || s.absentCore die core || !s.inRect t.part die core

/-- A core writes back every dirty line that belongs to no object and drops those lines; pinned ones stay (R281). -/
def State.flushUntracked (s : State) (k : Nat) : State :=
  ((s.core k).l1.filter (fun x => x.obj.isNone)).foldl (fun a x => a.evictLine k x.line) s

/-- The request of one fibre: the victim's write-back, then the acquire. -/
def State.acqrDo (s : State) (t : Team) (uo : Bool) (die core : Nat) : State := (s.flushUntracked (coreKey die core)).acquire t.key uo

/-- ACQR of the performing fibres. -/
def doAcqr (c : Ctl) (uo : Bool) (a : Reg) (w : Who) (s : State) : State :=
  match s.team w.team with
  | none => s
  | some t =>
    let vals := w.perf.map (fun x => (x.1, x.2, (s.fibre w.team x.1 x.2).get w.pos a))
    let bad := vals.filter (fun x => s.victimBad t x.2.2)
    let good := vals.filter (fun x => !s.victimBad t x.2.2)
    let s1 := bad.foldl (fun (y : State) x => y.takeTrap w w.word x.1 x.2.1 (.access 4 (x.2.2.setWidth 64))) s
    let q := s1.openFor (.acqr c uo a) w (pairsOf good)
    good.foldl (fun (y : State) x =>
      let die := x.2.2.toNat / 256 % 2
      let core := x.2.2.toNat % 256
      let op := opOf q.1 x.1
      if t.dx then (y.acqrDo t uo die core).doneLane w x.1 x.2.1 op []
      else (y.sendReq ⟨w.team, x.1, op, .acqr uo die core x.2.1, false, false, 0, false, none⟩).order w.team x.1 x.2.1) q.2

def execAcqr (c : Ctl) (uo : Bool) (a : Reg) (s : State) : Host.Outcome State Fault Refusal :=
  native (.acqr c uo a) s (afterOrder (syncBody (.acqr c uo a) .fibre (doAcqr c uo a)))

/-- The victim of an ACQR writes its lines back, and the requester's acquire follows (R281). -/
def execAcqrWriteback (req : Nat) (s : State) : Host.Outcome State Fault Refusal :=
  event s (fun s =>
    match fget s.reqs req with
    | some r =>
      (match r.kind, s.team r.team with
      | .acqr uo die core lane, some t =>
        ({ s.acqrDo t uo die core with reqs := fdel s.reqs req }).answerLane r lane []
      | _, _ => s)
    | none => s)

/-- The dirty bytes of a core's copy of a line take their place at the home; the copy stays, or is evicted (R247, R266, R314). -/
def execHomeStorePerformed (die core line : Nat) (evict : Bool) (s : State) : Host.Outcome State Fault Refusal :=
  event s (fun s => s.maintain (coreKey die core) line (if evict then 1 else 0))

end Sys2Proof.Machine
end

