-- ==== Sys2Proof/Machine/Copies.lean ====
section
/-!
DEFINITION. Transaction barriers and the copies of a core's Sluice (R190 to R199, R261).
-/

namespace Sys2Proof.Machine

/-! ### Transaction barriers (R195, R197) -/

/-- The fields of a barrier word. -/
structure TBar where
  phase    : Nat
  arrivals : Nat
  per      : Nat
  sectors  : Int
  rest     : Nat
deriving DecidableEq, Repr

def tbarOf (x : Nat) : TBar := ⟨field x 3 0, field x 23 4, field x 43 24, sextNat 32 (field x 75 44), field x 127 76⟩

def TBar.bits (b : TBar) : Nat := b.phase + b.arrivals * 2 ^ 4 + b.per * 2 ^ 24 + wrapNat 32 b.sectors * 2 ^ 44 + b.rest * 2 ^ 76

/-- A phase completes when nothing is pending (R197). -/
def TBar.settle (b : TBar) : TBar :=
  if b.arrivals = 0 && decide (b.sectors = 0) then { b with phase := (b.phase + 1) % 16, arrivals := b.per, sectors := 0 } else b

/-- Add to the pending sectors, wrapping at 32 bits. -/
def TBar.pledge (b : TBar) (n : Int) : TBar := { b with sectors := sextNat 32 (wrapNat 32 (b.sectors + n)) }

def TBar.arrive (b : TBar) : TBar := { b with arrivals := b.arrivals - 1 }

/-- The operations of R196: 0 INIT, 1 ARRIVE, 2 ARRIVE.SECT, 3 SECT, with the value of V[D]. -/
def TBar.apply (b : TBar) (code : Nat) (v : Word) : TBar :=
  match code with
  | 0 => let n := if v.toNat % 2 ^ 20 = 0 then 1 else v.toNat % 2 ^ 20; ⟨0, n, n, 0, 0⟩
  | 1 => b.arrive
  | 2 => (b.pledge v.toInt).arrive
  | _ => b.pledge v.toInt

/-- The barrier at a vault address. -/
def State.tbarAt (s : State) (k a : Nat) : TBar := tbarOf (leNat (s.vaultRead k a 16))

/-- Release every fibre that waits for an earlier phase of a barrier (R197, R198): each is an acquire of CLUSTER scope (R260). -/
def State.tbarWake (s : State) (k a phase : Nat) : State :=
  s.teams.foldl (fun (x : State) e =>
    (List.range e.2.groups.length).foldl (fun (y : State) g =>
      (List.range 32).foldl (fun (z : State) l =>
        match (z.fibre e.1 g l).wait with
        | some (.tbar k1 a1 ph op) =>
          if k1 = k && decide (a1 = a) && decide (ph.toNat ≠ phase) then (z.release e.1 g l op []).acquire e.2.key false else z
        | _ => z) y) x) s

/-- Apply a change to a barrier, complete its phase if nothing is pending, and release its waiters on a completion. -/
def State.tbarDo (s : State) (k a : Nat) (h : TBar → TBar) : State :=
  let b := h (s.tbarAt k a)
  let c := b.settle
  let s1 := s.vaultWrite k a (leBytes 16 c.bits)
  if c = b then s1 else s1.tbarWake k a c.phase

/-- The vault place of a target. -/
def Target.place : Target → Nat × Nat
  | .vault k a => (k, a)
  | .glob _ _ => (144, 0)

/-- The space of a TBAR. -/
def tbarSpace (pool : Bool) : Space := if pool then .pool else .vault

/-- The step of a bank clock in which an operation on a barrier is applied: INIT first, then the Sluice's, then arrivals, then pledges (R199). -/
def tbarStep (code : Nat) : Nat := if code = 0 then 0 else if code = 3 then 3 else 2

/-- INIT, ARRIVE, ARRIVE.SECT and SECT of the performing fibres, one at a time in ascending home lane (R197). The arriving forms release
at CLUSTER scope (R260). -/
def tbarBody (i : Instr) (code : Nat) (pool : Bool) (a : Reg) (off : BitVec 13) (d : Reg) : Who → State → State :=
  homeWith false (bankTurn (tbarStep code)) (tbarSpace pool) a (MemOpDisp off 16) 16 .rd .read false .ok (fun t ls w s =>
    let val (g l : Nat) : Word := (s.fibre w.team g l).get w.pos d
    if t.dx then
      let q := s.openOps i w (pairsOf ls)
      (groupsOf (pairsOf ls)).foldl (fun (b : State) g =>
        b.dxPush w g (.tbar code ((ls.filter (fun x => decide (x.1 = g))).map (fun x => (x.2.2.place.1, x.2.2.place.2, val g x.2.1)))) [opOf q.1 g]) q.2
    else
      let s1 := if code = 1 || code = 2 then s.releaseSide t.key false .cluster else s
      let q := (((byLane ls).foldl (fun (b : State) x => b.tbarDo x.2.2.place.1 x.2.2.place.2 (fun y => y.apply code (val x.1 x.2.1))) s1).bankAll
        (tbarStep code) t ls).openOps i w (pairsOf ls)
      ls.foldl (fun (b : State) x => b.doneLane w x.1 x.2.1 (opOf q.1 x.1) []) q.2)

def execTbarInit (c : Ctl) (pool : Bool) (a : Reg) (off : BitVec 13) (d : Reg) (s : State) : Host.Outcome State Fault Refusal :=
  native (.tbarInit c pool a off d) s (tbarBody (.tbarInit c pool a off d) 0 pool a off d)

def execTbarArrive (c : Ctl) (pool : Bool) (a : Reg) (off : BitVec 13) (s : State) : Host.Outcome State Fault Refusal :=
  native (.tbarArrive c pool a off) s (tbarBody (.tbarArrive c pool a off) 1 pool a off a)

def execTbarArriveSect (c : Ctl) (pool : Bool) (a : Reg) (off : BitVec 13) (d : Reg) (s : State) : Host.Outcome State Fault Refusal :=
  native (.tbarArriveSect c pool a off d) s (tbarBody (.tbarArriveSect c pool a off d) 2 pool a off d)

def execTbarSect (c : Ctl) (pool : Bool) (a : Reg) (off : BitVec 13) (d : Reg) (s : State) : Host.Outcome State Fault Refusal :=
  native (.tbarSect c pool a off d) s (tbarBody (.tbarSect c pool a off d) 3 pool a off d)

/-- TBAR.WAIT: a fibre whose phase is past goes on, as an acquire of CLUSTER scope; the others wait. -/
def doTbarWait (c : Ctl) (pool : Bool) (a : Reg) (off : BitVec 13) (d : Reg) : Who → State → State :=
  homeWith false (bankTurn 5) (tbarSpace pool) a (MemOpDisp off 16) 16 .rd .read false .ok (fun t ls w s =>
    let q := (s.bankAll 5 t ls).openFor (.tbarWait c pool a off d) w (pairsOf ls)
    (byLane ls).foldl (fun (b : State) x =>
      let ph : BitVec 4 := ((s.fibre w.team x.1 x.2.1).get w.pos d).setWidth 4
      let op := opOf q.1 x.1
      if (b.tbarAt x.2.2.place.1 x.2.2.place.2).phase = ph.toNat then
        b.waitOr w x.1 x.2.1 (.tbar x.2.2.place.1 x.2.2.place.2 ph op)
      else (b.acquire t.key false).doneLane w x.1 x.2.1 op []) q.2)

def execTbarWait (c : Ctl) (pool : Bool) (a : Reg) (off : BitVec 13) (d : Reg) (s : State) : Host.Outcome State Fault Refusal :=
  native (.tbarWait c pool a off d) s (syncBody (.tbarWait c pool a off d) .fibre (doTbarWait c pool a off d))

/-- TBAR.TEST reads the phase and the pending arrivals. -/
def doTbarTest (c : Ctl) (pool : Bool) (a : Reg) (off : BitVec 13) (d : Reg) : Who → State → State :=
  homeWith false (bankTurn 5) (tbarSpace pool) a (MemOpDisp off 16) 16 .rd .read false .ok (fun t ls w s =>
    let q := (s.bankAll 5 t ls).openFor (.tbarTest c pool a off d) w (pairsOf ls)
    ls.foldl (fun (b : State) x =>
      let y := s.tbarAt x.2.2.place.1 x.2.2.place.2
      b.doneLane w x.1 x.2.1 (opOf q.1 x.1) [(.v d, BitVec.ofNat 32 (y.phase + 16 * y.arrivals))]) q.2)

def execTbarTest (c : Ctl) (pool : Bool) (a : Reg) (off : BitVec 13) (d : Reg) (s : State) : Host.Outcome State Fault Refusal :=
  native (.tbarTest c pool a off d) s (syncBody (.tbarTest c pool a off d) .fibre (doTbarTest c pool a off d))

/-! ### ACPY (R191, R192) -/

/-- Start a copy on a core's Sluice. -/
def State.addCopy (s : State) (k : Nat) (c : Copy) : State :=
  let q := s.fresh
  q.2.modCore k (fun x => { x with copies := fset x.copies q.1 c })

/-- The checks of one fibre's ACPY, in order (R191): its copy, with the page of a GLOBAL source. -/
def State.acpyOf (s : State) (w : Who) (t : Team) (g l : Nat) (size : Nat) (src : ASrc) (x y z : Reg) : Res (CopyKind × Option Target) :=
  let f := s.fibre w.team g l
  let all := List.replicate size true
  (State.resolveVault t (f.get w.pos x).toNat size size).andThen (fun d =>
    (match src with
      | .global b => (s.resolve t g f w.pos (.global b) y 0 size .rd .read)
      | .vault => State.resolveVault t (f.get w.pos y).toNat size size).andThen (fun r =>
      (State.resolveVault t (f.get w.pos z).toNat 16 16).andThen (fun b =>
        match r with
        | .glob va lf => .ok (.acpy (.mem lf.pa) d.place.2 size b.place.2 all lf.trk, some (.glob va lf))
        | .vault k a => .ok (.acpy (.vault k a) d.place.2 size b.place.2 all false, none))))

/-- The copies of one ACPY: each byte of a destination is supplied by the highest home lane that writes it (R191). -/
def shadow (ls : List (Nat × Nat × CopyKind)) : List (Nat × Nat × CopyKind) :=
  ls.map (fun x => (x.1, x.2.1, match x.2.2 with
    | .acpy src dst size bar _ trk =>
      .acpy src dst size bar ((List.range size).map (fun i => !(ls.any (fun y => decide (x.2.1 < y.2.1) && (match y.2.2 with
        | .acpy _ d2 n2 _ _ _ => decide (d2 ≤ dst + i) && decide (dst + i < d2 + n2)
        | _ => false))))) trk
    | k => k))

/-- The space of an ACPY's source. -/
def sourceSpace : ASrc → Space
  | .global b => .global b
  | .vault => .vault

/-- What the core owes of a copy's source line is performed before the copy reads it, as a read of the page's kind does (R191). -/
def State.pushSource (s : State) (k : Nat) (c : CopyKind) : State :=
  match c with
  | .acpy (.mem pa) .. => s.pushAny k (pa / 128)
  | _ => s

def execAcpy (c : Ctl) (sz : Size) (src : ASrc) (x y z : Reg) (s : State) : Host.Outcome State Fault Refusal :=
  native (.acpy c sz src x y z) s (afterOrder (fun w s =>
    match s.team w.team with
    | none => s
    | some t =>
      let r := s.gate w (fun g l => s.acpyOf w t g l sz.bytes src x y z)
      let pages := r.1.filterMap (fun e => e.2.2.2.map (fun p => (e.1, e.2.1, p)))
      let held := s.hostLines t .rd pages false
      if !held.isEmpty then (held.foldl (fun (a : State) l => a.snoop l) s).hold w
      else
        let s1 := (r.2.touchAll t pages .read).soFenceBy w t.key (anySo pages)
        let q := (s1.keepSpace t (sourceSpace src)).openOps (.acpy c sz src x y z) w (pairsOf r.1)
        let items := shadow (r.1.map (fun e => (e.1, e.2.1, e.2.2.1)))
        if t.dx then
          (groupsOf (pairsOf items)).foldl (fun (a : State) g =>
            a.dxPush w g (.acpy ((items.filter (fun e => decide (e.1 = g))).map (fun e => (e.2.1, e.2.2)))) [opOf q.1 g]) q.2
        else
          items.foldl (fun (a : State) e =>
            (a.pushSource t.key e.2.2).addCopy t.key ⟨w.team, e.1, e.2.1, [opOf q.1 e.1], e.2.2, 0, none, []⟩) q.2))

/-! ### MCPY (R193, R194) -/

/-- A shape record behind a buffer record: its 64 bytes at the virtual address (R193, R216, R232). -/
def State.readShape (s : State) (t : Team) (g : Nat) (va : Nat) : Res (Nat × Leaf) :=
  (s.xlate t g va .read 2).andThen (fun lf => .ok (leNat (s.fibreSees t g lf 64), lf))

/-- The checks of the leader of an MCPY (R193). -/
def State.mcpyOf (s : State) (w : Who) (t : Team) (lead : Nat × Nat) (brec : BitVec 12) (x y z : Reg) : Res CopyKind :=
  let f := s.fibre w.team lead.1 lead.2
  let off := (f.get w.pos y).toNat
  let dst := (f.get w.pos x).toNat
  let mask := (f.get w.pos z).toNat % 4096
  let bar := (f.get w.pos (z + 1)).toNat
  (Res.check (decide (off % 64 ≠ 0)) (.misaligned (dw off))).andThen (fun _ =>
    (s.recFor t lead.1 brec.toNat off).andThen (fun b =>
      (Res.check (!b.passes .rd off 64) (.access 1 (dw ((b.base : Int) + off)))).andThen (fun _ =>
        (s.readShape t lead.1 (b.base + off)).andThen (fun sh =>
          let h := shapeOf sh.1
          let badShape : Trap := .access 4 (dw ((b.base : Int) + off))
          (match s.bufRec t h.brec with
            | none => Res.trap badShape
            | some _ => s.recFor t lead.1 h.brec h.offset).andThen (fun rb =>
            (Res.check (h.badFor rb .rd) badShape).andThen (fun _ =>
              (Res.check (decide (h.bytes % 4 ≠ 0) || (h.half && decide (h.count % 8 ≠ 0))) (.misaligned 0)).andThen (fun _ =>
                (Res.check (decide (dst % 4 ≠ 0)) (.misaligned (dw dst))).andThen (fun _ =>
                  (Res.check (!h.empty && !t.vaultOk dst h.bytes) (.access 1 (dw dst))).andThen (fun _ =>
                    (Res.check (decide (2 ^ (t.kern.clw * t.kern.clh) ≤ mask)) (.access 4 0)).andThen (fun _ =>
                      (Res.check (decide (bar % 16 ≠ 0)) (.misaligned (dw bar))).andThen (fun _ =>
                        (Res.check (!t.vaultOk bar 16) (.access 1 (dw bar))).andThen (fun _ =>
                          .ok (.mcpy sh.1 rb.base h.bytes dst mask bar)))))))))))))

/-- The lanes of an operation are done. -/
def State.finishOps (s : State) (ops : List Nat) : State :=
  { s with ops := ops.foldl (fun m id => fmod m id (fun (o : Op) => { o with left := [] })) s.ops }

def execMcpy (c : Ctl) (brec : BitVec 12) (x y z : Reg) (s : State) : Host.Outcome State Fault Refusal :=
  native (.mcpy c brec x y z) s (afterOrder (fun w s =>
    match s.team w.team, w.leader with
    | some t, some lead =>
      let r := s.leaderGate w (s.mcpyOf w t lead brec x y z)
      match r.1 with
      | none => r.2
      | some kind =>
        let q := (r.2.keepRec t brec.toNat).openOps (.mcpy c brec x y z) w w.perf
        let ops := q.1.map (·.2)
        if t.dx then q.2.dxPush w lead.1 (.mcpy lead.2 kind) ops
        else
          let copy : Copy := ⟨w.team, lead.1, lead.2, ops, kind, 0, none, []⟩
          match kind with
          | .mcpy _ _ bytes _ mask _ =>
            if bytes = 0 || decide (mask = 0) then q.2.finishOps ops else (q.2.pushAll t.key true).addCopy t.key copy
          | _ => q.2
    | _, _ => s))

/-! ### Sectors landing (R191, R193, R194) -/

/-- Some bytes of a source, one sector, as a read at their home. -/
def State.sourceRead (s : State) (ctx die : Nat) (trk : Bool) (pl : Place) (off n : Nat) : List Byte × State :=
  match pl with
  | .mem pa => s.engineRead ctx die trk (pa + off) n
  | .vault k a => (s.vaultRead k (a + off) n, s)

/-- The bytes of some sectors of a copy's source from a byte on: those that a commit has read, else as they stand now. -/
def Copy.bytesOr (c : Copy) (off n : Nat) (now : List Byte × State) (s : State) : List Byte × State :=
  if off + n ≤ c.data.length then ((c.data.drop off).take n, s) else now

/-- Write the bytes of a sector that a lane supplies. -/
def State.writeKept (s : State) (k a : Nat) (bs : List Byte) (keep : List Bool) : State :=
  (List.range bs.length).foldl (fun (x : State) i => if keep.getD i true then x.vaultWrite k (a + i) [bs.getD i 0] else x) s

/-- The copy-fault record of an engine, and the kill (R194, R361): the kind of the fault, and the engine. -/
def State.engineKill (s : State) (ctx : Nat) (who : LogWho) (va kind engine : Nat) : State :=
  s.askKill ⟨ctx, 3, who, leBytes 8 va ++ [BitVec.ofNat 8 kind, BitVec.ofNat 8 engine]⟩

/-- The kind of a fault that no retry can mend. -/
def faultKind : XErr → Nat
  | .miss _ => 1
  | .malformed => 2
  | .perm => 3

/-- Abandon a copy whose translation cannot be had: the record and the kill (R194, R361). -/
def State.abandonCopy (s : State) (k id : Nat) (va kind : Nat) : State :=
  match fget (s.core k).copies id with
  | none => s
  | some c =>
    let s1 := s.modCore k (fun x => { x with copies := fdel x.copies id })
    match s1.team c.team with
    | some t => s1.engineKill t.ctx (t.who c.grp) va kind 1
    | none => s1

/-- A member is saved: a copy into it waits. -/
def State.memberAway (s : State) (t : Team) (m : Nat) : Bool :=
  match s.member t m with
  | some (_, x) => (match x.status with | .saved .. => true | _ => false)
  | none => false

/-- Where bytes of a tile lie: their pages' addresses, or the virtual address that fails and why. -/
def State.tilePas (s : State) (key : Option Nat) (die : Nat) (c : Ctx) (h : Shape) (base : Int) (first n : Nat) : Except (Nat × XErr) (List Leaf) :=
  (List.range n).foldl (fun (r : Except (Nat × XErr) (List Leaf)) i =>
    match r with
    | .error e => .error e
    | .ok ps =>
      let va := (base + h.byteOff (first + i)).toNat
      match s.translate key die c va .read with
      | .ok lf => .ok (ps ++ [lf])
      | .error e => .error (va, e)) (.ok [])

/-- Read bytes at some physical addresses as an engine. -/
def State.enginePas (s : State) (ctx die : Nat) (pas : List Leaf) : List Byte × State :=
  pas.foldl (fun (r : List Byte × State) lf => let q := r.2.engineRead ctx die lf.trk lf.pa 1; (r.1 ++ q.1, q.2)) ([], s)

/-- The members of a mask. -/
def maskMembers (mask : Nat) : List Nat := (List.range 12).filter (fun m => mask.testBit m)

/-- Set how far a copy has come; one that is done counts its operations down. -/
def State.copyAt (s : State) (k id : Nat) (c : Copy) (done total : Nat) : State :=
  if done < total then s.modCore k (fun x => { x with copies := fset x.copies id { c with done := done } })
  else
    let s1 := s.modCore k (fun x => { x with copies := fdel x.copies id })
    match c.kind with
    | .acpy .. => s1.opLane (c.ops.headD 0) c.lane []
    | .mcpy .. => s1.finishOps c.ops

/-- Land m sectors of an ACPY item. -/
def State.landItems (s : State) (k id : Nat) (c : Copy) (t : Team) (m : Nat) (src : Place) (dst size bar : Nat) (keep : List Bool) (trk : Bool) : State :=
  let s1 := (List.range m).foldl (fun (x : State) i =>
    let o := 4 * (c.done + i)
    let r := c.bytesOr o 4 (x.sourceRead t.ctx t.die trk src o 4) x
    r.2.writeKept k (dst + o) r.1 (keep.drop o)) s
  if m = 0 || s.bankLate [1] k bar then s
  else ((s1.tbarDo k bar (fun b => b.pledge (-(m : Int)))).bankTake [1] k bar).copyAt k id c (c.done + m) (size / 4)

/-- Land the next sectors of an ACPY item. -/
def State.landAcpy (s : State) (k id : Nat) (c : Copy) (t : Team) (n : Nat) (src : Place) (dst size bar : Nat) (keep : List Bool) (trk : Bool) : State :=
  let m := min n (size / 4 - c.done)
  match src with
  | .mem pa => (match (if c.data.isEmpty then s.engineSnoops [pa] false else none) with | some s0 => s0 | none => s.landItems k id c t m src dst size bar keep trk)
  | .vault _ _ => s.landItems k id c t m src dst size bar keep trk

/-- How many of the next n sectors of a tile have their pages. -/
def State.tileReady (s : State) (key : Option Nat) (die : Nat) (c : Ctx) (h : Shape) (base : Int) (first n : Nat) : Nat :=
  ((List.range n).takeWhile (fun i => match s.tilePas key die c h base (4 * (first + i)) 4 with | .ok _ => true | .error _ => false)).length

/-- The members of a copy's mask. -/
def State.copyMembers (s : State) (t : Team) (mask : Nat) : List Team := (maskMembers mask).filterMap (fun m => (s.member t m).map (·.2))

/-- Land the next sectors of an MCPY in every member, as far as their pages are at hand: each member's barrier loses them at once (R193, R199). -/
def State.landMcpy (s : State) (k id : Nat) (c : Copy) (t : Team) (n shape base bytes dst mask bar : Nat) : State :=
  let cx := s.ctxOf t
  let known := c.data.length / 4 - c.done
  let want := min n (bytes / 4 - c.done)
  let m := if 0 < known then min known want else max 1 (s.tileReady (some k) t.die cx (shapeOf shape) base c.done want)
  let at_ : Except (Nat × XErr) (List Leaf) := if 0 < known then .ok [] else s.tilePas (some k) t.die cx (shapeOf shape) base (4 * c.done) (4 * m)
  match at_ with
  | .ok pas =>
    (match s.engineSnoops (pas.map (·.pa)) false with
    | some s0 => s0
    | none =>
      let ys := s.copyMembers t mask
      if ys.any (fun y => s.bankLate [1] y.key (y.dataBase + bar)) then s
      else
        let r := c.bytesOr (4 * c.done) (4 * m) (s.enginePas t.ctx t.die pas) s
        let s1 := ys.foldl (fun (x : State) y =>
          ((x.vaultWrite y.key (y.dataBase + dst + 4 * c.done) r.1).tbarDo y.key (y.dataBase + bar) (fun b => b.pledge (-(m : Int)))).bankTake
            [1] y.key (y.dataBase + bar)) r.2
        s1.copyAt k id c (c.done + m) (bytes / 4))
  | .error (va, e) =>
    match e with
    | .miss lv =>
      if s.fqOn cx then
        let q := s.askFault cx (.copy t.die t.core id) ⟨va, lv, false, false, true, t.core, t.die, 0⟩
        q.2.modCore k (fun x => { x with copies := fset x.copies id { c with paused := some q.1 } })
      else s.abandonCopy k id va 1
    | _ => s.abandonCopy k id va (faultKind e)

/-- Sectors of a Sluice copy land in the vault in one bank clock (R191, R193, R197). A copy of a team that runs on waits only for an
answer to its own fault record. -/
def execSluiceSectorLand (die core copy sectors : Nat) (s : State) : Host.Outcome State Fault Refusal :=
  event s (fun s =>
    let k := coreKey die core
    match fget (s.core k).copies copy with
    | some c =>
      (match c.kind, s.team c.team with
      | .acpy src dst size bar keep trk, some t => s.landAcpy k copy c t sectors src dst size bar keep trk
      | .mcpy shape base bytes dst mask bar, some t =>
        if c.paused.isSome || decide (sectors = 0) || (maskMembers mask).any (s.memberAway t) then s
        else s.landMcpy k copy c t sectors shape base bytes dst mask bar
      | _, none => s)
    | none => s)

end Sys2Proof.Machine
end

