-- ==== Sys2Proof/Machine/Atomics.lean ====
section
/-!
DEFINITION. Atomics, exact sums and monitors (R269 to R279, R286 to R289).
-/

namespace Sys2Proof.Machine

/-! ### Requests to a home (R271, R272) -/

/-- Where an atomic acts, and the object part that orders it when its line belongs to one. -/
structure Spot where
  place   : Place
  tracked : Option (Nat × Nat)
  trk     : Bool
  so      : Bool
deriving DecidableEq, Repr

/-- The spot of a resolved operand. -/
def State.spotOf (s : State) (t : Team) (x : Target) : Spot :=
  match x with
  | .vault k a => ⟨.vault k a, none, false, false⟩
  | .glob _ lf =>
    ⟨.mem lf.pa, (s.objIf lf.trk t.ctx (lf.pa / 128)).map (fun o => (o.1, lf.pa)), lf.trk, decide (lf.ord = 0)⟩

/-- Perform a request at once: for a line of an object, as its part's protocol takes it (R271, R334). -/
def State.performNow (s : State) (t : Team) (id : Nat) (tracked : Option (Nat × Nat)) : State :=
  match tracked with
  | none => s.performReq id
  | some (o, pa) =>
    let sk := homeKey pa
    ((s.partSettle sk o).partRequest sk o ⟨.atom id, agentOf sk t.die t.core, t.die, t.core, pa⟩).partSettle sk o

/-- An atomic on an SO page has fences beside it (R250): it covers both sides at the widest scope. -/
def spotOrder (sp : Spot) (o : Order) : Order := if sp.so then .ar else o
def spotScope (sp : Spot) (c : Scope) : Scope := if sp.so then .system else c

/-- The group aggregator (R272): for each group, one request for each location, its lanes in ascending order; those to vaults are marked as of one
instruction (R264). In a deterministic grid the requests are performed here, at the commit. -/
def State.sendAll (s : State) (w : Who) (t : Team) (ops : List (Nat × Nat)) (ls : List (Nat × Nat × Target))
    (mk : Nat → Spot → List Nat → ReqKind) : State :=
  let n := s.fresh
  (groupsOf (pairsOf ls)).foldl (fun (a : State) g =>
    let mine := (ls.filter (fun x => decide (x.1 = g))).map (fun x => (x.2.1, s.spotOf t x.2.2))
    ((mine.map (·.2)).eraseDups).foldl (fun (b : State) sp =>
      let lanes := (mine.filter (fun x => decide (x.2 = sp))).map (·.1)
      let r : Req := ⟨w.team, g, opOf ops g, mk g sp lanes, sp.trk, sp.so, if sp.place.line?.isNone then n.1 else 0, false, none⟩
      if t.dx then
        let q := b.fresh
        State.performNow { q.2 with reqs := fset q.2.reqs q.1 r } t q.1 sp.tracked
      else lanes.foldl (fun (c : State) l => c.order w.team g l) (b.sendReq r)) a) n.2

/-- The operand of an atomic: a register, or a pair for the wide types. -/
def Fibre.operand (f : Fibre) (pos : Nat) (d : Reg) (ty : ITy) : Nat := (f.getW pos d ty.is64).toNat

/-- The bytes of an atomic's type. -/
def atomBytes (ty : ITy) : Nat := ty.width / 8

/-! ### ATOM and ATOMN (R273 to R275) -/

/-- The requests of ATOM and ATOMN. -/
def atomReqs (w : Who) (s : State) (k : ACtl) (op : AtomOp) (ty : ITy) (d : Reg) (ret : Bool) (g : Nat) (sp : Spot) (lanes : List Nat) : ReqKind :=
  .atom k.uo (spotOrder sp k.order) (spotScope sp k.scope) op ty ret sp.place
    (lanes.map (fun l => (l, d, (s.fibre w.team g l).operand w.pos d ty)))

/-- ATOM of the performing fibres. -/
def doAtom (c : Ctl) (k : ACtl) (op : AtomOp) (ty : ITy) (sp : Space) (a d : Reg) : Who → State → State :=
  homeBody sp a 0 (atomBytes ty) .at_ .rw true (fun t ls w s =>
    let q := s.openFor (.atom c k op ty sp a d) w (pairsOf ls)
    q.2.sendAll w t q.1 ls (atomReqs w s k op ty d true))

def execAtom (c : Ctl) (k : ACtl) (op : AtomOp) (ty : ITy) (sp : Space) (a d : Reg) (s : State) : Host.Outcome State Fault Refusal :=
  native (.atom c k op ty sp a d) s (syncBody (.atom c k op ty sp a d) (.location sp a) (doAtom c k op ty sp a d))

/-- A request of a buffered ATOMN or EXSUM, as the commit performs it: the request, and the object part of its line (R332). -/
def State.bufferAll (s : State) (w : Who) (t : Team) (ops : List (Nat × Nat)) (ls : List (Nat × Nat × Target))
    (mk : Nat → Spot → List Nat → ReqKind) : State :=
  (groupsOf (pairsOf ls)).foldl (fun (a : State) g =>
    let mine := (ls.filter (fun x => decide (x.1 = g))).map (fun x => (x.2.1, s.spotOf t x.2.2))
    a.dxPush w g (.reqs (((mine.map (·.2)).eraseDups).map (fun sp =>
      (sp.tracked, mk g sp ((mine.filter (fun x => decide (x.2 = sp))).map (·.1)))))) [opOf ops g]) s

def execAtomn (c : Ctl) (k : ACtl) (op : AtomOp) (ty : ITy) (sp : Space) (a d : Reg) (s : State) : Host.Outcome State Fault Refusal :=
  native (.atomn c k op ty sp a d) s (homeBody sp a 0 (atomBytes ty) .at_ .rw true (fun t ls w s =>
    let q := s.openOps (.atomn c k op ty sp a d) w (pairsOf ls)
    if t.dx then q.2.bufferAll w t q.1 ls (atomReqs w s k op ty d false)
    else q.2.sendAll w t q.1 ls (atomReqs w s k op ty d false)))

/-! ### ACAS (R276) -/

/-- ACAS of the performing fibres. -/
def doAcas (c : Ctl) (k : ACtl) (ty : ITy) (sp : Space) (a d : Reg) : Who → State → State :=
  homeBody sp a 0 (atomBytes ty) .at_ .rw true (fun t ls w s =>
    let q := s.openFor (.acas c k ty sp a d) w (pairsOf ls)
    let d2 : Reg := if ty.is64 then d + 2 else d + 1
    q.2.sendAll w t q.1 ls (fun g p lanes =>
      .acas k.uo (spotOrder p k.order) (spotScope p k.scope) ty p.place
        (lanes.map (fun l => (l, d, (s.fibre w.team g l).operand w.pos d ty, (s.fibre w.team g l).operand w.pos d2 ty)))))

def execAcas (c : Ctl) (k : ACtl) (ty : ITy) (sp : Space) (a d : Reg) (s : State) : Host.Outcome State Fault Refusal :=
  native (.acas c k ty sp a d) s (syncBody (.acas c k ty sp a d) (.location sp a) (doAcas c k ty sp a d))

/-! ### Exact sums (R277, R278) -/

def execExsum (c : Ctl) (k : ACtl) (sp : Space) (a d : Reg) (s : State) : Host.Outcome State Fault Refusal :=
  native (.exsum c k sp a d) s (homeBody sp a 0 64 .at_ .rw true (fun t ls w s =>
    let q := s.openOps (.exsum c k sp a d) w (pairsOf ls)
    let mk (g : Nat) (p : Spot) (lanes : List Nat) : ReqKind :=
      .exsum k.uo (spotOrder p k.order) (spotScope p k.scope) p.place (lanes.map (fun l => (l, (s.fibre w.team g l).get w.pos d)))
    if t.dx then q.2.bufferAll w t q.1 ls mk else q.2.sendAll w t q.1 ls mk))

/-- EXCVT of the performing fibres; without CLR it only reads. -/
def doExcvt (c : Ctl) (k : ACtl) (bf16 clr : Bool) (sp : Space) (a d : Reg) : Who → State → State :=
  homeBody sp a 0 64 .at_ (if clr then .rw else .read) clr (fun t ls w s =>
    let q := s.openFor (.excvt c k bf16 clr sp a d) w (pairsOf ls)
    q.2.sendAll w t q.1 ls (fun _ p lanes =>
      .excvt k.uo (spotOrder p k.order) (spotScope p k.scope) bf16 clr p.place (lanes.map (fun l => (l, d)))))

def execExcvt (c : Ctl) (k : ACtl) (bf16 clr : Bool) (sp : Space) (a d : Reg) (s : State) : Host.Outcome State Fault Refusal :=
  native (.excvt c k bf16 clr sp a d) s (syncBody (.excvt c k bf16 clr sp a d) .fibre (doExcvt c k bf16 clr sp a d))

/-! ### Requests arriving at their homes -/

/-- The request waits at the part of an object, which performs it. -/
def State.atPart (s : State) (id : Nat) : Bool :=
  s.slices.any (fun e => e.2.parts.any (fun p =>
    p.2.queue.any (fun q => decide (q.kind = .atom id)) || (match p.2.second with | some (_, q) => decide (q.kind = .atom id) | none => false)))

/-- The vault core of a place. -/
def Place.core? : Place → Option Nat
  | .mem _ => none
  | .vault k _ => some k

/-- The outstanding requests of one instruction at one vault, in the order in which they were sent: one event there (R264). -/
def State.bunchOf (s : State) (r : Req) : List Nat :=
  (s.reqs.filter (fun e => decide (e.2.bunch = r.bunch) && decide ((e.2.kind.place?).map (fun p => p.1.core?) = (r.kind.place?).map (fun p => p.1.core?)))).map (·.1)

/-- The object whose protocol takes a request as it reaches the home of its line (R271, R321): its ID and the address. -/
def State.trackedBy (s : State) (r : Req) (pl : Place) : Option (Nat × Nat) :=
  match pl, s.team r.team with
  | .mem pa, some t => (s.objIf r.trk t.ctx (pa / 128)).map (fun o => (o.1, pa))
  | _, _ => none

/-- The part of an object performs the request when it is the next that the part admits (R271, R316). -/
def State.serveAtom (s : State) (req : Nat) (l : Nat) : State :=
  match s.objAny l with
  | some (id, _) => s.serveIf (homeKey (128 * l)) id (fun rq => decide (rq.kind = .atom req))
  | none => s

/-- A request is performed at its home in one indivisible step, once its slice has begun it (R258, R271, R370); a line of an object is taken back there
first (R271), and one that the host holds is asked of it (R326). -/
def execAtomicRequestAtHome (req : Nat) (s : State) : Host.Outcome State Fault Refusal :=
  event s (fun s =>
    match fget s.reqs req with
    | none => s
    | some r =>
      match r.kind.place? with
      | none => s
      | some (pl, wr) =>
        match pl.line? with
        | none => (s.bunchOf r).foldl (fun (a : State) id => a.performReq id) s
        | some l =>
          if !s.mayBegin req r then s
          else
            let a := s.beginReq req r
            if a.atPart req then a.serveAtom req l
            else match a.trackedBy r pl, a.team r.team with
              | some (id, pa), some t =>
                (a.partQueue id ⟨.atom req, agentOf (homeKey pa) t.die t.core, t.die, t.core, pa⟩).serveAtom req l
              | _, some t => if a.hostBars l wr then a.snoop l else (a.shed t.key l).performReq req
              | _, none => a.performReq req)

/-! ### Monitors (R286 to R289) -/

/-- The monitor read of a group at the home: its core's own copy takes its place first and goes, and for a line of an object ATM takes the line back, from
the core itself too where it still owns an exclusive part (R271, R314, R323). -/
def State.monitorRead (s : State) (t : Team) (tid g : Nat) (tracked : Option (Nat × Nat)) (pa : Nat) : Word × State :=
  let s1 := match tracked with
    | some (o, _) =>
      let sk := homeKey pa
      let q := agentOf sk t.die t.core
      let a := (s.ownOut t.key o (pa / 128)).partSettle sk o
      let p := a.objPart sk o
      let b := if p.owner = q && decide (a.protKind (a.obj o).pslot p.state = 2) then a.probe sk o q false else a
      (b.partEvent sk o 6 ⟨.watch tid g, q, t.die, t.core, pa⟩).partSettle sk o
    | none => (s.recallFrom t.key (pa / 128)).evictLine t.key (pa / 128)
  (s1.word pa, s1)

/-- Arm the monitor of a group on a word: in the table while it has room (R288). -/
def State.armMon (s : State) (t g pa : Nat) : State :=
  s.modSlice (homeKey pa) (fun x =>
    if x.mons.any (fun m => decide (m.team = t) && decide (m.grp = g) && decide (m.pa = pa)) then x
    else { x with mons := x.mons ++ [⟨t, g, pa, decide ((x.mons.filter (·.table)).length < 1024), monBucket pa, false⟩] })

/-- The results of WAITC. -/
def waitcWrites (d : Reg) (st : Word) (v : Word) : List (RName × Word) := [(.v d, st), (.v (d + 1), v)]

/-- WAITC of the performing fibres. In a deterministic grid a fibre whose condition does not hold keeps waiting for commits. -/
def doWaitc (late : Bool) (c : Ctl) (cond : WCond) (uo : Bool) (brec : BitVec 12) (a d : Reg) : Who → State → State :=
  memBody (.global brec) a 0 4 .at_ .read false (fun t ls w s =>
    let q := s.openFor (.waitc c cond uo brec a d) w (pairsOf ls)
    ls.foldl (fun (b : State) x =>
      match x.2.2 with
      | .vault _ _ => b
      | .glob _ lf =>
        let f := s.fibre w.team x.1 x.2.1
        let cv := f.get w.pos d
        let tm := f.get w.pos (d + 1)
        let op := opOf q.1 x.1
        let r := b.monitorRead t w.team x.1 (s.spotOf t x.2.2).tracked lf.pa
        if condHolds cond r.1 cv then (r.2.doneLane w x.1 x.2.1 op (waitcWrites d 0 r.1)).acquire t.key uo
        else if tm = 0#32 || late then r.2.doneLane w x.1 x.2.1 op (waitcWrites d 1 r.1)
        else if t.dx then r.2
        else
          let deadline := if tm = 0xFFFFFFFF#32 then none else some (s.now + 1024 * tm.toNat)
          (r.2.armMon w.team x.1 lf.pa).waitLane w x.1 x.2.1 (.monitor lf.pa cond cv deadline uo d op)) q.2)

def execWaitc (c : Ctl) (cond : WCond) (uo : Bool) (brec : BitVec 12) (a d : Reg) (s : State) : Host.Outcome State Fault Refusal :=
  native (.waitc c cond uo brec a d) s (syncBody (.waitc c cond uo brec a d) .fibre (doWaitc false c cond uo brec a d))

/-- The monitor of a group on a word. -/
def State.monOf (s : State) (t g pa : Nat) : Option Monitor :=
  (s.slice (homeKey pa)).mons.find? (fun m => decide (m.team = t) && decide (m.grp = g) && decide (m.pa = pa))

/-- Drop a group's monitor on a word when no fibre of it waits there any more. -/
def State.tidyMon (s : State) (t g pa : Nat) : State :=
  let left := (List.range 32).any (fun l =>
    match (s.fibre t g l).wait with | some (.monitor p ..) => decide (p = pa) | _ => false)
  if left then s
  else s.modSlice (homeKey pa) (fun x => { x with mons := x.mons.filter (fun m => decide (m.team ≠ t ∨ m.grp ≠ g ∨ m.pa ≠ pa)) })

/-- The re-read of a monitor that was woken in its overflow bucket (R287): its fibres are released or it is re-armed. -/
def execMonitorReread (team grp lane : Nat) (s : State) : Host.Outcome State Fault Refusal :=
  event s (fun s =>
    match (s.fibre team grp lane).wait with
    | some (.monitor pa ..) =>
      (match s.monOf team grp pa with
      | some m =>
        if m.table || !m.woken then s
        else
          let q := s.judgeMon (homeKey pa) m
          (q.1.modSlice (homeKey pa) (fun x =>
            let room := decide ((x.mons.filter (·.table)).length < 1024)
            { x with mons := x.mons.map (fun n => if n = m then { n with woken := false, table := room } else n) })).homeWrites q.2
      | none => s)
    | _ => s)

/-- The time-out of a WAITC (R289): the word is read once more. -/
def execWaitcTimeout (team grp lane : Nat) (s : State) : Host.Outcome State Fault Refusal :=
  event s (fun s =>
    match (s.fibre team grp lane).wait, s.team team with
    | some (.monitor pa cond cv (some deadline) uo d op), some t =>
      if s.now < deadline then s
      else
        let r := s.monitorRead t team grp none pa
        let v := r.1
        let hit := condHolds cond v cv
        let s1 := (r.2.release team grp lane op (waitcWrites d (if hit then 0 else 1) v)).tidyMon team grp pa
        if hit then s1.acquire t.key uo else s1
    | _, _ => s)

end Sys2Proof.Machine
end

