-- ==== Sys2Proof/Machine/Barriers.lean ====
section
/-!
DEFINITION. Team and cluster barriers (R282 to R285).
-/

namespace Sys2Proof.Machine

/-- The live fibres of a team. -/
def Team.liveCount (t : Team) : Nat := (t.groups.map (fun g => (g.fibres.filter (·.live)).length)).foldl (· + ·) 0

/-- The cluster of a team. -/
def State.clusterOf (s : State) (t : Team) : Option Cluster :=
  s.clusters.find? (fun c => decide (c.grid = t.grid) && decide (c.clusid = t.clusid))

/-- A barrier of a team, or of its cluster. -/
def State.barrier (s : State) (t : Team) (cluster : Bool) (id : Nat) : Barrier :=
  if cluster then ((s.clusterOf t).map (fun c => c.bars.getD id Barrier.reset)).getD Barrier.reset else t.bars.getD id Barrier.reset

/-- Set a barrier of the team named, or of its cluster. -/
def State.setBarrier (s : State) (tid : Nat) (t : Team) (cluster : Bool) (id : Nat) (b : Barrier) : State :=
  if cluster then
    { s with clusters := s.clusters.map (fun c =>
        if c.grid = t.grid && decide (c.clusid = t.clusid) then { c with bars := c.bars.set id b } else c) }
  else s.modTeam tid (fun x => { x with bars := x.bars.set id b })

/-- The live fibres that a barrier without CNT counts (R283). -/
def State.barLive (s : State) (t : Team) (cluster : Bool) : Nat :=
  if cluster then
    (s.teams.map (fun e => if e.2.grid = t.grid && decide (e.2.clusid = t.clusid) then e.2.liveCount else 0)).foldl (· + ·) 0
  else t.liveCount

/-- The count that completes an episode. -/
def State.barCount (s : State) (t : Team) (cluster : Bool) (b : Barrier) : Nat := if b.cnt then b.count else s.barLive t cluster

/-- One arrival at a barrier, with its payload (R284). -/
def Barrier.join (b : Barrier) (m : Nat × Nat × Nat) (v : Word) : Barrier :=
  { b with waiters := b.waiters ++ [m],
           nonz := if v ≠ 0#32 then b.nonz + 1 else b.nonz,
           acc := if b.waiters.isEmpty then v else match b.op with
             | .and => b.acc &&& v
             | .or => b.acc ||| v
             | _ => b.acc + v }

/-- The result of an episode; none under SYNC. -/
def Barrier.result (b : Barrier) : Option Word :=
  match b.op with
  | .sync => none
  | .popc => some (BitVec.ofNat 32 b.nonz)
  | _ => some b.acc

/-- Release every arrived fibre of an episode with its result: each departure is an acquire of the barrier's scope (R260, R284). -/
def State.barDepart (s : State) (b : Barrier) : State :=
  b.waiters.foldl (fun (a : State) m =>
    match (a.fibre m.1 m.2.1 m.2.2).wait, a.team m.1 with
    | some (.bar _ _ uo d op), some t =>
      let ws := match d, b.result with
        | some r, some v => [(RName.v r, v)]
        | _, _ => []
      (a.release m.1 m.2.1 m.2.2 op ws).acquire t.key uo
    | _, _ => a) s

/-- Complete the open episode of a barrier when its arrivals have reached its count. -/
def State.barSettle (s : State) (tid : Nat) (cluster : Bool) (id : Nat) : State :=
  match s.team tid with
  | none => s
  | some t =>
    let b := s.barrier t cluster id
    if b.open_ && decide (s.barCount t cluster b ≤ b.waiters.length) then (s.setBarrier tid t cluster id Barrier.reset).barDepart b else s

/-- Count the live fibres afresh at every barrier that a team takes part in (R283). -/
def State.barSettleAll (s : State) (tid : Nat) : State :=
  (List.range 4).foldl (fun a id => a.barSettle tid true id) ((List.range 16).foldl (fun a id => a.barSettle tid false id) s)

/-- The fibres of one instruction that mismatch the episode they meet, each with its count (R283): fibres are counted one at a time, and an
episode that its arrivals complete makes way for the next. -/
def barTraps (most live : Nat) (op : BarOp) (cnt : Bool) : Option (BarOp × Bool × Nat × Nat) → List (Nat × Nat × Nat) → List (Nat × Nat)
  | _, [] => []
  | e, (g, l, n) :: rest =>
    let bad := (cnt && (decide (n = 0) || decide (most < n))) ||
      (match e with
        | some (op1, cnt1, n1, _) => decide (op1 ≠ op) || decide (cnt1 ≠ cnt) || (cnt && decide (n1 ≠ n))
        | none => false)
    if bad then (g, l) :: barTraps most live op cnt e rest
    else
      let k := (match e with | some (_, _, _, k) => k | none => 0) + 1
      if (if cnt then n else live) ≤ k then barTraps most live op cnt none rest
      else barTraps most live op cnt (some (op, cnt, n, k)) rest

/-- One fibre arrives: it joins the episode, or begins one. -/
def State.barArrive (s : State) (w : Who) (cluster : Bool) (op : BarOp) (uo cnt : Bool) (id : Nat) (d : Reg) (n : Nat) (v : Word)
    (o g l : Nat) : State :=
  match s.team w.team with
  | none => s
  | some t =>
    let bar := s.barrier t cluster id
    let e := if bar.open_ then bar else { Barrier.reset with open_ := true, op := op, cnt := cnt, count := if cnt then n else 0 }
    let dst := if op = .sync then none else some d
    (((s.uncross w.team g [l]).waitLane w g l (.bar cluster id uo dst o)).setBarrier w.team t cluster id (e.join (w.team, g, l) v)).barSettle w.team cluster id

/-- BAR and CBAR of the performing fibres, in ascending group, then home lane: the arrivals release, and each is counted; a fibre that
mismatches its episode traps. -/
def doBar (i : Instr) (cluster : Bool) (op : BarOp) (uo cnt : Bool) (id : Nat) (d a b : Reg) (w : Who) (s : State) : State :=
  match s.team w.team with
  | none => s
  | some t =>
    let f (x : Nat × Nat) : Fibre := s.fibre w.team x.1 x.2
    let n (x : Nat × Nat) : Nat := if cnt then ((f x).get w.pos b).toNat else 0
    let v (x : Nat × Nat) : Word := if op = .sync then 0#32 else (f x).get w.pos a
    let bar := s.barrier t cluster id
    let cur := if bar.open_ then some (bar.op, bar.cnt, bar.count, bar.waiters.length) else none
    let bad := barTraps (if cluster then 24576 else 2048) (s.barLive t cluster) op cnt cur (w.perf.map (fun x => (x.1, x.2, n x)))
    let good := w.perf.filter (fun x => !bad.contains x)
    let s1 := (s.trapAll w .mismatch bad).releaseSide t.key uo (if cluster then .cluster else .team)
    let q := s1.openFor i w good
    good.foldl (fun (y : State) x => y.barArrive w cluster op uo cnt id d (n x) (v x) (opOf q.1 x.1) x.1 x.2) q.2

def execBar (c : Ctl) (op : BarOp) (uo cnt : Bool) (id : BitVec 4) (d a b : Reg) (s : State) : Host.Outcome State Fault Refusal :=
  native (.bar c op uo cnt id d a b) s (afterOrder (syncBody (.bar c op uo cnt id d a b) .fibre
    (doBar (.bar c op uo cnt id d a b) false op uo cnt id.toNat d a b)))

def execCbar (c : Ctl) (op : BarOp) (uo cnt : Bool) (id : BitVec 4) (d a b : Reg) (s : State) : Host.Outcome State Fault Refusal :=
  native (.cbar c op uo cnt id d a b) s (afterOrder (syncBody (.cbar c op uo cnt id d a b) .fibre
    (doBar (.cbar c op uo cnt id d a b) true op uo cnt id.toNat d a b)))

end Sys2Proof.Machine
end

