-- ==== Sys2Proof/Machine/Float.lean ====
section
/-!
DEFINITION. The floating-point, conversion and packing instructions of the GEN class (R145 to R153).
-/

namespace Sys2Proof.Machine

/-! ### Elements and modifiers (R145) -/

/-- The element format of a type. -/
def FTy.ff : FTy → FF
  | .f32 => .f32 | .f16x2 => .f16 | .bf16x2 => .bf16

/-- The number of elements of a type. -/
def FTy.count : FTy → Nat
  | .f32 => 1
  | _ => 2

/-- Element i of a register (R34). -/
def FTy.elem (t : FTy) (x : Word) (i : Nat) : Nat := x.toNat / 2 ^ (16 * i) % 2 ^ (FTy.ff t).width

/-- Absolute value, then negation, of a code: exact, NaNs included (R145). -/
def FF.modify (f : FF) (neg abs : Bool) (x : Nat) : Nat :=
  let y := if abs then x % f.signBit else x
  if neg then y ^^^ f.signBit else y

/-- The modified elements of an operand. -/
def FTy.elems (t : FTy) (neg abs : Bool) (x : Word) : List Nat :=
  (List.range (FTy.count t)).map (fun i => (FTy.ff t).modify neg abs (FTy.elem t x i))

/-- Elements of a type as a register (R34). -/
def packWord (bits : Nat) : List Nat → Nat
  | [] => 0
  | x :: xs => x + 2 ^ bits * packWord bits xs

/-- A result of elements, with their events in element order. -/
def elemResult (t : FTy) (d : Reg) (rs : List (Nat × List Nat)) : AluRes :=
  .ok [(.v d, BitVec.ofNat 32 (packWord (FTy.ff t).width (rs.map (·.1))))] (rs.flatMap (·.2))

/-- An instruction of one operand, element by element. -/
def unary (t : FTy) (m : FMods) (d a : Reg) (op : Nat → Nat × List Nat) (f : Fibre) (pos : Nat) : AluRes :=
  elemResult t d ((FTy.elems t m.na m.aa (f.get pos a)).map op)

/-- An instruction of two operands, element by element. -/
def binary (t : FTy) (m : FMods) (d a b : Reg) (op : Nat → Nat → Nat × List Nat) (f : Fibre) (pos : Nat) : AluRes :=
  elemResult t d (List.zipWith op (FTy.elems t m.na m.aa (f.get pos a)) (FTy.elems t m.nb m.ab (f.get pos b)))

/-! ### Sums of products (R146, R151) -/

/-- The exact product of two values; a NaN when it is invalid or an operand is a NaN. -/
def FVal.times (x y : FVal) : FVal :=
  match x, y with
  | .fin s m e, .fin t n g => .fin (s != t) (m * n) (e + g)
  | _, _ =>
    if x.isNan || y.isNan || x.isZero || y.isZero then .nan false
    else .inf (x.sign != y.sign)

/-- The product multiplies 0 by an infinity (R146). -/
def FVal.badTimes (x y : FVal) : Bool := (x.isZero && y.isInf) || (x.isInf && y.isZero)

/-- The sum of products and terms, rounded once (R146, R151): the code and its events. -/
def sumOf (g : FF) (rnd : Rnd) (prods : List (FVal × FVal)) (adds : List FVal) : Nat × List Nat :=
  let ops := prods.flatMap (fun p => [p.1, p.2]) ++ adds
  let terms := prods.map (fun p => p.1.times p.2) ++ adds
  let nan := ops.any FVal.isNan
  let inv := ops.any FVal.isSig || prods.any (fun p => p.1.badTimes p.2)
    || (!nan && terms.contains (.inf false) && terms.contains (.inf true))
  if inv then (g.nanCode, [evInvalid])
  else if nan then (g.nanCode, [])
  else if terms.contains (.inf false) then (g.infCode, [])
  else if terms.contains (.inf true) then (g.signBit + g.infCode, [])
  else
    let zeroNeg := if terms.all FVal.sign then true else if terms.any FVal.sign then decide (rnd = .rdn) else false
    let r := g.ofDy rnd false zeroNeg (Dy.sum (terms.map FVal.dy))
    (r.1, if r.2 then [evOverflow] else [])

def execFadd (c : Ctl) (ty : FTy) (rnd : Rnd) (m : FMods) (d a b : Reg) (s : State) : Host.Outcome State Fault Refusal :=
  let g := FTy.ff ty
  alu (.fadd c ty rnd m d a b) s (binary ty m d a b (fun x y => sumOf g rnd [] [g.value x, g.value y]))

def execFsub (c : Ctl) (ty : FTy) (rnd : Rnd) (m : FMods) (d a b : Reg) (s : State) : Host.Outcome State Fault Refusal :=
  let g := FTy.ff ty
  alu (.fsub c ty rnd m d a b) s (binary ty m d a b (fun x y => sumOf g rnd [] [g.value x, (g.value y).negate]))

def execFmul (c : Ctl) (ty : FTy) (rnd : Rnd) (m : FMods) (d a b : Reg) (s : State) : Host.Outcome State Fault Refusal :=
  let g := FTy.ff ty
  alu (.fmul c ty rnd m d a b) s (binary ty m d a b (fun x y => sumOf g rnd [(g.value x, g.value y)] []))

def execFfma (c : Ctl) (ty : FTy) (rnd : Rnd) (m : FMods) (d a b e : Reg) (s : State) : Host.Outcome State Fault Refusal :=
  let g := FTy.ff ty
  alu (.ffma c ty rnd m d a b e) s (fun f pos =>
    let xs := FTy.elems ty m.na m.aa (f.get pos a)
    let ys := FTy.elems ty m.nb m.ab (f.get pos b)
    let zs := FTy.elems ty m.nc m.ac (f.get pos e)
    elemResult ty d (List.zipWith (fun (x : Nat) (q : Nat × Nat) => sumOf g rnd [(g.value x, g.value q.1)] [g.value q.2]) xs (ys.zip zs)))

def execFdot2 (c : Ctl) (ty : FTy) (rnd : Rnd) (m : FMods) (d a b e : Reg) (s : State) : Host.Outcome State Fault Refusal :=
  let g := FTy.ff ty
  alu (.fdot2 c ty rnd m d a b e) s (fun f pos =>
    let xs := (FTy.elems ty m.na m.aa (f.get pos a)).map g.value
    let ys := (FTy.elems ty m.nb m.ab (f.get pos b)).map g.value
    let z := FF.f32.value (FF.f32.modify m.nc m.ac (f.get pos e).toNat)
    let r := sumOf .f32 rnd (xs.zip ys) [z]
    .ok [(.v d, BitVec.ofNat 32 r.1)] r.2)

/-! ### Extremes, compares, classes (R147 to R149) -/

/-- FMIN and FMAX of two codes (R147). -/
def extremeOf (g : FF) (isMax : Bool) (x y : Nat) : Nat × List Nat :=
  let u := g.value x
  let v := g.value y
  let r :=
    if u.isNan && v.isNan then g.nanCode
    else if u.isNan then y
    else if v.isNan then x
    else if isMax then (if u.before v then y else x)
    else (if v.before u then y else x)
  (r, if u.isSig || v.isSig then [evInvalid] else [])

def execFmin (c : Ctl) (ty : FTy) (m : FMods) (d a b : Reg) (s : State) : Host.Outcome State Fault Refusal :=
  alu (.fmin c ty m d a b) s (binary ty m d a b (extremeOf (FTy.ff ty) false))

def execFmax (c : Ctl) (ty : FTy) (m : FMods) (d a b : Reg) (s : State) : Host.Outcome State Fault Refusal :=
  alu (.fmax c ty m d a b) s (binary ty m d a b (extremeOf (FTy.ff ty) true))

/-- Element i goes to the i-th predicate; under F32 only the first is written (R148). -/
def execFcmp (c : Ctl) (cond : FCond) (ty : FTy) (m : FMods) (p : Pred) (a b : Reg) (q : Pred) (s : State) :
    Host.Outcome State Fault Refusal :=
  let g := FTy.ff ty
  alu (.fcmp c cond ty m p a b q) s (fun f pos =>
    let rs := List.zipWith (fun x y =>
      (fcondHolds cond (g.value x) (g.value y), oneEvent (fcondInvalid cond (g.value x) (g.value y)) false false))
      (FTy.elems ty m.na m.aa (f.get pos a)) (FTy.elems ty m.nb m.ab (f.get pos b))
    .ok (List.zipWith (fun (x : Pred) (r : Bool × List Nat) => (RName.p x, boolWord r.1)) [p, q] rs) (rs.flatMap (·.2)))

/-- The class mask of a code (R149). -/
def classOf (g : FF) (x : Nat) : Nat :=
  let neg := flag x (g.ebits + g.fbits)
  match g.value x with
  | .nan sig => if sig then 1 else 2
  | .inf _ => if neg then 4 else 512
  | .fin _ m _ =>
    if m = 0 then (if neg then 32 else 64)
    else if m < 2 ^ g.fbits then (if neg then 16 else 128)
    else (if neg then 8 else 256)

def execFclass (c : Ctl) (ty : FTy) (m : FMods) (d a : Reg) (s : State) : Host.Outcome State Fault Refusal :=
  alu (.fclass c ty m d a) s (unary ty m d a (fun x => (classOf (FTy.ff ty) x, [])))

/-! ### Single operands (R150) -/

/-- A NaN gives the canonical NaN, and a signalling one logs FP invalid; other values go on. -/
def nanFirst (g : FF) (x : Nat) (op : FVal → Nat × List Nat) : Nat × List Nat :=
  match g.value x with
  | .nan sig => (g.nanCode, oneEvent sig false false)
  | v => op v

/-- FRND (R150). -/
def roundOf (g : FF) (rnd : Rnd) (x : Nat) : Nat × List Nat :=
  nanFirst g x (fun v => match v with
    | .fin neg m _ => if m = 0 then (x, []) else ((g.ofDy .rne false neg ⟨v.dy.toInt rnd, 0⟩).1, [])
    | _ => (x, []))

def execFrnd (c : Ctl) (ty : FTy) (rnd : Rnd) (m : FMods) (d a : Reg) (s : State) : Host.Outcome State Fault Refusal :=
  alu (.frnd c ty rnd m d a) s (unary ty m d a (roundOf (FTy.ff ty) rnd))

/-- FSCALE (R150). A power beyond ±1000 rounds as that of ±1000 does in every format. -/
def scaleOf (g : FF) (rnd : Rnd) (x : Nat) (n : Int) : Nat × List Nat :=
  nanFirst g x (fun v => match v with
    | .fin neg m e =>
      if m = 0 then (x, [])
      else
        let r := g.roundFin rnd false neg m (e + max (-1000) (min 1000 n))
        (r.1, oneEvent false false r.2)
    | _ => (x, []))

def execFscale (c : Ctl) (ty : FTy) (rnd : Rnd) (m : FMods) (d a b : Reg) (s : State) : Host.Outcome State Fault Refusal :=
  let g := FTy.ff ty
  alu (.fscale c ty rnd m d a b) s (fun f pos =>
    let xs := FTy.elems ty m.na m.aa (f.get pos a)
    let v := f.get pos b
    elemResult ty d ((List.range xs.length).map (fun i => scaleOf g rnd (xs.getD i 0) (sextNat g.width (FTy.elem ty v i)))))

/-- FGETEXP (R150). -/
def expOf (g : FF) (x : Nat) : Nat × List Nat :=
  nanFirst g x (fun v => match v with
    | .inf _ => (g.infCode, [])
    | _ => if v.isZero then (g.signBit + g.infCode, [evDivZero]) else ((g.ofDy .rne false false ⟨v.dy.log2, 0⟩).1, []))

def execFgetexp (c : Ctl) (ty : FTy) (m : FMods) (d a : Reg) (s : State) : Host.Outcome State Fault Refusal :=
  alu (.fgetexp c ty m d a) s (unary ty m d a (expOf (FTy.ff ty)))

/-- FGETMAN (R150). -/
def manOf (g : FF) (x : Nat) : Nat × List Nat :=
  nanFirst g x (fun v => match v with
    | .inf _ => (g.nanCode, [evInvalid])
    | .fin neg m _ => if m = 0 then (x, []) else ((g.roundFin .rne false neg m (-(Nat.log2 m : Int))).1, [])
    | _ => (x, []))

def execFgetman (c : Ctl) (ty : FTy) (m : FMods) (d a : Reg) (s : State) : Host.Outcome State Fault Refusal :=
  alu (.fgetman c ty m d a) s (unary ty m d a (manOf (FTy.ff ty)))

/-! ### Conversion (R152, R153) -/

/-- The register image of a converted value: narrow signed integers are sign-extended (R152). -/
def placeConverted (dst : CFmt) (x : Nat) : DWord :=
  match dst with
  | .i8 => BitVec.ofInt 64 (sextNat 8 x)
  | .i16 => BitVec.ofInt 64 (sextNat 16 x)
  | _ => BitVec.ofNat 64 x

def execCvt (c : Ctl) (dst src : CFmt) (rnd : Rnd) (sat : Bool) (el : BitVec 3) (d a : Reg) (s : State) : Host.Outcome State Fault Refusal :=
  alu (.cvt c dst src rnd sat el d a) s (fun f pos =>
    let x := (f.getW pos a (decide (src.width = 64))).toNat / 2 ^ (src.width * el.toNat) % 2 ^ src.width
    let r := convert dst src rnd sat x
    .ok (wrW d (decide (dst.width = 64)) (placeConverted dst r.1)) r.2.toList)

/-- The conversion format of a packed format. -/
def pfmt : PFmt → CFmt
  | .f16x2 => .f16 | .bf16x2 => .bf16 | .e4m3 => .e4m3 | .e5m2 => .e5m2 | .e2m1 => .e2m1 | .e8m0 => .e8m0

def execPack (c : Ctl) (pf : PFmt) (rnd : Rnd) (sat : Bool) (d a b : Reg) (s : State) : Host.Outcome State Fault Refusal :=
  alu (.pack c pf rnd sat d a b) s (fun f pos =>
    let half := pf.elems / 2
    let rs := (List.range pf.elems).map (fun i =>
      let r := if i < half then a + BitVec.ofNat 8 i else b + BitVec.ofNat 8 (i - half)
      convert (pfmt pf) .f32 rnd sat (f.get pos r).toNat)
    .ok [(.v d, BitVec.ofNat 32 (packWord (pfmt pf).width (rs.map (·.1))))] (rs.flatMap (fun r => r.2.toList)))

def execUnpack (c : Ctl) (pf : PFmt) (d a : Reg) (s : State) : Host.Outcome State Fault Refusal :=
  alu (.unpack c pf d a) s (fun f pos =>
    let x := (f.get pos a).toNat
    let w := (pfmt pf).width
    let rs := (List.range pf.elems).map (fun i => convert .f32 (pfmt pf) .rne false (x / 2 ^ (w * i) % 2 ^ w))
    .ok ((List.range pf.elems).map (fun i => (RName.v (d + BitVec.ofNat 8 i), BitVec.ofNat 32 (rs.getD i (0, none)).1)))
      (rs.flatMap (fun r => r.2.toList)))

end Sys2Proof.Machine
end

