-- ==== Sys2Proof/Machine/Special.lean ====
section
/-!
DEFINITION. The special functions and the random-number generator of the SFU class (R155 to R157). Algebraic functions are rounded from
their exact value; transcendental ones from a fixed-point interval that holds the exact value, refined until both of its ends round alike.
-/

namespace Sys2Proof.Machine

/-! ### Fixed-point arithmetic -/

/-- floor(√n) for n < 4^b, by bits. -/
def isqrt : Nat → Nat → Nat
  | 0, _ => 0
  | b + 1, n => let r := 2 * isqrt b (n / 4); if (r + 1) * (r + 1) ≤ n then r + 1 else r

/-- A series: the sum of terms, each made from the one before by a step of its index; n terms. -/
def series (stp : Nat → Nat → Nat) : Nat → Nat → Nat → Nat
  | 0, _, _ => 0
  | n + 1, k, t => t + series stp n (k + 1) (stp k t)

/-- An alternating series. -/
def altSeries (stp : Nat → Nat → Nat) : Nat → Nat → Nat → Int
  | 0, _, _ => 0
  | n + 1, k, t => (t : Int) - altSeries stp n (k + 1) (stp k t)

/-- atanh(p/q) at scale 2^w, with q ≥ 3p: the sum of (p/q)^(2k+1)/(2k+1). -/
def atanhFix (w p q : Nat) : Nat :=
  let x := 2 ^ w * p / q
  let x2 := x * x / 2 ^ w
  ((List.range (w / 3 + 4)).foldl (fun (r : Nat × Nat) k => (r.1 + r.2 / (2 * k + 1), r.2 * x2 / 2 ^ w)) (0, x)).1

/-- atan(1/q) at scale 2^w, q ≥ 5. -/
def atanFix (w q : Nat) : Int :=
  ((List.range (w / 4 + 4)).foldl (fun (r : Int × Nat) k =>
    (r.1 + (if k % 2 = 0 then (1 : Int) else -1) * ((r.2 / (2 * k + 1) : Nat) : Int), r.2 / (q * q))) (0, 2 ^ w / q)).1

/-- ln 2 at scale 2^w: 2 atanh(1/3). -/
def ln2Fix (w : Nat) : Nat := 2 * atanhFix w 1 3

/-- π at scale 2^w, by Machin's formula. -/
def piFix (w : Nat) : Nat := (16 * atanFix w 5 - 4 * atanFix w 239).toNat

/-- e^y at scale 2^w, for 0 ≤ y < 1 at that scale. -/
def expFix (w y : Nat) : Nat := series (fun k t => t * y / 2 ^ w / (k + 1)) (w / 2 + 8) 0 (2 ^ w)

/-- sin y at scale 2^w, for 0 ≤ y ≤ π/2 at that scale. -/
def sinFix (w y : Nat) : Nat :=
  (altSeries (fun k t => t * y / 2 ^ w * y / 2 ^ w / ((2 * k + 2) * (2 * k + 3))) (w / 4 + 8) 0 y).toNat

/-- A dyadic magnitude at scale 2^w; exact when no bit lies below. -/
def fixOf (w m : Nat) (e : Int) : Nat := roundUnit .rz false m e (-(w : Int))

/-! ### Rounding an approximation -/

/-- The bound on the error of every approximation here, in units of its scale. -/
def fixErr : Nat := 2 ^ 16

/-- Round an approximation given at each scale: the two ends of its interval are rounded, at a wider scale when they differ (R155). -/
def roundApprox (g : FF) (op x : Nat) (neg : Bool) (e : Int) (approx : Nat → Nat) : Nat × List Nat :=
  let try_ (w : Nat) : Option (Nat × List Nat) :=
    let v := approx w
    let lo := g.roundFin .rne false neg (v - fixErr) (e - w)
    let hi := g.roundFin .rne false neg (v + fixErr) (e - w)
    if lo = hi then some (lo.1, oneEvent false false lo.2) else none
  match try_ 320 with
  | some r => r
  | none => (try_ 640).getD ((Config.roundFallback op x).toNat % 2 ^ g.width, [])

/-- Round n/d × 2^e, with a sticky bit below 64 bits of quotient (R155). -/
def roundQuot (g : FF) (neg : Bool) (n d : Nat) (e : Int) : Nat × List Nat :=
  let k := 64 + Nat.log2 d
  let q := n * 2 ^ k / d
  let st := if n * 2 ^ k % d = 0 then 0 else 1
  let r := g.roundFin .rne false neg (2 * q + st) (e - k - 1)
  (r.1, oneEvent false false r.2)

/-- A signed infinity or zero. -/
def FF.inf_ (g : FF) (neg : Bool) : Nat := (if neg then g.signBit else 0) + g.infCode
def FF.zero (g : FF) (neg : Bool) : Nat := if neg then g.signBit else 0

/-- The code of 1. -/
def FF.one (g : FF) (neg : Bool) : Nat := (g.roundFin .rne false neg 1 0).1

/-! ### The functions (R156) -/

def rcpOf (g : FF) (x : Nat) : Nat × List Nat :=
  nanFirst g x (fun v => match v with
    | .fin neg m e => if m = 0 then (g.inf_ neg, [evDivZero]) else roundQuot g neg 1 m (-e)
    | _ => (g.zero v.sign, []))

/-- The square root of m × 2^e with e even: a 100-bit root and its sticky bit. -/
def rootOf (g : FF) (m : Nat) (e : Int) : Nat × List Nat :=
  let (m, e) := if e % 2 = 0 then (m, e) else (2 * m, e - 1)
  let n := m * 2 ^ 200
  let q := isqrt 128 n
  let r := g.roundFin .rne false false (2 * q + (if q * q = n then 0 else 1)) (e / 2 - 101)
  (r.1, oneEvent false false r.2)

/-- 1/√(m × 2^e). -/
def invRootOf (g : FF) (m : Nat) (e : Int) : Nat × List Nat :=
  let (m, e) := if e % 2 = 0 then (m, e) else (2 * m, e - 1)
  let q := isqrt 128 (2 ^ 200 / m)
  let r := g.roundFin .rne false false (2 * q + (if q * q * m = 2 ^ 200 then 0 else 1)) (-(e / 2) - 101)
  (r.1, oneEvent false false r.2)

def rsqOf (g : FF) (x : Nat) : Nat × List Nat :=
  nanFirst g x (fun v => match v with
    | .fin neg m e =>
      if m = 0 then (g.inf_ neg, [evDivZero]) else if neg then (g.nanCode, [evInvalid]) else invRootOf g m e
    | _ => if v.sign then (g.nanCode, [evInvalid]) else (g.zero false, []))

def sqrtOf (g : FF) (x : Nat) : Nat × List Nat :=
  nanFirst g x (fun v => match v with
    | .fin neg m e => if m = 0 then (x, []) else if neg then (g.nanCode, [evInvalid]) else rootOf g m e
    | _ => if v.sign then (g.nanCode, [evInvalid]) else (g.infCode, []))

def fdivOf (g : FF) (x y : Nat) : Nat × List Nat :=
  let u := g.value x
  let v := g.value y
  let neg := u.sign != v.sign
  if u.isNan || v.isNan then (g.nanCode, oneEvent (u.isSig || v.isSig) false false)
  else if (u.isZero && v.isZero) || (u.isInf && v.isInf) then (g.nanCode, [evInvalid])
  else if u.isInf then (g.inf_ neg, [])
  else if v.isInf then (g.zero neg, [])
  else if v.isZero then (g.inf_ neg, [evDivZero])
  else if u.isZero then (g.zero neg, [])
  else match u, v with
    | .fin _ m e, .fin _ n h => roundQuot g neg m n (e - h)
    | _, _ => (g.nanCode, [])

/-- EX2: the integral part scales, and 2 to the fraction is e^(fraction × ln 2). A power beyond ±1000 rounds as that of ±1000. -/
def ex2Of (g : FF) (x : Nat) : Nat × List Nat :=
  nanFirst g x (fun v => match v with
    | .inf neg => if neg then (g.zero false, []) else (g.infCode, [])
    | _ =>
      let a := v.dy
      let i := a.toInt .rdn
      let n := max (-1000) (min 1000 i)
      let fr := a.add ⟨-i, 0⟩
      if fr.m = 0 then let r := g.roundFin .rne false false 1 n; (r.1, oneEvent false false r.2)
      else roundApprox g 0 x false n (fun w => expFix w (fixOf w fr.m.natAbs fr.e * ln2Fix w / 2 ^ w)))

/-- LG2: the exponent and the logarithm of the significand. -/
def lg2Of (g : FF) (x : Nat) : Nat × List Nat :=
  nanFirst g x (fun v => match v with
    | .inf neg => if neg then (g.nanCode, [evInvalid]) else (g.infCode, [])
    | .fin neg m e =>
      if m = 0 then (g.inf_ true, [evDivZero])
      else if neg then (g.nanCode, [evInvalid])
      else
        let l := Nat.log2 m
        let i : Int := l + e
        if m = 2 ^ l then ((g.ofDy .rne false false ⟨i, 0⟩).1, [])
        else
          let part (w : Nat) : Int := i * 2 ^ w + (2 * atanhFix w (m - 2 ^ l) (m + 2 ^ l) * 2 ^ w / ln2Fix w : Nat)
          roundApprox g 1 x (decide (i < 0)) 0 (fun w => (part w).natAbs)
    | .nan _ => (g.nanCode, []))

/-- sin(πr) for a dyadic 0 < r < 2 that is no integer, r given at each scale: its sign and its magnitude. -/
def sinPiFix (w r : Nat) : Nat :=
  let one := 2 ^ w
  let t := r % one
  let u := if 2 * t ≤ one then t else one - t
  sinFix w (u * piFix w / one)

/-- The fractional turn of |x| + h/2, modulo 2. -/
def turnOf (w m : Nat) (e : Int) (h : Nat) : Nat := (fixOf w m e + h * 2 ^ (w - 1)) % 2 ^ (w + 1)

def sinpiOf (g : FF) (x : Nat) : Nat × List Nat :=
  nanFirst g x (fun v => match v with
    | .fin neg m e =>
      if m = 0 || decide (0 ≤ e) || fixOf 320 m e % 2 ^ 320 = 0 then (g.zero neg, [])
      else
        let down := decide (2 ^ 320 ≤ turnOf 320 m e 0)
        roundApprox g 2 x (neg != down) 0 (fun w => sinPiFix w (turnOf w m e 0))
    | _ => (g.nanCode, [evInvalid]))

def cospiOf (g : FF) (x : Nat) : Nat × List Nat :=
  nanFirst g x (fun v => match v with
    | .fin _ m e =>
      if m = 0 then (g.one false, [])
      else
        let r := turnOf 320 m e 1
        if r % 2 ^ 320 = 0 then (g.zero false, [])
        else roundApprox g 3 x (decide (2 ^ 320 ≤ r)) 0 (fun w => sinPiFix w (turnOf w m e 1))
    | _ => (g.nanCode, [evInvalid]))

/-- e^(2|x|) at scale 2^w, |x| < 64. -/
def exp2xFix (w m : Nat) (e : Int) : Nat :=
  let y := fixOf w m (e + 1)
  let n := y / ln2Fix w
  2 ^ n * expFix w (y - n * ln2Fix w)

/-- TANH, as (e^(2x) − 1)/(e^(2x) + 1); from 64 on it rounds to 1. -/
def tanhOf (g : FF) (x : Nat) : Nat × List Nat :=
  nanFirst g x (fun v => match v with
    | .fin neg m e =>
      if m = 0 then (x, [])
      else if 6 ≤ (Nat.log2 m : Int) + e then (g.one neg, [])
      else roundApprox g 4 x neg 0 (fun w =>
        let y := exp2xFix w m e
        (y - 2 ^ w) * 2 ^ w / (y + 2 ^ w))
    | _ => (g.one v.sign, []))

def execRcp (c : Ctl) (ty : FTy) (m : FMods) (d a : Reg) (s : State) : Host.Outcome State Fault Refusal :=
  alu (.rcp c ty m d a) s (unary ty m d a (rcpOf (FTy.ff ty)))

def execRsq (c : Ctl) (ty : FTy) (m : FMods) (d a : Reg) (s : State) : Host.Outcome State Fault Refusal :=
  alu (.rsq c ty m d a) s (unary ty m d a (rsqOf (FTy.ff ty)))

def execSqrt (c : Ctl) (ty : FTy) (m : FMods) (d a : Reg) (s : State) : Host.Outcome State Fault Refusal :=
  alu (.sqrt c ty m d a) s (unary ty m d a (sqrtOf (FTy.ff ty)))

def execFdiv (c : Ctl) (ty : FTy) (m : FMods) (d a b : Reg) (s : State) : Host.Outcome State Fault Refusal :=
  alu (.fdiv c ty m d a b) s (binary ty m d a b (fdivOf (FTy.ff ty)))

def execEx2 (c : Ctl) (ty : FTy) (m : FMods) (d a : Reg) (s : State) : Host.Outcome State Fault Refusal :=
  alu (.ex2 c ty m d a) s (unary ty m d a (ex2Of (FTy.ff ty)))

def execLg2 (c : Ctl) (ty : FTy) (m : FMods) (d a : Reg) (s : State) : Host.Outcome State Fault Refusal :=
  alu (.lg2 c ty m d a) s (unary ty m d a (lg2Of (FTy.ff ty)))

def execSinpi (c : Ctl) (ty : FTy) (m : FMods) (d a : Reg) (s : State) : Host.Outcome State Fault Refusal :=
  alu (.sinpi c ty m d a) s (unary ty m d a (sinpiOf (FTy.ff ty)))

def execCospi (c : Ctl) (ty : FTy) (m : FMods) (d a : Reg) (s : State) : Host.Outcome State Fault Refusal :=
  alu (.cospi c ty m d a) s (unary ty m d a (cospiOf (FTy.ff ty)))

def execTanh (c : Ctl) (ty : FTy) (m : FMods) (d a : Reg) (s : State) : Host.Outcome State Fault Refusal :=
  alu (.tanh c ty m d a) s (unary ty m d a (tanhOf (FTy.ff ty)))

/-! ### Random numbers (R157) -/

/-- The hash of R157. -/
def randHash (lo hi k : Word) : Word :=
  let h := lo ^^^ (k * 0x2C1B3C6D#32)
  let h := h ^^^ (h >>> 15)
  let h := h * 0x297A2D39#32
  let h := h ^^^ (h >>> 12)
  let h := h + (hi ^^^ k)
  let h := h * 0x2C1B3C6D#32
  h ^^^ (h >>> 16)

def execRand (c : Ctl) (unif : Bool) (d a b e : Reg) (s : State) : Host.Outcome State Fault Refusal :=
  alu (.rand c unif d a b e) s (fun f pos =>
    let h := randHash (f.get pos a) (f.get pos b) (f.get pos e)
    ok32 d (if unif then BitVec.ofNat 32 (FF.f32.roundFin .rne false false (h.toNat / 256) (-24)).1 else h))

end Sys2Proof.Machine
end

