-- ==== Sys2Proof/Machine/CrossLane.lean ====
section
/-!
DEFINITION. Cross-lane instructions: participant sets, completion, parking, mismatch, and what each combines (R158 to R169); and where
a fibre that has finished an instruction goes on (R73, R120, R121).
-/

namespace Sys2Proof.Machine

/-! ### Loop ends and successors (R73, R120, R121) -/

/-- The lowest loop level a fibre's own code may touch: a handler's begins at N0 (R356). -/
def Fibre.floor (f : Fibre) : Nat := if f.h then f.n0 else 0

/-- Close the innermost level. -/
def Fibre.closeLevel (f : Fibre) : Fibre := { f with nest := f.nest - 1, loops := f.loops.take (f.nest - 1) }

/-- The innermost level a fibre sees, when it was opened at its call depth. -/
def Fibre.inner (f : Fibre) : Option LoopLevel :=
  if f.floor < f.nest then
    match f.loops[f.nest - 1]? with
    | some v => if v.depth = f.depth then some v else none
    | none => none
  else none

/-- The loop-end rule (R120): where a fall-through to an address leads, and whether back to a loop body. -/
def Fibre.loopEnd : Nat → Fibre → VAddr → Fibre × VAddr × Bool
  | 0, f, a => (f, a, false)
  | n + 1, f, a =>
    match f.inner with
    | none => (f, a, false)
    | some v =>
      if a = v.stop then
        let c := f.lc.getD (f.nest - 1) 0 - 1
        let g := { f with lc := f.lc.set (f.nest - 1) c }
        if c ≠ 0 then (g, v.start, true) else Fibre.loopEnd n g.closeLevel a
      else (f, a, false)

/-- The body-exit rule (R121). -/
def Fibre.bodyExit : Nat → Fibre → VAddr → Fibre
  | 0, f, _ => f
  | n + 1, f, a =>
    match f.inner with
    | none => f
    | some v => if v.start.toNat ≤ a.toNat && a.toNat < v.stop.toNat then f else Fibre.bodyExit n f.closeLevel a

/-- A fibre falls through to an address: the fibre, where it begins, and whether it went back to a loop body. -/
def Fibre.fallTo (f : Fibre) (a : VAddr) : Fibre × VAddr × Bool :=
  let r := Fibre.loopEnd 3 f a
  (Fibre.bodyExit 3 r.1 r.2.1, r.2)

/-- A fibre goes on after the instruction at an index of a clause (R73, R120). -/
def Fibre.succOf (f : Fibre) (clause : VAddr) (count j : Nat) : Fibre × (VAddr × Nat) × Bool :=
  if j < count then (f, (clause, j + 1), false)
  else
    let r := f.fallTo (clause + BitVec.ofNat 49 (8 * (count + 2)))
    (r.1, (r.2.1, 0), r.2.2)

/-! ### What the instructions combine (R164 to R169) -/

/-- What a completed set gives: the writes of each lane, the events in one record per cause, the new entries of the remap table. -/
structure XlnOut where
  writes : List (Nat × List (RName × Word))
  events : List Nat
  remap  : List (Nat × Nat)
deriving DecidableEq, Repr

/-- Operands of the participants: registers and predicates by lane. -/
structure XlnIn where
  regs  : List (Nat × List (Reg × Word))
  preds : List (Nat × Bool)
deriving DecidableEq, Repr

/-- A participant's register. -/
def XlnIn.reg (x : XlnIn) (l : Nat) (r : Reg) : Word :=
  ((((x.regs.find? (fun e => decide (e.1 = l))).map (·.2)).getD []).find? (fun e => decide (e.1 = r))).elim 0 (·.2)

/-- A participant's 64-bit value, or its register zero-extended. -/
def XlnIn.val (x : XlnIn) (l : Nat) (r : Reg) (w64 : Bool) : DWord := dwordOf (x.reg l r) (if w64 then x.reg l (r + 1) else 0)

/-- A participant's vote. -/
def XlnIn.vote (x : XlnIn) (l : Nat) : Bool := (x.preds.find? (fun e => decide (e.1 = l))).elim false (·.2)

/-- The logical source lane of LXCH, or none off the edge (R165). -/
def lxchSource (mode : XMode) (edge : Bool) (h : Nat) (b : Word) : Option Nat :=
  let b6 : Int := sextNat 6 b.toNat
  let s : Int := match mode with
    | .from => (b.toNat % 32 : Nat)
    | .xor => (h ^^^ (b.toNat % 32) : Nat)
    | .rot => h + b6
    | .refl => b6 - h
  if edge && (decide (s < 0) || decide (31 < s)) then none else some (s % 32).toNat

/-- LXCH (R165). -/
def lxchSet (mode : XMode) (w64 edge : Bool) (d a b : Reg) (x : XlnIn) (remap cs : List Nat) : XlnOut :=
  ⟨cs.map (fun h =>
    let from_ := match lxchSource mode edge h (x.reg h b) with
      | some sl => let u := remap.getD sl 0; if cs.contains u then u else h
      | none => h
    (h, wrW d w64 (x.val from_ a w64))), [], []⟩

/-- VOTE (R166). -/
def voteSet (op : VoteOp) (neg : Bool) (d : Reg) (x : XlnIn) (cs : List Nat) : XlnOut :=
  let vs := cs.map (fun l => (l, x.vote l != neg))
  let all := vs.all (·.2)
  let any := vs.any (·.2)
  let res : List (RName × Word) := match op with
    | .ballot => [(.v d, laneSet ((vs.filter (·.2)).map (·.1)))]
    | .all => [(.p (d.setWidth 3), boolWord all)]
    | .any => [(.p (d.setWidth 3), boolWord any)]
    | .eq => [(.p (d.setWidth 3), boolWord (all || !any))]
  ⟨cs.map (fun l => (l, res)), [], []⟩

/-- MATCH (R167). -/
def matchSet (w64 : Bool) (d a : Reg) (x : XlnIn) (cs : List Nat) : XlnOut :=
  ⟨cs.map (fun h => (h, [(.v d, laneSet (cs.filter (fun l => decide (x.val l a w64 = x.val h a w64))))])), [], []⟩

/-- One step of a reduction and its events (R169). -/
def xstep (op : XOp) (uns : Bool) (p v : Word) : Word × List Nat :=
  let less : Bool := if uns then p.ult v else p.slt v
  let fl (r : Nat × List Nat) : Word × List Nat := (BitVec.ofNat 32 r.1, r.2)
  match op with
  | .iadd => (p + v, [])
  | .imin => (if less then p else v, [])
  | .imax => (if less then v else p, [])
  | .and => (p &&& v, [])
  | .or => (p ||| v, [])
  | .xor => (p ^^^ v, [])
  | .fadd => fl (sumOf .f32 .rne [] [FF.f32.value p.toNat, FF.f32.value v.toNat])
  | .fmin => fl (extremeOf .f32 false p.toNat v.toNat)
  | .fmax => fl (extremeOf .f32 true p.toNat v.toNat)

/-- The identity of a scan (R169). -/
def xidentity (op : XOp) (uns : Bool) : Word :=
  match op with
  | .iadd | .or | .xor => 0
  | .imin => if uns then 0xFFFFFFFF else 0x7FFFFFFF
  | .imax => if uns then 0 else 0x80000000
  | .and => 0xFFFFFFFF
  | .fadd => 0x80000000
  | .fmin | .fmax => 0x7FC00000

/-- The running results in ascending home-lane order, and the events by cause (R169). -/
def xrun (op : XOp) (uns : Bool) (vs : List Word) : List Word × List Nat :=
  let r := (vs.drop 1).foldl (fun (q : List Word × List Nat) v =>
    let n := xstep op uns (q.1.getLastD 0) v
    (q.1 ++ [n.1], q.2 ++ n.2)) (vs.take 1, [])
  (r.1, r.2.filter (· == evInvalid) ++ r.2.filter (· == evOverflow))

/-- XRED (R169). -/
def xredSet (op : XOp) (uns : Bool) (d a : Reg) (x : XlnIn) (cs : List Nat) : XlnOut :=
  let r := xrun op uns (cs.map (fun l => x.reg l a))
  ⟨cs.map (fun l => (l, [(.v d, r.1.getLastD 0)])), r.2, []⟩

/-- XSCAN (R169). -/
def xscanSet (op : XOp) (uns excl : Bool) (d a : Reg) (x : XlnIn) (cs : List Nat) : XlnOut :=
  let r := xrun op uns (cs.map (fun l => x.reg l a))
  let outs := if excl then xidentity op uns :: r.1 else r.1
  ⟨List.zipWith (fun l v => (l, [(.v d, v)])) cs outs, r.2, []⟩

/-- LANEMAP (R164). -/
def lanemapSet (a : Reg) (x : XlnIn) (cs : List Nat) : XlnOut :=
  ⟨cs.map (fun l => (l, [])), [], cs.map (fun l => (l, (x.reg l a).toNat % 32))⟩

/-- ELECT (R168). -/
def electSet (p : Pred) (cs : List Nat) : XlnOut :=
  ⟨cs.map (fun l => (l, [(.p p, boolWord (decide (some l = cs.head?)))])), [], []⟩

/-- What a cross-lane instruction gives a completed set, lanes ascending. -/
def xlnOut (i : Instr) (x : XlnIn) (remap cs : List Nat) : XlnOut :=
  match i with
  | .lxch _ mode w64 edge _ d a b => lxchSet mode w64 edge d a b x remap cs
  | .vote _ op neg _ d _ => voteSet op neg d x cs
  | .matchx _ w64 _ d a => matchSet w64 d a x cs
  | .xred _ op uns _ d a => xredSet op uns d a x cs
  | .xscan _ op uns excl _ d a => xscanSet op uns excl d a x cs
  | .lanemap _ _ a => lanemapSet a x cs
  | .elect _ _ p => electSet p cs
  | _ => ⟨[], [], []⟩

/-- The predicate that VOTE reads. -/
def votePred : Instr → Pred
  | .vote _ _ _ _ _ a => a
  | _ => 7

/-! ### Sets (R158 to R161) -/

/-- The register that a name is of. -/
def regOf : RName → Option Reg
  | .v r => some r
  | .p _ => none

/-- The operands of a set: of fibres at issue under R85, of parked ones as they stand (R159). -/
def State.xlnIn (s : State) (t g : Nat) (i : Instr) (pos : Nat) (issuing cs : List Nat) : XlnIn :=
  let names := i.reads.filterMap regOf
  { regs := cs.map (fun l =>
      let f := s.fibre t g l
      (l, names.map (fun r => (r, if issuing.contains l then f.get pos r else f.reg r)))),
    preds := cs.map (fun l =>
      let f := s.fibre t g l
      (l, if issuing.contains l then f.getP pos (votePred i) else f.pred (votePred i))) }

/-- The live lanes of a group. -/
def Group.live (x : Group) : Lanes := laneSet ((List.range x.fibres.length).filter (fun l => ((x.fibres[l]?).map (·.live)).getD false))

/-- A group's parked paths. -/
def Group.parked (x : Group) : List Path := x.paths.filter (fun p => match p.kind with | .parked .. => true | _ => false)

/-- The participant set of a parked path. -/
def Path.parts (p : Path) : Lanes := match p.kind with | .parked s _ _ => s | _ => 0

/-- A parked fibre comes into the running bundle of its group, which places it at the boundary. -/
def State.pullIn (s : State) (w : Who) (g l : Nat) : State :=
  let bit : Lanes := (1 : BitVec 32) <<< l
  (s.modGroup w.team g (fun x =>
    let ps := (List.range x.paths.length).filterMap (fun n => (x.paths[n]?).map (fun p =>
      if n = 0 then { p with lanes := p.lanes ||| bit } else { p with lanes := p.lanes &&& ~~~bit }))
    { x with paths := ps.filter (fun p => decide (p.lanes ≠ 0)) })).modBundle w.bundle (fun b =>
      { b with members := b.members.map (fun m => if m.1 = g then (m.1, m.2 ||| bit) else m) })

/-- Perform a cross-lane instruction for a completed set of a group (R159, R162). -/
def State.xlnDo (s : State) (i : Instr) (w : Who) (g : Nat) (issuing cs : List Nat) : State :=
  let remap := ((s.group w.team g).map (·.remap)).getD []
  let out := xlnOut i (s.xlnIn w.team g i w.pos issuing cs) remap cs
  let q := s.openOps i w (cs.map (fun l => (g, l)))
  let op := opOf q.1 g
  let s1 := out.writes.foldl (fun (a : State) e => a.doneLane w g e.1 op e.2) q.2
  ((s1.modGroup w.team g (fun x => { x with remap := out.remap.foldl (fun m e => m.set e.1 e.2) x.remap })).logEvents w.team g w.clause out.events)

/-- The masks that the performing fibres of a group read: none unless a register gives the set. -/
def State.xlnMasks (s : State) (w : Who) (ms : MSrc) (g : Nat) (fs : List Nat) : List Word :=
  match ms with
  | .reg m => (fs.map (fun l => (s.fibre w.team g l).get w.pos m)).eraseDups
  | _ => []

/-- The participant set (R158). -/
def xlnParts (ms : MSrc) (masks : List Word) (live performing : Lanes) : Lanes :=
  match ms with
  | .reg _ => masks.headD 0 &&& live
  | .path => performing
  | .group => live

/-- A collective mismatch (R160). -/
def xlnBad (ms : MSrc) (masks : List Word) (live performing parts : Lanes) (idle : List Nat) (parked : List Path) (here mate : Path → Bool) : Bool :=
  match ms with
  | .path => false
  | _ => decide (1 < masks.length) || decide (performing &&& ~~~(if masks.isEmpty then live else masks.headD 0) ≠ 0)
      || idle.any (fun l => parts.getLsbD l)
      || parked.any (fun p => decide (p.lanes &&& parts ≠ 0) && !mate p)
      || parked.any (fun p => !here p && decide (p.parts &&& performing ≠ 0))

/-- A group's share of a cross-lane instruction with a participant set (R159, R160). -/
def xlnGroup (i : Instr) (ms : MSrc) (w : Who) (s : State) (g : Nat) : State :=
  match s.group w.team g with
  | none => s
  | some x =>
    let fs := lanesIn w.perf g
    let fset_ := laneSet fs
    let masks := s.xlnMasks w ms g fs
    let parts := xlnParts ms masks x.live fset_
    let depth := (s.fibre w.team g (fs.headD 0)).depth
    let parked := x.parked
    let here (p : Path) : Bool := decide (p.pc = w.clause) && decide (p.idx = w.idx)
    let mate (p : Path) : Bool := here p && decide (p.depth = depth) && decide (p.parts = parts)
    let idle := (lanesIn w.active g).filter (fun l => !fs.contains l && decide ((s.fibre w.team g l).leave = .run))
    let bad := xlnBad ms masks x.live fset_ parts idle parked here mate
    if bad then
      let s1 := fs.foldl (fun a l => a.takeTrap w w.word g l .mismatch) s
      parked.foldl (fun (a : State) (p : Path) =>
        (lanesOf p.lanes).foldl (fun (b : State) l =>
          (match p.kind with
          | .parked _ word count => (b.pullIn w g l).takeTrap { w with clause := p.pc, idx := p.idx, count := count } word g l .mismatch
          | _ => b)) a) s1
    else
      let mates := parked.filter mate
      let joined := mates.foldl (fun (m : Lanes) p => m ||| p.lanes) 0
      if parts &&& ~~~(fset_ ||| joined) ≠ 0 then
        fs.foldl (fun a l => a.modFibre w.team g l (fun f => { f with leave := .park w.idx parts })) s
      else
        let s1 := s.xlnDo i w g fs (lanesOf (fset_ ||| joined))
        if joined = 0 then s1
        else
          let s2 := fs.foldl (fun a l => a.modFibre w.team g l (fun f => { f with leave := .past w.idx })) s1
          (lanesOf joined).foldl (fun (a : State) l =>
            (a.pullIn w g l).modFibre w.team g l (fun f => { f with leave := .past w.idx, lclk := f.lclk + 1 })) s2

/-- A cross-lane instruction with a participant set, each group of the bundle on its own (R158). -/
def xlnBody (i : Instr) (ms : MSrc) (w : Who) (s : State) : State := (groupsOf w.perf).foldl (xlnGroup i ms w) s

def execLxch (c : Ctl) (mode : XMode) (w64 edge : Bool) (ms : MSrc) (d a b : Reg) (s : State) : Host.Outcome State Fault Refusal :=
  native (.lxch c mode w64 edge ms d a b) s (xlnBody (.lxch c mode w64 edge ms d a b) ms)

def execVote (c : Ctl) (op : VoteOp) (neg : Bool) (ms : MSrc) (d : Reg) (a : Pred) (s : State) : Host.Outcome State Fault Refusal :=
  native (.vote c op neg ms d a) s (xlnBody (.vote c op neg ms d a) ms)

def execMatchx (c : Ctl) (w64 : Bool) (ms : MSrc) (d a : Reg) (s : State) : Host.Outcome State Fault Refusal :=
  native (.matchx c w64 ms d a) s (xlnBody (.matchx c w64 ms d a) ms)

def execXred (c : Ctl) (op : XOp) (uns : Bool) (ms : MSrc) (d a : Reg) (s : State) : Host.Outcome State Fault Refusal :=
  native (.xred c op uns ms d a) s (xlnBody (.xred c op uns ms d a) ms)

def execXscan (c : Ctl) (op : XOp) (uns excl : Bool) (ms : MSrc) (d a : Reg) (s : State) : Host.Outcome State Fault Refusal :=
  native (.xscan c op uns excl ms d a) s (xlnBody (.xscan c op uns excl ms d a) ms)

def execLanemap (c : Ctl) (ms : MSrc) (a : Reg) (s : State) : Host.Outcome State Fault Refusal :=
  native (.lanemap c ms a) s (xlnBody (.lanemap c ms a) ms)

def execElect (c : Ctl) (ms : MSrc) (p : Pred) (s : State) : Host.Outcome State Fault Refusal :=
  native (.elect c ms p) s (xlnBody (.elect c ms p) ms)

/-- Instructions that never wait: each performing fibre gets a result of its own (R164, R168). -/
def xlnNow (i : Instr) (d : Reg) (w : Who) (s : State) (val : List Nat → Option Group → Nat → Word) : State :=
  let q := s.openOps i w w.perf
  w.perf.foldl (fun a x => a.doneLane w x.1 x.2 (opOf q.1 x.1) [(.v d, val (lanesIn w.perf x.1) (s.group w.team x.1) x.2)]) q.2

def execLanemapRd (c : Ctl) (d : Reg) (s : State) : Host.Outcome State Fault Refusal :=
  native (.lanemapRd c d) s (fun w s => xlnNow (.lanemapRd c d) d w s (fun _ gr l => BitVec.ofNat 32 (((gr.map (·.remap)).getD []).getD l 0)))

def execActive (c : Ctl) (d : Reg) (s : State) : Host.Outcome State Fault Refusal :=
  native (.active c d) s (fun w s => xlnNow (.active c d) d w s (fun ls _ _ => laneSet ls))

/-! ### Completion by an exit (R159) -/

/-- Fibres that stand parked together, the set complete without an issue: the paths, their lanes and the set. -/
def Group.completeSet (x : Group) : Option (Path × Lanes) :=
  x.parked.findSome? (fun p =>
    let all := (x.parked.filter (fun q => decide (q.pc = p.pc) && decide (q.idx = p.idx) && decide (q.depth = p.depth) && decide (q.parts = p.parts))).foldl
      (fun (m : Lanes) q => m ||| q.lanes) 0
    if p.parts &&& ~~~all = 0 then some (p, all) else none)

/-- A lane leaves its path and stands at a place at the back of the list, merging with a ready path there that is not in a running bundle
(R100). -/
def Group.toBack (x : Group) (l : Nat) (pc : VAddr) (idx depth : Nat) : Group :=
  let y := x.dropLane l
  let q : Path := ⟨pc, idx, depth, (1 : BitVec 32) <<< l, .ready⟩
  match (List.range y.paths.length).find? (fun j =>
      !(decide (j = 0) && decide (y.bundle ≠ 0)) && (match y.paths[j]? with | some r => decide (r.kind = .ready) && r.sameSpot q | none => false)) with
  | some j => { y with paths := y.paths.modify j (fun p => { p with lanes := p.lanes ||| q.lanes }) }
  | none => { y with paths := y.paths ++ [q] }

/-- A path is another one with more fibres, or the same. -/
def Path.grows (p q : Path) : Bool := p.sameSpot q && decide (p.kind = q.kind) && decide (p.lanes &&& q.lanes = p.lanes)

/-- A different path came to the front: the fairness timer starts again and the path counts as ready from now; a merge into the front path changes
neither (R106). -/
def Group.newFront (before after : Group) (now : Nat) : Group :=
  match before.paths.head?, after.paths.head? with
  | some p, some q => if p.grows q then after else { after with timer := 0, readyAt := now }
  | _, _ => { after with timer := 0, readyAt := now }

/-- A parked set that an exit has completed is performed, and its fibres stand ready at the successor (R159). -/
def execXlnExitCompletion (team grp : Nat) (s : State) : Host.Outcome State Fault Refusal :=
  event s (fun s =>
    match s.group team grp with
    | none => s
    | some x =>
      match x.completeSet with
      | none => s
      | some (p, all) =>
        match p.kind with
        | .parked _ word count =>
          match decodeWord word with
          | .error _ => s
          | .ok i =>
            let w : Who := { bundle := 0, team := team, clause := p.pc, idx := p.idx, count := count, pos := 0, cls := 2, word := word,
                             active := [], perf := (lanesOf all).map (fun l => (grp, l)), ops := [] }
            let s1 := s.xlnDo i w grp [] (lanesOf all)
            let s2 := (lanesOf all).foldl (fun (a : State) l =>
              let r := (a.fibre team grp l).succOf p.pc count p.idx
              (a.modFibre team grp l (fun _ => { r.1 with lclk := r.1.lclk + 1 })).modGroup team grp (fun y =>
                y.toBack l r.2.1.1 r.2.1.2 r.1.depth)) s1
            s2.modGroup team grp (fun y => Group.newFront x y (s.coreNow team))
        | _ => s)

end Sys2Proof.Machine
end

