-- ==== Sys2Proof/Machine/Control.lean ====
section
/-!
DEFINITION. Instruction fetch as a read (R76, R77), the control instructions (R110 to R126) and the return from a trap (R357).
-/

namespace Sys2Proof.Machine

/-! ### Reading instruction words (R76, R77, R116) -/

/-- The word a core keeps of an address of TEXT. -/
def Core.kept (c : Core) (root va : Nat) : Option DWord :=
  (c.l0.find? (fun e => decide (e.1 = root) && decide (e.2.1 = va))).map (fun e => e.2.2)

/-- The word a fetch returns: memory's, or the one kept, whichever of the two the part takes when they differ (R77). -/
def State.textWord (s : State) (key root va pa : Nat) : DWord :=
  let m : DWord := BitVec.ofNat 64 (memNat s.mem pa 8)
  match (s.core key).kept root va with
  | some k => if k = m then m else if Config.freeBool s.free then k else m
  | none => m

/-- Fetch a word for a group: the word, a miss, or a trap with reason 5 (R76, R353). -/
def State.fetchWord (s : State) (t : Team) (g va : Nat) : Res DWord :=
  match s.xlate t g va .fetch 5 with
  | .ok lf => .ok (s.textWord t.key (s.ctxOf t).root va lf.pa)
  | .trap tr => .trap tr
  | .miss v l wr => .miss v l wr

/-- Words that the 32 KiB of a core's L0 and the loop buffers of its 32 sub-cores, of 256 instructions each, hold (R1). -/
def l0Words : Nat := 4096 + 32 * 256

/-- The core keeps the words it has fetched, as many as it holds, with the translations used. -/
def State.keepText (s : State) (t : Team) (ws : List (Nat × DWord)) : State :=
  let root := (s.ctxOf t).root
  let s1 := ws.foldl (fun (a : State) e => a.fillTlb (some t.key) t.die (a.ctxOf t) e.1 .fetch) s
  s1.modCore t.key (fun c =>
    let older := c.l0.filter (fun e => !(ws.any (fun x => decide (e.1 = root) && decide (e.2.1 = x.1))))
    { c with l0 := (ws.map (fun e => (root, e.1, e.2)) ++ older).take l0Words })

/-- The landing-pad check of a kind: bit 0 JUMP, 1 CALL, 2 RET (R116). -/
def padOk (w : DWord) (kind : Nat) : Bool := decide (field w.toNat 63 56 = 0x45) && flag w.toNat kind

/-- Check the landing pad at a target for a fibre of a group. -/
def State.pad (s : State) (t : Team) (g : Nat) (target : VAddr) (kind : Nat) : Res VAddr :=
  match s.fetchWord t g (target + 8#49).toNat with
  | .ok w => if padOk w kind then .ok target else .trap (.cflow 1)
  | .trap tr => .trap tr
  | .miss v l wr => .miss v l wr

/-! ### Transfers -/

/-- A target of OFF24 (R81, R110). -/
def Who.target (w : Who) (off : BitVec 24) : VAddr := w.clause + (off.signExtend 49 <<< 3)

/-- A fibre transfers to a clause. -/
def State.jump (s : State) (w : Who) (x : Nat × Nat) (a : VAddr) : State :=
  s.modFibre w.team x.1 x.2 (fun f => { f with leave := .goto a 0 })

/-- Push a return address; the call depth goes up (R113, R114). -/
def Fibre.push (f : Fibre) (a : VAddr) : Fibre := { f with stack := f.stack.take f.depth ++ [a], depth := f.depth + 1 }

/-- Do something for each performing fibre, or trap. -/
def eachFibre (w : Who) (s : State) (h : Fibre → Except Trap Fibre) : State :=
  w.perf.foldl (fun a x =>
    match h (a.fibre w.team x.1 x.2) with
    | .ok f => a.modFibre w.team x.1 x.2 (fun _ => f)
    | .error tr => a.takeTrap w w.word x.1 x.2 tr) s

def execBra (c : Ctl) (off : BitVec 24) (hint : Bool) (s : State) : Host.Outcome State Fault Refusal :=
  native (.bra c off hint) s (fun w s => w.perf.foldl (fun a x => a.jump w x (w.target off)) s)

def execCall (c : Ctl) (off : BitVec 24) (hint : Bool) (s : State) : Host.Outcome State Fault Refusal :=
  native (.call c off hint) s (fun w s => eachFibre w s (fun f =>
    if f.depth = 255 then .error (.cflow 2) else .ok { f.push w.after with leave := .goto (w.target off) 0 }))

/-- The target of an indirect transfer for a fibre (R115). -/
def State.indirect (s : State) (w : Who) (t : Team) (g : Nat) (f : Fibre) (a : Reg) (call : Bool) : Res VAddr :=
  let idx := (f.get w.pos a).toNat
  if t.kern.dtlen ≤ idx then .trap .dispatch
  else if call && decide (f.depth = 255) then .trap (.cflow 2)
  else
    match s.xlate t g (t.kern.rodata + t.kern.dtoff + 8 * idx) .read 2 with
    | .trap tr => .trap tr
    | .miss v l wr => .miss v l wr
    | .ok lf =>
      let e := memNat s.mem lf.pa 8
      if field e 63 49 ≠ 0 || decide (field e 2 0 ≠ 0) then .trap .dispatch
      else s.pad t g (BitVec.ofNat 49 e) (if call then 1 else 0)

/-- An indirect transfer of every performing fibre (R111, R115). -/
def indirectBody (a : Reg) (call : Bool) (w : Who) (s : State) : State :=
  match s.team w.team with
  | none => s
  | some t =>
    let r := s.gate w (fun g l => s.indirect w t g (s.fibre w.team g l) a call)
    let s1 := r.1.foldl (fun (x : State) e => x.modFibre w.team e.1 e.2.1 (fun f =>
      { (if call then f.push w.after else f) with leave := .goto e.2.2 0 })) r.2
    { s1 with free := s1.free + 1 }

def execBrx (c : Ctl) (hint : Bool) (a : Reg) (s : State) : Host.Outcome State Fault Refusal :=
  native (.brx c hint a) s (indirectBody a false)

def execCallx (c : Ctl) (hint : Bool) (a : Reg) (s : State) : Host.Outcome State Fault Refusal :=
  native (.callx c hint a) s (indirectBody a true)

/-- Discard the loop levels recorded at the call depth, and leave it (R118). -/
def Fibre.pop (f : Fibre) : Fibre :=
  let keep := f.loops.filter (fun v => decide (v.depth ≠ f.depth))
  { f with loops := keep, nest := keep.length, depth := f.depth - 1, stack := f.stack.take (f.depth - 1) }

def execRet (c : Ctl) (hint : Bool) (s : State) : Host.Outcome State Fault Refusal :=
  native (.ret c hint) s (fun w s =>
    match s.team w.team with
    | none => s
    | some t =>
      let r := s.gate w (fun g l =>
        let f := s.fibre w.team g l
        if f.depth = 0 || (f.h && decide (f.depth = f.d0)) then .trap (.cflow 3)
        else s.pad t g (f.stack.getD (f.depth - 1) 0) 2)
      let s1 := r.1.foldl (fun (x : State) e => x.modFibre w.team e.1 e.2.1 (fun f => { f.pop with leave := .goto e.2.2 0 })) r.2
      { s1 with free := s1.free + 1 })

/-- LPAD has no effect (R117). -/
def execLpad (c : Ctl) (kinds : BitVec 3) (s : State) : Host.Outcome State Fault Refusal :=
  native (.lpad c kinds) s (fun _ s => s)

/-- Open a loop level (R119). -/
def Fibre.openLoop (f : Fibre) (n : Word) (start stop : VAddr) : Fibre :=
  { f with lc := f.lc.set f.nest n, loops := f.loops.take f.nest ++ [⟨start, stop, f.depth⟩], nest := f.nest + 1, leave := .goto start 0 }

def execLoop (c : Ctl) (off : BitVec 24) (a : Reg) (s : State) : Host.Outcome State Fault Refusal :=
  native (.loop c off a) s (fun w s => eachFibre w s (fun f =>
    if f.nest = 3 then .error (.cflow 4)
    else
      let n := f.get w.pos a
      if n = 0 then .ok { f with leave := .goto (w.target off) 0 } else .ok (f.openLoop n w.after (w.target off))))

def execLbrk (c : Ctl) (hint : Bool) (s : State) : Host.Outcome State Fault Refusal :=
  native (.lbrk c hint) s (fun w s => eachFibre w s (fun f =>
    match f.inner with
    | none => .error (.cflow 5)
    | some v => .ok { f.closeLevel with leave := .goto v.stop 0 }))

/-! ### SPAWN, EXIT, YIELD (R123 to R125) -/

/-- The lane is free: no live fibre, nothing of its last fibre outstanding under a counter, and not freed in the running quantum of a
deterministic grid (R123, R334). -/
def Group.freeLane (x : Group) : Option Nat :=
  (List.range 32).find? (fun l => match x.fibres[l]? with
    | some f => !f.live && decide (f.busy = 0) && !x.dxgone.getLsbD l
    | none => false)

/-- The fibre that SPAWN creates (R123). -/
def Fibre.spawned (old parent : Fibre) (win : Nat) (arg : Word) : Fibre :=
  { Fibre.reset with live := true, regs := arg :: List.replicate (win - 1) 0, lclk := parent.lclk + 1, order := old.order, loads := old.loads, clkQ := parent.lclk + 1 }

/-- Record a lane that a bundle has spawned: it joins the path of the entry. -/
def Bundle.spawn (b : Bundle) (g l : Nat) (a : VAddr) : Bundle :=
  let bit : Lanes := (1 : BitVec 32) <<< l
  if b.spawns.any (fun e => decide (e.1 = g) && decide (e.2.2 = a)) then
    { b with spawns := b.spawns.map (fun e => if e.1 = g && e.2.2 = a then (e.1, e.2.1 ||| bit, a) else e) }
  else { b with spawns := b.spawns ++ [(g, bit, a)] }

def execSpawn (c : Ctl) (off : BitVec 24) (a d : Reg) (s : State) : Host.Outcome State Fault Refusal :=
  native (.spawn c off a d) s (fun w s => perLane w s (fun t s g l =>
    let f := s.fibre w.team g l
    match (s.group w.team g).bind Group.freeLane with
    | none => s.modFibre w.team g l (fun f => f.write w.pos 0 (.v d, 0xFFFFFFFF))
    | some n =>
      ((s.modFibre w.team g n (fun old => old.spawned f t.kern.win (f.get w.pos a))).modFibre w.team g l (fun f =>
        f.write w.pos 0 (.v d, BitVec.ofNat 32 n))).modBundle w.bundle (fun b => b.spawn g n (w.target off))))

def execExit (c : Ctl) (s : State) : Host.Outcome State Fault Refusal :=
  native (.exit c) s (fun w s => w.perf.foldl (fun a x => a.modFibre w.team x.1 x.2 (fun f => { f with leave := .exit })) s)

def execYield (c : Ctl) (s : State) : Host.Outcome State Fault Refusal :=
  native (.yield c) s (fun w s => s.modBundle w.bundle (fun b => { b with yields := b.yields ++ groupsOf w.perf }))

/-! ### Software traps and the return from a trap (R126, R357) -/

def execBkpt (c : Ctl) (code : BitVec 12) (s : State) : Host.Outcome State Fault Refusal :=
  native (.bkpt c code) s (fun w s => s.trapAll w .bkpt w.perf)

def execTrap (c : Ctl) (code : BitVec 12) (s : State) : Host.Outcome State Fault Refusal :=
  native (.trap c code) s (fun w s => s.trapAll w .soft w.perf)

/-- Where a frame's TPC points. -/
def Frame.clause (f : Frame) : VAddr := BitVec.ofNat 49 f.tpc.toNat
def Frame.index (f : Frame) : Nat := field f.tpc.toNat 55 52

/-- The frame was written for a malformed clause or a failed fetch (R357). -/
def Frame.noSkip (f : Frame) : Bool :=
  let cause := field f.tcause.toNat 7 0
  decide (cause = 3) || (decide (cause = 9) && decide (field f.tcause.toNat 15 8 = 5))

/-- TRET: back to the instruction that trapped. -/
def execTret (c : Ctl) (keep : BitVec 8) (keepPw : Bool) (s : State) : Host.Outcome State Fault Refusal :=
  native (.tret c keep keepPw) s (fun w s => eachFibre w s (fun f =>
    if !f.h then .error .illegal else .ok (f.trapReturn keep keepPw f.frame.clause f.frame.index)))

/-- TRET.SKIP: to its successor. -/
def execTretSkip (c : Ctl) (keep : BitVec 8) (keepPw : Bool) (s : State) : Host.Outcome State Fault Refusal :=
  native (.tretSkip c keep keepPw) s (fun w s => eachFibre w s (fun f =>
    if !f.h || f.frame.noSkip then .error .illegal
    else
      let r := (f.trapReturn keep keepPw 0 0).succOf f.frame.clause f.frame.count f.frame.index
      .ok { r.1 with leave := .resume r.2.1.1 r.2.1.2 }))

end Sys2Proof.Machine
end

