-- ==== Sys2Proof/Machine/Locks.lean ====
section
/-!
DEFINITION. Line locks: the instructions, and the events at a line's home (R290 to R308, R371).
-/

namespace Sys2Proof.Machine

/-! ### The instructions (R292, R293, R302) -/

/-- A lock's line may not lie on a UO page (R293). -/
def noUo (x : Target) : Res Target :=
  match x with
  | .glob va lf => if lf.ord = 2 then .trap (.access 2 (BitVec.ofNat 64 va)) else .ok x
  | .vault _ _ => .ok x

/-- The line of a lock operand, and its page. -/
def Target.lockLine : Target → Nat × LockPage
  | .glob _ lf => (lf.pa / 128, ⟨!lf.cached, decide (lf.ord = 0), lf.trk⟩)
  | .vault _ _ => (0, ⟨true, false, false⟩)

/-- The resolution that LLOCK, LUNLK and LTRY share (R293): a group whose fibres name more than one line traps; each other group makes one
request of its line, with its lanes. -/
def lockBody (i : Instr) (brec : BitVec 12) (a : Reg)
    (go : Team → Nat → List Nat → Nat → LockPage → Nat → Who → State → State) : Who → State → State :=
  homeWith false noTurn (.global brec) a 0 128 .at_ .rw false noUo (fun t ls w s =>
    let lines (g : Nat) : List Nat := ((ls.filter (fun x => decide (x.1 = g))).map (fun x => x.2.2.lockLine.1)).eraseDups
    let split := (groupsOf (pairsOf ls)).filter (fun g => decide (1 < (lines g).length))
    let bad := (pairsOf ls).filter (fun x => split.contains x.1)
    let good := ls.filter (fun x => !split.contains x.1)
    let q := ((s.trapAll w .mismatch bad).soFenceBy w t.key (anySo good)).openFor i w (pairsOf good)
    (groupsOf (pairsOf good)).foldl (fun (y : State) g =>
      let mine := good.filter (fun x => decide (x.1 = g))
      let at_ := (mine.headD (0, 0, .vault 0 0)).2.2.lockLine
      go t g (mine.map (·.2.1)) at_.1 at_.2 (opOf q.1 g) w y) q.2)

/-- Lanes whose request travels to a home: later accesses follow it. -/
def State.orderAll (s : State) (t g : Nat) (ls : List Nat) : State := ls.foldl (fun (a : State) l => a.order t g l) s

/-- LLOCK and LTRY of the performing fibres: one request for each group, with the leader's timeout (R304). -/
def doLock (i : Instr) (try_ uo : Bool) (brec : BitVec 12) (a d : Reg) : Who → State → State :=
  lockBody i brec a (fun t g lanes line page op w s =>
    let lead := lanes.headD 0
    let timeout := (s.fibre w.team g lead).get w.pos d
    if t.dx then (s.lockRequest w.team g try_ uo line page timeout (s.dxKey w g lead) (lanes.map (fun l => (l, d, op)))).soFence t.key page.so
    else (s.sendReq ⟨w.team, g, op, .lock try_ uo line page timeout (lanes.map (fun l => (l, d))), page.trk, page.so, 0, false, none⟩).orderAll w.team g lanes)

def execLlock (c : Ctl) (uo : Bool) (brec : BitVec 12) (a d : Reg) (s : State) : Host.Outcome State Fault Refusal :=
  native (.llock c uo brec a d) s (syncBody (.llock c uo brec a d) .group (doLock (.llock c uo brec a d) false uo brec a d))

def execLtry (c : Ctl) (uo : Bool) (brec : BitVec 12) (a d : Reg) (s : State) : Host.Outcome State Fault Refusal :=
  native (.ltry c uo brec a d) s (syncBody (.ltry c uo brec a d) .group (doLock (.ltry c uo brec a d) true uo brec a d))

/-- LUNLK of the performing fibres. -/
def doUnlock (i : Instr) (uo : Bool) (brec : BitVec 12) (a d : Reg) : Who → State → State :=
  lockBody i brec a (fun t g lanes line page op w s =>
    if t.dx then (s.unlockRequest w.team g uo line (lanes.map (fun l => (l, d, op)))).soFence t.key page.so
    else (s.sendReq ⟨w.team, g, op, .unlock uo line page (lanes.map (fun l => (l, d))), page.trk, page.so, 0, false, none⟩).orderAll w.team g lanes)

def execLunlk (c : Ctl) (uo : Bool) (brec : BitVec 12) (a d : Reg) (s : State) : Host.Outcome State Fault Refusal :=
  native (.lunlk c uo brec a d) s (syncBody (.lunlk c uo brec a d) .group (doUnlock (.lunlk c uo brec a d) uo brec a d))

/-- LSTAT of the performing fibres: the state of the line as one clock finds it. It waits for nothing and is ordered with nothing (R302). -/
def doLstat (c : Ctl) (brec : BitVec 12) (a d : Reg) (w : Who) (s : State) : State :=
  match s.team w.team with
  | none => s
  | some t =>
    let r := s.gate w (fun g l => (s.resolve t g (s.fibre w.team g l) w.pos (.global brec) a 0 128 .at_ .read).andThen noUo)
    let q := ((r.2.touchAll t r.1 .read).keepRec t brec.toNat).openFor (.lstat c brec a d) w (pairsOf r.1)
    r.1.foldl (fun (y : State) x =>
      y.doneLane w x.1 x.2.1 (opOf q.1 x.1) [(.v d, s.lockStatus w.team x.1 x.2.2.lockLine.1)]) q.2

def execLstat (c : Ctl) (brec : BitVec 12) (a d : Reg) (s : State) : Host.Outcome State Fault Refusal :=
  native (.lstat c brec a d) s (syncBody (.lstat c brec a d) .fibre (doLstat c brec a d))

/-! ### Events at the home -/

/-- A lock request may be decided now: its slice has begun it or may, and nothing that goes first in this clock is due at the line (R305, R370). -/
def State.lockReady (s : State) (id : Nat) (r : Req) (line step : Nat) : Bool :=
  s.mayBegin id r && !s.lockLate line step &&
  (decide (step = 1) || !(s.dueWaits (·.left) ++ s.dueWaits (·.probe)).any (fun x => decide (x.2.2 = line)))

/-- A request has been decided at its home: it is gone, its event has reached the lock, and on an SO page a fence follows (R250). -/
def State.lockDecided (s : State) (r : Req) (line step : Nat) : State :=
  (s.lockTurn line step).soFence (((s.team r.team).map Team.key).getD 0) r.so

/-- A lock request is decided at its line's home (R295). -/
def execLockRequestAtHome (req : Nat) (s : State) : Host.Outcome State Fault Refusal :=
  event s (fun s =>
    match fget s.reqs req with
    | some r =>
      (match r.kind with
      | .lock try_ uo line page timeout lanes =>
        if !s.lockReady req r line 4 then s
        else
          let a := s.beginReq req r
          if a.hostBars line true then a.snoop line
          else (State.lockRequest { a with reqs := fdel a.reqs req } r.team r.grp try_ uo line page timeout []
            (lanes.map (fun l => (l.1, l.2, r.op)))).lockDecided r line 4
      | _ => s)
    | none => s)

/-- A release reaches its line's home (R296). -/
def execUnlockAtHome (req : Nat) (s : State) : Host.Outcome State Fault Refusal :=
  event s (fun s =>
    match fget s.reqs req with
    | some r =>
      (match r.kind with
      | .unlock uo line _ lanes =>
        if !s.lockReady req r line 1 then s
        else
          let a := s.beginReq req r
          if a.hostBars line true then a.snoop line
          else (State.unlockRequest { a with reqs := fdel a.reqs req } r.team r.grp uo line (lanes.map (fun l => (l.1, l.2, r.op)))).lockDecided r line 1
      | _ => s)
    | none => s)

/-- The lock wait of a group that is not part of a deterministic grid, where waits end at commits (R308). -/
def State.freeWait (s : State) (team grp : Nat) : Option LockWait :=
  ((s.group team grp).bind (·.lwait)).bind (fun (w : LockWait) => if w.key.isEmpty then some w else none)

/-- A waiter's present time reaches its timeout (R304). -/
def execLockTimeout (team grp : Nat) (s : State) : Host.Outcome State Fault Refusal :=
  event s (fun s =>
    match s.freeWait team grp with
    | some w =>
      if !w.absent && decide (w.left = some 0) && !s.lockLate w.line 2 then (s.lockExpire team grp).lockTurn w.line 2 else s
    | none => s)

/-- The probe timer of a wait starts again. -/
def State.rearmProbe (s : State) (t g : Nat) : State :=
  s.modGroup t g (fun x => { x with lwait := x.lwait.map (fun (w : LockWait) => { w with probe := w.probe.map (fun _ => w.every) }) })

/-- A waiter's probe runs, in its turn among those due (R307), after the timeouts that are due at its line (R305). -/
def execDeadlockProbe (team grp : Nat) (s : State) : Host.Outcome State Fault Refusal :=
  event s (fun s =>
    match s.freeWait team grp with
    | some w =>
      if decide (s.nextProbe = some (team, grp, w.line)) && !(s.dueWaits (·.left)).any (fun x => decide (x.2.2 = w.line)) && !s.lockLate w.line 3 then
        ((s.lockProbe team grp).rearmProbe team grp).lockTurn w.line 3
      else s
    | none => s)

/-- The waits of a team are absent: it drains for a save with no deferral left, in a deterministic grid from the safe point on; or it is saved, or
halted, which counts as stopped (R58, R297, R299, R337, R371). -/
def State.away (s : State) (t : Team) : Bool :=
  match t.status with
  | .saving .. => if t.kern.dx.isSome then ((fget s.grids t.grid).map (·.safe)).getD true else t.defer.isNone
  | .saved .. | .halted => true
  | _ => false

/-- A change to absent takes effect, before every other event that reaches the lock in its clock (R371). -/
def execAbsenceArrive (team grp : Nat) (s : State) : Host.Outcome State Fault Refusal :=
  event s (fun s =>
    match s.team team, (s.group team grp).bind (·.lwait) with
    | some t, some w =>
      if s.away t && !w.absent && !s.lockLate w.line 0 then
        (s.modGroup team grp (fun x => { x with lwait := x.lwait.map (fun (v : LockWait) => { v with absent := true }) })).lockTurn w.line 0
      else s
    | _, _ => s)

/-- A change to present takes effect, before every other event that reaches the lock in its clock (R371): a lock that stands free is taken at once
(R296). -/
def execPresenceArrive (team grp : Nat) (s : State) : Host.Outcome State Fault Refusal :=
  event s (fun s =>
    match s.team team, (s.group team grp).bind (·.lwait) with
    | some t, some w =>
      if s.away t || !w.absent || s.lockLate w.line 0 then s
      else ((s.modGroup team grp (fun x => { x with lwait := x.lwait.map (fun (v : LockWait) => { v with absent := false }) })).lockTurn w.line 0).waiterPresent team grp
    | _, _ => s)

/-- The clock in which a save's deferral ends (R300). -/
def Team.deferEnd (t : Team) : Option Nat := t.defer.map (fun d => d.1 + 1024 * d.2)

/-- The deferral of a save ends with LOCKHOLD_MAX (R300): the team is saved with its locks. -/
def execLockholdMaxExpiry (team : Nat) (s : State) : Host.Outcome State Fault Refusal :=
  event s (fun s =>
    match (s.team team).bind Team.deferEnd with
    | some e => if e ≤ s.now then s.modTeam team (fun t => { t with defer := none }) else s
    | none => s)

end Sys2Proof.Machine
end

