-- ==== Sys2Proof/Machine/Issue.lean ====
section
/-!
DEFINITION. The events of a sub-core: bundles, clause fetches, clause boundaries, fairness, and operations that complete (R73 to R77,
R87, R97 to R109, R331, R359).
-/

namespace Sys2Proof.Machine

/-! ### Clause headers (R74, R75) -/

def hdrCount (h : DWord) : Nat := field h.toNat 52 49
def hdrClass (h : DWord) : Nat := field h.toNat 55 53
def hdrJoin (h : DWord) : Bool := flag h.toNat 40

/-- The counters that WAIT names. -/
def hdrWaits (h : DWord) : List Nat := (List.range 8).filter (fun n => decide (n ≠ 0) && flag h.toNat (41 + n))

/-- A header that makes its clause malformed. -/
def hdrBad (h : DWord) : Bool :=
  decide (field h.toNat 63 56 ≠ 0x5A) || decide (6 ≤ hdrClass h) || decide (field h.toNat 39 32 ≠ 0)

/-- A control instruction (R75). -/
def isControl (w : DWord) : Bool := let o := field w.toNat 63 56; decide (0x40 ≤ o) && decide (o ≤ 0x4C)

/-- A malformed clause. -/
def clauseBad (h : DWord) (ws : List DWord) : Bool := hdrBad h || ws.dropLast.any isControl

/-- The header of the clause at an address as a group's fetch reads it; none where it cannot be read now. The spec does not say what the JOIN rule and
WAIT do then: JOIN counts as 0 (R101), and WAIT is tested when the header is fetched (R87; log 45). -/
def State.peekHeader (s : State) (t : Team) (g : Nat) (pc : VAddr) : Option DWord :=
  match s.fetchWord t g pc.toNat with
  | .ok h => some h
  | _ => none

/-! ### Ready paths (R102, R331) -/

/-- A deterministic grid stands at a safe point, at which its teams are saved, or in a commit that is held (R334, R337). -/
def State.atCommit (s : State) (t : Team) : Bool := match fget s.grids t.grid with | some g => g.safe || g.applied | none => false

/-- The team seeds bundles: it is resident; or its save is still deferred while it holds locks or until its deterministic grid reaches a safe
point (R58, R102, R300, R337, R363). -/
def State.runs (s : State) (t : Team) : Bool :=
  match t.status with
  | .resident => !s.atCommit t
  | .saving .. => if t.kern.dx.isSome then !s.atCommit t else t.defer.isSome
  | _ => false

/-- A fibre of a deterministic grid has stopped for the quantum at a clause boundary (R331). -/
def Fibre.spent (f : Fibre) (q : Nat) : Bool := decide (q ≤ f.lclk.toNat - f.clkQ.toNat)

/-- The entries of a deterministic group's buffer. -/
def Group.buffered (x : Group) : Nat := (x.dxbuf.filter (fun e => match e.what with | .event _ => false | _ => true)).length

/-- A deterministic group whose buffer is full: every path of it that could issue has stopped (R331). -/
def Group.stopFull (x : Group) : Group :=
  if x.buffered < 1024 then x else { x with paths := x.paths.map (fun p => if p.kind = .ready then { p with kind := .stopped } else p) }

/-- Every counter that the clause of a path waits for is zero (R87, R102). -/
def State.waitsClear (s : State) (t : Team) (g : Nat) (x : Group) (p : Path) : Bool :=
  match s.peekHeader t g p.pc with
  | some h => (hdrWaits h).all (fun n => decide (x.counter n = 0))
  | none => true

/-- A group's front path is ready (R102). -/
def State.ready (s : State) (t : Team) (g : Nat) : Bool :=
  match t.groups[g]? with
  | none => false
  | some x =>
    match x.paths.head? with
    | none => false
    | some p =>
      s.runs t && decide (x.bundle = 0) && !x.asleep && decide (p.kind = .ready) && decide (x.readyAt ≤ s.coreClock t.part) &&
        s.waitsClear t g x p

/-- Some ready front path of another group stands on the sub-core (R125). -/
def State.otherReady (s : State) (tid g : Nat) (t : Team) (sub : Nat) : Bool :=
  s.teams.any (fun e => decide (e.2.key = t.key) && (List.range e.2.groups.length).any (fun h =>
    !(decide (e.1 = tid) && decide (h = g)) && (match e.2.groups[h]? with | some y => decide (y.subcore = sub) | none => false) && s.ready e.2 h))

/-! ### Who issues (R103, R125) -/

/-- A lock request of a bundle's fibres is on its way: its instruction has neither finished nor begun to wait (R297). -/
def State.lockPending (s : State) (b : Bundle) : Bool :=
  s.reqs.any (fun e => decide (e.2.team = b.team) && b.members.any (fun m => decide (m.1 = e.2.grp)) && (match e.2.kind with | .lock .. => true | _ => false))

/-- The bundle has an instruction to issue. -/
def State.canIssue (s : State) (b : Bundle) : Bool := b.fetched && decide (b.idx < b.words.length) && !(s.activeOf b).isEmpty && !s.lockPending b

/-- A candidate for issue: its place in the order of R103, and the move. -/
structure Candidate where
  key  : List Nat
  move : Move
deriving DecidableEq, Repr

/-- The place of a due mark: the earliest first, none last. -/
def dueKey (ds : List (Option Nat)) : List Nat :=
  match ds.filterMap id with
  | [] => [1, 0]
  | x :: xs => [0, xs.foldl min x]

/-- The running bundles of a sub-core whose next instruction may issue now. A bundle seeded in this clock holds it. -/
def State.runningCands (s : State) (k sub : Nat) : List Candidate :=
  s.bundles.filterMap (fun e =>
    match s.team e.2.team with
    | some t =>
      if decide (t.key = k) && decide (e.2.subcore = sub) && decide (e.2.readyAt ≤ s.coreClock t.part) && s.canIssue e.2 then
        some ⟨(if e.2.first && decide (e.2.readyAt = s.coreClock t.part) then 0 else 1) ::
          dueKey (e.2.members.map (fun m => (s.group e.2.team m.1).bind (·.due))) ++
          [t.prio, 0, e.2.readyAt, t.placed, (e.2.members.map (·.1)).foldl min 64], .issue e.1⟩
      else none
    | none => none)

/-- The groups of a sub-core whose front paths may seed a bundle now: after a one-path YIELD a group lets another go first, for one clock (R125). -/
def State.seedCands (s : State) (k sub : Nat) : List Candidate :=
  s.teams.flatMap (fun e => if e.2.key ≠ k then [] else (List.range e.2.groups.length).filterMap (fun g =>
    match e.2.groups[g]? with
    | some x =>
      if decide (x.subcore = sub) && s.ready e.2 g && !(x.skip && s.otherReady e.1 g e.2 x.subcore) then
        some ⟨1 :: dueKey [x.due] ++ [e.2.prio, 1, x.readyAt, e.2.placed, g], .event (.bundleSeed e.1 g)⟩
      else none
    | none => none))

/-- The candidate that goes first. -/
def firstOf : List Candidate → Option Candidate
  | [] => none
  | x :: xs => match firstOf xs with | some y => if y.key < x.key then some y else some x | none => some x

/-- A sub-core has not issued in the running clock of its core: it issues at most one instruction in each (R103). -/
def State.slotFree (s : State) (k sub part : Nat) : Bool :=
  match fget (s.core k).slots sub with
  | some c => decide (c < s.coreClock part)
  | none => true

/-- A bundle seeded in the running clock holds a sub-core until its first instruction has issued. -/
def State.seededNow (s : State) (k sub : Nat) : Bool :=
  s.bundles.any (fun e => decide (e.2.subcore = sub) && e.2.first && !e.2.fetched && decide (((s.team e.2.team).map Team.key) = some k) &&
    decide (e.2.readyAt = s.coreNow e.2.team))

/-- What a sub-core issues in the running clock (R103). -/
def State.pick (s : State) (k sub part : Nat) : Option Move :=
  if s.slotFree k sub part && !s.seededNow k sub then (firstOf (s.runningCands k sub ++ s.seedCands k sub)).map (·.move) else none

/-! ### Seeding a bundle (R104) -/

/-- A group's front path joins a bundle (R85, R104). -/
def Group.joinBundle (x : Group) (id : Nat) (lanes : Lanes) : Group :=
  { x with bundle := id, skip := false, dxran := true,
           fibres := (List.range x.fibres.length).map (fun l =>
             let f := x.fibres.getD l Fibre.reset
             if lanes.getLsbD l then { f with leave := .run, wlog := [], regs0 := f.regs, pw0 := f.pw } else f) }

/-- A group begins a clause whose WAIT names some counters: results that these cover are covered for the fibres of its path, and the due mark clears
(R88, R107). -/
def Group.beginClause (x : Group) (lanes : Lanes) (waits : List Nat) : Group :=
  { x with due := none,
           fibres := (List.range x.fibres.length).map (fun l =>
             let f := x.fibres.getD l Fibre.reset
             if lanes.getLsbD l then { f with uncov := f.uncov.filter (fun u => !waits.contains u.2) } else f) }

/-- The groups that join a bundle after its seed, in ascending GRPID: their ready front paths stand at the seed's place, with home lanes
that no member has (R104). -/
def State.joiners (s : State) (t : Team) (seed sub : Nat) (p : Path) : List (Nat × Lanes) :=
  ((List.range t.groups.length).foldl (fun (r : List (Nat × Lanes) × Lanes) g =>
    match t.groups[g]? with
    | some y =>
      match y.paths.head? with
      | some q =>
        if decide (g ≠ seed) && decide (y.subcore = sub) && q.sameSpot p && decide (q.lanes &&& r.2 = 0) && s.ready t g then
          (r.1 ++ [(g, q.lanes)], r.2 ||| q.lanes)
        else r
      | none => r
    | none => r) ([], p.lanes)).1

/-- A ready front path that its sub-core picks seeds a bundle; it takes every ready front path of the team at its place (R103, R104). -/
def execBundleSeed (team grp : Nat) (s : State) : Host.Outcome State Fault Refusal :=
  event s (fun s =>
    match s.team team, s.group team grp with
    | some t, some x =>
      match x.paths.head? with
      | none => s
      | some p =>
        if s.pick t.key x.subcore t.part ≠ some (.event (.bundleSeed team grp)) then s
        else
          let members := (grp, p.lanes) :: s.joiners t grp x.subcore p
          let q := s.fresh
          let b : Bundle :=
            { team := team, subcore := x.subcore, pc := p.pc, idx := p.idx, depth := p.depth, members := members, fetched := false, cls := 0,
              words := [], pos := 0, readyAt := s.coreNow team, issued := s.coreNow team, first := true, stall := false, yields := [], spawns := [] }
          members.foldl (fun (a : State) m => a.modGroup team m.1 (fun y => y.joinBundle q.1 m.2)) { q.2 with bundles := fset q.2.bundles q.1 b }
    | _, _ => s)

/-! ### Fetching the clause (R75, R76) -/

/-- The fibres of a bundle as those of an instruction at index 0 of its clause. -/
def State.fetchWho (s : State) (id : Nat) (b : Bundle) (idx count : Nat) : Who :=
  let a := s.activeOf b
  { bundle := id, team := b.team, clause := b.pc, idx := idx, count := count, pos := 0, cls := 0, word := 0, active := a, perf := a, ops := [] }

/-- A miss, when a fetch has one. -/
def Res.miss? {α : Type} : Res α → Option (Nat × Nat × Bool)
  | .miss v l wr => some (v, l, wr)
  | _ => none

def Res.trap? {α : Type} : Res α → Option Trap
  | .trap t => some t
  | _ => none

/-- A group fetches the clause of its bundle: it sleeps on a miss, its fibres trap on a failure, or the words are given. Regions answered FAIL stay
known for the instruction at which the group slept (R180). -/
def State.fetchGroup (s : State) (t : Team) (id : Nat) (b : Bundle) (g : Nat) : Option (DWord × List DWord) × State :=
  match s.fetchWord t g b.pc.toNat with
  | .miss v lv wr => (none, s.sleepGroup (s.fetchWho id b b.idx 0) g [(v, lv, wr)] true)
  | .trap tr =>
    (none, ((lanesIn (s.activeOf b) g).foldl (fun (a : State) l => a.takeTrap (s.fetchWho id b 0 0) 0 g l tr) s).modGroup b.team g
      (fun x => { x with failed := [] }))
  | .ok h =>
    let n := hdrCount h
    let outs := (List.range (n + 1)).map (fun i => s.fetchWord t g (b.pc + BitVec.ofNat 49 (8 + 8 * i)).toNat)
    let misses := outs.filterMap Res.miss?
    match outs.findSome? Res.trap? with
    | some tr =>
      (none, ((lanesIn (s.activeOf b) g).foldl (fun (a : State) l => a.takeTrap (s.fetchWho id b 0 n) h g l tr) s).modGroup b.team g
        (fun x => { x with failed := [] }))
    | none =>
      if !misses.isEmpty then (none, s.sleepGroup (s.fetchWho id b b.idx n) g misses true)
      else
        (some (h, outs.map (fun o => match o with | .ok w => w | _ => 0)), s)

/-- A group's counters that a clause's WAIT names are zero (R87). -/
def Group.clearOf (x : Group) (waits : List Nat) : Bool := waits.all (fun n => decide (x.counter n = 0))

/-- The groups of a bundle begin a clause with the header fetched. A group with a counter that its WAIT names above 0, whose header could not be read
when the bundle was formed, does not join it after all (R87). -/
def State.beginMembers (s : State) (id : Nat) (b : Bundle) (waits : List Nat) : State :=
  let late (m : Nat × Lanes) : Bool := !(((s.group b.team m.1).map (fun x => x.asleep || x.clearOf waits)).getD true)
  let stay := b.members.filter (fun m => !late m)
  let s1 := b.members.foldl (fun (a : State) m =>
    a.modGroup b.team m.1 (fun x => if late m then { x with bundle := 0 } else if x.asleep then x else x.beginClause m.2 waits)) s
  if stay.isEmpty then { s1 with bundles := fdel s1.bundles id } else s1.modBundle id (fun x => { x with members := stay })

/-- A clause is fetched whole, and decoded before its first instruction issues; it begins only for groups whose counters its WAIT finds zero. -/
def execClauseFetch (bundle : Nat) (s : State) : Host.Outcome State Fault Refusal :=
  event s (fun s =>
    match fget s.bundles bundle with
    | none => s
    | some b =>
      match s.team b.team with
      | none => s
      | some t =>
        if b.fetched then s
        else
          let r := (b.members.map (·.1)).foldl (fun (a : Option (DWord × List DWord) × State) g =>
            let q := a.2.fetchGroup t bundle b g
            (a.1.or q.1, q.2)) (none, s)
          match r.1 with
          | none => (r.2.beginMembers bundle b []).modBundle bundle (fun x => { x with fetched := true })
          | some (h, ws) =>
            let s1 := r.2.keepText t ((b.pc.toNat, h) :: (List.range ws.length).map (fun i => ((b.pc + BitVec.ofNat 49 (8 + 8 * i)).toNat, ws.getD i 0)))
            if clauseBad h ws then
              let w := s1.fetchWho bundle b 0 (hdrCount h)
              ((w.active.foldl (fun (a : State) x => a.takeTrap w h x.1 x.2 .malformed) s1).beginMembers bundle b []).modBundle bundle
                (fun x => { x with fetched := true })
            else
              (s1.beginMembers bundle b (hdrWaits h)).modBundle bundle (fun x => { x with
                fetched := true, cls := hdrClass h, words := ws, readyAt := s1.coreNow b.team }))

/-! ### The clause boundary (R98 to R101) -/

/-- Where a fibre of a bundle stands at the boundary: the fall-through place, the performing fibres' place, the trap path, the back of the
list, or out of the group. -/
inductive Stand
  | trap (pc : VAddr)
  | fall (back : Bool) (pc : VAddr) (idx : Nat) (kind : PathKind)
  | perf (pc : VAddr) (idx : Nat)
  | tail (pc : VAddr) (idx : Nat) (kind : PathKind)
  | gone
deriving DecidableEq, Repr

/-- A fibre at the boundary: the fibre and where it stands (R98, R120, R121). -/
def Fibre.stand (f : Fibre) (tbase : Option VAddr) (b : Bundle) : Fibre × Stand :=
  let count := b.words.length - 1
  match f.leave with
  | .run => let r := f.succOf b.pc count count; (r.1, .fall r.2.2 r.2.1.1 r.2.1.2 .ready)
  | .goto a j => (Fibre.bodyExit 3 f a, .perf a j)
  | .resume a j => (f, .fall false a j .ready)
  | .past j => let r := f.succOf b.pc count j; (r.1, .fall r.2.2 r.2.1.1 r.2.1.2 .ready)
  | .sleep j => (f, .fall false b.pc j .asleep)
  | .trap => (f, .trap (tbase.getD 0))
  | .wait j =>
    let r := f.succOf b.pc count j
    (r.1, .tail r.2.1.1 r.2.1.2 .waiting)
  | .block j => (f, .tail b.pc j .waiting)
  | .park j parts => (f, .tail b.pc j (.parked parts (b.words.getD j 0) count))
  | .exit => (f, .gone)

/-- Where a fibre stands that slept, when its records have been answered already (R180). -/
def Stand.awake : Stand → Stand
  | .fall back pc idx .asleep => .fall back pc idx .ready
  | x => x

/-- The fibres of a deterministic group that have finished a quantum stop at the boundary: as fibres that wait do, they form a path at the back of the
list (R331, R198; log 47). -/
def Stand.stop (x : Stand) : Stand :=
  match x with
  | .trap pc => .tail pc 0 .stopped
  | .fall _ pc idx .ready => .tail pc idx .stopped
  | .perf pc idx => .tail pc idx .stopped
  | y => y

/-- A path with one lane. -/
def onePath (pc : VAddr) (idx depth l : Nat) (kind : PathKind) : Path := ⟨pc, idx, depth, (1 : BitVec 32) <<< l, kind⟩

/-- The distinct paths of some one-lane paths, in order of first appearance. -/
def gatherPaths (ps : List Path) : List Path :=
  ps.foldl (fun (r : List Path) p =>
    if r.any (fun q => q.sameSpot p && decide (q.kind = p.kind)) then
      r.map (fun q => if q.sameSpot p && decide (q.kind = p.kind) then { q with lanes := q.lanes ||| p.lanes } else q)
    else r ++ [p]) []

/-- The performers of the last instruction are placed ahead of the fall-through path (R99). -/
def hintOf (words : List DWord) : Bool :=
  match words.getLast? with
  | none => false
  | some w =>
    match decodeWord w with
    | .ok (.bra _ _ h) => h
    | .ok (.brx _ h _) => h
    | .ok (.call _ _ h) => h
    | .ok (.callx _ h _) => h
    | .ok (.ret _ h) => h
    | .ok (.lbrk _ h) => h
    | _ => false

/-- The last instruction is a LOOP: fibres that enter the body stand ahead of those that skip it (R99). -/
def loopLast (words : List DWord) : Bool :=
  match words.getLast? with
  | none => false
  | some w => match decodeWord w with | .ok (.loop ..) => true | _ => false

/-- The new paths at the head of the list, in the order of R99, of lanes in ascending order with where they stand. -/
def headPaths (b : Bundle) (ls : List (Nat × Nat × Stand)) : List Path :=
  let after : VAddr := b.pc + BitVec.ofNat 49 (8 * (b.words.length + 1))
  let traps := ls.filterMap (fun x => match x.2.2 with | .trap pc => some (onePath pc 0 x.2.1 x.1 .ready) | _ => none)
  let falls (want : Bool) := ls.filterMap (fun x => match x.2.2 with
    | .fall back pc idx k => if back = want then some (onePath pc idx x.2.1 x.1 k) else none
    | _ => none)
  let perfs := ls.filterMap (fun x => match x.2.2 with | .perf pc idx => some (onePath pc idx x.2.1 x.1 .ready) | _ => none)
  let enters := if loopLast b.words then perfs.filter (fun p => decide (p.pc = after)) ++ perfs.filter (fun p => decide (p.pc ≠ after)) else perfs
  let fall := falls true ++ falls false
  gatherPaths (traps ++ (if hintOf b.words then enters ++ fall else fall ++ enters))

/-- The new paths at the back of the list. -/
def tailPaths (ls : List (Nat × Nat × Stand)) : List Path :=
  gatherPaths (ls.filterMap (fun x => match x.2.2 with | .tail pc idx k => some (onePath pc idx x.2.1 x.1 k) | _ => none))

/-- Merge ready paths at one place, at the earlier of their positions; a path is marked when it is new or merged (R100). -/
def mergePaths (ps : List (Path × Bool)) : List (Path × Bool) :=
  ps.foldl (fun (r : List (Path × Bool)) p =>
    let same (q : Path × Bool) : Bool := q.1.sameSpot p.1 && decide (q.1.kind = .ready) && decide (p.1.kind = .ready)
    if r.any same then r.map (fun q => if same q then ({ q.1 with lanes := q.1.lanes ||| p.1.lanes }, q.2 || p.2) else q)
    else r ++ [p]) []

/-- The front path goes to the back of the list. -/
def rotatePaths {α : Type} : List α → List α
  | [] => []
  | p :: ps => ps ++ [p]

/-- Exchange the first two. -/
def swapFront {α : Type} : List α → List α
  | p :: q :: ps => q :: p :: ps
  | ps => ps

/-- The fairness timer has reached FAIRQ (R106). -/
def Team.timerFull (t : Team) (x : Group) : Bool := decide (t.kern.fairq ≤ x.timer)

/-- A rotation of a group's paths (R107). -/
def Group.rotate (x : Group) (now : Nat) : Group :=
  { x with paths := rotatePaths x.paths, timer := 0, due := some now, readyAt := now }

/-- A group's path list after its front path has left a bundle (R98 to R101, R107, R125). -/
def Group.boundary (x : Group) (t : Team) (b : Bundle) (now : Nat) (join : VAddr → Bool) (ls : List (Nat × Nat × Stand)) (spawned : List Path)
    (yielded : Bool) : Group :=
  let old := x.paths.drop 1
  let head := headPaths b ls
  let tail := tailPaths ls
  let merged := mergePaths (head.map (fun p => (p, true)) ++ old.map (fun p => (p, false)) ++ (tail ++ spawned).map (fun p => (p, true)))
  let changed := decide (2 ≤ head.length) || (head.isEmpty && (!old.isEmpty || decide (2 ≤ (tail ++ spawned).length)))
  let swap := match merged with
    | p :: _ :: _ => p.2 && decide (p.1.idx = 0) && join p.1.pc
    | _ => false
  let paths : List Path := (if swap then swapFront merged else merged).map (·.1)
  let wasDue := t.timerFull x && decide (1 < x.paths.length)
  let y := { x with paths := paths, bundle := 0, readyAt := b.issued + 1, timer := if changed || swap then 0 else x.timer }
  let z := if decide (1 < paths.length) && (wasDue || t.timerFull y) then { y.rotate now with readyAt := b.issued + 1 } else y
  let u :=
    if !yielded then z
    else if 1 < z.paths.length then { z with paths := rotatePaths z.paths, timer := 0, readyAt := b.issued + 1 }
    else { z with skip := true }
  u.settleWaits now

/-- Fibres that ended leave their group: their lanes leave the participant sets of parked paths (R124, R159), and in a deterministic grid
stay taken until the next commit (R334). -/
def Group.endFibres (x : Group) (gone : List Nat) (dx : Bool) : Group :=
  let mask := laneSet gone
  { x with
    fibres := (List.range x.fibres.length).map (fun l =>
      let f := x.fibres.getD l Fibre.reset
      if gone.contains l then { Fibre.reset with busy := f.busy, order := f.order, loads := f.loads } else f),
    paths := x.paths.map (fun p => match p.kind with
      | .parked ps w c => { p with kind := .parked (ps &&& ~~~mask) w c }
      | _ => p),
    dxgone := if dx then x.dxgone ||| mask else x.dxgone }

/-- A bundle may end its clause: it was fetched and its last instruction has issued, or none of its fibres is left in it. -/
def State.atBoundary (s : State) (b : Bundle) : Bool :=
  b.fetched && ((s.activeOf b).isEmpty || decide (b.words.length ≤ b.idx))

/-- A group leaves a bundle at the boundary. -/
def State.groupBoundary (s : State) (t : Team) (b : Bundle) (g : Nat) (lanes : Lanes) : State :=
  match s.group b.team g with
  | none => s
  | some x =>
    let placed := (lanesOf lanes).map (fun l =>
      let r := (x.fibres.getD l Fibre.reset).stand t.tbase b
      let at_ := if x.asleep then r.2 else r.2.awake
      (l, r.1, match t.kern.dx with | some q => if r.1.spent q then at_.stop else at_ | none => at_))
    let ls := placed.map (fun e => (e.1, e.2.1.depth, e.2.2))
    let gone := (placed.filter (fun e => decide (e.2.2 = .gone))).map (·.1)
    let fibres := placed.foldl (fun (fs : List Fibre) e => fs.set e.1 { e.2.1 with leave := .run }) x.fibres
    let spawned := (b.spawns.filter (fun e => decide (e.1 = g))).map (fun e => (⟨e.2.2, 0, 0, e.2.1, .ready⟩ : Path))
    let join (pc : VAddr) : Bool := ((s.peekHeader t g pc).map hdrJoin).getD false
    let y := ({ x with fibres := fibres }).endFibres gone t.dx
    let z := y.boundary t b (s.coreNow b.team) join ls spawned (b.yields.contains g)
    s.modGroup b.team g (fun _ => if t.dx then z.stopFull else z)

/-- A bundle ends its clause: each of its groups updates its path list, and barriers count the live fibres afresh; those of a deterministic grid
do so at its commit (R334). -/
def execClauseBoundary (bundle : Nat) (s : State) : Host.Outcome State Fault Refusal :=
  event s (fun s =>
    match fget s.bundles bundle with
    | none => s
    | some b =>
      match s.team b.team with
      | none => s
      | some t =>
        if !s.atBoundary b || s.lockPending b then s
        else
          let s1 := b.members.foldl (fun (a : State) m => a.groupBoundary t b m.1 m.2) s
          let s2 := { s1 with bundles := fdel s1.bundles bundle, focus := if s1.focus = some bundle then none else s1.focus }
          if t.dx then s2 else s2.barSettleAll b.team)

/-! ### Fairness (R106, R107) -/

/-- The team is resident: its save may be deferred or under way (R300, R363). -/
def Team.standing (t : Team) : Bool := match t.status with | .resident => true | .saving .. => true | _ => false

/-- The fairness timer stands at FAIRQ, the group has several paths and its front path is in no running bundle: it rotates. -/
def execFairnessTimerExpiry (team grp : Nat) (s : State) : Host.Outcome State Fault Refusal :=
  event s (fun s =>
    match s.team team, s.group team grp with
    | some t, some x =>
      if t.timerFull x && decide (1 < x.paths.length) && decide (x.bundle = 0) && t.standing then
        s.modGroup team grp (fun y => y.rotate (s.coreNow team))
      else s
    | _, _ => s)

/-- A front path has been ready for FAIRQ clocks without being chosen: its group is marked due. -/
def execReadyButWaiting (team grp : Nat) (s : State) : Host.Outcome State Fault Refusal :=
  event s (fun s =>
    match s.team team, s.group team grp with
    | some t, some x =>
      if s.ready t grp && decide (x.readyAt + t.kern.fairq ≤ s.coreNow team) && x.due.isNone then
        s.modGroup team grp (fun y => { y with due := some (s.coreNow team) })
      else s
    | _, _ => s)

/-! ### Records and results (R87, R359) -/

/-- An open event record is written 1,024 core clocks after it was opened (R5); in a deterministic grid it is not (R332, R359). -/
def execEventRecordExpiry (team grp : Nat) (s : State) : Host.Outcome State Fault Refusal :=
  event s (fun s =>
    match s.team team, (s.group team grp).bind (·.event) with
    | some t, some e => if !t.dx && decide (e.opened + 1024 ≤ s.coreNow team) then s.flushEvent team grp else s
    | _, _ => s)

/-- The load requests of an operation that their slices begin are performed (R369, R370); an operation whose lanes have all been answered, and that waits
for no other, completes: results are written and its counter goes down; a front path that waited for the counter counts as ready from now (R87, R102). -/
def execOperationComplete (op : Nat) (s : State) : Host.Outcome State Fault Refusal :=
  event s (fun s =>
    let s := s.serveLoads op
    match fget s.ops op with
    | some o =>
      if !o.left.isEmpty || o.after.any s.inFlight then s
      else
        let s1 := s.completeOp op
        (match s1.team o.team, s1.group o.team o.grp with
        | some t, some x =>
          (match x.paths.head? with
          | some p =>
            if ((s1.peekHeader t o.grp p.pc).map hdrWaits).getD [] |>.contains o.sb then
              s1.modGroup o.team o.grp (fun y => { y with readyAt := max y.readyAt (s1.coreNow o.team) })
            else s1
          | none => s1)
        | _, _ => s1)
    | none => s)

end Sys2Proof.Machine
end

