-- ==== Sys2Proof/Machine/Contract.lean ====
section
/-!
DEFINITION. The summation contract of the matrix engine: shapes, levels, the accumulator update, and the counts of lost bits (R200, R207 to
R213).
-/

namespace Sys2Proof.Machine

/-! ### Operand formats (R28, R200) -/

/-- A format code of the float class, by its element format. -/
def matFF (fmt : Nat) : Option FF :=
  match fmt with
  | 0x11 => some .f16 | 0x12 => some .bf16
  | 0x13 | 0x18 => some .e4m3 | 0x14 | 0x19 => some .e5m2 | 0x15 | 0x1A => some .e2m1
  | _ => none

/-- A format code of the integer class; true for the signed one. -/
def matInt (fmt : Nat) : Option Bool :=
  match fmt with
  | 1 => some true | 2 => some false
  | _ => none

def matMx (fmt : Nat) : Bool := decide (0x18 ≤ fmt) && decide (fmt ≤ 0x1A)
def matHalf (fmt : Nat) : Bool := decide (fmt = 0x15) || decide (fmt = 0x1A)

/-- Element bytes; 1 for the half-byte formats. -/
def matBytes (fmt : Nat) : Nat := if fmt = 0x11 || decide (fmt = 0x12) then 2 else 1

/-- Bytes that n elements from a byte boundary take. -/
def matSpan (fmt n : Nat) : Nat := if matHalf fmt then (n + 1) / 2 else n * matBytes fmt

/-- The code of element n of a row of bytes. -/
def matElem (fmt : Nat) (row : List Byte) (n : Nat) : Nat :=
  if matHalf fmt then (row.getD (n / 2) 0).toNat / 16 ^ (n % 2) % 16
  else leNat ((row.drop (n * matBytes fmt)).take (matBytes fmt))

/-! ### Summation shapes (R207) -/

structure SumShape where
  c0 : Nat
  w0 : Nat
  t0 : Rnd
  c1 : Nat
  w1 : Nat
  t1 : Rnd
  /-- 0 is ALL -/
  c2 : Nat
  w2 : Nat
  t2 : Rnd
  w3 : Nat
  m3 : Rnd
deriving DecidableEq, Repr

/-- Alignment modes: FLOOR, RNE, CHOP. -/
def alignMode (n : Nat) : Rnd := match n with | 0 => .rdn | 1 => .rne | _ => .rz

/-- The fields of a summation-shape register. -/
def sumShape (x : Nat) : SumShape :=
  { c0 := 2 ^ (field x 2 0 + 1), w0 := 14 + 2 * field x 6 4, t0 := alignMode (field x 9 8),
    c1 := 2 ^ field x 14 12, w1 := 24 + 2 * field x 18 16, t1 := alignMode (field x 21 20),
    c2 := if field x 26 24 = 7 then 0 else 2 ^ field x 26 24, w2 := 32 + 2 * field x 30 28, t2 := alignMode (field x 33 32),
    w3 := match field x 37 36 with | 0 => 24 | 1 => 32 | _ => 39,
    m3 := if flag x 38 then .rz else .rne }

/-- An invalid value of a summation-shape register. -/
def sumShapeBad (x : Nat) : Bool :=
  decide (field x 63 39 ≠ 0) || decide (field x 35 34 ≠ 0) || flag x 31 || flag x 27 || decide (field x 23 22 ≠ 0) || flag x 19 || flag x 15 ||
  decide (field x 11 10 ≠ 0) || flag x 7 || flag x 3 || decide (4 < field x 2 0) || decide (field x 9 8 = 3) || decide (4 < field x 14 12) ||
  decide (field x 21 20 = 3) || decide (field x 33 32 = 3) || decide (field x 37 36 = 3)

/-! ### Levels 0 to 2 (R208, R209) -/

/-- A value inside the contract: special, or exact. -/
inductive SV | nan | inf (neg : Bool) | num (x : Dy)
deriving DecidableEq, Repr

def SV.special : SV → Bool | .num _ => false | _ => true

/-- The value of a set that holds a special. -/
def specialOf (xs : List SV) : SV :=
  let pos := xs.any (· == .inf false)
  let neg := xs.any (· == .inf true)
  if xs.any (· == .nan) || (pos && neg) then .nan else .inf neg

/-- align(x, W, T, u) with u a power of two: the integer. -/
def alignTo (x : Dy) (w : Nat) (t : Rnd) (u : Int) : Int :=
  min ((x.scale (-u)).toInt t) (2 ^ (w - 1) - 1)

/-- The sum of a group of finite values, some nonzero, and how many nonzero ones lose bits. -/
def groupSum (xs : List Dy) (w : Nat) (t : Rnd) : Dy × Nat :=
  let nz := xs.filter (fun x => decide (x.m ≠ 0))
  match nz.map Dy.log2 with
  | [] => (⟨0, 0⟩, 0)
  | l :: ls =>
    let u := ls.foldl max l - (w : Int) + 2
    let al := nz.map (fun x => alignTo x w t u)
    let lost := (List.zipWith (fun x (n : Int) => decide (Dy.cmp x ⟨n, u⟩ ≠ .eq)) nz al).filter id
    (⟨al.foldl (· + ·) 0, u⟩, lost.length)

/-- The value of a group, and its lost count. -/
def groupVal (xs : List SV) (w : Nat) (t : Rnd) : SV × Nat :=
  let fin := xs.filterMap (fun x => match x with | .num d => some d | _ => none)
  let r := groupSum fin w t
  (if xs.any SV.special then specialOf xs else .num r.1, if xs.any SV.special then 0 else r.2)

/-- Cut a list into runs of n; 0 makes one run. -/
def runsOf {β : Type} (n : Nat) (xs : List β) : List (List β) :=
  if xs.isEmpty then []
  else if n = 0 then [xs]
  else (List.range ((xs.length + n - 1) / n)).map (fun i => (xs.drop (n * i)).take n)

/-- A level of promotion: the values, and how many lose bits. -/
def promote (xs : List SV) (c w : Nat) (t : Rnd) : List SV × Nat :=
  let r := (runsOf c xs).map (fun g => groupVal g w t)
  (r.map (·.1), (r.map (·.2)).foldl (· + ·) 0)

/-- An exact product (R209); `bad` marks a block scale of 0xFF. -/
def matProduct (a b : FVal) (bad : Bool) : SV :=
  if bad || a.isNan || b.isNan then .nan
  else if a.isInf || b.isInf then
    if a.isZero || b.isZero then .nan else .inf (a.sign != b.sign)
  else .num (a.dy.mul b.dy)

/-- A chunk: its products with the block exponents of the chunk. -/
def chunkVal (h : SumShape) (ps : List SV) (scale : Int) : SV × Nat :=
  let r := groupVal ps h.w0 h.t0
  (match r.1 with | .num d => .num (d.scale scale) | v => v, r.2)

/-! ### Level 3 (R210) -/

/-- Update an ACC48 element: the element, and whether the update is inexact. -/
def level3 (h : SumShape) (a : BitVec 48) (v : SV) : BitVec 48 × Bool :=
  let av := FF.acc48.value a.toNat
  let nan : BitVec 48 := BitVec.ofNat 48 FF.acc48.nanCode
  let inf (neg : Bool) : BitVec 48 := BitVec.ofNat 48 (FF.acc48.infinite false neg)
  match v with
  | .nan => (nan, false)
  | .inf n =>
    match av with
    | .nan _ => (nan, false)
    | .inf m => (if m = n then inf n else nan, false)
    | .fin .. => (inf n, false)
  | .num d =>
    match av with
    | .nan _ => (nan, false)
    | .inf m => (inf m, false)
    | .fin .. =>
      if d.m = 0 then (a, false)
      else
        let sum := av.dy.add d
        if sum.m = 0 then (0, false)
        else
          let neg := decide (sum.m < 0)
          let u := max (sum.log2 - (h.w3 : Int) + 1) (-292)
          let q := roundUnit h.m3 neg sum.m.natAbs sum.e u
          let top : Dy := ⟨(2 : Int) ^ h.w3 - 1, 256 - (h.w3 : Int)⟩
          if top.lt ⟨q, u⟩ then
            (if h.m3 = .rz then BitVec.ofNat 48 (FF.acc48.roundFin .rz false neg top.m.natAbs top.e).1 else inf neg, true)
          else
            (BitVec.ofNat 48 (FF.acc48.roundFin .rz false neg q u).1, decide (Dy.cmp sum.abs ⟨q, u⟩ ≠ .eq))

/-- One element of a float-class operation (R208): the new element and the counts L0LOST, L1LOST, L2LOST, L3INEXACT. -/
def floatElem (h : SumShape) (acc : BitVec 48) (ps : List SV) (scaleOf : Nat → Int) : BitVec 48 × List Nat :=
  let chunks := runsOf h.c0 ps
  let r0 := (List.range chunks.length).map (fun c => chunkVal h (chunks.getD c []) (scaleOf (c * h.c0)))
  let r1 := promote (r0.map (·.1)) h.c1 h.w1 h.t1
  let r2 := promote r1.1 h.c2 h.w2 h.t2
  let r3 := r2.1.foldl (fun (x : BitVec 48 × Nat) v => let y := level3 h x.1 v; (y.1, if y.2 then x.2 + 1 else x.2)) (acc, 0)
  (r3.1, [(r0.map (·.2)).foldl (· + ·) 0, r1.2, r2.2, r3.2])

/-- One element of an integer-class operation (R211). -/
def intElem (sat : Bool) (acc : BitVec 48) (sum : Int) : BitVec 48 :=
  let s := (acc.setWidth 32).toInt + sum
  (BitVec.ofInt 32 (if sat then clampInt true 32 s else s)).signExtend 48

end Sys2Proof.Machine
end

