-- ==== Sys2Proof/Machine/Matrix.lean ====
section
/-!
DEFINITION. The matrix engine of a core, its queue, the Causeway and the streams of a die's Staithe (R200 to R206, R211 to R229).
-/

namespace Sys2Proof.Machine

/-! ### Descriptors (R205, R222) -/

/-- The fields of an MXM descriptor. -/
def mxmDesc (x : Nat) : MxmDesc :=
  { sshi := field x 266 264, bank := flag x 262, sat := flag x 261, bsrc := flag x 260, cw := flag x 259, role := field x 258 257,
    zero := flag x 256, bsc := field x 255 224, asc := field x 223 192, ldb := field x 191 160, bloc := field x 159 128,
    lda := field x 127 96, aloc := field x 95 64, bfmt := field x 63 56, afmt := field x 55 48, k := field x 45 32, n := field x 31 16,
    m := field x 15 0 }

def mxmReserved (x : Nat) : Bool := decide (field x 511 267 ≠ 0) || flag x 263 || decide (field x 47 46 ≠ 0)

/-- The formats are listed and of one class; the class: true for integer. -/
def MxmDesc.cls (d : MxmDesc) : Option Bool :=
  if (matInt d.afmt).isSome && (matInt d.bfmt).isSome then some true
  else if (matFF d.afmt).isSome && (matFF d.bfmt).isSome then some false
  else none

/-- A core's share of an operation: its Causeway role and its rows and columns (R214, R215). -/
structure Share where
  role : Nat
  rows : Nat
  row0 : Nat
  cols : Nat
  col0 : Nat
deriving DecidableEq, Repr

/-- The share of a member at (x, y) of a cluster of width clw. -/
def MxmDesc.share (d : MxmDesc) (clw x y : Nat) : Share :=
  if d.cw then
    ⟨if clw = 1 then 0 else if x = 0 then 1 else if x + 1 = clw then 3 else 2,
     min 128 (d.m - 128 * y), 128 * y, min 160 (d.n - 160 * x), 160 * x⟩
  else ⟨d.role, d.m, 0, d.n, 0⟩

/-- The share of a team. -/
def Team.share (t : Team) (d : MxmDesc) : Share := d.share t.kern.clw (t.teamid % t.kern.clw) (t.teamid / t.kern.clw)

/-- The core reads A from its own vault. -/
def Share.readsA (h : Share) : Bool := decide (h.role ≤ 1) && decide (h.rows ≠ 0)
/-- The core reads B. -/
def Share.readsB (h : Share) : Bool := decide (h.rows ≠ 0) && decide (h.cols ≠ 0)
/-- The core takes A from the west. -/
def Share.fromWest (h : Share) : Bool := decide (h.role = 2) || decide (h.role = 3)
/-- The core sends A east. -/
def Share.toEast (h : Share) : Bool := decide (h.role = 1) || decide (h.role = 2)

/-- The spans of a region that an operation reads: first byte and one past the last. -/
def MxmDesc.spans (d : MxmDesc) (h : Share) : List (Nat × Nat) :=
  let nb := d.k / 32
  (if h.readsA then [(d.aloc + h.row0 * d.lda, d.aloc + (h.row0 + h.rows - 1) * d.lda + matSpan d.afmt d.k)] else []) ++
  (if h.readsA && matMx d.afmt then [(d.asc + h.row0 * nb, d.asc + (h.row0 + h.rows) * nb)] else []) ++
  (if h.readsB && !d.bsrc then
    [(d.bloc + matSpan d.bfmt h.col0, d.bloc + (d.k - 1) * d.ldb + matSpan d.bfmt (h.col0 + h.cols))] else []) ++
  (if h.readsB && matMx d.bfmt then [(d.bsc + h.col0 * nb, d.bsc + (h.col0 + h.cols) * nb)] else [])

/-- The checks of a descriptor but those of streams, modes and spans (R206). -/
def MxmDesc.bad (d : MxmDesc) (x clw clh col : Nat) : Bool :=
  mxmReserved x || d.cls.isNone ||
  decide (d.k = 0) || decide (8192 < d.k) || decide (d.m = 0) || decide (d.n = 0) ||
  decide ((if d.cw then 128 * clh else 128) < d.m) || decide ((if d.cw then 160 * clw else 160) < d.n) ||
  ((matHalf d.afmt || matHalf d.bfmt) && decide (d.k % 2 = 1)) || ((matMx d.afmt || matMx d.bfmt) && decide (d.k % 32 ≠ 0)) ||
  (d.sat && decide (d.cls = some false)) ||
  (d.cw && (decide (d.role ≠ 0) || decide (3 < clh))) ||
  (!d.cw && (((decide (d.role = 1) || decide (d.role = 2)) && decide (col + 1 = clw)) ||
             ((decide (d.role = 2) || decide (d.role = 3)) && decide (col = 0))))

/-- Locations and strides that an operation uses are multiples of their element sizes. -/
def MxmDesc.misplaced (d : MxmDesc) (h : Share) : Bool :=
  (decide (h.role ≤ 1) && (decide (d.aloc % matBytes d.afmt ≠ 0) || decide (d.lda % matBytes d.afmt ≠ 0))) ||
  (!d.bsrc && (decide (d.bloc % matBytes d.bfmt ≠ 0) || decide (d.ldb % matBytes d.bfmt ≠ 0)))

/-- The spans of an operation fail the test of a region of a size. -/
def MxmDesc.outside (d : MxmDesc) (h : Share) (size : Nat) : Bool := (d.spans h).any (fun r => decide (size < r.2))

/-- The fields of an MXST descriptor. -/
def mxstDesc (x : Nat) : MxstDesc :=
  { col0 := field x 191 184, row0 := field x 183 176, cols := field x 175 168, rows := field x 167 160, alpha := BitVec.ofNat 32 (field x 159 128),
    brec := field x 107 96, glb := flag x 76,
    rnd := match field x 75 74 with | 0 => .rne | 1 => .rz | 2 => .rdn | _ => .rup,
    sat := flag x 73, fmt := field x 71 64, ldd := field x 63 32, dst := field x 31 0 }

/-- Element bytes of a store format; 0 for a format not listed. -/
def storeBytes (fmt : Nat) : Nat :=
  match fmt with
  | 0x10 => 4 | 0x05 => 4 | 0x11 => 2 | 0x12 => 2 | 0x13 => 1 | 0x14 => 1 | 0x20 => 6
  | _ => 0

/-- One past the last byte of a store's destination, from the offset 0. -/
def MxstDesc.stop (d : MxstDesc) : Nat := d.dst + (d.rows - 1) * d.ldd + d.cols * storeBytes d.fmt

/-- The checks of a store descriptor against a bank's mode (R223). -/
def MxstDesc.bad (d : MxstDesc) (x : Nat) (int : Bool) : Bool :=
  decide (field x 255 192 ≠ 0) || decide (field x 127 108 ≠ 0) || decide (field x 95 77 ≠ 0) || flag x 72 ||
  decide (storeBytes d.fmt = 0) || decide (d.cols = 0) || decide (160 < d.col0 + d.cols) || decide (d.rows = 0) || decide (128 < d.row0 + d.rows) ||
  decide (d.ldd % storeBytes d.fmt ≠ 0) || decide (d.dst % storeBytes d.fmt ≠ 0) ||
  (decide (d.fmt = 0x05) && !int) || (decide (d.fmt = 0x20) && int)

/-! ### Banks (R211) -/

def Bank.get (b : Bank) (i j : Nat) : BitVec 48 := (fget b.elems (160 * i + j)).getD b.base
def Bank.put (b : Bank) (i j : Nat) (v : BitVec 48) : Bank := { b with elems := fset b.elems (160 * i + j) v }

def Engine.bank (e : Engine) (n : Bool) : Bank := if n then e.ab1 else e.ab0
def Engine.setBank (e : Engine) (n : Bool) (b : Bank) : Engine := if n then { e with ab1 := b } else { e with ab0 := b }
def Engine.mode (e : Engine) (n : Bool) : Bool := if n then e.mode1 else e.mode0
def Engine.setMode (e : Engine) (n m : Bool) : Engine := if n then { e with mode1 := m } else { e with mode0 := m }

def State.modEng (s : State) (k : Nat) (h : Engine → Engine) : State := s.modCore k (fun c => { c with eng := h c.eng })

/-! ### Issuing to the engine (R202, R203, R219) -/

/-- The engine cannot take an instruction of the team: another holds it, or it is reserved. -/
def Engine.closedTo (e : Engine) (tid : Nat) : Bool :=
  match e.holder with
  | some h => decide (h ≠ .team tid)
  | none => e.reserved.isSome

/-- The performing fibres are blocked before the instruction until the engine is free. -/
def State.blockAll (s : State) (w : Who) : State :=
  w.perf.foldl (fun (a : State) x => a.modFibre w.team x.1 x.2 (fun f =>
    if f.wait.isSome then f else { f with wait := some .engine, leave := .block w.idx })) s

/-- An engine instruction of a bundle: its leader's fibre, once the engine can take it. -/
def engineBody (go : Team → Nat × Nat → Fibre → Who → State → State) (w : Who) (s : State) : State :=
  match s.team w.team, w.leader with
  | some t, some l =>
    if (s.core t.key).eng.closedTo w.team then s.blockAll w else go t l (s.fibre w.team l.1 l.2) w s
  | _, _ => s

/-- Every performing fibre gets the same results. -/
def State.giveAll (s : State) (i : Instr) (w : Who) (ws : List (RName × Word)) : State :=
  let q := s.openFor i w w.perf
  w.perf.foldl (fun (a : State) x => a.doneLane w x.1 x.2 (opOf q.1 x.1) ws) q.2

/-- Queue an operation for the team: it becomes the holder, and its fibres get the ticket (R203). -/
def State.queueMat (s : State) (i : Instr) (w : Who) (t : Team) (d : Reg) (kind : MatKind) (bank mode : Bool) : State :=
  let ticket := t.issued + 1
  let s1 := (s.modEng t.key (fun e =>
    Engine.setMode { e with holder := some (.team w.team), queue := e.queue ++ [⟨ticket, kind, none⟩] } bank mode)).modTeam
    w.team (fun x => { x with issued := ticket })
  s1.giveAll i w (wr64 d ticket)

/-- The queue of the team's core is full. -/
def State.queueFull (s : State) (t : Team) : Bool := decide (16 ≤ (s.core t.key).eng.queue.length)

/-- Read a descriptor of n bytes at n-byte alignment in a team's vault (R206). -/
def State.readDesc (s : State) (t : Team) (off n : Nat) : Res Nat :=
  (Res.check (decide (off % n ≠ 0)) (.misaligned (dw off))).andThen (fun _ =>
    (Res.check (!t.vaultOk off n) (.access 1 (dw off))).andThen (fun _ =>
      .ok (leNat (s.vaultRead t.key (t.dataBase + off) n))))

/-! ### MXM (R206, R220) -/

/-- The checks of an MXM: its descriptor. -/
def State.mxmOf (s : State) (t : Team) (off : Nat) : Res MxmDesc :=
  (s.readDesc t off 64).andThen (fun x =>
    let d := mxmDesc x
    let h := t.share d
    let e := (s.core t.key).eng
    (Res.check (d.bad x t.kern.clw t.kern.clh (t.teamid % t.kern.clw) ||
        (d.bsrc && !e.subs.any (fun u => decide (u.stream = d.bloc % 64))) ||
        (!d.zero && decide (some (e.mode d.bank) ≠ d.cls)) || d.misplaced h || d.outside h t.dataBytes)
      (.access 4 (dw off))).andThen (fun _ => .ok d))

def doMxm (c : Ctl) (d a : Reg) (imm : BitVec 16) : Who → State → State :=
  engineBody (fun t _ f w s =>
    if s.queueFull t then s.hold w
    else
      let r := s.leaderGate w (s.mxmOf t ((f.get w.pos a).toNat + 64 * imm.toNat))
      match r.1 with
      | none => r.2
      | some x => r.2.queueMat (.mxm c d a imm) w t d (.mxm x (t.ssh.getD x.sshi 0)) x.bank ((x.cls).getD false))

def execMxm (c : Ctl) (d a : Reg) (imm : BitVec 16) (s : State) : Host.Outcome State Fault Refusal :=
  native (.mxm c d a imm) s (syncBody (.mxm c d a imm) .bundle (doMxm c d a imm))

/-! ### MXLD (R221) -/

def doMxldZero (c : Ctl) (int bank : Bool) (d : Reg) : Who → State → State :=
  engineBody (fun t _ _ w s =>
    if s.queueFull t then s.hold w else s.queueMat (.mxldZero c int bank d) w t d (.zero int bank) bank int)

def execMxldZero (c : Ctl) (int bank : Bool) (d : Reg) (s : State) : Host.Outcome State Fault Refusal :=
  native (.mxldZero c int bank d) s (syncBody (.mxldZero c int bank d) .bundle (doMxldZero c int bank d))

def doMxldFill (c : Ctl) (int bank : Bool) (d b : Reg) : Who → State → State :=
  engineBody (fun t _ f w s =>
    if s.queueFull t then s.hold w else s.queueMat (.mxldFill c int bank d b) w t d (.fill int bank (f.get w.pos b)) bank int)

def execMxldFill (c : Ctl) (int bank : Bool) (d b : Reg) (s : State) : Host.Outcome State Fault Refusal :=
  native (.mxldFill c int bank d b) s (syncBody (.mxldFill c int bank d b) .bundle (doMxldFill c int bank d b))

def doMxldRestore (c : Ctl) (int bank : Bool) (d a : Reg) (imm : BitVec 16) : Who → State → State :=
  engineBody (fun t _ f w s =>
    if s.queueFull t then s.hold w
    else
      let off := (f.get w.pos a).toNat + 128 * imm.toNat
      let r := s.leaderGate w ((Res.check (decide (off % 128 ≠ 0)) (.misaligned (dw off))).andThen (fun _ =>
        Res.check (!t.vaultOk off 122880) (.access 1 (dw off))))
      match r.1 with
      | none => r.2
      | some _ => r.2.queueMat (.mxldRestore c int bank d a imm) w t d (.restore int bank off) bank int)

def execMxldRestore (c : Ctl) (int bank : Bool) (d a : Reg) (imm : BitVec 16) (s : State) : Host.Outcome State Fault Refusal :=
  native (.mxldRestore c int bank d a imm) s (syncBody (.mxldRestore c int bank d a imm) .bundle (doMxldRestore c int bank d a imm))

/-! ### MXST (R222, R223) -/

/-- The checks of an MXST: its descriptor, with a global destination as a virtual address. -/
def State.mxstOf (s : State) (t : Team) (g : Nat) (bank : Bool) (off : Nat) : Res MxstDesc :=
  (s.readDesc t off 32).andThen (fun x =>
    let d := mxstDesc x
    let no : Trap := .access 4 (dw off)
    (Res.check (d.bad x ((s.core t.key).eng.mode bank)) no).andThen (fun _ =>
      if d.glb then
        (match s.bufRec t d.brec with
          | none => Res.trap no
          | some _ => s.recFor t g d.brec d.dst).andThen (fun b =>
          (Res.check (!(b.passes .wr d.dst 1 && b.passes .wr ((d.stop : Int) - 1) 1)) no).andThen (fun _ =>
            .ok { d with dst := b.base + d.dst }))
      else (Res.check (!t.vaultOk d.dst (d.stop - d.dst)) no).andThen (fun _ => .ok d)))

def doMxst (c : Ctl) (bank : Bool) (d a : Reg) (imm : BitVec 16) : Who → State → State :=
  engineBody (fun t l f w s =>
    if s.queueFull t then s.hold w
    else
      let r := s.leaderGate w (s.mxstOf t l.1 bank ((f.get w.pos a).toNat + 32 * imm.toNat))
      match r.1 with
      | none => r.2
      | some x => (r.2.keepRec t x.brec).queueMat (.mxst c bank d a imm) w t d (.store bank x) bank ((s.core t.key).eng.mode bank))

def execMxst (c : Ctl) (bank : Bool) (d a : Reg) (imm : BitVec 16) (s : State) : Host.Outcome State Fault Refusal :=
  native (.mxst c bank d a imm) s (syncBody (.mxst c bank d a imm) .bundle (doMxst c bank d a imm))

/-! ### MXWAIT, MSTAT, SSHAPE (R224 to R226) -/

def doMxwait (c : Ctl) (a : Reg) (w : Who) (s : State) : State :=
  match s.team w.team with
  | none => s
  | some t =>
    let q := s.openFor (.mxwait c a) w w.perf
    w.perf.foldl (fun (y : State) x =>
      let v := (s.fibre w.team x.1 x.2).get64 w.pos a
      let tk := if t.issued.ult v then t.issued else v
      let op := opOf q.1 x.1
      if t.doneT.ult tk then y.waitOr w x.1 x.2 (.mx tk op) else (y.acquire t.key false).doneLane w x.1 x.2 op []) q.2

def execMxwait (c : Ctl) (a : Reg) (s : State) : Host.Outcome State Fault Refusal :=
  native (.mxwait c a) s (syncBody (.mxwait c a) .fibre (doMxwait c a))

/-- A value that MSTAT names. -/
def Team.mstat (t : Team) (sel : Nat) : Word :=
  match sel with
  | 4 => t.doneT.lo | 5 => t.doneT.hi | 6 => t.issued.lo | 7 => t.issued.hi | 8 => t.mflt
  | n => BitVec.ofNat 32 (t.swamp.getD n 0)

/-- MSTAT.CLR. -/
def Team.mclear (t : Team) (sel : Nat) : Team := if sel = 8 then { t with mflt := 0 } else { t with swamp := t.swamp.set sel 0 }

/-- MSTAT of the performing fibres, in ascending home lane: the leader's CLR comes before the others read. -/
def doMstat (c : Ctl) (clr : Bool) (sel : BitVec 4) (d : Reg) (w : Who) (s : State) : State :=
  match s.team w.team with
  | none => s
  | some t =>
    let q := (if clr then s.modTeam w.team (fun x => x.mclear sel.toNat) else s).openFor (.mstat c clr sel d) w w.perf
    w.perf.foldl (fun (y : State) x => y.doneLane w x.1 x.2 (opOf q.1 x.1)
      [(.v d, if clr && decide (w.leader ≠ some x) then (t.mclear sel.toNat).mstat sel.toNat else t.mstat sel.toNat)]) q.2

def execMstat (c : Ctl) (clr : Bool) (sel : BitVec 4) (d : Reg) (s : State) : Host.Outcome State Fault Refusal :=
  native (.mstat c clr sel d) s (syncBody (.mstat c clr sel d) .fibre (doMstat c clr sel d))

def execSshape (c : Ctl) (n : BitVec 3) (a : Reg) (s : State) : Host.Outcome State Fault Refusal :=
  native (.sshape c n a) s (fun w s =>
    match s.team w.team, w.leader with
    | some t, some l =>
      let v := (s.fibre w.team l.1 l.2).get64 w.pos a
      if sumShapeBad v.toNat then s.trapAll w .illegal w.perf
      else
        let q := (if t.dx then s else s.modTeam w.team (fun x => { x with ssh := x.ssh.set n.toNat v })).openOps (.sshape c n a) w w.perf
        if t.dx then q.2.dxPush w l.1 (.sshape n.toNat v) (q.1.map (·.2))
        else w.perf.foldl (fun (y : State) x => y.doneLane w x.1 x.2 (opOf q.1 x.1) []) q.2
    | _, _ => s)

def execSshapeRd (c : Ctl) (n : BitVec 3) (d : Reg) (s : State) : Host.Outcome State Fault Refusal :=
  native (.sshapeRd c n d) s (fun w s =>
    match s.team w.team with
    | some t => s.giveAll (.sshapeRd c n d) w (wr64 d (t.ssh.getD n.toNat 0))
    | none => s)

/-! ### STRM (R216, R217, R227) -/

/-- The formats a stream's shape may have, with the element size each must carry (R28, R29, R200). -/
def streamFmtBad (h : Shape) : Bool :=
  let es := if h.fmt = 0x11 || decide (h.fmt = 0x12) then 1 else if matHalf h.fmt then 7 else 0
  ((matFF h.fmt).isNone && (matInt h.fmt).isNone) || decide (h.esize ≠ es) || (matMx h.fmt && decide (h.extent 0 % 32 ≠ 0))

/-- The bytes of tile n of a shape lie in the record. -/
def tileOk (h : Shape) (b : BufRec) (d : Int) : Bool := h.empty || (b.passes .rd (h.low + d) 1 && b.passes .rd (h.high + d) 1)

/-- The checks of STRM.OPEN: a stream (R227). -/
def State.strmOf (s : State) (t : Team) (tid g off : Nat) : Res Stream :=
  (s.readDesc t off 32).andThen (fun x =>
    let no : Trap := .access 4 (dw off)
    let replay := field x 214 192
    let tst := sextNat 64 (field x 191 128)
    let tiles := field x 127 96
    let brec := field x 75 64
    let sh := field x 63 0
    (Res.check (decide (field x 255 215 ≠ 0) || decide (field x 95 76 ≠ 0) || decide (4194304 < replay) || decide (tiles = 0) ||
        decide (sh % 64 ≠ 0)) no).andThen (fun _ =>
      (match s.bufRec t brec with
        | none => Res.trap no
        | some _ => s.recFor t g brec sh).andThen (fun b =>
        (Res.check (!b.passes .rd sh 64) no).andThen (fun _ =>
          (s.readShape t g (b.base + sh)).andThen (fun r =>
            let h := shapeOf r.1
            (Res.check (h.fieldsBad || streamFmtBad h || !tileOk h b 0 || !tileOk h b ((tiles - 1 : Nat) * tst)) no).andThen (fun _ =>
              .ok ⟨t.ctx, tid, r.1, b.base, tst, tiles, replay, [], none, false⟩))))))

/-- The lowest free stream ID of a die. -/
def Die.freeStream (d : Die) : Option Nat := (List.range 64).find? (fun i => (fget d.streams i).isNone)

/-- An open stream of a context on a die. -/
def State.streamOf (s : State) (die ctx : Nat) (id : Nat) : Option Stream :=
  (fget (s.die die).streams id).bind (fun (x : Stream) => if id < 64 && decide (x.ctx = ctx) then some x else none)

/-- Some engine of the die subscribes to the stream, or one that a team was saved with (R229). -/
def State.subscribed (s : State) (die id : Nat) : Bool :=
  s.cores.any (fun e => decide (e.1 / 72 = die) && decide (e.1 < 144) && e.2.eng.subs.any (fun u => decide (u.stream = id))) ||
  s.teams.any (fun e => decide (e.2.die = die) && (match e.2.mat with | some x => x.subs.any (fun u => decide (u.stream = id)) | none => false))

def doStrmOpen (c : Ctl) (d a : Reg) (w : Who) (s : State) : State :=
  match s.team w.team, w.leader with
  | some t, some l =>
    let r := s.leaderGate w (s.strmOf t w.team l.1 ((s.fibre w.team l.1 l.2).get w.pos a).toNat)
    (match r.1 with
    | none => r.2
    | some x =>
      match (r.2.die t.die).freeStream with
      | some id =>
        (r.2.modDie t.die (fun y => { y with streams := fset y.streams id x })).giveAll (.strmOpen c d a) w [(.v d, BitVec.ofNat 32 id)]
      | none => r.2.giveAll (.strmOpen c d a) w [(.v d, 0xFFFFFFFF)])
  | _, _ => s

def execStrmOpen (c : Ctl) (d a : Reg) (s : State) : Host.Outcome State Fault Refusal :=
  native (.strmOpen c d a) s (syncBody (.strmOpen c d a) .bundle (doStrmOpen c d a))

def doStrmSub (c : Ctl) (n : BitVec 3) (d a b : Reg) : Who → State → State :=
  engineBody (fun t _ f w s =>
    let id := (f.get w.pos a).toNat
    let s1 := s.modEng t.key (fun e => { e with holder := some (.team w.team) })
    let subs := (s.core t.key).eng.subs
    let give (y : State) (v : Word) : State := y.giveAll (.strmSub c n d a b) w [(.v d, v)]
    if (s.streamOf t.die t.ctx id).isNone then give s1 1
    else if 4 ≤ subs.length then give s1 2
    else if subs.any (fun u => decide (u.stream = id)) then give s1 3
    else give (s1.modEng t.key (fun e => { e with subs := e.subs ++ [⟨id, (f.get w.pos b).toNat, n.toNat, []⟩] })) 0)

def execStrmSub (c : Ctl) (n : BitVec 3) (d a b : Reg) (s : State) : Host.Outcome State Fault Refusal :=
  native (.strmSub c n d a b) s (syncBody (.strmSub c n d a b) .bundle (doStrmSub c n d a b))

/-- Free a stream that CLOSE has named once it has no subscribers. -/
def State.tidyStream (s : State) (die id : Nat) : State :=
  match fget (s.die die).streams id with
  | some x => if x.closing && !s.subscribed die id then s.modDie die (fun y => { y with streams := fdel y.streams id }) else s
  | none => s

def doStrmUnsub (c : Ctl) (a : Reg) : Who → State → State :=
  engineBody (fun t _ f w s =>
    let id := (f.get w.pos a).toNat
    let s1 := if (s.core t.key).eng.holder = some (.team w.team) then
        (s.modEng t.key (fun e => { e with subs := e.subs.filter (fun u => decide (u.stream ≠ id)) })).tidyStream t.die id
      else s
    s1.giveAll (.strmUnsub c a) w [])

def execStrmUnsub (c : Ctl) (a : Reg) (s : State) : Host.Outcome State Fault Refusal :=
  native (.strmUnsub c a) s (syncBody (.strmUnsub c a) .bundle (doStrmUnsub c a))

def doStrmClose (c : Ctl) (a : Reg) (w : Who) (s : State) : State :=
  match s.team w.team, w.leader with
  | some t, some l =>
    let id := ((s.fibre w.team l.1 l.2).get w.pos a).toNat
    let s1 := match s.streamOf t.die t.ctx id with
      | some x => (s.modDie t.die (fun y => { y with streams := fset y.streams id { x with closing := true } })).tidyStream t.die id
      | none => s
    s1.giveAll (.strmClose c a) w []
  | _, _ => s

def execStrmClose (c : Ctl) (a : Reg) (s : State) : Host.Outcome State Fault Refusal :=
  native (.strmClose c a) s (syncBody (.strmClose c a) .bundle (doStrmClose c a))

/-! ### Running an operation (R208 to R211, R214, R215) -/

/-- Where an engine's holder keeps its operands: the vault address of offset 0 and the cluster place. -/
structure Region where
  base : Nat
  size : Nat
  clw  : Nat
  col  : Nat
  row  : Nat
deriving DecidableEq, Repr

/-- The region of an engine's holder. -/
def State.region (s : State) (h : Holder) : Option Region :=
  match h with
  | .team tid => (s.team tid).map (fun t => ⟨t.dataBase, t.dataBytes, t.kern.clw, t.teamid % t.kern.clw, t.teamid / t.kern.clw⟩)
  | .task id => (fget s.tasks id).bind (fun x => x.run.map (fun r => ⟨r.1 * 32768, r.2 * 32768, 1, 0, 0⟩))

/-- The A rows and scales of an operation from its own vault. -/
def State.ownA (s : State) (k : Nat) (r : Region) (d : MxmDesc) (h : Share) : List (List Byte) × List (List Byte) :=
  let rows := List.range h.rows
  (rows.map (fun i => s.vaultRead k (r.base + d.aloc + (h.row0 + i) * d.lda) (matSpan d.afmt d.k)),
   rows.map (fun i => if matMx d.afmt then s.vaultRead k (r.base + d.asc + (h.row0 + i) * (d.k / 32)) (d.k / 32) else []))

/-- The B rows of an operation: for each k, the codes of its columns. -/
def State.ownB (s : State) (k : Nat) (r : Region) (d : MxmDesc) (h : Share) (tile : Option Tile) : List (List Nat) :=
  (List.range d.k).map (fun kk =>
    match tile with
    | some tl =>
      let row := (tl.data.drop (kk * matSpan d.bfmt tl.ext0)).take (matSpan d.bfmt tl.ext0)
      (List.range h.cols).map (matElem d.bfmt row)
    | none =>
      let row := s.vaultRead k (r.base + d.bloc + kk * d.ldb + matSpan d.bfmt h.col0) (matSpan d.bfmt h.cols)
      (List.range h.cols).map (matElem d.bfmt row))

/-- A scale's E8M0 code of block b; 127, which is 2^0, for a format without scales. -/
def scaleCode (fmt : Nat) (row : List Byte) (b : Nat) : Nat := if matMx fmt then (row.getD b 127).toNat else 127

/-- Update one element of a bank: the bank and the counts. -/
def matUpdate (d : MxmDesc) (ssh : DWord) (a asc : List Byte) (bcol : List Nat) (bsc : List Byte) (acc : BitVec 48) : BitVec 48 × List Nat :=
  match matInt d.afmt, matInt d.bfmt with
  | some sa, some sb =>
    let iv (sg : Bool) (x : Nat) : Int := if sg then sextNat 8 x else x
    (intElem d.sat acc ((List.range d.k).foldl (fun (t : Int) i => t + iv sa (matElem d.afmt a i) * iv sb (bcol.getD i 0)) 0), [0, 0, 0, 0])
  | _, _ =>
    let fa := (matFF d.afmt).getD .f32
    let fb := (matFF d.bfmt).getD .f32
    let ps := (List.range d.k).map (fun i =>
      matProduct (fa.value (matElem d.afmt a i)) (fb.value (bcol.getD i 0))
        (decide (scaleCode d.afmt asc (i / 32) = 255) || decide (scaleCode d.bfmt bsc (i / 32) = 255)))
    floatElem (sumShape ssh.toNat) acc ps (fun i => (scaleCode d.afmt asc (i / 32) : Int) + scaleCode d.bfmt bsc (i / 32) - 254)

/-- Run an MXM on a bank: the bank and the counts it adds. -/
def matRun (d : MxmDesc) (ssh : DWord) (h : Share) (as_ ascs : List (List Byte)) (bs : List (List Nat)) (bscs : List (List Byte)) (b0 : Bank) :
    Bank × List Nat :=
  let b := if d.zero then ⟨(d.cls).getD false, 0, []⟩ else b0
  let cols := (List.range h.cols).map (fun j => bs.map (fun r => r.getD j 0))
  (List.range h.rows).foldl (fun (r : Bank × List Nat) i =>
    (List.range h.cols).foldl (fun (q : Bank × List Nat) j =>
      let u := matUpdate d ssh (as_.getD i []) (ascs.getD i []) (cols.getD j []) (bscs.getD j []) (q.1.get i j)
      (q.1.put i j u.1, List.zipWith (· + ·) q.2 u.2)) r) (b, [0, 0, 0, 0])

/-- A saturating 32-bit sum. -/
def sat32 (n m : Nat) : Nat := min (n + m) 0xFFFFFFFF

/-- Release the fibres of a team that wait for tickets up to the last completed one: each release is an acquire (R224). -/
def State.wakeMx (s : State) (tid : Nat) : State :=
  match s.team tid with
  | none => s
  | some t =>
    (List.range t.groups.length).foldl (fun (a : State) g =>
      (List.range 32).foldl (fun (b : State) l =>
        match (b.fibre tid g l).wait with
        | some (.mx tk op) => if t.doneT.ult tk then b else (b.release tid g l op []).acquire t.key false
        | _ => b) a) s

/-- The head of an engine's queue completes: DONE is its ticket, and its counts are added (R203). -/
def State.finishMat (s : State) (k : Nat) (ticket : DWord) (counts : List Nat) : State :=
  let h := (s.core k).eng.holder
  let s1 := s.modEng k (fun e => { e with queue := e.queue.drop 1 })
  match h with
  | some (.team tid) =>
    (s1.modTeam tid (fun t => { t with doneT := ticket, swamp := List.zipWith sat32 t.swamp counts })).wakeMx tid
  | _ => s1

/-- The head of an engine's queue is abandoned (R218). -/
def State.abandonMat (s : State) (k : Nat) (ticket : DWord) (code : Nat) : State :=
  let s1 := match (s.core k).eng.holder with
    | some (.team tid) => s.modTeam tid (fun t => { t with mflt := BitVec.ofNat 32 ((min (field t.mflt.toNat 31 16 + 1) 65535) * 65536 + code) })
    | _ => s
  s1.finishMat k ticket [0, 0, 0, 0]

/-- What stands in the way of an MXM, or the stream tile it consumes. -/
inductive TileWait | ready (t : Option Tile) | wait | bad (code : Nat)
deriving DecidableEq, Repr

/-- The tile of an MXM at the head of the queue (R217, R218). -/
def State.tileFor (s : State) (k : Nat) (d : MxmDesc) : TileWait :=
  if !d.bsrc then .ready none
  else
    match (s.core k).eng.subs.find? (fun u => decide (u.stream = d.bloc % 64)) with
    | none => .wait
    | some u =>
      match u.tiles with
      | tl :: _ => if tl.ok && decide (tl.fmt = d.bfmt) && decide (tl.ext0 = d.n) && decide (tl.ext1 = d.k) then .ready (some tl) else .bad 2
      | [] =>
        match fget (s.die (k / 72)).streams u.stream with
        | some st => if st.tiles ≤ u.next then .bad 3 else .wait
        | none => .wait

/-- Consume the oldest delivered tile of a stream. -/
def Engine.eatTile (e : Engine) (id : Nat) : Engine :=
  { e with subs := e.subs.map (fun u => if u.stream = id then { u with tiles := u.tiles.drop 1 } else u) }

/-- Run an MXM at the head of a queue, once its data has arrived. -/
def State.stepMxm (s : State) (k : Nat) (r : Region) (ticket : DWord) (d : MxmDesc) (ssh : DWord) : State :=
  let h := d.share r.clw r.col r.row
  let e := (s.core k).eng
  match s.tileFor k d with
  | .wait => s
  | tw =>
    if h.fromWest && e.inbox.isEmpty then s
    else
      let own := if h.readsA then s.ownA k r d h else ([], [])
      let msg : ChainMsg := match e.inbox with
        | m :: _ => if h.fromWest then m else ⟨d.k, d.afmt, h.rows, d.cw, own.1, own.2⟩
        | [] => ⟨d.k, d.afmt, h.rows, d.cw, own.1, own.2⟩
      let s1 := s.modEng k (fun x => { x with
        inbox := if h.fromWest then x.inbox.drop 1 else x.inbox,
        outbox := if h.toEast then x.outbox ++ [msg] else x.outbox })
      let s2 := if d.bsrc then s1.modEng k (fun x => x.eatTile (d.bloc % 64)) else s1
      let clash := decide (msg.k ≠ d.k) || decide (msg.afmt ≠ d.afmt) || decide (msg.rows ≠ h.rows) || decide (msg.cw ≠ d.cw)
      if clash then s2.abandonMat k ticket 1
      else
        match tw with
        | .bad code => s2.abandonMat k ticket code
        | .wait => s
        | .ready tile =>
          let bs := if h.readsB then s.ownB k r d h tile else []
          let bscs := (List.range h.cols).map (fun j =>
            if matMx d.bfmt then s.vaultRead k (r.base + d.bsc + (h.col0 + j) * (d.k / 32)) (d.k / 32) else [])
          let out := matRun d ssh h msg.data msg.scales bs bscs (e.bank d.bank)
          (s2.modEng k (fun x => x.setBank d.bank out.1)).finishMat k ticket out.2

/-- A bank image of 128 × 160 values of 6 bytes (R35, R221). -/
def bankOfImage (int : Bool) (bytes : List Byte) : Bank :=
  ⟨int, 0, (List.range 20480).map (fun i =>
    let v : BitVec 48 := BitVec.ofNat 48 (leNat ((bytes.drop (6 * i)).take 6))
    (i, if int then (v.setWidth 32).signExtend 48 else v))⟩

/-- The value of a stored element (R223): alpha times the accumulator, exactly. DESIGN CHOICE (log 43): an exact zero has the product of the signs, so
a zero of an integer bank times a negative alpha is -0. -/
def storeValue (alpha : Word) (acc : FVal) : FVal :=
  let a := FF.f32.value alpha.toNat
  if a.isNan || acc.isNan then .nan false
  else if a.isInf || acc.isInf then
    if a.isZero || acc.isZero then .nan false else .inf (a.sign != acc.sign)
  else
    let p := a.dy.mul acc.dy
    .fin (a.sign != acc.sign) p.m.natAbs p.e

/-- The bytes of a stored element. -/
def storeElem (d : MxstDesc) (int : Bool) (acc : BitVec 48) : List Byte :=
  let v : FVal := if int then
      let i := (acc.setWidth 32).toInt
      .fin (decide (i < 0)) i.natAbs 0
    else FF.acc48.value acc.toNat
  let x := storeValue d.alpha v
  let fl (f : FF) : List Byte := leBytes (storeBytes d.fmt) (toFF f d.rnd d.sat x)
  match d.fmt with
  | 0x10 => fl .f32 | 0x11 => fl .f16 | 0x12 => fl .bf16 | 0x13 => fl .e4m3 | 0x14 => fl .e5m2
  | 0x05 => leBytes 4 (match x with
      | .nan _ => 0
      | .inf n => wrapNat 32 (if n then -(2 ^ 31 : Int) else 2 ^ 31 - 1)
      | .fin .. => wrapNat 32 (clampInt true 32 (x.dy.toInt d.rnd)))
  | _ => leBytes 6 acc.toNat

/-- The writes of a store: destination offset or virtual address, and bytes, in row-major order. -/
def storeWrites (d : MxstDesc) (b : Bank) : List (Nat × List Byte) :=
  (List.range d.rows).flatMap (fun r => (List.range d.cols).map (fun c =>
    (d.dst + r * d.ldd + c * storeBytes d.fmt, storeElem d b.int (b.get (d.row0 + r) (d.col0 + c)))))

/-- Translate the bytes of some writes. -/
def State.writePas (s : State) (k die : Nat) (c : Ctx) (ws : List (Nat × List Byte)) : Except (Nat × XErr) (List LeafByte) :=
  ws.foldl (fun (r : Except (Nat × XErr) (List LeafByte)) w =>
    (List.range w.2.length).foldl (fun (q : Except (Nat × XErr) (List LeafByte)) i =>
      match q with
      | .error e => .error e
      | .ok ps =>
        match s.translate (some k) die c (w.1 + i) .write with
        | .ok lf => .ok (ps ++ [(lf, w.2.getD i 0)])
        | .error e => .error (w.1 + i, e)) r) (.ok [])

/-- Perform the global writes of a store of a team; a miss pauses it, and a failure kills (R194, R223). -/
def State.stepStore (s : State) (k : Nat) (t : Team) (op : MatOp) (ws : List (Nat × List Byte)) : State :=
  let c := s.ctxOf t
  match s.writePas k t.die c ws with
  | .ok ps =>
    (match s.engineSnoops (ps.map (·.1.pa)) true with
    | some a => a
    | none => (s.engineBytes t.ctx t.die (fun _ => true) ps).finishMat k op.ticket [0, 0, 0, 0])
  | .error (va, e) =>
    match e with
    | .miss lv =>
      if s.fqOn c then
        let q := s.askFault c (.mat t.die t.core) ⟨va, lv, true, false, true, t.core, t.die, 0⟩
        q.2.modEng k (fun x => { x with queue := x.queue.modify 0 (fun o => { o with paused := some q.1 }) })
      else s.engineKill t.ctx (t.who 0) va 1 3
    | _ => s.engineKill t.ctx (t.who 0) va (faultKind e) 3

/-- The head of an engine's queue completes (R203). -/
def execMatrixOpComplete (die core : Nat) (s : State) : Host.Outcome State Fault Refusal :=
  event s (fun s =>
    let k := coreKey die core
    let e := (s.core k).eng
    match e.queue, e.holder.bind s.region with
    | op :: _, some r =>
      if op.paused.isSome then s
      else
        let z := [0, 0, 0, 0]
        (match op.kind with
        | .mxm d ssh => s.stepMxm k r op.ticket d ssh
        | .zero int bank => (s.modEng k (fun x => x.setBank bank ⟨int, 0, []⟩)).finishMat k op.ticket z
        | .fill int bank v =>
          let x : BitVec 48 := if int then v.signExtend 48 else BitVec.ofNat 48 (toFF .acc48 .rne false (FF.f32.value v.toNat))
          (s.modEng k (fun y => y.setBank bank ⟨int, x, []⟩)).finishMat k op.ticket z
        | .restore int bank off =>
          (s.modEng k (fun y => y.setBank bank (bankOfImage int (s.vaultRead k (r.base + off) 122880)))).finishMat k op.ticket z
        | .store bank d =>
          let ws := storeWrites d (e.bank bank)
          if d.glb then
            (match e.holder with
            | some (.team tid) => (match s.team tid with | some t => s.stepStore k t op ws | none => s)
            | _ => s)
          else (ws.foldl (fun (a : State) w => a.vaultWrite k (r.base + w.1) w.2) s).finishMat k op.ticket z)
    | _, _ => s)

/-! ### The Causeway (R214) -/

/-- The team that holds a core's engine. -/
def State.holderTeam (s : State) (k : Nat) : Option Team :=
  match (s.core k).eng.holder with
  | some (.team tid) => s.team tid
  | _ => none

/-- What the engine directly west sent arrives in a relay or tail. -/
def execCausewayDataArrive (die core : Nat) (s : State) : Host.Outcome State Fault Refusal :=
  event s (fun s =>
    if core % 8 = 0 then s
    else
      let k := coreKey die core
      let v := coreKey die (core - 1)
      match s.holderTeam k, s.holderTeam v, (s.core v).eng.outbox with
      | some t, some u, m :: _ =>
        if t.grid = u.grid && decide (t.clusid = u.clusid) && decide (u.teamid + 1 = t.teamid) then
          (s.modEng v (fun e => { e with outbox := e.outbox.drop 1 })).modEng k (fun e => { e with inbox := e.inbox ++ [m] })
        else s
      | _, _, _ => s)

/-! ### The Staithe (R217) -/

/-- Tiles stay in the replay buffer until those read since exceed REPLAY bytes. -/
def keepTiles (replay : Nat) (buf : List (Nat × List Byte)) : List (Nat × List Byte) :=
  ((List.range buf.length).filter (fun i =>
    decide (((buf.drop (i + 1)).map (fun e => e.2.length)).foldl (· + ·) 0 ≤ replay))).filterMap (fun i => buf[i]?)

/-- A tile as its stream delivers it. -/
def Stream.tile (x : Stream) (data : List Byte) : Tile :=
  let h := shapeOf x.shape
  ⟨h.fmt, h.extent 0, h.extent 1, decide (h.rank = 2), data⟩

/-- Deliver a tile into an engine. -/
def State.deliver (s : State) (k id : Nat) (t : Tile) : State :=
  s.modEng k (fun e => { e with subs := e.subs.map (fun u => if u.stream = id then { u with next := u.next + 1, tiles := u.tiles ++ [t] } else u) })

/-- The next tile of a subscription is delivered: from the replay buffer, or read from the source. -/
def execStaitheTileDeliver (die core stream : Nat) (s : State) : Host.Outcome State Fault Refusal :=
  event s (fun s =>
    let k := coreKey die core
    match (s.core k).eng.subs.find? (fun u => decide (u.stream = stream)), fget (s.die die).streams stream with
    | some u, some x =>
      if x.tiles ≤ u.next || u.window ≤ u.tiles.length || x.paused.isSome then s
      else
        match x.buf.find? (fun e => decide (e.1 = u.next)) with
        | some e => s.deliver k stream (x.tile e.2)
        | none =>
          match fget s.ctxs x.ctx with
          | none => s
          | some c =>
            let h := shapeOf x.shape
            match s.tilePas none die c h ((x.base : Int) + u.next * x.tstride) 0 h.bytes with
            | .ok pas =>
              (match s.engineSnoops (pas.map (·.pa)) false with
              | some a => a
              | none =>
                let r := s.enginePas x.ctx die pas
                (r.2.modDie die (fun d => { d with streams := fset d.streams stream { x with buf := keepTiles x.replay (x.buf ++ [(u.next, r.1)]) } })).deliver
                  k stream (x.tile r.1))
            | .error (va, e) =>
              match e with
              | .miss lv =>
                if s.fqOn c then
                  let q := s.askFault c (.stream die stream) ⟨va, lv, false, false, true, 0xFF, die, 0⟩
                  q.2.modDie die (fun d => { d with streams := fset d.streams stream { x with paused := some q.1 } })
                else s.engineKill x.ctx ⟨0, 0, 0, 0, die⟩ va 1 2
              | _ => s.engineKill x.ctx ⟨0, 0, 0, 0, die⟩ va (faultKind e) 2
    | _, _ => s)

end Sys2Proof.Machine
end

