-- ==== Sys2Proof/Machine/Protocol.lean ====
section
/-!
DEFINITION. Protocol images, the declaring and releasing of coherence objects, protocol events at a part, the host over the Milesk Link, and
cores in retention (R309 to R328, R370, R385, R398).
-/

namespace Sys2Proof.Machine

/-! ### Judging a protocol image (R317, R320) -/

/-- Entry (st, e) of an image. -/
def imgEntry (img : List Byte) (st e : Nat) : Nat := leNat ((img.drop (64 + 4 * (16 * st + e))).take 4)

/-- The header of an image. -/
def imgHeader (img : List Byte) : Nat := leNat (img.take 64)

/-- The used states of an image. -/
def imgStates (img : List Byte) : Nat := field (imgHeader img) 34 32 + 1

/-- The kind of a state of an image. -/
def imgKind (img : List Byte) (st : Nat) : Nat := field (imgHeader img) (41 + 2 * st) (40 + 2 * st)

/-- The state an entry of an image leads to (log 22). -/
def imgNext (img : List Byte) (st e : Nat) : Nat := nextState (imgEntry img st e) e st

/-- BADHDR. -/
def imgBadHeader (img : List Byte) : Bool :=
  let h := imgHeader img
  decide (field h 31 0 ≠ 0x4C425450) || decide (field h 511 56 ≠ 0) || decide (field h 39 37 ≠ 0) || decide (imgKind img 0 ≠ 0) ||
  (List.range 8).any (fun st => decide (imgStates img ≤ st) && decide (imgKind img st ≠ 0))

/-- STALL or FAULT. -/
def halts (x : Nat) : Bool := act x 12 || act x 13

/-- The first action bit alone, or none. -/
def otherActs (x : Nat) : Bool := decide (field x 14 3 ≠ 0) || (act x 12 && act x 13)

/-- BADENTRY. -/
def entryBad (img : List Byte) (st e : Nat) : Bool :=
  let x := imgEntry img st e
  if imgStates img ≤ st || decide (10 ≤ e) then decide (x ≠ 0)
  else
    decide (field x 31 20 ≠ 0) || act x 14 || act x 15 || decide (imgStates img ≤ field x 2 0) ||
    (halts x && (otherActs x || decide (field x 2 0 ≠ st))) || (decide (e = 5) && decide (imgKind img st ≠ 3) && decide (x ≠ 0))

/-- BOTHGRANT. -/
def entryBoth (img : List Byte) (st e : Nat) : Bool := act (imgEntry img st e) 0 && act (imgEntry img st e) 1

/-- UNSAFE. -/
def entryUnsafe (img : List Byte) (st e : Nat) : Bool :=
  let x := imgEntry img st e
  let k := imgKind img st
  let ack := flag x 19
  (act x 1 && (decide (k = 3) || (decide (k = 1) && !(act x 5 && ack)) || (decide (k = 2) && !(act x 6 && ack)))) ||
  (act x 0 && decide (k = 2) && !(ack && (act x 7 || act x 6)))

/-- NOACKEXIT. -/
def entryNoAck (img : List Byte) (st e : Nat) : Bool :=
  let x := imgEntry img st e
  let probes := act x 5 || act x 6 || act x 7 || act x 8
  (probes && !flag x 19) || (flag x 19 && (decide (imgKind img st = 3) || decide (imgKind img (field x 2 0) ≠ 3))) ||
  (decide (e = 5) && decide (imgKind img st = 3) && (decide (field x 18 3 ≠ 0) || decide (imgKind img (imgNext img st 5) = 3)))

/-- The states that n steps along NEXT fields reach from some states. -/
def imgReach (img : List Byte) : Nat → List Nat → List Nat
  | 0, r => r
  | n + 1, r => imgReach img n ((r ++ r.flatMap (fun st => (List.range 10).map (fun e => imgNext img st e))).eraseDups)

/-- NOREL. -/
def stateNoRel (img : List Byte) (st : Nat) : Bool :=
  let x := imgEntry img st 8
  let n := imgNext img st 8
  if imgKind img st = 3 then !act x 12
  else !((decide (st = 0) && decide (n = 0)) || (decide (imgKind img n = 3) && decide (imgNext img n 5 = 0)))

/-- WOFAULT of an entry. -/
def entryWo (img : List Byte) (st e : Nat) : Bool :=
  flag (imgHeader img) 36 && (decide (e = 2) || decide (e = 6)) && decide (st < imgStates img) && !act (imgEntry img st e) 13

/-- The first entry, in ascending index, for which a check fails. -/
def firstEntry (bad : Nat → Nat → Bool) : Option Nat := (List.range 128).find? (fun i => bad (i / 16) (i % 16))

/-- The entries of used states. -/
def ofUsed (img : List Byte) (bad : List Byte → Nat → Nat → Bool) (st e : Nat) : Bool := decide (st < imgStates img) && decide (e < 10) && bad img st e

/-- The code and failing index of the checks from BADHDR on, in order (R320). -/
def imgJudge (img : List Byte) : Nat × Nat :=
  if imgBadHeader img then (3, 0xFFFFFFFF)
  else match firstEntry (entryBad img) with
  | some i => (4, i)
  | none => match firstEntry (ofUsed img entryBoth) with
  | some i => (5, i)
  | none => match firstEntry (ofUsed img entryUnsafe) with
  | some i => (6, i)
  | none => match firstEntry (ofUsed img entryNoAck) with
  | some i => (7, i)
  | none => match (List.range (imgStates img)).find? (fun st => !(imgReach img 8 [0]).contains st) with
  | some st => (8, st)
  | none => match (List.range (imgStates img)).find? (stateNoRel img) with
  | some st => (9, st)
  | none => match firstEntry (entryWo img) with
  | some i => (10, i)
  | none => if flag (imgHeader img) 36 && flag (imgHeader img) 35 then (10, 0xFFFFFFFF) else (0, 0xFFFFFFFF)

/-- The verdict on loading an image into a slot (R320). -/
def State.protJudge (s : State) (slot : Nat) (img : List Byte) : Nat × Nat :=
  if slot < 4 then (1, 0xFFFFFFFF)
  else if s.objs.any (fun e => e.2.v && decide (e.2.pslot = slot)) then (2, 0xFFFFFFFF)
  else imgJudge img

/-- Load an image into a slot at every slice of both dies: the measurement generation rises (R320, R394). -/
def State.protLoad (s : State) (slot : Nat) (img : List Byte) : State :=
  { s with prots := s.prots.set slot (some img), attest := { s.attest with gen := s.attest.gen + 1 } }

/-! ### The shipped protocols (R318) -/

/-- The actions of R315 by number. -/
abbrev aGRS : Nat := 0
abbrev aGRX : Nat := 1
abbrev aADDS : Nat := 2
abbrev aSETO : Nat := 3
abbrev aDROP : Nat := 4
abbrev aINVS : Nat := 5
abbrev aINVO : Nat := 6
abbrev aDWNO : Nat := 7
abbrev aUPDS : Nat := 8
abbrev aWRH : Nat := 9
abbrev aMARK : Nat := 10
abbrev aNCH : Nat := 11
abbrev aSTALL : Nat := 12
abbrev aFAULT : Nat := 13

/-- An entry: its actions, and its next state (R315). -/
def cell (acts : List Nat) (next : Nat) : Nat := (acts.map (fun n => 2 ^ (3 + n))).foldl (· + ·) next

/-- An entry with ACK = 1. -/
def cellAck (acts : List Nat) (next : Nat) : Nat := cell acts next + 2 ^ 19

/-- A shipped protocol: LOCKS, WOCHK, the kinds of its states, and a row of each: the entries of events 0 to 9. -/
structure Proto where
  locks : Bool
  wochk : Bool
  kinds : List Nat
  rows  : List (List Nat)
deriving DecidableEq, Repr

/-- INV, slot 0. -/
def protoInv : Proto :=
  { locks := true, wochk := false, kinds := [0, 1, 2, 3, 3, 3],
    rows :=
      let take := cell [aGRX, aSETO] 2
      let shared := cellAck [aINVS, aGRX, aSETO] 4
      let owned := cellAck [aINVO, aGRX, aSETO] 4
      let busy (st next : Nat) : List Nat :=
        let w := cell [aSTALL] st
        [w, w, w, cell [aDROP] st, cell [aWRH] st, cell [] next, w, w, w, cell [aDROP] st]
      [[cell [aGRS, aADDS] 1, take, take, 0, 0, 0, cell [aNCH] 0, take, 0, 0],
       [cell [aGRS, aADDS] 1, shared, shared, cell [aDROP] 1, 0, 0, cellAck [aINVS, aNCH] 5, shared, cellAck [aINVS] 5, cell [aDROP] 1],
       [cellAck [aDWNO, aGRS, aADDS] 3, owned, owned, cell [aDROP] 0, cell [aWRH] 2, 0, cellAck [aINVO, aNCH] 5, owned, cellAck [aINVO] 5, cell [aDROP] 0],
       busy 3 1, busy 4 2, busy 5 0] }

/-- A row of UPD's or WO's TRANS states: what stalls, what a write with the mark 1 and an atomic do, and the state that ACK leads to. -/
def busyRow (st next wr1 atm : Nat) : List Nat :=
  let w := cell [aSTALL] st
  [w, w, wr1, cell [aDROP] st, 0, cell [] next, atm, 0, w, cell [aDROP] st]

/-- UPD, slot 1. -/
def protoUpd : Proto :=
  { locks := false, wochk := false, kinds := [0, 1, 3, 3],
    rows :=
      let push := cellAck [aWRH, aUPDS] 2
      [[cell [aGRS, aADDS] 1, cell [aWRH] 0, cell [aWRH] 0, 0, 0, 0, cell [aNCH] 0, 0, 0, 0],
       [cell [aGRS, aADDS] 1, push, push, cell [aDROP] 1, 0, 0, cellAck [aINVS, aNCH] 3, 0, cellAck [aINVS] 3, cell [aDROP] 1],
       busyRow 2 1 (cell [aSTALL] 2) (cell [aSTALL] 2), busyRow 3 0 (cell [aSTALL] 3) (cell [aSTALL] 3)] }

/-- MIG, slot 2. -/
def protoMig : Proto :=
  { locks := true, wochk := false, kinds := [0, 2, 3, 3],
    rows :=
      let take := cell [aGRX, aSETO] 1
      let move := cellAck [aINVO, aGRX, aSETO] 2
      let busy (st next : Nat) : List Nat :=
        let w := cell [aSTALL] st
        [w, w, w, cell [aDROP] st, cell [aWRH] st, cell [] next, w, w, w, cell [aDROP] st]
      [[take, take, take, 0, 0, 0, cell [aNCH] 0, take, 0, 0],
       [move, move, move, cell [aDROP] 0, cell [aWRH] 1, 0, cellAck [aINVO, aNCH] 3, move, cellAck [aINVO] 3, cell [aDROP] 0],
       busy 2 1, busy 3 0] }

/-- WO, slot 3. -/
def protoWo : Proto :=
  { locks := false, wochk := true, kinds := [0, 1, 3, 3],
    rows :=
      let no (st : Nat) : Nat := cell [aFAULT] st
      [[cell [aGRS, aADDS] 1, cell [aWRH, aMARK] 0, no 0, 0, 0, 0, no 0, 0, 0, 0],
       [cell [aGRS, aADDS] 1, cellAck [aWRH, aMARK, aUPDS] 2, no 1, cell [aDROP] 1, 0, 0, no 1, 0, cellAck [aINVS] 3, cell [aDROP] 1],
       busyRow 2 1 (no 2) (no 2), busyRow 3 0 (no 3) (no 3)] }

/-- The header of a shipped image (R317). -/
def Proto.header (p : Proto) : Nat :=
  0x4C425450 + (p.kinds.length - 1) * 2 ^ 32 + (if p.locks then 2 ^ 35 else 0) + (if p.wochk then 2 ^ 36 else 0)
    + (p.kinds.zipIdx.map (fun e => e.1 * 2 ^ (40 + 2 * e.2))).foldl (· + ·) 0

/-- The 576 bytes of a shipped image (R317). -/
def Proto.image (p : Proto) : List Byte :=
  leBytes 64 p.header ++ (List.range 128).flatMap (fun i => leBytes 4 ((p.rows.getD (i / 16) []).getD (i % 16) 0))

/-- The vendor image that a slot from 0 to 3 holds (R318). -/
def shipped (slot : Nat) : List Byte :=
  (match slot with | 0 => protoInv | 1 => protoUpd | 2 => protoMig | _ => protoWo).image

/-! ### PROTLD, OBJDECL, OBJREL (R319 to R322) -/

/-- Translate some pieces of memory in ascending order. -/
def State.xlateAll (s : State) (t : Team) (g : Nat) (vas : List Nat) (acc : Acc) : Res (List Leaf) :=
  vas.foldl (fun (r : Res (List Leaf)) va => r.andThen (fun ls => (s.xlate t g va acc 2).andThen (fun lf => .ok (ls ++ [lf])))) (.ok [])

/-- The TLBs keep the entries of some translations. -/
def State.fillAll (s : State) (t : Team) (vas : List Nat) (acc : Acc) : State :=
  vas.foldl (fun (a : State) va => a.fillTlb (some t.key) t.die (s.ctxOf t) va acc) s

/-- The addresses of the nine 64-byte pieces of an image. -/
def imagePieces (va : Nat) : List Nat := (List.range 9).map (fun i => va + 64 * i)

/-- The pages of an image (R320). -/
def State.protOf (s : State) (t : Team) (g va : Nat) : Res (List Leaf) :=
  (Res.check (decide (va % 64 ≠ 0)) (.misaligned (dw va))).andThen (fun _ =>
    (Res.check (decide (0x2000000000000 < va + 576)) (.access 1 (dw va))).andThen (fun _ => s.xlateAll t g (imagePieces va) .read))

/-- Read some pieces of n bytes as an engine. -/
def State.readPieces (s : State) (ctx die n : Nat) (pas : List Leaf) : List Byte × State :=
  pas.foldl (fun (r : List Byte × State) lf => let q := r.2.engineRead ctx die lf.trk lf.pa n; (r.1 ++ q.1, q.2)) ([], s)

def doProtld (c : Ctl) (slot : BitVec 3) (d a : Reg) (w : Who) (s : State) : State :=
  match s.team w.team, w.leader with
  | some t, some l =>
    let va := ((s.fibre w.team l.1 l.2).get64 w.pos a).toNat
    let r := s.leaderGate w (s.protOf t l.1 va)
    (match r.1 with
    | none => r.2
    | some lfs =>
      let s1 := (r.2.fillAll t (imagePieces va) .read).fenceBy w t.key .sc .device false
      match s1.engineSnoops (lfs.map (·.pa)) false with
      | some held => held.hold w
      | none =>
        let q := s1.readPieces t.ctx t.die 64 lfs
        let v := q.2.protJudge slot.toNat q.1
        let s2 := if v.1 = 0 then q.2.protLoad slot.toNat q.1 else q.2
        s2.giveAll (.protld c slot d a) w [(.v d, BitVec.ofNat 32 v.1), (.v (d + 1), BitVec.ofNat 32 v.2)])
  | _, _ => s

/-- PROTLD (R320). -/
def execProtld (c : Ctl) (slot : BitVec 3) (d a : Reg) (s : State) : Host.Outcome State Fault Refusal :=
  native (.protld c slot d a) s (afterOrder (syncBody (.protld c slot d a) .bundle (doProtld c slot d a)))

/-- The virtual line numbers that a shape's elements touch (R309). -/
def Shape.vlines (h : Shape) (base : Nat) : List Nat :=
  if h.empty then []
  else ((List.range (h.units0 * h.extent 1 * h.extent 2 * h.extent 3)).flatMap (fun u =>
    let a := ((base : Int) + h.unitOff u).toNat
    [a / 128, (a + h.esBytes - 1) / 128])).eraseDups

/-- What OBJDECL resolves: the shape record, the record's base, its lines' pages. -/
structure Decl where
  shape : Nat
  base  : Nat
  lines : List (Nat × Leaf)
deriving DecidableEq, Repr

/-- Steps 1 to 3 of OBJDECL (R321). -/
def State.declOf (s : State) (t : Team) (g off : Nat) : Res Decl :=
  (s.readDesc t off 64).andThen (fun x =>
    let h := shapeOf x
    let no : Trap := .access 4 (dw off)
    (match s.bufRec t h.brec with
      | none => Res.trap no
      | some _ => s.recFor t g h.brec h.offset).andThen (fun b =>
      (Res.check (h.badFor b .rdOrWr) no).andThen (fun _ =>
        let vs := h.vlines b.base
        (s.xlateAll t g (vs.map (· * 128)) .maint).andThen (fun ls => .ok ⟨x, b.base, vs.zip ls⟩))))

/-- The lowest free object ID (R321). -/
def State.freeObj (s : State) : Option Nat := (List.range 4096).find? (fun i => !(s.obj i).v)

/-- The first status of step 4 that applies (R321). -/
def State.declStatus (s : State) (slot : Nat) (x : Decl) : Nat :=
  let lines := x.lines.map (fun e => e.2.pa / 128)
  if (s.prots.getD slot none).isNone then 1
  else if (shapeOf x.shape).empty then 5
  else if x.lines.any (fun e => !e.2.trk || !e.2.c || decide (e.2.ord ≠ 1)) then 2
  else if lines.any (fun l => (s.objAny l).isSome) then 3
  else if s.freeObj.isNone then 4
  else 0

/-- A core writes back and drops its copy of a line, pinned or not (R321). -/
def State.expel (s : State) (k line : Nat) : State := (s.pushLine k line).dropCopy k line

/-- Enter an object (R321). -/
def State.declare (s : State) (t : Team) (slot id : Nat) (x : Decl) : State :=
  let h := shapeOf x.shape
  let lines := (x.lines.map (fun e => e.2.pa / 128)).eraseDups
  let shape := x.shape - h.offset * 2 ^ 64 + ((x.base + h.offset) % 2 ^ 64) * 2 ^ 64
  let s1 := s.cores.foldl (fun (a : State) e => lines.foldl (fun (b : State) l => if ((b.core e.1).line l).isSome then b.expel e.1 l else b) a) s
  { s1 with
    objs := fset s1.objs id ⟨(s.obj id).gen, true, slot, t.part, t.ctx, shape, lines, false⟩,
    marks := s1.marks.filter (fun m => !lines.contains m),
    slices := s1.slices.map (fun (e : Nat × Slice) => (e.1, { e.2 with parts := fdel e.2.parts id })) }

/-- The handle of an object (R319). -/
def handleOf (gen id : Nat) : Word := BitVec.ofNat 32 (gen * 65536 + id)

def doObjdecl (c : Ctl) (slot : BitVec 3) (d a : Reg) (w : Who) (s : State) : State :=
  match s.team w.team, w.leader with
  | some t, some l =>
    let r := s.leaderGate w (s.declOf t l.1 ((s.fibre w.team l.1 l.2).get w.pos a).toNat)
    (match r.1 with
    | none => r.2
    | some x =>
      let s1 := ((r.2.fillAll t (x.lines.map (fun e => 128 * e.1)) .maint).keepRec t (shapeOf x.shape).brec).fenceBy w t.key .sc .device false
      let st := s1.declStatus slot.toNat x
      let give (b : State) (h : Word) : State := b.giveAll (.objdecl c slot d a) w [(.v d, BitVec.ofNat 32 st), (.v (d + 1), h)]
      if st ≠ 0 then give s1 0
      else
        match s1.engineSnoops (x.lines.map (fun e => e.2.pa)) true with
        | some held => held.hold w
        | none =>
          let id := s1.freeObj.getD 0
          give (s1.declare t slot.toNat id x) (handleOf (s1.obj id).gen id))
  | _, _ => s

/-- OBJDECL (R321). -/
def execObjdecl (c : Ctl) (slot : BitVec 3) (d a : Reg) (s : State) : Host.Outcome State Fault Refusal :=
  native (.objdecl c slot d a) s (afterOrder (syncBody (.objdecl c slot d a) .bundle (doObjdecl c slot d a)))

def doObjrel (c : Ctl) (d a : Reg) (w : Who) (s : State) : State :=
  match s.team w.team, w.leader with
  | some t, some l =>
    let h := ((s.fibre w.team l.1 l.2).get w.pos a).toNat
    let id := h % 4096
    let s1 := s.fenceBy w t.key .sc .device false
    let o := s1.obj id
    let give (b : State) (st : Word) : State := b.giveAll (.objrel c d a) w [(.v d, st)]
    if field h 15 12 ≠ 0 || !o.v || o.rel || decide (o.ctx ≠ t.ctx) || decide (o.gen ≠ h / 65536) then give s1 1
    else if o.lines.any (fun x => (s1.lockEntry x).isSome) then give s1 2
    else
      (match s1.engineSnoops (o.lines.map (· * 128)) true with
      | some held => held.hold w
      | none => give (s1.releaseObject id) 0)
  | _, _ => s

/-- OBJREL (R322). -/
def execObjrel (c : Ctl) (d a : Reg) (s : State) : Host.Outcome State Fault Refusal :=
  native (.objrel c d a) s (afterOrder (syncBody (.objrel c d a) .bundle (doObjrel c d a)))

/-! ### Events at a part (R314, R316) -/

/-- The next request that the part admits is a read. -/
def execRd (die slice obj : Nat) (s : State) : Host.Outcome State Fault Refusal :=
  event s (fun s => s.serveIf (sliceKey die slice) obj (fun rq => decide (s.reqEvent rq = 0)))

/-- The next request that the part admits is a write of an unmarked line. -/
def execWr0 (die slice obj : Nat) (s : State) : Host.Outcome State Fault Refusal :=
  event s (fun s => s.serveIf (sliceKey die slice) obj (fun rq => decide (s.reqEvent rq = 1)))

/-- The next request that the part admits is a write of a marked line. -/
def execWr1 (die slice obj : Nat) (s : State) : Host.Outcome State Fault Refusal :=
  event s (fun s => s.serveIf (sliceKey die slice) obj (fun rq => decide (s.reqEvent rq = 2)))

/-- An agent drops the lines of a part that it holds, none of them pinned; the host's go out of the directory. -/
def execEvc (die slice obj agent : Nat) (s : State) : Host.Outcome State Fault Refusal :=
  event s (fun s =>
    let sk := sliceKey die slice
    let o := s.obj obj
    let lines := o.linesAt sk
    if !o.v then s
    else if agent = 73 then
      if (s.slice sk).hostdir.any (fun e => lines.contains e.1) then
        (s.modSlice sk (fun z => { z with hostdir := z.hostdir.filter (fun e => !lines.contains e.1) })).partEvent sk obj 3
          ⟨.note 3, 73, 0, 0, 128 * lines.headD 0⟩
      else s
    else
      (s.agentCores sk agent).foldl (fun (a : State) k =>
        ((a.core k).l1.filter (fun x => decide (x.obj = some (obj, o.gen)) && lines.contains x.line && !(a.core k).pins.contains x.line)).foldl
          (fun (b : State) x => b.dropTracked k obj x.line) a) s)

/-- An agent writes back the dirty bytes of a line and keeps it. -/
def execWb (die slice obj agent line : Nat) (s : State) : Host.Outcome State Fault Refusal :=
  event s (fun s =>
    let sk := sliceKey die slice
    let o := s.obj obj
    if o.v && (o.linesAt sk).contains line then
      (s.agentCores sk agent).foldl (fun (a : State) k =>
        match (a.core k).line line with
        | some x => if x.obj = some (obj, o.gen) then a.wbTracked k obj line else a
        | none => a) s
    else s)

/-- Every probe and push that an entry awaits has been acknowledged, the host's answers among them. -/
def execAck (die slice obj : Nat) (s : State) : Host.Outcome State Fault Refusal :=
  event s (fun s =>
    let sk := sliceKey die slice
    if s.hostAnswered sk obj then s.partAck sk obj else s)

/-- A saturating 32-bit count. -/
def satWord (w : Word) : Word := if w = 0xFFFFFFFF#32 then w else w + 1

/-- The incarnation of an agent of a die (R327). -/
def Die.incOf (d : Die) (agent : Nat) : BitVec 8 := (fget d.inc agent).getD 0

/-- A message with a stale incarnation is dropped and counted (R327, R328). -/
def execStaleMessage (die : Nat) (kind : MsgKind) (agent : Nat) (inc : BitVec 8) (s : State) : Host.Outcome State Fault Refusal :=
  event s (fun s =>
    if (s.die die).incOf agent = inc then s
    else s.modDie die (fun d => match kind with
      | .ack => { d with staleack := satWord d.staleack }
      | .writeBack => { d with stalewb := satWord d.stalewb }
      | .other => d))

/-! ### The host (R326, R385) -/

/-- The bytes of a run that lie in a line: their address and value. -/
def chunkIn (pa : Nat) (bs : List Byte) (line : Nat) : Nat × List Byte :=
  let lo := max pa (128 * line)
  (lo, (bs.drop (lo - pa)).take (128 * (line + 1) - lo))

/-- The host holds a line exclusive already. -/
def State.hostExcl (s : State) (line : Nat) : Bool := (s.slice (homeKey (128 * line))).hostdir.any (fun e => decide (e.1 = line) && e.2)

/-- Bytes that the host writes to an untracked line of its own accord: its copy goes with them (R326). -/
def State.hostPut (s : State) (pa : Nat) (bs : List Byte) : State :=
  (s.modSlice (homeKey pa) (fun z => { z with hostdir := z.hostdir.filter (fun e => decide (e.1 ≠ pa / 128)) })).homeWrite pa bs

/-- A host access to one line of device memory: of an object, as a request of agent 73; else through the host directory (R326). -/
def State.hostLine (s : State) (acc : HostAcc) (line : Nat) : State :=
  let rq (k : PReqKind) (pa : Nat) : PReq := ⟨k, 73, 0, 0, pa⟩
  if s.snoops.contains line then s
  else
    match s.objAny line, acc with
    | some (id, _), .read _ _ => s.partQueue id (rq .hostRead (128 * line))
    | some (id, _), .own _ => s.partQueue id (rq (.hostOwn []) (128 * line))
    | some (id, _), .write pa bs =>
      let c := chunkIn pa bs line
      if s.hostExcl line then (s.homeWrite c.1 c.2).partEvent (homeKey (128 * line)) id 4 (rq (.note 4) c.1)
      else s.partQueue id (rq (.hostOwn c.2) c.1)
    | none, .read _ _ => s.hostEnter line (s.hostExcl line)
    | none, .own _ => s.hostEnter line true
    | none, .write pa bs => let c := chunkIn pa bs line; s.hostPut c.1 c.2

/-- Memory of the device stands at a run of addresses. -/
def State.deviceMem (s : State) (pa n : Nat) : Bool := s.present pa n && (match memKind pa with | some .host => false | _ => true)

/-- A host access to device memory arrives over the Milesk Link; one to no device memory does nothing. -/
def execHostMemoryAccess (acc : HostAcc) (s : State) : Host.Outcome State Fault Refusal :=
  event s (fun s =>
    let run := match acc with
      | .read pa n => (pa, n)
      | .own pa => (pa, 1)
      | .write pa bs => (pa, bs.length)
    if run.2 = 0 || !s.deviceMem run.1 run.2 || s.mileskDown then s
    else (linesOf run.1 run.2).foldl (fun (a : State) l => a.hostLine acc l) s)

/-- The host answers a snoop: the line's data take their place at the home, under what device agents have written since, and the host keeps no copy, or a
clean one where the owner was asked to keep it (R326); its last line of a part goes as any holder's does (R314). -/
def execBisnpResponse (line : Nat) (data : Option (List Byte)) (s : State) : Host.Outcome State Fault Refusal :=
  event s (fun s =>
    if !s.snoops.contains line then s
    else
      let sk := homeKey (128 * line)
      let keep := match s.objAny line with
        | some (id, _) => (match (s.objPart sk id).second with
          | some (x, _) => act x.toNat 7 && (s.objPart sk id).shr.getLsbD 73
          | none => false)
        | none => false
      let left := if keep then [(line, false)] else []
      let own : HomeEvent := (s.snooped.filter (fun x => decide (x.1 = line))).map (·.2)
      let s1 := State.modSlice { s with snoops := s.snoops.filter (fun l => decide (l ≠ line)), snooped := s.snooped.filter (fun x => decide (x.1 ≠ line)) } sk
        (fun z => { z with hostdir := z.hostdir.filter (fun e => decide (e.1 ≠ line)) ++ left })
      let s2 := match data with
        | some bs => if s.hostExcl line && decide (bs.length = 128) then s1.homeWrites [(128 * line, bs) :: own] else s1
        | none => s1
      (match s2.objAny line with | some (id, _) => s2.goneFrom sk id 73 line | none => s2).retryWords)

/-- The companion processor writes a host line that die 0 caches: the write reaches the slice of die 0, its monitors, and the protocol of an
object that holds the line (R287, R326). -/
def execHostLineWrite (pa : Nat) (data : List Byte) (s : State) : Host.Outcome State Fault Refusal :=
  event s (fun s =>
    if data.isEmpty || !s.present pa data.length then s
    else match memKind pa with
      | some .host =>
        (linesOf pa data.length).foldl (fun (a : State) l =>
          let c := chunkIn pa data l
          (match a.objAny l with
          | some (id, _) => a.partQueue id ⟨.hostOwn c.2, 73, 0, 0, c.1⟩
          | none => a.homeWrite c.1 c.2)) s
      | _ => s)

/-! ### Requests entering a slice (R370) -/

/-- The oldest line request of a core that has not entered a slice: its name and line. -/
def State.nextEntry (s : State) (k : Nat) : Option (Nat × Nat) :=
  s.reqs.findSome? (fun e =>
    if ((s.team e.2.team).map Team.key) = some k && !e.2.begun && !(s.slices.any (fun z => z.2.inq.any (fun x => decide (x.1 = e.1)))) then
      (e.2.kind.line?).map (fun l => (e.1, l))
    else none)

/-- The place of a request among those that reach a queue in one clock: die and core, then GRPID, then line address (R271, R370). -/
def State.entryKey (s : State) (id : Nat) : List Nat :=
  match fget s.reqs id with
  | some r => [((s.team r.team).map Team.key).getD 0, r.grp, r.kind.line?.getD 0]
  | none => []

/-- A queue with a request entered in the running clock, before those of the same clock that come after it. -/
def State.enterQueue (s : State) (id : Nat) (q : List (Nat × Nat)) : List (Nat × Nat) :=
  let older (e : Nat × Nat) : Bool := !(decide (e.2 = s.now) && decide (s.entryKey id < s.entryKey e.1))
  q.takeWhile older ++ [(id, s.now)] ++ q.dropWhile older

/-- The HBM stack to which a load of priority 0 goes, where it misses in the L2, which the part chooses (R57; log 46). -/
def State.hbmRead (s : State) (r : Req) : Option Nat :=
  match r.kind, s.team r.team with
  | .load _ _ _ line .., some t =>
    (match memKind (128 * line) with
    | some (.hbm st) => if t.prio = 0 && Config.freeBool s.free then some st else none
    | _ => none)
  | _, _ => none

/-- The class-0 reads of a partition that are outstanding to a stack (R57). -/
def State.readsOut (s : State) (p st : Nat) : Nat :=
  (s.reqs.filter (fun e => decide (e.2.hbm = some st) && decide ((s.team e.2.team).map (·.part) = some p))).length

/-- A request goes to a stack, or not; one that finds 256 outstanding there counts (R57). -/
def State.countRead (s : State) (id : Nat) (r : Req) : State :=
  match s.hbmRead r, s.team r.team with
  | some st, some t =>
    let a := if 256 ≤ s.readsOut t.part st then s.modPart t.part (fun p => { p with oversub := if p.oversub = 0xFFFFFFFF#32 then p.oversub else p.oversub + 1 }) else s
    { a with reqs := fmod a.reqs id (fun x => { x with hbm := some st }), free := a.free + 1 }
  | _, _ => { s with free := s.free + 1 }

/-- A core's next line request enters its slice's input queue of 64, when there is room. -/
def execSliceRequestEnqueue (die core : Nat) (s : State) : Host.Outcome State Fault Refusal :=
  event s (fun s =>
    match s.nextEntry (coreKey die core) with
    | none => s
    | some (id, line) =>
      let sk := homeKey (128 * line)
      let q := s.queued sk
      if q.length < 64 then
        (match fget s.reqs id with
        | some r => (s.countRead id r).modSlice sk (fun z => { z with inq := s.enterQueue id q })
        | none => s)
      else s)

/-! ### Retention (R324, R325, R398) -/

/-- A team is resident on a core. -/
def State.teamOn (s : State) (k : Nat) : Bool :=
  s.teams.any (fun e => decide (e.2.key = k) && (match e.2.status with | .resident | .saving .. | .halted => true | _ => false))

/-- A core lends blocks (R70). -/
def State.lends (s : State) (k : Nat) : Bool := decide (0 < s.lentBlocks k)

/-- A core may never be in retention (R398). -/
def State.alwaysOn (s : State) (k : Nat) : Bool :=
  match s.partOf k with
  | some p => descIsol (s.desc p) && descFixclk (s.desc p)
  | none => false

/-- The core has work or lent blocks. -/
def State.coreBusy (s : State) (k : Nat) : Bool := s.teamOn k || s.lends k || !(s.core k).copies.isEmpty || (s.core k).eng.holder.isSome

/-- A core writes back every dirty line (R324). -/
def State.flushCore (s : State) (k : Nat) : State :=
  ((s.core k).l1.filter (fun x => x.dirty.contains true)).foldl (fun (a : State) x =>
    match x.obj with
    | some (id, _) => a.wbTracked k id x.line
    | none => a.pushLine k x.line) s

/-- An idle core writes back its dirty lines and enters retention. The 8,192 clocks are reference clocks, as those of the power controller: R5 does
not say whether they count at the core (log 44). -/
def execRetentionEnter (die core : Nat) (s : State) : Host.Outcome State Fault Refusal :=
  event s (fun s =>
    let k := coreKey die core
    if 72 ≤ core || (s.core k).asleep || s.coreBusy k || s.alwaysOn k || decide (s.now < (s.core k).idle + 8192) then s
    else (s.flushCore k).modCore k (fun c => { c with asleep := true, slog := [], sover := false, sall := false }))

/-- A core wakes: before any access it drops the lines of each logged object, or every tracked line, and raises EVC at each part whose last
line it dropped (R324, R325). -/
def State.wake (s : State) (k : Nat) : State :=
  let c := s.core k
  if !c.asleep then s
  else
    let s1 := s.modCore k (fun x => { x with asleep := false, slog := [], sover := false, sall := false, idle := s.now })
    (c.l1.filter (fun x => match x.obj with | some o => c.sover || c.sall || c.slog.contains o | none => false)).foldl (fun (a : State) x =>
      match x.obj with
      | some (id, gen) =>
        if (a.obj id).gen = gen && (a.obj id).v then a.dropTracked k id x.line else a.modCore k (fun z => z.dropLine x.line)
      | none => a) s1

/-- A core in retention wakes. -/
def execRetentionWake (die core : Nat) (s : State) : Host.Outcome State Fault Refusal := event s (fun s => s.wake (coreKey die core))

end Sys2Proof.Machine
end

