-- ==== Sys2Proof/Machine/FaultQueue.lean ====
section
/-!
DEFINITION. The fault queue of each die: records posted, answers, and the writes of its registers (R180 to R182, R194, R217, R223, R231,
R240, R241, R346).
-/

namespace Sys2Proof.Machine

/-! ### Posting (R181) -/

/-- The ring is full. -/
def Die.fqFull (d : Die) : Bool := decide (d.fqwr - d.fqrd = BitVec.ofNat 32 (2 ^ d.fqlog2))

/-- A waiting miss is written to the ring when there is room; then FQWR advances, with its interrupt. -/
def execFaultRecordPost (die : Nat) (s : State) : Host.Outcome State Fault Refusal :=
  event s (fun s =>
    let d := s.die die
    match d.fqwait with
    | [] => s
    | r :: rest =>
      if !d.fqen || d.fqFull then s
      else
        let s1 := s.homeWrite (d.fqbase.toNat + 32 * (d.fqwr.toNat % 2 ^ d.fqlog2)) r.bytes
        (s1.modDie die (fun x => { x with fqwait := rest, fqout := x.fqout ++ [r], fqwr := x.fqwr + 1 })).irq 3 die ((d.fqwr.toNat + 1) % 65536))

/-! ### Answers (R180, R181) -/

/-- Make ready every path that slept (R180). -/
def Group.wakePaths : Nat → Nat → Group → Group
  | 0, _, g => g
  | n + 1, now, g =>
    match (List.range g.paths.length).find? (fun i => match g.paths[i]? with | some p => decide (p.kind = .asleep) | none => false) with
    | none => g
    | some i => Group.wakePaths n now (if i = 0 then { g.readyPath i with readyAt := now } else g.readyPath i)

/-- A record of a group is answered; with its last record it wakes (R180). -/
def Group.answer (g : Group) (now tag region : Nat) (fail : Bool) : Group :=
  let x := { g with tags := g.tags.filter (fun t => decide (t ≠ tag)), failed := if fail then region :: g.failed else g.failed }
  if x.tags.isEmpty && x.asleep then Group.wakePaths 32 now { x with asleep := false } else x

/-- The virtual address of a record. -/
def FaultRec.va (r : FaultRec) : Nat := field (leNat r.bytes) 48 0

/-- Who is named in a copy-fault record of a die's engine that serves no group. -/
def dieWho (die : Nat) : LogWho := ⟨0, 0, 0, 0, die⟩

/-- A collective goes on, or fails with FAULT (R346). -/
def Coll.answered (c : Coll) (fail : Bool) : Coll := if fail then { c with paused := none, failed := some 3 } else { c with paused := none }

/-- An answer reaches who waits for it. -/
def State.answer (s : State) (r : FaultRec) (fail : Bool) : State :=
  match r.who with
  | .group t g region =>
    let s1 := s.modGroup t g (fun x => x.answer (s.coreNow t) r.tag region fail)
    if ((s1.group t g).map (·.asleep)).getD true then s1 else s1.modTeam t (fun x => { x with freed := true })
  | .copy die core id =>
    let k := coreKey die core
    (match fget (s.core k).copies id with
    | some c =>
      if c.paused ≠ some r.tag then s
      else if fail then s.abandonCopy k id r.va 1
      else s.modCore k (fun x => { x with copies := fset x.copies id { c with paused := none } })
    | none => s)
  | .mat die core =>
    let k := coreKey die core
    (match (s.core k).eng.queue, s.holderTeam k with
    | op :: _, some t =>
      if op.paused ≠ some r.tag then s
      else if fail then s.engineKill t.ctx (t.who 0) r.va 1 3
      else s.modEng k (fun e => { e with queue := e.queue.modify 0 (fun o => { o with paused := none }) })
    | _, _ => s)
  | .stream die id =>
    (match fget (s.die die).streams id with
    | some x =>
      if x.paused ≠ some r.tag then s
      else if fail then s.engineKill x.ctx (dieWho die) r.va 1 2
      else s.modDie die (fun d => { d with streams := fset d.streams id { x with paused := none } })
    | none => s)
  | .walk q =>
    if (s.queue q).walkTag ≠ some r.tag then s
    else s.modQueue q (fun x => { x with walkTag := none, walkFail := fail })
  | .word q =>
    if (s.queue q).wordTag ≠ some r.tag then s
    else (if fail then s.wordLost q else s.retryWord q).tidyCtx (s.queue q).qctx.toNat
  | .task id =>
    (match fget s.tasks id with
    | some x =>
      if x.paused ≠ some r.tag then s
      else if fail then s.faultTask id
      else { s with tasks := fset s.tasks id { x with paused := none } }
    | none => s)
  | .coll die =>
    s.modDie die (fun d => { d with colls := d.colls.modify 0 (fun c => if c.paused = some r.tag then c.answered fail else c) })

/-- Software writes an answer: a tag that is not outstanding is ignored and noted. -/
def State.fqAnswer (s : State) (die : Nat) (tag : Nat) (fail : Bool) : State :=
  match (s.die die).fqout.find? (fun r => decide (r.tag = tag)) with
  | none => s.modDie die (fun d => { d with badtag := true })
  | some r => (s.modDie die (fun d => { d with fqout := d.fqout.filter (fun x => decide (x.tag ≠ tag)) })).answer r fail

/-- RETRY. -/
def execAnswerRetry (die : Nat) (tag : BitVec 16) (s : State) : Host.Outcome State Fault Refusal :=
  event s (fun s => s.fqAnswer die tag.toNat false)

/-- FAIL. -/
def execAnswerFail (die : Nat) (tag : BitVec 16) (s : State) : Host.Outcome State Fault Refusal :=
  event s (fun s => s.fqAnswer die tag.toNat true)

/-! ### Registers (R181) -/

/-- A write of 1 clears BADTAG. -/
def execBadtagClear (die : Nat) (s : State) : Host.Outcome State Fault Refusal := event s (fun s => s.modDie die (fun d => { d with badtag := false }))

/-- A write of FQLOG2 and FQEN: FQLOG2 changes only while FQEN is 0, and FQEN = 1 is refused while FQBASE is misaligned. -/
def Die.fqControl (d : Die) (v : Nat) : Die :=
  let n := field v 4 1
  { d with
    fqlog2 := if !d.fqen && decide (6 ≤ n) && decide (n ≤ 12) then n else d.fqlog2,
    fqen := flag v 0 && (d.fqen || decide (d.fqbase.toNat % 4096 = 0)) }

/-- FAULT_QUEUE_ENABLE. -/
def execFaultQueueEnable (die : Nat) (value : DWord) (s : State) : Host.Outcome State Fault Refusal :=
  event s (fun s => s.modDie die (fun d => d.fqControl value.toNat))

end Sys2Proof.Machine
end

