-- ==== Sys2Proof/Machine/Walk.lean ====
section
/-!
DEFINITION. A Reeve walking its queues: task and link records, tiles, the entry of a record into the dependency table, and readiness
(R48, R49, R51, R230 to R238, R242).
-/

namespace Sys2Proof.Machine

/-! ### Reads of a walk (R231) -/

/-- What a read of a walk gives: a value, a wait for an answer or for the host, or the code of a bad record. -/
inductive Walk (α : Type)
  | ok (x : α) (s : State)
  | wait (s : State)
  | bad (code : Nat) (s : State)

def Walk.andThen {α β : Type} (r : Walk α) (h : α → State → Walk β) : Walk β :=
  match r with
  | .ok x s => h x s
  | .wait s => .wait s
  | .bad c s => .bad c s

/-- A check of a record. -/
def Walk.check (bad : Bool) (code : Nat) (s : State) : Walk Unit := if bad then .bad code s else .ok () s

/-- Read n bytes at a virtual address of a queue's context, none of them across a page: a miss pauses the walk of the queue. -/
def State.walkRead (s : State) (q : Nat) (c : Ctx) (va n : Nat) : Walk Nat :=
  let die := q / 128
  if 0x2000000000000 < va + n then .bad 9 s
  else
    match s.translate none die c va .read with
    | .ok lf =>
      (match s.engineSnoops [lf.pa] false with
      | some a => .wait a
      | none => let r := (s.fillTlb none die c va .read).engineRead (s.queue q).qctx.toNat die lf.trk lf.pa n; .ok (leNat r.1) r.2)
    | .error (.miss lv) =>
      if s.fqOn c then
        let r := s.askFault c (.walk q) ⟨va, lv, false, false, true, 0xFF, die, 0⟩
        .wait (r.2.modQueue q (fun x => { x with walkTag := some r.1 }))
      else .bad 9 s
    | .error _ => .bad 9 s

/-! ### Records (R232 to R234) -/

/-- The fields of a task record. -/
structure TaskRec where
  type    : Nat
  ins     : List Nat
  outs    : List Nat
  irq     : Bool
  payload : Nat
  /-- a fixed part of the record breaks R233 -/
  bad     : Bool
deriving DecidableEq, Repr

def recTile (x i : Nat) : Nat := field x (79 + 16 * i) (64 + 16 * i)

def taskRec (x : Nat) : TaskRec :=
  let nin := field x 7 4
  let nout := field x 9 8
  { type := field x 3 0, ins := (List.range (min nin 4)).map (recTile x), outs := (List.range (min nout 2)).map (fun i => recTile x (4 + i)),
    irq := flag x 17, payload := field x 1023 256,
    bad := decide (field x 255 160 ≠ 0) || decide (field x 63 18 ≠ 0) || decide (field x 16 10 ≠ 0) || decide (4 < nin) || decide (nout = 3) ||
      (List.range 4).any (fun i => decide (nin ≤ i) && decide (recTile x i ≠ 0)) ||
      (List.range 2).any (fun i => decide (nout ≤ i) && decide (recTile x (4 + i) ≠ 0)) ||
      (decide (nout = 2) && decide (recTile x 4 = recTile x 5)) }

/-- A tile's descriptor: ADDR and BYTES; a malformed one counts as BYTES 0 (R235). -/
def tileDesc (x : Nat) : Nat × Nat :=
  let addr := field x 63 0
  (addr, if addr % 128 ≠ 0 || decide (field x 255 96 ≠ 0) then 0 else field x 95 64)

/-- The collective descriptor in the low 64 bytes of a payload or a vault (R343). -/
def collDesc (x : Nat) : CollDesc :=
  { seq := BitVec.ofNat 64 (field x 511 448), cploff := field x 447 416, dscoff := field x 415 384, sscoff := field x 383 352,
    dstoff := field x 351 320, srcoff := field x 319 288, count := field x 287 256, cplbrec := field x 255 244, dstbrec := field x 243 232,
    srcbrec := field x 231 220, root := field x 207 192, comm := field x 191 176, ssh := BitVec.ofNat 64 (field x 95 32),
    fmt := field x 23 16, rop := field x 12 11, rmode := field x 7 6, op := field x 3 0 }

/-- Reserved bits of a collective descriptor. -/
def collReserved (x : Nat) : Bool :=
  decide (field x 219 208 ≠ 0) || decide (field x 175 96 ≠ 0) || decide (field x 31 24 ≠ 0) || decide (field x 15 13 ≠ 0) ||
  decide (field x 10 8 ≠ 0) || decide (field x 5 4 ≠ 0)

/-- The MX operands of a matrix task. -/
def mxCount (d : MxmDesc) : Nat := (if matMx d.afmt then 1 else 0) + (if matMx d.bfmt then 1 else 0)

/-- The payload of an MXM record breaks R234. -/
def mxmPayloadBad (r : TaskRec) : Bool :=
  let x := field r.payload 511 0
  let d := mxmDesc x
  let fmt := field r.payload 615 608
  d.bad x 1 1 0 || !d.zero || d.bsrc || d.cw || decide (d.role ≠ 0) || sumShapeBad (field r.payload 575 512) ||
  !(if d.cls = some true then decide (fmt = 0x05) else decide (0x10 ≤ fmt) && decide (fmt ≤ 0x14)) ||
  decide (field r.payload 623 619 ≠ 0) || decide (field r.payload 767 624 ≠ 0) || decide (r.ins.length ≠ 2 + mxCount d) ||
  decide (r.outs.length ≠ 1)

/-- The payload of a COPY record breaks R234. -/
def copyPayloadBad (r : TaskRec) : Bool :=
  let p := r.payload
  decide (field p 31 0 % 4 ≠ 0) || decide (field p 63 32 % 4 ≠ 0) || decide (field p 95 64 % 4 ≠ 0) || decide (field p 767 96 ≠ 0) ||
  decide (r.ins.length ≠ 1) || decide (r.outs.length ≠ 1)

/-- The part of a CODE payload that R48 and R49 judge without the kernel descriptor. -/
def codePayloadBad (r : TaskRec) : Bool :=
  let p := r.payload
  decide (field p 767 512 ≠ 0) || decide (field p 487 480 ≠ 0) || decide (field p 127 71 ≠ 0) || decide (field p 63 1 ≠ 0) ||
  decide (field p 447 384 % 32 ≠ 0) || decide (field p 383 320 % 8 ≠ 0) || decide (field p 319 256 % 8 ≠ 0) || decide (field p 255 192 % 8 ≠ 0) ||
  decide (field p 191 128 % 64 ≠ 0) || (flag p 0 && decide (63 < field p 70 64))

/-- The payload of a record breaks what R234 asks of its type, the kernel descriptor apart. -/
def TaskRec.payloadBad (r : TaskRec) : Bool :=
  match r.type with
  | 1 => codePayloadBad r
  | 2 => mxmPayloadBad r
  | 3 => copyPayloadBad r
  | 4 => decide (field r.payload 767 512 ≠ 0) || collReserved (field r.payload 511 0)
  | _ => decide (r.payload ≠ 0)

/-! ### Kernels (R13, R48, R49) -/

/-- A kernel descriptor breaks a range of R13 or R6. -/
def kernelBad (x : Nat) : Bool :=
  let fq := field x 127 112
  decide (field x 511 344 ≠ 0) || decide (field x 343 337 ≠ 0) || decide (field x 239 232 ≠ 0) || decide (8 < field x 231 224) ||
  decide (4094 < field x 207 192) || decide (field x 159 144 ≠ 0) || decide (256 < field x 143 128) ||
  (decide (fq ≠ 0) && decide (fq < 64)) || decide (field x 95 64 % 8 ≠ 0) || decide (field x 63 60 = 0) || decide (4 < field x 63 60) ||
  decide (field x 59 56 = 0) || decide (4 < field x 59 56) || decide (12 < field x 63 60 * field x 59 56) || decide (field x 55 53 ≠ 0) ||
  decide (field x 47 40 = 0) || decide (64 < field x 47 40) || decide (field x 39 32 = 0) || decide (16 < field x 39 32) ||
  decide (field x 31 0 % 8 ≠ 0)

/-- Preset 0 of revision 1 (R13). -/
def preset0 : DWord := 0x0000002177174174

/-- The presets of a kernel: those the loader found for its descriptor, the others preset 0; unknown ones are free values (log 1). -/
def State.presetsFor (s : State) (ctx kdesc n : Nat) : List DWord × State :=
  match s.presets.find? (fun e => decide (e.1 = ctx) && decide (e.2.1 = kdesc)) with
  | some e => ((List.range 8).map (fun i => if i < n then e.2.2.getD i preset0 else preset0), s)
  | none =>
    ((List.range 8).map (fun i => if i < n then dwordOf (Config.freeWord (s.free + 2 * i)) (Config.freeWord (s.free + 2 * i + 1)) else preset0),
     { s with free := s.free + 2 * n })

/-- The kernel of a launch: the descriptor and the payload's fields. -/
def kernelOf (x p : Nat) (ssh : List DWord) : Kernel :=
  { kdesc := field p 191 128, text := field p 255 192, rodata := field p 319 256, entry := field x 31 0,
    trapoff := if field x 191 160 = 0xFFFFFFFF then none else some (field x 191 160),
    dtoff := field x 95 64, dtlen := field x 111 96, brtab := field p 447 384, argva := field p 383 320, arglen := field p 479 448,
    nbrec := field x 207 192, gpt := field x 47 40, fpg := field x 52 48 + 1, win := 16 * field x 39 32, vbanks := field x 143 128,
    fairq := if field x 127 112 = 0 then 512 else field x 127 112, lktmo := field x 335 320, swapwait := field x 319 288, sbchk := flag x 336,
    clw := field x 59 56, clh := field x 63 60, ssh := ssh, nclus := field p 511 488 + 1,
    dx := if flag p 0 then some ((field p 70 64 + 1) * 1024) else none }

/-- System blocks of a team (R66). -/
def Kernel.nsys (k : Kernel) : Nat := (k.gpt * 69632 + 32767) / 32768

/-- Blocks of a team's run. -/
def Kernel.blocks (k : Kernel) : Nat := k.nsys + k.vbanks

/-- The cores, as columns and rows, of a cluster at an origin. -/
def Kernel.cells (k : Kernel) (x0 y0 : Nat) : List (Nat × Nat) :=
  (List.range k.clh).flatMap (fun y => (List.range k.clw).map (fun x => (x0 + x, y0 + y)))

/-- The origins at which a cluster lies in the partition's rectangle on a die, none of its cores absent, in the order of R61. -/
def State.origins (s : State) (p die : Nat) (k : Kernel) : List (Nat × Nat) :=
  ((List.range 9).flatMap (fun y => (List.range 8).map (fun x => (x, y)))).filter (fun o =>
    (k.cells o.1 o.2).all (fun c => decide (c.1 < 8) && decide (c.2 < 9) && s.inRect p die (8 * c.2 + c.1) && !s.absentCore die (8 * c.2 + c.1)))

/-- The lowest base of a window of some size, beside the windows taken (R64). -/
def winBase (used : List (Nat × Nat)) (size : Nat) : Option Nat :=
  ((List.range 32).find? (fun i => decide (16 * i + size ≤ 512) && used.all (fun u => decide (16 * i + size ≤ u.1) || decide (u.1 + u.2 ≤ 16 * i)))).map
    (16 * ·)

/-- The sub-core and window base of each group of a new team, beside the windows taken on the core: sub-core, base and size (R63, R64). -/
def Kernel.assignOn (kern : Kernel) (taken : List (Nat × Nat × Nat)) : Option (List (Nat × Nat)) :=
  let used (sub : Nat) : List (Nat × Nat) := (taken.filter (fun u => decide (u.1 = sub))).map (·.2)
  let order := (List.range 9).flatMap (fun n => (List.range 32).filter (fun sub => decide (min (used sub).length 8 = n)))
  (List.range kern.gpt).foldl (fun (acc : Option (List (Nat × Nat))) g => acc.bind (fun xs =>
    let sub := order.getD (g % 32) 0
    let u := used sub ++ (xs.filter (fun x => decide (x.1 = sub))).map (fun x => (x.2, kern.win))
    if 8 ≤ u.length then none else (winBase u kern.win).map (fun b => xs ++ [(sub, b)]))) (some [])

/-- Teams of a kernel that still fit on a core, at most n, beside the windows taken. -/
def Kernel.moreTeams (k : Kernel) : Nat → List (Nat × Nat × Nat) → Nat
  | 0, _ => 0
  | n + 1, taken =>
    match k.assignOn taken with
    | none => 0
    | some ps => 1 + k.moreTeams n (taken ++ ps.map (fun p => (p.1, p.2, k.win)))

/-- Teams of a kernel that an empty core holds: 8 at most, as their groups' windows and their runs of 256 blocks allow (R62 to R64, R329). -/
def Kernel.perCore (k : Kernel) : Nat := min (256 / k.blocks) (k.moreTeams 8 [])

/-- Clusters of a kernel placed one after another on empty cores, each at the first origin that has room: how many fit. -/
def fitClusters (k : Kernel) (os : List (Nat × Nat)) : Nat → FMap Nat → Nat
  | 0, _ => 0
  | n + 1, used =>
    match os.find? (fun o => (k.cells o.1 o.2).all (fun c => decide ((fget used (8 * c.2 + c.1)).getD 0 < k.perCore))) with
    | none => 0
    | some o => 1 + fitClusters k os n ((k.cells o.1 o.2).foldl (fun u c => fset u (8 * c.2 + c.1) ((fget u (8 * c.2 + c.1)).getD 0 + 1)) used)

/-- The partition can never hold a cluster of the kernel on the die, or never all clusters of a deterministic grid together (R49, R329). -/
def State.tooLarge (s : State) (p die : Nat) (k : Kernel) : Bool :=
  let os := s.origins p die k
  os.isEmpty || decide (256 < k.blocks) || (k.dx.isSome && decide (fitClusters k os (min k.nclus 577) [] < min k.nclus 577))

/-! ### Order and readiness (R237, R238) -/

/-- The task counts as entered before another: a deferred reader still waiting for a writer comes after every task entered. -/
def Task.before (a b : Task) : Bool := a.defer.isEmpty && (!b.defer.isEmpty || decide (a.order < b.order))

/-- The task names a tile so that later writers wait for it: not as a tile of which it is only a deferred reader. -/
def Task.names (a : Task) (t : Nat) : Bool := a.outs.contains t || (a.ins.contains t && !a.deferred.contains t)

/-- The task is ready. -/
def State.taskReady (s : State) (id : Nat) (x : Task) : Bool :=
  let part := s.part x.part
  let earlier (test : Task → Bool) : Bool := s.tasks.any (fun e => decide (e.1 ≠ id) && decide (e.2.part = x.part) && e.2.before x && test e.2)
  x.ins.all (fun t => ((fget part.tiles t).getD TileState.reset).resident && !earlier (fun y => y.outs.contains t)) &&
  x.outs.all (fun t => !earlier (fun y => y.names t))

/-- A writer has taken its place in the order: deferred readers of its tiles take theirs directly after the last of their writers, and
those that are writers in turn give theirs to others. -/
def State.placeWriter : Nat → Nat → State → State
  | 0, _, s => s
  | n + 1, id, s =>
    match fget s.tasks id with
    | none => s
    | some w =>
      if !w.defer.isEmpty then s
      else
        let mine := (s.tasks.filter (fun e => decide (e.1 ≠ id) && decide (e.2.part = w.part) && e.2.defer.any (fun t => w.outs.contains t))).map (·.1)
        mine.foldl (fun (a : State) r =>
          let b := { a with tasks := fmod a.tasks r (fun y =>
            let d := y.defer.filter (fun t => !w.outs.contains t)
            { y with defer := d, order := if d.isEmpty then w.order ++ y.order else y.order }) }
          State.placeWriter n r b) s

/-- The first writer of a tile in the order of entries that has been entered, in the running clock, from a higher queue than a deferred reader of it
(R237). -/
def State.writerAfter (s : State) (id : Nat) (t : Nat) : Option Nat :=
  match fget s.tasks id with
  | none => none
  | some y =>
    let ws := s.tasks.filter (fun e => decide (e.1 ≠ id) && decide (e.2.part = y.part) && e.2.outs.contains t && e.2.defer.isEmpty && decide (y.order < e.2.order))
    (ws.foldl (fun (m : Option (Nat × Task)) e => match m with
      | some x => if e.2.order < x.2.order then some e else some x
      | none => some e) none).map (·.1)

/-! ### Entering a record (R237) -/

/-- The record that the walker reads: the one it was reading when EN was written 0, else the one at QHEAD (R46). -/
def Queue.at_ (x : Queue) : DWord := x.last.getD x.qhead

/-- QHEAD once the walker has done with the record it reads: at the next, unless the walk has been started afresh meanwhile (R46). -/
def Queue.passTo (x : Queue) (next : DWord) : Queue := { x with qhead := if x.last.isSome && x.en then x.qhead else next, last := none }

/-- Stop the walk at a bad record (R242). -/
def State.badRecord (s : State) (q code : Nat) : State :=
  let x := s.queue q
  ((s.setQueue q { x with en := false, qerr := code, held := true, walkFail := false, qhead := x.at_, last := none }).errorRecord q x.at_.toNat code
    x.seq).tidyCtx x.qctx.toNat

/-- Read the descriptors of some tiles of a queue's partition. -/
def State.readTiles (s : State) (q : Nat) (c : Ctx) (p : Partition) (ts : List Nat) : Walk (List (Nat × Nat)) :=
  ts.foldl (fun (r : Walk (List (Nat × Nat))) t => r.andThen (fun ds s =>
    (Walk.check (decide (p.ttlen ≤ t)) 6 s).andThen (fun _ s =>
      (s.walkRead q c (p.ttbase.toNat + 32 * t) 32).andThen (fun x s =>
        (Walk.check (decide ((tileDesc x).2 = 0)) 6 s).andThen (fun _ s => .ok (ds ++ [tileDesc x]) s))))) (.ok [] s)

/-- The kernel of a CODE record; none for a record of another type (R49). -/
def State.readKernel (s : State) (q : Nat) (c : Ctx) (p : Nat) (r : TaskRec) : Walk (Option Kernel) :=
  if r.type ≠ 1 then .ok none s
  else
    (s.walkRead q c (field r.payload 191 128) 64).andThen (fun x s =>
      (Walk.check (kernelBad x) 6 s).andThen (fun _ s =>
        let ps := s.presetsFor (s.queue q).qctx.toNat (field r.payload 191 128) (field x 231 224)
        let k := kernelOf x r.payload ps.1
        (Walk.check (ps.2.tooLarge p (q / 128) k) 6 ps.2).andThen (fun _ s => .ok (some k) s)))

/-- The communicator entry of a COLL record (R231); 0 where it names none of the table. -/
def State.readComm (s : State) (q : Nat) (c : Ctx) (p : Partition) (r : TaskRec) : Walk Nat :=
  let comm := (collDesc r.payload).comm
  if r.type ≠ 4 || decide (p.cmlen ≤ comm) then .ok 0 s else s.walkRead q c (p.cmbase.toNat + 32 * comm) 32

/-- Enter a record that has passed every check. -/
def State.enterTask (s : State) (q word : Nat) (r : TaskRec) (tin tout : List (Nat × Nat)) (k : Option Kernel) (comm : Nat) : State :=
  let x := s.queue q
  let f := s.fresh
  let tiles := (s.part x.part).tiles
  let tile (t : Nat) : TileState := (fget tiles t).getD TileState.reset
  let mine : List Nat := [s.now, q, x.seq.toNat]
  let earlier (t : Nat) : Bool := s.tasks.any (fun e => decide (e.2.part = x.part) && e.2.outs.contains t && e.2.defer.isEmpty && decide (e.2.order < mine))
  let empty := (r.ins.filter (fun t => !(tile t).resident && !earlier t)).eraseDups
  let y : Task :=
    { die := q / 128, queue := q, ctx := x.qctx.toNat, part := x.part, seq := x.seq, addr := x.at_.toNat, bytes := leBytes 128 word, type := r.type,
      ins := r.ins, outs := r.outs, tins := tin, touts := tout, irq := r.irq, entered := s.now, order := mine, deferred := empty, defer := empty,
      state := .entered, prio := x.prio, core := none, run := none, grid := none, kern := k, comm := comm, paused := none }
  let s1 := { f.2 with tasks := fset f.2.tasks f.1 y }
  let s2 := s1.modPart x.part (fun p => { p with tiles := r.outs.foldl (fun m t =>
    fset m t { (fget m t).getD TileState.reset with writers := ((fget m t).getD TileState.reset).writers + 1 }) p.tiles })
  let s3 := s2.setQueue q { x.passTo (x.at_ + 128) with seq := x.seq + 1, ahead := x.ahead - 1 }
  (empty.filterMap (s3.writerAfter f.1)).foldl (fun (a : State) w => a.placeWriter 4096 w) (s3.placeWriter 4096 f.1)

/-- The walker of a queue may read: firmware runs, the queue is enabled and not paused, in a partition that is not stopped, and QTAIL lies
ahead (R47, R58, R392); or it has still to finish the record it was reading when EN was written 0 (R46). -/
def State.walks (s : State) (q : Nat) : Bool :=
  let x := s.queue q
  decide (s.boot.stat = 2) && x.walkTag.isNone && !(s.part x.part).stopped && (x.last.isSome || (x.en && decide (x.qhead ≠ x.qtail)))

/-- The slot of the record that the walker reads. -/
def Queue.slot (x : Queue) : Nat := x.at_.toNat / 128 % 32

/-- Tasks in a die's dependency table. -/
def State.tableUse (s : State) (die : Nat) : Nat := (s.tasks.filter (fun e => decide (e.2.die = die))).length

/-- The walker reads a task record and enters it, or stops at it (R233, R237, R242). -/
def execWalkRecord (q : Nat) (s : State) : Host.Outcome State Fault Refusal :=
  event s (fun s =>
    let x := s.queue q
    match fget s.ctxs x.qctx.toNat with
    | none => s
    | some c =>
      if !s.walks q || decide (x.slot = 31) || decide (256 ≤ q) || decide (4096 ≤ s.tableUse (q / 128)) then s
      else if x.walkFail then s.badRecord q 9
      else
        let p := s.part x.part
        let out : Walk State :=
          (s.walkRead q c x.at_.toNat 128).andThen (fun word s =>
            let r := taskRec word
            (Walk.check (decide (r.type = 0) || decide (6 ≤ r.type)) 5 s).andThen (fun _ s =>
              (Walk.check (r.bad || r.payloadBad) 6 s).andThen (fun _ s =>
                (s.readTiles q c p r.ins).andThen (fun tin s =>
                  (s.readTiles q c p r.outs).andThen (fun tout s =>
                    (s.readKernel q c x.part r).andThen (fun k s =>
                      (s.readComm q c p r).andThen (fun comm s => .ok (s.enterTask q word r tin tout k comm) s)))))))
        match out with
        | .ok t _ => t
        | .wait t => t
        | .bad code t => t.badRecord q code)

/-- The walker reads the link record at slot 31 and goes on at its NEXT, or stops at it (R231, R233). -/
def execLinkFollow (q : Nat) (s : State) : Host.Outcome State Fault Refusal :=
  event s (fun s =>
    let x := s.queue q
    match fget s.ctxs x.qctx.toNat with
    | none => s
    | some c =>
      if !s.walks q || decide (x.slot ≠ 31) || decide (256 ≤ q) then s
      else if x.walkFail then s.badRecord q 9
      else
        let out : Walk Nat :=
          (s.walkRead q c x.at_.toNat 128).andThen (fun word s =>
            let ty := field word 3 0
            (Walk.check (decide (ty = 0) || (decide (6 ≤ ty) && decide (ty ≠ 15))) 5 s).andThen (fun _ s =>
              (Walk.check (decide (ty ≠ 15)) 7 s).andThen (fun _ s =>
                (Walk.check (decide (field word 63 4 ≠ 0) || decide (field word 1023 128 ≠ 0) || decide (field word 127 64 % 4096 ≠ 0)) 8 s).andThen
                  (fun _ s => .ok (field word 127 64) s))))
        match out with
        | .ok next t => (t.modQueue q (fun y => y.passTo (BitVec.ofNat 64 next))).tidyCtx x.qctx.toNat
        | .wait t => t
        | .bad code t => t.badRecord q code)

end Sys2Proof.Machine
end

