-- ==== Sys2Proof/Machine/Place.lean ====
section
/-!
DEFINITION. Placing clusters on cores: room for a team, the order of placements, lending and reclaim, and the decisions that make room
(R50 to R52, R59 to R72, R363).
-/

namespace Sys2Proof.Machine

/-! ### Room on a core (R62 to R64, R66, R71) -/

/-- The team stands on its core. -/
def Team.occupies (t : Team) : Bool :=
  match t.status with
  | .resident => true | .saving .. => true | .halted => true
  | _ => false

/-- What a question of room leaves out of account: teams that are to go, blocks being cleared; and who asks, for whom blocks have been
reclaimed. `ready` counts only blocks that need no reclaim. -/
structure Room where
  me    : Nat
  gone  : List Nat
  soon  : Bool
  ready : Bool
deriving DecidableEq, Repr

/-- The room there is now. -/
def Room.now (me : Nat) : Room := ⟨me, [], false, false⟩

/-- The teams on a core. -/
def State.onCore (s : State) (r : Room) (k : Nat) : List Team :=
  (s.teams.filter (fun e => decide (e.2.key = k) && e.2.occupies && !r.gone.contains e.1)).map (·.2)

/-- A block can be taken. -/
def State.blockFree (s : State) (r : Room) (k b : Nat) : Bool :=
  match fget (s.core k).blocks b with
  | none => !r.ready || !s.lendsAt k
  | some .clearing => r.soon
  | some (.owned t) => r.gone.contains t
  | some (.task _) => false
  | some (.reclaim id done) => decide (id = r.me) && (done || !r.ready)

/-- The lowest run of n blocks that can be taken. -/
def State.firstRun (s : State) (r : Room) (k n : Nat) : Option Nat :=
  (List.range (257 - n)).find? (fun a => (List.range n).all (fun i => s.blockFree r k (a + i)))

/-- The run of a placement: the lowest that needs no reclaim, else the lowest of free or lent blocks (R71). -/
def State.findRun (s : State) (r : Room) (k n : Nat) : Option Nat := (s.firstRun { r with ready := true } k n).or (s.firstRun r k n)

/-- The sub-core and window base of each group of a new team (R63, R64). -/
def State.assign (s : State) (r : Room) (k : Nat) (kern : Kernel) : Option (List (Nat × Nat)) :=
  kern.assignOn ((s.onCore r k).flatMap (fun t => t.groups.map (fun g => (g.subcore, g.wbase, t.kern.win))))

/-- The core's column is to be repaired, and its row does not lie north of the dead core (R391). -/
def State.underRepair (s : State) (k : Nat) : Bool :=
  s.repair.any (fun r => decide (r.1 = k / 72) && decide (r.2.1 = k % 72 % 8) && decide (s.rowOf r.1 r.2.1 r.2.2 ≤ k % 72 / 8))

/-- The team test: the groups' places and the run of a new team (R62). -/
def State.teamFits (s : State) (r : Room) (k : Nat) (kern : Kernel) : Option (List (Nat × Nat) × Nat) :=
  if decide (8 ≤ (s.onCore r k).length) || s.underRepair k then none
  else match s.assign r k kern, s.findRun r k kern.blocks with
    | some a, some b => some (a, b)
    | _, _ => none

/-- Every one of some results, or none. -/
def allSome {β γ : Type} (h : β → Option γ) : List β → Option (List γ)
  | [] => some []
  | x :: xs => match h x, allSome h xs with
    | some y, some ys => some (y :: ys)
    | _, _ => none

/-- The first origin with room, and each member's core and places (R61). -/
def State.clusterFit (s : State) (r : Room) (p die : Nat) (kern : Kernel) : Option (List (Nat × List (Nat × Nat) × Nat)) :=
  (s.origins p die kern).findSome? (fun o =>
    allSome (fun (c : Nat × Nat) => (s.teamFits r (coreKey die (8 * c.2 + c.1)) kern).map (fun f => (8 * c.2 + c.1, f))) (kern.cells o.1 o.2))

/-! ### Putting a cluster in its place (R6, R61, R64, R66) -/

/-- Handles for n new groups: the lowest not in use. -/
def State.freeGrefs (s : State) (n : Nat) : List Nat :=
  let used := s.teams.flatMap (fun e => e.2.groups.map (·.gref))
  ((List.range (used.length + n)).filter (fun g => !used.contains g)).take n

/-- A group at its first issue: fibres in its lowest home lanes, every register zero, one path at the kernel's entry. -/
def Kernel.newGroup (kern : Kernel) (now : Nat) (place : Nat × Nat) (gref : Nat) : Group :=
  let fresh : Fibre := { Fibre.reset with live := true, regs := List.replicate kern.win 0, regs0 := List.replicate kern.win 0 }
  { fibres := (List.range 32).map (fun l => if l < kern.fpg then fresh else { fresh with live := false }),
    subcore := place.1, wbase := place.2, gref := gref,
    paths := [⟨BitVec.ofNat 49 (kern.text + kern.entry), 0, 0, laneSet (List.range kern.fpg), .ready⟩],
    timer := 0, due := none, readyAt := now, skip := false, sb := List.replicate 8 0, bundle := 0, remap := List.range 32, event := none, held := [],
    lwait := none, asleep := false, tags := [], failed := [], dxbuf := [], dxgone := 0, dxran := false }

/-- Put a team of a grid on a core; a grid's first team on a core finds no fetched words kept. The start of its task is an acquire there (R260). -/
def State.putTeam (s : State) (gid : Nat) (g : Grid) (teamid core : Nat) (places : List (Nat × Nat)) (run0 : Nat) : State × Nat :=
  let q := s.fresh
  let grefs := s.freeGrefs places.length
  let k := coreKey g.die core
  let t : Team :=
    { grid := gid, ctx := g.ctx, part := g.part, clusid := g.next, teamid := teamid, die := g.die, core := core, prio := g.prio.getD 31,
      placed := q.1, kern := g.kern,
      groups := (List.range places.length).map (fun i => g.kern.newGroup (s.coreClock g.part) (places.getD i (0, 0)) (grefs.getD i 0)),
      bars := List.replicate 16 Barrier.reset, ssh := g.kern.ssh, swamp := [0, 0, 0, 0], mflt := 0, issued := 0, doneT := 0, run0 := run0,
      nsys := g.kern.nsys, status := .resident, blocked := none, defer := none, mat := none, why := none, full := [], freed := false }
  let fresh := !(s.teams.any (fun e => decide (e.2.grid = gid) && decide (e.2.key = k)))
  let s1 := { q.2 with teams := fset q.2.teams q.1 t }
  let s2 := s1.modCore k (fun c => { c with
    blocks := (List.range g.kern.blocks).foldl (fun b i => fset b (run0 + i) (.owned q.1)) c.blocks,
    l0 := if fresh then [] else c.l0 })
  ((s2.wake k).acquire k true, q.1)

/-- Place the next cluster of a grid, where there is room; blocks of its runs that are still lent are given back. -/
def State.placeNext (s : State) (gid : Nat) (r : Room) : Option (State × List (Nat × Nat)) :=
  match fget s.grids gid with
  | none => none
  | some g =>
    match s.clusterFit r g.part g.die g.kern with
    | none => none
    | some fits =>
      let lent := fits.flatMap (fun f =>
        let k := coreKey g.die f.1
        ((List.range g.kern.blocks).map (fun i => (k, f.2.2 + i))).filter (fun b => !s.blockFree { r with ready := true } k b.2))
      let put := (List.range fits.length).foldl (fun (a : State × List Nat) i =>
        let f := fits.getD i (0, [], 0)
        let q := a.1.putTeam gid g i f.1 f.2.1 f.2.2
        (q.1, a.2 ++ [q.2])) (s, [])
      some ({ put.1 with
        clusters := put.1.clusters ++ [⟨gid, g.next, put.2, put.2.length, List.replicate 4 Barrier.reset⟩],
        grids := fset put.1.grids gid { g with next := g.next + 1 } }, lent)

/-- Place n clusters of a grid, one after another. -/
def State.placeLoop (gid : Nat) (r : Room) : Nat → State × List (Nat × Nat) → Option (State × List (Nat × Nat))
  | 0, x => some x
  | n + 1, x =>
    match x.1.placeNext gid r with
    | none => none
    | some y => State.placeLoop gid r n (y.1, x.2 ++ y.2)

/-! ### Tasks that place clusters (R50, R51, R61, R329) -/

/-- The task's context lives. -/
def State.ctxLives (s : State) (ctx : Nat) : Bool := match fget s.ctxs ctx with | some c => c.killed.isNone | none => false

/-- A CODE task has a cluster to place: it is ready, or started with clusters left. -/
def State.wantsPlace (s : State) (id : Nat) (x : Task) : Bool :=
  decide (x.type = 1) && x.kern.isSome && s.ctxLives x.ctx && !(s.part x.part).stopped &&
  (match x.state with
  | .entered => s.taskReady id x
  | .started => (match x.grid.bind (fget s.grids) with | some g => decide (g.next < g.kern.nclus) | none => false)
  | .faulted => false)

/-- The priority with which a task competes: its stored one, or its queue's as it stands. -/
def State.taskPrio (s : State) (x : Task) : Nat := if x.state = .started then x.prio else (s.queue x.queue).prio

/-- The place of a task in the order of entries: clock, queue, number in the queue (R51, R237). -/
def Task.entry (x : Task) : List Nat := [x.entered, x.queue, x.seq.toNat]

/-- The place of a task in the order of R51. -/
def State.rankOf (s : State) (x : Task) : List Nat := s.taskPrio x :: x.entry

/-- The L2 of the task's die is filled with its inputs (R236). -/
def State.fillTiles (s : State) (x : Task) : State :=
  s.modPart x.part (fun p => { p with tiles := x.ins.foldl (fun m t =>
    fset m t { (fget m t).getD TileState.reset with level2 := true, place := x.die }) p.tiles })

/-- The grid of a CODE task, opened with the priority read now when its first cluster is placed. -/
def State.openGrid (s : State) (id : Nat) (x : Task) : Nat × State :=
  match x.grid, x.kern with
  | some gid, _ => (gid, s)
  | none, some k =>
    let q := s.fresh
    let p := (s.queue x.queue).prio
    let g : Grid :=
      { task := id, ctx := x.ctx, part := x.part, queue := x.queue, die := x.die, prio := some p, kern := k, next := 0, retired := 0, commits := 0,
        dxops := [], applied := false, todo := [], safe := false }
    (q.1, State.fillTiles { q.2 with grids := fset q.2.grids q.1 g, tasks := fset q.2.tasks id { x with state := .started, prio := p, grid := some q.1 } } x)
  | none, none => (0, s)

/-- Place what a task places together: its next cluster, or every cluster of a deterministic grid. -/
def State.tryPlace (s : State) (id : Nat) (x : Task) (r : Room) : Option (State × List (Nat × Nat)) :=
  let q := s.openGrid id x
  State.placeLoop q.1 r (match x.kern with | some k => if k.dx.isSome then k.nclus else 1 | none => 1) (q.2, [])

/-- Blocks of a die claimed for some task, and whether each has been reclaimed. -/
def State.claims (s : State) (die : Nat) : List (Nat × Bool) :=
  (s.cores.filter (fun e => decide (e.1 / 72 = die))).flatMap (fun e =>
    e.2.blocks.filterMap (fun b => match b.2 with | .reclaim i d => some (i, d) | _ => none))

/-! ### Blocked teams (R363) -/

/-- A live fibre that waits, parks or sleeps at a synchronisation object (R159, R198, R363). -/
def Group.blockedLane (g : Group) (l : Nat) : Bool :=
  (match g.fibres[l]? with | some f => f.wait.isSome | none => false) || g.asleep ||
  g.paths.any (fun p => p.lanes.getLsbD l && (match p.kind with | .parked .. => true | _ => false))

/-- Every live fibre of the team is blocked (R363). -/
def Team.allBlocked (t : Team) : Bool :=
  t.groups.any (fun g => g.fibres.any (·.live)) &&
  t.groups.all (fun g => (List.range g.fibres.length).all (fun l =>
    !(match g.fibres[l]? with | some f => f.live | none => false) || g.blockedLane l))

/-! ### Saved teams that wait for room (R72, R202, R367) -/

/-- A saved team meets every condition of a restore but a free engine. -/
def State.roomBack (s : State) (tid : Nat) (t : Team) : Bool :=
  (match t.status with
  | .saved _ _ _ swap => !swap || t.freed
  | _ => false) &&
  !(s.part t.part).stopped && !s.absentCore t.die t.core && (s.teamFits (Room.now tid) t.key t.kern).isSome

/-- The engine of a saved team's core is free for it. -/
def State.engineBack (s : State) (tid : Nat) (t : Team) : Bool :=
  t.mat.isNone || ((s.core t.key).eng.holder.isNone && (match (s.core t.key).eng.reserved with | some x => decide (x = tid) | none => true))

/-- A saved team of a partition goes ahead of new placements of a priority. -/
def State.savedAhead (s : State) (part die prio : Nat) : Bool :=
  s.teams.any (fun e => decide (e.2.part = part) && decide (e.2.die = die) && decide (e.2.prio ≤ prio) && s.roomBack e.1 e.2 && s.engineBack e.1 e.2)

/-! ### CLUSTER_PLACE (R61) -/

/-- Mark lent blocks as being reclaimed for a task. -/
def State.claimBlocks (s : State) (id : Nat) (bs : List (Nat × Nat)) : State :=
  bs.foldl (fun (a : State) b => a.modCore b.1 (fun c => { c with blocks := fset c.blocks b.2 (.reclaim id false) })) s

/-- Another task of the partition goes first and has room. -/
def State.placedBefore (s : State) (id : Nat) (x : Task) : Bool :=
  s.tasks.any (fun e => decide (e.1 ≠ id) && decide (e.2.die = x.die) && decide (e.2.part = x.part) && s.wantsPlace e.1 e.2 &&
    decide (s.rankOf e.2 < s.rankOf x) && (s.tryPlace e.1 e.2 (Room.now e.1)).isSome)

/-- A task's next cluster is placed, or lent blocks of its runs begin to be reclaimed. -/
def execClusterPlace (task : Nat) (s : State) : Host.Outcome State Fault Refusal :=
  event s (fun s =>
    match fget s.tasks task with
    | none => s
    | some x =>
      if !s.wantsPlace task x then s
      else
        let cl := s.claims x.die
        let mine := cl.filter (fun c => decide (c.1 = task))
        if cl.any (fun c => decide (c.1 ≠ task)) || mine.any (fun c => !c.2) then s
        else if mine.isEmpty && (s.placedBefore task x || s.savedAhead x.part x.die (s.taskPrio x)) then s
        else
          match s.tryPlace task x { Room.now task with ready := !mine.isEmpty } with
          | none => s.unclaim task
          | some (t, lent) => if lent.isEmpty then t.unclaim task else s.claimBlocks task lent)

/-! ### Reclaim and clearing (R68, R70, R71) -/

/-- Lines of a core beyond its L1 and the blocks still lent to it are written back and dropped: those filled or stored to longest ago (R71; log 44). -/
def State.shrink (s : State) (k : Nat) : State :=
  ((s.core k).l1.drop (s.l1Room k)).foldl (fun (a : State) x =>
    match x.obj with
    | some (id, _) => if (a.core k).pins.contains x.line then a else a.dropTracked k id x.line
    | none => a.evictLine k x.line) s

/-- Every lent block under reclaim on a core is written back, invalidated and cleared. -/
def execReclaimComplete (die core : Nat) (s : State) : Host.Outcome State Fault Refusal :=
  event s (fun s =>
    let k := coreKey die core
    if (s.core k).blocks.any (fun b => match b.2 with | .reclaim _ d => !d | _ => false) then
      (s.shrink k).modCore k (fun c => { c with blocks := c.blocks.map (fun (b : Nat × BlockState) =>
        (b.1, match b.2 with | .reclaim i _ => .reclaim i true | x => x)) })
    else s)

/-- A block being cleared reads zero and is free. -/
def execBlockClearDone (die core block : Nat) (s : State) : Host.Outcome State Fault Refusal :=
  event s (fun s =>
    let k := coreKey die core
    match fget (s.core k).blocks block with
    | some .clearing => s.modCore k (fun c => { c with vault := memZero c.vault (32768 * block) 32768, blocks := fdel c.blocks block })
    | _ => s)

/-! ### The needs of tasks of other types (R52, R239) -/

/-- Tasks of a type that run on a core. -/
def State.taskOn (s : State) (die core type : Nat) : Bool :=
  s.tasks.any (fun e => decide (e.2.die = die) && decide (e.2.core = some (coreKey die core)) && decide (e.2.type = type) && decide (e.2.state = .started))

/-- The cores of a partition's rectangle on a die, in ascending CORE, absent ones apart. -/
def State.coresOf (s : State) (p die : Nat) : List Nat := (List.range 72).filter (fun c => s.inRect p die c && !s.absentCore die c)

/-- The matrix task's vault blocks: the highest byte that its spans reach. -/
def MxmDesc.taskBlocks (d : MxmDesc) : Nat := (((d.spans ⟨0, d.m, 0, d.n, 0⟩).map (·.2)).foldl max 0 + 32767) / 32768

/-- The descriptor of a matrix task. -/
def Task.mxm (x : Task) : MxmDesc := mxmDesc (field (leNat x.bytes) 767 256)

/-- The lowest core whose matrix engine is free for a task of the Reeve, with room for its run (R202, R239). -/
def State.mxmCore (s : State) (r : Room) (x : Task) : Option (Nat × Nat) :=
  (s.coresOf x.part x.die).findSome? (fun c =>
    let k := coreKey x.die c
    let e := (s.core k).eng
    let open_ := match e.holder with | none => true | some (.team t) => r.gone.contains t | some _ => false
    if open_ && e.reserved.isNone then (s.findRun r k (max 1 x.mxm.taskBlocks)).map (fun b => (c, b)) else none)

/-- The lowest core whose Sluice has no copy queued. -/
def State.copyCore (s : State) (r : Room) (x : Task) : Option Nat :=
  (s.coresOf x.part x.die).find? (fun c =>
    (s.core (coreKey x.die c)).copies.all (fun e => r.gone.contains e.2.team) && !s.taskOn x.die c 3)

/-- The need of a task is met. -/
def State.needMet (s : State) (id : Nat) (x : Task) (r : Room) : Bool :=
  match x.type with
  | 1 => (s.tryPlace id x r).isSome
  | 2 => (s.mxmCore r x).isSome
  | 3 => (s.copyCore r x).isSome
  | 4 => decide ((s.die x.die).colls.length < 16)
  | _ => true

/-- A task waits to be placed or distributed. -/
def State.waitsEngine (s : State) (id : Nat) (x : Task) : Bool :=
  if x.type = 1 then s.wantsPlace id x
  else decide (x.state = .entered) && s.ctxLives x.ctx && !(s.part x.part).stopped && s.taskReady id x

/-! ### PREEMPT_DECISION and SWAPWAIT_EXPIRY (R52, R300, R363) -/

/-- A team begins to be saved, for a decision where one asks for it; its save is deferred while it holds locks. -/
def State.beginSave (s : State) (swap stop : Bool) (why : Option (Nat × Nat)) (tid : Nat) : State :=
  s.modTeam tid (fun t =>
    let most := (s.part t.part).holdmax.toNat
    { t with status := .saving swap stop, why := why, freed := false,
             defer := if t.groups.any (fun g => !g.held.isEmpty) && decide (most ≠ 0) then some (s.now, most) else none })

/-- The victims come in the order of preference: the greatest stored priority, then the most recently distributed, a grid being distributed, and named,
as its first cluster is placed (R50, R52); of one grid, the most recently placed (log 44). -/
def preferred (a b : Nat × Team) : Bool := decide ([b.2.prio, b.2.grid, b.2.placed] < [a.2.prio, a.2.grid, a.2.placed])

/-- Insert in order of preference. -/
def insertVictim (x : Nat × Team) : List (Nat × Team) → List (Nat × Team)
  | [] => [x]
  | y :: ys => if preferred y x then y :: insertVictim x ys else x :: y :: ys

/-- The teams saved together with a victim: every team of a deterministic grid (R337). -/
def State.savedWith (s : State) (e : Nat × Team) : List Nat :=
  if e.2.kern.dx.isSome then
    (s.teams.filter (fun o => decide (o.2.grid = e.2.grid) && decide (o.2.status = .resident))).map (·.1)
  else [e.1]

/-- The decision that a task's need stands for: each later cluster of a CODE task is a new one (R52). -/
def State.decision (s : State) (id : Nat) (x : Task) : Nat × Nat := (id, ((x.grid.bind (fget s.grids)).map (·.next)).getD 0)

/-- The candidates of a decision, in order of preference: none that was to be saved for it and found no room in the save pool (R364). -/
def State.candidates (s : State) (id : Nat) (x : Task) (prio : Nat) : List (List Nat) :=
  let ts := s.teams.filter (fun e => decide (e.2.part = x.part) && decide (e.2.die = x.die) && decide (e.2.status = .resident) && !e.2.full.contains (s.decision id x) &&
    decide (prio < e.2.prio))
  ((ts.foldl (fun (r : List (Nat × Team)) e => insertVictim e r) []).map (fun e => s.savedWith e)).eraseDups

/-- The shortest prefix of the candidates with which the need is met. -/
def shortest (met : List (List Nat) → Bool) : List (List Nat) → List (List Nat) → Option (List (List Nat))
  | taken, [] => if met taken then some taken else none
  | taken, c :: cs => if met taken then some taken else shortest met (taken ++ [c]) cs

/-- Drop, from the least preferred, each without which the need is still met. -/
def prune (met : List (List Nat) → Bool) (vs : List (List Nat)) : List (List Nat) :=
  vs.reverse.foldl (fun (keep : List (List Nat)) v => if met (keep.filter (fun c => decide (c ≠ v))) then keep.filter (fun c => decide (c ≠ v)) else keep) vs

/-- A ready task that finds no engine pre-empts work of greater stored priority number. -/
def execPreemptDecision (task : Nat) (s : State) : Host.Outcome State Fault Refusal :=
  event s (fun s =>
    match fget s.tasks task with
    | none => s
    | some x =>
      if !s.waitsEngine task x then s
      else
        let going := (s.teams.filter (fun e => match e.2.status with | .saving .. => true | _ => false)).map (·.1)
        let met (vs : List (List Nat)) : Bool := s.needMet task x ⟨task, going ++ vs.flatMap id, true, false⟩
        if s.needMet task x (Room.now task) || met [] then s
        else
          match shortest met [] (s.candidates task x (s.taskPrio x)) with
          | none => s
          | some vs => (prune met vs).foldl (fun (a : State) v => v.foldl (fun (b : State) t => b.beginSave false false (some (s.decision task x)) t) a) s)

/-- A placement of the team's partition waits for room on its core. -/
def State.placementWaits (s : State) (t : Team) : Bool :=
  s.tasks.any (fun e => decide (e.2.part = t.part) && decide (e.2.die = t.die) && s.wantsPlace e.1 e.2 &&
    (match e.2.kern with
    | some k => (s.origins t.part t.die k).any (fun o => (k.cells o.1 o.2).contains (t.core % 8, t.core / 8))
    | none => false) &&
    (s.tryPlace e.1 e.2 (Room.now e.1)).isNone)

/-- Every live fibre of a team has been blocked for SWAPWAIT × 1,024 clocks, and a placement waits for its core: it is swapped out. -/
def execSwapwaitExpiry (team : Nat) (s : State) : Host.Outcome State Fault Refusal :=
  event s (fun s =>
    match s.team team with
    | none => s
    | some t =>
      let due := match t.blocked with | some c => decide (c + 1024 * t.kern.swapwait ≤ s.coreClock t.part) | none => false
      if t.status = .resident && decide (t.kern.swapwait ≠ 0) && due && t.allBlocked && s.placementWaits t then
        (s.savedWith (team, t)).foldl (fun (a : State) o => a.beginSave true false none o) s
      else s)

end Sys2Proof.Machine
end

