-- ==== Sys2Proof/Machine/Save.lean ====
section
/-!
DEFINITION. Saving, restoring and retiring teams (R58, R109, R285, R289, R337, R363 to R368).
-/

namespace Sys2Proof.Machine

/-! ### The save image (R365, R366) -/

/-- Where the sections of a save image begin, and its size. -/
structure ImageMap where
  regs   : Nat
  bars   : Nat
  matrix : Nat
  vault  : Nat
  units  : Nat
deriving DecidableEq, Repr

/-- The layout of a kernel's image; `mat` when the team holds the engine. -/
def Kernel.image (k : Kernel) (mat : Bool) : ImageMap :=
  let regs := 4096 + k.gpt * 6144
  let bars := regs + k.gpt * 32 * k.win * 4
  let matrix := bars + 1024
  let vault := (matrix + (if mat then 262144 else 4096) + 32767) / 32768 * 32768
  ⟨regs, bars, matrix, vault, (vault + k.blocks * 32768 + 65535) / 65536⟩

/-- The header, its check apart. -/
def Team.header (t : Team) (units : Nat) : List Byte :=
  leBytes 4 0x53564145 ++ leBytes 4 units ++ leBytes 8 t.kern.kdesc ++ leBytes 4 t.clusid ++ leBytes 1 t.teamid ++ leBytes 1 t.core ++ leBytes 1 t.die

/-- The registers section: the window of each group, lane by lane. -/
def Team.regBytes (t : Team) : List Byte :=
  t.groups.flatMap (fun g => g.fibres.flatMap (fun f => (List.range t.kern.win).flatMap (fun r => leBytes 4 (f.regs.getD r 0).toNat)))

/-- A bank as 128 × 160 values of 6 bytes. -/
def Bank.imageBytes (b : Bank) : List Byte := (List.range 20480).flatMap (fun i => leBytes 6 ((fget b.elems i).getD b.base).toNat)

/-- Bytes of a section whose inner layout the spec does not give. -/
def openBytes (key off n : Nat) : List Byte := (List.range n).map (fun i => Config.saveByte key (off + i))

/-- The bytes of a team's run, by offset in the run. -/
def State.runCells (s : State) (t : Team) : List (Nat × Byte) :=
  let base := 32768 * t.run0
  ((s.core t.key).vault.filter (fun c => decide (base ≤ c.1) && decide (c.1 < base + 32768 * t.kern.blocks))).map (fun c => (c.1 - base, c.2))

/-- The nonzero bytes of an image in memory, by offset, its check apart. -/
def State.imageCells (s : State) (addr units : Nat) : List (Nat × Byte) :=
  ((s.mem.filter (fun c => decide (addr ≤ c.1) && decide (c.1 < addr + 65536 * units))).map (fun c => (c.1 - addr, c.2))).filter
    (fun c => !(decide (24 ≤ c.1) && decide (c.1 < 32)))

/-- Write a team's image at an address: the address's check comes back. -/
def State.writeImage (s : State) (t : Team) (eng : Option Engine) (key addr : Nat) : State × DWord :=
  let m := t.kern.image eng.isSome
  let s1 := { s with mem := memZero s.mem addr (65536 * m.units) }
  let banks := match eng with | some e => e.ab0.imageBytes ++ e.ab1.imageBytes | none => []
  let after := m.matrix + banks.length
  let parts : List (Nat × List Byte) := [(addr, t.header m.units), (addr + 4096, openBytes key 4096 (m.regs - 4096)), (addr + m.regs, t.regBytes),
    (addr + m.bars, openBytes key m.bars 1024), (addr + m.matrix, banks), (addr + after, openBytes key after (m.matrix + (if eng.isSome then 262144 else 4096) - after))]
  let s2 := s1.homeWrites ((runsIn 128 (parts.flatMap (fun p => bytesAt p.1 p.2) ++ (s.runCells t).map (fun c => (addr + m.vault + c.1, c.2)))).map (fun r => [r]))
  let check := Config.saveCheck (65536 * m.units) (s2.imageCells addr m.units)
  (s2.homeWrite (addr + 24) (leBytes 8 check.toNat), check)

/-- The lowest run of units of a save pool that fits (R365). -/
def Ctx.poolRun (c : Ctx) (units : Nat) : Option Nat :=
  let starts := 0 :: c.saves.map (fun r => r.1 + r.2)
  let fits (a : Nat) : Bool := decide (a + units ≤ c.savelen) && c.saves.all (fun r => decide (a + units ≤ r.1) || decide (r.1 + r.2 ≤ a))
  (starts.filter fits).foldl (fun (m : Option Nat) a => some (match m with | some b => min a b | none => a)) none

/-! ### What a team waits for at its own vault (R198, R285) -/

/-- Fibres that wait at a barrier in a run follow the run to another place. -/
def State.moveWaits (s : State) (k base n k2 base2 : Nat) : State :=
  { s with teams := s.teams.map (fun (e : Nat × Team) => (e.1, { e.2 with groups := e.2.groups.map (fun g => { g with fibres := g.fibres.map (fun f =>
      match f.wait with
      | some (.tbar c a ph op) =>
        if c = k && decide (base ≤ a) && decide (a < base + n) then { f with wait := some (.tbar k2 (base2 + (a - base)) ph op) } else f
      | _ => f) }) })) }

/-- The place that stands for a saved team's run: no core has it. -/
def savedKey (tid : Nat) : Nat := 145 + tid

/-! ### TEAM_SAVE (R363, R364) -/

/-- A deterministic grid whose teams are all resident again goes on with its next quantum (R337). -/
def State.settleSafe (s : State) (gid : Nat) : State :=
  if s.teams.any (fun e => decide (e.2.grid = gid) && (match e.2.status with | .saving .. => true | .saved .. => true | _ => false)) then s
  else { s with grids := fmod s.grids gid (fun g => { g with safe := false }) }

/-- A request of the team waits at a part of an object. -/
def State.partWaits (s : State) (tid : Nat) : Bool :=
  s.slices.any (fun e => e.2.parts.any (fun p =>
    (p.2.queue ++ (match p.2.second with | some x => [x.2] | none => [])).any (fun rq => match rq.kind with
      | .ld t .. => decide (t = tid)
      | .st t .. => decide (t = tid)
      | _ => false)))

/-- Every running clause has finished, and every operation but the waits has completed (R363). -/
def State.drained (s : State) (tid : Nat) (t : Team) : Bool :=
  let waits (o : Op) (l : Nat) : Bool := (s.fibre tid o.grp l).wait.isSome
  !s.bundles.any (fun e => decide (e.2.team = tid)) && !s.reqs.any (fun e => decide (e.2.team = tid)) &&
  !(s.core t.key).copies.any (fun e => decide (e.2.team = tid)) && !s.partWaits tid &&
  s.ops.all (fun e => decide (e.2.team ≠ tid) || (!e.2.left.isEmpty && e.2.left.all (waits e.2))) &&
  !(decide ((s.core t.key).eng.holder = some (Holder.team tid)) && (match (s.core t.key).eng.queue with | o :: _ => o.paused.isSome | [] => false))

/-- The fibres' return stacks spill to the system area (R114). -/
def State.spill (s : State) (t : Team) : State :=
  (List.range t.groups.length).foldl (fun (a : State) g =>
    (List.range 32).foldl (fun (b : State) l =>
      let f := ((t.groups.getD g (t.kern.newGroup 0 (0, 0) 0)).fibres.getD l Fibre.reset)
      (List.range (min f.depth f.stack.length)).foldl (fun (c : State) i =>
        c.vaultWrite t.key (32768 * t.run0 + t.kern.gpt * 4096 + (32 * g + l) * 2048 + 8 * i) (leBytes 8 (f.stack.getD i 0).toNat)) b) a) s

/-- The engine as it is saved: delivered tiles are delivered again (R229). -/
def Engine.saved (e : Engine) : Engine := { e with reserved := none, subs := e.subs.map (fun u => { u with next := u.next - u.tiles.length, tiles := [] }) }

/-- Write a drained team's image and free what it holds. -/
def State.saveTeam (s : State) (tid : Nat) (t : Team) (c : Ctx) (swap : Bool) (first : Nat) : State :=
  let k := t.key
  let s1 := (List.range t.groups.length).foldl (fun (a : State) g => a.flushEvent tid g) s
  let s2 := (s1.spill t).flushCore k
  let s3 := t.groups.foldl (fun (a : State) g => g.held.foldl (fun (b : State) l => b.unpin k l) a) s2
  let holds := decide ((s3.core k).eng.holder = some (Holder.team tid))
  let eng := if holds then some (s3.core k).eng.saved else none
  let units := (t.kern.image holds).units
  let addr := c.savebase + 65536 * first
  let w := s3.writeImage t eng s3.serial addr
  let s4 := if holds then w.1.freeEngine k else w.1
  let s5 := (s4.clearRun k t.run0 t.kern.blocks).moveWaits k (32768 * t.run0) (32768 * t.kern.blocks) (savedKey tid) 0
  let s6 := s5.modTeam tid (fun x => { x with status := .saved addr units w.2 swap, mat := eng, why := none, defer := none })
  { s6 with serial := s6.serial + 1, ctxs := fmod s6.ctxs t.ctx (fun x => { x with saves := x.saves ++ [(first, units)] }) }

/-- A team that no run of the pool holds stays: in a stopped partition it is halted in place. The decision that asked for it takes another victim; a
swap-out is not made, and its count of blocked clocks begins anew (R58, R364; log 27). -/
def State.keepTeam (s : State) (tid : Nat) (t : Team) : State :=
  ((s.bumpCtx t.ctx 80).modTeam tid (fun x => { x with
    status := if (s.part t.part).stopped then .halted else .resident,
    full := x.full ++ x.why.toList, why := none, blocked := none, defer := none,
    groups := x.groups.map (fun g => { g with readyAt := max g.readyAt (s.coreClock t.part) }) })).settleSafe t.grid

/-- After deferral and drain, a team's image is written and its resources are freed. -/
def execTeamSave (team : Nat) (s : State) : Host.Outcome State Fault Refusal :=
  event s (fun s =>
    match s.team team with
    | none => s
    | some t =>
      match t.status, fget s.ctxs t.ctx with
      | .saving swap _, some c =>
        let deferred := t.defer.isSome
        let unsafe_ := t.kern.dx.isSome && !(match fget s.grids t.grid with | some g => g.safe | none => true)
        if deferred || unsafe_ || !s.drained team t then s
        else
          let holds := decide ((s.core t.key).eng.holder = some (Holder.team team))
          (match c.poolRun (t.kern.image holds).units with
          | none => s.keepTeam team t
          | some first =>
            match s.rangeSnoops (c.savebase + 65536 * first) (65536 * (t.kern.image holds).units) true with
            | some a => a
            | none => s.saveTeam team t c swap first)
      | _, _ => s)

/-! ### TEAM_RESTORE (R367) -/

/-- A new placement of greater priority has room and goes first. -/
def State.placementFirst (s : State) (t : Team) : Bool :=
  s.tasks.any (fun e => decide (e.2.part = t.part) && decide (e.2.die = t.die) && s.wantsPlace e.1 e.2 && decide (s.taskPrio e.2 < t.prio) &&
    (s.tryPlace e.1 e.2 (Room.now e.1)).isSome)

/-- A run of a context's save pool is free again: teams that found no room may be saved once more (R364). -/
def State.freeSave (s : State) (ctx addr units : Nat) : State :=
  { s with
    ctxs := fmod s.ctxs ctx (fun c => { c with saves := c.saves.filter (fun r => decide (c.savebase + 65536 * r.1 ≠ addr) || decide (r.2 ≠ units)) }),
    teams := s.teams.map (fun (e : Nat × Team) => if e.2.ctx = ctx then (e.1, { e.2 with full := [] }) else e) }

/-- A saved team comes back to its core. -/
def State.restoreTeam (s : State) (tid : Nat) (t : Team) (addr units : Nat) (places : List (Nat × Nat)) (run0 : Nat) : State :=
  let k := t.key
  let n := t.kern.blocks
  let now := s.coreClock t.part
  let off := (t.kern.image t.mat.isSome).vault
  let cells := (s.imageCells addr units).filter (fun c => decide (off ≤ c.1) && decide (c.1 < off + 32768 * n))
  let s1 := (s.modCore k (fun c => { c with
    blocks := (List.range n).foldl (fun b i => fset b (run0 + i) (.owned tid)) c.blocks,
    vault := cells.foldl (fun m x => memWrite m (32768 * run0 + (x.1 - off)) x.2) (memZero c.vault (32768 * run0) (32768 * n)),
    eng := match t.mat with | some e => { e with holder := some (.team tid), reserved := none } | none => c.eng })).shrink k
  let s2 := s1.modTeam tid (fun x => { x with
    status := .resident, mat := none, run0 := run0, blocked := none,
    groups := (List.range x.groups.length).map (fun i =>
      let g := x.groups.getD i (x.kern.newGroup 0 (0, 0) 0)
      { g with subcore := (places.getD i (0, 0)).1, wbase := (places.getD i (0, 0)).2, readyAt := now }) })
  (((s2.moveWaits (savedKey tid) 0 (32768 * n) k (32768 * run0)).freeSave t.ctx addr units).wake k).settleSafe t.grid

/-- A saved team meets every condition of a restore but an engine with no holder (R367). -/
def State.mayRestore (s : State) (tid : Nat) (t : Team) : Bool := s.roomBack tid t && !s.placementFirst t && (s.claims t.die).isEmpty

/-- The engine of a saved holder's core is not reserved as its conditions have it (R202). -/
def State.reserveStale (s : State) (tid : Nat) (t : Team) : Bool :=
  t.mat.isSome && (if s.mayRestore tid t then (s.core t.key).eng.reserved.isNone else decide ((s.core t.key).eng.reserved = some tid))

/-- A saved team is restored when every condition holds; its engine is reserved while only that is missing. A failed check kills. -/
def execTeamRestore (team : Nat) (s : State) : Host.Outcome State Fault Refusal :=
  event s (fun s =>
    match s.team team with
    | none => s
    | some t =>
      match t.status, (if s.mayRestore team t then s.teamFits (Room.now team) t.key t.kern else none) with
      | .saved .., none => s.unreserve t.key team
      | .saved addr units check _, some f =>
        match s.rangeSnoops addr (65536 * units) false with
        | some a => a
        | none =>
        if Config.saveCheck (65536 * units) (s.imageCells addr units) ≠ check || decide (memNat s.mem (addr + 24) 8 ≠ check.toNat) then
          s.askKill ⟨t.ctx, 10, t.who 0, leBytes 8 addr⟩
        else if s.engineBack team t then s.restoreTeam team t addr units f.1 f.2
        else s.modEng t.key (fun e => if e.reserved.isNone then { e with reserved := some team } else e)
      | _, _ => s)

/-! ### TEAM_RETIRE (R368) -/

/-- Every condition of a team's retirement but the open event records holds. -/
def State.canRetire (s : State) (tid : Nat) (t : Team) : Bool :=
  let k := t.key
  let mine := decide ((s.core k).eng.holder = some (Holder.team tid))
  let east := s.teams.any (fun e => decide (e.2.grid = t.grid) && decide (e.2.clusid = t.clusid) && decide (e.2.teamid = t.teamid + 1) &&
    decide (e.2.status ≠ .retired) && decide ((t.teamid + 1) % t.kern.clw ≠ 0))
  t.groups.all (fun g => g.fibres.all (fun f => !f.live) && g.dxbuf.isEmpty) &&
  !s.bundles.any (fun e => decide (e.2.team = tid)) && !s.reqs.any (fun e => decide (e.2.team = tid)) && !s.ops.any (fun e => decide (e.2.team = tid)) &&
  !(s.core k).copies.any (fun e => decide (e.2.team = tid)) && !s.partWaits tid && decide (t.doneT = t.issued) &&
  !(mine && east && !(s.core k).eng.outbox.isEmpty) && !(s.dies.any (fun d => d.2.colls.any (fun c => c.task.isNone && decide (c.team = tid))))

/-- Some streams of a die may have lost their last subscriber. -/
def State.tidyStreams (s : State) (die : Nat) (ids : List Nat) : State := ids.foldl (fun (a : State) i => a.tidyStream die i) s

/-- A cluster with no member left is gone, and counts for its grid. -/
def State.tidyCluster (s : State) (gid clusid : Nat) : State :=
  let this (c : Cluster) : Bool := decide (c.grid = gid) && decide (c.clusid = clusid)
  let s1 := { s with clusters := s.clusters.map (fun c => if this c then { c with left := c.left - 1 } else c) }
  if s1.clusters.any (fun c => this c && decide (c.left = 0)) then
    { s1 with
      clusters := s1.clusters.filter (fun c => !this c),
      teams := s1.teams.filter (fun e => !(decide (e.2.grid = gid) && decide (e.2.clusid = clusid))),
      grids := fmod s1.grids gid (fun g => { g with retired := g.retired + 1 }) }
  else s1

/-- A team whose fibres have all exited, with nothing outstanding, retires. -/
def execTeamRetire (team : Nat) (s : State) : Host.Outcome State Fault Refusal :=
  event s (fun s =>
    match s.team team with
    | none => s
    | some t =>
      if !t.occupies || !s.canRetire team t then s
      else
        let k := t.key
        let s1 := (s.flushCore k)
        let s2 := (List.range t.groups.length).foldl (fun (a : State) g => a.flushEvent team g) s1
        let s3 := (s2.orphanLocks team true).dropMonitors team
        let ids := if (s3.core k).eng.holder = some (Holder.team team) then (s3.core k).eng.subs.map (·.stream) else []
        let s4 := if (s3.core k).eng.holder = some (Holder.team team) then (s3.freeEngine k).tidyStreams t.die ids else s3
        let s5 := (s4.clearRun k t.run0 t.kern.blocks).unclaim team
        ((s5.modTeam team (fun x => { x with status := .retired, groups := [], bars := List.replicate 16 Barrier.reset })).tidyCluster
          t.grid t.clusid).settleSafe t.grid)

end Sys2Proof.Machine
end

