-- ==== Sys2Proof/Machine/Tasks.lean ====
section
/-!
DEFINITION. Distributing, running, retiring and failing tasks (R50, R51, R236, R239 to R242), and the instructions that post and wait for them
(R243 to R245).
-/

namespace Sys2Proof.Machine

/-! ### Running a task (R239, R240) -/

/-- What running a task comes to. -/
inductive Ran
  /-- it is done, and retires -/
  | done (s : State)
  /-- it goes on, or waits -/
  | wait (s : State)
  /-- it meets a task fault -/
  | fault

/-- The translation of a task's access failed: a miss that can be replayed pauses it, anything else is a task fault. -/
def State.taskMiss (s : State) (id : Nat) (c : Ctx) (die core : Nat) (write : Bool) (e : Nat × XErr) : Ran :=
  match e.2 with
  | .miss lv =>
    if s.fqOn c then
      let r := s.askFault c (.task id) ⟨e.1, lv, write, false, true, core, die, 0⟩
      .wait { r.2 with tasks := fmod r.2.tasks id (fun (x : Task) => { x with paused := some r.1 }) }
    else .fault
  | _ => .fault

/-- The virtual address and length of a COPY's source and destination; none when a range exceeds its tile. -/
def Task.copyRuns (x : Task) : Option (Nat × Nat × Nat) :=
  let p := field (leNat x.bytes) 767 256
  match x.tins.head?, x.touts.head? with
  | some a, some b =>
    let src := field p 31 0
    let dst := field p 63 32
    let n := if field p 95 64 = 0 then b.2 - dst else field p 95 64
    if a.2 < src + n || decide (b.2 < dst + n) then none else some (a.1 + src, b.1 + dst, n)
  | _, _ => none

/-- Run a COPY: every byte is read before any is written. -/
def State.runCopy (s : State) (id : Nat) (x : Task) (c : Ctx) : Ran :=
  let core := (x.core.getD 0) % 72
  match x.copyRuns with
  | none => .fault
  | some (src, dst, n) =>
    match s.xlateRun none x.die c src n .read, s.xlateRun none x.die c dst n .write with
    | .error e, _ => s.taskMiss id c x.die core false e
    | _, .error e => s.taskMiss id c x.die core true e
    | .ok ps, .ok qs =>
      match s.engineSnoops (ps.map (·.pa)) false, s.engineSnoops (qs.map (·.pa)) true with
      | some a, _ => .wait a
      | _, some a => .wait a
      | none, none => let r := s.readRuns x.ctx x.die ps; .done (r.2.writeRuns x.ctx x.die qs r.1)

/-- Where the inputs of an MXM task go in its run, slot by slot: A, B, and the scales of the MX operands. -/
def MxmDesc.slots (d : MxmDesc) : List Nat :=
  [d.aloc, d.bloc] ++ (if matMx d.afmt then [d.asc] else []) ++ (if matMx d.bfmt then [d.bsc] else [])

/-- The bytes that the operation reads of each input, slot by slot. -/
def MxmDesc.needs (d : MxmDesc) : List Nat :=
  [(d.m - 1) * d.lda + matSpan d.afmt d.k, (d.k - 1) * d.ldb + matSpan d.bfmt d.n] ++
  (if matMx d.afmt then [d.m * (d.k / 32)] else []) ++ (if matMx d.bfmt then [d.n * (d.k / 32)] else [])

/-- The output format of an MXM task's record, as a store of its whole result (R223, R234). -/
def Task.store (x : Task) : MxstDesc :=
  let p := field (leNat x.bytes) 1023 256
  let d := x.mxm
  let fmt := field p 615 608
  { col0 := 0, row0 := 0, cols := d.n, rows := d.m, alpha := BitVec.ofNat 32 (field p 607 576), brec := 0, glb := true,
    rnd := match field p 617 616 with | 0 => .rne | 1 => .rz | 2 => .rdn | _ => .rup,
    sat := flag p 618, fmt := fmt, ldd := d.n * storeBytes fmt, dst := (x.touts.headD (0, 0)).1 }

/-- The checks of an MXM task that its tiles and its vault decide (R206, R240). -/
def Task.mxmBad (x : Task) : Bool :=
  let d := x.mxm
  let h : Share := ⟨0, d.m, 0, d.n, 0⟩
  d.misplaced h || d.outside h 8388608 || (List.zipWith (fun (n : Nat) (t : Nat × Nat) => decide (t.2 < n)) d.needs x.tins).any id ||
  decide ((x.touts.headD (0, 0)).2 < d.m * d.n * storeBytes x.store.fmt)

/-- The summation shape of an MXM task's record. -/
def Task.mxmShape (x : Task) : DWord := BitVec.ofNat 64 (field (field (leNat x.bytes) 1023 256) 575 512)

/-- Run an MXM task on the core it has taken: copy its inputs in, run the operation, write the result. -/
def State.runMxm (s : State) (id : Nat) (x : Task) (c : Ctx) : Ran :=
  match x.core, x.run with
  | some k, some run =>
    let d := x.mxm
    let base := 32768 * run.1
    let size := 32768 * run.2
    let core := k % 72
    let ins := List.zip d.slots x.tins
    let reads := ins.foldl (fun (r : Except (Nat × XErr) (List (Nat × List Span))) i =>
      match r with
      | .error e => .error e
      | .ok xs =>
        match s.xlateRun none x.die c i.2.1 (min i.2.2 (size - i.1)) .read with
        | .ok ps => .ok (xs ++ [(i.1, ps)])
        | .error e => .error e) (.ok [])
    match reads, s.xlateRun none x.die c (x.touts.headD (0, 0)).1 (d.m * d.n * storeBytes x.store.fmt) .write with
    | .error e, _ => s.taskMiss id c x.die core false e
    | _, .error e => s.taskMiss id c x.die core true e
    | .ok xs, .ok outs =>
      match s.engineSnoops (xs.flatMap (fun e => e.2.map (·.pa))) false, s.engineSnoops (outs.map (·.pa)) true with
      | some a, _ => .wait a
      | _, some a => .wait a
      | none, none =>
        let s1 := xs.foldl (fun (a : State) e => let r := a.readRuns x.ctx x.die e.2; r.2.vaultWrite k (base + e.1) r.1) s
        let h : Share := ⟨0, d.m, 0, d.n, 0⟩
        let r : Region := ⟨base, size, 1, 0, 0⟩
        let a := s1.ownA k r d h
        let b := s1.ownB k r d h none
        let bscs := (List.range d.n).map (fun j => if matMx d.bfmt then s1.vaultRead k (base + d.bsc + j * (d.k / 32)) (d.k / 32) else [])
        let out := matRun d x.mxmShape h a.1 a.2 b bscs Bank.reset
        let bytes := (storeWrites x.store out.1).flatMap (·.2)
        .done (((s1.writeRuns x.ctx x.die outs bytes).freeEngine k).clearRun k run.1 run.2)
  | _, _ => .fault

/-! ### Collective descriptors (R342 to R345) -/

/-- Bits of an element of a format that a collective accepts (R28, R344); 0 for any other. -/
def collBits (fmt : Nat) : Nat :=
  match fmt with
  | 0x00 | 0x01 | 0x02 | 0x13 | 0x14 | 0x16 | 0x18 | 0x19 => 8
  | 0x03 | 0x04 | 0x11 | 0x12 => 16
  | 0x05 | 0x06 | 0x10 => 32
  | 0x07 | 0x08 => 64
  | 0x15 | 0x1A => 4
  | _ => 0

/-- The formats that a reducing mode accepts (R344). -/
def reduceFmt (rmode fmt : Nat) : Bool :=
  match rmode with
  | 0 => decide (fmt = 0x10) || decide (fmt = 0x11) || decide (fmt = 0x12) || decide (fmt = 0x05)
  | 1 => decide (fmt = 0x12) || matMx fmt
  | _ => decide (fmt = 0x10) || decide (fmt = 0x11) || decide (fmt = 0x12)

/-- First element of rank m's share of a reduce-scatter. -/
def CollDesc.lo (d : CollDesc) (n m : Nat) : Nat := m * d.count / n

/-- A value or combination of a collective descriptor that R343 and R344 do not allow, for n ranks. -/
def CollDesc.bad (d : CollDesc) (n : Nat) : Bool :=
  decide (4 < d.op) || decide (2 < d.rmode) || decide (2 < d.rop) || decide (collBits d.fmt = 0) ||
  (decide (d.rop ≠ 0) && !(decide (d.rmode = 0) && decide (d.op ≤ 1))) || (decide (2 ≤ d.op) && decide (d.rmode ≠ 0)) ||
  (decide (d.op ≤ 1) && !reduceFmt d.rmode d.fmt) || (decide (d.rmode = 1) && sumShapeBad d.ssh.toNat) ||
  (matMx d.fmt && (decide (d.count % 32 ≠ 0) || (decide (d.op = 1) && (List.range n).any (fun m => decide (d.lo n m % 32 ≠ 0))))) ||
  (decide (d.op = 3) && decide (n ≤ d.root))

/-- A communicator entry that R342 does not allow on a die. -/
def commBad (e die : Nat) : Bool :=
  decide (field e 255 128 ≠ 0) || decide (field e 63 33 ≠ 0) || decide (field e 32 32 ≠ die) || decide (field e 15 0 = 0) ||
  decide (1024 < field e 15 0) || decide (field e 15 0 ≤ field e 31 16)

/-- Source elements that rank m of n reads (R344). -/
def CollDesc.srcElems (d : CollDesc) (n m : Nat) : Nat :=
  match d.op with
  | 3 => if m = d.root then d.count else 0
  | 4 => n * d.count
  | _ => d.count

/-- Destination elements of rank m of n (R344). -/
def CollDesc.dstElems (d : CollDesc) (n m : Nat) : Nat :=
  match d.op with
  | 1 => d.lo n (m + 1) - d.lo n m
  | 2 | 4 => n * d.count
  | _ => d.count

/-- Bytes of some elements, and of their scales. -/
def CollDesc.bytesOf (d : CollDesc) (elems : Nat) : Nat := (elems * collBits d.fmt + 7) / 8
def CollDesc.scalesOf (d : CollDesc) (elems : Nat) : Nat := if matMx d.fmt then elems / 32 else 0

/-- The collective descriptor of a task. -/
def Task.collDesc (x : Task) : CollDesc := Machine.collDesc (field (leNat x.bytes) 767 256)

/-- A COLL task fails the checks of its descriptor, or a span exceeds its tile. -/
def Task.collTaskBad (x : Task) (cmlen : Nat) : Bool :=
  let d := x.collDesc
  let n := field x.comm 15 0
  let m := field x.comm 31 16
  let src := d.srcElems n m
  let dst := d.dstElems n m
  let past (t : Option (Nat × Nat)) (off len : Nat) : Bool := decide (len ≠ 0) && (match t with | some y => decide (y.2 < off + len) | none => true)
  decide (cmlen ≤ d.comm) || commBad x.comm x.die || d.bad n ||
  past x.tins.head? d.srcoff (d.bytesOf src) || past x.tins.head? d.sscoff (d.scalesOf src) ||
  past x.touts.head? d.dstoff (d.bytesOf dst) || past x.touts.head? d.dscoff (d.scalesOf dst)

/-- A started task: done, going on, or faulting. -/
def State.runTask (s : State) (id : Nat) (x : Task) : Ran :=
  if x.paused.isSome then .wait s
  else
    match fget s.ctxs x.ctx with
    | none => .wait s
    | some c =>
      match x.type with
      | 1 =>
        (match x.grid.bind (fget s.grids) with
        | some g => if g.kern.nclus ≤ g.retired then .done { s with grids := fdel s.grids (x.grid.getD 0) } else .wait s
        | none => .wait s)
      | 2 => if x.mxmBad then .fault else s.runMxm id x c
      | 3 => s.runCopy id x c
      | 4 => if x.collTaskBad (s.part x.part).cmlen then .fault else if s.dies.any (fun d => d.2.colls.any (fun o => decide (o.task = some id))) then .wait s else .done s
      | _ => .done s

/-! ### TASK_DISTRIBUTE (R50, R51, R236, R239) -/

/-- A ready task of the same class in the partition goes first, in the order of R51. -/
def State.rankedBefore (s : State) (id : Nat) (x : Task) : Bool :=
  s.tasks.any (fun e => decide (e.1 ≠ id) && decide (e.2.part = x.part) && decide (e.2.die = x.die) && decide (e.2.type = x.type) &&
    decide (s.rankOf e.2 < s.rankOf x) && s.waitsEngine e.1 e.2)

/-- Another task goes first. The die's one collective engine serves every partition of the die: it takes, in entry order, the tasks that come first in
their partitions under R51 (R239; log 44). -/
def State.distributedBefore (s : State) (id : Nat) (x : Task) : Bool :=
  s.rankedBefore id x ||
  (decide (x.type = 4) && s.tasks.any (fun e => decide (e.2.part ≠ x.part) && decide (e.2.die = x.die) && decide (e.2.type = 4) &&
    decide (e.2.entry < x.entry) && s.waitsEngine e.1 e.2 && !s.rankedBefore e.1 e.2))

/-- A task starts, with its queue's priority as it stands: an acquire by the engines of its core (R260, R266). -/
def State.startTask (s : State) (id : Nat) (x : Task) (core : Option Nat) (run : Option (Nat × Nat)) : State :=
  let y : Task := { x with state := .started, prio := (s.queue x.queue).prio, core := core, run := run }
  let t0 : State := { s with tasks := fset s.tasks id y }
  let t : State := match core with
    | some k => t0.acquire k true
    | none => t0
  if x.type = 2 then t else t.fillTiles x

/-- An MXM task takes the engine of a core and a cleared run of its vault. -/
def State.takeEngine (s : State) (id k run0 n : Nat) : State :=
  ((s.modCore k (fun c => { c with
    vault := memZero c.vault (32768 * run0) (32768 * n),
    blocks := (List.range n).foldl (fun b i => fset b (run0 + i) (.task id)) c.blocks,
    eng := { Engine.reset with holder := some (Holder.task id) } })).shrink k).wake k

/-- The collective of a task, with its tiles' places (R343). -/
def Task.coll (x : Task) : Coll :=
  let d := x.collDesc
  let src := (x.tins.headD (0, 0)).1
  let dst := (x.touts.headD (0, 0)).1
  { desc := d, ctx := x.ctx, part := x.part, task := none, team := 0, grp := 0, nranks := field x.comm 15 0, rank := field x.comm 31 16,
    src := src + d.srcoff, dst := dst + d.dstoff, ssc := src + d.sscoff, dsc := dst + d.dscoff, cpl := none, started := false, failed := none,
    paused := none, map := field x.comm 127 64, ends := [], got := none }

/-- A ready task goes to a free engine of its class. A CODE task is distributed as its first cluster is placed. -/
def execTaskDistribute (task : Nat) (s : State) : Host.Outcome State Fault Refusal :=
  event s (fun s =>
    match fget s.tasks task with
    | none => s
    | some x =>
      if x.type = 1 || !s.waitsEngine task x || s.distributedBefore task x then s
      else
        match x.type with
        | 2 =>
          if x.mxmBad then s.startTask task x none none
          else
            (match s.mxmCore (Room.now task) x with
            | some (core, run0) =>
              let k := coreKey x.die core
              let n := max 1 x.mxm.taskBlocks
              (s.takeEngine task k run0 n).startTask task x (some k) (some (run0, n))
            | none => s)
        | 3 =>
          (match s.copyCore (Room.now task) x with
          | some core => (s.wake (coreKey x.die core)).startTask task x (some (coreKey x.die core)) none
          | none => s)
        | 4 =>
          if x.collTaskBad (s.part x.part).cmlen then s.startTask task x none none
          else if (s.die x.die).colls.length < 16 then
            (s.startTask task x none none).modDie x.die (fun d => { d with colls := d.colls ++ [{ x.coll with task := some task }] })
          else s
        | _ => s.startTask task x none none)

/-! ### Retirement (R241) -/

/-- The completed sequence of a queue: every task numbered so or below has retired. -/
def State.completed (s : State) (q : Nat) : DWord :=
  let x := s.queue q
  let least := (s.tasks.filter (fun e => decide (e.2.queue = q))).foldl (fun (m : DWord) e => if e.2.seq.ult m then e.2.seq else m) x.seq
  (match x.stuck with | some n => if n.ult least then n else least | none => least) - 1

/-- Release the fibres that wait for a completed sequence of a queue: each release is an acquire (R245). -/
def State.wakeSeq (s : State) (q : Nat) : State :=
  let comp := (s.queue q).comp
  s.teams.foldl (fun (x : State) e =>
    (List.range e.2.groups.length).foldl (fun (y : State) g =>
      (List.range 32).foldl (fun (z : State) l =>
        match (z.fibre e.1 g l).wait with
        | some (.seq q1 v op) => if q1 = q && v.ule comp then (z.release e.1 g l op []).acquire e.2.key false else z
        | _ => z) y) x) s

/-- The completed sequence rises: the word is written, and waiting fibres go on. -/
def State.settleComp (s : State) (q : Nat) : State :=
  let n := s.completed q
  if (s.queue q).comp.ult n then
    ((s.modQueue q (fun x => { x with comp := n })).queueWrite q 0 (leBytes 8 n.toNat)).wakeSeq q
  else s

/-- A task retires. -/
def State.retireTask (s : State) (id : Nat) (x : Task) : State :=
  let s1 := { s with tasks := fdel s.tasks id }
  let s2 := s1.modPart x.part (fun p => { p with tiles := x.outs.foldl (fun m t =>
    let y := (fget m t).getD TileState.reset
    fset m t (if y.writers ≤ 1 then ⟨0, true, true, x.die⟩ else { y with writers := y.writers - 1, resident := true })) p.tiles })
  let s3 := if x.irq then s2.modQueue x.queue (fun q => { q with irqs := q.irqs ++ [x.seq] }) else s2
  ((s3.settleComp x.queue).settleDrain x.part).tidyCtx x.ctx

/-- A started task that is done retires; one that is not goes on. -/
def execTaskRetire (task : Nat) (s : State) : Host.Outcome State Fault Refusal :=
  event s (fun s =>
    match fget s.tasks task with
    | none => s
    | some x =>
      if x.state ≠ .started then s
      else match s.runTask task x with
        | .done t => t.retireTask task x
        | .wait t => t
        | .fault => s)

/-- A started task that cannot be done faults (R240). -/
def execTaskFault (task : Nat) (s : State) : Host.Outcome State Fault Refusal :=
  event s (fun s =>
    match fget s.tasks task with
    | none => s
    | some x =>
      if x.state ≠ .started then s
      else match s.runTask task x with
        | .fault => s.faultTask task
        | _ => s)

/-! ### TASKPOST and TASKSEQ (R243 to R245) -/

/-- A chain's bytes as a TASKPOST of a team reaches them, through the translation of the queue's context. -/
def State.chainAt (s : State) (t : Team) (g q va : Nat) (acc : Acc) : Res Leaf :=
  if (s.queue q).qctx.toNat = t.ctx then s.xlate t g va acc 2
  else match s.translate none (q / 128) (s.queueCtx q) va acc with
    | .ok lf => .ok lf
    | .error (.miss _) => .trap (.access 3 (BitVec.ofNat 64 va))
    | .error _ => .trap (.access 2 (BitVec.ofNat 64 va))

/-- Task records from an address of a chain to another, links passed over; none where the translation of a link fails. -/
def State.pendingRecs (s : State) (q last : Nat) : Nat → Nat → Option Nat
  | 0, _ => none
  | n + 1, a =>
    if a = last then some 0
    else if a / 128 % 32 = 31 then
      match s.translate none (q / 128) (s.queueCtx q) a .read with
      | .ok lf => s.pendingRecs q last n (memNat s.mem (lf.pa + 8) 8)
      | .error _ => none
    else (s.pendingRecs q last n (a + 128)).map (1 + ·)

/-- The records of a queue before the one at QTAIL that have still to be entered: along the chain, or, where a link of it cannot be read, as many as
TASKPOST has appended, software posting to the queue in no other way (R244). -/
def State.recsBefore (s : State) (q walkFrom : Nat) : Nat :=
  let x := s.queue q
  (s.pendingRecs q x.qtail.toNat 0x100000 walkFrom).getD x.ahead

/-- Where the walk of a queue goes on. -/
def Queue.walkFrom (x : Queue) : Nat := if x.en || x.held then x.qhead.toNat else x.qbase.toNat

/-- What a TASKPOST resolves: its record and the place it is written to, or the status that ends it. -/
inductive Post
  | status (st : Nat)
  | write (q slot : Nat) (leaf : Leaf) (bytes : List Byte)
deriving DecidableEq, Repr

/-- The leader's checks of a TASKPOST, and the place of its append (R244). -/
def State.postOf (s : State) (t : Team) (g off q : Nat) : Res Post :=
  (Res.check (decide (off % 128 ≠ 0)) (.misaligned (dw off))).andThen (fun _ =>
    (Res.check (!t.vaultOk off 128) (.access 1 (dw off))).andThen (fun _ =>
      let bytes := s.vaultRead t.key (t.dataBase + off) 128
      let x := s.queue q
      if 255 < q || decide (x.part ≠ t.part) then .ok (.status 1)
      else if field (leNat bytes) 3 0 = 15 then .ok (.status 3)
      else
        let go (slot : Nat) : Res Post :=
          if slot + 128 = x.qhead.toNat && decide (x.qhead ≠ x.qtail) then .ok (.status 2)
          else (s.chainAt t g q slot .write).andThen (fun lf => .ok (.write q slot lf bytes))
        let tail := x.qtail.toNat
        if tail / 128 % 32 = 31 then
          (s.chainAt t g q tail .read).andThen (fun lf =>
            let link := leNat (s.fibreSees t g lf 128)
            if field link 3 0 ≠ 15 then .ok (.status 2) else go (field link 127 64))
        else go tail))

def doTaskpost (c : Ctl) (d a b : Reg) (imm : BitVec 16) (w : Who) (s : State) : State :=
  match s.team w.team, w.leader with
  | some t, some l =>
    let f := s.fibre w.team l.1 l.2
    let give (y : State) (st : Nat) (seq : DWord) : State :=
      y.giveAll (.taskpost c d a b imm) w ([(.v d, BitVec.ofNat 32 st), (.v (d + 1), 0)] ++ wr64 (d + 2) seq)
    let r := s.leaderGate w (s.postOf t l.1 ((f.get w.pos a).toNat + 128 * imm.toNat) (f.get w.pos b).toNat)
    (match r.1 with
    | none => r.2
    | some (.status st) => give (r.2.fence t.key .rel .device false) st 0
    | some (.write q slot lf bytes) =>
      let s1 := r.2.fence t.key .rel .device false
      match s1.engineSnoops [lf.pa] true with
      | some held => held.hold w
      | none =>
        let s2 := s1.engineWrite (s1.queue q).qctx.toNat t.die lf.trk lf.pa bytes
        let seq := (s2.queue q).seq + BitVec.ofNat 64 (s2.recsBefore q (s2.queue q).walkFrom)
        give (s2.modQueue q (fun x => { x with qtail := BitVec.ofNat 64 (slot + 128), ahead := x.ahead + 1 })) 0 seq)
  | _, _ => s

/-- TASKPOST (R244). -/
def execTaskpost (c : Ctl) (d a b : Reg) (imm : BitVec 16) (s : State) : Host.Outcome State Fault Refusal :=
  native (.taskpost c d a b imm) s (afterOrder (syncBody (.taskpost c d a b imm) .bundle (doTaskpost c d a b imm)))

/-- The queue of a TASKSEQ, or the trap of a fibre that names none of its partition (R245). -/
def seqQueue (s : State) (t : Team) (v : Word) : Res Nat :=
  if 255 < v.toNat || decide ((s.queue v.toNat).part ≠ t.part) then .trap (.access 4 (v.setWidth 64)) else .ok v.toNat

def doTaskseq (c : Ctl) (d b : Reg) (w : Who) (s : State) : State :=
  match s.team w.team with
  | none => s
  | some t =>
    let r := s.gate w (fun g l => seqQueue s t ((s.fibre w.team g l).get w.pos b))
    let q := (r.1.foldl (fun (y : State) _ => y.acquire t.key false) r.2).openFor (.taskseq c d b) w (pairsOf r.1)
    r.1.foldl (fun (y : State) x => y.doneLane w x.1 x.2.1 (opOf q.1 x.1) (wr64 d (s.queue x.2.2).comp)) q.2

/-- TASKSEQ reads a completed sequence. -/
def execTaskseq (c : Ctl) (d b : Reg) (s : State) : Host.Outcome State Fault Refusal :=
  native (.taskseq c d b) s (syncBody (.taskseq c d b) .fibre (doTaskseq c d b))

def doTaskseqWait (c : Ctl) (a b : Reg) (w : Who) (s : State) : State :=
  match s.team w.team with
  | none => s
  | some t =>
    let r := s.gate w (fun g l => seqQueue s t ((s.fibre w.team g l).get w.pos b))
    let q := r.2.openFor (.taskseqWait c a b) w (pairsOf r.1)
    (byLane r.1).foldl (fun (y : State) x =>
      let v := (s.fibre w.team x.1 x.2.1).get64 w.pos a
      let op := opOf q.1 x.1
      if v.ule (y.queue x.2.2).comp then (y.acquire t.key false).doneLane w x.1 x.2.1 op [] else y.waitOr w x.1 x.2.1 (.seq x.2.2 v op)) q.2

/-- TASKSEQ.WAIT waits for a completed sequence. -/
def execTaskseqWait (c : Ctl) (a b : Reg) (s : State) : Host.Outcome State Fault Refusal :=
  native (.taskseqWait c a b) s (syncBody (.taskseqWait c a b) .fibre (doTaskseqWait c a b))

end Sys2Proof.Machine
end

