-- ==== Sys2Proof/Machine/System.lean ====
section
/-!
DEFINITION. The capability list and CAPS (R24, R25, R27), event-log control (R360), and the invalidation of translations (R179).
-/

namespace Sys2Proof.Machine

/-! ### The capability list (R24, R25) -/

/-- Cores of a partition that are not absent. -/
def State.coreCount (s : State) (p : Nat) : Nat := (s.coresOf p 0).length + (s.coresOf p 1).length

/-- HBM GiB visible to a partition. -/
def State.hbmGib (s : State) (p : Nat) : Nat :=
  if descIsol (s.desc p) then 64 * ((List.range 8).filter (fun i => flag (descHbmstk (s.desc p)) i)).length else 512

/-- GiB of the attached expanders. -/
def State.cxlGib (s : State) : Nat := ((List.range 8).map (fun i => (s.cxlPort i).cap)).foldl (· + ·) 0 / 2 ^ 30

/-- A header word of the list. -/
def capHeader (id ver len : Nat) : Nat := id + ver * 2 ^ 16 + len * 2 ^ 24

/-- The protocol slots that hold an image. -/
def State.protMap (s : State) : Nat := (List.range 8).foldl (fun m i => if (s.prots.getD i none).isSome then m + 2 ^ i else m) 0

/-- The capability list of a context of a partition, its terminator included. -/
def State.capList (s : State) (p : Nat) : List Word :=
  ([capHeader 1 1 2, 1 + 7 * 2 ^ 16, 2 * 2 ^ 8,
    capHeader 2 1 2, s.coreCount p, 8 + 9 * 2 ^ 8 + 72 * 2 ^ 16,
    capHeader 3 1 1, 2,
    capHeader 4 1 4, s.hbmGib p, 8192, 128, s.cxlGib,
    capHeader 5 1 1, 15,
    capHeader 6 1 1, 8 + s.protMap * 2 ^ 8,
    capHeader 7 1 1, 1,
    capHeader 8 1 1, 18 + 8 * 2 ^ 8 + 2 ^ 16,
    capHeader 9 1 2, p + (if descFixclk (s.desc p) then 2 ^ 8 else 0), 8,
    0] : List Nat).map (BitVec.ofNat 32)

/-- The word of a list at a byte offset; past either end it reads 0. -/
def capAt (caps : List Word) (off : Int) : Word := if off < 0 then 0 else caps.getD (off.toNat / 4) 0

/-- The capability list of the context at hand. -/
def State.listAtHand (s : State) : List Word :=
  match s.who.bind (fun w => s.team w.team) with
  | some t => (s.ctxOf t).caps
  | none => []

/-- CAPS of one fibre (R27). -/
def capsLane (caps : List Word) (d a : Reg) (imm : BitVec 24) (f : Fibre) (pos : Nat) : AluRes :=
  let off : Int := ((f.get pos a).toNat : Int) + imm.toInt
  if off % 4 ≠ 0 then .trap (.misaligned (dw off)) else .ok [(.v d, capAt caps off)] []

def execCaps (c : Ctl) (d a : Reg) (imm : BitVec 24) (s : State) : Host.Outcome State Fault Refusal :=
  alu (.caps c d a imm) s (capsLane s.listAtHand d a imm)

/-! ### ELOG (R360) -/

/-- ELOG.SYNC writes the open record of each group. -/
def execElogSync (c : Ctl) (s : State) : Host.Outcome State Fault Refusal :=
  native (.elogSync c) s (fun w s =>
    match s.team w.team with
    | none => s
    | some t =>
      let q := (if t.kern.dx.isSome then s else (groupsOf w.perf).foldl (fun (a : State) g => a.flushEvent w.team g) s).openOps (.elogSync c) w w.perf
      if t.kern.dx.isSome then (groupsOf w.perf).foldl (fun (a : State) g => a.dxPush w g .elogSync [opOf q.1 g]) q.2
      else w.perf.foldl (fun (b : State) x => b.doneLane w x.1 x.2 (opOf q.1 x.1) []) q.2)

def doElogCnt (c : Ctl) (d : Reg) (w : Who) (s : State) : State :=
  match s.team w.team with
  | some _ =>
    let q := s.openFor (.elogCnt c d) w w.perf
    w.perf.foldl (fun (a : State) x => (a.sampleOp (opOf q.1 x.1) d).doneLane w x.1 x.2 (opOf q.1 x.1) []) q.2
  | none => s

/-- ELOG.CNT reads how many events the context has logged. -/
def execElogCnt (c : Ctl) (d : Reg) (s : State) : Host.Outcome State Fault Refusal :=
  native (.elogCnt c d) s (syncBody (.elogCnt c d) .fibre (doElogCnt c d))

/-- A USER record of a group. -/
def State.userRecord (s : State) (t : Team) (g : Nat) (a b : Word) : State :=
  s.ctxLog t.ctx 9 1 (t.who g) (leBytes 4 a.toNat ++ leBytes 4 b.toNat)

/-- ELOG.PUT writes one USER record with the leader's operands. -/
def execElogPut (c : Ctl) (a b : Reg) (s : State) : Host.Outcome State Fault Refusal :=
  native (.elogPut c a b) s (fun w s =>
    match s.team w.team, w.leader with
    | some t, some l =>
      let f := s.fibre w.team l.1 l.2
      let x := f.get w.pos a
      let y := f.get w.pos b
      let q := (if t.kern.dx.isSome then s else s.userRecord t l.1 x y).openOps (.elogPut c a b) w w.perf
      if t.kern.dx.isSome then q.2.dxPush w l.1 (.elogPut x y) (q.1.map (·.2))
      else w.perf.foldl (fun (z : State) e => z.doneLane w e.1 e.2 (opOf q.1 e.1) []) q.2
    | _, _ => s)

/-! ### TLBI (R179) -/

/-- Remove entries from every TLB of both dies. -/
def State.dropXlate (s : State) (out : TlbEntry → Bool) : State :=
  { s with
    cores := s.cores.map (fun (e : Nat × Core) => (e.1, { e.2 with tlb := e.2.tlb.filter (fun x => !out x) })),
    dies := s.dies.map (fun (e : Nat × Die) => (e.1, { e.2 with l2tlb := e.2.l2tlb.filter (fun x => !out x) })) }

/-- What an access of a context may have used of a TLBI's scope. -/
def State.inScope (s : State) (wide : Bool) (t : Team) (tid : Nat) : Bool :=
  match s.team tid with
  | some u => if wide then decide (u.part = t.part) else decide ((s.ctxOf u).root = (s.ctxOf t).root)
  | none => false

/-- A TLBI of the performing fibres: the stores that cores hold are performed at their homes and the entries go; it completes when every access of its
scope that is on its way has ended (R179). -/
def tlbiBody (wide : Bool) (i : Instr) (out : State → Team → Fibre → Nat → TlbEntry → Bool) (w : Who) (s : State) : State :=
  match s.team w.team with
  | none => s
  | some t =>
    let a := (s.cores.map (·.1)).foldl (fun (b : State) k => b.pushAll k true) (s.flushCore t.key)
    let q := (w.perf.foldl (fun (b : State) x => b.dropXlate (out s t (s.fibre w.team x.1 x.2) w.pos)) a).openFor i w w.perf
    let names := s.flying (s.inScope wide t)
    w.perf.foldl (fun (b : State) x => b.doneLane w x.1 x.2 (opOf q.1 x.1) []) (q.1.foldl (fun (b : State) e => b.opAfter e.2 names) q.2)

def doTlbiAll (c : Ctl) : Who → State → State := tlbiBody false (.tlbiAll c) (fun s t _ _ e => decide (e.root = (s.ctxOf t).root))

/-- TLBI.ALL: every translation of the context. -/
def execTlbiAll (c : Ctl) (s : State) : Host.Outcome State Fault Refusal :=
  native (.tlbiAll c) s (afterOrder (syncBody (.tlbiAll c) .fibre (doTlbiAll c)))

def doTlbiVa (c : Ctl) (a : Reg) : Who → State → State :=
  tlbiBody false (.tlbiVa c a) (fun s t f pos e =>
    decide (e.root = (s.ctxOf t).root) && decide (e.pre = (f.get64 pos a).toNat % 2 ^ 49 / 2 ^ levelShift e.level))

/-- TLBI.VA: every translation that covers an address. -/
def execTlbiVa (c : Ctl) (a : Reg) (s : State) : Host.Outcome State Fault Refusal :=
  native (.tlbiVa c a) s (afterOrder (syncBody (.tlbiVa c a) .fibre (doTlbiVa c a)))

def doTlbiPart (c : Ctl) : Who → State → State :=
  tlbiBody true (.tlbiPart c) (fun s t _ _ e => s.ctxs.any (fun x => decide (x.2.part = t.part) && decide (x.2.root = e.root)))

/-- TLBI.PART: every translation of every context of the partition. -/
def execTlbiPart (c : Ctl) (s : State) : Host.Outcome State Fault Refusal :=
  native (.tlbiPart c) s (afterOrder (syncBody (.tlbiPart c) .fibre (doTlbiPart c)))

end Sys2Proof.Machine
end

