-- ==== Sys2Proof/Machine/Collectives.lean ====
section
/-!
DEFINITION. COLL, and the collective engine of each die (R341 to R349).
-/

namespace Sys2Proof.Machine

/-! ### COLL (R345) -/

/-- A span of a record passes R19; one of no bytes passes. -/
def spanOk (b : BufRec) (p : RecPerm) (off n : Nat) : Bool := decide (n = 0) || b.passes p off n

/-- The checks of a COLL: the collective it names. -/
def State.collOf (s : State) (t : Team) (tid g off : Nat) : Res Coll :=
  (s.readDesc t off 64).andThen (fun x =>
    let d := collDesc x
    let no : Trap := .access 4 (dw off)
    let part := s.part t.part
    (Res.check (collReserved x || decide (d.seq = 0xFFFFFFFFFFFFFFFF#64) || decide (d.cploff % 8 ≠ 0) || decide (part.cmlen ≤ d.comm)) no).andThen
      (fun _ =>
      let va := part.cmbase.toNat + 32 * d.comm
      (s.xlate t g va .read 2).andThen (fun lf =>
        let e := memNat s.mem lf.pa 32
        let n := field e 15 0
        let m := field e 31 16
        (Res.check (commBad e t.die || d.bad n) no).andThen (fun _ =>
          let rec_ (i off : Nat) : Res BufRec := match s.bufRec t i with | none => .trap no | some _ => s.recFor t g i off
          (rec_ d.srcbrec d.srcoff).andThen (fun src =>
            (rec_ d.dstbrec d.dstoff).andThen (fun dst =>
              (rec_ d.cplbrec d.cploff).andThen (fun cpl =>
                let ns := d.srcElems n m
                let nd := d.dstElems n m
                (Res.check (!(spanOk src .rd d.srcoff (d.bytesOf ns) && spanOk src .rd d.sscoff (d.scalesOf ns) &&
                    spanOk dst .wr d.dstoff (d.bytesOf nd) && spanOk dst .wr d.dscoff (d.scalesOf nd) && cpl.passes .wr d.cploff 8)) no).andThen
                  (fun _ => .ok
                    { desc := d, ctx := t.ctx, part := t.part, task := none, team := tid, grp := g, nranks := n, rank := m,
                      src := src.base + d.srcoff, dst := dst.base + d.dstoff, ssc := src.base + d.sscoff, dsc := dst.base + d.dscoff,
                      cpl := some (cpl.base + d.cploff), started := false, failed := none, paused := none,
                      map := field e 127 64, ends := [], got := none }))))))))

def doColl (c : Ctl) (d a : Reg) (imm : BitVec 16) (w : Who) (s : State) : State :=
  match s.team w.team, w.leader with
  | some t, some l =>
    let f := s.fibre w.team l.1 l.2
    let r := s.leaderGate w (s.collOf t w.team l.1 ((f.get w.pos a).toNat + 64 * imm.toNat))
    (match r.1 with
    | none => r.2
    | some x =>
      if 16 ≤ (r.2.die t.die).colls.length then r.2.giveAll (.coll c d a imm) w [(.v d, 1)]
      else
        let s1 := (((r.2.keepRec t x.desc.srcbrec).keepRec t x.desc.dstbrec).keepRec t x.desc.cplbrec).pushAll t.key true
        (s1.modDie t.die (fun y => { y with colls := y.colls ++ [x] })).giveAll (.coll c d a imm) w [(.v d, 0)])
  | _, _ => s

/-- COLL hands a collective to the die's engine: the stores that its core holds reach their homes first (R260). -/
def execColl (c : Ctl) (d a : Reg) (imm : BitVec 16) (s : State) : Host.Outcome State Fault Refusal :=
  native (.coll c d a imm) s (afterOrder (syncBody (.coll c d a imm) .bundle (doColl c d a imm)))

/-! ### Elements -/

/-- The codes of n elements of some bits each. -/
def codesOf (bits : Nat) (bs : List Byte) (n : Nat) : List Nat := (List.range n).map (fun i =>
  if bits = 4 then (bs.getD (i / 2) 0).toNat / 16 ^ (i % 2) % 16 else leNat ((bs.drop (i * (bits / 8))).take (bits / 8)))

/-- Codes as bytes; a lone half byte shares its byte with the bits that stand above it. -/
def bytesOfCodes (bits : Nat) (above : Nat) : List Nat → List Byte
  | [] => []
  | [x] => if bits = 4 then [BitVec.ofNat 8 (x + 16 * above)] else leBytes (bits / 8) x
  | x :: y :: rest =>
    if bits = 4 then BitVec.ofNat 8 (x + 16 * y) :: bytesOfCodes bits above rest
    else leBytes (bits / 8) x ++ bytesOfCodes bits above (y :: rest)

/-! ### Reductions (R347 to R349) -/

/-- One level of the tree: neighbours join, and the last of an odd number is passed on unchanged. -/
def pairUp {α : Type} (op : α → α → α) : List α → List α
  | x :: y :: rest => op x y :: pairUp op rest
  | xs => xs

/-- The tree over some leaves. -/
def treeOf {α : Type} (op : α → α → α) : Nat → List α → List α
  | 0, xs => xs
  | n + 1, xs => treeOf op n (pairUp op xs)

/-- The float format of a code of R28 that a reducing mode accepts. -/
def reduceFF (fmt : Nat) : FF := (matFF fmt).getD .f32

/-- An element reduced in TREE mode. -/
def treeElem (d : CollDesc) (leaves : List Nat) : Nat :=
  if d.fmt = 0x05 then
    let op (a b : Nat) : Nat :=
      match d.rop with
      | 0 => (a + b) % 2 ^ 32
      | 1 => if sextNat 32 a ≤ sextNat 32 b then a else b
      | _ => if sextNat 32 a ≤ sextNat 32 b then b else a
    (treeOf op 10 leaves).headD 0
  else
    let f := reduceFF d.fmt
    let leaf (x : Nat) : Nat := if d.fmt = 0x10 then x else toFF .f32 .rne false (f.value x)
    let op (a b : Nat) : Nat :=
      match d.rop with
      | 0 => (sumOf .f32 .rne [] [FF.f32.value a, FF.f32.value b]).1
      | 1 => (extremeOf .f32 false a b).1
      | _ => (extremeOf .f32 true a b).1
    let root := (treeOf op 10 (leaves.map leaf)).headD 0
    toFF f .rne false (FF.f32.value root)

/-- A value as the summation contract has it. -/
def FVal.sv : FVal → SV
  | .nan _ => .nan
  | .inf n => .inf n
  | .fin s m e => .num (if s then ⟨-(m : Int), e⟩ else ⟨m, e⟩)

/-- A special as a value. -/
def SV.special? : SV → FVal
  | .nan => .nan false
  | .inf n => .inf n
  | .num _ => .fin false 0 0

/-- A node of BLOCK mode over one block (R348); the unit comes from every finite nonzero value of either child. -/
def blockNode (h : SumShape) (l r : List FVal) : List FVal :=
  let both := List.zip l r
  let dys := (((both.flatMap (fun p => [p.1, p.2])).filter FVal.isFin).map FVal.dy).filter (fun x => decide (x.m ≠ 0))
  let u := match dys.map Dy.log2 with
    | [] => 0
    | e :: es => es.foldl max e - (h.w1 : Int) + 2
  both.map (fun p =>
    if p.1.isFin && p.2.isFin then
      let n := alignTo p.1.dy h.w1 h.t1 u + alignTo p.2.dy h.w1 h.t1 u
      .fin (decide (n < 0)) n.natAbs u
    else (specialOf ([p.1.sv, p.2.sv].filter SV.special)).special?)

/-- The element value of a code of BLOCK mode, under its block scale (R36). -/
def blockLeaf (fmt scale x : Nat) : FVal :=
  let f := reduceFF fmt
  if !matMx fmt then f.value x
  else if scale = 0xFF then .nan false
  else match f.value x with
    | .fin s m e => .fin s m (e + (scale : Int) - 127)
    | v => v

/-- The greatest exponent of an element format (R37). -/
def emaxOf (f : FF) : Int := match f with | .e4m3 => 8 | .e5m2 => 15 | _ => 2

/-- Encode an MX block: the scale and the element codes (R37). -/
def mxEncode (f : FF) (xs : List FVal) : Nat × List Nat :=
  if xs.any (fun x => !x.isFin) then (0xFF, xs.map (fun _ => 0))
  else
    let mags := (xs.map (fun x => x.dy.abs)).filter (fun x => decide (x.m ≠ 0))
    let scale : Int := match mags.map Dy.log2 with
      | [] => 127
      | e :: es => max 0 (min 254 (es.foldl max e - emaxOf f + 127))
    (scale.toNat, xs.map (fun x => match x with
      | .fin s m e => toFF f .rne true (.fin s m (e - (scale - 127)))
      | _ => 0))

/-- What a rank brings: element codes and scales. -/
structure RankData where
  codes  : List Nat
  scales : List Nat
deriving DecidableEq, Repr

/-- The reduction in BLOCK mode of all elements: codes and scales. -/
def blockReduce (d : CollDesc) (ranks : List RankData) : RankData :=
  let h := sumShape d.ssh.toNat
  let blocks := (List.range ((d.count + 31) / 32)).map (fun b =>
    let leaf (r : RankData) : List FVal := ((r.codes.drop (32 * b)).take (min 32 (d.count - 32 * b))).map (blockLeaf d.fmt (r.scales.getD b 127))
    (treeOf (blockNode h) 10 (ranks.map leaf)).headD [])
  if matMx d.fmt then
    let es := blocks.map (mxEncode (reduceFF d.fmt))
    ⟨es.flatMap (·.2), es.map (·.1)⟩
  else ⟨blocks.flatMap (fun b => b.map (toFF .bf16 .rne false)), []⟩

/-- A node of EXACT mode: exact-sum words add (R349). -/
def eswNode (a b : Nat) : Nat :=
  let n := field b 503 0
  let v : Int := if flag b 503 then (n : Int) - 2 ^ 504 else n
  let x := eswAdd a v (flag b 504) (flag b 505) (flag b 506)
  if flag b 507 && !flag x 507 then x + 2 ^ 507 else x

/-- A leaf of EXACT mode (R43). -/
def eswLeaf (v : FVal) : Nat := eswAdd 0 ((v.dy.scale 149).toInt .rne) (v == .inf false) (v == .inf true) v.isNan

/-- An element reduced in EXACT mode. -/
def exactElem (d : CollDesc) (leaves : List Nat) : Nat :=
  let f := reduceFF d.fmt
  toFF f .rne false (eswValue ((treeOf eswNode 10 (leaves.map (fun x => eswLeaf (f.value x)))).headD 0))

/-- The reduction of every rank's source. -/
def reduceAll (d : CollDesc) (ranks : List RankData) : RankData :=
  if d.rmode = 1 then blockReduce d ranks
  else
    let at_ (j : Nat) : List Nat := ranks.map (fun r => r.codes.getD j 0)
    ⟨(List.range d.count).map (fun j => if d.rmode = 0 then treeElem d (at_ j) else exactElem d (at_ j)), []⟩

/-- What a collective leaves at rank m of n (R344). -/
def collResult (d : CollDesc) (n m : Nat) (ranks : List RankData) : RankData :=
  let sc (i : Nat) : Nat := if matMx d.fmt then i / 32 else 0
  let cut (r : RankData) (from_ len : Nat) : RankData := ⟨(r.codes.drop from_).take len, (r.scales.drop (sc from_)).take (sc len)⟩
  let join (rs : List RankData) : RankData := ⟨rs.flatMap (·.codes), rs.flatMap (·.scales)⟩
  match d.op with
  | 0 => reduceAll d ranks
  | 1 => cut (reduceAll d ranks) (d.lo n m) (d.lo n (m + 1) - d.lo n m)
  | 2 => join ranks
  | 3 => ranks.getD d.root ⟨[], []⟩
  | _ => join (ranks.map (fun r => cut r (m * d.count) d.count))

/-! ### The engine (R346) -/

/-- The parameters that ranks exchange. -/
def Coll.params (c : Coll) : CollParams :=
  let d := c.desc
  ⟨d.op, d.rmode, d.rop, d.fmt, d.count, d.root, if d.rmode = 1 then d.ssh else 0⟩

/-- A peer's parameters as they are compared. -/
def CollParams.norm (p : CollParams) : CollParams := { p with ssh := if p.rmode = 1 then p.ssh else 0 }

/-! ### The ranks and their endpoints (R342, R346, R383) -/

/-- The endpoint ID of a die of this package (R383). -/
def State.endpoint (s : State) (die : Nat) : Nat := (s.die 0).pkgid + 1024 * die

/-- A package is this one, or a port that is up reaches it (R383). -/
def State.reaches (s : State) (pkg : Nat) : Bool :=
  decide (pkg = (s.die 0).pkgid) || (List.range 18).any (fun p => decide ((s.port p).width ≠ 0) && Config.portReaches p pkg)

/-- An entry of a rank map with which a collective fails: a reserved bit is nonzero, or no port reaches its package (R383). -/
def State.endBad (s : State) (e : Nat) : Bool := decide (2048 ≤ e) || !s.reaches (e % 1024)

/-- The rank that the engine of the other die is, when a collective has one there. -/
def State.mateRank (s : State) (die : Nat) (c : Coll) : Option Nat :=
  (List.range c.ends.length).find? (fun i => decide (i ≠ c.rank) && decide (c.ends.getD i 0 = s.endpoint (1 - die)))

/-- Ranks that stand in other packages. -/
def State.farRanks (s : State) (die : Nat) (c : Coll) : List Nat :=
  (List.range c.nranks).filter (fun i => decide (i ≠ c.rank) && decide (some i ≠ s.mateRank die c))

/-- The collective that the engine of the other die runs as its rank on the same communicator: both engines keep the order of acceptance, so the
heads of their queues pair (R346; log 48). -/
def State.mate (s : State) (die : Nat) (c : Coll) : Option Coll :=
  match (s.die (1 - die)).colls with
  | [] => none
  | m :: _ => if decide (m.desc.comm = c.desc.comm) && decide (m.ends = c.ends) && decide (some m.rank = s.mateRank die c) then some m else none

/-- Replace the head of a die's engine. -/
def State.setHead (s : State) (die : Nat) (h : Coll → Coll) : State := s.modDie die (fun d => { d with colls := d.colls.modify 0 h })

/-- A collective of the head of a die's engine misses a page that can be replayed, and pauses; any other failure fails it. -/
def State.collMiss (s : State) (die : Nat) (x : Ctx) (write : Bool) (va : Nat) (e : XErr) : Option State :=
  match e with
  | .miss lv =>
    if s.fqOn x then
      let q := s.askFault x (.coll die) ⟨va, lv, write, false, true, 0xFF, die, 0⟩
      some (q.2.setHead die (fun c => { c with paused := some q.1 }))
    else none
  | _ => none

/-- The ranks exchange parameters: where any differ, all fail; else they start (R346). Those of other packages send theirs. -/
def State.meetRanks (s : State) (die : Nat) (peers : List CollParams) (c : Coll) : State :=
  let same := peers.all (fun p => decide (CollParams.norm p = c.params))
  let go (ok : Bool) (x : Coll) : Coll := if ok then { x with started := true } else { x with failed := some 1 }
  if peers.length ≠ (s.farRanks die c).length then s
  else match s.mateRank die c, s.mate die c with
    | none, _ => s.setHead die (go same)
    | some _, some m =>
      if m.started || m.failed.isSome || m.paused.isSome then s
      else let ok := same && decide (m.params = c.params); (s.setHead die (go ok)).setHead (1 - die) (go ok)
    | some _, none => s

/-- The engine takes its next collective: it reads the rank map, whose entries may make it fail with LINK, and the ranks exchange parameters (R342,
R346, R383). -/
def execCollectiveStart (die : Nat) (peers : List CollParams) (s : State) : Host.Outcome State Fault Refusal :=
  event s (fun s =>
    match (s.die die).colls with
    | [] => s
    | c :: _ =>
      if c.started || c.failed.isSome || c.paused.isSome then s
      else if !c.ends.isEmpty then s.meetRanks die peers c
      else
        match fget s.ctxs c.ctx with
        | none => s
        | some x =>
          match s.xlateRun none die x c.map (4 * c.nranks) .read with
          | .error (va, e) => (s.collMiss die x false va e).getD (s.setHead die (fun c => { c with failed := some 3 }))
          | .ok ps =>
            let r := s.readRuns c.ctx die ps
            let ends := (List.range c.nranks).map (fun i => leNat ((r.1.drop (4 * i)).take 4))
            let s1 := r.2.setHead die (fun c => { c with ends := ends })
            if ends.any s.endBad then s1.setHead die (fun c => { c with failed := some 2 })
            else s1.meetRanks die peers { c with ends := ends })

/-- A peer's data, or this rank's own. -/
def rankData (d : CollDesc) (elems : Nat) (src scales : List Byte) : RankData :=
  ⟨codesOf (collBits d.fmt) src elems, (scales.take (d.scalesOf elems)).map (·.toNat)⟩

/-- The data of every rank. -/
def Coll.ranks (c : Coll) (own : RankData) (peers : List PeerData) : List RankData :=
  (List.range c.nranks).map (fun i =>
    if i = c.rank then own
    else match peers.find? (fun p => decide (p.rank = i)) with
      | some p => rankData c.desc (c.desc.srcElems c.nranks i) p.src p.scales
      | none => rankData c.desc (c.desc.srcElems c.nranks i) [] [])

/-- The pieces of a collective's buffers: source, its scales, destination, its scales, the completion word; or what fails. -/
structure CollPages where
  src : List Span
  ssc : List Span
  dst : List Span
  dsc : List Span
  cpl : List Span
deriving DecidableEq, Repr

/-- Translate the buffers of a collective. -/
def State.collPages (s : State) (die : Nat) (x : Ctx) (c : Coll) : Except (Bool × Nat × XErr) CollPages :=
  let d := c.desc
  let ns := d.srcElems c.nranks c.rank
  let nd := d.dstElems c.nranks c.rank
  let go (w : Bool) (va n : Nat) : Except (Bool × Nat × XErr) (List Span) :=
    match s.xlateRun none die x va n (if w then .write else .read) with
    | .ok ps => .ok ps
    | .error e => .error (w, e)
  match go false c.src (d.bytesOf ns), go false c.ssc (d.scalesOf ns), go true c.dst (d.bytesOf nd), go true c.dsc (d.scalesOf nd),
      (match c.cpl with | some va => go true va 8 | none => .ok []) with
  | .ok a, .ok b, .ok e, .ok f, .ok g => .ok ⟨a, b, e, f, g⟩
  | .error e, _, _, _, _ => .error e
  | _, .error e, _, _, _ => .error e
  | _, _, .error e, _, _ => .error e
  | _, _, _, .error e, _ => .error e
  | _, _, _, _, .error e => .error e

/-- What this package's rank of a collective brings. -/
def State.collSource (s : State) (die : Nat) (c : Coll) (p : CollPages) : PeerData × State :=
  let r1 := s.readRuns c.ctx die p.src
  let r2 := r1.2.readRuns c.ctx die p.ssc
  (⟨c.rank, r1.1, r2.1⟩, r2.2)

/-- What is needed of the rank on the other die: nothing, when there is none or it has brought its data already; its collective, with its pages;
or, when it cannot bring its data yet, none. -/
def State.matePages (s : State) (die : Nat) (c : Coll) : Option (Option (Coll × CollPages)) :=
  if (s.mateRank die c).isNone || c.got.isSome then some none
  else match s.mate die c with
    | none => none
    | some m =>
      match fget s.ctxs m.ctx with
      | none => none
      | some x => match s.collPages (1 - die) x m with
        | .ok p => some (some (m, p))
        | .error _ => none

/-- The data of the rank on the other die, when there is one. -/
def State.mateData (s : State) (die : Nat) (c : Coll) (mp : Option (Coll × CollPages)) : List PeerData × State :=
  match mp with
  | some (m, p) => let r := s.collSource (1 - die) m p; ([r.1], r.2)
  | none => (c.got.toList, s)

/-- The bytes that a collective leaves in its destination and its scales, and what its own rank has brought. -/
def State.collBytes (s : State) (die : Nat) (c : Coll) (p : CollPages) (peers : List PeerData) : List Byte × List Byte × PeerData × State :=
  let d := c.desc
  let ns := d.srcElems c.nranks c.rank
  let own := s.collSource die c p
  let out := collResult d c.nranks c.rank (c.ranks (rankData d ns own.1.src own.1.scales) peers)
  let old := own.2.readRuns c.ctx die (p.dst.drop (p.dst.length - 1))
  (bytesOfCodes (collBits d.fmt) ((old.1.getLastD 0).toNat / 16) out.codes, out.scales.map (BitVec.ofNat 8), own.1, old.2)

/-- The bytes of some runs, each with its page. -/
def spanBytes : List Span → List Byte → List LeafByte
  | [], _ => []
  | p :: ps, bs => ((bs.take p.n).zipIdx.map (fun b => ((⟨p.pa + b.2, 1, true, p.trk⟩ : Leaf), b.1))) ++ spanBytes ps (bs.drop p.n)

/-- A run of writes of which each 4-byte sector lands or not, as the part chooses (R346). -/
def State.writeSome (s : State) (ctx die : Nat) (ps : List Span) (bs : List Byte) : State :=
  let r := s.engineBytes ctx die (fun pa => Config.freeBool (s.free + pa / 4)) (spanBytes ps bs)
  { r with free := r.free + 2 ^ 50 }

/-- The engine is rid of its head: the end of a COLL is an acquire by its participant (R260). -/
def State.dropColl (s : State) (die : Nat) : State :=
  let s1 := s.modDie die (fun d => { d with colls := d.colls.drop 1 })
  match (s.die die).colls with
  | [] => s1
  | c :: _ => if c.task.isSome then s1 else match s.team c.team with | some t => s1.acquire t.key true | none => s1

/-- Who issued a collective, for its record. -/
def State.collWho (s : State) (die : Nat) (c : Coll) : LogWho :=
  if c.task.isSome then dieWho die else match s.team c.team with | some t => t.who c.grp | none => dieWho die

/-- A collective ends in failure: its word, its record, its task's fault; the rank on the other die fails with it, unless it has what it needs of this
one (R346). -/
def State.failColl (s : State) (die code : Nat) (c : Coll) (cpl : List Span) : State :=
  let s0 := match s.mateRank die c, s.mate die c with
    | some _, some m => if m.failed.isNone && m.got.isNone then s.setHead (1 - die) (fun x => { x with failed := some code }) else s
    | _, _ => s
  let s1 := s0.writeRuns c.ctx die cpl (List.replicate 8 0xFF)
  let s2 := s1.ctxLog c.ctx 7 1 (s1.collWho die c) (leBytes 4 code ++ leBytes 4 c.desc.comm ++ leBytes 8 c.desc.seq.toNat)
  let s3 := s2.dropColl die
  match c.task with
  | some id => s3.faultTask id
  | none => s3

/-- The pages of a collective's completion word, where they can be had. -/
def State.cplPages (s : State) (die : Nat) (x : Ctx) (c : Coll) : List Span :=
  match c.cpl with
  | some va => (match s.xlateRun none die x va 8 .write with | .ok ps => ps | .error _ => [])
  | none => []

/-- The head of a die's engine has what every other rank brings: its destination and its word are written, and its own data stands ready for the
rank on the other die. -/
def State.finishColl (s : State) (die : Nat) (c : Coll) (p : CollPages) (mp : Option (Coll × CollPages)) (peers : List PeerData) : State :=
  let q := s.mateData die c mp
  let r := q.2.collBytes die c p (q.1 ++ peers)
  let s1 := ((r.2.2.2.writeRuns c.ctx die p.dst r.1).writeRuns c.ctx die p.dsc r.2.1).writeRuns c.ctx die p.cpl (leBytes 8 c.desc.seq.toNat)
  (match mp with | some _ => s1.setHead (1 - die) (fun m => { m with got := some r.2.2.1 }) | none => s1).dropColl die

/-- The head of a die's engine finishes: with its data, or in failure; a miss that can be replayed pauses it. Ranks of other packages bring their data,
and their links or they may fail. -/
def execCollectiveComplete (die : Nat) (outcome : CollEnd) (peers : List PeerData) (s : State) : Host.Outcome State Fault Refusal :=
  event s (fun s =>
    match (s.die die).colls with
    | [] => s
    | c :: _ =>
      match fget s.ctxs c.ctx with
      | none => s
      | some x =>
        if c.paused.isSome || !(c.started || c.failed.isSome) then s
        else
          let far := !(s.farRanks die c).isEmpty
          let ended := match c.failed, outcome with
            | some n, _ => some n
            | none, .link => if far then some 2 else none
            | none, .fault => if far then some 3 else none
            | none, .ok => none
          match ended, s.collPages die x c with
          | some 1, _ => s.failColl die 1 c (s.cplPages die x c)
          | some n, .ok p =>
            if c.started then
              let r := s.collBytes die c p (c.got.toList ++ peers)
              ((r.2.2.2.writeSome c.ctx die p.dst r.1).writeSome c.ctx die p.dsc r.2.1).failColl die n c (s.cplPages die x c)
            else s.failColl die n c (s.cplPages die x c)
          | some n, .error _ => s.failColl die n c (s.cplPages die x c)
          | none, .ok p =>
            (match s.matePages die c with
            | none => s
            | some mp =>
              if !(s.farRanks die c).all (fun i => peers.any (fun q => decide (q.rank = i))) then s
              else
                match s.engineSnoops ((p.src ++ p.ssc ++ (match mp with | some y => y.2.src ++ y.2.ssc | none => [])).map (·.pa)) false,
                    s.engineSnoops ((p.dst ++ p.dsc ++ p.cpl).map (·.pa)) true with
                | some a, _ => a
                | _, some a => a
                | none, none => s.finishColl die c p mp peers)
          | none, .error (w, va, e) => (s.collMiss die x w va e).getD (s.failColl die 3 c (s.cplPages die x c)))

/-- Collectives under way that have a rank among some endpoints fail with LINK (R346, R389). -/
def State.linkLost (s : State) (lost : Nat → Bool) : State :=
  (List.range 2).foldl (fun (a : State) die => a.modDie die (fun d => { d with colls := d.colls.map (fun c =>
    if c.started && c.failed.isNone && c.ends.any lost then { c with failed := some 2 } else c) })) s

end Sys2Proof.Machine
end

