-- ==== Sys2Proof/Machine/Deterministic.lean ====
section
/-!
DEFINITION. Deterministic grids: DXSYNC, DXQ, and the commit of a quantum (R308, R329 to R340).
-/

namespace Sys2Proof.Machine

/-! ### DXSYNC and DXQ (R338 to R340) -/

/-- The grid of a team. -/
def State.gridOf (s : State) (t : Team) : Option Grid := fget s.grids t.grid

/-- Commits that a team's grid has completed. -/
def State.commitsOf (s : State) (t : Team) : Nat := ((s.gridOf t).map (·.commits)).getD 0

def doDxsync (c : Ctl) (d : Reg) (w : Who) (s : State) : State :=
  match s.team w.team with
  | none => s
  | some t =>
    if t.kern.dx.isSome then s.giveAll (.dxsync c d) w (wr64 d (BitVec.ofNat 64 (s.commitsOf t + 1)))
    else (s.fenceBy w t.key .ar .device false).giveAll (.dxsync c d) w (wr64 d 0)

/-- DXSYNC: the commits completed, this one included; outside a deterministic grid a FENCE.AR.DEVICE, and 0. -/
def execDxsync (c : Ctl) (d : Reg) (s : State) : Host.Outcome State Fault Refusal :=
  native (.dxsync c d) s (afterOrder (syncBody (.dxsync c d) .fibre (doDxsync c d)))

/-- The value that DXQ names. -/
def State.dxq (s : State) (t : Team) (sel : Nat) : Word :=
  match t.kern.dx with
  | none => 0
  | some q =>
    let n : DWord := BitVec.ofNat 64 (s.commitsOf t)
    match sel with
    | 0 => 1
    | 1 => BitVec.ofNat 32 q
    | 2 => n.lo
    | _ => n.hi

/-- DXQ. -/
def execDxq (c : Ctl) (sel : BitVec 2) (d : Reg) (s : State) : Host.Outcome State Fault Refusal :=
  native (.dxq c sel d) s (fun w s =>
    match s.team w.team with
    | some t => s.giveAll (.dxq c sel d) w [(.v d, s.dxq t sel.toNat)]
    | none => s)

/-! ### Stopped (R330, R331) -/

/-- A group has stopped for the quantum: every fibre of it has stopped, waits or is parked, and a fibre that sleeps has not. A path behind a front
path that cannot issue cannot either, and its fibres count as stopped (R97, R331, R336; log 47). -/
def Group.stopped (x : Group) : Bool :=
  decide (x.bundle = 0) && !x.asleep && (match x.paths with | [] => true | p :: _ => decide (p.kind ≠ .ready))

/-- The teams of a grid. -/
def State.gridTeams (s : State) (gid : Nat) : List (Nat × Team) := s.teams.filter (fun e => decide (e.2.grid = gid) && decide (e.2.status ≠ .retired))

/-- Every live fibre of the grid has stopped, and there is something to commit. -/
def State.gridStopped (s : State) (gid : Nat) : Bool :=
  let ts := s.gridTeams gid
  ts.all (fun e => e.2.groups.all (fun x => x.fibres.all (fun f => !f.live) || x.stopped)) &&
  ts.any (fun e => e.2.groups.any (fun x => x.fibres.any (·.live) || !x.dxbuf.isEmpty)) &&
  ts.all (fun e => e.2.groups.all (fun x => decide (x.bundle = 0)))

/-- The effective clock of a fibre. -/
def Fibre.effective (f : Fibre) (q : Nat) : Nat := f.lclk.toNat + (if f.wait.isSome then q * f.waited else 0)

/-- The grid minimum; none when no fibre lives. -/
def State.gridMin (s : State) (gid q : Nat) : Option Nat :=
  ((s.gridTeams gid).flatMap (fun e => e.2.groups.flatMap (fun x => (x.fibres.filter (·.live)).map (fun f => f.effective q)))).foldl
    (fun (m : Option Nat) n => some (match m with | some k => min k n | none => n)) none

/-! ### Step 1: the buffers (R332, R334) -/

/-- A group by its place in the order of step 1. -/
structure DxGroup where
  key  : List Nat
  team : Nat
  grp  : Nat
deriving DecidableEq, Repr

/-- Insert by key. -/
def insertKey {α : Type} (key : α → List Nat) (x : α) : List α → List α
  | [] => [x]
  | y :: ys => if key x < key y then x :: y :: ys else y :: insertKey key x ys

/-- Sort by key; equal keys keep their order. -/
def sortKey {α : Type} (key : α → List Nat) (xs : List α) : List α := xs.foldl (fun r x => insertKey key x r) []

/-- The groups of a grid in ascending CLUSID, TEAMID, GRPID. -/
def State.gridGroups (s : State) (gid : Nat) : List DxGroup :=
  sortKey (·.key) ((s.gridTeams gid).flatMap (fun e => (List.range e.2.groups.length).map (fun g => ⟨[e.2.clusid, e.2.teamid, g], e.1, g⟩)))

/-- The source of a buffered copy as the commit finds it at its place: as many of its bytes as their pages are at hand (R334). -/
def State.takeSource (s : State) (t : Team) (kind : CopyKind) : List Byte × State :=
  match kind with
  | .acpy src _ size _ _ trk => s.sourceRead t.ctx t.die trk src 0 size
  | .mcpy shape base bytes _ _ _ =>
    let h := shapeOf shape
    let n := s.tileReady (some t.key) t.die (s.ctxOf t) h base 0 (bytes / 4)
    match s.tilePas (some t.key) t.die (s.ctxOf t) h base 0 (4 * n) with
    | .ok pas => s.enginePas t.ctx t.die pas
    | .error _ => ([], s)

/-- Hand a buffered copy to the Sluice with its source (R334). -/
def State.handCopy (s : State) (t : Team) (c : Copy) : State :=
  let r := s.takeSource t c.kind
  r.2.addCopy t.key { c with data := r.1 }

/-- A buffered store takes its place at the home: the core's own copy of the line goes first. -/
def State.commitStore (s : State) (t : Team) (trk : Bool) (pa : Nat) (bs : List Byte) : State :=
  match s.objIf trk t.ctx (pa / 128) with
  | some _ => s.engineWrite t.ctx t.die trk pa bs
  | none => (s.evictLine t.key (pa / 128)).homeWrite pa bs

/-- A buffered request is performed at its home, as its part's protocol takes it (R271). -/
def State.commitReq (s : State) (t : Team) (tid g op : Nat) (r : Option (Nat × Nat) × ReqKind) : State :=
  let q := s.fresh
  State.performNow { q.2 with reqs := fset q.2.reqs q.1 ⟨tid, g, op, r.2, r.1.isSome, false, 0, true, none⟩ } t q.1 r.1

/-- Apply one entry of a group's buffer. -/
def State.applyItem (s : State) (tid g : Nat) (x : DxItem) : State :=
  match s.team tid with
  | none => s
  | some t =>
    let k := t.key
    match x.what with
    | .st trk ws => (ws.foldl (fun (a : State) w => a.commitStore t trk w.2.1 w.2.2) s).finishOps x.ops
    | .stv ws => (ws.foldl (fun (a : State) w => a.vaultWrite w.1 w.2.1 w.2.2) s).finishOps x.ops
    | .reqs rs => (rs.foldl (fun (a : State) r => a.commitReq t tid g (x.ops.headD 0) r) s).finishOps x.ops
    | .cmaint op lines => (lines.foldl (fun (a : State) l => a.maintain k l op) s).finishOps x.ops
    | .tbar code acts => (acts.foldl (fun (a : State) c => a.tbarDo c.1 c.2.1 (fun b => b.apply code c.2.2)) s).finishOps x.ops
    | .acpy items => items.foldl (fun (a : State) e =>
        let b := match e.2 with
          | .acpy (.mem pa) .. => a.pushAny k (pa / 128)
          | _ => a
        b.handCopy t ⟨tid, g, e.1, x.ops, e.2, 0, none, []⟩) s
    | .mcpy leader kind =>
      (match kind with
      | .mcpy _ _ bytes _ mask _ =>
        if bytes = 0 || decide (mask = 0) then s.finishOps x.ops else (s.pushAll k true).handCopy t ⟨tid, g, leader, x.ops, kind, 0, none, []⟩
      | _ => s)
    | .sshape n v => (s.modTeam tid (fun y => { y with ssh := y.ssh.set n v })).finishOps x.ops
    | .elogSync => (s.flushEvent tid g).finishOps x.ops
    | .elogPut a b => (s.userRecord t g a b).finishOps x.ops
    | .event e => s.eventWrite t.ctx (eventBytes t g e)

/-- Apply a group's buffer, then write its open event record. -/
def State.applyGroup (s : State) (x : DxGroup) : State :=
  let items := ((s.group x.team x.grp).map (·.dxbuf)).getD []
  let s1 := s.modGroup x.team x.grp (fun y => { y with dxbuf := [] })
  (items.foldl (fun (a : State) i => a.applyItem x.team x.grp i) s1).flushEvent x.team x.grp

/-- The lines that the buffers of a grid write. -/
def State.bufferLines (s : State) (gid : Nat) : List Nat :=
  ((s.gridGroups gid).flatMap (fun x => (((s.group x.team x.grp).map (·.dxbuf)).getD []).flatMap (fun i =>
    match i.what with
    | .st _ ws => ws.map (fun w => 128 * (w.2.1 / 128))
    | .reqs rs => rs.filterMap (fun r => (r.2.place?.bind (fun p => p.1.line?)).map (128 * ·))
    | _ => []))).eraseDups

/-- The global bytes that the copies in a grid's buffers read, as far as their pages are at hand. -/
def State.copyPas (s : State) (gid : Nat) : List Nat :=
  (s.gridGroups gid).flatMap (fun x => (((s.group x.team x.grp).map (·.dxbuf)).getD []).flatMap (fun i =>
    match s.team x.team, i.what with
    | some _, .acpy items => items.filterMap (fun e => match e.2 with | .acpy (.mem pa) .. => some pa | _ => none)
    | some t, .mcpy _ (.mcpy shape base bytes _ _ _) =>
      let n := s.tileReady (some t.key) t.die (s.ctxOf t) (shapeOf shape) base 0 (bytes / 4)
      (match s.tilePas (some t.key) t.die (s.ctxOf t) (shapeOf shape) base 0 (4 * n) with | .ok pas => pas.map (·.pa) | .error _ => [])
    | _, _ => []))

/-! ### Step 2: synchronising operations (R332, R334, R335) -/

/-- What a synchronising instruction does for its fibres. -/
def syncAct (late : Bool) : Instr → Option (Who → State → State)
  | .atom c k op ty sp a d => some (doAtom c k op ty sp a d)
  | .acas c k ty sp a d => some (doAcas c k ty sp a d)
  | .excvt c k b cl sp a d => some (doExcvt c k b cl sp a d)
  | .waitc c cond uo b a d => some (doWaitc late c cond uo b a d)
  | .llock c uo b a d => some (doLock (.llock c uo b a d) false uo b a d)
  | .ltry c uo b a d => some (doLock (.ltry c uo b a d) true uo b a d)
  | .lunlk c uo b a d => some (doUnlock (.lunlk c uo b a d) uo b a d)
  | .lstat c b a d => some (doLstat c b a d)
  | .bar c op uo cnt id d a b => some (doBar (.bar c op uo cnt id d a b) false op uo cnt id.toNat d a b)
  | .cbar c op uo cnt id d a b => some (doBar (.cbar c op uo cnt id d a b) true op uo cnt id.toNat d a b)
  | .tbarWait c p a off d => some (doTbarWait c p a off d)
  | .tbarTest c p a off d => some (doTbarTest c p a off d)
  | .mxm c d a imm => some (doMxm c d a imm)
  | .mxldZero c i b d => some (doMxldZero c i b d)
  | .mxldFill c i b d e => some (doMxldFill c i b d e)
  | .mxldRestore c i b d a imm => some (doMxldRestore c i b d a imm)
  | .mxst c b d a imm => some (doMxst c b d a imm)
  | .mxwait c a => some (doMxwait c a)
  | .mstat c cl sel d => some (doMstat c cl sel d)
  | .strmOpen c d a => some (doStrmOpen c d a)
  | .strmSub c n d a b => some (doStrmSub c n d a b)
  | .strmUnsub c a => some (doStrmUnsub c a)
  | .strmClose c a => some (doStrmClose c a)
  | .taskpost c d a b imm => some (doTaskpost c d a b imm)
  | .taskseq c d b => some (doTaskseq c d b)
  | .taskseqWait c a b => some (doTaskseqWait c a b)
  | .coll c d a imm => some (doColl c d a imm)
  | .objdecl c sl d a => some (doObjdecl c sl d a)
  | .objrel c d a => some (doObjrel c d a)
  | .protld c sl d a => some (doProtld c sl d a)
  | .tlbiAll c => some (doTlbiAll c)
  | .tlbiVa c a => some (doTlbiVa c a)
  | .tlbiPart c => some (doTlbiPart c)
  | .acqr c uo a => some (doAcqr c uo a)
  | .dxsync c d => some (doDxsync c d)
  | .elogCnt c d => some (doElogCnt c d)
  | _ => none

/-- The position at which a waiting fibre's registers are read: every fixed latency has elapsed. -/
def dxPos : Nat := 0xFFFF

/-- Perform a waiting operation for the fibres of it that still wait. -/
def State.performDx (s : State) (late : Bool) (x : DxOp) : State :=
  let lanes := x.lanes.filter (fun l => decide ((s.fibre x.team l.1 l.2).wait = some .dx))
  let w : Who := ⟨0, x.team, x.clause, x.idx, x.count, dxPos, 0, x.word, lanes, lanes, x.ops⟩
  if lanes.isEmpty then s
  else match syncAct late x.instr with
    | some act => act w s
    | none => s

/-- The fibres of a waiting operation that still wait for a commit. -/
def State.stillDx (s : State) (x : DxOp) : DxOp :=
  { x with lanes := x.lanes.filter (fun l => decide ((s.fibre x.team l.1 l.2).wait = some .dx)) }

/-- Keep the operations of a grid whose fibres still wait for a commit. -/
def State.keepDx (s : State) (gid : Nat) : State :=
  let kept (xs : List DxOp) : List DxOp := (xs.map s.stillDx).filter (fun x => !x.lanes.isEmpty)
  { s with grids := fmod s.grids gid (fun g => { g with dxops := kept g.dxops }) }

/-- The grid's own copies are outstanding. -/
def State.gridCopies (s : State) (gid : Nat) : Bool :=
  (s.gridTeams gid).any (fun e => (s.core e.2.key).copies.any (fun c => decide (c.2.team = e.1)))

/-- A stream has a tile to deliver to a core's engine. -/
def State.tileDue (s : State) (k stream : Nat) : Bool :=
  (s.core k).eng.subs.any (fun u => decide (u.stream = stream) &&
    (match fget (s.die (k / 72)).streams stream with
    | some x => decide (u.next < x.tiles) && decide (u.tiles.length < u.window)
    | none => false))

/-- The engine of a core can go on with an operation, or waits for the answer to a fault record, for a tile on its way, or for data from a neighbour
that can go on (by fuel, a row of eight). -/
def State.matrixGoes (s : State) : Nat → Nat → Bool
  | 0, _ => false
  | n + 1, k =>
    let e := (s.core k).eng
    match e.queue with
    | [] => false
    | o :: _ => o.paused.isSome || (match o.kind, s.holderTeam k with
        | .mxm d _, some t =>
          (!(t.share d).fromWest || !e.inbox.isEmpty ||
            (decide (0 < t.core % 8) && (!(s.core (k - 1)).eng.outbox.isEmpty || s.matrixGoes n (k - 1)))) &&
          (decide (s.tileFor k d ≠ .wait) || s.tileDue k (d.bloc % 64))
        | .mxm _ _, none => true
        | _, _ => true)

/-- A team's queued engine operations can go on. -/
def State.matrixBusy (s : State) (tid : Nat) (t : Team) : Bool :=
  decide ((s.core t.key).eng.holder = some (Holder.team tid)) && s.matrixGoes 8 t.key

/-- A collective that the grid issued is outstanding. -/
def State.gridColls (s : State) (gid : Nat) : Bool :=
  (s.gridTeams gid).any (fun e => s.dies.any (fun d => d.2.colls.any (fun c => c.task.isNone && decide (c.team = e.1))))

/-- The outcome of a waiting operation depends on an engine operation of its grid that is outstanding (R335): on a copy, on a matrix operation and the
stream tiles it waits for, on room in the engine's queue, on a collective's word, or on room in the collective engine's queue. -/
def State.dependsOn (s : State) (gid : Nat) (x : DxOp) : Bool :=
  let matrix : Bool := match s.team x.team with | some t => s.matrixBusy x.team t | none => false
  let full : Bool := match s.team x.team with | some t => s.queueFull t | none => false
  match x.instr with
  | .tbarWait .. | .tbarTest .. => s.gridCopies gid
  | .mxwait .. | .mstat .. => matrix
  | .mxm .. | .mxldZero .. | .mxldFill .. | .mxldRestore .. | .mxst .. => full && matrix
  | .waitc .. => s.gridColls gid
  | .coll .. => s.gridColls gid && (match s.team x.team with | some t => decide (16 ≤ (s.die t.die).colls.length) | none => false)
  | _ => false

/-- Perform operations in order up to the first that depends on an engine operation still outstanding: those left come back (R334, R335). -/
def State.runDx (s : State) (gid : Nat) : List DxOp → State × List DxOp
  | [] => (s, [])
  | x :: rest => if s.dependsOn gid (s.stillDx x) then (s, x :: rest) else (s.performDx false x).runDx gid rest

/-! ### Steps 3 and 4, and the end of a commit (R308, R330, R334, R336, R337) -/

/-- A WAITC of the grid expires. -/
def State.expireWaitc (s : State) (gmin : Nat) (x : DxOp) : State :=
  match x.instr with
  | .waitc _ _ _ _ _ d =>
    let due (l : Nat × Nat) : Bool :=
      let tm := (s.fibre x.team l.1 l.2).get dxPos (d + 1)
      decide (tm ≠ 0xFFFFFFFF#32) && decide (x.key.headD 0 + 1024 * tm.toNat < gmin)
    s.performDx true { x with lanes := x.lanes.filter due }
  | _ => s

/-- The lock waits of a grid in ascending key. -/
def State.gridWaits (s : State) (gid : Nat) : List DxGroup :=
  sortKey (·.key) ((s.gridTeams gid).flatMap (fun e => (List.range e.2.groups.length).filterMap (fun g =>
    (e.2.groups[g]?.bind (fun x => x.lwait)).map (fun (w : LockWait) => ⟨w.key, e.1, g⟩))))

/-- Lock waits whose timeout the grid minimum has passed expire; then every waiter's probe runs. -/
def State.expireLocks (s : State) (gid gmin : Nat) : State :=
  let wait (a : State) (x : DxGroup) : Option LockWait := (a.group x.team x.grp).bind (·.lwait)
  let s1 := (s.gridWaits gid).foldl (fun (a : State) x =>
    match wait a x with
    | some w => (match w.left with | some n => if w.key.headD 0 + n < gmin then a.lockExpire x.team x.grp else a | none => a)
    | none => a) s
  (s1.gridWaits gid).foldl (fun (a : State) x =>
    match wait a x with
    | some w => if w.probe.isSome then a.lockProbe x.team x.grp else a
    | none => a) s1

/-- The stopped paths of a group run on, by fuel (R100, R331). -/
def Group.resumeGo : Nat → Group → Group
  | 0, x => x
  | n + 1, x =>
    match (List.range x.paths.length).find? (fun i => match x.paths[i]? with | some p => decide (p.kind = .stopped) | none => false) with
    | none => x
    | some i => Group.resumeGo n (x.readyPath i)

/-- The next quantum begins for a group. -/
def Group.nextQuantum (x : Group) (q fairq now : Nat) : Group :=
  { Group.resumeGo x.paths.length x with
    dxgone := 0, dxran := false, timer := if x.dxran then x.timer else max x.timer (min fairq (x.timer + q)),
    readyAt := match x.paths with | p :: _ => if p.kind = .stopped then max x.readyAt now else x.readyAt | [] => x.readyAt,
    fibres := x.fibres.map (fun f => { f with clkQ := f.lclk, waited := if f.wait.isSome then f.waited + 1 else 0 }) }

/-- A lock is on its way to a core of the grid: a part still answers its request for the line (R337). -/
def State.gridHandoff (s : State) (gid : Nat) : Bool :=
  (s.gridTeams gid).any (fun e => s.slices.any (fun x => x.2.parts.any (fun p =>
    (p.2.queue ++ (match p.2.second with | some y => [y.2] | none => [])).any (fun rq =>
      match rq.kind with | .lock t _ => decide (t = e.1) | _ => false))))

/-- A tile is on its way to an engine that a team of the grid holds. -/
def State.gridTiles (s : State) (gid : Nat) : Bool :=
  (s.gridTeams gid).any (fun e => decide ((s.core e.2.key).eng.holder = some (Holder.team e.1)) &&
    (s.core e.2.key).eng.subs.any (fun u => s.tileDue e.2.key u.stream))

/-- The grid stands at a safe point: no buffer holds anything, no engine operation or lock handoff of it is outstanding, every matrix queue is empty,
and no save of it is deferred (R300, R337). -/
def State.safePoint (s : State) (gid : Nat) : Bool :=
  let ts := s.gridTeams gid
  ts.any (fun e => match e.2.status with | .saving .. => true | _ => false) &&
  ts.all (fun e => e.2.defer.isNone && e.2.groups.all (fun g => g.dxbuf.isEmpty) && decide (e.2.doneT = e.2.issued)) &&
  !s.gridCopies gid && !s.gridColls gid && !s.gridTiles gid && !s.gridHandoff gid

/-- The end of a commit: locks it has released pass on, timeouts expire and probes run, and the next quantum begins (R308, R334). -/
def State.endCommit (s : State) (gid q : Nat) : State :=
  let s1 : State := (s.settleLocks gid).keepDx gid
  let s2 : State := match s1.gridMin gid q with
    | some m =>
      let left : List DxOp := sortKey DxOp.key (((fget s1.grids gid).map (·.dxops)).getD [])
      ((left.foldl (fun (a : State) x => a.expireWaitc m x) s1).keepDx gid).expireLocks gid m
    | none => s1
  let s3 := (s2.gridTeams gid).foldl (fun (a : State) e =>
    (a.modTeam e.1 (fun t => { t with groups := t.groups.map (fun x => x.nextQuantum q t.kern.fairq (a.coreClock t.part)) })).acquire e.2.key true) s2
  { s3 with grids := fmod s3.grids gid (fun g => { g with commits := g.commits + 1, applied := false, safe := s3.safePoint gid }) }

/-- Steps 2 to 4 of a commit, or as far as they go before an engine operation holds them (R335). -/
def State.goCommit (s : State) (gid q : Nat) : State :=
  let r := s.runDx gid (((fget s.grids gid).map (·.todo)).getD [])
  let s1 := { r.1 with grids := fmod r.1.grids gid (fun g => { g with todo := r.2 }) }
  if r.2.isEmpty then s1.endCommit gid q else s1

/-- Step 1 of a commit: the buffers are applied, barriers count the fibres that live, and the waiting operations stand in ascending key (R334). -/
def State.beginCommit (s : State) (gid : Nat) : State :=
  let s1 := (s.gridGroups gid).foldl (fun (a : State) x => a.applyGroup x) s
  let s2 := (s1.gridTeams gid).foldl (fun (a : State) e => a.barSettleAll e.1) s1
  { s2 with grids := fmod s2.grids gid (fun g => { g with applied := true, todo := sortKey DxOp.key g.dxops }) }

/-- Every live fibre of a deterministic grid has stopped: the grid commits. The commit is held while a waiting operation depends on an engine
operation of the grid (R334, R335). -/
def execQuantumCommit (task : Nat) (s : State) : Host.Outcome State Fault Refusal :=
  event s (fun s =>
    match (fget s.tasks task).bind (·.grid) with
    | none => s
    | some gid =>
      match fget s.grids gid with
      | none => s
      | some g =>
        match g.kern.dx with
        | none => s
        | some q =>
          if g.applied then s.goCommit gid q
          else if g.safe || !s.gridStopped gid then s
          else
            match s.engineSnoops (s.bufferLines gid) true, s.engineSnoops (s.copyPas gid) false with
            | some a, _ => a
            | _, some a => a
            | none, none => (s.beginCommit gid).goCommit gid q)

end Sys2Proof.Machine
end

