-- ==== Sys2Proof/Machine/Registers.lean ====
section
/-!
DEFINITION. The register space that the companion processor writes: queues, contexts, partitions, fault queues, locks, stale counters,
communicators, RAS, ports, boot and attestation (R45 to R47, R53, R54, R57, R58, R181, R235, R242, R303, R328, R341, R350, R389, R390,
R392, R395, R400).
-/

namespace Sys2Proof.Machine

/-! ### Contexts that come into use (R350, R351) -/

/-- The context block breaks a range, an alignment or a reserved field (R351). -/
def ctxBlockBad (x : Nat) : Bool :=
  decide (field x 1023 704 ≠ 0) || decide (field x 511 480 ≠ 0) || decide (field x 351 324 ≠ 0) || decide (field x 223 196 ≠ 0) ||
  decide (field x 127 97 ≠ 0) || decide (field x 447 384 % 65536 ≠ 0) || decide (field x 323 320 < 6) || decide (field x 319 256 % 4096 ≠ 0) ||
  decide (field x 195 192 < 6) || decide (field x 191 128 % 4096 ≠ 0) || decide (field x 63 0 % 8192 ≠ 0)

/-- The context that a block describes, for a partition. -/
def ctxOfBlock (x part : Nat) (caps : List Word) : Ctx :=
  { id := BitVec.ofNat 32 (field x 95 64), priv := flag x 96, root := field x 63 0, part := part, elbase := field x 191 128, ellog2 := field x 195 192,
    clbase := field x 319 256, cllog2 := field x 323 320, savebase := field x 447 384, savelen := field x 479 448, killed := none, saves := [], caps := caps }

/-- A queue has a task outstanding. -/
def State.queueBusy (s : State) (q : Nat) : Bool := s.tasks.any (fun e => decide (e.2.queue = q) && e.2.outstanding)

/-- The context block refuses the queue (R350). -/
def State.ctxRefuses (s : State) (q : Nat) : Bool :=
  let x := s.queue q
  let k := x.qctx.toNat
  decide (k = 0) || decide (k % 128 ≠ 0) ||
  (List.range 256).any (fun r => let y := s.queue r; y.en && decide (y.qctx = x.qctx) && decide (y.part ≠ x.part)) ||
  ((fget s.ctxs k).isNone && ctxBlockBad (memNat s.mem k 128))

/-- The context of a block is in use from now on: its fixed fields are read, and the fields that the part writes, KILLCODE and the counters, are
0, their reset value (log 44). -/
def State.useCtx (s : State) (k part : Nat) : State :=
  match fget s.ctxs k with
  | some _ => s
  | none => ({ s with ctxs := fset s.ctxs k (ctxOfBlock (memNat s.mem k 128) part (s.capList part)) } : State).homeWrite (k + 64) (leBytes 24 0)

/-! ### Queue registers (R45 to R47, R399) -/

/-- PRIO takes the written value, and PART where it is writable: the queue's EN is 0 and no task of it is outstanding. -/
def State.writePart (s : State) (q : Nat) (v : DWord) : State :=
  let x := s.queue q
  let part := field v.toNat 18 16
  let y := { x with prio := field v.toNat 12 8 }
  if part = x.part then s.setQueue q y
  else if x.en || s.queueBusy q then s.setQueue q { y with qerr := 3 }
  else s.setQueue q { y with part := part }

/-- A write of EN = 1: it starts or resumes the walk, or is refused. R46 and R399 leave open which code QERR takes where several grounds refuse the
write, and whether PRIO and PART of a refused write are taken: the model tests codes 1, 2 and 11 in that order, and takes PRIO and PART (log 44). -/
def State.enableQueue (s : State) (q : Nat) (v : DWord) : State :=
  let s1 := State.writePart (s.modQueue q (fun x => { x with qerr := 0 })) q v
  let x := s1.queue q
  if x.en then s1
  else if decide (x.qbase.toNat % 4096 ≠ 0) then s1.setQueue q { x with qerr := 1 }
  else if decide (x.qcompa.toNat % 8 ≠ 0) then s1.setQueue q { x with qerr := 2 }
  else if s1.ctxRefuses q then s1.setQueue q { x with qerr := 11 }
  else (s1.setQueue q { x with en := true, held := false, walkFail := x.walkFail && x.last.isSome, qhead := if x.held then x.qhead else x.qbase }).useCtx
    x.qctx.toNat x.part

/-- A write of EN = 0: the walker stops, after the record whose read waits for an answer; entered records stay. -/
def State.disableQueue (s : State) (q : Nat) (v : DWord) : State :=
  let s1 := s.writePart q v
  (s1.modQueue q (fun x => { x with
    en := false,
    last := if x.en && (x.walkTag.isSome || x.walkFail) && x.last.isNone then some x.qhead else x.last })).tidyCtx (s1.queue q).qctx.toNat

/-- QUEUE_ENABLE. -/
def execQueueEnable (q : Nat) (value : DWord) (s : State) : Host.Outcome State Fault Refusal :=
  event s (fun s => if q < 256 then s.enableQueue q value else s)

/-- QUEUE_DISABLE. -/
def execQueueDisable (q : Nat) (value : DWord) (s : State) : Host.Outcome State Fault Refusal :=
  event s (fun s => if q < 256 then s.disableQueue q value else s)

/-- A write of QTAIL; one that is not a multiple of 128 is ignored. -/
def State.writeTail (s : State) (q : Nat) (v : DWord) : State :=
  s.modQueue q (fun x => if v.toNat % 128 = 0 then { x with qtail := v, ahead := 0 } else { x with qerr := 4 })

/-- QTAIL_WRITE. -/
def execQtailWrite (q : Nat) (value : DWord) (s : State) : Host.Outcome State Fault Refusal :=
  event s (fun s => if q < 256 then s.writeTail q value else s)

/-- A write of QBASE, allowed while the queue is disabled; the walk then starts afresh. -/
def State.writeQbase (s : State) (q : Nat) (v : DWord) : State :=
  s.modQueue q (fun x => if x.en then (if x.qbase = v then x else { x with qerr := 3 }) else { x with qbase := v, held := false })

/-- A write of QCOMPA, allowed while the queue is disabled. -/
def State.writeQcompa (s : State) (q : Nat) (v : DWord) : State :=
  s.modQueue q (fun x => if x.qcompa = v then x else if x.en then { x with qerr := 3 } else { x with qcompa := v })

/-- A write of QCTX, allowed while the queue is disabled with no task outstanding. -/
def State.writeQctx (s : State) (q : Nat) (v : DWord) : State :=
  let busy := s.queueBusy q
  s.modQueue q (fun x => if x.qctx = v then x else if x.en || busy then { x with qerr := 3 } else { x with qctx := v })

/-- A write of KILL = 1 kills the context that runs in the queue's block. -/
def State.killWrite (s : State) (q : Nat) : State :=
  match fget s.ctxs (s.queue q).qctx.toNat with
  | some c => if c.killed.isSome then s else s.askKill ⟨(s.queue q).qctx.toNat, 12, ⟨0, 0, 0, 0, 0⟩, []⟩
  | none => s

/-- KILL. -/
def execKill (q : Nat) (s : State) : Host.Outcome State Fault Refusal := event s (fun s => if q < 256 then s.killWrite q else s)

/-! ### Partitions (R53, R54, R57, R58, R242) -/

/-- The rectangle leaves the mesh. -/
def rectBad (r : Nat × Nat × Nat × Nat) : Bool := decide (8 < r.1 + r.2.2.1) || decide (9 < r.2.1 + r.2.2.2)

/-- Some result of an optional value holds. -/
def someRect (h : Nat × Nat × Nat × Nat → Bool) (r : Option (Nat × Nat × Nat × Nat)) : Bool := match r with | some x => h x | none => false

/-- Two rectangles share a core. -/
def rectsMeet (a b : Nat × Nat × Nat × Nat) : Bool :=
  decide (a.1 < b.1 + b.2.2.1) && decide (b.1 < a.1 + a.2.2.1) && decide (a.2.1 < b.2.1 + b.2.2.2) && decide (b.2.1 < a.2.1 + a.2.2.2)

/-- Code 2: a reserved field, a rectangle that leaves the mesh, or none. -/
def descMalformed (d : Nat) : Bool :=
  decide (field d 429 384 ≠ 0) || decide (field d 311 288 ≠ 0) || decide (field d 223 11 ≠ 0) || decide (field d 7 3 ≠ 0) ||
  flag d 231 || flag d 247 || someRect rectBad (descRect d 0) || someRect rectBad (descRect d 1) ||
  ((descRect d 0).isNone && (descRect d 1).isNone)

/-- Code 3: two descriptors hold a common core. -/
def descsOverlap (a b : Nat) : Bool :=
  (List.range 2).any (fun die => match descRect a die, descRect b die with | some x, some y => rectsMeet x y | _, _ => false)

/-- Code 4: two isolated descriptors hold a common way, slot of a stack, or slot of a port. -/
def descsShare (a b : Nat) : Bool :=
  descIsol a && descIsol b &&
  (decide (field a 271 256 &&& field b 271 256 ≠ 0) || decide (field a 287 272 &&& field b 287 272 ≠ 0) ||
   (decide (field a 319 312 &&& field b 319 312 ≠ 0) && decide (field a 383 320 &&& field b 383 320 ≠ 0)) ||
   (decide (field a 447 430 &&& field b 447 430 ≠ 0) && decide (field a 511 448 &&& field b 511 448 ≠ 0)))

/-- Code 5: an isolated descriptor holds no way, slot or stack that it needs. -/
def descLacks (d : Nat) : Bool :=
  descIsol d &&
  (((descRect d 0).isSome && decide (field d 271 256 = 0)) || ((descRect d 1).isSome && decide (field d 287 272 = 0)) ||
   decide (field d 383 320 = 0) || decide (field d 319 312 = 0) || (decide (field d 511 448 = 0) && decide (field d 447 430 ≠ 0)))

/-- Code 6: a fixed clock or no lending, without isolation. -/
def descLoose (d : Nat) : Bool := !descIsol d && (descFixclk d || descNolend d)

/-- The partition has resident or outstanding work, or an enabled queue (R54). -/
def State.partBusy (s : State) (p : Nat) : Bool :=
  s.teams.any (fun e => decide (e.2.part = p) && decide (e.2.status ≠ .retired)) || s.tasks.any (fun e => decide (e.2.part = p) && e.2.outstanding) ||
  s.dies.any (fun d => d.2.colls.any (fun c => decide (c.part = p))) || (List.range 256).any (fun q => (s.queue q).en && decide ((s.queue q).part = p))

/-- The descriptors of the other committed partitions. -/
def State.otherDescs (s : State) (p : Nat) : List Nat := (List.range 8).filterMap (fun r => if r = p then none else (s.part r).live)

/-- The first failing code of a commit, 0 when none fails. -/
def State.commitCode (s : State) (p : Nat) : Nat :=
  let d := (s.part p).desc
  if s.partBusy p then 1
  else if descMalformed d then 2
  else if (s.otherDescs p).any (descsOverlap d) then 3
  else if (s.otherDescs p).any (descsShare d) then 4
  else if descLacks d then 5
  else if descLoose d then 6
  else 0

/-- A core that has changed its partition goes on counting from where it stood (R144). -/
def State.keepTick (s before : State) (k : Nat) : State :=
  if s.partOf k = before.partOf k then s else s.modCore k (fun c => { c with gap := c.gap + (before.tick16 k - s.tick16 k), slots := [] })

/-- A commit takes effect: every tile is EMPTY and sequence numbers start at 1 (R54, R236, R237). -/
def State.commitPart (s : State) (p : Nat) : State :=
  let s1 := s.discard ((s.tasks.filter (fun e => decide (e.2.part = p))).map (·.1))
  let s2 := s1.modPart p (fun x => { x with live := some x.desc, cstat := 0, tiles := [], drain := false, steps := if descFixclk x.desc then 0 else x.steps })
  let s3 := (List.range 256).foldl (fun (a : State) q =>
    if (a.queue q).part = p then a.modQueue q (fun x => { x with seq := 1, comp := 0, word := 0, stuck := none, irqs := [], pend := [], wordTag := none, ahead := 0 }) else a) s2
  let s31 := (List.range 144).foldl (fun (a : State) k => a.keepTick s k) s3
  let cores := if descNolend (s3.desc p) then (List.range 144).filter (fun k => s3.inRect p (k / 72) (k % 72)) else []
  let s4 := cores.foldl (fun (a : State) k => a.shrink k) s31
  { s4 with attest := { s4.attest with gen := s4.attest.gen + 1 } }

/-- A write of 1 to PCTL[0]. -/
def State.commitWrite (s : State) (p : Nat) : State :=
  let code := s.commitCode p
  if code = 0 then s.commitPart p else s.modPart p (fun x => { x with cstat := code })

/-- COMMIT. -/
def execCommit (p : Nat) (s : State) : Host.Outcome State Fault Refusal := event s (fun s => if p < 8 then s.commitWrite p else s)

/-- A write of 1 to PCTL[1]. -/
def State.oversubWrite (s : State) (p : Nat) : State := s.modPart p (fun x => { x with oversub := 0 })

/-- OVERSUB_CLEAR. -/
def execOversubClear (p : Nat) (s : State) : Host.Outcome State Fault Refusal := event s (fun s => if p < 8 then s.oversubWrite p else s)

/-- A write of 1 to PCTL[2]: the partition runs again; halted teams go on from where they stood, their front paths ready from now on (R102). -/
def State.resumeWrite (s : State) (p : Nat) : State :=
  if (s.part p).stopped then
    let s1 := s.modPart p (fun x => { x with stopped := false })
    { s1 with teams := s1.teams.map (fun (e : Nat × Team) =>
        if e.2.part = p && decide (e.2.status = .halted) then
          (e.1, { e.2 with status := .resident, groups := e.2.groups.map (fun g => { g with readyAt := s1.coreClock p }) }) else e) }
  else s

/-- RESUME. -/
def execResume (p : Nat) (s : State) : Host.Outcome State Fault Refusal := event s (fun s => if p < 8 then s.resumeWrite p else s)

/-- A write of 1 to PCTL[3]: tasks that have not started are discarded; the tiles empty once the started ones have ended. -/
def State.drainWrite (s : State) (p : Nat) : State :=
  let ids := (s.tasks.filter (fun e => decide (e.2.part = p) && decide (e.2.state = .entered))).map (·.1)
  let ctxs := ((s.tasks.filter (fun e => ids.contains e.1)).map (·.2.ctx)).eraseDups
  let s1 := State.settleDrain ((s.discard ids).modPart p (fun x => { x with drain := true })) p
  ctxs.foldl (fun (a : State) k => a.tidyCtx k) s1

/-- DRAIN. -/
def execDrain (p : Nat) (s : State) : Host.Outcome State Fault Refusal := event s (fun s => if p < 8 then s.drainWrite p else s)

/-! ### Counters that a write clears (R303, R328, R389, R390) -/

/-- A write to LKCNT. -/
def State.lkcntWrite (s : State) (p : Nat) : State := s.modPart p (fun x => { x with ndead := 0, norph := 0, nfull := 0, novfl := 0 })

/-- LKCNT_CLEAR. -/
def execLkcntClear (p : Nat) (s : State) : Host.Outcome State Fault Refusal := event s (fun s => if p < 8 then s.lkcntWrite p else s)

/-- A write to the stale-message counters of a die. -/
def State.staleWrite (s : State) (die : Nat) : State := s.modDie die (fun x => { x with stalewb := 0, staleack := 0 })

/-- STALE_COUNTERS_CLEAR. -/
def execStaleCountersClear (die : Nat) (s : State) : Host.Outcome State Fault Refusal := event s (fun s => if die < 2 then s.staleWrite die else s)

/-- A write to the error counters of a die. -/
def State.errorsWrite (s : State) (die : Nat) : State := s.modDie die (fun x => { x with uecnt := 0, cecnt := 0 })

/-- ERROR_COUNTERS_CLEAR. -/
def execErrorCountersClear (die : Nat) (s : State) : Host.Outcome State Fault Refusal := event s (fun s => if die < 2 then s.errorsWrite die else s)

/-- A write to a port's replay counter. -/
def State.replaysWrite (s : State) (port : Nat) : State :=
  { s with ports := fset s.ports port { s.port port with replays := 0, refused := 0 } }

/-- REPLAYS_CLEAR. -/
def execReplaysClear (port : Nat) (s : State) : Host.Outcome State Fault Refusal := event s (fun s => if port < 18 then s.replaysWrite port else s)

/-! ### Dead agents (R327, R389) -/

/-- Clocks in 1 ms. -/
def clocksPerMs : Nat := 1500000

/-- DEAD is applied at each part of a die that an agent holds. -/
def State.deadAtParts (s : State) (die agent : Nat) : State :=
  (List.range 16).foldl (fun (a : State) sl =>
    let sk := sliceKey die sl
    ((a.slice sk).parts.map (·.1)).foldl (fun (b : State) id =>
      let p := b.objPart sk id
      if (b.obj id).v && (p.shr.getLsbD agent || decide (p.owner = agent)) then
        b.partEvent sk id 9 ⟨.note 9, agent, die, 0, 128 * ((b.obj id).linesAt sk).headD 0⟩
      else b) a) s

/-- Parts of a die whose last lines beyond the remote proxy are gone: the proxy drops them (R310, R314). -/
def State.proxyDrops (s : State) (die : Nat) : State :=
  (List.range 16).foldl (fun (a : State) sl =>
    let sk := sliceKey die sl
    ((a.slice sk).parts.map (·.1)).foldl (fun (b : State) id =>
      if (b.obj id).v then b.goneFrom sk id 72 (((b.obj id).linesAt sk).headD 0) else b) a) s

/-- The copies of a dead core are gone; dirty bytes of them are never committed. -/
def State.loseCopies (s : State) (k : Nat) : State := s.modCore k (fun c => { c with l1 := [], look := [], tlb := [], l0 := [], recs := [] })

/-- The host's copies of lines that a die homes are gone, and nothing waits for its answers. -/
def State.loseHost (s : State) (die : Nat) : State :=
  { s with
    slices := s.slices.map (fun (e : Nat × Slice) => if e.1 / 16 = die then (e.1, { e.2 with hostdir := [] }) else e),
    snoops := s.snoops.filter (fun l => decide (homeDie (128 * l) ≠ die)),
    snooped := s.snooped.filter (fun x => decide (homeDie (128 * x.1) ≠ die)) : State }.retryWords

/-- Every context with a team on a dead core is killed, with a DEADCORE record. -/
def State.killCore (s : State) (die core inc reason : Nat) : State :=
  let ctxs := ((s.teams.filter (fun e => decide (e.2.key = coreKey die core) && e.2.occupies)).map (·.2.ctx)).eraseDups
  ctxs.foldl (fun (a : State) c => a.askKill ⟨c, 13, ⟨0, 0, 0, core, die⟩, [BitVec.ofNat 8 core, BitVec.ofNat 8 inc, BitVec.ofNat 8 reason]⟩) s

/-- The site of a dead core is to be taken out of its column's map (R391). -/
def State.addRepair (s : State) (die core : Nat) : State :=
  let r := (die, core % 8, (s.sitesOf die (core % 8)).getD (core / 8) 10)
  if s.repair.contains r then s else { s with repair := s.repair ++ [r] }

/-- The dies whose homes number an agent so: the host's link and a CXL port are one agent for both dies, the others belong to a die (R310, R327). -/
def deadDies (die agent : Nat) : List Nat := if agent = 73 || decide (256 ≤ agent) then [0, 1] else [die]

/-- Every home bumps the incarnation of an agent (R327). -/
def State.bumpInc (s : State) (die agent : Nat) : State :=
  (deadDies die agent).foldl (fun (a : State) d => a.modDie d (fun x => { x with
    inc := fset x.inc agent (BitVec.ofNat 8 ((x.incOf agent).toNat + 1)), dead := fset x.dead agent s.now })) s

/-- An agent is declared dead, unless it was within the last 1 ms: 0 to 71 a core, 72 the other die, 73 the host's link, 74 the collective engine of the
die, 0x100 + c CXL port c (log 48). An absent core is no agent (R60). Collectives with a rank there fail with LINK (R346). -/
def State.declareDead (s : State) (die agent reason : Nat) : State :=
  let d := s.die die
  let soon := match fget d.dead agent with | some c => decide (s.now < c + clocksPerMs) | none => false
  let port := decide (256 ≤ agent) && decide (agent < 264)
  if soon || !(decide (agent < 75) || port) || (decide (agent < 72) && s.absentCore die agent) then s
  else
    let old := (d.incOf agent).toNat
    let s1 := s.bumpInc die agent
    let s2 :=
      if agent < 72 then
        let a := ((s1.loseCopies (coreKey die agent)).deadAtParts die agent).proxyDrops (1 - die)
        State.killCore (a.addRepair die agent) die agent old reason
      else if agent = 72 then
        (((List.range 72).foldl (fun (a : State) c => a.modCore (coreKey (1 - die) c) (fun x => { x with
          l1 := x.l1.filter (fun y => y.obj.isNone || decide (homeDie (128 * y.line) ≠ die)) })) s1).deadAtParts die 72).linkLost
            (fun e => decide (e = s.endpoint (1 - die)))
      else if agent = 73 then ((s1.loseHost 0).loseHost 1).deadAtParts 0 73 |>.deadAtParts 1 73
      else if agent = 74 then s1.linkLost (fun e => decide (e = s.endpoint die))
      else { s1 with cxl := fset s1.cxl (agent - 256) { s1.cxlPort (agent - 256) with down := true } }
    s2.irq 8 die agent

/-- A write of DECLARE = 1 names an agent by its number of R310. -/
def State.declareWrite (s : State) (die agent : Nat) : State := if agent < 74 then s.declareDead die agent 1 else s

/-- DECLARE. -/
def execDeclare (die agent : Nat) (s : State) : Host.Outcome State Fault Refusal :=
  event s (fun s => if die < 2 then s.declareWrite die agent else s)

/-- An agent's link has found no successful replay for 1 ms. -/
def execLinkReplayTimeout (die agent : Nat) (s : State) : Host.Outcome State Fault Refusal :=
  event s (fun s => if die < 2 then s.declareDead die agent 2 else s)

/-- An agent fails an in-service self-test. -/
def execSelfTestFail (die agent : Nat) (s : State) : Host.Outcome State Fault Refusal :=
  event s (fun s => if die < 2 then s.declareDead die agent 3 else s)

/-! ### The register map (R400) -/

/-- A register named by its block and its offset within the block. -/
inductive RegName
  | queue (q off : Nat)
  | qctx (q off : Nat)
  | part (p off : Nat)
  | tiles (p off : Nat)
  | faults (die off : Nat)
  | locks (p off : Nat)
  | stale (die off : Nat)
  | comm (p off : Nat)
  | ras (die off : Nat)
  | port (n off : Nat)
  | boot (off : Nat)
  | attest (off : Nat)
deriving DecidableEq, Repr

/-- A block of some registers of a size, from a base. -/
def inBlock (off base count size : Nat) : Bool := decide (base ≤ off) && decide (off < base + count * size)

/-- The register at an offset, where a block covers it. -/
def regAt (off : Nat) : Option RegName :=
  let at_ (base size : Nat) (mk : Nat → Nat → RegName) : Option RegName := some (mk ((off - base) / size) ((off - base) % size))
  if inBlock off 0x400000 256 0x40 then at_ 0x400000 0x40 .queue
  else if inBlock off 0x480000 256 0x40 then at_ 0x480000 0x40 .qctx
  else if inBlock off 0x500000 8 0x80 then at_ 0x500000 0x80 .part
  else if inBlock off 0x580000 8 0x40 then at_ 0x580000 0x40 .tiles
  else if inBlock off 0x600000 2 0x40 then at_ 0x600000 0x40 .faults
  else if inBlock off 0x680000 8 0x40 then at_ 0x680000 0x40 .locks
  else if inBlock off 0x700000 2 0x40 then at_ 0x700000 0x40 .stale
  else if inBlock off 0x780000 8 0x40 then at_ 0x780000 0x40 .comm
  else if inBlock off 0x800000 2 0x40 then at_ 0x800000 0x40 .ras
  else if inBlock off 0x880000 18 0x10 then at_ 0x880000 0x10 .port
  else if inBlock off 0x10000 1 0x20 then some (.boot (off - 0x10000))
  else if inBlock off 0x20000 1 0x2000 then some (.attest (off - 0x20000))
  else none

/-- An access reaches a register: whole, aligned, 8 bytes (R45). -/
def wholeWord (off size : Nat) : Bool := decide (size = 8) && decide (off % 8 = 0)

/-! ### Writes (R45) -/

/-- The partition has no enabled queue and no entered task (R235). -/
def State.tilesFree (s : State) (p : Nat) : Bool :=
  !((List.range 256).any (fun q => (s.queue q).en && decide ((s.queue q).part = p)) || s.tasks.any (fun e => decide (e.2.part = p)))

/-- A COLL of the partition is outstanding (R341). -/
def State.collsOf (s : State) (p : Nat) : Bool :=
  s.dies.any (fun d => d.2.colls.any (fun c => decide (c.part = p))) || s.tasks.any (fun e => decide (e.2.part = p) && decide (e.2.type = 4) && e.2.outstanding)

/-- Writes to PCTL act in the order of its bits. -/
def State.pctlWrite (s : State) (p v : Nat) : State :=
  let s1 := if flag v 0 then s.commitWrite p else s
  let s2 := if flag v 1 then s1.oversubWrite p else s1
  let s3 := if flag v 2 then s2.resumeWrite p else s2
  if flag v 3 then s3.drainWrite p else s3

/-- A write to a named register; GO of the boot and attestation blocks are events of their own. -/
def State.writeNamed (s : State) (r : RegName) (v : DWord) : State :=
  let n := v.toNat
  match r with
  | .queue q 0x00 => s.writeQbase q v
  | .queue q 0x10 => s.writeTail q v
  | .queue q 0x18 => s.writeQcompa q v
  | .queue q 0x20 => if flag n 0 then s.enableQueue q v else s.disableQueue q v
  | .qctx q 0x00 => s.writeQctx q v
  | .qctx q 0x08 => if flag n 0 then s.killWrite q else s
  | .part p 0x40 => s.pctlWrite p n
  | .part p off => if off < 0x40 then s.modPart p (fun x => { x with desc := x.desc - (field x.desc (8 * off + 63) (8 * off)) * 2 ^ (8 * off) + n * 2 ^ (8 * off) }) else s
  | .tiles p 0x00 => if s.tilesFree p && decide (n % 32 = 0) then s.modPart p (fun x => { x with ttbase := v }) else s
  | .tiles p 0x08 => if s.tilesFree p && decide (n ≤ 32768) then s.modPart p (fun x => { x with ttlen := n }) else s
  | .faults d 0x00 => s.modDie d (fun x => if x.fqen then x else { x with fqbase := v })
  | .faults d 0x08 => s.modDie d (fun x => x.fqControl n)
  | .faults d 0x18 => s.modDie d (fun x => { x with fqrd := v.lo })
  | .faults d 0x20 => s.fqAnswer d (field n 15 0) (flag n 16)
  | .faults d 0x28 => if flag n 1 then s.modDie d (fun x => { x with badtag := false }) else s
  | .locks p 0x00 => s.modPart p (fun x => { x with dlprobe := v.hi, holdmax := v.lo })
  | .locks p 0x08 => s.lkcntWrite p
  | .stale d 0x00 => s.staleWrite d
  | .stale d 0x08 => s.modDie d (fun x => { x with agsel := field n 6 0 })
  | .comm p 0x00 => if s.collsOf p then s else s.modPart p (fun x => { x with cmbase := v })
  | .comm p 0x08 => if s.collsOf p || decide (4096 < field n 15 0) then s else s.modPart p (fun x => { x with cmlen := field n 15 0 })
  | .ras d 0x00 => s.errorsWrite d
  | .ras d 0x08 => s.modDie d (fun x => { x with rlbase := field n 47 0 })
  | .ras d 0x10 =>
    let s1 := s.modDie d (fun x => { x with rasagent := field n 6 0 })
    if flag n 8 then s1.declareWrite d (field n 6 0) else s1
  | .ras d 0x18 => s.modDie d (fun x => { x with pkgid := field n 41 32, pauses := v.lo })
  | .port p 0x00 => s.replaysWrite p
  | .boot 0x00 => { s with boot := { s.boot with addr := v } }
  | .boot 0x08 => { s with boot := { s.boot with len := v.lo } }
  | .attest 0x40 => { s with attest := { s.attest with rptaddr := v } }
  | .attest off => if off < 0x40 then { s with attest := { s.attest with nonce := s.attest.nonce.set (off / 8) v } } else s
  | _ => s

/-- REGISTER_WRITE: a write anywhere in the register space. -/
def execRegisterWrite (off size : Nat) (value : DWord) (s : State) : Host.Outcome State Fault Refusal :=
  event s (fun s =>
    if wholeWord off size then (match regAt off with | some r => s.writeNamed r value | none => s) else s)

/-! ### Reads (R45, R57, R400) -/

/-- Some core of the partition has a lent block (R57, R70). -/
def State.lending (s : State) (p : Nat) : Bool :=
  (s.part p).live.isSome && !descNolend (s.desc p) &&
  (List.range 144).any (fun k => s.inRect p (k / 72) (k % 72) && !s.absentCore (k / 72) (k % 72) && decide (0 < s.lentBlocks k))

/-- PSTAT of a partition (R57). -/
def State.pstat (s : State) (p : Nat) : Nat :=
  let x := s.part p
  x.cstat + (if decide (0 < x.steps) then 2 ^ 8 else 0) + (if x.stopped then 2 ^ 9 else 0) + (if s.lending p then 2 ^ 10 else 0) + x.oversub.toNat * 2 ^ 32

/-- The value of a named register. Two values are the model's choice, for the spec gives none: PCTL reads 0 (R53), and reserved bits of a partition's
descriptor are stored and read back as written, since a COMMIT judges them (R4, R54; log 44). -/
def State.readNamed (s : State) (r : RegName) : Nat :=
  match r with
  | .queue q 0x00 => (s.queue q).qbase.toNat
  | .queue q 0x08 => (s.queue q).qhead.toNat
  | .queue q 0x10 => (s.queue q).qtail.toNat
  | .queue q 0x18 => (s.queue q).qcompa.toNat
  | .queue q 0x20 => (if (s.queue q).en then 1 else 0) + (s.queue q).prio * 2 ^ 8 + (s.queue q).part * 2 ^ 16
  | .queue q 0x28 => (s.queue q).qerr
  | .qctx q 0x00 => (s.queue q).qctx.toNat
  | .part p 0x48 => s.pstat p
  | .part p off => if off < 0x40 then field (s.part p).desc (8 * off + 63) (8 * off) else 0
  | .tiles p 0x00 => (s.part p).ttbase.toNat
  | .tiles p 0x08 => (s.part p).ttlen
  | .faults d 0x00 => (s.die d).fqbase.toNat
  | .faults d 0x08 => (if (s.die d).fqen then 1 else 0) + 2 * (s.die d).fqlog2
  | .faults d 0x10 => (s.die d).fqwr.toNat
  | .faults d 0x18 => (s.die d).fqrd.toNat
  | .faults d 0x28 => (if (s.die d).fqFull then 1 else 0) + (if (s.die d).badtag then 2 else 0)
  | .locks p 0x00 => (s.part p).holdmax.toNat + (s.part p).dlprobe.toNat * 2 ^ 32
  | .locks p 0x08 => (s.part p).novfl + (s.part p).nfull * 2 ^ 16 + (s.part p).norph * 2 ^ 32 + (s.part p).ndead * 2 ^ 48
  | .stale d 0x00 => (s.die d).staleack.toNat + (s.die d).stalewb.toNat * 2 ^ 32
  | .stale d 0x08 => (s.die d).agsel + ((s.die d).incOf (s.die d).agsel).toNat * 2 ^ 8
  | .comm p 0x00 => (s.part p).cmbase.toNat
  | .comm p 0x08 => (s.part p).cmlen
  | .ras d 0x00 => (s.die d).cecnt.toNat + (s.die d).uecnt.toNat * 2 ^ 32
  | .ras d 0x08 => (s.die d).rlbase + (s.die d).rlwr * 2 ^ 48
  | .ras d 0x10 => (s.die d).rasagent
  | .ras d 0x18 => (s.die d).pauses.toNat + (s.die d).pkgid * 2 ^ 32
  | .port p 0x00 => (s.port p).replays.toNat * 2 ^ 32 + (s.port p).refused * 2 ^ 16 + (s.port p).retired * 2 ^ 4 + (s.port p).width
  | .boot 0x00 => s.boot.addr.toNat
  | .boot 0x08 => s.boot.len.toNat
  | .boot 0x18 => s.boot.stat
  | .attest 0x40 => s.attest.rptaddr.toNat
  | .attest 0x50 => s.attest.stat + Config.certificate.length * 2 ^ 32
  | .attest 0x58 => s.attest.gen
  | .attest off => if 0x1000 ≤ off then leNat ((Config.certificate.drop (off - 0x1000)).take 8) else 0
  | _ => 0

/-- What a read of the register space returns. -/
def State.readReg (s : State) (off size : Nat) : DWord :=
  if wholeWord off size then (match regAt off with | some r => BitVec.ofNat 64 (s.readNamed r) | none => 0) else 0

end Sys2Proof.Machine
end

