-- ==== Sys2Proof/Machine/Boot.lean ====
section
/-!
DEFINITION. Reset, boot and attestation (R59, R318, R320, R386, R392 to R396), with the SHA-512 digest and the RSA-4096 signature that
they name.
-/

namespace Sys2Proof.Machine

/-! ### SHA-512 -/

/-- The largest r below 2^n more than `r` whose power with exponent e is at most x, found bit by bit. -/
def rootUp (e x : Nat) : Nat → Nat → Nat
  | 0, r => r
  | n + 1, r => rootUp e x n (if (r + 2 ^ n) ^ e ≤ x then r + 2 ^ n else r)

/-- The first 64 bits of the fractional part of the e-th root of p. -/
def rootFraction (e p : Nat) : Nat := rootUp e (p * 2 ^ (64 * e)) 80 0 % 2 ^ 64

/-- The first n primes. -/
def primesTo (n : Nat) : List Nat := ((List.range 420).filter (fun p => 1 < p && (List.range p).all (fun d => d < 2 || p % d != 0))).take n

/-- The 80 round constants: the cube roots of the first primes. -/
def shaK : List Nat := (primesTo 80).map (rootFraction 3)

/-- The initial hash value: the square roots of the first primes. -/
def shaH : List DWord := (primesTo 8).map (fun p => BitVec.ofNat 64 (rootFraction 2 p))

/-- The number that bytes, most significant first, denote. -/
def beNat (bs : List Byte) : Nat := bs.foldl (fun n b => 256 * n + b.toNat) 0

/-- The n bytes of a number, most significant first. -/
def beBytes (n x : Nat) : List Byte := (leBytes n x).reverse

/-- Sixteen words of a block. -/
def shaWords (block : List Byte) : List DWord := (List.range 16).map (fun i => BitVec.ofNat 64 (beNat ((block.drop (8 * i)).take 8)))

/-- The message schedule, newest word first, grown by n words. -/
def shaExtend : Nat → List DWord → List DWord
  | 0, w => w
  | n + 1, w =>
    let x1 := w.getD 1 0
    let x14 := w.getD 14 0
    let s0 := x14.rotateRight 1 ^^^ x14.rotateRight 8 ^^^ (x14 >>> 7)
    let s1 := x1.rotateRight 19 ^^^ x1.rotateRight 61 ^^^ (x1 >>> 6)
    shaExtend n ((s1 + w.getD 6 0 + s0 + w.getD 15 0) :: w)

/-- One round: the eight working variables, a constant and a schedule word. -/
def shaRound (v : List DWord) (kw : Nat × DWord) : List DWord :=
  let a := v.getD 0 0
  let b := v.getD 1 0
  let c := v.getD 2 0
  let e := v.getD 4 0
  let f := v.getD 5 0
  let g := v.getD 6 0
  let big1 := e.rotateRight 14 ^^^ e.rotateRight 18 ^^^ e.rotateRight 41
  let ch := (e &&& f) ^^^ (~~~e &&& g)
  let t1 := v.getD 7 0 + big1 + ch + BitVec.ofNat 64 kw.1 + kw.2
  let big0 := a.rotateRight 28 ^^^ a.rotateRight 34 ^^^ a.rotateRight 39
  let maj := (a &&& b) ^^^ (a &&& c) ^^^ (b &&& c)
  [t1 + big0 + maj, a, b, c, v.getD 3 0 + t1, e, f, g]

/-- Compress one block. -/
def shaBlock (h : List DWord) (block : List Byte) : List DWord :=
  let w := (shaExtend 64 (shaWords block).reverse).reverse
  List.zipWith (· + ·) h ((shaK.zip w).foldl shaRound h)

/-- Compress n blocks. -/
def shaBlocks : Nat → List DWord → List Byte → List DWord
  | 0, h, _ => h
  | n + 1, h, bs => shaBlocks n (shaBlock h (bs.take 128)) (bs.drop 128)

/-- SHA-512 of some bytes: 64 bytes. -/
def sha512 (bs : List Byte) : List Byte :=
  let pad := (256 - (bs.length + 17) % 128) % 128
  let msg := bs ++ (0x80 :: List.replicate pad 0) ++ beBytes 16 (8 * bs.length)
  (shaBlocks (msg.length / 128) shaH msg).flatMap (fun x => beBytes 8 x.toNat)

/-! ### RSASSA-PKCS1-v1_5 with RSA-4096 -/

/-- b to the power whose bits, most significant first, are given, modulo n. -/
def modPow (b n : Nat) (bits : List Bool) : Nat := bits.foldl (fun r c => let q := r * r % n; if c then q * b % n else q) 1

/-- The low w bits of an exponent, most significant first. -/
def expBits (w e : Nat) : List Bool := ((List.range w).map (fun i => e.testBit i)).reverse

/-- The encoded message of a digest, 512 bytes. -/
def emsa (digest : List Byte) : List Byte :=
  let info : List Byte := [0x30, 0x51, 0x30, 0x0d, 0x06, 0x09, 0x60, 0x86, 0x48, 0x01, 0x65, 0x03, 0x04, 0x02, 0x03, 0x05, 0x00, 0x04, 0x40]
  [0x00, 0x01] ++ List.replicate 426 0xff ++ [0x00] ++ info ++ digest

/-- The signature of some bytes verifies under a modulus and the exponent 65,537. -/
def rsaVerify (modulus : Nat) (bs sig : List Byte) : Bool :=
  decide (beNat sig < modulus) && decide (modPow (beNat sig) modulus (expBits 17 65537) = beNat (emsa (sha512 bs)))

/-- A signature by the part's identity key. -/
def rsaSign (bs : List Byte) : List Byte :=
  beBytes 512 (modPow (beNat (emsa (sha512 bs))) Config.identityModulus (expBits 4096 Config.identityExponent))

/-! ### RESET (R59, R386, R392) -/

/-- An expander at reset: what it decodes, up to 16 TiB. -/
def expander (bytes : Nat) : CxlPort := { CxlPort.reset with cap := min bytes 0x100000000000, width := if bytes = 0 then 0 else 16 }

/-- Memory that does not stand on the part: the host's, and the expanders' (log 23). -/
def offPart (a : Nat) : Bool := match memKind a with | some (.hbm _) => false | _ => true

/-- The part is reset: its map of sites is loaded and its expanders are enumerated. -/
def execReset (deadSites : List (Nat × Nat × Nat)) (cxlBytes : List Nat) (s : State) : Host.Outcome State Fault Refusal :=
  .next { State.reset with
    agenda := s.agenda, free := s.free, serial := s.serial, deadSites := deadSites,
    mem := s.mem.filter (fun c => offPart c.1),
    cxl := (List.range 8).map (fun i => (i, expander (cxlBytes.getD i 0))) }

/-! ### BOOT_GO (R392, R393) -/

/-- The body of an image. -/
def imageBody (img : List Byte) : List Byte := (img.drop 576).take (field (leNat (img.take 64)) 127 96)

/-- Check 1: the header. -/
def bootHeaderBad (img : List Byte) (len : Nat) : Bool :=
  let h := leNat (img.take 64)
  let body := field h 127 96
  decide (field h 31 0 ≠ 0x31574653) || decide (field h 47 32 ≠ 1) || decide (field h 63 48 ≠ 0) || decide (field h 511 256 ≠ 0) ||
  decide (len ≠ 64 + 512 + body + 512) || decide (body < field h 159 128 + 2304) || decide (body < field h 191 160 + 16)

/-- The status that the boot ROM's checks give: 0 when all pass. -/
def bootCheck (img : List Byte) (len : Nat) : Nat :=
  let modulus := (img.drop 64).take 512
  let signed := img.take (img.length - 512)
  if bootHeaderBad img len then 3
  else if sha512 modulus ≠ Config.fusedKeyHash then 4
  else if !rsaVerify (beNat modulus) signed (img.drop (img.length - 512)) then 5
  else if field (leNat (img.take 64)) 95 64 < Config.fusedSecver then 6
  else 0

/-- The vendor protocol image of a slot, 0 to 3. -/
def vendorImage (img : List Byte) (slot : Nat) : List Byte := ((imageBody img).drop (field (leNat (img.take 64)) 159 128 + 576 * slot)).take 576

/-- The image at BOOTADDR is loaded and checked; on success the firmware runs, with the four vendor protocols of R318 in their slots: a body whose protocol
images are not those, or fail a check, is refused (log 33). The write is ignored while it runs. -/
def execBootGo (image : List Byte) (s : State) : Host.Outcome State Fault Refusal :=
  event s (fun s =>
    if s.boot.stat = 1 || decide (s.boot.stat = 2) then s
    else
      let len := s.boot.len.toNat
      let img := (image ++ List.replicate len 0).take len
      let code := bootCheck img len
      if code ≠ 0 then { s with boot := { s.boot with stat := code } }
      else if (List.range 4).any (fun i => decide ((imgJudge (vendorImage img i)).1 ≠ 0) || decide (vendorImage img i ≠ shipped i)) then { s with boot := { s.boot with stat := 7 } }
      else
        { s with
          prots := (List.range 8).map (fun i => if i < 4 then some (shipped i) else s.prots.getD i none),
          boot := { s.boot with stat := 2, image := img },
          attest := { s.attest with gen := 1 } })

/-! ### ATTEST_GO (R394 to R396) -/

/-- A mask of numbers below 8. -/
def mask8 (h : Nat → Bool) : Byte := BitVec.ofNat 8 ((List.range 8).foldl (fun m i => if h i then m + 2 ^ i else m) 0)

/-- The report, its signature apart. -/
def State.reportBody (s : State) : List Byte :=
  let prot (i : Nat) : List Byte := match s.prots.getD i none with | some img => sha512 img | none => List.replicate 64 0
  let desc (p : Nat) : List Byte := match (s.part p).live with | some d => sha512 (leBytes 64 d) | none => List.replicate 64 0
  s.attest.nonce.flatMap (fun x => leBytes 8 x.toNat) ++ leBytes 4 (s.die 0).pkgid ++ leBytes 4 s.attest.gen ++
    [mask8 (fun i => (s.prots.getD i none).isSome), mask8 (fun p => (s.part p).live.isSome)] ++ List.replicate 54 0 ++
    sha512 s.boot.image ++ (List.range 8).flatMap prot ++ (List.range 8).flatMap desc

/-- The report address is misaligned, or an address of the report has no memory. -/
def State.reportBad (s : State) (pa : Nat) : Bool := decide (pa % 64 ≠ 0) || (List.range 27).any (fun i => !s.present (pa + 64 * i) 64)

/-- The measurements are sampled and a signed report is written. -/
def execAttestGo (s : State) : Host.Outcome State Fault Refusal :=
  event s (fun s =>
    let pa := s.attest.rptaddr.toNat
    let done (a : State) (st : Nat) : State := { a with attest := { a.attest with stat := st, nonce := List.replicate 8 0 } }
    if s.attest.stat = 1 then s
    else if s.reportBad pa then done s 3
    else
      let body := s.reportBody
      done (s.homeWrite pa (body ++ rsaSign body)) 2)

end Sys2Proof.Machine
end

