-- ==== Sys2Proof/Machine/Links.lean ====
section
/-!
DEFINITION. The links of the part, power and thermal pressure, checks of stores, and repairs (R58, R382, R385 to R391, R397).
-/

namespace Sys2Proof.Machine

/-! ### UALink requests and training (R382) -/

/-- The buffers of a collective: virtual address and length. -/
def Coll.buffers (c : Coll) : List (Nat × Nat) :=
  let ns := c.desc.srcElems c.nranks c.rank
  let nd := c.desc.dstElems c.nranks c.rank
  [(c.src, c.desc.bytesOf ns), (c.dst, c.desc.bytesOf nd), (c.ssc, c.desc.scalesOf ns), (c.dsc, c.desc.scalesOf nd)]

/-- A run of physical addresses lies in the buffers of a collective of a die: whether in a tracked page. -/
def State.inBuffers (s : State) (die : Nat) (c : Coll) (pa n : Nat) : Option Bool :=
  match fget s.ctxs c.ctx with
  | none => none
  | some x =>
    let runs := c.buffers.flatMap (fun b => match s.xlateRun none die x b.1 b.2 .read with | .ok ps => ps | .error _ => [])
    let holds (p : Nat × Nat) (r : Span) : Bool := decide (r.pa ≤ p.1) && decide (p.1 + p.2 ≤ r.pa + r.n)
    if (linePieces pa n).all (fun p => runs.any (holds p)) then some (runs.any (fun r => r.trk && (linePieces pa n).any (fun p => holds p r))) else none

/-- Where an incoming request goes: its address, its length, and whether it is one of those implemented. -/
def LinkReq.span : LinkReq → Nat × Nat × Bool
  | .read pa n => (pa, n, decide (4 ≤ n) && decide (n ≤ 256) && decide (n % 4 = 0) && decide (pa % 4 = 0))
  | .write pa bs => (pa, bs.length, decide (4 ≤ bs.length) && decide (bs.length ≤ 256) && decide (bs.length % 4 = 0) && decide (pa % 4 = 0))
  | .atomic pa n op _ cmp =>
    (pa, n, (decide (n = 4) || decide (n = 8)) && decide (pa % n = 0) && (cmp.isSome || decide (op = .add) || decide (op = .swap)))

/-- The collective whose buffers a request falls inside: the die, the context, and whether the page is tracked. -/
def State.reqColl (s : State) (pa n : Nat) : Option (Nat × Nat × Bool) :=
  (List.range 2).findSome? (fun die => (s.die die).colls.findSome? (fun c => (s.inBuffers die c pa n).map (fun trk => (die, c.ctx, trk))))

/-- A link is up and not retraining. -/
def State.linkUp (s : State) (l : Link) : Bool :=
  !s.retrain.contains l &&
  (match l with
  | .ualink p => decide ((s.port p).width ≠ 0)
  | .cxl p => decide ((s.cxlPort p).width ≠ 0) && !(s.cxlPort p).down
  | .milesk => !s.mileskDown)

/-- An incoming request is served inside a buffer of a collective under way; any other moves no byte and is counted. -/
def execUalinkRequest (port : Nat) (req : LinkReq) (s : State) : Host.Outcome State Fault Refusal :=
  event s (fun s =>
    if decide (18 ≤ port) || !s.linkUp (.ualink port) then s
    else
      let q := LinkReq.span req
      match (if q.2.2 then s.reqColl q.1 q.2.1 else none) with
      | none => { s with ports := fset s.ports port { s.port port with refused := sat16 (s.port port).refused } }
      | some (die, ctx, trk) =>
        match req with
        | .read pa n => (s.engineRead ctx die trk pa n).2
        | .write pa bs => s.engineWrite ctx die trk pa bs
        | .atomic pa n op x cmp =>
          let r := s.engineRead ctx die trk pa n
          let old := leNat r.1
          let new := match cmp with
            | some c => if old = c % 256 ^ n then x else old
            | none => if op = .swap then x else old + x
          r.2.engineWrite ctx die trk pa (leBytes n (new % 256 ^ n)))

/-- Lanes of a width code of R390. -/
def widthLanes (code : Nat) : Nat := if code = 0 then 0 else 2 ^ (code - 1)

/-- Lanes of a port that work. -/
def Port.working (p : Port) : Nat := 4 - ((List.range 4).filter (fun i => flag p.retired i)).length

/-- A port that is down trains with its peer to a width; a peer that negotiates an unsupported feature is refused. -/
def execLinkTraining (port width : Nat) (supported : Bool) (s : State) : Host.Outcome State Fault Refusal :=
  event s (fun s =>
    let p := s.port port
    let code := match width with | 1 => 1 | 2 => 2 | 4 => 3 | _ => 0
    if decide (18 ≤ port) || decide (p.width ≠ 0) || !supported || decide (p.working < widthLanes code) then s
    else { s with ports := fset s.ports port { p with width := code } })

/-! ### Replays, retired lanes, retraining (R387, R390) -/

/-- The die that owns a link. -/
def Link.die : Link → Nat
  | .ualink p => if p < 9 then 0 else 1
  | .cxl p => if p < 4 then 0 else 1
  | .milesk => 0

/-- A lane of a link that has not been retired. -/
def State.laneWorks (s : State) (l : Link) (lane : Nat) : Bool :=
  match l with
  | .ualink p => decide (p < 18) && decide (lane < 4) && !flag (s.port p).retired lane
  | .cxl p => decide (p < 8) && decide (lane < 16) && !(s.cxlPort p).retired.contains lane
  | .milesk => decide (lane < 40) && !s.milesk.contains (lane / 8)

/-- A repair pause of a die. -/
def State.pause (s : State) (die : Nat) : State := s.modDie die (fun d => { d with pauses := satWord d.pauses })

/-- A flit fails its CRC and is replayed. -/
def execFlitReplay (link : Link) (lane : Nat) (s : State) : Host.Outcome State Fault Refusal :=
  event s (fun s =>
    if !s.linkUp link || !s.laneWorks link lane then s
    else
      let s1 := { s with replays := s.replays.filter (fun r => decide (s.now < r.at_ + clocksPerMs)) ++ [⟨link, lane, s.now⟩] }
      match link with
      | .ualink p => { s1 with ports := fset s1.ports p { s1.port p with replays := satWord (s1.port p).replays } }
      | _ => s1)

/-- A lane with more than 16 replays within 1 ms is retired, and its link retrains. -/
def execLaneRetire (link : Link) (lane : Nat) (s : State) : Host.Outcome State Fault Refusal :=
  event s (fun s =>
    let mine := s.replays.filter (fun r => decide (r.link = link) && decide (r.lane = lane) && decide (s.now < r.at_ + clocksPerMs))
    if !s.linkUp link || !s.laneWorks link lane || decide (mine.length ≤ 16) then s
    else
      let s1 := { s with
        replays := s.replays.filter (fun r => !(decide (r.link = link) && decide (r.lane = lane))),
        retrain := s.retrain ++ [link] }
      let s2 := match link with
        | .ualink p => { s1 with ports := fset s1.ports p { s1.port p with retired := (s1.port p).retired + 2 ^ lane } }
        | .cxl p => { s1 with cxl := fset s1.cxl p { s1.cxlPort p with retired := (s1.cxlPort p).retired ++ [lane] } }
        | .milesk => { s1 with milesk := s1.milesk ++ [lane / 8] }
      s2.pause (Link.die link))

/-- A link has retrained: at the next lower width, or down when no lane works. Flits in flight are replayed; collectives that use a port that has gone
down fail with LINK (R389). -/
def execRetrainDone (link : Link) (s : State) : Host.Outcome State Fault Refusal :=
  event s (fun s =>
    if !s.retrain.contains link then s
    else
      let s1 := { s with retrain := s.retrain.filter (fun l => decide (l ≠ link)) }
      match link with
      | .ualink p =>
        let x := s1.port p
        let s2 := { s1 with ports := fset s1.ports p { x with width := if x.working = 0 then 0 else max 1 (x.width - 1) } }
        if x.working = 0 then s2.linkLost (fun e => decide (e % 1024 ≠ (s.die 0).pkgid) && Config.portReaches p (e % 1024)) else s2
      | .cxl p =>
        let x := s1.cxlPort p
        { s1 with cxl := fset s1.cxl p (if 16 ≤ x.retired.length then { x with width := 0, down := true } else { x with width := max 1 (x.width / 2) }) }
      | .milesk => { s1 with mileskDown := decide (5 ≤ s1.milesk.length) })

/-! ### Power and thermal pressure (R58, R397) -/

/-- Clocks between two power steps: 10 µs. -/
def clocksPerStep : Nat := 15000

/-- The committed partitions. -/
def State.committed (s : State) : List Nat := (List.range 8).filter (fun p => (s.part p).live.isSome)

/-- Enough time has passed since the last power step. -/
def State.stepDue (s : State) : Bool := decide (s.pwrStep = 0) || decide (s.pwrStep + clocksPerStep ≤ s.now)

/-- The clock of every partition whose clock is not fixed falls one step, to a floor of a quarter. -/
def execThrottleStep (s : State) : Host.Outcome State Fault Refusal :=
  event s (fun s =>
    if !s.stepDue then s
    else
      let slow := s.committed.filter (fun p => !descFixclk (s.desc p))
      let s1 := slow.foldl (fun (a : State) p => a.modPart p (fun x => { x with steps := min 12 (x.steps + 1) })) s
      let low := slow.all (fun p => decide (12 ≤ (s1.part p).steps))
      { s1 with pwrStep := s.now, pwrFloor := if low then some (s.pwrFloor.getD s.now) else none })

/-- A clock that has been slowed rises one step. -/
def execUnthrottleStep (s : State) : Host.Outcome State Fault Refusal :=
  event s (fun s =>
    if !s.stepDue then s
    else
      let s1 := s.committed.foldl (fun (a : State) p => a.modPart p (fun x => { x with steps := x.steps - 1 })) s
      { s1 with pwrStep := s.now, pwrFloor := none, pwrQuiet := none })

/-- The partition that is stopped next among some: the highest SHED, then the highest number. -/
def State.shedNext (s : State) (ps : List Nat) : Option Nat :=
  ps.foldl (fun (r : Option Nat) p => match r with
    | some x => if descShed (s.desc x) ≤ descShed (s.desc p) then some p else some x
    | none => some p) none

/-- A partition is stopped: its teams are pre-empted and saved, or halted. -/
def State.stopPart (s : State) (p : Nat) : State :=
  let s1 := s.modPart p (fun x => { x with stopped := true })
  let ids := (s1.teams.filter (fun e => decide (e.2.part = p) && decide (e.2.status = .resident))).map (·.1)
  let s2 := ids.foldl (fun (a : State) t => a.beginSave false true none t) s1
  State.irq { s2 with pwrFloor := some s.now } 6 0 p

/-- One partition is stopped, 1 ms after the floor or the last stop: those of fixed clock first, then, once none of them runs, the others. -/
def execPartitionStop (s : State) : Host.Outcome State Fault Refusal :=
  event s (fun s =>
    match s.pwrFloor with
    | none => s
    | some c =>
      if s.now < c + clocksPerMs then s
      else
        let left := s.committed.filter (fun p => !(s.part p).stopped)
        match s.shedNext (left.filter (fun p => descFixclk (s.desc p))) with
        | some p => s.stopPart p
        | none =>
          let quiet := match s.pwrQuiet with | some q => decide (q + clocksPerMs ≤ s.now) | none => false
          match s.shedNext left with
          | some p => if quiet then s.stopPart p else s
          | none => s)

/-- The part trips: every core halts, the interrupt is raised, and power goes from the compute dies. No state of them survives. -/
def execThermalTrip (celsius : Nat) (s : State) : Host.Outcome State Fault Refusal :=
  event s (fun s =>
    let t := s.irq 9 0 celsius
    { State.reset with
      now := t.now, agenda := t.agenda, free := t.free, serial := t.serial, irqs := t.irqs, mem := t.mem.filter (fun c => offPart c.1), tripped := true })

/-! ### Errors that the checks meet (R387, R388) -/

/-- The store code and the address of an error, with who is named beside them (R388, R361). -/
def ErrLoc.record : ErrLoc → Nat × DWord × LogWho
  | .mem store pa => (store, BitVec.ofNat 64 pa, ⟨0, 0, 0, 0, homeDie pa⟩)
  | .vault die core off => (4, BitVec.ofNat 64 off, ⟨0, 0, 0, core, die⟩)
  | .reg die core fid reg => (5, Config.regAddress fid reg, ⟨0, 0, fid / 32, core, die⟩)

/-- A corrected word of a vault counts for its bank. -/
def State.countCorrected (s : State) (l : ErrLoc) : State :=
  match l with
  | .vault die core off => s.modCore (coreKey die core) (fun c => let b := off / 4 % 256; { c with corr := fset c.corr b ((fget c.corr b).getD 0 + 1) })
  | _ => s

/-- A RAS log record, and the error interrupt (R388, R389). -/
def State.rasLog (s : State) (die : Nat) : State :=
  let d := s.die die
  let s1 := s.homeWrite (d.rlbase + 32 * (d.rlwr % 256)) ((Config.rasRecord s.free ++ List.replicate 32 0).take 32)
  let s2 := { s1 with free := s1.free + 1 }
  (s2.modDie die (fun x => { x with rlwr := (d.rlwr + 1) % 65536 })).irq 7 die (d.rlwr % 256)

/-- Who is named in the record of an error: the group whose access met it, or the place of the error (R361, R388). -/
def State.errWho (s : State) (r : ErrReader) (loc : ErrLoc) : LogWho :=
  match r.fibre.bind (fun p => (s.team p.1).map (fun t => t.who p.2)) with
  | some w => w
  | none => (ErrLoc.record loc).2.2

/-- A check meets an error: corrected and written back; or met by a reader, whose context dies; or met by none, and logged. -/
def execScrub (die : Nat) (loc : ErrLoc) (corrected : Bool) (reader : Option ErrReader) (s : State) : Host.Outcome State Fault Refusal :=
  event s (fun s =>
    if corrected then (s.modDie die (fun d => { d with cecnt := satWord d.cecnt })).countCorrected loc
    else
      let s1 := s.modDie die (fun d => { d with uecnt := satWord d.uecnt })
      match reader with
      | some who =>
        let r := ErrLoc.record loc
        s1.askKill ⟨who.ctx, 8, s1.errWho who loc, leBytes 8 r.1 ++ leBytes 8 r.2.1.toNat⟩
      | none => s1.rasLog die)

/-! ### Repairs (R391) -/

/-- A vault bank with 64 or more corrected words is copied to one of the vault's 4 spares. -/
def execBankSpareCopy (die core bank : Nat) (s : State) : Host.Outcome State Fault Refusal :=
  event s (fun s =>
    let k := coreKey die core
    let c := s.core k
    if (fget c.corr bank).getD 0 < 64 || decide (4 ≤ c.spares.length) then s
    else (s.setCore k { c with spares := c.spares ++ [bank], corr := fdel c.corr bank }).pause die)

/-- A failing way of a slice is replaced by its one spare way. -/
def execL2WayReplace (die slice way : Nat) (s : State) : Host.Outcome State Fault Refusal :=
  event s (fun s => s.modSlice (sliceKey die slice) (fun x => if x.spare.isNone then { x with spare := some way } else x))

/-- The repair of the column of a core declared dead, at whose logical place its site now stands: the teams south of it are saved, then the map is loaded anew; TEAM_RESTORE brings the teams back. -/
def execCoreRepair (die core : Nat) (s : State) : Host.Outcome State Fault Refusal :=
  event s (fun s =>
    match s.repair.find? (fun r => decide (r.1 = die) && decide (r.2.1 = core % 8) && decide (s.rowOf r.1 r.2.1 r.2.2 = core / 8)) with
    | none => s
    | some site =>
      let ts := s.teams.filter (fun e => s.underRepair e.2.key && decide (e.2.die = die) && decide (e.2.core % 8 = core % 8) && e.2.occupies)
      if ts.isEmpty then
        State.pause { s with repair := s.repair.filter (fun r => decide (r ≠ site)), deadSites := s.deadSites ++ [site] } die
      else
        ((ts.filter (fun e => decide (e.2.status = .resident) && e.2.full.isEmpty)).flatMap (fun e => s.savedWith e)).eraseDups.foldl
          (fun (a : State) t => a.beginSave false false (some (0, 0)) t) s)

end Sys2Proof.Machine
end

