-- ==== Sys2Proof/Machine/Nbc.lean ====
section
/-!
DEFINITION. The verifier of Nimey bytecode: the section's header, its functions and native descriptors, and every body in one pass (R372 to
R380).
-/

namespace Sys2Proof.Machine

/-! ### Reading the section -/

/-- A value type (R372). -/
inductive NTy | i32 | i64 | f32 | f16x2 | bf16x2
deriving DecidableEq, Repr

/-- The value type of a byte. -/
def nTy (b : Nat) : Option NTy :=
  match b with
  | 0x7F => some .i32
  | 0x7E => some .i64
  | 0x7D => some .f32
  | 0x7C => some .f16x2
  | 0x7B => some .bf16x2
  | _ => none

/-- The cells of a type. -/
def NTy.cells : NTy → Nat
  | .i64 => 2
  | _ => 1

/-- The cells of some values; one whose type is not settled counts one. -/
def cellsOf (xs : List (Option NTy)) : Nat := (xs.map (fun x => match x with | some t => t.cells | none => 1)).foldl (· + ·) 0

/-- A number of n bytes at an offset of a section. -/
def numAt (bs : List Byte) (off n : Nat) : Nat := leNat ((bs.drop off).take n)

/-- A failure: the verifier code and the offset in the section (R379). -/
abbrev NRes (α : Type) := Except (Nat × Nat) α

/-- Fail with a code at an offset, where a condition holds. -/
def nCheck (bad : Bool) (code off : Nat) : NRes Unit := if bad then .error (code, off) else .ok ()

/-- Carry a result on. -/
def NRes.andThen {α β : Type} (r : NRes α) (h : α → NRes β) : NRes β :=
  match r with
  | .ok x => h x
  | .error e => .error e

/-- An unsigned LEB128 number of a width, from bytes at an offset: the number and the bytes read (R374). -/
def ulebGo (width : Nat) : Nat → Nat → List Byte → Option (Nat × Nat)
  | 0, _, _ => none
  | _, _, [] => none
  | n + 1, sh, b :: bs =>
    let x := b.toNat % 128
    if b.toNat < 128 then (if x * 2 ^ sh < 2 ^ width then some (x * 2 ^ sh, 1) else none)
    else (ulebGo width n (sh + 7) bs).map (fun r => (x * 2 ^ sh + r.1, r.2 + 1))

/-- An unsigned immediate of 32 bits. -/
def uleb (bs : List Byte) (off : Nat) : NRes (Nat × Nat) :=
  match ulebGo 32 5 0 (bs.drop off) with
  | some r => .ok r
  | none => .error (3, off)

/-- The bytes of a signed LEB128 number of a width; none when it is malformed. -/
def slebLen (width : Nat) : Nat → Nat → List Byte → Option Nat
  | 0, _, _ => none
  | _, _, [] => none
  | n + 1, sh, b :: bs =>
    let x := b.toNat % 128
    if b.toNat < 128 then
      let v : Int := sextNat 7 x * 2 ^ sh
      (if -(2 : Int) ^ (width - 1) ≤ v && decide (v < 2 ^ (width - 1)) then some 1 else none)
    else (slebLen width n (sh + 7) bs).map (· + 1)

/-- A signed immediate: the offset after it. -/
def sleb (bs : List Byte) (off width : Nat) : NRes Nat :=
  match slebLen width ((width + 6) / 7) 0 (bs.drop off) with
  | some n => .ok (off + n)
  | none => .error (3, off)

/-- One byte; none past the end. -/
def byteAt (bs : List Byte) (off : Nat) : NRes Nat :=
  match bs[off]? with
  | some b => .ok b.toNat
  | none => .error (3, off)

/-- A packed type byte. -/
def packedAt (bs : List Byte) (off : Nat) : NRes NTy :=
  (byteAt bs off).andThen (fun b => match b with
    | 0x7C => .ok .f16x2
    | 0x7B => .ok .bf16x2
    | _ => .error (3, off))

/-! ### Header, functions, descriptors (R372, R376) -/

/-- The tables of a section: place and count. -/
structure NbcHead where
  nfunc : Nat
  func  : Nat
  nct   : Nat
  ct    : Nat
  ndesc : Nat
  desc  : Nat
deriving DecidableEq, Repr

/-- The header of a section. -/
def nbcHead (bs : List Byte) : NbcHead := ⟨numAt bs 8 4, numAt bs 12 4, numAt bs 16 4, numAt bs 20 4, numAt bs 24 4, numAt bs 28 4⟩

/-- A function (R372). -/
structure NFunc where
  param : List NTy
  res   : Option NTy
  local_ : List NTy
  code  : Nat
  len   : Nat
deriving DecidableEq, Repr

/-- The header check. -/
def nbcHeadCheck (bs : List Byte) : NRes NbcHead :=
  let h := nbcHead bs
  let size := bs.length
  (nCheck (decide (size < 32) || decide (numAt bs 0 4 ≠ 0x3043424E)) 1 0).andThen (fun _ =>
    (nCheck (decide (numAt bs 4 2 ≠ 1)) 1 4).andThen (fun _ =>
      (nCheck (decide (numAt bs 6 2 ≠ 0)) 1 6).andThen (fun _ =>
        (nCheck (decide (h.nfunc = 0) || decide (65535 < h.nfunc)) 1 8).andThen (fun _ =>
          (nCheck (decide (h.func % 16 ≠ 0) || decide (size < h.func + 16 * h.nfunc)) 1 12).andThen (fun _ =>
            (nCheck (decide (4096 < h.nct)) 1 16).andThen (fun _ =>
              (nCheck (decide (h.ct % 4 ≠ 0) || decide (size < h.ct + 4 * h.nct)) 1 20).andThen (fun _ =>
                (nCheck (decide (65535 < h.ndesc)) 1 24).andThen (fun _ =>
                  (nCheck (decide (h.desc % 16 ≠ 0) || decide (size < h.desc + 16 * h.ndesc)) 1 28).andThen (fun _ => .ok h)))))))))

/-- Every value of some optional ones. -/
def allTypes : List (Option NTy) → Option (List NTy)
  | [] => some []
  | none :: _ => none
  | some x :: xs => (allTypes xs).map (fun ys => x :: ys)

/-- Function i of a section. -/
def nFuncAt (bs : List Byte) (h : NbcHead) (i : Nat) : NRes NFunc :=
  let at_ := h.func + 16 * i
  let code := numAt bs (at_ + 8) 4
  let len := numAt bs (at_ + 12) 4
  let np := numAt bs (at_ + 4) 1
  let nr := numAt bs (at_ + 5) 1
  let nl := numAt bs (at_ + 6) 2
  let types := (List.range (np + nr + nl)).map (fun j => nTy (numAt bs (code + j) 1))
  let bad := ((List.range types.length).find? (fun j => decide (types.getD j none = none))).getD 0
  (nCheck (decide (bs.length < code + len)) 1 (at_ + 8)).andThen (fun _ =>
    (nCheck (decide (numAt bs at_ 4 ≠ 0)) 2 at_).andThen (fun _ =>
      (nCheck (decide (8 < np)) 2 (at_ + 4)).andThen (fun _ =>
        (nCheck (decide (1 < nr)) 2 (at_ + 5)).andThen (fun _ =>
          (nCheck (decide (1024 < nl)) 2 (at_ + 6)).andThen (fun _ =>
            (nCheck (decide (len < np + nr + nl)) 2 (at_ + 12)).andThen (fun _ =>
              match allTypes types with
              | some ts => .ok ⟨ts.take np, (ts.drop np).head?.bind (fun t => if nr = 1 then some t else none), ts.drop (np + nr), code, len⟩
              | none => .error (2, code + bad)))))))

/-- Every result of some checks, or the first failure. -/
def nAll {α β : Type} (h : α → NRes β) : List α → NRes (List β)
  | [] => .ok []
  | x :: xs => (h x).andThen (fun y => (nAll h xs).andThen (fun ys => .ok (y :: ys)))

/-- The register fields of an opcode's format that a role may name: D, A, B, C (R80, R82). -/
def roleFields (opc : Nat) : Nat :=
  if opc = 0x84 || decide (opc = 0x85) || decide (opc = 0x93) || decide (opc = 0x94) then 4
  else if 0xA0 ≤ opc then 3
  else 2

/-- The register fields that no role can name: Z of the two copies (R80). -/
def fieldless (opc w : Nat) : Bool := (decide (opc = 0x86) || decide (opc = 0x87)) && decide (field w 16 9 ≠ 0)

/-- A native descriptor breaks R376. -/
def nDescBad (x : Nat) : Bool :=
  let w := field x 63 0
  let opc := field w 63 56
  let role (i : Nat) : Nat := field x (67 + 4 * i) (64 + 4 * i)
  let reg (i : Nat) : Nat := field w (44 - 8 * i) (37 - 8 * i)
  decide (field x 127 80 ≠ 0) || !((decide (0x84 ≤ opc) && decide (opc ≤ 0x94)) || (decide (0xA0 ≤ opc) && decide (opc ≤ 0xAB))) ||
  decide (field w 55 45 ≠ 0) || fieldless opc w ||
  (List.range 4).any (fun i => decide (8 < role i) || (decide (role i ≠ 0) && decide (roleFields opc ≤ i)) ||
    (decide (i < roleFields opc) && decide (reg i ≠ 0)))

/-- What a descriptor pops, deepest first, and pushes. -/
def nDescSig (x : Nat) : List NTy × List NTy :=
  let roles := (List.range 4).map (fun i => field x (67 + 4 * i) (64 + 4 * i))
  (roles.filterMap (fun r => match r with | 1 | 5 | 8 => some .i32 | 2 | 6 | 7 => some .i64 | _ => none),
   roles.filterMap (fun r => match r with | 3 | 5 | 7 => some .i32 | 4 | 6 | 8 => some .i64 | _ => none))

/-! ### Bodies (R374, R377, R378) -/

/-- The kind of a frame. -/
inductive NKind | func | block | loop | if_ | else_
deriving DecidableEq, Repr

structure NFrame where
  kind : NKind
  bt   : Option NTy
  h    : Nat
  dead : Bool
deriving DecidableEq, Repr

/-- The verifier within a body: types from the top of the stack, frames from the innermost, the largest stack height in cells, the functions
called, and br_table labels met. -/
structure NSt where
  stack  : List (Option NTy)
  frames : List NFrame
  most   : Nat
  calls  : List Nat
  labels : Nat
deriving DecidableEq, Repr

/-- What a body is judged against. -/
structure NEnv where
  bs    : List Byte
  /-- the section up to the end of the body: an op that CODELEN cuts off ends there -/
  code  : List Byte
  head  : NbcHead
  funcs : List NFunc
  me    : Nat
  locals : List NTy
  /-- the signature of the call table, where its entries have one -/
  table : Option (List NTy × Option NTy)
deriving DecidableEq, Repr

/-- Pop a value of a type; none stands for any. -/
def NSt.pop (s : NSt) (t : Option NTy) (off : Nat) : NRes (NSt × Option NTy) :=
  match s.frames.head? with
  | none => .error (9, off)
  | some f =>
    if s.stack.length ≤ f.h then (if f.dead then .ok (s, t) else .error (4, off))
    else
      match s.stack with
      | [] => .error (4, off)
      | x :: rest =>
        match x, t with
        | some a, some b => if a = b then .ok ({ s with stack := rest }, some a) else .error (4, off)
        | some a, none => .ok ({ s with stack := rest }, some a)
        | none, b => .ok ({ s with stack := rest }, b)

/-- Pop several values, the last of the list on top. -/
def NSt.pops (off : Nat) : List NTy → NSt → NRes NSt
  | [], s => .ok s
  | t :: ts, s => (NSt.pops off ts s).andThen (fun s1 => (s1.pop (some t) off).andThen (fun r => .ok r.1))

/-- Push a value. -/
def NSt.push (s : NSt) (t : Option NTy) (off : Nat) : NRes NSt :=
  if 64 ≤ s.stack.length then .error (10, off)
  else
    let st := t :: s.stack
    .ok { s with stack := st, most := max s.most (cellsOf st) }

/-- Push several values. -/
def NSt.pushes (s : NSt) (ts : List NTy) (off : Nat) : NRes NSt :=
  ts.foldl (fun (r : NRes NSt) t => r.andThen (fun a => a.push (some t) off)) (.ok s)

/-- An op of fixed types. -/
def NSt.op (s : NSt) (ins outs : List NTy) (off : Nat) : NRes NSt := (NSt.pops off ins s).andThen (fun a => a.pushes outs off)

/-- The values on top match a label type and stay. -/
def NSt.match_ (s : NSt) (t : Option NTy) (off : Nat) : NRes NSt :=
  match t with
  | none => .ok s
  | some x => (s.pop (some x) off).andThen (fun r => r.1.push (some x) off)

/-- What follows is unreachable: the stack is cut back. -/
def NSt.stop (s : NSt) : NSt :=
  match s.frames with
  | [] => s
  | f :: fs => { s with stack := s.stack.drop (s.stack.length - f.h), frames := { f with dead := true } :: fs }

/-- Open a frame. -/
def NSt.open_ (s : NSt) (k : NKind) (bt : Option NTy) (off : Nat) : NRes NSt :=
  if 255 ≤ s.frames.length then .error (10, off) else .ok { s with frames := ⟨k, bt, s.stack.length, false⟩ :: s.frames }

/-- The stack above the innermost frame equals its block type. -/
def NSt.closes (s : NSt) (f : NFrame) (off : Nat) : NRes NSt :=
  let r : NRes NSt := match f.bt with
    | none => .ok s
    | some t => (s.pop (some t) off).andThen (fun r => .ok r.1)
  r.andThen (fun (a : NSt) => if a.stack.length = f.h then .ok a else .error (4, off))

/-- The label type of the frame at a depth. -/
def NSt.label (s : NSt) (l off : Nat) : NRes (Option NTy) :=
  match s.frames[l]? with
  | some f => .ok (if f.kind = .loop then none else f.bt)
  | none => .error (5, off)

/-- A block type. -/
def blockType (bs : List Byte) (off : Nat) : NRes (Option NTy) :=
  (byteAt bs off).andThen (fun b => if b = 0x40 then .ok none else match nTy b with | some t => .ok (some t) | none => .error (3, off))

/-- A memarg of an access of some bytes: the type of its address, and the offset after it (R375). -/
def memarg (bs : List Byte) (off size : Nat) : NRes (NTy × Nat) :=
  (byteAt bs off).andThen (fun sp =>
    (nCheck (decide (2 < sp)) 8 off).andThen (fun _ =>
      (if sp = 0 then uleb bs (off + 1) else Except.ok (1, 0) : NRes (Nat × Nat)).andThen (fun r =>
        (nCheck (decide (4095 < r.1)) 8 (off + 1)).andThen (fun _ =>
          let at_ := off + 1 + r.2
          (uleb bs at_).andThen (fun o =>
            (nCheck (decide (o.1 % size ≠ 0) || decide (4096 * size ≤ o.1)) 8 at_).andThen (fun _ =>
              .ok (if sp = 0 && decide (r.1 = 0) then .i64 else .i32, at_ + o.2)))))))

/-- Types popped and pushed by an op without immediates (R374). -/
def plainOp (b : Nat) : Option (List NTy × List NTy) :=
  let i : NTy := .i32
  let l : NTy := .i64
  let f : NTy := .f32
  if b = 0x01 then some ([], [])
  else if b = 0x45 then some ([i], [i])
  else if 0x46 ≤ b && decide (b ≤ 0x4F) then some ([i, i], [i])
  else if b = 0x50 then some ([l], [i])
  else if 0x51 ≤ b && decide (b ≤ 0x5A) then some ([l, l], [i])
  else if 0x5B ≤ b && decide (b ≤ 0x60) then some ([f, f], [i])
  else if 0x67 ≤ b && decide (b ≤ 0x69) then some ([i], [i])
  else if 0x6A ≤ b && decide (b ≤ 0x77) then some ([i, i], [i])
  else if 0x79 ≤ b && decide (b ≤ 0x7B) then some ([l], [l])
  else if 0x7C ≤ b && decide (b ≤ 0x89) then some ([l, l], [l])
  else if 0x8B ≤ b && decide (b ≤ 0x91) then some ([f], [f])
  else if 0x92 ≤ b && decide (b ≤ 0x97) then some ([f, f], [f])
  else if b = 0x98 then some ([f, f, f], [f])
  else if 0xD0 ≤ b && decide (b ≤ 0xD6) then some ([f], [f])
  else match b with
    | 0xA7 => some ([l], [i])
    | 0xA8 | 0xA9 => some ([f], [i])
    | 0xAC | 0xAD => some ([i], [l])
    | 0xAE | 0xAF => some ([f], [l])
    | 0xB2 | 0xB3 => some ([i], [f])
    | 0xB4 | 0xB5 => some ([l], [f])
    | 0xBC => some ([f], [i])
    | 0xBE => some ([i], [f])
    | 0xD7 => some ([i, i, i], [i])
    | 0xD8 => some ([i, i, i], [f])
    | 0xDA => some ([i, i], [i])
    | 0xDB | 0xDC => some ([i], [i])
    | _ => none

/-- Types popped and pushed by an op with a packed type. -/
def packedOp (b : Nat) (p : NTy) : Option (List NTy × List NTy) :=
  match b with
  | 0x99 | 0x9A | 0x9B | 0x9D | 0x9E => some ([p, p], [p])
  | 0x9C => some ([p, p, p], [p])
  | 0x9F => some ([p, p, .f32], [.f32])
  | 0xC0 => some ([.f32, .f32], [p])
  | 0xC1 => some ([p], [.f32, .f32])
  | 0xC2 => some ([p], [.i32])
  | 0xC3 => some ([.i32], [p])
  | _ => none

/-- A load or store: its bytes, its type, and whether it stores. -/
def memOp (b : Nat) : Option (Nat × NTy × Bool) :=
  match b with
  | 0x28 => some (4, .i32, false)
  | 0x29 => some (8, .i64, false)
  | 0x2A => some (4, .f32, false)
  | 0x2B => some (1, .i32, false)
  | 0x2C => some (2, .i32, false)
  | 0x36 => some (4, .i32, true)
  | 0x37 => some (8, .i64, true)
  | 0x38 => some (4, .f32, true)
  | 0x39 => some (1, .i32, true)
  | 0x3A => some (2, .i32, true)
  | _ => none

/-- The labels of a br_table, n + 1 of them: their depths and the offset after them. -/
def tableLabels (bs : List Byte) : Nat → Nat → NRes (List (Nat × Nat) × Nat)
  | 0, off => .ok ([], off)
  | n + 1, off => (uleb bs off).andThen (fun r => (tableLabels bs n (off + r.2)).andThen (fun q => .ok ((r.1, off) :: q.1, q.2)))

/-- An access of memory. -/
def NSt.access (s : NSt) (bs : List Byte) (off at_ size : Nat) (t : NTy) (store : Bool) : NRes (NSt × Nat) :=
  (memarg bs at_ size).andThen (fun m =>
    (if store then s.op [m.1, t] [] off else s.op [m.1] [t] off).andThen (fun a => .ok (a, m.2)))

/-- One op at an offset: the state after it and the offset of the next. -/
def NEnv.step (e : NEnv) (s : NSt) (off : Nat) : NRes (NSt × Nat) :=
  let bs := e.code
  let next := off + 1
  let plain (r : NRes NSt) : NRes (NSt × Nat) := r.andThen (fun a => .ok (a, next))
  (byteAt bs off).andThen (fun b =>
    match plainOp b, memOp b with
    | some (ins, outs), _ => plain (s.op ins outs off)
    | none, some (n, t, st) => s.access bs off next n t st
    | none, none =>
      match b with
      | 0x00 => .ok (s.stop, next)
      | 0x02 | 0x03 | 0x04 =>
        (blockType bs next).andThen (fun bt =>
          (if b = 0x04 then (s.pop (some .i32) off).andThen (fun r => .ok r.1) else .ok s).andThen (fun (a : NSt) =>
            (a.open_ (if b = 0x02 then .block else if b = 0x03 then .loop else .if_) bt off).andThen (fun c => .ok (c, off + 2))))
      | 0x05 =>
        (match s.frames with
        | f :: fs =>
          if f.kind = .if_ then (s.closes f off).andThen (fun a => .ok ({ a with frames := { f with kind := .else_, dead := false } :: fs }, next))
          else .error (9, off)
        | [] => .error (9, off))
      | 0x0B =>
        (match s.frames with
        | f :: fs =>
          (s.closes f off).andThen (fun a =>
            if f.kind = .if_ && f.bt.isSome then .error (4, off)
            else (match f.bt with | some t => NSt.push { a with frames := fs } (some t) off | none => .ok { a with frames := fs }).andThen
              (fun (c : NSt) => .ok (c, next)))
        | [] => .error (9, off))
      | 0x0C => (uleb bs next).andThen (fun r => (s.label r.1 next).andThen (fun t => (s.match_ t off).andThen (fun a => .ok (a.stop, next + r.2))))
      | 0x0D =>
        (uleb bs next).andThen (fun r => (s.label r.1 next).andThen (fun t =>
          (s.pop (some .i32) off).andThen (fun q => (q.1.match_ t off).andThen (fun a => .ok (a, next + r.2)))))
      | 0x0E =>
        (uleb bs next).andThen (fun n =>
          (nCheck (decide (4096 < n.1)) 3 next).andThen (fun _ =>
            (tableLabels bs (n.1 + 1) (next + n.2)).andThen (fun ls =>
              (nAll (fun (l : Nat × Nat) => (s.label l.1 l.2).andThen (fun t => .ok (t, l.2))) ls.1).andThen (fun ts =>
                match ts.find? (fun t => decide (t.1 ≠ (ts.headD (none, 0)).1)) with
                | some t => .error (5, t.2)
                | none =>
                  (s.pop (some .i32) off).andThen (fun q => (q.1.match_ (ts.headD (none, 0)).1 off).andThen (fun a =>
                    .ok ({ a.stop with labels := a.labels + n.1 + 1 }, ls.2)))))))
      | 0x0F => (s.label (s.frames.length - 1) off).andThen (fun t => (s.match_ t off).andThen (fun a => .ok (a.stop, next)))
      | 0x10 =>
        (uleb bs next).andThen (fun r =>
          match (if r.1 < e.me then e.funcs[r.1]? else none) with
          | some f => (s.op f.param f.res.toList off).andThen (fun a => .ok ({ a with calls := r.1 :: a.calls }, next + r.2))
          | none => .error (6, next))
      | 0x11 =>
        let entries := (List.range e.head.nct).map (fun i => numAt e.bs (e.head.ct + 4 * i) 4)
        (match (if entries.all (fun f => decide (f < e.me)) then e.table else none) with
        | some (ps, r) =>
          (s.pop (some .i32) off).andThen (fun q => (q.1.op ps r.toList off).andThen (fun a => .ok ({ a with calls := entries ++ a.calls }, next)))
        | none => .error (6, off))
      | 0x1A => (s.pop none off).andThen (fun r => .ok (r.1, next))
      | 0x1B =>
        (s.pop (some .i32) off).andThen (fun c => (c.1.pop none off).andThen (fun x => (x.1.pop x.2 off).andThen (fun y =>
          (y.1.push y.2 off).andThen (fun a => .ok (a, next)))))
      | 0x20 | 0x21 | 0x22 =>
        (uleb bs next).andThen (fun r =>
          match e.locals[r.1]? with
          | some t =>
            (if b = 0x20 then s.op [] [t] off else if b = 0x21 then s.op [t] [] off else s.op [t] [t] off).andThen (fun a => .ok (a, next + r.2))
          | none => .error (6, next))
      | 0x23 => (byteAt bs next).andThen (fun x => (nCheck (decide (8 < x)) 3 next).andThen (fun _ => (s.op [] [.i32] off).andThen (fun a => .ok (a, off + 2))))
      | 0x2D => (packedAt bs next).andThen (fun p => s.access bs off (off + 2) 4 p false)
      | 0x3B => (packedAt bs next).andThen (fun p => s.access bs off (off + 2) 4 p true)
      | 0x41 => (sleb bs next 32).andThen (fun n => (s.op [] [.i32] off).andThen (fun a => .ok (a, n)))
      | 0x42 => (sleb bs next 64).andThen (fun n => (s.op [] [.i64] off).andThen (fun a => .ok (a, n)))
      | 0x43 => (nCheck (decide (bs.length < next + 4)) 3 next).andThen (fun _ => (s.op [] [.f32] off).andThen (fun a => .ok (a, next + 4)))
      | 0xDD | 0xDE =>
        (byteAt bs next).andThen (fun x =>
          (nCheck (decide (8 < x % 16) || decide (64 ≤ x) || (decide (b = 0xDD) && x.testBit 4)) 3 next).andThen (fun _ =>
            let t : NTy := if 6 ≤ x % 16 then .f32 else .i32
            (s.op [t] [t] off).andThen (fun a => .ok (a, off + 2))))
      | 0xE0 =>
        (uleb bs next).andThen (fun r =>
          if e.head.ndesc ≤ r.1 then .error (6, next)
          else
            let sig := nDescSig (numAt e.bs (e.head.desc + 16 * r.1) 16)
            (s.op sig.1 sig.2 off).andThen (fun a => .ok (a, next + r.2)))
      | _ =>
        if decide (0x99 ≤ b ∧ b ≤ 0x9F) || decide (0xC0 ≤ b ∧ b ≤ 0xC3) then
          (packedAt bs next).andThen (fun p =>
            match packedOp b p with
            | some sig => (s.op sig.1 sig.2 off).andThen (fun a => .ok (a, off + 2))
            | none => .error (3, off))
        else .error (3, off))

/-- The ops of a body up to its end. -/
def NEnv.run (e : NEnv) (stop : Nat) : Nat → NSt → Nat → NRes NSt
  | 0, _, off => .error (9, off)
  | n + 1, s, off =>
    if stop ≤ off then .error (9, off)
    else (e.step s off).andThen (fun r =>
      if r.1.frames.isEmpty then (if r.2 = stop then .ok r.1 else .error (9, r.2))
      else e.run stop n r.1 r.2)

/-- What the verifier keeps of a function that it has passed: depth, cells needed, br_table labels (R378). -/
structure NDone where
  depth  : Nat
  need   : Nat
  labels : Nat
deriving DecidableEq, Repr

/-- The one signature of the call table's entries. -/
def tableSig (bs : List Byte) (h : NbcHead) (fs : List NFunc) : Option (List NTy × Option NTy) :=
  let sigs := (List.range h.nct).map (fun i => (fs[numAt bs (h.ct + 4 * i) 4]?).map (fun f => (f.param, f.res)))
  match sigs with
  | some x :: rest => if rest.all (fun y => decide (y = some x)) then some x else none
  | _ => none

/-- Every entry of the call table has the signature of the first (R378). -/
def tableOneSig (bs : List Byte) (h : NbcHead) (fs : List NFunc) : NRes (List Unit) :=
  let sig (i : Nat) : Option (List NTy × Option NTy) := (fs[numAt bs (h.ct + 4 * i) 4]?).map (fun f => (f.param, f.res))
  nAll (fun (i : Nat) => nCheck (decide (sig i ≠ sig 0)) 10 (h.ct + 4 * i)) (List.range h.nct)

/-- Judge function i. -/
def nFuncJudge (bs : List Byte) (h : NbcHead) (fs : List NFunc) (done : List NDone) (i : Nat) : NRes NDone :=
  match fs[i]? with
  | none => .error (2, h.func + 16 * i)
  | some f =>
    let e : NEnv := ⟨bs, bs.take (f.code + f.len), h, fs, i, f.param ++ f.local_, tableSig bs h fs⟩
    let first := f.code + f.param.length + f.res.toList.length + f.local_.length
    (e.run (f.code + f.len) (f.len + 1) ⟨[], [⟨.func, f.res, 0, false⟩], 0, [], 0⟩ first).andThen (fun s =>
      let under := s.calls.map (fun c => done.getD c ⟨0, 0, 0⟩)
      let cells := cellsOf ((f.param ++ f.local_).map some) + s.most
      .ok ⟨if under.isEmpty then 0 else 1 + (under.map (·.depth)).foldl max 0, cells + (under.map (·.need)).foldl max 0, s.labels⟩)

/-- Judge every function in index order. -/
def nFuncsJudge (bs : List Byte) (h : NbcHead) (fs : List NFunc) : NRes (List NDone) :=
  (List.range fs.length).foldl (fun (r : NRes (List NDone)) i => r.andThen (fun ds => (nFuncJudge bs h fs ds i).andThen (fun d => .ok (ds ++ [d])))) (.ok [])

/-- A kernel of an object without TEXT: its entry is a function with no parameters and no results, within the limits (R373, R378). -/
def nKernelJudge (h : NbcHead) (fs : List NFunc) (ds : List NDone) (kdesc : Nat) : NRes Unit :=
  let entry := field kdesc 31 0
  match fs[entry]? with
  | none => .error (2, h.func)
  | some f =>
    let d := ds.getD entry ⟨0, 0, 0⟩
    (nCheck (!(f.param.isEmpty && f.res.isNone)) 2 (h.func + 16 * entry)).andThen (fun _ =>
      nCheck (decide (255 < d.depth) || decide (16 * field kdesc 39 32 < d.need + 16)) 10 (h.func + 16 * entry))

/-- Verify an NBC section for some kernel descriptors: 0 when it passes, else the first failing code and its place. -/
def nbcVerify (bs : List Byte) (kdescs : List Nat) : Nat × Nat :=
  let r : NRes Unit := (nbcHeadCheck bs).andThen (fun h =>
    (nAll (nFuncAt bs h) (List.range h.nfunc)).andThen (fun fs =>
      (nAll (fun (i : Nat) => nCheck (decide (h.nfunc ≤ numAt bs (h.ct + 4 * i) 4)) 6 (h.ct + 4 * i)) (List.range h.nct)).andThen (fun _ =>
        (nAll (fun (i : Nat) => nCheck (nDescBad (numAt bs (h.desc + 16 * i) 16)) 7 (h.desc + 16 * i)) (List.range h.ndesc)).andThen (fun _ =>
          (tableOneSig bs h fs).andThen (fun _ => (nFuncsJudge bs h fs).andThen (fun ds =>
            (nCheck (decide (65535 < h.nct + (ds.map (·.labels)).foldl (· + ·) 0)) 10 h.func).andThen (fun _ =>
              (nAll (nKernelJudge h fs ds) kdescs).andThen (fun _ => .ok ()))))))))
  match r with
  | .ok _ => (0, 0)
  | .error e => e

/-- The br_table labels of a verified section. -/
def nbcLabels (bs : List Byte) : Nat :=
  let h := nbcHead bs
  match (nAll (nFuncAt bs h) (List.range h.nfunc)).andThen (nFuncsJudge bs h) with
  | .ok ds => (ds.map (·.labels)).foldl (· + ·) 0
  | .error _ => 0

end Sys2Proof.Machine
end

