-- ==== Sys2Proof/Machine/Loader.lean ====
section
/-!
DEFINITION. The loader of code objects: its checks in order, relocation, translation of portable code, and the sections placed in memory
(R9 to R17, R26, R379, R380).
-/

namespace Sys2Proof.Machine

/-! ### The container (R9 to R12) -/

/-- A section of the section table (R10): its place in the table, and its fields. -/
structure Sect where
  index : Nat
  stype : Nat
  req   : Bool
  load  : Bool
  align : Nat
  size  : Nat
  off   : Nat
  resv  : Bool
deriving DecidableEq, Repr

/-- Section i of a file. -/
def sectAt (file : List Byte) (table i : Nat) : Sect :=
  let x := numAt file (table + 32 * i) 32
  ⟨i, field x 15 0, flag x 16, flag x 17, field x 199 192, field x 191 128, field x 127 64,
    decide (field x 255 200 ≠ 0) || decide (field x 63 32 ≠ 0) || decide (field x 31 18 ≠ 0)⟩

/-- The loader knows the section's type (R11). -/
def Sect.known (x : Sect) : Bool := decide (1 ≤ x.stype) && decide (x.stype ≤ 11)

/-- The sections of a file. -/
def sectsOf (file : List Byte) : List Sect :=
  let h := numAt file 0 64
  let n := field h 95 64
  if 4096 < n || decide (file.length < field h 191 128 + 32 * n) then [] else (List.range n).map (fun i => sectAt file (field h 191 128) i)

/-- The section of a type. -/
def sectOf (xs : List Sect) (stype : Nat) : Option Sect := xs.find? (fun x => decide (x.stype = stype))

/-- The bytes of a section. -/
def Sect.bytes (x : Sect) (file : List Byte) : List Byte := (file.drop x.off).take x.size

/-- The bytes of the section of a type; none where there is none. -/
def bytesOfType (file : List Byte) (stype : Nat) : List Byte := match sectOf (sectsOf file) stype with | some x => x.bytes file | none => []

/-- Entries of n bytes. -/
def entriesOf (n : Nat) (bs : List Byte) : List Nat := (List.range (bs.length / n)).map (fun i => numAt bs (n * i) n)

/-! ### The checks (R16) -/

/-- Code 1: MAGIC or TOTSIZE. -/
def badMagic (file : List Byte) : Bool := let h := numAt file 0 64; decide (field h 31 0 ≠ 0x314F434E) || decide (field h 255 192 ≠ file.length)

/-- Code 2: CVER, or a reserved field of the header. -/
def badVersion (file : List Byte) : Bool :=
  let h := numAt file 0 64
  decide (field h 47 32 ≠ 1) || decide (field h 511 256 ≠ 0) || decide (field h 127 96 ≠ 0) || decide (field h 63 58 ≠ 0)

/-- Code 3: the part implements revision 1 only (R17). -/
def badSrev (file : List Byte) : Bool := decide (field (numAt file 0 64) 55 48 ≠ 1)

/-- The headers of a capability list: ID and version, the terminator among them. -/
def capHeaders : Nat → List Nat → List (Nat × Nat)
  | 0, _ => []
  | _, [] => []
  | n + 1, w :: ws =>
    if w = 0 then [(0, 0)] else (field w 15 0, field w 23 16) :: capHeaders n (ws.drop (field w 31 24))

/-- Code 4: a required capability that is not met (R26). -/
def missingCap (file : List Byte) (caps : List Nat) : Bool :=
  let have_ := capHeaders caps.length caps
  (entriesOf 4 (bytesOfType file 8)).any (fun x =>
    decide (field x 31 24 ≠ 0) || !(have_.any (fun c => decide (c.1 = field x 15 0) && decide (field x 23 16 ≤ c.2))))

/-- Two sections share a byte of the file. -/
def sectsMeet (a b : Sect) : Bool :=
  decide (a.index < b.index) && decide (0 < a.size) && decide (0 < b.size) && decide (a.off < b.off + b.size) && decide (b.off < a.off + a.size)

/-- Code 5: the section table and the sections that the loader knows. -/
def badSection (file : List Byte) : Bool :=
  let h := numAt file 0 64
  let xs := sectsOf file
  let ks := xs.filter (·.known)
  decide (field h 95 64 = 0) || decide (4096 < field h 95 64) || decide (field h 191 128 % 8 ≠ 0) || xs.isEmpty ||
  ks.any (fun x => decide (file.length < x.off + x.size) || decide (x.off % 8 ≠ 0) || decide (x.align < 3) || decide (16 < x.align) || x.resv) ||
  ks.any (fun a => ks.any (fun b => sectsMeet a b)) || xs.any (fun x => !x.known && x.req) ||
  (List.range 12).any (fun t => decide (1 < (ks.filter (fun x => decide (x.stype = t))).length)) || (sectOf ks 4).isNone ||
  (flag h 56 != (sectOf ks 1).isSome) || (flag h 57 != (sectOf ks 10).isSome)

/-- Code 6: a kernel descriptor. Without TEXT its entry is a function index, judged by the verifier. -/
def badKernel (file : List Byte) : Bool :=
  let text := (sectOf (sectsOf file) 1).map (·.size)
  let nro := (bytesOfType file 2).length
  (entriesOf 64 (bytesOfType file 4)).any (fun x =>
    (match text with
    | some n =>
      kernelBad x || decide (n ≤ field x 31 0) || (decide (field x 191 160 ≠ 0xFFFFFFFF) && decide (n ≤ field x 191 160)) ||
        (decide (0 < field x 111 96) && decide (nro < field x 95 64 + 8 * field x 111 96))
    | none =>
      kernelBad (x - field x 31 0) || decide (field x 191 160 ≠ 0xFFFFFFFF) || decide (field x 95 64 ≠ 0) || decide (field x 111 96 ≠ 0)) ||
    (decide (0 < field x 231 224) && decide ((entriesOf 8 (bytesOfType file 9)).length < field x 255 240 + field x 231 224)) ||
    (decide (0 < field x 207 192) && decide ((entriesOf 32 (bytesOfType file 5)).length < field x 223 208 + field x 207 192)))

/-- The signed addend of a relocation. -/
def relocAddend (x : Nat) : Int := sextNat 64 (field x 191 128)

/-- One relocation is malformed or out of range (R14, R15). DESIGN CHOICE (log 34): R15 gives ADDEND no lower end, and a negative ADDEND of CLAUSE64 or
ARGBASE, which would name no clause of TEXT or no argument word, is out of range. -/
def relocBad (xs : List Sect) (x : Nat) : Bool :=
  match xs[field x 79 64]? with
  | none => true
  | some sec =>
    let target := xs[field x 95 80]?
    let kind := field x 103 96
    decide (field x 127 104 ≠ 0) || decide (field x 63 0 % 8 ≠ 0) || decide (sec.size < field x 63 0 + 8) || !sec.load || !sec.known ||
    (match kind with
    | 1 => (match target with | some t => !t.load || !t.known | none => true)
    | 2 => (match target with
      | some t => decide (t.stype ≠ 1) || !t.load || decide (relocAddend x % 8 ≠ 0) || decide (relocAddend x < 0) || decide ((t.size : Int) ≤ relocAddend x)
      | none => true)
    | 3 => decide (sec.stype ≠ 5) || decide (field x 63 0 % 32 ≠ 0) || decide (relocAddend x < 0)
    | _ => true)

/-- Some field is patched twice. -/
def twice : List (Nat × Nat) → Bool
  | [] => false
  | x :: xs => xs.contains x || twice xs

/-- Code 7: the relocations. -/
def badReloc (file : List Byte) : Bool :=
  let rs := entriesOf 24 (bytesOfType file 7)
  decide ((bytesOfType file 7).length % 24 ≠ 0) || rs.any (relocBad (sectsOf file)) || twice (rs.map (fun x => (field x 79 64, field x 63 0)))

/-- What the loader reports: its code, the verifier's code and the place at fault (R16, R379). -/
def loaderReport (file : List Byte) (caps : List Nat) : Nat × Nat × Nat :=
  let xs := sectsOf file
  let v := if (sectOf xs 1).isSome then (0, 0) else nbcVerify (bytesOfType file 10) (entriesOf 64 (bytesOfType file 4))
  if badMagic file then (1, 0, 0)
  else if badVersion file then (2, 0, 0)
  else if badSrev file then (3, 0, 0)
  else if missingCap file caps then (4, 0, 0)
  else if badSection file then (5, 0, 0)
  else if badKernel file then (6, 0, 0)
  else if badReloc file then (7, 0, 0)
  else if (sectOf xs 1).isNone && (sectOf xs 10).isNone then (8, 0, 0)
  else if v.1 ≠ 0 then (9, v.1, v.2)
  else (0, 0, 0)

/-! ### Loading (R11, R15, R380) -/

/-- A section that goes to memory: its type, its address, its bytes. -/
structure Piece where
  index : Nat
  stype : Nat
  va    : Nat
  bytes : List Byte
deriving DecidableEq, Repr

/-- The TEXT offset of a function of translated code: a multiple of 8 that its descriptor field holds (R13, R373). -/
def nbcEntryOff (nbc : List Byte) (i : Nat) : Nat := 8 * (Config.nbcEntry nbc i % 2 ^ 29)

/-- The TEXT offset of a br_table label. -/
def nbcLabelOff (nbc : List Byte) (i : Nat) : Nat := 8 * (Config.nbcLabel nbc i % 2 ^ 29)

/-- The dispatch table of translated code: the call table's functions, then the br_table labels. -/
def nbcDispatch (nbc : List Byte) (text : Nat) : List Byte :=
  let h := nbcHead nbc
  (List.range h.nct).flatMap (fun i => leBytes 8 (text + nbcEntryOff nbc (numAt nbc (h.ct + 4 * i) 4))) ++
    (List.range (nbcLabels nbc)).flatMap (fun i => leBytes 8 (text + nbcLabelOff nbc i))

/-- The descriptor of a kernel of translated code. -/
def nbcKernel (nbc : List Byte) (dtoff x : Nat) : List Byte :=
  let n := (nbcHead nbc).nct + nbcLabels nbc
  leBytes 64 (x - field x 31 0 + nbcEntryOff nbc (field x 31 0) + (if n = 0 then 0 else dtoff % 2 ^ 32) * 2 ^ 64 + n % 65536 * 2 ^ 96)

/-- The pieces that an object puts in memory, relocations apart. -/
def piecesOf (file : List Byte) (base : List Nat) : List Piece :=
  let xs := sectsOf file
  let n := xs.length
  let plain := (xs.filter (fun x => x.known && x.load)).map (fun x => (⟨x.index, x.stype, base.getD x.index 0, x.bytes file⟩ : Piece))
  if (sectOf xs 1).isSome then plain
  else
    let nbc := bytesOfType file 10
    let text := base.getD n 0
    let ro := bytesOfType file 2
    let dtoff := (ro.length + 7) / 8 * 8
    let table := ro ++ List.replicate (dtoff - ro.length) 0 ++ nbcDispatch nbc text
    let kernels := (entriesOf 64 (bytesOfType file 4)).flatMap (nbcKernel nbc dtoff)
    let own := plain.map (fun p => if p.stype = 2 then { p with bytes := table } else if p.stype = 4 then { p with bytes := kernels } else p)
    own ++ [⟨n, 1, text, Config.nbcText nbc⟩] ++ (if plain.any (fun p => decide (p.stype = 2)) then [] else [⟨n + 1, 2, base.getD (n + 1) 0, table⟩])

/-- Apply one relocation to the pieces. -/
def relocate (ps : List Piece) (x : Nat) : List Piece :=
  let target := match ps.find? (fun p => decide (p.index = field x 95 80)) with | some t => t.va | none => 0
  let v := if field x 103 96 = 3 then 0 else (((target : Int) + relocAddend x) % 2 ^ 64).toNat
  ps.map (fun p => if p.index = field x 79 64 then { p with bytes := patch p.bytes (field x 63 0) (leBytes 8 v) } else p)

/-- The alignment that a piece needs. -/
def pieceAlign (file : List Byte) (p : Piece) : Nat := match (sectsOf file)[p.index]? with | some x => 2 ^ x.align | none => 8

/-- The context that a block describes, in use or not yet. -/
def State.blockCtx (s : State) (k : Nat) : Ctx :=
  match fget s.ctxs k with
  | some c => c
  | none => ctxOfBlock (memNat s.mem k 128) (((List.range 256).find? (fun q => decide ((s.queue q).qctx.toNat = k))).elim 0 (fun q => (s.queue q).part)) []

/-- The page permits the access. -/
def State.permits (s : State) (c : Ctx) (va : Nat) (acc : Acc) : Bool := match s.translate none 0 c va acc with | .ok _ => true | .error _ => false

/-- Where the loader writes a virtual address of a context for a section of a type: TEXT is mapped execute-only, RODATA read-only (R11, R23); none where
the page is missing or permits something else. -/
def State.loaderPa (s : State) (c : Ctx) (stype va : Nat) : Option Nat :=
  let r := s.permits c va .read
  let w := s.permits c va .write
  let x := s.permits c va .fetch
  if (decide (stype = 1) && (r || w || !x)) || (decide (stype = 2) && (!r || w || x)) then none
  else
    match s.translate none 0 c va .maint, s.translate none 0 c va .fetch with
    | .ok lf, _ => some lf.pa
    | _, .ok lf => some lf.pa
    | _, _ => none

/-- The places of a piece: physical address and bytes of each part; none where a page is missing. -/
def State.placesOf (s : State) (c : Ctx) (p : Piece) : Option (List (Nat × List Byte)) :=
  allSome (fun (q : Nat × Nat) => (s.loaderPa c p.stype q.1).map (fun pa => (pa, (p.bytes.drop (q.1 - p.va)).take q.2))) (linePieces p.va p.bytes.length)

/-- The presets of the kernels of an object, by the address of their descriptors. -/
def presetsOf (file : List Byte) (ctx : Nat) (ps : List Piece) : List (Nat × Nat × List DWord) :=
  let sh := entriesOf 8 (bytesOfType file 9)
  match ps.find? (fun p => decide (p.stype = 4)) with
  | none => []
  | some p => (List.range (p.bytes.length / 64)).map (fun i =>
      let x := numAt p.bytes (64 * i) 64
      (ctx, p.va + 64 * i, ((sh.drop (field x 255 240)).take (field x 231 224)).map (fun v => BitVec.ofNat 64 v)))

/-- The BASE fields of templates that ARGBASE marks: the context, the field's address, and the byte offset of its word in the argument block (R15). -/
def argMarks (file : List Byte) (ctx : Nat) (ps : List Piece) : List (Nat × Nat × Nat) :=
  (entriesOf 24 (bytesOfType file 7)).filterMap (fun x =>
    if field x 103 96 = 3 then (ps.find? (fun p => decide (p.index = field x 79 64))).map (fun p => (ctx, p.va + field x 63 0, 8 * field x 191 128)) else none)

/-- The buffer records of a launch, built from its templates at an address: each BASE field that is marked is filled from the launch argument block
(R15, R18, R48). -/
def State.launchRecords (s : State) (ctx templates : Nat) (arg : List Byte) (xs : List Nat) : List Nat :=
  (List.range xs.length).map (fun i =>
    let x := xs.getD i 0
    match s.argmarks.find? (fun m => decide (m.1 = ctx) && decide (m.2.1 = templates + 32 * i)) with
    | some m => x - field x 63 0 + leNat ((arg.drop m.2.2).take 8)
    | none => x)

/-- The loader checks an object, and loads it or refuses it; it loads nothing where a section is misaligned or a page is missing. -/
def execCodeObjectLoad (file : List Byte) (plan : LoadPlan) (s : State) : Host.Outcome State Fault Refusal :=
  event s (fun s =>
    let c := s.blockCtx plan.ctxBlock
    let report := loaderReport file ((s.capList c.part).map (·.toNat))
    let s1 := { s with report := report }
    if report.1 ≠ 0 then s1
    else
      let ps := (entriesOf 24 (bytesOfType file 7)).foldl relocate (piecesOf file plan.base)
      if ps.any (fun p => decide (p.va % pieceAlign file p ≠ 0)) then s
      else
        match allSome (fun p => s.placesOf c p) ps with
        | none => s
        | some ws =>
          let s2 := (ws.flatMap id).foldl (fun (a : State) w => a.homeWrite w.1 w.2) s1
          let new := presetsOf file plan.ctxBlock ps
          let marks := argMarks file plan.ctxBlock ps
          let stale (e : Nat × Nat × Nat) : Bool := decide (e.1 = plan.ctxBlock) && ps.any (fun p => decide (p.va ≤ e.2.1) && decide (e.2.1 < p.va + p.bytes.length))
          { s2 with
            presets := s2.presets.filter (fun e => !(new.any (fun x => decide (x.1 = e.1) && decide (x.2.1 = e.2.1)))) ++ new
            argmarks := s2.argmarks.filter (fun e => !stale e) ++ marks })

end Sys2Proof.Machine
end

