-- ==== Sys2Proof/Machine/Dispatch.lean ====
section
/-!
DEFINITION. The dispatcher: one arm for each constructor of `Instr`.
-/

namespace Sys2Proof.Machine

def exec (i : Instr) (s : State) : Host.Outcome State Fault Refusal :=
  match i with
  | .nop c => Sys2Proof.Machine.execNop c s
  | .iadd c ty sat d a b => Sys2Proof.Machine.execIadd c ty sat d a b s
  | .isub c ty sat d a b => Sys2Proof.Machine.execIsub c ty sat d a b s
  | .imul c ty sat d a b => Sys2Proof.Machine.execImul c ty sat d a b s
  | .imulh c ty d a b => Sys2Proof.Machine.execImulh c ty d a b s
  | .imad c ty sat d a b e => Sys2Proof.Machine.execImad c ty sat d a b e s
  | .imadw c ty d a b e => Sys2Proof.Machine.execImadw c ty d a b e s
  | .idiv c ty d a b => Sys2Proof.Machine.execIdiv c ty d a b s
  | .irem c ty d a b => Sys2Proof.Machine.execIrem c ty d a b s
  | .imin c ty d a b => Sys2Proof.Machine.execImin c ty d a b s
  | .imax c ty d a b => Sys2Proof.Machine.execImax c ty d a b s
  | .iabs c ty sat d a => Sys2Proof.Machine.execIabs c ty sat d a s
  | .ineg c ty sat d a => Sys2Proof.Machine.execIneg c ty sat d a s
  | .iaddi c ty sat d a imm => Sys2Proof.Machine.execIaddi c ty sat d a imm s
  | .icmp c cond ty p a b => Sys2Proof.Machine.execIcmp c cond ty p a b s
  | .icmpi c cond ty p a imm => Sys2Proof.Machine.execIcmpi c cond ty p a imm s
  | .and c ty d a b => Sys2Proof.Machine.execAnd c ty d a b s
  | .or c ty d a b => Sys2Proof.Machine.execOr c ty d a b s
  | .xor c ty d a b => Sys2Proof.Machine.execXor c ty d a b s
  | .not c ty d a => Sys2Proof.Machine.execNot c ty d a s
  | .blut3 c ty tt d a b e => Sys2Proof.Machine.execBlut3 c ty tt d a b e s
  | .lopi c op ty d a imm => Sys2Proof.Machine.execLopi c op ty d a imm s
  | .shl c ty d a b => Sys2Proof.Machine.execShl c ty d a b s
  | .shr c ty d a b => Sys2Proof.Machine.execShr c ty d a b s
  | .sar c ty d a b => Sys2Proof.Machine.execSar c ty d a b s
  | .rol c ty d a b => Sys2Proof.Machine.execRol c ty d a b s
  | .shi c kind ty d a imm => Sys2Proof.Machine.execShi c kind ty d a imm s
  | .bfx c ty d a b => Sys2Proof.Machine.execBfx c ty d a b s
  | .bfi c ty d a b => Sys2Proof.Machine.execBfi c ty d a b s
  | .popc c ty d a => Sys2Proof.Machine.execPopc c ty d a s
  | .clz c ty d a => Sys2Proof.Machine.execClz c ty d a s
  | .ctz c ty d a => Sys2Proof.Machine.execCtz c ty d a s
  | .brev c ty d a => Sys2Proof.Machine.execBrev c ty d a s
  | .permb c d a b e => Sys2Proof.Machine.execPermb c d a b e s
  | .lea c ty sh d a b => Sys2Proof.Machine.execLea c ty sh d a b s
  | .sel c ty d a b p neg => Sys2Proof.Machine.execSel c ty d a b p neg s
  | .plop c tt d a b e => Sys2Proof.Machine.execPlop c tt d a b e s
  | .mov c ty d a => Sys2Proof.Machine.execMov c ty d a s
  | .movi c form d imm => Sys2Proof.Machine.execMovi c form d imm s
  | .movxRd c w64 d a base => Sys2Proof.Machine.execMovxRd c w64 d a base s
  | .movxWr c w64 a base e => Sys2Proof.Machine.execMovxWr c w64 a base e s
  | .srd c w64 sel d => Sys2Proof.Machine.execSrd c w64 sel d s
  | .swr c a => Sys2Proof.Machine.execSwr c a s
  | .fadd c ty rnd m d a b => Sys2Proof.Machine.execFadd c ty rnd m d a b s
  | .fsub c ty rnd m d a b => Sys2Proof.Machine.execFsub c ty rnd m d a b s
  | .fmul c ty rnd m d a b => Sys2Proof.Machine.execFmul c ty rnd m d a b s
  | .ffma c ty rnd m d a b e => Sys2Proof.Machine.execFfma c ty rnd m d a b e s
  | .fmin c ty m d a b => Sys2Proof.Machine.execFmin c ty m d a b s
  | .fmax c ty m d a b => Sys2Proof.Machine.execFmax c ty m d a b s
  | .fcmp c cond ty m p a b q => Sys2Proof.Machine.execFcmp c cond ty m p a b q s
  | .fclass c ty m d a => Sys2Proof.Machine.execFclass c ty m d a s
  | .frnd c ty rnd m d a => Sys2Proof.Machine.execFrnd c ty rnd m d a s
  | .fscale c ty rnd m d a b => Sys2Proof.Machine.execFscale c ty rnd m d a b s
  | .fgetexp c ty m d a => Sys2Proof.Machine.execFgetexp c ty m d a s
  | .fgetman c ty m d a => Sys2Proof.Machine.execFgetman c ty m d a s
  | .fdot2 c ty rnd m d a b e => Sys2Proof.Machine.execFdot2 c ty rnd m d a b e s
  | .cvt c dst src rnd sat el d a => Sys2Proof.Machine.execCvt c dst src rnd sat el d a s
  | .pack c pf rnd sat d a b => Sys2Proof.Machine.execPack c pf rnd sat d a b s
  | .unpack c pf d a => Sys2Proof.Machine.execUnpack c pf d a s
  | .bra c off hint => Sys2Proof.Machine.execBra c off hint s
  | .brx c hint a => Sys2Proof.Machine.execBrx c hint a s
  | .call c off hint => Sys2Proof.Machine.execCall c off hint s
  | .callx c hint a => Sys2Proof.Machine.execCallx c hint a s
  | .ret c hint => Sys2Proof.Machine.execRet c hint s
  | .lpad c kinds => Sys2Proof.Machine.execLpad c kinds s
  | .loop c off a => Sys2Proof.Machine.execLoop c off a s
  | .lbrk c hint => Sys2Proof.Machine.execLbrk c hint s
  | .spawn c off a d => Sys2Proof.Machine.execSpawn c off a d s
  | .exit c => Sys2Proof.Machine.execExit c s
  | .yield c => Sys2Proof.Machine.execYield c s
  | .bkpt c code => Sys2Proof.Machine.execBkpt c code s
  | .trap c code => Sys2Proof.Machine.execTrap c code s
  | .rcp c ty m d a => Sys2Proof.Machine.execRcp c ty m d a s
  | .rsq c ty m d a => Sys2Proof.Machine.execRsq c ty m d a s
  | .sqrt c ty m d a => Sys2Proof.Machine.execSqrt c ty m d a s
  | .fdiv c ty m d a b => Sys2Proof.Machine.execFdiv c ty m d a b s
  | .ex2 c ty m d a => Sys2Proof.Machine.execEx2 c ty m d a s
  | .lg2 c ty m d a => Sys2Proof.Machine.execLg2 c ty m d a s
  | .sinpi c ty m d a => Sys2Proof.Machine.execSinpi c ty m d a s
  | .cospi c ty m d a => Sys2Proof.Machine.execCospi c ty m d a s
  | .tanh c ty m d a => Sys2Proof.Machine.execTanh c ty m d a s
  | .rand c unif d a b e => Sys2Proof.Machine.execRand c unif d a b e s
  | .lxch c mode w64 edge ms d a b => Sys2Proof.Machine.execLxch c mode w64 edge ms d a b s
  | .vote c op neg ms d a => Sys2Proof.Machine.execVote c op neg ms d a s
  | .matchx c w64 ms d a => Sys2Proof.Machine.execMatchx c w64 ms d a s
  | .xred c op uns ms d a => Sys2Proof.Machine.execXred c op uns ms d a s
  | .xscan c op uns excl ms d a => Sys2Proof.Machine.execXscan c op uns excl ms d a s
  | .lanemap c ms a => Sys2Proof.Machine.execLanemap c ms a s
  | .lanemapRd c d => Sys2Proof.Machine.execLanemapRd c d s
  | .active c d => Sys2Proof.Machine.execActive c d s
  | .elect c ms p => Sys2Proof.Machine.execElect c ms p s
  | .ld c sz m d => Sys2Proof.Machine.execLd c sz m d s
  | .st c sz m d => Sys2Proof.Machine.execSt c sz m d s
  | .prefL1 c sz brec a off => Sys2Proof.Machine.execPrefL1 c sz brec a off s
  | .prefL2 c sz brec a off => Sys2Proof.Machine.execPrefL2 c sz brec a off s
  | .cmaintWb c sz brec a off => Sys2Proof.Machine.execCmaintWb c sz brec a off s
  | .cmaintWbinv c sz brec a off => Sys2Proof.Machine.execCmaintWbinv c sz brec a off s
  | .cmaintWbmem c sz brec a off => Sys2Proof.Machine.execCmaintWbmem c sz brec a off s
  | .fence c kind scope uo => Sys2Proof.Machine.execFence c kind scope uo s
  | .acqr c uo a => Sys2Proof.Machine.execAcqr c uo a s
  | .acpy c sz src x y z => Sys2Proof.Machine.execAcpy c sz src x y z s
  | .mcpy c brec x y z => Sys2Proof.Machine.execMcpy c brec x y z s
  | .tbarInit c pool a off d => Sys2Proof.Machine.execTbarInit c pool a off d s
  | .tbarArrive c pool a off => Sys2Proof.Machine.execTbarArrive c pool a off s
  | .tbarArriveSect c pool a off d => Sys2Proof.Machine.execTbarArriveSect c pool a off d s
  | .tbarSect c pool a off d => Sys2Proof.Machine.execTbarSect c pool a off d s
  | .tbarWait c pool a off d => Sys2Proof.Machine.execTbarWait c pool a off d s
  | .tbarTest c pool a off d => Sys2Proof.Machine.execTbarTest c pool a off d s
  | .atom c k op ty sp a d => Sys2Proof.Machine.execAtom c k op ty sp a d s
  | .atomn c k op ty sp a d => Sys2Proof.Machine.execAtomn c k op ty sp a d s
  | .acas c k ty sp a d => Sys2Proof.Machine.execAcas c k ty sp a d s
  | .exsum c k sp a d => Sys2Proof.Machine.execExsum c k sp a d s
  | .excvt c k bf16 clr sp a d => Sys2Proof.Machine.execExcvt c k bf16 clr sp a d s
  | .waitc c cond uo brec a d => Sys2Proof.Machine.execWaitc c cond uo brec a d s
  | .llock c uo brec a d => Sys2Proof.Machine.execLlock c uo brec a d s
  | .lunlk c uo brec a d => Sys2Proof.Machine.execLunlk c uo brec a d s
  | .ltry c uo brec a d => Sys2Proof.Machine.execLtry c uo brec a d s
  | .lstat c brec a d => Sys2Proof.Machine.execLstat c brec a d s
  | .bar c op uo cnt id d a b => Sys2Proof.Machine.execBar c op uo cnt id d a b s
  | .cbar c op uo cnt id d a b => Sys2Proof.Machine.execCbar c op uo cnt id d a b s
  | .mxm c d a imm => Sys2Proof.Machine.execMxm c d a imm s
  | .mxldZero c int bank d => Sys2Proof.Machine.execMxldZero c int bank d s
  | .mxldFill c int bank d b => Sys2Proof.Machine.execMxldFill c int bank d b s
  | .mxldRestore c int bank d a imm => Sys2Proof.Machine.execMxldRestore c int bank d a imm s
  | .mxst c bank d a imm => Sys2Proof.Machine.execMxst c bank d a imm s
  | .mxwait c a => Sys2Proof.Machine.execMxwait c a s
  | .mstat c clr sel d => Sys2Proof.Machine.execMstat c clr sel d s
  | .sshape c n a => Sys2Proof.Machine.execSshape c n a s
  | .sshapeRd c n d => Sys2Proof.Machine.execSshapeRd c n d s
  | .strmOpen c d a => Sys2Proof.Machine.execStrmOpen c d a s
  | .strmSub c w d a b => Sys2Proof.Machine.execStrmSub c w d a b s
  | .strmUnsub c a => Sys2Proof.Machine.execStrmUnsub c a s
  | .strmClose c a => Sys2Proof.Machine.execStrmClose c a s
  | .taskpost c d a b imm => Sys2Proof.Machine.execTaskpost c d a b imm s
  | .taskseq c d b => Sys2Proof.Machine.execTaskseq c d b s
  | .taskseqWait c a b => Sys2Proof.Machine.execTaskseqWait c a b s
  | .coll c d a imm => Sys2Proof.Machine.execColl c d a imm s
  | .dxsync c d => Sys2Proof.Machine.execDxsync c d s
  | .dxq c sel d => Sys2Proof.Machine.execDxq c sel d s
  | .tret c keep keepPw => Sys2Proof.Machine.execTret c keep keepPw s
  | .tretSkip c keep keepPw => Sys2Proof.Machine.execTretSkip c keep keepPw s
  | .caps c d a imm => Sys2Proof.Machine.execCaps c d a imm s
  | .elogSync c => Sys2Proof.Machine.execElogSync c s
  | .elogCnt c d => Sys2Proof.Machine.execElogCnt c d s
  | .elogPut c a b => Sys2Proof.Machine.execElogPut c a b s
  | .tlbiAll c => Sys2Proof.Machine.execTlbiAll c s
  | .tlbiVa c a => Sys2Proof.Machine.execTlbiVa c a s
  | .tlbiPart c => Sys2Proof.Machine.execTlbiPart c s
  | .protld c slot d a => Sys2Proof.Machine.execProtld c slot d a s
  | .objdecl c slot d a => Sys2Proof.Machine.execObjdecl c slot d a s
  | .objrel c d a => Sys2Proof.Machine.execObjrel c d a s
  | .div64 c ty d a b => Sys2Proof.Machine.execDiv64 c ty d a b s
  | .rem64 c ty d a b => Sys2Proof.Machine.execRem64 c ty d a b s
  | .mulh64 c ty d a b => Sys2Proof.Machine.execMulh64 c ty d a b s
  | .crcb c n d a b => Sys2Proof.Machine.execCrcb c n d a b s
  | .bundleSeed team grp => Sys2Proof.Machine.execBundleSeed team grp s
  | .clauseFetch bundle => Sys2Proof.Machine.execClauseFetch bundle s
  | .clauseBoundary bundle => Sys2Proof.Machine.execClauseBoundary bundle s
  | .fairnessTimerExpiry team grp => Sys2Proof.Machine.execFairnessTimerExpiry team grp s
  | .readyButWaiting team grp => Sys2Proof.Machine.execReadyButWaiting team grp s
  | .xlnExitCompletion team grp => Sys2Proof.Machine.execXlnExitCompletion team grp s
  | .eventRecordExpiry team grp => Sys2Proof.Machine.execEventRecordExpiry team grp s
  | .operationComplete op => Sys2Proof.Machine.execOperationComplete op s
  | .faultRecordPost die => Sys2Proof.Machine.execFaultRecordPost die s
  | .answerRetry die tag => Sys2Proof.Machine.execAnswerRetry die tag s
  | .answerFail die tag => Sys2Proof.Machine.execAnswerFail die tag s
  | .badtagClear die => Sys2Proof.Machine.execBadtagClear die s
  | .faultQueueEnable die value => Sys2Proof.Machine.execFaultQueueEnable die value s
  | .sliceRequestEnqueue die core => Sys2Proof.Machine.execSliceRequestEnqueue die core s
  | .homeStorePerformed die core line evict => Sys2Proof.Machine.execHomeStorePerformed die core line evict s
  | .monitorReread team grp lane => Sys2Proof.Machine.execMonitorReread team grp lane s
  | .waitcTimeout team grp lane => Sys2Proof.Machine.execWaitcTimeout team grp lane s
  | .atomicRequestAtHome req => Sys2Proof.Machine.execAtomicRequestAtHome req s
  | .sluiceSectorLand die core copy sectors => Sys2Proof.Machine.execSluiceSectorLand die core copy sectors s
  | .acqrWriteback req => Sys2Proof.Machine.execAcqrWriteback req s
  | .matrixOpComplete die core => Sys2Proof.Machine.execMatrixOpComplete die core s
  | .causewayDataArrive die core => Sys2Proof.Machine.execCausewayDataArrive die core s
  | .staitheTileDeliver die core stream => Sys2Proof.Machine.execStaitheTileDeliver die core stream s
  | .lockRequestAtHome req => Sys2Proof.Machine.execLockRequestAtHome req s
  | .unlockAtHome req => Sys2Proof.Machine.execUnlockAtHome req s
  | .lockTimeout team grp => Sys2Proof.Machine.execLockTimeout team grp s
  | .deadlockProbe team grp => Sys2Proof.Machine.execDeadlockProbe team grp s
  | .absenceArrive team grp => Sys2Proof.Machine.execAbsenceArrive team grp s
  | .presenceArrive team grp => Sys2Proof.Machine.execPresenceArrive team grp s
  | .lockholdMaxExpiry team => Sys2Proof.Machine.execLockholdMaxExpiry team s
  | .rd die slice obj => Sys2Proof.Machine.execRd die slice obj s
  | .wr0 die slice obj => Sys2Proof.Machine.execWr0 die slice obj s
  | .wr1 die slice obj => Sys2Proof.Machine.execWr1 die slice obj s
  | .evc die slice obj agent => Sys2Proof.Machine.execEvc die slice obj agent s
  | .wb die slice obj agent line => Sys2Proof.Machine.execWb die slice obj agent line s
  | .ack die slice obj => Sys2Proof.Machine.execAck die slice obj s
  | .staleMessage die kind agent inc => Sys2Proof.Machine.execStaleMessage die kind agent inc s
  | .hostMemoryAccess acc => Sys2Proof.Machine.execHostMemoryAccess acc s
  | .bisnpResponse line data => Sys2Proof.Machine.execBisnpResponse line data s
  | .hostLineWrite pa data => Sys2Proof.Machine.execHostLineWrite pa data s
  | .retentionEnter die core => Sys2Proof.Machine.execRetentionEnter die core s
  | .retentionWake die core => Sys2Proof.Machine.execRetentionWake die core s
  | .queueEnable q value => Sys2Proof.Machine.execQueueEnable q value s
  | .queueDisable q value => Sys2Proof.Machine.execQueueDisable q value s
  | .qtailWrite q value => Sys2Proof.Machine.execQtailWrite q value s
  | .registerWrite off size value => Sys2Proof.Machine.execRegisterWrite off size value s
  | .commit p => Sys2Proof.Machine.execCommit p s
  | .oversubClear p => Sys2Proof.Machine.execOversubClear p s
  | .resume p => Sys2Proof.Machine.execResume p s
  | .drain p => Sys2Proof.Machine.execDrain p s
  | .kill q => Sys2Proof.Machine.execKill q s
  | .lkcntClear p => Sys2Proof.Machine.execLkcntClear p s
  | .staleCountersClear die => Sys2Proof.Machine.execStaleCountersClear die s
  | .errorCountersClear die => Sys2Proof.Machine.execErrorCountersClear die s
  | .declare die agent => Sys2Proof.Machine.execDeclare die agent s
  | .replaysClear port => Sys2Proof.Machine.execReplaysClear port s
  | .bootGo image => Sys2Proof.Machine.execBootGo image s
  | .attestGo => Sys2Proof.Machine.execAttestGo s
  | .reset deadSites cxlBytes => Sys2Proof.Machine.execReset deadSites cxlBytes s
  | .codeObjectLoad file plan => Sys2Proof.Machine.execCodeObjectLoad file plan s
  | .walkRecord q => Sys2Proof.Machine.execWalkRecord q s
  | .linkFollow q => Sys2Proof.Machine.execLinkFollow q s
  | .taskDistribute task => Sys2Proof.Machine.execTaskDistribute task s
  | .clusterPlace task => Sys2Proof.Machine.execClusterPlace task s
  | .preemptDecision task => Sys2Proof.Machine.execPreemptDecision task s
  | .reclaimComplete die core => Sys2Proof.Machine.execReclaimComplete die core s
  | .blockClearDone die core block => Sys2Proof.Machine.execBlockClearDone die core block s
  | .taskRetire task => Sys2Proof.Machine.execTaskRetire task s
  | .taskFault task => Sys2Proof.Machine.execTaskFault task s
  | .swapwaitExpiry team => Sys2Proof.Machine.execSwapwaitExpiry team s
  | .teamSave team => Sys2Proof.Machine.execTeamSave team s
  | .teamRestore team => Sys2Proof.Machine.execTeamRestore team s
  | .teamRetire team => Sys2Proof.Machine.execTeamRetire team s
  | .quantumCommit task => Sys2Proof.Machine.execQuantumCommit task s
  | .collectiveStart die peers => Sys2Proof.Machine.execCollectiveStart die peers s
  | .collectiveComplete die outcome peers => Sys2Proof.Machine.execCollectiveComplete die outcome peers s
  | .ualinkRequest port req => Sys2Proof.Machine.execUalinkRequest port req s
  | .linkTraining port width supported => Sys2Proof.Machine.execLinkTraining port width supported s
  | .flitReplay link lane => Sys2Proof.Machine.execFlitReplay link lane s
  | .laneRetire link lane => Sys2Proof.Machine.execLaneRetire link lane s
  | .retrainDone link => Sys2Proof.Machine.execRetrainDone link s
  | .linkReplayTimeout die agent => Sys2Proof.Machine.execLinkReplayTimeout die agent s
  | .selfTestFail die agent => Sys2Proof.Machine.execSelfTestFail die agent s
  | .throttleStep => Sys2Proof.Machine.execThrottleStep s
  | .partitionStop => Sys2Proof.Machine.execPartitionStop s
  | .unthrottleStep => Sys2Proof.Machine.execUnthrottleStep s
  | .thermalTrip celsius => Sys2Proof.Machine.execThermalTrip celsius s
  | .scrub die loc corrected reader => Sys2Proof.Machine.execScrub die loc corrected reader s
  | .bankSpareCopy die core bank => Sys2Proof.Machine.execBankSpareCopy die core bank s
  | .l2WayReplace die slice way => Sys2Proof.Machine.execL2WayReplace die slice way s
  | .coreRepair die core => Sys2Proof.Machine.execCoreRepair die core s

end Sys2Proof.Machine
end

