-- ==== Sys2Proof/Machine/Schedule.lean ====
section
/-!
DEFINITION. Time and the order of moves: the clocks that pass before a move (R5, R58, R106, R297, R304, R363), a bundle's next instruction
(R83, R85, R103), and the move the part makes when none is set out for it (log 2).
-/

namespace Sys2Proof.Machine

/-! ### The clocks that pass -/

/-- A count-down of some clocks. -/
def countDown (d : Nat) (n : Option Nat) : Option Nat := n.map (fun k => k - d)

/-- Reference clocks pass for a group's lock wait: only while it is present; a deterministic wait counts none (R297, R304, R308). -/
def LockWait.pass (w : LockWait) (d : Nat) : LockWait :=
  if w.absent || !w.key.isEmpty then w else { w with left := countDown d w.left, probe := countDown d w.probe }

/-- The team's fairness timers count core clocks: it is resident on a running core, in a grid that is not deterministic (R106, R336). -/
def Team.counts (t : Team) : Bool :=
  t.kern.dx.isNone && (match t.status with | .resident => true | .saving .. => true | _ => false)

/-- Clocks pass for a team: d reference clocks, c core clocks, up to the core clock at. -/
def Team.pass (t : Team) (d c at_ : Nat) : Team :=
  { t with
    groups := t.groups.map (fun g => { g with
      timer := if t.counts then max g.timer (min t.kern.fairq (g.timer + c)) else g.timer,
      lwait := g.lwait.map (fun w => w.pass d) }),
    blocked := if t.allBlocked then some (t.blocked.getD at_) else none }

/-- A partition counts core clocks at its own rate (R58). -/
def Partition.pass (p : Partition) (d : Nat) : Partition := { p with cyc16 := p.cyc16 + (16 - p.steps) * d }

/-- A partition of fixed clock runs: it is not stopped, or a team of it is neither saved nor halted (R58). -/
def State.fixedRuns (s : State) : Bool :=
  s.committed.any (fun p => descFixclk (s.desc p) && (!(s.part p).stopped ||
    s.teams.any (fun e => decide (e.2.part = p) && (match e.2.status with | .resident => true | .saving .. => true | _ => false))))

/-- The clock of a core is gated: the teams on it are halted (R58; log 44). -/
def State.gated (s : State) (k : Nat) : Bool :=
  s.teams.any (fun e => decide (e.2.key = k) && decide (e.2.status = .halted)) &&
  !(s.teams.any (fun e => decide (e.2.key = k) && (match e.2.status with | .resident => true | .saving .. => true | _ => false)))

/-- Reference clocks pass for a core: it stays idle from its last busy clock on, and a gated one falls behind its partition's count (R58, R398). -/
def State.passCore (s : State) (d k : Nat) (c : Core) : Core :=
  { c with
    idle := if s.coreBusy k then s.now + d else c.idle,
    gap := if s.gated k then c.gap - ((match s.partOf k with | some p => 16 - (s.part p).steps | none => 16) * d : Nat) else c.gap }

/-- A clock has passed in which a group that yielded let another ready front path of its sub-core go first (R125). -/
def State.passSkip (s : State) (d tid : Nat) (t : Team) : Team :=
  { t with groups := (List.range t.groups.length).filterMap (fun g => (t.groups[g]?).map (fun x =>
      { x with skip := x.skip && !(decide (0 < d) && s.otherReady tid g t x.subcore) })) }

/-- Some reference clocks pass. -/
def State.pass (s : State) (d : Nat) : State :=
  let s1 := (List.range 8).foldl (fun (a : State) p => a.modPart p (fun x => x.pass d)) s
  { s1 with
    now := s.now + d,
    pwrQuiet := if s.pwrFloor.isSome && !s.fixedRuns then some (s.pwrQuiet.getD s.now) else none,
    cores := s1.cores.map (fun (e : Nat × Core) => (e.1, s.passCore d e.1 e.2)),
    teams := s1.teams.map (fun (e : Nat × Team) =>
      (e.1, (s.passSkip d e.1 e.2).pass d (s1.coreClock e.2.part - s.coreClock e.2.part) (s.coreClock e.2.part))) }

/-- Reference clocks until a core clock of a partition. -/
def State.clocksTo (s : State) (p c : Nat) : Nat :=
  let x := s.part p
  (16 * c - x.cyc16 + (15 - x.steps)) / (16 - x.steps)

/-! ### Issuing an instruction (R83, R85, R103) -/

/-- A word that is no instruction is ILLEGAL in every performing fibre (R83). -/
def State.badWord (s : State) (word : DWord) : State :=
  match s.who with
  | none => s
  | some w =>
    let perf := w.active.filter (fun x => (s.fibre w.team x.1 x.2).performs w.pos (ctlOf word.toNat))
    ((s.trapAll { w with perf := perf } .illegal perf).countClocks w).runKills

/-- Groups of a deterministic grid count instructions (R336). -/
def State.countIssue (s : State) (team : Nat) (gs : List Nat) : State :=
  match s.team team with
  | none => s
  | some t =>
    if t.kern.dx.isNone then s
    else gs.foldl (fun (a : State) g => a.modGroup team g (fun x => { x with timer := max x.timer (min t.kern.fairq (x.timer + 1)), dxran := true })) s

/-- Groups that have performed an instruction forget the regions answered FAIL for it (R180). -/
def State.clearFailed (s : State) (team : Nat) (gs : List Nat) : State :=
  gs.foldl (fun (a : State) g => a.modGroup team g (fun x => if x.asleep then x else { x with failed := [] })) s

/-- After an instruction: the bundle goes to the next one, or tries again in the next clock if it was held. -/
def State.afterIssue (s : State) (id : Nat) (gs : List Nat) (word : DWord) : State :=
  let s0 := { s with focus := none }
  match fget s0.bundles id with
  | none => s0
  | some b =>
    let c := s0.coreNow b.team
    if b.stall then s0.modBundle id (fun x => { x with stall := false, readyAt := c + 1, first := false })
    else
      let n := (ctlOf word.toNat).stall.toNat + 1
      let s1 := s0.modBundle id (fun x => { x with idx := x.idx + 1, pos := x.pos + n, readyAt := c + n, issued := c, first := false })
      let s2 := match s0.team b.team with
        | some t => s1.modCore t.key (fun k => { k with slots := fset k.slots b.subcore c })
        | none => s1
      (s2.clearFailed b.team gs).countIssue b.team gs

/-- Carry a step's next state on. -/
def andAfter (o : Host.Outcome State Fault Refusal) (h : State → State) : Host.Outcome State Fault Refusal :=
  match o with
  | .next s => .next (h s)
  | .fault r => .fault r
  | .refused r => .refused r

/-- The sub-core of a bundle picks its next instruction (R103). -/
def State.picks (s : State) (id : Nat) (b : Bundle) : Bool :=
  match s.team b.team with
  | some t => decide (s.pick t.key b.subcore t.part = some (.issue id))
  | none => false

/-- A running bundle issues its next instruction, when its sub-core picks it. -/
def State.issueNext (s : State) (id : Nat) : Host.Outcome State Fault Refusal :=
  match fget s.bundles id with
  | none => .fault (.noSuchBundle id)
  | some b =>
    if !s.picks id b then .next s
    else
      let word := b.words.getD b.idx 0
      let gs := groupsOf (s.activeOf b)
      let s1 := { s with focus := some id }
      match decodeWord word with
      | .ok i => andAfter (exec i s1) (fun t => t.afterIssue id gs word)
      | .error _ => .next ((s1.badWord word).afterIssue id gs word)

/-! ### A word placed for issue -/

/-- A kernel of one group, with a trap handler at 0x1000 and the widest register window. -/
def Kernel.probe : Kernel :=
  { kdesc := 0, text := 0x1000, rodata := 0, entry := 0, trapoff := some 0, dtoff := 0, dtlen := 0, brtab := 0, argva := 0, arglen := 0, nbrec := 0,
    gpt := 1, fpg := 1, win := 256, vbanks := 1, fairq := 512, lktmo := 0, swapwait := 0, sbchk := false, clw := 1, clh := 1,
    ssh := List.replicate 8 0x0000002177174174, nclus := 1, dx := none }

/-- A live fibre at its first issue. -/
def Fibre.fresh (win : Nat) : Fibre := { Fibre.reset with live := true, regs := List.replicate win 0, regs0 := List.replicate win 0 }

/-- A group with one live fibre in lane 0, in the bundle. -/
def Group.probe (bundle : Nat) : Group :=
  { fibres := Fibre.fresh 256 :: List.replicate 31 Fibre.reset, subcore := 0, wbase := 0, gref := 0, paths := [⟨0, 0, 0, 1, .ready⟩], timer := 0,
    due := none, readyAt := 0, skip := false, sb := List.replicate 8 0, bundle := bundle, remap := (List.range 32), event := none, held := [],
    lwait := none, asleep := false, tags := [], failed := [], dxbuf := [], dxgone := 0, dxran := false }

/-- A team of that group on core 0 of die 0. -/
def Team.probe (bundle grid : Nat) : Team :=
  { grid := grid, ctx := 0, part := 0, clusid := 0, teamid := 0, die := 0, core := 0, prio := 31, placed := 0, kern := Kernel.probe,
    groups := [Group.probe bundle], bars := List.replicate 16 Barrier.reset, ssh := Kernel.probe.ssh, swamp := [0, 0, 0, 0], mflt := 0, issued := 0,
    doneT := 0, run0 := 0, nsys := 3, status := .resident, blocked := none, defer := none, mat := none, why := none, full := [], freed := false }

/-- A running part whose next step issues the word: firmware runs, and a bundle of one fibre has fetched a clause of that one word. -/
def State.placeWord (s : State) (nbits w : Nat) : State :=
  let word : DWord := BitVec.ofNat 64 (w % 2 ^ nbits)
  let n := s.serial
  let cls := match decodeWord word with
    | .ok i => match i.cls with | some k => k.code | none => 0
    | .error _ => 0
  let b : Bundle :=
    { team := n, subcore := 0, pc := 0, idx := 0, depth := 0, members := [(0, 1)], fetched := true, cls := cls, words := [word], pos := 0,
      readyAt := 0, issued := 0, first := false, stall := false, yields := [], spawns := [] }
  let g : Grid :=
    { task := 0, ctx := 0, part := 0, queue := 0, die := 0, prio := some 31, kern := Kernel.probe, next := 1, retired := 0, commits := 0,
      dxops := [], applied := false, todo := [], safe := false }
  { s with
    serial := n + 3,
    boot := { s.boot with stat := 2 },
    ctxs := fset s.ctxs 0 ⟨0, true, 0x10000, 0, 0, 6, 0, 6, 0, 0, none, [], s.capList 0⟩,
    grids := fset s.grids (n + 1) g,
    clusters := s.clusters ++ [⟨n + 1, 0, [n], 1, List.replicate 4 Barrier.reset⟩],
    teams := fset s.teams n (Team.probe (n + 2) (n + 1)),
    bundles := fset s.bundles (n + 2) b,
    agenda := [(0, .issue (n + 2))] }

/-! ### The next move (log 2) -/

/-- The numbers of a group's lanes. -/
def laneNumbers : List Nat := List.range 32

/-- What a bundle, an operation or a request may do next. -/
def State.opMoves (s : State) : List Instr :=
  s.bundles.flatMap (fun e => [.clauseFetch e.1, .clauseBoundary e.1]) ++ s.ops.map (fun e => .operationComplete e.1) ++
  s.cores.map (fun e => .sliceRequestEnqueue (e.1 / 72) (e.1 % 72)) ++
  s.reqs.flatMap (fun e => match e.2.kind with
    | .lock .. => [.lockRequestAtHome e.1]
    | .unlock .. => [.unlockAtHome e.1]
    | .acqr .. => [.acqrWriteback e.1]
    | _ => [.atomicRequestAtHome e.1])

/-- What the parts of objects may do next. -/
def State.partMoves (s : State) : List Instr :=
  s.slices.flatMap (fun e => e.2.parts.flatMap (fun p =>
    [.ack (e.1 / 16) (e.1 % 16) p.1, .rd (e.1 / 16) (e.1 % 16) p.1, .wr0 (e.1 / 16) (e.1 % 16) p.1, .wr1 (e.1 / 16) (e.1 % 16) p.1]))

/-- What the engines of a core may do next. -/
def State.engineMoves (s : State) : List Instr :=
  s.dies.map (fun e => .faultRecordPost e.1) ++
  s.cores.flatMap (fun e => e.2.copies.map (fun c => .sluiceSectorLand (e.1 / 72) (e.1 % 72) c.1 1) ++
    e.2.eng.subs.map (fun u => .staitheTileDeliver (e.1 / 72) (e.1 % 72) u.stream) ++
    [.causewayDataArrive (e.1 / 72) (e.1 % 72), .matrixOpComplete (e.1 / 72) (e.1 % 72), .reclaimComplete (e.1 / 72) (e.1 % 72)] ++
    e.2.blocks.map (fun b => .blockClearDone (e.1 / 72) (e.1 % 72) b.1))

/-- What the groups of a team may do next, apart from issuing. -/
def State.groupMoves (s : State) : List Instr :=
  s.teams.flatMap (fun e => (List.range e.2.groups.length).flatMap (fun g =>
    [.xlnExitCompletion e.1 g, .lockTimeout e.1 g, .deadlockProbe e.1 g, .absenceArrive e.1 g, .presenceArrive e.1 g, .eventRecordExpiry e.1 g,
      .fairnessTimerExpiry e.1 g, .readyButWaiting e.1 g] ++ laneNumbers.flatMap (fun l => [.monitorReread e.1 g l, .waitcTimeout e.1 g l])))

/-- What the Reeves may do next. -/
def State.reeveMoves (s : State) : List Instr :=
  s.teams.flatMap (fun e => [.lockholdMaxExpiry e.1, .teamRetire e.1, .teamSave e.1, .teamRestore e.1, .swapwaitExpiry e.1]) ++
  s.tasks.flatMap (fun e => [.quantumCommit e.1, .taskRetire e.1, .taskFault e.1, .clusterPlace e.1, .taskDistribute e.1, .preemptDecision e.1]) ++
  s.queues.flatMap (fun e => [.walkRecord e.1, .linkFollow e.1]) ++
  s.dies.flatMap (fun e => match e.2.colls with
    | _ :: _ => [.collectiveStart e.1 [], .collectiveComplete e.1 .ok []]
    | [] => [])

/-- What happens when nothing else does: a core's dirty lines reach their homes, and an idle core goes to sleep. -/
def State.lastMoves (s : State) : List Instr :=
  s.cores.flatMap (fun e => (e.2.l1.filter (fun x => x.dirty.contains true)).map (fun x => .homeStorePerformed (e.1 / 72) (e.1 % 72) x.line false) ++
    [.retentionEnter (e.1 / 72) (e.1 % 72)])

/-- An event that changes the state. -/
def State.moves (s : State) (i : Instr) : Bool :=
  match exec i s with
  | .next t => decide (t ≠ s)
  | _ => false

/-- The sub-cores on which something may issue: core, sub-core and partition. -/
def State.issuers (s : State) : List (Nat × Nat × Nat) :=
  (s.teams.flatMap (fun e => e.2.groups.map (fun g => (e.2.key, g.subcore, e.2.part)))).eraseDups

/-- The move of a part with nothing set out for it: the first event that has come about, else what some sub-core issues, else the last
moves, else a clock passes. -/
def State.autoMove (s : State) : Nat × Move :=
  match (s.opMoves ++ s.partMoves ++ s.engineMoves ++ s.groupMoves ++ s.reeveMoves).find? s.moves with
  | some i => (0, .event i)
  | none =>
    match s.issuers.findSome? (fun k => s.pick k.1 k.2.1 k.2.2) with
    | some m => (0, m)
    | none =>
      match s.lastMoves.find? s.moves with
      | some i => (0, .event i)
      | none => (1, .idle)

/-- The core clock from which a bundle's next instruction may issue: its distance has elapsed, and its sub-core has not issued in the same clock. -/
def State.issueFrom (s : State) (b : Bundle) : Nat :=
  match s.team b.team with
  | some t => (match fget (s.core t.key).slots b.subcore with | some c => max b.readyAt (c + 1) | none => b.readyAt)
  | none => b.readyAt

/-- Clocks that pass before a move: those set out, and for an issue enough for its distance to elapse (R85, R103). -/
def State.delay (s : State) (d : Nat) (m : Move) : Nat :=
  match m with
  | .issue id =>
    match fget s.bundles id with
    | some b => max d (s.clocksTo (((s.team b.team).map (fun t => t.part)).getD 0) (s.issueFrom b))
    | none => d
  | _ => d

/-! ### What comes about in a clock of its own (R106, R107, R202, R289, R300, R304, R307, R359, R371) -/

/-- What a team waits for with a clock of its own: clocks until then, and the event. A probe comes after a timeout of the same clock (R305). -/
def State.teamTimers (s : State) (tid : Nat) (t : Team) : List (Nat × Instr) :=
  let core (c : Nat) : Nat := s.clocksTo t.part c
  let each (h : Nat → Group → List (Nat × Instr)) : List (Nat × Instr) :=
    (List.range t.groups.length).flatMap (fun g => match t.groups[g]? with | some x => h g x | none => [])
  let wait (n : LockWait → Option Nat) (e : Nat → Instr) : List (Nat × Instr) := each (fun g x =>
    match x.lwait with
    | some w => if w.absent || !w.key.isEmpty then [] else ((n w).map (fun k => (k, e g))).toList
    | none => [])
  (t.deferEnd.map (fun e => (e - s.now, .lockholdMaxExpiry tid))).toList ++ (if s.reserveStale tid t then [(0, .teamRestore tid)] else []) ++
  wait (·.left) (.lockTimeout tid) ++ wait (·.probe) (.deadlockProbe tid) ++
  each (fun g x => (List.range x.fibres.length).filterMap (fun l => match (x.fibres[l]?).bind (fun (y : Fibre) => y.wait) with
    | some (.monitor _ _ _ (some e) _ _ _) => some (e - s.now, .waitcTimeout tid g l)
    | _ => none)) ++
  each (fun g x => (match x.event with | some e => if t.dx then [] else [(core (e.opened + 1024), .eventRecordExpiry tid g)] | none => []) ++
    (if t.counts && decide (1 < x.paths.length) && decide (x.bundle = 0) then
      [(core (s.coreClock t.part + (t.kern.fairq - x.timer)), .fairnessTimerExpiry tid g)] else []) ++
    (if x.due.isNone && s.ready t g then [(core (x.readyAt + t.kern.fairq), .readyButWaiting tid g)] else []))

/-- What comes about in a clock of its own. -/
def State.timers (s : State) : List (Nat × Instr) := s.teams.flatMap (fun e => s.teamTimers e.1 e.2)

/-- What comes about before the running clock ends. -/
def State.dueEvent (s : State) : Option Instr := ((s.timers.filter (fun e => decide (e.1 = 0))).map (·.2)).find? s.moves

/-- Clocks that may pass, of some, before a clock in which something comes about. -/
def State.upTo (s : State) (n : Nat) : Nat := (s.timers.map (·.1)).foldl (fun (m : Nat) k => if k = 0 then m else min m k) n

/-- Make a move now. -/
def State.make (s : State) (m : Move) : Host.Outcome State Fault Refusal :=
  match m with
  | .event i => exec i s
  | .issue id => s.issueNext id
  | .idle => .next s

/-- Make a move, whose clocks pass first; `rest` is the agenda after it. What is due in the running clock comes before any clock passes, and the clocks
pass no further than to the next clock in which something comes about. -/
def State.perform (s : State) (d : Nat) (m : Move) (rest : List (Nat × Move)) : Host.Outcome State Fault Refusal :=
  let n := s.delay d m
  if n = 0 then State.make { s with agenda := rest } m
  else
    match s.dueEvent with
    | some i => exec i s
    | none =>
      let k := s.upTo n
      if k < n then .next (State.pass { s with agenda := if s.agenda.isEmpty then [] else (d - k, m) :: rest } k)
      else (State.pass { s with agenda := rest } n).make m

/-- A part without power moves only by a reset (R397). -/
def Move.isReset : Move → Bool
  | .event (.reset ..) => true
  | _ => false

/-- One step: the first move set out, or the part's own. -/
def State.advance (s : State) : Host.Outcome State Fault Refusal :=
  let a : (Nat × Move) × List (Nat × Move) := match s.agenda with
    | [] => (s.autoMove, [])
    | m :: rest => (m, rest)
  if s.tripped && !a.1.2.isReset then .next { s with agenda := a.2 } else s.perform a.1.1 a.1.2 a.2

end Sys2Proof.Machine
end

