-- ==== Sys2Proof/Machine/Step.lean ====
section
/-!
DEFINITION. One step of the part, and a part about to issue a given word.
-/

namespace Sys2Proof.Machine

/-- One step of the part. -/
def step (s : State) : Host.Outcome State Fault Refusal := s.advance

/-- The part with one word fetched in a running bundle of one fibre, which the next step issues. -/
def State.withFetchWord (s : State) (nbits w : Nat) : State := s.placeWord nbits w

end Sys2Proof.Machine
end

