-- ==== Sys2Proof/Safety.lean ====
section
/-!
DEFINITION. What counts as a sound state of the part, and what it takes for an instruction to issue and follow its own effect: the terms
the statements use.
-/

namespace Sys2Proof.Machine

/-- The memory of the part and every vault are in canonical form. -/
def State.memOk (s : State) : Prop := Memory.wf s.mem ∧ ∀ e ∈ s.cores, Memory.wf e.2.vault

/-- No instruction is being performed and no kill is pending: the part stands between steps. -/
def State.quiet (s : State) : Prop := s.focus = none ∧ s.kills = []

/-- The part runs: it has its power (R397) and no kill is pending. -/
structure State.Alive (s : State) : Prop where
  power : s.tripped = false
  quiet : s.kills = []

/-- The fibre in a home lane, where there is one. -/
def State.fibre? (s : State) (t g l : Nat) : Option Fibre := (s.group t g).bind (fun x => x.fibres[l]?)

/-- The bundle in focus stands at the instruction, with room under its counter (R79, R87). `files` and `distinct` hold in every state that a
run of the machine reaches. -/
structure Faces (s : State) (i : Instr) (w : Who) (c : Ctl) (t : Team) : Prop where
  who      : s.who = some w
  ctl      : i.ctl = some c
  team     : s.team w.team = some t
  quiet    : s.kills = []
  unheld   : s.isHeld w = false
  room     : c.counted = true → ∀ g ∈ groupsOf (s.performers w c), t.noRoom c.sbi.toNat g = false
  files    : ∀ x ∈ w.active, ∃ f, s.fibre? w.team x.1 x.2 = some f ∧ f.regs.length = t.kern.win
  distinct : w.active.Nodup

/-- The bundle in focus stands at the instruction, and no ILLEGAL check is against it (R83). -/
structure Stands (s : State) (i : Instr) (w : Who) (c : Ctl) (t : Team) : Prop extends Faces s i w c t where
  legal    : s.illegal i w = false

/-- The bundle in focus issues the instruction and every fibre that performs it passes the checks of R83: what follows is the
instruction's own effect. -/
structure Issues (s : State) (i : Instr) (w : Who) (c : Ctl) (t : Team) : Prop extends Stands s i w c t where
  passes   : ∀ x ∈ s.performers w c, s.verdict i c t w x = none

/-- What one event does to the open record of its group (R359). -/
def EventRec.mark (clause : VAddr) (now cause : Nat) (e : Option EventRec) : Option EventRec :=
  match e with
  | some r => if r.cause = cause && r.clause = clause && decide (r.count < 65535) then some { r with count := r.count + 1 } else some ⟨cause, clause, 1, now⟩
  | none => some ⟨cause, clause, 1, now⟩

/-- A fibre but for its registers and predicates, their records of the running clause, and its logical clock. -/
def Fibre.rest (f : Fibre) : Fibre := { f with pw := 0, regs := [], lclk := 0, wlog := [], pend := [] }

/-- A group but for the registers, predicates and clocks of its fibres. -/
def Group.rest (g : Group) : Group := { g with fibres := g.fibres.map Fibre.rest }

/-- A team but for the registers, predicates and clocks of its fibres. -/
def Team.rest (t : Team) : Team := { t with groups := t.groups.map Group.rest }

/-- All of the part but for the registers, predicates and clocks of fibres. -/
def State.rest (s : State) : State := { s with teams := s.teams.map (fun e => (e.1, e.2.rest)) }

/-- What the register files of all fibres return after an instruction that gives each performing fibre the words `out` tells. A write with
latency L is read from L positions on (R85, R90); P7 is no state and always reads 1 (R78). -/
structure Writes (s : State) (w : Who) (c : Ctl) (lat : Nat) (out : Nat × Nat → List (RName × Word)) (s' : State) : Prop where
  written : ∀ x ∈ s.performers w c, ∀ p n v, n ≠ .p 7#3 → w.pos + lat ≤ p → (out x).lookup n = some v →
    (s'.fibre w.team x.1 x.2).view p n = v
  kept    : ∀ x ∈ s.performers w c, ∀ p n, n ≠ .p 7#3 → (out x).lookup n = none →
    (s'.fibre w.team x.1 x.2).view p n = (s.fibre w.team x.1 x.2).view p n
  others  : ∀ t g l, ¬ (t = w.team ∧ (g, l) ∈ s.performers w c) → ∀ p n, (s'.fibre t g l).view p n = (s.fibre t g l).view p n

/-- Nothing of the part but registers, predicates and clocks has changed, and the clocks of the bundle's fibres have risen by 1 (R330). -/
structure OnlyRegisters (s : State) (w : Who) (s' : State) : Prop where
  rest   : s'.rest = s.rest
  clocks : ∀ t g l, (s'.fibre? t g l).map (·.lclk) = (s.fibre? t g l).map (fun f => if t = w.team ∧ (g, l) ∈ w.active then f.lclk + 1 else f.lclk)

/-- The instruction completes: the performing fibre at each place gets the words `out` tells, and nothing else of the part changes. -/
def ComputesAt (i : Instr) (s : State) (w : Who) (c : Ctl) (out : Nat × Nat → List (RName × Word)) : Prop :=
  ∃ s', exec i s = .next s' ∧ Writes s w c i.latency out s' ∧ OnlyRegisters s w s'

/-- The instruction completes: each performing fibre gets the words `out` tells, and nothing else of the part changes. -/
def Computes (i : Instr) (s : State) (w : Who) (c : Ctl) (out : Fibre → List (RName × Word)) : Prop :=
  ∃ s', exec i s = .next s' ∧ Writes s w c i.latency (fun x => out (s.fibre w.team x.1 x.2)) s' ∧ OnlyRegisters s w s'

/-- The instruction completes: each performing fibre gets the words `out` tells and logs the arithmetic events `ev` tells, in the order of
the fibres, to its group's open record; where no fibre logs any, nothing else of the part changes. -/
def ComputesLogging (i : Instr) (s : State) (w : Who) (c : Ctl) (out : Fibre → List (RName × Word)) (ev : Fibre → List Nat) : Prop :=
  ∃ s', exec i s = .next s' ∧ Writes s w c i.latency (fun x => out (s.fibre w.team x.1 x.2)) s' ∧
    (∀ g, (s'.group w.team g).map (·.event) = (s.group w.team g).map (fun y =>
      ((s.performers w c).filter (fun x => decide (x.1 = g))).foldl (fun e x =>
        (ev (s.fibre w.team x.1 x.2)).foldl (fun e k => EventRec.mark w.clause (s.coreNow w.team) k e) e) y.event)) ∧
    ((∀ x ∈ s.performers w c, ev (s.fibre w.team x.1 x.2) = []) → OnlyRegisters s w s')

/-! ### Integer values, as R129 describes them -/

/-- The value that bits have under an integer type. -/
def typeValue (t : ITy) (x : DWord) : Int :=
  match t with
  | .i32 => x.lo.toInt
  | .n32 => x.lo.toNat
  | .i64 => x.toInt
  | .n64 => x.toNat

/-- The least value of an integer type. -/
def typeLow : ITy → Int
  | .i32 => -2147483648
  | .i64 => -9223372036854775808
  | .n32 | .n64 => 0

/-- The greatest value of an integer type. -/
def typeHigh : ITy → Int
  | .i32 => 2147483647
  | .n32 => 4294967295
  | .i64 => 9223372036854775807
  | .n64 => 18446744073709551615

/-- The bits that an exact result is written as: clamped to the type's range under SAT, and taken modulo a power of two. -/
def typeResult (t : ITy) (sat : Bool) (r : Int) : DWord := BitVec.ofInt 64 (if sat then max (typeLow t) (min (typeHigh t) r) else r)

/-- The value of an operand of an integer type (R129). -/
def Fibre.value (f : Fibre) (pos : Nat) (t : ITy) (r : Reg) : Int := typeValue t (f.getW pos r t.is64)

/-- A value of an integer type as the destination's words. -/
def resultWords (d : Reg) (t : ITy) (sat : Bool) (r : Int) : List (RName × Word) := wrW d t.is64 (typeResult t sat r)

/-- A 32-bit word given bit by bit. -/
def wordOfBits (h : Nat → Bool) : Word := BitVec.ofFnLE (fun (i : Fin 32) => h i.val)

/-- The comparison that an integer condition names (R132). -/
def intCompare (cond : ICond) (x y : Int) : Bool :=
  match cond with
  | .eq => x == y | .ne => x != y | .lt => decide (x < y) | .le => decide (x ≤ y) | .gt => decide (y < x) | .ge => decide (y ≤ x)

/-! ### Elements of floating-point operands, as R34 and R145 describe them -/

/-- The modified element i of an operand: its bits, with the sign cleared under ABS and then inverted under NEG. -/
def modified (t : FTy) (neg abs : Bool) (x : Word) (i : Nat) : Nat :=
  let n := (FTy.ff t).width
  let bits := x.toNat / 2 ^ (16 * i) % 2 ^ n
  let plain := if abs then bits % 2 ^ (n - 1) else bits
  if neg then (if plain < 2 ^ (n - 1) then plain + 2 ^ (n - 1) else plain - 2 ^ (n - 1)) else plain

/-- The value of the modified element i. -/
def modifiedValue (t : FTy) (neg abs : Bool) (x : Word) (i : Nat) : FVal := (FTy.ff t).value (modified t neg abs x i)

/-- The register that element results fill: one element under F32, else two halves. -/
def elementWords (t : FTy) (d : Reg) (rs : Nat → Nat × List Nat) : List (RName × Word) :=
  [(.v d, BitVec.ofNat 32 (if t = .f32 then (rs 0).1 else (rs 0).1 + 65536 * (rs 1).1))]

/-- The events of the elements, in their order. -/
def elementEvents (t : FTy) (rs : Nat → Nat × List Nat) : List Nat := if t = .f32 then (rs 0).2 else (rs 0).2 ++ (rs 1).2

/-- A rounded result and the overflow it may log (R41, R146). -/
def roundedResult (g : FF) (rnd : Rnd) (zeroNeg : Bool) (x : Dy) : Nat × List Nat :=
  let r := g.ofDy rnd false zeroNeg x
  (r.1, if r.2 then [3] else [])

/-- The code of an infinity of the format. -/
def infinityOf (g : FF) (neg : Bool) : Nat := if neg then g.signBit + g.infCode else g.infCode

/-- An exact sum of two values that are no NaN, rounded (R146). -/
def addRule (g : FF) (rnd : Rnd) (x y : FVal) : Nat × List Nat :=
  match x, y with
  | .inf p, .inf q => if p = q then (infinityOf g p, []) else (g.nanCode, [1])
  | .inf p, _ => (infinityOf g p, [])
  | _, .inf q => (infinityOf g q, [])
  | .fin s m e, .fin t n k =>
    roundedResult g rnd (if s = t then s else decide (rnd = .rdn)) (Dy.add (FVal.fin s m e).dy (FVal.fin t n k).dy)
  | _, _ => (g.nanCode, [])

/-- The exact product of two values; NaN for 0 × Inf. -/
def exactProduct (x y : FVal) : FVal :=
  match x, y with
  | .fin s m e, .fin t n k => .fin (s != t) (m * n) (e + k)
  | .inf p, .inf q => .inf (p != q)
  | .inf p, .fin t n _ => if n = 0 then .nan false else .inf (p != t)
  | .fin s m _, .inf q => if m = 0 then .nan false else .inf (s != q)
  | _, _ => .nan false

/-- The product is invalid: 0 × Inf (R146). -/
def invalidProduct (x y : FVal) : Bool :=
  match x, y with
  | .inf _, .fin _ n _ => decide (n = 0)
  | .fin _ m _, .inf _ => decide (m = 0)
  | _, _ => false

/-- A rule for values that are no NaN, with the NaN cases of R146 before it. -/
def nanRule (g : FF) (vs : List FVal) (invalid : Bool) (r : Nat × List Nat) : Nat × List Nat :=
  if vs.any FVal.isSig || invalid then (g.nanCode, [1]) else if vs.any FVal.isNan then (g.nanCode, []) else r

/-- The two-term dot product of values that are no NaN (R151). -/
def dotRule (rnd : Rnd) (p q z : FVal) : Nat × List Nat :=
  let has := fun (n : Bool) => decide (p = .inf n) || decide (q = .inf n) || decide (z = .inf n)
  if has false && has true then (FF.f32.nanCode, [1])
  else if has false then (FF.f32.infCode, [])
  else if has true then (FF.f32.signBit + FF.f32.infCode, [])
  else roundedResult .f32 rnd (if p.sign && q.sign && z.sign then true else if p.sign || q.sign || z.sign then decide (rnd = .rdn) else false)
    (Dy.add (Dy.add p.dy q.dy) z.dy)

/-- The rational number m × 2^e. -/
def Dy.rat (x : Dy) : ℚ := x.m * (2 : ℚ) ^ x.e

/-- One value is less than another; neither is NaN. -/
def FVal.lessThan (x y : FVal) : Bool :=
  match x, y with
  | .inf p, .inf q => p && !q
  | .inf p, _ => p
  | _, .inf q => !q
  | _, _ => decide (x.dy.rat < y.dy.rat)

/-- One value is less than another, with −0 less than +0 (R147). -/
def FVal.below (x y : FVal) : Bool := x.lessThan y || (x.isZero && y.isZero && x.sign && !y.sign)

/-- minimumNumber or maximumNumber of two codes (R147). -/
def extremeRule (g : FF) (isMax : Bool) (x y : Nat) : Nat × List Nat :=
  let u := g.value x
  let v := g.value y
  (if u.isNan then (if v.isNan then g.nanCode else y)
   else if v.isNan then x
   else if (if isMax then u.below v else v.below u) then y else x,
   if u.isSig || v.isSig then [1] else [])

/-- A compare of two values, and whether it is invalid (R148). -/
def compareRule (cond : FCond) (x y : FVal) : Bool × Bool :=
  let nan := x.isNan || y.isNan
  let sig := x.isSig || y.isSig
  match cond with
  | .eq => (!nan && !(x.lessThan y || y.lessThan x), sig)
  | .ne => (nan || x.lessThan y || y.lessThan x, sig)
  | .lt => (!nan && x.lessThan y, nan)
  | .le => (!nan && !y.lessThan x, nan)
  | .gt => (!nan && y.lessThan x, nan)
  | .ge => (!nan && !x.lessThan y, nan)
  | .un => (nan, sig)
  | .or => (!nan, sig)

/-- The class mask of a code (R149), by its sign and magnitude. -/
def classRule (g : FF) (x : Nat) : Nat :=
  let neg := decide (g.signBit ≤ x)
  let mag := x % g.signBit
  if g.infCode < mag then (if mag % 2 ^ g.fbits < 2 ^ (g.fbits - 1) then 1 else 2)
  else if mag = g.infCode then (if neg then 4 else 512)
  else if mag = 0 then (if neg then 32 else 64)
  else if mag < 2 ^ g.fbits then (if neg then 16 else 128)
  else (if neg then 8 else 256)

/-- The least power of two that is not above a number's magnitude: floor(log2 |x|). -/
def IsLog2 (x : Dy) (k : Int) : Prop := (2 : ℚ) ^ k ≤ |x.rat| ∧ |x.rat| < (2 : ℚ) ^ (k + 1)

/-- A rule of R150 for the value of a code: a NaN gives the canonical NaN, and a signalling one logs FP invalid. -/
def singleRule (g : FF) (x : Nat) (inf : Nat × List Nat) (fin : Bool → Nat → Int → Nat × List Nat) : Nat × List Nat :=
  match g.value x with
  | .nan sig => (g.nanCode, if sig then [1] else [])
  | .inf _ => inf
  | .fin neg m e => fin neg m e

/-- FRND (R150). -/
def integralRule (g : FF) (rnd : Rnd) (x : Nat) : Nat × List Nat :=
  singleRule g x (x, []) (fun neg m e => if m = 0 then (x, []) else ((g.ofDy .rne false neg ⟨(FVal.fin neg m e).dy.toInt rnd, 0⟩).1, []))

/-- FSCALE (R150). -/
def scaleRule (g : FF) (rnd : Rnd) (x : Nat) (n : Int) : Nat × List Nat :=
  singleRule g x (x, []) (fun neg m e =>
    if m = 0 then (x, []) else ((g.roundFin rnd false neg m (e + n)).1, if (g.roundFin rnd false neg m (e + n)).2 then [3] else []))

/-- FGETEXP (R150), k being floor(log2 |x|). -/
def exponentRule (g : FF) (x : Nat) (k : Int) : Nat × List Nat :=
  singleRule g x (g.infCode, []) (fun _ m _ => if m = 0 then (g.signBit + g.infCode, [2]) else ((g.ofDy .rne false false ⟨k, 0⟩).1, []))

/-- FGETMAN (R150), k being floor(log2 |x|). -/
def mantissaRule (g : FF) (x : Nat) (k : Int) : Nat × List Nat :=
  singleRule g x (g.nanCode, [1]) (fun neg m e => if m = 0 then (x, []) else ((g.roundFin .rne false neg m (e - k)).1, []))

/-! ### Special functions, as R155 and R156 describe them -/

/-- The special functions of one operand. -/
inductive Special | rcp | rsq | sqrt | ex2 | lg2 | sinpi | cospi | tanh
deriving DecidableEq, Repr

/-- The instruction of a special function. -/
def Special.instr (op : Special) (c : Ctl) (ty : FTy) (m : FMods) (d a : Reg) : Instr :=
  match op with
  | .rcp => .rcp c ty m d a | .rsq => .rsq c ty m d a | .sqrt => .sqrt c ty m d a | .ex2 => .ex2 c ty m d a
  | .lg2 => .lg2 c ty m d a | .sinpi => .sinpi c ty m d a | .cospi => .cospi c ty m d a | .tanh => .tanh c ty m d a

/-- The code of a zero of the format. -/
def zeroOf (g : FF) (neg : Bool) : Nat := if neg then g.signBit else 0

/-- The code of 2 to a power of the normal range. -/
def powerOf (g : FF) (neg : Bool) (n : Int) : Nat := zeroOf g neg + (n + g.bias).toNat * 2 ^ g.fbits

/-- What a special function gives an infinity (R156). -/
def Special.ofInf (op : Special) (g : FF) (neg : Bool) : Nat × List Nat :=
  match op with
  | .rcp => (zeroOf g neg, [])
  | .rsq => if neg then (g.nanCode, [1]) else (zeroOf g false, [])
  | .sqrt | .lg2 => if neg then (g.nanCode, [1]) else (g.infCode, [])
  | .ex2 => if neg then (zeroOf g false, []) else (g.infCode, [])
  | .sinpi | .cospi => (g.nanCode, [1])
  | .tanh => (powerOf g neg 0, [])

/-- What a special function gives a zero (R156). -/
def Special.ofZero (op : Special) (g : FF) (neg : Bool) : Nat × List Nat :=
  match op with
  | .rcp | .rsq => (infinityOf g neg, [2])
  | .sqrt | .sinpi | .tanh => (zeroOf g neg, [])
  | .ex2 | .cospi => (powerOf g false 0, [])
  | .lg2 => (infinityOf g true, [2])

/-- The special cases of R156, and the values where the exact result is representable, of functions from codes to codes and events. -/
structure SpecialFacts (fn : Special → FTy → Nat → Nat × List Nat) : Prop where
  nan      : ∀ op ty x sig, (FTy.ff ty).value x = .nan sig → fn op ty x = ((FTy.ff ty).nanCode, if sig then [1] else [])
  inf      : ∀ op ty x neg, (FTy.ff ty).value x = .inf neg → fn op ty x = op.ofInf (FTy.ff ty) neg
  zero     : ∀ op ty x neg e, x < 2 ^ (FTy.ff ty).width → (FTy.ff ty).value x = .fin neg 0 e → fn op ty x = op.ofZero (FTy.ff ty) neg
  negative : ∀ op ty x m e, (FTy.ff ty).value x = .fin true m e → m ≠ 0 → op = .rsq ∨ op = .sqrt ∨ op = .lg2 →
    fn op ty x = ((FTy.ff ty).nanCode, [1])
  recip    : ∀ ty x (z : Dy), z.rat * ((FTy.ff ty).value x).dy.rat = 1 →
    fn .rcp ty x = roundedResult (FTy.ff ty) .rne false z
  root     : ∀ ty x (z : Dy), 0 < z.rat → z.rat * z.rat = ((FTy.ff ty).value x).dy.rat → fn .sqrt ty x = roundedResult (FTy.ff ty) .rne false z
  power    : ∀ ty x (n : Int), ((FTy.ff ty).value x).isFin = true → ((FTy.ff ty).value x).dy.rat = n → 1 - (FTy.ff ty).bias ≤ n → n ≤ (FTy.ff ty).bias →
    fn .ex2 ty x = (powerOf (FTy.ff ty) false n, [])
  log      : ∀ ty x (n : Int), ((FTy.ff ty).value x).dy.rat = (2 : ℚ) ^ n → fn .lg2 ty x = (((FTy.ff ty).ofDy .rne false false ⟨n, 0⟩).1, [])
  sine     : ∀ ty x (n : Int), ((FTy.ff ty).value x).isFin = true → ((FTy.ff ty).value x).dy.rat = n →
    fn .sinpi ty x = (zeroOf (FTy.ff ty) ((FTy.ff ty).value x).sign, [])
  cosine   : ∀ ty x (n : Int), ((FTy.ff ty).value x).dy.rat = n + 1 / 2 → fn .cospi ty x = (zeroOf (FTy.ff ty) false, [])

/-- FDIV of two codes: the special cases of R156, and the quotient where it is representable. -/
structure QuotientFacts (fn : FTy → Nat → Nat → Nat × List Nat) : Prop where
  nan    : ∀ ty x y, ((FTy.ff ty).value x).isNan || ((FTy.ff ty).value y).isNan →
    fn ty x y = ((FTy.ff ty).nanCode, if ((FTy.ff ty).value x).isSig || ((FTy.ff ty).value y).isSig then [1] else [])
  invalid : ∀ ty x y, (((FTy.ff ty).value x).isZero && ((FTy.ff ty).value y).isZero) || (((FTy.ff ty).value x).isInf && ((FTy.ff ty).value y).isInf) →
    fn ty x y = ((FTy.ff ty).nanCode, [1])
  overZero : ∀ ty x y, ((FTy.ff ty).value x).dy.m ≠ 0 → ((FTy.ff ty).value y).isZero →
    fn ty x y = (infinityOf (FTy.ff ty) (((FTy.ff ty).value x).sign != ((FTy.ff ty).value y).sign), [2])
  overInf : ∀ ty x y, ((FTy.ff ty).value x).isFin → ((FTy.ff ty).value y).isInf →
    fn ty x y = (zeroOf (FTy.ff ty) (((FTy.ff ty).value x).sign != ((FTy.ff ty).value y).sign), [])
  ofInf : ∀ ty x y, ((FTy.ff ty).value x).isInf → ((FTy.ff ty).value y).isFin →
    fn ty x y = (infinityOf (FTy.ff ty) (((FTy.ff ty).value x).sign != ((FTy.ff ty).value y).sign), [])
  ofZero : ∀ ty x y, ((FTy.ff ty).value x).isZero → ((FTy.ff ty).value y).dy.m ≠ 0 →
    fn ty x y = (zeroOf (FTy.ff ty) (((FTy.ff ty).value x).sign != ((FTy.ff ty).value y).sign), [])
  exact : ∀ ty x y (z : Dy), z.m ≠ 0 → ((FTy.ff ty).value y).dy.m ≠ 0 → z.rat * ((FTy.ff ty).value y).dy.rat = ((FTy.ff ty).value x).dy.rat →
    fn ty x y = roundedResult (FTy.ff ty) .rne false z

/-! ### Results on their way -/

/-- A fibre but for the books kept of its results in flight (R87 to R90). -/
def Fibre.calm (f : Fibre) : Fibre := { f with wlog := [], pend := [], uncov := [], busy := 0 }

/-- A group but for the books kept of its results in flight, and its counters. -/
def Group.calm (g : Group) : Group := { g with fibres := g.fibres.map Fibre.calm, sb := [] }

/-- A team but for the books kept of results in flight. -/
def Team.calm (t : Team) : Team := { t with groups := t.groups.map Group.calm }

/-- All of the part but for the operations in flight and the books kept of them. Registers, predicates, clocks, memory and every other piece
of state stand in it. -/
def State.calm (s : State) : State := { s with teams := s.teams.map (fun e => (e.1, e.2.calm)), ops := [], serial := 0 }

/-- The instruction issues, none of its fibres waits for anything, and its team runs in no deterministic grid. -/
structure Starts (s : State) (i : Instr) (w : Who) (c : Ctl) (t : Team) : Prop extends Issues s i w c t where
  awake : ∀ x ∈ w.active, (s.fibre w.team x.1 x.2).wait = none
  plain : t.kern.dx = none

/-- An operation has been opened for the performing fibres of each group, under the counter the instruction names: each register and
predicate it writes awaits it (R87, R88). Where `out` tells results for a fibre, the operation holds them; the other fibres are still
outstanding. -/
structure Opened (s : State) (i : Instr) (w : Who) (c : Ctl) (out : Nat × Nat → Option (List (RName × Word))) (s' : State) : Prop where
  each : ∀ g ∈ groupsOf (s.performers w c), ∃ id o, s.serial ≤ id ∧ fget s'.ops id = some o ∧ o.team = w.team ∧ o.grp = g ∧ o.sb = c.sbi.toNat ∧
    (∀ l, l ∈ o.lanes ↔ (g, l) ∈ s.performers w c) ∧ (∀ l, l ∈ o.left ↔ (g, l) ∈ s.performers w c ∧ out (g, l) = none) ∧
    (∀ l ∈ o.lanes, (o.writes.filter (fun e => decide (e.1 = l))).map (·.2) = (out (g, l)).getD []) ∧
    (∀ l ∈ o.lanes, ∀ n ∈ i.writes, (n, id) ∈ (s'.fibre w.team g l).pend ∧ (n, c.sbi.toNat) ∈ (s'.fibre w.team g l).uncov)
  counters : ∀ t g, (s'.group t g).map (·.sb) = (s.group t g).map (fun x =>
    if t = w.team ∧ g ∈ groupsOf (s.performers w c) ∧ c.sbi ≠ 0 then x.sb.modify c.sbi.toNat (· + 1) else x.sb)

/-- The instruction completes: the results that `out` tells are on their way, the fibres that finished it have counted a clock (R330), and
of all else the part stands as `effect` tells. -/
def Completes (i : Instr) (s : State) (w : Who) (c : Ctl) (effect : State) (out : Nat × Nat → Option (List (RName × Word))) : Prop :=
  ∃ s', exec i s = .next s' ∧ Opened s i w c out s' ∧ s'.calm = (effect.countClocks w).calm

/-! ### Fibres that go elsewhere -/

/-- All of the part but its fibres. -/
def State.husk (s : State) : State :=
  { s with teams := s.teams.map (fun e => (e.1, { e.2 with groups := e.2.groups.map (fun x => { x with fibres := [] }) })) }

/-- Each performing fibre becomes what `out` tells, and the fibres that finished the instruction count a clock (R330); no other fibre changes,
and of all else the part stands as `base` does. -/
structure Becomes (s : State) (w : Who) (c : Ctl) (base : State) (out : Nat × Nat → Fibre → Fibre) (s' : State) : Prop where
  fibres : ∀ t g l, s'.fibre? t g l = (s.fibre? t g l).map (fun f =>
    if t = w.team ∧ (g, l) ∈ w.active then
      let h := if (g, l) ∈ s.performers w c then out (g, l) f else f
      if h.leave.finished then { h with lclk := h.lclk + 1 } else h
    else f)
  rest   : s'.husk = base.husk

/-- The instruction completes, and its performing fibres become what `out` tells. -/
def Moves (i : Instr) (s : State) (w : Who) (c : Ctl) (base : State) (out : Nat × Nat → Fibre → Fibre) : Prop :=
  ∃ s', exec i s = .next s' ∧ Becomes s w c base out s'

/-- The image of a trap frame in storage (R355). -/
def frameImage (f : Frame) : List Byte :=
  leBytes 8 f.tpc.toNat ++ leBytes 8 f.tinst.toNat ++ leBytes 4 f.tcause.toNat ++ leBytes 4 f.pw.toNat ++ leBytes 8 f.taddr.toNat ++
    f.v.flatMap (fun r => leBytes 4 r.toNat) ++ List.replicate 64 0

/-- The frame that a fibre's trap records (R354, R355). -/
def trapFrame (w : Who) (inst : DWord) (cause reason : Nat) (addr : DWord) (f : Fibre) : Frame :=
  { tpc := w.clause.setWidth 64 ||| (BitVec.ofNat 64 (w.idx % 16) <<< 52), tinst := inst, tcause := BitVec.ofNat 32 (cause + 256 * reason),
    pw := f.pw.setWidth 32 ||| 128, taddr := addr, v := (List.range 8).map (fun n => f.regs.getD n 0), count := w.count }

/-- Where a fibre's trap frame lies in its core's vault (R66, R355). -/
def frameAddr (t : Team) (x : Nat × Nat) : Nat := t.run0 * 32768 + (x.1 * 32 + x.2) * 128

/-- The fibre has entered the trap handler (R354). -/
def Fibre.trapped (f : Fibre) (fr : Frame) : Fibre := { f with frame := fr, h := true, d0 := f.depth, n0 := f.nest, leave := .trap }

/-- Every performing fibre takes a trap of the cause into the handler: its frame is written to its place in the vault, and it leaves for the
handler's clause. -/
def Traps (i : Instr) (s : State) (w : Who) (c : Ctl) (t : Team) (cause reason : Nat) (addr : Nat × Nat → DWord) : Prop :=
  Moves i s w c ((s.performers w c).foldl (fun (a : State) x => a.vaultWrite t.key (frameAddr t x)
      (frameImage (trapFrame w w.word cause reason (addr x) (s.fibre w.team x.1 x.2)))) s)
    (fun x f => f.trapped (trapFrame w w.word cause reason (addr x) f))

/-- Every performing fibre takes a trap of its own into the handler. -/
def TrapsEach (i : Instr) (s : State) (w : Who) (c : Ctl) (t : Team) (tr : Nat × Nat → Trap) : Prop :=
  Moves i s w c ((s.performers w c).foldl (fun (a : State) x => a.vaultWrite t.key (frameAddr t x)
      (frameImage (trapFrame w w.word (tr x).cause (tr x).reason (tr x).taddr (s.fibre w.team x.1 x.2)))) s)
    (fun x f => f.trapped (trapFrame w w.word (tr x).cause (tr x).reason (tr x).taddr f))

/-- The performing fibres may enter the handler: there is one, and none of them is inside it (R354). -/
structure Handled (s : State) (w : Who) (c : Ctl) (t : Team) : Prop where
  handler : t.kern.trapoff.isSome = true
  outside : ∀ x ∈ s.performers w c, (s.fibre w.team x.1 x.2).h = false
  awake   : ∀ x ∈ w.active, (s.fibre w.team x.1 x.2).wait = none

/-! ### Indirect transfers, traps and returns -/

/-- The translations that the performing fibres needed were all there: their groups try again at none of the regions that failed before. -/
def State.spent (s : State) (w : Who) (c : Ctl) : State :=
  (groupsOf (s.performers w c)).foldl (fun (a : State) g => a.modGroup w.team g (fun x => { x with failed := [] })) s

/-- The clause at an address begins with a landing pad of the kind (R116). -/
def State.landing (s : State) (t : Team) (g : Nat) (a : VAddr) (kind : Nat) : Prop :=
  ∃ word, s.fetchWord t g ((a.toNat + 8) % 2 ^ 49) = .ok word ∧ word.toNat / 2 ^ 56 = 0x45 ∧ word.toNat / 2 ^ kind % 2 = 1

/-- The entry of the dispatch table that names the target (R115). -/
def State.dispatches (s : State) (t : Team) (g : Nat) (idx : Nat) (a : VAddr) : Prop :=
  idx < t.kern.dtlen ∧ ∃ lf, s.xlate t g (t.kern.rodata + t.kern.dtoff + 8 * idx) .read 2 = .ok lf ∧
    memNat s.mem lf.pa 8 = a.toNat ∧ a.toNat % 8 = 0

/-- A fibre that returns from its handler, but for where it goes: V0 to V7 and the predicates come back from the frame unless they are
kept, and the calls and loops of the handler are given up (R357). -/
def Fibre.restored (f : Fibre) (keep : BitVec 8) (keepPw : Bool) : Fibre :=
  { f with regs := f.regs.mapIdx (fun n r => if n < 8 ∧ keep.getLsbD n = false then f.frame.v.getD n 0 else r),
           pw := if keepPw then f.pw else f.frame.pw.setWidth 7, depth := f.d0, nest := f.n0, stack := f.stack.take f.d0, loops := f.loops.take f.n0,
           h := false, wlog := [], pend := f.pend.filter (fun e => match e.1 with
             | .v r => keep.getLsbD r.toNat || decide (8 ≤ r.toNat)
             | .p _ => keepPw) }

/-! ### Operands of memory -/

/-- The part once the bundle's fibres have counted the instruction, and the kills that it asked for are done: a kill of the bundle's own context
comes before the rest of the instruction (R362). A bundle that is held counts nothing. -/
def State.finish (s : State) (w : Who) (r : State) : State :=
  s.endNative (((s.team w.team).map (·.ctx)).getD 0) (if r.isHeld w then r else r.countClocks w)

/-- The instruction completes, and leaves the part so, its fibres having counted it. -/
def Gives (i : Instr) (s : State) (w : Who) (r : State) : Prop := exec i s = .next (s.finish w r)

/-- What the performing fibres of an instruction have found. -/
def State.found {α : Type} (s : State) (w : Who) (c : Ctl) (tgt : Nat × Nat → α) : List (Nat × Nat × α) :=
  (s.performers w c).map (fun x => (x.1, x.2, tgt x))

/-- The part with the translations and records kept that the operands of an instruction used (R20, R178). -/
def State.readied (s : State) (w : Who) (c : Ctl) (t : Team) (sp : Space) (acc : Acc) (tgt : Nat × Nat → Target) : State :=
  ((s.spent w c).touchAll t (s.found w c tgt) acc).keepSpace t sp

/-- Every performing fibre reaches its operand in memory: none is behind an earlier request, in a member that is away, out of turn, or behind a copy
of the host's, and each operand passes its checks. A load or a store (`lax`) is behind loads of its own lines alone, as its turn tells. -/
structure Reaches (s : State) (w : Who) (c : Ctl) (t : Team) (lax : Bool) (turn : Turn) (sp : Space) (a : Reg) (disp : Int) (size : Nat) (perm : RecPerm)
    (acc : Acc) (write : Bool) (tgt : Nat × Nat → Target) : Prop where
  some    : s.performers w c ≠ []
  ordered : ∀ x ∈ s.performers w c, (s.fibre w.team x.1 x.2).order = 0 ∧ (lax = true ∨ (s.fibre w.team x.1 x.2).loads = [])
  turned  : turn t (s.found w c tgt) (w.by (s.performers w c)) s = false
  near    : s.poolAway (w.by (s.performers w c)) t sp a disp = false
  found   : ∀ x ∈ s.performers w c, s.resolve t x.1 (s.fibre w.team x.1 x.2) w.pos sp a disp size perm acc = .ok (tgt x)
  free    : s.hostLines t perm (s.found w c tgt) write = []

/-- The performing fibres have no request or load outstanding at a home (R251). -/
def State.inOrder (s : State) (w : Who) (c : Ctl) : Prop :=
  ∀ x ∈ s.performers w c, (s.fibre w.team x.1 x.2).order = 0 ∧ (s.fibre w.team x.1 x.2).loads = []

/-- One operation has been opened for each group of some fibres, which stand with their results. -/
def State.answered (s : State) (i : Instr) (u : Who) (ls : List (Nat × Nat)) (ws : Nat × Nat → List (RName × Word)) : State :=
  ls.foldl (fun (a : State) x => a.doneLane u x.1 x.2 (opOf (s.openOps i u ls).1 x.1) (ws x)) (s.openOps i u ls).2

/-- What a selector of MSTAT names of a team's engine state (R225). -/
def engineValue (t : Team) (sel : Nat) : Word :=
  match sel with
  | 4 => t.doneT.setWidth 32
  | 5 => (t.doneT >>> 32).setWidth 32
  | 6 => t.issued.setWidth 32
  | 7 => (t.issued >>> 32).setWidth 32
  | 8 => t.mflt
  | k => BitVec.ofNat 32 (t.swamp.getD k 0)

/-- How the fibres of a synchronising instruction make operations of a commit (R332); none for any other instruction. -/
def commitSplit : Instr → Option Split
  | .atom _ _ _ _ sp a _ | .acas _ _ _ sp a _ => some (.location sp a)
  | .llock .. | .ltry .. | .lunlk .. => some .group
  | .excvt .. | .waitc .. | .bar .. | .cbar .. | .dxsync .. | .tbarWait .. | .tbarTest .. | .lstat .. | .mxwait .. | .mstat .. | .acqr ..
  | .elogCnt .. | .tlbiAll .. | .tlbiVa .. | .tlbiPart .. | .taskseq .. | .taskseqWait .. => some .fibre
  | .coll .. | .mxm .. | .mxldZero .. | .mxldFill .. | .mxldRestore .. | .mxst .. | .strmOpen .. | .strmSub .. | .strmUnsub .. | .strmClose ..
  | .protld .. | .objdecl .. | .objrel .. | .taskpost .. => some .bundle
  | _ => none

/-- The fibres of a synchronising instruction of a deterministic grid wait for a commit, which performs each operation at its key (R332, R334). -/
def State.parked (s : State) (i : Instr) (k : Split) (u : Who) (t : Team) : State :=
  let q := s.openOps i u u.perf
  (k.parts s u).foldl (fun (r : State) p =>
    let lead := p.foldl (fun (m : Nat × Nat) x => if x.2 < m.2 then x else m) (p.headD (0, 0))
    { r with grids := fmod r.grids t.grid (fun g => { g with dxops := g.dxops ++
      [⟨r.dxKey u lead.1 lead.2, i, u.word, u.clause, u.count, u.idx, u.team, p, q.1.filter (fun e => p.any (fun x => decide (x.1 = e.1)))⟩] }) })
    (u.perf.foldl (fun (r : State) x => r.waitLane u x.1 x.2 .dx) q.2)

/-! ### Cross-lane instructions -/

/-- The home lanes of a group's fibres that perform an instruction, ascending. -/
def State.lanesFor (s : State) (w : Who) (c : Ctl) (g : Nat) : List Nat := (List.range 32).filter (fun l => decide ((g, l) ∈ s.performers w c))

/-- The participant set of a cross-lane instruction is, in each group, the fibres that perform it, and no parked fibre of the group concerns
it (R158 to R160). -/
def State.together (s : State) (w : Who) (c : Ctl) (ms : MSrc) : Prop :=
  ∀ g ∈ groupsOf (s.performers w c), ∀ x, s.group w.team g = some x →
    (∀ p ∈ x.parked, ¬ (p.pc = w.clause ∧ p.idx = w.idx) ∧ (ms = .path ∨ (p.lanes &&& laneSet (s.lanesFor w c g) = 0 ∧ p.parts &&& laneSet (s.lanesFor w c g) = 0))) ∧
    match ms with
    | .path => True
    | .group => x.live = laneSet (s.lanesFor w c g)
    | .reg m => ∃ mask, (∀ l ∈ s.lanesFor w c g, (s.fibre w.team g l).get w.pos m = mask) ∧ (∀ l ∈ s.lanesFor w c g, mask.getLsbD l = true) ∧
        mask &&& x.live = laneSet (s.lanesFor w c g)

/-- The logical source lane of an exchange, before the edge rule (R165). -/
def exchangeSource (mode : XMode) (h : Nat) (v : Word) : Int :=
  let signed : Int := (((v.toNat + 32) % 64 : Nat) : Int) - 32
  match mode with
  | .from => (v.toNat % 32 : Nat)
  | .rot => h + signed
  | .xor => (h ^^^ (v.toNat % 32) : Nat)
  | .refl => signed - h

/-- One step of a reduction (R169), and its events. -/
def reduceStep (op : XOp) (uns : Bool) (p v : Word) : Word × List Nat :=
  let less := if uns then decide (p.toNat < v.toNat) else decide (p.toInt < v.toInt)
  let x := FF.f32.value p.toNat
  let y := FF.f32.value v.toNat
  let word := fun (r : Nat × List Nat) => (BitVec.ofNat 32 r.1, r.2)
  match op with
  | .iadd => (p + v, [])
  | .imin => (if less then p else v, [])
  | .imax => (if less then v else p, [])
  | .and => (p &&& v, [])
  | .or => (p ||| v, [])
  | .xor => (p ^^^ v, [])
  | .fadd => word (nanRule .f32 [x, y] false (addRule .f32 .rne x y))
  | .fmin => word (extremeRule .f32 false p.toNat v.toNat)
  | .fmax => word (extremeRule .f32 true p.toNat v.toNat)

/-- A reduction from left to right of at least one value, and the events of its steps. -/
def reduceTo (op : XOp) (uns : Bool) (vs : List Word) : Word × List Nat :=
  match vs with
  | [] => (0, [])
  | v :: rest => rest.foldl (fun p x => ((reduceStep op uns p.1 x).1, p.2 ++ (reduceStep op uns p.1 x).2)) (v, [])

/-- What the first fibre of an exclusive scan receives (R169). -/
def reduceStart (op : XOp) (uns : Bool) : Word :=
  match op with
  | .iadd | .or | .xor => 0
  | .imin => if uns then 0xFFFFFFFF else 0x7FFFFFFF
  | .imax => if uns then 0 else 0x80000000
  | .and => 0xFFFFFFFF
  | .fadd => 0x80000000
  | .fmin | .fmax => 0x7FC00000

/-! ### Events -/

/-- An event of the part has its effect, and the kills decided in the step are carried out (R361). -/
def Happens (i : Instr) (s r : State) : Prop := exec i s = .next r.runKills

/-- The value that an atomic's location holds before lane i of a request, lanes in ascending order (R272, R274). -/
def atomicBefore (op : AtomOp) (ty : ITy) (m : Nat) (vs : List Nat) (i : Nat) : Nat :=
  if op = .fadd then (if i = 0 then m else (fsumF32 ((m :: vs.take i).map (BitVec.ofNat 32))).toNat)
  else (vs.take i).foldl (fun x v => atomStep op ty x v) m

/-- The value that an ACAS's location holds before lane i: each lane that matches stores its own (R276). -/
def swapBefore (m : Nat) (ps : List (Nat × Nat)) (i : Nat) : Nat := (ps.take i).foldl (fun x p => if x = p.1 then p.2 else x) m

end Sys2Proof.Machine
end

