-- ==== Sys2Proof/Certificates/Slice0/Obligations.lean ====
section
/-!
DEFINITION. The statements about the machine.
-/

open Sys2Proof Sys2Proof.Machine

/-- R129, R130: the integer arithmetic instructions write the exact result, wrapped or clamped, to each performing fibre. -/
def Obligations.IntegerArithmetic : Prop :=
  ∀ (s : State) (w : Who) (t : Team) (c : Ctl) (ty : ITy) (sat : Bool) (d a b e : Reg) (imm : BitVec 24),
    let v := fun (f : Fibre) (r : Reg) => f.value w.pos ty r
    (Issues s (.iadd c ty sat d a b) w c t → Computes (.iadd c ty sat d a b) s w c (fun f => resultWords d ty sat (v f a + v f b))) ∧
    (Issues s (.isub c ty sat d a b) w c t → Computes (.isub c ty sat d a b) s w c (fun f => resultWords d ty sat (v f a - v f b))) ∧
    (Issues s (.imul c ty sat d a b) w c t → Computes (.imul c ty sat d a b) s w c (fun f => resultWords d ty sat (v f a * v f b))) ∧
    (Issues s (.imulh c ty d a b) w c t → Computes (.imulh c ty d a b) s w c (fun f =>
      resultWords d ty false (Int.fdiv (v f a * v f b) 4294967296))) ∧
    (Issues s (.imad c ty sat d a b e) w c t → Computes (.imad c ty sat d a b e) s w c (fun f => resultWords d ty sat (v f a * v f b + v f e))) ∧
    (Issues s (.imadw c ty d a b e) w c t → Computes (.imadw c ty d a b e) s w c (fun f =>
      let wide := if ty = .i32 then ITy.i64 else ITy.n64
      resultWords d wide false (v f a * v f b + f.value w.pos wide e))) ∧
    (Issues s (.imin c ty d a b) w c t → Computes (.imin c ty d a b) s w c (fun f => resultWords d ty false (min (v f a) (v f b)))) ∧
    (Issues s (.imax c ty d a b) w c t → Computes (.imax c ty d a b) s w c (fun f => resultWords d ty false (max (v f a) (v f b)))) ∧
    (Issues s (.iabs c ty sat d a) w c t → Computes (.iabs c ty sat d a) s w c (fun f => resultWords d ty sat |v f a|)) ∧
    (Issues s (.ineg c ty sat d a) w c t → Computes (.ineg c ty sat d a) s w c (fun f => resultWords d ty sat (-(v f a)))) ∧
    (Issues s (.iaddi c ty sat d a imm) w c t → Computes (.iaddi c ty sat d a imm) s w c (fun f => resultWords d ty sat (v f a + imm.toInt)))

/-- R131: division truncates toward zero; by zero it gives all ones, the dividend, and the event. The words of the two instructions hold
the fields of RRR, and only the types of 32 bits are encodings. -/
def Obligations.IntegerDivision : Prop :=
  ∀ (s : State) (w : Who) (t : Team) (c : Ctl) (ty : ITy) (d a b : Reg) (x : DWord),
    let p := fun (f : Fibre) => f.get w.pos a
    let y := fun (f : Fibre) => f.get w.pos b
    let events := fun (f : Fibre) => if y f = 0 then [4] else []
    let rrr := fun (opcode : Nat) => bits x.toNat 56 8 = opcode ∧ bits x.toNat 37 8 = d.toNat ∧ bits x.toNat 29 8 = a.toNat ∧
      bits x.toNat 21 8 = b.toNat ∧ bits x.toNat 2 11 = 0 ∧ bits x.toNat 0 2 = ty.code
    (Issues s (.idiv c ty d a b) w c t → ComputesLogging (.idiv c ty d a b) s w c (fun f =>
      [(.v d, if y f = 0 then 0xFFFFFFFF#32 else if ty = .i32 then (p f).sdiv (y f) else p f / y f)]) events) ∧
    (Issues s (.irem c ty d a b) w c t → ComputesLogging (.irem c ty d a b) s w c (fun f =>
      [(.v d, if y f = 0 then p f else if ty = .i32 then (p f).srem (y f) else p f % y f)]) events) ∧
    ((Instr.idiv c ty d a b).wellFormed = decide (ty = .i32 ∨ ty = .n32)) ∧ ((Instr.irem c ty d a b).wellFormed = decide (ty = .i32 ∨ ty = .n32)) ∧
    (encode (.idiv c ty d a b) = some x → rrr 7) ∧ (encode (.irem c ty d a b) = some x → rrr 8)

/-- R132: a compare writes its predicate; P7 takes no write. -/
def Obligations.IntegerCompares : Prop :=
  ∀ (s : State) (w : Who) (t : Team) (c : Ctl) (cond : ICond) (ty : ITy) (p : Pred) (a b : Reg) (imm : BitVec 24),
    (Issues s (.icmp c cond ty p a b) w c t → Computes (.icmp c cond ty p a b) s w c (fun f =>
      [(.p p, if intCompare cond (f.value w.pos ty a) (f.value w.pos ty b) then 1 else 0)])) ∧
    (Issues s (.icmpi c cond ty p a imm) w c t → Computes (.icmpi c cond ty p a imm) s w c (fun f =>
      [(.p p, if intCompare cond (f.value w.pos ty a) (typeValue ty (imm.signExtend 64)) then 1 else 0)]))

/-- R133, R134: logic and shifts, bit by bit over the width; a count of the width or more shifts everything out, and a rotation takes it
modulo the width. -/
def Obligations.LogicAndShifts : Prop :=
  ∀ (s : State) (w : Who) (t : Team) (c : Ctl) (ty : ITy) (tt : BitVec 8) (op : LogicOp) (kind : ShiftKind) (d a b e : Reg) (imm : BitVec 24),
    let x := fun (f : Fibre) (r : Reg) => f.getW w.pos r ty.is64
    let shift := fun (k : ShiftKind) (v : DWord) (n : Nat) => (BitVec.ofFnLE (fun (i : Fin 64) =>
      let m := ty.width
      match k with
      | .shl => decide (n ≤ i.val) && v.getLsbD (i.val - n)
      | .shr => decide (i.val + n < m) && v.getLsbD (i.val + n)
      | .sar => v.getLsbD (min (i.val + n) (m - 1))
      | .rol => v.getLsbD ((i.val + (m - n % m)) % m)) : DWord)
    (Issues s (.and c ty d a b) w c t → Computes (.and c ty d a b) s w c (fun f => wrW d ty.is64 (x f a &&& x f b))) ∧
    (Issues s (.or c ty d a b) w c t → Computes (.or c ty d a b) s w c (fun f => wrW d ty.is64 (x f a ||| x f b))) ∧
    (Issues s (.xor c ty d a b) w c t → Computes (.xor c ty d a b) s w c (fun f => wrW d ty.is64 (x f a ^^^ x f b))) ∧
    (Issues s (.not c ty d a) w c t → Computes (.not c ty d a) s w c (fun f => wrW d ty.is64 (~~~(x f a)))) ∧
    (Issues s (.blut3 c ty tt d a b e) w c t → Computes (.blut3 c ty tt d a b e) s w c (fun f =>
      wrW d ty.is64 (BitVec.ofFnLE (fun (i : Fin 64) =>
        tt.getLsbD (((x f a).getLsbD i).toNat + 2 * ((x f b).getLsbD i).toNat + 4 * ((x f e).getLsbD i).toNat))))) ∧
    (Issues s (.lopi c op ty d a imm) w c t → Computes (.lopi c op ty d a imm) s w c (fun f =>
      wrW d ty.is64 (BitVec.ofFnLE (fun (i : Fin 64) =>
        let p := (x f a).getLsbD i
        let q := imm.getLsbD (min i.val 23)
        match op with | .and => p && q | .or => p || q | .xor => p != q | .andn => p && !q)))) ∧
    (Issues s (.shl c ty d a b) w c t → Computes (.shl c ty d a b) s w c (fun f => wrW d ty.is64 (shift .shl (x f a) (f.get w.pos b).toNat))) ∧
    (Issues s (.shr c ty d a b) w c t → Computes (.shr c ty d a b) s w c (fun f => wrW d ty.is64 (shift .shr (x f a) (f.get w.pos b).toNat))) ∧
    (Issues s (.sar c ty d a b) w c t → Computes (.sar c ty d a b) s w c (fun f => wrW d ty.is64 (shift .sar (x f a) (f.get w.pos b).toNat))) ∧
    (Issues s (.rol c ty d a b) w c t → Computes (.rol c ty d a b) s w c (fun f => wrW d ty.is64 (shift .rol (x f a) (f.get w.pos b).toNat))) ∧
    (Issues s (.shi c kind ty d a imm) w c t → Computes (.shi c kind ty d a imm) s w c (fun f =>
      wrW d ty.is64 (shift kind (x f a) (imm.signExtend 32).toNat)))

/-- R135 to R139: bit fields, counts, reversal, byte selection and address computation. -/
def Obligations.BitFieldsAndCounts : Prop :=
  ∀ (s : State) (w : Who) (t : Team) (c : Ctl) (ty : ITy) (sh : BitVec 3) (d a b e : Reg) (count : Fibre → Nat),
    let x := fun (f : Fibre) => f.getW w.pos a ty.is64
    let m := ty.width
    let off := fun (f : Fibre) => (f.get w.pos b).toNat % 64
    let wid := fun (f : Fibre) => (f.get w.pos b).toNat / 256 % 64
    (Issues s (.bfx c ty d a b) w c t → Computes (.bfx c ty d a b) s w c (fun f =>
      let v := f.get w.pos a
      let top := min (off f + wid f) 32 - 1
      [(.v d, wordOfBits (fun i =>
        if wid f = 0 then false
        else if 32 ≤ off f then ty = .i32 && v.getLsbD 31
        else if off f + i ≤ top then v.getLsbD (off f + i) else ty = .i32 && v.getLsbD top))])) ∧
    (Issues s (.bfi c ty d a b) w c t → Computes (.bfi c ty d a b) s w c (fun f =>
      [(.v d, wordOfBits (fun i =>
        if off f ≤ i ∧ i < off f + wid f then (f.get w.pos a).getLsbD (i - off f) else (f.get w.pos d).getLsbD i))])) ∧
    (Issues s (.popc c ty d a) w c t → Computes (.popc c ty d a) s w c (fun f =>
      [(.v d, BitVec.ofNat 32 (∑ i ∈ Finset.range m, ((x f).getLsbD i).toNat))])) ∧
    (Issues s (.clz c ty d a) w c t →
      (∀ f, count f ≤ m ∧ (∀ i, i < count f → (x f).getLsbD (m - 1 - i) = false) ∧ (count f < m → (x f).getLsbD (m - 1 - count f) = true)) →
      Computes (.clz c ty d a) s w c (fun f => [(.v d, BitVec.ofNat 32 (count f))])) ∧
    (Issues s (.ctz c ty d a) w c t →
      (∀ f, count f ≤ m ∧ (∀ i, i < count f → (x f).getLsbD i = false) ∧ (count f < m → (x f).getLsbD (count f) = true)) →
      Computes (.ctz c ty d a) s w c (fun f => [(.v d, BitVec.ofNat 32 (count f))])) ∧
    (Issues s (.brev c ty d a) w c t → Computes (.brev c ty d a) s w c (fun f =>
      wrW d ty.is64 (BitVec.ofFnLE (fun (i : Fin 64) => (x f).getLsbD (m - 1 - i.val))))) ∧
    (Issues s (.permb c d a b e) w c t → Computes (.permb c d a b e) s w c (fun f =>
      [(.v d, wordOfBits (fun i =>
        let sel := (f.get w.pos e).toNat >>> (4 * (i / 8)) % 16
        let bit := if 8 ≤ sel then 7 else i % 8
        if sel % 8 < 4 then (f.get w.pos a).getLsbD (8 * (sel % 8) + bit) else (f.get w.pos b).getLsbD (8 * (sel % 8 - 4) + bit)))])) ∧
    (Issues s (.lea c ty sh d a b) w c t → Computes (.lea c ty sh d a b) s w c (fun f =>
      let v := f.get w.pos b
      resultWords d ty false (f.value w.pos ty a + (if ty = .i32 ∨ ty = .i64 then v.toInt else (v.toNat : Int)) * 2 ^ sh.toNat)))

/-- R140, R141: selection, predicate lookup, moves, and the instruction that does nothing. -/
def Obligations.SelectionAndMoves : Prop :=
  ∀ (s : State) (w : Who) (t : Team) (c : Ctl) (ty : ITy) (tt : BitVec 8) (neg : Bool) (p q r k : Pred) (d a b : Reg) (imm : Word),
    (Issues s (.nop c) w c t → Computes (.nop c) s w c (fun _ => [])) ∧
    (Issues s (.sel c ty d a b p neg) w c t → Computes (.sel c ty d a b p neg) s w c (fun f =>
      wrW d ty.is64 (if (if neg then !f.getP w.pos p else f.getP w.pos p) then f.getW w.pos a ty.is64 else f.getW w.pos b ty.is64))) ∧
    (Issues s (.plop c tt k p q r) w c t → Computes (.plop c tt k p q r) s w c (fun f =>
      let n := (if f.getP w.pos p then 1 else 0) + (if f.getP w.pos q then 2 else 0) + (if f.getP w.pos r then 4 else 0)
      [(.p k, if tt.getLsbD n then 1 else 0)])) ∧
    (Issues s (.mov c ty d a) w c t → Computes (.mov c ty d a) s w c (fun f => wrW d ty.is64 (f.getW w.pos a ty.is64))) ∧
    (Issues s (.movi c .w32 d imm) w c t → Computes (.movi c .w32 d imm) s w c (fun _ => [(.v d, imm)])) ∧
    (Issues s (.movi c .s64 d imm) w c t → Computes (.movi c .s64 d imm) s w c (fun _ =>
      [(.v d, imm), (.v (d + 1), if imm.msb then 0xFFFFFFFF else 0)])) ∧
    (Issues s (.movi c .z64 d imm) w c t → Computes (.movi c .z64 d imm) s w c (fun _ => [(.v d, imm), (.v (d + 1), 0)]))

/-- R142: a register chosen at run time, for fibres whose index passes the checks of the window and, where it is on, of the scoreboard. -/
def Obligations.RegisterByIndex : Prop :=
  ∀ (s : State) (w : Who) (t : Team) (c : Ctl) (w64 : Bool) (d a base e : Reg),
    let idx := fun (f : Fibre) => (f.get w.pos a).toNat + base.toNat
    let reg := fun (f : Fibre) => BitVec.ofNat 8 (idx f)
    let names := fun (f : Fibre) => if w64 then [RName.v (reg f), RName.v (reg f + 1)] else [RName.v (reg f)]
    let fits := fun (f : Fibre) => idx f < t.kern.win ∧ (w64 = true → idx f % 2 = 0 ∧ idx f + 1 < t.kern.win) ∧
      (t.scoreboard = true → ∀ n ∈ names f, ∀ u ∈ f.uncov, u.1 ≠ n)
    (Issues s (.movxRd c w64 d a base) w c t →
      (∀ x ∈ s.performers w c, let f := s.fibre w.team x.1 x.2
        fits f ∧ (t.scoreboard = true → ∀ n ∈ names f, f.undersized w.pos n = false)) →
      Computes (.movxRd c w64 d a base) s w c (fun f => wrW d w64 (f.getW w.pos (reg f) w64))) ∧
    (Issues s (.movxWr c w64 a base e) w c t → t.kern.win ≤ 256 → (∀ x ∈ s.performers w c, fits (s.fibre w.team x.1 x.2)) →
      Computes (.movxWr c w64 a base e) s w c (fun f => wrW (reg f) w64 (f.getW w.pos e w64)))

/-- R7, R65, R143, R144: the special registers, as an SRD reads them and an SWR of the predicates writes them. -/
def Obligations.SpecialRegisters : Prop :=
  ∀ (s : State) (w : Who) (t : Team) (c : Ctl) (w64 : Bool) (sel : SReg) (d a : Reg),
    let value := fun (x : Nat × Nat) (f : Fibre) =>
      let cycles := if t.kern.dx.isSome then 0 else BitVec.ofInt 64 (s.tick16 t.key / 16)
      (match sel with
      | .fid => BitVec.ofNat 64 (32 * x.1 + x.2)
      | .hlane => BitVec.ofNat 64 x.2
      | .grpid => BitVec.ofNat 64 x.1
      | .teamid => BitVec.ofNat 64 t.teamid
      | .clusid => BitVec.ofNat 64 t.clusid
      | .clpos => BitVec.ofNat 64 (t.teamid % t.kern.clw + 256 * (t.teamid / t.kern.clw))
      | .core => BitVec.ofNat 64 t.core
      | .die => BitVec.ofNat 64 t.die
      | .partid => BitVec.ofNat 64 t.part
      | .lclk => f.lclk
      | .lclkh => f.lclk >>> 32
      | .cyc => cycles
      | .cych => cycles >>> 32
      | .win => BitVec.ofNat 64 (((t.groups[x.1]?).map (·.wbase)).getD 0 + 65536 * t.kern.win)
      | .dtlen => BitVec.ofNat 64 t.kern.dtlen
      | .calld => BitVec.ofNat 64 f.depth
      | .pw => (BitVec.ofFnLE (fun (i : Fin 8) => f.getP w.pos (BitVec.ofNat 3 i.val)) : BitVec 8).setWidth 64
      | .tbase => match t.kern.trapoff with | some o => BitVec.ofNat 64 ((t.kern.text + o) % 2 ^ 49) | none => 0
      | .tcause => f.frame.tcause.setWidth 64
      | .tpc => f.frame.tpc
      | .tinst => f.frame.tinst
      | .taddr => f.frame.taddr : DWord)
    (Issues s (.srd c w64 sel d) w c t → ComputesAt (.srd c w64 sel d) s w c (fun x => wrW d w64 (value x (s.fibre w.team x.1 x.2)))) ∧
    (Issues s (.swr c a) w c t → ∃ s', exec (.swr c a) s = .next s' ∧ OnlyRegisters s w s' ∧
      Writes s w c 1 (fun x => (List.range 7).map (fun i =>
        (.p (BitVec.ofNat 3 i), if ((s.fibre w.team x.1 x.2).get w.pos a).getLsbD i then 1 else 0))) s')

/-- R145, R146, R151: sums, differences, products, fused products and dot products of each element: the exact result, rounded once. -/
def Obligations.FloatArithmetic : Prop :=
  ∀ (s : State) (w : Who) (t : Team) (c : Ctl) (ty : FTy) (rnd : Rnd) (m : FMods) (d a b e : Reg),
    let g := FTy.ff ty
    let x := fun (f : Fibre) (i : Nat) => modifiedValue ty m.na m.aa (f.get w.pos a) i
    let y := fun (f : Fibre) (i : Nat) => modifiedValue ty m.nb m.ab (f.get w.pos b) i
    let z := fun (f : Fibre) (i : Nat) => modifiedValue ty m.nc m.ac (f.get w.pos e) i
    let runs := fun (i : Instr) (r : Fibre → Nat → Nat × List Nat) =>
      Issues s i w c t → ComputesLogging i s w c (fun f => elementWords ty d (r f)) (fun f => elementEvents ty (r f))
    runs (.fadd c ty rnd m d a b) (fun f i => nanRule g [x f i, y f i] false (addRule g rnd (x f i) (y f i))) ∧
    runs (.fsub c ty rnd m d a b) (fun f i => nanRule g [x f i, y f i] false (addRule g rnd (x f i) (y f i).negate)) ∧
    runs (.fmul c ty rnd m d a b) (fun f i => nanRule g [x f i, y f i] (invalidProduct (x f i) (y f i))
      (match exactProduct (x f i) (y f i) with
      | .inf p => (infinityOf g p, [])
      | v => roundedResult g rnd v.sign v.dy)) ∧
    runs (.ffma c ty rnd m d a b e) (fun f i => nanRule g [x f i, y f i, z f i] (invalidProduct (x f i) (y f i))
      (addRule g rnd (exactProduct (x f i) (y f i)) (z f i))) ∧
    (Issues s (.fdot2 c ty rnd m d a b e) w c t →
      let z32 := fun (f : Fibre) => modifiedValue .f32 m.nc m.ac (f.get w.pos e) 0
      let r := fun (f : Fibre) => nanRule .f32 [x f 0, y f 0, x f 1, y f 1, z32 f] (invalidProduct (x f 0) (y f 0) || invalidProduct (x f 1) (y f 1))
        (dotRule rnd (exactProduct (x f 0) (y f 0)) (exactProduct (x f 1) (y f 1)) (z32 f))
      ComputesLogging (.fdot2 c ty rnd m d a b e) s w c (fun f => [(.v d, BitVec.ofNat 32 (r f).1)]) (fun f => (r f).2))

/-- R147 to R149: extremes, compares and classes of each element. -/
def Obligations.FloatSelection : Prop :=
  ∀ (s : State) (w : Who) (t : Team) (c : Ctl) (ty : FTy) (cond : FCond) (m : FMods) (p q : Pred) (d a b : Reg),
    let g := FTy.ff ty
    let x := fun (f : Fibre) (i : Nat) => modified ty m.na m.aa (f.get w.pos a) i
    let y := fun (f : Fibre) (i : Nat) => modified ty m.nb m.ab (f.get w.pos b) i
    let runs := fun (i : Instr) (r : Fibre → Nat → Nat × List Nat) =>
      Issues s i w c t → ComputesLogging i s w c (fun f => elementWords ty d (r f)) (fun f => elementEvents ty (r f))
    runs (.fmin c ty m d a b) (fun f i => extremeRule g false (x f i) (y f i)) ∧
    runs (.fmax c ty m d a b) (fun f i => extremeRule g true (x f i) (y f i)) ∧
    runs (.fclass c ty m d a) (fun f i => (classRule g (x f i), [])) ∧
    (Issues s (.fcmp c cond ty m p a b q) w c t →
      let r := fun (f : Fibre) (i : Nat) => compareRule cond (g.value (x f i)) (g.value (y f i))
      let bit := fun (f : Fibre) (i : Nat) => if (r f i).1 then (1 : Word) else 0
      let ev := fun (f : Fibre) (i : Nat) => if (r f i).2 then [1] else []
      ComputesLogging (.fcmp c cond ty m p a b q) s w c
        (fun f => if ty = .f32 then [(.p p, bit f 0)] else [(.p q, bit f 1), (.p p, bit f 0)])
        (fun f => if ty = .f32 then ev f 0 else ev f 0 ++ ev f 1))

/-- R150: the instructions of a single floating-point operand, element by element. `k` is the exponent of a nonzero finite element. -/
def Obligations.FloatSingleOperand : Prop :=
  ∀ (s : State) (w : Who) (t : Team) (c : Ctl) (ty : FTy) (rnd : Rnd) (m : FMods) (d a b : Reg) (k : Fibre → Nat → Int),
    let g := FTy.ff ty
    let x := fun (f : Fibre) (i : Nat) => modified ty m.na m.aa (f.get w.pos a) i
    let runs := fun (i : Instr) (r : Fibre → Nat → Nat × List Nat) =>
      Issues s i w c t → ComputesLogging i s w c (fun f => elementWords ty d (r f)) (fun f => elementEvents ty (r f))
    runs (.frnd c ty rnd m d a) (fun f i => integralRule g rnd (x f i)) ∧
    runs (.fscale c ty rnd m d a b) (fun f i => scaleRule g rnd (x f i) (if ty = .f32 then (f.get w.pos b).toInt
        else (((f.get w.pos b).toNat / 65536 ^ i % 65536 + 32768) % 65536 : Nat) - (32768 : Int))) ∧
    ((∀ f i, (g.value (x f i)).dy.m ≠ 0 → IsLog2 (g.value (x f i)).dy (k f i)) →
      runs (.fgetexp c ty m d a) (fun f i => exponentRule g (x f i) (k f i)) ∧
      runs (.fgetman c ty m d a) (fun f i => mantissaRule g (x f i) (k f i)))

/-- R152, R153: conversion, packing and unpacking put each converted element in its place. -/
def Obligations.Conversions : Prop :=
  ∀ (s : State) (w : Who) (t : Team) (c : Ctl) (dst src : CFmt) (pf : PFmt) (rnd : Rnd) (sat : Bool) (el : BitVec 3) (d a b : Reg),
    let event := fun (e : Option Nat) => e.toList
    (Issues s (.cvt c dst src rnd sat el d a) w c t →
      let code := fun (f : Fibre) => (f.getW w.pos a (decide (src.width = 64))).toNat / 2 ^ (src.width * el.toNat) % 2 ^ src.width
      let r := fun (f : Fibre) => convert dst src rnd sat (code f)
      ComputesLogging (.cvt c dst src rnd sat el d a) s w c
        (fun f => wrW d (decide (dst.width = 64)) (if dst = .i8 ∨ dst = .i16 then
          BitVec.ofInt 64 (BitVec.ofNat dst.width (r f).1).toInt else BitVec.ofNat 64 (r f).1))
        (fun f => event (r f).2)) ∧
    (Issues s (.pack c pf rnd sat d a b) w c t →
      let n := pf.elems / 2
      let r := fun (f : Fibre) (i : Nat) => convert (pfmt pf) .f32 rnd sat
        (f.get w.pos (if i < n then a + BitVec.ofNat 8 i else b + BitVec.ofNat 8 (i - n))).toNat
      ComputesLogging (.pack c pf rnd sat d a b) s w c
        (fun f => [(.v d, BitVec.ofNat 32 (∑ i ∈ Finset.range pf.elems, (r f i).1 * 2 ^ ((pfmt pf).width * i)))])
        (fun f => (List.range pf.elems).flatMap (fun i => event (r f i).2))) ∧
    (Issues s (.unpack c pf d a) w c t →
      let r := fun (f : Fibre) (i : Nat) => convert .f32 (pfmt pf) .rne false
        ((f.get w.pos a).toNat / 2 ^ ((pfmt pf).width * i) % 2 ^ (pfmt pf).width)
      ComputesLogging (.unpack c pf d a) s w c
        (fun f => (List.range pf.elems).map (fun i => (.v (d + BitVec.ofNat 8 i), BitVec.ofNat 32 (r f i).1)))
        (fun f => (List.range pf.elems).flatMap (fun i => event (r f i).2)))

/-- R155, R156: a special function is fixed by its operand alone, with the special cases of the table, and exact where the exact value is
representable. -/
def Obligations.SpecialFunctions : Prop :=
  ∃ (fn : Special → FTy → Nat → Nat × List Nat) (quot : FTy → Nat → Nat → Nat × List Nat), SpecialFacts fn ∧ QuotientFacts quot ∧
    ∀ (s : State) (w : Who) (t : Team) (c : Ctl) (ty : FTy) (m : FMods) (d a b : Reg) (op : Special),
      let x := fun (f : Fibre) (i : Nat) => modified ty m.na m.aa (f.get w.pos a) i
      let y := fun (f : Fibre) (i : Nat) => modified ty m.nb m.ab (f.get w.pos b) i
      (Issues s (op.instr c ty m d a) w c t → ComputesLogging (op.instr c ty m d a) s w c
        (fun f => elementWords ty d (fun i => fn op ty (x f i))) (fun f => elementEvents ty (fun i => fn op ty (x f i)))) ∧
      (Issues s (.fdiv c ty m d a b) w c t → ComputesLogging (.fdiv c ty m d a b) s w c
        (fun f => elementWords ty d (fun i => quot ty (x f i) (y f i))) (fun f => elementEvents ty (fun i => quot ty (x f i) (y f i))))

/-- R157: RAND is the hash of its three words; UNIF writes its upper 24 bits as an exact fraction of 1. -/
def Obligations.RandomNumbers : Prop :=
  ∀ (s : State) (w : Who) (t : Team) (c : Ctl) (d a b e : Reg),
    let hash := fun (lo hi k : Word) =>
      let h1 := lo ^^^ (k * 0x2C1B3C6D)
      let h2 := h1 ^^^ (h1 >>> 15)
      let h3 := h2 * 0x297A2D39
      let h4 := h3 ^^^ (h3 >>> 12)
      let h5 := h4 + (hi ^^^ k)
      let h6 := h5 * 0x2C1B3C6D
      h6 ^^^ (h6 >>> 16)
    let h := fun (f : Fibre) => hash (f.get w.pos a) (f.get w.pos b) (f.get w.pos e)
    (Issues s (.rand c false d a b e) w c t → Computes (.rand c false d a b e) s w c (fun f => [(.v d, h f)])) ∧
    (Issues s (.rand c true d a b e) w c t → ∃ (r : Fibre → Word), Computes (.rand c true d a b e) s w c (fun f => [(.v d, r f)]) ∧
      ∀ f, (FF.f32.value (r f).toNat).isFin = true ∧ (FF.f32.value (r f).toNat).sign = false ∧
        (FF.f32.value (r f).toNat).dy.rat = ((h f).toNat / 256 : Nat) * (2 : ℚ) ^ (-24 : Int))

/-- R158, R159, R164 to R168: the exchanges, votes and lane maps of a set of fibres that performs them together. -/
def Obligations.LaneExchange : Prop :=
  ∀ (s : State) (w : Who) (t : Team) (c : Ctl) (mode : XMode) (w64 edge neg : Bool) (op : VoteOp) (ms : MSrc) (d a b : Reg) (p : Pred),
    let lanes := fun (g : Nat) => s.lanesFor w c g
    let x := fun (g l : Nat) => s.fibre w.team g l
    let table := fun (g : Nat) => ((s.group w.team g).map (·.remap)).getD []
    let source := fun (g h : Nat) =>
      let n := exchangeSource mode h ((x g h).get w.pos b)
      let u := (table g).getD (n % 32).toNat 0
      if (edge = true ∧ (n < 0 ∨ 31 < n)) ∨ u ∉ lanes g then h else u
    let vote := fun (g l : Nat) => (x g l).getP w.pos p != neg
    let bits := fun (g : Nat) (h : Nat → Bool) => wordOfBits (fun l => decide (l ∈ lanes g) && h l)
    let flag := fun (v : Bool) => if v then (1 : Word) else 0
    (Starts s (.lxch c mode w64 edge ms d a b) w c t → s.together w c ms →
      Completes (.lxch c mode w64 edge ms d a b) s w c s (fun y => some (wrW d w64 ((x y.1 (source y.1 y.2)).getW w.pos a w64)))) ∧
    (Starts s (.vote c op neg ms d p) w c t → s.together w c ms → Completes (.vote c op neg ms d p) s w c s (fun y => some (match op with
      | .ballot => [(.v d, bits y.1 (vote y.1))]
      | .all => [(.p (d.setWidth 3), flag ((lanes y.1).all (vote y.1)))]
      | .any => [(.p (d.setWidth 3), flag ((lanes y.1).any (vote y.1)))]
      | .eq => [(.p (d.setWidth 3), flag ((lanes y.1).all (vote y.1) || (lanes y.1).all (fun l => !vote y.1 l)))]))) ∧
    (Starts s (.matchx c w64 ms d a) w c t → s.together w c ms → Completes (.matchx c w64 ms d a) s w c s (fun y =>
      some [(.v d, bits y.1 (fun l => decide ((x y.1 l).getW w.pos a w64 = (x y.1 y.2).getW w.pos a w64)))])) ∧
    (Starts s (.elect c ms p) w c t → s.together w c ms → Completes (.elect c ms p) s w c s (fun y =>
      some [(.p p, flag ((lanes y.1).all (fun l => decide (y.2 ≤ l))))])) ∧
    (Starts s (.lanemap c ms a) w c t → s.together w c ms → Completes (.lanemap c ms a) s w c
      ((groupsOf (s.performers w c)).foldl (fun (r : State) g => r.modGroup w.team g (fun y =>
        { y with remap := (lanes g).foldl (fun m l => m.set l (((x g l).get w.pos a).toNat % 32)) y.remap })) s) (fun _ => some [])) ∧
    (Starts s (.lanemapRd c d) w c t → Completes (.lanemapRd c d) s w c s (fun y => some [(.v d, BitVec.ofNat 32 ((table y.1).getD y.2 0))])) ∧
    (Starts s (.active c d) w c t → Completes (.active c d) s w c s (fun y => some [(.v d, bits y.1 (fun _ => true))]))

/-- R169: reductions and scans run over the lanes in ascending order, step by step. Each group's fibres receive its results as one operation, and
the events of its steps are logged, invalid before overflow: where no step logs an event nothing else of the part changes. -/
def Obligations.Reductions : Prop :=
  ∀ (s : State) (w : Who) (t : Team) (c : Ctl) (op : XOp) (uns excl : Bool) (ms : MSrc) (d a : Reg),
    let u := w.by (s.performers w c)
    let lanes := fun (g : Nat) => s.lanesFor w c g
    let values := fun (g : Nat) (upTo : Nat → Bool) => ((lanes g).filter upTo).map (fun l => (s.fibre w.team g l).get w.pos a)
    let steps := fun (g : Nat) => (reduceTo op uns (values g (fun _ => true))).2
    let ordered := fun (g : Nat) => (steps g).filter (· == 1) ++ (steps g).filter (· == 3)
    let combines := fun (i : Instr) (out : Nat × Nat → Word) => Starts s i w c t → s.together w c ms →
      ((∀ g ∈ groupsOf (s.performers w c), steps g = []) → Completes i s w c s (fun y => some [(.v d, out y)])) ∧
      Gives i s w ((groupsOf (s.performers w c)).foldl (fun (r : State) g =>
        let q := r.openOps i u ((lanes g).map (fun l => (g, l)))
        ((lanes g).foldl (fun (x : State) l => x.doneLane u g l (opOf q.1 g) [(.v d, out (g, l))]) q.2).logEvents w.team g w.clause (ordered g)) s) ∧
      (∃ s', exec i s = .next s' ∧ ∀ k, (s'.group w.team k).map (·.event) = (s.group w.team k).map (fun y =>
        if k ∈ groupsOf (s.performers w c) then (ordered k).foldl (fun e n => EventRec.mark w.clause (s.coreNow w.team) n e) y.event else y.event))
    combines (.xred c op uns ms d a) (fun y => (reduceTo op uns (values y.1 (fun _ => true))).1) ∧
    combines (.xscan c op uns excl ms d a) (fun y =>
      if excl = false then (reduceTo op uns (values y.1 (fun l => decide (l ≤ y.2)))).1
      else if (lanes y.1).all (fun l => decide (y.2 ≤ l)) then reduceStart op uns
      else (reduceTo op uns (values y.1 (fun l => decide (l < y.2)))).1)

/-- R111, R113, R114, R117, R119, R122, R124, R125: direct transfers, loops, exits and yields. -/
def Obligations.Transfers : Prop :=
  ∀ (s : State) (w : Who) (t : Team) (c : Ctl) (off : BitVec 24) (hint : Bool) (kinds : BitVec 3) (a : Reg) (level : Nat × Nat → LoopLevel),
    let target : VAddr := BitVec.ofInt 49 (w.clause.toNat + 8 * off.toInt)
    let next : VAddr := BitVec.ofNat 49 (w.clause.toNat + 8 * (w.count + 2))
    (Issues s (.bra c off hint) w c t → Moves (.bra c off hint) s w c s (fun _ f => { f with leave := .goto target 0 })) ∧
    (Issues s (.call c off hint) w c t → (∀ x ∈ s.performers w c, (s.fibre w.team x.1 x.2).depth < 255) →
      Moves (.call c off hint) s w c s (fun _ f =>
        { f with depth := f.depth + 1, stack := f.stack.take f.depth ++ [next], leave := .goto target 0 })) ∧
    (Issues s (.lpad c kinds) w c t → Moves (.lpad c kinds) s w c s (fun _ f => f)) ∧
    (Issues s (.loop c off a) w c t → (∀ x ∈ s.performers w c, (s.fibre w.team x.1 x.2).nest < 3) →
      Moves (.loop c off a) s w c s (fun _ f =>
        if f.get w.pos a = 0 then { f with leave := .goto target 0 }
        else { f with lc := f.lc.set f.nest (f.get w.pos a), loops := f.loops.take f.nest ++ [⟨next, target, f.depth⟩], nest := f.nest + 1,
                      leave := .goto next 0 })) ∧
    (Issues s (.lbrk c hint) w c t →
      (∀ x ∈ s.performers w c, let f := s.fibre w.team x.1 x.2
        (if f.h then f.n0 else 0) < f.nest ∧ f.loops[f.nest - 1]? = some (level x) ∧ (level x).depth = f.depth) →
      Moves (.lbrk c hint) s w c s (fun x f =>
        { f with nest := f.nest - 1, loops := f.loops.take (f.nest - 1), leave := .goto (level x).stop 0 })) ∧
    (Issues s (.exit c) w c t → Moves (.exit c) s w c s (fun _ f => { f with leave := .exit })) ∧
    (Issues s (.yield c) w c t → Moves (.yield c) s w c
      (if (s.performers w c).isEmpty then s else s.modBundle w.bundle (fun b => { b with yields := b.yields ++ groupsOf (s.performers w c) })) (fun _ f => f))

/-- R115, R116, R118: indirect calls, branches and returns, whose targets are landing pads of their kind. -/
def Obligations.IndirectTransfers : Prop :=
  ∀ (s : State) (w : Who) (t : Team) (c : Ctl) (hint : Bool) (a : Reg) (target : Nat × Nat → VAddr),
    let next : VAddr := BitVec.ofNat 49 (w.clause.toNat + 8 * (w.count + 2))
    let base := if (s.performers w c).isEmpty then s else { s.spent w c with free := s.free + 1 }
    let at_ := fun (x : Nat × Nat) => s.fibre w.team x.1 x.2
    (Issues s (.brx c hint a) w c t →
      (∀ x ∈ s.performers w c, s.dispatches t x.1 ((at_ x).get w.pos a).toNat (target x) ∧ s.landing t x.1 (target x) 0) →
      Moves (.brx c hint a) s w c base (fun x f => { f with leave := .goto (target x) 0 })) ∧
    (Issues s (.callx c hint a) w c t →
      (∀ x ∈ s.performers w c, (at_ x).depth < 255 ∧ s.dispatches t x.1 ((at_ x).get w.pos a).toNat (target x) ∧ s.landing t x.1 (target x) 1) →
      Moves (.callx c hint a) s w c base (fun x f =>
        { f with depth := f.depth + 1, stack := f.stack.take f.depth ++ [next], leave := .goto (target x) 0 })) ∧
    (Issues s (.ret c hint) w c t →
      (∀ x ∈ s.performers w c, (at_ x).depth ≠ 0 ∧ ((at_ x).h = true → (at_ x).depth ≠ (at_ x).d0) ∧
        (at_ x).stack[(at_ x).depth - 1]? = some (target x) ∧ s.landing t x.1 (target x) 2) →
      Moves (.ret c hint) s w c base (fun x f =>
        let keep := f.loops.filter (fun v => decide (v.depth ≠ f.depth))
        { f with depth := f.depth - 1, stack := f.stack.take (f.depth - 1), loops := keep, nest := keep.length, leave := .goto (target x) 0 }))

/-- R123: SPAWN of one fibre gives its lowest free home lane a new fibre, in a path of its own at the target; without one, it gives all ones. -/
def Obligations.Spawns : Prop :=
  ∀ (s : State) (w : Who) (t : Team) (c : Ctl) (off : BitVec 24) (a d : Reg) (g l : Nat) (y : Group),
    let target : VAddr := BitVec.ofInt 49 (w.clause.toNat + 8 * off.toInt)
    let f := s.fibre w.team g l
    let free := fun (n : Nat) (old : Fibre) => y.fibres[n]? = some old ∧ old.live = false ∧ old.busy = 0 ∧ y.dxgone.getLsbD n = false
    Issues s (.spawn c off a d) w c t → s.performers w c = [(g, l)] → s.group w.team g = some y →
    (∀ n old, n < 32 → free n old → (∀ m < n, ∀ x, ¬ free m x) → (∀ x ∈ w.active, (s.fibre w.team x.1 x.2).live = true) →
      ∃ s', exec (.spawn c off a d) s = .next s' ∧
        s'.fibre? w.team g n = some { Fibre.reset with live := true, regs := f.get w.pos a :: List.replicate (t.kern.win - 1) 0, lclk := f.lclk + 1, order := old.order, loads := old.loads, clkQ := f.lclk + 1 } ∧
        (∀ p, w.pos ≤ p → (s'.fibre w.team g l).get p d = BitVec.ofNat 32 n) ∧
        (∀ p r, r ≠ d → (s'.fibre w.team g l).get p r = f.get p r) ∧ (∀ p q, (s'.fibre w.team g l).getP p q = f.getP p q) ∧
        (s'.fibre w.team g l).rest = f.rest ∧ (s'.fibre w.team g l).lclk = f.lclk + 1 ∧
        (∀ u k m, (u, k, m) ≠ (w.team, g, n) → (u, k, m) ≠ (w.team, g, l) →
          s'.fibre? u k m = (s.fibre? u k m).map (fun x => if u = w.team ∧ (k, m) ∈ w.active then { x with lclk := x.lclk + 1 } else x)) ∧
        s'.husk = (s.modBundle w.bundle (fun b => b.spawn g n target)).husk) ∧
    ((∀ n old, ¬ free n old) → Computes (.spawn c off a d) s w c (fun _ => [(.v d, 0xFFFFFFFF)]))

/-- R112, R113, R119, R122, R356: control instructions that raise a fault of their own in every performing fibre. -/
def Obligations.ControlFaults : Prop :=
  ∀ (s : State) (w : Who) (t : Team) (c : Ctl) (off : BitVec 24) (hint : Bool) (keep : BitVec 8) (keepPw : Bool) (a : Reg), Handled s w c t →
    let each := fun (p : Fibre → Prop) => ∀ x ∈ s.performers w c, p (s.fibre w.team x.1 x.2)
    (Issues s (.call c off hint) w c t → each (fun f => f.depth = 255) → Traps (.call c off hint) s w c t 7 2 (fun _ => 0)) ∧
    (Issues s (.loop c off a) w c t → each (fun f => f.nest = 3) → Traps (.loop c off a) s w c t 7 4 (fun _ => 0)) ∧
    (Issues s (.lbrk c hint) w c t → each (fun f => f.nest = 0 ∨ ∃ v, f.loops[f.nest - 1]? = some v ∧ v.depth ≠ f.depth) → Traps (.lbrk c hint) s w c t 7 5 (fun _ => 0)) ∧
    (Issues s (.tret c keep keepPw) w c t → Traps (.tret c keep keepPw) s w c t 1 0 (fun _ => 0)) ∧
    (Issues s (.tretSkip c keep keepPw) w c t → Traps (.tretSkip c keep keepPw) s w c t 1 0 (fun _ => 0))

/-- R126, R83, R354, R355: the software traps, and the instructions that are emulated by a handler: each performing fibre takes its trap. Where a handler
stands and no fibre is inside it, the frame of each is written and the fibre leaves for the handler; every state's case is the fold of the
fibres' traps, one after another. An emulated instruction that passes the checks before it takes the trap UNIMPL, so that none is performed. -/
def Obligations.SoftwareTraps : Prop :=
  ∀ (s : State) (w : Who) (t : Team) (c : Ctl) (code : BitVec 12) (ty : ITy) (n : BitVec 2) (d a b : Reg) (tr : Nat × Nat → Trap),
    let u := w.by (s.performers w c)
    let taken := fun (tr : Nat × Nat → Trap) => (s.performers w c).foldl (fun (r : State) x => r.takeTrap u w.word x.1 x.2 (tr x)) s
    let traps := fun (i : Instr) (trap : Trap) (cause : Nat) => Issues s i w c t →
      Gives i s w (taken (fun _ => trap)) ∧ (Handled s w c t → Traps i s w c t cause 0 (fun _ => 0))
    let emulated := fun (i : Instr) =>
      (∀ f p, laneCheck i c t f p = some .unimpl ∨ laneCheck i c t f p = some .window ∨ laneCheck i c t f p = some .stallchk) ∧
      (Stands s i w c t → (∀ x ∈ s.performers w c, laneCheck i c t (s.fibre w.team x.1 x.2) w.pos = some (tr x)) →
        Gives i s w (taken tr) ∧ (Handled s w c t → TrapsEach i s w c t tr)) ∧
      (Stands s i w c t → Handled s w c t → (∀ x ∈ s.performers w c, laneCheck i c t (s.fibre w.team x.1 x.2) w.pos = some .unimpl) →
        Traps i s w c t 2 0 (fun _ => 0))
    traps (.bkpt c code) .bkpt 11 ∧ traps (.trap c code) .soft 12 ∧
    emulated (.div64 c ty d a b) ∧ emulated (.rem64 c ty d a b) ∧ emulated (.mulh64 c ty d a b) ∧ emulated (.crcb c n d a b)

/-- R83, R354, R355: an instruction that fails a check is not performed, and its performing fibres take the trap of the check. An ILLEGAL
check comes before the others. -/
def Obligations.FailedChecks : Prop :=
  ∀ (s : State) (i : Instr) (w : Who) (t : Team) (c : Ctl) (tr : Nat × Nat → Trap), Handled s w c t →
    (Faces s i w c t → s.illegal i w = true → Traps i s w c t 1 0 (fun _ => 0)) ∧
    (Stands s i w c t → (∀ x ∈ s.performers w c, ∃ n ∈ i.reads ++ i.writes, n.outside t.kern.win = true) → Traps i s w c t 4 0 (fun _ => 0)) ∧
    (Stands s i w c t → (∀ n ∈ i.reads ++ i.writes, n.outside t.kern.win = false) → t.scoreboard = true →
      (∀ x ∈ s.performers w c, let f := s.fibre w.team x.1 x.2
        (∃ n ∈ pg c.pidx ++ i.reads, f.undersized w.pos n = true) ∨ (∃ n ∈ pg c.pidx ++ i.reads ++ i.writes, ∃ u ∈ f.uncov, u.1 = n)) →
      Traps i s w c t 5 0 (fun _ => 0)) ∧
    (Stands s i w c t → (∀ x ∈ s.performers w c, laneCheck i c t (s.fibre w.team x.1 x.2) w.pos = some (tr x)) → TrapsEach i s w c t tr)

/-- R357: the return from a trap, to the instruction that trapped or to its successor. -/
def Obligations.TrapReturns : Prop :=
  ∀ (s : State) (w : Who) (t : Team) (c : Ctl) (keep : BitVec 8) (keepPw : Bool),
    let place := fun (f : Fibre) => (BitVec.ofNat 49 f.frame.tpc.toNat : VAddr)
    let index := fun (f : Fibre) => f.frame.tpc.toNat / 2 ^ 52 % 16
    let cause := fun (f : Fibre) => f.frame.tcause.toNat % 256
    let reason := fun (f : Fibre) => f.frame.tcause.toNat / 256 % 256
    (Issues s (.tret c keep keepPw) w c t → (∀ x ∈ s.performers w c, (s.fibre w.team x.1 x.2).h = true) →
      Moves (.tret c keep keepPw) s w c s (fun _ f => { f.restored keep keepPw with leave := .resume (place f) (index f) })) ∧
    (Issues s (.tretSkip c keep keepPw) w c t →
      (∀ x ∈ s.performers w c, let f := s.fibre w.team x.1 x.2
        f.h = true ∧ cause f ≠ 3 ∧ ¬ (cause f = 9 ∧ reason f = 5)) →
      Moves (.tretSkip c keep keepPw) s w c s (fun _ f =>
        if index f < f.frame.count then { f.restored keep keepPw with leave := .resume (place f) (index f + 1) }
        else
          let r := (f.restored keep keepPw).fallTo (place f + BitVec.ofNat 49 (8 * (f.frame.count + 2)))
          { r.1 with leave := .resume r.2.1 0 }))

/-- R79: an instruction that no fibre performs does nothing but count a clock for the fibres of its bundle. -/
def Obligations.NothingPerformed : Prop :=
  ∀ (s : State) (i : Instr) (w : Who) (t : Team) (c : Ctl), Stands s i w c t → s.performers w c = [] → exec i s = .next (s.countClocks w)

/-- R183 to R187, R250 to R252, R263, R298, R369: loads and stores of every size, space and page kind. A load takes what it finds in a vault or in its core's
copy of the line; each line that its group misses is asked for at its home, in ascending line address, and those lanes are answered there. An access
on an SO page has fences beside it; a store to an object's line that the core's copy cannot take goes to the line's part; and an access under one of
the two spaces of vaults may go before the fibre's own stores under the other (log 46). -/
def Obligations.LoadsAndStores : Prop :=
  ∀ (s : State) (w : Who) (t : Team) (c : Ctl) (sz : Size) (m : MemOp) (d : Reg) (tgt : Nat × Nat → Target) (lf : Nat × Nat → Leaf) (va : Nat × Nat → Nat)
    (copy : Nat × Nat → L1Line),
    let n := sz.bytes
    let found := s.found w c tgt
    let so := anySo found
    let pool := isPool m.space
    let u := w.by (s.performers w c)
    let disp := m.off.toInt * n
    (Issues s (.ld c sz m d) w c t → Reaches s w c t true plainTurn m.space m.a disp n .rd .read false tgt →
      let ready := s.readied w c t m.space .read tgt
      let old := ready.crossOld u pool n found
      let r := ((ready.soFenceBy u t.key so).meetPins t found).loadAll t u pool old n found
      let q := ((r.2.crossLoad u pool old n found).bankAll 4 t found).openOps (.ld c sz m d) u (pairsOf found)
      let now := r.1.foldl (fun (a : State) e => match e.2 with
        | some bs => a.doneLane u e.1.1 e.1.2.1 (opOf q.1 e.1.1) (loadWrites d bs)
        | none => a) q.2
      Gives (.ld c sz m d) s w ((now.askLines u q.1 d n (r.1.filterMap (fun e =>
        if e.2.isNone then e.1.2.2.leaf?.map (fun lf => (e.1.1, e.1.2.1, lf)) else none))).soFence t.key (so && t.dx))) ∧
    (Starts s (.ld c sz m d) w c t → Reaches s w c t true plainTurn m.space m.a disp n .rd .read false tgt →
      let ready := s.readied w c t m.space .read tgt
      ((∀ x ∈ s.performers w c, ∃ k a, tgt x = .vault k a) → ready.crossingsOf u pool n found = [] →
        Completes (.ld c sz m d) s w c (ready.bankAll 4 t found) (fun x =>
          some (loadWrites d (ready.vaultRead (tgt x).place.1 (tgt x).place.2 n)))) ∧
      (so = false → (∀ x ∈ s.performers w c, tgt x = .glob (va x) (lf x) ∧ ready.objIf (lf x).trk t.ctx ((lf x).pa / 128) = none ∧
          (ready.meetPins t found).objIf (lf x).trk t.ctx ((lf x).pa / 128) = none ∧ (ready.meetPins t found).hitOf t.key (lf x) = some (copy x)) →
        Completes (.ld c sz m d) s w c (ready.meetPins t found) (fun x => some (loadWrites d (((copy x).data.drop ((lf x).pa % 128)).take n))))) ∧
    (Issues s (.st c sz m d) w c t → Reaches s w c t true plainTurn m.space m.a disp n .wr .write true tgt →
      let ready := (s.readied w c t m.space .write tgt).soFenceBy u t.key so
      let data := fun (g l : Nat) => (ready.fibre w.team g l).storeData w.pos d sz
      (t.kern.dx = none →
        let old := ready.crossOld u pool n found
        let r := (ready.meetPins t found).storeAll t u c.counted pool old data (byLane found)
        let q := ((r.2.crossStore ready u pool old n found).bankAll 4 t found).openOps (.st c sz m d) u (pairsOf found)
        let sent := r.1.foldl (fun (a : State) x => a.storeQueue t u (opOf q.1 x.1) (data x.1 x.2.1) x) q.2
        Gives (.st c sz m d) s w (((found.filter (fun x => !r.1.contains x)).foldl (fun (a : State) x =>
          a.doneLane u x.1 x.2.1 (opOf q.1 x.1) []) sent).soFence t.key so)) ∧
      (t.kern.dx ≠ none →
        let q := ready.openOps (.st c sz m d) u (pairsOf found)
        Gives (.st c sz m d) s w (((groupsOf (pairsOf found)).foldl (fun (a : State) g =>
          (storeEntries ((found.filter (fun x => decide (x.1 = g))).map (fun x => (x.2.1, data g x.2.1, x.2.2)))).foldl
            (fun (b : State) e => b.dxPush u g e [opOf q.1 g]) a) q.2).soFence t.key so))) ∧
    (Starts s (.st c sz m d) w c t → Reaches s w c t true plainTurn m.space m.a disp n .wr .write true tgt →
      let ready := s.readied w c t m.space .write tgt
      let data := fun (g l : Nat) => (ready.fibre w.team g l).storeData w.pos d sz
      ((∀ x ∈ s.performers w c, ∃ k a, tgt x = .vault k a) → ready.crossingsOf u pool n found = [] →
        let stored := (byLane found).foldl (fun (a : State) x => a.vaultWrite x.2.2.place.1 x.2.2.place.2 (data x.1 x.2.1)) ready
        Completes (.st c sz m d) s w c ((stored.crossStore ready u pool false n found).bankAll 4 t found) (fun _ => some [])) ∧
      (so = false → (∀ x ∈ s.performers w c, tgt x = .glob (va x) (lf x) ∧ (lf x).trk = false) →
        Completes (.st c sz m d) s w c ((byLane found).foldl (fun (a : State) x =>
          let b := a.store t.key (lf (x.1, x.2.1)) (data x.1 x.2.1)
          if c.counted then b.pushLine t.key ((lf (x.1, x.2.1)).pa / 128) else b) (ready.meetPins t found)) (fun _ => some [])))

/-- R188, R189, R280: prefetches, cache maintenance and fences. PREF.L2 changes nothing but timing, and PREF.L1 what the L1 holds. -/
def Obligations.MemoryUpkeep : Prop :=
  ∀ (s : State) (w : Who) (t : Team) (c : Ctl) (sz : Size) (brec : BitVec 12) (a : Reg) (off : BitVec 13) (kind : FenceKind) (scope : Scope) (uo : Bool)
    (tgt : Nat × Nat → Target),
    let found := s.found w c tgt
    let so := anySo found
    let u := w.by (s.performers w c)
    let ready := (s.readied w c t (.global brec) .maint tgt).soFenceBy u t.key so
    let maintains := fun (i : Instr) (op : Nat) =>
      Issues s i w c t → Reaches s w c t false noTurn (.global brec) a (off.toInt * sz.bytes) sz.bytes .rdOrWr .maint false tgt →
      (t.kern.dx = none → Gives i s w (((found.foldl (fun (r : State) x => r.maintain t.key x.2.2.line op) ready).answered i u (pairsOf found)
        (fun _ => [])).soFence t.key so)) ∧
      (t.kern.dx ≠ none → Gives i s w (((groupsOf (pairsOf found)).foldl (fun (r : State) g =>
        r.dxPush u g (.cmaint op ((found.filter (fun x => decide (x.1 = g))).map (fun x => x.2.2.line))) [opOf (ready.openOps i u (pairsOf found)).1 g])
        (ready.openOps i u (pairsOf found)).2).soFence t.key so))
    maintains (.cmaintWb c sz brec a off) 0 ∧ maintains (.cmaintWbinv c sz brec a off) 1 ∧ maintains (.cmaintWbmem c sz brec a off) 2 ∧
    (Starts s (.fence c kind scope uo) w c t → s.inOrder w c → s.performers w c ≠ [] →
      let full := (kind = .ar ∨ kind = .sc) ∧ scopeTeam scope = true
      let met := if full then (s.performers w c).foldl (fun (r : State) x => r.modFibre w.team x.1 x.2 (fun f => { f with crossed := [] })) s else s
      Completes (.fence c kind scope uo) s w c (met.fence t.key kind scope uo) (fun _ => some [])) ∧
    (Issues s (.prefL2 c sz brec a off) w c t → exec (.prefL2 c sz brec a off) s = .next (s.countClocks w)) ∧
    (Issues s (.prefL1 c sz brec a off) w c t → t.kern.dx ≠ none → exec (.prefL1 c sz brec a off) s = .next (s.countClocks w)) ∧
    (Issues s (.prefL1 c sz brec a off) w c t → s.performers w c ≠ [] → t.kern.dx = none →
      Gives (.prefL1 c sz brec a off) s w ((s.prefLines u t brec a (off.toInt * sz.bytes) sz.bytes).foldl (fun (r : State) lf =>
        if lf.cached && !lf.trk && !r.hostBars (lf.pa / 128) false then r.fill t.key (lf.pa / 128) (decide (lf.ord = 2)) else r) s))

/-- R269 to R278: atomics and exact sums travel to the homes of their locations, one request for each group and location. -/
def Obligations.RequestsToHomes : Prop :=
  ∀ (s : State) (w : Who) (t : Team) (c : Ctl) (k : ACtl) (op : AtomOp) (ty : ITy) (sp : Space) (bf16 clr : Bool) (a d : Reg) (tgt : Nat × Nat → Target),
    let found := s.found w c tgt
    let u := w.by (s.performers w c)
    let sends := fun (i : Instr) (size : Nat) (acc : Acc) (wr : Bool) (kind : State → Nat → Spot → List Nat → ReqKind) =>
      Starts s i w c t → Reaches s w c t false noTurn sp a 0 size .at_ acc wr tgt →
        let ready := s.readied w c t sp acc tgt
        let q := ready.openOps i u (pairsOf found)
        Gives i s w (q.2.sendAll u t q.1 found (kind ready))
    let buffers := fun (i : Instr) (size : Nat) (kind : State → Nat → Spot → List Nat → ReqKind) =>
      Issues s i w c t → t.kern.dx ≠ none → Reaches s w c t false noTurn sp a 0 size .at_ .rw true tgt →
        let ready := s.readied w c t sp .rw tgt
        let q := ready.openOps i u (pairsOf found)
        Gives i s w (q.2.bufferAll u t q.1 found (kind ready))
    let reads := fun (r : State) (g l : Nat) (x : Reg) => ((r.fibre w.team g l).getW w.pos x ty.is64).toNat
    sends (.atom c k op ty sp a d) (ty.width / 8) .rw true (fun r g p lanes =>
      .atom k.uo (spotOrder p k.order) (spotScope p k.scope) op ty true p.place (lanes.map (fun l => (l, d, reads r g l d)))) ∧
    (let kind := fun (r : State) (g : Nat) (p : Spot) (lanes : List Nat) =>
      ReqKind.atom k.uo (spotOrder p k.order) (spotScope p k.scope) op ty false p.place (lanes.map (fun l => (l, d, reads r g l d)))
     sends (.atomn c k op ty sp a d) (ty.width / 8) .rw true kind ∧ buffers (.atomn c k op ty sp a d) (ty.width / 8) kind) ∧
    sends (.acas c k ty sp a d) (ty.width / 8) .rw true (fun r g p lanes =>
      .acas k.uo (spotOrder p k.order) (spotScope p k.scope) ty p.place
        (lanes.map (fun l => (l, d, reads r g l d, reads r g l (if ty.is64 then d + 2 else d + 1))))) ∧
    (let kind := fun (r : State) (g : Nat) (p : Spot) (lanes : List Nat) =>
      ReqKind.exsum k.uo (spotOrder p k.order) (spotScope p k.scope) p.place (lanes.map (fun l => (l, (r.fibre w.team g l).get w.pos d)))
     sends (.exsum c k sp a d) 64 .rw true kind ∧ buffers (.exsum c k sp a d) 64 kind) ∧
    sends (.excvt c k bf16 clr sp a d) 64 (if clr then .rw else .read) clr (fun _ _ p lanes =>
      .excvt k.uo (spotOrder p k.order) (spotScope p k.scope) bf16 clr p.place (lanes.map (fun l => (l, d))))

/-- R250, R292, R293, R302, R304: lock requests go to the home of their line, one for each group, with the leader's time; a group whose fibres name
several lines traps; LSTAT reads the line's state at once, waiting for nothing. -/
def Obligations.LockRequests : Prop :=
  ∀ (s : State) (w : Who) (t : Team) (c : Ctl) (uo : Bool) (brec : BitVec 12) (a d : Reg) (tgt : Nat × Nat → Target),
    let found := s.found w c tgt
    let u := w.by (s.performers w c)
    let lines := fun (g : Nat) => ((found.filter (fun x => decide (x.1 = g))).map (fun x => x.2.2.lockLine.1)).eraseDups
    let split := (groupsOf (pairsOf found)).filter (fun g => decide (1 < (lines g).length))
    let good := found.filter (fun x => !split.contains x.1)
    let mine := fun (g : Nat) => good.filter (fun x => decide (x.1 = g))
    let lanes := fun (g : Nat) => (mine g).map (·.2.1)
    let at_ := fun (g : Nat) => ((mine g).headD (0, 0, .vault 0 0)).2.2.lockLine
    let sends := fun (i : Instr) (kind : State → Nat → ReqKind) =>
      Starts s i w c t → Reaches s w c t false noTurn (.global brec) a 0 128 .at_ .rw false tgt →
      (∀ x ∈ s.performers w c, noUo (tgt x) = .ok (tgt x)) →
        let ready := (s.readied w c t (.global brec) .rw tgt).trapAll u .mismatch ((pairsOf found).filter (fun x => split.contains x.1))
        let q := (ready.soFenceBy u t.key (anySo good)).openOps i u (pairsOf good)
        Gives i s w ((groupsOf (pairsOf good)).foldl (fun (r : State) g =>
          (r.sendReq ⟨w.team, g, opOf q.1 g, kind r g, (at_ g).2.trk, (at_ g).2.so, 0, false, none⟩).orderAll w.team g (lanes g)) q.2)
    let lock := fun (try_ : Bool) (r : State) (g : Nat) =>
      ReqKind.lock try_ uo (at_ g).1 (at_ g).2 ((r.fibre w.team g ((lanes g).headD 0)).get w.pos d) ((lanes g).map (fun l => (l, d)))
    sends (.llock c uo brec a d) (lock false) ∧ sends (.ltry c uo brec a d) (lock true) ∧
    sends (.lunlk c uo brec a d) (fun _ g => .unlock uo (at_ g).1 (at_ g).2 ((lanes g).map (fun l => (l, d)))) ∧
    (Starts s (.lstat c brec a d) w c t → s.performers w c ≠ [] →
      (∀ x ∈ s.performers w c, s.resolve t x.1 (s.fibre w.team x.1 x.2) w.pos (.global brec) a 0 128 .at_ .read = .ok (tgt x) ∧
        noUo (tgt x) = .ok (tgt x)) →
      let ready := s.readied w c t (.global brec) .read tgt
      Completes (.lstat c brec a d) s w c ready (fun x => some [(.v d, s.lockStatus w.team x.1 (tgt x).lockLine.1)]))

/-- R190 to R194: a copy is handed to the core's Sluice, one for each fibre of an ACPY, in which the highest home lane supplies a byte that
several write, and one for an MCPY, which the leader describes. -/
def Obligations.Copies : Prop :=
  ∀ (s : State) (w : Who) (t : Team) (c : Ctl) (sz : Size) (src : ASrc) (brec : BitVec 12) (x y z : Reg) (kind : Nat × Nat → CopyKind)
    (page : Nat × Nat → Option Target) (lead : Nat × Nat) (shape base bytes dst mask bar : Nat),
    let u := w.by (s.performers w c)
    let pages := (s.performers w c).filterMap (fun e => (page e).map (fun p => (e.1, e.2, p)))
    let items := shadow ((s.performers w c).map (fun e => (e.1, e.2, kind e)))
    let ready := (((s.spent w c).touchAll t pages .read).soFenceBy u t.key (anySo pages)).keepSpace t (sourceSpace src)
    (Issues s (.acpy c sz src x y z) w c t → s.inOrder w c → s.performers w c ≠ [] →
      (∀ e ∈ s.performers w c, s.acpyOf u t e.1 e.2 sz.bytes src x y z = .ok (kind e, page e)) → s.hostLines t .rd pages false = [] →
      let q := ready.openOps (.acpy c sz src x y z) u (s.performers w c)
      (t.kern.dx = none → Gives (.acpy c sz src x y z) s w (items.foldl (fun (r : State) e =>
        (r.pushSource t.key e.2.2).addCopy t.key ⟨w.team, e.1, e.2.1, [opOf q.1 e.1], e.2.2, 0, none, []⟩) q.2)) ∧
      (t.kern.dx ≠ none → Gives (.acpy c sz src x y z) s w ((groupsOf (s.performers w c)).foldl (fun (r : State) g =>
        r.dxPush u g (.acpy ((items.filter (fun e => decide (e.1 = g))).map (fun e => (e.2.1, e.2.2)))) [opOf q.1 g]) q.2))) ∧
    (Issues s (.mcpy c brec x y z) w c t → s.inOrder w c → u.leader = some lead →
      s.mcpyOf u t lead brec x y z = .ok (.mcpy shape base bytes dst mask bar) →
      let q := ((s.spent w c).keepRec t brec.toNat).openOps (.mcpy c brec x y z) u (s.performers w c)
      let copy : Copy := ⟨w.team, lead.1, lead.2, q.1.map (·.2), .mcpy shape base bytes dst mask bar, 0, none, []⟩
      Gives (.mcpy c brec x y z) s w (
        if t.kern.dx ≠ none then q.2.dxPush u lead.1 (.mcpy lead.2 copy.kind) copy.ops
        else if bytes = 0 ∨ mask = 0 then q.2.finishOps copy.ops
        else (q.2.pushAll t.key true).addCopy t.key copy))

/-- R195 to R197, R199, R332: the operations on a transaction barrier, one fibre after another in ascending home lane, in the order of the bank's clock, and
its test. The arriving forms release at CLUSTER scope; in a deterministic grid the operations are buffered for the commit. -/
def Obligations.TransactionBarriers : Prop :=
  ∀ (s : State) (w : Who) (t : Team) (c : Ctl) (pool : Bool) (a d : Reg) (off : BitVec 13) (tgt : Nat × Nat → Target),
    let found := s.found w c tgt
    let u := w.by (s.performers w c)
    let ready := s.readied w c t (tbarSpace pool) .read tgt
    let reaches := fun (step : Nat) => Reaches s w c t false (bankTurn step) (tbarSpace pool) a (off.toInt * 16) 16 .rd .read false tgt
    let value := fun (v : Reg) (g l : Nat) => (ready.fibre w.team g l).get w.pos v
    let changes := fun (i : Instr) (code : Nat) (v : Reg) => reaches (tbarStep code) →
      (Starts s i w c t → Completes i s w c (((byLane found).foldl (fun (r : State) x =>
          r.tbarDo x.2.2.place.1 x.2.2.place.2 (fun b => b.apply code (value v x.1 x.2.1)))
        (if code = 1 ∨ code = 2 then ready.releaseSide t.key false .cluster else ready)).bankAll (tbarStep code) t found) (fun _ => some [])) ∧
      (Issues s i w c t → t.kern.dx ≠ none →
        let q := ready.openOps i u (pairsOf found)
        Gives i s w ((groupsOf (pairsOf found)).foldl (fun (r : State) g => r.dxPush u g (.tbar code ((found.filter (fun x => decide (x.1 = g))).map
          (fun x => (x.2.2.place.1, x.2.2.place.2, value v g x.2.1)))) [opOf q.1 g]) q.2))
    changes (.tbarInit c pool a off d) 0 d ∧ changes (.tbarArrive c pool a off) 1 a ∧ changes (.tbarArriveSect c pool a off d) 2 d ∧
    changes (.tbarSect c pool a off d) 3 d ∧
    (Starts s (.tbarTest c pool a off d) w c t → reaches 5 → Completes (.tbarTest c pool a off d) s w c (ready.bankAll 5 t found) (fun x =>
      let b := ready.tbarAt (tgt x).place.1 (tgt x).place.2
      some [(.v d, BitVec.ofNat 32 (b.phase + 16 * b.arrivals))]))

/-- R198, R224, R245, R286: fibres whose awaited event has come go on, as an acquire, and the others wait. -/
def Obligations.Waits : Prop :=
  ∀ (s : State) (w : Who) (t : Team) (c : Ctl) (pool uo : Bool) (cond : WCond) (brec : BitVec 12) (a b d : Reg) (off : BitVec 13)
    (tgt : Nat × Nat → Target) (queue : Nat × Nat → Nat),
    let found := s.found w c tgt
    let u := w.by (s.performers w c)
    (Starts s (.tbarWait c pool a off d) w c t → Reaches s w c t false (bankTurn 5) (tbarSpace pool) a (off.toInt * 16) 16 .rd .read false tgt →
      let ready := s.readied w c t (tbarSpace pool) .read tgt
      let q := (ready.bankAll 5 t found).openOps (.tbarWait c pool a off d) u (pairsOf found)
      Gives (.tbarWait c pool a off d) s w ((byLane found).foldl (fun (r : State) x =>
        let ph : BitVec 4 := ((ready.fibre w.team x.1 x.2.1).get w.pos d).setWidth 4
        if (r.tbarAt x.2.2.place.1 x.2.2.place.2).phase = ph.toNat then
          r.waitOr u x.1 x.2.1 (.tbar x.2.2.place.1 x.2.2.place.2 ph (opOf q.1 x.1))
        else (r.acquire t.key false).doneLane u x.1 x.2.1 (opOf q.1 x.1) []) q.2)) ∧
    (Starts s (.mxwait c a) w c t → s.performers w c ≠ [] →
      let q := s.openOps (.mxwait c a) u (s.performers w c)
      Gives (.mxwait c a) s w ((s.performers w c).foldl (fun (r : State) x =>
        let v := (s.fibre w.team x.1 x.2).get64 w.pos a
        let tk := if t.issued.toNat < v.toNat then t.issued else v
        if t.doneT.toNat < tk.toNat then r.waitOr u x.1 x.2 (.mx tk (opOf q.1 x.1))
        else (r.acquire t.key false).doneLane u x.1 x.2 (opOf q.1 x.1) []) q.2)) ∧
    (Starts s (.taskseqWait c a b) w c t → s.performers w c ≠ [] →
      (∀ x ∈ s.performers w c, ((s.fibre w.team x.1 x.2).get w.pos b).toNat = queue x ∧ queue x < 256 ∧ (s.queue (queue x)).part = t.part) →
      let q := (s.spent w c).openOps (.taskseqWait c a b) u (s.performers w c)
      Gives (.taskseqWait c a b) s w ((byLane ((s.performers w c).map (fun x => (x.1, x.2, queue x)))).foldl (fun (r : State) x =>
        let v := (s.fibre w.team x.1 x.2.1).get64 w.pos a
        if v.toNat ≤ (r.queue x.2.2).comp.toNat then (r.acquire t.key false).doneLane u x.1 x.2.1 (opOf q.1 x.1) []
        else r.waitOr u x.1 x.2.1 (.seq x.2.2 v (opOf q.1 x.1))) q.2)) ∧
    (Starts s (.waitc c cond uo brec a d) w c t → Reaches s w c t false noTurn (.global brec) a 0 4 .at_ .read false tgt →
      let so := anySo found
      let ready := (s.readied w c t (.global brec) .read tgt).soFenceBy u t.key so
      let q := ready.openOps (.waitc c cond uo brec a d) u (pairsOf found)
      Gives (.waitc c cond uo brec a d) s w ((found.foldl (fun (r : State) x => match x.2.2 with
        | .vault _ _ => r
        | .glob _ lf =>
          let f := ready.fibre w.team x.1 x.2.1
          let seen := r.monitorRead t w.team x.1 (ready.spotOf t x.2.2).tracked lf.pa
          if condHolds cond seen.1 (f.get w.pos d) then
            (seen.2.doneLane u x.1 x.2.1 (opOf q.1 x.1) [(.v d, 0), (.v (d + 1), seen.1)]).acquire t.key uo
          else if f.get w.pos (d + 1) = 0 then seen.2.doneLane u x.1 x.2.1 (opOf q.1 x.1) [(.v d, 1), (.v (d + 1), seen.1)]
          else (seen.2.armMon w.team x.1 lf.pa).waitLane u x.1 x.2.1
            (.monitor lf.pa cond (f.get w.pos d) (if f.get w.pos (d + 1) = 0xFFFFFFFF then none else some (ready.now + 1024 * (f.get w.pos (d + 1)).toNat))
              uo d (opOf q.1 x.1))) q.2).soFence t.key so))

/-- R282 to R284: an arrival at a team or cluster barrier releases and is counted, one fibre after another; fibres that do not fit the open
episode trap. Arrivals that bring an open or new episode to its count complete it: the barrier is closed, and every arrived fibre departs with the
result of all the arrivals. -/
def Obligations.Barriers : Prop :=
  ∀ (s : State) (w : Who) (t : Team) (c : Ctl) (op : BarOp) (uo cnt : Bool) (id : BitVec 4) (d a b : Reg),
    let P := s.performers w c
    let u := w.by P
    let count := fun (x : Nat × Nat) => if cnt then ((s.fibre w.team x.1 x.2).get w.pos b).toNat else 0
    let value := fun (x : Nat × Nat) => if op = .sync then 0 else (s.fibre w.team x.1 x.2).get w.pos a
    let arrives := fun (i : Instr) (cluster : Bool) => Starts s i w c t → s.inOrder w c → P ≠ [] →
      let bar := s.barrier t cluster id.toNat
      let most := if cluster then 24576 else 2048
      let left := fun (bad : List (Nat × Nat)) => (s.trapAll u .mismatch bad).releaseSide t.key uo (if cluster then .cluster else .team)
      (let bad := barTraps most (s.barLive t cluster) op cnt
          (if bar.open_ then some (bar.op, bar.cnt, bar.count, bar.waiters.length) else none) (P.map (fun x => (x.1, x.2, count x)))
        let good := P.filter (fun x => !bad.contains x)
        let q := (left bad).openOps i u good
        Gives i s w (good.foldl (fun (r : State) x => r.barArrive u cluster op uo cnt id.toNat d (count x) (value x) (opOf q.1 x.1) x.1 x.2) q.2)) ∧
      (let start : Barrier := if bar.open_ then bar else { Barrier.reset with open_ := true, op := op, cnt := cnt, count := if cnt then count (P.headD (0, 0)) else 0 }
        let n := start.waiters.length + P.length
        start.op = op → start.cnt = cnt → (if cnt then n ≤ most ∧ start.count = n ∧ ∀ x ∈ P, count x = n else n = s.barLive t cluster) →
        (if cluster then ∃ k, s.clusterOf t = some k ∧ id.toNat < k.bars.length else id.toNat < t.bars.length) →
        let q := (left []).openOps i u P
        let arrived := P.foldl (fun (r : State) x => (r.uncross w.team x.1 [x.2]).waitLane u x.1 x.2
          (.bar cluster id.toNat uo (if op = .sync then none else some d) (opOf q.1 x.1))) q.2
        Gives i s w ((arrived.setBarrier w.team t cluster id.toNat Barrier.reset).barDepart
          (P.foldl (fun (e : Barrier) x => e.join (w.team, x.1, x.2) (value x)) start)))
    arrives (.bar c op uo cnt id d a b) false ∧ arrives (.cbar c op uo cnt id d a b) true

/-- R202, R203, R206, R219 to R223: an instruction of the matrix engine that its team may use is queued under the next ticket, which all its
fibres receive; the team then holds the engine, and the bank has the mode that the instruction gives it. -/
def Obligations.MatrixQueue : Prop :=
  ∀ (s : State) (w : Who) (t : Team) (c : Ctl) (int bank : Bool) (d a b : Reg) (imm : BitVec 16) (lead : Nat × Nat) (x : MxmDesc) (y : MxstDesc),
    let u := w.by (s.performers w c)
    let f := s.fibre w.team lead.1 lead.2
    let e := (s.core t.key).eng
    let queues := fun (i : Instr) (r : State) (kind : MatKind) (n mode : Bool) =>
      Starts s i w c t → u.leader = some lead → (e.holder = some (.team w.team) ∨ (e.holder = none ∧ e.reserved = none)) → e.queue.length < 16 →
        Completes i s w c
          ((r.modCore t.key (fun k => { k with eng := Engine.setMode { k.eng with holder := some (.team w.team), queue := k.eng.queue ++ [⟨t.issued + 1, kind, none⟩] } n mode })).modTeam
            w.team (fun v => { v with issued := t.issued + 1 })) (fun _ => some (wr64 d (t.issued + 1)))
    queues (.mxldZero c int bank d) s (.zero int bank) bank int ∧
    queues (.mxldFill c int bank d b) s (.fill int bank (f.get w.pos b)) bank int ∧
    (let off := (f.get w.pos a).toNat + 128 * imm.toNat
     off % 128 = 0 → t.vaultOk off 122880 = true →
      queues (.mxldRestore c int bank d a imm) (s.spent w c) (.restore int bank off) bank int) ∧
    (s.mxmOf t ((f.get w.pos a).toNat + 64 * imm.toNat) = .ok x →
      queues (.mxm c d a imm) (s.spent w c) (.mxm x (t.ssh.getD x.sshi 0)) x.bank ((x.cls).getD false)) ∧
    (s.mxstOf t lead.1 bank ((f.get w.pos a).toNat + 32 * imm.toNat) = .ok y →
      queues (.mxst c bank d a imm) ((s.spent w c).keepRec t y.brec) (.store bank y) bank (e.mode bank))

/-- R225, R226: MSTAT gives every fibre a value of the team's engine state, the leader first where it clears; SSHAPE sets a summation shape and
reads one. -/
def Obligations.MatrixState : Prop :=
  ∀ (s : State) (w : Who) (t : Team) (c : Ctl) (sel : BitVec 4) (n : BitVec 3) (d a : Reg) (lead : Nat × Nat),
    let u := w.by (s.performers w c)
    let value := engineValue t sel.toNat
    let shape := (s.fibre w.team lead.1 lead.2).get64 w.pos a
    (Starts s (.mstat c false sel d) w c t → s.performers w c ≠ [] → Completes (.mstat c false sel d) s w c s (fun _ => some [(.v d, value)])) ∧
    (Starts s (.mstat c true sel d) w c t → u.leader = some lead → t.swamp.length = 4 →
      Completes (.mstat c true sel d) s w c
        (s.modTeam w.team (fun x => if sel.toNat = 8 then { x with mflt := 0 } else { x with swamp := x.swamp.set sel.toNat 0 }))
        (fun x => some [(.v d, if x = lead then value else 0)])) ∧
    (Starts s (.sshape c n a) w c t → u.leader = some lead → sumShapeBad shape.toNat = false →
      Completes (.sshape c n a) s w c (s.modTeam w.team (fun x => { x with ssh := x.ssh.set n.toNat shape })) (fun _ => some [])) ∧
    (Starts s (.sshapeRd c n d) w c t → s.performers w c ≠ [] → Completes (.sshapeRd c n d) s w c s (fun _ => some (wr64 d (t.ssh.getD n.toNat 0))))

/-- R216, R217, R227: streams are opened by a leader's descriptor, subscribed and unsubscribed for a core's engine, and closed. -/
def Obligations.Streams : Prop :=
  ∀ (s : State) (w : Who) (t : Team) (c : Ctl) (n : BitVec 3) (d a b : Reg) (lead : Nat × Nat) (x : Stream) (v : Word),
    let u := w.by (s.performers w c)
    let f := s.fibre w.team lead.1 lead.2
    let id := (f.get w.pos a).toNat
    let e := (s.core t.key).eng
    let mine := e.holder = some (.team w.team) ∨ (e.holder = none ∧ e.reserved = none)
    let engine := fun (r : State) (h : Engine → Engine) => r.modCore t.key (fun k => { k with eng := h k.eng })
    let open_ := (s.streamOf t.die t.ctx id).isSome
    (Starts s (.strmOpen c d a) w c t → u.leader = some lead → s.strmOf t w.team lead.1 id = .ok x →
      let r := s.spent w c
      ((∀ m < 64, fget (s.die t.die).streams m ≠ none) → Completes (.strmOpen c d a) s w c r (fun _ => some [(.v d, 0xFFFFFFFF)])) ∧
      (∀ m < 64, fget (s.die t.die).streams m = none → (∀ j < m, fget (s.die t.die).streams j ≠ none) →
        Completes (.strmOpen c d a) s w c (r.modDie t.die (fun y => { y with streams := fset y.streams m x })) (fun _ => some [(.v d, BitVec.ofNat 32 m)]))) ∧
    (Starts s (.strmSub c n d a b) w c t → u.leader = some lead → mine →
      v = (if ¬ open_ then 1 else if 4 ≤ e.subs.length then 2 else if e.subs.any (fun y => decide (y.stream = id)) then 3 else 0) →
      let r := engine s (fun y => { y with holder := some (.team w.team) })
      Completes (.strmSub c n d a b) s w c (if v = 0 then engine r (fun y => { y with subs := y.subs ++ [⟨id, (f.get w.pos b).toNat, n.toNat, []⟩] }) else r)
        (fun _ => some [(.v d, v)])) ∧
    (Starts s (.strmUnsub c a) w c t → u.leader = some lead → mine → Completes (.strmUnsub c a) s w c
      (if e.holder = some (.team w.team) then (engine s (fun y => { y with subs := y.subs.filter (fun z => decide (z.stream ≠ id)) })).tidyStream t.die id else s)
      (fun _ => some [])) ∧
    (Starts s (.strmClose c a) w c t → u.leader = some lead →
      (s.streamOf t.die t.ctx id = none → Completes (.strmClose c a) s w c s (fun _ => some [])) ∧
      (s.streamOf t.die t.ctx id = some x → Completes (.strmClose c a) s w c
        ((s.modDie t.die (fun y => { y with streams := fset y.streams id { x with closing := true } })).tidyStream t.die id) (fun _ => some [])))

/-- R203, R219: an engine instruction whose core's engine another team holds, or is reserved for, blocks its fibres before it; one whose queue is
full is held. -/
def Obligations.EngineBusy : Prop :=
  ∀ (s : State) (w : Who) (t : Team) (c : Ctl) (int bank : Bool) (n : BitVec 3) (d a b : Reg) (imm : BitVec 16),
    let u := w.by (s.performers w c)
    let e := (s.core t.key).eng
    let engineInstrs := [Instr.mxldZero c int bank d, .mxldFill c int bank d b, .mxldRestore c int bank d a imm, .mxm c d a imm, .mxst c bank d a imm]
    ∀ i, Starts s i w c t → s.performers w c ≠ [] →
      ((i ∈ engineInstrs ∨ i = .strmSub c n d a b ∨ i = .strmUnsub c a) →
        ((∃ h, e.holder = some h ∧ h ≠ .team w.team) ∨ (e.holder = none ∧ e.reserved ≠ none)) → Gives i s w (s.blockAll u)) ∧
      (i ∈ engineInstrs → (e.holder = some (.team w.team) ∨ (e.holder = none ∧ e.reserved = none)) → 16 ≤ e.queue.length → exec i s = .next (s.hold w))

/-- R27: CAPS reads the word of the context's capability list at an offset that is a multiple of 4; outside the list it reads 0. A fibre whose offset is
no multiple of 4 takes the trap MISALIGNED. -/
def Obligations.Capabilities : Prop :=
  ∀ (s : State) (w : Who) (t : Team) (c : Ctl) (d a : Reg) (imm : BitVec 24),
    let caps := (s.ctxOf t).caps
    let u := w.by (s.performers w c)
    let off := fun (x : Nat × Nat) => (((s.fibre w.team x.1 x.2).get w.pos a).toNat : Int) + imm.toInt
    let word := fun (x : Nat × Nat) => if off x < 0 ∨ (4 * caps.length : Nat) ≤ off x then 0 else caps.getD (off x / 4).toNat 0
    let trap := fun (x : Nat × Nat) => Trap.misaligned (BitVec.ofInt 64 (off x))
    Issues s (.caps c d a imm) w c t →
      ((∀ x ∈ s.performers w c, off x % 4 = 0) → ComputesAt (.caps c d a imm) s w c (fun x => [(.v d, word x)])) ∧
      Gives (.caps c d a imm) s w ((s.performers w c).foldl (fun (r : State) x =>
        if off x % 4 = 0 then r.modFibre w.team x.1 x.2 (fun f => f.writeAll w.pos (Instr.caps c d a imm).latency [(.v d, word x)])
        else r.takeTrap u w.word x.1 x.2 (trap x)) s) ∧
      (Handled s w c t → (∀ x ∈ s.performers w c, off x % 4 ≠ 0) → TrapsEach (.caps c d a imm) s w c t trap)

/-- R332, R359, R360: ELOG writes the open records of groups, counts the records of the context as its operation completes, and writes a record with
the leader's words; in a deterministic grid the records are buffered for the commit. -/
def Obligations.EventLog : Prop :=
  ∀ (s : State) (w : Who) (t : Team) (c : Ctl) (d a b : Reg) (lead : Nat × Nat),
    let u := w.by (s.performers w c)
    let f := s.fibre w.team lead.1 lead.2
    (Starts s (.elogSync c) w c t → s.performers w c ≠ [] →
      Completes (.elogSync c) s w c ((groupsOf (s.performers w c)).foldl (fun (r : State) g => r.flushEvent w.team g) s) (fun _ => some [])) ∧
    (Issues s (.elogSync c) w c t → t.kern.dx ≠ none → s.performers w c ≠ [] →
      let q := s.openOps (.elogSync c) u (s.performers w c)
      Gives (.elogSync c) s w ((groupsOf (s.performers w c)).foldl (fun (r : State) g => r.dxPush u g .elogSync [opOf q.1 g]) q.2)) ∧
    (Starts s (.elogCnt c d) w c t → s.performers w c ≠ [] →
      let q := s.openOps (.elogCnt c d) u (s.performers w c)
      Gives (.elogCnt c d) s w ((s.performers w c).foldl (fun (r : State) x =>
        (r.sampleOp (opOf q.1 x.1) d).doneLane u x.1 x.2 (opOf q.1 x.1) []) q.2)) ∧
    (∀ (o : Op) (l : Nat), s.team o.team = some t → o.sample = some d →
      s.opWrites o l = (o.writes.filter (fun e => decide (e.1 = l))).map (·.2) ++
        [(.v d, BitVec.ofNat 32 (memNat s.mem (t.ctx + 64) 4 + memNat s.mem (t.ctx + 68) 4))]) ∧
    (Starts s (.elogPut c a b) w c t → u.leader = some lead → Completes (.elogPut c a b) s w c
      (s.ctxLog t.ctx 9 1 ⟨t.clusid, t.teamid, lead.1, t.core, t.die⟩ (leBytes 4 (f.get w.pos a).toNat ++ leBytes 4 (f.get w.pos b).toNat)) (fun _ => some [])) ∧
    (Issues s (.elogPut c a b) w c t → t.kern.dx ≠ none → u.leader = some lead →
      let q := s.openOps (.elogPut c a b) u (s.performers w c)
      Gives (.elogPut c a b) s w (q.2.dxPush u lead.1 (.elogPut (f.get w.pos a) (f.get w.pos b)) (q.1.map (·.2))))

/-- R179: TLBI has what the cores hold performed at its home; every translation of the context, of the context for an address, or of all contexts of
the partition leaves every TLB; and it completes when the accesses of its scope that were on their way have ended. -/
def Obligations.TranslationsLeave : Prop :=
  ∀ (s : State) (w : Who) (t : Team) (c : Ctl) (a : Reg),
    let u := w.by (s.performers w c)
    let drops := fun (i : Instr) (wide : Bool) (out : Nat × Nat → TlbEntry → Bool) => Starts s i w c t → s.inOrder w c → s.performers w c ≠ [] →
      let pushed := (s.cores.map (·.1)).foldl (fun (r : State) k => r.pushAll k true) (s.flushCore t.key)
      let gone := (s.performers w c).foldl (fun (r : State) x => r.dropXlate (out x)) pushed
      let q := gone.openOps i u (s.performers w c)
      let left := s.flying (s.inScope wide t)
      Gives i s w ((s.performers w c).foldl (fun (r : State) x => r.doneLane u x.1 x.2 (opOf q.1 x.1) [])
        (q.1.foldl (fun (r : State) e => r.opAfter e.2 left) q.2)) ∧
      (left = [] → (∀ x ∈ (s.core t.key).l1, x.obj.isSome → x.dirty.contains true = false) → Completes i s w c gone (fun _ => some []))
    let root := (s.ctxOf t).root
    drops (.tlbiAll c) false (fun _ e => decide (e.root = root)) ∧
    drops (.tlbiVa c a) false (fun x e => decide (e.root = root) &&
      decide (e.pre = ((s.fibre w.team x.1 x.2).get64 w.pos a).toNat % 2 ^ 49 / 2 ^ levelShift e.level)) ∧
    drops (.tlbiPart c) true (fun _ e => s.ctxs.any (fun k => decide (k.2.part = t.part) && decide (k.2.root = e.root))) ∧
    (∀ (out : TlbEntry → Bool) (k : Nat), ((s.dropXlate out).core k).tlb = ((s.core k).tlb).filter (fun e => !out e) ∧
      ((s.dropXlate out).die k).l2tlb = ((s.die k).l2tlb).filter (fun e => !out e)) ∧
    (∀ i ∈ [Instr.tlbiAll c, .tlbiVa c a, .tlbiPart c], Faces s i w c t → (s.ctxOf t).priv = false →
      Gives i s w (s.trapAll w .illegal (s.performers w c)) ∧ (Handled s w c t → Traps i s w c t 1 0 (fun _ => 0)))

/-- R281: ACQR asks each fibre's victim core to write back, and the fibre's later accesses follow; a fibre whose victim is no core of the partition traps. -/
def Obligations.RemoteAcquire : Prop :=
  ∀ (s : State) (w : Who) (t : Team) (c : Ctl) (uo : Bool) (a : Reg),
    let i : Instr := .acqr c uo a
    let u := w.by (s.performers w c)
    let victim := fun (x : Nat × Nat) => (s.fibre w.team x.1 x.2).get w.pos a
    let bad := (s.performers w c).filter (fun x => s.victimBad t (victim x))
    let good := (s.performers w c).filter (fun x => !s.victimBad t (victim x))
    let trap := fun (x : Nat × Nat) => Trap.access 4 ((victim x).setWidth 64)
    (Starts s i w c t → s.inOrder w c → s.performers w c ≠ [] →
      let q := (bad.foldl (fun (r : State) x => r.takeTrap u w.word x.1 x.2 (trap x)) s).openOps i u good
      Gives i s w (good.foldl (fun (r : State) x =>
        (r.sendReq ⟨w.team, x.1, opOf q.1 x.1, .acqr uo ((victim x).toNat / 256 % 2) ((victim x).toNat % 256) x.2, false, false, 0, false, none⟩).order w.team x.1 x.2)
        q.2)) ∧
    (Starts s i w c t → s.inOrder w c → Handled s w c t → good = [] → TrapsEach i s w c t trap)

/-- R243 to R245: TASKPOST appends a record to a queue's chain, after a release at DEVICE scope, and gives its status and sequence number; TASKSEQ
reads a completed sequence, as an acquire. -/
def Obligations.TaskQueues : Prop :=
  ∀ (s : State) (w : Who) (t : Team) (c : Ctl) (d a b : Reg) (imm : BitVec 16) (lead : Nat × Nat) (st q slot : Nat) (lf : Leaf) (bytes : List Byte)
    (queue : Nat × Nat → Nat),
    let u := w.by (s.performers w c)
    let f := s.fibre w.team lead.1 lead.2
    let i : Instr := .taskpost c d a b imm
    let off := (f.get w.pos a).toNat + 128 * imm.toNat
    let n := (f.get w.pos b).toNat
    let freed := (s.spent w c).fence t.key .rel .device false
    let give := fun (r : State) (v : Nat) (seq : DWord) => r.answered i u (s.performers w c) (fun _ => [(.v d, BitVec.ofNat 32 v), (.v (d + 1), 0)] ++ wr64 (d + 2) seq)
    (Starts s i w c t → s.inOrder w c → u.leader = some lead →
      (s.postOf t lead.1 off n = .ok (.status st) → Gives i s w (give freed st 0)) ∧
      (s.postOf t lead.1 off n = .ok (.write q slot lf bytes) → freed.engineSnoops [lf.pa] true = none →
        let r := freed.engineWrite (freed.queue q).qctx.toNat t.die lf.trk lf.pa bytes
        let seq := (r.queue q).seq + BitVec.ofNat 64 (r.recsBefore q (r.queue q).walkFrom)
        Gives i s w (give (r.modQueue q (fun x => { x with qtail := BitVec.ofNat 64 (slot + 128), ahead := x.ahead + 1 })) 0 seq))) ∧
    (Starts s (.taskseq c d b) w c t → s.performers w c ≠ [] →
      (∀ x ∈ s.performers w c, ((s.fibre w.team x.1 x.2).get w.pos b).toNat = queue x ∧ queue x < 256 ∧ (s.queue (queue x)).part = t.part) →
      Completes (.taskseq c d b) s w c ((s.performers w c).foldl (fun (r : State) _ => r.acquire t.key false) (s.spent w c))
        (fun x => some (wr64 d (s.queue (queue x)).comp)))

/-- R260, R345: COLL hands the die's engine the collective that the leader's descriptor names, unless the engine is full, once its core's stores are
performed at their homes; R339: DXSYNC
outside a deterministic grid is a fence at DEVICE scope and gives 0. -/
def Obligations.CollectivesAndGrids : Prop :=
  ∀ (s : State) (w : Who) (t : Team) (c : Ctl) (d a : Reg) (imm : BitVec 16) (lead : Nat × Nat) (x : Coll),
    let u := w.by (s.performers w c)
    let f := s.fibre w.team lead.1 lead.2
    let i : Instr := .coll c d a imm
    (Starts s i w c t → s.inOrder w c → u.leader = some lead → s.collOf t w.team lead.1 ((f.get w.pos a).toNat + 64 * imm.toNat) = .ok x →
      (16 ≤ (s.die t.die).colls.length → Completes i s w c (s.spent w c) (fun _ => some [(.v d, 1)])) ∧
      ((s.die t.die).colls.length < 16 → Completes i s w c
        ((((((s.spent w c).keepRec t x.desc.srcbrec).keepRec t x.desc.dstbrec).keepRec t x.desc.cplbrec).pushAll t.key true).modDie t.die
          (fun y => { y with colls := y.colls ++ [x] }))
        (fun _ => some [(.v d, 0)]))) ∧
    (Starts s (.dxsync c d) w c t → s.inOrder w c → s.performers w c ≠ [] →
      Completes (.dxsync c d) s w c (s.fenceBy u t.key .ar .device false) (fun _ => some (wr64 d 0)))

/-- R319 to R322: PROTLD judges an image and loads it into a slot, OBJDECL declares an object, and OBJREL releases one; each is a fence at DEVICE
scope, and gives its status. -/
def Obligations.ObjectInstructions : Prop :=
  ∀ (s : State) (w : Who) (t : Team) (c : Ctl) (slot : BitVec 3) (d a : Reg) (lead : Nat × Nat) (pages : List Leaf) (x : Decl),
    let u := w.by (s.performers w c)
    let f := s.fibre w.team lead.1 lead.2
    let va := (f.get64 w.pos a).toNat
    let v := (f.get w.pos a).toNat
    let gives := fun (i : Instr) (r : State) (ws : List (RName × Word)) => Gives i s w (r.answered i u (s.performers w c) (fun _ => ws))
    (Starts s (.protld c slot d a) w c t → s.inOrder w c → u.leader = some lead → s.protOf t lead.1 va = .ok pages →
      let ready := ((s.spent w c).fillAll t ((List.range 9).map (fun k => va + 64 * k)) .read).fenceBy u t.key .sc .device false
      ready.engineSnoops (pages.map (·.pa)) false = none →
      let r := ready.readPieces t.ctx t.die 64 pages
      let judged := r.2.protJudge slot.toNat r.1
      gives (.protld c slot d a)
        (if judged.1 = 0 then { r.2 with prots := r.2.prots.set slot.toNat (some r.1), attest := { r.2.attest with gen := r.2.attest.gen + 1 } } else r.2)
        [(.v d, BitVec.ofNat 32 judged.1), (.v (d + 1), BitVec.ofNat 32 judged.2)]) ∧
    (Starts s (.objdecl c slot d a) w c t → s.inOrder w c → u.leader = some lead → s.declOf t lead.1 v = .ok x →
      let ready := (((s.spent w c).fillAll t (x.lines.map (fun e => 128 * e.1)) .maint).keepRec t (shapeOf x.shape).brec).fenceBy u t.key .sc .device false
      let st := ready.declStatus slot.toNat x
      (st ≠ 0 → gives (.objdecl c slot d a) ready [(.v d, BitVec.ofNat 32 st), (.v (d + 1), 0)]) ∧
      (∀ id, st = 0 → ready.engineSnoops (x.lines.map (fun e => e.2.pa)) true = none → id < 4096 → (ready.obj id).v = false →
        (∀ j < id, (ready.obj j).v = true) →
        gives (.objdecl c slot d a) (ready.declare t slot.toNat id x) [(.v d, 0), (.v (d + 1), BitVec.ofNat 32 ((ready.obj id).gen * 65536 + id))])) ∧
    (Starts s (.objrel c d a) w c t → s.inOrder w c → u.leader = some lead →
      let ready := s.fenceBy u t.key .sc .device false
      let o := ready.obj (v % 4096)
      let known := v / 4096 % 16 = 0 ∧ o.v = true ∧ o.rel = false ∧ o.ctx = t.ctx ∧ o.gen = v / 65536
      let locked := ∃ l ∈ o.lines, ready.lockEntry l ≠ none
      (¬ known → gives (.objrel c d a) ready [(.v d, 1)]) ∧
      (known → locked → gives (.objrel c d a) ready [(.v d, 2)]) ∧
      (known → ¬ locked → ready.engineSnoops (o.lines.map (· * 128)) true = none →
        gives (.objrel c d a) (ready.releaseObject (v % 4096)) [(.v d, 0)]))

/-- R332, R334: in a deterministic grid the fibres of every synchronising instruction wait for a commit, with an operation for each part of
the bundle; R280: a fence orders nothing there. -/
def Obligations.DeterministicWaits : Prop :=
  ∀ (s : State) (i : Instr) (w : Who) (t : Team) (c : Ctl) (k : Split), Issues s i w c t → t.kern.dx ≠ none → s.inOrder w c → s.performers w c ≠ [] →
    let u := w.by (s.performers w c)
    (commitSplit i = some k → Gives i s w (s.parked i k u t)) ∧
    (∀ kind scope uo, i = .fence c kind scope uo → Gives i s w (s.answered i u (s.performers w c) (fun _ => [])))


/-- R75, R76, R100 to R107, R359, R87, R369: the ready front path that its sub-core picks seeds a bundle, whose clause is fetched whole and begins for groups
whose counters its WAIT finds zero; fairness rotates a group's paths or marks the group due; an open event record is written after 1,024 clocks of its
core; a slice performs an operation's load request; an answered operation writes its results and lowers its counter. -/
def Obligations.SubCoreEvents : Prop :=
  ∀ (s : State) (team grp id : Nat) (t : Team) (x : Machine.Group) (p q : Machine.Path) (ps : List Machine.Path) (b : Bundle) (h : DWord) (ws : Nat → DWord)
    (e : EventRec) (o : Op), s.Alive → s.team team = some t → s.group team grp = some x →
    (x.paths.head? = some p → s.pick t.key x.subcore t.part = some (.event (.bundleSeed team grp)) →
      let members := (grp, p.lanes) :: s.joiners t grp x.subcore p
      ∃ r, exec (.bundleSeed team grp) s = .next r ∧
        fget r.bundles s.serial = some ⟨team, x.subcore, p.pc, p.idx, p.depth, members, false, 0, [], 0, s.coreNow team, s.coreNow team,
          true, false, [], []⟩ ∧
        r.serial = s.serial + 1 ∧
        ∀ m ∈ members, ∀ y, r.group team m.1 = some y → y.bundle = s.serial ∧ y.skip = false) ∧
    (fget s.bundles id = some b → b.team = team → b.fetched = false → b.members ≠ [] →
      (∀ m ∈ b.members, s.fetchWord t m.1 b.pc.toNat = .ok h ∧
        (∀ k ≤ hdrCount h, s.fetchWord t m.1 (b.pc + BitVec.ofNat 49 (8 + 8 * k)).toNat = .ok (ws k)) ∧
        ∃ y, s.group team m.1 = some y ∧ y.asleep = false ∧ ∀ n ∈ hdrWaits h, y.counter n = 0) →
      let words := (List.range (hdrCount h + 1)).map ws
      clauseBad h words = false →
      ∃ r, exec (.clauseFetch id) s = .next r ∧
        fget r.bundles id = some { b with fetched := true, cls := hdrClass h, words := words, readyAt := s.coreNow team } ∧
        ∀ m ∈ b.members, (r.group team m.1).map (·.due) = some none) ∧
    (fget s.bundles id = some b → b.team = team → b.fetched = true → (s.activeOf b = [] ∨ b.words.length ≤ b.idx) → s.lockPending b = false →
      let left := b.members.foldl (fun (a : State) m => a.groupBoundary t b m.1 m.2) s
      let gone : State := { left with bundles := fdel left.bundles id, focus := if left.focus = some id then none else left.focus }
      Happens (.clauseBoundary id) s (if t.kern.dx = none then gone.barSettleAll team else gone)) ∧
    (x.paths = p :: q :: ps → t.kern.fairq ≤ x.timer → x.bundle = 0 → t.standing = true →
      Happens (.fairnessTimerExpiry team grp) s
        (s.modGroup team grp (fun y => { y with paths := rotatePaths y.paths, timer := 0, due := some (s.coreNow team), readyAt := s.coreNow team }))) ∧
    (s.ready t grp = true → x.readyAt + t.kern.fairq ≤ s.coreNow team → x.due = none →
      Happens (.readyButWaiting team grp) s (s.modGroup team grp (fun y => { y with due := some (s.coreNow team) }))) ∧
    (∀ all word count i, x.completeSet = some (p, all) → p.kind = .parked all word count → decodeWord word = .ok i →
      let w : Who := ⟨0, team, p.pc, p.idx, count, 0, 2, word, [], (lanesOf all).map (fun l => (grp, l)), []⟩
      let moved := (lanesOf all).foldl (fun (a : State) l =>
        let f := (a.fibre team grp l).succOf p.pc count p.idx
        (a.modFibre team grp l (fun _ => { f.1 with lclk := f.1.lclk + 1 })).modGroup team grp (fun y => y.toBack l f.2.1.1 f.2.1.2 f.1.depth))
        (s.xlnDo i w grp [] (lanesOf all))
      Happens (.xlnExitCompletion team grp) s (moved.modGroup team grp (fun y => Group.newFront x y (s.coreNow team)))) ∧
    (x.event = some e → t.kern.dx = none → e.opened + 1024 ≤ s.coreNow team →
      Happens (.eventRecordExpiry team grp) s
        ((s.modGroup team grp (fun y => { y with event := none })).eventWrite t.ctx (eventBytes t grp e))) ∧
    (∀ rid rq, s.reqs.filter (fun e => decide (e.2.op = id) && e.2.kind.isLoad) = [(rid, rq)] →
      fget s.reqs rid = some rq → s.mayBegin rid rq = true →
      let served := (s.beginReq rid rq).performLoad rid
      (∃ o, fget served.ops id = some o ∧ o.left ≠ []) → Happens (.operationComplete id) s served) ∧
    (fget s.ops id = some o → o.left = [] → (∀ k ∈ o.after, s.inFlight k = false) → o.team = team → o.grp = grp →
      s.reqs.filter (fun e => decide (e.2.op = id) && e.2.kind.isLoad) = [] →
      ∃ r, exec (.operationComplete id) s = .next r ∧ fget r.ops id = none ∧
        (r.group team grp).map (·.sb) = some (x.sb.modify o.sb (fun n => n - 1)) ∧
        ∀ l ∈ o.lanes, ∀ f, x.fibres[l]? = some f → ((r.fibre team grp l).regs = (f.land id (s.opWrites o l)).regs ∧
          (r.fibre team grp l).pw = (f.land id (s.opWrites o l)).pw))

/-- R180 to R182: a waiting miss is written to the fault ring and raises its interrupt; RETRY and FAIL answer the record of their tag, and a tag that
names none sets BADTAG; a write of 1 clears it; FAULT_QUEUE_ENABLE sets the size and the enable as the register allows. -/
def Obligations.FaultQueueEvents : Prop :=
  ∀ (s : State) (die : Nat) (tag : BitVec 16) (value : DWord) (r : FaultRec) (rest : List FaultRec), s.Alive →
    let d := s.die die
    (d.fqwait = r :: rest → d.fqen = true → d.fqwr - d.fqrd ≠ BitVec.ofNat 32 (2 ^ d.fqlog2) →
      Happens (.faultRecordPost die) s
        (((s.homeWrite (d.fqbase.toNat + 32 * (d.fqwr.toNat % 2 ^ d.fqlog2)) r.bytes).modDie die (fun x =>
          { x with fqwait := rest, fqout := x.fqout ++ [r], fqwr := x.fqwr + 1 })).irq 3 die ((d.fqwr.toNat + 1) % 65536))) ∧
    (d.fqout.find? (fun k => decide (k.tag = tag.toNat)) = some r →
      let left := s.modDie die (fun x => { x with fqout := x.fqout.filter (fun k => decide (k.tag ≠ tag.toNat)) })
      Happens (.answerRetry die tag) s (left.answer r false) ∧ Happens (.answerFail die tag) s (left.answer r true)) ∧
    ((∀ k ∈ d.fqout, k.tag ≠ tag.toNat) →
      Happens (.answerRetry die tag) s (s.modDie die (fun x => { x with badtag := true })) ∧
      Happens (.answerFail die tag) s (s.modDie die (fun x => { x with badtag := true }))) ∧
    Happens (.badtagClear die) s (s.modDie die (fun x => { x with badtag := false })) ∧
    Happens (.faultQueueEnable die value) s (s.modDie die (fun x =>
      let n := value.toNat / 2 % 16
      { x with fqlog2 := if x.fqen = false ∧ 6 ≤ n ∧ n ≤ 12 then n else x.fqlog2,
               fqen := value.getLsbD 0 && (x.fqen || decide (x.fqbase.toNat % 4096 = 0)) }))

/-- R258, R264, R271 to R278: a request at its home is one indivisible step, once its slice begins it (R370). Its lanes take their places in ascending
order, each receives the value before it, and the location keeps the last; the requests of one instruction at a vault are one event, and a line of an
object or of the host's is asked of its part or of the host. R281, R287, R289, R247, R312: a victim's write-back, a re-read, a time-out, a
written-back line and a request that enters its slice. -/
def Obligations.HomeEvents : Prop :=
  ∀ (s : State) (id : Nat) (r r' : Req) (t t' : Team) (uo : Bool) (order : Order) (scope : Scope) (op : AtomOp) (ty : ITy) (pl : Place), s.Alive →
    fget s.reqs id = some r → s.team r.team = some t →
    let begun := s.beginReq id r
    let base := match pl with | .mem pa => begun.shed t.key (pa / 128) | .vault _ _ => s
    let ready := fun (ls : List Nat) =>
      ((State.orderLanes { base with reqs := fdel base.reqs id } r' order scope ls).enterHome t'.key uo order scope pl)
    let free := fun (write : Bool) => (fget base.reqs id = some r' ∧ r'.kind = r.kind ∧ base.team r'.team = some t') ∧
      match pl with
      | .mem pa => s.mayBegin id r = true ∧ begun.atPart id = false ∧ begun.trackedBy r pl = none ∧ begun.hostBars (pa / 128) write = false
      | .vault _ _ => s.bunchOf r = [id]
    let ends := fun (x : State) => Happens (.atomicRequestAtHome id) s (x.leaveHome t'.key uo order scope pl)
    let n := ty.width / 8
    (∀ (ret : Bool) (lanes : List (Nat × Reg × Nat)), r.kind = .atom uo order scope op ty ret pl lanes → free true →
      let ready := ready (lanes.map (·.1))
      let value := atomicBefore op ty (ready.placeRead pl n) (lanes.map (fun l => l.2.2))
      ends (lanes.zipIdx.foldl (fun (x : State) e => x.answerLane r' e.1.1 (if ret then wrW e.1.2.1 ty.is64 (BitVec.ofNat 64 (value e.2)) else []))
        (ready.placeWrite pl n (value lanes.length)))) ∧
    (∀ (lanes : List (Nat × Reg × Nat × Nat)), r.kind = .acas uo order scope ty pl lanes → free true →
      let ready := ready (lanes.map (·.1))
      let ops := lanes.map (fun l => l.2.2)
      let value := swapBefore (ready.placeRead pl n) ops
      let swaps := (List.range ops.length).any (fun i => decide (value i = (ops.getD i (0, 0)).1))
      ends (lanes.zipIdx.foldl (fun (x : State) e => x.answerLane r' e.1.1 (wrW e.1.2.1 ty.is64 (BitVec.ofNat 64 (value e.2))))
        (if swaps then ready.placeWrite pl n (value lanes.length) else ready))) ∧
    (∀ (lanes : List (Nat × Word)), r.kind = .exsum uo order scope pl lanes → free true →
      let ready := ready (lanes.map (·.1))
      ends (lanes.foldl (fun (x : State) l => x.answerLane r' l.1 []) (ready.placeWrite pl 64 (eswSum (ready.placeRead pl 64) (lanes.map (·.2)))))) ∧
    (∀ (bf16 clr : Bool) (lanes : List (Nat × Reg)), r.kind = .excvt uo order scope bf16 clr pl lanes → free clr →
      ends (lanes.foldl (fun (x : State) l =>
        let code := toFF (if bf16 then .bf16 else .f32) .rne false (eswValue (x.placeRead pl 64))
        (if clr then x.placeWrite pl 64 0 else x).answerLane r' l.1 [(.v l.2, BitVec.ofNat 32 code)]) (ready (lanes.map (·.1))))) ∧
    (∀ k a write, r.kind.place? = some (.vault k a, write) →
      Happens (.atomicRequestAtHome id) s ((s.bunchOf r).foldl (fun (x : State) j => x.performReq j) s)) ∧
    (∀ pa write, r.kind.place? = some (.mem pa, write) → s.mayBegin id r = true →
      let l := pa / 128
      (begun.atPart id = true → Happens (.atomicRequestAtHome id) s (begun.serveAtom id l)) ∧
      (∀ o a, begun.atPart id = false → begun.trackedBy r (.mem pa) = some (o, a) → Happens (.atomicRequestAtHome id) s
        ((begun.partQueue o ⟨.atom id, agentOf (homeKey a) t.die t.core, t.die, t.core, a⟩).serveAtom id l)) ∧
      (begun.atPart id = false → begun.trackedBy r (.mem pa) = none → begun.hostBars l write = true →
        Happens (.atomicRequestAtHome id) s (begun.snoop l))) ∧
    (∀ die core lane, r.kind = .acqr uo die core lane →
      Happens (.acqrWriteback id) s ({ s.acqrDo t uo die core with reqs := fdel s.reqs id }.answerLane r lane [])) ∧
    (∀ pa cond c dl d o m lane, (s.fibre r.team r.grp lane).wait = some (.monitor pa cond c dl uo d o) → s.monOf r.team r.grp pa = some m →
      m.table = false → m.woken = true →
      let q := s.judgeMon (homeKey pa) m
      Happens (.monitorReread r.team r.grp lane) s ((q.1.modSlice (homeKey pa) (fun x =>
        let room := decide ((x.mons.filter (·.table)).length < 1024)
        { x with mons := x.mons.map (fun k => if k = m then { k with woken := false, table := room } else k) })).homeWrites q.2)) ∧
    (∀ pa cond c d o at_ lane, (s.fibre r.team r.grp lane).wait = some (.monitor pa cond c (some at_) uo d o) → at_ ≤ s.now →
      let seen := s.monitorRead t r.team r.grp none pa
      let done := fun (st : Word) => (seen.2.release r.team r.grp lane o [(.v d, st), (.v (d + 1), seen.1)]).tidyMon r.team r.grp pa
      Happens (.waitcTimeout r.team r.grp lane) s (if condHolds cond seen.1 c then (done 0).acquire t.key uo else done 1)) ∧
    (∀ die core line x evict, (s.core (coreKey die core)).line line = some x → x.obj = none →
      Happens (.homeStorePerformed die core line evict) s
        (if evict then s.evictLine (coreKey die core) line else s.pushLine (coreKey die core) line)) ∧
    (∀ die core line x j gen evict, (s.core (coreKey die core)).line line = some x → x.obj = some (j, gen) →
      Happens (.homeStorePerformed die core line evict) s
        (if evict = true ∧ line ∉ (s.core (coreKey die core)).pins then s.dropTracked (coreKey die core) j line
         else s.wbTracked (coreKey die core) j line)) ∧
    (∀ die core line j rq, s.nextEntry (coreKey die core) = some (j, line) → fget s.reqs j = some rq →
      let waiting := s.queued (homeKey (128 * line))
      waiting.length < 64 → Happens (.sliceRequestEnqueue die core) s
        ((s.countRead j rq).modSlice (homeKey (128 * line)) (fun z => { z with inq := s.enterQueue j waiting })))

/-- R295 to R307, R371: a lock request is decided at its line's home in its turn, a release passes the lock on, and a wait ends with its time-out or with a cycle that
its probe finds; absence and presence take effect as they arrive, and a deferred save goes on when its time is over. -/
def Obligations.LockEvents : Prop :=
  ∀ (s : State) (id line : Nat) (r : Req) (t : Team) (x : Machine.Group) (uo : Bool), s.Alive →
    s.team r.team = some t → s.group r.team r.grp = some x →
    let begun := s.beginReq id r
    let start : State := { begun with reqs := fdel begun.reqs id }
    let home := start.slice (homeKey (128 * line))
    let open_ := fun (step : Nat) => s.lockReady id r line step = true ∧ begun.hostBars line true = false
    (∀ (try_ : Bool) (page : LockPage) (timeout : Word) (lanes : List (Nat × Reg)), fget s.reqs id = some r →
      r.kind = .lock try_ uo line page timeout lanes → open_ 4 →
      let plain := ∀ o, start.lockObj t line page.trk = some o → start.protLocks o.2.pslot = true
      let results := fun (a : State) (st : Nat) => a.lockResult r.team r.grp st (lanes.map (fun l => (l.1, l.2, r.op)))
      let ends := fun (a : State) => Happens (.lockRequestAtHome id) s (a.lockDecided r line 4)
      ((∃ o, start.lockObj t line page.trk = some o ∧ start.protLocks o.2.pslot = false) → ends (results start 4)) ∧
      (plain → line ∈ x.held → ends (results start 6)) ∧
      (plain → line ∉ x.held → (8 ≤ x.held.length ∨ ∃ w, x.lwait = some w ∧ w.line ≠ line) → ends (results start 5)) ∧
      (plain → line ∉ x.held → x.held.length < 8 → x.lwait = none → home.lockOf line = none → home.freeLock = none →
        (try_ = true ∨ 256 ≤ home.fifo.length) → ends (results (start.modPart t.part (fun p => { p with nfull := sat16 p.nfull })) 7)) ∧
      (plain → line ∉ x.held → x.held.length < 8 → x.lwait = none → (home.lockOf line ≠ none ∨ home.freeLock ≠ none) →
        let there := if home.lockOf line = none then start.openLock line else start
        let e := (there.lockEntry line).getD ⟨line, false, none, []⟩
        (e.holder = none → (∀ g ∈ e.queue, there.grefAbsent g = true) →
          let taken := there.takeLock r.team r.grp line uo page
          ends (results taken.2 taken.1)) ∧
        (e.holder ≠ none ∨ (∃ g ∈ e.queue, there.grefAbsent g = false) →
          (try_ = true → ends (results there 2)) ∧
          (try_ = false →
            let dl := (start.part t.part).dlprobe.toNat
            let wait : LockWait := ⟨line, uo, page, lanes.map (fun l => (l.1, l.2, r.op)), false, false,
              (if timeout = 0xFFFFFFFF then none else some (1024 * (if timeout = 0 then (if t.kern.lktmo = 0 then 65536 else t.kern.lktmo) else timeout.toNat))),
              (if dl = 0 then none else some (1024 * dl)), 1024 * dl, []⟩
            ends ((lanes.foldl (fun (a : State) l => a.parkAtHome r.team r.grp l.1 .lock)
              (there.modGroup r.team r.grp (fun y => { y with lwait := some wait }))).enqueue x.gref line))))) ∧
    (∀ (page : LockPage) (lanes : List (Nat × Reg)), fget s.reqs id = some r → r.kind = .unlock uo line page lanes → open_ 1 →
      let results := fun (a : State) (st : Nat) => a.lockResult r.team r.grp st (lanes.map (fun l => (l.1, l.2, r.op)))
      Happens (.unlockAtHome id) s ((if line ∈ x.held then results (((start.pushAll t.key uo).pushAny t.key line).dropLock r.team r.grp line false) 0
        else results start 4).lockDecided r line 1)) ∧
    (∀ w, x.lwait = some w → w.key = [] → w.absent = false → w.left = some 0 → s.lockLate w.line 2 = false →
      Happens (.lockTimeout r.team r.grp) s ((((s.leaveQueue r.team r.grp).endWait r.team r.grp 2).tidyLock w.line).lockTurn w.line 2)) ∧
    (∀ w, x.lwait = some w → w.key = [] → s.nextProbe = some (r.team, r.grp, w.line) → (∀ y ∈ s.dueWaits (·.left), y.2.2 ≠ w.line) →
      s.lockLate w.line 3 = false →
      Happens (.deadlockProbe r.team r.grp) s (((s.lockProbe r.team r.grp).rearmProbe r.team r.grp).lockTurn w.line 3)) ∧
    (∀ w, x.lwait = some w → s.away t = true → w.absent = false → s.lockLate w.line 0 = false → Happens (.absenceArrive r.team r.grp) s
      ((s.modGroup r.team r.grp (fun y => { y with lwait := y.lwait.map (fun (w : LockWait) => { w with absent := true }) })).lockTurn w.line 0)) ∧
    (∀ w, x.lwait = some w → s.away t = false → w.absent = true → s.lockLate w.line 0 = false → Happens (.presenceArrive r.team r.grp) s
      (((s.modGroup r.team r.grp (fun y => { y with lwait := y.lwait.map (fun (v : LockWait) => { v with absent := false }) })).lockTurn w.line 0).waiterPresent
        r.team r.grp)) ∧
    (∀ since most, t.defer = some (since, most) → since + 1024 * most ≤ s.now →
      Happens (.lockholdMaxExpiry r.team) s (s.modTeam r.team (fun y => { y with defer := none })))

/-- R191, R203 to R223, R226, R332 to R336, R346 to R353: what the copy engine, the matrix engine, the chain between engines, the streams, the
collective engine and the commit of a deterministic grid do when they come to their next piece of work. -/
def Obligations.EngineEvents : Prop :=
  ∀ (s : State) (die core n id : Nat) (t u : Team) (c : Copy) (op : MatOp) (rest : List MatOp) (reg : Region) (msg : ChainMsg) (more : List ChainMsg)
    (sub : Sub) (st : Stream) (x : Ctx) (pas : List Leaf) (col : Coll) (cols : List Coll) (peers : List CollParams) (data : List PeerData)
    (task : Task) (gid q : Nat) (g : Grid), s.Alive →
    let k := coreKey die core
    let west := coreKey die (core - 1)
    let e := (s.core k).eng
    (fget (s.core k).copies id = some c → s.team c.team = some t →
      (∀ src dst size bar keep trk, c.kind = .acpy src dst size bar keep trk → (∀ pa, src = .mem pa → c.data = [] → s.engineSnoops [pa] false = none) →
        let m := min n (size / 4 - c.done)
        0 < m → s.bankLate [1] k bar = false →
        let landed := (List.range m).foldl (fun (r : State) i =>
          let at_ := 4 * (c.done + i)
          let got := c.bytesOr at_ 4 (r.sourceRead t.ctx t.die trk src at_ 4) r
          got.2.writeKept k (dst + at_) got.1 (keep.drop at_)) s
        Happens (.sluiceSectorLand die core id n) s
          (((landed.tbarDo k bar (fun b => b.pledge (-(m : Int)))).bankTake [1] k bar).copyAt k id c (c.done + m) (size / 4))) ∧
      (∀ shape base bytes dst mask bar m, c.kind = .mcpy shape base bytes dst mask bar → c.paused = none → n ≠ 0 →
        (∀ x ∈ maskMembers mask, s.memberAway t x = false) → (∀ y ∈ s.copyMembers t mask, s.bankLate [1] y.key (y.dataBase + bar) = false) →
        let known := c.data.length / 4 - c.done
        let want := min n (bytes / 4 - c.done)
        (if 0 < known then m = min known want ∧ pas = []
         else m = max 1 (s.tileReady (some k) t.die (s.ctxOf t) (shapeOf shape) base c.done want) ∧
           s.tilePas (some k) t.die (s.ctxOf t) (shapeOf shape) base (4 * c.done) (4 * m) = .ok pas) →
        s.engineSnoops (pas.map (·.pa)) false = none →
        let got := c.bytesOr (4 * c.done) (4 * m) (s.enginePas t.ctx t.die pas) s
        Happens (.sluiceSectorLand die core id n) s (((s.copyMembers t mask).foldl (fun (r : State) y =>
          ((r.vaultWrite y.key (y.dataBase + dst + 4 * c.done) got.1).tbarDo y.key (y.dataBase + bar) (fun b => b.pledge (-(m : Int)))).bankTake
            [1] y.key (y.dataBase + bar)) got.2).copyAt k id c (c.done + m) (bytes / 4)))) ∧
    (e.queue = op :: rest → e.holder.bind s.region = some reg → op.paused = none →
      let i : Instr := .matrixOpComplete die core
      let ends := fun (r : State) => Happens i s (r.finishMat k op.ticket [0, 0, 0, 0])
      (∀ d ssh tile, op.kind = .mxm d ssh → s.tileFor k d = .ready tile →
        let h := d.share reg.clw reg.col reg.row
        (h.fromWest = true → e.inbox ≠ []) →
        let own := if h.readsA then s.ownA k reg d h else ([], [])
        let mine : ChainMsg := ⟨d.k, d.afmt, h.rows, d.cw, own.1, own.2⟩
        let msg := if h.fromWest then e.inbox.headD mine else mine
        let passed := s.modEng k (fun y => { y with
          inbox := if h.fromWest then y.inbox.drop 1 else y.inbox, outbox := if h.toEast then y.outbox ++ [msg] else y.outbox })
        let fed := if d.bsrc then passed.modEng k (fun y => y.eatTile (d.bloc % 64)) else passed
        let fits := msg.k = d.k ∧ msg.afmt = d.afmt ∧ msg.rows = h.rows ∧ msg.cw = d.cw
        (¬ fits → Happens i s (fed.abandonMat k op.ticket 1)) ∧
        (fits →
          let out := matRun d ssh h msg.data msg.scales (if h.readsB then s.ownB k reg d h tile else []) ((List.range h.cols).map (fun j =>
            if matMx d.bfmt then s.vaultRead k (reg.base + d.bsc + (h.col0 + j) * (d.k / 32)) (d.k / 32) else [])) (e.bank d.bank)
          Happens i s ((fed.modEng k (fun y => y.setBank d.bank out.1)).finishMat k op.ticket out.2))) ∧
      (∀ int b, op.kind = .zero int b → ends (s.modEng k (fun y => y.setBank b ⟨int, 0, []⟩))) ∧
      (∀ int b v, op.kind = .fill int b v → ends (s.modEng k (fun y => y.setBank b
        ⟨int, if int then v.signExtend 48 else BitVec.ofNat 48 (toFF .acc48 .rne false (FF.f32.value v.toNat)), []⟩))) ∧
      (∀ int b off, op.kind = .restore int b off → ends (s.modEng k (fun y => y.setBank b (bankOfImage int (s.vaultRead k (reg.base + off) 122880))))) ∧
      (∀ b d, op.kind = .store b d → d.glb = false →
        ends ((storeWrites d (e.bank b)).foldl (fun (a : State) w => a.vaultWrite k (reg.base + w.1) w.2) s)) ∧
      (∀ b d tid, op.kind = .store b d → d.glb = true → e.holder = some (.team tid) → s.team tid = some t →
        ∀ ps, s.writePas k t.die (s.ctxOf t) (storeWrites d (e.bank b)) = .ok ps → s.engineSnoops (ps.map (·.1.pa)) true = none →
          ends (s.engineBytes t.ctx t.die (fun _ => true) ps))) ∧
    (core % 8 ≠ 0 → s.holderTeam k = some t → s.holderTeam west = some u → (s.core west).eng.outbox = msg :: more →
      t.grid = u.grid → t.clusid = u.clusid → t.teamid = u.teamid + 1 →
      Happens (.causewayDataArrive die core) s ((s.modEng west (fun y => { y with outbox := y.outbox.drop 1 })).modEng k (fun y =>
        { y with inbox := y.inbox ++ [msg] }))) ∧
    (e.subs.find? (fun y => decide (y.stream = id)) = some sub → fget (s.die die).streams id = some st → sub.next < st.tiles →
      sub.tiles.length < sub.window → st.paused = none →
      (∀ b, st.buf.find? (fun y => decide (y.1 = sub.next)) = some b → Happens (.staitheTileDeliver die core id) s (s.deliver k id (st.tile b.2))) ∧
      (st.buf.find? (fun y => decide (y.1 = sub.next)) = none → fget s.ctxs st.ctx = some x →
        s.tilePas none die x (shapeOf st.shape) ((st.base : Int) + sub.next * st.tstride) 0 (shapeOf st.shape).bytes = .ok pas →
        s.engineSnoops (pas.map (·.pa)) false = none →
        let r := s.enginePas st.ctx die pas
        let kept : Stream := { st with buf := keepTiles st.replay (st.buf ++ [(sub.next, r.1)]) }
        Happens (.staitheTileDeliver die core id) s ((r.2.modDie die (fun d => { d with streams := fset d.streams id kept })).deliver k id (st.tile r.1)))) ∧
    ((s.die die).colls = col :: cols → fget s.ctxs col.ctx = some x → col.paused = none →
      (∀ ps, col.started = false → col.failed = none → col.ends = [] → s.xlateRun none die x col.map (4 * col.nranks) .read = .ok ps →
        let map := s.readRuns col.ctx die ps
        let ends := (List.range col.nranks).map (fun i => leNat ((map.1.drop (4 * i)).take 4))
        let known := map.2.setHead die (fun y => { y with ends := ends })
        let mine : Coll := { col with ends := ends }
        let meets := fun (ok : Bool) (y : Coll) => if ok then { y with started := true } else { y with failed := some 1 }
        let same := peers.all (fun p => decide (CollParams.norm p = mine.params))
        ((∃ e ∈ ends, s.endBad e = true) → Happens (.collectiveStart die peers) s (known.setHead die (fun y => { y with failed := some 2 }))) ∧
        ((∀ e ∈ ends, s.endBad e = false) → peers.length = (known.farRanks die mine).length →
          (known.mateRank die mine = none → Happens (.collectiveStart die peers) s (known.setHead die (meets same))) ∧
          (∀ m, known.mateRank die mine ≠ none → known.mate die mine = some m → m.started = false → m.failed = none → m.paused = none →
            let ok := same && decide (m.params = mine.params)
            Happens (.collectiveStart die peers) s ((known.setHead die (meets ok)).setHead (1 - die) (meets ok))))) ∧
      (∀ p mp, col.started = true → col.failed = none → s.collPages die x col = .ok p → s.matePages die col = some mp →
        (∀ i ∈ s.farRanks die col, ∃ y ∈ data, y.rank = i) →
        s.engineSnoops ((p.src ++ p.ssc ++ (match mp with | some y => y.2.src ++ y.2.ssc | none => [])).map (·.pa)) false = none →
        s.engineSnoops ((p.dst ++ p.dsc ++ p.cpl).map (·.pa)) true = none →
        let near := s.mateData die col mp
        let r := near.2.collBytes die col p (near.1 ++ data)
        let done := ((r.2.2.2.writeRuns col.ctx die p.dst r.1).writeRuns col.ctx die p.dsc r.2.1).writeRuns col.ctx die p.cpl (leBytes 8 col.desc.seq.toNat)
        Happens (.collectiveComplete die .ok data) s
          ((match mp with | some _ => done.setHead (1 - die) (fun m => { m with got := some r.2.2.1 }) | none => done).dropColl die)) ∧
      (∀ p, col.started = true → col.failed = none → s.farRanks die col ≠ [] → s.collPages die x col = .ok p →
        let r := s.collBytes die col p (col.got.toList ++ data)
        Happens (.collectiveComplete die .link data) s
          (((r.2.2.2.writeSome col.ctx die p.dst r.1).writeSome col.ctx die p.dsc r.2.1).failColl die 2 col (s.cplPages die x col))) ∧
      (∀ n p, col.started = false → col.failed = some n → s.collPages die x col = .ok p →
        Happens (.collectiveComplete die .ok data) s (s.failColl die n col (s.cplPages die x col)))) ∧
    (fget s.tasks id = some task → task.grid = some gid → fget s.grids gid = some g → g.kern.dx = some q →
      let goes := fun (a : State) =>
        let run := a.runDx gid (((fget a.grids gid).map (·.todo)).getD [])
        let b : State := { run.1 with grids := fmod run.1.grids gid (fun y => { y with todo := run.2 }) }
        if run.2 = [] then b.endCommit gid q else b
      let applied := (s.gridGroups gid).foldl (fun (a : State) y => a.applyGroup y) s
      let counted := (applied.gridTeams gid).foldl (fun (a : State) y => a.barSettleAll y.1) applied
      (g.applied = false → g.safe = false → s.gridStopped gid = true → s.engineSnoops (s.bufferLines gid) true = none → s.engineSnoops (s.copyPas gid) false = none →
        Happens (.quantumCommit id) s
          (goes { counted with grids := fmod counted.grids gid (fun y => { y with applied := true, todo := sortKey DxOp.key y.dxops }) })) ∧
      (g.applied = true → Happens (.quantumCommit id) s (goes s)))

/-- R309 to R328, R375: a part serves its next request by the event it raises; agents drop and write back their lines; the acknowledgements an entry
awaits complete it; messages of an earlier incarnation are dropped and counted; the host reads, owns, writes and answers snoops; and an idle
core enters retention and wakes. -/
def Obligations.ProtocolEvents : Prop :=
  ∀ (s : State) (die slice obj agent core line j : Nat) (rq : PReq) (inc : BitVec 8) (y : BitVec 32) (bytes : List Byte) (pa : Nat), s.Alive →
    let sk := sliceKey die slice
    let o := s.obj obj
    let lines := o.linesAt sk
    let k := coreKey die core
    (s.partNext sk obj = some (j, rq) →
      let served := if s.hostFits rq then s.partServe sk obj j rq else s.hostLru (rq.pa / 128)
      (s.reqEvent rq = 0 → Happens (.rd die slice obj) s served) ∧
      (s.reqEvent rq = 1 → Happens (.wr0 die slice obj) s served) ∧
      (s.reqEvent rq = 2 → Happens (.wr1 die slice obj) s served)) ∧
    (o.v = true → (∃ e ∈ (s.slice sk).hostdir, e.1 ∈ lines) →
      Happens (.evc die slice obj 73) s ((s.modSlice sk (fun z => { z with hostdir := z.hostdir.filter (fun e => !lines.contains e.1) })).partEvent sk obj 3
        ⟨.note 3, 73, 0, 0, 128 * lines.headD 0⟩)) ∧
    (o.v = true → agent ≠ 73 → s.agentCores sk agent = [k] →
      let gone := (s.core k).l1.filter (fun x => decide (x.obj = some (obj, o.gen)) && lines.contains x.line && !(s.core k).pins.contains x.line)
      Happens (.evc die slice obj agent) s (gone.foldl (fun (a : State) x => a.dropTracked k obj x.line) s)) ∧
    (∀ x, o.v = true → line ∈ lines → s.agentCores sk agent = [k] → (s.core k).line line = some x → x.obj = some (obj, o.gen) →
      Happens (.wb die slice obj agent line) s (s.wbTracked k obj line)) ∧
    ((∀ l ∈ lines, l ∉ s.snoops) → (s.objPart sk obj).second = some (y, rq) →
      let done := (s.setObjPart sk obj { s.objPart sk obj with second := none }).partFinish sk obj y.toNat rq
      (s.hostFits rq = true → Happens (.ack die slice obj) s (((done.modObjPart sk obj (fun p =>
        { p with state := field (done.protEntry (done.obj obj).pslot (done.objPart sk obj).state 5) 2 0 })).relServe sk obj).finishRelease obj)) ∧
      (s.hostFits rq = false → Happens (.ack die slice obj) s (s.hostLru (rq.pa / 128)))) ∧
    ((s.die die).incOf agent ≠ inc →
      Happens (.staleMessage die .ack agent inc) s (s.modDie die (fun d => { d with staleack := satWord d.staleack })) ∧
      Happens (.staleMessage die .writeBack agent inc) s (s.modDie die (fun d => { d with stalewb := satWord d.stalewb })) ∧
      Happens (.staleMessage die .other agent inc) s (s.modDie die (fun d => d))) ∧
    (s.mileskDown = false →
      (bytes ≠ [] → s.deviceMem pa bytes.length = true → Happens (.hostMemoryAccess (.write pa bytes)) s
        ((linesOf pa bytes.length).foldl (fun (a : State) l => a.hostLine (.write pa bytes) l) s)) ∧
      (0 < j → s.deviceMem pa j = true → Happens (.hostMemoryAccess (.read pa j)) s ((linesOf pa j).foldl (fun (a : State) l => a.hostLine (.read pa j) l) s)) ∧
      (s.deviceMem pa 1 = true → Happens (.hostMemoryAccess (.own pa)) s ((linesOf pa 1).foldl (fun (a : State) l => a.hostLine (.own pa) l) s))) ∧
    (line ∈ s.snoops →
      let hk := homeKey (128 * line)
      let own := (s.snooped.filter (fun x => decide (x.1 = line))).map (·.2)
      let answered := fun (left : List (Nat × Bool)) => State.modSlice { s with
          snoops := s.snoops.filter (fun l => decide (l ≠ line)), snooped := s.snooped.filter (fun x => decide (x.1 ≠ line)) } hk
        (fun z => { z with hostdir := z.hostdir.filter (fun e => decide (e.1 ≠ line)) ++ left })
      let written := (answered []).homeWrites [(128 * line, bytes) :: own]
      (s.objAny line = none →
        Happens (.bisnpResponse line none) s (answered []).retryWords ∧
        (bytes.length = 128 → s.hostExcl line = true → written.objAny line = none → Happens (.bisnpResponse line (some bytes)) s written.retryWords)) ∧
      (∀ x, s.objAny line = some (obj, x) →
        ((s.objPart hk obj).second = none → Happens (.bisnpResponse line none) s ((answered []).goneFrom hk obj 73 line).retryWords) ∧
        ((s.objPart hk obj).second = some (y, rq) → act y.toNat 7 = true → (s.objPart hk obj).shr.getLsbD 73 = true →
          Happens (.bisnpResponse line none) s ((answered [(line, false)]).goneFrom hk obj 73 line).retryWords))) ∧
    (bytes ≠ [] → s.present pa bytes.length = true → memKind pa = some .host → linesOf pa bytes.length = [line] →
      let c := chunkIn pa bytes line
      (s.objAny line = none → Happens (.hostLineWrite pa bytes) s (s.homeWrite c.1 c.2)) ∧
      (∀ x, s.objAny line = some (obj, x) → Happens (.hostLineWrite pa bytes) s (s.partQueue obj ⟨.hostOwn c.2, 73, 0, 0, c.1⟩))) ∧
    (core < 72 → (s.core k).asleep = false → s.coreBusy k = false → s.alwaysOn k = false → (s.core k).idle + 8192 ≤ s.now →
      Happens (.retentionEnter die core) s ((s.flushCore k).modCore k (fun c => { c with asleep := true, slog := [], sover := false, sall := false }))) ∧
    Happens (.retentionWake die core) s (s.wake k)

/-- R45 to R47, R53, R54, R57, R58, R242, R303, R327, R328, R389, R390, R399, R400: what writes to the registers do. -/
def Obligations.RegisterEvents : Prop :=
  ∀ (s : State) (q p die port agent off : Nat) (v : DWord) (c : Ctx), s.Alive → q < 256 → p < 8 → die < 2 → port < 18 →
    let x := s.queue q
    let prio := v.toNat / 256 % 32
    let part := v.toNat / 65536 % 8
    (part = x.part → x.en = false → x.qbase.toNat % 4096 = 0 → x.qcompa.toNat % 8 = 0 →
      let set_ := (s.modQueue q (fun y => { y with qerr := 0 })).setQueue q { x with qerr := 0, prio := prio }
      (set_.ctxRefuses q = true → Happens (.queueEnable q v) s (set_.setQueue q { x with qerr := 11, prio := prio })) ∧
      let on : Machine.Queue := { x with qerr := 0, prio := prio, en := true, held := false, walkFail := x.walkFail && x.last.isSome, qhead := if x.held then x.qhead else x.qbase }
      (set_.ctxRefuses q = false → Happens (.queueEnable q v) s ((set_.setQueue q on).useCtx x.qctx.toNat x.part))) ∧
    (part = x.part → x.en = false → x.qbase.toNat % 4096 ≠ 0 →
      Happens (.queueEnable q v) s (((s.modQueue q (fun y => { y with qerr := 0 })).setQueue q { x with qerr := 0, prio := prio }).setQueue q
        { x with qerr := 1, prio := prio })) ∧
    (part = x.part → Happens (.queueDisable q v) s
      (((s.setQueue q { x with prio := prio }).modQueue q (fun y => { y with
        en := false
        last := if y.en && (y.walkTag.isSome || y.walkFail) && y.last.isNone then some y.qhead else y.last })).tidyCtx x.qctx.toNat)) ∧
    (v.toNat % 128 = 0 → Happens (.qtailWrite q v) s (s.modQueue q (fun y => { y with qtail := v, ahead := 0 }))) ∧
    (v.toNat % 128 ≠ 0 → Happens (.qtailWrite q v) s (s.modQueue q (fun y => { y with qerr := 4 }))) ∧
    (fget s.ctxs x.qctx.toNat = some c → c.killed = none →
      Happens (.kill q) s (s.askKill ⟨x.qctx.toNat, 12, ⟨0, 0, 0, 0, 0⟩, []⟩)) ∧
    (s.commitCode p ≠ 0 → Happens (.commit p) s (s.modPart p (fun y => { y with cstat := s.commitCode p }))) ∧
    (s.commitCode p = 0 → Happens (.commit p) s (s.commitPart p)) ∧
    Happens (.oversubClear p) s (s.modPart p (fun y => { y with oversub := 0 })) ∧
    ((s.part p).stopped = true →
      let on := s.modPart p (fun y => { y with stopped := false })
      Happens (.resume p) s { on with teams := on.teams.map (fun (e : Nat × Team) =>
        if e.2.part = p && decide (e.2.status = .halted) then 
          (e.1, { e.2 with status := .resident, groups := e.2.groups.map (fun g => { g with readyAt := on.coreClock p }) }) else e) }) ∧
    ((∀ e ∈ s.tasks, e.2.part = p → e.2.state ≠ .entered) →
      Happens (.drain p) s (State.settleDrain ((s.discard []).modPart p (fun y => { y with drain := true })) p)) ∧
    Happens (.lkcntClear p) s (s.modPart p (fun y => { y with ndead := 0, norph := 0, nfull := 0, novfl := 0 })) ∧
    Happens (.staleCountersClear die) s (s.modDie die (fun y => { y with stalewb := 0, staleack := 0 })) ∧
    Happens (.errorCountersClear die) s (s.modDie die (fun y => { y with uecnt := 0, cecnt := 0 })) ∧
    Happens (.replaysClear port) s { s with ports := fset s.ports port { s.port port with replays := 0, refused := 0 } } ∧
    (agent < 74 → Happens (.declare die agent) s (s.declareDead die agent 1)) ∧
    Happens (.linkReplayTimeout die agent) s (s.declareDead die agent 2) ∧
    Happens (.selfTestFail die agent) s (s.declareDead die agent 3) ∧
    (∀ n, s.declareDead die 73 n = (if (match fget (s.die die).dead 73 with | some at_ => decide (s.now < at_ + 1500000) | none => false) then s
      else (((((s.bumpInc die 73).loseHost 0).loseHost 1).deadAtParts 0 73).deadAtParts 1 73).irq 8 die 73)) ∧
    (off % 8 ≠ 0 → Happens (.registerWrite off 8 v) s s) ∧
    Happens (.registerWrite (0x400000 + 0x40 * q) 8 v) s (s.modQueue q (fun y =>
      if y.en then (if y.qbase = v then y else { y with qerr := 3 }) else { y with qbase := v, held := false })) ∧
    Happens (.registerWrite (0x480000 + 0x40 * q) 8 v) s (s.modQueue q (fun y =>
      if y.qctx = v then y else if y.en || s.queueBusy q then { y with qerr := 3 } else { y with qctx := v })) ∧
    Happens (.registerWrite (0x680000 + 0x40 * p) 8 v) s (s.modPart p (fun y => { y with dlprobe := v.hi, holdmax := v.lo })) ∧
    Happens (.registerWrite (0x600000 + 0x40 * die + 0x18) 8 v) s (s.modDie die (fun y => { y with fqrd := v.lo }))

/-- R52 to R56, R62 to R72, R231 to R245, R299, R300, R363 to R374: the walker enters records and follows links, tasks are distributed, placed, run and
retired, blocks are reclaimed and cleared, and teams are pre-empted, saved, restored and retired. -/
def Obligations.ScheduleEvents : Prop :=
  ∀ (s s1 s2 s3 s4 s5 : State) (q id die core block word : Nat) (c : Ctx) (x : Machine.Task) (t : Team), s.Alive →
    let y := s.queue q
    let k := coreKey die core
    (fget s.ctxs y.qctx.toNat = some c → s.walks q = true → q < 256 → y.slot ≠ 31 → s.tableUse (q / 128) < 4096 →
      let r := taskRec word
      (y.walkFail = true → Happens (.walkRecord q) s (s.badRecord q 9)) ∧
      (y.walkFail = false → s.walkRead q c y.at_.toNat 128 = .ok word s1 →
        ((r.type = 0 ∨ 6 ≤ r.type) → Happens (.walkRecord q) s (s1.badRecord q 5)) ∧
        (∀ tin tout kern comm, r.type ≠ 0 → r.type < 6 → r.bad = false → r.payloadBad = false →
          s1.readTiles q c (s.part y.part) r.ins = .ok tin s2 → s2.readTiles q c (s.part y.part) r.outs = .ok tout s3 →
          s3.readKernel q c y.part r = .ok kern s4 → s4.readComm q c (s.part y.part) r = .ok comm s5 →
          Happens (.walkRecord q) s (s5.enterTask q word r tin tout kern comm)))) ∧
    (fget s.ctxs y.qctx.toNat = some c → s.walks q = true → q < 256 → y.slot = 31 → y.walkFail = false →
      s.walkRead q c y.at_.toNat 128 = .ok word s1 →
      let next := word / 2 ^ 64 % 2 ^ 64
      (word % 16 = 15 → word / 16 % 2 ^ 60 = 0 → word / 2 ^ 128 % 2 ^ 896 = 0 → next % 4096 = 0 →
        Happens (.linkFollow q) s ((s1.modQueue q (fun z => z.passTo (BitVec.ofNat 64 next))).tidyCtx y.qctx.toNat)) ∧
      (1 ≤ word % 16 → word % 16 ≤ 5 → Happens (.linkFollow q) s (s1.badRecord q 7))) ∧
    (fget s.tasks id = some x → s.waitsEngine id x = true → s.distributedBefore id x = false →
      (x.type = 5 → Happens (.taskDistribute id) s (s.startTask id x none none)) ∧
      (∀ n, x.type = 3 → s.copyCore (Room.now id) x = some n →
        Happens (.taskDistribute id) s ((s.wake (coreKey x.die n)).startTask id x (some (coreKey x.die n)) none)) ∧
      (∀ n run0, x.type = 2 → x.mxmBad = false → s.mxmCore (Room.now id) x = some (n, run0) →
        let blocks := max 1 x.mxm.taskBlocks
        Happens (.taskDistribute id) s ((s.takeEngine id (coreKey x.die n) run0 blocks).startTask id x (some (coreKey x.die n)) (some (run0, blocks)))) ∧
      (x.type = 2 ∧ x.mxmBad = true ∨ x.type = 4 ∧ x.collTaskBad (s.part x.part).cmlen = true →
        Happens (.taskDistribute id) s (s.startTask id x none none)) ∧
      (x.type = 4 → x.collTaskBad (s.part x.part).cmlen = false → (s.die x.die).colls.length < 16 →
        Happens (.taskDistribute id) s ((s.startTask id x none none).modDie x.die (fun d => { d with colls := d.colls ++ [{ x.coll with task := some id }] })))) ∧
    (fget s.tasks id = some x → s.wantsPlace id x = true → s.claims x.die = [] → s.placedBefore id x = false →
      s.savedAhead x.part x.die (s.taskPrio x) = false →
      (∀ lent, s.tryPlace id x { Room.now id with ready := false } = some (s1, lent) →
        Happens (.clusterPlace id) s (if lent = [] then s1.unclaim id else s.claimBlocks id lent)) ∧
      (s.tryPlace id x { Room.now id with ready := false } = none → Happens (.clusterPlace id) s (s.unclaim id))) ∧
    (fget s.tasks id = some x → s.waitsEngine id x = true → s.needMet id x (Room.now id) = false →
      let going := (s.teams.filter (fun e => match e.2.status with | .saving .. => true | _ => false)).map (·.1)
      let met := fun (vs : List (List Nat)) => s.needMet id x ⟨id, going ++ vs.flatMap (fun v => v), true, false⟩
      ∀ vs, met [] = false → shortest met [] (s.candidates id x (s.taskPrio x)) = some vs →
        Happens (.preemptDecision id) s ((prune met vs).foldl (fun (a : State) v => v.foldl (fun (b : State) m => b.beginSave false false (some (s.decision id x)) m) a) s)) ∧
    (∀ b i, b ∈ (s.core k).blocks → b.2 = .reclaim i false →
      Happens (.reclaimComplete die core) s ((s.shrink k).modCore k (fun z => { z with blocks := z.blocks.map (fun (b : Nat × BlockState) =>
        (b.1, match b.2 with | .reclaim i _ => .reclaim i true | st => st)) }))) ∧
    (fget (s.core k).blocks block = some .clearing → Happens (.blockClearDone die core block) s
      (s.modCore k (fun z => { z with vault := memZero z.vault (32768 * block) 32768, blocks := fdel z.blocks block }))) ∧
    (fget s.tasks id = some x → x.state = .started →
      (s.runTask id x = .done s1 → Happens (.taskRetire id) s (s1.retireTask id x)) ∧
      (s.runTask id x = .wait s1 → Happens (.taskRetire id) s s1) ∧
      (s.runTask id x = .fault → Happens (.taskFault id) s (s.faultTask id))) ∧
    (s.team id = some t → t.status = .resident → t.kern.swapwait ≠ 0 → t.allBlocked = true → s.placementWaits t = true →
      ∀ since, t.blocked = some since → since + 1024 * t.kern.swapwait ≤ s.coreClock t.part →
      Happens (.swapwaitExpiry id) s ((s.savedWith (id, t)).foldl (fun (a : State) o => a.beginSave true false none o) s)) ∧
    (∀ swap stop, s.team id = some t → fget s.ctxs t.ctx = some c → t.status = .saving swap stop →
      (t.kern.dx = none ∨ ∃ g, fget s.grids t.grid = some g ∧ g.safe = true) → t.defer = none → s.drained id t = true →
      let units := (t.kern.image (decide ((s.core t.key).eng.holder = some (Holder.team id)))).units
      (c.poolRun units = none → Happens (.teamSave id) s (s.keepTeam id t)) ∧
      (∀ first, c.poolRun units = some first → s.rangeSnoops (c.savebase + 65536 * first) (65536 * units) true = none →
        Happens (.teamSave id) s (s.saveTeam id t c swap first))) ∧
    (∀ addr units check last run, s.team id = some t → t.status = .saved addr units check last → s.teamFits (Room.now id) t.key t.kern = some run →
      s.roomBack id t = true → s.placementFirst t = false → s.claims t.die = [] → s.rangeSnoops addr (65536 * units) false = none →
      let good := Config.saveCheck (65536 * units) (s.imageCells addr units) = check ∧ memNat s.mem (addr + 24) 8 = check.toNat
      (¬ good → Happens (.teamRestore id) s (s.askKill ⟨t.ctx, 10, t.who 0, leBytes 8 addr⟩)) ∧
      (good → s.engineBack id t = true → Happens (.teamRestore id) s (s.restoreTeam id t addr units run.1 run.2)) ∧
      (good → s.engineBack id t = false → Happens (.teamRestore id) s
        (s.modEng t.key (fun e => if e.reserved.isNone then { e with reserved := some id } else e)))) ∧
    (∀ addr units check last, s.team id = some t → t.status = .saved addr units check last → s.mayRestore id t = false →
      Happens (.teamRestore id) s (s.unreserve t.key id)) ∧
    (s.team id = some t → t.occupies = true → s.canRetire id t = true →
      let flushed := (List.range t.groups.length).foldl (fun (a : State) g => a.flushEvent id g) (s.flushCore t.key)
      let left := (flushed.orphanLocks id true).dropMonitors id
      let freed := if (left.core t.key).eng.holder = some (Holder.team id)
        then (left.freeEngine t.key).tidyStreams t.die ((left.core t.key).eng.subs.map (·.stream)) else left
      let ended := ((freed.clearRun t.key t.run0 t.kern.blocks).unclaim id).modTeam id (fun z =>
        { z with status := .retired, groups := [], bars := List.replicate 16 Barrier.reset })
      Happens (.teamRetire id) s ((ended.tidyCluster t.grid t.clusid).settleSafe t.grid))

/-- R59, R58, R379 to R397: reset, boot, attestation and loading; link training, replay, retirement and retraining; requests from other parts; power
steps, stops and the thermal trip; and the repair of memory, banks, ways and columns. What reset keeps of memory, and that it and the trip
clear what stands on the part, is log 23. -/
def Obligations.PartEvents : Prop :=
  ∀ (s : State) (dead : List (Nat × Nat × Nat)) (bytes : List Nat) (image file : List Byte) (plan : LoadPlan) (port width lane die core bank slice way : Nat)
    (link : Link) (loc : ErrLoc) (pa n ctx cdie : Nat) (trk : Bool) (reader : ErrReader) (data : List Byte) (celsius : Nat),
    (∃ r, exec (.reset dead bytes) s = .next r ∧ r.tripped = false ∧ r.now = 0 ∧ r.teams = [] ∧ r.boot = State.reset.boot ∧ r.deadSites = dead ∧
      (Memory.wf s.mem → ∀ a, memRead r.mem a = if offPart a then memRead s.mem a else 0) ∧
      ∀ i < 8, (r.cxlPort i).cap = min (bytes.getD i 0) 0x100000000000) ∧
    (s.Alive →
      let k := coreKey die core
      let img := (image ++ List.replicate s.boot.len.toNat 0).take s.boot.len.toNat
      let code := bootCheck img s.boot.len.toNat
      (s.boot.stat ≠ 1 → s.boot.stat ≠ 2 →
        (code ≠ 0 → Happens (.bootGo image) s { s with boot := { s.boot with stat := code } }) ∧
        (code = 0 → (∃ i < 4, (imgJudge (vendorImage img i)).1 ≠ 0 ∨ vendorImage img i ≠ shipped i) → Happens (.bootGo image) s { s with boot := { s.boot with stat := 7 } }) ∧
        (code = 0 → (∀ i < 4, (imgJudge (vendorImage img i)).1 = 0 ∧ vendorImage img i = shipped i) → Happens (.bootGo image) s { s with
          prots := (List.range 8).map (fun i => if i < 4 then some (shipped i) else s.prots.getD i none),
          boot := { s.boot with stat := 2, image := img }, attest := { s.attest with gen := 1 } })) ∧
      (s.attest.stat ≠ 1 →
        let done := fun (a : State) (st : Nat) => { a with attest := { a.attest with stat := st, nonce := List.replicate 8 0 } }
        Happens (.attestGo) s (if s.reportBad s.attest.rptaddr.toNat then done s 3
          else done (s.homeWrite s.attest.rptaddr.toNat (s.reportBody ++ rsaSign s.reportBody)) 2)) ∧
      (let c := s.blockCtx plan.ctxBlock
       let report := loaderReport file ((s.capList c.part).map (·.toNat))
       (report.1 ≠ 0 → Happens (.codeObjectLoad file plan) s { s with report := report }) ∧
       (∀ ws, report.1 = 0 →
         let ps := (entriesOf 24 (bytesOfType file 7)).foldl relocate (piecesOf file plan.base)
         (∀ p ∈ ps, p.va % pieceAlign file p = 0) → allSome (fun p => s.placesOf c p) ps = some ws →
         let loaded := (ws.flatMap (fun w => w)).foldl (fun (a : State) w => a.homeWrite w.1 w.2) { s with report := report }
         let new := presetsOf file plan.ctxBlock ps
         Happens (.codeObjectLoad file plan) s { loaded with
           presets := loaded.presets.filter (fun e => !(new.any (fun x => decide (x.1 = e.1) && decide (x.2.1 = e.2.1)))) ++ new,
           argmarks := loaded.argmarks.filter (fun e => !(decide (e.1 = plan.ctxBlock) && ps.any (fun p => decide (p.va ≤ e.2.1) &&
             decide (e.2.1 < p.va + p.bytes.length)))) ++ argMarks file plan.ctxBlock ps })) ∧
      (port < 18 → s.linkUp (.ualink port) = true →
        (∀ q, (LinkReq.span q).2.2 = false ∨ s.reqColl (LinkReq.span q).1 (LinkReq.span q).2.1 = none →
          Happens (.ualinkRequest port q) s { s with ports := fset s.ports port { s.port port with refused := sat16 (s.port port).refused } }) ∧
        (4 ≤ data.length → data.length ≤ 256 → data.length % 4 = 0 → pa % 4 = 0 → s.reqColl pa data.length = some (cdie, ctx, trk) →
          Happens (.ualinkRequest port (.write pa data)) s (s.engineWrite ctx cdie trk pa data)) ∧
        (4 ≤ n → n ≤ 256 → n % 4 = 0 → pa % 4 = 0 → s.reqColl pa n = some (cdie, ctx, trk) → Happens (.ualinkRequest port (.read pa n)) s (s.engineRead ctx cdie trk pa n).2) ∧
        (∀ op x cmp, n = 4 ∨ n = 8 → pa % n = 0 → (cmp ≠ none ∨ op = .add ∨ op = .swap) → s.reqColl pa n = some (cdie, ctx, trk) →
          let r := s.engineRead ctx cdie trk pa n
          let new := match cmp with
            | some c => if leNat r.1 = c % 256 ^ n then x else leNat r.1
            | none => if op = .swap then x else leNat r.1 + x
          Happens (.ualinkRequest port (.atomic pa n op x cmp)) s (r.2.engineWrite ctx cdie trk pa (leBytes n (new % 256 ^ n))))) ∧
      (port < 18 → (s.port port).width = 0 → width = 1 ∨ width = 2 ∨ width = 4 →
        let code := if width = 4 then 3 else width
        widthLanes code ≤ (s.port port).working →
        Happens (.linkTraining port width true) s { s with ports := fset s.ports port { s.port port with width := code } }) ∧
      (s.linkUp link = true → s.laneWorks link lane = true →
        let seen : State := { s with replays := s.replays.filter (fun r => decide (s.now < r.at_ + 1500000)) ++ [⟨link, lane, s.now⟩] }
        ((∀ p, link ≠ .ualink p) → Happens (.flitReplay link lane) s seen) ∧
        (∀ p, link = .ualink p → Happens (.flitReplay link lane) s
          { seen with ports := fset s.ports p { s.port p with replays := satWord (s.port p).replays } }) ∧
        (16 < (s.replays.filter (fun r => decide (r.link = link) && decide (r.lane = lane) && decide (s.now < r.at_ + 1500000))).length →
          let gone : State := { s with replays := s.replays.filter (fun r => !(decide (r.link = link) && decide (r.lane = lane))), retrain := s.retrain ++ [link] }
          Happens (.laneRetire link lane) s (State.pause (match link with
            | .ualink p => { gone with ports := fset s.ports p { s.port p with retired := (s.port p).retired + 2 ^ lane } }
            | .cxl p => { gone with cxl := fset s.cxl p { s.cxlPort p with retired := (s.cxlPort p).retired ++ [lane] } }
            | .milesk => { gone with milesk := s.milesk ++ [lane / 8] }) (Link.die link)))) ∧
      (link ∈ s.retrain →
        let left := s.retrain.filter (fun l => decide (l ≠ link))
        (∀ p, link = .ualink p → (s.port p).working ≠ 0 →
          Happens (.retrainDone link) s { s with retrain := left, ports := fset s.ports p { s.port p with width := max 1 ((s.port p).width - 1) } }) ∧
        (∀ p, link = .ualink p → (s.port p).working = 0 →
          Happens (.retrainDone link) s (State.linkLost { s with retrain := left, ports := fset s.ports p { s.port p with width := 0 } }
            (fun e => decide (e % 1024 ≠ (s.die 0).pkgid) && Config.portReaches p (e % 1024)))) ∧
        (∀ p, link = .cxl p →
          let x := s.cxlPort p
          let next : CxlPort := if 16 ≤ x.retired.length then { x with width := 0, down := true } else { x with width := max 1 (x.width / 2) }
          Happens (.retrainDone link) s { s with retrain := left, cxl := fset s.cxl p next }) ∧
        (link = .milesk → Happens (.retrainDone link) s { s with retrain := left, mileskDown := decide (5 ≤ s.milesk.length) })) ∧
      (s.stepDue = true →
        let slowed := (s.committed.filter (fun p => !descFixclk (s.desc p))).foldl (fun (a : State) p =>
          a.modPart p (fun x => { x with steps := min 12 (x.steps + 1) })) s
        let low := (s.committed.filter (fun p => !descFixclk (s.desc p))).all (fun p => decide (12 ≤ (slowed.part p).steps))
        Happens .throttleStep s { slowed with pwrStep := s.now, pwrFloor := if low then some (s.pwrFloor.getD s.now) else none } ∧
        Happens .unthrottleStep s { s.committed.foldl (fun (a : State) p => a.modPart p (fun x => { x with steps := x.steps - 1 })) s with
          pwrStep := s.now, pwrFloor := none, pwrQuiet := none }) ∧
      (∀ at_ p, s.pwrFloor = some at_ → at_ + 1500000 ≤ s.now →
        s.shedNext ((s.committed.filter (fun p => !(s.part p).stopped)).filter (fun p => descFixclk (s.desc p))) = some p →
        Happens .partitionStop s (s.stopPart p)) ∧
      (∃ r, exec (.thermalTrip celsius) s = .next r ∧ r.tripped = true ∧ r.teams = [] ∧ r.now = s.now ∧ r.irqs = (s.irq 9 0 celsius).irqs) ∧
      (Happens (.scrub die loc true none) s ((s.modDie die (fun d => { d with cecnt := satWord d.cecnt })).countCorrected loc) ∧
       Happens (.scrub die loc false none) s ((s.modDie die (fun d => { d with uecnt := satWord d.uecnt })).rasLog die) ∧
       Happens (.scrub die loc false (some reader)) s ((s.modDie die (fun d => { d with uecnt := satWord d.uecnt })).askKill
         ⟨reader.ctx, 8, s.errWho reader loc, leBytes 8 (ErrLoc.record loc).1 ++ leBytes 8 (ErrLoc.record loc).2.1.toNat⟩)) ∧
      (64 ≤ (fget (s.core k).corr bank).getD 0 → (s.core k).spares.length < 4 →
        Happens (.bankSpareCopy die core bank) s ((s.setCore k { s.core k with spares := (s.core k).spares ++ [bank], corr := fdel (s.core k).corr bank }).pause
          die)) ∧
      Happens (.l2WayReplace die slice way) s (s.modSlice (sliceKey die slice) (fun x => if x.spare.isNone then { x with spare := some way } else x)) ∧
      (∀ site, s.repair.find? (fun r => decide (r.1 = die) && decide (r.2.1 = core % 8) && decide (s.rowOf r.1 r.2.1 r.2.2 = core / 8)) = some site →
        let ts := s.teams.filter (fun e => s.underRepair e.2.key && decide (e.2.die = die) && decide (e.2.core % 8 = core % 8) && e.2.occupies)
        (ts = [] → Happens (.coreRepair die core) s
          (State.pause { s with repair := s.repair.filter (fun r => decide (r ≠ site)), deadSites := s.deadSites ++ [site] } die)) ∧
        (ts ≠ [] → Happens (.coreRepair die core) s
          (((ts.filter (fun e => decide (e.2.status = .resident) && e.2.full.isEmpty)).flatMap (fun e => s.savedWith e)).eraseDups.foldl
            (fun (a : State) m => a.beginSave false false (some (0, 0)) m) s))))

/-- R340: DXQ gives what its selector names, at once; a grid with DX = 0 has completed no commits. -/
def Obligations.GridQueries : Prop :=
  ∀ (s : State) (w : Who) (t : Team) (c : Ctl) (sel : BitVec 2) (d : Reg) (q : Nat) (g : Grid),
    Issues s (.dxq c sel d) w c t → s.performers w c ≠ [] → fget s.grids t.grid = some g →
    (t.kern.dx = none → Gives (.dxq c sel d) s w (s.answered (.dxq c sel d) (w.by (s.performers w c)) (s.performers w c) (fun _ =>
      [(.v d, 0)]))) ∧
    (t.kern.dx = some q → Gives (.dxq c sel d) s w (s.answered (.dxq c sel d) (w.by (s.performers w c)) (s.performers w c) (fun _ =>
      [(.v d, if sel = 0 then 1 else if sel = 1 then BitVec.ofNat 32 q else if sel = 2 then BitVec.ofNat 32 g.commits else BitVec.ofNat 32 (g.commits / 2 ^ 32))])))

/-- R83, R397: every instruction and every event has its effect, in every state: none stops the part, and no kill is left pending. A part that
has lost its power does nothing until it is reset. -/
def Obligations.EveryInstructionAnswers : Prop :=
  ∀ (s : State) (i : Instr) (d : Nat) (rest : List (Nat × Move)),
    (∃ r, exec i s = .next r ∧ (s.kills = [] → r.kills = [])) ∧
    (s.tripped = true → i.ctl = none → (∀ sites bytes, i ≠ .reset sites bytes) → exec i s = .next s) ∧
    (s.tripped = true → (∀ sites bytes, i ≠ .reset sites bytes) → s.agenda = (d, .event i) :: rest → step s = .next { s with agenda := rest })

/-- R78 to R83: every well-formed instruction is read back from its word with every operand; the decoder answers with well-formed instructions
alone; and a word of an unassigned opcode is none. -/
def Obligations.EncodingsAgree : Prop :=
  ∀ (i : Instr) (w : DWord),
    (i.wellFormed = true → encode i = some w → decodeWord w = .ok i) ∧
    (i.wellFormed = true → i.ctl ≠ none → ∃ x, encode i = some x) ∧
    (decodeWord w = .ok i → i.wellFormed = true ∧ i.ctl ≠ none) ∧
    (opcAssigned (bits w.toNat 56 8) = false → decodeWord w = .error .unassigned)

/-- Words of the spec's worked encodings, and what they stand for. -/
def Obligations.DecodesSpecWords : Prop :=
  decodeWord 0x0130E06020400000#64 = .ok (.iadd ⟨3, 0, false, 7⟩ .i32 false 3 1 2) ∧
  decodeWord 0x3300208060A0C000#64 = .ok (.ffma ⟨0, 0, false, 1⟩ .f32 .rne ⟨false, false, false, false, false, false⟩ 4 3 5 6) ∧
  decodeWord 0xE000E080C1000002#64 = .ok (.div64 ⟨0, 0, false, 7⟩ .i64 4 6 8) ∧
  decodeWord 0xAA04E08000000000#64 = .ok (.dxsync ⟨0, 2, false, 7⟩ 4) ∧
  decodeWord 0xA002E14040000000#64 = .ok (.mxm ⟨0, 1, false, 7⟩ 10 2 0)

/-- R83, R85, R103: the part issues the instruction that its bundle's next word stands for, once its sub-core picks it, after the clocks that its
distance asks, and then goes past it; a word that stands for none is ILLEGAL. An event set out is performed. What comes about in a clock of its own
comes first. That moves are set out, and that clocks pass before them, is the model's form of the machine's time (logs 2 and 40). -/
def Obligations.StepIssuesDecodedInstruction : Prop :=
  ∀ (s : State) (d id : Nat) (rest : List (Nat × Move)) (b : Bundle) (i : Instr) (m : Move),
    let a := { s with agenda := rest }
    let n := s.delay d m
    let p := if n = 0 then a else a.pass n
    let free := n = 0 ∨ (s.dueEvent = none ∧ s.upTo n = n)
    let f := { p with focus := some id }
    let word := b.words.getD b.idx 0
    let gs := groupsOf (p.activeOf b)
    s.tripped = false → s.agenda = (d, m) :: rest →
    (m = .issue id → free → fget p.bundles id = some b → p.picks id b = true →
      (decodeWord word = .ok i → step s = andAfter (exec i f) (fun t => t.afterIssue id gs word)) ∧
      (∀ e, decodeWord word = .error e → step s = .next ((f.badWord word).afterIssue id gs word))) ∧
    (m = .event i → free → step s = exec i p) ∧
    (0 < n → s.dueEvent = some i → step s = exec i s) ∧
    (0 < n → s.dueEvent = none → s.upTo n < n → step s = .next (State.pass { s with agenda := (d - s.upTo n, m) :: rest } (s.upTo n)))

/-- What the registers of the register space read after reset, where the spec gives it (R45, R46, R57, R181, R303, R311, R328, R389,
R392); nothing runs, and memory is in canonical form (log 3). -/
def Obligations.ResetState : Prop :=
  (∀ q < 256, State.reset.readReg (0x400000 + 0x40 * q + 0x20) 8 = 0x1F00 ∧
    (∀ off ∈ [0x00, 0x08, 0x10, 0x18, 0x28], State.reset.readReg (0x400000 + 0x40 * q + off) 8 = 0) ∧
    State.reset.readReg (0x480000 + 0x40 * q) 8 = 0) ∧
  (∀ p < 8, State.reset.readReg (0x680000 + 0x40 * p) 8 = 0x4000000010 ∧ State.reset.readReg (0x680000 + 0x40 * p + 8) 8 = 0 ∧
    State.reset.readReg (0x500000 + 0x80 * p + 0x48) 8 = 0 ∧ State.reset.readReg (0x780000 + 0x40 * p) 8 = 0) ∧
  (∀ die < 2, State.reset.readReg (0x600000 + 0x40 * die + 8) 8 = 0xC ∧ State.reset.readReg (0x700000 + 0x40 * die) 8 = 0 ∧
    State.reset.readReg (0x800000 + 0x40 * die) 8 = 0) ∧
  State.reset.readReg 0x10018 8 = 0 ∧
  (∀ die core, (State.reset.core (72 * die + core)).ecur = 0) ∧
  (∀ slice id, (State.reset.objPart slice id).owner = 127) ∧
  State.reset.tripped = false ∧ State.reset.teams = [] ∧ State.reset.bundles = [] ∧ State.reset.tasks = [] ∧ State.reset.memOk

/-- Every step keeps the memory of the part and every vault in canonical form. The form is the model's own choice (log 3). -/
def Obligations.MemoryStaysCanonical : Prop := ∀ (s s' : State), s.memOk → step s = .next s' → s'.memOk
end

