-- ==== Sys2Proof/Laws/Fibre.lean ====
section
/-!
SUPPORT. The registers of a fibre: reading what was written, in time and too early, and what a write leaves alone.
-/

namespace Sys2Proof.Machine

/-- A name that a write can reach: a register of the file, or a predicate other than P7. -/
def Fibre.holds (f : Fibre) : RName → Prop
  | .v r => r.toNat < f.regs.length
  | .p p => p ≠ 7#3

/-- The word a name holds after being set: a predicate holds only whether it is zero. -/
def RName.keep (x : RName) (v : Word) : Word :=
  match x with
  | .v _ => v
  | .p _ => if v != 0 then 1 else 0

theorem pred_bit (p : Pred) (hp : p ≠ 7#3) (pw : BitVec 7) (q : Pred) (v : Bool) :
    (if v then pw ||| ((1 : BitVec 7) <<< p.toNat) else pw &&& ~~~((1 : BitVec 7) <<< p.toNat)).getLsbD q.toNat
      = if p = q then v else pw.getLsbD q.toNat := by
  revert p hp pw q v; decide

theorem Fibre.cur_put (f : Fibre) (x y : RName) (v : Word) (h : f.holds x) :
    (f.put x v).cur y = if x = y then x.keep v else f.cur y := by
  cases x with
  | v r =>
    simp only [Fibre.holds] at h
    cases y with
    | v q =>
      simp only [Fibre.put, Fibre.cur, Fibre.reg, RName.v.injEq, RName.keep]
      by_cases hq : r = q
      · subst hq; simp [List.getD_eq_getElem?_getD, h]
      · have hne : r.toNat ≠ q.toNat := fun hc => hq (BitVec.eq_of_toNat_eq hc)
        simp [hq, List.getD_eq_getElem?_getD, hne]
    | p q => simp [Fibre.put, Fibre.cur, Fibre.pred]
  | p r =>
    simp only [Fibre.holds] at h
    cases y with
    | v q => simp [Fibre.put, h, Fibre.cur, Fibre.reg]
    | p q =>
      simp only [Fibre.put, h, if_false, Fibre.cur, Fibre.pred, RName.p.injEq, RName.keep]
      have := pred_bit r h f.pw q (v != 0)
      rw [this]
      by_cases hq : r = q
      · subst hq; simp [h]
      · simp [hq]

theorem Fibre.put_regs0 (f : Fibre) (x : RName) (v : Word) : (f.put x v).regs0 = f.regs0 := by
  unfold Fibre.put; split <;> (try split) <;> rfl

theorem Fibre.put_pw0 (f : Fibre) (x : RName) (v : Word) : (f.put x v).pw0 = f.pw0 := by
  unfold Fibre.put; split <;> (try split) <;> rfl

theorem Fibre.put_regs_length (f : Fibre) (x : RName) (v : Word) : (f.put x v).regs.length = f.regs.length := by
  unfold Fibre.put; split <;> (try split) <;> simp

theorem Fibre.put_wlog (f : Fibre) (x : RName) (v : Word) : (f.put x v).wlog = f.wlog := by
  unfold Fibre.put; split <;> (try split) <;> rfl

theorem Fibre.write_regs_length (f : Fibre) (pos lat : Nat) (w : RName × Word) : (f.write pos lat w).regs.length = f.regs.length := by
  simp [Fibre.write, Fibre.put_regs_length]

theorem Fibre.holds_write (f : Fibre) (pos lat : Nat) (w : RName × Word) (x : RName) : (f.write pos lat w).holds x ↔ f.holds x := by
  cases x <;> simp [Fibre.holds, Fibre.write_regs_length]

theorem Fibre.atStart_write (f : Fibre) (pos lat : Nat) (w : RName × Word) (x : RName) : (f.write pos lat w).atStart x = f.atStart x := by
  cases x <;> simp [Fibre.atStart, Fibre.write, Fibre.put_regs0, Fibre.put_pw0]

theorem Fibre.cur_of_put (f g : Fibre) (x : RName) (h : f.regs = g.regs) (h2 : f.pw = g.pw) : f.cur x = g.cur x := by
  cases x <;> simp [Fibre.cur, Fibre.reg, Fibre.pred, h, h2]

theorem Fibre.cur_write (f : Fibre) (pos lat : Nat) (x y : RName) (v : Word) : (f.write pos lat (x, v)).cur y = (f.put x v).cur y := by
  cases y <;> rfl

/-- R85, R90: a read at or past the latency returns the value written. -/
theorem Fibre.view_write_self (f : Fibre) (pos lat p : Nat) (x : RName) (v : Word) (h : f.holds x) (hp : pos + lat ≤ p) :
    (f.write pos lat (x, v)).view p x = x.keep v := by
  have hu : (f.write pos lat (x, v)).undersized p x = false := by
    simp only [Fibre.undersized, Fibre.lastWrite, Fibre.write, List.find?_cons, decide_true]
    simp only [WEntry.unfinished, decide_eq_false_iff_not]; omega
  simp only [Fibre.view, hu, Bool.false_eq_true, if_false]
  rw [Fibre.cur_write, Fibre.cur_put f x x v h, if_pos rfl]

/-- A write of one name does not change what a read of another returns. -/
theorem Fibre.view_write_other (f : Fibre) (pos lat p : Nat) (x y : RName) (v : Word) (h : f.holds x) (hxy : x ≠ y) :
    (f.write pos lat (x, v)).view p y = f.view p y := by
  have hl : (f.write pos lat (x, v)).wlog = ⟨x, pos, lat, v⟩ :: f.wlog := rfl
  have hu : (f.write pos lat (x, v)).undersized p y = f.undersized p y := by
    simp only [Fibre.undersized, Fibre.lastWrite, hl, List.find?_cons]
    simp [hxy]
  simp only [Fibre.view, hu, hl, Fibre.atStart_write]
  rw [Fibre.cur_write, Fibre.cur_put f x y v h, if_neg hxy]
  simp only [List.find?_cons]
  simp [hxy]

theorem Fibre.writeAll_regs_length (f : Fibre) (pos lat : Nat) (ws : List (RName × Word)) : (f.writeAll pos lat ws).regs.length = f.regs.length := by
  unfold Fibre.writeAll
  induction ws generalizing f with
  | nil => rfl
  | cons w ws ih => simp only [List.foldl_cons, ih, Fibre.write_regs_length]

theorem Fibre.holds_writeAll (f : Fibre) (pos lat : Nat) (ws : List (RName × Word)) (x : RName) : (f.writeAll pos lat ws).holds x ↔ f.holds x := by
  cases x <;> simp [Fibre.holds, Fibre.writeAll_regs_length]

/-- Names that no write of a list reaches keep what they return. -/
theorem Fibre.view_writeAll_other (f : Fibre) (pos lat p : Nat) (ws : List (RName × Word)) (y : RName)
    (h : ∀ e ∈ ws, f.holds e.1) (hy : ∀ e ∈ ws, e.1 ≠ y) : (f.writeAll pos lat ws).view p y = f.view p y := by
  unfold Fibre.writeAll
  induction ws generalizing f with
  | nil => rfl
  | cons w ws ih =>
    simp only [List.foldl_cons]
    rw [ih (f.write pos lat w) (fun e he => (Fibre.holds_write f pos lat w e.1).2 (h e (by simp [he]))) (fun e he => hy e (by simp [he]))]
    exact Fibre.view_write_other f pos lat p w.1 y w.2 (h w (by simp)) (hy w (by simp))

/-- Writes of distinct names: each returns its value once its latency has passed. -/
theorem Fibre.view_writeAll (f : Fibre) (pos lat p : Nat) (ws : List (RName × Word)) (h : ∀ e ∈ ws, f.holds e.1)
    (hd : (ws.map (·.1)).Nodup) (hp : pos + lat ≤ p) (e : RName × Word) (he : e ∈ ws) :
    (f.writeAll pos lat ws).view p e.1 = e.1.keep e.2 := by
  induction ws generalizing f with
  | nil => simp at he
  | cons w ws ih =>
    have hd' := List.nodup_cons.1 (by simpa using hd : (w.1 :: ws.map (·.1)).Nodup)
    have hh : ∀ e ∈ ws, (f.write pos lat w).holds e.1 := fun e he => (Fibre.holds_write f pos lat w e.1).2 (h e (by simp [he]))
    rcases List.mem_cons.1 he with rfl | he
    · have := Fibre.view_writeAll_other (f.write pos lat e) pos lat p ws e.1 hh (fun x hx hc => hd'.1 (by
        rw [← hc]; exact List.mem_map_of_mem hx))
      unfold Fibre.writeAll at this ⊢
      simp only [List.foldl_cons]
      rw [this]
      exact Fibre.view_write_self f pos lat p e.1 e.2 (h e (by simp)) hp
    · exact ih (f.write pos lat w) hh hd'.2 he

/-! ### The last write of a name -/

theorem lookup_append {α β : Type} [BEq α] (k : α) (xs ys : List (α × β)) : (xs ++ ys).lookup k = (xs.lookup k).or (ys.lookup k) := by
  induction xs with
  | nil => simp
  | cons x xs ih =>
    obtain ⟨a, b⟩ := x
    simp only [List.cons_append, List.lookup_cons]
    cases k == a <;> simp [ih]

/-- A write of P7 does not change what a read of another name returns. -/
theorem Fibre.view_write_p7 (f : Fibre) (pos lat p : Nat) (y : RName) (v : Word) (hy : y ≠ .p 7#3) :
    (f.write pos lat (.p 7#3, v)).view p y = f.view p y := by
  have hl : (f.write pos lat (.p 7#3, v)).wlog = ⟨.p 7#3, pos, lat, v⟩ :: f.wlog := rfl
  have hu : (f.write pos lat (.p 7#3, v)).undersized p y = f.undersized p y := by
    simp only [Fibre.undersized, Fibre.lastWrite, hl, List.find?_cons]
    simp [Ne.symm hy]
  have hc : (f.write pos lat (.p 7#3, v)).cur y = f.cur y := by
    rw [Fibre.cur_write]; simp [Fibre.put]
  simp only [Fibre.view, hu, hl, Fibre.atStart_write, hc, List.find?_cons]
  simp [Ne.symm hy]

/-- What a name returns after several writes: the last write of it, read in time; or what it returned, where none names it. -/
theorem Fibre.view_writeAll_lookup (f : Fibre) (pos lat p : Nat) (ws : List (RName × Word)) (h : ∀ e ∈ ws, f.holds e.1 ∨ e.1 = .p 7#3)
    (n : RName) (hn : n ≠ .p 7#3) :
    (∀ v, pos + lat ≤ p → ws.reverse.lookup n = some v → (f.writeAll pos lat ws).view p n = n.keep v) ∧
    (ws.reverse.lookup n = none → (f.writeAll pos lat ws).view p n = f.view p n) := by
  induction ws generalizing f with
  | nil => exact ⟨by intro v _ hv; simp at hv, fun _ => rfl⟩
  | cons w ws ih =>
    obtain ⟨m, x⟩ := w
    have h0 := h (m, x) (by simp)
    have hs : ∀ e ∈ ws, (f.write pos lat (m, x)).holds e.1 ∨ e.1 = .p 7#3 := fun e he =>
      (h e (by simp [he])).imp (Fibre.holds_write f pos lat (m, x) e.1).2 id
    obtain ⟨ih1, ih2⟩ := ih (f.write pos lat (m, x)) hs
    have hall : f.writeAll pos lat ((m, x) :: ws) = (f.write pos lat (m, x)).writeAll pos lat ws := rfl
    rw [hall]
    simp only [List.reverse_cons, lookup_append]
    cases hl : ws.reverse.lookup n with
    | some v =>
      refine ⟨fun u hp hu => ?_, fun hc => by simp at hc⟩
      simp only [Option.some_or, Option.some.injEq] at hu
      subst hu
      exact ih1 _ hp hl
    | none =>
      simp only [Option.none_or, List.lookup_cons, List.lookup_nil]
      rw [ih2 hl]
      by_cases hm : n = m
      · subst hm
        simp only [BEq.rfl]
        refine ⟨fun u hp hu => ?_, fun hc => by simp at hc⟩
        simp only [Option.some.injEq] at hu
        subst hu
        rcases h0 with h0 | h0
        · exact Fibre.view_write_self f pos lat p n x h0 hp
        · exact absurd h0 hn
      · have hb : (n == m) = false := by simpa using hm
        simp only [hb]
        refine ⟨fun u _ hu => by simp at hu, fun _ => ?_⟩
        rcases h0 with h0 | h0
        · exact Fibre.view_write_other f pos lat p m n x h0 (Ne.symm hm)
        · dsimp only at h0; subst h0; exact Fibre.view_write_p7 f pos lat p n x hn

end Sys2Proof.Machine
end

