-- ==== Sys2Proof/Laws/Memory.lean ====
section
/-!
SUPPORT. Memory: reading after writing, and that every memory operation keeps the canonical form.
-/

namespace Sys2Proof.Machine

theorem memRead_lt {m : Memory} (h : Memory.wf m) {a : Nat} (ha : ∀ c ∈ m, a < c.1) : memRead m a = 0 := by
  induction m with
  | nil => rfl
  | cons e m ih =>
    obtain ⟨k, v⟩ := e
    have hk : a < k := ha (k, v) (by simp)
    have hw : Memory.wf m := ⟨(List.pairwise_cons.1 h.1).2, fun c hc => h.2 c (by simp [hc])⟩
    simp only [memRead, if_neg (by omega : ¬ k = a)]
    exact ih hw (fun c hc => ha c (by simp [hc]))

theorem memWrite_keys {m : Memory} {a : Nat} {b : Byte} {c : Nat × Byte} (h : c ∈ memWrite m a b) : c = (a, b) ∧ b ≠ 0 ∨ c ∈ m := by
  induction m with
  | nil => unfold memWrite at h; split at h <;> simp_all
  | cons e m ih =>
    obtain ⟨k, v⟩ := e
    unfold memWrite at h
    split at h
    · split at h <;> simp_all
    · split at h
      · split at h <;> simp_all
        rcases h with h | h <;> simp_all
      · simp only [List.mem_cons] at h ⊢
        rcases h with h | h
        · simp [h]
        · rcases ih h with h | h
          · exact .inl h
          · simp [h]

/-- Writing a byte keeps the canonical form. -/
theorem memWrite_wf {m : Memory} (h : Memory.wf m) (a : Nat) (b : Byte) : Memory.wf (memWrite m a b) := by
  induction m with
  | nil =>
    unfold memWrite
    split
    · exact h
    · rename_i hb
      exact ⟨by simp, by simp_all⟩
  | cons e m ih =>
    obtain ⟨k, v⟩ := e
    have hw : Memory.wf m := ⟨(List.pairwise_cons.1 h.1).2, fun c hc => h.2 c (by simp [hc])⟩
    have hlt : ∀ c ∈ m, k < c.1 := (List.pairwise_cons.1 h.1).1
    have hv : v ≠ 0 := h.2 (k, v) (by simp)
    unfold memWrite
    split
    · rename_i hak
      split
      · exact h
      · rename_i hb
        refine ⟨List.pairwise_cons.2 ⟨?_, h.1⟩, ?_⟩
        · intro c hc
          rcases List.mem_cons.1 hc with rfl | hc
          · exact hak
          · exact Nat.lt_trans hak (hlt c hc)
        · intro c hc
          rcases List.mem_cons.1 hc with rfl | hc
          · exact hb
          · exact h.2 c hc
    · rename_i hak
      split
      · rename_i hk
        split
        · exact hw
        · rename_i hb
          refine ⟨List.pairwise_cons.2 ⟨?_, hw.1⟩, ?_⟩
          · intro c hc; have := hlt c hc; simp; omega
          · intro c hc
            rcases List.mem_cons.1 hc with rfl | hc
            · exact hb
            · exact hw.2 c hc
      · rename_i hk
        have := ih hw
        refine ⟨List.pairwise_cons.2 ⟨?_, this.1⟩, ?_⟩
        · intro c hc
          rcases memWrite_keys hc with ⟨rfl, _⟩ | hc
          · simp; omega
          · exact hlt c hc
        · intro c hc
          rcases List.mem_cons.1 hc with rfl | hc
          · exact hv
          · exact this.2 c hc

/-- A byte reads as the last value written to it; every other byte reads as before. -/
theorem memRead_memWrite {m : Memory} (h : Memory.wf m) (a x : Nat) (b : Byte) :
    memRead (memWrite m a b) x = if x = a then b else memRead m x := by
  induction m with
  | nil =>
    unfold memWrite
    split
    · simp_all [memRead]
    · simp only [memRead]; split <;> split <;> simp_all
  | cons e m ih =>
    obtain ⟨k, v⟩ := e
    have hw : Memory.wf m := ⟨(List.pairwise_cons.1 h.1).2, fun c hc => h.2 c (by simp [hc])⟩
    have hlt : ∀ c ∈ m, k < c.1 := (List.pairwise_cons.1 h.1).1
    unfold memWrite
    split
    · rename_i hak
      split
      · rename_i hb
        subst hb
        split
        · rename_i hx
          subst hx
          exact memRead_lt h (by
            intro c hc
            rcases List.mem_cons.1 hc with rfl | hc
            · exact hak
            · exact Nat.lt_trans hak (hlt c hc))
        · rfl
      · simp only [memRead]
        by_cases hx : x = a
        · simp [hx]
        · rw [if_neg (by omega : ¬ a = x), if_neg hx]
    · rename_i hak
      split
      · rename_i hk
        subst hk
        split
        · rename_i hb
          subst hb
          by_cases hx : x = k
          · subst hx; simp only [if_true]; exact memRead_lt hw hlt
          · simp only [memRead, if_neg hx, if_neg (by omega : ¬ k = x)]
        · simp only [memRead]
          by_cases hx : x = k
          · simp [hx]
          · rw [if_neg hx, if_neg (by omega), if_neg (by omega)]
      · rename_i hk
        simp only [memRead]
        by_cases hx : k = x
        · subst hx; simp [hk]
        · simp only [if_neg hx]; exact ih hw

/-- Writing several bytes keeps the canonical form. -/
theorem memWriteN_wf {m : Memory} (h : Memory.wf m) (a : Nat) (bs : List Byte) : Memory.wf (memWriteN m a bs) := by
  induction bs generalizing m a with
  | nil => exact h
  | cons b bs ih => exact ih (memWrite_wf h a b) (a + 1)

/-- Each byte of a run reads as the byte written there; bytes outside the run read as before. -/
theorem memRead_memWriteN {m : Memory} (h : Memory.wf m) (a x : Nat) (bs : List Byte) :
    memRead (memWriteN m a bs) x = if a ≤ x ∧ x < a + bs.length then bs.getD (x - a) 0 else memRead m x := by
  induction bs generalizing m a with
  | nil => simp only [memWriteN, List.length_nil]; rw [if_neg (by omega)]
  | cons b bs ih =>
    simp only [memWriteN, List.length_cons]
    rw [ih (memWrite_wf h a b), memRead_memWrite h]
    by_cases h1 : a + 1 ≤ x ∧ x < a + 1 + bs.length
    · rw [if_pos h1, if_pos (by omega)]
      have : x - a = (x - (a + 1)) + 1 := by omega
      rw [this]; simp
    · rw [if_neg h1]
      by_cases hx : x = a
      · subst hx; simp
      · rw [if_neg hx, if_neg (by omega)]

theorem memRead_memWriteN_outside {m : Memory} (h : Memory.wf m) (a x : Nat) (bs : List Byte) (hx : x < a ∨ a + bs.length ≤ x) :
    memRead (memWriteN m a bs) x = memRead m x := by
  rw [memRead_memWriteN h, if_neg (by omega)]

/-- Clearing a run keeps the canonical form. -/
theorem memZero_wf {m : Memory} (h : Memory.wf m) (a n : Nat) : Memory.wf (memZero m a n) :=
  ⟨h.1.sublist List.filter_sublist, fun c hc => h.2 c (List.mem_filter.1 hc).1⟩

/-- Clearing a run: its bytes read 0, the others as before. -/
theorem memRead_memZero (m : Memory) (a n x : Nat) : memRead (memZero m a n) x = if a ≤ x ∧ x < a + n then 0 else memRead m x := by
  induction m with
  | nil => simp [memZero, memRead]
  | cons e m ih =>
    obtain ⟨k, v⟩ := e
    simp only [memZero] at ih
    by_cases hk : k < a ∨ a + n ≤ k
    · rw [show memZero ((k, v) :: m) a n = (k, v) :: memZero m a n by simp [memZero, List.filter_cons]; omega]
      simp only [memRead, memZero, ih]
      by_cases hx : k = x
      · subst hx; rw [if_pos rfl, if_neg (by omega), if_pos rfl]
      · simp only [if_neg hx]
    · rw [show memZero ((k, v) :: m) a n = memZero m a n by simp [memZero, List.filter_cons]; omega]
      simp only [memRead, memZero, ih]
      by_cases hx : k = x
      · subst hx; rw [if_pos (by omega), if_pos (by omega)]
      · simp only [if_neg hx]

theorem memReadN_length (m : Memory) (a n : Nat) : (memReadN m a n).length = n := by simp [memReadN]

/-- The bytes just written are read back. -/
theorem memReadN_memWriteN {m : Memory} (h : Memory.wf m) (a : Nat) (bs : List Byte) : memReadN (memWriteN m a bs) a bs.length = bs := by
  apply List.ext_getElem
  · simp [memReadN]
  · intro i h1 h2
    simp only [memReadN, List.getElem_map, List.getElem_range]
    rw [memRead_memWriteN h, if_pos (by omega)]
    have : a + i - a = i := by omega
    rw [this, List.getD_eq_getElem?_getD, List.getElem?_eq_getElem h2]; rfl

/-- The byte order of R2: n bytes of a number below 256^n denote it. -/
theorem leNat_leBytes (n x : Nat) : leNat (leBytes n x) = x % 256 ^ n := by
  induction n generalizing x with
  | zero => simp [leBytes, leNat, Nat.mod_one]
  | succ n ih =>
    simp only [leBytes, leNat, ih, BitVec.toNat_ofNat]
    rw [show 256 ^ (n + 1) = 256 * 256 ^ n from Nat.pow_succ', Nat.mod_mul]

@[simp] theorem leBytes_length (n x : Nat) : (leBytes n x).length = n := by
  induction n generalizing x with
  | zero => rfl
  | succ n ih => simp [leBytes, ih]

end Sys2Proof.Machine
end

