-- ==== Sys2Proof/Laws/State.lean ====
section
/-!
SUPPORT. What each named update of the state leaves alone, field by field, and what it puts where it writes.
-/

namespace Sys2Proof.Machine

variable (s : State)

/-! ### setCore -/

@[simp] theorem State.setCore_now (k : Nat) (x : Core) : (s.setCore k x).now = s.now := rfl
@[simp] theorem State.setCore_agenda (k : Nat) (x : Core) : (s.setCore k x).agenda = s.agenda := rfl
@[simp] theorem State.setCore_focus (k : Nat) (x : Core) : (s.setCore k x).focus = s.focus := rfl
@[simp] theorem State.setCore_free (k : Nat) (x : Core) : (s.setCore k x).free = s.free := rfl
@[simp] theorem State.setCore_teams (k : Nat) (x : Core) : (s.setCore k x).teams = s.teams := rfl
@[simp] theorem State.setCore_grids (k : Nat) (x : Core) : (s.setCore k x).grids = s.grids := rfl
@[simp] theorem State.setCore_clusters (k : Nat) (x : Core) : (s.setCore k x).clusters = s.clusters := rfl
@[simp] theorem State.setCore_bundles (k : Nat) (x : Core) : (s.setCore k x).bundles = s.bundles := rfl
@[simp] theorem State.setCore_ops (k : Nat) (x : Core) : (s.setCore k x).ops = s.ops := rfl
@[simp] theorem State.setCore_reqs (k : Nat) (x : Core) : (s.setCore k x).reqs = s.reqs := rfl
@[simp] theorem State.setCore_serial (k : Nat) (x : Core) : (s.setCore k x).serial = s.serial := rfl
@[simp] theorem State.setCore_kills (k : Nat) (x : Core) : (s.setCore k x).kills = s.kills := rfl
@[simp] theorem State.setCore_slices (k : Nat) (x : Core) : (s.setCore k x).slices = s.slices := rfl
@[simp] theorem State.setCore_dies (k : Nat) (x : Core) : (s.setCore k x).dies = s.dies := rfl
@[simp] theorem State.setCore_parts (k : Nat) (x : Core) : (s.setCore k x).parts = s.parts := rfl
@[simp] theorem State.setCore_queues (k : Nat) (x : Core) : (s.setCore k x).queues = s.queues := rfl
@[simp] theorem State.setCore_ctxs (k : Nat) (x : Core) : (s.setCore k x).ctxs = s.ctxs := rfl
@[simp] theorem State.setCore_presets (k : Nat) (x : Core) : (s.setCore k x).presets = s.presets := rfl
@[simp] theorem State.setCore_argmarks (k : Nat) (x : Core) : (s.setCore k x).argmarks = s.argmarks := rfl
@[simp] theorem State.setCore_report (k : Nat) (x : Core) : (s.setCore k x).report = s.report := rfl
@[simp] theorem State.setCore_tasks (k : Nat) (x : Core) : (s.setCore k x).tasks = s.tasks := rfl
@[simp] theorem State.setCore_mem (k : Nat) (x : Core) : (s.setCore k x).mem = s.mem := rfl
@[simp] theorem State.setCore_objs (k : Nat) (x : Core) : (s.setCore k x).objs = s.objs := rfl
@[simp] theorem State.setCore_marks (k : Nat) (x : Core) : (s.setCore k x).marks = s.marks := rfl
@[simp] theorem State.setCore_snoops (k : Nat) (x : Core) : (s.setCore k x).snoops = s.snoops := rfl
@[simp] theorem State.setCore_snooped (k : Nat) (x : Core) : (s.setCore k x).snooped = s.snooped := rfl
@[simp] theorem State.setCore_prots (k : Nat) (x : Core) : (s.setCore k x).prots = s.prots := rfl
@[simp] theorem State.setCore_ports (k : Nat) (x : Core) : (s.setCore k x).ports = s.ports := rfl
@[simp] theorem State.setCore_cxl (k : Nat) (x : Core) : (s.setCore k x).cxl = s.cxl := rfl
@[simp] theorem State.setCore_milesk (k : Nat) (x : Core) : (s.setCore k x).milesk = s.milesk := rfl
@[simp] theorem State.setCore_mileskDown (k : Nat) (x : Core) : (s.setCore k x).mileskDown = s.mileskDown := rfl
@[simp] theorem State.setCore_replays (k : Nat) (x : Core) : (s.setCore k x).replays = s.replays := rfl
@[simp] theorem State.setCore_retrain (k : Nat) (x : Core) : (s.setCore k x).retrain = s.retrain := rfl
@[simp] theorem State.setCore_boot (k : Nat) (x : Core) : (s.setCore k x).boot = s.boot := rfl
@[simp] theorem State.setCore_attest (k : Nat) (x : Core) : (s.setCore k x).attest = s.attest := rfl
@[simp] theorem State.setCore_irqs (k : Nat) (x : Core) : (s.setCore k x).irqs = s.irqs := rfl
@[simp] theorem State.setCore_deadSites (k : Nat) (x : Core) : (s.setCore k x).deadSites = s.deadSites := rfl
@[simp] theorem State.setCore_repair (k : Nat) (x : Core) : (s.setCore k x).repair = s.repair := rfl
@[simp] theorem State.setCore_pwrStep (k : Nat) (x : Core) : (s.setCore k x).pwrStep = s.pwrStep := rfl
@[simp] theorem State.setCore_pwrFloor (k : Nat) (x : Core) : (s.setCore k x).pwrFloor = s.pwrFloor := rfl
@[simp] theorem State.setCore_pwrQuiet (k : Nat) (x : Core) : (s.setCore k x).pwrQuiet = s.pwrQuiet := rfl
@[simp] theorem State.setCore_tripped (k : Nat) (x : Core) : (s.setCore k x).tripped = s.tripped := rfl

/-! ### setSlice -/

@[simp] theorem State.setSlice_now (k : Nat) (x : Slice) : (s.setSlice k x).now = s.now := rfl
@[simp] theorem State.setSlice_agenda (k : Nat) (x : Slice) : (s.setSlice k x).agenda = s.agenda := rfl
@[simp] theorem State.setSlice_focus (k : Nat) (x : Slice) : (s.setSlice k x).focus = s.focus := rfl
@[simp] theorem State.setSlice_free (k : Nat) (x : Slice) : (s.setSlice k x).free = s.free := rfl
@[simp] theorem State.setSlice_teams (k : Nat) (x : Slice) : (s.setSlice k x).teams = s.teams := rfl
@[simp] theorem State.setSlice_grids (k : Nat) (x : Slice) : (s.setSlice k x).grids = s.grids := rfl
@[simp] theorem State.setSlice_clusters (k : Nat) (x : Slice) : (s.setSlice k x).clusters = s.clusters := rfl
@[simp] theorem State.setSlice_bundles (k : Nat) (x : Slice) : (s.setSlice k x).bundles = s.bundles := rfl
@[simp] theorem State.setSlice_ops (k : Nat) (x : Slice) : (s.setSlice k x).ops = s.ops := rfl
@[simp] theorem State.setSlice_reqs (k : Nat) (x : Slice) : (s.setSlice k x).reqs = s.reqs := rfl
@[simp] theorem State.setSlice_serial (k : Nat) (x : Slice) : (s.setSlice k x).serial = s.serial := rfl
@[simp] theorem State.setSlice_kills (k : Nat) (x : Slice) : (s.setSlice k x).kills = s.kills := rfl
@[simp] theorem State.setSlice_cores (k : Nat) (x : Slice) : (s.setSlice k x).cores = s.cores := rfl
@[simp] theorem State.setSlice_dies (k : Nat) (x : Slice) : (s.setSlice k x).dies = s.dies := rfl
@[simp] theorem State.setSlice_parts (k : Nat) (x : Slice) : (s.setSlice k x).parts = s.parts := rfl
@[simp] theorem State.setSlice_queues (k : Nat) (x : Slice) : (s.setSlice k x).queues = s.queues := rfl
@[simp] theorem State.setSlice_ctxs (k : Nat) (x : Slice) : (s.setSlice k x).ctxs = s.ctxs := rfl
@[simp] theorem State.setSlice_presets (k : Nat) (x : Slice) : (s.setSlice k x).presets = s.presets := rfl
@[simp] theorem State.setSlice_argmarks (k : Nat) (x : Slice) : (s.setSlice k x).argmarks = s.argmarks := rfl
@[simp] theorem State.setSlice_report (k : Nat) (x : Slice) : (s.setSlice k x).report = s.report := rfl
@[simp] theorem State.setSlice_tasks (k : Nat) (x : Slice) : (s.setSlice k x).tasks = s.tasks := rfl
@[simp] theorem State.setSlice_mem (k : Nat) (x : Slice) : (s.setSlice k x).mem = s.mem := rfl
@[simp] theorem State.setSlice_objs (k : Nat) (x : Slice) : (s.setSlice k x).objs = s.objs := rfl
@[simp] theorem State.setSlice_marks (k : Nat) (x : Slice) : (s.setSlice k x).marks = s.marks := rfl
@[simp] theorem State.setSlice_snoops (k : Nat) (x : Slice) : (s.setSlice k x).snoops = s.snoops := rfl
@[simp] theorem State.setSlice_snooped (k : Nat) (x : Slice) : (s.setSlice k x).snooped = s.snooped := rfl
@[simp] theorem State.setSlice_prots (k : Nat) (x : Slice) : (s.setSlice k x).prots = s.prots := rfl
@[simp] theorem State.setSlice_ports (k : Nat) (x : Slice) : (s.setSlice k x).ports = s.ports := rfl
@[simp] theorem State.setSlice_cxl (k : Nat) (x : Slice) : (s.setSlice k x).cxl = s.cxl := rfl
@[simp] theorem State.setSlice_milesk (k : Nat) (x : Slice) : (s.setSlice k x).milesk = s.milesk := rfl
@[simp] theorem State.setSlice_mileskDown (k : Nat) (x : Slice) : (s.setSlice k x).mileskDown = s.mileskDown := rfl
@[simp] theorem State.setSlice_replays (k : Nat) (x : Slice) : (s.setSlice k x).replays = s.replays := rfl
@[simp] theorem State.setSlice_retrain (k : Nat) (x : Slice) : (s.setSlice k x).retrain = s.retrain := rfl
@[simp] theorem State.setSlice_boot (k : Nat) (x : Slice) : (s.setSlice k x).boot = s.boot := rfl
@[simp] theorem State.setSlice_attest (k : Nat) (x : Slice) : (s.setSlice k x).attest = s.attest := rfl
@[simp] theorem State.setSlice_irqs (k : Nat) (x : Slice) : (s.setSlice k x).irqs = s.irqs := rfl
@[simp] theorem State.setSlice_deadSites (k : Nat) (x : Slice) : (s.setSlice k x).deadSites = s.deadSites := rfl
@[simp] theorem State.setSlice_repair (k : Nat) (x : Slice) : (s.setSlice k x).repair = s.repair := rfl
@[simp] theorem State.setSlice_pwrStep (k : Nat) (x : Slice) : (s.setSlice k x).pwrStep = s.pwrStep := rfl
@[simp] theorem State.setSlice_pwrFloor (k : Nat) (x : Slice) : (s.setSlice k x).pwrFloor = s.pwrFloor := rfl
@[simp] theorem State.setSlice_pwrQuiet (k : Nat) (x : Slice) : (s.setSlice k x).pwrQuiet = s.pwrQuiet := rfl
@[simp] theorem State.setSlice_tripped (k : Nat) (x : Slice) : (s.setSlice k x).tripped = s.tripped := rfl

/-! ### setDie -/

@[simp] theorem State.setDie_now (k : Nat) (x : Die) : (s.setDie k x).now = s.now := rfl
@[simp] theorem State.setDie_agenda (k : Nat) (x : Die) : (s.setDie k x).agenda = s.agenda := rfl
@[simp] theorem State.setDie_focus (k : Nat) (x : Die) : (s.setDie k x).focus = s.focus := rfl
@[simp] theorem State.setDie_free (k : Nat) (x : Die) : (s.setDie k x).free = s.free := rfl
@[simp] theorem State.setDie_teams (k : Nat) (x : Die) : (s.setDie k x).teams = s.teams := rfl
@[simp] theorem State.setDie_grids (k : Nat) (x : Die) : (s.setDie k x).grids = s.grids := rfl
@[simp] theorem State.setDie_clusters (k : Nat) (x : Die) : (s.setDie k x).clusters = s.clusters := rfl
@[simp] theorem State.setDie_bundles (k : Nat) (x : Die) : (s.setDie k x).bundles = s.bundles := rfl
@[simp] theorem State.setDie_ops (k : Nat) (x : Die) : (s.setDie k x).ops = s.ops := rfl
@[simp] theorem State.setDie_reqs (k : Nat) (x : Die) : (s.setDie k x).reqs = s.reqs := rfl
@[simp] theorem State.setDie_serial (k : Nat) (x : Die) : (s.setDie k x).serial = s.serial := rfl
@[simp] theorem State.setDie_kills (k : Nat) (x : Die) : (s.setDie k x).kills = s.kills := rfl
@[simp] theorem State.setDie_cores (k : Nat) (x : Die) : (s.setDie k x).cores = s.cores := rfl
@[simp] theorem State.setDie_slices (k : Nat) (x : Die) : (s.setDie k x).slices = s.slices := rfl
@[simp] theorem State.setDie_parts (k : Nat) (x : Die) : (s.setDie k x).parts = s.parts := rfl
@[simp] theorem State.setDie_queues (k : Nat) (x : Die) : (s.setDie k x).queues = s.queues := rfl
@[simp] theorem State.setDie_ctxs (k : Nat) (x : Die) : (s.setDie k x).ctxs = s.ctxs := rfl
@[simp] theorem State.setDie_presets (k : Nat) (x : Die) : (s.setDie k x).presets = s.presets := rfl
@[simp] theorem State.setDie_argmarks (k : Nat) (x : Die) : (s.setDie k x).argmarks = s.argmarks := rfl
@[simp] theorem State.setDie_report (k : Nat) (x : Die) : (s.setDie k x).report = s.report := rfl
@[simp] theorem State.setDie_tasks (k : Nat) (x : Die) : (s.setDie k x).tasks = s.tasks := rfl
@[simp] theorem State.setDie_mem (k : Nat) (x : Die) : (s.setDie k x).mem = s.mem := rfl
@[simp] theorem State.setDie_objs (k : Nat) (x : Die) : (s.setDie k x).objs = s.objs := rfl
@[simp] theorem State.setDie_marks (k : Nat) (x : Die) : (s.setDie k x).marks = s.marks := rfl
@[simp] theorem State.setDie_snoops (k : Nat) (x : Die) : (s.setDie k x).snoops = s.snoops := rfl
@[simp] theorem State.setDie_snooped (k : Nat) (x : Die) : (s.setDie k x).snooped = s.snooped := rfl
@[simp] theorem State.setDie_prots (k : Nat) (x : Die) : (s.setDie k x).prots = s.prots := rfl
@[simp] theorem State.setDie_ports (k : Nat) (x : Die) : (s.setDie k x).ports = s.ports := rfl
@[simp] theorem State.setDie_cxl (k : Nat) (x : Die) : (s.setDie k x).cxl = s.cxl := rfl
@[simp] theorem State.setDie_milesk (k : Nat) (x : Die) : (s.setDie k x).milesk = s.milesk := rfl
@[simp] theorem State.setDie_mileskDown (k : Nat) (x : Die) : (s.setDie k x).mileskDown = s.mileskDown := rfl
@[simp] theorem State.setDie_replays (k : Nat) (x : Die) : (s.setDie k x).replays = s.replays := rfl
@[simp] theorem State.setDie_retrain (k : Nat) (x : Die) : (s.setDie k x).retrain = s.retrain := rfl
@[simp] theorem State.setDie_boot (k : Nat) (x : Die) : (s.setDie k x).boot = s.boot := rfl
@[simp] theorem State.setDie_attest (k : Nat) (x : Die) : (s.setDie k x).attest = s.attest := rfl
@[simp] theorem State.setDie_irqs (k : Nat) (x : Die) : (s.setDie k x).irqs = s.irqs := rfl
@[simp] theorem State.setDie_deadSites (k : Nat) (x : Die) : (s.setDie k x).deadSites = s.deadSites := rfl
@[simp] theorem State.setDie_repair (k : Nat) (x : Die) : (s.setDie k x).repair = s.repair := rfl
@[simp] theorem State.setDie_pwrStep (k : Nat) (x : Die) : (s.setDie k x).pwrStep = s.pwrStep := rfl
@[simp] theorem State.setDie_pwrFloor (k : Nat) (x : Die) : (s.setDie k x).pwrFloor = s.pwrFloor := rfl
@[simp] theorem State.setDie_pwrQuiet (k : Nat) (x : Die) : (s.setDie k x).pwrQuiet = s.pwrQuiet := rfl
@[simp] theorem State.setDie_tripped (k : Nat) (x : Die) : (s.setDie k x).tripped = s.tripped := rfl

/-! ### setPart -/

@[simp] theorem State.setPart_now (k : Nat) (x : Partition) : (s.setPart k x).now = s.now := rfl
@[simp] theorem State.setPart_agenda (k : Nat) (x : Partition) : (s.setPart k x).agenda = s.agenda := rfl
@[simp] theorem State.setPart_focus (k : Nat) (x : Partition) : (s.setPart k x).focus = s.focus := rfl
@[simp] theorem State.setPart_free (k : Nat) (x : Partition) : (s.setPart k x).free = s.free := rfl
@[simp] theorem State.setPart_teams (k : Nat) (x : Partition) : (s.setPart k x).teams = s.teams := rfl
@[simp] theorem State.setPart_grids (k : Nat) (x : Partition) : (s.setPart k x).grids = s.grids := rfl
@[simp] theorem State.setPart_clusters (k : Nat) (x : Partition) : (s.setPart k x).clusters = s.clusters := rfl
@[simp] theorem State.setPart_bundles (k : Nat) (x : Partition) : (s.setPart k x).bundles = s.bundles := rfl
@[simp] theorem State.setPart_ops (k : Nat) (x : Partition) : (s.setPart k x).ops = s.ops := rfl
@[simp] theorem State.setPart_reqs (k : Nat) (x : Partition) : (s.setPart k x).reqs = s.reqs := rfl
@[simp] theorem State.setPart_serial (k : Nat) (x : Partition) : (s.setPart k x).serial = s.serial := rfl
@[simp] theorem State.setPart_kills (k : Nat) (x : Partition) : (s.setPart k x).kills = s.kills := rfl
@[simp] theorem State.setPart_cores (k : Nat) (x : Partition) : (s.setPart k x).cores = s.cores := rfl
@[simp] theorem State.setPart_slices (k : Nat) (x : Partition) : (s.setPart k x).slices = s.slices := rfl
@[simp] theorem State.setPart_dies (k : Nat) (x : Partition) : (s.setPart k x).dies = s.dies := rfl
@[simp] theorem State.setPart_queues (k : Nat) (x : Partition) : (s.setPart k x).queues = s.queues := rfl
@[simp] theorem State.setPart_ctxs (k : Nat) (x : Partition) : (s.setPart k x).ctxs = s.ctxs := rfl
@[simp] theorem State.setPart_presets (k : Nat) (x : Partition) : (s.setPart k x).presets = s.presets := rfl
@[simp] theorem State.setPart_argmarks (k : Nat) (x : Partition) : (s.setPart k x).argmarks = s.argmarks := rfl
@[simp] theorem State.setPart_report (k : Nat) (x : Partition) : (s.setPart k x).report = s.report := rfl
@[simp] theorem State.setPart_tasks (k : Nat) (x : Partition) : (s.setPart k x).tasks = s.tasks := rfl
@[simp] theorem State.setPart_mem (k : Nat) (x : Partition) : (s.setPart k x).mem = s.mem := rfl
@[simp] theorem State.setPart_objs (k : Nat) (x : Partition) : (s.setPart k x).objs = s.objs := rfl
@[simp] theorem State.setPart_marks (k : Nat) (x : Partition) : (s.setPart k x).marks = s.marks := rfl
@[simp] theorem State.setPart_snoops (k : Nat) (x : Partition) : (s.setPart k x).snoops = s.snoops := rfl
@[simp] theorem State.setPart_snooped (k : Nat) (x : Partition) : (s.setPart k x).snooped = s.snooped := rfl
@[simp] theorem State.setPart_prots (k : Nat) (x : Partition) : (s.setPart k x).prots = s.prots := rfl
@[simp] theorem State.setPart_ports (k : Nat) (x : Partition) : (s.setPart k x).ports = s.ports := rfl
@[simp] theorem State.setPart_cxl (k : Nat) (x : Partition) : (s.setPart k x).cxl = s.cxl := rfl
@[simp] theorem State.setPart_milesk (k : Nat) (x : Partition) : (s.setPart k x).milesk = s.milesk := rfl
@[simp] theorem State.setPart_mileskDown (k : Nat) (x : Partition) : (s.setPart k x).mileskDown = s.mileskDown := rfl
@[simp] theorem State.setPart_replays (k : Nat) (x : Partition) : (s.setPart k x).replays = s.replays := rfl
@[simp] theorem State.setPart_retrain (k : Nat) (x : Partition) : (s.setPart k x).retrain = s.retrain := rfl
@[simp] theorem State.setPart_boot (k : Nat) (x : Partition) : (s.setPart k x).boot = s.boot := rfl
@[simp] theorem State.setPart_attest (k : Nat) (x : Partition) : (s.setPart k x).attest = s.attest := rfl
@[simp] theorem State.setPart_irqs (k : Nat) (x : Partition) : (s.setPart k x).irqs = s.irqs := rfl
@[simp] theorem State.setPart_deadSites (k : Nat) (x : Partition) : (s.setPart k x).deadSites = s.deadSites := rfl
@[simp] theorem State.setPart_repair (k : Nat) (x : Partition) : (s.setPart k x).repair = s.repair := rfl
@[simp] theorem State.setPart_pwrStep (k : Nat) (x : Partition) : (s.setPart k x).pwrStep = s.pwrStep := rfl
@[simp] theorem State.setPart_pwrFloor (k : Nat) (x : Partition) : (s.setPart k x).pwrFloor = s.pwrFloor := rfl
@[simp] theorem State.setPart_pwrQuiet (k : Nat) (x : Partition) : (s.setPart k x).pwrQuiet = s.pwrQuiet := rfl
@[simp] theorem State.setPart_tripped (k : Nat) (x : Partition) : (s.setPart k x).tripped = s.tripped := rfl

/-! ### setQueue -/

@[simp] theorem State.setQueue_now (k : Nat) (x : Queue) : (s.setQueue k x).now = s.now := rfl
@[simp] theorem State.setQueue_agenda (k : Nat) (x : Queue) : (s.setQueue k x).agenda = s.agenda := rfl
@[simp] theorem State.setQueue_focus (k : Nat) (x : Queue) : (s.setQueue k x).focus = s.focus := rfl
@[simp] theorem State.setQueue_free (k : Nat) (x : Queue) : (s.setQueue k x).free = s.free := rfl
@[simp] theorem State.setQueue_teams (k : Nat) (x : Queue) : (s.setQueue k x).teams = s.teams := rfl
@[simp] theorem State.setQueue_grids (k : Nat) (x : Queue) : (s.setQueue k x).grids = s.grids := rfl
@[simp] theorem State.setQueue_clusters (k : Nat) (x : Queue) : (s.setQueue k x).clusters = s.clusters := rfl
@[simp] theorem State.setQueue_bundles (k : Nat) (x : Queue) : (s.setQueue k x).bundles = s.bundles := rfl
@[simp] theorem State.setQueue_ops (k : Nat) (x : Queue) : (s.setQueue k x).ops = s.ops := rfl
@[simp] theorem State.setQueue_reqs (k : Nat) (x : Queue) : (s.setQueue k x).reqs = s.reqs := rfl
@[simp] theorem State.setQueue_serial (k : Nat) (x : Queue) : (s.setQueue k x).serial = s.serial := rfl
@[simp] theorem State.setQueue_kills (k : Nat) (x : Queue) : (s.setQueue k x).kills = s.kills := rfl
@[simp] theorem State.setQueue_cores (k : Nat) (x : Queue) : (s.setQueue k x).cores = s.cores := rfl
@[simp] theorem State.setQueue_slices (k : Nat) (x : Queue) : (s.setQueue k x).slices = s.slices := rfl
@[simp] theorem State.setQueue_dies (k : Nat) (x : Queue) : (s.setQueue k x).dies = s.dies := rfl
@[simp] theorem State.setQueue_parts (k : Nat) (x : Queue) : (s.setQueue k x).parts = s.parts := rfl
@[simp] theorem State.setQueue_ctxs (k : Nat) (x : Queue) : (s.setQueue k x).ctxs = s.ctxs := rfl
@[simp] theorem State.setQueue_presets (k : Nat) (x : Queue) : (s.setQueue k x).presets = s.presets := rfl
@[simp] theorem State.setQueue_argmarks (k : Nat) (x : Queue) : (s.setQueue k x).argmarks = s.argmarks := rfl
@[simp] theorem State.setQueue_report (k : Nat) (x : Queue) : (s.setQueue k x).report = s.report := rfl
@[simp] theorem State.setQueue_tasks (k : Nat) (x : Queue) : (s.setQueue k x).tasks = s.tasks := rfl
@[simp] theorem State.setQueue_mem (k : Nat) (x : Queue) : (s.setQueue k x).mem = s.mem := rfl
@[simp] theorem State.setQueue_objs (k : Nat) (x : Queue) : (s.setQueue k x).objs = s.objs := rfl
@[simp] theorem State.setQueue_marks (k : Nat) (x : Queue) : (s.setQueue k x).marks = s.marks := rfl
@[simp] theorem State.setQueue_snoops (k : Nat) (x : Queue) : (s.setQueue k x).snoops = s.snoops := rfl
@[simp] theorem State.setQueue_snooped (k : Nat) (x : Queue) : (s.setQueue k x).snooped = s.snooped := rfl
@[simp] theorem State.setQueue_prots (k : Nat) (x : Queue) : (s.setQueue k x).prots = s.prots := rfl
@[simp] theorem State.setQueue_ports (k : Nat) (x : Queue) : (s.setQueue k x).ports = s.ports := rfl
@[simp] theorem State.setQueue_cxl (k : Nat) (x : Queue) : (s.setQueue k x).cxl = s.cxl := rfl
@[simp] theorem State.setQueue_milesk (k : Nat) (x : Queue) : (s.setQueue k x).milesk = s.milesk := rfl
@[simp] theorem State.setQueue_mileskDown (k : Nat) (x : Queue) : (s.setQueue k x).mileskDown = s.mileskDown := rfl
@[simp] theorem State.setQueue_replays (k : Nat) (x : Queue) : (s.setQueue k x).replays = s.replays := rfl
@[simp] theorem State.setQueue_retrain (k : Nat) (x : Queue) : (s.setQueue k x).retrain = s.retrain := rfl
@[simp] theorem State.setQueue_boot (k : Nat) (x : Queue) : (s.setQueue k x).boot = s.boot := rfl
@[simp] theorem State.setQueue_attest (k : Nat) (x : Queue) : (s.setQueue k x).attest = s.attest := rfl
@[simp] theorem State.setQueue_irqs (k : Nat) (x : Queue) : (s.setQueue k x).irqs = s.irqs := rfl
@[simp] theorem State.setQueue_deadSites (k : Nat) (x : Queue) : (s.setQueue k x).deadSites = s.deadSites := rfl
@[simp] theorem State.setQueue_repair (k : Nat) (x : Queue) : (s.setQueue k x).repair = s.repair := rfl
@[simp] theorem State.setQueue_pwrStep (k : Nat) (x : Queue) : (s.setQueue k x).pwrStep = s.pwrStep := rfl
@[simp] theorem State.setQueue_pwrFloor (k : Nat) (x : Queue) : (s.setQueue k x).pwrFloor = s.pwrFloor := rfl
@[simp] theorem State.setQueue_pwrQuiet (k : Nat) (x : Queue) : (s.setQueue k x).pwrQuiet = s.pwrQuiet := rfl
@[simp] theorem State.setQueue_tripped (k : Nat) (x : Queue) : (s.setQueue k x).tripped = s.tripped := rfl

/-! ### setObj -/

@[simp] theorem State.setObj_now (k : Nat) (x : Obj) : (s.setObj k x).now = s.now := rfl
@[simp] theorem State.setObj_agenda (k : Nat) (x : Obj) : (s.setObj k x).agenda = s.agenda := rfl
@[simp] theorem State.setObj_focus (k : Nat) (x : Obj) : (s.setObj k x).focus = s.focus := rfl
@[simp] theorem State.setObj_free (k : Nat) (x : Obj) : (s.setObj k x).free = s.free := rfl
@[simp] theorem State.setObj_teams (k : Nat) (x : Obj) : (s.setObj k x).teams = s.teams := rfl
@[simp] theorem State.setObj_grids (k : Nat) (x : Obj) : (s.setObj k x).grids = s.grids := rfl
@[simp] theorem State.setObj_clusters (k : Nat) (x : Obj) : (s.setObj k x).clusters = s.clusters := rfl
@[simp] theorem State.setObj_bundles (k : Nat) (x : Obj) : (s.setObj k x).bundles = s.bundles := rfl
@[simp] theorem State.setObj_ops (k : Nat) (x : Obj) : (s.setObj k x).ops = s.ops := rfl
@[simp] theorem State.setObj_reqs (k : Nat) (x : Obj) : (s.setObj k x).reqs = s.reqs := rfl
@[simp] theorem State.setObj_serial (k : Nat) (x : Obj) : (s.setObj k x).serial = s.serial := rfl
@[simp] theorem State.setObj_kills (k : Nat) (x : Obj) : (s.setObj k x).kills = s.kills := rfl
@[simp] theorem State.setObj_cores (k : Nat) (x : Obj) : (s.setObj k x).cores = s.cores := rfl
@[simp] theorem State.setObj_slices (k : Nat) (x : Obj) : (s.setObj k x).slices = s.slices := rfl
@[simp] theorem State.setObj_dies (k : Nat) (x : Obj) : (s.setObj k x).dies = s.dies := rfl
@[simp] theorem State.setObj_parts (k : Nat) (x : Obj) : (s.setObj k x).parts = s.parts := rfl
@[simp] theorem State.setObj_queues (k : Nat) (x : Obj) : (s.setObj k x).queues = s.queues := rfl
@[simp] theorem State.setObj_ctxs (k : Nat) (x : Obj) : (s.setObj k x).ctxs = s.ctxs := rfl
@[simp] theorem State.setObj_presets (k : Nat) (x : Obj) : (s.setObj k x).presets = s.presets := rfl
@[simp] theorem State.setObj_argmarks (k : Nat) (x : Obj) : (s.setObj k x).argmarks = s.argmarks := rfl
@[simp] theorem State.setObj_report (k : Nat) (x : Obj) : (s.setObj k x).report = s.report := rfl
@[simp] theorem State.setObj_tasks (k : Nat) (x : Obj) : (s.setObj k x).tasks = s.tasks := rfl
@[simp] theorem State.setObj_mem (k : Nat) (x : Obj) : (s.setObj k x).mem = s.mem := rfl
@[simp] theorem State.setObj_marks (k : Nat) (x : Obj) : (s.setObj k x).marks = s.marks := rfl
@[simp] theorem State.setObj_snoops (k : Nat) (x : Obj) : (s.setObj k x).snoops = s.snoops := rfl
@[simp] theorem State.setObj_snooped (k : Nat) (x : Obj) : (s.setObj k x).snooped = s.snooped := rfl
@[simp] theorem State.setObj_prots (k : Nat) (x : Obj) : (s.setObj k x).prots = s.prots := rfl
@[simp] theorem State.setObj_ports (k : Nat) (x : Obj) : (s.setObj k x).ports = s.ports := rfl
@[simp] theorem State.setObj_cxl (k : Nat) (x : Obj) : (s.setObj k x).cxl = s.cxl := rfl
@[simp] theorem State.setObj_milesk (k : Nat) (x : Obj) : (s.setObj k x).milesk = s.milesk := rfl
@[simp] theorem State.setObj_mileskDown (k : Nat) (x : Obj) : (s.setObj k x).mileskDown = s.mileskDown := rfl
@[simp] theorem State.setObj_replays (k : Nat) (x : Obj) : (s.setObj k x).replays = s.replays := rfl
@[simp] theorem State.setObj_retrain (k : Nat) (x : Obj) : (s.setObj k x).retrain = s.retrain := rfl
@[simp] theorem State.setObj_boot (k : Nat) (x : Obj) : (s.setObj k x).boot = s.boot := rfl
@[simp] theorem State.setObj_attest (k : Nat) (x : Obj) : (s.setObj k x).attest = s.attest := rfl
@[simp] theorem State.setObj_irqs (k : Nat) (x : Obj) : (s.setObj k x).irqs = s.irqs := rfl
@[simp] theorem State.setObj_deadSites (k : Nat) (x : Obj) : (s.setObj k x).deadSites = s.deadSites := rfl
@[simp] theorem State.setObj_repair (k : Nat) (x : Obj) : (s.setObj k x).repair = s.repair := rfl
@[simp] theorem State.setObj_pwrStep (k : Nat) (x : Obj) : (s.setObj k x).pwrStep = s.pwrStep := rfl
@[simp] theorem State.setObj_pwrFloor (k : Nat) (x : Obj) : (s.setObj k x).pwrFloor = s.pwrFloor := rfl
@[simp] theorem State.setObj_pwrQuiet (k : Nat) (x : Obj) : (s.setObj k x).pwrQuiet = s.pwrQuiet := rfl
@[simp] theorem State.setObj_tripped (k : Nat) (x : Obj) : (s.setObj k x).tripped = s.tripped := rfl

/-! ### modCore -/

@[simp] theorem State.modCore_now (k : Nat) (h : Core → Core) : (s.modCore k h).now = s.now := rfl
@[simp] theorem State.modCore_agenda (k : Nat) (h : Core → Core) : (s.modCore k h).agenda = s.agenda := rfl
@[simp] theorem State.modCore_focus (k : Nat) (h : Core → Core) : (s.modCore k h).focus = s.focus := rfl
@[simp] theorem State.modCore_free (k : Nat) (h : Core → Core) : (s.modCore k h).free = s.free := rfl
@[simp] theorem State.modCore_teams (k : Nat) (h : Core → Core) : (s.modCore k h).teams = s.teams := rfl
@[simp] theorem State.modCore_grids (k : Nat) (h : Core → Core) : (s.modCore k h).grids = s.grids := rfl
@[simp] theorem State.modCore_clusters (k : Nat) (h : Core → Core) : (s.modCore k h).clusters = s.clusters := rfl
@[simp] theorem State.modCore_bundles (k : Nat) (h : Core → Core) : (s.modCore k h).bundles = s.bundles := rfl
@[simp] theorem State.modCore_ops (k : Nat) (h : Core → Core) : (s.modCore k h).ops = s.ops := rfl
@[simp] theorem State.modCore_reqs (k : Nat) (h : Core → Core) : (s.modCore k h).reqs = s.reqs := rfl
@[simp] theorem State.modCore_serial (k : Nat) (h : Core → Core) : (s.modCore k h).serial = s.serial := rfl
@[simp] theorem State.modCore_kills (k : Nat) (h : Core → Core) : (s.modCore k h).kills = s.kills := rfl
@[simp] theorem State.modCore_slices (k : Nat) (h : Core → Core) : (s.modCore k h).slices = s.slices := rfl
@[simp] theorem State.modCore_dies (k : Nat) (h : Core → Core) : (s.modCore k h).dies = s.dies := rfl
@[simp] theorem State.modCore_parts (k : Nat) (h : Core → Core) : (s.modCore k h).parts = s.parts := rfl
@[simp] theorem State.modCore_queues (k : Nat) (h : Core → Core) : (s.modCore k h).queues = s.queues := rfl
@[simp] theorem State.modCore_ctxs (k : Nat) (h : Core → Core) : (s.modCore k h).ctxs = s.ctxs := rfl
@[simp] theorem State.modCore_presets (k : Nat) (h : Core → Core) : (s.modCore k h).presets = s.presets := rfl
@[simp] theorem State.modCore_argmarks (k : Nat) (h : Core → Core) : (s.modCore k h).argmarks = s.argmarks := rfl
@[simp] theorem State.modCore_report (k : Nat) (h : Core → Core) : (s.modCore k h).report = s.report := rfl
@[simp] theorem State.modCore_tasks (k : Nat) (h : Core → Core) : (s.modCore k h).tasks = s.tasks := rfl
@[simp] theorem State.modCore_mem (k : Nat) (h : Core → Core) : (s.modCore k h).mem = s.mem := rfl
@[simp] theorem State.modCore_objs (k : Nat) (h : Core → Core) : (s.modCore k h).objs = s.objs := rfl
@[simp] theorem State.modCore_marks (k : Nat) (h : Core → Core) : (s.modCore k h).marks = s.marks := rfl
@[simp] theorem State.modCore_snoops (k : Nat) (h : Core → Core) : (s.modCore k h).snoops = s.snoops := rfl
@[simp] theorem State.modCore_snooped (k : Nat) (h : Core → Core) : (s.modCore k h).snooped = s.snooped := rfl
@[simp] theorem State.modCore_prots (k : Nat) (h : Core → Core) : (s.modCore k h).prots = s.prots := rfl
@[simp] theorem State.modCore_ports (k : Nat) (h : Core → Core) : (s.modCore k h).ports = s.ports := rfl
@[simp] theorem State.modCore_cxl (k : Nat) (h : Core → Core) : (s.modCore k h).cxl = s.cxl := rfl
@[simp] theorem State.modCore_milesk (k : Nat) (h : Core → Core) : (s.modCore k h).milesk = s.milesk := rfl
@[simp] theorem State.modCore_mileskDown (k : Nat) (h : Core → Core) : (s.modCore k h).mileskDown = s.mileskDown := rfl
@[simp] theorem State.modCore_replays (k : Nat) (h : Core → Core) : (s.modCore k h).replays = s.replays := rfl
@[simp] theorem State.modCore_retrain (k : Nat) (h : Core → Core) : (s.modCore k h).retrain = s.retrain := rfl
@[simp] theorem State.modCore_boot (k : Nat) (h : Core → Core) : (s.modCore k h).boot = s.boot := rfl
@[simp] theorem State.modCore_attest (k : Nat) (h : Core → Core) : (s.modCore k h).attest = s.attest := rfl
@[simp] theorem State.modCore_irqs (k : Nat) (h : Core → Core) : (s.modCore k h).irqs = s.irqs := rfl
@[simp] theorem State.modCore_deadSites (k : Nat) (h : Core → Core) : (s.modCore k h).deadSites = s.deadSites := rfl
@[simp] theorem State.modCore_repair (k : Nat) (h : Core → Core) : (s.modCore k h).repair = s.repair := rfl
@[simp] theorem State.modCore_pwrStep (k : Nat) (h : Core → Core) : (s.modCore k h).pwrStep = s.pwrStep := rfl
@[simp] theorem State.modCore_pwrFloor (k : Nat) (h : Core → Core) : (s.modCore k h).pwrFloor = s.pwrFloor := rfl
@[simp] theorem State.modCore_pwrQuiet (k : Nat) (h : Core → Core) : (s.modCore k h).pwrQuiet = s.pwrQuiet := rfl
@[simp] theorem State.modCore_tripped (k : Nat) (h : Core → Core) : (s.modCore k h).tripped = s.tripped := rfl

/-! ### modSlice -/

@[simp] theorem State.modSlice_now (k : Nat) (h : Slice → Slice) : (s.modSlice k h).now = s.now := rfl
@[simp] theorem State.modSlice_agenda (k : Nat) (h : Slice → Slice) : (s.modSlice k h).agenda = s.agenda := rfl
@[simp] theorem State.modSlice_focus (k : Nat) (h : Slice → Slice) : (s.modSlice k h).focus = s.focus := rfl
@[simp] theorem State.modSlice_free (k : Nat) (h : Slice → Slice) : (s.modSlice k h).free = s.free := rfl
@[simp] theorem State.modSlice_teams (k : Nat) (h : Slice → Slice) : (s.modSlice k h).teams = s.teams := rfl
@[simp] theorem State.modSlice_grids (k : Nat) (h : Slice → Slice) : (s.modSlice k h).grids = s.grids := rfl
@[simp] theorem State.modSlice_clusters (k : Nat) (h : Slice → Slice) : (s.modSlice k h).clusters = s.clusters := rfl
@[simp] theorem State.modSlice_bundles (k : Nat) (h : Slice → Slice) : (s.modSlice k h).bundles = s.bundles := rfl
@[simp] theorem State.modSlice_ops (k : Nat) (h : Slice → Slice) : (s.modSlice k h).ops = s.ops := rfl
@[simp] theorem State.modSlice_reqs (k : Nat) (h : Slice → Slice) : (s.modSlice k h).reqs = s.reqs := rfl
@[simp] theorem State.modSlice_serial (k : Nat) (h : Slice → Slice) : (s.modSlice k h).serial = s.serial := rfl
@[simp] theorem State.modSlice_kills (k : Nat) (h : Slice → Slice) : (s.modSlice k h).kills = s.kills := rfl
@[simp] theorem State.modSlice_cores (k : Nat) (h : Slice → Slice) : (s.modSlice k h).cores = s.cores := rfl
@[simp] theorem State.modSlice_dies (k : Nat) (h : Slice → Slice) : (s.modSlice k h).dies = s.dies := rfl
@[simp] theorem State.modSlice_parts (k : Nat) (h : Slice → Slice) : (s.modSlice k h).parts = s.parts := rfl
@[simp] theorem State.modSlice_queues (k : Nat) (h : Slice → Slice) : (s.modSlice k h).queues = s.queues := rfl
@[simp] theorem State.modSlice_ctxs (k : Nat) (h : Slice → Slice) : (s.modSlice k h).ctxs = s.ctxs := rfl
@[simp] theorem State.modSlice_presets (k : Nat) (h : Slice → Slice) : (s.modSlice k h).presets = s.presets := rfl
@[simp] theorem State.modSlice_argmarks (k : Nat) (h : Slice → Slice) : (s.modSlice k h).argmarks = s.argmarks := rfl
@[simp] theorem State.modSlice_report (k : Nat) (h : Slice → Slice) : (s.modSlice k h).report = s.report := rfl
@[simp] theorem State.modSlice_tasks (k : Nat) (h : Slice → Slice) : (s.modSlice k h).tasks = s.tasks := rfl
@[simp] theorem State.modSlice_mem (k : Nat) (h : Slice → Slice) : (s.modSlice k h).mem = s.mem := rfl
@[simp] theorem State.modSlice_objs (k : Nat) (h : Slice → Slice) : (s.modSlice k h).objs = s.objs := rfl
@[simp] theorem State.modSlice_marks (k : Nat) (h : Slice → Slice) : (s.modSlice k h).marks = s.marks := rfl
@[simp] theorem State.modSlice_snoops (k : Nat) (h : Slice → Slice) : (s.modSlice k h).snoops = s.snoops := rfl
@[simp] theorem State.modSlice_snooped (k : Nat) (h : Slice → Slice) : (s.modSlice k h).snooped = s.snooped := rfl
@[simp] theorem State.modSlice_prots (k : Nat) (h : Slice → Slice) : (s.modSlice k h).prots = s.prots := rfl
@[simp] theorem State.modSlice_ports (k : Nat) (h : Slice → Slice) : (s.modSlice k h).ports = s.ports := rfl
@[simp] theorem State.modSlice_cxl (k : Nat) (h : Slice → Slice) : (s.modSlice k h).cxl = s.cxl := rfl
@[simp] theorem State.modSlice_milesk (k : Nat) (h : Slice → Slice) : (s.modSlice k h).milesk = s.milesk := rfl
@[simp] theorem State.modSlice_mileskDown (k : Nat) (h : Slice → Slice) : (s.modSlice k h).mileskDown = s.mileskDown := rfl
@[simp] theorem State.modSlice_replays (k : Nat) (h : Slice → Slice) : (s.modSlice k h).replays = s.replays := rfl
@[simp] theorem State.modSlice_retrain (k : Nat) (h : Slice → Slice) : (s.modSlice k h).retrain = s.retrain := rfl
@[simp] theorem State.modSlice_boot (k : Nat) (h : Slice → Slice) : (s.modSlice k h).boot = s.boot := rfl
@[simp] theorem State.modSlice_attest (k : Nat) (h : Slice → Slice) : (s.modSlice k h).attest = s.attest := rfl
@[simp] theorem State.modSlice_irqs (k : Nat) (h : Slice → Slice) : (s.modSlice k h).irqs = s.irqs := rfl
@[simp] theorem State.modSlice_deadSites (k : Nat) (h : Slice → Slice) : (s.modSlice k h).deadSites = s.deadSites := rfl
@[simp] theorem State.modSlice_repair (k : Nat) (h : Slice → Slice) : (s.modSlice k h).repair = s.repair := rfl
@[simp] theorem State.modSlice_pwrStep (k : Nat) (h : Slice → Slice) : (s.modSlice k h).pwrStep = s.pwrStep := rfl
@[simp] theorem State.modSlice_pwrFloor (k : Nat) (h : Slice → Slice) : (s.modSlice k h).pwrFloor = s.pwrFloor := rfl
@[simp] theorem State.modSlice_pwrQuiet (k : Nat) (h : Slice → Slice) : (s.modSlice k h).pwrQuiet = s.pwrQuiet := rfl
@[simp] theorem State.modSlice_tripped (k : Nat) (h : Slice → Slice) : (s.modSlice k h).tripped = s.tripped := rfl

/-! ### modDie -/

@[simp] theorem State.modDie_now (k : Nat) (h : Die → Die) : (s.modDie k h).now = s.now := rfl
@[simp] theorem State.modDie_agenda (k : Nat) (h : Die → Die) : (s.modDie k h).agenda = s.agenda := rfl
@[simp] theorem State.modDie_focus (k : Nat) (h : Die → Die) : (s.modDie k h).focus = s.focus := rfl
@[simp] theorem State.modDie_free (k : Nat) (h : Die → Die) : (s.modDie k h).free = s.free := rfl
@[simp] theorem State.modDie_teams (k : Nat) (h : Die → Die) : (s.modDie k h).teams = s.teams := rfl
@[simp] theorem State.modDie_grids (k : Nat) (h : Die → Die) : (s.modDie k h).grids = s.grids := rfl
@[simp] theorem State.modDie_clusters (k : Nat) (h : Die → Die) : (s.modDie k h).clusters = s.clusters := rfl
@[simp] theorem State.modDie_bundles (k : Nat) (h : Die → Die) : (s.modDie k h).bundles = s.bundles := rfl
@[simp] theorem State.modDie_ops (k : Nat) (h : Die → Die) : (s.modDie k h).ops = s.ops := rfl
@[simp] theorem State.modDie_reqs (k : Nat) (h : Die → Die) : (s.modDie k h).reqs = s.reqs := rfl
@[simp] theorem State.modDie_serial (k : Nat) (h : Die → Die) : (s.modDie k h).serial = s.serial := rfl
@[simp] theorem State.modDie_kills (k : Nat) (h : Die → Die) : (s.modDie k h).kills = s.kills := rfl
@[simp] theorem State.modDie_cores (k : Nat) (h : Die → Die) : (s.modDie k h).cores = s.cores := rfl
@[simp] theorem State.modDie_slices (k : Nat) (h : Die → Die) : (s.modDie k h).slices = s.slices := rfl
@[simp] theorem State.modDie_parts (k : Nat) (h : Die → Die) : (s.modDie k h).parts = s.parts := rfl
@[simp] theorem State.modDie_queues (k : Nat) (h : Die → Die) : (s.modDie k h).queues = s.queues := rfl
@[simp] theorem State.modDie_ctxs (k : Nat) (h : Die → Die) : (s.modDie k h).ctxs = s.ctxs := rfl
@[simp] theorem State.modDie_presets (k : Nat) (h : Die → Die) : (s.modDie k h).presets = s.presets := rfl
@[simp] theorem State.modDie_argmarks (k : Nat) (h : Die → Die) : (s.modDie k h).argmarks = s.argmarks := rfl
@[simp] theorem State.modDie_report (k : Nat) (h : Die → Die) : (s.modDie k h).report = s.report := rfl
@[simp] theorem State.modDie_tasks (k : Nat) (h : Die → Die) : (s.modDie k h).tasks = s.tasks := rfl
@[simp] theorem State.modDie_mem (k : Nat) (h : Die → Die) : (s.modDie k h).mem = s.mem := rfl
@[simp] theorem State.modDie_objs (k : Nat) (h : Die → Die) : (s.modDie k h).objs = s.objs := rfl
@[simp] theorem State.modDie_marks (k : Nat) (h : Die → Die) : (s.modDie k h).marks = s.marks := rfl
@[simp] theorem State.modDie_snoops (k : Nat) (h : Die → Die) : (s.modDie k h).snoops = s.snoops := rfl
@[simp] theorem State.modDie_snooped (k : Nat) (h : Die → Die) : (s.modDie k h).snooped = s.snooped := rfl
@[simp] theorem State.modDie_prots (k : Nat) (h : Die → Die) : (s.modDie k h).prots = s.prots := rfl
@[simp] theorem State.modDie_ports (k : Nat) (h : Die → Die) : (s.modDie k h).ports = s.ports := rfl
@[simp] theorem State.modDie_cxl (k : Nat) (h : Die → Die) : (s.modDie k h).cxl = s.cxl := rfl
@[simp] theorem State.modDie_milesk (k : Nat) (h : Die → Die) : (s.modDie k h).milesk = s.milesk := rfl
@[simp] theorem State.modDie_mileskDown (k : Nat) (h : Die → Die) : (s.modDie k h).mileskDown = s.mileskDown := rfl
@[simp] theorem State.modDie_replays (k : Nat) (h : Die → Die) : (s.modDie k h).replays = s.replays := rfl
@[simp] theorem State.modDie_retrain (k : Nat) (h : Die → Die) : (s.modDie k h).retrain = s.retrain := rfl
@[simp] theorem State.modDie_boot (k : Nat) (h : Die → Die) : (s.modDie k h).boot = s.boot := rfl
@[simp] theorem State.modDie_attest (k : Nat) (h : Die → Die) : (s.modDie k h).attest = s.attest := rfl
@[simp] theorem State.modDie_irqs (k : Nat) (h : Die → Die) : (s.modDie k h).irqs = s.irqs := rfl
@[simp] theorem State.modDie_deadSites (k : Nat) (h : Die → Die) : (s.modDie k h).deadSites = s.deadSites := rfl
@[simp] theorem State.modDie_repair (k : Nat) (h : Die → Die) : (s.modDie k h).repair = s.repair := rfl
@[simp] theorem State.modDie_pwrStep (k : Nat) (h : Die → Die) : (s.modDie k h).pwrStep = s.pwrStep := rfl
@[simp] theorem State.modDie_pwrFloor (k : Nat) (h : Die → Die) : (s.modDie k h).pwrFloor = s.pwrFloor := rfl
@[simp] theorem State.modDie_pwrQuiet (k : Nat) (h : Die → Die) : (s.modDie k h).pwrQuiet = s.pwrQuiet := rfl
@[simp] theorem State.modDie_tripped (k : Nat) (h : Die → Die) : (s.modDie k h).tripped = s.tripped := rfl

/-! ### modPart -/

@[simp] theorem State.modPart_now (k : Nat) (h : Partition → Partition) : (s.modPart k h).now = s.now := rfl
@[simp] theorem State.modPart_agenda (k : Nat) (h : Partition → Partition) : (s.modPart k h).agenda = s.agenda := rfl
@[simp] theorem State.modPart_focus (k : Nat) (h : Partition → Partition) : (s.modPart k h).focus = s.focus := rfl
@[simp] theorem State.modPart_free (k : Nat) (h : Partition → Partition) : (s.modPart k h).free = s.free := rfl
@[simp] theorem State.modPart_teams (k : Nat) (h : Partition → Partition) : (s.modPart k h).teams = s.teams := rfl
@[simp] theorem State.modPart_grids (k : Nat) (h : Partition → Partition) : (s.modPart k h).grids = s.grids := rfl
@[simp] theorem State.modPart_clusters (k : Nat) (h : Partition → Partition) : (s.modPart k h).clusters = s.clusters := rfl
@[simp] theorem State.modPart_bundles (k : Nat) (h : Partition → Partition) : (s.modPart k h).bundles = s.bundles := rfl
@[simp] theorem State.modPart_ops (k : Nat) (h : Partition → Partition) : (s.modPart k h).ops = s.ops := rfl
@[simp] theorem State.modPart_reqs (k : Nat) (h : Partition → Partition) : (s.modPart k h).reqs = s.reqs := rfl
@[simp] theorem State.modPart_serial (k : Nat) (h : Partition → Partition) : (s.modPart k h).serial = s.serial := rfl
@[simp] theorem State.modPart_kills (k : Nat) (h : Partition → Partition) : (s.modPart k h).kills = s.kills := rfl
@[simp] theorem State.modPart_cores (k : Nat) (h : Partition → Partition) : (s.modPart k h).cores = s.cores := rfl
@[simp] theorem State.modPart_slices (k : Nat) (h : Partition → Partition) : (s.modPart k h).slices = s.slices := rfl
@[simp] theorem State.modPart_dies (k : Nat) (h : Partition → Partition) : (s.modPart k h).dies = s.dies := rfl
@[simp] theorem State.modPart_queues (k : Nat) (h : Partition → Partition) : (s.modPart k h).queues = s.queues := rfl
@[simp] theorem State.modPart_ctxs (k : Nat) (h : Partition → Partition) : (s.modPart k h).ctxs = s.ctxs := rfl
@[simp] theorem State.modPart_presets (k : Nat) (h : Partition → Partition) : (s.modPart k h).presets = s.presets := rfl
@[simp] theorem State.modPart_argmarks (k : Nat) (h : Partition → Partition) : (s.modPart k h).argmarks = s.argmarks := rfl
@[simp] theorem State.modPart_report (k : Nat) (h : Partition → Partition) : (s.modPart k h).report = s.report := rfl
@[simp] theorem State.modPart_tasks (k : Nat) (h : Partition → Partition) : (s.modPart k h).tasks = s.tasks := rfl
@[simp] theorem State.modPart_mem (k : Nat) (h : Partition → Partition) : (s.modPart k h).mem = s.mem := rfl
@[simp] theorem State.modPart_objs (k : Nat) (h : Partition → Partition) : (s.modPart k h).objs = s.objs := rfl
@[simp] theorem State.modPart_marks (k : Nat) (h : Partition → Partition) : (s.modPart k h).marks = s.marks := rfl
@[simp] theorem State.modPart_snoops (k : Nat) (h : Partition → Partition) : (s.modPart k h).snoops = s.snoops := rfl
@[simp] theorem State.modPart_snooped (k : Nat) (h : Partition → Partition) : (s.modPart k h).snooped = s.snooped := rfl
@[simp] theorem State.modPart_prots (k : Nat) (h : Partition → Partition) : (s.modPart k h).prots = s.prots := rfl
@[simp] theorem State.modPart_ports (k : Nat) (h : Partition → Partition) : (s.modPart k h).ports = s.ports := rfl
@[simp] theorem State.modPart_cxl (k : Nat) (h : Partition → Partition) : (s.modPart k h).cxl = s.cxl := rfl
@[simp] theorem State.modPart_milesk (k : Nat) (h : Partition → Partition) : (s.modPart k h).milesk = s.milesk := rfl
@[simp] theorem State.modPart_mileskDown (k : Nat) (h : Partition → Partition) : (s.modPart k h).mileskDown = s.mileskDown := rfl
@[simp] theorem State.modPart_replays (k : Nat) (h : Partition → Partition) : (s.modPart k h).replays = s.replays := rfl
@[simp] theorem State.modPart_retrain (k : Nat) (h : Partition → Partition) : (s.modPart k h).retrain = s.retrain := rfl
@[simp] theorem State.modPart_boot (k : Nat) (h : Partition → Partition) : (s.modPart k h).boot = s.boot := rfl
@[simp] theorem State.modPart_attest (k : Nat) (h : Partition → Partition) : (s.modPart k h).attest = s.attest := rfl
@[simp] theorem State.modPart_irqs (k : Nat) (h : Partition → Partition) : (s.modPart k h).irqs = s.irqs := rfl
@[simp] theorem State.modPart_deadSites (k : Nat) (h : Partition → Partition) : (s.modPart k h).deadSites = s.deadSites := rfl
@[simp] theorem State.modPart_repair (k : Nat) (h : Partition → Partition) : (s.modPart k h).repair = s.repair := rfl
@[simp] theorem State.modPart_pwrStep (k : Nat) (h : Partition → Partition) : (s.modPart k h).pwrStep = s.pwrStep := rfl
@[simp] theorem State.modPart_pwrFloor (k : Nat) (h : Partition → Partition) : (s.modPart k h).pwrFloor = s.pwrFloor := rfl
@[simp] theorem State.modPart_pwrQuiet (k : Nat) (h : Partition → Partition) : (s.modPart k h).pwrQuiet = s.pwrQuiet := rfl
@[simp] theorem State.modPart_tripped (k : Nat) (h : Partition → Partition) : (s.modPart k h).tripped = s.tripped := rfl

/-! ### modQueue -/

@[simp] theorem State.modQueue_now (k : Nat) (h : Queue → Queue) : (s.modQueue k h).now = s.now := rfl
@[simp] theorem State.modQueue_agenda (k : Nat) (h : Queue → Queue) : (s.modQueue k h).agenda = s.agenda := rfl
@[simp] theorem State.modQueue_focus (k : Nat) (h : Queue → Queue) : (s.modQueue k h).focus = s.focus := rfl
@[simp] theorem State.modQueue_free (k : Nat) (h : Queue → Queue) : (s.modQueue k h).free = s.free := rfl
@[simp] theorem State.modQueue_teams (k : Nat) (h : Queue → Queue) : (s.modQueue k h).teams = s.teams := rfl
@[simp] theorem State.modQueue_grids (k : Nat) (h : Queue → Queue) : (s.modQueue k h).grids = s.grids := rfl
@[simp] theorem State.modQueue_clusters (k : Nat) (h : Queue → Queue) : (s.modQueue k h).clusters = s.clusters := rfl
@[simp] theorem State.modQueue_bundles (k : Nat) (h : Queue → Queue) : (s.modQueue k h).bundles = s.bundles := rfl
@[simp] theorem State.modQueue_ops (k : Nat) (h : Queue → Queue) : (s.modQueue k h).ops = s.ops := rfl
@[simp] theorem State.modQueue_reqs (k : Nat) (h : Queue → Queue) : (s.modQueue k h).reqs = s.reqs := rfl
@[simp] theorem State.modQueue_serial (k : Nat) (h : Queue → Queue) : (s.modQueue k h).serial = s.serial := rfl
@[simp] theorem State.modQueue_kills (k : Nat) (h : Queue → Queue) : (s.modQueue k h).kills = s.kills := rfl
@[simp] theorem State.modQueue_cores (k : Nat) (h : Queue → Queue) : (s.modQueue k h).cores = s.cores := rfl
@[simp] theorem State.modQueue_slices (k : Nat) (h : Queue → Queue) : (s.modQueue k h).slices = s.slices := rfl
@[simp] theorem State.modQueue_dies (k : Nat) (h : Queue → Queue) : (s.modQueue k h).dies = s.dies := rfl
@[simp] theorem State.modQueue_parts (k : Nat) (h : Queue → Queue) : (s.modQueue k h).parts = s.parts := rfl
@[simp] theorem State.modQueue_ctxs (k : Nat) (h : Queue → Queue) : (s.modQueue k h).ctxs = s.ctxs := rfl
@[simp] theorem State.modQueue_presets (k : Nat) (h : Queue → Queue) : (s.modQueue k h).presets = s.presets := rfl
@[simp] theorem State.modQueue_argmarks (k : Nat) (h : Queue → Queue) : (s.modQueue k h).argmarks = s.argmarks := rfl
@[simp] theorem State.modQueue_report (k : Nat) (h : Queue → Queue) : (s.modQueue k h).report = s.report := rfl
@[simp] theorem State.modQueue_tasks (k : Nat) (h : Queue → Queue) : (s.modQueue k h).tasks = s.tasks := rfl
@[simp] theorem State.modQueue_mem (k : Nat) (h : Queue → Queue) : (s.modQueue k h).mem = s.mem := rfl
@[simp] theorem State.modQueue_objs (k : Nat) (h : Queue → Queue) : (s.modQueue k h).objs = s.objs := rfl
@[simp] theorem State.modQueue_marks (k : Nat) (h : Queue → Queue) : (s.modQueue k h).marks = s.marks := rfl
@[simp] theorem State.modQueue_snoops (k : Nat) (h : Queue → Queue) : (s.modQueue k h).snoops = s.snoops := rfl
@[simp] theorem State.modQueue_snooped (k : Nat) (h : Queue → Queue) : (s.modQueue k h).snooped = s.snooped := rfl
@[simp] theorem State.modQueue_prots (k : Nat) (h : Queue → Queue) : (s.modQueue k h).prots = s.prots := rfl
@[simp] theorem State.modQueue_ports (k : Nat) (h : Queue → Queue) : (s.modQueue k h).ports = s.ports := rfl
@[simp] theorem State.modQueue_cxl (k : Nat) (h : Queue → Queue) : (s.modQueue k h).cxl = s.cxl := rfl
@[simp] theorem State.modQueue_milesk (k : Nat) (h : Queue → Queue) : (s.modQueue k h).milesk = s.milesk := rfl
@[simp] theorem State.modQueue_mileskDown (k : Nat) (h : Queue → Queue) : (s.modQueue k h).mileskDown = s.mileskDown := rfl
@[simp] theorem State.modQueue_replays (k : Nat) (h : Queue → Queue) : (s.modQueue k h).replays = s.replays := rfl
@[simp] theorem State.modQueue_retrain (k : Nat) (h : Queue → Queue) : (s.modQueue k h).retrain = s.retrain := rfl
@[simp] theorem State.modQueue_boot (k : Nat) (h : Queue → Queue) : (s.modQueue k h).boot = s.boot := rfl
@[simp] theorem State.modQueue_attest (k : Nat) (h : Queue → Queue) : (s.modQueue k h).attest = s.attest := rfl
@[simp] theorem State.modQueue_irqs (k : Nat) (h : Queue → Queue) : (s.modQueue k h).irqs = s.irqs := rfl
@[simp] theorem State.modQueue_deadSites (k : Nat) (h : Queue → Queue) : (s.modQueue k h).deadSites = s.deadSites := rfl
@[simp] theorem State.modQueue_repair (k : Nat) (h : Queue → Queue) : (s.modQueue k h).repair = s.repair := rfl
@[simp] theorem State.modQueue_pwrStep (k : Nat) (h : Queue → Queue) : (s.modQueue k h).pwrStep = s.pwrStep := rfl
@[simp] theorem State.modQueue_pwrFloor (k : Nat) (h : Queue → Queue) : (s.modQueue k h).pwrFloor = s.pwrFloor := rfl
@[simp] theorem State.modQueue_pwrQuiet (k : Nat) (h : Queue → Queue) : (s.modQueue k h).pwrQuiet = s.pwrQuiet := rfl
@[simp] theorem State.modQueue_tripped (k : Nat) (h : Queue → Queue) : (s.modQueue k h).tripped = s.tripped := rfl

/-! ### modTeam -/

@[simp] theorem State.modTeam_now (k : Nat) (h : Team → Team) : (s.modTeam k h).now = s.now := rfl
@[simp] theorem State.modTeam_agenda (k : Nat) (h : Team → Team) : (s.modTeam k h).agenda = s.agenda := rfl
@[simp] theorem State.modTeam_focus (k : Nat) (h : Team → Team) : (s.modTeam k h).focus = s.focus := rfl
@[simp] theorem State.modTeam_free (k : Nat) (h : Team → Team) : (s.modTeam k h).free = s.free := rfl
@[simp] theorem State.modTeam_grids (k : Nat) (h : Team → Team) : (s.modTeam k h).grids = s.grids := rfl
@[simp] theorem State.modTeam_clusters (k : Nat) (h : Team → Team) : (s.modTeam k h).clusters = s.clusters := rfl
@[simp] theorem State.modTeam_bundles (k : Nat) (h : Team → Team) : (s.modTeam k h).bundles = s.bundles := rfl
@[simp] theorem State.modTeam_ops (k : Nat) (h : Team → Team) : (s.modTeam k h).ops = s.ops := rfl
@[simp] theorem State.modTeam_reqs (k : Nat) (h : Team → Team) : (s.modTeam k h).reqs = s.reqs := rfl
@[simp] theorem State.modTeam_serial (k : Nat) (h : Team → Team) : (s.modTeam k h).serial = s.serial := rfl
@[simp] theorem State.modTeam_kills (k : Nat) (h : Team → Team) : (s.modTeam k h).kills = s.kills := rfl
@[simp] theorem State.modTeam_cores (k : Nat) (h : Team → Team) : (s.modTeam k h).cores = s.cores := rfl
@[simp] theorem State.modTeam_slices (k : Nat) (h : Team → Team) : (s.modTeam k h).slices = s.slices := rfl
@[simp] theorem State.modTeam_dies (k : Nat) (h : Team → Team) : (s.modTeam k h).dies = s.dies := rfl
@[simp] theorem State.modTeam_parts (k : Nat) (h : Team → Team) : (s.modTeam k h).parts = s.parts := rfl
@[simp] theorem State.modTeam_queues (k : Nat) (h : Team → Team) : (s.modTeam k h).queues = s.queues := rfl
@[simp] theorem State.modTeam_ctxs (k : Nat) (h : Team → Team) : (s.modTeam k h).ctxs = s.ctxs := rfl
@[simp] theorem State.modTeam_presets (k : Nat) (h : Team → Team) : (s.modTeam k h).presets = s.presets := rfl
@[simp] theorem State.modTeam_argmarks (k : Nat) (h : Team → Team) : (s.modTeam k h).argmarks = s.argmarks := rfl
@[simp] theorem State.modTeam_report (k : Nat) (h : Team → Team) : (s.modTeam k h).report = s.report := rfl
@[simp] theorem State.modTeam_tasks (k : Nat) (h : Team → Team) : (s.modTeam k h).tasks = s.tasks := rfl
@[simp] theorem State.modTeam_mem (k : Nat) (h : Team → Team) : (s.modTeam k h).mem = s.mem := rfl
@[simp] theorem State.modTeam_objs (k : Nat) (h : Team → Team) : (s.modTeam k h).objs = s.objs := rfl
@[simp] theorem State.modTeam_marks (k : Nat) (h : Team → Team) : (s.modTeam k h).marks = s.marks := rfl
@[simp] theorem State.modTeam_snoops (k : Nat) (h : Team → Team) : (s.modTeam k h).snoops = s.snoops := rfl
@[simp] theorem State.modTeam_snooped (k : Nat) (h : Team → Team) : (s.modTeam k h).snooped = s.snooped := rfl
@[simp] theorem State.modTeam_prots (k : Nat) (h : Team → Team) : (s.modTeam k h).prots = s.prots := rfl
@[simp] theorem State.modTeam_ports (k : Nat) (h : Team → Team) : (s.modTeam k h).ports = s.ports := rfl
@[simp] theorem State.modTeam_cxl (k : Nat) (h : Team → Team) : (s.modTeam k h).cxl = s.cxl := rfl
@[simp] theorem State.modTeam_milesk (k : Nat) (h : Team → Team) : (s.modTeam k h).milesk = s.milesk := rfl
@[simp] theorem State.modTeam_mileskDown (k : Nat) (h : Team → Team) : (s.modTeam k h).mileskDown = s.mileskDown := rfl
@[simp] theorem State.modTeam_replays (k : Nat) (h : Team → Team) : (s.modTeam k h).replays = s.replays := rfl
@[simp] theorem State.modTeam_retrain (k : Nat) (h : Team → Team) : (s.modTeam k h).retrain = s.retrain := rfl
@[simp] theorem State.modTeam_boot (k : Nat) (h : Team → Team) : (s.modTeam k h).boot = s.boot := rfl
@[simp] theorem State.modTeam_attest (k : Nat) (h : Team → Team) : (s.modTeam k h).attest = s.attest := rfl
@[simp] theorem State.modTeam_irqs (k : Nat) (h : Team → Team) : (s.modTeam k h).irqs = s.irqs := rfl
@[simp] theorem State.modTeam_deadSites (k : Nat) (h : Team → Team) : (s.modTeam k h).deadSites = s.deadSites := rfl
@[simp] theorem State.modTeam_repair (k : Nat) (h : Team → Team) : (s.modTeam k h).repair = s.repair := rfl
@[simp] theorem State.modTeam_pwrStep (k : Nat) (h : Team → Team) : (s.modTeam k h).pwrStep = s.pwrStep := rfl
@[simp] theorem State.modTeam_pwrFloor (k : Nat) (h : Team → Team) : (s.modTeam k h).pwrFloor = s.pwrFloor := rfl
@[simp] theorem State.modTeam_pwrQuiet (k : Nat) (h : Team → Team) : (s.modTeam k h).pwrQuiet = s.pwrQuiet := rfl
@[simp] theorem State.modTeam_tripped (k : Nat) (h : Team → Team) : (s.modTeam k h).tripped = s.tripped := rfl

/-! ### modGroup -/

@[simp] theorem State.modGroup_now (k g : Nat) (h : Group → Group) : (s.modGroup k g h).now = s.now := rfl
@[simp] theorem State.modGroup_agenda (k g : Nat) (h : Group → Group) : (s.modGroup k g h).agenda = s.agenda := rfl
@[simp] theorem State.modGroup_focus (k g : Nat) (h : Group → Group) : (s.modGroup k g h).focus = s.focus := rfl
@[simp] theorem State.modGroup_free (k g : Nat) (h : Group → Group) : (s.modGroup k g h).free = s.free := rfl
@[simp] theorem State.modGroup_grids (k g : Nat) (h : Group → Group) : (s.modGroup k g h).grids = s.grids := rfl
@[simp] theorem State.modGroup_clusters (k g : Nat) (h : Group → Group) : (s.modGroup k g h).clusters = s.clusters := rfl
@[simp] theorem State.modGroup_bundles (k g : Nat) (h : Group → Group) : (s.modGroup k g h).bundles = s.bundles := rfl
@[simp] theorem State.modGroup_ops (k g : Nat) (h : Group → Group) : (s.modGroup k g h).ops = s.ops := rfl
@[simp] theorem State.modGroup_reqs (k g : Nat) (h : Group → Group) : (s.modGroup k g h).reqs = s.reqs := rfl
@[simp] theorem State.modGroup_serial (k g : Nat) (h : Group → Group) : (s.modGroup k g h).serial = s.serial := rfl
@[simp] theorem State.modGroup_kills (k g : Nat) (h : Group → Group) : (s.modGroup k g h).kills = s.kills := rfl
@[simp] theorem State.modGroup_cores (k g : Nat) (h : Group → Group) : (s.modGroup k g h).cores = s.cores := rfl
@[simp] theorem State.modGroup_slices (k g : Nat) (h : Group → Group) : (s.modGroup k g h).slices = s.slices := rfl
@[simp] theorem State.modGroup_dies (k g : Nat) (h : Group → Group) : (s.modGroup k g h).dies = s.dies := rfl
@[simp] theorem State.modGroup_parts (k g : Nat) (h : Group → Group) : (s.modGroup k g h).parts = s.parts := rfl
@[simp] theorem State.modGroup_queues (k g : Nat) (h : Group → Group) : (s.modGroup k g h).queues = s.queues := rfl
@[simp] theorem State.modGroup_ctxs (k g : Nat) (h : Group → Group) : (s.modGroup k g h).ctxs = s.ctxs := rfl
@[simp] theorem State.modGroup_presets (k g : Nat) (h : Group → Group) : (s.modGroup k g h).presets = s.presets := rfl
@[simp] theorem State.modGroup_argmarks (k g : Nat) (h : Group → Group) : (s.modGroup k g h).argmarks = s.argmarks := rfl
@[simp] theorem State.modGroup_report (k g : Nat) (h : Group → Group) : (s.modGroup k g h).report = s.report := rfl
@[simp] theorem State.modGroup_tasks (k g : Nat) (h : Group → Group) : (s.modGroup k g h).tasks = s.tasks := rfl
@[simp] theorem State.modGroup_mem (k g : Nat) (h : Group → Group) : (s.modGroup k g h).mem = s.mem := rfl
@[simp] theorem State.modGroup_objs (k g : Nat) (h : Group → Group) : (s.modGroup k g h).objs = s.objs := rfl
@[simp] theorem State.modGroup_marks (k g : Nat) (h : Group → Group) : (s.modGroup k g h).marks = s.marks := rfl
@[simp] theorem State.modGroup_snoops (k g : Nat) (h : Group → Group) : (s.modGroup k g h).snoops = s.snoops := rfl
@[simp] theorem State.modGroup_snooped (k g : Nat) (h : Group → Group) : (s.modGroup k g h).snooped = s.snooped := rfl
@[simp] theorem State.modGroup_prots (k g : Nat) (h : Group → Group) : (s.modGroup k g h).prots = s.prots := rfl
@[simp] theorem State.modGroup_ports (k g : Nat) (h : Group → Group) : (s.modGroup k g h).ports = s.ports := rfl
@[simp] theorem State.modGroup_cxl (k g : Nat) (h : Group → Group) : (s.modGroup k g h).cxl = s.cxl := rfl
@[simp] theorem State.modGroup_milesk (k g : Nat) (h : Group → Group) : (s.modGroup k g h).milesk = s.milesk := rfl
@[simp] theorem State.modGroup_mileskDown (k g : Nat) (h : Group → Group) : (s.modGroup k g h).mileskDown = s.mileskDown := rfl
@[simp] theorem State.modGroup_replays (k g : Nat) (h : Group → Group) : (s.modGroup k g h).replays = s.replays := rfl
@[simp] theorem State.modGroup_retrain (k g : Nat) (h : Group → Group) : (s.modGroup k g h).retrain = s.retrain := rfl
@[simp] theorem State.modGroup_boot (k g : Nat) (h : Group → Group) : (s.modGroup k g h).boot = s.boot := rfl
@[simp] theorem State.modGroup_attest (k g : Nat) (h : Group → Group) : (s.modGroup k g h).attest = s.attest := rfl
@[simp] theorem State.modGroup_irqs (k g : Nat) (h : Group → Group) : (s.modGroup k g h).irqs = s.irqs := rfl
@[simp] theorem State.modGroup_deadSites (k g : Nat) (h : Group → Group) : (s.modGroup k g h).deadSites = s.deadSites := rfl
@[simp] theorem State.modGroup_repair (k g : Nat) (h : Group → Group) : (s.modGroup k g h).repair = s.repair := rfl
@[simp] theorem State.modGroup_pwrStep (k g : Nat) (h : Group → Group) : (s.modGroup k g h).pwrStep = s.pwrStep := rfl
@[simp] theorem State.modGroup_pwrFloor (k g : Nat) (h : Group → Group) : (s.modGroup k g h).pwrFloor = s.pwrFloor := rfl
@[simp] theorem State.modGroup_pwrQuiet (k g : Nat) (h : Group → Group) : (s.modGroup k g h).pwrQuiet = s.pwrQuiet := rfl
@[simp] theorem State.modGroup_tripped (k g : Nat) (h : Group → Group) : (s.modGroup k g h).tripped = s.tripped := rfl

/-! ### modFibre -/

@[simp] theorem State.modFibre_now (k g l : Nat) (h : Fibre → Fibre) : (s.modFibre k g l h).now = s.now := rfl
@[simp] theorem State.modFibre_agenda (k g l : Nat) (h : Fibre → Fibre) : (s.modFibre k g l h).agenda = s.agenda := rfl
@[simp] theorem State.modFibre_focus (k g l : Nat) (h : Fibre → Fibre) : (s.modFibre k g l h).focus = s.focus := rfl
@[simp] theorem State.modFibre_free (k g l : Nat) (h : Fibre → Fibre) : (s.modFibre k g l h).free = s.free := rfl
@[simp] theorem State.modFibre_grids (k g l : Nat) (h : Fibre → Fibre) : (s.modFibre k g l h).grids = s.grids := rfl
@[simp] theorem State.modFibre_clusters (k g l : Nat) (h : Fibre → Fibre) : (s.modFibre k g l h).clusters = s.clusters := rfl
@[simp] theorem State.modFibre_bundles (k g l : Nat) (h : Fibre → Fibre) : (s.modFibre k g l h).bundles = s.bundles := rfl
@[simp] theorem State.modFibre_ops (k g l : Nat) (h : Fibre → Fibre) : (s.modFibre k g l h).ops = s.ops := rfl
@[simp] theorem State.modFibre_reqs (k g l : Nat) (h : Fibre → Fibre) : (s.modFibre k g l h).reqs = s.reqs := rfl
@[simp] theorem State.modFibre_serial (k g l : Nat) (h : Fibre → Fibre) : (s.modFibre k g l h).serial = s.serial := rfl
@[simp] theorem State.modFibre_kills (k g l : Nat) (h : Fibre → Fibre) : (s.modFibre k g l h).kills = s.kills := rfl
@[simp] theorem State.modFibre_cores (k g l : Nat) (h : Fibre → Fibre) : (s.modFibre k g l h).cores = s.cores := rfl
@[simp] theorem State.modFibre_slices (k g l : Nat) (h : Fibre → Fibre) : (s.modFibre k g l h).slices = s.slices := rfl
@[simp] theorem State.modFibre_dies (k g l : Nat) (h : Fibre → Fibre) : (s.modFibre k g l h).dies = s.dies := rfl
@[simp] theorem State.modFibre_parts (k g l : Nat) (h : Fibre → Fibre) : (s.modFibre k g l h).parts = s.parts := rfl
@[simp] theorem State.modFibre_queues (k g l : Nat) (h : Fibre → Fibre) : (s.modFibre k g l h).queues = s.queues := rfl
@[simp] theorem State.modFibre_ctxs (k g l : Nat) (h : Fibre → Fibre) : (s.modFibre k g l h).ctxs = s.ctxs := rfl
@[simp] theorem State.modFibre_presets (k g l : Nat) (h : Fibre → Fibre) : (s.modFibre k g l h).presets = s.presets := rfl
@[simp] theorem State.modFibre_argmarks (k g l : Nat) (h : Fibre → Fibre) : (s.modFibre k g l h).argmarks = s.argmarks := rfl
@[simp] theorem State.modFibre_report (k g l : Nat) (h : Fibre → Fibre) : (s.modFibre k g l h).report = s.report := rfl
@[simp] theorem State.modFibre_tasks (k g l : Nat) (h : Fibre → Fibre) : (s.modFibre k g l h).tasks = s.tasks := rfl
@[simp] theorem State.modFibre_mem (k g l : Nat) (h : Fibre → Fibre) : (s.modFibre k g l h).mem = s.mem := rfl
@[simp] theorem State.modFibre_objs (k g l : Nat) (h : Fibre → Fibre) : (s.modFibre k g l h).objs = s.objs := rfl
@[simp] theorem State.modFibre_marks (k g l : Nat) (h : Fibre → Fibre) : (s.modFibre k g l h).marks = s.marks := rfl
@[simp] theorem State.modFibre_snoops (k g l : Nat) (h : Fibre → Fibre) : (s.modFibre k g l h).snoops = s.snoops := rfl
@[simp] theorem State.modFibre_snooped (k g l : Nat) (h : Fibre → Fibre) : (s.modFibre k g l h).snooped = s.snooped := rfl
@[simp] theorem State.modFibre_prots (k g l : Nat) (h : Fibre → Fibre) : (s.modFibre k g l h).prots = s.prots := rfl
@[simp] theorem State.modFibre_ports (k g l : Nat) (h : Fibre → Fibre) : (s.modFibre k g l h).ports = s.ports := rfl
@[simp] theorem State.modFibre_cxl (k g l : Nat) (h : Fibre → Fibre) : (s.modFibre k g l h).cxl = s.cxl := rfl
@[simp] theorem State.modFibre_milesk (k g l : Nat) (h : Fibre → Fibre) : (s.modFibre k g l h).milesk = s.milesk := rfl
@[simp] theorem State.modFibre_mileskDown (k g l : Nat) (h : Fibre → Fibre) : (s.modFibre k g l h).mileskDown = s.mileskDown := rfl
@[simp] theorem State.modFibre_replays (k g l : Nat) (h : Fibre → Fibre) : (s.modFibre k g l h).replays = s.replays := rfl
@[simp] theorem State.modFibre_retrain (k g l : Nat) (h : Fibre → Fibre) : (s.modFibre k g l h).retrain = s.retrain := rfl
@[simp] theorem State.modFibre_boot (k g l : Nat) (h : Fibre → Fibre) : (s.modFibre k g l h).boot = s.boot := rfl
@[simp] theorem State.modFibre_attest (k g l : Nat) (h : Fibre → Fibre) : (s.modFibre k g l h).attest = s.attest := rfl
@[simp] theorem State.modFibre_irqs (k g l : Nat) (h : Fibre → Fibre) : (s.modFibre k g l h).irqs = s.irqs := rfl
@[simp] theorem State.modFibre_deadSites (k g l : Nat) (h : Fibre → Fibre) : (s.modFibre k g l h).deadSites = s.deadSites := rfl
@[simp] theorem State.modFibre_repair (k g l : Nat) (h : Fibre → Fibre) : (s.modFibre k g l h).repair = s.repair := rfl
@[simp] theorem State.modFibre_pwrStep (k g l : Nat) (h : Fibre → Fibre) : (s.modFibre k g l h).pwrStep = s.pwrStep := rfl
@[simp] theorem State.modFibre_pwrFloor (k g l : Nat) (h : Fibre → Fibre) : (s.modFibre k g l h).pwrFloor = s.pwrFloor := rfl
@[simp] theorem State.modFibre_pwrQuiet (k g l : Nat) (h : Fibre → Fibre) : (s.modFibre k g l h).pwrQuiet = s.pwrQuiet := rfl
@[simp] theorem State.modFibre_tripped (k g l : Nat) (h : Fibre → Fibre) : (s.modFibre k g l h).tripped = s.tripped := rfl

/-! ### modBundle -/

@[simp] theorem State.modBundle_now (k : Nat) (h : Bundle → Bundle) : (s.modBundle k h).now = s.now := rfl
@[simp] theorem State.modBundle_agenda (k : Nat) (h : Bundle → Bundle) : (s.modBundle k h).agenda = s.agenda := rfl
@[simp] theorem State.modBundle_focus (k : Nat) (h : Bundle → Bundle) : (s.modBundle k h).focus = s.focus := rfl
@[simp] theorem State.modBundle_free (k : Nat) (h : Bundle → Bundle) : (s.modBundle k h).free = s.free := rfl
@[simp] theorem State.modBundle_teams (k : Nat) (h : Bundle → Bundle) : (s.modBundle k h).teams = s.teams := rfl
@[simp] theorem State.modBundle_grids (k : Nat) (h : Bundle → Bundle) : (s.modBundle k h).grids = s.grids := rfl
@[simp] theorem State.modBundle_clusters (k : Nat) (h : Bundle → Bundle) : (s.modBundle k h).clusters = s.clusters := rfl
@[simp] theorem State.modBundle_ops (k : Nat) (h : Bundle → Bundle) : (s.modBundle k h).ops = s.ops := rfl
@[simp] theorem State.modBundle_reqs (k : Nat) (h : Bundle → Bundle) : (s.modBundle k h).reqs = s.reqs := rfl
@[simp] theorem State.modBundle_serial (k : Nat) (h : Bundle → Bundle) : (s.modBundle k h).serial = s.serial := rfl
@[simp] theorem State.modBundle_kills (k : Nat) (h : Bundle → Bundle) : (s.modBundle k h).kills = s.kills := rfl
@[simp] theorem State.modBundle_cores (k : Nat) (h : Bundle → Bundle) : (s.modBundle k h).cores = s.cores := rfl
@[simp] theorem State.modBundle_slices (k : Nat) (h : Bundle → Bundle) : (s.modBundle k h).slices = s.slices := rfl
@[simp] theorem State.modBundle_dies (k : Nat) (h : Bundle → Bundle) : (s.modBundle k h).dies = s.dies := rfl
@[simp] theorem State.modBundle_parts (k : Nat) (h : Bundle → Bundle) : (s.modBundle k h).parts = s.parts := rfl
@[simp] theorem State.modBundle_queues (k : Nat) (h : Bundle → Bundle) : (s.modBundle k h).queues = s.queues := rfl
@[simp] theorem State.modBundle_ctxs (k : Nat) (h : Bundle → Bundle) : (s.modBundle k h).ctxs = s.ctxs := rfl
@[simp] theorem State.modBundle_presets (k : Nat) (h : Bundle → Bundle) : (s.modBundle k h).presets = s.presets := rfl
@[simp] theorem State.modBundle_argmarks (k : Nat) (h : Bundle → Bundle) : (s.modBundle k h).argmarks = s.argmarks := rfl
@[simp] theorem State.modBundle_report (k : Nat) (h : Bundle → Bundle) : (s.modBundle k h).report = s.report := rfl
@[simp] theorem State.modBundle_tasks (k : Nat) (h : Bundle → Bundle) : (s.modBundle k h).tasks = s.tasks := rfl
@[simp] theorem State.modBundle_mem (k : Nat) (h : Bundle → Bundle) : (s.modBundle k h).mem = s.mem := rfl
@[simp] theorem State.modBundle_objs (k : Nat) (h : Bundle → Bundle) : (s.modBundle k h).objs = s.objs := rfl
@[simp] theorem State.modBundle_marks (k : Nat) (h : Bundle → Bundle) : (s.modBundle k h).marks = s.marks := rfl
@[simp] theorem State.modBundle_snoops (k : Nat) (h : Bundle → Bundle) : (s.modBundle k h).snoops = s.snoops := rfl
@[simp] theorem State.modBundle_snooped (k : Nat) (h : Bundle → Bundle) : (s.modBundle k h).snooped = s.snooped := rfl
@[simp] theorem State.modBundle_prots (k : Nat) (h : Bundle → Bundle) : (s.modBundle k h).prots = s.prots := rfl
@[simp] theorem State.modBundle_ports (k : Nat) (h : Bundle → Bundle) : (s.modBundle k h).ports = s.ports := rfl
@[simp] theorem State.modBundle_cxl (k : Nat) (h : Bundle → Bundle) : (s.modBundle k h).cxl = s.cxl := rfl
@[simp] theorem State.modBundle_milesk (k : Nat) (h : Bundle → Bundle) : (s.modBundle k h).milesk = s.milesk := rfl
@[simp] theorem State.modBundle_mileskDown (k : Nat) (h : Bundle → Bundle) : (s.modBundle k h).mileskDown = s.mileskDown := rfl
@[simp] theorem State.modBundle_replays (k : Nat) (h : Bundle → Bundle) : (s.modBundle k h).replays = s.replays := rfl
@[simp] theorem State.modBundle_retrain (k : Nat) (h : Bundle → Bundle) : (s.modBundle k h).retrain = s.retrain := rfl
@[simp] theorem State.modBundle_boot (k : Nat) (h : Bundle → Bundle) : (s.modBundle k h).boot = s.boot := rfl
@[simp] theorem State.modBundle_attest (k : Nat) (h : Bundle → Bundle) : (s.modBundle k h).attest = s.attest := rfl
@[simp] theorem State.modBundle_irqs (k : Nat) (h : Bundle → Bundle) : (s.modBundle k h).irqs = s.irqs := rfl
@[simp] theorem State.modBundle_deadSites (k : Nat) (h : Bundle → Bundle) : (s.modBundle k h).deadSites = s.deadSites := rfl
@[simp] theorem State.modBundle_repair (k : Nat) (h : Bundle → Bundle) : (s.modBundle k h).repair = s.repair := rfl
@[simp] theorem State.modBundle_pwrStep (k : Nat) (h : Bundle → Bundle) : (s.modBundle k h).pwrStep = s.pwrStep := rfl
@[simp] theorem State.modBundle_pwrFloor (k : Nat) (h : Bundle → Bundle) : (s.modBundle k h).pwrFloor = s.pwrFloor := rfl
@[simp] theorem State.modBundle_pwrQuiet (k : Nat) (h : Bundle → Bundle) : (s.modBundle k h).pwrQuiet = s.pwrQuiet := rfl
@[simp] theorem State.modBundle_tripped (k : Nat) (h : Bundle → Bundle) : (s.modBundle k h).tripped = s.tripped := rfl

/-! ### What an update writes -/

@[simp] theorem State.setCore_cores (k : Nat) (x : Core) : (s.setCore k x).cores = fset s.cores k x := rfl
@[simp] theorem State.setSlice_slices (k : Nat) (x : Slice) : (s.setSlice k x).slices = fset s.slices k x := rfl
@[simp] theorem State.setDie_dies (k : Nat) (x : Die) : (s.setDie k x).dies = fset s.dies k x := rfl
@[simp] theorem State.setPart_parts (k : Nat) (x : Partition) : (s.setPart k x).parts = fset s.parts k x := rfl
@[simp] theorem State.setQueue_queues (k : Nat) (x : Queue) : (s.setQueue k x).queues = fset s.queues k x := rfl
@[simp] theorem State.setObj_objs (k : Nat) (x : Obj) : (s.setObj k x).objs = fset s.objs k x := rfl
@[simp] theorem State.modTeam_teams (k : Nat) (h : Team → Team) : (s.modTeam k h).teams = fmod s.teams k h := rfl
@[simp] theorem State.modBundle_bundles (k : Nat) (h : Bundle → Bundle) : (s.modBundle k h).bundles = fmod s.bundles k h := rfl

end Sys2Proof.Machine
end

