-- ==== Sys2Proof/Laws/Table.lean ====
section
/-!
SUPPORT. Sparse tables: what is found after an entry is set, changed or dropped.
-/

namespace Sys2Proof.Machine

variable {β : Type}

@[simp] theorem fget_nil (i : Nat) : fget ([] : FMap β) i = none := rfl

theorem fget_fset (m : FMap β) (i j : Nat) (x : β) : fget (fset m i x) j = if i = j then some x else fget m j := by
  induction m with
  | nil => simp [fset, fget]
  | cons e m ih =>
    obtain ⟨k, v⟩ := e
    by_cases h : k = i <;> by_cases h2 : k = j <;> simp_all [fset, fget]
    intro hij; exact absurd hij.symm h

@[simp] theorem fget_fset_self (m : FMap β) (i : Nat) (x : β) : fget (fset m i x) i = some x := by simp [fget_fset]

theorem fget_fset_other (m : FMap β) (i j : Nat) (x : β) (h : i ≠ j) : fget (fset m i x) j = fget m j := by simp [fget_fset, h]

theorem fget_fmod (m : FMap β) (i j : Nat) (h : β → β) : fget (fmod m i h) j = if i = j then (fget m j).map h else fget m j := by
  induction m with
  | nil => simp [fmod, fget]
  | cons e m ih =>
    obtain ⟨k, v⟩ := e
    simp only [fmod] at ih
    by_cases hk : k = i <;> by_cases hj : k = j <;> simp_all [fmod, fget]
    intro hij; exact absurd hij.symm hk

@[simp] theorem fget_fmod_self (m : FMap β) (i : Nat) (h : β → β) : fget (fmod m i h) i = (fget m i).map h := by simp [fget_fmod]

theorem fget_fmod_other (m : FMap β) (i j : Nat) (h : β → β) (hij : i ≠ j) : fget (fmod m i h) j = fget m j := by simp [fget_fmod, hij]

theorem fget_fdel (m : FMap β) (i j : Nat) : fget (fdel m i) j = if i = j then none else fget m j := by
  induction m with
  | nil => simp [fdel, fget]
  | cons e m ih =>
    obtain ⟨k, v⟩ := e
    simp only [fdel] at ih
    by_cases hk : k = i <;> by_cases hj : k = j <;> simp_all [fdel, fget]
    intro hij; exact absurd hij.symm hk

theorem fget_mem {m : FMap β} {i : Nat} {x : β} (h : fget m i = some x) : (i, x) ∈ m := by
  induction m with
  | nil => simp at h
  | cons e m ih =>
    obtain ⟨k, v⟩ := e
    by_cases hk : k = i <;> simp_all [fget]

theorem mem_fset {m : FMap β} {i : Nat} {x : β} {e : Nat × β} (h : e ∈ fset m i x) : e = (i, x) ∨ e ∈ m := by
  induction m with
  | nil => simp_all [fset]
  | cons y m ih =>
    obtain ⟨k, v⟩ := y
    by_cases hk : k = i
    · simp [fset, hk] at h ⊢; rcases h with h | h <;> simp [h]
    · simp [fset, hk] at h ⊢; rcases h with h | h
      · simp [h]
      · rcases ih h with h | h <;> simp [h]

theorem mem_fdel {m : FMap β} {i : Nat} {e : Nat × β} (h : e ∈ fdel m i) : e ∈ m := (List.mem_filter.1 h).1

end Sys2Proof.Machine
end

