-- ==== Sys2Proof/Laws/Native.lean ====
section
/-!
SUPPORT. Native instructions: what issuing one comes to, the fibres after a change of one of them, and reading a result back.
-/

namespace Sys2Proof.Machine

/-! ### Fibres of the state -/

theorem State.team_modTeam (s : State) (t u : Nat) (h : Team → Team) :
    (s.modTeam t h).team u = if t = u then (s.team u).map h else s.team u := by
  simp only [State.team, State.modTeam_teams, fget_fmod]

theorem State.group_modGroup (s : State) (t g u k : Nat) (h : Group → Group) :
    (s.modGroup t g h).group u k = if t = u ∧ g = k then (s.group u k).map h else s.group u k := by
  simp only [State.group, State.modGroup, State.team_modTeam]
  by_cases ht : t = u
  · subst ht
    simp only [if_true, true_and]
    cases s.team t with
    | none => simp
    | some x =>
      simp only [Option.map_some, Option.bind_some, Team.modGroup, List.getElem?_modify]
      by_cases hg : g = k <;> simp [hg]
  · simp [ht]

theorem State.fibre?_modGroup (s : State) (t g u k l : Nat) (h : Group → Group) (hh : ∀ x, (h x).fibres = x.fibres) :
    (s.modGroup t g h).fibre? u k l = s.fibre? u k l := by
  simp only [State.fibre?, State.group_modGroup]
  split
  · cases s.group u k with
    | none => rfl
    | some x => simp [hh]
  · rfl

theorem State.fibre?_modFibre (s : State) (t g l u k m : Nat) (h : Fibre → Fibre) :
    (s.modFibre t g l h).fibre? u k m = if (t, g, l) = (u, k, m) then (s.fibre? u k m).map h else s.fibre? u k m := by
  simp only [State.fibre?, State.modFibre, State.group_modGroup]
  by_cases hg : t = u ∧ g = k
  · obtain ⟨rfl, rfl⟩ := hg
    simp only [and_self, if_true]
    cases s.group t g with
    | none => simp
    | some x =>
      simp only [Option.map_some, Option.bind_some, Group.modFibre, List.getElem?_modify]
      by_cases hl : l = m <;> simp [hl]
  · simp only [if_neg hg]
    rw [if_neg]
    intro he
    simp only [Prod.mk.injEq] at he
    exact hg ⟨he.1, he.2.1⟩

theorem State.fibre_eq (s : State) (t g l : Nat) : s.fibre t g l = (s.fibre? t g l).getD Fibre.reset := rfl

theorem State.fibre_modFibre_self {s : State} {t g l : Nat} {f : Fibre} (hf : s.fibre? t g l = some f) (h : Fibre → Fibre) :
    (s.modFibre t g l h).fibre t g l = h f := by
  simp [State.fibre_eq, State.fibre?_modFibre, hf]

theorem State.fibre_modFibre_other (s : State) (t g l u k m : Nat) (h : Fibre → Fibre) (hne : (t, g, l) ≠ (u, k, m)) :
    (s.modFibre t g l h).fibre u k m = s.fibre u k m := by
  simp only [State.fibre_eq, State.fibre?_modFibre, if_neg hne]

theorem State.fibre?_of_teams {s r : State} (h : s.teams = r.teams) (t g l : Nat) : s.fibre? t g l = r.fibre? t g l := by
  simp only [State.fibre?, State.group, State.team, h]

theorem State.fibre_of_teams {s r : State} (h : s.teams = r.teams) (t g l : Nat) : s.fibre t g l = r.fibre t g l := by
  simp only [State.fibre_eq, State.fibre?_of_teams h]

/-! ### Kills and clocks -/

@[simp] theorem State.runKills_quiet {s : State} (h : s.kills = []) : s.runKills = s := by simp [State.runKills, h]

/-- An instruction that asks for no kill ends as its own effect leaves the part. -/
theorem State.endNative_quiet {s r : State} (h : r.kills = []) (k : Nat) : s.endNative k r = r := by
  unfold State.endNative; rw [h]; exact State.runKills_quiet h

/-- What counting clocks does to one fibre. -/
def Fibre.tick (f : Fibre) : Fibre := if f.leave.finished then { f with lclk := f.lclk + 1 } else f

theorem State.countClocks_eq (s : State) (w : Who) : s.countClocks w = w.active.foldl (fun a x => a.modFibre w.team x.1 x.2 Fibre.tick) s := rfl

/-- Changing distinct fibres one after another changes each of them once, and nothing else of the state. -/
theorem State.foldl_modFibre (t : Nat) (h : Nat × Nat → Fibre → Fibre) (ls : List (Nat × Nat)) (hd : ls.Nodup) (s : State) :
    (∀ g l, (ls.foldl (fun a x => a.modFibre t x.1 x.2 (h x)) s).fibre? t g l
      = if (g, l) ∈ ls then (s.fibre? t g l).map (h (g, l)) else s.fibre? t g l) := by
  induction ls generalizing s with
  | nil => simp
  | cons x ls ih =>
    obtain ⟨hx, hls⟩ := List.nodup_cons.1 hd
    intro g l
    simp only [List.foldl_cons]
    rw [ih hls, State.fibre?_modFibre]
    by_cases he : (g, l) = x
    · subst he
      simp [hx]
    · have : ¬ (t, x.1, x.2) = (t, g, l) := by
        intro hc; simp only [Prod.mk.injEq, true_and] at hc; exact he (by rw [← hc.1, ← hc.2])
      simp only [List.mem_cons, he, false_or, if_neg this]

/-- A fold of changes of fibres keeps every field but the teams. -/
theorem State.foldl_keeps {α β : Type} (p : State → β) (ls : List α) (step : State → α → State) (hp : ∀ a x, p (step a x) = p a) (s : State) :
    p (ls.foldl step s) = p s := by
  induction ls generalizing s with
  | nil => rfl
  | cons x ls ih => simp only [List.foldl_cons, ih, hp]

@[simp] theorem State.countClocks_kills (s : State) (w : Who) : (s.countClocks w).kills = s.kills := by
  unfold State.countClocks; exact State.foldl_keeps (·.kills) _ _ (by intros; rfl) s

@[simp] theorem State.countClocks_mem (s : State) (w : Who) : (s.countClocks w).mem = s.mem := by
  unfold State.countClocks; exact State.foldl_keeps (·.mem) _ _ (by intros; rfl) s

@[simp] theorem State.countClocks_cores (s : State) (w : Who) : (s.countClocks w).cores = s.cores := by
  unfold State.countClocks; exact State.foldl_keeps (·.cores) _ _ (by intros; rfl) s

@[simp] theorem State.countClocks_bundles (s : State) (w : Who) : (s.countClocks w).bundles = s.bundles := by
  unfold State.countClocks; exact State.foldl_keeps (·.bundles) _ _ (by intros; rfl) s

@[simp] theorem State.countClocks_ops (s : State) (w : Who) : (s.countClocks w).ops = s.ops := by
  unfold State.countClocks; exact State.foldl_keeps (·.ops) _ _ (by intros; rfl) s

@[simp] theorem State.countClocks_reqs (s : State) (w : Who) : (s.countClocks w).reqs = s.reqs := by
  unfold State.countClocks; exact State.foldl_keeps (·.reqs) _ _ (by intros; rfl) s

theorem State.countClocks_fibre? (s : State) (w : Who) (hd : w.active.Nodup) (g l : Nat) :
    (s.countClocks w).fibre? w.team g l = if (g, l) ∈ w.active then (s.fibre? w.team g l).map Fibre.tick else s.fibre? w.team g l :=
  State.foldl_modFibre w.team (fun _ => Fibre.tick) w.active hd s g l

theorem Fibre.tick_view (f : Fibre) (pos : Nat) (x : RName) : f.tick.view pos x = f.view pos x := by
  unfold Fibre.tick; split <;> (cases x <;> rfl)

theorem Fibre.tick_get (f : Fibre) (pos : Nat) (r : Reg) : f.tick.get pos r = f.get pos r := Fibre.tick_view f pos _

/-! ### Issuing -/

theorem State.mem_performers {s : State} {w : Who} {c : Ctl} {x : Nat × Nat} (h : x ∈ s.performers w c) : x ∈ w.active := (List.mem_filter.1 h).1

/-- An instruction that issues, all of whose fibres pass the checks, follows its own meaning. -/
theorem native_of_issues {s : State} {i : Instr} {w : Who} {c : Ctl} {t : Team} (H : Issues s i w c t) (body : Who → State → State) :
    native i s body =
      let r := if (s.performers w c).isEmpty then s else body (w.by (s.performers w c)) s
      .next (s.endNative t.ctx (if r.isHeld w then r else r.countClocks w)) := by
  have hroom : (c.counted && (groupsOf (s.performers w c)).any (t.noRoom c.sbi.toNat)) = false := by
    by_cases hc : c.counted = true
    · simp only [hc, Bool.true_and, List.any_eq_false]
      intro g hg
      simp [H.room hc g hg]
    · simp [hc]
  have hfold : ∀ (ls : List (Nat × Nat)) (a : State), (∀ x ∈ ls, s.verdict i c t w x = none) →
      (ls.map (fun x => (x, s.verdict i c t w x))).foldl (fun a x => a.trapIf w x) a = a := by
    intro ls
    induction ls with
    | nil => intro a _; rfl
    | cons x ls ih =>
      intro a h
      simp only [List.map_cons, List.foldl_cons, h x (by simp), State.trapIf]
      exact ih a (fun y hy => h y (by simp [hy]))
  have hgood : ∀ (ls : List (Nat × Nat)), (∀ x ∈ ls, s.verdict i c t w x = none) →
      ((ls.map (fun x => (x, s.verdict i c t w x))).filter (fun x => x.2.isNone)).map (·.1) = ls := by
    intro ls
    induction ls with
    | nil => intro _; rfl
    | cons x ls ih =>
      intro h
      have h1 := h x (by simp)
      have h2 := ih (fun y hy => h y (by simp [hy]))
      simp [h1, h2]
  unfold native
  simp only [H.who, H.ctl, H.team, hroom, H.legal, hfold _ s H.passes, hgood _ H.passes, Bool.false_eq_true, if_false]

/-- The same, for a meaning that does not hold the bundle and asks for no kill. -/
theorem native_next {s : State} {i : Instr} {w : Who} {c : Ctl} {t : Team} (H : Issues s i w c t) (body : Who → State → State)
    (hb : ((body (w.by (s.performers w c)) s).bundles = s.bundles)) (hk : (body (w.by (s.performers w c)) s).kills = []) :
    native i s body = .next ((if (s.performers w c).isEmpty then s else body (w.by (s.performers w c)) s).countClocks w) := by
  rw [native_of_issues H]
  have hh : ∀ r : State, r.bundles = s.bundles → r.isHeld w = false := by
    intro r hr
    have := H.unheld
    simp only [State.isHeld, hr] at this ⊢
    exact this
  by_cases he : (s.performers w c).isEmpty = true
  · simp only [he, if_true]
    rw [if_neg (by rw [H.unheld]; simp), State.endNative_quiet (by simp [H.quiet])]
  · simp only [he, if_false, Bool.false_eq_true]
    rw [if_neg (by rw [hh _ hb]; simp), State.endNative_quiet (by simp [hk])]

end Sys2Proof.Machine
end

