-- ==== Sys2Proof/Laws/Home.lean ====
section
/-!
SUPPORT. Writes at their homes, with the monitors they release: what they leave alone of fibres, bundles and pending kills.
-/

namespace Sys2Proof.Machine

/-! ### The register file of a fibre -/

/-- What reads of registers and predicates depend on. -/
def Fibre.file (f : Fibre) : List Word × BitVec 7 × List Word × BitVec 7 × List WEntry := (f.regs, f.pw, f.regs0, f.pw0, f.wlog)

theorem Fibre.file_eq {f g : Fibre} (h : f.file = g.file) :
    f.regs = g.regs ∧ f.pw = g.pw ∧ f.regs0 = g.regs0 ∧ f.pw0 = g.pw0 ∧ f.wlog = g.wlog := by
  simpa only [Fibre.file, Prod.mk.injEq] using h

theorem Fibre.view_file {f g : Fibre} (h : f.file = g.file) (p : Nat) (x : RName) : f.view p x = g.view p x := by
  obtain ⟨h1, h2, h3, h4, h5⟩ := Fibre.file_eq h
  cases x <;> simp only [Fibre.view, Fibre.undersized, Fibre.lastWrite, Fibre.atStart, Fibre.cur, Fibre.reg, Fibre.pred, h1, h2, h3, h4, h5] <;> rfl

theorem Fibre.get_file {f g : Fibre} (h : f.file = g.file) (p : Nat) (r : Reg) : f.get p r = g.get p r := Fibre.view_file h p _

theorem Fibre.get64_file {f g : Fibre} (h : f.file = g.file) (p : Nat) (r : Reg) : f.get64 p r = g.get64 p r := by
  simp only [Fibre.get64, Fibre.get_file h]

theorem Fibre.getW_file {f g : Fibre} (h : f.file = g.file) (p : Nat) (r : Reg) (b : Bool) : f.getW p r b = g.getW p r b := by
  simp only [Fibre.getW, Fibre.get64_file h, Fibre.get_file h]

theorem Fibre.getP_file {f g : Fibre} (h : f.file = g.file) (p : Nat) (q : Pred) : f.getP p q = g.getP p q := by
  simp only [Fibre.getP, Fibre.view_file h]

theorem Fibre.writeAll_file {f g : Fibre} (h : f.file = g.file) (pos lat : Nat) (ws : List (RName × Word)) :
    (f.writeAll pos lat ws).file = (g.writeAll pos lat ws).file := by
  unfold Fibre.writeAll
  induction ws generalizing f g with
  | nil => exact h
  | cons w ws ih =>
    apply ih
    obtain ⟨h1, h2, h3, h4, h5⟩ := Fibre.file_eq h
    simp only [Fibre.file, Fibre.write, Fibre.put_regs0, Fibre.put_pw0, h3, h4, h5, Prod.mk.injEq, and_true]
    unfold Fibre.put
    cases w.1 with
    | v r => simp only [h1, h2, and_self]
    | p q => simp only [h1, h2]; by_cases hq : q = 7#3 <;> simp [hq, h1, h2]

theorem Fibre.tick_file (f : Fibre) : f.tick.file = f.file := by unfold Fibre.tick; split <;> rfl

/-- The register files of every fibre, bundles, pending kills and open event records stand as before, and so does the time. -/
structure State.Same (s r : State) : Prop where
  files   : ∀ t g l, (r.fibre? t g l).map Fibre.file = (s.fibre? t g l).map Fibre.file
  bundles : r.bundles = s.bundles
  kills   : r.kills = s.kills
  events  : ∀ t g, (r.group t g).map (·.event) = (s.group t g).map (·.event)
  now     : ∀ t, r.coreNow t = s.coreNow t

theorem State.Same.refl (s : State) : State.Same s s := ⟨fun _ _ _ => rfl, rfl, rfl, fun _ _ => rfl, fun _ => rfl⟩

theorem State.Same.trans {a b c : State} (h : State.Same a b) (k : State.Same b c) : State.Same a c :=
  ⟨fun t g l => (k.files t g l).trans (h.files t g l), k.bundles.trans h.bundles, k.kills.trans h.kills,
   fun t g => (k.events t g).trans (h.events t g), fun t => (k.now t).trans (h.now t)⟩

theorem State.coreNow_of_teams {s r : State} (h1 : r.teams = s.teams) (h2 : r.parts = s.parts) (t : Nat) : r.coreNow t = s.coreNow t := by
  simp only [State.coreNow, State.coreClock, State.part, State.team, h1, h2]

theorem State.Same.of_teams {s r : State} (h1 : r.teams = s.teams) (h2 : r.bundles = s.bundles) (h3 : r.kills = s.kills) (h4 : r.parts = s.parts) :
    State.Same s r :=
  ⟨fun t g l => by rw [State.fibre?_of_teams h1], h2, h3, fun t g => by simp only [State.group, State.team, h1], State.coreNow_of_teams h1 h4⟩

/-- A change of a team that keeps its partition keeps the time of its core. -/
theorem State.coreNow_modTeam (s : State) (t : Nat) (h : Team → Team) (hp : ∀ x, (h x).part = x.part) (u : Nat) : (s.modTeam t h).coreNow u = s.coreNow u := by
  have : ((s.modTeam t h).team u).map (fun x => x.part) = (s.team u).map (fun x => x.part) := by
    rw [State.team_modTeam]
    split
    · cases s.team u <;> simp [hp]
    · rfl
  simp only [State.coreNow, this]; rfl

theorem State.coreNow_modGroup (s : State) (t g : Nat) (h : Group → Group) (u : Nat) : (s.modGroup t g h).coreNow u = s.coreNow u :=
  State.coreNow_modTeam s t (fun x => x.modGroup g h) (fun _ => rfl) u

theorem State.Same.modGroup (s : State) (t g : Nat) (h : Group → Group) (hh : ∀ x, (h x).fibres = x.fibres) (he : ∀ x, (h x).event = x.event) :
    State.Same s (s.modGroup t g h) := by
  refine ⟨fun u k m => by rw [State.fibre?_modGroup _ _ _ _ _ _ _ hh], rfl, rfl, fun u k => ?_, State.coreNow_modGroup _ _ _ _⟩
  rw [State.group_modGroup]
  split
  · cases s.group u k <;> simp [he]
  · rfl

theorem State.Same.modTeam (s : State) (t : Nat) (h : Team → Team) (hg : ∀ x, (h x).groups = x.groups) (hp : ∀ x, (h x).part = x.part) :
    State.Same s (s.modTeam t h) := by
  have hk : ∀ u k, (s.modTeam t h).group u k = s.group u k := by
    intro u k
    simp only [State.group, State.team_modTeam]
    split
    · cases s.team u <;> simp [hg]
    · rfl
  exact ⟨fun u k m => by simp only [State.fibre?, hk], rfl, rfl, fun u k => by rw [hk], State.coreNow_modTeam _ _ _ hp⟩

theorem State.Same.modFibre (s : State) (t g l : Nat) (h : Fibre → Fibre) (hh : ∀ f, (h f).file = f.file) : State.Same s (s.modFibre t g l h) := by
  refine ⟨fun u k m => ?_, rfl, rfl, fun u k => ?_, State.coreNow_modGroup _ _ _ _⟩
  · rw [State.fibre?_modFibre]
    split
    · cases s.fibre? u k m <;> simp [hh]
    · rfl
  · simp only [State.modFibre, State.group_modGroup]
    split
    · cases s.group u k <;> simp [Group.modFibre]
    · rfl

theorem State.Same.foldl {α : Type} (ls : List α) (step : State → α → State) (hs : ∀ a x, State.Same a (step a x)) (s : State) :
    State.Same s (ls.foldl step s) := by
  induction ls generalizing s with
  | nil => exact .refl s
  | cons x ls ih => exact (hs s x).trans (ih _)

/-- Files of the fibres of one place. -/
theorem State.Same.fibre? {s r : State} (H : State.Same s r) {t g l : Nat} {f : Fibre} (hf : s.fibre? t g l = some f) :
    ∃ f', r.fibre? t g l = some f' ∧ f'.file = f.file := by
  have := H.files t g l
  rw [hf] at this
  cases hr : r.fibre? t g l with
  | none => rw [hr] at this; simp at this
  | some f' => rw [hr] at this; exact ⟨f', rfl, by simpa using this⟩

theorem State.Same.fibre {s r : State} (H : State.Same s r) (t g l : Nat) : (r.fibre t g l).file = (s.fibre t g l).file := by
  simp only [State.fibre_eq]
  have := H.files t g l
  cases hr : r.fibre? t g l <;> cases hs : s.fibre? t g l <;> rw [hr, hs] at this <;> simp_all

/-! ### Releases and writes -/

theorem Group.readyPath_fibres (g : Group) (i : Nat) : (g.readyPath i).fibres = g.fibres := by
  unfold Group.readyPath; split
  · rfl
  · dsimp only; split
    · rfl
    · split <;> rfl

theorem Group.readyPath_event (g : Group) (i : Nat) : (g.readyPath i).event = g.event := by
  unfold Group.readyPath; split
  · rfl
  · dsimp only; split
    · rfl
    · split <;> rfl

/-- Making waiting paths ready keeps what making one path ready keeps. -/
theorem Group.settleWaits_keeps {α : Type} (p : Group → α) (h1 : ∀ g i, p (g.readyPath i) = p g) (h2 : ∀ (g : Group) n, p { g with readyAt := n } = p g)
    (g : Group) (now : Nat) : p (g.settleWaits now) = p g := by
  unfold Group.settleWaits
  generalize g.paths.length = n
  induction n generalizing g with
  | zero => rfl
  | succ n ih =>
    unfold Group.settleGo
    split
    · rfl
    · rw [ih]; split
      · rw [h2, h1]
      · rw [h1]

theorem Group.settleWaits_event (g : Group) (now : Nat) : (g.settleWaits now).event = g.event :=
  Group.settleWaits_keeps (·.event) Group.readyPath_event (fun _ _ => rfl) g now

theorem Group.settleWaits_fibres (g : Group) (now : Nat) : (g.settleWaits now).fibres = g.fibres :=
  Group.settleWaits_keeps (·.fibres) Group.readyPath_fibres (fun _ _ => rfl) g now

theorem State.Same.modSlice (s : State) (k : Nat) (h : Slice → Slice) : State.Same s (s.modSlice k h) := ⟨fun _ _ _ => rfl, rfl, rfl, fun _ _ => rfl, fun _ => rfl⟩

theorem State.Same.setMem (s : State) (m : Memory) : State.Same s { s with mem := m } := ⟨fun _ _ _ => rfl, rfl, rfl, fun _ _ => rfl, fun _ => rfl⟩

theorem State.Same.opLane (s : State) (op lane : Nat) (ws : List (RName × Word)) : State.Same s (s.opLane op lane ws) :=
  ⟨fun _ _ _ => rfl, rfl, rfl, fun _ _ => rfl, fun _ => rfl⟩

theorem State.Same.modCore (s : State) (k : Nat) (h : Core → Core) : State.Same s (s.modCore k h) := ⟨fun _ _ _ => rfl, rfl, rfl, fun _ _ => rfl, fun _ => rfl⟩

theorem State.Same.release (s : State) (t g l op : Nat) (ws : List (RName × Word)) : State.Same s (s.release t g l op ws) := by
  unfold State.release
  refine (((State.Same.opLane s op l ws).trans (.modFibre _ t g l _ ?_)).trans (.modGroup _ t g _ ?_ ?_)).trans (.modTeam _ t _ ?_ ?_)
  · intro f; rfl
  · intro x; exact Group.settleWaits_fibres _ _
  · intro x; exact Group.settleWaits_event _ _
  · intro x; rfl
  · intro x; rfl

theorem State.Same.acquireGo (s : State) (k : Nat) (uo : Bool) : State.Same s (s.acquireGo k uo).1 :=
  ⟨fun _ _ _ => rfl, rfl, rfl, fun _ _ => rfl, fun _ => rfl⟩

theorem State.Same.forsake (s : State) (k l : Nat) : State.Same s (s.forsake k l).1 := by
  unfold State.forsake
  split
  · split
    · exact .refl _
    · exact State.Same.modCore s k (fun c => c.dropLine l)
  · exact .refl _

theorem State.Same.foldlFst {α β : Type} (ls : List α) (step : State × β → α → State × β) (hs : ∀ a x, State.Same a.1 (step a x).1) (a : State × β) :
    State.Same a.1 (ls.foldl step a).1 := by
  induction ls generalizing a with
  | nil => exact .refl _
  | cons x ls ih => exact (hs a x).trans (ih _)

theorem State.Same.judgeLane (m : Monitor) (w : Word) (a : State × List HomeEvent) (l : Nat) : State.Same a.1 (State.judgeLane m w a l).1 := by
  unfold State.judgeLane
  split
  · split
    · dsimp only; split
      · exact ((State.Same.release _ _ _ _ _ _).trans (State.Same.acquireGo _ _ _)).trans (State.Same.forsake _ _ _)
      · exact State.Same.release _ _ _ _ _ _
    · exact .refl _
  · exact .refl _

theorem State.Same.judgeMon (s : State) (sk : Nat) (m : Monitor) : State.Same s (s.judgeMon sk m).1 := by
  have h := State.Same.foldlFst (List.range 32) (State.judgeLane m (s.word m.pa)) (State.Same.judgeLane m _) (s, [])
  unfold State.judgeMon
  generalize (List.range 32).foldl (State.judgeLane m (s.word m.pa)) (s, []) = r at h ⊢
  dsimp only at h ⊢
  split
  · exact h
  · dsimp only; exact h.trans (State.Same.modSlice r.1 sk _)

theorem State.Same.judge (s : State) (pa : Nat) : State.Same s (s.judge pa).1 := by
  unfold State.judge
  dsimp only
  split
  · exact .refl _
  · generalize hr : s.modSlice _ _ = r
    have h : State.Same s r := hr ▸ State.Same.modSlice s _ _
    have hn : ∀ a m, State.Same a.1 (State.judgeNext (homeKey pa) a m).1 := by
      intro a m
      have := State.Same.judgeMon a.1 (homeKey pa) m
      unfold State.judgeNext
      generalize a.1.judgeMon (homeKey pa) m = q at this ⊢
      exact this
    exact h.trans (State.Same.foldlFst _ _ hn (r, []))

theorem State.Same.hostOut (s : State) (w : HomeEvent) : State.Same s (s.hostOut w) := by
  unfold State.hostOut
  split
  · exact .refl _
  · dsimp only; split
    · unfold State.snoop; split <;> exact .of_teams rfl rfl rfl rfl
    · exact .refl _

theorem State.Same.homeGo (n : Nat) (ws : List HomeEvent) (s : State) : State.Same s (State.homeGo n ws s) := by
  induction n generalizing ws s with
  | zero => exact .setMem _ _
  | succ n ih =>
    cases ws with
    | nil => exact .refl _
    | cons w rest =>
      exact (((State.Same.hostOut s w).trans (State.Same.setMem _ (memEvent s.mem w))).trans (State.Same.judge _ _)).trans (ih _ _)

theorem State.Same.homeWrites (s : State) (ws : List HomeEvent) : State.Same s (s.homeWrites ws) := by
  unfold State.homeWrites; exact .foldl _ _ (fun a (w : HomeEvent) => .homeGo 4096 [w] a) s

theorem State.Same.homeWrite (s : State) (pa : Nat) (bs : List Byte) : State.Same s (s.homeWrite pa bs) := by
  unfold State.homeWrite; split
  · exact .refl _
  · split <;> exact .homeWrites _ _

theorem State.Same.acquire (s : State) (k : Nat) (uo : Bool) : State.Same s (s.acquire k uo) := by
  unfold State.acquire; exact (State.Same.acquireGo s k uo).trans (.homeWrites _ _)

theorem State.Same.setCtxWord (s : State) (k off v : Nat) : State.Same s (s.setCtxWord k off v) := .homeWrite _ _ _

theorem State.Same.bumpCtx (s : State) (k off : Nat) : State.Same s (s.bumpCtx k off) := by
  unfold State.bumpCtx; split
  · exact .refl _
  · exact .setCtxWord _ _ _ _

theorem State.Same.eventWrite (s : State) (k : Nat) (bytes : List Byte) : State.Same s (s.eventWrite k bytes) := by
  unfold State.eventWrite; split
  · exact .refl _
  · dsimp only; split
    · exact .bumpCtx _ _ _
    · exact (State.Same.homeWrite _ _ _).trans (.setCtxWord _ _ _ _)

theorem State.Same.closeEvent (s : State) (tid g : Nat) (e : EventRec) : State.Same s (s.closeEvent tid g e) := by
  unfold State.closeEvent; split
  · exact .refl _
  · split
    · exact .modGroup _ _ _ _ (fun _ => rfl) (fun _ => rfl)
    · exact .eventWrite _ _ _

theorem State.Same.countClocks (s : State) (w : Who) : State.Same s (s.countClocks w) := by
  rw [State.countClocks_eq]; exact .foldl _ _ (fun a (x : Nat × Nat) => .modFibre a w.team x.1 x.2 Fibre.tick Fibre.tick_file) s

/-! ### Logging arithmetic events -/

/-- The same but for the open event record of one group. -/
structure State.SameBut (t g : Nat) (h : Option EventRec → Option EventRec) (s r : State) : Prop where
  files   : ∀ t g l, (r.fibre? t g l).map Fibre.file = (s.fibre? t g l).map Fibre.file
  bundles : r.bundles = s.bundles
  kills   : r.kills = s.kills
  events  : ∀ u k, (r.group u k).map (·.event) = if t = u ∧ g = k then (s.group u k).map (fun x => h x.event) else (s.group u k).map (·.event)
  now     : ∀ t, r.coreNow t = s.coreNow t

theorem State.SameBut.modGroup (s : State) (t g : Nat) (h : Option EventRec → Option EventRec) :
    State.SameBut t g h s (s.modGroup t g (fun x => { x with event := h x.event })) := by
  refine ⟨fun u k m => ?_, rfl, rfl, fun u k => ?_, State.coreNow_modGroup _ _ _ _⟩
  · rw [State.fibre?_modGroup _ _ _ _ _ _ _ (by intros; rfl)]
  · rw [State.group_modGroup]
    split
    · cases s.group u k <;> simp
    · rfl

theorem State.SameBut.after {t g : Nat} {h : Option EventRec → Option EventRec} {a b c : State} (H : State.Same a b) (K : State.SameBut t g h b c) :
    State.SameBut t g h a c := by
  refine ⟨fun u k m => (K.files u k m).trans (H.files u k m), K.bundles.trans H.bundles, K.kills.trans H.kills, fun u k => ?_, fun t => (K.now t).trans (H.now t)⟩
  rw [K.events]
  have := H.events u k
  split
  · cases hb : b.group u k <;> cases ha : a.group u k <;> rw [hb, ha] at this <;> simp_all
  · exact this

theorem State.SameBut.congr {t g : Nat} {h k : Option EventRec → Option EventRec} {a b : State} (H : State.SameBut t g h a b)
    (e : ∀ x, a.group t g = some x → h x.event = k x.event) : State.SameBut t g k a b := by
  refine ⟨H.files, H.bundles, H.kills, fun u m => ?_, H.now⟩
  rw [H.events]
  split
  · rename_i hc
    obtain ⟨rfl, rfl⟩ := hc
    cases hx : a.group t g with
    | none => rfl
    | some x => simp [e x hx]
  · rfl

/-- R359: one event joins the open record of its group, or opens one. -/
theorem State.logEvent_marks (s : State) (t g cause : Nat) (clause : VAddr) :
    State.SameBut t g (EventRec.mark clause (s.coreNow t) cause) s (s.logEvent t g cause clause) := by
  unfold State.logEvent
  cases hx : s.group t g with
  | none =>
    dsimp only [Option.bind]
    exact (State.SameBut.modGroup s t g (fun _ => some ⟨cause, clause, 1, s.coreNow t⟩)).congr (by intro x h; rw [hx] at h; simp at h)
  | some x =>
    dsimp only [Option.bind]
    cases he : x.event with
    | none =>
      dsimp only
      exact (State.SameBut.modGroup s t g (fun _ => some ⟨cause, clause, 1, s.coreNow t⟩)).congr (by
        intro y h; rw [hx] at h; simp only [Option.some.injEq] at h; subst h; simp [he, EventRec.mark])
    | some e =>
      dsimp only
      split
      · rename_i hc
        exact (State.SameBut.modGroup s t g (fun _ => some { e with count := e.count + 1 })).congr (by
          intro y h; rw [hx] at h; simp only [Option.some.injEq] at h; subst h; simp only [he, EventRec.mark, hc, if_true])
      · rename_i hc
        have h2 := State.SameBut.after (State.Same.closeEvent s t g e)
          (State.SameBut.modGroup (s.closeEvent t g e) t g (fun _ => some ⟨cause, clause, 1, s.coreNow t⟩))
        exact h2.congr (by
          intro y h; rw [hx] at h; simp only [Option.some.injEq] at h; subst h; simp only [he, EventRec.mark, hc, if_false, Bool.false_eq_true])

theorem State.SameBut.comp {t g : Nat} {h k : Option EventRec → Option EventRec} {a b c : State} (H : State.SameBut t g h a b)
    (K : State.SameBut t g k b c) : State.SameBut t g (fun e => k (h e)) a c := by
  refine ⟨fun u m l => (K.files u m l).trans (H.files u m l), K.bundles.trans H.bundles, K.kills.trans H.kills, fun u m => ?_, fun t => (K.now t).trans (H.now t)⟩
  have := H.events u m
  rw [K.events]
  split
  · rename_i hc
    rw [if_pos hc] at this
    cases hb : b.group u m <;> cases ha : a.group u m <;> rw [hb, ha] at this <;> simp_all
  · rename_i hc
    rw [if_neg hc] at this; exact this

/-- Several events of one instruction (R359). -/
theorem State.logEvents_marks (s : State) (t g : Nat) (clause : VAddr) (causes : List Nat) :
    State.SameBut t g (fun e => causes.foldl (fun e c => EventRec.mark clause (s.coreNow t) c e) e) s (s.logEvents t g clause causes) := by
  unfold State.logEvents
  induction causes generalizing s with
  | nil => exact ⟨fun _ _ _ => rfl, rfl, rfl, fun u k => by simp, fun _ => rfl⟩
  | cons c cs ih =>
    have h1 := State.logEvent_marks s t g c clause
    have h2 := ih (s.logEvent t g c clause)
    rw [h1.now] at h2
    simpa only [List.foldl_cons] using h1.comp h2

end Sys2Proof.Machine
end

