-- ==== Sys2Proof/Laws/Alu.lean ====
section
/-!
SUPPORT. Register-only instructions: what the part holds after one all of whose performing fibres pass their checks.
-/

namespace Sys2Proof.Machine

theorem State.fibre_of_fibre? {s r : State} {t g l : Nat} (h : s.fibre? t g l = r.fibre? t g l) : s.fibre t g l = r.fibre t g l := by
  simp only [State.fibre_eq, h]

/-! ### A fold over distinct fibres -/

/-- A fold over distinct fibres, each step of which changes its own fibre alone. -/
theorem State.foldl_ownFibre (t : Nat) (step : State → Nat × Nat → State) (h : Nat × Nat → Fibre → Fibre) (s : State) (ls : List (Nat × Nat))
    (hd : ls.Nodup) (hstep : ∀ a : State, ∀ x ∈ ls, { a with teams := s.teams } = s → a.fibre? t x.1 x.2 = s.fibre? t x.1 x.2 →
      step a x = a.modFibre t x.1 x.2 (h x)) :
    ls.foldl step s = ls.foldl (fun a x => a.modFibre t x.1 x.2 (h x)) s := by
  suffices ∀ (ls : List (Nat × Nat)) (a : State), ls.Nodup →
      (∀ a : State, ∀ x ∈ ls, { a with teams := s.teams } = s → a.fibre? t x.1 x.2 = s.fibre? t x.1 x.2 → step a x = a.modFibre t x.1 x.2 (h x)) →
      { a with teams := s.teams } = s → (∀ x ∈ ls, a.fibre? t x.1 x.2 = s.fibre? t x.1 x.2) →
      ls.foldl step a = ls.foldl (fun a x => a.modFibre t x.1 x.2 (h x)) a from
    this ls s hd hstep rfl (fun _ _ => rfl)
  intro ls
  induction ls with
  | nil => intros; rfl
  | cons x ls ih =>
    intro a hnd hst hr ha
    simp only [List.foldl_cons]
    rw [hst a x (by simp) hr (ha x (by simp))]
    apply ih
    · exact (List.nodup_cons.1 hnd).2
    · intro b y hy; exact hst b y (by simp [hy])
    · exact hr
    · intro y hy
      rw [State.fibre?_modFibre, if_neg, ha y (by simp [hy])]
      intro hc
      simp only [Prod.mk.injEq, true_and] at hc
      have : x = y := Prod.ext hc.1 hc.2
      subst this
      exact (List.nodup_cons.1 hnd).1 hy

/-! ### Changes of registers and clocks alone -/

theorem State.team_eq_of_rest {s r : State} (h : r.rest = s.rest) : r.bundles = s.bundles ∧ r.kills = s.kills :=
  ⟨(congrArg State.bundles h : _), (congrArg State.kills h : _)⟩

theorem List.map_modify_of_eq {α β : Type} (f : α → β) (h : α → α) (hh : ∀ x, f (h x) = f x) (ls : List α) (i : Nat) :
    (ls.modify i h).map f = ls.map f := by
  induction ls generalizing i with
  | nil => simp
  | cons x ls ih =>
    cases i with
    | zero => simp [hh]
    | succ i => simp [ih]

theorem Group.rest_modFibre (g : Group) (l : Nat) (h : Fibre → Fibre) (hh : ∀ f, (h f).rest = f.rest) : (g.modFibre l h).rest = g.rest := by
  simp only [Group.rest, Group.modFibre, List.map_modify_of_eq Fibre.rest h hh]

theorem Team.rest_modGroup (t : Team) (g : Nat) (h : Group → Group) (hh : ∀ x, (h x).rest = x.rest) : (t.modGroup g h).rest = t.rest := by
  simp only [Team.rest, Team.modGroup, List.map_modify_of_eq Group.rest h hh]

theorem fmod_map {α β : Type} (h : α → α) (f : α → β) (hh : ∀ x, f (h x) = f x) (m : List (Nat × α)) (k : Nat) :
    (fmod m k h).map (fun e => (e.1, f e.2)) = m.map (fun e => (e.1, f e.2)) := by
  induction m with
  | nil => rfl
  | cons x m ih =>
    simp only [fmod, List.map_cons] at ih ⊢
    by_cases hx : x.1 = k <;> simp_all

theorem State.rest_modFibre (s : State) (t g l : Nat) (h : Fibre → Fibre) (hh : ∀ f, (h f).rest = f.rest) : (s.modFibre t g l h).rest = s.rest := by
  have h1 : (s.modFibre t g l h).teams.map (fun e => (e.1, e.2.rest)) = s.teams.map (fun e => (e.1, e.2.rest)) := by
    simp only [State.modFibre, State.modGroup, State.modTeam_teams]
    exact fmod_map _ Team.rest (fun x => Team.rest_modGroup x g _ (fun y => Group.rest_modFibre y l h hh)) _ _
  unfold State.rest
  rw [h1]; rfl

theorem Fibre.rest_write (f : Fibre) (pos lat : Nat) (w : RName × Word) : (f.write pos lat w).rest = f.rest := by
  obtain ⟨n, v⟩ := w
  cases n with
  | v r => rfl
  | p q => by_cases hq : q = 7#3 <;> simp [Fibre.write, Fibre.put, Fibre.rest, hq]

theorem Fibre.rest_writeAll (f : Fibre) (pos lat : Nat) (ws : List (RName × Word)) : (f.writeAll pos lat ws).rest = f.rest := by
  unfold Fibre.writeAll
  induction ws generalizing f with
  | nil => rfl
  | cons w ws ih => simp only [List.foldl_cons, ih, Fibre.rest_write]

theorem Fibre.rest_tick (f : Fibre) : f.tick.rest = f.rest := by unfold Fibre.tick; split <;> rfl

theorem Fibre.lclk_writeAll (f : Fibre) (pos lat : Nat) (ws : List (RName × Word)) : (f.writeAll pos lat ws).lclk = f.lclk ∧
    (f.writeAll pos lat ws).leave = f.leave := by
  unfold Fibre.writeAll
  induction ws generalizing f with
  | nil => exact ⟨rfl, rfl⟩
  | cons w ws ih =>
    simp only [List.foldl_cons]
    refine ⟨(ih _).1.trans ?_, (ih _).2.trans ?_⟩ <;>
    · obtain ⟨n, v⟩ := w
      cases n with
      | v r => rfl
      | p q => by_cases hq : q = 7#3 <;> simp [Fibre.write, Fibre.put, hq]

theorem State.rest_countClocks (s : State) (w : Who) : (s.countClocks w).rest = s.rest := by
  rw [State.countClocks_eq]
  exact State.foldl_keeps State.rest w.active (fun a x => a.modFibre w.team x.1 x.2 Fibre.tick)
    (fun a x => State.rest_modFibre a _ _ _ _ Fibre.rest_tick) s

/-! ### What the fibres hold afterwards -/

/-- Each performing fibre's file has the words written to it; every other file stands. -/
def FilesAfter (s : State) (w : Who) (perf : List (Nat × Nat)) (lat : Nat) (ws : Nat × Nat → List (RName × Word)) (r : State) : Prop :=
  ∀ t g l, (r.fibre? t g l).map Fibre.file = if t = w.team ∧ (g, l) ∈ perf then (s.fibre? t g l).map (fun f => (f.writeAll w.pos lat (ws (g, l))).file)
    else (s.fibre? t g l).map Fibre.file

theorem State.fibre_file_of {s r : State} {t g l : Nat} (h : (r.fibre? t g l).map Fibre.file = (s.fibre? t g l).map Fibre.file) :
    (r.fibre t g l).file = (s.fibre t g l).file := by
  simp only [State.fibre_eq]
  cases hr : r.fibre? t g l <;> cases hs : s.fibre? t g l <;> rw [hr, hs] at h <;> simp_all

/-- The registers and predicates that an instruction writes can be written in every performing fibre. -/
theorem Issues.holds {i : Instr} {s : State} {w : Who} {c : Ctl} {t : Team} (H : Issues s i w c t) {x : Nat × Nat} (hx : x ∈ s.performers w c)
    {n : RName} (hn : n ∈ i.writes) (hp : n ≠ .p 7#3) : (s.fibre w.team x.1 x.2).holds n := by
  obtain ⟨f, hf, hl⟩ := H.files x (State.mem_performers hx)
  have hv := H.passes x hx
  have hfe : s.fibre w.team x.1 x.2 = f := by simp [State.fibre_eq, hf]
  rw [hfe]
  cases n with
  | p p => intro hc; exact hp (by rw [hc])
  | v r =>
    simp only [State.verdict, laneCheck] at hv
    split at hv
    · simp at hv
    · rename_i ho
      simp only [Bool.or_eq_true, not_or, List.any_eq_true, not_exists, not_and] at ho
      have := ho.2 (.v r) hn
      simp only [RName.outside, decide_eq_true_eq, not_le] at this
      simp only [Fibre.holds, hl]; exact this

/-- Reading results back, from what the files hold. -/
theorem FilesAfter.writes {i : Instr} {s r : State} {w : Who} {c : Ctl} {t : Team} (H : Issues s i w c t) {lat : Nat}
    {ws : Nat × Nat → List (RName × Word)} (K : FilesAfter s w (s.performers w c) lat ws r) (out : Nat × Nat → List (RName × Word))
    (hw : ∀ x ∈ s.performers w c, ∀ e ∈ ws x, (s.fibre w.team x.1 x.2).holds e.1 ∨ e.1 = .p 7#3)
    (ho : ∀ x ∈ s.performers w c, ∀ n, n ≠ .p 7#3 → (out x).lookup n = ((ws x).reverse.lookup n).map n.keep) :
    Writes s w c lat out r := by
  have key : ∀ x ∈ s.performers w c, (r.fibre w.team x.1 x.2).file = ((s.fibre w.team x.1 x.2).writeAll w.pos lat (ws x)).file := by
    intro x hx
    obtain ⟨f, hf, _⟩ := H.files x (State.mem_performers hx)
    have h1 := K w.team x.1 x.2
    rw [if_pos ⟨rfl, hx⟩, hf] at h1
    cases hr : r.fibre? w.team x.1 x.2 with
    | none => rw [hr] at h1; simp at h1
    | some f' =>
      rw [hr] at h1
      simp only [State.fibre_eq, hr, hf, Option.getD_some]
      simpa using h1
  refine ⟨?_, ?_, ?_⟩
  · intro x hx p n v hn hp hl
    rw [Fibre.view_file (key x hx)]
    have hb := (Fibre.view_writeAll_lookup _ w.pos lat p (ws x) (hw x hx) n hn).1
    rw [ho x hx n hn] at hl
    cases hq : (ws x).reverse.lookup n with
    | none => rw [hq] at hl; simp at hl
    | some u =>
      rw [hq] at hl
      simp only [Option.map_some, Option.some.injEq] at hl
      rw [hb u hp hq, hl]
  · intro x hx p n hn hl
    rw [Fibre.view_file (key x hx)]
    rw [ho x hx n hn] at hl
    exact (Fibre.view_writeAll_lookup _ w.pos lat p (ws x) (hw x hx) n hn).2 (by simpa using hl)
  · intro t g l hne p n
    have h1 := K t g l
    rw [if_neg hne] at h1
    exact Fibre.view_file (State.fibre_file_of h1) p n

/-! ### Issuing: the fibres one after another -/

theorem State.activeOf_run {s : State} {b : Bundle} {x : Nat × Nat} (h : x ∈ s.activeOf b) : (s.fibre b.team x.1 x.2).leave = .run := by
  simp only [State.activeOf, List.mem_flatMap, List.mem_map, List.mem_filter, decide_eq_true_eq] at h
  obtain ⟨m, _, l, ⟨_, hl⟩, rfl⟩ := h
  exact hl

theorem State.who_run {s : State} {w : Who} (h : s.who = some w) {x : Nat × Nat} (hx : x ∈ w.active) : (s.fibre w.team x.1 x.2).leave = .run := by
  unfold State.who at h
  split at h
  · simp at h
  · split at h
    · simp at h
    · simp only [Option.some.injEq] at h
      subst h
      exact State.activeOf_run hx

/-- An instruction whose meaning changes each performing fibre by itself and nothing else. -/
theorem native_changes {i : Instr} {s : State} {w : Who} {c : Ctl} {t : Team} (H : Issues s i w c t) (body : Who → State → State)
    (step : State → Nat × Nat → State) (lat : Nat) (ws : Nat × Nat → List (RName × Word)) (upd : Nat × Nat → Fibre → Fibre)
    (hu1 : ∀ x f, (upd x f).rest = f.rest) (hu2 : ∀ x f, (upd x f).lclk = f.lclk)
    (hu3 : ∀ x ∈ s.performers w c, ∀ f, s.fibre? w.team x.1 x.2 = some f → (upd x f).file = (f.writeAll w.pos lat (ws x)).file)
    (hbody : body (w.by (s.performers w c)) s = (s.performers w c).foldl step s)
    (hstep : ∀ a : State, ∀ x ∈ s.performers w c, { a with teams := s.teams } = s → a.fibre? w.team x.1 x.2 = s.fibre? w.team x.1 x.2 →
      step a x = a.modFibre w.team x.1 x.2 (upd x)) :
    ∃ s', native i s body = .next s' ∧ FilesAfter s w (s.performers w c) lat ws s' ∧ OnlyRegisters s w s' := by
  have hd : (s.performers w c).Nodup := H.distinct.filter _
  have hb := hbody.trans (State.foldl_ownFibre w.team step upd s (s.performers w c) hd hstep)
  have hr : (body (w.by (s.performers w c)) s).rest = s.rest := by
    rw [hb]
    exact State.foldl_keeps State.rest (s.performers w c) (fun a x => a.modFibre w.team x.1 x.2 (upd x))
      (fun a x => State.rest_modFibre a _ _ _ _ (hu1 x)) s
  have hn := native_next H body (State.team_eq_of_rest hr).1 ((State.team_eq_of_rest hr).2.trans H.quiet)
  have hempty : (if (s.performers w c).isEmpty then s else body (w.by (s.performers w c)) s) = body (w.by (s.performers w c)) s := by
    split
    · rename_i he
      rw [hb, List.isEmpty_iff.1 he]; rfl
    · rfl
  rw [hempty] at hn
  have hf? : ∀ t g l, ((body (w.by (s.performers w c)) s).countClocks w).fibre? t g l =
      if t = w.team ∧ (g, l) ∈ w.active then (s.fibre? t g l).map (fun f =>
        (if (g, l) ∈ s.performers w c then upd (g, l) f else f).tick) else s.fibre? t g l := by
    intro u g l
    by_cases hu : u = w.team
    · subst hu
      rw [State.countClocks_fibre? _ _ H.distinct, hb]
      have hf := State.foldl_modFibre w.team upd (s.performers w c) hd s g l
      rw [hf]
      by_cases ha : (g, l) ∈ w.active
      · simp only [ha, if_true, true_and]
        by_cases hp : (g, l) ∈ s.performers w c
        · simp only [hp, if_true]
          cases hx : s.fibre? w.team g l <;> simp
        · simp only [hp, if_false]
      · have hp : (g, l) ∉ s.performers w c := fun hp => ha (State.mem_performers hp)
        simp only [ha, hp, if_false, and_false]
    · simp only [hu, false_and, if_false]
      rw [State.countClocks_eq, hb]
      have e1 : ∀ (ls : List (Nat × Nat)) (h : Nat × Nat → Fibre → Fibre) (a : State),
          (ls.foldl (fun a x => a.modFibre w.team x.1 x.2 (h x)) a).fibre? u g l = a.fibre? u g l := by
        intro ls h a
        exact State.foldl_keeps (fun a => a.fibre? u g l) ls (fun a x => a.modFibre w.team x.1 x.2 (h x)) (by
          intro a x
          rw [State.fibre?_modFibre, if_neg]
          intro hc; simp only [Prod.mk.injEq] at hc; exact hu hc.1.symm) a
      rw [e1 w.active (fun _ => Fibre.tick), e1]
  refine ⟨_, hn, ?_, ?_, ?_⟩
  · intro u g l
    rw [hf?]
    by_cases ha : u = w.team ∧ (g, l) ∈ w.active
    · rw [if_pos ha]
      by_cases hp : (g, l) ∈ s.performers w c
      · rw [if_pos ⟨ha.1, hp⟩]
        obtain ⟨rfl, _⟩ := ha
        cases hf : s.fibre? w.team g l with
        | none => rfl
        | some f =>
          simp only [Option.map_some, hp, if_true, Fibre.tick_file]
          rw [hu3 (g, l) hp f hf]
      · rw [if_neg (by tauto)]
        cases s.fibre? u g l <;> simp [hp, Fibre.tick_file]
    · rw [if_neg ha, if_neg (fun hc => ha ⟨hc.1, State.mem_performers hc.2⟩)]
  · rw [State.rest_countClocks, hr]
  · intro u g l
    rw [hf?]
    by_cases ha : u = w.team ∧ (g, l) ∈ w.active
    · rw [if_pos ha]
      simp only [ha, and_self, if_true]
      obtain ⟨rfl, hx⟩ := ha
      have hrun := State.who_run H.who hx
      cases hf : s.fibre? w.team g l with
      | none => rfl
      | some f =>
        simp only [State.fibre_eq, hf, Option.getD_some] at hrun
        have hlv : (upd (g, l) f).leave = f.leave := by
          have h9 := congrArg Fibre.leave (hu1 (g, l) f); exact h9
        simp only [Option.map_some, Option.some.injEq, Fibre.tick]
        split
        · simp only [hlv, hrun, Leave.finished, if_true, hu2]
        · simp only [hrun, Leave.finished, if_true]
    · rw [if_neg ha]
      simp only [ha, if_false]

/-- The same, for words that are known in advance. -/
theorem native_silent {i : Instr} {s : State} {w : Who} {c : Ctl} {t : Team} (H : Issues s i w c t) (body : Who → State → State)
    (step : State → Nat × Nat → State) (lat : Nat) (ws : Nat × Nat → List (RName × Word))
    (hbody : body (w.by (s.performers w c)) s = (s.performers w c).foldl step s)
    (hstep : ∀ a : State, ∀ x ∈ s.performers w c, { a with teams := s.teams } = s → a.fibre? w.team x.1 x.2 = s.fibre? w.team x.1 x.2 →
      step a x = a.modFibre w.team x.1 x.2 (fun f => f.writeAll w.pos lat (ws x))) :
    ∃ s', native i s body = .next s' ∧ FilesAfter s w (s.performers w c) lat ws s' ∧ OnlyRegisters s w s' :=
  native_changes H body step lat ws (fun x f => f.writeAll w.pos lat (ws x)) (fun _ f => Fibre.rest_writeAll f _ _ _)
    (fun _ f => (Fibre.lclk_writeAll f _ _ _).1) (fun _ _ _ _ => rfl) hbody hstep

/-! ### Register-only instructions -/

/-- A result whose names the instruction announces, written as `Computes` tells it. -/
structure Outs (i : Instr) (ws out : Fibre → List (RName × Word)) : Prop where
  names : ∀ f, ∀ e ∈ ws f, e.1 ∈ i.writes ∨ e.1 = .p 7#3
  same  : ∀ f n, n ≠ .p 7#3 → (out f).lookup n = ((ws f).reverse.lookup n).map n.keep

/-- An instruction that logs nothing. -/
theorem alu_computes {i : Instr} {h : Fibre → Nat → AluRes} {s : State} {w : Who} {c : Ctl} {t : Team} (H : Issues s i w c t)
    (he : exec i s = alu i s h) (ws out : Fibre → List (RName × Word)) (hr : ∀ f, h f w.pos = .ok (ws f) []) (ho : Outs i ws out) :
    Computes i s w c out := by
  obtain ⟨s', h1, h2, h3⟩ := native_silent H (aluBody i h) (State.aluLane i h (w.by (s.performers w c))) i.latency
    (fun x => ws (s.fibre w.team x.1 x.2)) rfl (by
      intro a x _ _ ha
      simp only [State.aluLane]
      rw [show h (a.fibre (w.by (s.performers w c)).team x.1 x.2) (w.by (s.performers w c)).pos = .ok (ws (s.fibre w.team x.1 x.2)) [] by
        rw [← State.fibre_of_fibre? ha]; exact hr _]
      rfl)
  refine ⟨s', he.trans h1, h2.writes H (fun x => out (s.fibre w.team x.1 x.2)) ?_ ?_, h3⟩
  · intro x hx e hm
    rcases ho.names _ e hm with hn | hn
    · by_cases hp : e.1 = .p 7#3
      · exact .inr hp
      · exact .inl (H.holds hx hn hp)
    · exact .inr hn
  · intro x _ n hn; exact ho.same _ n hn

/-- Files and event records after a fold over distinct fibres, each of which writes its results and logs its events. -/
theorem foldl_logs {t : Nat} (pos lat : Nat) (clause : VAddr) (step : State → Nat × Nat → State) (ws : Fibre → List (RName × Word)) (ev : Fibre → List Nat)
    (hw : ∀ f g : Fibre, f.file = g.file → ws f = ws g ∧ ev f = ev g) (s : State)
    (hstep : ∀ a x, step a x = (a.modFibre t x.1 x.2 (fun f => f.writeAll pos lat (ws (a.fibre t x.1 x.2)))).logEvents t x.1 clause (ev (a.fibre t x.1 x.2)))
    (ls : List (Nat × Nat)) (hd : ls.Nodup) :
    (∀ u g l, ((ls.foldl step s).fibre? u g l).map Fibre.file = if u = t ∧ (g, l) ∈ ls then
        (s.fibre? u g l).map (fun f => (f.writeAll pos lat (ws (s.fibre t g l))).file) else (s.fibre? u g l).map Fibre.file) ∧
    (ls.foldl step s).bundles = s.bundles ∧ (ls.foldl step s).kills = s.kills ∧ (ls.foldl step s).coreNow t = s.coreNow t ∧
    (∀ g, ((ls.foldl step s).group t g).map (·.event) = (s.group t g).map (fun y =>
      (ls.filter (fun x => decide (x.1 = g))).foldl (fun e x => (ev (s.fibre t x.1 x.2)).foldl (fun e k => EventRec.mark clause (s.coreNow t) k e) e) y.event)) := by
  induction ls generalizing s with
  | nil => exact ⟨by simp, rfl, rfl, rfl, by simp⟩
  | cons x ls ih =>
    obtain ⟨hx, hls⟩ := List.nodup_cons.1 hd
    generalize hb : step s x = b
    rw [hstep] at hb
    have hm := State.logEvents_marks (s.modFibre t x.1 x.2 (fun f => f.writeAll pos lat (ws (s.fibre t x.1 x.2)))) t x.1 clause (ev (s.fibre t x.1 x.2))
    rw [hb] at hm
    obtain ⟨k1, k2, k3, k4, k5⟩ := ih b hls
    have hbf : ∀ u g l, (b.fibre? u g l).map Fibre.file = if (t, x.1, x.2) = (u, g, l) then
        (s.fibre? u g l).map (fun f => (f.writeAll pos lat (ws (s.fibre t x.1 x.2))).file) else (s.fibre? u g l).map Fibre.file := by
      intro u g l
      rw [hm.files, State.fibre?_modFibre]
      split
      · cases s.fibre? u g l <;> rfl
      · rfl
    have hfile : ∀ g l, (g, l) ≠ x → (b.fibre t g l).file = (s.fibre t g l).file := by
      intro g l hne
      apply State.fibre_file_of
      rw [hbf, if_neg]
      intro hc; simp only [Prod.mk.injEq, true_and] at hc; exact hne (Prod.ext hc.1.symm hc.2.symm)
    have hnow : b.coreNow t = s.coreNow t := (hm.now t).trans (State.coreNow_modGroup _ _ _ _ _)
    simp only [List.foldl_cons, hstep]
    rw [hb]
    refine ⟨?_, k2.trans hm.bundles, k3.trans hm.kills, k4.trans hnow, ?_⟩
    · intro u g l
      rw [k1]
      by_cases he : (g, l) = x
      · subst he
        rw [if_neg (by tauto)]
        rw [hbf]
        by_cases hu : u = t
        · subst hu; simp
        · rw [if_neg (by simp [Ne.symm hu]), if_neg (by tauto)]
      · by_cases hu : u = t ∧ (g, l) ∈ ls
        · rw [if_pos hu, if_pos ⟨hu.1, by simp [hu.2]⟩]
          obtain ⟨rfl, _⟩ := hu
          rw [(hw _ _ (hfile g l he)).1]
          have := hbf u g l
          rw [if_neg (by intro hc; simp only [Prod.mk.injEq, true_and] at hc; exact he (Prod.ext hc.1.symm hc.2.symm))] at this
          cases hbb : b.fibre? u g l <;> cases hss : s.fibre? u g l <;> rw [hbb, hss] at this
          · simp at this
          · simp at this
          · simp only [Option.map_some, Option.some.injEq] at this ⊢
            exact Fibre.writeAll_file this _ _ _
        · rw [if_neg hu, hbf, if_neg, if_neg]
          · intro hc; rcases List.mem_cons.1 hc.2 with h | h
            · exact he h
            · exact hu ⟨hc.1, h⟩
          · intro hc; simp only [Prod.mk.injEq] at hc; exact he (Prod.ext hc.2.1.symm hc.2.2.symm)
    · intro g
      rw [k5]
      have hev : ∀ (ms : List (Nat × Nat)) (e : Option EventRec), (∀ y ∈ ms, y ∈ ls) →
          ms.foldl (fun e x => (ev (b.fibre t x.1 x.2)).foldl (fun e k => EventRec.mark clause (b.coreNow t) k e) e) e
          = ms.foldl (fun e x => (ev (s.fibre t x.1 x.2)).foldl (fun e k => EventRec.mark clause (s.coreNow t) k e) e) e := by
        intro ms
        induction ms with
        | nil => intros; rfl
        | cons y ms ih2 =>
          intro e hy
          simp only [List.foldl_cons]
          have hyx : (y.1, y.2) ≠ x := by
            intro hc
            exact hx (by rw [← hc]; exact hy y (by simp))
          rw [(hw _ _ (hfile y.1 y.2 hyx)).2, hnow]
          have := ih2 ((ev (s.fibre t y.1 y.2)).foldl (fun e k => EventRec.mark clause (s.coreNow t) k e) e) (fun z hz => hy z (by simp [hz]))
          rw [hnow] at this
          exact this
      have hg := hm.events t g
      have hgs : ∀ y k, (s.modFibre t x.1 x.2 y).group t k = (s.group t k).map (fun z => if x.1 = k then z.modFibre x.2 y else z) := by
        intro y k
        simp only [State.modFibre, State.group_modGroup, true_and]
        by_cases hk : x.1 = k
        · simp [hk]
        · simp [hk]
      rw [hgs] at hg
      have hn2 : (s.modFibre t x.1 x.2 (fun f => f.writeAll pos lat (ws (s.fibre t x.1 x.2)))).coreNow t = s.coreNow t := State.coreNow_modGroup _ _ _ _ _
      by_cases hxg : x.1 = g
      · subst hxg
        simp only [and_self, if_true, hn2] at hg
        simp only [List.filter_cons, decide_true, if_true, List.foldl_cons]
        cases hbg : b.group t x.1 with
        | none => rw [hbg] at hg; cases hsg : s.group t x.1 with
          | none => rfl
          | some y => rw [hsg] at hg; simp at hg
        | some z =>
          rw [hbg] at hg
          cases hsg : s.group t x.1 with
          | none => rw [hsg] at hg; simp at hg
          | some y =>
            rw [hsg] at hg
            simp only [Option.map_some, Option.some.injEq] at hg ⊢
            rw [hg, hev _ _ (fun z hz => (List.mem_filter.1 hz).1)]
            rfl
      · simp only [true_and, if_neg hxg] at hg
        have hf1 : (x :: ls).filter (fun z => decide (z.1 = g)) = ls.filter (fun z => decide (z.1 = g)) := by simp [hxg]
        rw [hf1]
        cases hbg : b.group t g with
        | none => rw [hbg] at hg; cases hsg : s.group t g with
          | none => rfl
          | some y => rw [hsg] at hg; simp at hg
        | some z =>
          rw [hbg] at hg
          cases hsg : s.group t g with
          | none => rw [hsg] at hg; simp at hg
          | some y =>
            rw [hsg] at hg
            simp only [Option.map_some, Option.some.injEq] at hg ⊢
            rw [hg, hev _ _ (fun z hz => (List.mem_filter.1 hz).1)]

/-- What an instruction that may log events needs of its result: it depends on the register file alone. -/
structure Depends (pos : Nat) (h : Fibre → Nat → AluRes) (ws : Fibre → List (RName × Word)) (ev : Fibre → List Nat) : Prop where
  res  : ∀ f, h f pos = .ok (ws f) (ev f)
  file : ∀ f g : Fibre, f.file = g.file → ws f = ws g ∧ ev f = ev g

/-- An instruction that logs arithmetic events. -/
theorem alu_logs {i : Instr} {h : Fibre → Nat → AluRes} {s : State} {w : Who} {c : Ctl} {t : Team} (H : Issues s i w c t)
    (he : exec i s = alu i s h) (ws out : Fibre → List (RName × Word)) (ev : Fibre → List Nat) (hr : Depends w.pos h ws ev) (ho : Outs i ws out) :
    ComputesLogging i s w c out ev := by
  have hd : (s.performers w c).Nodup := H.distinct.filter _
  have hstep : ∀ a x, State.aluLane i h (w.by (s.performers w c)) a x = (a.modFibre w.team x.1 x.2
      (fun f => f.writeAll w.pos i.latency (ws (a.fibre w.team x.1 x.2)))).logEvents w.team x.1 w.clause (ev (a.fibre w.team x.1 x.2)) := by
    intro a x
    simp only [State.aluLane]
    rw [show h (a.fibre (w.by (s.performers w c)).team x.1 x.2) (w.by (s.performers w c)).pos
      = .ok (ws (a.fibre w.team x.1 x.2)) (ev (a.fibre w.team x.1 x.2)) from hr.res _]
    rfl
  obtain ⟨k1, k2, k3, k4, k5⟩ := foldl_logs w.pos i.latency w.clause (State.aluLane i h (w.by (s.performers w c))) ws ev hr.file s hstep
    (s.performers w c) hd
  have hbody : aluBody i h (w.by (s.performers w c)) s = (s.performers w c).foldl (State.aluLane i h (w.by (s.performers w c))) s := rfl
  rw [← hbody] at k1 k2 k3 k4 k5
  have hn := native_next H (aluBody i h) k2 (k3.trans H.quiet)
  have hempty : (if (s.performers w c).isEmpty then s else aluBody i h (w.by (s.performers w c)) s) = aluBody i h (w.by (s.performers w c)) s := by
    split
    · rename_i he
      rw [hbody, List.isEmpty_iff.1 he]; rfl
    · rfl
  rw [hempty] at hn
  have hc := State.Same.countClocks (aluBody i h (w.by (s.performers w c)) s) w
  refine ⟨_, he.trans hn, ?_, ?_, ?_⟩
  · refine FilesAfter.writes H (ws := fun x => ws (s.fibre w.team x.1 x.2)) ?_ (fun x => out (s.fibre w.team x.1 x.2)) ?_ ?_
    · intro u g l
      rw [hc.files, k1]
    · intro x hx e hm
      rcases ho.names _ e hm with hn | hn
      · by_cases hp : e.1 = .p 7#3
        · exact .inr hp
        · exact .inl (H.holds hx hn hp)
      · exact .inr hn
    · intro x _ n hn; exact ho.same _ n hn
  · intro g
    rw [hc.events, k5]
  · intro hev
    obtain ⟨s', h1, _, h3⟩ := native_silent H (aluBody i h) (State.aluLane i h (w.by (s.performers w c))) i.latency
      (fun x => ws (s.fibre w.team x.1 x.2)) rfl (by
        intro a x hx _ ha
        rw [hstep, State.fibre_of_fibre? ha, hev x hx]
        rfl)
    rw [hn] at h1
    simp only [Host.Outcome.next.injEq] at h1
    rw [h1]; exact h3

end Sys2Proof.Machine
end

