-- ==== Sys2Proof/Laws/Integer.lean ====
section
/-!
SUPPORT. Results of register-only instructions in the shape the statements give them, and the values of integer types.
-/

namespace Sys2Proof.Machine

/-! ### Shapes of results -/

theorem add_zero_reg (d : Reg) : d + BitVec.ofNat 8 0 = d := by simp

theorem reg_ne_succ (d : Reg) : d ≠ d + 1 := by revert d; decide

theorem rgW_mem (d : Reg) (wide : Bool) : RName.v d ∈ rgW d wide ∧ (wide = true → RName.v (d + 1) ∈ rgW d wide) := by
  cases wide
  · exact ⟨by simp [rgW, rg], by simp⟩
  · refine ⟨?_, fun _ => ?_⟩ <;> simp [rgW, regs, List.range_succ]

theorem lookup_pair (d : Reg) (x y : Word) (n : RName) :
    List.lookup n [(RName.v d, x), (RName.v (d + 1), y)] = List.lookup n [(RName.v (d + 1), y), (RName.v d, x)] := by
  have hd := reg_ne_succ d
  simp only [List.lookup_cons, List.lookup_nil]
  by_cases h1 : n = .v d
  · subst h1
    have hb : (RName.v d == RName.v (d + 1)) = false := beq_eq_false_iff_ne.2 (fun hc => hd (RName.v.inj hc))
    rw [hb]
  · have hb : (n == RName.v d) = false := beq_eq_false_iff_ne.2 h1
    rw [hb]

theorem lookup_keep (n : RName) (ws : List (RName × Word)) (h : ∀ e ∈ ws, e.1.keep e.2 = e.2) : (ws.lookup n).map n.keep = ws.lookup n := by
  induction ws with
  | nil => rfl
  | cons w ws ih =>
    obtain ⟨m, v⟩ := w
    simp only [List.lookup_cons]
    by_cases hm : n = m
    · subst hm
      have := h (n, v) (by simp)
      simp only at this
      simp [this]
    · have hb : (n == m) = false := by simpa using hm
      simp only [hb]
      exact ih (fun e he => h e (by simp [he]))

/-- A register or a pair. -/
theorem outs_wrW {i : Instr} {d : Reg} {wide : Bool} (hw : i.writes = rgW d wide) (x y : Fibre → DWord) (h1 : ∀ f, (x f).lo = (y f).lo)
    (h2 : wide = true → ∀ f, x f = y f) : Outs i (fun f => wrW d wide (x f)) (fun f => wrW d wide (y f)) := by
  have hxy : ∀ f, wrW d wide (x f) = wrW d wide (y f) := by
    intro f
    cases wide
    · simp [wrW, h1 f]
    · rw [h2 rfl f]
  refine ⟨fun f e he => .inl ?_, fun f n _ => ?_⟩
  · rw [hw]
    cases wide
    · simp only [wrW, Bool.false_eq_true, if_false, List.mem_singleton] at he
      subst he; exact (rgW_mem d false).1
    · simp only [wrW, if_true, wr64, List.mem_cons, List.not_mem_nil, or_false] at he
      rcases he with rfl | rfl
      · exact (rgW_mem d true).1
      · exact (rgW_mem d true).2 rfl
  · rw [← hxy]
    cases wide
    · simp only [wrW, Bool.false_eq_true, if_false, List.reverse_singleton]
      exact (lookup_keep n _ (by simp [RName.keep])).symm
    · simp only [wrW, if_true, wr64, List.reverse_cons, List.reverse_nil, List.nil_append, List.cons_append]
      rw [lookup_keep n _ (by simp [RName.keep])]
      exact lookup_pair _ _ _ _

theorem outs_wrW_same {i : Instr} {d : Reg} {wide : Bool} (hw : i.writes = rgW d wide) (x : Fibre → DWord) :
    Outs i (fun f => wrW d wide (x f)) (fun f => wrW d wide (x f)) := outs_wrW hw x x (fun _ => rfl) (fun _ _ => rfl)

/-- One register. -/
theorem outs_reg {i : Instr} {d : Reg} (hw : i.writes = rg d) (x y : Fibre → Word) (h : ∀ f, x f = y f) :
    Outs i (fun f => [(.v d, x f)]) (fun f => [(.v d, y f)]) := by
  refine ⟨fun f e he => .inl ?_, fun f n _ => ?_⟩
  · rw [hw]
    simp only [List.mem_singleton] at he
    subst he; simp [rg]
  · simp only [List.reverse_singleton]
    rw [lookup_keep n _ (by simp [RName.keep]), h]

theorem keep_bool (p : Pred) (b : Bool) : (RName.p p).keep (boolWord b) = boolWord b := by cases b <;> rfl

/-- One predicate. -/
theorem outs_pred {i : Instr} {p : Pred} (hw : i.writes = pg p) (x : Fibre → Bool) (y : Fibre → Word) (h : ∀ f, boolWord (x f) = y f) :
    Outs i (fun f => [(.p p, boolWord (x f))]) (fun f => [(.p p, y f)]) := by
  refine ⟨fun f e he => ?_, fun f n _ => ?_⟩
  · simp only [List.mem_singleton] at he
    subst he
    by_cases hp : p = 7#3
    · exact .inr (by rw [hp])
    · exact .inl (by simp [hw, pg, hp])
  · simp only [List.reverse_singleton]
    rw [lookup_keep n _ (by simp [keep_bool]), h]

/-! ### Values of integer types (R129) -/

theorem lo_ofInt (r : Int) : DWord.lo (BitVec.ofInt 64 r) = BitVec.ofInt 32 r := by
  apply BitVec.eq_of_toNat_eq
  simp only [DWord.lo, BitVec.toNat_setWidth, BitVec.toNat_ofInt]
  omega

theorem ityVal_eq (t : ITy) (x : DWord) : ityVal t x = typeValue t x := by
  cases t
  · simp only [ityVal, ITy.signed, if_true, ITy.width, ITy.is64, Bool.false_eq_true, if_false, sextNat, typeValue, DWord.lo]
    congr 1
  · simp [ityVal, ITy.signed, ITy.width, ITy.is64, typeValue, DWord.lo]
  · simp [ityVal, ITy.signed, ITy.width, ITy.is64, sextNat, typeValue]
  · simp only [ityVal, ITy.signed, Bool.false_eq_true, if_false, ITy.width, ITy.is64, if_true, typeValue]
    have := x.isLt; omega

theorem ival_eq (f : Fibre) (pos : Nat) (t : ITy) (r : Reg) : f.ival pos t r = f.value pos t r := ityVal_eq _ _

theorem intResult_eq (t : ITy) (sat : Bool) (r : Int) : intResult t sat r = typeResult t sat r := by
  cases sat <;> cases t <;> simp [intResult, typeResult, clampInt, ITy.signed, ITy.width, ITy.is64, typeLow, typeHigh, intRange]

theorem typeResult_val_mod (t : ITy) (r : Int) : typeResult t false r = BitVec.ofInt 64 r := rfl

theorem Issues.wellFormed {i : Instr} {s : State} {w : Who} {c : Ctl} {t : Team} (H : Issues s i w c t) : i.wellFormed = true := by
  have hl := H.legal
  simp only [State.illegal, Bool.or_eq_false_iff, Bool.not_eq_false'] at hl
  exact hl.1.1.1

theorem Fibre.view_keeps {f g : Fibre} (h : f.file = g.file) (p : Nat) (r : Reg) : f.get p r = g.get p r := Fibre.get_file h p r

/-! ### Bits -/

theorem lo_getLsbD (x : DWord) (i : Nat) (h : i < 32) : x.lo.getLsbD i = x.getLsbD i := by simp [DWord.lo, h]

/-- Words of a result are equal when the bits below the width are. -/
theorem wrW_bits (d : Reg) (wide : Bool) (x y : DWord) (h : ∀ i, i < (if wide then 64 else 32) → x.getLsbD i = y.getLsbD i) :
    wrW d wide x = wrW d wide y := by
  cases wide
  · have : x.lo = y.lo := by
      apply BitVec.eq_of_getLsbD_eq
      intro i hi
      rw [lo_getLsbD _ _ hi, lo_getLsbD _ _ hi]
      exact h i (by simpa using hi)
    simp [wrW, this]
  · have : x = y := by
      apply BitVec.eq_of_getLsbD_eq
      intro i hi
      exact h i (by simpa using hi)
    rw [this]

theorem outs_congr {i : Instr} {ws out out' : Fibre → List (RName × Word)} (h : Outs i ws out) (he : ∀ f, out f = out' f) : Outs i ws out' := by
  have : out = out' := funext he
  exact this ▸ h

theorem outs_bits {i : Instr} {d : Reg} {wide : Bool} (hw : i.writes = rgW d wide) (x y : Fibre → DWord)
    (h : ∀ f, ∀ k, k < (if wide then 64 else 32) → (x f).getLsbD k = (y f).getLsbD k) : Outs i (fun f => wrW d wide (x f)) (fun f => wrW d wide (y f)) :=
  outs_congr (outs_wrW_same hw x) (fun f => wrW_bits d wide _ _ (h f))

/-- An operand of a type has no bit beyond the type's width. -/
theorem getW_high (f : Fibre) (pos : Nat) (r : Reg) (k : Nat) (h : 32 ≤ k) : (f.getW pos r false).getLsbD k = false := by
  simp only [Fibre.getW, Bool.false_eq_true, if_false, BitVec.getLsbD_setWidth]
  have : (f.get pos r).getLsbD k = false := BitVec.getLsbD_of_ge _ _ h
  simp [this]

/-! ### Division, shifts and lookups -/

theorem getW_lo (f : Fibre) (pos : Nat) (r : Reg) : DWord.lo (f.getW pos r false) = f.get pos r := by
  simp [Fibre.getW, DWord.lo]

theorem divide_quot (ty : ITy) (h64 : ty.is64 = false) (x y : Word) :
    (divide ty (x.setWidth 64) (y.setWidth 64)).1.lo = (if y = 0 then 0xFFFFFFFF#32 else if ty = .i32 then x.sdiv y else x / y) := by
  have e1 : ∀ z : Word, DWord.lo (z.setWidth 64) = z := by intro z; simp [DWord.lo]
  unfold divide
  simp only [ityVal_eq]
  cases ty <;> simp only [typeValue, e1] <;> simp [ITy.is64] at h64
  · by_cases hy : y = 0
    · subst hy; simp; decide
    · have : ¬ y.toInt = 0 := by
        intro hc; exact hy (BitVec.eq_of_toInt_eq (by simpa using hc))
      simp only [this, hy, if_false, if_true]
      rw [lo_ofInt]
      apply BitVec.eq_of_toInt_eq
      rw [BitVec.toInt_ofInt, BitVec.toInt_sdiv]
  · by_cases hy : y = 0
    · subst hy; simp; decide
    · have : ¬ y.toNat = 0 := by
        intro hc; exact hy (BitVec.eq_of_toNat_eq (by simpa using hc))
      have h2 : ¬ ((y.toNat : Int) = 0) := by omega
      simp only [h2, hy, if_false]
      rw [lo_ofInt]
      apply BitVec.eq_of_toNat_eq
      have h3 := x.isLt
      have h4 : (x.toNat / y.toNat) ≤ x.toNat := Nat.div_le_self _ _
      have h5 : Int.tdiv (x.toNat : Int) (y.toNat : Int) = ((x.toNat / y.toNat : Nat) : Int) := by
        rw [Int.tdiv_eq_ediv_of_nonneg (by omega)]; rfl
      rw [h5]
      simp only [BitVec.toNat_ofInt]
      show _ = (x / y).toNat; rw [BitVec.toNat_udiv]
      generalize x.toNat / y.toNat = q at *
      omega

theorem divide_rem (ty : ITy) (h64 : ty.is64 = false) (x y : Word) :
    (divide ty (x.setWidth 64) (y.setWidth 64)).2.1.lo = (if y = 0 then x else if ty = .i32 then x.srem y else x % y) := by
  have e1 : ∀ z : Word, DWord.lo (z.setWidth 64) = z := by intro z; simp [DWord.lo]
  unfold divide
  simp only [ityVal_eq]
  cases ty <;> simp only [typeValue, e1] <;> simp [ITy.is64] at h64
  · by_cases hy : y = 0
    · subst hy; simpa using e1 x
    · have : ¬ y.toInt = 0 := by
        intro hc; exact hy (BitVec.eq_of_toInt_eq (by simpa using hc))
      simp only [this, hy, if_false, if_true]
      rw [lo_ofInt]
      apply BitVec.eq_of_toInt_eq
      rw [BitVec.toInt_ofInt, BitVec.toInt_srem]
      have : x.toInt - y.toInt * x.toInt.tdiv y.toInt = x.toInt.tmod y.toInt := by
        have := Int.tmod_add_mul_tdiv x.toInt y.toInt; omega
      rw [this]
      rw [← BitVec.toInt_srem, ← BitVec.toInt_ofInt, BitVec.ofInt_toInt]
  · by_cases hy : y = 0
    · subst hy; simpa using e1 x
    · have : ¬ y.toNat = 0 := by
        intro hc; exact hy (BitVec.eq_of_toNat_eq (by simpa using hc))
      have h2 : ¬ ((y.toNat : Int) = 0) := by omega
      simp only [h2, hy, if_false]
      rw [lo_ofInt]
      apply BitVec.eq_of_toNat_eq
      have h3 := x.isLt
      have h5 : (x.toNat : Int) - y.toNat * Int.tdiv (x.toNat : Int) (y.toNat : Int) = ((x.toNat % y.toNat : Nat) : Int) := by
        rw [Int.tdiv_eq_ediv_of_nonneg (by omega)]
        have := Int.emod_add_mul_ediv (x.toNat : Int) y.toNat
        push_cast; omega
      rw [h5]
      have := Nat.mod_le x.toNat y.toNat
      simp
      omega

theorem divide_ev (ty : ITy) (h64 : ty.is64 = false) (x y : Word) :
    (divide ty (x.setWidth 64) (y.setWidth 64)).2.2 = if y = 0 then [4] else [] := by
  have e1 : ∀ z : Word, DWord.lo (z.setWidth 64) = z := by intro z; simp [DWord.lo]
  unfold divide
  simp only [ityVal_eq]
  have hz : typeValue ty (y.setWidth 64) = 0 ↔ y = 0 := by
    cases ty <;> simp only [typeValue, e1] <;> simp [ITy.is64] at h64
    · constructor
      · intro hc; exact BitVec.eq_of_toInt_eq (by simpa using hc)
      · intro hc; subst hc; rfl
    · constructor
      · intro hc; exact BitVec.eq_of_toNat_eq (by simpa using hc)
      · intro hc; subst hc; rfl
  by_cases hy : y = 0
  · rw [if_pos (hz.2 hy), if_pos hy]; rfl
  · rw [if_neg (mt hz.1 hy), if_neg hy]

theorem shift_bits (k : ShiftKind) (ty : ITy) (v : DWord) (n : Nat) (i : Nat) (hi : i < (if ty.is64 then 64 else 32)) :
    (shiftBits k ty v n).getLsbD i = (BitVec.ofFnLE (fun (i : Fin 64) =>
      let m := ty.width
      match k with
      | .shl => decide (n ≤ i.val) && v.getLsbD (i.val - n)
      | .shr => decide (i.val + n < m) && v.getLsbD (i.val + n)
      | .sar => v.getLsbD (min (i.val + n) (m - 1))
      | .rol => v.getLsbD ((i.val + (m - n % m)) % m)) : DWord).getLsbD i := by
  cases h : ty.is64
  · rw [h] at hi
    simp only [Bool.false_eq_true, if_false] at hi
    have h3 : i < 64 := by omega
    simp only [shiftBits, h, Bool.false_eq_true, if_false, ITy.width]
    rw [BitVec.getLsbD_ofFnLE]
    simp only [h3, dite_true]
    cases k
    · simp [DWord.lo, hi, h3]
      by_cases hn : i < n
      · simp [hn]
      · have : n ≤ i := by omega
        simp [this, hn]
    · simp only [BitVec.getLsbD_setWidth, h3, decide_true, Bool.true_and, BitVec.getLsbD_ushiftRight, DWord.lo]
      rw [Nat.add_comm]
    · simp only [BitVec.getLsbD_setWidth, h3, decide_true, Bool.true_and, BitVec.getLsbD_sshiftRight, DWord.lo]
      have hm : ¬ 32 ≤ i := by omega
      simp only [hm, decide_false, Bool.not_false, Bool.true_and]
      by_cases hn : n + i < 32
      · simp only [hn, if_true, decide_true, Bool.true_and]
        congr 1; omega
      · simp only [hn, if_false, BitVec.msb_eq_getLsbD_last, BitVec.getLsbD_setWidth]
        simp
        congr 1; omega
    · simp only [BitVec.getLsbD_setWidth, h3, decide_true, Bool.true_and, DWord.lo]
      rw [BitVec.getLsbD_rotateLeft]
      have hr : n % 32 < 32 := Nat.mod_lt _ (by omega)
      by_cases hn : i < n % 32
      · simp only [hn, decide_true, cond_true, BitVec.getLsbD_setWidth]
        have : 32 - n % 32 + i < 32 := by omega
        simp only [this, decide_true, Bool.true_and]
        congr 1; omega
      · simp only [hn, decide_false, cond_false, BitVec.getLsbD_setWidth]
        have : i - n % 32 < 32 := by omega
        simp only [hi, this, decide_true, Bool.true_and]
        congr 1; omega
  · rw [h] at hi
    simp only [if_true] at hi
    simp only [shiftBits, h, if_true, ITy.width]
    rw [BitVec.getLsbD_ofFnLE]
    simp only [hi, dite_true]
    cases k
    · simp [hi]
      by_cases hn : i < n
      · simp [hn]
      · have : n ≤ i := by omega
        have h5 : i - n < 64 := by omega
        simp [this, hn, BitVec.getLsbD_eq_getElem h5]
    · simp only [BitVec.getLsbD_ushiftRight]
      rw [Nat.add_comm]
      by_cases hn : i + n < 64
      · simp [hn]
      · simp only [hn, decide_false, Bool.false_and]
        exact BitVec.getLsbD_of_ge _ _ (by omega)
    · simp only [BitVec.getLsbD_sshiftRight]
      have hm : ¬ 64 ≤ i := by omega
      simp only [hm, decide_false, Bool.not_false, Bool.true_and]
      by_cases hn : n + i < 64
      · simp only [hn, if_true]
        congr 1; omega
      · simp only [hn, if_false, BitVec.msb_eq_getLsbD_last]
        congr 1; omega
    · rw [BitVec.getLsbD_rotateLeft]
      have hr : n % 64 < 64 := Nat.mod_lt _ (by omega)
      by_cases hn : i < n % 64
      · simp only [hn, decide_true, cond_true]
        congr 1; omega
      · simp only [hn, decide_false, cond_false, hi, decide_true, Bool.true_and]
        congr 1; omega

theorem blut_bits (tt : BitVec 8) (a b c : DWord) (i : Nat) (hi : i < 64) :
    (blut tt a b c).getLsbD i = (BitVec.ofFnLE (fun (i : Fin 64) =>
        tt.getLsbD ((a.getLsbD i).toNat + 2 * (b.getLsbD i).toNat + 4 * (c.getLsbD i).toNat)) : DWord).getLsbD i := by
  rw [BitVec.getLsbD_ofFnLE]
  simp only [hi, dite_true]
  have hm : ∀ k, (ttMask tt k).getLsbD i = tt.getLsbD k := by
    intro k; unfold ttMask
    by_cases h : tt.getLsbD k = true
    · rw [if_pos h, h, BitVec.getLsbD_allOnes]; simpa using hi
    · rw [if_neg h]; simp only [Bool.not_eq_true] at h; rw [h]; simp
  have hp : ∀ (k j : Nat) (x : DWord), (if k.testBit j then x else ~~~x).getLsbD i = if k.testBit j then x.getLsbD i else !x.getLsbD i := by
    intro k j x
    split
    · rfl
    · rw [BitVec.getLsbD_not]; simp only [hi, decide_true, Bool.true_and]
  simp only [blut, List.range_succ, List.range_zero, List.nil_append, List.foldl_append, List.foldl_cons, List.foldl_nil]
  simp only [BitVec.getLsbD_or, BitVec.getLsbD_and, hm, hp]
  generalize a.getLsbD i = p
  generalize b.getLsbD i = q
  generalize c.getLsbD i = r
  cases p <;> cases q <;> cases r <;> simp [Nat.testBit]

/-! ### Bit fields, counts and byte selection -/

theorem takeWhile_range_length (w n : Nat) (p : Nat → Bool) (hn : n ≤ w) (h1 : ∀ i, i < n → p i = true) (h2 : n < w → p n = false) :
    ((List.range w).takeWhile p).length = n := by
  have hsplit : List.range w = List.range n ++ (List.range (w - n)).map (n + ·) := by
    rw [← List.range_add]; congr 1; omega
  rw [hsplit, List.takeWhile_append_of_pos (by intro x hx; exact h1 x (List.mem_range.1 hx))]
  have : ((List.range (w - n)).map (n + ·)).takeWhile p = [] := by
    cases hk : w - n with
    | zero => rfl
    | succ k =>
      rw [List.range_succ_eq_map]
      simp only [List.map_cons, Nat.add_zero, List.takeWhile_cons]
      rw [h2 (by omega)]; rfl
  rw [this]; simp

theorem leadZeros_eq (w n : Nat) (x : DWord) (hn : n ≤ w) (h1 : ∀ i, i < n → x.getLsbD (w - 1 - i) = false)
    (h2 : n < w → x.getLsbD (w - 1 - n) = true) : leadZeros w x = n :=
  takeWhile_range_length w n _ hn (fun i hi => by simp [h1 i hi]) (fun h => by simp [h2 h])

theorem trailZeros_eq (w n : Nat) (x : DWord) (hn : n ≤ w) (h1 : ∀ i, i < n → x.getLsbD i = false)
    (h2 : n < w → x.getLsbD n = true) : trailZeros w x = n :=
  takeWhile_range_length w n _ hn (fun i hi => by simp [h1 i hi]) (fun h => by simp [h2 h])

theorem popCount_eq (w : Nat) (x : DWord) : popCount w x = ∑ i ∈ Finset.range w, (x.getLsbD i).toNat := by
  unfold popCount
  induction w with
  | zero => rfl
  | succ w ih =>
    rw [List.range_succ, List.filter_append, List.length_append, ih, Finset.sum_range_succ]
    congr 1
    cases h : x.getLsbD w <;> simp [h]

theorem field_testBit (x hi lo i : Nat) : (field x hi lo).testBit i = (decide (i ≤ hi - lo) && x.testBit (lo + i)) := by
  simp only [field, Nat.testBit_mod_two_pow, Nat.testBit_shiftRight]
  congr 1
  rw [decide_eq_decide]; omega

theorem getLsbD_ofNat32 (n i : Nat) (hi : i < 32) : (BitVec.ofNat 32 n).getLsbD i = n.testBit i := by
  rw [BitVec.getLsbD_ofNat]; simp only [hi, decide_true, Bool.true_and]

theorem sextNat_bit (n x i : Nat) (hn : 0 < n) (hi : i < 32) :
    (BitVec.ofInt 32 (sextNat n x)).getLsbD i = if i < n then x.testBit i else x.testBit (n - 1) := by
  have h1 : BitVec.ofInt 32 (sextNat n x) = (BitVec.ofNat n x).signExtend 32 := rfl
  rw [h1, BitVec.getLsbD_signExtend]
  simp only [hi, decide_true, Bool.true_and, BitVec.msb_eq_getLsbD_last, BitVec.getLsbD_ofNat]
  have h2 : n - 1 < n := by omega
  by_cases h : i < n <;> simp [h, h2]

theorem bitExtract_bit (sg : Bool) (a b : Word) (i : Nat) (hi : i < 32) :
    (bitExtract sg a b).getLsbD i =
      (if b.toNat / 256 % 64 = 0 then false
        else if 32 ≤ b.toNat % 64 then sg && a.getLsbD 31
        else if b.toNat % 64 + i ≤ min (b.toNat % 64 + b.toNat / 256 % 64) 32 - 1 then a.getLsbD (b.toNat % 64 + i)
        else sg && a.getLsbD (min (b.toNat % 64 + b.toNat / 256 % 64) 32 - 1)) := by
  unfold bitExtract
  simp only [fieldOff, fieldWid]
  obtain ⟨off, ho⟩ : ∃ off, off = b.toNat % 64 := ⟨_, rfl⟩
  obtain ⟨wid, hw⟩ : ∃ wid, wid = b.toNat / 256 % 64 := ⟨_, rfl⟩
  simp only [← ho, ← hw]
  clear ho hw
  by_cases hw : wid = 0
  · simp [hw]
  · simp only [hw, if_false]
    by_cases ho : 32 ≤ off
    · simp only [ho, if_true, BitVec.msb_eq_getLsbD_last]
      cases sg
      · simp
      · simp only [Bool.true_and]
        cases a.getLsbD (32 - 1)
        · simp
        · simp only [if_true, BitVec.getLsbD_allOnes, hi, decide_true]
    · simp only [ho, if_false]
      have hn : 0 < min (off + wid) 32 - off := by omega
      cases sg
      · simp only [Bool.false_eq_true, if_false, Bool.false_and]
        rw [getLsbD_ofNat32 _ _ hi, field_testBit]
        by_cases h : off + i ≤ min (off + wid) 32 - 1
        · have h2 : i ≤ off + (min (off + wid) 32 - off) - 1 - off := by omega
          simp only [h, h2, if_true, decide_true, Bool.true_and]; rfl
        · have h2 : ¬ i ≤ off + (min (off + wid) 32 - off) - 1 - off := by omega
          simp [h, h2]
      · simp only [if_true, Bool.true_and]
        rw [sextNat_bit _ _ _ hn hi]
        by_cases h : off + i ≤ min (off + wid) 32 - 1
        · have h1 : i < min (off + wid) 32 - off := by omega
          have h2 : i ≤ off + (min (off + wid) 32 - off) - 1 - off := by omega
          rw [if_pos h1, if_pos h, field_testBit]
          simp only [h2, decide_true, Bool.true_and]; rfl
        · have h1 : ¬ i < min (off + wid) 32 - off := by omega
          rw [if_neg h1, if_neg h, field_testBit]
          have h2 : min (off + wid) 32 - off - 1 ≤ off + (min (off + wid) 32 - off) - 1 - off := by omega
          simp only [h2, decide_true, Bool.true_and]
          have h3 : off + (min (off + wid) 32 - off - 1) = min (off + wid) 32 - 1 := by omega
          rw [h3]; rfl

theorem bitInsert_bit (old a b : Word) (i : Nat) (hi : i < 32) :
    (bitInsert old a b).getLsbD i = if b.toNat % 64 ≤ i ∧ i < b.toNat % 64 + b.toNat / 256 % 64 then a.getLsbD (i - b.toNat % 64) else old.getLsbD i := by
  unfold bitInsert
  simp only [fieldOff, fieldWid]
  generalize b.toNat % 64 = off
  generalize b.toNat / 256 % 64 = wid
  simp only [BitVec.getLsbD_or, BitVec.getLsbD_and, BitVec.getLsbD_not, BitVec.getLsbD_shiftLeft, hi, decide_true, Bool.true_and,
    BitVec.getLsbD_ofNat, Nat.testBit_two_pow_sub_one]
  by_cases h1 : off ≤ i
  · have h2 : ¬ i < off := by omega
    have h3 : i - off < 32 := by omega
    by_cases h4 : i < off + wid
    · have h5 : i - off < wid := by omega
      simp [h1, h2, h3, h4, h5]
    · have h5 : ¬ i - off < wid := by omega
      simp [h1, h2, h3, h4, h5]
  · have h2 : i < off := by omega
    simp [h1, h2]

theorem reverse64_bit (x : DWord) (i : Nat) (hi : i < 64) : x.reverse.getLsbD i = x.getLsbD (63 - i) := by
  rw [BitVec.getLsbD_reverse, BitVec.getMsbD]
  simp [hi]

theorem permBytes_bit (a b e : Word) (i : Nat) (hi : i < 32) :
    (permBytes (dwordOf a b) e).getLsbD i =
      (let sel := e.toNat >>> (4 * (i / 8)) % 16
       let bit := if 8 ≤ sel then 7 else i % 8
       if sel % 8 < 4 then a.getLsbD (8 * (sel % 8) + bit) else b.getLsbD (8 * (sel % 8 - 4) + bit)) := by
  have hb : ∀ j, permByte (dwordOf a b) e j < 256 := by
    intro j
    unfold permByte
    dsimp only
    split
    · simp only [field]; exact lt_of_lt_of_le (Nat.mod_lt _ (by positivity)) (by
        rw [show ∀ z : Nat, 8 * z + 7 - 8 * z + 1 = 8 by intro z; omega]; decide)
    · split <;> omega
  have hj : ∀ j k, k < 8 → (permByte (dwordOf a b) e j).testBit k =
      (let sel := e.toNat >>> (4 * j) % 16
       let bit := if 8 ≤ sel then 7 else k
       if sel % 8 < 4 then a.getLsbD (8 * (sel % 8) + bit) else b.getLsbD (8 * (sel % 8 - 4) + bit)) := by
    intro j k hk
    have hs : field e.toNat (4 * j + 3) (4 * j) = e.toNat >>> (4 * j) % 16 := by
      simp only [field]; rw [show 4 * j + 3 - 4 * j + 1 = 4 by omega]; rfl
    unfold permByte
    rw [hs]
    have hlt : e.toNat >>> (4 * j) % 16 < 16 := Nat.mod_lt _ (by omega)
    generalize e.toNat >>> (4 * j) % 16 = sel at *
    have hd : ∀ m, m < 64 → (dwordOf a b).toNat.testBit m = if m < 32 then a.getLsbD m else b.getLsbD (m - 32) := by
      intro m _
      rw [show (dwordOf a b).toNat.testBit m = (dwordOf a b).getLsbD m from rfl, dwordOf, BitVec.getLsbD_append]
    have hf : ∀ m, m < 8 → (field (dwordOf a b).toNat (8 * (sel % 8) + 7) (8 * (sel % 8))).testBit m
        = if sel % 8 < 4 then a.getLsbD (8 * (sel % 8) + m) else b.getLsbD (8 * (sel % 8 - 4) + m) := by
      intro m hm
      rw [field_testBit, hd _ (by omega)]
      have : m ≤ 8 * (sel % 8) + 7 - 8 * (sel % 8) := by omega
      simp only [this, decide_true, Bool.true_and]
      by_cases h4 : sel % 8 < 4
      · rw [if_pos (by omega), if_pos h4]
      · rw [if_neg (by omega), if_neg h4]; congr 1; omega
    dsimp only
    by_cases h8 : sel < 8
    · have h9 : ¬ 8 ≤ sel := by omega
      simp only [h8, h9, if_true, if_false]
      exact hf k hk
    · have h9 : 8 ≤ sel := by omega
      simp only [h8, h9, if_true, if_false]
      have h7 := hf 7 (by omega)
      have hlt2 : field (dwordOf a b).toNat (8 * (sel % 8) + 7) (8 * (sel % 8)) < 2 ^ 8 := by
        simp only [field]; rw [show 8 * (sel % 8) + 7 - 8 * (sel % 8) + 1 = 8 by omega]; exact Nat.mod_lt _ (by decide)
      rw [← h7]
      generalize field (dwordOf a b).toNat (8 * (sel % 8) + 7) (8 * (sel % 8)) = z at *
      have hz : z.testBit 7 = decide (128 ≤ z) := by
        rw [Nat.testBit_eq_decide_div_mod_eq]
        rw [decide_eq_decide]; omega
      rw [hz]
      by_cases hz2 : z < 128
      · rw [if_pos hz2]; simp; omega
      · rw [if_neg hz2]
        have : (255 : Nat).testBit k = true := by
          have : k = 0 ∨ k = 1 ∨ k = 2 ∨ k = 3 ∨ k = 4 ∨ k = 5 ∨ k = 6 ∨ k = 7 := by omega
          rcases this with rfl | rfl | rfl | rfl | rfl | rfl | rfl | rfl <;> rfl
        rw [this]; simp; omega
  unfold permBytes
  rw [getLsbD_ofNat32 _ _ hi]
  have h0 := hb 0
  have h1 := hb 1
  have h2 := hb 2
  have h3 := hb 3
  have hcat : ∀ (p q r u k j : Nat), p < 256 → q < 256 → r < 256 → u < 256 → k < 8 → j < 4 →
      (p + q * 2 ^ 8 + r * 2 ^ 16 + u * 2 ^ 24).testBit (8 * j + k) = (if j = 0 then p else if j = 1 then q else if j = 2 then r else u).testBit k := by
    intro p q r u k j hp hq hr hu hk hj
    have e : ∀ x, x < 256 → x.testBit k = ((x % 2 ^ 8).testBit k) := by intro x hx; rw [Nat.mod_eq_of_lt (by simpa using hx)]
    rw [← Nat.testBit_shiftRight, Nat.shiftRight_eq_div_pow]
    have hm : ∀ y, y.testBit k = (y % 2 ^ 8).testBit k := by
      intro y; rw [Nat.testBit_mod_two_pow]; simp [hk]
    have : j = 0 ∨ j = 1 ∨ j = 2 ∨ j = 3 := by omega
    rcases this with rfl | rfl | rfl | rfl
    · rw [hm]; congr 1; simp; omega
    · rw [hm]; congr 1; simp; omega
    · rw [hm]; congr 1; simp; omega
    · rw [hm]; congr 1; simp; omega
  have := hcat _ _ _ _ (i % 8) (i / 8) h0 h1 h2 h3 (by omega) (by omega)
  rw [show 8 * (i / 8) + i % 8 = i by omega] at this
  rw [this]
  have h4 : i / 8 = 0 ∨ i / 8 = 1 ∨ i / 8 = 2 ∨ i / 8 = 3 := by omega
  rcases h4 with h | h | h | h <;> rw [h] <;> exact hj _ _ (by omega)

theorem wordOfBits_eq (h : Nat → Bool) (x : Word) (hx : ∀ i, i < 32 → x.getLsbD i = h i) : x = wordOfBits h := by
  unfold wordOfBits
  apply BitVec.eq_of_getLsbD_eq
  intro i hi
  rw [BitVec.getLsbD_ofFnLE]
  simp only [hi, dite_true]
  exact hx i hi

/-! ### Registers by index and special registers -/

theorem perLane_eq {s : State} {w : Who} {t : Team} (perf : List (Nat × Nat)) (ht : s.team w.team = some t) (h : Team → State → Nat → Nat → State) :
    perLane (w.by perf) s h = perf.foldl (fun a x => h t a x.1 x.2) s := by
  simp only [perLane, Who.by, ht]

theorem movx_names (n : Nat) (w64 : Bool) : regs (BitVec.ofNat 8 n) (if w64 then 2 else 1) =
    if w64 then [RName.v (BitVec.ofNat 8 n), RName.v (BitVec.ofNat 8 n + 1)] else [RName.v (BitVec.ofNat 8 n)] := by
  cases w64 <;> simp [regs, List.range_succ]

theorem movxCheck_none {t : Team} {f : Fibre} {pos n : Nat} {w64 read : Bool} (h1 : n < t.kern.win)
    (h2 : w64 = true → n % 2 = 0 ∧ n + 1 < t.kern.win)
    (h3 : t.scoreboard = true → ∀ m ∈ regs (BitVec.ofNat 8 n) (if w64 then 2 else 1), (read = true → f.undersized pos m = false) ∧ ∀ u ∈ f.uncov, u.1 ≠ m) :
    movxCheck t f pos n w64 read = none := by
  unfold movxCheck
  have hc : (decide (t.kern.win ≤ n) || (w64 && (decide (n % 2 = 1) || decide (t.kern.win ≤ n + 1)))) = false := by
    cases w64
    · simp; omega
    · have := h2 rfl; simp; omega
  rw [hc]
  dsimp only
  simp only [Bool.false_eq_true, if_false]
  rw [if_neg]
  intro hs
  simp only [Bool.and_eq_true, Bool.or_eq_true, List.any_eq_true, decide_eq_true_eq] at hs
  obtain ⟨hs, hh⟩ := hs
  rcases hh with ⟨hr, m, hm, hu⟩ | ⟨m, hm, u, hu, he⟩
  · have := (h3 hs m hm).1 hr; rw [this] at hu; simp at hu
  · exact absurd he ((h3 hs m hm).2 u hu)

/-- A write whose words depend on the fibre it is done to. -/
theorem upd_facts (pos lat : Nat) (ws : Fibre → List (RName × Word)) :
    (∀ f : Fibre, (f.writeAll pos lat (ws f)).rest = f.rest) ∧ (∀ f : Fibre, (f.writeAll pos lat (ws f)).lclk = f.lclk) :=
  ⟨fun f => Fibre.rest_writeAll f _ _ _, fun f => (Fibre.lclk_writeAll f _ _ _).1⟩

theorem lookup_wrW (d : Reg) (wide : Bool) (x : DWord) (n : RName) :
    (wrW d wide x).lookup n = ((wrW d wide x).reverse.lookup n).map n.keep := by
  cases wide
  · simp only [wrW, Bool.false_eq_true, if_false, List.reverse_singleton]
    exact (lookup_keep n _ (by simp [RName.keep])).symm
  · simp only [wrW, if_true, wr64, List.reverse_cons, List.reverse_nil, List.nil_append, List.cons_append]
    rw [lookup_keep n _ (by simp [RName.keep])]
    exact lookup_pair _ _ _ _

theorem wrW_names {d : Reg} {wide : Bool} {x : DWord} {e : RName × Word} (he : e ∈ wrW d wide x) : e.1 ∈ rgW d wide := by
  cases wide
  · simp only [wrW, Bool.false_eq_true, if_false, List.mem_singleton] at he
    subst he; exact (rgW_mem d false).1
  · simp only [wrW, if_true, wr64, List.mem_cons, List.not_mem_nil, or_false] at he
    rcases he with rfl | rfl
    · exact (rgW_mem d true).1
    · exact (rgW_mem d true).2 rfl

theorem pw_bits (b : Nat → Bool) (h7 : b 7 = true) :
    BitVec.ofNat 64 ((List.range 7).foldl (fun n i => n + (if b i then 2 ^ i else 0)) 0x80) =
      (BitVec.ofFnLE (fun (i : Fin 8) => b i.val) : BitVec 8).setWidth 64 := by
  simp only [List.range_succ, List.range_zero, List.nil_append, List.foldl_append, List.foldl_cons, List.foldl_nil]
  apply BitVec.eq_of_getLsbD_eq
  intro i hi
  rw [BitVec.getLsbD_setWidth, BitVec.getLsbD_ofFnLE, BitVec.getLsbD_ofNat]
  simp only [hi, decide_true, Bool.true_and]
  by_cases h8 : i < 8
  · simp only [h8, dite_true]
    have : i = 0 ∨ i = 1 ∨ i = 2 ∨ i = 3 ∨ i = 4 ∨ i = 5 ∨ i = 6 ∨ i = 7 := by omega
    rcases this with rfl | rfl | rfl | rfl | rfl | rfl | rfl | rfl <;> (try rw [h7]) <;>
    · cases b 0 <;> cases b 1 <;> cases b 2 <;> cases b 3 <;> cases b 4 <;> cases b 5 <;> cases b 6 <;> decide
  · simp only [h8, dite_false]
    apply Nat.testBit_lt_two_pow
    have : 2 ^ 8 ≤ 2 ^ i := Nat.pow_le_pow_right (by omega) (by omega)
    refine lt_of_lt_of_le ?_ this
    split <;> split <;> split <;> split <;> split <;> split <;> split <;> omega

/-! ### Conditions -/

theorem cond_eq (cond : ICond) (x y : Int) : boolWord (icondHolds cond x y) = if intCompare cond x y then 1 else 0 := by
  cases cond <;> simp [boolWord, icondHolds, intCompare]

end Sys2Proof.Machine
end

