-- ==== Sys2Proof/Laws/Float.lean ====
section
/-!
SUPPORT. Floating-point results in the shape the statements give them.
-/

namespace Sys2Proof.Machine

/-! ### Elements -/

theorem xor_top {n y : Nat} (h : y < 2 ^ n) : y ^^^ 2 ^ n = y + 2 ^ n := by
  apply Nat.eq_of_testBit_eq
  intro i
  rw [Nat.testBit_xor, Nat.testBit_two_pow, Nat.add_comm]
  by_cases hi : n = i
  · subst hi
    rw [Nat.testBit_two_pow_add_eq, Nat.testBit_lt_two_pow h]; simp
  · rcases Nat.lt_or_gt_of_ne hi with h1 | h1
    · have h2 : y.testBit i = false := Nat.testBit_lt_two_pow (lt_of_lt_of_le h (Nat.pow_le_pow_right (by omega) (by omega)))
      have h3 : (2 ^ n + y).testBit i = false := by
        apply Nat.testBit_lt_two_pow
        have : 2 ^ (n + 1) ≤ 2 ^ i := Nat.pow_le_pow_right (by omega) (by omega)
        rw [Nat.pow_succ] at this; omega
      simp [hi, h2, h3]
    · rw [Nat.testBit_two_pow_add_gt h1]; simp [hi]

theorem xor_flip {n y : Nat} (h : y < 2 ^ (n + 1)) : y ^^^ 2 ^ n = if y < 2 ^ n then y + 2 ^ n else y - 2 ^ n := by
  split
  · exact xor_top ‹_›
  · have h1 : y - 2 ^ n < 2 ^ n := by rw [Nat.pow_succ] at h; omega
    have h2 : y = (y - 2 ^ n) ^^^ 2 ^ n := by rw [xor_top h1]; omega
    conv_lhs => rw [h2]
    rw [Nat.xor_assoc, Nat.xor_self, Nat.xor_zero]

theorem modify_eq (t : FTy) (neg abs : Bool) (x : Word) (i : Nat) :
    (FTy.ff t).modify neg abs (FTy.elem t x i) = modified t neg abs x i := by
  have hw : (FTy.ff t).width - 1 = (FTy.ff t).ebits + (FTy.ff t).fbits := by cases t <;> rfl
  have hw1 : (FTy.ff t).width = (FTy.ff t).ebits + (FTy.ff t).fbits + 1 := by cases t <;> rfl
  unfold FF.modify modified FTy.elem
  dsimp only
  rw [hw]
  simp only [FF.signBit]
  generalize hk : (FTy.ff t).ebits + (FTy.ff t).fbits = k at *
  have hlt : x.toNat / 2 ^ (16 * i) % 2 ^ (FTy.ff t).width < 2 ^ (k + 1) := by rw [hw1]; exact Nat.mod_lt _ (by positivity)
  cases neg
  · simp
  · simp only [if_true]
    cases abs
    · simp only [Bool.false_eq_true, if_false]; exact xor_flip hlt
    · simp only [if_true]
      have : x.toNat / 2 ^ (16 * i) % 2 ^ (FTy.ff t).width % 2 ^ k < 2 ^ k := Nat.mod_lt _ (by positivity)
      rw [xor_top this, if_pos this]

theorem elems_eq (t : FTy) (neg abs : Bool) (x : Word) :
    FTy.elems t neg abs x = if t = .f32 then [modified t neg abs x 0] else [modified t neg abs x 0, modified t neg abs x 1] := by
  unfold FTy.elems
  cases t <;> simp only [FTy.count, List.range_succ, List.range_zero, List.nil_append, List.cons_append, List.map_cons, List.map_nil, modify_eq] <;> rfl

/-- A result of elements as the statements write it. -/
theorem elemResult_eq (t : FTy) (d : Reg) (r : Nat → Nat × List Nat) :
    elemResult t d (if t = .f32 then [r 0] else [r 0, r 1]) = .ok (elementWords t d r) (elementEvents t r) := by
  cases t <;> simp [elemResult, elementWords, elementEvents, packWord, FTy.ff, FF.width, FF.ebits, FF.fbits]

theorem unary_eq (t : FTy) (m : FMods) (d a : Reg) (op : Nat → Nat × List Nat) (f : Fibre) (pos : Nat) :
    unary t m d a op f pos = .ok (elementWords t d (fun i => op (modified t m.na m.aa (f.get pos a) i)))
      (elementEvents t (fun i => op (modified t m.na m.aa (f.get pos a) i))) := by
  rw [← elemResult_eq]
  unfold unary
  rw [elems_eq]
  split <;> rfl

theorem binary_eq (t : FTy) (m : FMods) (d a b : Reg) (op : Nat → Nat → Nat × List Nat) (f : Fibre) (pos : Nat) :
    binary t m d a b op f pos = .ok
      (elementWords t d (fun i => op (modified t m.na m.aa (f.get pos a) i) (modified t m.nb m.ab (f.get pos b) i)))
      (elementEvents t (fun i => op (modified t m.na m.aa (f.get pos a) i) (modified t m.nb m.ab (f.get pos b) i))) := by
  rw [← elemResult_eq]
  unfold binary
  rw [elems_eq, elems_eq]
  split <;> rfl

/-- An instruction whose element results are known. -/
theorem float_logs {i : Instr} {h : Fibre → Nat → AluRes} {s : State} {w : Who} {c : Ctl} {t : Team} (H : Issues s i w c t) {d : Reg} {ty : FTy}
    (he : exec i s = alu i s h) (hw : i.writes = rg d) (r : Fibre → Nat → Nat × List Nat)
    (hr : ∀ f, h f w.pos = .ok (elementWords ty d (r f)) (elementEvents ty (r f))) (hf : ∀ f g : Fibre, f.file = g.file → r f = r g) :
    ComputesLogging i s w c (fun f => elementWords ty d (r f)) (fun f => elementEvents ty (r f)) :=
  alu_logs H he _ _ _ ⟨hr, fun f g h => by rw [hf f g h]; exact ⟨rfl, rfl⟩⟩ (outs_reg hw _ _ (fun _ => rfl))

/-! ### Sums of products (R146) -/

/-- The sum of terms that are no NaN. -/
def sumCore (g : FF) (rnd : Rnd) (terms : List FVal) : Nat × List Nat :=
  if terms.contains (.inf false) && terms.contains (.inf true) then (g.nanCode, [1])
  else if terms.contains (.inf false) then (g.infCode, [])
  else if terms.contains (.inf true) then (g.signBit + g.infCode, [])
  else roundedResult g rnd (if terms.all FVal.sign then true else if terms.any FVal.sign then decide (rnd = .rdn) else false)
    (Dy.sum (terms.map FVal.dy))

theorem nanRule_congr (g : FF) (vs : List FVal) (inv : Bool) (r q : Nat × List Nat) (h : vs.any FVal.isNan = false → inv = false → r = q) :
    nanRule g vs inv r = nanRule g vs inv q := by
  unfold nanRule
  split
  · rfl
  · rename_i h1
    split
    · rfl
    · rename_i h2
      simp only [Bool.or_eq_true, not_or, Bool.not_eq_true] at h1 h2
      exact h h2 h1.2

theorem times_eq (x y : FVal) : x.times y = exactProduct x y := by
  cases x <;> cases y <;> simp [FVal.times, exactProduct, FVal.isNan, FVal.isZero, FVal.sign, Bool.bne_eq_xor]

theorem badTimes_eq (x y : FVal) : x.badTimes y = invalidProduct x y := by
  cases x <;> cases y <;> simp [FVal.badTimes, invalidProduct, FVal.isInf, FVal.isZero]

/-- The pseudo-code of R146. -/
theorem sumOf_eq (g : FF) (rnd : Rnd) (prods : List (FVal × FVal)) (adds : List FVal) :
    sumOf g rnd prods adds = nanRule g (prods.flatMap (fun p => [p.1, p.2]) ++ adds) (prods.any (fun p => invalidProduct p.1 p.2))
      (sumCore g rnd (prods.map (fun p => exactProduct p.1 p.2) ++ adds)) := by
  unfold sumOf nanRule sumCore roundedResult
  simp only [times_eq, badTimes_eq]
  generalize prods.flatMap (fun p => [p.1, p.2]) ++ adds = ops
  generalize prods.map (fun p => exactProduct p.1 p.2) ++ adds = terms
  generalize prods.any (fun p => invalidProduct p.1 p.2) = bad
  generalize hsig : ops.any FVal.isSig = sig
  generalize hnan : ops.any FVal.isNan = nan
  cases sig <;> cases bad <;> cases nan <;> simp [evInvalid, evOverflow]

theorem dy_zero_add (x : Dy) : Dy.add ⟨0, 0⟩ x = x := rfl

theorem sumCore_two (g : FF) (rnd : Rnd) (x y : FVal) (h : x.isNan = false) (k : y.isNan = false) : sumCore g rnd [x, y] = addRule g rnd x y := by
  cases x with
  | nan _ => simp [FVal.isNan] at h
  | inf p =>
    cases y with
    | nan _ => simp [FVal.isNan] at k
    | inf q => cases p <;> cases q <;> simp [sumCore, addRule, infinityOf]
    | fin t n k => cases p <;> simp [sumCore, addRule, infinityOf]
  | fin s m e =>
    cases y with
    | nan _ => simp [FVal.isNan] at k
    | inf q => cases q <;> simp [sumCore, addRule, infinityOf]
    | fin t n k => cases s <;> cases t <;> simp [sumCore, addRule, FVal.sign, Dy.sum, dy_zero_add]

theorem sumCore_one (g : FF) (rnd : Rnd) (x : FVal) (h : x.isNan = false) :
    sumCore g rnd [x] = match (generalizing := false) x with | .inf p => (infinityOf g p, []) | v => roundedResult g rnd v.sign v.dy := by
  cases x with
  | nan _ => simp [FVal.isNan] at h
  | inf p => cases p <;> simp [sumCore, infinityOf]
  | fin s m e => cases s <;> simp [sumCore, FVal.sign, Dy.sum, dy_zero_add]

theorem sumCore_three (rnd : Rnd) (p q z : FVal) : sumCore .f32 rnd [p, q, z] = dotRule rnd p q z := by
  unfold sumCore dotRule
  have hc : ∀ n, [p, q, z].contains (.inf n) = (decide (p = .inf n) || decide (q = .inf n) || decide (z = .inf n)) := by
    intro n
    simp only [List.contains_cons, List.contains_nil, Bool.or_false]
    rw [Bool.beq_eq_decide_eq, Bool.beq_eq_decide_eq, Bool.beq_eq_decide_eq]
    simp only [eq_comm, Bool.or_assoc]
  simp only [hc, List.all_cons, List.all_nil, List.any_cons, List.any_nil, Bool.and_true, Bool.or_false, Bool.and_assoc, Bool.or_assoc,
    List.map_cons, List.map_nil, Dy.sum, List.foldl_cons, List.foldl_nil, dy_zero_add]

theorem product_nan (x y : FVal) (h : x.isNan = false) (k : y.isNan = false) (b : invalidProduct x y = false) : (exactProduct x y).isNan = false := by
  cases x <;> cases y <;> simp_all [FVal.isNan, invalidProduct, exactProduct]

/-! ### Rational values -/

theorem two_zpow_pos (e : Int) : (0 : ℚ) < (2 : ℚ) ^ e := zpow_pos (by norm_num) e

theorem p2_cast {k : Int} (h : 0 ≤ k) : ((p2 k : Nat) : ℚ) = (2 : ℚ) ^ k := by
  obtain ⟨n, rfl⟩ := Int.eq_ofNat_of_zero_le h
  simp [p2]

theorem Dy.rat_add (x y : Dy) : (x.add y).rat = x.rat + y.rat := by
  unfold Dy.add
  split
  · rename_i h; simp [Dy.rat, h]
  · split
    · rename_i h; simp [Dy.rat, h]
    · dsimp only
      simp only [Dy.rat]
      have h1 : 0 ≤ x.e - min x.e y.e := by omega
      have h2 : 0 ≤ y.e - min x.e y.e := by omega
      have e1 : (2 : ℚ) ^ x.e = (2 : ℚ) ^ (x.e - min x.e y.e) * (2 : ℚ) ^ (min x.e y.e) := by rw [← zpow_add₀ (by norm_num)]; congr 1; omega
      have e2 : (2 : ℚ) ^ y.e = (2 : ℚ) ^ (y.e - min x.e y.e) * (2 : ℚ) ^ (min x.e y.e) := by rw [← zpow_add₀ (by norm_num)]; congr 1; omega
      push_cast
      rw [p2_cast h1, p2_cast h2, e1, e2]
      ring

theorem Dy.rat_neg (x : Dy) : x.neg.rat = -x.rat := by simp [Dy.rat, Dy.neg]

theorem Dy.rat_mul (x y : Dy) : (x.mul y).rat = x.rat * y.rat := by
  simp only [Dy.rat, Dy.mul, zpow_add₀ (show (2 : ℚ) ≠ 0 by norm_num)]
  push_cast; ring

theorem Dy.rat_lt_zero (x : Dy) : x.rat < 0 ↔ x.m < 0 := by
  unfold Dy.rat
  have h := two_zpow_pos x.e
  constructor
  · intro h1
    by_contra h2
    have : (0 : ℚ) ≤ x.m := by exact_mod_cast (not_lt.1 h2)
    have := mul_nonneg this h.le
    linarith
  · intro h1
    have : (x.m : ℚ) < 0 := by exact_mod_cast h1
    exact mul_neg_of_neg_of_pos this h

theorem Dy.lt_eq (x y : Dy) : x.lt y = decide (x.rat < y.rat) := by
  have h : x.rat < y.rat ↔ (x.add y.neg).m < 0 := by
    rw [← Dy.rat_lt_zero, Dy.rat_add, Dy.rat_neg]; constructor <;> intro h <;> linarith
  rw [show decide (x.rat < y.rat) = decide ((x.add y.neg).m < 0) from decide_eq_decide.2 h]
  unfold Dy.lt Dy.cmp
  generalize (x.add y.neg).m = z
  rcases lt_trichotomy z 0 with h1 | h1 | h1
  · rw [compare_lt_iff_lt.2 h1]; simp [h1]
  · subst h1; rfl
  · rw [compare_gt_iff_gt.2 h1]; have : ¬ z < 0 := by omega
    simp [this]

theorem less_eq (x y : FVal) (h : x.isNan = false) (k : y.isNan = false) : x.less y = x.lessThan y := by
  cases x <;> cases y <;> simp_all [FVal.less, FVal.lessThan, Dy.lt_eq, FVal.isNan]

theorem before_eq (x y : FVal) (h : x.isNan = false) (k : y.isNan = false) : x.before y = x.below y := by
  cases x with
  | nan _ => simp [FVal.isNan] at h
  | inf p =>
    cases y with
    | nan _ => simp [FVal.isNan] at k
    | inf q => simp [FVal.before, FVal.below, FVal.lessThan, FVal.isZero]
    | fin t n e => simp [FVal.before, FVal.below, FVal.lessThan, FVal.isZero]
  | fin s m g =>
    cases y with
    | nan _ => simp [FVal.isNan] at k
    | inf q => simp [FVal.before, FVal.below, FVal.lessThan, FVal.isZero]
    | fin t n e =>
      simp only [FVal.before, FVal.below, FVal.lessThan, Dy.lt_eq]
      by_cases hz : (FVal.fin s m g).isZero && (FVal.fin t n e).isZero
      · rw [if_pos hz]
        simp only [Bool.and_eq_true, FVal.isZero, decide_eq_true_eq] at hz
        obtain ⟨rfl, rfl⟩ := hz
        simp [FVal.dy, Dy.rat, FVal.isZero]
      · rw [if_neg hz]
        simp only [Bool.not_eq_true] at hz
        simp [hz]

theorem extreme_eq (g : FF) (isMax : Bool) (x y : Nat) : extremeOf g isMax x y = extremeRule g isMax x y := by
  unfold extremeOf extremeRule
  dsimp only
  cases h : (g.value x).isNan <;> cases k : (g.value y).isNan <;> simp [evInvalid]
  cases isMax <;> simp [before_eq _ _ h k, before_eq _ _ k h]

theorem compare_eq (cond : FCond) (x y : FVal) :
    fcondHolds cond x y = (compareRule cond x y).1 ∧ oneEvent (fcondInvalid cond x y) false false = if (compareRule cond x y).2 then [1] else [] := by
  cases h : x.isNan <;> cases k : y.isNan
  · cases cond <;> simp [fcondHolds, compareRule, fcondInvalid, oneEvent, h, k, less_eq _ _ h k, less_eq _ _ k h, evInvalid]
  · cases cond <;> simp [fcondHolds, compareRule, fcondInvalid, oneEvent, h, k, evInvalid]
  · cases cond <;> simp [fcondHolds, compareRule, fcondInvalid, oneEvent, h, k, evInvalid]
  · cases cond <;> simp [fcondHolds, compareRule, fcondInvalid, oneEvent, h, k, evInvalid]

/-! ### Classes, exponents and scaling (R149, R150) -/

theorem modified_lt (t : FTy) (neg abs : Bool) (x : Word) (i : Nat) : modified t neg abs x i < 2 ^ (FTy.ff t).width := by
  unfold modified
  dsimp only
  have hw : (FTy.ff t).width = ((FTy.ff t).width - 1) + 1 := by cases t <;> rfl
  generalize (FTy.ff t).width - 1 = k at *
  rw [hw, Nat.pow_succ]
  have h1 : x.toNat / 2 ^ (16 * i) % (2 ^ k * 2) < 2 ^ k * 2 := Nat.mod_lt _ (by positivity)
  have h2 : x.toNat / 2 ^ (16 * i) % (2 ^ k * 2) % 2 ^ k < 2 ^ k := Nat.mod_lt _ (by positivity)
  cases neg <;> cases abs <;> simp <;> (try split) <;> omega

theorem flag_eq (x i : Nat) (h : x < 2 ^ (i + 1)) : flag x i = decide (2 ^ i ≤ x) := by
  rw [flag, Nat.testBit_eq_decide_div_mod_eq, decide_eq_decide]
  have hp : 0 < 2 ^ i := by positivity
  rw [Nat.pow_succ] at h
  constructor
  · intro h1
    by_contra h2
    rw [Nat.div_eq_of_lt (by omega)] at h1
    omega
  · intro h1
    have : x / 2 ^ i = 1 := by
      apply Nat.div_eq_of_lt_le <;> omega
    omega

theorem class_eq (t : FTy) (x : Nat) (hx : x < 2 ^ (FTy.ff t).width) : classOf (FTy.ff t) x = classRule (FTy.ff t) x := by
  have hs : flag x ((FTy.ff t).ebits + (FTy.ff t).fbits) = decide ((FTy.ff t).signBit ≤ x) := by
    have := flag_eq x ((FTy.ff t).ebits + (FTy.ff t).fbits) (by
      have : (FTy.ff t).width = (FTy.ff t).ebits + (FTy.ff t).fbits + 1 := by cases t <;> rfl
      rw [← this]; exact hx)
    rw [this]; rfl
  have hq : ∀ m n, 0 < n → m < 2 ^ n → flag m (n - 1) = decide (2 ^ (n - 1) ≤ m) := by
    intro m n hn hm
    exact flag_eq m (n - 1) (by rw [show n - 1 + 1 = n by omega]; exact hm)
  unfold classOf classRule FF.value
  dsimp only
  rw [hs]
  generalize decide ((FTy.ff t).signBit ≤ x) = neg
  have hg : (FTy.ff t).hasInf = true ∧ FTy.ff t ≠ .e4m3 := by cases t <;> exact ⟨rfl, by decide⟩
  have hi : (FTy.ff t).infCode = (2 ^ (FTy.ff t).ebits - 1) * 2 ^ (FTy.ff t).fbits := by cases t <;> rfl
  have hE : 0 < (FTy.ff t).ebits := by cases t <;> decide
  have hF : 0 < (FTy.ff t).fbits := by cases t <;> decide
  rw [hg.1, hi]
  simp only [FF.signBit, Bool.and_true, hg.2, decide_false, Bool.false_and, Bool.false_eq_true, if_false, decide_eq_true_eq]
  obtain ⟨bias, hbb⟩ : ∃ b, b = (FTy.ff t).bias := ⟨_, rfl⟩
  obtain ⟨E, hee⟩ : ∃ b, b = (FTy.ff t).ebits := ⟨_, rfl⟩
  obtain ⟨F, hff⟩ : ∃ b, b = (FTy.ff t).fbits := ⟨_, rfl⟩
  simp only [← hbb, ← hee, ← hff] at *
  clear hbb hee hff hs hi hg hx
  have hm : x % 2 ^ F = x % 2 ^ (E + F) % 2 ^ F := by rw [Nat.mod_mod_of_dvd]; exact Nat.pow_dvd_pow 2 (by omega)
  have he : x / 2 ^ F % 2 ^ E = x % 2 ^ (E + F) / 2 ^ F := by
    rw [Nat.add_comm E F, Nat.pow_add, Nat.mod_mul_right_div_self]
  rw [hm, he]
  have hlt : x % 2 ^ (E + F) < 2 ^ E * 2 ^ F := by rw [← Nat.pow_add]; exact Nat.mod_lt _ (by positivity)
  have hP : 0 < 2 ^ F := by positivity
  have hT : 0 < 2 ^ E - 1 := by
    have : 2 ^ 1 ≤ 2 ^ E := Nat.pow_le_pow_right (by omega) hE
    omega
  obtain ⟨e, m, hml, hmag⟩ : ∃ e m, m < 2 ^ F ∧ x % 2 ^ (E + F) = 2 ^ F * e + m :=
    ⟨x % 2 ^ (E + F) / 2 ^ F, x % 2 ^ (E + F) % 2 ^ F, Nat.mod_lt _ hP, (Nat.div_add_mod _ _).symm⟩
  have hQ := hq m F hF hml
  have hd : (2 ^ F * e + m) / 2 ^ F = e := by rw [Nat.mul_add_div hP, Nat.div_eq_of_lt hml]; rfl
  have hr : (2 ^ F * e + m) % 2 ^ F = m := by rw [Nat.mul_add_mod, Nat.mod_eq_of_lt hml]
  rw [hmag] at hlt
  have hel : e ≤ 2 ^ E - 1 := by
    have : e < 2 ^ E := by
      by_contra hc
      have := Nat.mul_le_mul_left (2 ^ F) (not_lt.1 hc)
      rw [Nat.mul_comm (2 ^ F) (2 ^ E)] at this; omega
    omega
  simp only [hmag, hd, hr, hQ]
  clear hq hm he hlt hmag hd hr hQ
  obtain ⟨top, htop⟩ : ∃ b, b = 2 ^ E - 1 := ⟨_, rfl⟩
  obtain ⟨P, hp⟩ : ∃ b, b = 2 ^ F := ⟨_, rfl⟩
  obtain ⟨H, hh⟩ : ∃ b, b = 2 ^ (F - 1) := ⟨_, rfl⟩
  simp only [← htop, ← hp, ← hh] at *
  clear htop hp hh
  by_cases h1 : e = top
  · subst h1
    by_cases h2 : m = 0
    · subst h2
      simp [Nat.mul_comm]
    · have h3 : e * P < P * e + m := by rw [Nat.mul_comm]; omega
      simp only [h3, if_true, h2, if_false]
      by_cases h4 : H ≤ m
      · have : ¬ m < H := by omega
        simp [h4, this]
      · have : m < H := by omega
        simp [h4, this]
  · have h2 : e + 1 ≤ top := by omega
    have h3 : P * e + m < top * P := by
      have := Nat.mul_le_mul_right P h2
      rw [Nat.mul_comm P e]
      rw [Nat.add_mul] at this; omega
    have h4 : ¬ top * P < P * e + m := by omega
    have h5 : ¬ P * e + m = top * P := by omega
    simp only [h1, h4, h5, if_false]
    by_cases h6 : e = 0
    · subst h6
      simp [hml]
    · have h7 : ¬ P * e + m < P := by
        have : 1 * P ≤ e * P := Nat.mul_le_mul_right P (by omega)
        rw [Nat.mul_comm P e]; omega
      have h8 : ¬ P * e + m = 0 := by omega
      have h9 : ¬ m + P = 0 := by omega
      have h10 : ¬ m + P < P := by omega
      simp only [h6, h7, h8, h9, h10, if_false]

theorem le_ite_succ {p : Prop} [Decidable p] {a b : Nat} (h : a ≤ b) : a ≤ if p then b + 1 else b := by split <;> omega

theorem log2_eq (x : Dy) (k : Int) (hm : x.m ≠ 0) (h : IsLog2 x k) : x.log2 = k := by
  obtain ⟨h1, h2⟩ := h
  have ha : |x.rat| = (x.m.natAbs : ℚ) * (2 : ℚ) ^ x.e := by
    unfold Dy.rat
    rw [abs_mul, abs_of_pos (two_zpow_pos x.e), ← Int.cast_abs, Int.abs_eq_natAbs]; simp
  have hn : x.m.natAbs ≠ 0 := by omega
  have l1 : (2 : ℚ) ^ (Nat.log2 x.m.natAbs : Int) ≤ x.m.natAbs := by
    rw [zpow_natCast]; exact_mod_cast Nat.log2_self_le hn
  have l2 : (x.m.natAbs : ℚ) < (2 : ℚ) ^ ((Nat.log2 x.m.natAbs : Int) + 1) := by
    have : x.m.natAbs < 2 ^ (Nat.log2 x.m.natAbs + 1) := Nat.lt_log2_self
    rw [show ((Nat.log2 x.m.natAbs : Int) + 1) = ((Nat.log2 x.m.natAbs + 1 : Nat) : Int) by push_cast; rfl, zpow_natCast]
    exact_mod_cast this
  have hp := two_zpow_pos x.e
  rw [ha] at h1 h2
  have u1 : (2 : ℚ) ^ ((Nat.log2 x.m.natAbs : Int) + x.e) < (2 : ℚ) ^ (k + 1) := by
    rw [zpow_add₀ (by norm_num)]
    exact lt_of_le_of_lt (mul_le_mul_of_nonneg_right l1 hp.le) h2
  have u2 : (2 : ℚ) ^ k < (2 : ℚ) ^ ((Nat.log2 x.m.natAbs : Int) + 1 + x.e) := by
    rw [zpow_add₀ (by norm_num)]
    exact lt_of_le_of_lt h1 (mul_lt_mul_of_pos_right l2 hp)
  rw [zpow_lt_zpow_iff_right₀ (by norm_num)] at u1 u2
  unfold Dy.log2; omega

/-- What the finite values of an element format are. -/
theorem value_fin {t : FTy} {x : Nat} {neg : Bool} {m : Nat} {e : Int} (h : (FTy.ff t).value x = .fin neg m e) :
    -149 ≤ e ∧ e ≤ 128 ∧ m < 2 ^ ((FTy.ff t).fbits + 1) ∧ e + (FTy.ff t).fbits ≤ 128 := by
  have hP : x % 2 ^ (FTy.ff t).fbits < 2 ^ (FTy.ff t).fbits := Nat.mod_lt _ (by positivity)
  have hE : x / 2 ^ (FTy.ff t).fbits % 2 ^ (FTy.ff t).ebits < 2 ^ (FTy.ff t).ebits := Nat.mod_lt _ (by positivity)
  unfold FF.value at h
  dsimp only at h
  rw [Nat.pow_succ]
  split at h
  · split at h <;> simp at h
  · split at h
    · simp at h
    · split at h
      · simp only [FVal.fin.injEq] at h
        obtain ⟨_, rfl, rfl⟩ := h
        refine ⟨?_, ?_, by omega, ?_⟩ <;> cases t <;> decide
      · simp only [FVal.fin.injEq] at h
        obtain ⟨_, rfl, rfl⟩ := h
        generalize x / 2 ^ (FTy.ff t).fbits % 2 ^ (FTy.ff t).ebits = z at *
        refine ⟨?_, ?_, by omega, ?_⟩ <;> cases t <;> simp only [FTy.ff, FF.ebits, FF.fbits, FF.bias] at * <;> omega

theorem roundMag_big (g : FF) (rnd : Rnd) (neg : Bool) (m : Nat) (e : Int) (hm : m ≠ 0) (h : 600 ≤ (Nat.log2 m : Int) + e) :
    g.maxCode < g.roundMag rnd neg m e := by
  have l1 := Nat.log2_self_le hm
  unfold FF.roundMag
  rw [if_neg hm]
  dsimp only
  have hu : max ((Nat.log2 m : Int) + e - g.fbits) (1 - g.bias - g.fbits) = (Nat.log2 m : Int) + e - g.fbits := by
    have : g.bias ≥ 0 := by cases g <;> decide
    omega
  rw [hu]
  have hq : 2 ^ g.fbits ≤ roundUnit rnd neg m e ((Nat.log2 m : Int) + e - g.fbits) := by
    unfold roundUnit
    split
    · rename_i hle
      have : (p2 (e - ((Nat.log2 m : Int) + e - g.fbits))) = 2 ^ (g.fbits - Nat.log2 m) := by
        unfold p2; congr 1; omega
      rw [this]
      calc 2 ^ g.fbits = 2 ^ Nat.log2 m * 2 ^ (g.fbits - Nat.log2 m) := by rw [← Nat.pow_add]; congr 1; omega
        _ ≤ _ := Nat.mul_le_mul_right _ l1
    · rename_i hle
      have hk : ((Nat.log2 m : Int) + e - g.fbits - e).toNat = Nat.log2 m - g.fbits := by omega
      rw [hk]
      have : 2 ^ g.fbits ≤ m / 2 ^ (Nat.log2 m - g.fbits) := by
        rw [Nat.le_div_iff_mul_le (by positivity), ← Nat.pow_add]
        calc 2 ^ (g.fbits + (Nat.log2 m - g.fbits)) = 2 ^ Nat.log2 m := by congr 1; omega
          _ ≤ m := l1
      unfold roundShift
      exact le_ite_succ this
  generalize roundUnit rnd neg m e ((Nat.log2 m : Int) + e - g.fbits) = q at *
  rw [if_neg (by omega)]
  have hmax : g.maxCode < 512 * 2 ^ g.fbits := by cases g <;> decide
  have hb : g.bias ≥ 0 := by cases g <;> decide
  split
  · have h5 : 512 ≤ ((Nat.log2 m : Int) + e - g.fbits + g.bias + g.fbits).toNat := by omega
    have := Nat.mul_le_mul_right (2 ^ g.fbits) h5
    omega
  · have h5 : 512 ≤ ((Nat.log2 m : Int) + e - g.fbits + 1 + g.bias + g.fbits).toNat := by omega
    have := Nat.mul_le_mul_right (2 ^ g.fbits) h5
    omega

theorem roundFin_big (g : FF) (rnd : Rnd) (neg : Bool) (m : Nat) (e e' : Int) (hm : m ≠ 0) (h : 600 ≤ (Nat.log2 m : Int) + e)
    (h' : 600 ≤ (Nat.log2 m : Int) + e') : g.roundFin rnd false neg m e = g.roundFin rnd false neg m e' := by
  unfold FF.roundFin
  dsimp only
  rw [if_pos (roundMag_big g rnd neg m e hm h), if_pos (roundMag_big g rnd neg m e' hm h')]

theorem roundMag_small (g : FF) (rnd : Rnd) (neg : Bool) (m : Nat) (e : Int) (hm : m ≠ 0) (h : (Nat.log2 m : Int) + e ≤ -400) (hg : g ≠ .acc48) :
    g.roundMag rnd neg m e = if (match rnd with | .rne => false | .rz => false | .rdn => neg | .rup => !neg) then 1 else 0 := by
  unfold FF.roundMag
  rw [if_neg hm]
  dsimp only
  have hb : -149 ≤ 1 - g.bias - g.fbits := by cases g <;> first | decide | exact absurd rfl hg
  have hu : max ((Nat.log2 m : Int) + e - g.fbits) (1 - g.bias - g.fbits) = 1 - g.bias - g.fbits := by omega
  rw [hu]
  have hlt : m < 2 ^ (Nat.log2 m + 1) := Nat.lt_log2_self
  have hq : roundUnit rnd neg m e (1 - g.bias - g.fbits) = if (match rnd with | .rne => false | .rz => false | .rdn => neg | .rup => !neg) then 1 else 0 := by
    unfold roundUnit
    rw [if_neg (by omega)]
    obtain ⟨k, hk⟩ : ∃ k, k = (1 - g.bias - g.fbits - e).toNat := ⟨_, rfl⟩
    rw [← hk]
    have hk2 : Nat.log2 m + 2 ≤ k := by omega
    have hlt2 : 2 * m < 2 ^ k := by
      calc 2 * m < 2 * 2 ^ (Nat.log2 m + 1) := by omega
        _ = 2 ^ (Nat.log2 m + 2) := by rw [Nat.pow_succ _ (_ + 1)]; ring
        _ ≤ 2 ^ k := Nat.pow_le_pow_right (by omega) hk2
    unfold roundShift
    have h1 : m / 2 ^ k = 0 := Nat.div_eq_of_lt (by omega)
    have h2 : m % 2 ^ k = m := Nat.mod_eq_of_lt (by omega)
    rw [h1, h2]
    have h3 : ¬ 2 ^ k < 2 * m := by omega
    have h4 : ¬ 2 ^ k = 2 * m := by omega
    cases rnd <;> simp [h3, h4, hm]
  rw [hq]
  have hF : 1 < 2 ^ g.fbits := by cases g <;> decide
  generalize (match rnd with | .rne => false | .rz => false | .rdn => neg | .rup => !neg) = up
  cases up
  · rw [if_pos (by simp)]
  · rw [if_pos (by simpa using hF)]

theorem roundFin_small (g : FF) (rnd : Rnd) (neg : Bool) (m : Nat) (e e' : Int) (hm : m ≠ 0) (h : (Nat.log2 m : Int) + e ≤ -400)
    (h' : (Nat.log2 m : Int) + e' ≤ -400) (hg : g ≠ .acc48) : g.roundFin rnd false neg m e = g.roundFin rnd false neg m e' := by
  unfold FF.roundFin
  rw [roundMag_small g rnd neg m e hm h hg, roundMag_small g rnd neg m e' hm h' hg]

theorem scale_clamp {t : FTy} {x : Nat} {neg : Bool} {m : Nat} {e : Int} (h : (FTy.ff t).value x = .fin neg m e) (hm : m ≠ 0) (rnd : Rnd) (n : Int) :
    (FTy.ff t).roundFin rnd false neg m (e + max (-1000) (min 1000 n)) = (FTy.ff t).roundFin rnd false neg m (e + n) := by
  obtain ⟨h1, h2, h3, h4⟩ := value_fin h
  have hl : Nat.log2 m ≤ (FTy.ff t).fbits := by
    have := (Nat.log2_lt hm).2 h3; omega
  by_cases ha : 1000 < n
  · exact roundFin_big _ _ _ _ _ _ hm (by omega) (by omega)
  · by_cases hb : n < -1000
    · exact roundFin_small _ _ _ _ _ _ hm (by omega) (by omega) (by cases t <;> decide)
    · congr 1; omega

theorem scale_count (t : FTy) (v : Word) (i : Nat) (hi : t = .f32 → i = 0) :
    sextNat (FTy.ff t).width (FTy.elem t v i) = if t = .f32 then v.toInt else ((v.toNat / 65536 ^ i % 65536 + 32768) % 65536 : Nat) - (32768 : Int) := by
  have hp : ∀ i, 2 ^ (16 * i) = 65536 ^ i := by intro i; rw [Nat.pow_mul]
  cases t
  · rw [hi rfl, if_pos rfl]
    simp only [FTy.elem, FTy.ff, FF.width, FF.ebits, FF.fbits, sextNat]
    congr 1
    apply BitVec.eq_of_toNat_eq
    simp only [Nat.mul_zero, Nat.pow_zero, Nat.div_one, BitVec.toNat_ofNat]
    have := v.isLt
    norm_num; omega
  all_goals
    rw [if_neg (by decide)]
    simp only [FTy.elem, FTy.ff, FF.width, FF.ebits, FF.fbits, sextNat, hp]
    generalize v.toNat / 65536 ^ i = z
    have hz : z % 65536 < 65536 := Nat.mod_lt _ (by omega)
    rw [BitVec.toInt_eq_toNat_cond]
    simp only [BitVec.toNat_ofNat, Nat.reduceAdd, Nat.reducePow, Nat.mod_mod]
    generalize z % 65536 = y at *
    split <;> omega

theorem integral_eq (g : FF) (rnd : Rnd) (x : Nat) : roundOf g rnd x = integralRule g rnd x := by
  unfold roundOf nanFirst integralRule singleRule
  cases g.value x <;> simp [oneEvent, evInvalid]

theorem scale_eq (t : FTy) (rnd : Rnd) (x : Nat) (n : Int) : scaleOf (FTy.ff t) rnd x n = scaleRule (FTy.ff t) rnd x n := by
  unfold scaleOf nanFirst scaleRule singleRule
  cases hv : (FTy.ff t).value x with
  | nan sig => simp [oneEvent, evInvalid]
  | inf p => rfl
  | fin neg mag e =>
    dsimp only
    by_cases h0 : mag = 0
    · simp [h0]
    · rw [if_neg h0, if_neg h0, scale_clamp hv h0]
      simp [oneEvent, evOverflow]

/-- The exponent of a finite value that is not zero. -/
theorem log2_fin (neg : Bool) (m : Nat) (e k : Int) (hm : m ≠ 0) (h : (FVal.fin neg m e).dy.m ≠ 0 → IsLog2 (FVal.fin neg m e).dy k) :
    (FVal.fin neg m e).dy.log2 = k ∧ (Nat.log2 m : Int) + e = k := by
  have h0 : (FVal.fin neg m e).dy.m ≠ 0 := by
    simp only [FVal.dy]; split <;> simp <;> omega
  have h1 := log2_eq _ _ h0 (h h0)
  refine ⟨h1, ?_⟩
  rw [← h1]
  simp only [FVal.dy, Dy.log2]; split <;> simp

theorem exponent_eq (g : FF) (x : Nat) (k : Int) (h : (g.value x).dy.m ≠ 0 → IsLog2 (g.value x).dy k) : expOf g x = exponentRule g x k := by
  unfold expOf nanFirst exponentRule singleRule
  cases hv : g.value x with
  | nan sig => simp [oneEvent, evInvalid]
  | inf p => rfl
  | fin neg mag e =>
    rw [hv] at h
    dsimp only
    by_cases h0 : mag = 0
    · simp [h0, FVal.isZero, evDivZero]
    · rw [(log2_fin neg mag e k h0 h).1]; simp [h0, FVal.isZero]

theorem mantissa_eq (g : FF) (x : Nat) (k : Int) (h : (g.value x).dy.m ≠ 0 → IsLog2 (g.value x).dy k) : manOf g x = mantissaRule g x k := by
  unfold manOf nanFirst mantissaRule singleRule
  cases hv : g.value x with
  | nan sig => simp [oneEvent, evInvalid]
  | inf p => simp [evInvalid]
  | fin neg mag e =>
    rw [hv] at h
    dsimp only
    by_cases h0 : mag = 0
    · simp [h0]
    · rw [if_neg h0, if_neg h0, show -(Nat.log2 mag : Int) = e - k by have := (log2_fin neg mag e k h0 h).2; omega]

/-! ### Packing -/

theorem packWord_sum (bits n : Nat) (h : Nat → Nat) : packWord bits ((List.range n).map h) = ∑ i ∈ Finset.range n, h i * 2 ^ (bits * i) := by
  induction n generalizing h with
  | zero => rfl
  | succ n ih =>
    rw [List.range_succ_eq_map, List.map_cons, packWord, List.map_map, ih, Finset.sum_range_succ', Finset.mul_sum]
    simp only [Function.comp, Nat.mul_zero, Nat.pow_zero, Nat.mul_one]
    rw [Nat.add_comm]
    congr 1
    apply Finset.sum_congr rfl
    intro i _
    rw [show bits * (i + 1) = bits + bits * i by ring, Nat.pow_add]; ring

theorem regs_nodup_lookup (d : Reg) (n : Nat) (hn : n ≤ 256) (v : Nat → Word) (k : RName) :
    ((List.range n).map (fun i => (RName.v (d + BitVec.ofNat 8 i), v i))).lookup k =
      ((List.range n).map (fun i => (RName.v (d + BitVec.ofNat 8 i), v i))).reverse.lookup k := by
  induction n with
  | zero => rfl
  | succ n ih =>
    rw [List.range_succ, List.map_append, List.map_cons, List.map_nil, List.reverse_append, List.reverse_singleton, List.singleton_append,
      lookup_append, List.lookup_cons, List.lookup_cons, ih (by omega)]
    by_cases hk : k = .v (d + BitVec.ofNat 8 n)
    · subst hk
      simp only [BEq.rfl]
      rw [← ih (by omega)]
      have : ((List.range n).map (fun i => (RName.v (d + BitVec.ofNat 8 i), v i))).lookup (.v (d + BitVec.ofNat 8 n)) = none := by
        rw [List.lookup_eq_none_iff]
        intro p hp
        simp only [List.mem_map, List.mem_range] at hp
        obtain ⟨i, hi, rfl⟩ := hp
        rw [bne_iff_ne]
        intro hc
        have h1 := RName.v.inj hc
        have h2 : BitVec.ofNat 8 n = BitVec.ofNat 8 i := by simpa using h1
        have h3 := congrArg BitVec.toNat h2
        simp only [BitVec.toNat_ofNat] at h3; omega
      rw [this]; rfl
    · have hb : (k == RName.v (d + BitVec.ofNat 8 n)) = false := by simpa using hk
      simp only [hb, List.lookup_nil, Option.or_none]

end Sys2Proof.Machine
end

