-- ==== Sys2Proof/Laws/Opens.lean ====
section
/-!
SUPPORT. Operations in flight: what opening and answering them does, and what leaves all else alone.
-/

namespace Sys2Proof.Machine

/-! ### What stands but for the books of operations -/

theorem Group.calm_modFibre (g : Group) (l : Nat) (h : Fibre → Fibre) (hh : ∀ f, (h f).calm = f.calm) : (g.modFibre l h).calm = g.calm := by
  simp only [Group.calm, Group.modFibre, List.map_modify_of_eq Fibre.calm h hh]

theorem Team.calm_modGroup (t : Team) (g : Nat) (h : Group → Group) (hh : ∀ x, (h x).calm = x.calm) : (t.modGroup g h).calm = t.calm := by
  simp only [Team.calm, Team.modGroup, List.map_modify_of_eq Group.calm h hh]

theorem State.calm_modGroup (s : State) (t g : Nat) (h : Group → Group) (hh : ∀ x, (h x).calm = x.calm) : (s.modGroup t g h).calm = s.calm := by
  have h1 : (s.modGroup t g h).teams.map (fun e => (e.1, e.2.calm)) = s.teams.map (fun e => (e.1, e.2.calm)) := by
    simp only [State.modGroup, State.modTeam_teams]
    exact fmod_map _ Team.calm (fun x => Team.calm_modGroup x g _ hh) _ _
  unfold State.calm
  rw [h1]; rfl

theorem State.calm_modFibre (s : State) (t g l : Nat) (h : Fibre → Fibre) (hh : ∀ f, (h f).calm = f.calm) : (s.modFibre t g l h).calm = s.calm :=
  State.calm_modGroup s t g _ (fun y => Group.calm_modFibre y l h hh)

theorem List.map_modify_comm {α β : Type} (f : α → β) (h : α → α) (k : β → β) (hh : ∀ x, f (h x) = k (f x)) (ls : List α) (i : Nat) :
    (ls.modify i h).map f = (ls.map f).modify i k := by
  induction ls generalizing i with
  | nil => simp
  | cons x ls ih =>
    cases i with
    | zero => simp [hh]
    | succ i => simp [ih]

theorem fmod_map_comm {α β : Type} (h : α → α) (f : α → β) (k : β → β) (hh : ∀ x, f (h x) = k (f x)) (m : List (Nat × α)) (i : Nat) :
    (fmod m i h).map (fun e => (e.1, f e.2)) = fmod (m.map (fun e => (e.1, f e.2))) i k := by
  induction m with
  | nil => rfl
  | cons x m ih =>
    simp only [fmod, List.map_cons] at ih ⊢
    by_cases hx : x.1 = i <;> simp_all

theorem State.calm_modGroup_comm (s : State) (t g : Nat) (h : Group → Group) (hh : ∀ x, (h x).calm = h x.calm) : (s.modGroup t g h).calm = s.calm.modGroup t g h := by
  have h1 : (s.modGroup t g h).teams.map (fun e => (e.1, e.2.calm)) = fmod (s.teams.map (fun e => (e.1, e.2.calm))) t (fun x => x.modGroup g h) := by
    simp only [State.modGroup, State.modTeam_teams]
    refine fmod_map_comm _ Team.calm _ (fun x => ?_) _ _
    simp only [Team.calm, Team.modGroup, List.map_modify_comm Group.calm h h hh]
  unfold State.calm
  rw [h1]; rfl

theorem State.calm_modFibre_comm (s : State) (t g l : Nat) (h : Fibre → Fibre) (hh : ∀ f, (h f).calm = h f.calm) :
    (s.modFibre t g l h).calm = s.calm.modFibre t g l h :=
  State.calm_modGroup_comm s t g _ (fun y => by simp only [Group.calm, Group.modFibre, List.map_modify_comm Fibre.calm h h hh])

theorem Fibre.calm_tick (f : Fibre) : f.tick.calm = f.calm.tick := by
  unfold Fibre.tick
  have : f.calm.leave = f.leave := rfl
  rw [this]
  split <;> rfl

/-- Counting clocks respects what stands. -/
theorem State.calm_countClocks {a b : State} (w : Who) (h : a.calm = b.calm) : (a.countClocks w).calm = (b.countClocks w).calm := by
  have key : ∀ (ls : List (Nat × Nat)) (x : State), (ls.foldl (fun a y => a.modFibre w.team y.1 y.2 Fibre.tick) x).calm
      = ls.foldl (fun a y => a.modFibre w.team y.1 y.2 Fibre.tick) x.calm := by
    intro ls
    induction ls with
    | nil => intro x; rfl
    | cons y ls ih => intro x; simp only [List.foldl_cons]; rw [ih, State.calm_modFibre_comm _ _ _ _ _ Fibre.calm_tick]
  rw [State.countClocks_eq, State.countClocks_eq, key, key, h]

@[simp] theorem State.calm_opLane (s : State) (op l : Nat) (ws : List (RName × Word)) : (s.opLane op l ws).calm = s.calm := rfl

theorem Fibre.calm_announce (f : Fibre) (pos op sb : Nat) (xs : List RName) : (f.announce pos op sb xs).calm = f.calm := by
  unfold Fibre.announce
  induction xs generalizing f with
  | nil => rfl
  | cons x xs ih => simp only [List.foldl_cons, ih]; rfl

theorem Fibre.announce_keeps (f : Fibre) (pos op sb : Nat) (xs : List RName) :
    (f.announce pos op sb xs).wait = f.wait ∧ (f.announce pos op sb xs).leave = f.leave := by
  unfold Fibre.announce
  induction xs generalizing f with
  | nil => exact ⟨rfl, rfl⟩
  | cons x xs ih => simp only [List.foldl_cons]; exact ih _

theorem Fibre.announce_books (f : Fibre) (pos op sb : Nat) (xs : List RName) :
    (∀ n ∈ xs, (n, op) ∈ (f.announce pos op sb xs).pend ∧ (n, sb) ∈ (f.announce pos op sb xs).uncov) ∧
    (∀ n, (n, op) ∈ f.pend → (n, op) ∈ (f.announce pos op sb xs).pend) ∧ (∀ e ∈ f.uncov, e ∈ (f.announce pos op sb xs).uncov) := by
  unfold Fibre.announce
  induction xs generalizing f with
  | nil => exact ⟨fun n h => absurd h (by simp), fun n h => h, fun e h => h⟩
  | cons x xs ih =>
    simp only [List.foldl_cons]
    obtain ⟨i1, i2, i3⟩ := ih ({ f with wlog := ⟨x, pos, 0, 0⟩ :: f.wlog, pend := (x, op) :: f.pend, uncov := (x, sb) :: f.uncov })
    refine ⟨?_, ?_, ?_⟩
    · intro n hn
      rcases List.mem_cons.1 hn with rfl | hn
      · exact ⟨i2 _ (by simp), i3 _ (by simp)⟩
      · exact i1 n hn
    · intro n hn
      exact i2 n (List.mem_cons_of_mem _ hn)
    · intro e he; exact i3 e (by simp [he])

/-! ### Opening operations -/

/-- What opening an operation does to the fibre in a lane. -/
def Fibre.opened (f : Fibre) (pos op sb : Nat) (xs : List RName) : Fibre :=
  let f1 := f.announce pos op sb xs
  if sb = 0 then f1 else { f1 with busy := f1.busy + 1 }

theorem Fibre.calm_opened (f : Fibre) (pos op sb : Nat) (xs : List RName) : (f.opened pos op sb xs).calm = f.calm := by
  unfold Fibre.opened; dsimp only
  split
  · exact Fibre.calm_announce _ _ _ _ _
  · rw [← Fibre.calm_announce f pos op sb xs]; rfl

/-- One group's share of opening operations. -/
def State.openOne (s : State) (w : Who) (sb : Nat) (xs : List RName) (perf : List (Nat × Nat)) (g : Nat) : State :=
  ({ s with serial := s.serial + 1, ops := fset s.ops s.serial ⟨w.team, g, sb, lanesIn perf g, lanesIn perf g, [], none, []⟩ } : State).modGroup w.team g (fun x => { x with
      sb := x.sb.modify sb (fun n => if sb = 0 then n else n + 1),
      fibres := (List.range x.fibres.length).map (fun l =>
        let f := x.fibres.getD l Fibre.reset
        if (lanesIn perf g).contains l then f.opened w.pos s.serial sb xs else f) })

theorem range_map_getD {α : Type} (ls : List α) (d : α) : (List.range ls.length).map (fun l => ls.getD l d) = ls := by
  apply List.ext_getElem
  · simp
  · intro i h1 h2; simp at h1; simp [h1]

theorem range_map_getElem? {α : Type} (ls : List α) (d : α) (h : Nat → α → α) (i : Nat) :
    ((List.range ls.length).map (fun l => h l (ls.getD l d)))[i]? = (ls[i]?).map (h i) := by
  by_cases hi : i < ls.length
  · simp [hi]
  · simp [hi]

theorem State.openOne_calm (s : State) (w : Who) (sb : Nat) (xs : List RName) (perf : List (Nat × Nat)) (g : Nat) :
    (s.openOne w sb xs perf g).calm = s.calm := by
  unfold State.openOne
  rw [State.calm_modGroup]
  · rfl
  · intro x
    unfold Group.calm
    dsimp only
    congr 1
    rw [List.map_map]
    conv_rhs => rw [← range_map_getD x.fibres Fibre.reset, List.map_map]
    apply List.map_congr_left
    intro l _
    simp only [Function.comp_apply]
    split
    · exact Fibre.calm_opened _ _ _ _ _
    · rfl

theorem State.openOne_fibre? (s : State) (w : Who) (sb : Nat) (xs : List RName) (perf : List (Nat × Nat)) (g u k l : Nat) :
    (s.openOne w sb xs perf g).fibre? u k l = if u = w.team ∧ k = g ∧ (k, l) ∈ perf then (s.fibre? u k l).map (fun f => f.opened w.pos s.serial sb xs)
      else s.fibre? u k l := by
  have hm : ∀ l, (lanesIn perf g).contains l = decide ((g, l) ∈ perf) := by
    intro l
    rw [Bool.eq_iff_iff]
    simp only [List.contains_eq_mem, decide_eq_true_eq, lanesIn, List.mem_map, List.mem_filter]
    constructor
    · rintro ⟨x, ⟨h1, h2⟩, rfl⟩; rw [← h2]; exact h1
    · intro h; exact ⟨(g, l), ⟨h, rfl⟩, rfl⟩
  unfold State.openOne State.fibre?
  rw [State.group_modGroup]
  have h0 : (({ s with serial := s.serial + 1, ops := fset s.ops s.serial ⟨w.team, g, sb, lanesIn perf g, lanesIn perf g, [], none, []⟩ } : State).group u k) = s.group u k := rfl
  rw [h0]
  by_cases hg : w.team = u ∧ g = k
  · obtain ⟨rfl, rfl⟩ := hg
    simp only [and_self, if_true, true_and]
    cases hx : s.group w.team g with
    | none => simp
    | some x =>
      simp only [Option.map_some, Option.bind_some, hm]
      rw [range_map_getElem? x.fibres Fibre.reset (fun l f => if decide ((g, l) ∈ perf) = true then f.opened w.pos s.serial sb xs else f) l]
      by_cases hp : (g, l) ∈ perf <;> simp [hp]
  · rw [if_neg hg, if_neg (by rintro ⟨h1, h2, _⟩; exact hg ⟨h1.symm, h2.symm⟩)]

theorem State.openOne_sb (s : State) (w : Who) (sb : Nat) (xs : List RName) (perf : List (Nat × Nat)) (g u k : Nat) :
    ((s.openOne w sb xs perf g).group u k).map (·.sb) = (s.group u k).map (fun x => if u = w.team ∧ k = g ∧ sb ≠ 0 then x.sb.modify sb (· + 1) else x.sb) := by
  unfold State.openOne
  rw [State.group_modGroup]
  have h0 : (({ s with serial := s.serial + 1, ops := fset s.ops s.serial ⟨w.team, g, sb, lanesIn perf g, lanesIn perf g, [], none, []⟩ } : State).group u k) = s.group u k := rfl
  rw [h0]
  by_cases hg : w.team = u ∧ g = k
  · obtain ⟨rfl, rfl⟩ := hg
    by_cases hs : sb = 0
    · have : ∀ l : List Nat, l.modify 0 (fun n => n) = l := fun l => by cases l <;> rfl
      cases s.group w.team g <;> simp [hs, this]
    · cases s.group w.team g <;> simp [hs]
  · rw [if_neg hg]
    have : ¬ (u = w.team ∧ k = g ∧ sb ≠ 0) := by rintro ⟨h1, h2, _⟩; exact hg ⟨h1.symm, h2.symm⟩
    simp [this]

theorem State.openOne_ops (s : State) (w : Who) (sb : Nat) (xs : List RName) (perf : List (Nat × Nat)) (g : Nat) :
    (s.openOne w sb xs perf g).ops = fset s.ops s.serial ⟨w.team, g, sb, lanesIn perf g, lanesIn perf g, [], none, []⟩ ∧ (s.openOne w sb xs perf g).serial = s.serial + 1 :=
  ⟨rfl, rfl⟩

theorem State.openOps_eq (s : State) (i : Instr) (w : Who) (perf : List (Nat × Nat)) (c : Ctl) (hc : i.ctl = some c) :
    s.openOps i w perf = (groupsOf perf).foldl (fun (r : List (Nat × Nat) × State) g =>
      (r.1 ++ [(g, r.2.serial)], r.2.openOne w c.sbi.toNat i.writes perf g)) ([], s) := by
  unfold State.openOps
  rw [hc]
  rfl

/-- The operations that opening gives, group by group from a serial number. -/
def numbered (n : Nat) : List Nat → List (Nat × Nat)
  | [] => []
  | g :: gs => (g, n) :: numbered (n + 1) gs

theorem numbered_mem {n : Nat} {gs : List Nat} {e : Nat × Nat} (h : e ∈ numbered n gs) : e.1 ∈ gs ∧ n ≤ e.2 := by
  induction gs generalizing n with
  | nil => simp [numbered] at h
  | cons g gs ih =>
    simp only [numbered, List.mem_cons] at h
    rcases h with rfl | h
    · simp
    · have := ih h; exact ⟨by simp [this.1], by omega⟩

theorem numbered_opOf {n : Nat} {gs : List Nat} (hd : gs.Nodup) {g : Nat} (hg : g ∈ gs) : (g, opOf (numbered n gs) g) ∈ numbered n gs := by
  induction gs generalizing n with
  | nil => simp at hg
  | cons k gs ih =>
    by_cases hk : k = g
    · subst hk; simp [numbered, opOf]
    · have hg' : g ∈ gs := by simpa [Ne.symm hk] using hg
      have := ih (n := n + 1) (List.nodup_cons.1 hd).2 hg'
      simp only [numbered, opOf, List.find?_cons, hk, decide_false, List.mem_cons]
      right; exact this

theorem numbered_inj {n : Nat} {gs : List Nat} {e f : Nat × Nat} (he : e ∈ numbered n gs) (hf : f ∈ numbered n gs) (h : e.2 = f.2) : e = f := by
  induction gs generalizing n with
  | nil => simp [numbered] at he
  | cons g gs ih =>
    simp only [numbered, List.mem_cons] at he hf
    rcases he with rfl | he <;> rcases hf with rfl | hf
    · rfl
    · have := numbered_mem hf; simp only at h; omega
    · have := numbered_mem he; simp only at h; omega
    · exact ih he hf

/-- What opening operations does. -/
structure OpenedFrom (s : State) (w : Who) (sb : Nat) (xs : List RName) (perf : List (Nat × Nat)) (gs : List Nat) (r : State) : Prop where
  calm   : r.calm = s.calm
  old    : ∀ id, id < s.serial → fget r.ops id = fget s.ops id
  ops    : ∀ e ∈ numbered s.serial gs, fget r.ops e.2 = some ⟨w.team, e.1, sb, lanesIn perf e.1, lanesIn perf e.1, [], none, []⟩
  fibres : ∀ u k l, r.fibre? u k l = if u = w.team ∧ k ∈ gs ∧ (k, l) ∈ perf then (s.fibre? u k l).map (fun f => f.opened w.pos (opOf (numbered s.serial gs) k) sb xs)
      else s.fibre? u k l
  sbs    : ∀ u k, (r.group u k).map (·.sb) = (s.group u k).map (fun x => if u = w.team ∧ k ∈ gs ∧ sb ≠ 0 then x.sb.modify sb (· + 1) else x.sb)

theorem openOps_go (w : Who) (sb : Nat) (xs : List RName) (perf : List (Nat × Nat)) (gs : List Nat) (hd : gs.Nodup) (acc : List (Nat × Nat)) (s : State) :
    (gs.foldl (fun (r : List (Nat × Nat) × State) g => (r.1 ++ [(g, r.2.serial)], r.2.openOne w sb xs perf g)) (acc, s)).1 = acc ++ numbered s.serial gs ∧
    OpenedFrom s w sb xs perf gs (gs.foldl (fun (r : List (Nat × Nat) × State) g => (r.1 ++ [(g, r.2.serial)], r.2.openOne w sb xs perf g)) (acc, s)).2 := by
  induction gs generalizing acc s with
  | nil =>
    refine ⟨by simp [numbered], rfl, fun _ _ => rfl, fun e he => by simp [numbered] at he, fun u k l => by simp, fun u k => by simp⟩
  | cons g gs ih =>
    simp only [List.foldl_cons]
    obtain ⟨hg, hgs⟩ := List.nodup_cons.1 hd
    obtain ⟨h1, h2⟩ := ih hgs (acc ++ [(g, s.serial)]) (s.openOne w sb xs perf g)
    have hser : (s.openOne w sb xs perf g).serial = s.serial + 1 := rfl
    refine ⟨by rw [h1, hser]; simp [numbered], ?_⟩
    generalize (gs.foldl (fun (r : List (Nat × Nat) × State) g => (r.1 ++ [(g, r.2.serial)], r.2.openOne w sb xs perf g))
      (acc ++ [(g, s.serial)], s.openOne w sb xs perf g)).2 = r at h2
    refine ⟨h2.calm.trans (State.openOne_calm _ _ _ _ _ _), ?_, ?_, ?_, ?_⟩
    · intro id hid
      rw [h2.old id (by rw [hser]; omega), (State.openOne_ops _ _ _ _ _ _).1, fget_fset_other _ _ _ _ (by omega)]
    · intro e he
      simp only [numbered, List.mem_cons] at he
      rcases he with rfl | he
      · rw [h2.old s.serial (by rw [hser]; omega), (State.openOne_ops _ _ _ _ _ _).1, fget_fset_self]
      · exact h2.ops e (by rw [hser]; exact he)
    · intro u k l
      rw [h2.fibres, State.openOne_fibre?, hser]
      by_cases hk : k = g
      · subst hk
        simp only [hg, false_and, and_false, if_false, true_and, List.mem_cons, true_or]
        have : opOf (numbered s.serial (k :: gs)) k = s.serial := by simp [numbered, opOf]
        rw [this]
      · have : opOf (numbered s.serial (g :: gs)) k = opOf (numbered (s.serial + 1) gs) k := by
          simp [numbered, opOf, Ne.symm hk]
        simp only [hk, false_and, and_false, if_false, List.mem_cons, false_or, this]
    · intro u k
      have h5 := h2.sbs u k
      have h6 := State.openOne_sb s w sb xs perf g u k
      cases hr : r.group u k with
      | none =>
        rw [hr] at h5
        cases ho : (s.openOne w sb xs perf g).group u k with
        | none => rw [ho] at h6; cases hs : s.group u k with
          | none => rfl
          | some y => rw [hs] at h6; simp at h6
        | some y => rw [ho] at h5; simp at h5
      | some y =>
        rw [hr] at h5
        cases ho : (s.openOne w sb xs perf g).group u k with
        | none => rw [ho] at h5; simp at h5
        | some z =>
          rw [ho] at h5 h6
          cases hs : s.group u k with
          | none => rw [hs] at h6; simp at h6
          | some v =>
            rw [hs] at h6
            simp only [Option.map_some, Option.some.injEq] at h5 h6 ⊢
            rw [h5, h6]
            by_cases hu : u = w.team
            · by_cases hk : k = g
              · subst hk; by_cases h0 : sb = 0 <;> simp [hg, h0, hu]
              · by_cases h0 : sb = 0 <;> simp [hk, h0, hu]
            · simp [hu]

theorem eraseDups_nodup (ls : List Nat) : ls.eraseDups.Nodup := by
  induction hn : ls.length using Nat.strongRecOn generalizing ls with
  | _ n ih =>
    cases ls with
    | nil => simp
    | cons x ls =>
      rw [List.eraseDups_cons, List.nodup_cons]
      constructor
      · simp
      · have h1 : (ls.filter (fun b => !b == x)).length ≤ ls.length := List.length_filter_le _ _
        exact ih _ (by simp at hn; omega) _ rfl

theorem groupsOf_nodup (ls : List (Nat × Nat)) : (groupsOf ls).Nodup := eraseDups_nodup _

theorem mem_groupsOf {ls : List (Nat × Nat)} {g : Nat} : g ∈ groupsOf ls ↔ ∃ l, (g, l) ∈ ls := by
  simp [groupsOf]

theorem mem_lanesIn {ls : List (Nat × Nat)} {g l : Nat} : l ∈ lanesIn ls g ↔ (g, l) ∈ ls := by
  simp only [lanesIn, List.mem_map, List.mem_filter, decide_eq_true_eq]
  constructor
  · rintro ⟨x, ⟨h1, h2⟩, rfl⟩; rw [← h2]; exact h1
  · intro h; exact ⟨(g, l), ⟨h, rfl⟩, rfl⟩

/-- Opening the operations of an instruction. -/
theorem State.openOps_spec (s : State) (i : Instr) (w : Who) (perf : List (Nat × Nat)) (c : Ctl) (hc : i.ctl = some c) :
    (s.openOps i w perf).1 = numbered s.serial (groupsOf perf) ∧
    OpenedFrom s w c.sbi.toNat i.writes perf (groupsOf perf) (s.openOps i w perf).2 := by
  rw [State.openOps_eq s i w perf c hc]
  have := openOps_go w c.sbi.toNat i.writes perf (groupsOf perf) (groupsOf_nodup _) [] s
  exact ⟨by simpa using this.1, this.2⟩

/-! ### Answering operations -/

theorem State.foldl_opLane (opf : Nat → Nat) (ws : Nat × Nat → List (RName × Word)) (as : List (Nat × Nat)) (s : State) (g : Nat) (o : Op)
    (h : fget s.ops (opf g) = some o) (hinj : ∀ x ∈ as, opf x.1 = opf g → x.1 = g) :
    fget (as.foldl (fun (a : State) x => a.opLane (opf x.1) x.2 (ws x)) s).ops (opf g) =
      some { o with left := o.left.filter (fun l => decide ((g, l) ∉ as)),
                    writes := o.writes ++ (as.filter (fun x => decide (x.1 = g))).flatMap (fun x => (ws x).map (fun e => (x.2, e.1, e.2))) } := by
  induction as generalizing s o with
  | nil => simp [h]
  | cons x as ih =>
    simp only [List.foldl_cons]
    have hx := hinj x (by simp)
    by_cases hg : x.1 = g
    · have h1 : fget (s.opLane (opf x.1) x.2 (ws x)).ops (opf g) = some { o with left := o.left.filter (fun l => decide (l ≠ x.2)), writes := o.writes ++ (ws x).map (fun e => (x.2, e.1, e.2)) } := by
        simp only [State.opLane, hg, fget_fmod_self, h, Option.map_some]
      rw [ih _ _ h1 (fun y hy => hinj y (by simp [hy]))]
      simp only [List.filter_filter, List.filter_cons, hg, decide_true, if_true, List.flatMap_cons, List.append_assoc]
      congr 2
      apply List.filter_congr
      intro l _
      have : ((g, l) = x) ↔ l = x.2 := by
        constructor
        · intro h; rw [← h]
        · rintro rfl; rw [← hg]
      by_cases h2 : (g, l) ∈ as
      · simp [h2]
      · by_cases h3 : l = x.2
        · have h4 : (g, l) = x := this.2 h3
          subst h3; simp [h4]
        · simp [h2, h3, this]
    · have h1 : fget (s.opLane (opf x.1) x.2 (ws x)).ops (opf g) = some o := by
        simp only [State.opLane]
        rw [fget_fmod_other _ _ _ _ (fun hc => hg (hx hc))]; exact h
      rw [ih _ _ h1 (fun y hy => hinj y (by simp [hy]))]
      simp only [List.filter_cons, hg, decide_false, if_false, Bool.false_eq_true]
      congr 2
      apply List.filter_congr
      intro l _
      have : (g, l) ≠ x := by rintro rfl; exact hg rfl
      simp [this]

theorem State.foldl_opLane_other (opf : Nat → Nat) (ws : Nat × Nat → List (RName × Word)) (as : List (Nat × Nat)) (s : State) (id : Nat)
    (h : ∀ x ∈ as, opf x.1 ≠ id) :
    fget (as.foldl (fun (a : State) x => a.opLane (opf x.1) x.2 (ws x)) s).ops id = fget s.ops id := by
  induction as generalizing s with
  | nil => rfl
  | cons x as ih =>
    simp only [List.foldl_cons]
    rw [ih _ (fun y hy => h y (by simp [hy]))]
    simp only [State.opLane]
    rw [fget_fmod_other _ _ _ _ (h x (by simp))]

/-- Lanes that do not wait are answered straight. -/
theorem State.foldl_doneLane (w : Who) (opf : Nat → Nat) (ws : Nat × Nat → List (RName × Word)) (as : List (Nat × Nat)) (s : State)
    (h : ∀ x ∈ as, (s.fibre w.team x.1 x.2).wait = none) :
    as.foldl (fun (a : State) x => a.doneLane w x.1 x.2 (opf x.1) (ws x)) s = as.foldl (fun (a : State) x => a.opLane (opf x.1) x.2 (ws x)) s := by
  induction as generalizing s with
  | nil => rfl
  | cons x as ih =>
    simp only [List.foldl_cons]
    have h1 : s.doneLane w x.1 x.2 (opf x.1) (ws x) = s.opLane (opf x.1) x.2 (ws x) := by
      unfold State.doneLane; rw [h x (by simp)]; rfl
    rw [h1]
    exact ih _ (fun y hy => h y (by simp [hy]))

theorem writes_of_lane (as : List (Nat × Nat)) (hd : as.Nodup) (g l : Nat) (hl : (g, l) ∈ as) (ws : Nat × Nat → List (RName × Word)) :
    ((((as.filter (fun x => decide (x.1 = g))).flatMap (fun x => (ws x).map (fun e => (x.2, e.1, e.2)))).filter
      (fun e : Nat × RName × Word => decide (e.1 = l))).map (·.2)) = ws (g, l) := by
  induction as with
  | nil => simp at hl
  | cons x as ih =>
    obtain ⟨hx, hd'⟩ := List.nodup_cons.1 hd
    by_cases he : x = (g, l)
    · subst he
      have h0 : ((as.filter (fun x => decide (x.1 = g))).flatMap (fun x => (ws x).map (fun e => (x.2, e.1, e.2)))).filter
          (fun e : Nat × RName × Word => decide (e.1 = l)) = [] := by
        rw [List.filter_eq_nil_iff]
        intro e hem
        simp only [List.mem_flatMap, List.mem_filter, List.mem_map, decide_eq_true_eq] at hem
        obtain ⟨y, ⟨hy1, hy2⟩, z, _, rfl⟩ := hem
        simp only [decide_eq_true_eq]
        intro hc
        apply hx
        have : y = (g, l) := by rw [← hy2, ← hc]
        rw [← this]; exact hy1
      simp only [List.filter_cons, decide_true, if_true, List.flatMap_cons, List.filter_append, h0, List.append_nil]
      rw [List.filter_eq_self.2 (by
        intro e he
        simp only [List.mem_map] at he
        obtain ⟨z, _, rfl⟩ := he
        simp)]
      simp
    · have hl' : (g, l) ∈ as := by rcases List.mem_cons.1 hl with h | h; · exact absurd h.symm he
                                   · exact h
      have := ih hd' hl'
      by_cases hg : x.1 = g
      · simp only [List.filter_cons, hg, decide_true, if_true, List.flatMap_cons, List.filter_append]
        have h0 : ((ws x).map (fun e => (x.2, e.1, e.2))).filter (fun e : Nat × RName × Word => decide (e.1 = l)) = [] := by
          rw [List.filter_eq_nil_iff]
          intro e hem
          simp only [List.mem_map] at hem
          obtain ⟨z, _, rfl⟩ := hem
          simp only [decide_eq_true_eq]
          intro hc; exact he (by rw [← hg, ← hc])
        rw [h0, List.nil_append]; exact this
      · simp only [List.filter_cons, hg, decide_false, Bool.false_eq_true, if_false]; exact this

/-! ### Issuing -/

theorem State.who_ops {s : State} {w : Who} (h : s.who = some w) : w.ops = [] := by
  unfold State.who at h
  split at h
  · simp at h
  · split at h
    · simp at h
    · simp only [Option.some.injEq] at h; subst h; rfl

theorem State.activeOf_lane {s : State} {b : Bundle} {x : Nat × Nat} (h : x ∈ s.activeOf b) : x.2 < 32 := by
  unfold State.activeOf at h
  simp only [List.mem_flatMap, List.mem_map, List.mem_filter, lanesOf] at h
  obtain ⟨m, _, l, ⟨⟨h1, _⟩, _⟩, rfl⟩ := h
  exact List.mem_range.1 h1

theorem State.who_lane {s : State} {w : Who} (h : s.who = some w) {x : Nat × Nat} (hx : x ∈ w.active) : x.2 < 32 := by
  unfold State.who at h
  split at h
  · simp at h
  · split at h
    · simp at h
    · simp only [Option.some.injEq] at h; subst h; exact State.activeOf_lane hx

/-- The time of a core is no book of an operation. -/
theorem State.coreNow_calm {s r : State} (h : r.calm = s.calm) (t : Nat) : r.coreNow t = s.coreNow t := by
  have key : ∀ x : State, x.calm.coreNow t = x.coreNow t := by
    intro x
    have hm : ∀ m : List (Nat × Team), (fget (m.map (fun e => (e.1, e.2.calm))) t).map (fun y => y.part) = (fget m t).map (fun y => y.part) := by
      intro m
      induction m with
      | nil => rfl
      | cons e m ih =>
        simp only [List.map_cons, fget]
        split
        · rfl
        · exact ih
    simp only [State.coreNow, State.team]
    rw [show x.calm.teams = x.teams.map (fun e => (e.1, e.2.calm)) from rfl, hm]; rfl
  rw [← key r, ← key s, h]

/-- The part but for its books: bundles, kills and the time of each core. -/
theorem State.calm_facts {s r : State} (h : r.calm = s.calm) : r.bundles = s.bundles ∧ r.kills = s.kills ∧ ∀ t, r.coreNow t = s.coreNow t :=
  ⟨(congrArg State.bundles h : _), (congrArg State.kills h : _), fun t => State.coreNow_calm h t⟩

theorem State.tick_books (f : Fibre) : f.tick.pend = f.pend ∧ f.tick.uncov = f.uncov := by unfold Fibre.tick; split <;> exact ⟨rfl, rfl⟩

theorem State.countClocks_books (s : State) (w : Who) (u g l : Nat) :
    ((s.countClocks w).fibre u g l).pend = (s.fibre u g l).pend ∧ ((s.countClocks w).fibre u g l).uncov = (s.fibre u g l).uncov := by
  rw [State.countClocks_eq]
  have key : ∀ (ls : List (Nat × Nat)) (a : State), ((ls.foldl (fun a x => a.modFibre w.team x.1 x.2 Fibre.tick) a).fibre? u g l).map (fun f => (f.pend, f.uncov))
      = (a.fibre? u g l).map (fun f => (f.pend, f.uncov)) := by
    intro ls a
    refine State.foldl_keeps (fun a => (a.fibre? u g l).map (fun f => (f.pend, f.uncov))) ls (fun a x => a.modFibre w.team x.1 x.2 Fibre.tick) (fun a x => ?_) a
    rw [State.fibre?_modFibre]
    split
    · cases a.fibre? u g l <;> simp [State.tick_books]
    · rfl
  have h := key w.active s
  simp only [State.fibre_eq]
  cases hr : (w.active.foldl (fun a x => a.modFibre w.team x.1 x.2 Fibre.tick) s).fibre? u g l <;> cases hs : s.fibre? u g l <;>
    rw [hr, hs] at h <;> simp_all

theorem State.countClocks_sb (s : State) (w : Who) (u k : Nat) : ((s.countClocks w).group u k).map (·.sb) = (s.group u k).map (·.sb) := by
  rw [State.countClocks_eq]
  refine State.foldl_keeps (fun a => (a.group u k).map (·.sb)) w.active (fun a x => a.modFibre w.team x.1 x.2 Fibre.tick) (fun a x => ?_) s
  simp only [State.modFibre, State.group_modGroup]
  split
  · cases a.group u k <;> simp [Group.modFibre]
  · rfl

/-- Once the instruction's effect is known: it opens its operations, and the part stands as told. -/
theorem completes_of {i : Instr} {s : State} {w : Who} {c : Ctl} {t : Team} (H : Issues s i w c t) {body : Who → State → State}
    (he : exec i s = native i s body) {effect r : State} {out : Nat × Nat → Option (List (RName × Word))}
    (hb : s.performers w c ≠ [] → body (w.by (s.performers w c)) s = r) (h0 : s.performers w c = [] → r = s)
    (hcalm : r.calm = effect.calm) (hbun : effect.bundles = s.bundles) (hkill : effect.kills = [])
    (hopen : Opened s i w c out r) : Completes i s w c effect out := by
  have hr : (if (s.performers w c).isEmpty then s else body (w.by (s.performers w c)) s) = r := by
    by_cases hp : s.performers w c = []
    · simp [hp, h0 hp]
    · rw [if_neg (by simpa using hp), hb hp]
  have hf := State.calm_facts hcalm
  have hn : native i s body = .next (r.countClocks w) := by
    rw [native_of_issues H, hr]
    dsimp only
    have hh : r.isHeld w = false := by
      have := H.unheld
      simp only [State.isHeld, hf.1.trans hbun] at this ⊢
      exact this
    rw [if_neg (by rw [hh]; simp), State.endNative_quiet (by simp [hf.2.1, hkill])]
  refine ⟨_, he.trans hn, ?_, State.calm_countClocks w hcalm⟩
  refine ⟨?_, ?_⟩
  · intro g hg
    obtain ⟨id, o, k1, k2, k3, k4, k5, k6, k7, k8, k9⟩ := hopen.each g hg
    refine ⟨id, o, k1, by rw [State.countClocks_ops]; exact k2, k3, k4, k5, k6, k7, k8, ?_⟩
    intro l hl n hn
    have hbk := State.countClocks_books r w w.team g l
    rw [hbk.1, hbk.2]
    exact k9 l hl n hn
  · intro u g
    rw [State.countClocks_sb]; exact hopen.counters u g


theorem toNat_ne_zero {b : BitVec 3} : b.toNat ≠ 0 ↔ b ≠ 0 := by
  constructor
  · rintro h rfl; exact h rfl
  · intro h h2; exact h (BitVec.eq_of_toNat_eq (by simpa using h2))

theorem State.openOps_by (s : State) (i : Instr) (w : Who) (p q : List (Nat × Nat)) : s.openOps i (w.by p) q = s.openOps i w q := rfl

theorem State.foldl_opLane_keeps {β : Type} (p : State → β) (hp : ∀ (a : State) op l ws, p (a.opLane op l ws) = p a) (opf : Nat → Nat)
    (ws : Nat × Nat → List (RName × Word)) (as : List (Nat × Nat)) (s : State) :
    p (as.foldl (fun (a : State) x => a.opLane (opf x.1) x.2 (ws x)) s) = p s :=
  State.foldl_keeps p as (fun (a : State) x => a.opLane (opf x.1) x.2 (ws x)) (fun a _ => hp a _ _ _) s

/-- Operations opened at once for all performing fibres, with answers for all of them. -/
theorem opened_of_answers {i : Instr} {s : State} {w : Who} {c : Ctl} {t : Team} (H : Issues s i w c t) (ws : Nat × Nat → List (RName × Word)) {r : State}
    (hops : r.ops = ((s.performers w c).foldl (fun (a : State) x => a.opLane (opOf (numbered s.serial (groupsOf (s.performers w c))) x.1) x.2 (ws x))
      (s.openOps i w (s.performers w c)).2).ops)
    (hteams : ∀ u k l, r.fibre? u k l = (s.openOps i w (s.performers w c)).2.fibre? u k l)
    (hsb : ∀ u k, (r.group u k).map (·.sb) = ((s.openOps i w (s.performers w c)).2.group u k).map (·.sb)) :
    Opened s i w c (fun x => some (ws x)) r := by
  obtain ⟨_, h2⟩ := State.openOps_spec s i w (s.performers w c) c H.ctl
  have hd : (s.performers w c).Nodup := H.distinct.filter _
  refine ⟨?_, ?_⟩
  · intro g hg
    have hnum := numbered_opOf (n := s.serial) (groupsOf_nodup (s.performers w c)) hg
    have ho := h2.ops _ hnum
    have hans := State.foldl_opLane (opOf (numbered s.serial (groupsOf (s.performers w c)))) ws (s.performers w c) _ g _ ho (by
      intro x hx he
      have hxg : x.1 ∈ groupsOf (s.performers w c) := mem_groupsOf.2 ⟨x.2, hx⟩
      have := numbered_inj (numbered_opOf (n := s.serial) (groupsOf_nodup (s.performers w c)) hxg) hnum he
      exact congrArg Prod.fst this)
    refine ⟨_, _, (numbered_mem hnum).2, by rw [hops]; exact hans, rfl, rfl, rfl, ?_, ?_, ?_, ?_⟩
    · intro l; exact mem_lanesIn
    · intro l
      simp only [List.mem_filter, decide_eq_true_eq, mem_lanesIn, reduceCtorEq, and_false, iff_false, not_and, not_not]
      exact fun h => h
    · intro l hl
      simp only [List.nil_append, Option.getD_some]
      exact writes_of_lane _ hd g l (mem_lanesIn.1 hl) ws
    · intro l hl n hn
      have hl' := mem_lanesIn.1 hl
      obtain ⟨f, hf, _⟩ := H.files (g, l) (State.mem_performers hl')
      have hfib : r.fibre w.team g l = f.opened w.pos (opOf (numbered s.serial (groupsOf (s.performers w c))) g) c.sbi.toNat i.writes := by
        rw [State.fibre_eq, hteams, h2.fibres, if_pos ⟨rfl, hg, hl'⟩, hf]; rfl
      rw [hfib]
      have hb := (Fibre.announce_books f w.pos (opOf (numbered s.serial (groupsOf (s.performers w c))) g) c.sbi.toNat i.writes).1 n hn
      unfold Fibre.opened; dsimp only
      split <;> exact hb
  · intro u g
    rw [hsb, h2.sbs]
    simp only [toNat_ne_zero]

/-- The same, for a meaning that answers each performing fibre at once and does nothing else. -/
theorem completes_now {i : Instr} {s : State} {w : Who} {c : Ctl} {t : Team} (H : Starts s i w c t) {body : Who → State → State}
    (he : exec i s = native i s body) (ws : Nat × Nat → List (RName × Word))
    (hb : body (w.by (s.performers w c)) s = (s.performers w c).foldl
      (fun (a : State) x => a.doneLane (w.by (s.performers w c)) x.1 x.2 (opOf (s.openOps i (w.by (s.performers w c)) (s.performers w c)).1 x.1) (ws x))
      (s.openOps i (w.by (s.performers w c)) (s.performers w c)).2) : Completes i s w c s (fun x => some (ws x)) := by
  rw [State.openOps_by] at hb
  obtain ⟨h1, h2⟩ := State.openOps_spec s i w (s.performers w c) c H.ctl
  rw [h1] at hb
  generalize hq : (s.openOps i w (s.performers w c)).2 = q at h2 hb
  have hwait : ∀ x ∈ s.performers w c, (q.fibre (w.by (s.performers w c)).team x.1 x.2).wait = none := by
    intro x hx
    have ha := H.awake x (State.mem_performers hx)
    obtain ⟨f, hf, _⟩ := H.files x (State.mem_performers hx)
    have hr := h2.fibres w.team x.1 x.2
    rw [hf, if_pos ⟨rfl, mem_groupsOf.2 ⟨x.2, hx⟩, hx⟩] at hr
    simp only [State.fibre_eq, hf, Option.getD_some] at ha
    have : q.fibre (w.by (s.performers w c)).team x.1 x.2 = f.opened w.pos (opOf (numbered s.serial (groupsOf (s.performers w c))) x.1) c.sbi.toNat i.writes := by
      show (q.fibre? w.team x.1 x.2).getD Fibre.reset = _
      rw [hr]; rfl
    rw [this]
    unfold Fibre.opened
    dsimp only
    split <;> simp [(Fibre.announce_keeps _ _ _ _ _).1, ha]
  rw [State.foldl_doneLane _ _ _ _ _ hwait] at hb
  refine completes_of H.toIssues he (fun _ => hb) (fun h0 => ?_) ?_ rfl H.quiet (opened_of_answers H.toIssues ws (by rw [hq]) (fun _ _ _ => ?_) (fun _ _ => ?_))
  · rw [h0, ← hq, h0]
    rfl
  · rw [State.foldl_opLane_keeps State.calm (fun _ _ _ _ => rfl)]; exact h2.calm
  · rw [hq]; exact State.foldl_opLane_keeps (fun a : State => a.fibre? _ _ _) (fun _ _ _ _ => rfl) _ _ _ _
  · rw [hq]; exact State.foldl_opLane_keeps (fun a : State => (a.group _ _).map (·.sb)) (fun _ _ _ _ => rfl) _ _ _ _


/-! ### One group after another -/

/-- An operation of one group, opened and answered, with a change of the group beside it. -/
structure AnsweredGroup (i : Instr) (w : Who) (c : Ctl) (perf : List (Nat × Nat)) (ws : Nat × Nat → List (RName × Word)) (upd : Group → Group) (g : Nat)
    (a r : State) : Prop where
  calm   : r.calm = (a.modGroup w.team g upd).calm
  serial : r.serial = a.serial + 1
  op     : ∃ o, fget r.ops a.serial = some o ∧ o.team = w.team ∧ o.grp = g ∧ o.sb = c.sbi.toNat ∧ (∀ l, l ∈ o.lanes ↔ (g, l) ∈ perf) ∧ o.left = [] ∧
    (∀ l ∈ o.lanes, (o.writes.filter (fun e => decide (e.1 = l))).map (·.2) = ws (g, l))
  old    : ∀ id, id < a.serial → fget r.ops id = fget a.ops id
  fibres : ∀ u k l, r.fibre? u k l = if u = w.team ∧ k = g ∧ (k, l) ∈ perf then (a.fibre? u k l).map (fun f => f.opened w.pos a.serial c.sbi.toNat i.writes)
      else a.fibre? u k l
  sbs    : ∀ u k, (r.group u k).map (·.sb) = (a.group u k).map (fun x => if u = w.team ∧ k = g ∧ c.sbi.toNat ≠ 0 then x.sb.modify c.sbi.toNat (· + 1) else x.sb)
  others : ∀ k, k ≠ g → r.group w.team k = a.group w.team k

/-- A change of a group that the books of operations do not enter. -/
def Mild (upd : Nat → Group → Group) : Prop := ∀ g x, (upd g x).calm = upd g x.calm

theorem answered_chain {i : Instr} {w : Who} {c : Ctl} {perf : List (Nat × Nat)} {ws : Nat × Nat → List (RName × Word)} {upd : Nat → Group → Group}
    (hu : Mild upd) (st : State → Nat → State) (s : State) (gs : List Nat) (hd : gs.Nodup) (hfib : ∀ x ∈ perf, (s.fibre? w.team x.1 x.2).isSome)
    (hst : ∀ a g, g ∈ gs → a.group w.team g = s.group w.team g → AnsweredGroup i w c perf ws (upd g) g a (st a g))
    (a : State) (ha : ∀ g ∈ gs, a.group w.team g = s.group w.team g) :
    (gs.foldl st a).calm = (gs.foldl (fun (b : State) g => b.modGroup w.team g (upd g)) a).calm ∧
    (∀ id, id < a.serial → fget (gs.foldl st a).ops id = fget a.ops id) ∧
    (∀ g ∈ gs, ∃ id o, a.serial ≤ id ∧ fget (gs.foldl st a).ops id = some o ∧ o.team = w.team ∧ o.grp = g ∧ o.sb = c.sbi.toNat ∧
      (∀ l, l ∈ o.lanes ↔ (g, l) ∈ perf) ∧ o.left = [] ∧ (∀ l ∈ o.lanes, (o.writes.filter (fun e => decide (e.1 = l))).map (·.2) = ws (g, l)) ∧
      (∀ l ∈ o.lanes, ∀ n ∈ i.writes, (n, id) ∈ ((gs.foldl st a).fibre w.team g l).pend ∧ (n, c.sbi.toNat) ∈ ((gs.foldl st a).fibre w.team g l).uncov)) ∧
    (∀ u k l, ¬ (u = w.team ∧ k ∈ gs ∧ (k, l) ∈ perf) → (gs.foldl st a).fibre? u k l = a.fibre? u k l) ∧
    (∀ u k, ((gs.foldl st a).group u k).map (·.sb) = (a.group u k).map (fun x => if u = w.team ∧ k ∈ gs ∧ c.sbi.toNat ≠ 0 then x.sb.modify c.sbi.toNat (· + 1) else x.sb)) := by
  induction gs generalizing a with
  | nil => refine ⟨rfl, fun _ _ => rfl, fun g hg => absurd hg (by simp), fun _ _ _ _ => rfl, fun u k => by simp⟩
  | cons g gs ih =>
    obtain ⟨hg, hgs⟩ := List.nodup_cons.1 hd
    have A := hst a g (by simp) (ha g (by simp))
    obtain ⟨i1, i2, i3, i4, i5⟩ := ih hgs (fun b k hk hb => hst b k (by simp [hk]) hb) (st a g) (fun k hk => by
      rw [A.others k (by rintro rfl; exact hg hk)]; exact ha k (by simp [hk]))
    simp only [List.foldl_cons]
    generalize gs.foldl st (st a g) = r at i1 i2 i3 i4 i5
    refine ⟨?_, ?_, ?_, ?_, ?_⟩
    · rw [i1]
      have key : ∀ (ks : List Nat) (x : State), (ks.foldl (fun (b : State) g => b.modGroup w.team g (upd g)) x).calm =
          ks.foldl (fun (b : State) g => b.modGroup w.team g (upd g)) x.calm := by
        intro ks
        induction ks with
        | nil => intro x; rfl
        | cons k ks ihk => intro x; simp only [List.foldl_cons]; rw [ihk, State.calm_modGroup_comm _ _ _ _ (hu k)]
      rw [key, key, A.calm]
    · intro id hid; rw [i2 id (by rw [A.serial]; omega), A.old id hid]
    · intro k hk
      rcases List.mem_cons.1 hk with rfl | hk
      · obtain ⟨o, o1, o2, o3, o4, o5, o6, o7⟩ := A.op
        refine ⟨a.serial, o, le_refl _, by rw [i2 _ (by rw [A.serial]; omega), o1], o2, o3, o4, o5, o6, o7, ?_⟩
        intro l hl n hn
        have hp := (o5 l).1 hl
        have hfr := hfib (k, l) hp
        have h1 : r.fibre? w.team k l = (a.fibre? w.team k l).map (fun f => f.opened w.pos a.serial c.sbi.toNat i.writes) := by
          rw [i4 w.team k l (by rintro ⟨_, h, _⟩; exact hg h), A.fibres, if_pos ⟨rfl, rfl, hp⟩]
        have h2 : a.fibre? w.team k l = s.fibre? w.team k l := by
          simp only [State.fibre?, ha k (by simp)]
        obtain ⟨f, hf⟩ := Option.isSome_iff_exists.1 hfr
        have h3 : r.fibre w.team k l = f.opened w.pos a.serial c.sbi.toNat i.writes := by
          rw [State.fibre_eq, h1, h2, hf]; rfl
        rw [h3]
        have hb := (Fibre.announce_books f w.pos a.serial c.sbi.toNat i.writes).1 n hn
        unfold Fibre.opened; dsimp only
        split <;> exact hb
      · obtain ⟨id, o, o1, o2⟩ := i3 k hk
        exact ⟨id, o, by rw [A.serial] at o1; omega, o2⟩
    · intro u k l hne
      rw [i4 u k l (fun hc => hne ⟨hc.1, by simp [hc.2.1], hc.2.2⟩), A.fibres, if_neg]
      rintro ⟨h1, h2, h3⟩; exact hne ⟨h1, by simp [h2], h3⟩
    · intro u k
      have h5 := i5 u k
      have h6 := A.sbs u k
      cases hr : r.group u k with
      | none =>
        rw [hr] at h5
        cases ho : (st a g).group u k with
        | none => rw [ho] at h6; cases hs : a.group u k with
          | none => rfl
          | some y => rw [hs] at h6; simp at h6
        | some y => rw [ho] at h5; simp at h5
      | some y =>
        rw [hr] at h5
        cases ho : (st a g).group u k with
        | none => rw [ho] at h5; simp at h5
        | some z =>
          rw [ho] at h5 h6
          cases hs : a.group u k with
          | none => rw [hs] at h6; simp at h6
          | some v =>
            rw [hs] at h6
            simp only [Option.map_some, Option.some.injEq] at h5 h6 ⊢
            rw [h5, h6]
            by_cases hu : u = w.team
            · by_cases hk : k = g
              · subst hk; by_cases h0 : c.sbi.toNat = 0 <;> simp [hg, h0, hu]
              · by_cases h0 : c.sbi.toNat = 0 <;> simp [hk, h0, hu]
            · simp [hu]

/-- A meaning that answers its groups one after another. -/
theorem completes_groups {i : Instr} {s : State} {w : Who} {c : Ctl} {t : Team} (H : Starts s i w c t) {body : Who → State → State}
    (he : exec i s = native i s body) (ws : Nat × Nat → List (RName × Word)) {upd : Nat → Group → Group} (hu : Mild upd) (st : State → Nat → State)
    (hb : body (w.by (s.performers w c)) s = (groupsOf (s.performers w c)).foldl st s)
    (hst : ∀ a g, g ∈ groupsOf (s.performers w c) → a.group w.team g = s.group w.team g → AnsweredGroup i w c (s.performers w c) ws (upd g) g a (st a g)) :
    Completes i s w c ((groupsOf (s.performers w c)).foldl (fun (b : State) g => b.modGroup w.team g (upd g)) s) (fun x => some (ws x)) := by
  obtain ⟨h1, h2, h3, h4, h5⟩ := answered_chain hu st s _ (groupsOf_nodup (s.performers w c)) (fun x hx => by
    obtain ⟨f, hf, _⟩ := H.files x (State.mem_performers hx); rw [hf]; rfl) hst s (fun _ _ => rfl)
  have hkeep : ∀ (p : State → List KillReq), (∀ (a : State) g, p (a.modGroup w.team g (upd g)) = p a) →
      p ((groupsOf (s.performers w c)).foldl (fun (b : State) g => b.modGroup w.team g (upd g)) s) = p s := fun p hp =>
    State.foldl_keeps p _ (fun (b : State) g => b.modGroup w.team g (upd g)) hp s
  have hkeep2 : ((groupsOf (s.performers w c)).foldl (fun (b : State) g => b.modGroup w.team g (upd g)) s).bundles = s.bundles :=
    State.foldl_keeps (·.bundles) _ (fun (b : State) g => b.modGroup w.team g (upd g)) (fun _ _ => rfl) s
  refine completes_of H.toIssues he (fun _ => hb) (fun h0 => ?_) h1 hkeep2 ((hkeep (·.kills) (fun _ _ => rfl)).trans H.quiet) ⟨?_, ?_⟩
  · have : groupsOf (s.performers w c) = [] := by rw [h0]; rfl
    rw [this]; rfl
  · intro g hg
    obtain ⟨id, o, o1, o2, o3, o4, o5, o6, o7, o8, o9⟩ := h3 g hg
    exact ⟨id, o, o1, o2, o3, o4, o5, o6, by simp [o7], o8, o9⟩
  · intro u g
    rw [h5]; simp only [toNat_ne_zero]

/-! ### Changes that change nothing -/

theorem modGroup_id (s : State) (t g : Nat) : s.modGroup t g (fun x => x) = s := by
  have h1 : ∀ (ls : List Machine.Group) i, ls.modify i (fun x => x) = ls := by
    intro ls; induction ls with
    | nil => intro i; cases i <;> rfl
    | cons x ls ih => intro i; cases i with
      | zero => rfl
      | succ i => simp [ih]
  have h2 : (fun x : Team => x.modGroup g (fun x => x)) = (fun x => x) := by
    funext x; simp only [Team.modGroup, h1]
  have h3 : fmod s.teams t (fun x => x) = s.teams := by
    unfold fmod
    induction s.teams with
    | nil => rfl
    | cons x ls ih => simp
  unfold State.modGroup State.modTeam
  rw [h2, h3]

theorem foldl_same {α β : Type} (f : β → α → β) (h : ∀ b a, f b a = b) (ls : List α) (z : β) : ls.foldl f z = z := by
  induction ls with
  | nil => rfl
  | cons x ls ih => simp only [List.foldl_cons, h, ih]

end Sys2Proof.Machine
end

