-- ==== Sys2Proof/Laws/CrossLane.lean ====
section
/-!
SUPPORT. Cross-lane instructions of sets that stand together: what they open, answer and change.
-/

namespace Sys2Proof.Machine

/-! ### Sets of lanes -/

theorem laneSet_bit (ls : List Nat) (i : Nat) : (laneSet ls).getLsbD i = (decide (i < 32) && decide (i ∈ ls)) := by
  have key : ∀ (ls : List Nat) (m : Lanes), (ls.foldl (fun m l => m ||| ((1 : BitVec 32) <<< l)) m).getLsbD i
      = (m.getLsbD i || (decide (i < 32) && decide (i ∈ ls))) := by
    intro ls
    induction ls with
    | nil => intro m; simp
    | cons l ls ih =>
      intro m
      simp only [List.foldl_cons]
      rw [ih]
      simp only [BitVec.getLsbD_or, BitVec.getLsbD_shiftLeft, List.mem_cons]
      by_cases hi : i < 32
      · by_cases hl : i = l
        · subst hl; simp [hi]
        · by_cases hlt : i < l
          · simp [hi, hl, hlt]
          · have : ¬ (i - l = 0) := by omega
            simp only [hi, hl, hlt, decide_true, decide_false, Bool.true_and, Bool.not_false, false_or]
            simp [this]
      · have : m.getLsbD i = false := BitVec.getLsbD_of_ge _ _ (by omega)
        simp [hi]
  unfold laneSet
  rw [key]; simp

theorem lanesOf_laneSet (ls : List Nat) : lanesOf (laneSet ls) = (List.range 32).filter (fun l => decide (l ∈ ls)) := by
  unfold lanesOf
  apply List.filter_congr
  intro l hl
  rw [laneSet_bit]
  simp [List.mem_range.1 hl]

theorem laneSet_congr {ls ms : List Nat} (h : ∀ l, l < 32 → (l ∈ ls ↔ l ∈ ms)) : laneSet ls = laneSet ms := by
  apply BitVec.eq_of_getLsbD_eq
  intro i hi
  rw [laneSet_bit, laneSet_bit]
  simp [hi, h i hi]

theorem mem_lanesFor {s : State} {w : Who} {c : Ctl} {g l : Nat} (hw : s.who = some w) : l ∈ s.lanesFor w c g ↔ (g, l) ∈ s.performers w c := by
  unfold State.lanesFor
  simp only [List.mem_filter, List.mem_range, decide_eq_true_eq, and_iff_right_iff_imp]
  intro h
  exact State.who_lane hw (State.mem_performers h)

theorem lanesFor_eq {s : State} {w : Who} {c : Ctl} {g : Nat} (hw : s.who = some w) :
    laneSet (lanesIn (s.performers w c) g) = laneSet (s.lanesFor w c g) ∧ lanesOf (laneSet (s.lanesFor w c g)) = s.lanesFor w c g := by
  constructor
  · exact laneSet_congr (fun l _ => by rw [mem_lanesIn, mem_lanesFor hw])
  · rw [lanesOf_laneSet]
    unfold State.lanesFor
    apply List.filter_congr
    intro l hl
    simp [List.mem_range.1 hl]

/-! ### One group of a cross-lane instruction -/

theorem eraseDups_const {ls : List Word} {m : Word} (h : ∀ x ∈ ls, x = m) (hne : ls ≠ []) : ls.eraseDups = [m] := by
  cases ls with
  | nil => exact absurd rfl hne
  | cons x ls =>
    rw [List.eraseDups_cons]
    have hx : x = m := h x (by simp)
    have : ls.filter (fun b => !b == x) = [] := by
      rw [List.filter_eq_nil_iff]
      intro y hy
      simp [h y (by simp [hy]), hx]
    rw [this, hx]; rfl

/-- A group whose participant set stands together performs the instruction at once. -/
theorem xlnGroup_does {i : Instr} {s : State} {w : Who} {c : Ctl} {t : Team} (H : Starts s i w c t) {ms : MSrc} (hm : s.together w c ms) {g : Nat}
    (hg : g ∈ groupsOf (s.performers w c)) {a : State} (ha : a.group w.team g = s.group w.team g) :
    xlnGroup i ms (w.by (s.performers w c)) a g = a.xlnDo i (w.by (s.performers w c)) g (lanesIn (s.performers w c) g) (s.lanesFor w c g) := by
  obtain ⟨l0, hl0⟩ := mem_groupsOf.1 hg
  obtain ⟨f0, hf0, _⟩ := H.files (g, l0) (State.mem_performers hl0)
  obtain ⟨x, hx⟩ : ∃ x, s.group w.team g = some x := by
    cases h : s.group w.team g with
    | none => simp [State.fibre?, h] at hf0
    | some x => exact ⟨x, rfl⟩
  obtain ⟨hp, hset⟩ := hm g hg x hx
  have hfib : ∀ l, a.fibre w.team g l = s.fibre w.team g l := fun l => by simp only [State.fibre, ha]
  obtain ⟨e1, e2⟩ := lanesFor_eq (s := s) (w := w) (c := c) (g := g) H.who
  have hlanes : ∀ l, l ∈ lanesIn (s.performers w c) g ↔ l ∈ s.lanesFor w c g := fun l => by rw [mem_lanesIn, mem_lanesFor H.who]
  have hne : lanesIn (s.performers w c) g ≠ [] := by
    intro h0
    have := mem_lanesIn.2 hl0
    rw [h0] at this; simp at this
  unfold xlnGroup
  have hteam : (w.by (s.performers w c)).team = w.team := rfl
  have hperf : (w.by (s.performers w c)).perf = s.performers w c := rfl
  have hclause : (w.by (s.performers w c)).clause = w.clause := rfl
  have hidx : (w.by (s.performers w c)).idx = w.idx := rfl
  have hpos : (w.by (s.performers w c)).pos = w.pos := rfl
  have hact : (w.by (s.performers w c)).active = w.active := rfl
  simp only [hteam, hperf, hclause, hidx, hpos, hact]
  rw [ha, hx]
  dsimp only
  simp only [hfib]
  have hparts : xlnParts ms (s.xlnMasks w ms g (lanesIn (s.performers w c) g)) x.live (laneSet (s.lanesFor w c g)) = laneSet (s.lanesFor w c g) := by
    cases ms with
    | path => rfl
    | group => exact hset
    | reg m =>
      obtain ⟨mask, h1, h2, h3⟩ := hset
      simp only [xlnParts, State.xlnMasks]
      rw [eraseDups_const (m := mask) (by
        intro y hy
        obtain ⟨l, hl, rfl⟩ := List.mem_map.1 hy
        exact h1 l ((hlanes l).1 hl)) (by simpa using hne)]
      exact h3
  have hmasks : a.xlnMasks (w.by (s.performers w c)) ms g (lanesIn (s.performers w c) g) = s.xlnMasks w ms g (lanesIn (s.performers w c) g) := by
    unfold State.xlnMasks
    cases ms <;> simp only [hteam, hpos, hfib]
  simp only [e1, hmasks, hparts]
  have hmate : x.parked.filter (fun p => decide (p.pc = w.clause) && decide (p.idx = w.idx) &&
      decide (p.depth = (s.fibre w.team g ((lanesIn (s.performers w c) g).headD 0)).depth) && decide (p.parts = laneSet (s.lanesFor w c g))) = [] := by
    rw [List.filter_eq_nil_iff]
    intro p hpp
    have := (hp p hpp).1
    simp only [Bool.and_eq_true, decide_eq_true_eq, not_and]
    intro h; exact absurd h.1 this
  generalize hmt : (fun p : Path => decide (p.pc = w.clause) && decide (p.idx = w.idx) &&
      decide (p.depth = (s.fibre w.team g ((lanesIn (s.performers w c) g).headD 0)).depth) && decide (p.parts = laneSet (s.lanesFor w c g))) = mate at hmate
  generalize hhere : (fun p : Path => decide (p.pc = w.clause) && decide (p.idx = w.idx)) = here
  have hbad : xlnBad ms (s.xlnMasks w ms g (lanesIn (s.performers w c) g)) x.live (laneSet (s.lanesFor w c g)) (laneSet (s.lanesFor w c g))
      ((lanesIn w.active g).filter (fun l => !(lanesIn (s.performers w c) g).contains l && decide ((s.fibre w.team g l).leave = .run))) x.parked here mate = false := by
    have hidle : ((lanesIn w.active g).filter (fun l => !(lanesIn (s.performers w c) g).contains l && decide ((s.fibre w.team g l).leave = .run))).any
              (fun l => (laneSet (s.lanesFor w c g)).getLsbD l) = false := by
      rw [List.any_eq_false]
      intro l hl
      simp only [List.mem_filter, Bool.and_eq_true, Bool.not_eq_true'] at hl
      rw [laneSet_bit]
      have h1 : l ∉ lanesIn (s.performers w c) g := by simpa using hl.2.1
      have h2 : l ∉ s.lanesFor w c g := fun h => h1 ((hlanes l).2 h)
      simp [h2]
    have hpark : ms ≠ .path → x.parked.any (fun p => decide (p.lanes &&& laneSet (s.lanesFor w c g) ≠ 0) && !mate p) = false ∧
        x.parked.any (fun p => !here p && decide (p.parts &&& laneSet (s.lanesFor w c g) ≠ 0)) = false := by
      intro hmp
      constructor <;>
      · rw [List.any_eq_false]
        intro p hpp
        have h1 := (hp p hpp).2.resolve_left hmp
        simp [h1.1, h1.2]
    have hself : laneSet (s.lanesFor w c g) &&& ~~~laneSet (s.lanesFor w c g) = 0 := by
      apply BitVec.eq_of_getLsbD_eq; intro i hi; simp [hi]
    cases ms with
    | path => rfl
    | group =>
      obtain ⟨h1, h2⟩ := hpark (by simp)
      simp only [xlnBad, State.xlnMasks, hidle, h1, h2]
      have h3 : x.live = laneSet (s.lanesFor w c g) := hset
      simp [h3, hself]
    | reg m =>
      obtain ⟨h1, h2⟩ := hpark (by simp)
      obtain ⟨mask, k1, k2, k3⟩ := hset
      have he := eraseDups_const (ls := (lanesIn (s.performers w c) g).map (fun l => (s.fibre w.team g l).get w.pos m)) (m := mask) (by
        intro y hy
        obtain ⟨l, hl, rfl⟩ := List.mem_map.1 hy
        exact k1 l ((hlanes l).1 hl)) (by simpa using hne)
      simp only [xlnBad, State.xlnMasks, hidle, h1, h2, he]
      have : laneSet (s.lanesFor w c g) &&& ~~~mask = 0 := by
        apply BitVec.eq_of_getLsbD_eq
        intro i hi
        simp only [BitVec.getLsbD_and, BitVec.getLsbD_not, hi, decide_true, Bool.true_and]
        by_cases hb : i ∈ s.lanesFor w c g
        · simp [k2 i hb]
        · rw [laneSet_bit]; simp [hb]
      simp [this]
  rw [if_neg (by rw [hbad]; simp)]
  rw [hmate]
  simp only [List.foldl_nil]
  have h0 : ∀ z : Lanes, z ||| (0 : Lanes) = z := fun z => by simp
  rw [h0]
  have hz : laneSet (s.lanesFor w c g) &&& ~~~laneSet (s.lanesFor w c g) = 0 := by
    apply BitVec.eq_of_getLsbD_eq; intro i hi; simp [hi]
  rw [if_neg (by rw [hz]; simp), if_pos trivial, e2]


theorem openOps_single {i : Instr} {w : Who} {c : Ctl} (hc : i.ctl = some c) (a : State) (g : Nat) (ls : List Nat) (hl : ls ≠ []) :
    a.openOps i w (ls.map (fun l => (g, l))) = ([(g, a.serial)], a.openOne w c.sbi.toNat i.writes (ls.map (fun l => (g, l))) g) := by
  rw [State.openOps_eq a i w _ c hc]
  have : groupsOf (ls.map (fun l => (g, l))) = [g] := by
    unfold groupsOf
    cases ls with
    | nil => exact absurd rfl hl
    | cons l ls =>
      simp only [List.map_cons, List.map_map, List.eraseDups_cons]
      have : (ls.map (Prod.fst ∘ fun l => (g, l))).filter (fun b => !b == g) = [] := by
        rw [List.filter_eq_nil_iff]; intro x hx; simp only [List.mem_map, Function.comp_apply] at hx; obtain ⟨_, _, rfl⟩ := hx; simp
      rw [this]; rfl
  rw [this]; rfl

theorem foldl_map_pair {α β γ : Type} (f : γ → α → γ) (h : β → α) (ls : List β) (z : γ) : (ls.map h).foldl f z = ls.foldl (fun a x => f a (h x)) z := by
  rw [List.foldl_map]

/-- A set that stands together performs the instruction: its operation is opened and answered. -/
theorem xlnDo_answers {i : Instr} {s : State} {w : Who} {c : Ctl} {t : Team} (H : Starts s i w c t) {g : Nat} (hg : g ∈ groupsOf (s.performers w c))
    {a : State} (ha : a.group w.team g = s.group w.team g) (ws : Nat × Nat → List (RName × Word)) (rs : List (Nat × Nat))
    (hout : (xlnOut i (a.xlnIn w.team g i w.pos (lanesIn (s.performers w c) g) (s.lanesFor w c g)) (((a.group w.team g).map (·.remap)).getD [])
      (s.lanesFor w c g)) = ⟨(s.lanesFor w c g).map (fun l => (l, ws (g, l))), [], rs⟩) :
    AnsweredGroup i w c (s.performers w c) ws (fun x => { x with remap := rs.foldl (fun m e => m.set e.1 e.2) x.remap }) g a
      (a.xlnDo i (w.by (s.performers w c)) g (lanesIn (s.performers w c) g) (s.lanesFor w c g)) := by
  obtain ⟨l0, hl0⟩ := mem_groupsOf.1 hg
  have hne : s.lanesFor w c g ≠ [] := by
    intro h0
    have := (mem_lanesFor H.who).2 hl0
    rw [h0] at this; simp at this
  have hmem : ∀ k l, (k, l) ∈ (s.lanesFor w c g).map (fun l => (g, l)) ↔ k = g ∧ (k, l) ∈ s.performers w c := by
    intro k l
    simp only [List.mem_map, Prod.mk.injEq]
    constructor
    · rintro ⟨x, hx, rfl, rfl⟩; exact ⟨rfl, (mem_lanesFor H.who).1 hx⟩
    · rintro ⟨rfl, h⟩; exact ⟨l, (mem_lanesFor H.who).2 h, rfl, rfl⟩
  have hnd : ((s.lanesFor w c g).map (fun l => (g, l))).Nodup :=
    ((List.nodup_range).filter _).map (fun _ _ h => (Prod.mk.inj h).2)
  unfold State.xlnDo
  have hteam : (w.by (s.performers w c)).team = w.team := rfl
  have hpos : (w.by (s.performers w c)).pos = w.pos := rfl
  simp only [hteam, hpos, hout]
  rw [openOps_single H.ctl a g _ hne]
  have hopen : a.openOne (w.by (s.performers w c)) c.sbi.toNat i.writes ((s.lanesFor w c g).map (fun l => (g, l))) g =
      a.openOne w c.sbi.toNat i.writes ((s.lanesFor w c g).map (fun l => (g, l))) g := rfl
  simp only [hopen, opOf, List.find?_cons, decide_true, Option.map_some, Option.getD_some, State.logEvents, List.foldl_nil]
  rw [foldl_map_pair]
  have hfold : (s.lanesFor w c g).foldl (fun (b : State) l => b.doneLane (w.by (s.performers w c)) g l a.serial (ws (g, l)))
      (a.openOne w c.sbi.toNat i.writes ((s.lanesFor w c g).map (fun l => (g, l))) g) =
      ((s.lanesFor w c g).map (fun l => (g, l))).foldl (fun (b : State) x => b.opLane ((fun _ => a.serial) x.1) x.2 (ws x))
      (a.openOne w c.sbi.toNat i.writes ((s.lanesFor w c g).map (fun l => (g, l))) g) := by
    rw [← State.foldl_doneLane (w.by (s.performers w c)) (fun _ => a.serial) ws _ _ ?_, List.foldl_map]
    intro x hx
    obtain ⟨hk, hp⟩ := (hmem x.1 x.2).1 hx
    have haw := H.awake x (State.mem_performers hp)
    obtain ⟨f, hf, _⟩ := H.files x (State.mem_performers hp)
    have hfa : a.fibre? w.team x.1 x.2 = some f := by
      rw [← hf]; simp only [State.fibre?, hk, ha]
    have h1 := State.openOne_fibre? a w c.sbi.toNat i.writes ((s.lanesFor w c g).map (fun l => (g, l))) g w.team x.1 x.2
    rw [hfa, if_pos ⟨rfl, hk, hx⟩] at h1
    rw [State.fibre_eq, hteam, h1]
    simp only [State.fibre_eq, hf, Option.getD_some] at haw
    simp only [Option.map_some, Option.getD_some]
    unfold Fibre.opened
    dsimp only
    split <;> simp [(Fibre.announce_keeps _ _ _ _ _).1, haw]
  rw [hfold]
  generalize hq : a.openOne w c.sbi.toNat i.writes ((s.lanesFor w c g).map (fun l => (g, l))) g = q
  have hop : fget q.ops a.serial = some ⟨w.team, g, c.sbi.toNat, lanesIn ((s.lanesFor w c g).map (fun l => (g, l))) g,
      lanesIn ((s.lanesFor w c g).map (fun l => (g, l))) g, [], none, []⟩ := by
    rw [← hq, (State.openOne_ops _ _ _ _ _ _).1, fget_fset_self]
  have hans := State.foldl_opLane (fun _ => a.serial) ws ((s.lanesFor w c g).map (fun l => (g, l))) q g _ hop (by
    intro x hx _; exact ((hmem x.1 x.2).1 hx).1)
  have hfold_keep : ∀ {β : Type} (p : State → β), (∀ (b : State) op l ws, p (b.opLane op l ws) = p b) →
      p (((s.lanesFor w c g).map (fun l => (g, l))).foldl (fun (b : State) x => b.opLane ((fun _ => a.serial) x.1) x.2 (ws x)) q) = p q :=
    fun p hp => State.foldl_opLane_keeps p hp (fun _ => a.serial) ws _ q
  refine ⟨?_, ?_, ?_, ?_, ?_, ?_, ?_⟩
  · have hc := fun (b : State) => State.calm_modGroup_comm b w.team g (fun x => { x with remap := rs.foldl (fun m e => m.set e.1 e.2) x.remap }) (fun _ => rfl)
    rw [hc, hc, hfold_keep State.calm (fun _ _ _ _ => rfl), ← hq, State.openOne_calm]
  · have := hfold_keep State.serial (fun _ _ _ _ => rfl)
    rw [← hq] at this ⊢
    exact this
  · refine ⟨_, hans, rfl, rfl, rfl, ?_, ?_, ?_⟩
    · intro l; rw [mem_lanesIn, hmem]; simp
    · simp only [List.filter_eq_nil_iff, decide_eq_true_eq, not_not]
      intro l hl; exact mem_lanesIn.1 hl
    · intro l hl
      simp only [List.nil_append]
      exact writes_of_lane _ hnd g l (mem_lanesIn.1 hl) ws
  · intro id hid
    have := State.foldl_opLane_other (fun _ => a.serial) ws ((s.lanesFor w c g).map (fun l => (g, l))) q id (fun _ _ => by simp only [ne_eq]; omega)
    refine Eq.trans this ?_
    rw [← hq, (State.openOne_ops _ _ _ _ _ _).1, fget_fset_other _ _ _ _ (by omega)]
  · intro u k l
    rw [State.fibre?_modGroup _ _ _ _ _ _ _ (by intros; rfl), hfold_keep (fun b : State => b.fibre? u k l) (fun _ _ _ _ => rfl), ← hq, State.openOne_fibre?]
    by_cases hk : k = g
    · subst hk
      have := hmem k l
      simp only [true_and] at this
      simp only [this]
    · simp [hk]
  · intro u k
    have h1 : ((State.modGroup (((s.lanesFor w c g).map (fun l => (g, l))).foldl (fun (b : State) x => b.opLane ((fun _ => a.serial) x.1) x.2 (ws x)) q) w.team g
        (fun x => { x with remap := rs.foldl (fun m e => m.set e.1 e.2) x.remap })).group u k).map (·.sb) = (q.group u k).map (·.sb) := by
      rw [State.group_modGroup]
      have := hfold_keep (fun b : State => (b.group u k).map (·.sb)) (fun _ _ _ _ => rfl)
      split
      · rw [Option.map_map]; exact this
      · exact this
    rw [h1, ← hq, State.openOne_sb]
  · intro k hk
    rw [State.group_modGroup, if_neg (fun h => hk h.2.symm), hfold_keep (fun b : State => b.group w.team k) (fun _ _ _ _ => rfl), ← hq]
    unfold State.openOne
    rw [State.group_modGroup, if_neg (fun h => hk h.2.symm)]; rfl

/-- The operands of a set that stands together are those its fibres read. -/
theorem xlnIn_facts {i : Instr} {s : State} {w : Who} {c : Ctl} (hw : s.who = some w) {g : Nat} {a : State} (ha : a.group w.team g = s.group w.team g)
    {l : Nat} (hl : l ∈ s.lanesFor w c g) :
    (∀ r, RName.v r ∈ i.reads → (a.xlnIn w.team g i w.pos (lanesIn (s.performers w c) g) (s.lanesFor w c g)).reg l r = (s.fibre w.team g l).get w.pos r) ∧
    (a.xlnIn w.team g i w.pos (lanesIn (s.performers w c) g) (s.lanesFor w c g)).vote l = (s.fibre w.team g l).getP w.pos (votePred i) := by
  have hfib : a.fibre w.team g l = s.fibre w.team g l := by simp only [State.fibre, ha]
  have hiss : (lanesIn (s.performers w c) g).contains l = true := by
    rw [List.contains_iff_mem, mem_lanesIn]; exact (mem_lanesFor hw).1 hl
  have hfind : ∀ {β : Type} (h : Nat → β) (ls : List Nat), l ∈ ls → (ls.map (fun l => (l, h l))).find? (fun e => decide (e.1 = l)) = some (l, h l) := by
    intro β h ls hls
    induction ls with
    | nil => simp at hls
    | cons x ls ih =>
      by_cases hx : x = l
      · subst hx; simp
      · have : l ∈ ls := by rcases List.mem_cons.1 hls with h1 | h1; · exact absurd h1.symm hx
                            · exact h1
        simp only [List.map_cons, List.find?_cons, hx, decide_false]; exact ih this
  constructor
  · intro r hr
    have hr' : r ∈ i.reads.filterMap regOf := by
      rw [List.mem_filterMap]; exact ⟨.v r, hr, rfl⟩
    unfold XlnIn.reg State.xlnIn
    dsimp only
    rw [hfind (fun l => (i.reads.filterMap regOf).map (fun r =>
      (r, if (lanesIn (s.performers w c) g).contains l then (a.fibre w.team g l).get w.pos r else (a.fibre w.team g l).reg r))) _ hl]
    simp only [Option.map_some, Option.getD_some, hiss, if_true, hfib]
    generalize (i.reads.filterMap regOf) = ls at hr'
    have : (ls.map (fun r => (r, (s.fibre w.team g l).get w.pos r))).find? (fun e => decide (e.1 = r)) = some (r, (s.fibre w.team g l).get w.pos r) := by
      induction ls with
      | nil => simp at hr'
      | cons x ls ih =>
        by_cases hx : x = r
        · subst hx; simp
        · have : r ∈ ls := by rcases List.mem_cons.1 hr' with h1 | h1; · exact absurd h1.symm hx
                              · exact h1
          simp only [List.map_cons, List.find?_cons, hx, decide_false]; exact ih this
    rw [this]; rfl
  · unfold XlnIn.vote State.xlnIn
    dsimp only
    rw [hfind (fun l => if (lanesIn (s.performers w c) g).contains l then (a.fibre w.team g l).getP w.pos (votePred i) else (a.fibre w.team g l).pred (votePred i)) _ hl]
    simp only [hiss, if_true, hfib]; rfl

/-- A cross-lane instruction that logs nothing, whose results and new remap entries are known. -/
theorem xln_completes {i : Instr} {s : State} {w : Who} {c : Ctl} {t : Team} (H : Starts s i w c t) {ms : MSrc} (hm : s.together w c ms)
    (he : exec i s = native i s (xlnBody i ms)) (ws : Nat × Nat → List (RName × Word)) (rs : Nat → List (Nat × Nat))
    (hout : ∀ g ∈ groupsOf (s.performers w c), ∀ x : XlnIn,
      (∀ l ∈ s.lanesFor w c g, (∀ r, RName.v r ∈ i.reads → x.reg l r = (s.fibre w.team g l).get w.pos r) ∧ x.vote l = (s.fibre w.team g l).getP w.pos (votePred i)) →
      xlnOut i x (((s.group w.team g).map (·.remap)).getD []) (s.lanesFor w c g) = ⟨(s.lanesFor w c g).map (fun l => (l, ws (g, l))), [], rs g⟩) :
    Completes i s w c ((groupsOf (s.performers w c)).foldl (fun (b : State) g =>
      b.modGroup w.team g (fun x => { x with remap := (rs g).foldl (fun m e => m.set e.1 e.2) x.remap })) s) (fun x => some (ws x)) := by
  refine completes_groups H he ws (upd := fun g x => { x with remap := (rs g).foldl (fun m e => m.set e.1 e.2) x.remap }) (fun _ _ => rfl)
    (xlnGroup i ms (w.by (s.performers w c))) rfl ?_
  intro a g hg ha
  rw [xlnGroup_does H hm hg ha]
  refine xlnDo_answers H hg ha ws (rs g) ?_
  rw [ha]
  refine hout g hg _ ?_
  intro l hl
  exact xlnIn_facts H.who ha hl

/-! ### Results -/

/-- A cross-lane instruction that logs nothing and leaves the remap table. -/
theorem xln_completes_plain {i : Instr} {s : State} {w : Who} {c : Ctl} {t : Team} (H : Starts s i w c t) {ms : MSrc} (hm : s.together w c ms)
    (he : exec i s = native i s (xlnBody i ms)) (ws : Nat × Nat → List (RName × Word))
    (hout : ∀ g ∈ groupsOf (s.performers w c), ∀ x : XlnIn,
      (∀ l ∈ s.lanesFor w c g, (∀ r, RName.v r ∈ i.reads → x.reg l r = (s.fibre w.team g l).get w.pos r) ∧ x.vote l = (s.fibre w.team g l).getP w.pos (votePred i)) →
      xlnOut i x (((s.group w.team g).map (·.remap)).getD []) (s.lanesFor w c g) = ⟨(s.lanesFor w c g).map (fun l => (l, ws (g, l))), [], []⟩) :
    Completes i s w c s (fun x => some (ws x)) := by
  have h := xln_completes H hm he ws (fun _ => []) hout
  have h2 : (groupsOf (s.performers w c)).foldl (fun (b : State) g =>
      b.modGroup w.team g (fun x => { x with remap := ([] : List (Nat × Nat)).foldl (fun m e => m.set e.1 e.2) x.remap })) s = s :=
    foldl_same _ (fun b g => modGroup_id b w.team g) _ _
  rw [h2] at h; exact h

theorem laneSet_word (ls : List Nat) (h : Nat → Bool) : laneSet (ls.filter h) = wordOfBits (fun l => decide (l ∈ ls) && h l) := by
  apply wordOfBits_eq
  intro i hi
  rw [laneSet_bit]
  simp [hi, List.mem_filter]

theorem val_eq {x : XlnIn} {l : Nat} {a : Reg} {w64 : Bool} {f : Fibre} {pos : Nat} (h : ∀ r, r = a ∨ (w64 = true ∧ r = a + 1) → x.reg l r = f.get pos r) :
    x.val l a w64 = f.getW pos a w64 := by
  unfold XlnIn.val Fibre.getW Fibre.get64
  cases w64
  · simp only [Bool.false_eq_true, if_false]
    rw [h a (.inl rfl)]
    apply BitVec.eq_of_toNat_eq
    have h1 := (f.get pos a).isLt
    simp only [dwordOf, BitVec.toNat_append, BitVec.toNat_setWidth]
    rw [Nat.mod_eq_of_lt (by omega)]; simp
  · simp only [if_true]
    rw [h a (.inl rfl), h (a + 1) (.inr ⟨rfl, rfl⟩)]

theorem head_least (s : State) (w : Who) (c : Ctl) (g l : Nat) (hl : l ∈ s.lanesFor w c g) :
    decide (some l = (s.lanesFor w c g).head?) = (s.lanesFor w c g).all (fun k => decide (l ≤ k)) := by
  have hs : (s.lanesFor w c g).Pairwise (· < ·) := (List.pairwise_lt_range).filter _
  generalize s.lanesFor w c g = ls at *
  cases ls with
  | nil => simp at hl
  | cons x ls =>
    rw [Bool.eq_iff_iff]
    simp only [List.head?_cons, Option.some.injEq, decide_eq_true_eq, List.all_eq_true]
    constructor
    · rintro rfl k hk
      rcases List.mem_cons.1 hk with rfl | hk
      · exact le_refl _
      · exact (List.rel_of_pairwise_cons hs hk).le
    · intro h
      rcases List.mem_cons.1 hl with rfl | hl'
      · rfl
      · have h1 := List.rel_of_pairwise_cons hs hl'
        have h2 := h x (by simp)
        omega

/-! ### Reductions -/

theorem step_eq (op : XOp) (uns : Bool) (p v : Word) : xstep op uns p v = reduceStep op uns p v := by
  have hless : (if uns then p.ult v else p.slt v) = (if uns then decide (p.toNat < v.toNat) else decide (p.toInt < v.toInt)) := rfl
  unfold xstep reduceStep
  rw [hless]
  cases op
  all_goals try rfl
  · dsimp only
    rw [sumOf_eq]
    have : ∀ x y, nanRule FF.f32 [x, y] false (sumCore FF.f32 .rne [x, y]) = nanRule FF.f32 [x, y] false (addRule FF.f32 .rne x y) := by
      intro x y
      apply nanRule_congr
      intro h _
      simp only [List.any_cons, List.any_nil, Bool.or_false, Bool.or_eq_false_iff] at h
      exact sumCore_two _ _ _ _ h.1 h.2
    simp only [List.flatMap_nil, List.map_nil, List.nil_append, List.any_nil, this]
  · dsimp only; rw [extreme_eq]
  · dsimp only; rw [extreme_eq]

/-- The running results of a reduction. -/
theorem xrun_go (op : XOp) (uns : Bool) (rest : List Word) (acc : List Word) (ev : List Nat) (hacc : acc ≠ []) :
    rest.foldl (fun (q : List Word × List Nat) v => (q.1 ++ [(xstep op uns (q.1.getLastD 0) v).1], q.2 ++ (xstep op uns (q.1.getLastD 0) v).2)) (acc, ev)
    = (acc ++ (List.range rest.length).map (fun k => ((rest.take (k + 1)).foldl (fun p x => ((reduceStep op uns p.1 x).1, p.2 ++ (reduceStep op uns p.1 x).2)) (acc.getLastD 0, ev)).1),
      (rest.foldl (fun p x => ((reduceStep op uns p.1 x).1, p.2 ++ (reduceStep op uns p.1 x).2)) (acc.getLastD 0, ev)).2) := by
  induction rest generalizing acc ev with
  | nil => simp
  | cons v rest ih =>
    simp only [List.foldl_cons]
    rw [ih _ _ (by simp)]
    simp only [step_eq, List.length_cons, List.range_succ_eq_map, List.map_cons, List.map_map, List.append_assoc, List.cons_append, List.nil_append,
      List.take_succ_cons, List.foldl_cons, List.take_zero, List.foldl_nil]
    have : (acc ++ [(reduceStep op uns (acc.getLastD 0) v).1]).getLastD 0 = (reduceStep op uns (acc.getLastD 0) v).1 := by simp
    rw [this]
    congr 1

theorem xrun_eq (op : XOp) (uns : Bool) (vs : List Word) :
    xrun op uns vs = ((List.range vs.length).map (fun k => (reduceTo op uns (vs.take (k + 1))).1),
      (reduceTo op uns vs).2.filter (· == 1) ++ (reduceTo op uns vs).2.filter (· == 3)) := by
  cases vs with
  | nil => rfl
  | cons v rest =>
    unfold xrun
    have h := xrun_go op uns rest [v] [] (by simp)
    simp only [List.drop_succ_cons, List.drop_zero, List.take_succ_cons, List.take_zero] at h ⊢
    rw [h]
    simp only [List.length_cons, List.range_succ_eq_map, List.map_cons, List.map_map, reduceTo, List.take_zero, List.foldl_nil,
      List.singleton_append]
    rfl

theorem sorted_take (ls : List Nat) (hs : ls.Pairwise (· < ·)) (k : Nat) (hk : k < ls.length) :
    ls.filter (fun l => decide (l ≤ ls[k])) = ls.take (k + 1) ∧ ls.filter (fun l => decide (l < ls[k])) = ls.take k := by
  induction ls generalizing k with
  | nil => simp at hk
  | cons x ls ih =>
    have hx := fun y hy => List.rel_of_pairwise_cons hs (a' := y) hy
    cases k with
    | zero =>
      simp only [List.getElem_cons_zero, List.take_succ_cons, List.take_zero]
      constructor
      · rw [List.filter_cons]
        have : ls.filter (fun l => decide (l ≤ x)) = [] := by
          rw [List.filter_eq_nil_iff]; intro y hy; have := hx y hy; simp; omega
        simp [this]
      · rw [List.filter_cons]
        have : ls.filter (fun l => decide (l < x)) = [] := by
          rw [List.filter_eq_nil_iff]; intro y hy; have := hx y hy; simp; omega
        simp [this]
    | succ k =>
      simp only [List.length_cons, Nat.add_lt_add_iff_right] at hk
      have h1 := ih (List.pairwise_cons.1 hs).2 k hk
      have h2 := hx ls[k] (by simp)
      simp only [List.getElem_cons_succ, List.take_succ_cons]
      constructor
      · rw [List.filter_cons, h1.1]; simp [h2.le]
      · rw [List.filter_cons, h1.2]; simp [h2]

/-- A cross-lane instruction of one group that logs events. -/
theorem xln_logs {i : Instr} {s : State} {w : Who} {c : Ctl} {t : Team} (H : Starts s i w c t) {ms : MSrc} (hm : s.together w c ms)
    (he : exec i s = native i s (xlnBody i ms)) {g : Nat} (hg : groupsOf (s.performers w c) = [g]) (ev : List Nat)
    (hev : ∀ x : XlnIn, (∀ l ∈ s.lanesFor w c g, (∀ r, RName.v r ∈ i.reads → x.reg l r = (s.fibre w.team g l).get w.pos r) ∧
      x.vote l = (s.fibre w.team g l).getP w.pos (votePred i)) →
      (xlnOut i x (((s.group w.team g).map (·.remap)).getD []) (s.lanesFor w c g)).events = ev) :
    ∃ s', exec i s = .next s' ∧ ∀ k, (s'.group w.team k).map (·.event) = (s.group w.team k).map (fun y => if k = g then
          ev.foldl (fun e n => EventRec.mark w.clause (s.coreNow w.team) n e) y.event else y.event) := by
  have hmem : g ∈ groupsOf (s.performers w c) := by rw [hg]; simp
  replace hev := hev _ (fun l hl => xlnIn_facts (a := s) H.who rfl hl)
  have hbody : xlnBody i ms (w.by (s.performers w c)) s = s.xlnDo i (w.by (s.performers w c)) g (lanesIn (s.performers w c) g) (s.lanesFor w c g) := by
    unfold xlnBody
    have : (w.by (s.performers w c)).perf = s.performers w c := rfl
    rw [this, hg]
    exact xlnGroup_does H hm hmem rfl
  -- before the events
  have hpre : ∃ r : State, s.xlnDo i (w.by (s.performers w c)) g (lanesIn (s.performers w c) g) (s.lanesFor w c g) = r.logEvents w.team g w.clause ev ∧
      r.bundles = s.bundles ∧ r.kills = s.kills ∧ r.coreNow w.team = s.coreNow w.team ∧ ∀ u k, (r.group u k).map (·.event) = (s.group u k).map (·.event) := by
    refine ⟨_, by unfold State.xlnDo; rw [← hev]; rfl, ?_⟩
    have e1 : (w.by (s.performers w c)).team = w.team := rfl
    have e2 : (w.by (s.performers w c)).pos = w.pos := rfl
    simp only [e1, e2]
    generalize (xlnOut i (s.xlnIn w.team g i w.pos (lanesIn (s.performers w c) g) (s.lanesFor w c g)) (((s.group w.team g).map (·.remap)).getD [])
      (s.lanesFor w c g)) = out
    have hop := (State.openOps_spec s i w ((s.lanesFor w c g).map (fun l => (g, l))) c H.ctl).2
    have hq : s.openOps i (w.by (s.performers w c)) ((s.lanesFor w c g).map (fun l => (g, l))) = s.openOps i w ((s.lanesFor w c g).map (fun l => (g, l))) := rfl
    rw [hq]
    generalize (s.openOps i w ((s.lanesFor w c g).map (fun l => (g, l)))) = q at hop
    have hcalm := State.calm_facts hop.calm
    have hdone : ∀ (ls : List (Nat × List (RName × Word))) (a : State), State.Same a (ls.foldl (fun (a : State) e => a.doneLane (w.by (s.performers w c)) g e.1 (opOf q.1 g) e.2) a) := by
      intro ls a
      refine State.Same.foldl ls _ (fun a x => ?_) a
      unfold State.doneLane
      split
      · exact State.Same.release _ _ _ _ _ _
      · exact State.Same.opLane _ _ _ _
    have hsame := (hdone out.writes q.2).trans (State.Same.modGroup _ w.team g (fun x => { x with remap := out.remap.foldl (fun m e => m.set e.1 e.2) x.remap }) (fun _ => rfl) (fun _ => rfl))
    refine ⟨hsame.bundles.trans hcalm.1, hsame.kills.trans hcalm.2.1, (hsame.now _).trans (hcalm.2.2 _), fun u k => (hsame.events u k).trans ?_⟩
    have h1 := congrArg (fun a : State => (a.group u k).map (·.event)) hop.calm
    have h2 : ∀ a : State, ((a.calm.group u k).map (·.event)) = (a.group u k).map (·.event) := by
      intro a
      unfold State.group State.team State.calm
      dsimp only
      have : fget (a.teams.map (fun e => (e.1, e.2.calm))) u = (fget a.teams u).map Team.calm := by
        induction a.teams with
        | nil => rfl
        | cons x ls ih =>
          obtain ⟨n, v⟩ := x
          simp only [List.map_cons, fget]
          by_cases hx : n = u
          · simp [hx]
          · simp only [hx, if_false]; exact ih
      rw [this]
      cases fget a.teams u with
      | none => rfl
      | some x =>
        simp only [Option.map_some, Option.bind_some, Team.calm, List.getElem?_map]
        cases x.groups[k]? <;> rfl
    simp only [h2] at h1; exact h1
  obtain ⟨r, hr, h1, h2, h3, h4⟩ := hpre
  have hlog := State.logEvents_marks r w.team g w.clause ev
  have hn := native_next H.toIssues (xlnBody i ms) (by rw [hbody, hr, hlog.bundles, h1]) (by rw [hbody, hr, hlog.kills, h2, H.quiet])
  have hne : (s.performers w c).isEmpty = false := by
    cases hp : s.performers w c with
    | nil => rw [hp] at hg; simp [groupsOf] at hg
    | cons x l => rfl
  rw [hne] at hn
  simp only [Bool.false_eq_true, if_false] at hn
  refine ⟨_, he.trans hn, ?_⟩
  intro k
  rw [(State.Same.countClocks _ w).events w.team k, hbody, hr, hlog.events, h3]
  have h5 := h4 w.team k
  by_cases hk : k = g
  · subst hk
    simp only [and_self, if_true]
    cases ha : r.group w.team k <;> cases hb : s.group w.team k <;> rw [ha, hb] at h5 <;> simp_all
  · rw [if_neg (fun h => hk h.2.symm), h5]
    simp only [hk, if_false]

end Sys2Proof.Machine
end

