-- ==== Sys2Proof/Laws/Encoding.lean ====
section
/-!
SUPPORT. The fields of an encoded word: what the decoder reads out of each format.
-/

namespace Sys2Proof

theorem ITy.ityOf_code (t : ITy) (n : Nat) : ityOf (n * 4 + t.code) = t := by
  cases t <;> simp only [ityOf, ITy.code] <;> (try simp only [show ∀ k, (n * 4 + k) % 4 = k % 4 by omega])

theorem ITy.code_lt (t : ITy) : t.code < 4 := by cases t <;> decide

/-! ### Codes and what they decode to -/

@[simp] theorem rndOf_code (x : Rnd) : rndOf x.code = x := by cases x <;> rfl
@[simp] theorem logicOf_code (x : LogicOp) : logicOf x.code = x := by cases x <;> rfl
@[simp] theorem shiftOf_code (x : ShiftKind) : shiftOf x.code = x := by cases x <;> rfl
@[simp] theorem fcondOf_code (x : FCond) : fcondOf x.code = x := by cases x <;> rfl
@[simp] theorem xmodeOf_code (x : XMode) : xmodeOf x.code = x := by cases x <;> rfl
@[simp] theorem voteOf_code (x : VoteOp) : voteOf x.code = x := by cases x <;> rfl
@[simp] theorem scopeOf_code (x : Scope) : scopeOf x.code = x := by cases x <;> rfl
@[simp] theorem orderOf_code (x : Order) : orderOf x.code = x := by cases x <;> rfl
@[simp] theorem fenceOf_code (x : FenceKind) : fenceOf x.code = x := by cases x <;> rfl
@[simp] theorem ityOf_code (x : ITy) : ityOf x.code = x := by cases x <;> rfl
@[simp] theorem icondOf_code (x : ICond) : icondOf x.code = some x := by cases x <;> rfl
@[simp] theorem moviOf_code (x : MoviForm) : moviOf x.code = some x := by cases x <;> rfl
@[simp] theorem sregOf_code (x : SReg) : sregOf x.code = some x := by cases x <;> rfl
@[simp] theorem ftyOf_code (x : FTy) : ftyOf x.code = some x := by cases x <;> rfl
@[simp] theorem cfmtOf_code (x : CFmt) : cfmtOf x.code = some x := by cases x <;> rfl
@[simp] theorem pfmtOf_code (x : PFmt) : pfmtOf x.code = some x := by cases x <;> rfl
@[simp] theorem xopOf_code (x : XOp) : xopOf x.code = some x := by cases x <;> rfl
@[simp] theorem sizeOf_code (x : Size) : sizeOf' x.code = some x := by cases x <;> rfl
@[simp] theorem atomOf_code (x : AtomOp) : atomOf x.code = some x := by cases x <;> rfl
@[simp] theorem wcondOf_code (x : WCond) : wcondOf x.code = some x := by cases x <;> rfl
@[simp] theorem barOf_code (x : BarOp) : barOf x.code = some x := by cases x <;> rfl

@[simp] theorem ityOf_code8 (t : ITy) (n : Nat) : ityOf (n * 8 + t.code) = t := by
  rw [show n * 8 + t.code = (n * 2) * 4 + t.code by ring]; exact ITy.ityOf_code t _

@[simp] theorem ityOf_code4 (t : ITy) (n : Nat) : ityOf (n * 4 + t.code) = t := ITy.ityOf_code t n

theorem ityOf_bits (w : Nat) : ityOf (bits w 0 13) = ityOf (bits w 0 5) := by
  have h : bits w 0 13 % 4 = bits w 0 5 % 4 := by simp only [bits]; omega
  simp only [ityOf, h]

@[simp] theorem toNat_beq_one (b : Bool) : (b.toNat == 1) = b := by cases b <;> rfl

theorem Space.brec_lt (s : Space) : s.brec < 4096 := by
  cases s with
  | global b => exact b.isLt
  | vault => decide
  | pool => decide

/-- Bits below a split do not see what stands above it. -/
theorem bits_below (k hi rest lo n : Nat) (h : lo + n ≤ k) : bits (hi * 2 ^ k + rest) lo n = bits rest lo n := by
  simp only [bits]
  have : hi * 2 ^ k = (hi * 2 ^ (k - lo - n)) * 2 ^ n * 2 ^ lo := by
    rw [Nat.mul_assoc, Nat.mul_assoc, ← Nat.pow_add, ← Nat.pow_add]; congr 2; omega
  rw [this, Nat.add_comm, Nat.add_mul_div_right _ _ (Nat.two_pow_pos lo), Nat.add_mul_mod_self_right]

/-- The fields that every word carries, and those below bit 45. -/
theorem mkWord_fields (opc : Nat) (c : Ctl) (rest : Nat) (ho : opc < 256) (hr : rest < 2 ^ 45) :
    bits (mkWord opc c rest).toNat 56 8 = opc ∧ ctlOf (mkWord opc c rest).toNat = c ∧
    (∀ lo n, lo + n ≤ 45 → bits (mkWord opc c rest).toNat lo n = bits rest lo n) := by
  obtain ⟨stall, sbi, pneg, pidx⟩ := c
  have h1 := stall.isLt
  have h2 := sbi.isLt
  have h3 := pidx.isLt
  have h4 : pneg.toNat < 2 := by cases pneg <;> decide
  have hw : (mkWord opc ⟨stall, sbi, pneg, pidx⟩ rest).toNat
      = opc * 2 ^ 56 + stall.toNat * 2 ^ 52 + sbi.toNat * 2 ^ 49 + pneg.toNat * 2 ^ 48 + pidx.toNat * 2 ^ 45 + rest := by
    simp only [mkWord, BitVec.toNat_ofNat]
    apply Nat.mod_eq_of_lt
    omega
  rw [hw]
  refine ⟨by simp only [bits]; omega, ?_, ?_⟩
  · have e1 : bits (opc * 2 ^ 56 + stall.toNat * 2 ^ 52 + sbi.toNat * 2 ^ 49 + pneg.toNat * 2 ^ 48 + pidx.toNat * 2 ^ 45 + rest) 52 4 = stall.toNat := by
      simp only [bits]; omega
    have e2 : bits (opc * 2 ^ 56 + stall.toNat * 2 ^ 52 + sbi.toNat * 2 ^ 49 + pneg.toNat * 2 ^ 48 + pidx.toNat * 2 ^ 45 + rest) 49 3 = sbi.toNat := by
      simp only [bits]; omega
    have e3 : bits (opc * 2 ^ 56 + stall.toNat * 2 ^ 52 + sbi.toNat * 2 ^ 49 + pneg.toNat * 2 ^ 48 + pidx.toNat * 2 ^ 45 + rest) 45 3 = pidx.toNat := by
      simp only [bits]; omega
    have e4 : (opc * 2 ^ 56 + stall.toNat * 2 ^ 52 + sbi.toNat * 2 ^ 49 + pneg.toNat * 2 ^ 48 + pidx.toNat * 2 ^ 45 + rest) / 2 ^ 48 % 2 = pneg.toNat := by
      omega
    simp only [ctlOf, e1, e2, e3, bit, e4]
    cases pneg <;> simp
  · intro lo n h
    have hsplit : opc * 2 ^ 56 + stall.toNat * 2 ^ 52 + sbi.toNat * 2 ^ 49 + pneg.toNat * 2 ^ 48 + pidx.toNat * 2 ^ 45 + rest
        = (opc * 2 ^ 11 + stall.toNat * 2 ^ 7 + sbi.toNat * 2 ^ 4 + pneg.toNat * 2 ^ 3 + pidx.toNat) * 2 ^ 45 + rest := by ring
    rw [hsplit]
    exact bits_below _ _ _ _ _ h


/-- A word whose raw term is well formed decodes to it. -/
theorem decodeWord_of {w : DWord} {i : Instr} (hw : i.wellFormed = true) (h : rawDecode w.toNat = some i) : decodeWord w = .ok i := by
  simp only [decodeWord, h, hw, if_true]

/-- One bit, as a field of one bit. -/
theorem bit_eq (w i : Nat) : bit w i = (bits w i 1 == 1) := rfl

/-- The fields of an RRR word. -/
theorem rrr_fields (opc : Nat) (c : Ctl) (d a b e m : Nat) (ho : opc < 256) (hd : d < 256) (ha : a < 256) (hb : b < 256) (he : e < 256)
    (hm : m < 8192) (w : Nat) (hw : w = (mkWord opc c (fRRR d a b e m)).toNat) :
    bits w 56 8 = opc ∧ ctlOf w = c ∧ bits w 37 8 = d ∧ bits w 29 8 = a ∧ bits w 21 8 = b ∧ bits w 13 8 = e ∧
    ∀ lo n, lo + n ≤ 13 → bits w lo n = bits m lo n := by
  have hr : fRRR d a b e m < 2 ^ 45 := by simp only [fRRR]; omega
  obtain ⟨h1, h2, h3⟩ := mkWord_fields opc c (fRRR d a b e m) ho hr
  subst hw
  refine ⟨h1, h2, ?_, ?_, ?_, ?_, ?_⟩
  · rw [h3 _ _ (by decide)]; simp only [bits, fRRR]; omega
  · rw [h3 _ _ (by decide)]; simp only [bits, fRRR]; omega
  · rw [h3 _ _ (by decide)]; simp only [bits, fRRR]; omega
  · rw [h3 _ _ (by decide)]; simp only [bits, fRRR]; omega
  · intro lo n h
    rw [h3 _ _ (by omega)]
    simp only [fRRR]
    have e1 : d * 2 ^ 37 + a * 2 ^ 29 + b * 2 ^ 21 + e * 2 ^ 13 + m = (d * 2 ^ 24 + a * 2 ^ 16 + b * 2 ^ 8 + e) * 2 ^ 13 + m := by ring
    rw [e1]
    exact bits_below _ _ _ _ _ h

/-- The fields of an RRI word. -/
theorem rri_fields (opc : Nat) (c : Ctl) (d a i m : Nat) (ho : opc < 256) (hd : d < 256) (ha : a < 256) (hi : i < 2 ^ 24) (hm : m < 32)
    (w : Nat) (hw : w = (mkWord opc c (fRRI d a i m)).toNat) :
    bits w 56 8 = opc ∧ ctlOf w = c ∧ bits w 37 8 = d ∧ bits w 29 8 = a ∧ bits w 5 24 = i ∧
    ∀ lo n, lo + n ≤ 5 → bits w lo n = bits m lo n := by
  have hr : fRRI d a i m < 2 ^ 45 := by simp only [fRRI]; omega
  obtain ⟨h1, h2, h3⟩ := mkWord_fields opc c (fRRI d a i m) ho hr
  subst hw
  refine ⟨h1, h2, ?_, ?_, ?_, ?_⟩
  · rw [h3 _ _ (by decide)]; simp only [bits, fRRI]; omega
  · rw [h3 _ _ (by decide)]; simp only [bits, fRRI]; omega
  · rw [h3 _ _ (by decide)]; simp only [bits, fRRI]; omega
  · intro lo n h
    rw [h3 _ _ (by omega), show fRRI d a i m = (d * 2 ^ 32 + a * 2 ^ 24 + i) * 2 ^ 5 + m by simp only [fRRI]; ring]
    exact bits_below _ _ _ _ _ h

/-- The fields of an RI32 word. -/
theorem ri32_fields (opc : Nat) (c : Ctl) (d i m : Nat) (ho : opc < 256) (hd : d < 256) (hi : i < 2 ^ 32) (hm : m < 32)
    (w : Nat) (hw : w = (mkWord opc c (fRI32 d i m)).toNat) :
    bits w 56 8 = opc ∧ ctlOf w = c ∧ bits w 37 8 = d ∧ bits w 5 32 = i ∧
    ∀ lo n, lo + n ≤ 5 → bits w lo n = bits m lo n := by
  have hr : fRI32 d i m < 2 ^ 45 := by simp only [fRI32]; omega
  obtain ⟨h1, h2, h3⟩ := mkWord_fields opc c (fRI32 d i m) ho hr
  subst hw
  refine ⟨h1, h2, ?_, ?_, ?_⟩
  · rw [h3 _ _ (by decide)]; simp only [bits, fRI32]; omega
  · rw [h3 _ _ (by decide)]; simp only [bits, fRI32]; omega
  · intro lo n h
    rw [h3 _ _ (by omega), show fRI32 d i m = (d * 2 ^ 32 + i) * 2 ^ 5 + m by simp only [fRI32]; ring]
    exact bits_below _ _ _ _ _ h

/-- The fields of a MEM word. -/
theorem mem_fields (opc : Nat) (c : Ctl) (d a r n4 m : Nat) (ho : opc < 256) (hd : d < 256) (ha : a < 256) (hr : r < 2 ^ 12) (hn4 : n4 < 2 ^ 13) (hm : m < 16)
    (w : Nat) (hw : w = (mkWord opc c (fMEM d a r n4 m)).toNat) :
    bits w 56 8 = opc ∧ ctlOf w = c ∧ bits w 37 8 = d ∧ bits w 29 8 = a ∧ bits w 17 12 = r ∧ bits w 4 13 = n4 ∧
    ∀ lo n, lo + n ≤ 4 → bits w lo n = bits m lo n := by
  have hr : fMEM d a r n4 m < 2 ^ 45 := by simp only [fMEM]; omega
  obtain ⟨h1, h2, h3⟩ := mkWord_fields opc c (fMEM d a r n4 m) ho hr
  subst hw
  refine ⟨h1, h2, ?_, ?_, ?_, ?_, ?_⟩
  · rw [h3 _ _ (by decide)]; simp only [bits, fMEM]; omega
  · rw [h3 _ _ (by decide)]; simp only [bits, fMEM]; omega
  · rw [h3 _ _ (by decide)]; simp only [bits, fMEM]; omega
  · rw [h3 _ _ (by decide)]; simp only [bits, fMEM]; omega
  · intro lo n h
    rw [h3 _ _ (by omega), show fMEM d a r n4 m = (d * 2 ^ 33 + a * 2 ^ 25 + r * 2 ^ 13 + n4) * 2 ^ 4 + m by simp only [fMEM]; ring]
    exact bits_below _ _ _ _ _ h

/-- The fields of a MEM word with a control field. -/
theorem memc_fields (opc : Nat) (c : Ctl) (d a r m : Nat) (ho : opc < 256) (hd : d < 256) (ha : a < 256) (hr : r < 2 ^ 12) (hm : m < 2 ^ 17)
    (w : Nat) (hw : w = (mkWord opc c (fMEMC d a r m)).toNat) :
    bits w 56 8 = opc ∧ ctlOf w = c ∧ bits w 37 8 = d ∧ bits w 29 8 = a ∧ bits w 17 12 = r ∧
    ∀ lo n, lo + n ≤ 17 → bits w lo n = bits m lo n := by
  have hr : fMEMC d a r m < 2 ^ 45 := by simp only [fMEMC]; omega
  obtain ⟨h1, h2, h3⟩ := mkWord_fields opc c (fMEMC d a r m) ho hr
  subst hw
  refine ⟨h1, h2, ?_, ?_, ?_, ?_⟩
  · rw [h3 _ _ (by decide)]; simp only [bits, fMEMC]; omega
  · rw [h3 _ _ (by decide)]; simp only [bits, fMEMC]; omega
  · rw [h3 _ _ (by decide)]; simp only [bits, fMEMC]; omega
  · intro lo n h
    rw [h3 _ _ (by omega), show fMEMC d a r m = (d * 2 ^ 20 + a * 2 ^ 12 + r) * 2 ^ 17 + m by simp only [fMEMC]; ring]
    exact bits_below _ _ _ _ _ h

/-- The fields of a CPY word. -/
theorem cpy_fields (opc : Nat) (c : Ctl) (x y r z m : Nat) (ho : opc < 256) (hx : x < 256) (hy : y < 256) (hr : r < 2 ^ 12) (hz : z < 256) (hm : m < 512)
    (w : Nat) (hw : w = (mkWord opc c (fCPY x y r z m)).toNat) :
    bits w 56 8 = opc ∧ ctlOf w = c ∧ bits w 37 8 = x ∧ bits w 29 8 = y ∧ bits w 17 12 = r ∧ bits w 9 8 = z ∧
    ∀ lo n, lo + n ≤ 9 → bits w lo n = bits m lo n := by
  have hr : fCPY x y r z m < 2 ^ 45 := by simp only [fCPY]; omega
  obtain ⟨h1, h2, h3⟩ := mkWord_fields opc c (fCPY x y r z m) ho hr
  subst hw
  refine ⟨h1, h2, ?_, ?_, ?_, ?_, ?_⟩
  · rw [h3 _ _ (by decide)]; simp only [bits, fCPY]; omega
  · rw [h3 _ _ (by decide)]; simp only [bits, fCPY]; omega
  · rw [h3 _ _ (by decide)]; simp only [bits, fCPY]; omega
  · rw [h3 _ _ (by decide)]; simp only [bits, fCPY]; omega
  · intro lo n h
    rw [h3 _ _ (by omega), show fCPY x y r z m = (x * 2 ^ 28 + y * 2 ^ 20 + r * 2 ^ 8 + z) * 2 ^ 9 + m by simp only [fCPY]; ring]
    exact bits_below _ _ _ _ _ h

/-- The fields of a MAT word. -/
theorem mat_fields (opc : Nat) (c : Ctl) (d a b i m : Nat) (ho : opc < 256) (hd : d < 256) (ha : a < 256) (hb : b < 256) (hi : i < 2 ^ 16) (hm : m < 32)
    (w : Nat) (hw : w = (mkWord opc c (fMAT d a b i m)).toNat) :
    bits w 56 8 = opc ∧ ctlOf w = c ∧ bits w 37 8 = d ∧ bits w 29 8 = a ∧ bits w 21 8 = b ∧ bits w 5 16 = i ∧
    ∀ lo n, lo + n ≤ 5 → bits w lo n = bits m lo n := by
  have hr : fMAT d a b i m < 2 ^ 45 := by simp only [fMAT]; omega
  obtain ⟨h1, h2, h3⟩ := mkWord_fields opc c (fMAT d a b i m) ho hr
  subst hw
  refine ⟨h1, h2, ?_, ?_, ?_, ?_, ?_⟩
  · rw [h3 _ _ (by decide)]; simp only [bits, fMAT]; omega
  · rw [h3 _ _ (by decide)]; simp only [bits, fMAT]; omega
  · rw [h3 _ _ (by decide)]; simp only [bits, fMAT]; omega
  · rw [h3 _ _ (by decide)]; simp only [bits, fMAT]; omega
  · intro lo n h
    rw [h3 _ _ (by omega), show fMAT d a b i m = (d * 2 ^ 32 + a * 2 ^ 24 + b * 2 ^ 16 + i) * 2 ^ 5 + m by simp only [fMAT]; ring]
    exact bits_below _ _ _ _ _ h

/-- The fields of a BR word. -/
theorem br_fields (opc : Nat) (c : Ctl) (o : Nat) (hint : Bool) (a m : Nat) (ho : opc < 256) (hoff : o < 2 ^ 24) (ha : a < 256) (hm : m < 4096)
    (w : Nat) (hw : w = (mkWord opc c (fBR o hint a m)).toNat) :
    bits w 56 8 = opc ∧ ctlOf w = c ∧ bits w 21 24 = o ∧ bit w 20 = hint ∧ bits w 12 8 = a ∧ bits w 0 12 = m := by
  have hh : hint.toNat < 2 := by cases hint <;> decide
  have hr : fBR o hint a m < 2 ^ 45 := by simp only [fBR]; omega
  obtain ⟨h1, h2, h3⟩ := mkWord_fields opc c (fBR o hint a m) ho hr
  subst hw
  refine ⟨h1, h2, ?_, ?_, ?_, ?_⟩
  · rw [h3 _ _ (by decide)]; simp only [bits, fBR]; omega
  · have e : bits (fBR o hint a m) 20 1 = hint.toNat := by simp only [bits, fBR]; omega
    rw [bit_eq, h3 _ _ (by decide), e]; cases hint <;> rfl
  · rw [h3 _ _ (by decide)]; simp only [bits, fBR]; omega
  · rw [h3 _ _ (by decide)]; simp only [bits, fBR]; omega

/-- The fields of an XLN word. -/
theorem xln_fields (opc : Nat) (c : Ctl) (d a b : Nat) (s : MSrc) (m : Nat) (ho : opc < 256) (hd : d < 256) (ha : a < 256) (hb : b < 256)
    (hm : m < 2048) (w : Nat) (hw : w = (mkWord opc c (fXLN d a b s m)).toNat) :
    bits w 56 8 = opc ∧ ctlOf w = c ∧ bits w 37 8 = d ∧ bits w 29 8 = a ∧ bits w 21 8 = b ∧ msrcOf w = some s ∧
    ∀ lo n, lo + n ≤ 11 → bits w lo n = bits m lo n := by
  have hs : ∃ r k, s.code = r * 2 ^ 13 + k * 2 ^ 11 ∧ r < 256 ∧ k < 3 ∧
      (match k with | 0 => some (MSrc.reg (BitVec.ofNat 8 r)) | 1 => some .path | 2 => some .group | _ => none) = some s := by
    cases s with
    | reg r => exact ⟨r.toNat, 0, by simp [MSrc.code], r.isLt, by decide, by simp⟩
    | path => exact ⟨0, 1, rfl, by decide, by decide, rfl⟩
    | group => exact ⟨0, 2, rfl, by decide, by decide, rfl⟩
  obtain ⟨r, k, hk, hr8, hk3, hm4⟩ := hs
  have hr : fXLN d a b s m < 2 ^ 45 := by simp only [fXLN, hk]; omega
  obtain ⟨h1, h2, h3⟩ := mkWord_fields opc c (fXLN d a b s m) ho hr
  subst hw
  refine ⟨h1, h2, ?_, ?_, ?_, ?_, ?_⟩
  · rw [h3 _ _ (by decide)]; simp only [bits, fXLN, hk]; omega
  · rw [h3 _ _ (by decide)]; simp only [bits, fXLN, hk]; omega
  · rw [h3 _ _ (by decide)]; simp only [bits, fXLN, hk]; omega
  · have e1 : bits (fXLN d a b s m) 11 2 = k := by simp only [bits, fXLN, hk]; omega
    have e2 : bits (fXLN d a b s m) 13 8 = r := by simp only [bits, fXLN, hk]; omega
    simp only [msrcOf, regAt, h3 11 2 (by decide), h3 13 8 (by decide), e1, e2]
    exact hm4
  · intro lo n h
    rw [h3 _ _ (by omega), show fXLN d a b s m = (d * 2 ^ 26 + a * 2 ^ 18 + b * 2 ^ 10 + r * 2 ^ 2 + k) * 2 ^ 11 + m by
      simp only [fXLN, hk]; ring]
    exact bits_below _ _ _ _ _ h

/-- The MOD field of a floating-point instruction. -/
theorem fmod_fields (t : FTy) (r : Rnd) (k : FMods) (cond : Nat) (h : cond < 8) :
    fFMOD t r.code k cond < 8192 ∧ ftyOf (bits (fFMOD t r.code k cond) 0 13) = some t ∧ rndOf (bits (fFMOD t r.code k cond) 2 2) = r ∧
    fmodsOf (bits (fFMOD t r.code k cond) 0 13) = k ∧ bits (fFMOD t r.code k cond) 10 3 = cond ∧ bits (fFMOD t r.code k cond) 2 2 = r.code := by
  obtain ⟨na, aa, nb, ab, nc, ac⟩ := k
  have h1 : na.toNat < 2 := by cases na <;> decide
  have h2 : aa.toNat < 2 := by cases aa <;> decide
  have h3 : nb.toNat < 2 := by cases nb <;> decide
  have h4 : ab.toNat < 2 := by cases ab <;> decide
  have h5 : nc.toNat < 2 := by cases nc <;> decide
  have h6 : ac.toNat < 2 := by cases ac <;> decide
  have h7 : t.code < 3 := by cases t <;> decide
  have h8 : r.code < 4 := by cases r <;> decide
  have hft : ∀ n, n % 4 = t.code → ftyOf n = some t := by intro n hn; simp only [ftyOf, hn]; cases t <;> rfl
  have hrn : ∀ n, n = r.code → rndOf n = r := by intro n hn; subst hn; cases r <;> rfl
  have hb : ∀ (b : Bool) (n : Nat), n = b.toNat → (n == 1) = b := by intro b n hn; subst hn; cases b <;> rfl
  have hlt : fFMOD t r.code ⟨na, aa, nb, ab, nc, ac⟩ cond < 8192 := by simp only [fFMOD, FMods.code]; omega
  have h22 : bits (fFMOD t r.code ⟨na, aa, nb, ab, nc, ac⟩ cond) 2 2 = r.code := by simp only [bits, fFMOD, FMods.code]; omega
  refine ⟨hlt, hft _ ?_, hrn _ h22, ?_, ?_, h22⟩
  · simp only [bits, fFMOD, FMods.code]; omega
  · simp only [fmodsOf, bit]
    congr 1 <;> apply hb <;> simp only [bits, fFMOD, FMods.code] <;> omega
  · simp only [bits, fFMOD, FMods.code]; omega

/-- The ordering bits of the atomic control field. -/
theorem actl_fields (k : ACtl) (x : Nat) (h : x < 2048) :
    k.code + x < 2 ^ 17 ∧ bits (k.code + x) 16 1 = k.uo.toNat ∧ scopeOf (bits (k.code + x) 13 3) = k.scope ∧ orderOf (bits (k.code + x) 11 2) = k.order ∧
    ∀ lo n, lo + n ≤ 11 → bits (k.code + x) lo n = bits x lo n := by
  obtain ⟨uo, sc, od⟩ := k
  have h1 : uo.toNat < 2 := by cases uo <;> decide
  have h2 : sc.code < 8 := by cases sc <;> decide
  have h3 : od.code < 4 := by cases od <;> decide
  have hs : ∀ n, n = sc.code → scopeOf n = sc := by intro n hn; subst hn; cases sc <;> rfl
  have ho : ∀ n, n = od.code → orderOf n = od := by intro n hn; subst hn; cases od <;> rfl
  refine ⟨by simp only [ACtl.code]; omega, by simp only [bits, ACtl.code]; omega, hs _ (by simp only [bits, ACtl.code]; omega),
    ho _ (by simp only [bits, ACtl.code]; omega), ?_⟩
  intro lo n hl
  rw [show ACtl.code ⟨uo, sc, od⟩ + x = (uo.toNat * 2 ^ 5 + sc.code * 2 ^ 2 + od.code) * 2 ^ 11 + x by simp only [ACtl.code]; ring]
  exact bits_below _ _ _ _ _ hl

/-- Space and size of a LD or ST word. -/
theorem memOp_of (w : Nat) (sz : Size) (m : MemOp) (h0 : bits w 0 4 = m.space.modBase + sz.code) (h29 : bits w 29 8 = m.a.toNat)
    (h17 : bits w 17 12 = m.space.brec) (h4 : bits w 4 13 = m.off.toNat) : memOpOf w = some (sz, m) := by
  obtain ⟨sp, a, off⟩ := m
  have hz : sz.code < 5 := by cases sz <;> decide
  simp only at h0 h29 h17 h4
  have ha : regAt w 29 = a := by simp [regAt, h29]
  have ho : off13At w = off := by simp [off13At, h4]
  cases sp with
  | global b =>
    have hb : brecAt w = b := by simp [brecAt, h17, Space.brec]
    simp only [Space.modBase, Nat.zero_add] at h0
    simp [memOpOf, h0, hb, ha, ho, hz, Nat.mod_eq_of_lt hz, (by omega : sz.code < 15)]
  | vault =>
    simp only [Space.modBase] at h0
    simp [memOpOf, h0, ha, ho, (by omega : 5 + sz.code < 10), (by omega : 5 + sz.code < 15), Nat.mod_eq_of_lt hz]
  | pool =>
    simp only [Space.modBase] at h0
    simp [memOpOf, h0, ha, ho, (by omega : 5 ≤ 10 + sz.code), (by omega : 10 + sz.code < 15),
      (by omega : (10 + sz.code) % 5 = sz.code)]

/-- The atomic control field: its ordering part, the space and what stands below. -/
theorem atomic_fields (opc : Nat) (c : Ctl) (d a : Reg) (k : ACtl) (sp : Space) (low : Nat) (ho : opc < 256) (hl : low < 512) (w : Nat)
    (hw : w = (mkWord opc c (fMEMC d.toNat a.toNat sp.brec (k.code + sp.actlBits + low))).toNat) :
    bits w 56 8 = opc ∧ ctlOf w = c ∧ regAt w 37 = d ∧ regAt w 29 = a ∧ aspaceOf w = some sp ∧ actlOf w = k ∧
    ∀ lo n, lo + n ≤ 9 → bits w lo n = bits low lo n := by
  have hsp : ∃ j, j < 3 ∧ sp.actlBits = j * 512 := by
    cases sp with
    | global b => exact ⟨0, by decide, rfl⟩
    | vault => exact ⟨1, by decide, rfl⟩
    | pool => exact ⟨2, by decide, rfl⟩
  obtain ⟨j, hj, hsp⟩ := hsp
  have hx : sp.actlBits + low < 2048 := by omega
  obtain ⟨g0, g1, g2, g3, g4⟩ := actl_fields k (sp.actlBits + low) hx
  rw [Nat.add_assoc] at hw
  obtain ⟨f0, f1, f2, f3, f4, f5⟩ := memc_fields opc c d.toNat a.toNat sp.brec _ ho d.isLt a.isLt sp.brec_lt g0 w hw
  have h92 : bits w 9 2 = j := by rw [f5 _ _ (by decide), g4 _ _ (by decide), hsp]; simp only [bits]; omega
  refine ⟨f0, f1, by simp [regAt, f2], by simp [regAt, f3], ?_, ?_, ?_⟩
  · simp only [aspaceOf, h92]
    cases sp with
    | global b =>
      have : j = 0 := by simp only [Space.actlBits] at hsp; omega
      subst this; simp [brecAt, f4, Space.brec]
    | vault =>
      have : j = 1 := by simp only [Space.actlBits] at hsp; omega
      subst this; rfl
    | pool =>
      have : j = 2 := by simp only [Space.actlBits] at hsp; omega
      subst this; rfl
  · simp [actlOf, bit_eq, f5, g1, g2, g3]
  · intro lo n h
    rw [f5 _ _ (by omega), g4 _ _ (by omega), hsp, show j * 512 = j * 2 ^ 9 by norm_num]
    exact bits_below _ _ _ _ _ h

end Sys2Proof
end

