-- ==== Sys2Proof/Laws/Transfers.lean ====
section
/-!
SUPPORT. Instructions that change their performing fibres one by one: transfers, traps and returns.
-/

namespace Sys2Proof.Machine

/-! ### All but the fibres -/

theorem State.husk_modGroup (s : State) (t g : Nat) (h : Group → Group) (hh : ∀ x : Group, { h x with fibres := [] } = { x with fibres := [] }) :
    (s.modGroup t g h).husk = s.husk := by
  have h1 : (s.modGroup t g h).teams.map (fun e => (e.1, ({ e.2 with groups := e.2.groups.map (fun x => { x with fibres := [] }) } : Team)))
      = s.teams.map (fun e => (e.1, ({ e.2 with groups := e.2.groups.map (fun x => { x with fibres := [] }) } : Team))) := by
    simp only [State.modGroup, State.modTeam_teams]
    refine fmod_map _ (fun x : Team => ({ x with groups := x.groups.map (fun x => { x with fibres := [] }) } : Team)) (fun x => ?_) _ _
    simp only [Team.modGroup, List.map_modify_of_eq (fun x : Group => ({ x with fibres := [] } : Group)) h hh]
  unfold State.husk
  rw [h1]; rfl

theorem State.husk_modFibre (s : State) (t g l : Nat) (h : Fibre → Fibre) : (s.modFibre t g l h).husk = s.husk :=
  State.husk_modGroup s t g _ (fun _ => rfl)

theorem State.husk_foldl (s : State) (t : Nat) (ls : List (Nat × Nat)) (h : Nat × Nat → Fibre → Fibre) :
    (ls.foldl (fun a x => a.modFibre t x.1 x.2 (h x)) s).husk = s.husk :=
  State.foldl_keeps State.husk ls (fun a x => a.modFibre t x.1 x.2 (h x)) (fun a _ => State.husk_modFibre a _ _ _ _) s

theorem State.husk_facts {s r : State} (h : r.husk = s.husk) : r.bundles = s.bundles ∧ r.kills = s.kills :=
  ⟨(congrArg State.bundles h : _), (congrArg State.kills h : _)⟩

theorem State.foldl_modFibre_team (t : Nat) (h : Nat × Nat → Fibre → Fibre) (ls : List (Nat × Nat)) (s : State) (u g l : Nat) (hu : u ≠ t) :
    (ls.foldl (fun a x => a.modFibre t x.1 x.2 (h x)) s).fibre? u g l = s.fibre? u g l :=
  State.foldl_keeps (fun a => a.fibre? u g l) ls (fun a x => a.modFibre t x.1 x.2 (h x)) (by
    intro a x
    rw [State.fibre?_modFibre, if_neg]
    intro hc; simp only [Prod.mk.injEq] at hc; exact hu hc.1.symm) s

/-- What a native instruction comes to that changes its performing fibres one by one, over a base that leaves fibres alone. -/
theorem moves_raw {i : Instr} {s : State} {w : Who} {c : Ctl} (hd : w.active.Nodup)
    {base : State} (hbf : ∀ t g l, base.fibre? t g l = s.fibre? t g l) (hbb : base.isHeld w = false) (hbk : base.kills = [])
    (ls : List (Nat × Nat)) (hls : ls.Nodup) (hmem : ∀ x, x ∈ ls ↔ x ∈ s.performers w c) (out : Nat × Nat → Fibre → Fibre) {r : State}
    (hr : r = ls.foldl (fun a x => a.modFibre w.team x.1 x.2 (out x)) base)
    {k : Nat} (he : exec i s = .next (s.endNative k (if r.isHeld w then r else r.countClocks w))) :
    Moves i s w c base out := by
  have hrb : r.bundles = base.bundles ∧ r.kills = [] := by
    have := State.husk_facts (State.husk_foldl base w.team ls out)
    rw [← hr] at this
    exact ⟨this.1, this.2.trans hbk⟩
  have hh : r.isHeld w = false := by
    simp only [State.isHeld, hrb.1] at hbb ⊢
    exact hbb
  rw [if_neg (by rw [hh]; simp), State.endNative_quiet (by simp [hrb.2])] at he
  refine ⟨_, he, ?_, ?_⟩
  · intro u g l
    by_cases hu : u = w.team
    · subst hu
      rw [State.countClocks_fibre? _ _ hd, hr, State.foldl_modFibre w.team out ls hls base g l, hbf]
      have hp : ((g, l) ∈ ls) = ((g, l) ∈ s.performers w c) := propext (hmem _)
      simp only [hp, true_and]
      by_cases ha : (g, l) ∈ w.active
      · simp only [ha, if_true]
        by_cases hq : (g, l) ∈ s.performers w c
        · simp only [hq, if_true]
          cases s.fibre? w.team g l <;> simp [Fibre.tick]
        · simp only [hq, if_false]
          cases s.fibre? w.team g l <;> simp [Fibre.tick]
      · have hq : (g, l) ∉ s.performers w c := fun h => ha (State.mem_performers h)
        simp only [ha, hq, if_false]
        cases s.fibre? w.team g l <;> simp
    · rw [State.countClocks_eq, State.foldl_modFibre_team w.team (fun _ => Fibre.tick) _ _ _ _ _ hu, hr, State.foldl_modFibre_team _ _ _ _ _ _ _ hu, hbf]
      simp only [hu, false_and, if_false]
      cases s.fibre? u g l <;> simp
  · have h1 := State.husk_foldl r w.team w.active (fun _ => Fibre.tick)
    rw [State.countClocks_eq]
    exact h1.trans (by rw [hr]; exact State.husk_foldl base w.team ls out)

/-- A native instruction all of whose fibres pass, that changes them one by one. -/
theorem moves_of {i : Instr} {s : State} {w : Who} {c : Ctl} {t : Team} (H : Issues s i w c t) {body : Who → State → State}
    (he : exec i s = native i s body) {base : State} (hbf : ∀ t g l, base.fibre? t g l = s.fibre? t g l) (hbb : base.isHeld w = false)
    (hbk : base.kills = []) (h0 : s.performers w c = [] → base = s) (ls : List (Nat × Nat)) (hls : ls.Nodup) (hmem : ∀ x, x ∈ ls ↔ x ∈ s.performers w c)
    (out : Nat × Nat → Fibre → Fibre)
    (hbody : s.performers w c ≠ [] → body (w.by (s.performers w c)) s = ls.foldl (fun a x => a.modFibre w.team x.1 x.2 (out x)) base) :
    Moves i s w c base out := by
  refine moves_raw (k := t.ctx) H.distinct hbf hbb hbk ls hls hmem out rfl ?_
  rw [he, native_of_issues H]
  by_cases hp : s.performers w c = []
  · have hl : ls = [] := by
      cases ls with
      | nil => rfl
      | cons x ls => have := (hmem x).1 (by simp); rw [hp] at this; simp at this
    rw [hp, hl, h0 hp]; rfl
  · have : (s.performers w c).isEmpty = false := by simpa using hp
    rw [this]
    simp only [Bool.false_eq_true, if_false]
    rw [hbody hp]

/-- The same where each step changes its own fibre, as it stood. -/
theorem moves_each {i : Instr} {s : State} {w : Who} {c : Ctl} {t : Team} (H : Issues s i w c t) {body : Who → State → State}
    (he : exec i s = native i s body) (step : State → Nat × Nat → State) (out : Nat × Nat → Fibre → Fibre)
    (hbody : body (w.by (s.performers w c)) s = (s.performers w c).foldl step s)
    (hstep : ∀ a : State, ∀ x ∈ s.performers w c, { a with teams := s.teams } = s → a.fibre? w.team x.1 x.2 = s.fibre? w.team x.1 x.2 →
      step a x = a.modFibre w.team x.1 x.2 (out x)) : Moves i s w c s out :=
  moves_of H he (fun _ _ _ => rfl) H.unheld H.quiet (fun _ => rfl) (s.performers w c) (H.distinct.filter _) (fun _ => Iff.rfl) out
    (fun _ => hbody.trans (State.foldl_ownFibre w.team step out s _ (H.distinct.filter _) hstep))

theorem moves_congr {i : Instr} {s : State} {w : Who} {c : Ctl} {base : State} {out out' : Nat × Nat → Fibre → Fibre}
    (h : ∀ x ∈ s.performers w c, ∀ f, s.fibre? w.team x.1 x.2 = some f → out x f = out' x f) (H : Moves i s w c base out) : Moves i s w c base out' := by
  obtain ⟨s', h1, h2, h3⟩ := H
  refine ⟨s', h1, ?_, h3⟩
  intro t g l
  rw [h2]
  cases hf : s.fibre? t g l with
  | none => rfl
  | some f =>
    simp only [Option.map_some, Option.some.injEq]
    by_cases ha : t = w.team ∧ (g, l) ∈ w.active
    · simp only [ha, and_self, if_true]
      by_cases hp : (g, l) ∈ s.performers w c
      · simp only [hp, if_true]
        obtain ⟨rfl, _⟩ := ha
        rw [h (g, l) hp f hf]
      · simp only [hp, if_false]
    · simp only [ha, if_false]

/-- An instruction that does something for each fibre, none of which traps. -/
theorem moves_eachFibre {i : Instr} {s : State} {w : Who} {c : Ctl} {t : Team} (H : Issues s i w c t) (h : Who → Fibre → Except Trap Fibre)
    (he : exec i s = native i s (fun w s => eachFibre w s (h w))) (out : Nat × Nat → Fibre → Fibre)
    (hout : ∀ x ∈ s.performers w c, h (w.by (s.performers w c)) (s.fibre w.team x.1 x.2) = .ok (out x (s.fibre w.team x.1 x.2))) : Moves i s w c s out := by
  refine moves_congr (out := fun x _ => out x (s.fibre w.team x.1 x.2)) ?_ (moves_each H he
    (fun a x => match h (w.by (s.performers w c)) (a.fibre w.team x.1 x.2) with
      | .ok f => a.modFibre w.team x.1 x.2 (fun _ => f)
      | .error tr => a.takeTrap (w.by (s.performers w c)) w.word x.1 x.2 tr) _ rfl ?_)
  · intro x _ f hf; simp only [State.fibre_eq, hf, Option.getD_some]
  · intro a x hx _ hfx
    have : a.fibre w.team x.1 x.2 = s.fibre w.team x.1 x.2 := State.fibre_of_fibre? hfx
    simp only [this, hout x hx]

/-! ### Targets -/

theorem target_eq (w : Who) (off : BitVec 24) : w.target off = BitVec.ofInt 49 (w.clause.toNat + 8 * off.toInt) := by
  unfold Who.target
  have h1 : (off.signExtend 49 <<< 3 : BitVec 49) = BitVec.ofInt 49 (8 * off.toInt) := by
    apply BitVec.eq_of_toInt_eq
    rw [BitVec.shiftLeft_eq_mul_twoPow]
    rw [BitVec.toInt_mul, BitVec.toInt_ofInt, BitVec.toInt_signExtend_of_le (by norm_num)]
    have : (BitVec.twoPow 49 3).toInt = 8 := by decide
    rw [this, Int.mul_comm]
  rw [h1, BitVec.ofInt_add]
  simp

theorem after_eq (w : Who) : w.after = BitVec.ofNat 49 (w.clause.toNat + 8 * (w.count + 2)) := by
  unfold Who.after
  rw [BitVec.ofNat_add]
  simp

theorem modFibre_id (s : State) (t g l : Nat) : s.modFibre t g l (fun x => x) = s := by
  have h1 : ∀ (ls : List Fibre) i, ls.modify i (fun x => x) = ls := by
    intro ls; induction ls with
    | nil => intro i; cases i <;> rfl
    | cons x ls ih => intro i; cases i with
      | zero => rfl
      | succ i => simp [ih]
  have h2 : (fun x : Group => x.modFibre l (fun x => x)) = (fun x => x) := by
    funext x; simp only [Group.modFibre, h1]
  unfold State.modFibre
  rw [h2, modGroup_id]

end Sys2Proof.Machine
end

