-- ==== Sys2Proof/Laws/Gate.lean ====
section
/-!
SUPPORT. Operands that all performing fibres resolve, and transfers whose targets are read from memory.
-/

namespace Sys2Proof.Machine

/-! ### Going on with what was resolved -/

/-! ### Operands that all resolve -/

theorem spread_mem {p : List (Nat × Nat)} {x : Nat × Nat} : x ∈ (groupsOf p).flatMap (fun g => (lanesIn p g).map (fun l => (g, l))) ↔ x ∈ p := by
  simp only [List.mem_flatMap, List.mem_map]
  constructor
  · rintro ⟨g, _, l, hl, rfl⟩; exact mem_lanesIn.1 hl
  · intro h; exact ⟨x.1, mem_groupsOf.2 ⟨x.2, h⟩, x.2, mem_lanesIn.2 h, rfl⟩

theorem lanesIn_nodup {p : List (Nat × Nat)} (h : p.Nodup) (g : Nat) : (lanesIn p g).Nodup := by
  unfold lanesIn
  refine List.Nodup.map_on ?_ (h.filter _)
  intro x hx y hy he
  simp only [List.mem_filter, decide_eq_true_eq] at hx hy
  exact Prod.ext (hx.2.trans hy.2.symm) he

theorem spread_nodup {p : List (Nat × Nat)} (h : p.Nodup) : ((groupsOf p).flatMap (fun g => (lanesIn p g).map (fun l => (g, l)))).Nodup := by
  rw [List.nodup_flatMap]
  refine ⟨fun g _ => (lanesIn_nodup h g).map (fun a b hab => by simpa using hab), ?_⟩
  refine (groupsOf_nodup p).imp ?_
  intro a b hab
  simp only [Function.onFun, List.disjoint_left, List.mem_map]
  rintro _ ⟨l, _, rfl⟩ ⟨k, _, hk⟩
  simp only [Prod.mk.injEq] at hk
  exact hab hk.1.symm

/-- Every performing fibre resolves its operand: all go on. -/
theorem gate_ok {α : Type} (s : State) (w : Who) (res : Nat → Nat → Res α) (val : Nat × Nat → α) (h : ∀ x ∈ w.perf, res x.1 x.2 = .ok (val x)) :
    s.gate w res = ((groupsOf w.perf).flatMap (fun g => (lanesIn w.perf g).map (fun l => (g, l, val (g, l)))),
      (groupsOf w.perf).foldl (fun (a : State) g => a.modGroup w.team g (fun x => { x with failed := [] })) s) := by
  have key : ∀ (gs : List Nat) (acc : List (Nat × Nat × α)) (a : State), (∀ g ∈ gs, g ∈ groupsOf w.perf) →
      gs.foldl (fun (r : List (Nat × Nat × α) × State) g =>
        let outs := (lanesIn w.perf g).map (fun l => (l, res g l))
        let misses := outs.filterMap (fun o => match o.2 with | .miss v lv wr => some (v, lv, wr) | _ => none)
        if !misses.isEmpty then (r.1, r.2.sleepGroup w g misses false)
        else
          let s1 := outs.foldl (fun (a : State) o => match o.2 with | .trap tr => a.takeTrap w w.word g o.1 tr | _ => a) r.2
          let s2 := s1.modGroup w.team g (fun x => { x with failed := [] })
          (r.1 ++ outs.filterMap (fun o => match o.2 with | .ok x => some (g, o.1, x) | _ => none), s2)) (acc, a)
      = (acc ++ gs.flatMap (fun g => (lanesIn w.perf g).map (fun l => (g, l, val (g, l)))),
        gs.foldl (fun (a : State) g => a.modGroup w.team g (fun x => { x with failed := [] })) a) := by
    intro gs
    induction gs with
    | nil => intro acc a _; simp
    | cons g gs ih =>
      intro acc a hg
      have hall : ∀ l ∈ lanesIn w.perf g, res g l = .ok (val (g, l)) := fun l hl => h (g, l) (mem_lanesIn.1 hl)
      have h1 : (lanesIn w.perf g).map (fun l => (l, res g l)) = (lanesIn w.perf g).map (fun l => (l, Res.ok (val (g, l)))) :=
        List.map_congr_left (fun l hl => by rw [hall l hl])
      have h2 : ∀ ls : List Nat, (ls.map (fun l => (l, (Res.ok (val (g, l)) : Res α)))).filterMap
          (fun o => match o.2 with | .miss v lv wr => some (v, lv, wr) | _ => none) = ([] : List (Nat × Nat × Bool)) := by
        intro ls; induction ls with
        | nil => rfl
        | cons l ls ih => simp
      have h3 : ∀ (ls : List Nat) (b : State), (ls.map (fun l => (l, (Res.ok (val (g, l)) : Res α)))).foldl
          (fun (a : State) o => match o.2 with | .trap tr => a.takeTrap w w.word g o.1 tr | _ => a) b = b := by
        intro ls; induction ls with
        | nil => intro b; rfl
        | cons l ls ih => intro b; exact ih b
      have h4 : ∀ ls : List Nat, (ls.map (fun l => (l, (Res.ok (val (g, l)) : Res α)))).filterMap
          (fun o => match o.2 with | .ok x => some (g, o.1, x) | _ => none) = ls.map (fun l => (g, l, val (g, l))) := by
        intro ls; induction ls with
        | nil => rfl
        | cons l ls ih => simp
      rw [List.foldl_cons]
      dsimp only
      rw [h1, h2, h3, h4]
      simp only [List.isEmpty_nil, Bool.not_true, Bool.false_eq_true, if_false]
      rw [ih _ _ (fun k hk => hg k (by simp [hk]))]
      simp [List.append_assoc]
  exact (key (groupsOf w.perf) [] s (fun _ h => h)).trans (by rw [List.nil_append])

theorem State.spent_fibre? (s : State) (w : Who) (c : Ctl) (u g l : Nat) : (s.spent w c).fibre? u g l = s.fibre? u g l := by
  unfold State.spent
  refine State.foldl_keeps (fun a => a.fibre? u g l) _ (fun (a : State) g => a.modGroup w.team g (fun x => { x with failed := [] })) (fun a k => ?_) s
  exact State.fibre?_modGroup _ _ _ _ _ _ _ (fun _ => rfl)

theorem padOk_of {word : DWord} {k : Nat} (h1 : word.toNat / 2 ^ 56 = 0x45) (h2 : word.toNat / 2 ^ k % 2 = 1) : padOk word k = true := by
  have h3 := word.isLt
  have h4 : field word.toNat 63 56 = 0x45 := by
    unfold field
    rw [Nat.shiftRight_eq_div_pow, h1]; rfl
  have h5 : flag word.toNat k = true := by
    unfold flag
    rw [Nat.testBit_eq_decide_div_mod_eq, h2]; rfl
  unfold padOk
  rw [h4, h5]; rfl

theorem State.pad_ok {s : State} {t : Team} {g k : Nat} {a : VAddr} (h : s.landing t g a k) : s.pad t g a k = .ok a := by
  obtain ⟨word, h1, h2, h3⟩ := h
  unfold State.pad
  have : (a + 8#49).toNat = (a.toNat + 8) % 2 ^ 49 := by simp
  rw [this, h1]
  simp only [padOk_of h2 h3, if_true]

theorem State.indirect_ok {s : State} {w : Who} {t : Team} {g : Nat} {f : Fibre} {a : Reg} {call : Bool} {target : VAddr}
    (h1 : s.dispatches t g (f.get w.pos a).toNat target) (h2 : s.landing t g target (if call then 1 else 0)) (h3 : call = true → f.depth < 255) :
    s.indirect w t g f a call = .ok target := by
  obtain ⟨d1, lf, d2, d3, d4⟩ := h1
  unfold State.indirect
  dsimp only
  rw [if_neg (by omega)]
  have : (call && decide (f.depth = 255)) = false := by
    cases call with
    | false => rfl
    | true => have := h3 rfl; simp; omega
  rw [if_neg (by rw [this]; simp), d2]
  simp only
  have e1 : field (memNat s.mem lf.pa 8) 63 49 = 0 := by
    rw [d3]; unfold field
    rw [Nat.shiftRight_eq_div_pow, Nat.div_eq_of_lt target.isLt]; rfl
  have e2 : field (memNat s.mem lf.pa 8) 2 0 = 0 := by
    rw [d3]; unfold field
    simpa using d4
  rw [if_neg (by rw [e1, e2]; simp), d3]
  have : BitVec.ofNat 49 target.toNat = target := by simp
  rw [this]
  exact State.pad_ok h2

/-- Transfers whose targets are read from memory. -/
theorem moves_gate {i : Instr} {s : State} {w : Who} {c : Ctl} {t : Team} (H : Issues s i w c t) {body : Who → State → State}
    (he : exec i s = native i s body) (res : Nat → Nat → Res VAddr) (target : Nat × Nat → VAddr) (k : Nat × Nat × VAddr → Fibre → Fibre) (h : Nat × Nat → Fibre → Fibre)
    (hres : ∀ x ∈ s.performers w c, res x.1 x.2 = .ok (target x))
    (hbody : body (w.by (s.performers w c)) s =
      (let r := s.gate (w.by (s.performers w c)) res
       let s1 := r.1.foldl (fun (x : State) e => x.modFibre w.team e.1 e.2.1 (k e)) r.2
       { s1 with free := s1.free + 1 }))
    (hk : ∀ x, k (x.1, x.2, target x) = h x) :
    Moves i s w c (if (s.performers w c).isEmpty then s else { s.spent w c with free := s.free + 1 }) h := by
  by_cases hp : s.performers w c = []
  · rw [hp]
    refine moves_of H he (base := s) (fun _ _ _ => rfl) H.unheld H.quiet (fun _ => rfl) (s.performers w c) (H.distinct.filter _) (fun _ => Iff.rfl) _ ?_
    intro h; exact absurd hp h
  · have hne : (s.performers w c).isEmpty = false := by simpa using hp
    rw [hne, if_neg (by simp)]
    have hf : (s.spent w c).bundles = s.bundles ∧ (s.spent w c).kills = s.kills ∧ (s.spent w c).free = s.free := by
      refine ⟨?_, ?_, ?_⟩
      · exact State.foldl_keeps (·.bundles) _ (fun (a : State) g => a.modGroup w.team g (fun x => { x with failed := [] })) (fun _ _ => rfl) s
      · exact State.foldl_keeps (·.kills) _ (fun (a : State) g => a.modGroup w.team g (fun x => { x with failed := [] })) (fun _ _ => rfl) s
      · exact State.foldl_keeps (·.free) _ (fun (a : State) g => a.modGroup w.team g (fun x => { x with failed := [] })) (fun _ _ => rfl) s
    refine moves_of H he (base := { s.spent w c with free := s.free + 1 }) (fun u g l => State.spent_fibre? s w c u g l) ?_ (hf.2.1.trans H.quiet) (fun h => absurd h hp)
      _ (spread_nodup (H.distinct.filter _)) (fun x => spread_mem) h ?_
    · have := H.unheld
      simp only [State.isHeld, hf.1] at this ⊢; exact this
    · intro _
      rw [hbody, gate_ok s (w.by (s.performers w c)) res target hres]
      dsimp only
      have e1 : (groupsOf (w.by (s.performers w c)).perf).foldl (fun (a : State) g => a.modGroup (w.by (s.performers w c)).team g (fun x => { x with failed := [] })) s = s.spent w c := rfl
      rw [e1]
      have e2 : (w.by (s.performers w c)).perf = s.performers w c := rfl
      rw [e2]
      have comm : ∀ (ls : List (Nat × Nat)) (a : State), ls.foldl (fun (a : State) x => a.modFibre w.team x.1 x.2 (h x)) ({ a with free := a.free + 1 } : State)
          = { (ls.foldl (fun (a : State) x => a.modFibre w.team x.1 x.2 (h x)) a) with free := (ls.foldl (fun (a : State) x => a.modFibre w.team x.1 x.2 (h x)) a).free + 1 } := by
        intro ls; induction ls with
        | nil => intro a; rfl
        | cons x ls ih => intro a; exact ih (a.modFibre w.team x.1 x.2 (h x))
      have e3 : ({ s.spent w c with free := s.free + 1 } : State) = { s.spent w c with free := (s.spent w c).free + 1 } := by rw [hf.2.2]
      rw [e3, comm]
      have e4 : ∀ (gs : List Nat) (a : State), (gs.flatMap (fun g => (lanesIn (s.performers w c) g).map (fun l => (g, l, target (g, l))))).foldl
          (fun (x : State) e => x.modFibre w.team e.1 e.2.1 (k e)) a
          = (gs.flatMap (fun g => (lanesIn (s.performers w c) g).map (fun l => (g, l)))).foldl (fun (a : State) x => a.modFibre w.team x.1 x.2 (h x)) a := by
        intro gs a
        have : gs.flatMap (fun g => (lanesIn (s.performers w c) g).map (fun l => (g, l, target (g, l))))
            = (gs.flatMap (fun g => (lanesIn (s.performers w c) g).map (fun l => (g, l)))).map (fun x => (x.1, x.2, target x)) := by
          rw [List.map_flatMap]; congr 1; funext g; rw [List.map_map]; rfl
        rw [this, List.foldl_map]
        simp only [hk]
      exact congrArg (fun a : State => ({ a with free := a.free + 1 } : State)) (e4 _ _)

/-- The state an instruction leaves, from the one its own meaning gives. -/
theorem exec_gives {i : Instr} {s : State} {w : Who} {c : Ctl} {t : Team} (H : Issues s i w c t) {body : Who → State → State}
    (he : exec i s = native i s body) {r : State} (hb : s.performers w c ≠ [] → body (w.by (s.performers w c)) s = r)
    (h0 : s.performers w c = [] → r = s) (hheld : r.isHeld w = false) (hkill : r.kills = []) : exec i s = .next (r.countClocks w) := by
  have hr : (if (s.performers w c).isEmpty then s else body (w.by (s.performers w c)) s) = r := by
    by_cases hp : s.performers w c = []
    · simp [hp, h0 hp]
    · rw [if_neg (by simpa using hp), hb hp]
  rw [he, native_of_issues H, hr]
  dsimp only
  rw [if_neg (by rw [hheld]; simp), State.endNative_quiet (by simp [hkill])]

/-- An instruction that some fibre performs does its body. -/
theorem gives_body {i : Instr} {s : State} {w : Who} {c : Ctl} {t : Team} (H : Issues s i w c t) {body : Who → State → State}
    (he : exec i s = native i s body) (hp : s.performers w c ≠ []) : Gives i s w (body (w.by (s.performers w c)) s) := by
  unfold Gives State.finish
  rw [he, native_of_issues H, H.team]
  dsimp only [Option.map_some, Option.getD_some]
  rw [if_neg (show ¬ ((s.performers w c).isEmpty = true) by simpa using hp)]

end Sys2Proof.Machine
end

