-- ==== Sys2Proof/Laws/Traps.lean ====
section
/-!
SUPPORT. Precise traps of the fibres that perform an instruction.
-/

namespace Sys2Proof.Machine

/-! ### Into the handler -/

theorem List.modify_twice {α : Type} (p q : α → α) (ls : List α) (i : Nat) : (ls.modify i p).modify i q = ls.modify i (fun x => q (p x)) := by
  induction ls generalizing i with
  | nil => cases i <;> rfl
  | cons x ls ih => cases i with
    | zero => rfl
    | succ i => simp [ih]

theorem fmod_twice {α : Type} (p q : α → α) (m : List (Nat × α)) (i : Nat) : fmod (fmod m i p) i q = fmod m i (fun x => q (p x)) := by
  unfold fmod
  rw [List.map_map]
  congr 1
  funext e
  by_cases h : e.1 = i <;> simp [h]

theorem State.modFibre_twice (b : State) (t g l : Nat) (p q : Fibre → Fibre) :
    (b.modFibre t g l p).modFibre t g l q = b.modFibre t g l (fun x => q (p x)) := by
  have : ∀ m : List (Nat × Team), fmod (fmod m t (fun y => y.modGroup g (fun x => x.modFibre l p))) t (fun y => y.modGroup g (fun x => x.modFibre l q))
      = fmod m t (fun y => y.modGroup g (fun x => x.modFibre l (fun x => q (p x)))) := by
    intro m
    rw [fmod_twice]
    congr 1
    funext y
    simp only [Team.modGroup, List.modify_twice, Group.modFibre]
  exact congrArg (fun m => ({ b with teams := m } : State)) (this b.teams)

/-- A trap into the handler, of a fibre that does not wait. -/
theorem State.takeTrap_handled {a : State} {w : Who} {t : Team} {inst : DWord} {g l : Nat} {tr : Trap} {f : Fibre} (hw : w.ops = [])
    (ht : a.team w.team = some t) (hf : a.fibre? w.team g l = some f) (hh : t.kern.trapoff.isSome = true) (h1 : f.h = false) (h2 : f.wait = none) :
    a.takeTrap w inst g l tr = (a.vaultWrite t.key (frameAddr t (g, l)) (frameImage (trapFrame w inst tr.cause tr.reason tr.taddr f))).modFibre w.team g l
      (fun x => x.trapped (trapFrame w inst tr.cause tr.reason tr.taddr f)) := by
  have hfib : a.fibre w.team g l = f := by rw [State.fibre_eq, hf]; rfl
  have hfr : f.frameFor w.clause w.idx w.count inst tr = trapFrame w inst tr.cause tr.reason tr.taddr f := rfl
  obtain ⟨o, ho⟩ := Option.isSome_iff_exists.1 hh
  unfold State.takeTrap
  rw [ht]
  have hd : a.dropOp w g l = a := by unfold State.dropOp; rw [hw]; rfl
  have htb : t.tbase = some (BitVec.ofNat 49 (t.kern.text + o)) := by unfold Team.tbase; rw [ho]; rfl
  dsimp only
  rw [hfib, hd, htb, hfr]
  dsimp only
  rw [h1, h2]
  simp only [Bool.false_eq_true, if_false, Option.isSome_none]
  rw [State.modFibre_twice]; rfl

theorem State.vaultWrite_modFibre (a : State) (k v : Nat) (bs : List Byte) (t g l : Nat) (h : Fibre → Fibre) :
    (a.modFibre t g l h).vaultWrite k v bs = (a.vaultWrite k v bs).modFibre t g l h := by
  unfold State.vaultWrite
  split <;> rfl

theorem State.vaultWrite_teams (a : State) (k v : Nat) (bs : List Byte) : (a.vaultWrite k v bs).teams = a.teams ∧ (a.vaultWrite k v bs).bundles = a.bundles ∧
    (a.vaultWrite k v bs).kills = a.kills := by
  unfold State.vaultWrite
  split <;> exact ⟨rfl, rfl, rfl⟩

/-- A change of a group beside its fibres. -/
theorem State.fibre?_modGroup_keep (s : State) (t g k m : Nat) (h : Machine.Group → Machine.Group) (hk : ∀ x, (h x).fibres = x.fibres) :
    (s.modGroup t g h).fibre? t k m = s.fibre? t k m := by
  unfold State.fibre? State.group State.modGroup State.modTeam State.team
  rw [fget_fmod, if_pos rfl]
  cases fget s.teams t with
  | none => rfl
  | some x =>
    simp only [Option.map_some, Option.bind_some, Team.modGroup, List.getElem?_modify]
    cases x.groups[k]? with
    | none => rfl
    | some y => by_cases hg : g = k <;> simp [hg, hk]

/-- A fibre that takes a trap changes no other fibre. -/
theorem State.takeTrap_other {a : State} {w : Who} {inst : DWord} {g l : Nat} {tr : Trap} {k m : Nat} (hw : w.ops = []) (hne : (g, l) ≠ (k, m)) :
    (a.takeTrap w inst g l tr).fibre? w.team k m = a.fibre? w.team k m := by
  have hd : a.dropOp w g l = a := by unfold State.dropOp; rw [hw]; rfl
  have hn : ¬ ((w.team, g, l) = (w.team, k, m)) := fun hc => hne (by simpa using hc)
  have key : ∀ (b : State) (p q : Fibre → Fibre), b.teams = a.teams → ((b.modFibre w.team g l p).modFibre w.team g l q).fibre? w.team k m = a.fibre? w.team k m := by
    intro b p q hb
    rw [State.fibre?_modFibre, if_neg hn, State.fibre?_modFibre, if_neg hn, State.fibre?_of_teams hb]
  unfold State.takeTrap
  split
  · rfl
  · dsimp only
    rw [hd]
    split
    · exact key _ _ _ (State.vaultWrite_teams _ _ _ _).1
    · split
      · exact key _ _ _ (State.vaultWrite_teams _ _ _ _).1
      · split
        · unfold State.placeNow
          dsimp only
          rw [State.fibre?_modGroup_keep, State.fibre?_modFibre, if_neg hn]
          · exact key _ _ _ (State.vaultWrite_teams _ _ _ _).1
          · intro x; split <;> rfl
        · exact key _ _ _ (State.vaultWrite_teams _ _ _ _).1

/-- Fibres that take their traps one after another. -/
theorem State.foldl_traps {w : Who} {t : Team} {inst : DWord} {s : State} (hw : w.ops = []) (hh : t.kern.trapoff.isSome = true) (tr : Nat × Nat → Trap)
    (ls : List (Nat × Nat)) (hd : ls.Nodup)
    (hin : ∀ x ∈ ls, (s.fibre? w.team x.1 x.2).isSome ∧ (s.fibre w.team x.1 x.2).h = false ∧ (s.fibre w.team x.1 x.2).wait = none) (a : State)
    (ht : ∃ t', a.team w.team = some t' ∧ t'.key = t.key ∧ t'.run0 = t.run0 ∧ t'.kern = t.kern)
    (hf : ∀ x ∈ ls, a.fibre? w.team x.1 x.2 = s.fibre? w.team x.1 x.2) :
    ls.foldl (fun (a : State) x => a.takeTrap w inst x.1 x.2 (tr x)) a =
      ls.foldl (fun (a : State) x => a.modFibre w.team x.1 x.2 (fun f => f.trapped (trapFrame w inst (tr x).cause (tr x).reason (tr x).taddr (s.fibre w.team x.1 x.2))))
        (ls.foldl (fun (a : State) x => a.vaultWrite t.key (frameAddr t x)
          (frameImage (trapFrame w inst (tr x).cause (tr x).reason (tr x).taddr (s.fibre w.team x.1 x.2)))) a) := by
  induction ls generalizing a with
  | nil => rfl
  | cons x ls ih =>
    obtain ⟨hx, hd'⟩ := List.nodup_cons.1 hd
    obtain ⟨t', e1, e2, e3, e4⟩ := ht
    obtain ⟨i1, i2, i3⟩ := hin x (by simp)
    obtain ⟨f, hfx⟩ := Option.isSome_iff_exists.1 i1
    have hsf : s.fibre w.team x.1 x.2 = f := by rw [State.fibre_eq, hfx]; rfl
    rw [hsf] at i2 i3
    simp only [List.foldl_cons]
    rw [State.takeTrap_handled hw e1 ((hf x (by simp)).trans hfx) (by rw [e4]; exact hh) i2 i3, hsf]
    have e5 : frameAddr t' (x.1, x.2) = frameAddr t x := by unfold frameAddr; rw [e3]
    rw [e5, e2]
    rw [ih hd' (fun y hy => hin y (by simp [hy])) _ ?_ ?_]
    · have comm : ∀ (ks : List (Nat × Nat)) (b : State) (p : Fibre → Fibre), ks.foldl (fun (a : State) x => a.vaultWrite t.key (frameAddr t x)
          (frameImage (trapFrame w inst (tr x).cause (tr x).reason (tr x).taddr (s.fibre w.team x.1 x.2)))) (b.modFibre w.team x.1 x.2 p) =
          (ks.foldl (fun (a : State) x => a.vaultWrite t.key (frameAddr t x)
          (frameImage (trapFrame w inst (tr x).cause (tr x).reason (tr x).taddr (s.fibre w.team x.1 x.2)))) b).modFibre w.team x.1 x.2 p := by
        intro ks
        induction ks with
        | nil => intro b p; rfl
        | cons k ks ihk => intro b p; simp only [List.foldl_cons, State.vaultWrite_modFibre]; rw [ihk]
      rw [comm]
    · have h1 : ∀ b : State, b.teams = a.teams → ∀ p : Fibre → Fibre, ∃ t', (b.modFibre w.team x.1 x.2 p).team w.team = some t' ∧ t'.key = t.key ∧ t'.run0 = t.run0 ∧ t'.kern = t.kern := by
        intro b hb p
        refine ⟨t'.modGroup x.1 (fun g => g.modFibre x.2 p), ?_, e2, e3, e4⟩
        simp only [State.team, State.modFibre, State.modGroup, State.modTeam, fget_fmod, if_true] at e1 ⊢
        rw [hb, e1]; rfl
      exact h1 _ (State.vaultWrite_teams _ _ _ _).1 _
    · intro y hy
      rw [State.fibre?_modFibre, if_neg]
      · rw [State.fibre?_of_teams (State.vaultWrite_teams _ _ _ _).1]; exact hf y (by simp [hy])
      · intro hc; simp only [Prod.mk.injEq, true_and] at hc
        have : x = y := Prod.ext hc.1 hc.2
        exact hx (this ▸ hy)

/-- What a native instruction comes to all of whose fibres take traps into the handler, each its own. -/
theorem traps_each {i : Instr} {s : State} {w : Who} {c : Ctl} {t : Team} (H : Faces s i w c t) (hd : Handled s w c t) (tr : Nat × Nat → Trap) {r : State}
    (hr : r = (s.performers w c).foldl (fun (a : State) x => a.takeTrap w w.word x.1 x.2 (tr x)) s)
    (he : exec i s = .next (s.endNative t.ctx (if r.isHeld w then r else r.countClocks w))) : TrapsEach i s w c t tr := by
  have hnd : (s.performers w c).Nodup := H.distinct.filter _
  have hfold : r = (s.performers w c).foldl (fun (a : State) x => a.modFibre w.team x.1 x.2
      (fun f => f.trapped (trapFrame w w.word (tr x).cause (tr x).reason (tr x).taddr (s.fibre w.team x.1 x.2))))
        ((s.performers w c).foldl (fun (a : State) x => a.vaultWrite t.key (frameAddr t x)
          (frameImage (trapFrame w w.word (tr x).cause (tr x).reason (tr x).taddr (s.fibre w.team x.1 x.2)))) s) := by
    rw [hr]
    refine State.foldl_traps (State.who_ops H.who) hd.handler tr (s.performers w c) hnd ?_ s ⟨t, H.team, rfl, rfl, rfl⟩ (fun _ _ => rfl)
    intro x hx
    obtain ⟨f, hf, _⟩ := H.files x (State.mem_performers hx)
    exact ⟨by rw [hf]; rfl, hd.outside x hx, hd.awake x (State.mem_performers hx)⟩
  have hv : ∀ (ls : List (Nat × Nat)) (a : State), let b := ls.foldl (fun (a : State) x => a.vaultWrite t.key (frameAddr t x)
          (frameImage (trapFrame w w.word (tr x).cause (tr x).reason (tr x).taddr (s.fibre w.team x.1 x.2)))) a
      b.teams = a.teams ∧ b.bundles = a.bundles ∧ b.kills = a.kills := by
    intro ls
    induction ls with
    | nil => intro a; exact ⟨rfl, rfl, rfl⟩
    | cons x ls ih => intro a; obtain ⟨h1, h2, h3⟩ := ih _; obtain ⟨k1, k2, k3⟩ := State.vaultWrite_teams a t.key (frameAddr t x)
                        (frameImage (trapFrame w w.word (tr x).cause (tr x).reason (tr x).taddr (s.fibre w.team x.1 x.2)))
                      exact ⟨h1.trans k1, h2.trans k2, h3.trans k3⟩
  obtain ⟨v1, v2, v3⟩ := hv (s.performers w c) s
  unfold TrapsEach
  have hm : Moves i s w c _ (fun x f => f.trapped (trapFrame w w.word (tr x).cause (tr x).reason (tr x).taddr (s.fibre w.team x.1 x.2))) :=
    moves_raw H.distinct (fun u g l => State.fibre?_of_teams v1 u g l) (by have := H.unheld; simp only [State.isHeld, v2] at this ⊢; exact this)
      (v3.trans H.quiet) (s.performers w c) hnd (fun _ => Iff.rfl) _ hfold he
  refine moves_congr ?_ hm
  intro x _ f hf
  rw [State.fibre_eq, hf]; rfl

/-- What a native instruction comes to all of whose fibres take a trap of one kind into the handler. -/
theorem traps_of {i : Instr} {s : State} {w : Who} {c : Ctl} {t : Team} (H : Faces s i w c t) (hd : Handled s w c t) (tr : Trap) {r : State}
    (hr : r = s.trapAll w tr (s.performers w c))
    (he : exec i s = .next (s.endNative t.ctx (if r.isHeld w then r else r.countClocks w))) : Traps i s w c t tr.cause tr.reason (fun _ => tr.taddr) :=
  traps_each H hd (fun _ => tr) hr he

end Sys2Proof.Machine
end

