-- ==== Sys2Proof/Laws/Performed.lean ====
section
/-!
SUPPORT. Every native instruction is performed by the bundle in focus.
-/

namespace Sys2Proof.Machine

theorem exec_native (i : Instr) (c : Ctl) (h : i.ctl = some c) (s : State) : ∃ body, exec i s = native i s body := by
  cases i with
  | nop _ => exact ⟨_, (by unfold execNop; rfl : execNop _ s = native _ s _)⟩
  | iadd _ _ _ _ _ _ => exact ⟨_, (by unfold execIadd; rfl : execIadd _ _ _ _ _ _ s = native _ s _)⟩
  | isub _ _ _ _ _ _ => exact ⟨_, (by unfold execIsub; rfl : execIsub _ _ _ _ _ _ s = native _ s _)⟩
  | imul _ _ _ _ _ _ => exact ⟨_, (by unfold execImul; rfl : execImul _ _ _ _ _ _ s = native _ s _)⟩
  | imulh _ _ _ _ _ => exact ⟨_, (by unfold execImulh; rfl : execImulh _ _ _ _ _ s = native _ s _)⟩
  | imad _ _ _ _ _ _ _ => exact ⟨_, (by unfold execImad; rfl : execImad _ _ _ _ _ _ _ s = native _ s _)⟩
  | imadw _ _ _ _ _ _ => exact ⟨_, (by unfold execImadw; rfl : execImadw _ _ _ _ _ _ s = native _ s _)⟩
  | idiv _ _ _ _ _ => exact ⟨_, (by unfold execIdiv; rfl : execIdiv _ _ _ _ _ s = native _ s _)⟩
  | irem _ _ _ _ _ => exact ⟨_, (by unfold execIrem; rfl : execIrem _ _ _ _ _ s = native _ s _)⟩
  | imin _ _ _ _ _ => exact ⟨_, (by unfold execImin; rfl : execImin _ _ _ _ _ s = native _ s _)⟩
  | imax _ _ _ _ _ => exact ⟨_, (by unfold execImax; rfl : execImax _ _ _ _ _ s = native _ s _)⟩
  | iabs _ _ _ _ _ => exact ⟨_, (by unfold execIabs; rfl : execIabs _ _ _ _ _ s = native _ s _)⟩
  | ineg _ _ _ _ _ => exact ⟨_, (by unfold execIneg; rfl : execIneg _ _ _ _ _ s = native _ s _)⟩
  | iaddi _ _ _ _ _ _ => exact ⟨_, (by unfold execIaddi; rfl : execIaddi _ _ _ _ _ _ s = native _ s _)⟩
  | icmp _ _ _ _ _ _ => exact ⟨_, (by unfold execIcmp; rfl : execIcmp _ _ _ _ _ _ s = native _ s _)⟩
  | icmpi _ _ _ _ _ _ => exact ⟨_, (by unfold execIcmpi; rfl : execIcmpi _ _ _ _ _ _ s = native _ s _)⟩
  | and _ _ _ _ _ => exact ⟨_, (by unfold execAnd; rfl : execAnd _ _ _ _ _ s = native _ s _)⟩
  | or _ _ _ _ _ => exact ⟨_, (by unfold execOr; rfl : execOr _ _ _ _ _ s = native _ s _)⟩
  | xor _ _ _ _ _ => exact ⟨_, (by unfold execXor; rfl : execXor _ _ _ _ _ s = native _ s _)⟩
  | not _ _ _ _ => exact ⟨_, (by unfold execNot; rfl : execNot _ _ _ _ s = native _ s _)⟩
  | blut3 _ _ _ _ _ _ _ => exact ⟨_, (by unfold execBlut3; rfl : execBlut3 _ _ _ _ _ _ _ s = native _ s _)⟩
  | lopi _ _ _ _ _ _ => exact ⟨_, (by unfold execLopi; rfl : execLopi _ _ _ _ _ _ s = native _ s _)⟩
  | shl _ _ _ _ _ => exact ⟨_, (by unfold execShl; rfl : execShl _ _ _ _ _ s = native _ s _)⟩
  | shr _ _ _ _ _ => exact ⟨_, (by unfold execShr; rfl : execShr _ _ _ _ _ s = native _ s _)⟩
  | sar _ _ _ _ _ => exact ⟨_, (by unfold execSar; rfl : execSar _ _ _ _ _ s = native _ s _)⟩
  | rol _ _ _ _ _ => exact ⟨_, (by unfold execRol; rfl : execRol _ _ _ _ _ s = native _ s _)⟩
  | shi _ _ _ _ _ _ => exact ⟨_, (by unfold execShi; rfl : execShi _ _ _ _ _ _ s = native _ s _)⟩
  | bfx _ _ _ _ _ => exact ⟨_, (by unfold execBfx; rfl : execBfx _ _ _ _ _ s = native _ s _)⟩
  | bfi _ _ _ _ _ => exact ⟨_, (by unfold execBfi; rfl : execBfi _ _ _ _ _ s = native _ s _)⟩
  | popc _ _ _ _ => exact ⟨_, (by unfold execPopc; rfl : execPopc _ _ _ _ s = native _ s _)⟩
  | clz _ _ _ _ => exact ⟨_, (by unfold execClz; rfl : execClz _ _ _ _ s = native _ s _)⟩
  | ctz _ _ _ _ => exact ⟨_, (by unfold execCtz; rfl : execCtz _ _ _ _ s = native _ s _)⟩
  | brev _ _ _ _ => exact ⟨_, (by unfold execBrev; rfl : execBrev _ _ _ _ s = native _ s _)⟩
  | permb _ _ _ _ _ => exact ⟨_, (by unfold execPermb; rfl : execPermb _ _ _ _ _ s = native _ s _)⟩
  | lea _ _ _ _ _ _ => exact ⟨_, (by unfold execLea; rfl : execLea _ _ _ _ _ _ s = native _ s _)⟩
  | sel _ _ _ _ _ _ _ => exact ⟨_, (by unfold execSel; rfl : execSel _ _ _ _ _ _ _ s = native _ s _)⟩
  | plop _ _ _ _ _ _ => exact ⟨_, (by unfold execPlop; rfl : execPlop _ _ _ _ _ _ s = native _ s _)⟩
  | mov _ _ _ _ => exact ⟨_, (by unfold execMov; rfl : execMov _ _ _ _ s = native _ s _)⟩
  | movi _ _ _ _ => exact ⟨_, (by unfold execMovi; rfl : execMovi _ _ _ _ s = native _ s _)⟩
  | movxRd _ _ _ _ _ => exact ⟨_, (by unfold execMovxRd; rfl : execMovxRd _ _ _ _ _ s = native _ s _)⟩
  | movxWr _ _ _ _ _ => exact ⟨_, (by unfold execMovxWr; rfl : execMovxWr _ _ _ _ _ s = native _ s _)⟩
  | srd _ _ _ _ => exact ⟨_, (by unfold execSrd; rfl : execSrd _ _ _ _ s = native _ s _)⟩
  | swr _ _ => exact ⟨_, (by unfold execSwr; rfl : execSwr _ _ s = native _ s _)⟩
  | fadd _ _ _ _ _ _ _ => exact ⟨_, (by unfold execFadd; rfl : execFadd _ _ _ _ _ _ _ s = native _ s _)⟩
  | fsub _ _ _ _ _ _ _ => exact ⟨_, (by unfold execFsub; rfl : execFsub _ _ _ _ _ _ _ s = native _ s _)⟩
  | fmul _ _ _ _ _ _ _ => exact ⟨_, (by unfold execFmul; rfl : execFmul _ _ _ _ _ _ _ s = native _ s _)⟩
  | ffma _ _ _ _ _ _ _ _ => exact ⟨_, (by unfold execFfma; rfl : execFfma _ _ _ _ _ _ _ _ s = native _ s _)⟩
  | fmin _ _ _ _ _ _ => exact ⟨_, (by unfold execFmin; rfl : execFmin _ _ _ _ _ _ s = native _ s _)⟩
  | fmax _ _ _ _ _ _ => exact ⟨_, (by unfold execFmax; rfl : execFmax _ _ _ _ _ _ s = native _ s _)⟩
  | fcmp _ _ _ _ _ _ _ _ => exact ⟨_, (by unfold execFcmp; rfl : execFcmp _ _ _ _ _ _ _ _ s = native _ s _)⟩
  | fclass _ _ _ _ _ => exact ⟨_, (by unfold execFclass; rfl : execFclass _ _ _ _ _ s = native _ s _)⟩
  | frnd _ _ _ _ _ _ => exact ⟨_, (by unfold execFrnd; rfl : execFrnd _ _ _ _ _ _ s = native _ s _)⟩
  | fscale _ _ _ _ _ _ _ => exact ⟨_, (by unfold execFscale; rfl : execFscale _ _ _ _ _ _ _ s = native _ s _)⟩
  | fgetexp _ _ _ _ _ => exact ⟨_, (by unfold execFgetexp; rfl : execFgetexp _ _ _ _ _ s = native _ s _)⟩
  | fgetman _ _ _ _ _ => exact ⟨_, (by unfold execFgetman; rfl : execFgetman _ _ _ _ _ s = native _ s _)⟩
  | fdot2 _ _ _ _ _ _ _ _ => exact ⟨_, (by unfold execFdot2; rfl : execFdot2 _ _ _ _ _ _ _ _ s = native _ s _)⟩
  | cvt _ _ _ _ _ _ _ _ => exact ⟨_, (by unfold execCvt; rfl : execCvt _ _ _ _ _ _ _ _ s = native _ s _)⟩
  | pack _ _ _ _ _ _ _ => exact ⟨_, (by unfold execPack; rfl : execPack _ _ _ _ _ _ _ s = native _ s _)⟩
  | unpack _ _ _ _ => exact ⟨_, (by unfold execUnpack; rfl : execUnpack _ _ _ _ s = native _ s _)⟩
  | bra _ _ _ => exact ⟨_, (by unfold execBra; rfl : execBra _ _ _ s = native _ s _)⟩
  | brx _ _ _ => exact ⟨_, (by unfold execBrx; rfl : execBrx _ _ _ s = native _ s _)⟩
  | call _ _ _ => exact ⟨_, (by unfold execCall; rfl : execCall _ _ _ s = native _ s _)⟩
  | callx _ _ _ => exact ⟨_, (by unfold execCallx; rfl : execCallx _ _ _ s = native _ s _)⟩
  | ret _ _ => exact ⟨_, (by unfold execRet; rfl : execRet _ _ s = native _ s _)⟩
  | lpad _ _ => exact ⟨_, (by unfold execLpad; rfl : execLpad _ _ s = native _ s _)⟩
  | loop _ _ _ => exact ⟨_, (by unfold execLoop; rfl : execLoop _ _ _ s = native _ s _)⟩
  | lbrk _ _ => exact ⟨_, (by unfold execLbrk; rfl : execLbrk _ _ s = native _ s _)⟩
  | spawn _ _ _ _ => exact ⟨_, (by unfold execSpawn; rfl : execSpawn _ _ _ _ s = native _ s _)⟩
  | exit _ => exact ⟨_, (by unfold execExit; rfl : execExit _ s = native _ s _)⟩
  | yield _ => exact ⟨_, (by unfold execYield; rfl : execYield _ s = native _ s _)⟩
  | bkpt _ _ => exact ⟨_, (by unfold execBkpt; rfl : execBkpt _ _ s = native _ s _)⟩
  | trap _ _ => exact ⟨_, (by unfold execTrap; rfl : execTrap _ _ s = native _ s _)⟩
  | rcp _ _ _ _ _ => exact ⟨_, (by unfold execRcp; rfl : execRcp _ _ _ _ _ s = native _ s _)⟩
  | rsq _ _ _ _ _ => exact ⟨_, (by unfold execRsq; rfl : execRsq _ _ _ _ _ s = native _ s _)⟩
  | sqrt _ _ _ _ _ => exact ⟨_, (by unfold execSqrt; rfl : execSqrt _ _ _ _ _ s = native _ s _)⟩
  | fdiv _ _ _ _ _ _ => exact ⟨_, (by unfold execFdiv; rfl : execFdiv _ _ _ _ _ _ s = native _ s _)⟩
  | ex2 _ _ _ _ _ => exact ⟨_, (by unfold execEx2; rfl : execEx2 _ _ _ _ _ s = native _ s _)⟩
  | lg2 _ _ _ _ _ => exact ⟨_, (by unfold execLg2; rfl : execLg2 _ _ _ _ _ s = native _ s _)⟩
  | sinpi _ _ _ _ _ => exact ⟨_, (by unfold execSinpi; rfl : execSinpi _ _ _ _ _ s = native _ s _)⟩
  | cospi _ _ _ _ _ => exact ⟨_, (by unfold execCospi; rfl : execCospi _ _ _ _ _ s = native _ s _)⟩
  | tanh _ _ _ _ _ => exact ⟨_, (by unfold execTanh; rfl : execTanh _ _ _ _ _ s = native _ s _)⟩
  | rand _ _ _ _ _ _ => exact ⟨_, (by unfold execRand; rfl : execRand _ _ _ _ _ _ s = native _ s _)⟩
  | lxch _ _ _ _ _ _ _ _ => exact ⟨_, (by unfold execLxch; rfl : execLxch _ _ _ _ _ _ _ _ s = native _ s _)⟩
  | vote _ _ _ _ _ _ => exact ⟨_, (by unfold execVote; rfl : execVote _ _ _ _ _ _ s = native _ s _)⟩
  | matchx _ _ _ _ _ => exact ⟨_, (by unfold execMatchx; rfl : execMatchx _ _ _ _ _ s = native _ s _)⟩
  | xred _ _ _ _ _ _ => exact ⟨_, (by unfold execXred; rfl : execXred _ _ _ _ _ _ s = native _ s _)⟩
  | xscan _ _ _ _ _ _ _ => exact ⟨_, (by unfold execXscan; rfl : execXscan _ _ _ _ _ _ _ s = native _ s _)⟩
  | lanemap _ _ _ => exact ⟨_, (by unfold execLanemap; rfl : execLanemap _ _ _ s = native _ s _)⟩
  | lanemapRd _ _ => exact ⟨_, (by unfold execLanemapRd; rfl : execLanemapRd _ _ s = native _ s _)⟩
  | active _ _ => exact ⟨_, (by unfold execActive; rfl : execActive _ _ s = native _ s _)⟩
  | elect _ _ _ => exact ⟨_, (by unfold execElect; rfl : execElect _ _ _ s = native _ s _)⟩
  | ld _ _ _ _ => exact ⟨_, (by unfold execLd; rfl : execLd _ _ _ _ s = native _ s _)⟩
  | st _ _ _ _ => exact ⟨_, (by unfold execSt; rfl : execSt _ _ _ _ s = native _ s _)⟩
  | prefL1 _ _ _ _ _ => exact ⟨_, (by unfold execPrefL1; rfl : execPrefL1 _ _ _ _ _ s = native _ s _)⟩
  | prefL2 _ _ _ _ _ => exact ⟨_, (by unfold execPrefL2; rfl : execPrefL2 _ _ _ _ _ s = native _ s _)⟩
  | cmaintWb _ _ _ _ _ => exact ⟨_, (by unfold execCmaintWb; rfl : execCmaintWb _ _ _ _ _ s = native _ s _)⟩
  | cmaintWbinv _ _ _ _ _ => exact ⟨_, (by unfold execCmaintWbinv; rfl : execCmaintWbinv _ _ _ _ _ s = native _ s _)⟩
  | cmaintWbmem _ _ _ _ _ => exact ⟨_, (by unfold execCmaintWbmem; rfl : execCmaintWbmem _ _ _ _ _ s = native _ s _)⟩
  | fence _ _ _ _ => exact ⟨_, (by unfold execFence; rfl : execFence _ _ _ _ s = native _ s _)⟩
  | acqr _ _ _ => exact ⟨_, (by unfold execAcqr; rfl : execAcqr _ _ _ s = native _ s _)⟩
  | acpy _ _ _ _ _ _ => exact ⟨_, (by unfold execAcpy; rfl : execAcpy _ _ _ _ _ _ s = native _ s _)⟩
  | mcpy _ _ _ _ _ => exact ⟨_, (by unfold execMcpy; rfl : execMcpy _ _ _ _ _ s = native _ s _)⟩
  | tbarInit _ _ _ _ _ => exact ⟨_, (by unfold execTbarInit; rfl : execTbarInit _ _ _ _ _ s = native _ s _)⟩
  | tbarArrive _ _ _ _ => exact ⟨_, (by unfold execTbarArrive; rfl : execTbarArrive _ _ _ _ s = native _ s _)⟩
  | tbarArriveSect _ _ _ _ _ => exact ⟨_, (by unfold execTbarArriveSect; rfl : execTbarArriveSect _ _ _ _ _ s = native _ s _)⟩
  | tbarSect _ _ _ _ _ => exact ⟨_, (by unfold execTbarSect; rfl : execTbarSect _ _ _ _ _ s = native _ s _)⟩
  | tbarWait _ _ _ _ _ => exact ⟨_, (by unfold execTbarWait; rfl : execTbarWait _ _ _ _ _ s = native _ s _)⟩
  | tbarTest _ _ _ _ _ => exact ⟨_, (by unfold execTbarTest; rfl : execTbarTest _ _ _ _ _ s = native _ s _)⟩
  | atom _ _ _ _ _ _ _ => exact ⟨_, (by unfold execAtom; rfl : execAtom _ _ _ _ _ _ _ s = native _ s _)⟩
  | atomn _ _ _ _ _ _ _ => exact ⟨_, (by unfold execAtomn; rfl : execAtomn _ _ _ _ _ _ _ s = native _ s _)⟩
  | acas _ _ _ _ _ _ => exact ⟨_, (by unfold execAcas; rfl : execAcas _ _ _ _ _ _ s = native _ s _)⟩
  | exsum _ _ _ _ _ => exact ⟨_, (by unfold execExsum; rfl : execExsum _ _ _ _ _ s = native _ s _)⟩
  | excvt _ _ _ _ _ _ _ => exact ⟨_, (by unfold execExcvt; rfl : execExcvt _ _ _ _ _ _ _ s = native _ s _)⟩
  | waitc _ _ _ _ _ _ => exact ⟨_, (by unfold execWaitc; rfl : execWaitc _ _ _ _ _ _ s = native _ s _)⟩
  | llock _ _ _ _ _ => exact ⟨_, (by unfold execLlock; rfl : execLlock _ _ _ _ _ s = native _ s _)⟩
  | lunlk _ _ _ _ _ => exact ⟨_, (by unfold execLunlk; rfl : execLunlk _ _ _ _ _ s = native _ s _)⟩
  | ltry _ _ _ _ _ => exact ⟨_, (by unfold execLtry; rfl : execLtry _ _ _ _ _ s = native _ s _)⟩
  | lstat _ _ _ _ => exact ⟨_, (by unfold execLstat; rfl : execLstat _ _ _ _ s = native _ s _)⟩
  | bar _ _ _ _ _ _ _ _ => exact ⟨_, (by unfold execBar; rfl : execBar _ _ _ _ _ _ _ _ s = native _ s _)⟩
  | cbar _ _ _ _ _ _ _ _ => exact ⟨_, (by unfold execCbar; rfl : execCbar _ _ _ _ _ _ _ _ s = native _ s _)⟩
  | mxm _ _ _ _ => exact ⟨_, (by unfold execMxm; rfl : execMxm _ _ _ _ s = native _ s _)⟩
  | mxldZero _ _ _ _ => exact ⟨_, (by unfold execMxldZero; rfl : execMxldZero _ _ _ _ s = native _ s _)⟩
  | mxldFill _ _ _ _ _ => exact ⟨_, (by unfold execMxldFill; rfl : execMxldFill _ _ _ _ _ s = native _ s _)⟩
  | mxldRestore _ _ _ _ _ _ => exact ⟨_, (by unfold execMxldRestore; rfl : execMxldRestore _ _ _ _ _ _ s = native _ s _)⟩
  | mxst _ _ _ _ _ => exact ⟨_, (by unfold execMxst; rfl : execMxst _ _ _ _ _ s = native _ s _)⟩
  | mxwait _ _ => exact ⟨_, (by unfold execMxwait; rfl : execMxwait _ _ s = native _ s _)⟩
  | mstat _ _ _ _ => exact ⟨_, (by unfold execMstat; rfl : execMstat _ _ _ _ s = native _ s _)⟩
  | sshape _ _ _ => exact ⟨_, (by unfold execSshape; rfl : execSshape _ _ _ s = native _ s _)⟩
  | sshapeRd _ _ _ => exact ⟨_, (by unfold execSshapeRd; rfl : execSshapeRd _ _ _ s = native _ s _)⟩
  | strmOpen _ _ _ => exact ⟨_, (by unfold execStrmOpen; rfl : execStrmOpen _ _ _ s = native _ s _)⟩
  | strmSub _ _ _ _ _ => exact ⟨_, (by unfold execStrmSub; rfl : execStrmSub _ _ _ _ _ s = native _ s _)⟩
  | strmUnsub _ _ => exact ⟨_, (by unfold execStrmUnsub; rfl : execStrmUnsub _ _ s = native _ s _)⟩
  | strmClose _ _ => exact ⟨_, (by unfold execStrmClose; rfl : execStrmClose _ _ s = native _ s _)⟩
  | taskpost _ _ _ _ _ => exact ⟨_, (by unfold execTaskpost; rfl : execTaskpost _ _ _ _ _ s = native _ s _)⟩
  | taskseq _ _ _ => exact ⟨_, (by unfold execTaskseq; rfl : execTaskseq _ _ _ s = native _ s _)⟩
  | taskseqWait _ _ _ => exact ⟨_, (by unfold execTaskseqWait; rfl : execTaskseqWait _ _ _ s = native _ s _)⟩
  | coll _ _ _ _ => exact ⟨_, (by unfold execColl; rfl : execColl _ _ _ _ s = native _ s _)⟩
  | dxsync _ _ => exact ⟨_, (by unfold execDxsync; rfl : execDxsync _ _ s = native _ s _)⟩
  | dxq _ _ _ => exact ⟨_, (by unfold execDxq; rfl : execDxq _ _ _ s = native _ s _)⟩
  | tret _ _ _ => exact ⟨_, (by unfold execTret; rfl : execTret _ _ _ s = native _ s _)⟩
  | tretSkip _ _ _ => exact ⟨_, (by unfold execTretSkip; rfl : execTretSkip _ _ _ s = native _ s _)⟩
  | caps _ _ _ _ => exact ⟨_, (by unfold execCaps; rfl : execCaps _ _ _ _ s = native _ s _)⟩
  | elogSync _ => exact ⟨_, (by unfold execElogSync; rfl : execElogSync _ s = native _ s _)⟩
  | elogCnt _ _ => exact ⟨_, (by unfold execElogCnt; rfl : execElogCnt _ _ s = native _ s _)⟩
  | elogPut _ _ _ => exact ⟨_, (by unfold execElogPut; rfl : execElogPut _ _ _ s = native _ s _)⟩
  | tlbiAll _ => exact ⟨_, (by unfold execTlbiAll; rfl : execTlbiAll _ s = native _ s _)⟩
  | tlbiVa _ _ => exact ⟨_, (by unfold execTlbiVa; rfl : execTlbiVa _ _ s = native _ s _)⟩
  | tlbiPart _ => exact ⟨_, (by unfold execTlbiPart; rfl : execTlbiPart _ s = native _ s _)⟩
  | protld _ _ _ _ => exact ⟨_, (by unfold execProtld; rfl : execProtld _ _ _ _ s = native _ s _)⟩
  | objdecl _ _ _ _ => exact ⟨_, (by unfold execObjdecl; rfl : execObjdecl _ _ _ _ s = native _ s _)⟩
  | objrel _ _ _ => exact ⟨_, (by unfold execObjrel; rfl : execObjrel _ _ _ s = native _ s _)⟩
  | div64 _ _ _ _ _ => exact ⟨_, (by unfold execDiv64; rfl : execDiv64 _ _ _ _ _ s = native _ s _)⟩
  | rem64 _ _ _ _ _ => exact ⟨_, (by unfold execRem64; rfl : execRem64 _ _ _ _ _ s = native _ s _)⟩
  | mulh64 _ _ _ _ _ => exact ⟨_, (by unfold execMulh64; rfl : execMulh64 _ _ _ _ _ s = native _ s _)⟩
  | crcb _ _ _ _ _ => exact ⟨_, (by unfold execCrcb; rfl : execCrcb _ _ _ _ _ s = native _ s _)⟩
  | bundleSeed _ _ => cases h
  | clauseFetch _ => cases h
  | clauseBoundary _ => cases h
  | fairnessTimerExpiry _ _ => cases h
  | readyButWaiting _ _ => cases h
  | xlnExitCompletion _ _ => cases h
  | eventRecordExpiry _ _ => cases h
  | operationComplete _ => cases h
  | faultRecordPost _ => cases h
  | answerRetry _ _ => cases h
  | answerFail _ _ => cases h
  | badtagClear _ => cases h
  | faultQueueEnable _ _ => cases h
  | sliceRequestEnqueue _ _ => cases h
  | homeStorePerformed _ _ _ _ => cases h
  | monitorReread _ _ _ => cases h
  | waitcTimeout _ _ _ => cases h
  | atomicRequestAtHome _ => cases h
  | sluiceSectorLand _ _ _ _ => cases h
  | acqrWriteback _ => cases h
  | matrixOpComplete _ _ => cases h
  | causewayDataArrive _ _ => cases h
  | staitheTileDeliver _ _ _ => cases h
  | lockRequestAtHome _ => cases h
  | unlockAtHome _ => cases h
  | lockTimeout _ _ => cases h
  | deadlockProbe _ _ => cases h
  | absenceArrive _ _ => cases h
  | presenceArrive _ _ => cases h
  | lockholdMaxExpiry _ => cases h
  | rd _ _ _ => cases h
  | wr0 _ _ _ => cases h
  | wr1 _ _ _ => cases h
  | evc _ _ _ _ => cases h
  | wb _ _ _ _ _ => cases h
  | ack _ _ _ => cases h
  | staleMessage _ _ _ _ => cases h
  | hostMemoryAccess _ => cases h
  | bisnpResponse _ _ => cases h
  | hostLineWrite _ _ => cases h
  | retentionEnter _ _ => cases h
  | retentionWake _ _ => cases h
  | queueEnable _ _ => cases h
  | queueDisable _ _ => cases h
  | qtailWrite _ _ => cases h
  | registerWrite _ _ _ => cases h
  | commit _ => cases h
  | oversubClear _ => cases h
  | resume _ => cases h
  | drain _ => cases h
  | kill _ => cases h
  | lkcntClear _ => cases h
  | staleCountersClear _ => cases h
  | errorCountersClear _ => cases h
  | declare _ _ => cases h
  | replaysClear _ => cases h
  | bootGo _ => cases h
  | attestGo => cases h
  | reset _ _ => cases h
  | codeObjectLoad _ _ => cases h
  | walkRecord _ => cases h
  | linkFollow _ => cases h
  | taskDistribute _ => cases h
  | clusterPlace _ => cases h
  | preemptDecision _ => cases h
  | reclaimComplete _ _ => cases h
  | blockClearDone _ _ _ => cases h
  | taskRetire _ => cases h
  | taskFault _ => cases h
  | swapwaitExpiry _ => cases h
  | teamSave _ => cases h
  | teamRestore _ => cases h
  | teamRetire _ => cases h
  | quantumCommit _ => cases h
  | collectiveStart _ _ => cases h
  | collectiveComplete _ _ _ => cases h
  | ualinkRequest _ _ => cases h
  | linkTraining _ _ _ => cases h
  | flitReplay _ _ => cases h
  | laneRetire _ _ => cases h
  | retrainDone _ => cases h
  | linkReplayTimeout _ _ => cases h
  | selfTestFail _ _ => cases h
  | throttleStep => cases h
  | partitionStop => cases h
  | unthrottleStep => cases h
  | thermalTrip _ => cases h
  | scrub _ _ _ _ => cases h
  | bankSpareCopy _ _ _ => cases h
  | l2WayReplace _ _ _ => cases h
  | coreRepair _ _ => cases h

/-! ### Checks that the performing fibres fail, and returns from a trap -/

theorem room_of_faces {s : State} {i : Instr} {w : Who} {c : Ctl} {t : Team} (H : Faces s i w c t) :
    (c.counted && (groupsOf (s.performers w c)).any (t.noRoom c.sbi.toNat)) = false := by
  by_cases hc : c.counted = true
  · simp only [hc, Bool.true_and, List.any_eq_false]
    intro g hg
    simp [H.room hc g hg]
  · simp [hc]

/-- An ILLEGAL instruction: all of its fibres trap. -/
theorem native_illegal {s : State} {i : Instr} {w : Who} {c : Ctl} {t : Team} (H : Faces s i w c t) (hi : s.illegal i w = true) (body : Who → State → State) :
    native i s body = .next (s.endNative t.ctx ((s.trapAll w .illegal (s.performers w c)).countClocks w)) := by
  unfold native
  simp only [H.who, H.ctl, H.team, room_of_faces H, hi, Bool.false_eq_true, if_false, if_true]

/-- Checks that all the performing fibres fail, each its own: none performs the instruction. -/
theorem native_failed_each {s : State} {i : Instr} {w : Who} {c : Ctl} {t : Team} (H : Stands s i w c t) (tr : Nat × Nat → Trap)
    (hv : ∀ x ∈ s.performers w c, s.verdict i c t w x = some (tr x)) (body : Who → State → State) :
    native i s body = (let r := (s.performers w c).foldl (fun (a : State) x => a.takeTrap w w.word x.1 x.2 (tr x)) s
      .next (s.endNative t.ctx (if r.isHeld w then r else r.countClocks w))) := by
  have hfold : ∀ (ls : List (Nat × Nat)) (a : State), (∀ x ∈ ls, s.verdict i c t w x = some (tr x)) →
      (ls.map (fun x => (x, s.verdict i c t w x))).foldl (fun a x => a.trapIf w x) a = ls.foldl (fun (a : State) x => a.takeTrap w w.word x.1 x.2 (tr x)) a := by
    intro ls
    induction ls with
    | nil => intro a _; rfl
    | cons x ls ih =>
      intro a h
      simp only [List.map_cons, List.foldl_cons, h x (by simp), State.trapIf]
      exact ih _ (fun y hy => h y (by simp [hy]))
  have hgood : ∀ (ls : List (Nat × Nat)), (∀ x ∈ ls, s.verdict i c t w x = some (tr x)) →
      ((ls.map (fun x => (x, s.verdict i c t w x))).filter (fun x => x.2.isNone)).map (·.1) = [] := by
    intro ls
    induction ls with
    | nil => intro _; rfl
    | cons x ls ih =>
      intro h
      have h1 := h x (by simp)
      have h2 := ih (fun y hy => h y (by simp [hy]))
      simpa [h1] using h2
  unfold native
  simp only [H.who, H.ctl, H.team, room_of_faces H.toFaces, H.legal, hfold _ s hv, hgood _ hv, Bool.false_eq_true, if_false, List.isEmpty_nil, if_true]

/-- A check that all the performing fibres fail: none performs the instruction. -/
theorem native_failed {s : State} {i : Instr} {w : Who} {c : Ctl} {t : Team} (H : Stands s i w c t) (tr : Trap)
    (hv : ∀ x ∈ s.performers w c, s.verdict i c t w x = some tr) (body : Who → State → State) :
    native i s body = (let r := s.trapAll w tr (s.performers w c)
      .next (s.endNative t.ctx (if r.isHeld w then r else r.countClocks w))) := native_failed_each H (fun _ => tr) hv body

theorem illegal_faces {i : Instr} {s : State} {w : Who} {c : Ctl} {t : Team} (H : Faces s i w c t) (hd : Handled s w c t) (hi : s.illegal i w = true)
    {body : Who → State → State} (he : exec i s = native i s body) : Traps i s w c t 1 0 (fun _ => 0) := by
  refine traps_of H hd .illegal rfl ?_
  rw [he, native_illegal H hi]
  have hnd : (s.performers w c).Nodup := H.distinct.filter _
  have hfold := State.foldl_traps (inst := w.word) (State.who_ops H.who) hd.handler (fun _ => Trap.illegal) (s.performers w c) hnd (fun x hx => by
    obtain ⟨f, hf, _⟩ := H.files x (State.mem_performers hx)
    exact ⟨by rw [hf]; rfl, hd.outside x hx, hd.awake x (State.mem_performers hx)⟩) s ⟨t, H.team, rfl, rfl, rfl⟩ (fun _ _ => rfl)
  have hb : (s.trapAll w .illegal (s.performers w c)).bundles = s.bundles := by
    unfold State.trapAll
    rw [hfold]
    refine (State.husk_facts (State.husk_foldl _ w.team _ _)).1.trans ?_
    exact State.foldl_keeps (·.bundles) _ (fun (a : State) x => a.vaultWrite t.key (frameAddr t x) _) (fun a x => (State.vaultWrite_teams a _ _ _).2.1) s
  rw [if_neg]
  have := H.unheld
  simp only [State.isHeld, hb] at this ⊢
  simp [this]

theorem foldl_set_mapIdx (keep : BitVec 8) (v : List Word) (m : Nat) (r : List Word) :
    (List.range m).foldl (fun (r : List Word) n => if keep.getLsbD n then r else r.set n (v.getD n 0)) r
      = r.mapIdx (fun n x => if n < m ∧ keep.getLsbD n = false then v.getD n 0 else x) := by
  induction m with
  | zero =>
    simp only [List.range_zero, List.foldl_nil, Nat.not_lt_zero, false_and, if_false]
    apply List.ext_getElem?; intro n; rw [List.getElem?_mapIdx]; cases r[n]? <;> rfl
  | succ m ih =>
    rw [List.range_succ, List.foldl_append, ih]
    simp only [List.foldl_cons, List.foldl_nil]
    apply List.ext_getElem?
    intro n
    cases hk : keep.getLsbD m with
    | true =>
      simp only [if_true, List.getElem?_mapIdx]
      cases r[n]? with
      | none => rfl
      | some x =>
        simp only [Option.map_some, Option.some.injEq]
        by_cases hn : n = m
        · subst hn; simp [hk]
        · have : (n < m + 1) ↔ n < m := by omega
          simp only [this]
    | false =>
      simp only [Bool.false_eq_true, if_false, List.getElem?_set, List.getElem?_mapIdx, List.length_mapIdx]
      by_cases hn : m = n
      · subst hn
        simp only [if_true]
        by_cases hl : m < r.length
        · simp [hl, hk]
        · simp [hl]
      · simp only [hn, if_false]
        have : (n < m + 1) ↔ n < m := by omega
        simp only [this]

theorem trapReturn_eq (f : Fibre) (keep : BitVec 8) (keepPw : Bool) (pc : VAddr) (idx : Nat) :
    f.trapReturn keep keepPw pc idx = { f.restored keep keepPw with leave := .resume pc idx } := by
  unfold Fibre.trapReturn Fibre.restored
  dsimp only
  rw [foldl_set_mapIdx keep f.frame.v 8 f.regs]
  try rfl

theorem inner_leave (f : Fibre) (v : Leave) : ({ f with leave := v } : Fibre).inner = f.inner := rfl

theorem bodyExit_leave (n : Nat) (f : Fibre) (v : Leave) (a : VAddr) :
    Fibre.bodyExit n { f with leave := v } a = { Fibre.bodyExit n f a with leave := v } := by
  induction n generalizing f with
  | zero => rfl
  | succ n ih =>
    unfold Fibre.bodyExit
    rw [inner_leave]
    cases f.inner with
    | none => rfl
    | some x =>
      dsimp only
      split
      · rfl
      · exact ih f.closeLevel

theorem loopEnd_leave (n : Nat) (f : Fibre) (v : Leave) (a : VAddr) :
    Fibre.loopEnd n { f with leave := v } a = ({ (Fibre.loopEnd n f a).1 with leave := v }, (Fibre.loopEnd n f a).2) := by
  induction n generalizing f with
  | zero => rfl
  | succ n ih =>
    unfold Fibre.loopEnd
    rw [inner_leave]
    cases f.inner with
    | none => rfl
    | some x =>
      dsimp only
      split
      · split
        · rfl
        · exact ih { f with lc := f.lc.set (f.nest - 1) (f.lc.getD (f.nest - 1) 0 - 1) }.closeLevel
      · rfl

/-- Falling through does not depend on where the fibre left its clause to. -/
theorem fallTo_leave (f : Fibre) (v : Leave) (a : VAddr) :
    ({ f with leave := v } : Fibre).fallTo a = ({ (f.fallTo a).1 with leave := v }, (f.fallTo a).2) := by
  unfold Fibre.fallTo
  rw [loopEnd_leave]
  dsimp only
  rw [bodyExit_leave]

/-! ### Faults of the control instructions, and free lanes -/

/-- An instruction whose own meaning is a trap of every performing fibre. -/
theorem traps_self {i : Instr} {s : State} {w : Who} {c : Ctl} {t : Team} (H : Issues s i w c t) (hd : Handled s w c t) (tr : Trap)
    (h : Who → Fibre → Except Trap Fibre) (he : exec i s = native i s (fun w s => eachFibre w s (h w)))
    (hv : ∀ x ∈ s.performers w c, h (w.by (s.performers w c)) (s.fibre w.team x.1 x.2) = .error tr) : Traps i s w c t tr.cause tr.reason (fun _ => tr.taddr) := by
  refine traps_of H.toFaces hd tr rfl ?_
  rw [he, native_of_issues H]
  by_cases hp : s.performers w c = []
  · rw [hp]; rfl
  · have : (s.performers w c).isEmpty = false := by simpa using hp
    rw [this]
    have key : ∀ (ls : List (Nat × Nat)), ls.Nodup → (∀ x ∈ ls, x ∈ s.performers w c) → ∀ a : State,
        (∀ x ∈ ls, a.fibre? w.team x.1 x.2 = s.fibre? w.team x.1 x.2) → (∃ t', a.team w.team = some t' ∧ t'.key = t.key ∧ t'.run0 = t.run0 ∧ t'.kern = t.kern) →
        ls.foldl (fun (a : State) x => match h (w.by (s.performers w c)) (a.fibre w.team x.1 x.2) with
          | .ok f => a.modFibre w.team x.1 x.2 (fun _ => f)
          | .error tr => a.takeTrap (w.by (s.performers w c)) w.word x.1 x.2 tr) a = a.trapAll w tr ls := by
      intro ls
      induction ls with
      | nil => intro _ _ a _ _; rfl
      | cons x ls ih =>
        intro hn hin a hf ht
        obtain ⟨hx, hn'⟩ := List.nodup_cons.1 hn
        have hfx : a.fibre w.team x.1 x.2 = s.fibre w.team x.1 x.2 := State.fibre_of_fibre? (hf x (by simp))
        have hxp := hin x (by simp)
        obtain ⟨f, hff, _⟩ := H.files x (State.mem_performers hxp)
        obtain ⟨t', e1, e2, e3, e4⟩ := ht
        have hff' : s.fibre w.team x.1 x.2 = f := by rw [State.fibre_eq, hff]; rfl
        have hstep := State.takeTrap_handled (inst := w.word) (tr := tr) (State.who_ops H.who) e1 ((hf x (by simp)).trans hff) (by rw [e4]; exact hd.handler)
          (by rw [← hff']; exact hd.outside x hxp) (by rw [← hff']; exact hd.awake x (State.mem_performers hxp))
        simp only [List.foldl_cons, hfx, hv x hxp, State.trapAll]
        have hby : a.takeTrap (w.by (s.performers w c)) w.word x.1 x.2 tr = a.takeTrap w w.word x.1 x.2 tr := rfl
        rw [hby]
        refine ih hn' (fun y hy => hin y (by simp [hy])) _ ?_ ?_
        · intro y hy
          rw [hstep, State.fibre?_modFibre, if_neg]
          · rw [State.fibre?_of_teams (State.vaultWrite_teams _ _ _ _).1]; exact hf y (by simp [hy])
          · intro hc; simp only [Prod.mk.injEq, true_and] at hc
            exact hx ((Prod.ext hc.1 hc.2 : x = y) ▸ hy)
        · rw [hstep]
          have h1 : ∀ b : State, b.teams = a.teams → ∀ p : Fibre → Fibre, ∃ t', (b.modFibre w.team x.1 x.2 p).team w.team = some t' ∧ t'.key = t.key ∧ t'.run0 = t.run0 ∧ t'.kern = t.kern := by
            intro b hb p
            refine ⟨t'.modGroup x.1 (fun g => g.modFibre x.2 p), ?_, e2, e3, e4⟩
            simp only [State.team, State.modFibre, State.modGroup, State.modTeam, fget_fmod, if_true] at e1 ⊢
            rw [hb, e1]; rfl
          exact h1 _ (State.vaultWrite_teams _ _ _ _).1 _
    have := key (s.performers w c) (H.distinct.filter _) (fun _ h => h) s (fun _ _ => rfl) ⟨t, H.team, rfl, rfl, rfl⟩
    have hx : eachFibre (w.by (s.performers w c)) s (h (w.by (s.performers w c))) = s.trapAll w tr (s.performers w c) := this
    simp only [Bool.false_eq_true, if_false]
    rw [hx]

theorem spawn_lane {y : Machine.Group} {n : Nat} {old : Fibre} (hn : n < 32) (h1 : y.fibres[n]? = some old) (h2 : old.live = false) (h3 : old.busy = 0)
    (h4 : y.dxgone.getLsbD n = false)
    (hm : ∀ m < n, ∀ x, ¬ (y.fibres[m]? = some x ∧ x.live = false ∧ x.busy = 0 ∧ y.dxgone.getLsbD m = false)) : y.freeLane = some n := by
  unfold Group.freeLane
  rw [List.find?_range_eq_some]
  refine ⟨by rw [h1]; simp [h2, h3, h4], List.mem_range.2 hn, ?_⟩
  intro m hmn
  cases hx : y.fibres[m]? with
  | none => rfl
  | some x =>
    have := hm m hmn x
    rw [hx] at this
    simp only [true_and, not_and, Bool.not_eq_false] at this
    simp only [Bool.not_eq_true', Bool.and_eq_false_imp, Bool.and_eq_true, decide_eq_true_eq, Bool.not_eq_false']
    rintro ⟨k1, k2⟩
    exact this (by simpa using k1) k2

theorem spawn_none {y : Machine.Group} (hm : ∀ m x, ¬ (y.fibres[m]? = some x ∧ x.live = false ∧ x.busy = 0 ∧ y.dxgone.getLsbD m = false)) : y.freeLane = none := by
  unfold Group.freeLane
  rw [List.find?_eq_none]
  intro m _
  cases hx : y.fibres[m]? with
  | none => simp
  | some x =>
    have := hm m x
    rw [hx] at this
    simp only [true_and, not_and, Bool.not_eq_false] at this
    simp only [Bool.and_eq_true, decide_eq_true_eq, Bool.not_eq_true']
    rintro ⟨⟨k1, k2⟩, k3⟩
    rw [this k1 k2] at k3; simp at k3

theorem tick_run {s : State} {w : Who} (h : s.who = some w) {x : Nat × Nat} (hx : x ∈ w.active) {f : Fibre} (hf : s.fibre? w.team x.1 x.2 = some f) :
    f.tick = { f with lclk := f.lclk + 1 } := by
  have := State.who_run h hx
  rw [State.fibre_eq, hf] at this
  simp only [Option.getD_some] at this
  unfold Fibre.tick
  rw [this]; rfl

end Sys2Proof.Machine
end

