-- ==== Sys2Proof/Laws/Near.lean ====
section
/-!
SUPPORT. Effects on memory and on fibres that wait, and instructions that change the part and then answer their fibres at once.
-/

namespace Sys2Proof.Machine

/-- What an effect on memory leaves of the fibres: those that wait for nothing stand as before, but for the stores to vaults that count as unordered, and
so do the counters of groups, the bundles and the pending kills. -/
structure State.Near (s r : State) : Prop where
  fibres  : ∀ t g l f, s.fibre? t g l = some f → f.wait = none → ∃ e, r.fibre? t g l = some { f with crossed := e }
  sb      : ∀ t g, (r.group t g).map (·.sb) = (s.group t g).map (·.sb)
  bundles : r.bundles = s.bundles
  kills   : r.kills = s.kills
  serial  : r.serial = s.serial
  now     : r.now = s.now
  team    : ∀ t, (r.team t).map (fun y => (y.key, y.kern, y.ctx, y.run0, y.nsys)) = (s.team t).map (fun y => (y.key, y.kern, y.ctx, y.run0, y.nsys))

theorem State.Near.refl (s : State) : State.Near s s := ⟨fun _ _ _ f h _ => ⟨f.crossed, h⟩, fun _ _ => rfl, rfl, rfl, rfl, rfl, fun _ => rfl⟩

theorem State.Near.trans {a b c : State} (h : State.Near a b) (k : State.Near b c) : State.Near a c :=
  ⟨fun t g l f hf hw => by
      obtain ⟨e, he⟩ := h.fibres t g l f hf hw
      obtain ⟨e', he'⟩ := k.fibres t g l _ he hw
      exact ⟨e', he'⟩, fun t g => (k.sb t g).trans (h.sb t g), k.bundles.trans h.bundles,
    k.kills.trans h.kills, k.serial.trans h.serial, k.now.trans h.now, fun t => (k.team t).trans (h.team t)⟩

theorem State.Near.of_teams {s r : State} (h1 : r.teams = s.teams) (h2 : r.bundles = s.bundles) (h3 : r.kills = s.kills) (h4 : r.serial = s.serial)
    (h5 : r.now = s.now) : State.Near s r :=
  ⟨fun t g l f hf _ => ⟨f.crossed, (State.fibre?_of_teams h1 t g l).trans hf⟩, fun t g => by simp only [State.group, State.team, h1], h2, h3, h4, h5,
    fun t => by simp only [State.team, h1]⟩

theorem State.team_modGroup_keeps {β : Type} (p : Team → β) (hp : ∀ (y : Team) g h, p (y.modGroup g h) = p y) (s : State) (t g : Nat) (h : Group → Group)
    (u : Nat) : ((s.modGroup t g h).team u).map p = (s.team u).map p := by
  simp only [State.modGroup, State.team_modTeam]
  split
  · cases s.team u <;> simp [hp]
  · rfl

theorem State.Near.modGroup (s : State) (t g : Nat) (h : Group → Group) (hh : ∀ x, (h x).fibres = x.fibres) (he : ∀ x, (h x).sb = x.sb) :
    State.Near s (s.modGroup t g h) := by
  refine ⟨fun u k m f hf _ => ⟨f.crossed, by rw [State.fibre?_modGroup _ _ _ _ _ _ _ hh]; exact hf⟩, fun u k => ?_, rfl, rfl, rfl, rfl,
    State.team_modGroup_keeps _ (fun _ _ _ => rfl) _ _ _ _⟩
  rw [State.group_modGroup]
  split
  · cases s.group u k <;> simp [he]
  · rfl

theorem State.Near.modTeam (s : State) (t : Nat) (h : Team → Team) (hh : ∀ x, (h x).groups = x.groups)
    (hk : ∀ y, ((h y).key, (h y).kern, (h y).ctx, (h y).run0, (h y).nsys) = (y.key, y.kern, y.ctx, y.run0, y.nsys)) : State.Near s (s.modTeam t h) := by
  have hg : ∀ u k, (s.modTeam t h).group u k = s.group u k := by
    intro u k
    simp only [State.group, State.team_modTeam]
    split
    · cases s.team u <;> simp [hh]
    · rfl
  refine ⟨fun u k m f hf _ => ⟨f.crossed, by simp only [State.fibre?, hg] at hf ⊢; exact hf⟩, fun u k => by rw [hg], rfl, rfl, rfl, rfl, fun u => ?_⟩
  rw [State.team_modTeam]
  split
  · cases s.team u <;> simp [hk]
  · rfl

/-- A fibre that waits may be changed. -/
theorem State.Near.modWaiting (s : State) (t g l : Nat) (h : Fibre → Fibre) (hw : ∀ f, s.fibre? t g l = some f → f.wait ≠ none) :
    State.Near s (s.modFibre t g l h) := by
  refine ⟨fun u k m f hf hn => ?_, fun u k => ?_, rfl, rfl, rfl, rfl, State.team_modGroup_keeps _ (fun _ _ _ => rfl) _ _ _ _⟩
  · refine ⟨f.crossed, ?_⟩
    rw [State.fibre?_modFibre, if_neg]
    · exact hf
    · intro hc
      simp only [Prod.mk.injEq] at hc
      obtain ⟨rfl, rfl, rfl⟩ := hc
      exact hw f hf hn
  · simp only [State.modFibre, State.group_modGroup]
    split
    · cases s.group u k <;> simp [Group.modFibre]
    · rfl

/-- The stores that count as unordered may change of any fibre. -/
theorem State.Near.modCrossed (s : State) (t g l : Nat) (e : Fibre → List (Bool × Nat × Nat × Byte)) :
    State.Near s (s.modFibre t g l (fun f => { f with crossed := e f })) := by
  refine ⟨fun u k m f hf hn => ?_, fun u k => ?_, rfl, rfl, rfl, rfl, State.team_modGroup_keeps _ (fun _ _ _ => rfl) _ _ _ _⟩
  · rw [State.fibre?_modFibre]
    split
    · exact ⟨e f, by rw [hf]; rfl⟩
    · exact ⟨f.crossed, hf⟩
  · simp only [State.modFibre, State.group_modGroup]
    split
    · cases s.group u k <;> simp [Group.modFibre]
    · rfl

theorem State.Near.foldl {α : Type} (ls : List α) (step : State → α → State) (hs : ∀ a x, State.Near a (step a x)) (s : State) :
    State.Near s (ls.foldl step s) := by
  induction ls generalizing s with
  | nil => exact .refl s
  | cons x ls ih => exact (hs s x).trans (ih _)

theorem State.Near.foldlFst {α β : Type} (ls : List α) (step : State × β → α → State × β) (hs : ∀ a x, State.Near a.1 (step a x).1) (a : State × β) :
    State.Near a.1 (ls.foldl step a).1 := by
  induction ls generalizing a with
  | nil => exact .refl _
  | cons x ls ih => exact (hs a x).trans (ih _)

theorem Group.readyPath_sb (g : Group) (i : Nat) : (g.readyPath i).sb = g.sb := by
  unfold Group.readyPath; split
  · rfl
  · dsimp only; split
    · rfl
    · split <;> rfl

theorem Group.settleWaits_sb (g : Group) (now : Nat) : (g.settleWaits now).sb = g.sb :=
  Group.settleWaits_keeps (·.sb) Group.readyPath_sb (fun _ _ => rfl) g now

theorem State.wait_of {s : State} {t g l : Nat} {x : Wait} (h : (s.fibre t g l).wait = some x) (f : Fibre) (hf : s.fibre? t g l = some f) : f.wait ≠ none := by
  rw [State.fibre_eq, hf] at h
  simp only [Option.getD_some] at h
  rw [h]; simp

theorem State.Near.opLane (s : State) (op lane : Nat) (ws : List (RName × Word)) : State.Near s (s.opLane op lane ws) :=
  .of_teams rfl rfl rfl rfl rfl

theorem State.Near.modCore (s : State) (k : Nat) (h : Core → Core) : State.Near s (s.modCore k h) := .of_teams rfl rfl rfl rfl rfl

theorem State.Near.release (s : State) (t g l op : Nat) (ws : List (RName × Word)) {x : Wait} (hw : (s.fibre t g l).wait = some x) :
    State.Near s (s.release t g l op ws) := by
  unfold State.release
  refine (((State.Near.opLane s op l ws).trans (.modWaiting _ t g l _ (fun f hf => State.wait_of hw f hf))).trans (.modGroup _ t g _ ?_ ?_)).trans
    (.modTeam _ t _ (fun _ => rfl) (fun _ => rfl))
  · intro x; exact Group.settleWaits_fibres _ _
  · intro x; exact Group.settleWaits_sb _ _

theorem State.Near.forsake (s : State) (k l : Nat) : State.Near s (s.forsake k l).1 := by
  unfold State.forsake
  split
  · split
    · exact .refl _
    · exact State.Near.modCore s k (fun c => c.dropLine l)
  · exact .refl _

theorem State.Near.modDie (s : State) (k : Nat) (h : Die → Die) : State.Near s (s.modDie k h) := .of_teams rfl rfl rfl rfl rfl
theorem State.Near.modSlice (s : State) (k : Nat) (h : Slice → Slice) : State.Near s (s.modSlice k h) := .of_teams rfl rfl rfl rfl rfl
theorem State.Near.setMem (s : State) (m : Memory) : State.Near s { s with mem := m } := .of_teams rfl rfl rfl rfl rfl
theorem State.Near.acquireGo (s : State) (k : Nat) (uo : Bool) : State.Near s (s.acquireGo k uo).1 := .of_teams rfl rfl rfl rfl rfl

theorem State.Near.judgeLane (m : Monitor) (w : Word) (a : State × List HomeEvent) (l : Nat) : State.Near a.1 (State.judgeLane m w a l).1 := by
  unfold State.judgeLane
  split
  · rename_i hw
    split
    · dsimp only; split
      · exact ((State.Near.release _ _ _ _ _ _ hw).trans (State.Near.acquireGo _ _ _)).trans (State.Near.forsake _ _ _)
      · exact State.Near.release _ _ _ _ _ _ hw
    · exact .refl _
  · exact .refl _

theorem State.Near.judgeMon (s : State) (sk : Nat) (m : Monitor) : State.Near s (s.judgeMon sk m).1 := by
  have h := State.Near.foldlFst (List.range 32) (State.judgeLane m (s.word m.pa)) (State.Near.judgeLane m _) (s, [])
  unfold State.judgeMon
  generalize (List.range 32).foldl (State.judgeLane m (s.word m.pa)) (s, []) = r at h ⊢
  dsimp only at h ⊢
  split
  · exact h
  · dsimp only; exact h.trans (State.Near.modSlice r.1 sk _)

theorem State.Near.judge (s : State) (pa : Nat) : State.Near s (s.judge pa).1 := by
  unfold State.judge
  dsimp only
  split
  · exact .refl _
  · generalize hr : s.modSlice _ _ = r
    have h : State.Near s r := hr ▸ State.Near.modSlice s _ _
    have hn : ∀ a m, State.Near a.1 (State.judgeNext (homeKey pa) a m).1 := by
      intro a m
      have := State.Near.judgeMon a.1 (homeKey pa) m
      unfold State.judgeNext
      generalize a.1.judgeMon (homeKey pa) m = q at this ⊢
      exact this
    exact h.trans (State.Near.foldlFst _ _ hn (r, []))

theorem State.Near.snoop (s : State) (l : Nat) : State.Near s (s.snoop l) := by
  unfold State.snoop; split
  · exact .refl _
  · exact .of_teams rfl rfl rfl rfl rfl

theorem State.Near.hostOut (s : State) (w : HomeEvent) : State.Near s (s.hostOut w) := by
  unfold State.hostOut
  split
  · exact .refl _
  · dsimp only; split
    · exact (State.Near.snoop _ _).trans (.of_teams rfl rfl rfl rfl rfl)
    · exact .refl _

theorem State.Near.homeGo (n : Nat) (ws : List HomeEvent) (s : State) : State.Near s (State.homeGo n ws s) := by
  induction n generalizing ws s with
  | zero => exact .setMem _ _
  | succ n ih =>
    cases ws with
    | nil => exact .refl _
    | cons w rest =>
      exact (((State.Near.hostOut s w).trans (State.Near.setMem _ (memEvent s.mem w))).trans (State.Near.judge _ _)).trans (ih _ _)

theorem State.Near.homeWrites (s : State) (ws : List HomeEvent) : State.Near s (s.homeWrites ws) := by
  unfold State.homeWrites; exact .foldl _ _ (fun a (w : HomeEvent) => .homeGo 4096 [w] a) s

theorem State.Near.homeWrite (s : State) (pa : Nat) (bs : List Byte) : State.Near s (s.homeWrite pa bs) := by
  unfold State.homeWrite; split
  · exact .refl _
  · split <;> exact .homeWrites _ _

theorem State.Near.acquire (s : State) (k : Nat) (uo : Bool) : State.Near s (s.acquire k uo) := by
  unfold State.acquire; exact (State.Near.acquireGo s k uo).trans (.homeWrites _ _)

theorem State.Near.pushLine (s : State) (k l : Nat) : State.Near s (s.pushLine k l) := by
  unfold State.pushLine; split
  · exact .refl _
  · exact (State.Near.modCore _ _ _).trans (.homeWrites _ _)

theorem State.Near.evictLine (s : State) (k l : Nat) : State.Near s (s.evictLine k l) := by
  unfold State.evictLine; exact (State.Near.pushLine _ _ _).trans (.modCore _ _ _)

theorem State.Near.pushAll (s : State) (k : Nat) (uo : Bool) : State.Near s (s.pushAll k uo) := by
  unfold State.pushAll; exact .foldl _ _ (fun a (x : L1Line) => .pushLine a k x.line) s

theorem State.Near.makeRoom (s : State) (k : Nat) : State.Near s (s.makeRoom k) := by
  unfold State.makeRoom; split
  · exact .refl _
  · split
    · rename_i l _
      exact (State.Near.evictLine s k l).trans (.of_teams rfl rfl rfl rfl rfl)
    · exact .refl _

theorem State.Near.fill (s : State) (k l : Nat) (uo : Bool) : State.Near s (s.fill k l uo) := by
  unfold State.fill; split
  · split
    · exact .refl _
    · exact (State.Near.pushLine _ _ _).trans (.modCore _ _ _)
  · dsimp only; split
    · exact (State.Near.makeRoom s k).trans (.modCore _ _ _)
    · exact .makeRoom _ _

theorem State.Near.load (s : State) (k : Nat) (lf : Leaf) (n : Nat) : State.Near s (s.load k lf n).2 := by
  unfold State.load; dsimp only; split
  · split <;> exact .fill _ _ _ _
  · exact .evictLine _ _ _

theorem State.Near.store (s : State) (k : Nat) (lf : Leaf) (bs : List Byte) : State.Near s (s.store k lf bs) := by
  unfold State.store; dsimp only; split
  · split
    · exact (State.Near.fill _ _ _ _).trans (.modCore _ _ _)
    · exact (State.Near.fill _ _ _ _).trans (.homeWrite _ _ _)
  · exact (State.Near.evictLine _ _ _).trans (.homeWrite _ _ _)

theorem State.Near.releaseSide (s : State) (k : Nat) (uo : Bool) (sc : Scope) : State.Near s (s.releaseSide k uo sc) := by
  unfold State.releaseSide; split
  · exact .pushAll _ _ _
  · exact .refl _

theorem State.Near.acquireSide (s : State) (k : Nat) (uo : Bool) (sc : Scope) : State.Near s (s.acquireSide k uo sc) := by
  unfold State.acquireSide; split
  · exact .acquire _ _ _
  · exact .refl _

theorem State.Near.fence (s : State) (k : Nat) (kind : FenceKind) (sc : Scope) (uo : Bool) : State.Near s (s.fence k kind sc uo) := by
  unfold State.fence
  cases kind
  · exact .acquireSide _ _ _ _
  · exact .releaseSide _ _ _ _
  · exact (State.Near.releaseSide _ _ _ _).trans (.acquireSide _ _ _ _)
  all_goals exact (State.Near.releaseSide _ _ _ _).trans (.acquireSide _ _ _ _)

theorem State.Near.soFence (s : State) (k : Nat) (so : Bool) : State.Near s (s.soFence k so) := by
  unfold State.soFence State.fullFence; split
  · exact (State.Near.pushAll _ _ _).trans (.acquire _ _ _)
  · exact .refl _

theorem State.Near.uncrossAll (s : State) (w : Who) : State.Near s (s.uncrossAll w) := by
  unfold State.uncrossAll State.uncross
  exact .foldl _ _ (fun a x => .foldl _ _ (fun b l => .modCrossed b _ _ _ _) _) _

theorem State.Near.soFenceBy (s : State) (w : Who) (k : Nat) (so : Bool) : State.Near s (s.soFenceBy w k so) := by
  unfold State.soFenceBy State.fullFence; split
  · exact (State.Near.uncrossAll _ _).trans ((State.Near.pushAll _ _ _).trans (.acquire _ _ _))
  · exact .refl _

theorem State.Near.fenceBy (s : State) (w : Who) (k : Nat) (kind : FenceKind) (scope : Scope) (uo : Bool) : State.Near s (s.fenceBy w k kind scope uo) := by
  unfold State.fenceBy
  refine State.Near.trans ?_ (.fence _ _ _ _ _)
  cases kind <;> dsimp only <;> (try split) <;> first | exact .uncrossAll _ _ | exact .refl _

theorem State.Near.fillTlb (s : State) (ck : Option Nat) (die : Nat) (c : Ctx) (va : Nat) (acc : Acc) : State.Near s (s.fillTlb ck die c va acc) := by
  unfold State.fillTlb
  cases ck <;> exact .of_teams rfl rfl rfl rfl rfl

theorem State.Near.touch (s : State) (t : Team) (x : Target) (acc : Acc) : State.Near s (s.touch t x acc) := by
  unfold State.touch; split
  · exact .fillTlb _ _ _ _ _ _
  · exact .refl _

theorem State.Near.touchAll (s : State) (t : Team) (ls : List (Nat × Nat × Target)) (acc : Acc) : State.Near s (s.touchAll t ls acc) := by
  unfold State.touchAll; exact .foldl _ _ (fun a (x : Nat × Nat × Target) => .touch a t x.2.2 acc) s

theorem State.Near.keepRec (s : State) (t : Team) (i : Nat) : State.Near s (s.keepRec t i) := by
  unfold State.keepRec; split
  · exact .refl _
  · dsimp only; split
    · exact .refl _
    · split
      · exact .refl _
      · exact .modCore _ _ _

theorem State.Near.keepSpace (s : State) (t : Team) (sp : Space) : State.Near s (s.keepSpace t sp) := by
  unfold State.keepSpace; split
  · exact .keepRec _ _ _
  · exact .refl _

theorem State.Near.spent (s : State) (w : Who) (c : Ctl) : State.Near s (s.spent w c) := by
  unfold State.spent; exact .foldl _ _ (fun a g => .modGroup a w.team g _ (by intros; rfl) (by intros; rfl)) s

theorem State.Near.readied (s : State) (w : Who) (c : Ctl) (t : Team) (sp : Space) (acc : Acc) (tgt : Nat × Nat → Target) :
    State.Near s (s.readied w c t sp acc tgt) := by
  unfold State.readied
  exact ((State.Near.spent s w c).trans (.touchAll _ _ _ _)).trans (.keepSpace _ _ _)

theorem State.Near.vaultWrite (s : State) (k a : Nat) (bs : List Byte) : State.Near s (s.vaultWrite k a bs) := by
  unfold State.vaultWrite; split
  · exact .refl _
  · exact .modCore _ _ _

theorem State.Near.tbarWake (s : State) (k a ph : Nat) : State.Near s (s.tbarWake k a ph) := by
  unfold State.tbarWake
  refine .foldl _ _ (fun x e => .foldl _ _ (fun y g => .foldl _ _ (fun z l => ?_) y) x) s
  split
  · rename_i hw
    split
    · exact (State.Near.release _ _ _ _ _ _ hw).trans (.acquire _ _ _)
    · exact .refl _
  · exact .refl _

theorem State.Near.tbarDo (s : State) (k a : Nat) (h : TBar → TBar) : State.Near s (s.tbarDo k a h) := by
  unfold State.tbarDo; dsimp only; split
  · exact .vaultWrite _ _ _ _
  · exact (State.Near.vaultWrite _ _ _ _).trans (.tbarWake _ _ _ _)

theorem State.Near.setCtxWord (s : State) (k off v : Nat) : State.Near s (s.setCtxWord k off v) := .homeWrite _ _ _

theorem State.Near.bumpCtx (s : State) (k off : Nat) : State.Near s (s.bumpCtx k off) := by
  unfold State.bumpCtx; split
  · exact .refl _
  · exact .setCtxWord _ _ _ _

theorem State.Near.eventWrite (s : State) (k : Nat) (bytes : List Byte) : State.Near s (s.eventWrite k bytes) := by
  unfold State.eventWrite; split
  · exact .refl _
  · dsimp only; split
    · exact .bumpCtx _ _ _
    · exact (State.Near.homeWrite _ _ _).trans (.setCtxWord _ _ _ _)

theorem State.Near.flushEvent (s : State) (tid g : Nat) : State.Near s (s.flushEvent tid g) := by
  unfold State.flushEvent; split
  · split
    · exact (State.Near.modGroup _ _ _ _ (by intros; rfl) (by intros; rfl)).trans (.eventWrite _ _ _)
    · exact .refl _
  · exact .refl _

theorem State.Near.irq (s : State) (kind die arg : Nat) : State.Near s (s.irq kind die arg) := .of_teams rfl rfl rfl rfl rfl

theorem State.Near.logUnits (s : State) (k : Nat) (c : Ctx) (die : Nat) (us : List (List Byte)) (n : Nat) : State.Near s (s.logUnits k c die us n) := by
  unfold State.logUnits; dsimp only
  exact ((State.Near.foldl _ _ (fun a (i : Nat) => .homeWrite a _ _) s).trans (.setCtxWord _ _ _ _)).trans (.irq _ _ _ _)

theorem State.Near.ctxLog (s : State) (k code u : Nat) (who : LogWho) (p : List Byte) : State.Near s (s.ctxLog k code u who p) := by
  unfold State.ctxLog
  cases fget s.ctxs k with
  | none => exact .refl _
  | some c =>
    dsimp only
    generalize (if 2 ^ c.cllog2 < s.ctxWord k 72 % 2 ^ c.cllog2 + u then 2 ^ c.cllog2 - s.ctxWord k 72 % 2 ^ c.cllog2 else 0) = n
    by_cases h : 2 ^ c.cllog2 < (s.ctxWord k 72 + 0x100000000 - s.ctxWord k 44) % 0x100000000 + n + u
    · rw [if_pos h]; exact .bumpCtx _ _ _
    · rw [if_neg h]
      by_cases hn : n = 0
      · rw [if_pos hn]; exact .logUnits s k c who.die _ u
      · rw [if_neg hn]
        exact (State.Near.logUnits s k c who.die _ n).trans (.logUnits _ k c who.die _ u)

/-! ### Accesses at a core -/

theorem State.Near.unpin (s : State) (k l : Nat) : State.Near s (s.unpin k l) := .modCore _ _ _

theorem State.Near.recall (s : State) (l : Nat) : State.Near s (s.recall l) := by
  unfold State.recall; split
  · split
    · exact .refl _
    · exact (State.Near.unpin _ _ _).trans (.evictLine _ _ _)
  · exact .refl _

theorem State.Near.takeExclusive (s : State) (k l : Nat) : State.Near s (s.takeExclusive k l) := by
  unfold State.takeExclusive State.expelOthers
  refine (State.Near.trans (.foldl _ _ (fun a j => ?_) s) (.fill _ _ _ _)).trans (.modCore _ _ _)
  split
  · exact .refl _
  · exact (State.Near.unpin _ _ _).trans (.evictLine _ _ _)

theorem State.Near.addPin (s : State) (k l : Nat) : State.Near s (s.addPin k l) := by
  unfold State.addPin; split
  · exact .modCore _ _ _
  · exact .refl _

theorem State.Near.meetPin (s : State) (t : Team) (g : Nat) (lf : Leaf) : State.Near s (s.meetPin t g lf) := by
  unfold State.meetPin; dsimp only; split
  · split
    · exact .refl _
    · split
      · exact .addPin _ _ _
      · exact (State.Near.takeExclusive _ _ _).trans (.addPin _ _ _)
  · exact .recall _ _

theorem State.Near.meetPins (s : State) (t : Team) (ls : List (Nat × Nat × Target)) : State.Near s (s.meetPins t ls) := by
  unfold State.meetPins
  refine .foldl _ _ (fun a x => ?_) s
  split
  · exact .meetPin _ _ _ _
  · exact .refl _

theorem State.Near.bankAll (s : State) (step : Nat) (t : Team) (ls : List (Nat × Nat × Target)) : State.Near s (s.bankAll step t ls) := by
  unfold State.bankAll; split
  · exact .refl _
  · refine .foldl _ _ (fun a x => ?_) s
    unfold State.bankTake; split
    · exact .refl _
    · exact .modCore _ _ _

theorem State.Near.setFree (s : State) (n : Nat) : State.Near s { s with free := n } := .of_teams rfl rfl rfl rfl rfl

theorem State.Near.uncrossAt (s : State) (w : Who) (pool : Bool) (n : Nat) (ls : List (Nat × Nat × Target)) : State.Near s (s.uncrossAt w pool n ls) := by
  unfold State.uncrossAt
  refine .foldl _ _ (fun a x => ?_) s
  split
  · exact .modCrossed _ _ _ _ _
  · exact .refl _

theorem State.Near.crossStore (s before : State) (w : Who) (pool old : Bool) (n : Nat) (ls : List (Nat × Nat × Target)) :
    State.Near s (s.crossStore before w pool old n ls) := by
  have h : State.Near s (if (before.crossingsOf w pool n ls).isEmpty then s else let b := s.uncrossAt w pool n ls; { b with free := b.free + 1 }) := by
    split
    · exact .refl _
    · exact (State.Near.uncrossAt _ _ _ _ _).trans (.setFree _ _)
  unfold State.crossStore
  dsimp only at h ⊢
  split
  · exact h
  · refine h.trans (.foldl _ _ (fun a x => ?_) _)
    split
    · exact .modCrossed _ _ _ _ _
    · exact .refl _

/-- An instruction that changes the part, and then answers each performing fibre at once. -/
theorem completes_base {i : Instr} {s : State} {w : Who} {c : Ctl} {t : Team} (H : Starts s i w c t) {body : Who → State → State}
    (he : exec i s = native i s body) {base : State} (B : State.Near s base)
    (ws : Nat × Nat → List (RName × Word)) (h0 : s.performers w c = [] → base = s)
    (hb : s.performers w c ≠ [] → body (w.by (s.performers w c)) s = (s.performers w c).foldl
      (fun (a : State) x => a.doneLane (w.by (s.performers w c)) x.1 x.2 (opOf (base.openOps i (w.by (s.performers w c)) (s.performers w c)).1 x.1) (ws x))
      (base.openOps i (w.by (s.performers w c)) (s.performers w c)).2) : Completes i s w c base (fun x => some (ws x)) := by
  rw [State.openOps_by] at hb
  obtain ⟨h1, h2⟩ := State.openOps_spec base i w (s.performers w c) c H.ctl
  rw [h1] at hb
  generalize hq : (base.openOps i w (s.performers w c)).2 = q at h2 hb
  have hd : (s.performers w c).Nodup := H.distinct.filter _
  have hwait : ∀ x ∈ s.performers w c, (q.fibre (w.by (s.performers w c)).team x.1 x.2).wait = none := by
    intro x hx
    have ha := H.awake x (State.mem_performers hx)
    obtain ⟨f, hf, _⟩ := H.files x (State.mem_performers hx)
    have hr := h2.fibres w.team x.1 x.2
    have hfw : f.wait = none := by rw [State.fibre_eq, hf] at ha; exact ha
    obtain ⟨e, he⟩ := B.fibres _ _ _ _ hf hfw
    rw [he, if_pos ⟨rfl, mem_groupsOf.2 ⟨x.2, hx⟩, hx⟩] at hr
    simp only [State.fibre_eq, hf, Option.getD_some] at ha
    have : q.fibre (w.by (s.performers w c)).team x.1 x.2 = ({ f with crossed := e } : Fibre).opened w.pos (opOf (numbered base.serial (groupsOf (s.performers w c))) x.1) c.sbi.toNat i.writes := by
      show (q.fibre? w.team x.1 x.2).getD Fibre.reset = _
      rw [hr]; rfl
    rw [this]
    unfold Fibre.opened
    dsimp only
    split <;> simp [(Fibre.announce_keeps _ _ _ _ _).1, ha]
  rw [State.foldl_doneLane _ _ _ _ _ hwait] at hb
  have hq2 : (s.performers w c = [] → q = base) := by
    intro h; rw [← hq, h]; rfl
  generalize hr : (s.performers w c).foldl (fun (a : State) x => a.opLane (opOf (numbered base.serial (groupsOf (s.performers w c))) x.1) x.2 (ws x)) q = r at hb
  have hrc : r.calm = base.calm := by
    rw [← hr, State.foldl_opLane_keeps State.calm (fun _ _ _ _ => rfl)]; exact h2.calm
  have hrf : ∀ u k l, r.fibre? u k l = q.fibre? u k l := fun _ _ _ => by
    rw [← hr]; exact State.foldl_opLane_keeps (fun a : State => a.fibre? _ _ _) (fun _ _ _ _ => rfl) _ _ _ _
  have hrs : ∀ u k, (r.group u k).map (·.sb) = (q.group u k).map (·.sb) := fun _ _ => by
    rw [← hr]; exact State.foldl_opLane_keeps (fun a : State => (a.group _ _).map (·.sb)) (fun _ _ _ _ => rfl) _ _ _ _
  have hf := State.calm_facts hrc
  have hnext := exec_gives H.toIssues he hb (fun h => by rw [← hr, h, hq2 h, h0 h]; rfl)
    (by have := H.unheld; simp only [State.isHeld, hf.1, B.bundles] at this ⊢; exact this) (hf.2.1.trans (B.kills.trans H.quiet))
  refine ⟨_, hnext, ⟨?_, ?_⟩, State.calm_countClocks w hrc⟩
  · intro g hg
    have hnum := numbered_opOf (n := base.serial) (groupsOf_nodup (s.performers w c)) hg
    have ho := h2.ops _ hnum
    have hans := State.foldl_opLane (opOf (numbered base.serial (groupsOf (s.performers w c)))) ws (s.performers w c) _ g _ ho (by
      intro x hx he
      have hxg : x.1 ∈ groupsOf (s.performers w c) := mem_groupsOf.2 ⟨x.2, hx⟩
      have := numbered_inj (numbered_opOf (n := base.serial) (groupsOf_nodup (s.performers w c)) hxg) hnum he
      exact congrArg Prod.fst this)
    rw [hr] at hans
    refine ⟨_, _, le_trans (le_of_eq B.serial.symm) (numbered_mem hnum).2, by rw [State.countClocks_ops]; exact hans, rfl, rfl, rfl, ?_, ?_, ?_, ?_⟩
    · intro l; exact mem_lanesIn
    · intro l
      simp only [List.mem_filter, decide_eq_true_eq, mem_lanesIn, reduceCtorEq, and_false, iff_false, not_and, not_not]
      exact fun h => h
    · intro l hl
      simp only [List.nil_append, Option.getD_some]
      exact writes_of_lane _ hd g l (mem_lanesIn.1 hl) ws
    · intro l hl n hn
      have hbk := State.countClocks_books r w w.team g l
      rw [hbk.1, hbk.2]
      have hl' := mem_lanesIn.1 hl
      obtain ⟨f, hf, _⟩ := H.files (g, l) (State.mem_performers hl')
      obtain ⟨e, he⟩ := B.fibres _ _ _ _ hf (by
          have := H.awake (g, l) (State.mem_performers hl'); rw [State.fibre_eq, hf] at this; exact this)
      have hfib : r.fibre w.team g l = ({ f with crossed := e } : Fibre).opened w.pos (opOf (numbered base.serial (groupsOf (s.performers w c))) g) c.sbi.toNat i.writes := by
        rw [State.fibre_eq, hrf, h2.fibres, if_pos ⟨rfl, hg, hl'⟩, he]; rfl
      rw [hfib]
      have hb := (Fibre.announce_books ({ f with crossed := e } : Fibre) w.pos (opOf (numbered base.serial (groupsOf (s.performers w c))) g) c.sbi.toNat i.writes).1 n hn
      unfold Fibre.opened; dsimp only
      split <;> exact hb
  · intro u g
    have h3 := h2.sbs u g
    rw [State.countClocks_sb, hrs, h3]
    have hB := B.sb u g
    simp only [toNat_ne_zero]
    cases hbg : base.group u g with
    | none => cases hsg : s.group u g with
      | none => rfl
      | some y => rw [hbg, hsg] at hB; simp at hB
    | some x => cases hsg : s.group u g with
      | none => rw [hbg, hsg] at hB; simp at hB
      | some y =>
        rw [hbg, hsg] at hB
        simp only [Option.map_some, Option.some.injEq] at hB ⊢
        rw [hB]


/-! ### Operands of memory that are reached -/

/-! ### Fibres stand in the order of their groups -/

theorem eraseDups_step (a : Nat) (as : List Nat) : (a :: as).eraseDups = a :: (as.filter (fun b => !(b == a))).eraseDups := by
  rw [List.eraseDups_cons]

theorem sorted_split (g : Nat) (p : List (Nat × Nat)) (h : p.Pairwise (fun x y => x.1 ≤ y.1)) (hg : ∀ x ∈ p, g ≤ x.1) :
    p = p.filter (fun x => decide (x.1 = g)) ++ p.filter (fun x => !(x.1 == g)) := by
  induction p with
  | nil => rfl
  | cons x p ih =>
    obtain ⟨h1, h2⟩ := List.pairwise_cons.1 h
    by_cases hx : x.1 = g
    · simp only [List.filter_cons, hx, decide_true, if_true, beq_self_eq_true, Bool.not_true, Bool.false_eq_true, if_false, List.cons_append]
      rw [← ih h2 (fun y hy => hg y (by simp [hy]))]
    · have hlt : g < x.1 := lt_of_le_of_ne (hg x (by simp)) (Ne.symm hx)
      have hnone : p.filter (fun y => decide (y.1 = g)) = [] := by
        rw [List.filter_eq_nil_iff]
        intro y hy
        have := h1 y hy
        simp only [decide_eq_true_eq]; omega
      have hall : p.filter (fun y => !(y.1 == g)) = p := by
        rw [List.filter_eq_self]
        intro y hy
        have := h1 y hy
        simp only [Bool.not_eq_true', beq_eq_false_iff_ne]; omega
      have hxb : (x.1 == g) = false := by simpa using hx
      simp only [List.filter_cons, hx, decide_false, Bool.false_eq_true, if_false, hxb, Bool.not_false, if_true, hnone, hall, List.nil_append]

theorem spread_sorted : ∀ (n : Nat) (p : List (Nat × Nat)), p.length ≤ n → p.Pairwise (fun x y => x.1 ≤ y.1) →
    (groupsOf p).flatMap (fun g => p.filter (fun x => decide (x.1 = g))) = p := by
  intro n
  induction n with
  | zero => intro p hn _; have : p = [] := List.length_eq_zero_iff.1 (by omega); subst this; rfl
  | succ n ih =>
    intro p hn hp
    cases p with
    | nil => rfl
    | cons x p =>
      obtain ⟨h1, h2⟩ := List.pairwise_cons.1 hp
      have hsp := sorted_split x.1 p h2 h1
      have hgr : groupsOf (x :: p) = x.1 :: groupsOf (p.filter (fun y => !(y.1 == x.1))) := by
        unfold groupsOf
        rw [List.map_cons, eraseDups_step, List.filter_map]; rfl
      have hrest := ih (p.filter (fun y => !(y.1 == x.1))) (by
        have := List.length_filter_le (fun y : Nat × Nat => !(y.1 == x.1)) p
        simp only [List.length_cons] at hn; omega) (h2.filter _)
      rw [hgr, List.flatMap_cons]
      have e1 : (x :: p).filter (fun y => decide (y.1 = x.1)) = x :: p.filter (fun y => decide (y.1 = x.1)) := by simp
      have e2 : (groupsOf (p.filter (fun y => !(y.1 == x.1)))).flatMap (fun g => (x :: p).filter (fun y => decide (y.1 = g)))
          = (groupsOf (p.filter (fun y => !(y.1 == x.1)))).flatMap (fun g => (p.filter (fun y => !(y.1 == x.1))).filter (fun y => decide (y.1 = g))) := by
        simp only [List.flatMap_def]
        congr 1
        refine List.map_congr_left (fun g hg => ?_)
        obtain ⟨l, hl⟩ := mem_groupsOf.1 hg
        have hne : g ≠ x.1 := by
          have := (List.mem_filter.1 hl).2
          simpa using this
        rw [List.filter_filter, List.filter_cons, if_neg (by simpa using hne.symm)]
        refine List.filter_congr (fun y _ => ?_)
        by_cases hy : y.1 = g
        · simp [hy, hne]
        · simp [hy]
      rw [e1, e2, hrest, List.cons_append, ← hsp]

theorem insertMember_sorted (m : Nat × Lanes) (ls : List (Nat × Lanes)) (h : ls.Pairwise (fun x y => x.1 ≤ y.1)) :
    (insertMember m ls).Pairwise (fun x y => x.1 ≤ y.1) ∧ ∀ y ∈ insertMember m ls, y = m ∨ y ∈ ls := by
  induction ls with
  | nil => exact ⟨by simp [insertMember], fun y hy => by simpa [insertMember] using hy⟩
  | cons x xs ih =>
    obtain ⟨h1, h2⟩ := List.pairwise_cons.1 h
    obtain ⟨i1, i2⟩ := ih h2
    unfold insertMember
    split
    · rename_i hlt
      refine ⟨List.pairwise_cons.2 ⟨?_, h⟩, fun y hy => by simpa using hy⟩
      intro y hy
      rcases List.mem_cons.1 hy with rfl | hy
      · omega
      · have := h1 y hy; omega
    · rename_i hlt
      refine ⟨List.pairwise_cons.2 ⟨?_, i1⟩, ?_⟩
      · intro y hy
        rcases i2 y hy with rfl | hy
        · omega
        · exact h1 y hy
      · intro y hy
        rcases List.mem_cons.1 hy with rfl | hy
        · simp
        · rcases i2 y hy with rfl | hy
          · simp
          · simp [hy]

theorem State.activeOf_sorted (s : State) (b : Bundle) : (s.activeOf b).Pairwise (fun x y => x.1 ≤ y.1) := by
  unfold State.activeOf
  have hs : ∀ ms : List (Nat × Lanes), (ms.foldr insertMember []).Pairwise (fun x y => x.1 ≤ y.1) := by
    intro ms
    induction ms with
    | nil => simp
    | cons m ms ih => exact (insertMember_sorted m _ ih).1
  rw [List.pairwise_flatMap]
  refine ⟨?_, (hs b.members).imp ?_⟩
  · intro m _
    rw [List.pairwise_map]
    exact List.Pairwise.imp (fun _ => le_refl _) (List.pairwise_of_forall (fun _ _ => trivial))
  · intro a c hac x hx y hy
    obtain ⟨l, _, rfl⟩ := List.mem_map.1 hx
    obtain ⟨k, _, rfl⟩ := List.mem_map.1 hy
    exact hac

theorem State.performers_sorted {s : State} {w : Who} (h : s.who = some w) (c : Ctl) : (s.performers w c).Pairwise (fun x y => x.1 ≤ y.1) := by
  refine List.Pairwise.filter _ ?_
  unfold State.who at h
  split at h
  · simp at h
  · split at h
    · simp at h
    · simp only [Option.some.injEq] at h; subst h; exact State.activeOf_sorted s _

/-- The groups' lanes, group by group, are the performing fibres as they stand. -/
theorem spread_performers {s : State} {w : Who} (h : s.who = some w) (c : Ctl) {α : Type} (k : Nat × Nat → α) :
    (groupsOf (s.performers w c)).flatMap (fun g => (lanesIn (s.performers w c) g).map (fun l => k (g, l))) = (s.performers w c).map k := by
  conv_rhs => rw [← spread_sorted _ _ (le_refl _) (State.performers_sorted h c)]
  rw [List.map_flatMap]
  congr 1
  funext g
  unfold lanesIn
  rw [List.map_map]
  refine List.map_congr_left (fun x hx => ?_)
  have := (List.mem_filter.1 hx).2
  simp only [decide_eq_true_eq] at this
  simp only [Function.comp, ← this]

theorem pairsOf_found {s : State} {w : Who} {c : Ctl} {α : Type} (tgt : Nat × Nat → α) : pairsOf (s.found w c tgt) = s.performers w c := by
  unfold pairsOf State.found
  rw [List.map_map]
  conv_rhs => rw [← List.map_id (s.performers w c)]
  rfl

/-- The operands of memory that all performing fibres reach. -/
theorem homeWith_ok {s : State} {w : Who} {c : Ctl} {t : Team} (hw : s.who = some w) (ht : s.team w.team = some t) {sp : Space} {a : Reg} {disp : Int} {size : Nat}
    {perm : RecPerm} {acc : Acc} {write lax : Bool} {turn : Turn} {tgt : Nat × Nat → Target} (R : Reaches s w c t lax turn sp a disp size perm acc write tgt)
    (more : Target → Res Target) (hm : ∀ x ∈ s.performers w c, more (tgt x) = .ok (tgt x))
    (go : Team → List (Nat × Nat × Target) → Who → State → State) :
    homeWith lax turn sp a disp size perm acc write more go (w.by (s.performers w c)) s =
      go t (s.found w c tgt) (w.by (s.performers w c)) (s.readied w c t sp acc tgt) := by
  unfold homeWith
  have ht' : s.team (w.by (s.performers w c)).team = some t := ht
  rw [ht']
  have ho : s.orderedFor lax (w.by (s.performers w c)) = true := by
    unfold State.orderedFor
    rw [List.all_eq_true]
    intro x hx
    obtain ⟨h1, h2⟩ := R.ordered x hx
    show (decide ((s.fibre w.team x.1 x.2).order = 0) && (lax || (s.fibre w.team x.1 x.2).loads.isEmpty)) = true
    rw [decide_eq_true h1]
    rcases h2 with h2 | h2 <;> simp [h2]
  have hg := gate_ok s (w.by (s.performers w c)) (fun g l =>
    (s.resolve t g (s.fibre (w.by (s.performers w c)).team g l) (w.by (s.performers w c)).pos sp a disp size perm acc).andThen more) tgt (by
      intro x hx
      have : s.resolve t x.1 (s.fibre (w.by (s.performers w c)).team x.1 x.2) (w.by (s.performers w c)).pos sp a disp size perm acc = .ok (tgt x) := R.found x hx
      simp only [this, Res.andThen, hm x hx])
  have hs := spread_performers hw c (fun x => (x.1, x.2, tgt x))
  have hf : (groupsOf (w.by (s.performers w c)).perf).flatMap (fun g => (lanesIn (w.by (s.performers w c)).perf g).map (fun l => (g, l, tgt (g, l))))
      = s.found w c tgt := hs
  rw [hf] at hg
  simp only [ho, R.near, Bool.not_true, Bool.or_false, Bool.false_eq_true, if_false]
  rw [hg]
  simp only [R.turned, R.free, List.isEmpty_nil, Bool.not_true, Bool.false_eq_true, if_false]
  rfl

/-- A memory instruction whose fibres reach their operands does its own part. -/
theorem gives_home {i : Instr} {s : State} {w : Who} {c : Ctl} {t : Team} (H : Issues s i w c t) {sp : Space} {a : Reg} {disp : Int} {size : Nat}
    {perm : RecPerm} {acc : Acc} {write lax : Bool} {turn : Turn} {tgt : Nat × Nat → Target} (R : Reaches s w c t lax turn sp a disp size perm acc write tgt)
    (more : Target → Res Target) (hm : ∀ x ∈ s.performers w c, more (tgt x) = .ok (tgt x))
    (go : Team → List (Nat × Nat × Target) → Who → State → State)
    (he : exec i s = native i s (homeWith lax turn sp a disp size perm acc write more go)) :
    Gives i s w (go t (s.found w c tgt) (w.by (s.performers w c)) (s.readied w c t sp acc tgt)) := by
  have h := gives_body H he R.some
  rwa [homeWith_ok H.who H.team R more hm go] at h

end Sys2Proof.Machine
end

