-- ==== Sys2Proof/Laws/PerInstr.lean ====
section
/-!
SUPPORT. Statements about every instruction, one lemma for each constructor.
-/

set_option linter.unusedSimpArgs false
set_option linter.unreachableTactic false
set_option linter.unusedTactic false
set_option linter.unnecessarySeqFocus false

namespace Sys2Proof.Laws

/-- Decoding the word of a well-formed instruction gives the instruction back, with every operand. -/
def RoundTrip.Statement (i : Instr) : Prop := i.wellFormed = true → ∀ w, encode i = some w → decodeWord w = .ok i

theorem RoundTrip.nop (c : Ctl) : RoundTrip.Statement (.nop c) := by
  intro hw wd he
  obtain rfl := Option.some.inj he
  apply decodeWord_of hw
  obtain ⟨f0, f1, f2⟩ := mkWord_fields 0x00 c 0 (by decide) (by omega)
  generalize (mkWord 0x00 c 0).toNat = wd at *
  simp [rawDecode, decodeGen, regAt, predAt, bit_eq, guardOpt, f0, f1, f2] <;> first | rfl | decide

theorem RoundTrip.iadd (c : Ctl) (ty : ITy) (sat : Bool) (d : Reg) (a : Reg) (b : Reg) : RoundTrip.Statement (.iadd c ty sat d a b) := by
  intro hw wd he
  obtain rfl := Option.some.inj he
  apply decodeWord_of hw
  have hm : (sat.toNat * 4 + ty.code) < 8192 := (by cases ty <;> cases sat <;> decide)
  obtain ⟨f0, f1, f2, f3, f4, f5, f6⟩ := rrr_fields 0x01 c d.toNat a.toNat b.toNat 0 (sat.toNat * 4 + ty.code) (by decide) (Nat.lt_of_lt_of_le d.isLt (by decide)) (Nat.lt_of_lt_of_le a.isLt (by decide)) (Nat.lt_of_lt_of_le b.isLt (by decide)) (by decide) hm _ rfl
  generalize (mkWord 0x01 c (fRRR d.toNat a.toNat b.toNat 0 (sat.toNat * 4 + ty.code))).toNat = wd at *
  cases ty <;> cases sat <;> simp [rawDecode, decodeGen, regAt, predAt, bit_eq, guardOpt, f0, f1, f2, f3, f4, f5, f6] <;> first | rfl | decide

theorem RoundTrip.isub (c : Ctl) (ty : ITy) (sat : Bool) (d : Reg) (a : Reg) (b : Reg) : RoundTrip.Statement (.isub c ty sat d a b) := by
  intro hw wd he
  obtain rfl := Option.some.inj he
  apply decodeWord_of hw
  have hm : (sat.toNat * 4 + ty.code) < 8192 := (by cases ty <;> cases sat <;> decide)
  obtain ⟨f0, f1, f2, f3, f4, f5, f6⟩ := rrr_fields 0x02 c d.toNat a.toNat b.toNat 0 (sat.toNat * 4 + ty.code) (by decide) (Nat.lt_of_lt_of_le d.isLt (by decide)) (Nat.lt_of_lt_of_le a.isLt (by decide)) (Nat.lt_of_lt_of_le b.isLt (by decide)) (by decide) hm _ rfl
  generalize (mkWord 0x02 c (fRRR d.toNat a.toNat b.toNat 0 (sat.toNat * 4 + ty.code))).toNat = wd at *
  cases ty <;> cases sat <;> simp [rawDecode, decodeGen, regAt, predAt, bit_eq, guardOpt, f0, f1, f2, f3, f4, f5, f6] <;> first | rfl | decide

theorem RoundTrip.imul (c : Ctl) (ty : ITy) (sat : Bool) (d : Reg) (a : Reg) (b : Reg) : RoundTrip.Statement (.imul c ty sat d a b) := by
  intro hw wd he
  obtain rfl := Option.some.inj he
  apply decodeWord_of hw
  have hm : (sat.toNat * 4 + ty.code) < 8192 := (by cases ty <;> cases sat <;> decide)
  obtain ⟨f0, f1, f2, f3, f4, f5, f6⟩ := rrr_fields 0x03 c d.toNat a.toNat b.toNat 0 (sat.toNat * 4 + ty.code) (by decide) (Nat.lt_of_lt_of_le d.isLt (by decide)) (Nat.lt_of_lt_of_le a.isLt (by decide)) (Nat.lt_of_lt_of_le b.isLt (by decide)) (by decide) hm _ rfl
  generalize (mkWord 0x03 c (fRRR d.toNat a.toNat b.toNat 0 (sat.toNat * 4 + ty.code))).toNat = wd at *
  cases ty <;> cases sat <;> simp [rawDecode, decodeGen, regAt, predAt, bit_eq, guardOpt, f0, f1, f2, f3, f4, f5, f6] <;> first | rfl | decide

theorem RoundTrip.imulh (c : Ctl) (ty : ITy) (d : Reg) (a : Reg) (b : Reg) : RoundTrip.Statement (.imulh c ty d a b) := by
  intro hw wd he
  obtain rfl := Option.some.inj he
  apply decodeWord_of hw
  have hm : ty.code < 8192 := (by cases ty <;> decide)
  obtain ⟨f0, f1, f2, f3, f4, f5, f6⟩ := rrr_fields 0x04 c d.toNat a.toNat b.toNat 0 ty.code (by decide) (Nat.lt_of_lt_of_le d.isLt (by decide)) (Nat.lt_of_lt_of_le a.isLt (by decide)) (Nat.lt_of_lt_of_le b.isLt (by decide)) (by decide) hm _ rfl
  generalize (mkWord 0x04 c (fRRR d.toNat a.toNat b.toNat 0 ty.code)).toNat = wd at *
  cases ty <;> simp [rawDecode, decodeGen, regAt, predAt, bit_eq, guardOpt, f0, f1, f2, f3, f4, f5, f6] <;> first | rfl | decide

theorem RoundTrip.imad (c : Ctl) (ty : ITy) (sat : Bool) (d : Reg) (a : Reg) (b : Reg) (e : Reg) : RoundTrip.Statement (.imad c ty sat d a b e) := by
  intro hw wd he
  obtain rfl := Option.some.inj he
  apply decodeWord_of hw
  have hm : (sat.toNat * 4 + ty.code) < 8192 := (by cases ty <;> cases sat <;> decide)
  obtain ⟨f0, f1, f2, f3, f4, f5, f6⟩ := rrr_fields 0x05 c d.toNat a.toNat b.toNat e.toNat (sat.toNat * 4 + ty.code) (by decide) (Nat.lt_of_lt_of_le d.isLt (by decide)) (Nat.lt_of_lt_of_le a.isLt (by decide)) (Nat.lt_of_lt_of_le b.isLt (by decide)) (Nat.lt_of_lt_of_le e.isLt (by decide)) hm _ rfl
  generalize (mkWord 0x05 c (fRRR d.toNat a.toNat b.toNat e.toNat (sat.toNat * 4 + ty.code))).toNat = wd at *
  cases ty <;> cases sat <;> simp [rawDecode, decodeGen, regAt, predAt, bit_eq, guardOpt, f0, f1, f2, f3, f4, f5, f6] <;> first | rfl | decide

theorem RoundTrip.imadw (c : Ctl) (ty : ITy) (d : Reg) (a : Reg) (b : Reg) (e : Reg) : RoundTrip.Statement (.imadw c ty d a b e) := by
  intro hw wd he
  obtain rfl := Option.some.inj he
  apply decodeWord_of hw
  have hm : ty.code < 8192 := (by cases ty <;> decide)
  obtain ⟨f0, f1, f2, f3, f4, f5, f6⟩ := rrr_fields 0x06 c d.toNat a.toNat b.toNat e.toNat ty.code (by decide) (Nat.lt_of_lt_of_le d.isLt (by decide)) (Nat.lt_of_lt_of_le a.isLt (by decide)) (Nat.lt_of_lt_of_le b.isLt (by decide)) (Nat.lt_of_lt_of_le e.isLt (by decide)) hm _ rfl
  generalize (mkWord 0x06 c (fRRR d.toNat a.toNat b.toNat e.toNat ty.code)).toNat = wd at *
  cases ty <;> simp [rawDecode, decodeGen, regAt, predAt, bit_eq, guardOpt, f0, f1, f2, f3, f4, f5, f6] <;> first | rfl | decide

theorem RoundTrip.idiv (c : Ctl) (ty : ITy) (d : Reg) (a : Reg) (b : Reg) : RoundTrip.Statement (.idiv c ty d a b) := by
  intro hw wd he
  obtain rfl := Option.some.inj he
  apply decodeWord_of hw
  have hm : ty.code < 8192 := (by cases ty <;> decide)
  obtain ⟨f0, f1, f2, f3, f4, f5, f6⟩ := rrr_fields 0x07 c d.toNat a.toNat b.toNat 0 ty.code (by decide) (Nat.lt_of_lt_of_le d.isLt (by decide)) (Nat.lt_of_lt_of_le a.isLt (by decide)) (Nat.lt_of_lt_of_le b.isLt (by decide)) (by decide) hm _ rfl
  generalize (mkWord 0x07 c (fRRR d.toNat a.toNat b.toNat 0 ty.code)).toNat = wd at *
  cases ty <;> simp [rawDecode, decodeGen, regAt, predAt, bit_eq, guardOpt, f0, f1, f2, f3, f4, f5, f6] <;> first | rfl | decide

theorem RoundTrip.irem (c : Ctl) (ty : ITy) (d : Reg) (a : Reg) (b : Reg) : RoundTrip.Statement (.irem c ty d a b) := by
  intro hw wd he
  obtain rfl := Option.some.inj he
  apply decodeWord_of hw
  have hm : ty.code < 8192 := (by cases ty <;> decide)
  obtain ⟨f0, f1, f2, f3, f4, f5, f6⟩ := rrr_fields 0x08 c d.toNat a.toNat b.toNat 0 ty.code (by decide) (Nat.lt_of_lt_of_le d.isLt (by decide)) (Nat.lt_of_lt_of_le a.isLt (by decide)) (Nat.lt_of_lt_of_le b.isLt (by decide)) (by decide) hm _ rfl
  generalize (mkWord 0x08 c (fRRR d.toNat a.toNat b.toNat 0 ty.code)).toNat = wd at *
  cases ty <;> simp [rawDecode, decodeGen, regAt, predAt, bit_eq, guardOpt, f0, f1, f2, f3, f4, f5, f6] <;> first | rfl | decide

theorem RoundTrip.imin (c : Ctl) (ty : ITy) (d : Reg) (a : Reg) (b : Reg) : RoundTrip.Statement (.imin c ty d a b) := by
  intro hw wd he
  obtain rfl := Option.some.inj he
  apply decodeWord_of hw
  have hm : ty.code < 8192 := (by cases ty <;> decide)
  obtain ⟨f0, f1, f2, f3, f4, f5, f6⟩ := rrr_fields 0x09 c d.toNat a.toNat b.toNat 0 ty.code (by decide) (Nat.lt_of_lt_of_le d.isLt (by decide)) (Nat.lt_of_lt_of_le a.isLt (by decide)) (Nat.lt_of_lt_of_le b.isLt (by decide)) (by decide) hm _ rfl
  generalize (mkWord 0x09 c (fRRR d.toNat a.toNat b.toNat 0 ty.code)).toNat = wd at *
  cases ty <;> simp [rawDecode, decodeGen, regAt, predAt, bit_eq, guardOpt, f0, f1, f2, f3, f4, f5, f6] <;> first | rfl | decide

theorem RoundTrip.imax (c : Ctl) (ty : ITy) (d : Reg) (a : Reg) (b : Reg) : RoundTrip.Statement (.imax c ty d a b) := by
  intro hw wd he
  obtain rfl := Option.some.inj he
  apply decodeWord_of hw
  have hm : ty.code < 8192 := (by cases ty <;> decide)
  obtain ⟨f0, f1, f2, f3, f4, f5, f6⟩ := rrr_fields 0x0A c d.toNat a.toNat b.toNat 0 ty.code (by decide) (Nat.lt_of_lt_of_le d.isLt (by decide)) (Nat.lt_of_lt_of_le a.isLt (by decide)) (Nat.lt_of_lt_of_le b.isLt (by decide)) (by decide) hm _ rfl
  generalize (mkWord 0x0A c (fRRR d.toNat a.toNat b.toNat 0 ty.code)).toNat = wd at *
  cases ty <;> simp [rawDecode, decodeGen, regAt, predAt, bit_eq, guardOpt, f0, f1, f2, f3, f4, f5, f6] <;> first | rfl | decide

theorem RoundTrip.iabs (c : Ctl) (ty : ITy) (sat : Bool) (d : Reg) (a : Reg) : RoundTrip.Statement (.iabs c ty sat d a) := by
  intro hw wd he
  obtain rfl := Option.some.inj he
  apply decodeWord_of hw
  have hm : (sat.toNat * 4 + ty.code) < 8192 := (by cases ty <;> cases sat <;> decide)
  obtain ⟨f0, f1, f2, f3, f4, f5, f6⟩ := rrr_fields 0x0B c d.toNat a.toNat 0 0 (sat.toNat * 4 + ty.code) (by decide) (Nat.lt_of_lt_of_le d.isLt (by decide)) (Nat.lt_of_lt_of_le a.isLt (by decide)) (by decide) (by decide) hm _ rfl
  generalize (mkWord 0x0B c (fRRR d.toNat a.toNat 0 0 (sat.toNat * 4 + ty.code))).toNat = wd at *
  cases ty <;> cases sat <;> simp [rawDecode, decodeGen, regAt, predAt, bit_eq, guardOpt, f0, f1, f2, f3, f4, f5, f6] <;> first | rfl | decide

theorem RoundTrip.ineg (c : Ctl) (ty : ITy) (sat : Bool) (d : Reg) (a : Reg) : RoundTrip.Statement (.ineg c ty sat d a) := by
  intro hw wd he
  obtain rfl := Option.some.inj he
  apply decodeWord_of hw
  have hm : (sat.toNat * 4 + ty.code) < 8192 := (by cases ty <;> cases sat <;> decide)
  obtain ⟨f0, f1, f2, f3, f4, f5, f6⟩ := rrr_fields 0x0C c d.toNat a.toNat 0 0 (sat.toNat * 4 + ty.code) (by decide) (Nat.lt_of_lt_of_le d.isLt (by decide)) (Nat.lt_of_lt_of_le a.isLt (by decide)) (by decide) (by decide) hm _ rfl
  generalize (mkWord 0x0C c (fRRR d.toNat a.toNat 0 0 (sat.toNat * 4 + ty.code))).toNat = wd at *
  cases ty <;> cases sat <;> simp [rawDecode, decodeGen, regAt, predAt, bit_eq, guardOpt, f0, f1, f2, f3, f4, f5, f6] <;> first | rfl | decide

theorem RoundTrip.iaddi (c : Ctl) (ty : ITy) (sat : Bool) (d : Reg) (a : Reg) (imm : BitVec 24) : RoundTrip.Statement (.iaddi c ty sat d a imm) := by
  intro hw wd he
  obtain rfl := Option.some.inj he
  apply decodeWord_of hw
  have hm : (sat.toNat * 4 + ty.code) < 32 := (by cases ty <;> cases sat <;> decide)
  obtain ⟨f0, f1, f2, f3, f4, f5⟩ := rri_fields 0x0D c d.toNat a.toNat imm.toNat (sat.toNat * 4 + ty.code) (by decide) (Nat.lt_of_lt_of_le d.isLt (by decide)) (Nat.lt_of_lt_of_le a.isLt (by decide)) (Nat.lt_of_lt_of_le imm.isLt (by decide)) hm _ rfl
  generalize (mkWord 0x0D c (fRRI d.toNat a.toNat imm.toNat (sat.toNat * 4 + ty.code))).toNat = wd at *
  cases ty <;> cases sat <;> simp [rawDecode, decodeGen, regAt, predAt, bit_eq, guardOpt, ityOf_bits, f0, f1, f2, f3, f4, f5] <;> first | rfl | decide

theorem RoundTrip.icmp (c : Ctl) (cond : ICond) (ty : ITy) (p : Pred) (a : Reg) (b : Reg) : RoundTrip.Statement (.icmp c cond ty p a b) := by
  intro hw wd he
  obtain rfl := Option.some.inj he
  apply decodeWord_of hw
  have p_p : p.toNat < 8 := p.isLt
  have hm : (cond.code * 4 + ty.code) < 8192 := (by cases cond <;> cases ty <;> decide)
  obtain ⟨f0, f1, f2, f3, f4, f5, f6⟩ := rrr_fields 0x0E c p.toNat a.toNat b.toNat 0 (cond.code * 4 + ty.code) (by decide) (Nat.lt_of_lt_of_le p.isLt (by decide)) (Nat.lt_of_lt_of_le a.isLt (by decide)) (Nat.lt_of_lt_of_le b.isLt (by decide)) (by decide) hm _ rfl
  generalize (mkWord 0x0E c (fRRR p.toNat a.toNat b.toNat 0 (cond.code * 4 + ty.code))).toNat = wd at *
  cases cond <;> cases ty <;> simp [rawDecode, decodeGen, regAt, predAt, bit_eq, guardOpt, p_p, f0, f1, f2, f3, f4, f5, f6] <;> first | rfl | decide

theorem RoundTrip.icmpi (c : Ctl) (cond : ICond) (ty : ITy) (p : Pred) (a : Reg) (imm : BitVec 24) : RoundTrip.Statement (.icmpi c cond ty p a imm) := by
  intro hw wd he
  obtain rfl := Option.some.inj he
  apply decodeWord_of hw
  have p_p : p.toNat < 8 := p.isLt
  have hm : (cond.code * 4 + ty.code) < 32 := (by cases cond <;> cases ty <;> decide)
  obtain ⟨f0, f1, f2, f3, f4, f5⟩ := rri_fields 0x0F c p.toNat a.toNat imm.toNat (cond.code * 4 + ty.code) (by decide) (Nat.lt_of_lt_of_le p.isLt (by decide)) (Nat.lt_of_lt_of_le a.isLt (by decide)) (Nat.lt_of_lt_of_le imm.isLt (by decide)) hm _ rfl
  generalize (mkWord 0x0F c (fRRI p.toNat a.toNat imm.toNat (cond.code * 4 + ty.code))).toNat = wd at *
  cases cond <;> cases ty <;> simp [rawDecode, decodeGen, regAt, predAt, bit_eq, guardOpt, p_p, ityOf_bits, f0, f1, f2, f3, f4, f5] <;> first | rfl | decide

theorem RoundTrip.and (c : Ctl) (ty : ITy) (d : Reg) (a : Reg) (b : Reg) : RoundTrip.Statement (.and c ty d a b) := by
  intro hw wd he
  obtain rfl := Option.some.inj he
  apply decodeWord_of hw
  have hm : ty.code < 8192 := (by cases ty <;> decide)
  obtain ⟨f0, f1, f2, f3, f4, f5, f6⟩ := rrr_fields 0x10 c d.toNat a.toNat b.toNat 0 ty.code (by decide) (Nat.lt_of_lt_of_le d.isLt (by decide)) (Nat.lt_of_lt_of_le a.isLt (by decide)) (Nat.lt_of_lt_of_le b.isLt (by decide)) (by decide) hm _ rfl
  generalize (mkWord 0x10 c (fRRR d.toNat a.toNat b.toNat 0 ty.code)).toNat = wd at *
  cases ty <;> simp [rawDecode, decodeGen, regAt, predAt, bit_eq, guardOpt, f0, f1, f2, f3, f4, f5, f6] <;> first | rfl | decide

theorem RoundTrip.or (c : Ctl) (ty : ITy) (d : Reg) (a : Reg) (b : Reg) : RoundTrip.Statement (.or c ty d a b) := by
  intro hw wd he
  obtain rfl := Option.some.inj he
  apply decodeWord_of hw
  have hm : ty.code < 8192 := (by cases ty <;> decide)
  obtain ⟨f0, f1, f2, f3, f4, f5, f6⟩ := rrr_fields 0x11 c d.toNat a.toNat b.toNat 0 ty.code (by decide) (Nat.lt_of_lt_of_le d.isLt (by decide)) (Nat.lt_of_lt_of_le a.isLt (by decide)) (Nat.lt_of_lt_of_le b.isLt (by decide)) (by decide) hm _ rfl
  generalize (mkWord 0x11 c (fRRR d.toNat a.toNat b.toNat 0 ty.code)).toNat = wd at *
  cases ty <;> simp [rawDecode, decodeGen, regAt, predAt, bit_eq, guardOpt, f0, f1, f2, f3, f4, f5, f6] <;> first | rfl | decide

theorem RoundTrip.xor (c : Ctl) (ty : ITy) (d : Reg) (a : Reg) (b : Reg) : RoundTrip.Statement (.xor c ty d a b) := by
  intro hw wd he
  obtain rfl := Option.some.inj he
  apply decodeWord_of hw
  have hm : ty.code < 8192 := (by cases ty <;> decide)
  obtain ⟨f0, f1, f2, f3, f4, f5, f6⟩ := rrr_fields 0x12 c d.toNat a.toNat b.toNat 0 ty.code (by decide) (Nat.lt_of_lt_of_le d.isLt (by decide)) (Nat.lt_of_lt_of_le a.isLt (by decide)) (Nat.lt_of_lt_of_le b.isLt (by decide)) (by decide) hm _ rfl
  generalize (mkWord 0x12 c (fRRR d.toNat a.toNat b.toNat 0 ty.code)).toNat = wd at *
  cases ty <;> simp [rawDecode, decodeGen, regAt, predAt, bit_eq, guardOpt, f0, f1, f2, f3, f4, f5, f6] <;> first | rfl | decide

theorem RoundTrip.not (c : Ctl) (ty : ITy) (d : Reg) (a : Reg) : RoundTrip.Statement (.not c ty d a) := by
  intro hw wd he
  obtain rfl := Option.some.inj he
  apply decodeWord_of hw
  have hm : ty.code < 8192 := (by cases ty <;> decide)
  obtain ⟨f0, f1, f2, f3, f4, f5, f6⟩ := rrr_fields 0x13 c d.toNat a.toNat 0 0 ty.code (by decide) (Nat.lt_of_lt_of_le d.isLt (by decide)) (Nat.lt_of_lt_of_le a.isLt (by decide)) (by decide) (by decide) hm _ rfl
  generalize (mkWord 0x13 c (fRRR d.toNat a.toNat 0 0 ty.code)).toNat = wd at *
  cases ty <;> simp [rawDecode, decodeGen, regAt, predAt, bit_eq, guardOpt, f0, f1, f2, f3, f4, f5, f6] <;> first | rfl | decide

theorem RoundTrip.blut3 (c : Ctl) (ty : ITy) (tt : BitVec 8) (d : Reg) (a : Reg) (b : Reg) (e : Reg) : RoundTrip.Statement (.blut3 c ty tt d a b e) := by
  intro hw wd he
  obtain rfl := Option.some.inj he
  apply decodeWord_of hw
  have hm : (tt.toNat * 8 + ty.code) < 8192 := (by have := tt.isLt; cases ty <;> (try simp only [ITy.code, ICond.code, LogicOp.code, ShiftKind.code, MoviForm.code, FTy.code, Rnd.code, CFmt.code, PFmt.code, XMode.code, VoteOp.code, XOp.code, Size.code, Scope.code, FenceKind.code, AtomOp.code, WCond.code, BarOp.code, Space.modBase, Space.actlBits, Bool.toNat_true, Bool.toNat_false]) <;> omega)
  have x0 : bits ((tt.toNat * 8 + ty.code)) 0 13 = (tt.toNat * 8 + ty.code) := by
    have : ty.code < 4 := by cases ty <;> decide
    have := tt.isLt; simp only [bits]; omega
  have x1 : bits ((tt.toNat * 8 + ty.code)) 3 8 = tt.toNat := by
    have : ty.code < 4 := by cases ty <;> decide
    have := tt.isLt; simp only [bits]; omega
  have x2 : bits ((tt.toNat * 8 + ty.code)) 2 1 = 0 := by
    have : ty.code < 4 := by cases ty <;> decide
    have := tt.isLt; simp only [bits]; omega
  have x3 : bits ((tt.toNat * 8 + ty.code)) 11 2 = 0 := by
    have : ty.code < 4 := by cases ty <;> decide
    have := tt.isLt; simp only [bits]; omega
  obtain ⟨f0, f1, f2, f3, f4, f5, f6⟩ := rrr_fields 0x14 c d.toNat a.toNat b.toNat e.toNat (tt.toNat * 8 + ty.code) (by decide) (Nat.lt_of_lt_of_le d.isLt (by decide)) (Nat.lt_of_lt_of_le a.isLt (by decide)) (Nat.lt_of_lt_of_le b.isLt (by decide)) (Nat.lt_of_lt_of_le e.isLt (by decide)) hm _ rfl
  generalize (mkWord 0x14 c (fRRR d.toNat a.toNat b.toNat e.toNat (tt.toNat * 8 + ty.code))).toNat = wd at *
  simp [rawDecode, decodeGen, regAt, predAt, bit_eq, guardOpt, f0, f1, f2, f3, f4, f5, f6, x0, x1, x2, x3] <;> first | rfl | decide

theorem RoundTrip.lopi (c : Ctl) (op : LogicOp) (ty : ITy) (d : Reg) (a : Reg) (imm : BitVec 24) : RoundTrip.Statement (.lopi c op ty d a imm) := by
  intro hw wd he
  obtain rfl := Option.some.inj he
  apply decodeWord_of hw
  have hm : (op.code * 4 + ty.code) < 32 := (by cases op <;> cases ty <;> decide)
  obtain ⟨f0, f1, f2, f3, f4, f5⟩ := rri_fields 0x15 c d.toNat a.toNat imm.toNat (op.code * 4 + ty.code) (by decide) (Nat.lt_of_lt_of_le d.isLt (by decide)) (Nat.lt_of_lt_of_le a.isLt (by decide)) (Nat.lt_of_lt_of_le imm.isLt (by decide)) hm _ rfl
  generalize (mkWord 0x15 c (fRRI d.toNat a.toNat imm.toNat (op.code * 4 + ty.code))).toNat = wd at *
  cases op <;> cases ty <;> simp [rawDecode, decodeGen, regAt, predAt, bit_eq, guardOpt, ityOf_bits, f0, f1, f2, f3, f4, f5] <;> first | rfl | decide

theorem RoundTrip.shl (c : Ctl) (ty : ITy) (d : Reg) (a : Reg) (b : Reg) : RoundTrip.Statement (.shl c ty d a b) := by
  intro hw wd he
  obtain rfl := Option.some.inj he
  apply decodeWord_of hw
  have hm : ty.code < 8192 := (by cases ty <;> decide)
  obtain ⟨f0, f1, f2, f3, f4, f5, f6⟩ := rrr_fields 0x16 c d.toNat a.toNat b.toNat 0 ty.code (by decide) (Nat.lt_of_lt_of_le d.isLt (by decide)) (Nat.lt_of_lt_of_le a.isLt (by decide)) (Nat.lt_of_lt_of_le b.isLt (by decide)) (by decide) hm _ rfl
  generalize (mkWord 0x16 c (fRRR d.toNat a.toNat b.toNat 0 ty.code)).toNat = wd at *
  cases ty <;> simp [rawDecode, decodeGen, regAt, predAt, bit_eq, guardOpt, f0, f1, f2, f3, f4, f5, f6] <;> first | rfl | decide

theorem RoundTrip.shr (c : Ctl) (ty : ITy) (d : Reg) (a : Reg) (b : Reg) : RoundTrip.Statement (.shr c ty d a b) := by
  intro hw wd he
  obtain rfl := Option.some.inj he
  apply decodeWord_of hw
  have hm : ty.code < 8192 := (by cases ty <;> decide)
  obtain ⟨f0, f1, f2, f3, f4, f5, f6⟩ := rrr_fields 0x17 c d.toNat a.toNat b.toNat 0 ty.code (by decide) (Nat.lt_of_lt_of_le d.isLt (by decide)) (Nat.lt_of_lt_of_le a.isLt (by decide)) (Nat.lt_of_lt_of_le b.isLt (by decide)) (by decide) hm _ rfl
  generalize (mkWord 0x17 c (fRRR d.toNat a.toNat b.toNat 0 ty.code)).toNat = wd at *
  cases ty <;> simp [rawDecode, decodeGen, regAt, predAt, bit_eq, guardOpt, f0, f1, f2, f3, f4, f5, f6] <;> first | rfl | decide

theorem RoundTrip.sar (c : Ctl) (ty : ITy) (d : Reg) (a : Reg) (b : Reg) : RoundTrip.Statement (.sar c ty d a b) := by
  intro hw wd he
  obtain rfl := Option.some.inj he
  apply decodeWord_of hw
  have hm : ty.code < 8192 := (by cases ty <;> decide)
  obtain ⟨f0, f1, f2, f3, f4, f5, f6⟩ := rrr_fields 0x18 c d.toNat a.toNat b.toNat 0 ty.code (by decide) (Nat.lt_of_lt_of_le d.isLt (by decide)) (Nat.lt_of_lt_of_le a.isLt (by decide)) (Nat.lt_of_lt_of_le b.isLt (by decide)) (by decide) hm _ rfl
  generalize (mkWord 0x18 c (fRRR d.toNat a.toNat b.toNat 0 ty.code)).toNat = wd at *
  cases ty <;> simp [rawDecode, decodeGen, regAt, predAt, bit_eq, guardOpt, f0, f1, f2, f3, f4, f5, f6] <;> first | rfl | decide

theorem RoundTrip.rol (c : Ctl) (ty : ITy) (d : Reg) (a : Reg) (b : Reg) : RoundTrip.Statement (.rol c ty d a b) := by
  intro hw wd he
  obtain rfl := Option.some.inj he
  apply decodeWord_of hw
  have hm : ty.code < 8192 := (by cases ty <;> decide)
  obtain ⟨f0, f1, f2, f3, f4, f5, f6⟩ := rrr_fields 0x19 c d.toNat a.toNat b.toNat 0 ty.code (by decide) (Nat.lt_of_lt_of_le d.isLt (by decide)) (Nat.lt_of_lt_of_le a.isLt (by decide)) (Nat.lt_of_lt_of_le b.isLt (by decide)) (by decide) hm _ rfl
  generalize (mkWord 0x19 c (fRRR d.toNat a.toNat b.toNat 0 ty.code)).toNat = wd at *
  cases ty <;> simp [rawDecode, decodeGen, regAt, predAt, bit_eq, guardOpt, f0, f1, f2, f3, f4, f5, f6] <;> first | rfl | decide

theorem RoundTrip.shi (c : Ctl) (kind : ShiftKind) (ty : ITy) (d : Reg) (a : Reg) (imm : BitVec 24) : RoundTrip.Statement (.shi c kind ty d a imm) := by
  intro hw wd he
  obtain rfl := Option.some.inj he
  apply decodeWord_of hw
  have hm : (kind.code * 4 + ty.code) < 32 := (by cases kind <;> cases ty <;> decide)
  obtain ⟨f0, f1, f2, f3, f4, f5⟩ := rri_fields 0x1A c d.toNat a.toNat imm.toNat (kind.code * 4 + ty.code) (by decide) (Nat.lt_of_lt_of_le d.isLt (by decide)) (Nat.lt_of_lt_of_le a.isLt (by decide)) (Nat.lt_of_lt_of_le imm.isLt (by decide)) hm _ rfl
  generalize (mkWord 0x1A c (fRRI d.toNat a.toNat imm.toNat (kind.code * 4 + ty.code))).toNat = wd at *
  cases kind <;> cases ty <;> simp [rawDecode, decodeGen, regAt, predAt, bit_eq, guardOpt, ityOf_bits, f0, f1, f2, f3, f4, f5] <;> first | rfl | decide

theorem RoundTrip.bfx (c : Ctl) (ty : ITy) (d : Reg) (a : Reg) (b : Reg) : RoundTrip.Statement (.bfx c ty d a b) := by
  intro hw wd he
  obtain rfl := Option.some.inj he
  apply decodeWord_of hw
  have hm : ty.code < 8192 := (by cases ty <;> decide)
  obtain ⟨f0, f1, f2, f3, f4, f5, f6⟩ := rrr_fields 0x1B c d.toNat a.toNat b.toNat 0 ty.code (by decide) (Nat.lt_of_lt_of_le d.isLt (by decide)) (Nat.lt_of_lt_of_le a.isLt (by decide)) (Nat.lt_of_lt_of_le b.isLt (by decide)) (by decide) hm _ rfl
  generalize (mkWord 0x1B c (fRRR d.toNat a.toNat b.toNat 0 ty.code)).toNat = wd at *
  cases ty <;> simp [rawDecode, decodeGen, regAt, predAt, bit_eq, guardOpt, f0, f1, f2, f3, f4, f5, f6] <;> first | rfl | decide

theorem RoundTrip.bfi (c : Ctl) (ty : ITy) (d : Reg) (a : Reg) (b : Reg) : RoundTrip.Statement (.bfi c ty d a b) := by
  intro hw wd he
  obtain rfl := Option.some.inj he
  apply decodeWord_of hw
  have hm : ty.code < 8192 := (by cases ty <;> decide)
  obtain ⟨f0, f1, f2, f3, f4, f5, f6⟩ := rrr_fields 0x1C c d.toNat a.toNat b.toNat 0 ty.code (by decide) (Nat.lt_of_lt_of_le d.isLt (by decide)) (Nat.lt_of_lt_of_le a.isLt (by decide)) (Nat.lt_of_lt_of_le b.isLt (by decide)) (by decide) hm _ rfl
  generalize (mkWord 0x1C c (fRRR d.toNat a.toNat b.toNat 0 ty.code)).toNat = wd at *
  cases ty <;> simp [rawDecode, decodeGen, regAt, predAt, bit_eq, guardOpt, f0, f1, f2, f3, f4, f5, f6] <;> first | rfl | decide

theorem RoundTrip.popc (c : Ctl) (ty : ITy) (d : Reg) (a : Reg) : RoundTrip.Statement (.popc c ty d a) := by
  intro hw wd he
  obtain rfl := Option.some.inj he
  apply decodeWord_of hw
  have hm : ty.code < 8192 := (by cases ty <;> decide)
  obtain ⟨f0, f1, f2, f3, f4, f5, f6⟩ := rrr_fields 0x1D c d.toNat a.toNat 0 0 ty.code (by decide) (Nat.lt_of_lt_of_le d.isLt (by decide)) (Nat.lt_of_lt_of_le a.isLt (by decide)) (by decide) (by decide) hm _ rfl
  generalize (mkWord 0x1D c (fRRR d.toNat a.toNat 0 0 ty.code)).toNat = wd at *
  cases ty <;> simp [rawDecode, decodeGen, regAt, predAt, bit_eq, guardOpt, f0, f1, f2, f3, f4, f5, f6] <;> first | rfl | decide

theorem RoundTrip.clz (c : Ctl) (ty : ITy) (d : Reg) (a : Reg) : RoundTrip.Statement (.clz c ty d a) := by
  intro hw wd he
  obtain rfl := Option.some.inj he
  apply decodeWord_of hw
  have hm : ty.code < 8192 := (by cases ty <;> decide)
  obtain ⟨f0, f1, f2, f3, f4, f5, f6⟩ := rrr_fields 0x1E c d.toNat a.toNat 0 0 ty.code (by decide) (Nat.lt_of_lt_of_le d.isLt (by decide)) (Nat.lt_of_lt_of_le a.isLt (by decide)) (by decide) (by decide) hm _ rfl
  generalize (mkWord 0x1E c (fRRR d.toNat a.toNat 0 0 ty.code)).toNat = wd at *
  cases ty <;> simp [rawDecode, decodeGen, regAt, predAt, bit_eq, guardOpt, f0, f1, f2, f3, f4, f5, f6] <;> first | rfl | decide

theorem RoundTrip.ctz (c : Ctl) (ty : ITy) (d : Reg) (a : Reg) : RoundTrip.Statement (.ctz c ty d a) := by
  intro hw wd he
  obtain rfl := Option.some.inj he
  apply decodeWord_of hw
  have hm : ty.code < 8192 := (by cases ty <;> decide)
  obtain ⟨f0, f1, f2, f3, f4, f5, f6⟩ := rrr_fields 0x1F c d.toNat a.toNat 0 0 ty.code (by decide) (Nat.lt_of_lt_of_le d.isLt (by decide)) (Nat.lt_of_lt_of_le a.isLt (by decide)) (by decide) (by decide) hm _ rfl
  generalize (mkWord 0x1F c (fRRR d.toNat a.toNat 0 0 ty.code)).toNat = wd at *
  cases ty <;> simp [rawDecode, decodeGen, regAt, predAt, bit_eq, guardOpt, f0, f1, f2, f3, f4, f5, f6] <;> first | rfl | decide

theorem RoundTrip.brev (c : Ctl) (ty : ITy) (d : Reg) (a : Reg) : RoundTrip.Statement (.brev c ty d a) := by
  intro hw wd he
  obtain rfl := Option.some.inj he
  apply decodeWord_of hw
  have hm : ty.code < 8192 := (by cases ty <;> decide)
  obtain ⟨f0, f1, f2, f3, f4, f5, f6⟩ := rrr_fields 0x20 c d.toNat a.toNat 0 0 ty.code (by decide) (Nat.lt_of_lt_of_le d.isLt (by decide)) (Nat.lt_of_lt_of_le a.isLt (by decide)) (by decide) (by decide) hm _ rfl
  generalize (mkWord 0x20 c (fRRR d.toNat a.toNat 0 0 ty.code)).toNat = wd at *
  cases ty <;> simp [rawDecode, decodeGen, regAt, predAt, bit_eq, guardOpt, f0, f1, f2, f3, f4, f5, f6] <;> first | rfl | decide

theorem RoundTrip.permb (c : Ctl) (d : Reg) (a : Reg) (b : Reg) (e : Reg) : RoundTrip.Statement (.permb c d a b e) := by
  intro hw wd he
  obtain rfl := Option.some.inj he
  apply decodeWord_of hw
  have hm : 0 < 8192 := (by decide)
  obtain ⟨f0, f1, f2, f3, f4, f5, f6⟩ := rrr_fields 0x21 c d.toNat a.toNat b.toNat e.toNat 0 (by decide) (Nat.lt_of_lt_of_le d.isLt (by decide)) (Nat.lt_of_lt_of_le a.isLt (by decide)) (Nat.lt_of_lt_of_le b.isLt (by decide)) (Nat.lt_of_lt_of_le e.isLt (by decide)) hm _ rfl
  generalize (mkWord 0x21 c (fRRR d.toNat a.toNat b.toNat e.toNat 0)).toNat = wd at *
  simp [rawDecode, decodeGen, regAt, predAt, bit_eq, guardOpt, f0, f1, f2, f3, f4, f5, f6] <;> first | rfl | decide

theorem RoundTrip.lea (c : Ctl) (ty : ITy) (sh : BitVec 3) (d : Reg) (a : Reg) (b : Reg) : RoundTrip.Statement (.lea c ty sh d a b) := by
  intro hw wd he
  obtain rfl := Option.some.inj he
  apply decodeWord_of hw
  have p_sh : sh.toNat < 8 := sh.isLt
  have hm : (sh.toNat * 4 + ty.code) < 8192 := (by have := sh.isLt; cases ty <;> (try simp only [ITy.code, ICond.code, LogicOp.code, ShiftKind.code, MoviForm.code, FTy.code, Rnd.code, CFmt.code, PFmt.code, XMode.code, VoteOp.code, XOp.code, Size.code, Scope.code, FenceKind.code, AtomOp.code, WCond.code, BarOp.code, Space.modBase, Space.actlBits, Bool.toNat_true, Bool.toNat_false]) <;> omega)
  have x0 : bits ((sh.toNat * 4 + ty.code)) 0 13 = (sh.toNat * 4 + ty.code) := by
    have : ty.code < 4 := by cases ty <;> decide
    have := sh.isLt; simp only [bits]; omega
  have x1 : bits ((sh.toNat * 4 + ty.code)) 2 3 = sh.toNat := by
    have : ty.code < 4 := by cases ty <;> decide
    have := sh.isLt; simp only [bits]; omega
  obtain ⟨f0, f1, f2, f3, f4, f5, f6⟩ := rrr_fields 0x22 c d.toNat a.toNat b.toNat 0 (sh.toNat * 4 + ty.code) (by decide) (Nat.lt_of_lt_of_le d.isLt (by decide)) (Nat.lt_of_lt_of_le a.isLt (by decide)) (Nat.lt_of_lt_of_le b.isLt (by decide)) (by decide) hm _ rfl
  generalize (mkWord 0x22 c (fRRR d.toNat a.toNat b.toNat 0 (sh.toNat * 4 + ty.code))).toNat = wd at *
  have h4 : ty.code < 4 := by cases ty <;> decide
  have h32 : sh.toNat * 4 + ty.code < 32 := by have := sh.isLt; omega
  simp [rawDecode, decodeGen, regAt, predAt, bit_eq, guardOpt, p_sh, f0, f1, f2, f3, f4, f5, f6, x0, x1, h32]

theorem RoundTrip.sel (c : Ctl) (ty : ITy) (d : Reg) (a : Reg) (b : Reg) (p : Pred) (neg : Bool) : RoundTrip.Statement (.sel c ty d a b p neg) := by
  intro hw wd he
  obtain rfl := Option.some.inj he
  apply decodeWord_of hw
  have p_p : p.toNat < 8 := p.isLt
  have hm : (neg.toNat * 4 + ty.code) < 8192 := (by cases ty <;> cases neg <;> decide)
  obtain ⟨f0, f1, f2, f3, f4, f5, f6⟩ := rrr_fields 0x23 c d.toNat a.toNat b.toNat p.toNat (neg.toNat * 4 + ty.code) (by decide) (Nat.lt_of_lt_of_le d.isLt (by decide)) (Nat.lt_of_lt_of_le a.isLt (by decide)) (Nat.lt_of_lt_of_le b.isLt (by decide)) (Nat.lt_of_lt_of_le p.isLt (by decide)) hm _ rfl
  generalize (mkWord 0x23 c (fRRR d.toNat a.toNat b.toNat p.toNat (neg.toNat * 4 + ty.code))).toNat = wd at *
  cases ty <;> cases neg <;> simp [rawDecode, decodeGen, regAt, predAt, bit_eq, guardOpt, p_p, f0, f1, f2, f3, f4, f5, f6] <;> first | rfl | decide

theorem RoundTrip.plop (c : Ctl) (tt : BitVec 8) (d : Pred) (a : Pred) (b : Pred) (e : Pred) : RoundTrip.Statement (.plop c tt d a b e) := by
  intro hw wd he
  obtain rfl := Option.some.inj he
  apply decodeWord_of hw
  have p_d : d.toNat < 8 := d.isLt
  have p_a : a.toNat < 8 := a.isLt
  have p_b : b.toNat < 8 := b.isLt
  have p_e : e.toNat < 8 := e.isLt
  have hm : (tt.toNat * 8) < 8192 := (by have := tt.isLt; (try simp only [ITy.code, ICond.code, LogicOp.code, ShiftKind.code, MoviForm.code, FTy.code, Rnd.code, CFmt.code, PFmt.code, XMode.code, VoteOp.code, XOp.code, Size.code, Scope.code, FenceKind.code, AtomOp.code, WCond.code, BarOp.code, Space.modBase, Space.actlBits, Bool.toNat_true, Bool.toNat_false]) <;> omega)
  have x0 : bits ((tt.toNat * 8)) 3 8 = tt.toNat := by
    have := tt.isLt; simp only [bits]; omega
  have x1 : bits ((tt.toNat * 8)) 0 3 = 0 := by
    have := tt.isLt; simp only [bits]; omega
  have x2 : bits ((tt.toNat * 8)) 11 2 = 0 := by
    have := tt.isLt; simp only [bits]; omega
  obtain ⟨f0, f1, f2, f3, f4, f5, f6⟩ := rrr_fields 0x24 c d.toNat a.toNat b.toNat e.toNat (tt.toNat * 8) (by decide) (Nat.lt_of_lt_of_le d.isLt (by decide)) (Nat.lt_of_lt_of_le a.isLt (by decide)) (Nat.lt_of_lt_of_le b.isLt (by decide)) (Nat.lt_of_lt_of_le e.isLt (by decide)) hm _ rfl
  generalize (mkWord 0x24 c (fRRR d.toNat a.toNat b.toNat e.toNat (tt.toNat * 8))).toNat = wd at *
  simp [rawDecode, decodeGen, regAt, predAt, bit_eq, guardOpt, p_d, p_a, p_b, p_e, f0, f1, f2, f3, f4, f5, f6, x0, x1, x2] <;> first | rfl | decide

theorem RoundTrip.mov (c : Ctl) (ty : ITy) (d : Reg) (a : Reg) : RoundTrip.Statement (.mov c ty d a) := by
  intro hw wd he
  obtain rfl := Option.some.inj he
  apply decodeWord_of hw
  have hm : ty.code < 8192 := (by cases ty <;> decide)
  obtain ⟨f0, f1, f2, f3, f4, f5, f6⟩ := rrr_fields 0x25 c d.toNat a.toNat 0 0 ty.code (by decide) (Nat.lt_of_lt_of_le d.isLt (by decide)) (Nat.lt_of_lt_of_le a.isLt (by decide)) (by decide) (by decide) hm _ rfl
  generalize (mkWord 0x25 c (fRRR d.toNat a.toNat 0 0 ty.code)).toNat = wd at *
  cases ty <;> simp [rawDecode, decodeGen, regAt, predAt, bit_eq, guardOpt, f0, f1, f2, f3, f4, f5, f6] <;> first | rfl | decide

theorem RoundTrip.movi (c : Ctl) (form : MoviForm) (d : Reg) (imm : Word) : RoundTrip.Statement (.movi c form d imm) := by
  intro hw wd he
  obtain rfl := Option.some.inj he
  apply decodeWord_of hw
  have hm : form.code < 32 := (by cases form <;> decide)
  obtain ⟨f0, f1, f2, f3, f4⟩ := ri32_fields 0x26 c d.toNat imm.toNat form.code (by decide) (Nat.lt_of_lt_of_le d.isLt (by decide)) (Nat.lt_of_lt_of_le imm.isLt (by decide)) hm _ rfl
  generalize (mkWord 0x26 c (fRI32 d.toNat imm.toNat form.code)).toNat = wd at *
  cases form <;> simp [rawDecode, decodeGen, regAt, predAt, bit_eq, guardOpt, f0, f1, f2, f3, f4] <;> first | rfl | decide

theorem RoundTrip.movxRd (c : Ctl) (w64 : Bool) (d : Reg) (a : Reg) (base : Reg) : RoundTrip.Statement (.movxRd c w64 d a base) := by
  intro hw wd he
  obtain rfl := Option.some.inj he
  apply decodeWord_of hw
  have hm : (w64.toNat * 2) < 8192 := (by cases w64 <;> decide)
  obtain ⟨f0, f1, f2, f3, f4, f5, f6⟩ := rrr_fields 0x27 c d.toNat a.toNat base.toNat 0 (w64.toNat * 2) (by decide) (Nat.lt_of_lt_of_le d.isLt (by decide)) (Nat.lt_of_lt_of_le a.isLt (by decide)) (Nat.lt_of_lt_of_le base.isLt (by decide)) (by decide) hm _ rfl
  generalize (mkWord 0x27 c (fRRR d.toNat a.toNat base.toNat 0 (w64.toNat * 2))).toNat = wd at *
  cases w64 <;> simp [rawDecode, decodeGen, regAt, predAt, bit_eq, guardOpt, f0, f1, f2, f3, f4, f5, f6] <;> first | rfl | decide

theorem RoundTrip.movxWr (c : Ctl) (w64 : Bool) (a : Reg) (base : Reg) (e : Reg) : RoundTrip.Statement (.movxWr c w64 a base e) := by
  intro hw wd he
  obtain rfl := Option.some.inj he
  apply decodeWord_of hw
  have hm : (w64.toNat * 2 + 1) < 8192 := (by cases w64 <;> decide)
  obtain ⟨f0, f1, f2, f3, f4, f5, f6⟩ := rrr_fields 0x27 c 0 a.toNat base.toNat e.toNat (w64.toNat * 2 + 1) (by decide) (by decide) (Nat.lt_of_lt_of_le a.isLt (by decide)) (Nat.lt_of_lt_of_le base.isLt (by decide)) (Nat.lt_of_lt_of_le e.isLt (by decide)) hm _ rfl
  generalize (mkWord 0x27 c (fRRR 0 a.toNat base.toNat e.toNat (w64.toNat * 2 + 1))).toNat = wd at *
  cases w64 <;> simp [rawDecode, decodeGen, regAt, predAt, bit_eq, guardOpt, f0, f1, f2, f3, f4, f5, f6] <;> first | rfl | decide

theorem RoundTrip.srd (c : Ctl) (w64 : Bool) (sel : SReg) (d : Reg) : RoundTrip.Statement (.srd c w64 sel d) := by
  intro hw wd he
  obtain rfl := Option.some.inj he
  apply decodeWord_of hw
  have hm : w64.toNat < 32 := (by cases w64 <;> decide)
  obtain ⟨f0, f1, f2, f3, f4, f5⟩ := rri_fields 0x28 c d.toNat 0 sel.code w64.toNat (by decide) (Nat.lt_of_lt_of_le d.isLt (by decide)) (by decide) (by cases sel <;> decide) hm _ rfl
  generalize (mkWord 0x28 c (fRRI d.toNat 0 sel.code w64.toNat)).toNat = wd at *
  cases w64 <;> cases sel <;> simp [rawDecode, decodeGen, regAt, predAt, bit_eq, guardOpt, ityOf_bits, f0, f1, f2, f3, f4, f5] <;> first | rfl | decide

theorem RoundTrip.swr (c : Ctl) (a : Reg) : RoundTrip.Statement (.swr c a) := by
  intro hw wd he
  obtain rfl := Option.some.inj he
  apply decodeWord_of hw
  have hm : 0 < 32 := (by decide)
  obtain ⟨f0, f1, f2, f3, f4, f5⟩ := rri_fields 0x29 c 0 a.toNat 0x1B 0 (by decide) (by decide) (Nat.lt_of_lt_of_le a.isLt (by decide)) (by decide) hm _ rfl
  generalize (mkWord 0x29 c (fRRI 0 a.toNat 0x1B 0)).toNat = wd at *
  simp [rawDecode, decodeGen, regAt, predAt, bit_eq, guardOpt, ityOf_bits, f0, f1, f2, f3, f4, f5] <;> first | rfl | decide

theorem RoundTrip.fadd (c : Ctl) (ty : FTy) (rnd : Rnd) (m : FMods) (d : Reg) (a : Reg) (b : Reg) : RoundTrip.Statement (.fadd c ty rnd m d a b) := by
  intro hw wd he
  obtain rfl := Option.some.inj he
  apply decodeWord_of hw
  obtain ⟨g0, g1, g2, g3, g4, g5⟩ := fmod_fields ty rnd m 0 (by decide)
  obtain ⟨f0, f1, f2, f3, f4, f5, f6⟩ := rrr_fields 0x30 c d.toNat a.toNat b.toNat 0 (fFMOD ty rnd.code m 0) (by decide) (Nat.lt_of_lt_of_le d.isLt (by decide)) (Nat.lt_of_lt_of_le a.isLt (by decide)) (Nat.lt_of_lt_of_le b.isLt (by decide)) (by decide) g0 _ rfl
  generalize (mkWord 0x30 c (fRRR d.toNat a.toNat b.toNat 0 (fFMOD ty rnd.code m 0))).toNat = wd at *
  simp [rawDecode, decodeFloat, regAt, predAt, bit_eq, guardOpt, f0, f1, f2, f3, f4, f5, f6, g1, g2, g3, g4, g5] <;> first | rfl | decide

theorem RoundTrip.fsub (c : Ctl) (ty : FTy) (rnd : Rnd) (m : FMods) (d : Reg) (a : Reg) (b : Reg) : RoundTrip.Statement (.fsub c ty rnd m d a b) := by
  intro hw wd he
  obtain rfl := Option.some.inj he
  apply decodeWord_of hw
  obtain ⟨g0, g1, g2, g3, g4, g5⟩ := fmod_fields ty rnd m 0 (by decide)
  obtain ⟨f0, f1, f2, f3, f4, f5, f6⟩ := rrr_fields 0x31 c d.toNat a.toNat b.toNat 0 (fFMOD ty rnd.code m 0) (by decide) (Nat.lt_of_lt_of_le d.isLt (by decide)) (Nat.lt_of_lt_of_le a.isLt (by decide)) (Nat.lt_of_lt_of_le b.isLt (by decide)) (by decide) g0 _ rfl
  generalize (mkWord 0x31 c (fRRR d.toNat a.toNat b.toNat 0 (fFMOD ty rnd.code m 0))).toNat = wd at *
  simp [rawDecode, decodeFloat, regAt, predAt, bit_eq, guardOpt, f0, f1, f2, f3, f4, f5, f6, g1, g2, g3, g4, g5] <;> first | rfl | decide

theorem RoundTrip.fmul (c : Ctl) (ty : FTy) (rnd : Rnd) (m : FMods) (d : Reg) (a : Reg) (b : Reg) : RoundTrip.Statement (.fmul c ty rnd m d a b) := by
  intro hw wd he
  obtain rfl := Option.some.inj he
  apply decodeWord_of hw
  obtain ⟨g0, g1, g2, g3, g4, g5⟩ := fmod_fields ty rnd m 0 (by decide)
  obtain ⟨f0, f1, f2, f3, f4, f5, f6⟩ := rrr_fields 0x32 c d.toNat a.toNat b.toNat 0 (fFMOD ty rnd.code m 0) (by decide) (Nat.lt_of_lt_of_le d.isLt (by decide)) (Nat.lt_of_lt_of_le a.isLt (by decide)) (Nat.lt_of_lt_of_le b.isLt (by decide)) (by decide) g0 _ rfl
  generalize (mkWord 0x32 c (fRRR d.toNat a.toNat b.toNat 0 (fFMOD ty rnd.code m 0))).toNat = wd at *
  simp [rawDecode, decodeFloat, regAt, predAt, bit_eq, guardOpt, f0, f1, f2, f3, f4, f5, f6, g1, g2, g3, g4, g5] <;> first | rfl | decide

theorem RoundTrip.ffma (c : Ctl) (ty : FTy) (rnd : Rnd) (m : FMods) (d : Reg) (a : Reg) (b : Reg) (e : Reg) : RoundTrip.Statement (.ffma c ty rnd m d a b e) := by
  intro hw wd he
  obtain rfl := Option.some.inj he
  apply decodeWord_of hw
  obtain ⟨g0, g1, g2, g3, g4, g5⟩ := fmod_fields ty rnd m 0 (by decide)
  obtain ⟨f0, f1, f2, f3, f4, f5, f6⟩ := rrr_fields 0x33 c d.toNat a.toNat b.toNat e.toNat (fFMOD ty rnd.code m 0) (by decide) (Nat.lt_of_lt_of_le d.isLt (by decide)) (Nat.lt_of_lt_of_le a.isLt (by decide)) (Nat.lt_of_lt_of_le b.isLt (by decide)) (Nat.lt_of_lt_of_le e.isLt (by decide)) g0 _ rfl
  generalize (mkWord 0x33 c (fRRR d.toNat a.toNat b.toNat e.toNat (fFMOD ty rnd.code m 0))).toNat = wd at *
  simp [rawDecode, decodeFloat, regAt, predAt, bit_eq, guardOpt, f0, f1, f2, f3, f4, f5, f6, g1, g2, g3, g4, g5] <;> first | rfl | decide

theorem RoundTrip.fmin (c : Ctl) (ty : FTy) (m : FMods) (d : Reg) (a : Reg) (b : Reg) : RoundTrip.Statement (.fmin c ty m d a b) := by
  intro hw wd he
  obtain rfl := Option.some.inj he
  apply decodeWord_of hw
  obtain ⟨g0, g1, g2, g3, g4, g5⟩ := fmod_fields ty .rne m 0 (by decide)
  simp only [show Rnd.code .rne = 0 from rfl] at g0 g1 g2 g3 g4 g5
  obtain ⟨f0, f1, f2, f3, f4, f5, f6⟩ := rrr_fields 0x34 c d.toNat a.toNat b.toNat 0 (fFMOD ty 0 m 0) (by decide) (Nat.lt_of_lt_of_le d.isLt (by decide)) (Nat.lt_of_lt_of_le a.isLt (by decide)) (Nat.lt_of_lt_of_le b.isLt (by decide)) (by decide) g0 _ rfl
  generalize (mkWord 0x34 c (fRRR d.toNat a.toNat b.toNat 0 (fFMOD ty 0 m 0))).toNat = wd at *
  simp [rawDecode, decodeFloat, regAt, predAt, bit_eq, guardOpt, f0, f1, f2, f3, f4, f5, f6, g1, g2, g3, g4, g5] <;> first | rfl | decide

theorem RoundTrip.fmax (c : Ctl) (ty : FTy) (m : FMods) (d : Reg) (a : Reg) (b : Reg) : RoundTrip.Statement (.fmax c ty m d a b) := by
  intro hw wd he
  obtain rfl := Option.some.inj he
  apply decodeWord_of hw
  obtain ⟨g0, g1, g2, g3, g4, g5⟩ := fmod_fields ty .rne m 0 (by decide)
  simp only [show Rnd.code .rne = 0 from rfl] at g0 g1 g2 g3 g4 g5
  obtain ⟨f0, f1, f2, f3, f4, f5, f6⟩ := rrr_fields 0x35 c d.toNat a.toNat b.toNat 0 (fFMOD ty 0 m 0) (by decide) (Nat.lt_of_lt_of_le d.isLt (by decide)) (Nat.lt_of_lt_of_le a.isLt (by decide)) (Nat.lt_of_lt_of_le b.isLt (by decide)) (by decide) g0 _ rfl
  generalize (mkWord 0x35 c (fRRR d.toNat a.toNat b.toNat 0 (fFMOD ty 0 m 0))).toNat = wd at *
  simp [rawDecode, decodeFloat, regAt, predAt, bit_eq, guardOpt, f0, f1, f2, f3, f4, f5, f6, g1, g2, g3, g4, g5] <;> first | rfl | decide

theorem RoundTrip.fcmp (c : Ctl) (cond : FCond) (ty : FTy) (m : FMods) (p : Pred) (a : Reg) (b : Reg) (q : Pred) : RoundTrip.Statement (.fcmp c cond ty m p a b q) := by
  intro hw wd he
  obtain rfl := Option.some.inj he
  apply decodeWord_of hw
  have p_p : p.toNat < 8 := p.isLt
  have p_q : q.toNat < 8 := q.isLt
  obtain ⟨g0, g1, g2, g3, g4, g5⟩ := fmod_fields ty .rne m cond.code (by cases cond <;> decide)
  simp only [show Rnd.code .rne = 0 from rfl] at g0 g1 g2 g3 g4 g5
  obtain ⟨f0, f1, f2, f3, f4, f5, f6⟩ := rrr_fields 0x36 c p.toNat a.toNat b.toNat q.toNat (fFMOD ty 0 m cond.code) (by decide) (Nat.lt_of_lt_of_le p.isLt (by decide)) (Nat.lt_of_lt_of_le a.isLt (by decide)) (Nat.lt_of_lt_of_le b.isLt (by decide)) (Nat.lt_of_lt_of_le q.isLt (by decide)) g0 _ rfl
  generalize (mkWord 0x36 c (fRRR p.toNat a.toNat b.toNat q.toNat (fFMOD ty 0 m cond.code))).toNat = wd at *
  simp [rawDecode, decodeFloat, regAt, predAt, bit_eq, guardOpt, p_p, p_q, f0, f1, f2, f3, f4, f5, f6, g1, g2, g3, g4, g5]
  intro h; subst h
  simp [Instr.wellFormed] at hw
  exact hw.2.symm

theorem RoundTrip.fclass (c : Ctl) (ty : FTy) (m : FMods) (d : Reg) (a : Reg) : RoundTrip.Statement (.fclass c ty m d a) := by
  intro hw wd he
  obtain rfl := Option.some.inj he
  apply decodeWord_of hw
  obtain ⟨g0, g1, g2, g3, g4, g5⟩ := fmod_fields ty .rne m 0 (by decide)
  simp only [show Rnd.code .rne = 0 from rfl] at g0 g1 g2 g3 g4 g5
  obtain ⟨f0, f1, f2, f3, f4, f5, f6⟩ := rrr_fields 0x37 c d.toNat a.toNat 0 0 (fFMOD ty 0 m 0) (by decide) (Nat.lt_of_lt_of_le d.isLt (by decide)) (Nat.lt_of_lt_of_le a.isLt (by decide)) (by decide) (by decide) g0 _ rfl
  generalize (mkWord 0x37 c (fRRR d.toNat a.toNat 0 0 (fFMOD ty 0 m 0))).toNat = wd at *
  simp [rawDecode, decodeFloat, regAt, predAt, bit_eq, guardOpt, f0, f1, f2, f3, f4, f5, f6, g1, g2, g3, g4, g5] <;> first | rfl | decide

theorem RoundTrip.frnd (c : Ctl) (ty : FTy) (rnd : Rnd) (m : FMods) (d : Reg) (a : Reg) : RoundTrip.Statement (.frnd c ty rnd m d a) := by
  intro hw wd he
  obtain rfl := Option.some.inj he
  apply decodeWord_of hw
  obtain ⟨g0, g1, g2, g3, g4, g5⟩ := fmod_fields ty rnd m 0 (by decide)
  obtain ⟨f0, f1, f2, f3, f4, f5, f6⟩ := rrr_fields 0x38 c d.toNat a.toNat 0 0 (fFMOD ty rnd.code m 0) (by decide) (Nat.lt_of_lt_of_le d.isLt (by decide)) (Nat.lt_of_lt_of_le a.isLt (by decide)) (by decide) (by decide) g0 _ rfl
  generalize (mkWord 0x38 c (fRRR d.toNat a.toNat 0 0 (fFMOD ty rnd.code m 0))).toNat = wd at *
  simp [rawDecode, decodeFloat, regAt, predAt, bit_eq, guardOpt, f0, f1, f2, f3, f4, f5, f6, g1, g2, g3, g4, g5] <;> first | rfl | decide

theorem RoundTrip.fscale (c : Ctl) (ty : FTy) (rnd : Rnd) (m : FMods) (d : Reg) (a : Reg) (b : Reg) : RoundTrip.Statement (.fscale c ty rnd m d a b) := by
  intro hw wd he
  obtain rfl := Option.some.inj he
  apply decodeWord_of hw
  obtain ⟨g0, g1, g2, g3, g4, g5⟩ := fmod_fields ty rnd m 0 (by decide)
  obtain ⟨f0, f1, f2, f3, f4, f5, f6⟩ := rrr_fields 0x39 c d.toNat a.toNat b.toNat 0 (fFMOD ty rnd.code m 0) (by decide) (Nat.lt_of_lt_of_le d.isLt (by decide)) (Nat.lt_of_lt_of_le a.isLt (by decide)) (Nat.lt_of_lt_of_le b.isLt (by decide)) (by decide) g0 _ rfl
  generalize (mkWord 0x39 c (fRRR d.toNat a.toNat b.toNat 0 (fFMOD ty rnd.code m 0))).toNat = wd at *
  simp [rawDecode, decodeFloat, regAt, predAt, bit_eq, guardOpt, f0, f1, f2, f3, f4, f5, f6, g1, g2, g3, g4, g5] <;> first | rfl | decide

theorem RoundTrip.fgetexp (c : Ctl) (ty : FTy) (m : FMods) (d : Reg) (a : Reg) : RoundTrip.Statement (.fgetexp c ty m d a) := by
  intro hw wd he
  obtain rfl := Option.some.inj he
  apply decodeWord_of hw
  obtain ⟨g0, g1, g2, g3, g4, g5⟩ := fmod_fields ty .rne m 0 (by decide)
  simp only [show Rnd.code .rne = 0 from rfl] at g0 g1 g2 g3 g4 g5
  obtain ⟨f0, f1, f2, f3, f4, f5, f6⟩ := rrr_fields 0x3A c d.toNat a.toNat 0 0 (fFMOD ty 0 m 0) (by decide) (Nat.lt_of_lt_of_le d.isLt (by decide)) (Nat.lt_of_lt_of_le a.isLt (by decide)) (by decide) (by decide) g0 _ rfl
  generalize (mkWord 0x3A c (fRRR d.toNat a.toNat 0 0 (fFMOD ty 0 m 0))).toNat = wd at *
  simp [rawDecode, decodeFloat, regAt, predAt, bit_eq, guardOpt, f0, f1, f2, f3, f4, f5, f6, g1, g2, g3, g4, g5] <;> first | rfl | decide

theorem RoundTrip.fgetman (c : Ctl) (ty : FTy) (m : FMods) (d : Reg) (a : Reg) : RoundTrip.Statement (.fgetman c ty m d a) := by
  intro hw wd he
  obtain rfl := Option.some.inj he
  apply decodeWord_of hw
  obtain ⟨g0, g1, g2, g3, g4, g5⟩ := fmod_fields ty .rne m 0 (by decide)
  simp only [show Rnd.code .rne = 0 from rfl] at g0 g1 g2 g3 g4 g5
  obtain ⟨f0, f1, f2, f3, f4, f5, f6⟩ := rrr_fields 0x3B c d.toNat a.toNat 0 0 (fFMOD ty 0 m 0) (by decide) (Nat.lt_of_lt_of_le d.isLt (by decide)) (Nat.lt_of_lt_of_le a.isLt (by decide)) (by decide) (by decide) g0 _ rfl
  generalize (mkWord 0x3B c (fRRR d.toNat a.toNat 0 0 (fFMOD ty 0 m 0))).toNat = wd at *
  simp [rawDecode, decodeFloat, regAt, predAt, bit_eq, guardOpt, f0, f1, f2, f3, f4, f5, f6, g1, g2, g3, g4, g5] <;> first | rfl | decide

theorem RoundTrip.fdot2 (c : Ctl) (ty : FTy) (rnd : Rnd) (m : FMods) (d : Reg) (a : Reg) (b : Reg) (e : Reg) : RoundTrip.Statement (.fdot2 c ty rnd m d a b e) := by
  intro hw wd he
  obtain rfl := Option.some.inj he
  apply decodeWord_of hw
  obtain ⟨g0, g1, g2, g3, g4, g5⟩ := fmod_fields ty rnd m 0 (by decide)
  obtain ⟨f0, f1, f2, f3, f4, f5, f6⟩ := rrr_fields 0x3C c d.toNat a.toNat b.toNat e.toNat (fFMOD ty rnd.code m 0) (by decide) (Nat.lt_of_lt_of_le d.isLt (by decide)) (Nat.lt_of_lt_of_le a.isLt (by decide)) (Nat.lt_of_lt_of_le b.isLt (by decide)) (Nat.lt_of_lt_of_le e.isLt (by decide)) g0 _ rfl
  generalize (mkWord 0x3C c (fRRR d.toNat a.toNat b.toNat e.toNat (fFMOD ty rnd.code m 0))).toNat = wd at *
  simp [rawDecode, decodeFloat, regAt, predAt, bit_eq, guardOpt, f0, f1, f2, f3, f4, f5, f6, g1, g2, g3, g4, g5] <;> first | rfl | decide

theorem RoundTrip.cvt (c : Ctl) (dst : CFmt) (src : CFmt) (rnd : Rnd) (sat : Bool) (el : BitVec 3) (d : Reg) (a : Reg) : RoundTrip.Statement (.cvt c dst src rnd sat el d a) := by
  intro hw wd he
  obtain rfl := Option.some.inj he
  apply decodeWord_of hw
  have p_el : el.toNat < 8 := el.isLt
  have hm : (el.toNat * 32 + sat.toNat * 16 + rnd.code * 4) < 8192 := (by have := el.isLt; cases rnd <;> cases sat <;> (try simp only [ITy.code, ICond.code, LogicOp.code, ShiftKind.code, MoviForm.code, FTy.code, Rnd.code, CFmt.code, PFmt.code, XMode.code, VoteOp.code, XOp.code, Size.code, Scope.code, FenceKind.code, AtomOp.code, WCond.code, BarOp.code, Space.modBase, Space.actlBits, Bool.toNat_true, Bool.toNat_false]) <;> omega)
  have x0 : bits ((el.toNat * 32 + sat.toNat * 16 + rnd.code * 4)) 5 3 = el.toNat := by
    have : sat.toNat < 2 := by cases sat <;> decide
    have : rnd.code < 4 := by cases rnd <;> decide
    have := el.isLt; simp only [bits]; omega
  have x1 : bits ((el.toNat * 32 + sat.toNat * 16 + rnd.code * 4)) 0 2 = 0 := by
    have : sat.toNat < 2 := by cases sat <;> decide
    have : rnd.code < 4 := by cases rnd <;> decide
    have := el.isLt; simp only [bits]; omega
  have x2 : bits ((el.toNat * 32 + sat.toNat * 16 + rnd.code * 4)) 8 5 = 0 := by
    have : sat.toNat < 2 := by cases sat <;> decide
    have : rnd.code < 4 := by cases rnd <;> decide
    have := el.isLt; simp only [bits]; omega
  have x3 : bits ((el.toNat * 32 + sat.toNat * 16 + rnd.code * 4)) 2 2 = rnd.code := by
    have : sat.toNat < 2 := by cases sat <;> decide
    have : rnd.code < 4 := by cases rnd <;> decide
    have := el.isLt; simp only [bits]; omega
  have x4 : bits ((el.toNat * 32 + sat.toNat * 16 + rnd.code * 4)) 4 1 = sat.toNat := by
    have : sat.toNat < 2 := by cases sat <;> decide
    have : rnd.code < 4 := by cases rnd <;> decide
    have := el.isLt; simp only [bits]; omega
  obtain ⟨f0, f1, f2, f3, f4, f5, f6⟩ := rrr_fields 0x3D c d.toNat a.toNat dst.code src.code (el.toNat * 32 + sat.toNat * 16 + rnd.code * 4) (by decide) (Nat.lt_of_lt_of_le d.isLt (by decide)) (Nat.lt_of_lt_of_le a.isLt (by decide)) (by cases dst <;> decide) (by cases src <;> decide) hm _ rfl
  generalize (mkWord 0x3D c (fRRR d.toNat a.toNat dst.code src.code (el.toNat * 32 + sat.toNat * 16 + rnd.code * 4))).toNat = wd at *
  simp [rawDecode, decodeFloat, regAt, predAt, bit_eq, guardOpt, p_el, f0, f1, f2, f3, f4, f5, f6, x0, x1, x2, x3, x4] <;> first | rfl | decide

theorem RoundTrip.pack (c : Ctl) (pf : PFmt) (rnd : Rnd) (sat : Bool) (d : Reg) (a : Reg) (b : Reg) : RoundTrip.Statement (.pack c pf rnd sat d a b) := by
  intro hw wd he
  obtain rfl := Option.some.inj he
  apply decodeWord_of hw
  have hm : (pf.code * 32 + sat.toNat * 16 + rnd.code * 4) < 8192 := (by cases pf <;> cases rnd <;> cases sat <;> decide)
  have x0 : bits ((pf.code * 32 + sat.toNat * 16 + rnd.code * 4)) 5 3 = pf.code := by
    have : sat.toNat < 2 := by cases sat <;> decide
    have : pf.code < 6 := by cases pf <;> decide
    have : rnd.code < 4 := by cases rnd <;> decide
    simp only [bits]; omega
  have x1 : bits ((pf.code * 32 + sat.toNat * 16 + rnd.code * 4)) 0 2 = 0 := by
    have : sat.toNat < 2 := by cases sat <;> decide
    have : pf.code < 6 := by cases pf <;> decide
    have : rnd.code < 4 := by cases rnd <;> decide
    simp only [bits]; omega
  have x2 : bits ((pf.code * 32 + sat.toNat * 16 + rnd.code * 4)) 8 5 = 0 := by
    have : sat.toNat < 2 := by cases sat <;> decide
    have : pf.code < 6 := by cases pf <;> decide
    have : rnd.code < 4 := by cases rnd <;> decide
    simp only [bits]; omega
  have x3 : bits ((pf.code * 32 + sat.toNat * 16 + rnd.code * 4)) 2 2 = rnd.code := by
    have : sat.toNat < 2 := by cases sat <;> decide
    have : pf.code < 6 := by cases pf <;> decide
    have : rnd.code < 4 := by cases rnd <;> decide
    simp only [bits]; omega
  have x4 : bits ((pf.code * 32 + sat.toNat * 16 + rnd.code * 4)) 4 1 = sat.toNat := by
    have : sat.toNat < 2 := by cases sat <;> decide
    have : pf.code < 6 := by cases pf <;> decide
    have : rnd.code < 4 := by cases rnd <;> decide
    simp only [bits]; omega
  obtain ⟨f0, f1, f2, f3, f4, f5, f6⟩ := rrr_fields 0x3E c d.toNat a.toNat b.toNat 0 (pf.code * 32 + sat.toNat * 16 + rnd.code * 4) (by decide) (Nat.lt_of_lt_of_le d.isLt (by decide)) (Nat.lt_of_lt_of_le a.isLt (by decide)) (Nat.lt_of_lt_of_le b.isLt (by decide)) (by decide) hm _ rfl
  generalize (mkWord 0x3E c (fRRR d.toNat a.toNat b.toNat 0 (pf.code * 32 + sat.toNat * 16 + rnd.code * 4))).toNat = wd at *
  simp [rawDecode, decodeFloat, regAt, predAt, bit_eq, guardOpt, f0, f1, f2, f3, f4, f5, f6, x0, x1, x2, x3, x4] <;> first | rfl | decide

theorem RoundTrip.unpack (c : Ctl) (pf : PFmt) (d : Reg) (a : Reg) : RoundTrip.Statement (.unpack c pf d a) := by
  intro hw wd he
  obtain rfl := Option.some.inj he
  apply decodeWord_of hw
  have hm : (pf.code * 32) < 8192 := (by cases pf <;> decide)
  have x0 : bits ((pf.code * 32)) 5 3 = pf.code := by
    have : pf.code < 6 := by cases pf <;> decide
    simp only [bits]; omega
  have x1 : bits ((pf.code * 32)) 0 5 = 0 := by
    have : pf.code < 6 := by cases pf <;> decide
    simp only [bits]; omega
  have x2 : bits ((pf.code * 32)) 8 5 = 0 := by
    have : pf.code < 6 := by cases pf <;> decide
    simp only [bits]; omega
  obtain ⟨f0, f1, f2, f3, f4, f5, f6⟩ := rrr_fields 0x3F c d.toNat a.toNat 0 0 (pf.code * 32) (by decide) (Nat.lt_of_lt_of_le d.isLt (by decide)) (Nat.lt_of_lt_of_le a.isLt (by decide)) (by decide) (by decide) hm _ rfl
  generalize (mkWord 0x3F c (fRRR d.toNat a.toNat 0 0 (pf.code * 32))).toNat = wd at *
  simp [rawDecode, decodeFloat, regAt, predAt, bit_eq, guardOpt, f0, f1, f2, f3, f4, f5, f6, x0, x1, x2] <;> first | rfl | decide

theorem RoundTrip.bra (c : Ctl) (off : BitVec 24) (hint : Bool) : RoundTrip.Statement (.bra c off hint) := by
  intro hw wd he
  obtain rfl := Option.some.inj he
  apply decodeWord_of hw
  obtain ⟨f0, f1, f2, f3, f4, f5⟩ := br_fields 0x40 c off.toNat hint 0 0 (by decide) (Nat.lt_of_lt_of_le off.isLt (by decide)) (by decide) (by decide) _ rfl
  generalize (mkWord 0x40 c (fBR off.toNat hint 0 0)).toNat = wd at *
  cases hint <;> simp [rawDecode, decodeControl, regAt, predAt, guardOpt, f0, f1, f2, f3, f4, f5] <;> first | rfl | decide

theorem RoundTrip.brx (c : Ctl) (hint : Bool) (a : Reg) : RoundTrip.Statement (.brx c hint a) := by
  intro hw wd he
  obtain rfl := Option.some.inj he
  apply decodeWord_of hw
  obtain ⟨f0, f1, f2, f3, f4, f5⟩ := br_fields 0x41 c 0 hint a.toNat 0 (by decide) (by decide) (Nat.lt_of_lt_of_le a.isLt (by decide)) (by decide) _ rfl
  generalize (mkWord 0x41 c (fBR 0 hint a.toNat 0)).toNat = wd at *
  cases hint <;> simp [rawDecode, decodeControl, regAt, predAt, guardOpt, f0, f1, f2, f3, f4, f5] <;> first | rfl | decide

theorem RoundTrip.call (c : Ctl) (off : BitVec 24) (hint : Bool) : RoundTrip.Statement (.call c off hint) := by
  intro hw wd he
  obtain rfl := Option.some.inj he
  apply decodeWord_of hw
  obtain ⟨f0, f1, f2, f3, f4, f5⟩ := br_fields 0x42 c off.toNat hint 0 0 (by decide) (Nat.lt_of_lt_of_le off.isLt (by decide)) (by decide) (by decide) _ rfl
  generalize (mkWord 0x42 c (fBR off.toNat hint 0 0)).toNat = wd at *
  cases hint <;> simp [rawDecode, decodeControl, regAt, predAt, guardOpt, f0, f1, f2, f3, f4, f5] <;> first | rfl | decide

theorem RoundTrip.callx (c : Ctl) (hint : Bool) (a : Reg) : RoundTrip.Statement (.callx c hint a) := by
  intro hw wd he
  obtain rfl := Option.some.inj he
  apply decodeWord_of hw
  obtain ⟨f0, f1, f2, f3, f4, f5⟩ := br_fields 0x43 c 0 hint a.toNat 0 (by decide) (by decide) (Nat.lt_of_lt_of_le a.isLt (by decide)) (by decide) _ rfl
  generalize (mkWord 0x43 c (fBR 0 hint a.toNat 0)).toNat = wd at *
  cases hint <;> simp [rawDecode, decodeControl, regAt, predAt, guardOpt, f0, f1, f2, f3, f4, f5] <;> first | rfl | decide

theorem RoundTrip.ret (c : Ctl) (hint : Bool) : RoundTrip.Statement (.ret c hint) := by
  intro hw wd he
  obtain rfl := Option.some.inj he
  apply decodeWord_of hw
  obtain ⟨f0, f1, f2, f3, f4, f5⟩ := br_fields 0x44 c 0 hint 0 0 (by decide) (by decide) (by decide) (by decide) _ rfl
  generalize (mkWord 0x44 c (fBR 0 hint 0 0)).toNat = wd at *
  cases hint <;> simp [rawDecode, decodeControl, regAt, predAt, guardOpt, f0, f1, f2, f3, f4, f5] <;> first | rfl | decide

theorem RoundTrip.lpad (c : Ctl) (kinds : BitVec 3) : RoundTrip.Statement (.lpad c kinds) := by
  intro hw wd he
  obtain rfl := Option.some.inj he
  apply decodeWord_of hw
  have p_kinds : kinds.toNat < 8 := kinds.isLt
  obtain ⟨f0, f1, f2, f3, f4, f5⟩ := br_fields 0x45 c 0 false 0 kinds.toNat (by decide) (by decide) (by decide) (Nat.lt_of_lt_of_le kinds.isLt (by decide)) _ rfl
  generalize (mkWord 0x45 c (fBR 0 false 0 kinds.toNat)).toNat = wd at *
  simp [rawDecode, decodeControl, regAt, predAt, guardOpt, p_kinds, f0, f1, f2, f3, f4, f5] <;> first | rfl | decide

theorem RoundTrip.loop (c : Ctl) (off : BitVec 24) (a : Reg) : RoundTrip.Statement (.loop c off a) := by
  intro hw wd he
  obtain rfl := Option.some.inj he
  apply decodeWord_of hw
  obtain ⟨f0, f1, f2, f3, f4, f5⟩ := br_fields 0x46 c off.toNat false a.toNat 0 (by decide) (Nat.lt_of_lt_of_le off.isLt (by decide)) (Nat.lt_of_lt_of_le a.isLt (by decide)) (by decide) _ rfl
  generalize (mkWord 0x46 c (fBR off.toNat false a.toNat 0)).toNat = wd at *
  simp [rawDecode, decodeControl, regAt, predAt, guardOpt, f0, f1, f2, f3, f4, f5] <;> first | rfl | decide

theorem RoundTrip.lbrk (c : Ctl) (hint : Bool) : RoundTrip.Statement (.lbrk c hint) := by
  intro hw wd he
  obtain rfl := Option.some.inj he
  apply decodeWord_of hw
  obtain ⟨f0, f1, f2, f3, f4, f5⟩ := br_fields 0x47 c 0 hint 0 0 (by decide) (by decide) (by decide) (by decide) _ rfl
  generalize (mkWord 0x47 c (fBR 0 hint 0 0)).toNat = wd at *
  cases hint <;> simp [rawDecode, decodeControl, regAt, predAt, guardOpt, f0, f1, f2, f3, f4, f5] <;> first | rfl | decide

theorem RoundTrip.spawn (c : Ctl) (off : BitVec 24) (a : Reg) (d : Reg) : RoundTrip.Statement (.spawn c off a d) := by
  intro hw wd he
  obtain rfl := Option.some.inj he
  apply decodeWord_of hw
  have p_d : d.toNat < 256 := d.isLt
  obtain ⟨f0, f1, f2, f3, f4, f5⟩ := br_fields 0x48 c off.toNat false a.toNat d.toNat (by decide) (Nat.lt_of_lt_of_le off.isLt (by decide)) (Nat.lt_of_lt_of_le a.isLt (by decide)) (Nat.lt_of_lt_of_le d.isLt (by decide)) _ rfl
  generalize (mkWord 0x48 c (fBR off.toNat false a.toNat d.toNat)).toNat = wd at *
  simp [rawDecode, decodeControl, regAt, predAt, guardOpt, p_d, f0, f1, f2, f3, f4, f5] <;> first | rfl | decide

theorem RoundTrip.exit (c : Ctl) : RoundTrip.Statement (.exit c) := by
  intro hw wd he
  obtain rfl := Option.some.inj he
  apply decodeWord_of hw
  obtain ⟨f0, f1, f2⟩ := mkWord_fields 0x49 c 0 (by decide) (by omega)
  generalize (mkWord 0x49 c 0).toNat = wd at *
  simp [rawDecode, decodeControl, regAt, predAt, bit_eq, guardOpt, f0, f1, f2] <;> first | rfl | decide

theorem RoundTrip.yield (c : Ctl) : RoundTrip.Statement (.yield c) := by
  intro hw wd he
  obtain rfl := Option.some.inj he
  apply decodeWord_of hw
  obtain ⟨f0, f1, f2⟩ := mkWord_fields 0x4A c 0 (by decide) (by omega)
  generalize (mkWord 0x4A c 0).toNat = wd at *
  simp [rawDecode, decodeControl, regAt, predAt, bit_eq, guardOpt, f0, f1, f2] <;> first | rfl | decide

theorem RoundTrip.bkpt (c : Ctl) (code : BitVec 12) : RoundTrip.Statement (.bkpt c code) := by
  intro hw wd he
  obtain rfl := Option.some.inj he
  apply decodeWord_of hw
  obtain ⟨f0, f1, f2⟩ := mkWord_fields 0x4B c code.toNat (by decide) (by have := code.isLt; omega)
  generalize (mkWord 0x4B c code.toNat).toNat = wd at *
  have x0 : bits code.toNat 0 12 = code.toNat := by have := code.isLt; simp only [bits]; omega
  simp [rawDecode, decodeControl, regAt, predAt, bit_eq, guardOpt, f0, f1, f2, x0] <;> first | rfl | decide

theorem RoundTrip.trap (c : Ctl) (code : BitVec 12) : RoundTrip.Statement (.trap c code) := by
  intro hw wd he
  obtain rfl := Option.some.inj he
  apply decodeWord_of hw
  obtain ⟨f0, f1, f2⟩ := mkWord_fields 0x4C c code.toNat (by decide) (by have := code.isLt; omega)
  generalize (mkWord 0x4C c code.toNat).toNat = wd at *
  have x0 : bits code.toNat 0 12 = code.toNat := by have := code.isLt; simp only [bits]; omega
  simp [rawDecode, decodeControl, regAt, predAt, bit_eq, guardOpt, f0, f1, f2, x0] <;> first | rfl | decide

theorem RoundTrip.rcp (c : Ctl) (ty : FTy) (m : FMods) (d : Reg) (a : Reg) : RoundTrip.Statement (.rcp c ty m d a) := by
  intro hw wd he
  obtain rfl := Option.some.inj he
  apply decodeWord_of hw
  obtain ⟨g0, g1, g2, g3, g4, g5⟩ := fmod_fields ty .rne m 0 (by decide)
  simp only [show Rnd.code .rne = 0 from rfl] at g0 g1 g2 g3 g4 g5
  obtain ⟨f0, f1, f2, f3, f4, f5, f6⟩ := rrr_fields 0x50 c d.toNat a.toNat 0 0 (fFMOD ty 0 m 0) (by decide) (Nat.lt_of_lt_of_le d.isLt (by decide)) (Nat.lt_of_lt_of_le a.isLt (by decide)) (by decide) (by decide) g0 _ rfl
  generalize (mkWord 0x50 c (fRRR d.toNat a.toNat 0 0 (fFMOD ty 0 m 0))).toNat = wd at *
  simp [rawDecode, decodeFloat, regAt, predAt, bit_eq, guardOpt, f0, f1, f2, f3, f4, f5, f6, g1, g2, g3, g4, g5] <;> first | rfl | decide

theorem RoundTrip.rsq (c : Ctl) (ty : FTy) (m : FMods) (d : Reg) (a : Reg) : RoundTrip.Statement (.rsq c ty m d a) := by
  intro hw wd he
  obtain rfl := Option.some.inj he
  apply decodeWord_of hw
  obtain ⟨g0, g1, g2, g3, g4, g5⟩ := fmod_fields ty .rne m 0 (by decide)
  simp only [show Rnd.code .rne = 0 from rfl] at g0 g1 g2 g3 g4 g5
  obtain ⟨f0, f1, f2, f3, f4, f5, f6⟩ := rrr_fields 0x51 c d.toNat a.toNat 0 0 (fFMOD ty 0 m 0) (by decide) (Nat.lt_of_lt_of_le d.isLt (by decide)) (Nat.lt_of_lt_of_le a.isLt (by decide)) (by decide) (by decide) g0 _ rfl
  generalize (mkWord 0x51 c (fRRR d.toNat a.toNat 0 0 (fFMOD ty 0 m 0))).toNat = wd at *
  simp [rawDecode, decodeFloat, regAt, predAt, bit_eq, guardOpt, f0, f1, f2, f3, f4, f5, f6, g1, g2, g3, g4, g5] <;> first | rfl | decide

theorem RoundTrip.sqrt (c : Ctl) (ty : FTy) (m : FMods) (d : Reg) (a : Reg) : RoundTrip.Statement (.sqrt c ty m d a) := by
  intro hw wd he
  obtain rfl := Option.some.inj he
  apply decodeWord_of hw
  obtain ⟨g0, g1, g2, g3, g4, g5⟩ := fmod_fields ty .rne m 0 (by decide)
  simp only [show Rnd.code .rne = 0 from rfl] at g0 g1 g2 g3 g4 g5
  obtain ⟨f0, f1, f2, f3, f4, f5, f6⟩ := rrr_fields 0x52 c d.toNat a.toNat 0 0 (fFMOD ty 0 m 0) (by decide) (Nat.lt_of_lt_of_le d.isLt (by decide)) (Nat.lt_of_lt_of_le a.isLt (by decide)) (by decide) (by decide) g0 _ rfl
  generalize (mkWord 0x52 c (fRRR d.toNat a.toNat 0 0 (fFMOD ty 0 m 0))).toNat = wd at *
  simp [rawDecode, decodeFloat, regAt, predAt, bit_eq, guardOpt, f0, f1, f2, f3, f4, f5, f6, g1, g2, g3, g4, g5] <;> first | rfl | decide

theorem RoundTrip.fdiv (c : Ctl) (ty : FTy) (m : FMods) (d : Reg) (a : Reg) (b : Reg) : RoundTrip.Statement (.fdiv c ty m d a b) := by
  intro hw wd he
  obtain rfl := Option.some.inj he
  apply decodeWord_of hw
  obtain ⟨g0, g1, g2, g3, g4, g5⟩ := fmod_fields ty .rne m 0 (by decide)
  simp only [show Rnd.code .rne = 0 from rfl] at g0 g1 g2 g3 g4 g5
  obtain ⟨f0, f1, f2, f3, f4, f5, f6⟩ := rrr_fields 0x53 c d.toNat a.toNat b.toNat 0 (fFMOD ty 0 m 0) (by decide) (Nat.lt_of_lt_of_le d.isLt (by decide)) (Nat.lt_of_lt_of_le a.isLt (by decide)) (Nat.lt_of_lt_of_le b.isLt (by decide)) (by decide) g0 _ rfl
  generalize (mkWord 0x53 c (fRRR d.toNat a.toNat b.toNat 0 (fFMOD ty 0 m 0))).toNat = wd at *
  simp [rawDecode, decodeFloat, regAt, predAt, bit_eq, guardOpt, f0, f1, f2, f3, f4, f5, f6, g1, g2, g3, g4, g5] <;> first | rfl | decide

theorem RoundTrip.ex2 (c : Ctl) (ty : FTy) (m : FMods) (d : Reg) (a : Reg) : RoundTrip.Statement (.ex2 c ty m d a) := by
  intro hw wd he
  obtain rfl := Option.some.inj he
  apply decodeWord_of hw
  obtain ⟨g0, g1, g2, g3, g4, g5⟩ := fmod_fields ty .rne m 0 (by decide)
  simp only [show Rnd.code .rne = 0 from rfl] at g0 g1 g2 g3 g4 g5
  obtain ⟨f0, f1, f2, f3, f4, f5, f6⟩ := rrr_fields 0x54 c d.toNat a.toNat 0 0 (fFMOD ty 0 m 0) (by decide) (Nat.lt_of_lt_of_le d.isLt (by decide)) (Nat.lt_of_lt_of_le a.isLt (by decide)) (by decide) (by decide) g0 _ rfl
  generalize (mkWord 0x54 c (fRRR d.toNat a.toNat 0 0 (fFMOD ty 0 m 0))).toNat = wd at *
  simp [rawDecode, decodeFloat, regAt, predAt, bit_eq, guardOpt, f0, f1, f2, f3, f4, f5, f6, g1, g2, g3, g4, g5] <;> first | rfl | decide

theorem RoundTrip.lg2 (c : Ctl) (ty : FTy) (m : FMods) (d : Reg) (a : Reg) : RoundTrip.Statement (.lg2 c ty m d a) := by
  intro hw wd he
  obtain rfl := Option.some.inj he
  apply decodeWord_of hw
  obtain ⟨g0, g1, g2, g3, g4, g5⟩ := fmod_fields ty .rne m 0 (by decide)
  simp only [show Rnd.code .rne = 0 from rfl] at g0 g1 g2 g3 g4 g5
  obtain ⟨f0, f1, f2, f3, f4, f5, f6⟩ := rrr_fields 0x55 c d.toNat a.toNat 0 0 (fFMOD ty 0 m 0) (by decide) (Nat.lt_of_lt_of_le d.isLt (by decide)) (Nat.lt_of_lt_of_le a.isLt (by decide)) (by decide) (by decide) g0 _ rfl
  generalize (mkWord 0x55 c (fRRR d.toNat a.toNat 0 0 (fFMOD ty 0 m 0))).toNat = wd at *
  simp [rawDecode, decodeFloat, regAt, predAt, bit_eq, guardOpt, f0, f1, f2, f3, f4, f5, f6, g1, g2, g3, g4, g5] <;> first | rfl | decide

theorem RoundTrip.sinpi (c : Ctl) (ty : FTy) (m : FMods) (d : Reg) (a : Reg) : RoundTrip.Statement (.sinpi c ty m d a) := by
  intro hw wd he
  obtain rfl := Option.some.inj he
  apply decodeWord_of hw
  obtain ⟨g0, g1, g2, g3, g4, g5⟩ := fmod_fields ty .rne m 0 (by decide)
  simp only [show Rnd.code .rne = 0 from rfl] at g0 g1 g2 g3 g4 g5
  obtain ⟨f0, f1, f2, f3, f4, f5, f6⟩ := rrr_fields 0x56 c d.toNat a.toNat 0 0 (fFMOD ty 0 m 0) (by decide) (Nat.lt_of_lt_of_le d.isLt (by decide)) (Nat.lt_of_lt_of_le a.isLt (by decide)) (by decide) (by decide) g0 _ rfl
  generalize (mkWord 0x56 c (fRRR d.toNat a.toNat 0 0 (fFMOD ty 0 m 0))).toNat = wd at *
  simp [rawDecode, decodeFloat, regAt, predAt, bit_eq, guardOpt, f0, f1, f2, f3, f4, f5, f6, g1, g2, g3, g4, g5] <;> first | rfl | decide

theorem RoundTrip.cospi (c : Ctl) (ty : FTy) (m : FMods) (d : Reg) (a : Reg) : RoundTrip.Statement (.cospi c ty m d a) := by
  intro hw wd he
  obtain rfl := Option.some.inj he
  apply decodeWord_of hw
  obtain ⟨g0, g1, g2, g3, g4, g5⟩ := fmod_fields ty .rne m 0 (by decide)
  simp only [show Rnd.code .rne = 0 from rfl] at g0 g1 g2 g3 g4 g5
  obtain ⟨f0, f1, f2, f3, f4, f5, f6⟩ := rrr_fields 0x57 c d.toNat a.toNat 0 0 (fFMOD ty 0 m 0) (by decide) (Nat.lt_of_lt_of_le d.isLt (by decide)) (Nat.lt_of_lt_of_le a.isLt (by decide)) (by decide) (by decide) g0 _ rfl
  generalize (mkWord 0x57 c (fRRR d.toNat a.toNat 0 0 (fFMOD ty 0 m 0))).toNat = wd at *
  simp [rawDecode, decodeFloat, regAt, predAt, bit_eq, guardOpt, f0, f1, f2, f3, f4, f5, f6, g1, g2, g3, g4, g5] <;> first | rfl | decide

theorem RoundTrip.tanh (c : Ctl) (ty : FTy) (m : FMods) (d : Reg) (a : Reg) : RoundTrip.Statement (.tanh c ty m d a) := by
  intro hw wd he
  obtain rfl := Option.some.inj he
  apply decodeWord_of hw
  obtain ⟨g0, g1, g2, g3, g4, g5⟩ := fmod_fields ty .rne m 0 (by decide)
  simp only [show Rnd.code .rne = 0 from rfl] at g0 g1 g2 g3 g4 g5
  obtain ⟨f0, f1, f2, f3, f4, f5, f6⟩ := rrr_fields 0x58 c d.toNat a.toNat 0 0 (fFMOD ty 0 m 0) (by decide) (Nat.lt_of_lt_of_le d.isLt (by decide)) (Nat.lt_of_lt_of_le a.isLt (by decide)) (by decide) (by decide) g0 _ rfl
  generalize (mkWord 0x58 c (fRRR d.toNat a.toNat 0 0 (fFMOD ty 0 m 0))).toNat = wd at *
  simp [rawDecode, decodeFloat, regAt, predAt, bit_eq, guardOpt, f0, f1, f2, f3, f4, f5, f6, g1, g2, g3, g4, g5] <;> first | rfl | decide

theorem RoundTrip.rand (c : Ctl) (unif : Bool) (d : Reg) (a : Reg) (b : Reg) (e : Reg) : RoundTrip.Statement (.rand c unif d a b e) := by
  intro hw wd he
  obtain rfl := Option.some.inj he
  apply decodeWord_of hw
  have hm : unif.toNat < 8192 := (by cases unif <;> decide)
  obtain ⟨f0, f1, f2, f3, f4, f5, f6⟩ := rrr_fields 0x59 c d.toNat a.toNat b.toNat e.toNat unif.toNat (by decide) (Nat.lt_of_lt_of_le d.isLt (by decide)) (Nat.lt_of_lt_of_le a.isLt (by decide)) (Nat.lt_of_lt_of_le b.isLt (by decide)) (Nat.lt_of_lt_of_le e.isLt (by decide)) hm _ rfl
  generalize (mkWord 0x59 c (fRRR d.toNat a.toNat b.toNat e.toNat unif.toNat)).toNat = wd at *
  cases unif <;> simp [rawDecode, decodeFloat, regAt, predAt, bit_eq, guardOpt, f0, f1, f2, f3, f4, f5, f6] <;> first | rfl | decide

theorem RoundTrip.lxch (c : Ctl) (mode : XMode) (w64 : Bool) (edge : Bool) (ms : MSrc) (d : Reg) (a : Reg) (b : Reg) : RoundTrip.Statement (.lxch c mode w64 edge ms d a b) := by
  intro hw wd he
  obtain rfl := Option.some.inj he
  apply decodeWord_of hw
  have hm : (edge.toNat * 8 + w64.toNat * 4 + mode.code) < 2048 := (by cases mode <;> cases w64 <;> cases edge <;> decide)
  obtain ⟨f0, f1, f2, f3, f4, f5, f6⟩ := xln_fields 0x60 c d.toNat a.toNat b.toNat ms (edge.toNat * 8 + w64.toNat * 4 + mode.code) (by decide) (Nat.lt_of_lt_of_le d.isLt (by decide)) (Nat.lt_of_lt_of_le a.isLt (by decide)) (Nat.lt_of_lt_of_le b.isLt (by decide)) hm _ rfl
  generalize (mkWord 0x60 c (fXLN d.toNat a.toNat b.toNat ms (edge.toNat * 8 + w64.toNat * 4 + mode.code))).toNat = wd at *
  cases mode <;> cases w64 <;> cases edge <;> simp [rawDecode, decodeXln, regAt, predAt, bit_eq, guardOpt, f0, f1, f2, f3, f4, f5, f6] <;> first | rfl | decide

theorem RoundTrip.vote (c : Ctl) (op : VoteOp) (neg : Bool) (ms : MSrc) (d : Reg) (a : Pred) : RoundTrip.Statement (.vote c op neg ms d a) := by
  intro hw wd he
  obtain rfl := Option.some.inj he
  apply decodeWord_of hw
  have p_a : a.toNat < 8 := a.isLt
  have hm : (neg.toNat * 4 + op.code) < 2048 := (by cases op <;> cases neg <;> decide)
  obtain ⟨f0, f1, f2, f3, f4, f5, f6⟩ := xln_fields 0x61 c d.toNat a.toNat 0 ms (neg.toNat * 4 + op.code) (by decide) (Nat.lt_of_lt_of_le d.isLt (by decide)) (Nat.lt_of_lt_of_le a.isLt (by decide)) (by decide) hm _ rfl
  generalize (mkWord 0x61 c (fXLN d.toNat a.toNat 0 ms (neg.toNat * 4 + op.code))).toNat = wd at *
  cases op <;> cases neg <;> simp [rawDecode, decodeXln, regAt, predAt, bit_eq, guardOpt, p_a, f0, f1, f2, f3, f4, f5, f6] <;> first | rfl | decide

theorem RoundTrip.matchx (c : Ctl) (w64 : Bool) (ms : MSrc) (d : Reg) (a : Reg) : RoundTrip.Statement (.matchx c w64 ms d a) := by
  intro hw wd he
  obtain rfl := Option.some.inj he
  apply decodeWord_of hw
  have hm : w64.toNat < 2048 := (by cases w64 <;> decide)
  obtain ⟨f0, f1, f2, f3, f4, f5, f6⟩ := xln_fields 0x62 c d.toNat a.toNat 0 ms w64.toNat (by decide) (Nat.lt_of_lt_of_le d.isLt (by decide)) (Nat.lt_of_lt_of_le a.isLt (by decide)) (by decide) hm _ rfl
  generalize (mkWord 0x62 c (fXLN d.toNat a.toNat 0 ms w64.toNat)).toNat = wd at *
  cases w64 <;> simp [rawDecode, decodeXln, regAt, predAt, bit_eq, guardOpt, f0, f1, f2, f3, f4, f5, f6] <;> first | rfl | decide

theorem RoundTrip.xred (c : Ctl) (op : XOp) (uns : Bool) (ms : MSrc) (d : Reg) (a : Reg) : RoundTrip.Statement (.xred c op uns ms d a) := by
  intro hw wd he
  obtain rfl := Option.some.inj he
  apply decodeWord_of hw
  have hm : (uns.toNat * 16 + op.code) < 2048 := (by cases op <;> cases uns <;> decide)
  obtain ⟨f0, f1, f2, f3, f4, f5, f6⟩ := xln_fields 0x63 c d.toNat a.toNat 0 ms (uns.toNat * 16 + op.code) (by decide) (Nat.lt_of_lt_of_le d.isLt (by decide)) (Nat.lt_of_lt_of_le a.isLt (by decide)) (by decide) hm _ rfl
  generalize (mkWord 0x63 c (fXLN d.toNat a.toNat 0 ms (uns.toNat * 16 + op.code))).toNat = wd at *
  cases op <;> cases uns <;> simp [rawDecode, decodeXln, regAt, predAt, bit_eq, guardOpt, f0, f1, f2, f3, f4, f5, f6] <;> first | rfl | decide

theorem RoundTrip.xscan (c : Ctl) (op : XOp) (uns : Bool) (excl : Bool) (ms : MSrc) (d : Reg) (a : Reg) : RoundTrip.Statement (.xscan c op uns excl ms d a) := by
  intro hw wd he
  obtain rfl := Option.some.inj he
  apply decodeWord_of hw
  have hm : (excl.toNat * 32 + uns.toNat * 16 + op.code) < 2048 := (by cases op <;> cases uns <;> cases excl <;> decide)
  obtain ⟨f0, f1, f2, f3, f4, f5, f6⟩ := xln_fields 0x64 c d.toNat a.toNat 0 ms (excl.toNat * 32 + uns.toNat * 16 + op.code) (by decide) (Nat.lt_of_lt_of_le d.isLt (by decide)) (Nat.lt_of_lt_of_le a.isLt (by decide)) (by decide) hm _ rfl
  generalize (mkWord 0x64 c (fXLN d.toNat a.toNat 0 ms (excl.toNat * 32 + uns.toNat * 16 + op.code))).toNat = wd at *
  cases op <;> cases uns <;> cases excl <;> simp [rawDecode, decodeXln, regAt, predAt, bit_eq, guardOpt, f0, f1, f2, f3, f4, f5, f6] <;> first | rfl | decide

theorem RoundTrip.lanemap (c : Ctl) (ms : MSrc) (a : Reg) : RoundTrip.Statement (.lanemap c ms a) := by
  intro hw wd he
  obtain rfl := Option.some.inj he
  apply decodeWord_of hw
  have hm : 0 < 2048 := (by decide)
  obtain ⟨f0, f1, f2, f3, f4, f5, f6⟩ := xln_fields 0x65 c 0 a.toNat 0 ms 0 (by decide) (by decide) (Nat.lt_of_lt_of_le a.isLt (by decide)) (by decide) hm _ rfl
  generalize (mkWord 0x65 c (fXLN 0 a.toNat 0 ms 0)).toNat = wd at *
  simp [rawDecode, decodeXln, regAt, predAt, bit_eq, guardOpt, f0, f1, f2, f3, f4, f5, f6] <;> first | rfl | decide

theorem RoundTrip.lanemapRd (c : Ctl) (d : Reg) : RoundTrip.Statement (.lanemapRd c d) := by
  intro hw wd he
  obtain rfl := Option.some.inj he
  apply decodeWord_of hw
  obtain ⟨f0, f1, f2⟩ := mkWord_fields 0x65 c (d.toNat * 2 ^ 37 + 1) (by decide) (by have := d.isLt; omega)
  generalize (mkWord 0x65 c (d.toNat * 2 ^ 37 + 1)).toNat = wd at *
  have x0 : bits (d.toNat * 137438953472 + 1) 0 1 = 1 := by have := d.isLt; simp only [bits]; omega
  have x1 : bits (d.toNat * 137438953472 + 1) 1 10 = 0 := by have := d.isLt; simp only [bits]; omega
  have x2 : bits (d.toNat * 137438953472 + 1) 37 8 = d.toNat := by have := d.isLt; simp only [bits]; omega
  simp [rawDecode, decodeXln, regAt, predAt, bit_eq, guardOpt, f0, f1, f2, x0, x1, x2] <;> first | rfl | decide

theorem RoundTrip.active (c : Ctl) (d : Reg) : RoundTrip.Statement (.active c d) := by
  intro hw wd he
  obtain rfl := Option.some.inj he
  apply decodeWord_of hw
  obtain ⟨f0, f1, f2⟩ := mkWord_fields 0x66 c (d.toNat * 2 ^ 37) (by decide) (by have := d.isLt; omega)
  generalize (mkWord 0x66 c (d.toNat * 2 ^ 37)).toNat = wd at *
  have x0 : bits (d.toNat * 137438953472) 0 13 = 0 := by have := d.isLt; simp only [bits]; omega
  have x1 : bits (d.toNat * 137438953472) 37 8 = d.toNat := by have := d.isLt; simp only [bits]; omega
  simp [rawDecode, decodeXln, regAt, predAt, bit_eq, guardOpt, f0, f1, f2, x0, x1] <;> first | rfl | decide

theorem RoundTrip.elect (c : Ctl) (ms : MSrc) (p : Pred) : RoundTrip.Statement (.elect c ms p) := by
  intro hw wd he
  obtain rfl := Option.some.inj he
  apply decodeWord_of hw
  have p_p : p.toNat < 8 := p.isLt
  have hm : 0 < 2048 := (by decide)
  obtain ⟨f0, f1, f2, f3, f4, f5, f6⟩ := xln_fields 0x67 c p.toNat 0 0 ms 0 (by decide) (Nat.lt_of_lt_of_le p.isLt (by decide)) (by decide) (by decide) hm _ rfl
  generalize (mkWord 0x67 c (fXLN p.toNat 0 0 ms 0)).toNat = wd at *
  simp [rawDecode, decodeXln, regAt, predAt, bit_eq, guardOpt, p_p, f0, f1, f2, f3, f4, f5, f6] <;> first | rfl | decide

theorem RoundTrip.ld (c : Ctl) (sz : Size) (m : MemOp) (d : Reg) : RoundTrip.Statement (.ld c sz m d) := by
  intro hw w he
  obtain rfl := Option.some.inj he
  apply decodeWord_of hw
  have hz : sz.code < 5 := by cases sz <;> decide
  have hb : m.space.modBase ≤ 10 := by cases m.space <;> simp [Space.modBase]
  obtain ⟨f0, f1, f2, f3, f4, f5, f6⟩ := mem_fields 0x80 c d.toNat m.a.toNat m.space.brec m.off.toNat (m.space.modBase + sz.code) (by decide)
    d.isLt m.a.isLt m.space.brec_lt m.off.isLt (by omega) _ rfl
  generalize (mkWord 0x80 c (fMEM d.toNat m.a.toNat m.space.brec m.off.toNat (m.space.modBase + sz.code))).toNat = w at *
  have hm := memOp_of w sz m (by rw [f6 _ _ (by decide)]; simp only [bits]; omega) f3 f4 f5
  simp [rawDecode, decodeMem, regAt, f0, f1, f2, hm]

theorem RoundTrip.st (c : Ctl) (sz : Size) (m : MemOp) (d : Reg) : RoundTrip.Statement (.st c sz m d) := by
  intro hw w he
  obtain rfl := Option.some.inj he
  apply decodeWord_of hw
  have hz : sz.code < 5 := by cases sz <;> decide
  have hb : m.space.modBase ≤ 10 := by cases m.space <;> simp [Space.modBase]
  obtain ⟨f0, f1, f2, f3, f4, f5, f6⟩ := mem_fields 0x81 c d.toNat m.a.toNat m.space.brec m.off.toNat (m.space.modBase + sz.code) (by decide)
    d.isLt m.a.isLt m.space.brec_lt m.off.isLt (by omega) _ rfl
  generalize (mkWord 0x81 c (fMEM d.toNat m.a.toNat m.space.brec m.off.toNat (m.space.modBase + sz.code))).toNat = w at *
  have hm := memOp_of w sz m (by rw [f6 _ _ (by decide)]; simp only [bits]; omega) f3 f4 f5
  simp [rawDecode, decodeMem, regAt, f0, f1, f2, hm]

theorem RoundTrip.prefL1 (c : Ctl) (sz : Size) (brec : BitVec 12) (a : Reg) (off : BitVec 13) : RoundTrip.Statement (.prefL1 c sz brec a off) := by
  intro hw wd he
  obtain rfl := Option.some.inj he
  apply decodeWord_of hw
  have hm : sz.code < 16 := (by cases sz <;> decide)
  have x0 : bits (sz.code) 0 4 = sz.code := by
    simp only [bits]; omega
  obtain ⟨f0, f1, f2, f3, f4, f5, f6⟩ := mem_fields 0x82 c 0 a.toNat brec.toNat off.toNat sz.code (by decide) (by decide) (Nat.lt_of_lt_of_le a.isLt (by decide)) (Nat.lt_of_lt_of_le brec.isLt (by decide)) (Nat.lt_of_lt_of_le off.isLt (by decide)) hm _ rfl
  generalize (mkWord 0x82 c (fMEM 0 a.toNat brec.toNat off.toNat sz.code)).toNat = wd at *
  simp [rawDecode, decodeMem, regAt, predAt, bit_eq, guardOpt, brecAt, off13At, decodeTbar, decodeLock, decodeBar, f0, f1, f2, f3, f4, f5, f6, x0] <;> first | rfl | decide

theorem RoundTrip.prefL2 (c : Ctl) (sz : Size) (brec : BitVec 12) (a : Reg) (off : BitVec 13) : RoundTrip.Statement (.prefL2 c sz brec a off) := by
  intro hw wd he
  obtain rfl := Option.some.inj he
  apply decodeWord_of hw
  have hm : sz.code < 16 := (by cases sz <;> decide)
  have x0 : bits (sz.code) 0 4 = sz.code := by
    simp only [bits]; omega
  obtain ⟨f0, f1, f2, f3, f4, f5, f6⟩ := mem_fields 0x82 c 1 a.toNat brec.toNat off.toNat sz.code (by decide) (by decide) (Nat.lt_of_lt_of_le a.isLt (by decide)) (Nat.lt_of_lt_of_le brec.isLt (by decide)) (Nat.lt_of_lt_of_le off.isLt (by decide)) hm _ rfl
  generalize (mkWord 0x82 c (fMEM 1 a.toNat brec.toNat off.toNat sz.code)).toNat = wd at *
  simp [rawDecode, decodeMem, regAt, predAt, bit_eq, guardOpt, brecAt, off13At, decodeTbar, decodeLock, decodeBar, f0, f1, f2, f3, f4, f5, f6, x0] <;> first | rfl | decide

theorem RoundTrip.cmaintWb (c : Ctl) (sz : Size) (brec : BitVec 12) (a : Reg) (off : BitVec 13) : RoundTrip.Statement (.cmaintWb c sz brec a off) := by
  intro hw wd he
  obtain rfl := Option.some.inj he
  apply decodeWord_of hw
  have hm : sz.code < 16 := (by cases sz <;> decide)
  have x0 : bits (sz.code) 0 4 = sz.code := by
    simp only [bits]; omega
  obtain ⟨f0, f1, f2, f3, f4, f5, f6⟩ := mem_fields 0x83 c 0 a.toNat brec.toNat off.toNat sz.code (by decide) (by decide) (Nat.lt_of_lt_of_le a.isLt (by decide)) (Nat.lt_of_lt_of_le brec.isLt (by decide)) (Nat.lt_of_lt_of_le off.isLt (by decide)) hm _ rfl
  generalize (mkWord 0x83 c (fMEM 0 a.toNat brec.toNat off.toNat sz.code)).toNat = wd at *
  simp [rawDecode, decodeMem, regAt, predAt, bit_eq, guardOpt, brecAt, off13At, decodeTbar, decodeLock, decodeBar, f0, f1, f2, f3, f4, f5, f6, x0] <;> first | rfl | decide

theorem RoundTrip.cmaintWbinv (c : Ctl) (sz : Size) (brec : BitVec 12) (a : Reg) (off : BitVec 13) : RoundTrip.Statement (.cmaintWbinv c sz brec a off) := by
  intro hw wd he
  obtain rfl := Option.some.inj he
  apply decodeWord_of hw
  have hm : sz.code < 16 := (by cases sz <;> decide)
  have x0 : bits (sz.code) 0 4 = sz.code := by
    simp only [bits]; omega
  obtain ⟨f0, f1, f2, f3, f4, f5, f6⟩ := mem_fields 0x83 c 1 a.toNat brec.toNat off.toNat sz.code (by decide) (by decide) (Nat.lt_of_lt_of_le a.isLt (by decide)) (Nat.lt_of_lt_of_le brec.isLt (by decide)) (Nat.lt_of_lt_of_le off.isLt (by decide)) hm _ rfl
  generalize (mkWord 0x83 c (fMEM 1 a.toNat brec.toNat off.toNat sz.code)).toNat = wd at *
  simp [rawDecode, decodeMem, regAt, predAt, bit_eq, guardOpt, brecAt, off13At, decodeTbar, decodeLock, decodeBar, f0, f1, f2, f3, f4, f5, f6, x0] <;> first | rfl | decide

theorem RoundTrip.cmaintWbmem (c : Ctl) (sz : Size) (brec : BitVec 12) (a : Reg) (off : BitVec 13) : RoundTrip.Statement (.cmaintWbmem c sz brec a off) := by
  intro hw wd he
  obtain rfl := Option.some.inj he
  apply decodeWord_of hw
  have hm : sz.code < 16 := (by cases sz <;> decide)
  have x0 : bits (sz.code) 0 4 = sz.code := by
    simp only [bits]; omega
  obtain ⟨f0, f1, f2, f3, f4, f5, f6⟩ := mem_fields 0x83 c 2 a.toNat brec.toNat off.toNat sz.code (by decide) (by decide) (Nat.lt_of_lt_of_le a.isLt (by decide)) (Nat.lt_of_lt_of_le brec.isLt (by decide)) (Nat.lt_of_lt_of_le off.isLt (by decide)) hm _ rfl
  generalize (mkWord 0x83 c (fMEM 2 a.toNat brec.toNat off.toNat sz.code)).toNat = wd at *
  simp [rawDecode, decodeMem, regAt, predAt, bit_eq, guardOpt, brecAt, off13At, decodeTbar, decodeLock, decodeBar, f0, f1, f2, f3, f4, f5, f6, x0] <;> first | rfl | decide

theorem RoundTrip.fence (c : Ctl) (kind : FenceKind) (scope : Scope) (uo : Bool) : RoundTrip.Statement (.fence c kind scope uo) := by
  intro hw wd he
  obtain rfl := Option.some.inj he
  apply decodeWord_of hw
  have hm : (uo.toNat * 32 + scope.code * 4 + kind.code) < 8192 := (by cases kind <;> cases scope <;> cases uo <;> decide)
  obtain ⟨f0, f1, f2, f3, f4, f5, f6⟩ := rrr_fields 0x84 c 0 0 0 0 (uo.toNat * 32 + scope.code * 4 + kind.code) (by decide) (by decide) (by decide) (by decide) (by decide) hm _ rfl
  generalize (mkWord 0x84 c (fRRR 0 0 0 0 (uo.toNat * 32 + scope.code * 4 + kind.code))).toNat = wd at *
  cases kind <;> cases scope <;> cases uo <;> simp [rawDecode, decodeMem, regAt, predAt, bit_eq, guardOpt, brecAt, off13At, decodeTbar, decodeLock, decodeBar, f0, f1, f2, f3, f4, f5, f6] <;> first | rfl | decide

theorem RoundTrip.acqr (c : Ctl) (uo : Bool) (a : Reg) : RoundTrip.Statement (.acqr c uo a) := by
  intro hw wd he
  obtain rfl := Option.some.inj he
  apply decodeWord_of hw
  have hm : uo.toNat < 8192 := (by cases uo <;> decide)
  obtain ⟨f0, f1, f2, f3, f4, f5, f6⟩ := rrr_fields 0x85 c 0 a.toNat 0 0 uo.toNat (by decide) (by decide) (Nat.lt_of_lt_of_le a.isLt (by decide)) (by decide) (by decide) hm _ rfl
  generalize (mkWord 0x85 c (fRRR 0 a.toNat 0 0 uo.toNat)).toNat = wd at *
  cases uo <;> simp [rawDecode, decodeMem, regAt, predAt, bit_eq, guardOpt, brecAt, off13At, decodeTbar, decodeLock, decodeBar, f0, f1, f2, f3, f4, f5, f6] <;> first | rfl | decide

theorem RoundTrip.acpy (c : Ctl) (sz : Size) (src : ASrc) (x y z : Reg) : RoundTrip.Statement (.acpy c sz src x y z) := by
  intro hw w he
  have hsz : sz = .n32 ∨ sz = .n64 ∨ sz = .n128 := by
    simp only [Instr.wellFormed, Bool.and_eq_true, Bool.or_eq_true, beq_iff_eq, or_assoc] at hw
    exact hw.1
  cases src with
  | vault =>
    rcases hsz with rfl | rfl | rfl
    all_goals
      obtain rfl := Option.some.inj he
      apply decodeWord_of hw
    · obtain ⟨f0, f1, f2, f3, f4, f5, f6⟩ := cpy_fields 0x86 c x.toNat y.toNat 0 z.toNat 4 (by decide) x.isLt y.isLt (by decide) z.isLt (by decide) _ rfl
      generalize (mkWord 0x86 c (fCPY x.toNat y.toNat 0 z.toNat (4 + 0))).toNat = w at *
      simp [rawDecode, decodeMem, regAt, bit_eq, guardOpt, f0, f1, f2, f3, f5, f6]; rfl
    · obtain ⟨f0, f1, f2, f3, f4, f5, f6⟩ := cpy_fields 0x86 c x.toNat y.toNat 0 z.toNat 5 (by decide) x.isLt y.isLt (by decide) z.isLt (by decide) _ rfl
      generalize (mkWord 0x86 c (fCPY x.toNat y.toNat 0 z.toNat (4 + 1))).toNat = w at *
      simp [rawDecode, decodeMem, regAt, bit_eq, guardOpt, f0, f1, f2, f3, f5, f6]; rfl
    · obtain ⟨f0, f1, f2, f3, f4, f5, f6⟩ := cpy_fields 0x86 c x.toNat y.toNat 0 z.toNat 6 (by decide) x.isLt y.isLt (by decide) z.isLt (by decide) _ rfl
      generalize (mkWord 0x86 c (fCPY x.toNat y.toNat 0 z.toNat (4 + 2))).toNat = w at *
      simp [rawDecode, decodeMem, regAt, bit_eq, guardOpt, f0, f1, f2, f3, f5, f6]; rfl
  | global r =>
    rcases hsz with rfl | rfl | rfl
    all_goals
      obtain rfl := Option.some.inj he
      apply decodeWord_of hw
    · obtain ⟨f0, f1, f2, f3, f4, f5, f6⟩ := cpy_fields 0x86 c x.toNat y.toNat r.toNat z.toNat 0 (by decide) x.isLt y.isLt r.isLt z.isLt (by decide) _ rfl
      generalize (mkWord 0x86 c (fCPY x.toNat y.toNat r.toNat z.toNat 0)).toNat = w at *
      simp [rawDecode, decodeMem, regAt, brecAt, bit_eq, guardOpt, f0, f1, f2, f3, f4, f5, f6]; rfl
    · obtain ⟨f0, f1, f2, f3, f4, f5, f6⟩ := cpy_fields 0x86 c x.toNat y.toNat r.toNat z.toNat 1 (by decide) x.isLt y.isLt r.isLt z.isLt (by decide) _ rfl
      generalize (mkWord 0x86 c (fCPY x.toNat y.toNat r.toNat z.toNat 1)).toNat = w at *
      simp [rawDecode, decodeMem, regAt, brecAt, bit_eq, guardOpt, f0, f1, f2, f3, f4, f5, f6]; rfl
    · obtain ⟨f0, f1, f2, f3, f4, f5, f6⟩ := cpy_fields 0x86 c x.toNat y.toNat r.toNat z.toNat 2 (by decide) x.isLt y.isLt r.isLt z.isLt (by decide) _ rfl
      generalize (mkWord 0x86 c (fCPY x.toNat y.toNat r.toNat z.toNat 2)).toNat = w at *
      simp [rawDecode, decodeMem, regAt, brecAt, bit_eq, guardOpt, f0, f1, f2, f3, f4, f5, f6]; rfl

theorem RoundTrip.mcpy (c : Ctl) (brec : BitVec 12) (x : Reg) (y : Reg) (z : Reg) : RoundTrip.Statement (.mcpy c brec x y z) := by
  intro hw wd he
  obtain rfl := Option.some.inj he
  apply decodeWord_of hw
  have hm : 0 < 512 := (by decide)
  obtain ⟨f0, f1, f2, f3, f4, f5, f6⟩ := cpy_fields 0x87 c x.toNat y.toNat brec.toNat z.toNat 0 (by decide) (Nat.lt_of_lt_of_le x.isLt (by decide)) (Nat.lt_of_lt_of_le y.isLt (by decide)) (Nat.lt_of_lt_of_le brec.isLt (by decide)) (Nat.lt_of_lt_of_le z.isLt (by decide)) hm _ rfl
  generalize (mkWord 0x87 c (fCPY x.toNat y.toNat brec.toNat z.toNat 0)).toNat = wd at *
  simp [rawDecode, decodeMem, regAt, predAt, bit_eq, guardOpt, brecAt, off13At, decodeTbar, decodeLock, decodeBar, f0, f1, f2, f3, f4, f5, f6] <;> first | rfl | decide

theorem RoundTrip.tbarInit (c : Ctl) (pool : Bool) (a : Reg) (off : BitVec 13) (d : Reg) : RoundTrip.Statement (.tbarInit c pool a off d) := by
  intro hw wd he
  obtain rfl := Option.some.inj he
  apply decodeWord_of hw
  have hm : (pool.toNat * 8) < 16 := (by cases pool <;> decide)
  have x0 : bits ((pool.toNat * 8)) 3 1 = pool.toNat := by
    have : pool.toNat < 2 := by cases pool <;> decide
    simp only [bits]; omega
  have x1 : bits ((pool.toNat * 8)) 0 3 = 0 := by
    have : pool.toNat < 2 := by cases pool <;> decide
    simp only [bits]; omega
  obtain ⟨f0, f1, f2, f3, f4, f5, f6⟩ := mem_fields 0x88 c d.toNat a.toNat 0 off.toNat (pool.toNat * 8) (by decide) (Nat.lt_of_lt_of_le d.isLt (by decide)) (Nat.lt_of_lt_of_le a.isLt (by decide)) (by decide) (Nat.lt_of_lt_of_le off.isLt (by decide)) hm _ rfl
  generalize (mkWord 0x88 c (fMEM d.toNat a.toNat 0 off.toNat (pool.toNat * 8))).toNat = wd at *
  simp [rawDecode, decodeMem, regAt, predAt, bit_eq, guardOpt, brecAt, off13At, decodeTbar, decodeLock, decodeBar, f0, f1, f2, f3, f4, f5, f6, x0, x1] <;> first | rfl | decide

theorem RoundTrip.tbarArrive (c : Ctl) (pool : Bool) (a : Reg) (off : BitVec 13) : RoundTrip.Statement (.tbarArrive c pool a off) := by
  intro hw wd he
  obtain rfl := Option.some.inj he
  apply decodeWord_of hw
  have hm : (pool.toNat * 8 + 1) < 16 := (by cases pool <;> decide)
  have x0 : bits ((pool.toNat * 8 + 1)) 3 1 = pool.toNat := by
    have : pool.toNat < 2 := by cases pool <;> decide
    simp only [bits]; omega
  have x1 : bits ((pool.toNat * 8 + 1)) 0 3 = 1 := by
    have : pool.toNat < 2 := by cases pool <;> decide
    simp only [bits]; omega
  obtain ⟨f0, f1, f2, f3, f4, f5, f6⟩ := mem_fields 0x88 c 0 a.toNat 0 off.toNat (pool.toNat * 8 + 1) (by decide) (by decide) (Nat.lt_of_lt_of_le a.isLt (by decide)) (by decide) (Nat.lt_of_lt_of_le off.isLt (by decide)) hm _ rfl
  generalize (mkWord 0x88 c (fMEM 0 a.toNat 0 off.toNat (pool.toNat * 8 + 1))).toNat = wd at *
  simp [rawDecode, decodeMem, regAt, predAt, bit_eq, guardOpt, brecAt, off13At, decodeTbar, decodeLock, decodeBar, f0, f1, f2, f3, f4, f5, f6, x0, x1] <;> first | rfl | decide

theorem RoundTrip.tbarArriveSect (c : Ctl) (pool : Bool) (a : Reg) (off : BitVec 13) (d : Reg) : RoundTrip.Statement (.tbarArriveSect c pool a off d) := by
  intro hw wd he
  obtain rfl := Option.some.inj he
  apply decodeWord_of hw
  have hm : (pool.toNat * 8 + 2) < 16 := (by cases pool <;> decide)
  have x0 : bits ((pool.toNat * 8 + 2)) 3 1 = pool.toNat := by
    have : pool.toNat < 2 := by cases pool <;> decide
    simp only [bits]; omega
  have x1 : bits ((pool.toNat * 8 + 2)) 0 3 = 2 := by
    have : pool.toNat < 2 := by cases pool <;> decide
    simp only [bits]; omega
  obtain ⟨f0, f1, f2, f3, f4, f5, f6⟩ := mem_fields 0x88 c d.toNat a.toNat 0 off.toNat (pool.toNat * 8 + 2) (by decide) (Nat.lt_of_lt_of_le d.isLt (by decide)) (Nat.lt_of_lt_of_le a.isLt (by decide)) (by decide) (Nat.lt_of_lt_of_le off.isLt (by decide)) hm _ rfl
  generalize (mkWord 0x88 c (fMEM d.toNat a.toNat 0 off.toNat (pool.toNat * 8 + 2))).toNat = wd at *
  simp [rawDecode, decodeMem, regAt, predAt, bit_eq, guardOpt, brecAt, off13At, decodeTbar, decodeLock, decodeBar, f0, f1, f2, f3, f4, f5, f6, x0, x1] <;> first | rfl | decide

theorem RoundTrip.tbarSect (c : Ctl) (pool : Bool) (a : Reg) (off : BitVec 13) (d : Reg) : RoundTrip.Statement (.tbarSect c pool a off d) := by
  intro hw wd he
  obtain rfl := Option.some.inj he
  apply decodeWord_of hw
  have hm : (pool.toNat * 8 + 3) < 16 := (by cases pool <;> decide)
  have x0 : bits ((pool.toNat * 8 + 3)) 3 1 = pool.toNat := by
    have : pool.toNat < 2 := by cases pool <;> decide
    simp only [bits]; omega
  have x1 : bits ((pool.toNat * 8 + 3)) 0 3 = 3 := by
    have : pool.toNat < 2 := by cases pool <;> decide
    simp only [bits]; omega
  obtain ⟨f0, f1, f2, f3, f4, f5, f6⟩ := mem_fields 0x88 c d.toNat a.toNat 0 off.toNat (pool.toNat * 8 + 3) (by decide) (Nat.lt_of_lt_of_le d.isLt (by decide)) (Nat.lt_of_lt_of_le a.isLt (by decide)) (by decide) (Nat.lt_of_lt_of_le off.isLt (by decide)) hm _ rfl
  generalize (mkWord 0x88 c (fMEM d.toNat a.toNat 0 off.toNat (pool.toNat * 8 + 3))).toNat = wd at *
  simp [rawDecode, decodeMem, regAt, predAt, bit_eq, guardOpt, brecAt, off13At, decodeTbar, decodeLock, decodeBar, f0, f1, f2, f3, f4, f5, f6, x0, x1] <;> first | rfl | decide

theorem RoundTrip.tbarWait (c : Ctl) (pool : Bool) (a : Reg) (off : BitVec 13) (d : Reg) : RoundTrip.Statement (.tbarWait c pool a off d) := by
  intro hw wd he
  obtain rfl := Option.some.inj he
  apply decodeWord_of hw
  have hm : (pool.toNat * 8 + 4) < 16 := (by cases pool <;> decide)
  have x0 : bits ((pool.toNat * 8 + 4)) 3 1 = pool.toNat := by
    have : pool.toNat < 2 := by cases pool <;> decide
    simp only [bits]; omega
  have x1 : bits ((pool.toNat * 8 + 4)) 0 3 = 4 := by
    have : pool.toNat < 2 := by cases pool <;> decide
    simp only [bits]; omega
  obtain ⟨f0, f1, f2, f3, f4, f5, f6⟩ := mem_fields 0x88 c d.toNat a.toNat 0 off.toNat (pool.toNat * 8 + 4) (by decide) (Nat.lt_of_lt_of_le d.isLt (by decide)) (Nat.lt_of_lt_of_le a.isLt (by decide)) (by decide) (Nat.lt_of_lt_of_le off.isLt (by decide)) hm _ rfl
  generalize (mkWord 0x88 c (fMEM d.toNat a.toNat 0 off.toNat (pool.toNat * 8 + 4))).toNat = wd at *
  simp [rawDecode, decodeMem, regAt, predAt, bit_eq, guardOpt, brecAt, off13At, decodeTbar, decodeLock, decodeBar, f0, f1, f2, f3, f4, f5, f6, x0, x1] <;> first | rfl | decide

theorem RoundTrip.tbarTest (c : Ctl) (pool : Bool) (a : Reg) (off : BitVec 13) (d : Reg) : RoundTrip.Statement (.tbarTest c pool a off d) := by
  intro hw wd he
  obtain rfl := Option.some.inj he
  apply decodeWord_of hw
  have hm : (pool.toNat * 8 + 5) < 16 := (by cases pool <;> decide)
  have x0 : bits ((pool.toNat * 8 + 5)) 3 1 = pool.toNat := by
    have : pool.toNat < 2 := by cases pool <;> decide
    simp only [bits]; omega
  have x1 : bits ((pool.toNat * 8 + 5)) 0 3 = 5 := by
    have : pool.toNat < 2 := by cases pool <;> decide
    simp only [bits]; omega
  obtain ⟨f0, f1, f2, f3, f4, f5, f6⟩ := mem_fields 0x88 c d.toNat a.toNat 0 off.toNat (pool.toNat * 8 + 5) (by decide) (Nat.lt_of_lt_of_le d.isLt (by decide)) (Nat.lt_of_lt_of_le a.isLt (by decide)) (by decide) (Nat.lt_of_lt_of_le off.isLt (by decide)) hm _ rfl
  generalize (mkWord 0x88 c (fMEM d.toNat a.toNat 0 off.toNat (pool.toNat * 8 + 5))).toNat = wd at *
  simp [rawDecode, decodeMem, regAt, predAt, bit_eq, guardOpt, brecAt, off13At, decodeTbar, decodeLock, decodeBar, f0, f1, f2, f3, f4, f5, f6, x0, x1] <;> first | rfl | decide

theorem RoundTrip.atom (c : Ctl) (k : ACtl) (op : AtomOp) (ty : ITy) (sp : Space) (a d : Reg) : RoundTrip.Statement (.atom c k op ty sp a d) := by
  intro hw w he
  obtain rfl := Option.some.inj he
  apply decodeWord_of hw
  have h_ty : ty.code < 4 := by cases ty <;> decide
  have h_op : op.code < 10 := by cases op <;> decide
  obtain ⟨f0, f1, f2, f3, f4, f5, f6⟩ := atomic_fields 0x89 c d a k sp (ty.code * 128 + op.code) (by decide) (by omega) _ rfl
  simp only [← Nat.add_assoc, Nat.add_zero] at f0 f1 f2 f3 f4 f5 f6
  generalize (mkWord 0x89 c (fMEMC d.toNat a.toNat sp.brec (k.code + sp.actlBits + ty.code * 128 + op.code))).toNat = w at *
  have x0 : bits w 7 2 = ty.code := by rw [f6 _ _ (by decide)]; simp only [bits]; omega
  have x1 : bits w 0 4 = op.code := by rw [f6 _ _ (by decide)]; simp only [bits]; omega
  have x2 : bits w 4 3 = 0 := by rw [f6 _ _ (by decide)]; simp only [bits]; omega
  simp [rawDecode, decodeMem, bit_eq, guardOpt, f0, f1, f2, f3, f4, f5, x0, x1, x2]

theorem RoundTrip.atomn (c : Ctl) (k : ACtl) (op : AtomOp) (ty : ITy) (sp : Space) (a d : Reg) : RoundTrip.Statement (.atomn c k op ty sp a d) := by
  intro hw w he
  obtain rfl := Option.some.inj he
  apply decodeWord_of hw
  have h_ty : ty.code < 4 := by cases ty <;> decide
  have h_op : op.code < 10 := by cases op <;> decide
  obtain ⟨f0, f1, f2, f3, f4, f5, f6⟩ := atomic_fields 0x8A c d a k sp (ty.code * 128 + op.code) (by decide) (by omega) _ rfl
  simp only [← Nat.add_assoc, Nat.add_zero] at f0 f1 f2 f3 f4 f5 f6
  generalize (mkWord 0x8A c (fMEMC d.toNat a.toNat sp.brec (k.code + sp.actlBits + ty.code * 128 + op.code))).toNat = w at *
  have x0 : bits w 7 2 = ty.code := by rw [f6 _ _ (by decide)]; simp only [bits]; omega
  have x1 : bits w 0 4 = op.code := by rw [f6 _ _ (by decide)]; simp only [bits]; omega
  have x2 : bits w 4 3 = 0 := by rw [f6 _ _ (by decide)]; simp only [bits]; omega
  simp [rawDecode, decodeMem, bit_eq, guardOpt, f0, f1, f2, f3, f4, f5, x0, x1, x2]

theorem RoundTrip.acas (c : Ctl) (k : ACtl) (ty : ITy) (sp : Space) (a d : Reg) : RoundTrip.Statement (.acas c k ty sp a d) := by
  intro hw w he
  obtain rfl := Option.some.inj he
  apply decodeWord_of hw
  have h_ty : ty.code < 4 := by cases ty <;> decide
  obtain ⟨f0, f1, f2, f3, f4, f5, f6⟩ := atomic_fields 0x8B c d a k sp (ty.code * 128) (by decide) (by omega) _ rfl
  generalize (mkWord 0x8B c (fMEMC d.toNat a.toNat sp.brec (k.code + sp.actlBits + ty.code * 128))).toNat = w at *
  have x0 : bits w 7 2 = ty.code := by rw [f6 _ _ (by decide)]; simp only [bits]; omega
  have x1 : bits w 0 7 = 0 := by rw [f6 _ _ (by decide)]; simp only [bits]; omega
  simp [rawDecode, decodeMem, bit_eq, guardOpt, f0, f1, f2, f3, f4, f5, x0, x1]

theorem RoundTrip.exsum (c : Ctl) (k : ACtl) (sp : Space) (a d : Reg) : RoundTrip.Statement (.exsum c k sp a d) := by
  intro hw w he
  obtain rfl := Option.some.inj he
  apply decodeWord_of hw
  obtain ⟨f0, f1, f2, f3, f4, f5, f6⟩ := atomic_fields 0x8C c d a k sp (0) (by decide) (by omega) _ rfl
  simp only [← Nat.add_assoc, Nat.add_zero] at f0 f1 f2 f3 f4 f5 f6
  generalize (mkWord 0x8C c (fMEMC d.toNat a.toNat sp.brec (k.code + sp.actlBits))).toNat = w at *
  have x0 : bits w 0 9 = 0 := by rw [f6 _ _ (by decide)]; simp only [bits]; omega
  simp [rawDecode, decodeMem, bit_eq, guardOpt, f0, f1, f2, f3, f4, f5, x0]

theorem RoundTrip.excvt (c : Ctl) (k : ACtl) (bf16 clr : Bool) (sp : Space) (a d : Reg) : RoundTrip.Statement (.excvt c k bf16 clr sp a d) := by
  intro hw w he
  obtain rfl := Option.some.inj he
  apply decodeWord_of hw
  have h_clr : clr.toNat < 2 := by cases clr <;> decide
  have h_bf16 : bf16.toNat < 2 := by cases bf16 <;> decide
  obtain ⟨f0, f1, f2, f3, f4, f5, f6⟩ := atomic_fields 0x8D c d a k sp (clr.toNat * 16 + bf16.toNat) (by decide) (by omega) _ rfl
  simp only [← Nat.add_assoc, Nat.add_zero] at f0 f1 f2 f3 f4 f5 f6
  generalize (mkWord 0x8D c (fMEMC d.toNat a.toNat sp.brec (k.code + sp.actlBits + clr.toNat * 16 + bf16.toNat))).toNat = w at *
  have x0 : bits w 0 4 = bf16.toNat := by rw [f6 _ _ (by decide)]; simp only [bits]; omega
  have x1 : bits w 0 1 = bf16.toNat := by rw [f6 _ _ (by decide)]; simp only [bits]; omega
  have x2 : bits w 4 1 = clr.toNat := by rw [f6 _ _ (by decide)]; simp only [bits]; omega
  have x3 : bits w 5 4 = 0 := by rw [f6 _ _ (by decide)]; simp only [bits]; omega
  simp [rawDecode, decodeMem, bit_eq, guardOpt, f0, f1, f2, f3, f4, f5, x0, x1, x2, x3]
  omega

theorem RoundTrip.waitc (c : Ctl) (cond : WCond) (uo : Bool) (brec : BitVec 12) (a : Reg) (d : Reg) : RoundTrip.Statement (.waitc c cond uo brec a d) := by
  intro hw wd he
  obtain rfl := Option.some.inj he
  apply decodeWord_of hw
  have hm : (uo.toNat * 65536 + 40960 + cond.code) < 131072 := (by cases cond <;> cases uo <;> decide)
  have x0 : bits ((uo.toNat * 65536 + 40960 + cond.code)) 0 4 = cond.code := by
    have : uo.toNat < 2 := by cases uo <;> decide
    have : cond.code < 10 := by cases cond <;> decide
    simp only [bits]; omega
  have x1 : bits ((uo.toNat * 65536 + 40960 + cond.code)) 4 9 = 0 := by
    have : uo.toNat < 2 := by cases uo <;> decide
    have : cond.code < 10 := by cases cond <;> decide
    simp only [bits]; omega
  have x2 : bits ((uo.toNat * 65536 + 40960 + cond.code)) 13 3 = 5 := by
    have : uo.toNat < 2 := by cases uo <;> decide
    have : cond.code < 10 := by cases cond <;> decide
    simp only [bits]; omega
  have x3 : bits ((uo.toNat * 65536 + 40960 + cond.code)) 16 1 = uo.toNat := by
    have : uo.toNat < 2 := by cases uo <;> decide
    have : cond.code < 10 := by cases cond <;> decide
    simp only [bits]; omega
  obtain ⟨f0, f1, f2, f3, f4, f5⟩ := memc_fields 0x8E c d.toNat a.toNat brec.toNat (uo.toNat * 65536 + 40960 + cond.code) (by decide) (Nat.lt_of_lt_of_le d.isLt (by decide)) (Nat.lt_of_lt_of_le a.isLt (by decide)) (Nat.lt_of_lt_of_le brec.isLt (by decide)) hm _ rfl
  generalize (mkWord 0x8E c (fMEMC d.toNat a.toNat brec.toNat (uo.toNat * 65536 + 40960 + cond.code))).toNat = wd at *
  simp [rawDecode, decodeMem, regAt, predAt, bit_eq, guardOpt, brecAt, off13At, decodeTbar, decodeLock, decodeBar, f0, f1, f2, f3, f4, f5, x0, x1, x2, x3] <;> first | rfl | decide

theorem RoundTrip.llock (c : Ctl) (uo : Bool) (brec : BitVec 12) (a : Reg) (d : Reg) : RoundTrip.Statement (.llock c uo brec a d) := by
  intro hw wd he
  obtain rfl := Option.some.inj he
  apply decodeWord_of hw
  have hm : (uo.toNat * 65536) < 131072 := (by cases uo <;> decide)
  have x0 : bits ((uo.toNat * 65536)) 0 16 = 0 := by
    have : uo.toNat < 2 := by cases uo <;> decide
    simp only [bits]; omega
  have x1 : bits ((uo.toNat * 65536)) 16 1 = uo.toNat := by
    have : uo.toNat < 2 := by cases uo <;> decide
    simp only [bits]; omega
  obtain ⟨f0, f1, f2, f3, f4, f5⟩ := memc_fields 0x8F c d.toNat a.toNat brec.toNat (uo.toNat * 65536) (by decide) (Nat.lt_of_lt_of_le d.isLt (by decide)) (Nat.lt_of_lt_of_le a.isLt (by decide)) (Nat.lt_of_lt_of_le brec.isLt (by decide)) hm _ rfl
  generalize (mkWord 0x8F c (fMEMC d.toNat a.toNat brec.toNat (uo.toNat * 65536))).toNat = wd at *
  simp [rawDecode, decodeMem, regAt, predAt, bit_eq, guardOpt, brecAt, off13At, decodeTbar, decodeLock, decodeBar, f0, f1, f2, f3, f4, f5, x0, x1] <;> first | rfl | decide

theorem RoundTrip.lunlk (c : Ctl) (uo : Bool) (brec : BitVec 12) (a : Reg) (d : Reg) : RoundTrip.Statement (.lunlk c uo brec a d) := by
  intro hw wd he
  obtain rfl := Option.some.inj he
  apply decodeWord_of hw
  have hm : (uo.toNat * 65536) < 131072 := (by cases uo <;> decide)
  have x0 : bits ((uo.toNat * 65536)) 0 16 = 0 := by
    have : uo.toNat < 2 := by cases uo <;> decide
    simp only [bits]; omega
  have x1 : bits ((uo.toNat * 65536)) 16 1 = uo.toNat := by
    have : uo.toNat < 2 := by cases uo <;> decide
    simp only [bits]; omega
  obtain ⟨f0, f1, f2, f3, f4, f5⟩ := memc_fields 0x90 c d.toNat a.toNat brec.toNat (uo.toNat * 65536) (by decide) (Nat.lt_of_lt_of_le d.isLt (by decide)) (Nat.lt_of_lt_of_le a.isLt (by decide)) (Nat.lt_of_lt_of_le brec.isLt (by decide)) hm _ rfl
  generalize (mkWord 0x90 c (fMEMC d.toNat a.toNat brec.toNat (uo.toNat * 65536))).toNat = wd at *
  simp [rawDecode, decodeMem, regAt, predAt, bit_eq, guardOpt, brecAt, off13At, decodeTbar, decodeLock, decodeBar, f0, f1, f2, f3, f4, f5, x0, x1] <;> first | rfl | decide

theorem RoundTrip.ltry (c : Ctl) (uo : Bool) (brec : BitVec 12) (a : Reg) (d : Reg) : RoundTrip.Statement (.ltry c uo brec a d) := by
  intro hw wd he
  obtain rfl := Option.some.inj he
  apply decodeWord_of hw
  have hm : (uo.toNat * 65536) < 131072 := (by cases uo <;> decide)
  have x0 : bits ((uo.toNat * 65536)) 0 16 = 0 := by
    have : uo.toNat < 2 := by cases uo <;> decide
    simp only [bits]; omega
  have x1 : bits ((uo.toNat * 65536)) 16 1 = uo.toNat := by
    have : uo.toNat < 2 := by cases uo <;> decide
    simp only [bits]; omega
  obtain ⟨f0, f1, f2, f3, f4, f5⟩ := memc_fields 0x91 c d.toNat a.toNat brec.toNat (uo.toNat * 65536) (by decide) (Nat.lt_of_lt_of_le d.isLt (by decide)) (Nat.lt_of_lt_of_le a.isLt (by decide)) (Nat.lt_of_lt_of_le brec.isLt (by decide)) hm _ rfl
  generalize (mkWord 0x91 c (fMEMC d.toNat a.toNat brec.toNat (uo.toNat * 65536))).toNat = wd at *
  simp [rawDecode, decodeMem, regAt, predAt, bit_eq, guardOpt, brecAt, off13At, decodeTbar, decodeLock, decodeBar, f0, f1, f2, f3, f4, f5, x0, x1] <;> first | rfl | decide

theorem RoundTrip.lstat (c : Ctl) (brec : BitVec 12) (a : Reg) (d : Reg) : RoundTrip.Statement (.lstat c brec a d) := by
  intro hw wd he
  obtain rfl := Option.some.inj he
  apply decodeWord_of hw
  have hm : 0 < 131072 := (by decide)
  obtain ⟨f0, f1, f2, f3, f4, f5⟩ := memc_fields 0x92 c d.toNat a.toNat brec.toNat 0 (by decide) (Nat.lt_of_lt_of_le d.isLt (by decide)) (Nat.lt_of_lt_of_le a.isLt (by decide)) (Nat.lt_of_lt_of_le brec.isLt (by decide)) hm _ rfl
  generalize (mkWord 0x92 c (fMEMC d.toNat a.toNat brec.toNat 0)).toNat = wd at *
  simp [rawDecode, decodeMem, regAt, predAt, bit_eq, guardOpt, brecAt, off13At, decodeTbar, decodeLock, decodeBar, f0, f1, f2, f3, f4, f5] <;> first | rfl | decide

theorem RoundTrip.bar (c : Ctl) (op : BarOp) (uo : Bool) (cnt : Bool) (id : BitVec 4) (d : Reg) (a : Reg) (b : Reg) : RoundTrip.Statement (.bar c op uo cnt id d a b) := by
  intro hw wd he
  obtain rfl := Option.some.inj he
  apply decodeWord_of hw
  have hm : (cnt.toNat * 256 + uo.toNat * 128 + op.code * 16 + id.toNat) < 8192 := (by have := id.isLt; cases op <;> cases uo <;> cases cnt <;> (try simp only [ITy.code, ICond.code, LogicOp.code, ShiftKind.code, MoviForm.code, FTy.code, Rnd.code, CFmt.code, PFmt.code, XMode.code, VoteOp.code, XOp.code, Size.code, Scope.code, FenceKind.code, AtomOp.code, WCond.code, BarOp.code, Space.modBase, Space.actlBits, Bool.toNat_true, Bool.toNat_false]) <;> omega)
  have x0 : bits ((cnt.toNat * 256 + uo.toNat * 128 + op.code * 16 + id.toNat)) 4 3 = op.code := by
    have : uo.toNat < 2 := by cases uo <;> decide
    have : cnt.toNat < 2 := by cases cnt <;> decide
    have : op.code < 5 := by cases op <;> decide
    have := id.isLt; simp only [bits]; omega
  have x1 : bits ((cnt.toNat * 256 + uo.toNat * 128 + op.code * 16 + id.toNat)) 7 1 = uo.toNat := by
    have : uo.toNat < 2 := by cases uo <;> decide
    have : cnt.toNat < 2 := by cases cnt <;> decide
    have : op.code < 5 := by cases op <;> decide
    have := id.isLt; simp only [bits]; omega
  have x2 : bits ((cnt.toNat * 256 + uo.toNat * 128 + op.code * 16 + id.toNat)) 8 1 = cnt.toNat := by
    have : uo.toNat < 2 := by cases uo <;> decide
    have : cnt.toNat < 2 := by cases cnt <;> decide
    have : op.code < 5 := by cases op <;> decide
    have := id.isLt; simp only [bits]; omega
  have x3 : bits ((cnt.toNat * 256 + uo.toNat * 128 + op.code * 16 + id.toNat)) 9 4 = 0 := by
    have : uo.toNat < 2 := by cases uo <;> decide
    have : cnt.toNat < 2 := by cases cnt <;> decide
    have : op.code < 5 := by cases op <;> decide
    have := id.isLt; simp only [bits]; omega
  have x4 : bits ((cnt.toNat * 256 + uo.toNat * 128 + op.code * 16 + id.toNat)) 0 4 = id.toNat := by
    have : uo.toNat < 2 := by cases uo <;> decide
    have : cnt.toNat < 2 := by cases cnt <;> decide
    have : op.code < 5 := by cases op <;> decide
    have := id.isLt; simp only [bits]; omega
  obtain ⟨f0, f1, f2, f3, f4, f5, f6⟩ := rrr_fields 0x93 c d.toNat a.toNat b.toNat 0 (cnt.toNat * 256 + uo.toNat * 128 + op.code * 16 + id.toNat) (by decide) (Nat.lt_of_lt_of_le d.isLt (by decide)) (Nat.lt_of_lt_of_le a.isLt (by decide)) (Nat.lt_of_lt_of_le b.isLt (by decide)) (by decide) hm _ rfl
  generalize (mkWord 0x93 c (fRRR d.toNat a.toNat b.toNat 0 (cnt.toNat * 256 + uo.toNat * 128 + op.code * 16 + id.toNat))).toNat = wd at *
  simp only [Instr.wellFormed, barFieldsOk, Bool.and_eq_true, Bool.or_eq_true, bne_iff_ne, beq_iff_eq] at hw
  have ha := hw.2.1
  have hb := hw.2.2
  simp [rawDecode, decodeMem, regAt, predAt, bit_eq, guardOpt, brecAt, off13At, decodeTbar, decodeLock, decodeBar, f0, f1, f2, f3, f4, f5, f6, x0, x1, x2, x3, x4]
  refine ⟨?_, ?_, ?_⟩
  · by_cases h : op = .sync
    · simp [h] at ha ⊢; exact ha.1.symm
    · simp [h]
  · by_cases h : op = .sync
    · simp [h] at ha ⊢; exact ha.2.symm
    · simp [h]
  · cases cnt
    · simp at hb ⊢; exact hb.symm
    · simp

theorem RoundTrip.cbar (c : Ctl) (op : BarOp) (uo : Bool) (cnt : Bool) (id : BitVec 4) (d : Reg) (a : Reg) (b : Reg) : RoundTrip.Statement (.cbar c op uo cnt id d a b) := by
  intro hw wd he
  obtain rfl := Option.some.inj he
  apply decodeWord_of hw
  have hm : (cnt.toNat * 256 + uo.toNat * 128 + op.code * 16 + id.toNat) < 8192 := (by have := id.isLt; cases op <;> cases uo <;> cases cnt <;> (try simp only [ITy.code, ICond.code, LogicOp.code, ShiftKind.code, MoviForm.code, FTy.code, Rnd.code, CFmt.code, PFmt.code, XMode.code, VoteOp.code, XOp.code, Size.code, Scope.code, FenceKind.code, AtomOp.code, WCond.code, BarOp.code, Space.modBase, Space.actlBits, Bool.toNat_true, Bool.toNat_false]) <;> omega)
  have x0 : bits ((cnt.toNat * 256 + uo.toNat * 128 + op.code * 16 + id.toNat)) 4 3 = op.code := by
    have : uo.toNat < 2 := by cases uo <;> decide
    have : cnt.toNat < 2 := by cases cnt <;> decide
    have : op.code < 5 := by cases op <;> decide
    have := id.isLt; simp only [bits]; omega
  have x1 : bits ((cnt.toNat * 256 + uo.toNat * 128 + op.code * 16 + id.toNat)) 7 1 = uo.toNat := by
    have : uo.toNat < 2 := by cases uo <;> decide
    have : cnt.toNat < 2 := by cases cnt <;> decide
    have : op.code < 5 := by cases op <;> decide
    have := id.isLt; simp only [bits]; omega
  have x2 : bits ((cnt.toNat * 256 + uo.toNat * 128 + op.code * 16 + id.toNat)) 8 1 = cnt.toNat := by
    have : uo.toNat < 2 := by cases uo <;> decide
    have : cnt.toNat < 2 := by cases cnt <;> decide
    have : op.code < 5 := by cases op <;> decide
    have := id.isLt; simp only [bits]; omega
  have x3 : bits ((cnt.toNat * 256 + uo.toNat * 128 + op.code * 16 + id.toNat)) 9 4 = 0 := by
    have : uo.toNat < 2 := by cases uo <;> decide
    have : cnt.toNat < 2 := by cases cnt <;> decide
    have : op.code < 5 := by cases op <;> decide
    have := id.isLt; simp only [bits]; omega
  have x4 : bits ((cnt.toNat * 256 + uo.toNat * 128 + op.code * 16 + id.toNat)) 0 4 = id.toNat := by
    have : uo.toNat < 2 := by cases uo <;> decide
    have : cnt.toNat < 2 := by cases cnt <;> decide
    have : op.code < 5 := by cases op <;> decide
    have := id.isLt; simp only [bits]; omega
  obtain ⟨f0, f1, f2, f3, f4, f5, f6⟩ := rrr_fields 0x94 c d.toNat a.toNat b.toNat 0 (cnt.toNat * 256 + uo.toNat * 128 + op.code * 16 + id.toNat) (by decide) (Nat.lt_of_lt_of_le d.isLt (by decide)) (Nat.lt_of_lt_of_le a.isLt (by decide)) (Nat.lt_of_lt_of_le b.isLt (by decide)) (by decide) hm _ rfl
  generalize (mkWord 0x94 c (fRRR d.toNat a.toNat b.toNat 0 (cnt.toNat * 256 + uo.toNat * 128 + op.code * 16 + id.toNat))).toNat = wd at *
  simp only [Instr.wellFormed, barFieldsOk, Bool.and_eq_true, Bool.or_eq_true, bne_iff_ne, beq_iff_eq] at hw
  have ha := hw.2.1
  have hb := hw.2.2
  simp [rawDecode, decodeMem, regAt, predAt, bit_eq, guardOpt, brecAt, off13At, decodeTbar, decodeLock, decodeBar, f0, f1, f2, f3, f4, f5, f6, x0, x1, x2, x3, x4]
  refine ⟨?_, ?_, ?_⟩
  · by_cases h : op = .sync
    · simp [h] at ha ⊢; exact ha.1.symm
    · simp [h]
  · by_cases h : op = .sync
    · simp [h] at ha ⊢; exact ha.2.symm
    · simp [h]
  · cases cnt
    · simp at hb ⊢; exact hb.symm
    · simp

theorem RoundTrip.mxm (c : Ctl) (d : Reg) (a : Reg) (imm : BitVec 16) : RoundTrip.Statement (.mxm c d a imm) := by
  intro hw wd he
  obtain rfl := Option.some.inj he
  apply decodeWord_of hw
  have hm : 0 < 32 := (by decide)
  obtain ⟨f0, f1, f2, f3, f4, f5, f6⟩ := mat_fields 0xA0 c d.toNat a.toNat 0 imm.toNat 0 (by decide) (Nat.lt_of_lt_of_le d.isLt (by decide)) (Nat.lt_of_lt_of_le a.isLt (by decide)) (by decide) (Nat.lt_of_lt_of_le imm.isLt (by decide)) hm _ rfl
  generalize (mkWord 0xA0 c (fMAT d.toNat a.toNat 0 imm.toNat 0)).toNat = wd at *
  simp [rawDecode, decodeMat, regAt, predAt, bit_eq, guardOpt, f0, f1, f2, f3, f4, f5, f6] <;> first | rfl | decide

theorem RoundTrip.mxldZero (c : Ctl) (int : Bool) (bank : Bool) (d : Reg) : RoundTrip.Statement (.mxldZero c int bank d) := by
  intro hw wd he
  obtain rfl := Option.some.inj he
  apply decodeWord_of hw
  have hm : (bank.toNat * 8 + int.toNat * 4) < 32 := (by cases int <;> cases bank <;> decide)
  obtain ⟨f0, f1, f2, f3, f4, f5, f6⟩ := mat_fields 0xA1 c d.toNat 0 0 0 (bank.toNat * 8 + int.toNat * 4) (by decide) (Nat.lt_of_lt_of_le d.isLt (by decide)) (by decide) (by decide) (by decide) hm _ rfl
  generalize (mkWord 0xA1 c (fMAT d.toNat 0 0 0 (bank.toNat * 8 + int.toNat * 4))).toNat = wd at *
  cases int <;> cases bank <;> simp [rawDecode, decodeMat, regAt, predAt, bit_eq, guardOpt, f0, f1, f2, f3, f4, f5, f6] <;> first | rfl | decide

theorem RoundTrip.mxldFill (c : Ctl) (int : Bool) (bank : Bool) (d : Reg) (b : Reg) : RoundTrip.Statement (.mxldFill c int bank d b) := by
  intro hw wd he
  obtain rfl := Option.some.inj he
  apply decodeWord_of hw
  have hm : (bank.toNat * 8 + int.toNat * 4 + 1) < 32 := (by cases int <;> cases bank <;> decide)
  obtain ⟨f0, f1, f2, f3, f4, f5, f6⟩ := mat_fields 0xA1 c d.toNat 0 b.toNat 0 (bank.toNat * 8 + int.toNat * 4 + 1) (by decide) (Nat.lt_of_lt_of_le d.isLt (by decide)) (by decide) (Nat.lt_of_lt_of_le b.isLt (by decide)) (by decide) hm _ rfl
  generalize (mkWord 0xA1 c (fMAT d.toNat 0 b.toNat 0 (bank.toNat * 8 + int.toNat * 4 + 1))).toNat = wd at *
  cases int <;> cases bank <;> simp [rawDecode, decodeMat, regAt, predAt, bit_eq, guardOpt, f0, f1, f2, f3, f4, f5, f6] <;> first | rfl | decide

theorem RoundTrip.mxldRestore (c : Ctl) (int : Bool) (bank : Bool) (d : Reg) (a : Reg) (imm : BitVec 16) : RoundTrip.Statement (.mxldRestore c int bank d a imm) := by
  intro hw wd he
  obtain rfl := Option.some.inj he
  apply decodeWord_of hw
  have hm : (bank.toNat * 8 + int.toNat * 4 + 2) < 32 := (by cases int <;> cases bank <;> decide)
  obtain ⟨f0, f1, f2, f3, f4, f5, f6⟩ := mat_fields 0xA1 c d.toNat a.toNat 0 imm.toNat (bank.toNat * 8 + int.toNat * 4 + 2) (by decide) (Nat.lt_of_lt_of_le d.isLt (by decide)) (Nat.lt_of_lt_of_le a.isLt (by decide)) (by decide) (Nat.lt_of_lt_of_le imm.isLt (by decide)) hm _ rfl
  generalize (mkWord 0xA1 c (fMAT d.toNat a.toNat 0 imm.toNat (bank.toNat * 8 + int.toNat * 4 + 2))).toNat = wd at *
  cases int <;> cases bank <;> simp [rawDecode, decodeMat, regAt, predAt, bit_eq, guardOpt, f0, f1, f2, f3, f4, f5, f6] <;> first | rfl | decide

theorem RoundTrip.mxst (c : Ctl) (bank : Bool) (d : Reg) (a : Reg) (imm : BitVec 16) : RoundTrip.Statement (.mxst c bank d a imm) := by
  intro hw wd he
  obtain rfl := Option.some.inj he
  apply decodeWord_of hw
  have hm : (bank.toNat * 8) < 32 := (by cases bank <;> decide)
  obtain ⟨f0, f1, f2, f3, f4, f5, f6⟩ := mat_fields 0xA2 c d.toNat a.toNat 0 imm.toNat (bank.toNat * 8) (by decide) (Nat.lt_of_lt_of_le d.isLt (by decide)) (Nat.lt_of_lt_of_le a.isLt (by decide)) (by decide) (Nat.lt_of_lt_of_le imm.isLt (by decide)) hm _ rfl
  generalize (mkWord 0xA2 c (fMAT d.toNat a.toNat 0 imm.toNat (bank.toNat * 8))).toNat = wd at *
  cases bank <;> simp [rawDecode, decodeMat, regAt, predAt, bit_eq, guardOpt, f0, f1, f2, f3, f4, f5, f6] <;> first | rfl | decide

theorem RoundTrip.mxwait (c : Ctl) (a : Reg) : RoundTrip.Statement (.mxwait c a) := by
  intro hw wd he
  obtain rfl := Option.some.inj he
  apply decodeWord_of hw
  have hm : 0 < 32 := (by decide)
  obtain ⟨f0, f1, f2, f3, f4, f5, f6⟩ := mat_fields 0xA3 c 0 a.toNat 0 0 0 (by decide) (by decide) (Nat.lt_of_lt_of_le a.isLt (by decide)) (by decide) (by decide) hm _ rfl
  generalize (mkWord 0xA3 c (fMAT 0 a.toNat 0 0 0)).toNat = wd at *
  simp [rawDecode, decodeMat, regAt, predAt, bit_eq, guardOpt, f0, f1, f2, f3, f4, f5, f6] <;> first | rfl | decide

theorem RoundTrip.mstat (c : Ctl) (clr : Bool) (sel : BitVec 4) (d : Reg) : RoundTrip.Statement (.mstat c clr sel d) := by
  intro hw wd he
  obtain rfl := Option.some.inj he
  apply decodeWord_of hw
  have hm : clr.toNat < 32 := (by cases clr <;> decide)
  have x0 : bits (clr.toNat) 0 5 = clr.toNat := by
    have : clr.toNat < 2 := by cases clr <;> decide
    simp only [bits]; omega
  have x1 : bits (clr.toNat) 0 1 = clr.toNat := by
    have : clr.toNat < 2 := by cases clr <;> decide
    simp only [bits]; omega
  obtain ⟨f0, f1, f2, f3, f4, f5, f6⟩ := mat_fields 0xA4 c d.toNat 0 0 sel.toNat clr.toNat (by decide) (Nat.lt_of_lt_of_le d.isLt (by decide)) (by decide) (by decide) (Nat.lt_of_lt_of_le sel.isLt (by decide)) hm _ rfl
  generalize (mkWord 0xA4 c (fMAT d.toNat 0 0 sel.toNat clr.toNat)).toNat = wd at *
  have hs : sel.toNat ≤ 8 := by
    simp only [Instr.wellFormed, Bool.and_eq_true, decide_eq_true_eq] at hw
    exact hw.1.2
  cases clr <;> simp [rawDecode, decodeMat, regAt, predAt, bit_eq, guardOpt, f0, f1, f2, f3, f4, f5, f6, x0, x1, hs] <;> decide

theorem RoundTrip.sshape (c : Ctl) (n : BitVec 3) (a : Reg) : RoundTrip.Statement (.sshape c n a) := by
  intro hw wd he
  obtain rfl := Option.some.inj he
  apply decodeWord_of hw
  have p_n : n.toNat < 8 := n.isLt
  have hm : 0 < 32 := (by decide)
  have x0 : bits (0) 0 5 = 0 := by
    simp only [bits]; omega
  obtain ⟨f0, f1, f2, f3, f4, f5, f6⟩ := mat_fields 0xA5 c 0 a.toNat 0 n.toNat 0 (by decide) (by decide) (Nat.lt_of_lt_of_le a.isLt (by decide)) (by decide) (Nat.lt_of_lt_of_le n.isLt (by decide)) hm _ rfl
  generalize (mkWord 0xA5 c (fMAT 0 a.toNat 0 n.toNat 0)).toNat = wd at *
  simp [rawDecode, decodeMat, regAt, predAt, bit_eq, guardOpt, p_n, f0, f1, f2, f3, f4, f5, f6, x0] <;> first | rfl | decide

theorem RoundTrip.sshapeRd (c : Ctl) (n : BitVec 3) (d : Reg) : RoundTrip.Statement (.sshapeRd c n d) := by
  intro hw wd he
  obtain rfl := Option.some.inj he
  apply decodeWord_of hw
  have p_n : n.toNat < 8 := n.isLt
  have hm : 1 < 32 := (by decide)
  have x0 : bits (1) 0 5 = 1 := by
    simp only [bits]; omega
  obtain ⟨f0, f1, f2, f3, f4, f5, f6⟩ := mat_fields 0xA5 c d.toNat 0 0 n.toNat 1 (by decide) (Nat.lt_of_lt_of_le d.isLt (by decide)) (by decide) (by decide) (Nat.lt_of_lt_of_le n.isLt (by decide)) hm _ rfl
  generalize (mkWord 0xA5 c (fMAT d.toNat 0 0 n.toNat 1)).toNat = wd at *
  simp [rawDecode, decodeMat, regAt, predAt, bit_eq, guardOpt, p_n, f0, f1, f2, f3, f4, f5, f6, x0] <;> first | rfl | decide

theorem RoundTrip.strmOpen (c : Ctl) (d : Reg) (a : Reg) : RoundTrip.Statement (.strmOpen c d a) := by
  intro hw wd he
  obtain rfl := Option.some.inj he
  apply decodeWord_of hw
  have hm : 0 < 32 := (by decide)
  obtain ⟨f0, f1, f2, f3, f4, f5, f6⟩ := mat_fields 0xA6 c d.toNat a.toNat 0 0 0 (by decide) (Nat.lt_of_lt_of_le d.isLt (by decide)) (Nat.lt_of_lt_of_le a.isLt (by decide)) (by decide) (by decide) hm _ rfl
  generalize (mkWord 0xA6 c (fMAT d.toNat a.toNat 0 0 0)).toNat = wd at *
  simp [rawDecode, decodeMat, regAt, predAt, bit_eq, guardOpt, f0, f1, f2, f3, f4, f5, f6] <;> first | rfl | decide

theorem RoundTrip.strmSub (c : Ctl) (w : BitVec 3) (d : Reg) (a : Reg) (b : Reg) : RoundTrip.Statement (.strmSub c w d a b) := by
  intro hw wd he
  obtain rfl := Option.some.inj he
  apply decodeWord_of hw
  have p_w : w.toNat < 8 := w.isLt
  have hm : 1 < 32 := (by decide)
  have x0 : bits (1) 0 5 = 1 := by
    simp only [bits]; omega
  obtain ⟨f0, f1, f2, f3, f4, f5, f6⟩ := mat_fields 0xA6 c d.toNat a.toNat b.toNat w.toNat 1 (by decide) (Nat.lt_of_lt_of_le d.isLt (by decide)) (Nat.lt_of_lt_of_le a.isLt (by decide)) (Nat.lt_of_lt_of_le b.isLt (by decide)) (Nat.lt_of_lt_of_le w.isLt (by decide)) hm _ rfl
  generalize (mkWord 0xA6 c (fMAT d.toNat a.toNat b.toNat w.toNat 1)).toNat = wd at *
  simp only [Instr.wellFormed, Bool.and_eq_true, decide_eq_true_eq] at hw
  simp [rawDecode, decodeMat, regAt, predAt, bit_eq, guardOpt, p_w, f0, f1, f2, f3, f4, f5, f6, x0, hw.1.2, hw.2]

theorem RoundTrip.strmUnsub (c : Ctl) (a : Reg) : RoundTrip.Statement (.strmUnsub c a) := by
  intro hw wd he
  obtain rfl := Option.some.inj he
  apply decodeWord_of hw
  have hm : 2 < 32 := (by decide)
  obtain ⟨f0, f1, f2, f3, f4, f5, f6⟩ := mat_fields 0xA6 c 0 a.toNat 0 0 2 (by decide) (by decide) (Nat.lt_of_lt_of_le a.isLt (by decide)) (by decide) (by decide) hm _ rfl
  generalize (mkWord 0xA6 c (fMAT 0 a.toNat 0 0 2)).toNat = wd at *
  simp [rawDecode, decodeMat, regAt, predAt, bit_eq, guardOpt, f0, f1, f2, f3, f4, f5, f6] <;> first | rfl | decide

theorem RoundTrip.strmClose (c : Ctl) (a : Reg) : RoundTrip.Statement (.strmClose c a) := by
  intro hw wd he
  obtain rfl := Option.some.inj he
  apply decodeWord_of hw
  have hm : 3 < 32 := (by decide)
  obtain ⟨f0, f1, f2, f3, f4, f5, f6⟩ := mat_fields 0xA6 c 0 a.toNat 0 0 3 (by decide) (by decide) (Nat.lt_of_lt_of_le a.isLt (by decide)) (by decide) (by decide) hm _ rfl
  generalize (mkWord 0xA6 c (fMAT 0 a.toNat 0 0 3)).toNat = wd at *
  simp [rawDecode, decodeMat, regAt, predAt, bit_eq, guardOpt, f0, f1, f2, f3, f4, f5, f6] <;> first | rfl | decide

theorem RoundTrip.taskpost (c : Ctl) (d : Reg) (a : Reg) (b : Reg) (imm : BitVec 16) : RoundTrip.Statement (.taskpost c d a b imm) := by
  intro hw wd he
  obtain rfl := Option.some.inj he
  apply decodeWord_of hw
  have hm : 0 < 32 := (by decide)
  obtain ⟨f0, f1, f2, f3, f4, f5, f6⟩ := mat_fields 0xA7 c d.toNat a.toNat b.toNat imm.toNat 0 (by decide) (Nat.lt_of_lt_of_le d.isLt (by decide)) (Nat.lt_of_lt_of_le a.isLt (by decide)) (Nat.lt_of_lt_of_le b.isLt (by decide)) (Nat.lt_of_lt_of_le imm.isLt (by decide)) hm _ rfl
  generalize (mkWord 0xA7 c (fMAT d.toNat a.toNat b.toNat imm.toNat 0)).toNat = wd at *
  simp [rawDecode, decodeMat, regAt, predAt, bit_eq, guardOpt, f0, f1, f2, f3, f4, f5, f6] <;> first | rfl | decide

theorem RoundTrip.taskseq (c : Ctl) (d : Reg) (b : Reg) : RoundTrip.Statement (.taskseq c d b) := by
  intro hw wd he
  obtain rfl := Option.some.inj he
  apply decodeWord_of hw
  have hm : 0 < 32 := (by decide)
  obtain ⟨f0, f1, f2, f3, f4, f5, f6⟩ := mat_fields 0xA8 c d.toNat 0 b.toNat 0 0 (by decide) (Nat.lt_of_lt_of_le d.isLt (by decide)) (by decide) (Nat.lt_of_lt_of_le b.isLt (by decide)) (by decide) hm _ rfl
  generalize (mkWord 0xA8 c (fMAT d.toNat 0 b.toNat 0 0)).toNat = wd at *
  simp [rawDecode, decodeMat, regAt, predAt, bit_eq, guardOpt, f0, f1, f2, f3, f4, f5, f6] <;> first | rfl | decide

theorem RoundTrip.taskseqWait (c : Ctl) (a : Reg) (b : Reg) : RoundTrip.Statement (.taskseqWait c a b) := by
  intro hw wd he
  obtain rfl := Option.some.inj he
  apply decodeWord_of hw
  have hm : 1 < 32 := (by decide)
  obtain ⟨f0, f1, f2, f3, f4, f5, f6⟩ := mat_fields 0xA8 c 0 a.toNat b.toNat 0 1 (by decide) (by decide) (Nat.lt_of_lt_of_le a.isLt (by decide)) (Nat.lt_of_lt_of_le b.isLt (by decide)) (by decide) hm _ rfl
  generalize (mkWord 0xA8 c (fMAT 0 a.toNat b.toNat 0 1)).toNat = wd at *
  simp [rawDecode, decodeMat, regAt, predAt, bit_eq, guardOpt, f0, f1, f2, f3, f4, f5, f6] <;> first | rfl | decide

theorem RoundTrip.coll (c : Ctl) (d : Reg) (a : Reg) (imm : BitVec 16) : RoundTrip.Statement (.coll c d a imm) := by
  intro hw wd he
  obtain rfl := Option.some.inj he
  apply decodeWord_of hw
  have hm : 0 < 32 := (by decide)
  obtain ⟨f0, f1, f2, f3, f4, f5, f6⟩ := mat_fields 0xA9 c d.toNat a.toNat 0 imm.toNat 0 (by decide) (Nat.lt_of_lt_of_le d.isLt (by decide)) (Nat.lt_of_lt_of_le a.isLt (by decide)) (by decide) (Nat.lt_of_lt_of_le imm.isLt (by decide)) hm _ rfl
  generalize (mkWord 0xA9 c (fMAT d.toNat a.toNat 0 imm.toNat 0)).toNat = wd at *
  simp [rawDecode, decodeMat, regAt, predAt, bit_eq, guardOpt, f0, f1, f2, f3, f4, f5, f6] <;> first | rfl | decide

theorem RoundTrip.dxsync (c : Ctl) (d : Reg) : RoundTrip.Statement (.dxsync c d) := by
  intro hw wd he
  obtain rfl := Option.some.inj he
  apply decodeWord_of hw
  have hm : 0 < 32 := (by decide)
  obtain ⟨f0, f1, f2, f3, f4, f5, f6⟩ := mat_fields 0xAA c d.toNat 0 0 0 0 (by decide) (Nat.lt_of_lt_of_le d.isLt (by decide)) (by decide) (by decide) (by decide) hm _ rfl
  generalize (mkWord 0xAA c (fMAT d.toNat 0 0 0 0)).toNat = wd at *
  simp [rawDecode, decodeMat, regAt, predAt, bit_eq, guardOpt, f0, f1, f2, f3, f4, f5, f6] <;> first | rfl | decide

theorem RoundTrip.dxq (c : Ctl) (sel : BitVec 2) (d : Reg) : RoundTrip.Statement (.dxq c sel d) := by
  intro hw wd he
  obtain rfl := Option.some.inj he
  apply decodeWord_of hw
  have p_sel : sel.toNat < 4 := sel.isLt
  have hm : 0 < 32 := (by decide)
  have x0 : bits (0) 0 5 = 0 := by
    simp only [bits]; omega
  obtain ⟨f0, f1, f2, f3, f4, f5, f6⟩ := mat_fields 0xAB c d.toNat 0 0 sel.toNat 0 (by decide) (Nat.lt_of_lt_of_le d.isLt (by decide)) (by decide) (by decide) (Nat.lt_of_lt_of_le sel.isLt (by decide)) hm _ rfl
  generalize (mkWord 0xAB c (fMAT d.toNat 0 0 sel.toNat 0)).toNat = wd at *
  simp [rawDecode, decodeMat, regAt, predAt, bit_eq, guardOpt, p_sel, f0, f1, f2, f3, f4, f5, f6, x0] <;> first | rfl | decide

theorem RoundTrip.tret (c : Ctl) (keep : BitVec 8) (keepPw : Bool) : RoundTrip.Statement (.tret c keep keepPw) := by
  intro hw wd he
  obtain rfl := Option.some.inj he
  apply decodeWord_of hw
  have hm : (keepPw.toNat * 512 + keep.toNat) < 8192 := (by have := keep.isLt; cases keepPw <;> (try simp only [ITy.code, ICond.code, LogicOp.code, ShiftKind.code, MoviForm.code, FTy.code, Rnd.code, CFmt.code, PFmt.code, XMode.code, VoteOp.code, XOp.code, Size.code, Scope.code, FenceKind.code, AtomOp.code, WCond.code, BarOp.code, Space.modBase, Space.actlBits, Bool.toNat_true, Bool.toNat_false]) <;> omega)
  have x0 : bits ((keepPw.toNat * 512 + keep.toNat)) 8 1 = 0 := by
    have : keepPw.toNat < 2 := by cases keepPw <;> decide
    have := keep.isLt; simp only [bits]; omega
  have x1 : bits ((keepPw.toNat * 512 + keep.toNat)) 10 3 = 0 := by
    have : keepPw.toNat < 2 := by cases keepPw <;> decide
    have := keep.isLt; simp only [bits]; omega
  have x2 : bits ((keepPw.toNat * 512 + keep.toNat)) 0 8 = keep.toNat := by
    have : keepPw.toNat < 2 := by cases keepPw <;> decide
    have := keep.isLt; simp only [bits]; omega
  have x3 : bits ((keepPw.toNat * 512 + keep.toNat)) 9 1 = keepPw.toNat := by
    have : keepPw.toNat < 2 := by cases keepPw <;> decide
    have := keep.isLt; simp only [bits]; omega
  obtain ⟨f0, f1, f2, f3, f4, f5, f6⟩ := rrr_fields 0xC0 c 0 0 0 0 (keepPw.toNat * 512 + keep.toNat) (by decide) (by decide) (by decide) (by decide) (by decide) hm _ rfl
  generalize (mkWord 0xC0 c (fRRR 0 0 0 0 (keepPw.toNat * 512 + keep.toNat))).toNat = wd at *
  simp [rawDecode, decodeSys, regAt, predAt, bit_eq, guardOpt, f0, f1, f2, f3, f4, f5, f6, x0, x1, x2, x3] <;> first | rfl | decide

theorem RoundTrip.tretSkip (c : Ctl) (keep : BitVec 8) (keepPw : Bool) : RoundTrip.Statement (.tretSkip c keep keepPw) := by
  intro hw wd he
  obtain rfl := Option.some.inj he
  apply decodeWord_of hw
  have hm : (keepPw.toNat * 512 + 256 + keep.toNat) < 8192 := (by have := keep.isLt; cases keepPw <;> (try simp only [ITy.code, ICond.code, LogicOp.code, ShiftKind.code, MoviForm.code, FTy.code, Rnd.code, CFmt.code, PFmt.code, XMode.code, VoteOp.code, XOp.code, Size.code, Scope.code, FenceKind.code, AtomOp.code, WCond.code, BarOp.code, Space.modBase, Space.actlBits, Bool.toNat_true, Bool.toNat_false]) <;> omega)
  have x0 : bits ((keepPw.toNat * 512 + 256 + keep.toNat)) 8 1 = 1 := by
    have : keepPw.toNat < 2 := by cases keepPw <;> decide
    have := keep.isLt; simp only [bits]; omega
  have x1 : bits ((keepPw.toNat * 512 + 256 + keep.toNat)) 10 3 = 0 := by
    have : keepPw.toNat < 2 := by cases keepPw <;> decide
    have := keep.isLt; simp only [bits]; omega
  have x2 : bits ((keepPw.toNat * 512 + 256 + keep.toNat)) 0 8 = keep.toNat := by
    have : keepPw.toNat < 2 := by cases keepPw <;> decide
    have := keep.isLt; simp only [bits]; omega
  have x3 : bits ((keepPw.toNat * 512 + 256 + keep.toNat)) 9 1 = keepPw.toNat := by
    have : keepPw.toNat < 2 := by cases keepPw <;> decide
    have := keep.isLt; simp only [bits]; omega
  obtain ⟨f0, f1, f2, f3, f4, f5, f6⟩ := rrr_fields 0xC0 c 0 0 0 0 (keepPw.toNat * 512 + 256 + keep.toNat) (by decide) (by decide) (by decide) (by decide) (by decide) hm _ rfl
  generalize (mkWord 0xC0 c (fRRR 0 0 0 0 (keepPw.toNat * 512 + 256 + keep.toNat))).toNat = wd at *
  simp [rawDecode, decodeSys, regAt, predAt, bit_eq, guardOpt, f0, f1, f2, f3, f4, f5, f6, x0, x1, x2, x3] <;> first | rfl | decide

theorem RoundTrip.caps (c : Ctl) (d : Reg) (a : Reg) (imm : BitVec 24) : RoundTrip.Statement (.caps c d a imm) := by
  intro hw wd he
  obtain rfl := Option.some.inj he
  apply decodeWord_of hw
  have hm : 0 < 32 := (by decide)
  obtain ⟨f0, f1, f2, f3, f4, f5⟩ := rri_fields 0xC1 c d.toNat a.toNat imm.toNat 0 (by decide) (Nat.lt_of_lt_of_le d.isLt (by decide)) (Nat.lt_of_lt_of_le a.isLt (by decide)) (Nat.lt_of_lt_of_le imm.isLt (by decide)) hm _ rfl
  generalize (mkWord 0xC1 c (fRRI d.toNat a.toNat imm.toNat 0)).toNat = wd at *
  simp [rawDecode, decodeSys, regAt, predAt, bit_eq, guardOpt, ityOf_bits, f0, f1, f2, f3, f4, f5] <;> first | rfl | decide

theorem RoundTrip.elogSync (c : Ctl) : RoundTrip.Statement (.elogSync c) := by
  intro hw wd he
  obtain rfl := Option.some.inj he
  apply decodeWord_of hw
  obtain ⟨f0, f1, f2⟩ := mkWord_fields 0xC2 c 0 (by decide) (by omega)
  generalize (mkWord 0xC2 c 0).toNat = wd at *
  simp [rawDecode, decodeSys, regAt, predAt, bit_eq, guardOpt, f0, f1, f2] <;> first | rfl | decide

theorem RoundTrip.elogCnt (c : Ctl) (d : Reg) : RoundTrip.Statement (.elogCnt c d) := by
  intro hw wd he
  obtain rfl := Option.some.inj he
  apply decodeWord_of hw
  have hm : 1 < 8192 := (by decide)
  obtain ⟨f0, f1, f2, f3, f4, f5, f6⟩ := rrr_fields 0xC2 c d.toNat 0 0 0 1 (by decide) (Nat.lt_of_lt_of_le d.isLt (by decide)) (by decide) (by decide) (by decide) hm _ rfl
  generalize (mkWord 0xC2 c (fRRR d.toNat 0 0 0 1)).toNat = wd at *
  simp [rawDecode, decodeSys, regAt, predAt, bit_eq, guardOpt, f0, f1, f2, f3, f4, f5, f6] <;> first | rfl | decide

theorem RoundTrip.elogPut (c : Ctl) (a : Reg) (b : Reg) : RoundTrip.Statement (.elogPut c a b) := by
  intro hw wd he
  obtain rfl := Option.some.inj he
  apply decodeWord_of hw
  have hm : 2 < 8192 := (by decide)
  obtain ⟨f0, f1, f2, f3, f4, f5, f6⟩ := rrr_fields 0xC2 c 0 a.toNat b.toNat 0 2 (by decide) (by decide) (Nat.lt_of_lt_of_le a.isLt (by decide)) (Nat.lt_of_lt_of_le b.isLt (by decide)) (by decide) hm _ rfl
  generalize (mkWord 0xC2 c (fRRR 0 a.toNat b.toNat 0 2)).toNat = wd at *
  simp [rawDecode, decodeSys, regAt, predAt, bit_eq, guardOpt, f0, f1, f2, f3, f4, f5, f6] <;> first | rfl | decide

theorem RoundTrip.tlbiAll (c : Ctl) : RoundTrip.Statement (.tlbiAll c) := by
  intro hw wd he
  obtain rfl := Option.some.inj he
  apply decodeWord_of hw
  obtain ⟨f0, f1, f2⟩ := mkWord_fields 0xC3 c 0 (by decide) (by omega)
  generalize (mkWord 0xC3 c 0).toNat = wd at *
  simp [rawDecode, decodeSys, regAt, predAt, bit_eq, guardOpt, f0, f1, f2] <;> first | rfl | decide

theorem RoundTrip.tlbiVa (c : Ctl) (a : Reg) : RoundTrip.Statement (.tlbiVa c a) := by
  intro hw wd he
  obtain rfl := Option.some.inj he
  apply decodeWord_of hw
  have hm : 1 < 8192 := (by decide)
  obtain ⟨f0, f1, f2, f3, f4, f5, f6⟩ := rrr_fields 0xC3 c 0 a.toNat 0 0 1 (by decide) (by decide) (Nat.lt_of_lt_of_le a.isLt (by decide)) (by decide) (by decide) hm _ rfl
  generalize (mkWord 0xC3 c (fRRR 0 a.toNat 0 0 1)).toNat = wd at *
  simp [rawDecode, decodeSys, regAt, predAt, bit_eq, guardOpt, f0, f1, f2, f3, f4, f5, f6] <;> first | rfl | decide

theorem RoundTrip.tlbiPart (c : Ctl) : RoundTrip.Statement (.tlbiPart c) := by
  intro hw wd he
  obtain rfl := Option.some.inj he
  apply decodeWord_of hw
  obtain ⟨f0, f1, f2⟩ := mkWord_fields 0xC3 c 2 (by decide) (by omega)
  generalize (mkWord 0xC3 c 2).toNat = wd at *
  simp [rawDecode, decodeSys, regAt, predAt, bit_eq, guardOpt, f0, f1, f2] <;> first | rfl | decide

theorem RoundTrip.protld (c : Ctl) (slot : BitVec 3) (d : Reg) (a : Reg) : RoundTrip.Statement (.protld c slot d a) := by
  intro hw wd he
  obtain rfl := Option.some.inj he
  apply decodeWord_of hw
  have p_slot : slot.toNat < 8 := slot.isLt
  have hm : slot.toNat < 8192 := (by have := slot.isLt; (try simp only [ITy.code, ICond.code, LogicOp.code, ShiftKind.code, MoviForm.code, FTy.code, Rnd.code, CFmt.code, PFmt.code, XMode.code, VoteOp.code, XOp.code, Size.code, Scope.code, FenceKind.code, AtomOp.code, WCond.code, BarOp.code, Space.modBase, Space.actlBits, Bool.toNat_true, Bool.toNat_false]) <;> omega)
  have x0 : bits (slot.toNat) 0 13 = slot.toNat := by
    have := slot.isLt; simp only [bits]; omega
  obtain ⟨f0, f1, f2, f3, f4, f5, f6⟩ := rrr_fields 0xC4 c d.toNat a.toNat 0 0 slot.toNat (by decide) (Nat.lt_of_lt_of_le d.isLt (by decide)) (Nat.lt_of_lt_of_le a.isLt (by decide)) (by decide) (by decide) hm _ rfl
  generalize (mkWord 0xC4 c (fRRR d.toNat a.toNat 0 0 slot.toNat)).toNat = wd at *
  simp [rawDecode, decodeSys, regAt, predAt, bit_eq, guardOpt, p_slot, f0, f1, f2, f3, f4, f5, f6, x0] <;> first | rfl | decide

theorem RoundTrip.objdecl (c : Ctl) (slot : BitVec 3) (d : Reg) (a : Reg) : RoundTrip.Statement (.objdecl c slot d a) := by
  intro hw wd he
  obtain rfl := Option.some.inj he
  apply decodeWord_of hw
  have p_slot : slot.toNat < 8 := slot.isLt
  have hm : slot.toNat < 8192 := (by have := slot.isLt; (try simp only [ITy.code, ICond.code, LogicOp.code, ShiftKind.code, MoviForm.code, FTy.code, Rnd.code, CFmt.code, PFmt.code, XMode.code, VoteOp.code, XOp.code, Size.code, Scope.code, FenceKind.code, AtomOp.code, WCond.code, BarOp.code, Space.modBase, Space.actlBits, Bool.toNat_true, Bool.toNat_false]) <;> omega)
  have x0 : bits (slot.toNat) 0 13 = slot.toNat := by
    have := slot.isLt; simp only [bits]; omega
  obtain ⟨f0, f1, f2, f3, f4, f5, f6⟩ := rrr_fields 0xC5 c d.toNat a.toNat 0 0 slot.toNat (by decide) (Nat.lt_of_lt_of_le d.isLt (by decide)) (Nat.lt_of_lt_of_le a.isLt (by decide)) (by decide) (by decide) hm _ rfl
  generalize (mkWord 0xC5 c (fRRR d.toNat a.toNat 0 0 slot.toNat)).toNat = wd at *
  simp [rawDecode, decodeSys, regAt, predAt, bit_eq, guardOpt, p_slot, f0, f1, f2, f3, f4, f5, f6, x0] <;> first | rfl | decide

theorem RoundTrip.objrel (c : Ctl) (d : Reg) (a : Reg) : RoundTrip.Statement (.objrel c d a) := by
  intro hw wd he
  obtain rfl := Option.some.inj he
  apply decodeWord_of hw
  have hm : 0 < 8192 := (by decide)
  obtain ⟨f0, f1, f2, f3, f4, f5, f6⟩ := rrr_fields 0xC6 c d.toNat a.toNat 0 0 0 (by decide) (Nat.lt_of_lt_of_le d.isLt (by decide)) (Nat.lt_of_lt_of_le a.isLt (by decide)) (by decide) (by decide) hm _ rfl
  generalize (mkWord 0xC6 c (fRRR d.toNat a.toNat 0 0 0)).toNat = wd at *
  simp [rawDecode, decodeSys, regAt, predAt, bit_eq, guardOpt, f0, f1, f2, f3, f4, f5, f6] <;> first | rfl | decide

theorem RoundTrip.div64 (c : Ctl) (ty : ITy) (d : Reg) (a : Reg) (b : Reg) : RoundTrip.Statement (.div64 c ty d a b) := by
  intro hw wd he
  obtain rfl := Option.some.inj he
  apply decodeWord_of hw
  have hm : ty.code < 8192 := (by cases ty <;> decide)
  obtain ⟨f0, f1, f2, f3, f4, f5, f6⟩ := rrr_fields 0xE0 c d.toNat a.toNat b.toNat 0 ty.code (by decide) (Nat.lt_of_lt_of_le d.isLt (by decide)) (Nat.lt_of_lt_of_le a.isLt (by decide)) (Nat.lt_of_lt_of_le b.isLt (by decide)) (by decide) hm _ rfl
  generalize (mkWord 0xE0 c (fRRR d.toNat a.toNat b.toNat 0 ty.code)).toNat = wd at *
  cases ty <;> simp [rawDecode, decodeGen, regAt, predAt, bit_eq, guardOpt, f0, f1, f2, f3, f4, f5, f6] <;> first | rfl | decide

theorem RoundTrip.rem64 (c : Ctl) (ty : ITy) (d : Reg) (a : Reg) (b : Reg) : RoundTrip.Statement (.rem64 c ty d a b) := by
  intro hw wd he
  obtain rfl := Option.some.inj he
  apply decodeWord_of hw
  have hm : ty.code < 8192 := (by cases ty <;> decide)
  obtain ⟨f0, f1, f2, f3, f4, f5, f6⟩ := rrr_fields 0xE1 c d.toNat a.toNat b.toNat 0 ty.code (by decide) (Nat.lt_of_lt_of_le d.isLt (by decide)) (Nat.lt_of_lt_of_le a.isLt (by decide)) (Nat.lt_of_lt_of_le b.isLt (by decide)) (by decide) hm _ rfl
  generalize (mkWord 0xE1 c (fRRR d.toNat a.toNat b.toNat 0 ty.code)).toNat = wd at *
  cases ty <;> simp [rawDecode, decodeGen, regAt, predAt, bit_eq, guardOpt, f0, f1, f2, f3, f4, f5, f6] <;> first | rfl | decide

theorem RoundTrip.mulh64 (c : Ctl) (ty : ITy) (d : Reg) (a : Reg) (b : Reg) : RoundTrip.Statement (.mulh64 c ty d a b) := by
  intro hw wd he
  obtain rfl := Option.some.inj he
  apply decodeWord_of hw
  have hm : ty.code < 8192 := (by cases ty <;> decide)
  obtain ⟨f0, f1, f2, f3, f4, f5, f6⟩ := rrr_fields 0xE2 c d.toNat a.toNat b.toNat 0 ty.code (by decide) (Nat.lt_of_lt_of_le d.isLt (by decide)) (Nat.lt_of_lt_of_le a.isLt (by decide)) (Nat.lt_of_lt_of_le b.isLt (by decide)) (by decide) hm _ rfl
  generalize (mkWord 0xE2 c (fRRR d.toNat a.toNat b.toNat 0 ty.code)).toNat = wd at *
  cases ty <;> simp [rawDecode, decodeGen, regAt, predAt, bit_eq, guardOpt, f0, f1, f2, f3, f4, f5, f6] <;> first | rfl | decide

theorem RoundTrip.crcb (c : Ctl) (n : BitVec 2) (d : Reg) (a : Reg) (b : Reg) : RoundTrip.Statement (.crcb c n d a b) := by
  intro hw wd he
  obtain rfl := Option.some.inj he
  apply decodeWord_of hw
  have p_n : n.toNat < 4 := n.isLt
  have hm : n.toNat < 8192 := (by have := n.isLt; (try simp only [ITy.code, ICond.code, LogicOp.code, ShiftKind.code, MoviForm.code, FTy.code, Rnd.code, CFmt.code, PFmt.code, XMode.code, VoteOp.code, XOp.code, Size.code, Scope.code, FenceKind.code, AtomOp.code, WCond.code, BarOp.code, Space.modBase, Space.actlBits, Bool.toNat_true, Bool.toNat_false]) <;> omega)
  have x0 : bits (n.toNat) 0 13 = n.toNat := by
    have := n.isLt; simp only [bits]; omega
  obtain ⟨f0, f1, f2, f3, f4, f5, f6⟩ := rrr_fields 0xE3 c d.toNat a.toNat b.toNat 0 n.toNat (by decide) (Nat.lt_of_lt_of_le d.isLt (by decide)) (Nat.lt_of_lt_of_le a.isLt (by decide)) (Nat.lt_of_lt_of_le b.isLt (by decide)) (by decide) hm _ rfl
  generalize (mkWord 0xE3 c (fRRR d.toNat a.toNat b.toNat 0 n.toNat)).toNat = wd at *
  simp [rawDecode, decodeGen, regAt, predAt, bit_eq, guardOpt, p_n, f0, f1, f2, f3, f4, f5, f6, x0] <;> first | rfl | decide

theorem RoundTrip.bundleSeed (team : Nat) (grp : Nat) : RoundTrip.Statement (.bundleSeed team grp) := fun _ _ he => nomatch he

theorem RoundTrip.clauseFetch (bundle : Nat) : RoundTrip.Statement (.clauseFetch bundle) := fun _ _ he => nomatch he

theorem RoundTrip.clauseBoundary (bundle : Nat) : RoundTrip.Statement (.clauseBoundary bundle) := fun _ _ he => nomatch he

theorem RoundTrip.fairnessTimerExpiry (team : Nat) (grp : Nat) : RoundTrip.Statement (.fairnessTimerExpiry team grp) := fun _ _ he => nomatch he

theorem RoundTrip.readyButWaiting (team : Nat) (grp : Nat) : RoundTrip.Statement (.readyButWaiting team grp) := fun _ _ he => nomatch he

theorem RoundTrip.xlnExitCompletion (team : Nat) (grp : Nat) : RoundTrip.Statement (.xlnExitCompletion team grp) := fun _ _ he => nomatch he

theorem RoundTrip.eventRecordExpiry (team : Nat) (grp : Nat) : RoundTrip.Statement (.eventRecordExpiry team grp) := fun _ _ he => nomatch he

theorem RoundTrip.operationComplete (op : Nat) : RoundTrip.Statement (.operationComplete op) := fun _ _ he => nomatch he

theorem RoundTrip.faultRecordPost (die : Nat) : RoundTrip.Statement (.faultRecordPost die) := fun _ _ he => nomatch he

theorem RoundTrip.answerRetry (die : Nat) (tag : BitVec 16) : RoundTrip.Statement (.answerRetry die tag) := fun _ _ he => nomatch he

theorem RoundTrip.answerFail (die : Nat) (tag : BitVec 16) : RoundTrip.Statement (.answerFail die tag) := fun _ _ he => nomatch he

theorem RoundTrip.badtagClear (die : Nat) : RoundTrip.Statement (.badtagClear die) := fun _ _ he => nomatch he

theorem RoundTrip.faultQueueEnable (die : Nat) (value : DWord) : RoundTrip.Statement (.faultQueueEnable die value) := fun _ _ he => nomatch he

theorem RoundTrip.sliceRequestEnqueue (die : Nat) (core : Nat) : RoundTrip.Statement (.sliceRequestEnqueue die core) := fun _ _ he => nomatch he

theorem RoundTrip.homeStorePerformed (die : Nat) (core : Nat) (line : Nat) (evict : Bool) : RoundTrip.Statement (.homeStorePerformed die core line evict) := fun _ _ he => nomatch he

theorem RoundTrip.monitorReread (team : Nat) (grp : Nat) (lane : Nat) : RoundTrip.Statement (.monitorReread team grp lane) := fun _ _ he => nomatch he

theorem RoundTrip.waitcTimeout (team : Nat) (grp : Nat) (lane : Nat) : RoundTrip.Statement (.waitcTimeout team grp lane) := fun _ _ he => nomatch he

theorem RoundTrip.atomicRequestAtHome (req : Nat) : RoundTrip.Statement (.atomicRequestAtHome req) := fun _ _ he => nomatch he

theorem RoundTrip.sluiceSectorLand (die : Nat) (core : Nat) (copy : Nat) (sectors : Nat) : RoundTrip.Statement (.sluiceSectorLand die core copy sectors) := fun _ _ he => nomatch he

theorem RoundTrip.acqrWriteback (req : Nat) : RoundTrip.Statement (.acqrWriteback req) := fun _ _ he => nomatch he

theorem RoundTrip.matrixOpComplete (die : Nat) (core : Nat) : RoundTrip.Statement (.matrixOpComplete die core) := fun _ _ he => nomatch he

theorem RoundTrip.causewayDataArrive (die : Nat) (core : Nat) : RoundTrip.Statement (.causewayDataArrive die core) := fun _ _ he => nomatch he

theorem RoundTrip.staitheTileDeliver (die : Nat) (core : Nat) (stream : Nat) : RoundTrip.Statement (.staitheTileDeliver die core stream) := fun _ _ he => nomatch he

theorem RoundTrip.lockRequestAtHome (req : Nat) : RoundTrip.Statement (.lockRequestAtHome req) := fun _ _ he => nomatch he

theorem RoundTrip.unlockAtHome (req : Nat) : RoundTrip.Statement (.unlockAtHome req) := fun _ _ he => nomatch he

theorem RoundTrip.lockTimeout (team : Nat) (grp : Nat) : RoundTrip.Statement (.lockTimeout team grp) := fun _ _ he => nomatch he

theorem RoundTrip.deadlockProbe (team : Nat) (grp : Nat) : RoundTrip.Statement (.deadlockProbe team grp) := fun _ _ he => nomatch he

theorem RoundTrip.absenceArrive (team : Nat) (grp : Nat) : RoundTrip.Statement (.absenceArrive team grp) := fun _ _ he => nomatch he

theorem RoundTrip.presenceArrive (team : Nat) (grp : Nat) : RoundTrip.Statement (.presenceArrive team grp) := fun _ _ he => nomatch he

theorem RoundTrip.lockholdMaxExpiry (team : Nat) : RoundTrip.Statement (.lockholdMaxExpiry team) := fun _ _ he => nomatch he

theorem RoundTrip.rd (die : Nat) (slice : Nat) (obj : Nat) : RoundTrip.Statement (.rd die slice obj) := fun _ _ he => nomatch he

theorem RoundTrip.wr0 (die : Nat) (slice : Nat) (obj : Nat) : RoundTrip.Statement (.wr0 die slice obj) := fun _ _ he => nomatch he

theorem RoundTrip.wr1 (die : Nat) (slice : Nat) (obj : Nat) : RoundTrip.Statement (.wr1 die slice obj) := fun _ _ he => nomatch he

theorem RoundTrip.evc (die : Nat) (slice : Nat) (obj : Nat) (agent : Nat) : RoundTrip.Statement (.evc die slice obj agent) := fun _ _ he => nomatch he

theorem RoundTrip.wb (die : Nat) (slice : Nat) (obj : Nat) (agent : Nat) (line : Nat) : RoundTrip.Statement (.wb die slice obj agent line) := fun _ _ he => nomatch he

theorem RoundTrip.ack (die : Nat) (slice : Nat) (obj : Nat) : RoundTrip.Statement (.ack die slice obj) := fun _ _ he => nomatch he

theorem RoundTrip.staleMessage (die : Nat) (kind : MsgKind) (agent : Nat) (inc : BitVec 8) : RoundTrip.Statement (.staleMessage die kind agent inc) := fun _ _ he => nomatch he

theorem RoundTrip.hostMemoryAccess (acc : HostAcc) : RoundTrip.Statement (.hostMemoryAccess acc) := fun _ _ he => nomatch he

theorem RoundTrip.bisnpResponse (line : Nat) (data : Option (List Byte)) : RoundTrip.Statement (.bisnpResponse line data) := fun _ _ he => nomatch he

theorem RoundTrip.hostLineWrite (pa : Nat) (data : List Byte) : RoundTrip.Statement (.hostLineWrite pa data) := fun _ _ he => nomatch he

theorem RoundTrip.retentionEnter (die : Nat) (core : Nat) : RoundTrip.Statement (.retentionEnter die core) := fun _ _ he => nomatch he

theorem RoundTrip.retentionWake (die : Nat) (core : Nat) : RoundTrip.Statement (.retentionWake die core) := fun _ _ he => nomatch he

theorem RoundTrip.queueEnable (q : Nat) (value : DWord) : RoundTrip.Statement (.queueEnable q value) := fun _ _ he => nomatch he

theorem RoundTrip.queueDisable (q : Nat) (value : DWord) : RoundTrip.Statement (.queueDisable q value) := fun _ _ he => nomatch he

theorem RoundTrip.qtailWrite (q : Nat) (value : DWord) : RoundTrip.Statement (.qtailWrite q value) := fun _ _ he => nomatch he

theorem RoundTrip.registerWrite (off : Nat) (size : Nat) (value : DWord) : RoundTrip.Statement (.registerWrite off size value) := fun _ _ he => nomatch he

theorem RoundTrip.commit (p : Nat) : RoundTrip.Statement (.commit p) := fun _ _ he => nomatch he

theorem RoundTrip.oversubClear (p : Nat) : RoundTrip.Statement (.oversubClear p) := fun _ _ he => nomatch he

theorem RoundTrip.resume (p : Nat) : RoundTrip.Statement (.resume p) := fun _ _ he => nomatch he

theorem RoundTrip.drain (p : Nat) : RoundTrip.Statement (.drain p) := fun _ _ he => nomatch he

theorem RoundTrip.kill (q : Nat) : RoundTrip.Statement (.kill q) := fun _ _ he => nomatch he

theorem RoundTrip.lkcntClear (p : Nat) : RoundTrip.Statement (.lkcntClear p) := fun _ _ he => nomatch he

theorem RoundTrip.staleCountersClear (die : Nat) : RoundTrip.Statement (.staleCountersClear die) := fun _ _ he => nomatch he

theorem RoundTrip.errorCountersClear (die : Nat) : RoundTrip.Statement (.errorCountersClear die) := fun _ _ he => nomatch he

theorem RoundTrip.declare (die : Nat) (agent : Nat) : RoundTrip.Statement (.declare die agent) := fun _ _ he => nomatch he

theorem RoundTrip.replaysClear (port : Nat) : RoundTrip.Statement (.replaysClear port) := fun _ _ he => nomatch he

theorem RoundTrip.bootGo (image : List Byte) : RoundTrip.Statement (.bootGo image) := fun _ _ he => nomatch he

theorem RoundTrip.attestGo : RoundTrip.Statement (.attestGo) := fun _ _ he => nomatch he

theorem RoundTrip.reset (deadSites : List (Nat × Nat × Nat)) (cxlBytes : List Nat) : RoundTrip.Statement (.reset deadSites cxlBytes) := fun _ _ he => nomatch he

theorem RoundTrip.codeObjectLoad (file : List Byte) (plan : LoadPlan) : RoundTrip.Statement (.codeObjectLoad file plan) := fun _ _ he => nomatch he

theorem RoundTrip.walkRecord (q : Nat) : RoundTrip.Statement (.walkRecord q) := fun _ _ he => nomatch he

theorem RoundTrip.linkFollow (q : Nat) : RoundTrip.Statement (.linkFollow q) := fun _ _ he => nomatch he

theorem RoundTrip.taskDistribute (task : Nat) : RoundTrip.Statement (.taskDistribute task) := fun _ _ he => nomatch he

theorem RoundTrip.clusterPlace (task : Nat) : RoundTrip.Statement (.clusterPlace task) := fun _ _ he => nomatch he

theorem RoundTrip.preemptDecision (task : Nat) : RoundTrip.Statement (.preemptDecision task) := fun _ _ he => nomatch he

theorem RoundTrip.reclaimComplete (die : Nat) (core : Nat) : RoundTrip.Statement (.reclaimComplete die core) := fun _ _ he => nomatch he

theorem RoundTrip.blockClearDone (die : Nat) (core : Nat) (block : Nat) : RoundTrip.Statement (.blockClearDone die core block) := fun _ _ he => nomatch he

theorem RoundTrip.taskRetire (task : Nat) : RoundTrip.Statement (.taskRetire task) := fun _ _ he => nomatch he

theorem RoundTrip.taskFault (task : Nat) : RoundTrip.Statement (.taskFault task) := fun _ _ he => nomatch he

theorem RoundTrip.swapwaitExpiry (team : Nat) : RoundTrip.Statement (.swapwaitExpiry team) := fun _ _ he => nomatch he

theorem RoundTrip.teamSave (team : Nat) : RoundTrip.Statement (.teamSave team) := fun _ _ he => nomatch he

theorem RoundTrip.teamRestore (team : Nat) : RoundTrip.Statement (.teamRestore team) := fun _ _ he => nomatch he

theorem RoundTrip.teamRetire (team : Nat) : RoundTrip.Statement (.teamRetire team) := fun _ _ he => nomatch he

theorem RoundTrip.quantumCommit (task : Nat) : RoundTrip.Statement (.quantumCommit task) := fun _ _ he => nomatch he

theorem RoundTrip.collectiveStart (die : Nat) (peers : List CollParams) : RoundTrip.Statement (.collectiveStart die peers) := fun _ _ he => nomatch he

theorem RoundTrip.collectiveComplete (die : Nat) (outcome : CollEnd) (peers : List PeerData) : RoundTrip.Statement (.collectiveComplete die outcome peers) := fun _ _ he => nomatch he

theorem RoundTrip.ualinkRequest (port : Nat) (req : LinkReq) : RoundTrip.Statement (.ualinkRequest port req) := fun _ _ he => nomatch he

theorem RoundTrip.linkTraining (port : Nat) (width : Nat) (supported : Bool) : RoundTrip.Statement (.linkTraining port width supported) := fun _ _ he => nomatch he

theorem RoundTrip.flitReplay (link : Link) (lane : Nat) : RoundTrip.Statement (.flitReplay link lane) := fun _ _ he => nomatch he

theorem RoundTrip.laneRetire (link : Link) (lane : Nat) : RoundTrip.Statement (.laneRetire link lane) := fun _ _ he => nomatch he

theorem RoundTrip.retrainDone (link : Link) : RoundTrip.Statement (.retrainDone link) := fun _ _ he => nomatch he

theorem RoundTrip.linkReplayTimeout (die : Nat) (agent : Nat) : RoundTrip.Statement (.linkReplayTimeout die agent) := fun _ _ he => nomatch he

theorem RoundTrip.selfTestFail (die : Nat) (agent : Nat) : RoundTrip.Statement (.selfTestFail die agent) := fun _ _ he => nomatch he

theorem RoundTrip.throttleStep : RoundTrip.Statement (.throttleStep) := fun _ _ he => nomatch he

theorem RoundTrip.partitionStop : RoundTrip.Statement (.partitionStop) := fun _ _ he => nomatch he

theorem RoundTrip.unthrottleStep : RoundTrip.Statement (.unthrottleStep) := fun _ _ he => nomatch he

theorem RoundTrip.thermalTrip (celsius : Nat) : RoundTrip.Statement (.thermalTrip celsius) := fun _ _ he => nomatch he

theorem RoundTrip.scrub (die : Nat) (loc : ErrLoc) (corrected : Bool) (reader : Option ErrReader) : RoundTrip.Statement (.scrub die loc corrected reader) := fun _ _ he => nomatch he

theorem RoundTrip.bankSpareCopy (die : Nat) (core : Nat) (bank : Nat) : RoundTrip.Statement (.bankSpareCopy die core bank) := fun _ _ he => nomatch he

theorem RoundTrip.l2WayReplace (die : Nat) (slice : Nat) (way : Nat) : RoundTrip.Statement (.l2WayReplace die slice way) := fun _ _ he => nomatch he

theorem RoundTrip.coreRepair (die : Nat) (core : Nat) : RoundTrip.Statement (.coreRepair die core) := fun _ _ he => nomatch he

end Sys2Proof.Laws
end

