-- ==== Sys2Proof/Laws/Rounding.lean ====
section
/-!
SUPPORT. Rounding depends on the value alone; quotients and roots that are representable come out exact.
-/

namespace Sys2Proof.Machine

/-! ### Rounding, quotients and roots -/

theorem p2_add {a b : Int} (ha : 0 ≤ a) (hb : 0 ≤ b) : p2 (a + b) = p2 a * p2 b := by
  unfold p2; rw [Int.toNat_add ha hb, Nat.pow_add]

theorem roundShift_zero (mode : Rnd) (neg : Bool) (m k : Nat) : roundShift mode neg (m * 2 ^ k) k = m := by
  unfold roundShift
  have h1 : m * 2 ^ k / 2 ^ k = m := Nat.mul_div_cancel _ (by positivity)
  have h2 : m * 2 ^ k % 2 ^ k = 0 := Nat.mul_mod_left _ _
  simp only [h1, h2]
  cases mode <;> simp

theorem roundShift_scale (mode : Rnd) (neg : Bool) (m j k : Nat) : roundShift mode neg (m * 2 ^ k) (j + k) = roundShift mode neg m j := by
  unfold roundShift
  have hp : 0 < 2 ^ k := by positivity
  have h1 : m * 2 ^ k / 2 ^ (j + k) = m / 2 ^ j := by
    rw [Nat.pow_add, Nat.mul_div_mul_right _ _ hp]
  have h2 : m * 2 ^ k % 2 ^ (j + k) = m % 2 ^ j * 2 ^ k := by
    rw [Nat.pow_add, Nat.mul_mod_mul_right]
  simp only [h1, h2]
  have e1 : (2 ^ (j + k) < 2 * (m % 2 ^ j * 2 ^ k)) ↔ 2 ^ j < 2 * (m % 2 ^ j) := by
    rw [Nat.pow_add, ← Nat.mul_assoc]; exact Nat.mul_lt_mul_right hp
  have e2 : (2 ^ (j + k) = 2 * (m % 2 ^ j * 2 ^ k)) ↔ 2 ^ j = 2 * (m % 2 ^ j) := by
    rw [Nat.pow_add, ← Nat.mul_assoc]; exact Nat.mul_left_inj (by omega)
  have e3 : (m % 2 ^ j * 2 ^ k ≠ 0) ↔ m % 2 ^ j ≠ 0 := by
    simp
  simp only [e1, e2, e3]

theorem roundUnit_scale (mode : Rnd) (neg : Bool) (m k : Nat) (e u : Int) :
    roundUnit mode neg (m * 2 ^ k) (e - k) u = roundUnit mode neg m e u := by
  unfold roundUnit
  by_cases h1 : u ≤ e - k
  · rw [if_pos h1, if_pos (by omega)]
    have : e - u = (e - k - u) + k := by omega
    rw [this, p2_add (by omega) (by omega)]
    simp only [p2, Int.toNat_natCast]; ring
  · rw [if_neg h1]
    by_cases h2 : u ≤ e
    · rw [if_pos h2]
      obtain ⟨n, hn⟩ : ∃ n : Nat, u - (e - k) = n := ⟨(u - (e - k)).toNat, by omega⟩
      have h3 : (k : Int) = n + (e - u) := by omega
      obtain ⟨r, hr⟩ : ∃ r : Nat, e - u = r := ⟨(e - u).toNat, by omega⟩
      have h4 : k = r + n := by omega
      rw [hn, hr, h4, Nat.pow_add, ← Nat.mul_assoc]
      simp only [p2, Int.toNat_natCast]
      exact roundShift_zero _ _ _ _
    · rw [if_neg h2]
      have : (u - (e - k)).toNat = (u - e).toNat + k := by omega
      rw [this]; exact roundShift_scale _ _ _ _ _

theorem log2_scale (m k : Nat) (hm : m ≠ 0) : Nat.log2 (m * 2 ^ k) = Nat.log2 m + k := by
  rw [Nat.log2_eq_log_two, Nat.log2_eq_log_two]
  induction k with
  | zero => simp
  | succ k ih => rw [Nat.pow_succ, ← Nat.mul_assoc, Nat.log_mul_base (by norm_num) (by positivity), ih]; omega

theorem roundMag_scale (g : FF) (mode : Rnd) (neg : Bool) (m k : Nat) (e : Int) : g.roundMag mode neg (m * 2 ^ k) (e - k) = g.roundMag mode neg m e := by
  unfold FF.roundMag
  by_cases hm : m = 0
  · simp [hm]
  · rw [if_neg hm, if_neg (by positivity)]
    have : ((Nat.log2 (m * 2 ^ k) : Nat) : Int) + (e - k) - g.fbits = (Nat.log2 m : Int) + e - g.fbits := by
      rw [log2_scale m k hm]; push_cast; omega
    simp only [this, roundUnit_scale]

/-- Rounding depends on the value alone. -/
theorem roundMag_value (g : FF) (mode : Rnd) (neg : Bool) (m n : Nat) (e h : Int) (hv : (m : ℚ) * 2 ^ e = n * 2 ^ h) :
    g.roundMag mode neg m e = g.roundMag mode neg n h := by
  wlog hle : e ≤ h generalizing m n e h
  · exact (this n m h e hv.symm (by omega)).symm
  · obtain ⟨k, hk⟩ : ∃ k : Nat, h = e + k := ⟨(h - e).toNat, by omega⟩
    have : m = n * 2 ^ k := by
      rw [hk, zpow_add₀ (by norm_num), zpow_natCast] at hv
      have h2 : (m : ℚ) = n * 2 ^ k := by
        have := two_zpow_pos e
        have h3 : (m : ℚ) * 2 ^ e = (n * 2 ^ k) * 2 ^ e := by rw [hv]; ring
        exact mul_right_cancel₀ this.ne' h3
      exact_mod_cast h2
    rw [this, ← roundMag_scale g mode neg n k h]
    congr 1; omega

theorem roundFin_value (g : FF) (mode : Rnd) (sat neg : Bool) (m n : Nat) (e h : Int) (hv : (m : ℚ) * 2 ^ e = n * 2 ^ h) :
    g.roundFin mode sat neg m e = g.roundFin mode sat neg n h := by
  unfold FF.roundFin; rw [roundMag_value g mode neg m n e h hv]


/-- The rounding of a dyadic value from any other form of it. -/
theorem rounded_of_value (g : FF) (neg : Bool) (m : Nat) (e : Int) (z : Dy) (hz : z.m ≠ 0) (hs : neg = decide (z.m < 0))
    (hv : (m : ℚ) * 2 ^ e = |z.rat|) :
    roundedResult g .rne false z = ((g.roundFin .rne false neg m e).1, oneEvent false false (g.roundFin .rne false neg m e).2) := by
  unfold roundedResult FF.ofDy
  have h : (m : ℚ) * 2 ^ e = (z.m.natAbs : ℚ) * 2 ^ z.e := by
    rw [hv, Dy.rat, abs_mul, abs_of_pos (two_zpow_pos z.e)]
    congr 1
    rw [← Int.cast_abs, Int.abs_eq_natAbs]; simp
  rw [if_neg hz, ← hs, roundFin_value g .rne false neg m z.m.natAbs e z.e h]
  simp [oneEvent, evOverflow]

theorem Dy.rat_eq_zero (z : Dy) : z.rat = 0 ↔ z.m = 0 := by
  unfold Dy.rat
  have := (two_zpow_pos z.e).ne'
  simp [this]

/-- A quotient that is dyadic is exact. -/
theorem roundQuot_exact (g : FF) (neg : Bool) (n d : Nat) (e : Int) (z : Dy) (hz : z.m ≠ 0) (hd : d ≠ 0) (hs : neg = decide (z.m < 0))
    (hv : (n : ℚ) * 2 ^ e = d * |z.rat|) : roundQuot g neg n d e = roundedResult g .rne false z := by
  have habs : |z.rat| = (z.m.natAbs : ℚ) * 2 ^ z.e := by
    rw [Dy.rat, abs_mul, abs_of_pos (two_zpow_pos z.e)]
    congr 1
    rw [← Int.cast_abs, Int.abs_eq_natAbs]; simp
  -- the odd part of d divides n
  obtain ⟨v, d', hodd, hdd⟩ := Nat.exists_eq_two_pow_mul_odd hd
  have hdvd : d ∣ n * 2 ^ (64 + Nat.log2 d) := by
    have hpow : ∃ a b : Nat, n * 2 ^ a = d * z.m.natAbs * 2 ^ b := by
      refine ⟨(e - min e z.e).toNat, (z.e - min e z.e).toNat, ?_⟩
      have hh : (n : ℚ) * 2 ^ (e - min e z.e) = d * z.m.natAbs * 2 ^ (z.e - min e z.e) := by
        rw [habs] at hv
        rw [zpow_sub₀ (by norm_num), zpow_sub₀ (by norm_num)]
        have := (two_zpow_pos (min e z.e)).ne'
        field_simp
        linarith [hv]
      have e1 : e - min e z.e = ((e - min e z.e).toNat : Int) := by omega
      have e2 : z.e - min e z.e = ((z.e - min e z.e).toNat : Int) := by omega
      rw [e1, e2, zpow_natCast, zpow_natCast] at hh
      exact_mod_cast hh
    obtain ⟨a, b, hab⟩ := hpow
    have hd' : d' ∣ n := by
      have h1 : d' ∣ n * 2 ^ a := by rw [hab, hdd]; exact ⟨2 ^ v * z.m.natAbs * 2 ^ b, by ring⟩
      exact (Nat.Coprime.dvd_of_dvd_mul_right (Nat.Coprime.pow_right a (Nat.coprime_two_right.2 hodd)) h1)
    have hvl : v ≤ Nat.log2 d := by
      rw [Nat.log2_eq_log_two]
      have : 2 ^ v ≤ d := by
        rw [hdd]; exact Nat.le_mul_of_pos_right _ hodd.pos
      exact Nat.le_log_of_pow_le (by norm_num) this
    rw [hdd, Nat.mul_comm (2 ^ v)]
    refine Nat.mul_dvd_mul hd' (Nat.pow_dvd_pow _ ?_)
    rw [Nat.mul_comm d', ← hdd]; omega
  unfold roundQuot
  have hm : n * 2 ^ (64 + Nat.log2 d) % d = 0 := Nat.mod_eq_zero_of_dvd hdvd
  obtain ⟨q, hq⟩ := hdvd
  have hdiv : n * 2 ^ (64 + Nat.log2 d) / d = q := by rw [hq, Nat.mul_div_cancel_left _ (by omega)]
  simp only [hm, hdiv, if_true, Nat.add_zero]
  rw [rounded_of_value g neg (2 * q) (e - ((64 + Nat.log2 d : Nat) : Int) - 1) z hz hs]
  generalize 64 + Nat.log2 d = k at *
  have hq2 : (n : ℚ) * 2 ^ k = d * q := by exact_mod_cast hq
  have hd0 : (d : ℚ) ≠ 0 := by exact_mod_cast hd
  have h2 := (two_zpow_pos e).ne'
  have : (d : ℚ) * (((2 * q : Nat) : ℚ) * 2 ^ (e - (k : Int) - 1)) = d * |z.rat| := by
    rw [← hv, zpow_sub₀ (by norm_num), zpow_sub₀ (by norm_num), zpow_natCast]
    push_cast
    field_simp
    linarith [hq2]
  exact mul_left_cancel₀ hd0 this

theorem isqrt_spec (b n : Nat) (h : n < 4 ^ b) : isqrt b n = Nat.sqrt n := by
  suffices hh : isqrt b n * isqrt b n ≤ n ∧ n < (isqrt b n + 1) * (isqrt b n + 1) by
    exact Nat.eq_sqrt.2 hh
  induction b generalizing n with
  | zero => simp at h; simp [isqrt, h]
  | succ b ih =>
    have h4 : n / 4 < 4 ^ b := by rw [Nat.div_lt_iff_lt_mul (by norm_num)]; rw [Nat.pow_succ] at h; omega
    obtain ⟨i1, i2⟩ := ih (n / 4) h4
    simp only [isqrt]
    generalize isqrt b (n / 4) = r at *
    have hn : n / 4 * 4 ≤ n := Nat.div_mul_le_self n 4
    have hn2 : n < n / 4 * 4 + 4 := by omega
    split
    · rename_i hle
      refine ⟨hle, ?_⟩
      nlinarith
    · rename_i hle
      refine ⟨by nlinarith, by omega⟩

theorem rootOf_exact (g : FF) (m : Nat) (e : Int) (z : Dy) (hm : m < 2 ^ 24) (hz : 0 < z.rat) (hv : z.rat * z.rat = (m : ℚ) * 2 ^ e) :
    rootOf g m e = roundedResult g .rne false z := by
  have hz' : 0 < z.m := by
    by_contra hc
    have : z.rat ≤ 0 := by
      unfold Dy.rat
      have h1 : (z.m : ℚ) ≤ 0 := by exact_mod_cast (by omega : z.m ≤ 0)
      exact mul_nonpos_of_nonpos_of_nonneg h1 (two_zpow_pos z.e).le
    linarith
  have key : ∀ (m : Nat) (e : Int), m < 2 ^ 25 → e % 2 = 0 → z.rat * z.rat = (m : ℚ) * 2 ^ e →
      ((g.roundFin .rne false false (2 * isqrt 128 (m * 2 ^ 200) + (if isqrt 128 (m * 2 ^ 200) * isqrt 128 (m * 2 ^ 200) = m * 2 ^ 200 then 0 else 1))
        (e / 2 - 101)).1, oneEvent false false (g.roundFin .rne false false (2 * isqrt 128 (m * 2 ^ 200) +
          (if isqrt 128 (m * 2 ^ 200) * isqrt 128 (m * 2 ^ 200) = m * 2 ^ 200 then 0 else 1)) (e / 2 - 101)).2) = roundedResult g .rne false z := by
    intro m e hm he hv
    have hn : m * 2 ^ 200 < 4 ^ 128 := by
      have : m * 2 ^ 200 < 2 ^ 25 * 2 ^ 200 := Nat.mul_lt_mul_of_pos_right hm (by positivity)
      exact lt_trans this (by norm_num)
    rw [isqrt_spec _ _ hn]
    -- the root is a natural number
    obtain ⟨h, hh⟩ : ∃ h : Int, e = 2 * h := ⟨e / 2, by omega⟩
    have hq0 : (z.rat * 2 ^ (100 - h)) * (z.rat * 2 ^ (100 - h)) = ((m * 2 ^ 200 : Nat) : ℚ) := by
      have : (z.rat * 2 ^ (100 - h)) * (z.rat * 2 ^ (100 - h)) = (z.rat * z.rat) * (2 ^ (100 - h) * 2 ^ (100 - h)) := by ring
      rw [this, hv, hh, ← zpow_add₀ (by norm_num), mul_assoc, ← zpow_add₀ (by norm_num)]
      have : (2 * h + (100 - h + (100 - h))) = ((200 : Nat) : Int) := by omega
      rw [this, zpow_natCast]; push_cast; ring
    have hsq : Nat.sqrt (m * 2 ^ 200) * Nat.sqrt (m * 2 ^ 200) = m * 2 ^ 200 := by
      have h1 := (Rat.exists_mul_self (((m * 2 ^ 200 : Nat)) : ℚ)).1 ⟨_, hq0⟩
      rw [Rat.sqrt_natCast] at h1
      exact_mod_cast h1
    rw [if_pos hsq, Nat.add_zero]
    refine (rounded_of_value g false (2 * Nat.sqrt (m * 2 ^ 200)) (e / 2 - 101) z (by omega) (by simp; omega) ?_).symm
    generalize Nat.sqrt (m * 2 ^ 200) = q at *
    have hqe : (q : ℚ) = z.rat * 2 ^ (100 - h) := by
      have h1 : (q : ℚ) * q = (z.rat * 2 ^ (100 - h)) * (z.rat * 2 ^ (100 - h)) := by rw [hq0]; exact_mod_cast hsq
      have h2 : (0 : ℚ) ≤ q := by positivity
      have h3 : 0 ≤ z.rat * 2 ^ (100 - h) := mul_nonneg hz.le (two_zpow_pos _).le
      nlinarith [mul_self_eq_mul_self_iff.1 h1]
    rw [abs_of_pos hz]
    have : e / 2 - 101 = -(100 - h) - 1 := by omega
    have hpw : (2 : ℚ) ^ (100 - h) * 2 ^ (-(100 - h) - 1) = 1 / 2 := by
      rw [← zpow_add₀ (by norm_num)]
      have : 100 - h + (-(100 - h) - 1) = -1 := by omega
      rw [this]; norm_num
    push_cast
    rw [hqe, this]
    have : 2 * (z.rat * 2 ^ (100 - h)) * 2 ^ (-(100 - h) - 1) = 2 * z.rat * ((2 : ℚ) ^ (100 - h) * 2 ^ (-(100 - h) - 1)) := by ring
    rw [this, hpw]; ring
  unfold rootOf
  by_cases he : e % 2 = 0
  · simp only [if_pos he]
    exact key m e (by omega) he hv
  · simp only [if_neg he]
    refine key (2 * m) (e - 1) (by omega) (by omega) ?_
    rw [hv, zpow_sub₀ (by norm_num)]; push_cast; field_simp

/-! ### The special functions -/

/-- The model's special functions. -/
def specialFn (op : Special) (ty : FTy) (x : Nat) : Nat × List Nat :=
  match op with
  | .rcp => rcpOf (FTy.ff ty) x | .rsq => rsqOf (FTy.ff ty) x | .sqrt => sqrtOf (FTy.ff ty) x | .ex2 => ex2Of (FTy.ff ty) x
  | .lg2 => lg2Of (FTy.ff ty) x | .sinpi => sinpiOf (FTy.ff ty) x | .cospi => cospiOf (FTy.ff ty) x | .tanh => tanhOf (FTy.ff ty) x

theorem one_eq (ty : FTy) (neg : Bool) : (FTy.ff ty).one neg = powerOf (FTy.ff ty) neg 0 := by cases ty <;> cases neg <;> decide

theorem nanFirst_eq (g : FF) (x : Nat) (v : FVal) (op : FVal → Nat × List Nat) (h : g.value x = v) :
    nanFirst g x op = (match (generalizing := false) v with | .nan sig => (g.nanCode, oneEvent sig false false) | v => op v) := by
  subst h; rfl

theorem zero_code (ty : FTy) (x : Nat) (neg : Bool) (e : Int) (hx : x < 2 ^ (FTy.ff ty).width) (h : (FTy.ff ty).value x = .fin neg 0 e) :
    x = zeroOf (FTy.ff ty) neg := by
  have hw : 2 ^ (FTy.ff ty).width = 2 * ((FTy.ff ty).signBit) := by cases ty <;> decide
  have hs : (FTy.ff ty).signBit = 2 ^ (FTy.ff ty).ebits * 2 ^ (FTy.ff ty).fbits := by cases ty <;> decide
  unfold FF.value at h
  dsimp only at h
  rw [flag_eq x _ (by have : (FTy.ff ty).width = (FTy.ff ty).ebits + (FTy.ff ty).fbits + 1 := by unfold FF.width; omega
                      rw [← this]; exact hx)] at h
  have hp : 0 < 2 ^ (FTy.ff ty).fbits := by positivity
  split at h
  · split at h <;> simp at h
  · split at h
    · simp at h
    · split at h
      · rename_i he
        simp only [FVal.fin.injEq] at h
        obtain ⟨h1, h2, _⟩ := h
        have hq : x = 2 ^ (FTy.ff ty).fbits * (x / 2 ^ (FTy.ff ty).fbits) := by
          have := Nat.div_add_mod x (2 ^ (FTy.ff ty).fbits); omega
        have hq2 : x / 2 ^ (FTy.ff ty).fbits < 2 * 2 ^ (FTy.ff ty).ebits := by
          rw [Nat.div_lt_iff_lt_mul hp]; rw [hw, hs] at hx; rw [Nat.mul_assoc]; exact hx
        have hq3 : x / 2 ^ (FTy.ff ty).fbits = 0 ∨ x / 2 ^ (FTy.ff ty).fbits = 2 ^ (FTy.ff ty).ebits := by
          have := Nat.div_add_mod (x / 2 ^ (FTy.ff ty).fbits) (2 ^ (FTy.ff ty).ebits)
          rw [he] at this
          have h5 : x / 2 ^ (FTy.ff ty).fbits / 2 ^ (FTy.ff ty).ebits < 2 := by
            rw [Nat.div_lt_iff_lt_mul (by positivity)]; omega
          generalize x / 2 ^ (FTy.ff ty).fbits / 2 ^ (FTy.ff ty).ebits = r at *
          have : r = 0 ∨ r = 1 := by omega
          rcases this with rfl | rfl <;> omega
        have hsb : (FTy.ff ty).signBit = 2 ^ ((FTy.ff ty).ebits + (FTy.ff ty).fbits) := rfl
        rcases hq3 with h3 | h3
        · rw [h3] at hq
          have : x = 0 := by omega
          subst this
          rw [← h1]; simp [zeroOf]
        · rw [h3] at hq
          have : x = (FTy.ff ty).signBit := by rw [hs, hq, Nat.mul_comm]
          rw [← h1, this]; simp [zeroOf, hsb]
      · simp only [FVal.fin.injEq] at h
        have := h.2.1; omega

theorem fin_of_rat {v : FVal} (h : v.dy.rat ≠ 0) : ∃ neg m e, v = .fin neg m e ∧ m ≠ 0 := by
  cases v with
  | nan s => simp [FVal.dy, Dy.rat] at h
  | inf n => simp [FVal.dy, Dy.rat] at h
  | fin neg m e =>
    refine ⟨neg, m, e, rfl, ?_⟩
    rintro rfl
    apply h
    simp [FVal.dy, Dy.rat]

theorem fin_rat (neg : Bool) (m : Nat) (e : Int) : (FVal.fin neg m e).dy.rat = (if neg then -1 else 1) * ((m : ℚ) * 2 ^ e) := by
  cases neg <;> simp [FVal.dy, Dy.rat]

theorem fin_abs (neg : Bool) (m : Nat) (e : Int) : |(FVal.fin neg m e).dy.rat| = (m : ℚ) * 2 ^ e := by
  have : (0 : ℚ) ≤ (m : ℚ) * 2 ^ e := mul_nonneg (by positivity) (two_zpow_pos e).le
  rw [fin_rat]; cases neg <;> simp only [if_true, if_false, Bool.false_eq_true, one_mul, neg_mul, abs_neg, abs_of_nonneg this]

theorem rat_pos_m (z : Dy) : 0 < z.rat ↔ 0 < z.m := by
  have h := Dy.rat_lt_zero z.neg
  rw [Dy.rat_neg] at h
  simp only [Dy.neg] at h
  constructor
  · intro h1; have := h.1 (by linarith); omega
  · intro h1; have := h.2 (by omega); linarith

theorem fixOf_low (w m : Nat) (e : Int) (h : -(w : Int) ≤ e) : ((fixOf w m e : Nat) : ℚ) = (m : ℚ) * 2 ^ e * 2 ^ w := by
  unfold fixOf roundUnit
  rw [if_pos h]
  push_cast
  rw [p2_cast (by omega)]
  have : e - -(w : Int) = e + w := by omega
  rw [this, zpow_add₀ (by norm_num), zpow_natCast]; ring

theorem rounded_power (ty : FTy) (n : Int) (h1 : 1 - (FTy.ff ty).bias ≤ n) (h2 : n ≤ (FTy.ff ty).bias) :
    (FTy.ff ty).roundFin .rne false false 1 n = (powerOf (FTy.ff ty) false n, false) := by
  have hm : (FTy.ff ty).roundMag .rne false 1 n = powerOf (FTy.ff ty) false n := by
    unfold FF.roundMag powerOf zeroOf
    rw [if_neg (by norm_num)]
    have hl : (Nat.log2 1 : Int) = 0 := by decide
    have hu : max (((Nat.log2 1 : Nat) : Int) + n - (FTy.ff ty).fbits) (1 - (FTy.ff ty).bias - (FTy.ff ty).fbits) = n - (FTy.ff ty).fbits := by
      rw [hl]; omega
    simp only [hu]
    have hq : roundUnit .rne false 1 n (n - (FTy.ff ty).fbits) = 2 ^ (FTy.ff ty).fbits := by
      unfold roundUnit
      rw [if_pos (by omega)]
      have : n - (n - ((FTy.ff ty).fbits : Int)) = (FTy.ff ty).fbits := by omega
      rw [this]; simp [p2]
    rw [hq, if_neg (by omega), if_pos (by rw [Nat.pow_succ]; have : 0 < 2 ^ (FTy.ff ty).fbits := by positivity
                                          omega)]
    have : n - ((FTy.ff ty).fbits : Int) + (FTy.ff ty).bias + (FTy.ff ty).fbits = n + (FTy.ff ty).bias := by omega
    rw [this]; simp
  have hlt : ¬ (FTy.ff ty).maxCode < powerOf (FTy.ff ty) false n := by
    unfold powerOf zeroOf
    obtain ⟨k, hk⟩ : ∃ k : Nat, (n + (FTy.ff ty).bias).toNat = k := ⟨_, rfl⟩
    have : k ≤ 2 * (FTy.ff ty).bias.toNat := by omega
    rw [hk]
    cases ty <;> simp only [FTy.ff, FF.bias, FF.maxCode, FF.fbits] at * <;> norm_num at this ⊢ <;> omega
  unfold FF.roundFin
  simp only [hm, if_neg hlt]; simp

theorem toInt_of_rat (mode : Rnd) (z : Dy) (n : Int) (h : z.rat = n) : z.toInt mode = n := by
  have habs : (z.m.natAbs : ℚ) * 2 ^ z.e = n.natAbs := by
    have : |z.rat| = |(n : ℚ)| := by rw [h]
    rw [Dy.rat, abs_mul, abs_of_pos (two_zpow_pos z.e), ← Int.cast_abs, Int.abs_eq_natAbs, ← Int.cast_abs, Int.abs_eq_natAbs] at this
    simpa using this
  have hu : ∀ neg, roundUnit mode neg z.m.natAbs z.e 0 = n.natAbs := by
    intro neg
    by_cases he : 0 ≤ z.e
    · unfold roundUnit
      rw [if_pos he]
      have : ((z.m.natAbs * p2 (z.e - 0) : Nat) : ℚ) = n.natAbs := by
        push_cast; rw [p2_cast (by omega), Int.sub_zero]; exact_mod_cast habs
      exact_mod_cast this
    · obtain ⟨k, hk⟩ : ∃ k : Nat, z.e = -(k : Int) := ⟨(-z.e).toNat, by omega⟩
      have : z.m.natAbs = n.natAbs * 2 ^ k := by
        rw [hk, zpow_neg, zpow_natCast] at habs
        have h2 : (z.m.natAbs : ℚ) = n.natAbs * 2 ^ k := by field_simp at habs; linarith
        exact_mod_cast h2
      unfold roundUnit
      rw [if_neg he, this, hk]
      have : (0 - -(k : Int)).toNat = k := by omega
      rw [this]; exact roundShift_zero _ _ _ _
  unfold Dy.toInt
  rw [hu]
  have hs : z.m < 0 ↔ n < 0 := by rw [← Dy.rat_lt_zero, h]; exact_mod_cast Iff.rfl
  by_cases hn : n < 0
  · rw [if_pos (hs.2 hn)]; omega
  · rw [if_neg (fun h => hn (hs.1 h))]; omega

theorem special_facts : SpecialFacts specialFn where
  nan := by
    intro op ty x sig h
    cases op <;> simp only [specialFn, rcpOf, rsqOf, sqrtOf, ex2Of, lg2Of, sinpiOf, cospiOf, tanhOf, nanFirst_eq _ _ _ _ h] <;> cases sig <;> rfl
  inf := by
    intro op ty x neg h
    cases op <;> simp only [specialFn, rcpOf, rsqOf, sqrtOf, ex2Of, lg2Of, sinpiOf, cospiOf, tanhOf, nanFirst_eq _ _ _ _ h, Special.ofInf, one_eq] <;>
      cases neg <;> rfl
  zero := by
    intro op ty x neg e hx h
    have hz := zero_code ty x neg e hx h
    cases op <;> simp only [specialFn, rcpOf, rsqOf, sqrtOf, ex2Of, lg2Of, sinpiOf, cospiOf, tanhOf, nanFirst_eq _ _ _ _ h, Special.ofZero, one_eq]
    · simp [FF.inf_, infinityOf, evDivZero]; cases neg <;> simp
    · simp [FF.inf_, infinityOf, evDivZero]; cases neg <;> simp
    · simp [hz]
    · have h0 : (FVal.fin neg 0 e).dy.rat = ((0 : Int) : ℚ) := by rw [fin_rat]; simp
      simp only [toInt_of_rat .rdn _ 0 h0]
      have h1 : max (-1000 : Int) (min 1000 0) = 0 := by decide
      have h2 : ((FVal.fin neg 0 e).dy.add ⟨-0, 0⟩).m = 0 := by
        cases neg <;> simp [FVal.dy, Dy.add]
      simp only [h1, h2, if_true]
      rw [rounded_power ty 0 (by cases ty <;> decide) (by cases ty <;> decide)]
      rfl
    · simp [FF.inf_, infinityOf, evDivZero]
    · simp [FF.zero, zeroOf]
    · simp
    · simp [hz]
  negative := by
    intro op ty x m e h hm hop
    rcases hop with rfl | rfl | rfl <;> simp only [specialFn, rsqOf, sqrtOf, lg2Of, nanFirst_eq _ _ _ _ h, if_neg hm] <;> rfl
  recip := by
    intro ty x z h
    obtain ⟨neg, m, e, hv, hm⟩ := fin_of_rat (v := (FTy.ff ty).value x) (by intro h0; rw [h0] at h; simp at h)
    rw [hv] at h
    simp only [specialFn, rcpOf, nanFirst_eq _ _ _ _ hv, if_neg hm]
    have hz : z.m ≠ 0 := by intro h0; rw [(Dy.rat_eq_zero z).2 h0] at h; simp at h
    have hpos : 0 < (m : ℚ) * 2 ^ e := mul_pos (by exact_mod_cast Nat.pos_of_ne_zero hm) (two_zpow_pos e)
    refine roundQuot_exact _ neg 1 m (-e) z hz hm ?_ ?_
    · rw [fin_rat] at h
      have := Dy.rat_lt_zero z
      cases neg
      · simp only [Bool.false_eq_true, if_false, one_mul] at h
        have : ¬ z.m < 0 := by rw [← this]; intro hc; nlinarith
        simp [this]
      · simp only [if_true, neg_mul, one_mul] at h
        have : z.m < 0 := by rw [← this]; by_contra hc; push Not at hc; nlinarith
        simp [this]
    · have habs : |z.rat| * ((m : ℚ) * 2 ^ e) = 1 := by
        rw [← fin_abs neg m e, ← abs_mul, h]; simp
      have := (two_zpow_pos e).ne'
      rw [zpow_neg]
      field_simp
      push_cast
      linarith
  root := by
    intro ty x z hz h
    obtain ⟨neg, m, e, hv, hm⟩ := fin_of_rat (v := (FTy.ff ty).value x) (by rw [← h]; positivity)
    have hb := value_fin hv
    rw [hv] at h
    have hpos : 0 < (m : ℚ) * 2 ^ e := mul_pos (by exact_mod_cast Nat.pos_of_ne_zero hm) (two_zpow_pos e)
    rw [fin_rat] at h
    have hneg : neg = false := by
      cases neg
      · rfl
      · simp only [if_true, neg_mul, one_mul] at h; nlinarith
    subst hneg
    simp only [specialFn, sqrtOf, nanFirst_eq _ _ _ _ hv, if_neg hm, Bool.false_eq_true, if_false]
    refine rootOf_exact _ m e z (lt_of_lt_of_le hb.2.2.1 (by cases ty <;> decide)) hz ?_
    simpa using h
  power := by
    intro ty x n hf h h1 h2
    cases hv : (FTy.ff ty).value x with
    | nan s => rw [hv] at hf; simp [FVal.isFin] at hf
    | inf s => rw [hv] at hf; simp [FVal.isFin] at hf
    | fin neg m e =>
      rw [hv] at h
      have hb : (FTy.ff ty).bias ≤ 127 ∧ 0 < (FTy.ff ty).bias := by cases ty <;> decide
      simp only [specialFn, ex2Of, nanFirst_eq _ _ _ _ hv, toInt_of_rat .rdn _ n h]
      have h3 : max (-1000 : Int) (min 1000 n) = n := by omega
      have h4 : ((FVal.fin neg m e).dy.add ⟨-n, 0⟩).m = 0 := by
        rw [← Dy.rat_eq_zero, Dy.rat_add, h]; simp [Dy.rat]
      simp only [h3, h4, if_true]
      rw [rounded_power ty n h1 h2]; rfl
  log := by
    intro ty x n h
    obtain ⟨neg, m, e, hv, hm⟩ := fin_of_rat (v := (FTy.ff ty).value x) (by rw [h]; exact (two_zpow_pos n).ne')
    rw [hv] at h
    have hpos : 0 < (m : ℚ) * 2 ^ e := mul_pos (by exact_mod_cast Nat.pos_of_ne_zero hm) (two_zpow_pos e)
    rw [fin_rat] at h
    have hneg : neg = false := by
      cases neg
      · rfl
      · simp only [if_true, neg_mul, one_mul] at h; have := two_zpow_pos n; linarith
    subst hneg
    simp only [Bool.false_eq_true, if_false, one_mul] at h
    have hmp : m = 2 ^ Nat.log2 m ∧ (Nat.log2 m : Int) + e = n := by
      have hk : (m : ℚ) = 2 ^ (n - e) := by rw [zpow_sub₀ (by norm_num)]; have := (two_zpow_pos e).ne'; field_simp; linarith
      have h0 : 0 ≤ n - e := by
        by_contra hc
        have h1 : (2 : ℚ) ^ (n - e) < 1 := zpow_lt_one_of_neg₀ (by norm_num) (by omega)
        have h2 : (1 : ℚ) ≤ m := by exact_mod_cast Nat.pos_of_ne_zero hm
        linarith
      obtain ⟨k, hk2⟩ : ∃ k : Nat, n - e = k := ⟨(n - e).toNat, by omega⟩
      rw [hk2, zpow_natCast] at hk
      have hk3 : m = 2 ^ k := by exact_mod_cast hk
      have : Nat.log2 m = k := by rw [hk3, Nat.log2_two_pow]
      rw [this]; exact ⟨hk3, by omega⟩
    simp only [specialFn, lg2Of, nanFirst_eq _ _ _ _ hv, if_neg hm, Bool.false_eq_true, if_false]
    rw [if_pos hmp.1, hmp.2]
  sine := by
    intro ty x n hf h
    cases hv : (FTy.ff ty).value x with
    | nan s => rw [hv] at hf; simp [FVal.isFin] at hf
    | inf s => rw [hv] at hf; simp [FVal.isFin] at hf
    | fin neg m e =>
      rw [hv] at h
      have hb := value_fin hv
      have habs : (m : ℚ) * 2 ^ e = n.natAbs := by
        rw [← fin_abs neg m e, h, ← Int.cast_abs, Int.abs_eq_natAbs]; simp
      have hfx : fixOf 320 m e % 2 ^ 320 = 0 := by
        have h1 := fixOf_low 320 m e (by omega)
        rw [habs] at h1
        have h2 : fixOf 320 m e = n.natAbs * 2 ^ 320 := by exact_mod_cast h1
        rw [h2]; exact Nat.mul_mod_left _ _
      simp only [specialFn, sinpiOf, nanFirst_eq _ _ _ _ hv, hfx, decide_true, Bool.or_true, if_true, FVal.sign]
      rfl
  cosine := by
    intro ty x n h
    obtain ⟨neg, m, e, hv, hm⟩ := fin_of_rat (v := (FTy.ff ty).value x) (by
      rw [h]; intro hc
      have : (2 * n + 1 : ℚ) = 0 := by linarith
      have : (2 * n + 1 : Int) = 0 := by exact_mod_cast this
      omega)
    rw [hv] at h
    have hb := value_fin hv
    have habs : ∃ k : Nat, (m : ℚ) * 2 ^ e + 1 / 2 = k := by
      rw [fin_rat] at h
      cases neg
      · simp only [Bool.false_eq_true, if_false, one_mul] at h
        have hpos : 0 < (m : ℚ) * 2 ^ e := mul_pos (by exact_mod_cast Nat.pos_of_ne_zero hm) (two_zpow_pos e)
        have : 0 ≤ n + 1 := by
          have : (0 : ℚ) < n + 1 := by linarith
          exact_mod_cast this.le
        obtain ⟨k, hk⟩ := Int.eq_ofNat_of_zero_le this
        refine ⟨k, ?_⟩
        have : ((n + 1 : Int) : ℚ) = (k : ℚ) := by rw [hk]; simp
        push_cast at this; linarith
      · simp only [if_true, neg_mul, one_mul] at h
        have hpos : 0 < (m : ℚ) * 2 ^ e := mul_pos (by exact_mod_cast Nat.pos_of_ne_zero hm) (two_zpow_pos e)
        have : 0 ≤ -n := by
          have h1 : (n : ℚ) < 0 := by linarith
          have : n < 0 := by exact_mod_cast h1
          omega
        obtain ⟨k, hk⟩ := Int.eq_ofNat_of_zero_le this
        refine ⟨k, ?_⟩
        have : ((-n : Int) : ℚ) = (k : ℚ) := by rw [hk]; simp
        push_cast at this; linarith
    obtain ⟨k, hk⟩ := habs
    have hfx : turnOf 320 m e 1 % 2 ^ 320 = 0 := by
      have h1 := fixOf_low 320 m e (by omega)
      have h2 : fixOf 320 m e + 2 ^ 319 = k * 2 ^ 320 := by
        have : ((fixOf 320 m e + 2 ^ 319 : Nat) : ℚ) = ((k * 2 ^ 320 : Nat) : ℚ) := by
          push_cast; rw [h1, ← hk]
          have h9 : (2 : ℚ) ^ 320 = 2 ^ 319 * 2 := by rw [← pow_succ]
          rw [h9]; ring
        exact_mod_cast this
      unfold turnOf
      rw [Nat.one_mul, h2, Nat.mod_mod_of_dvd _ (Nat.pow_dvd_pow 2 (by norm_num))]
      exact Nat.mul_mod_left _ _
    simp only [specialFn, cospiOf, nanFirst_eq _ _ _ _ hv, if_neg hm, hfx, if_true]
    rfl

theorem quotient_facts : QuotientFacts (fun ty => fdivOf (FTy.ff ty)) where
  nan := by
    intro ty x y h
    unfold fdivOf
    dsimp only
    rw [if_pos h]
    cases ((FTy.ff ty).value x).isSig <;> cases ((FTy.ff ty).value y).isSig <;> rfl
  invalid := by
    intro ty x y h
    unfold fdivOf
    cases hx : (FTy.ff ty).value x <;> cases hy : (FTy.ff ty).value y <;> simp_all [FVal.isZero, FVal.isInf, FVal.isNan, evInvalid]
  overZero := by
    intro ty x y h hz
    unfold fdivOf
    cases hx : (FTy.ff ty).value x <;> cases hy : (FTy.ff ty).value y <;>
      simp_all [FVal.isZero, FVal.isInf, FVal.isNan, FVal.dy, evDivZero, FF.inf_, infinityOf, FVal.sign]
    · rename_i n1 m1 e1 n2 m2 e2
      have : m1 ≠ 0 := by rintro rfl; cases n1 <;> simp at h
      simp only [this, if_false]
      split <;> simp_all
  overInf := by
    intro ty x y h hz
    unfold fdivOf
    cases hx : (FTy.ff ty).value x <;> cases hy : (FTy.ff ty).value y <;>
      simp_all [FVal.isZero, FVal.isInf, FVal.isFin, FVal.isNan, FF.zero, zeroOf, FVal.sign]
  ofInf := by
    intro ty x y h hz
    unfold fdivOf
    cases hx : (FTy.ff ty).value x <;> cases hy : (FTy.ff ty).value y <;>
      simp_all [FVal.isZero, FVal.isInf, FVal.isFin, FVal.isNan, FF.inf_, infinityOf, FVal.sign]
    split <;> simp_all
  ofZero := by
    intro ty x y h hz
    unfold fdivOf
    cases hx : (FTy.ff ty).value x <;> cases hy : (FTy.ff ty).value y <;>
      simp_all [FVal.isZero, FVal.isInf, FVal.isFin, FVal.isNan, FF.zero, zeroOf, FVal.sign, FVal.dy]
    · rename_i n1 m1 e1 n2 m2 e2
      have : m2 ≠ 0 := by rintro rfl; cases n2 <;> simp at hz
      simp [this]
  exact := by
    intro ty x y z hz hy h
    obtain ⟨n2, m2, e2, hv2, hm2⟩ := fin_of_rat (v := (FTy.ff ty).value y) (by intro h0; exact hy ((Dy.rat_eq_zero _).1 h0))
    have hz0 : z.rat ≠ 0 := fun h0 => hz ((Dy.rat_eq_zero z).1 h0)
    obtain ⟨n1, m1, e1, hv1, hm1⟩ := fin_of_rat (v := (FTy.ff ty).value x) (by
      rw [← h]; exact mul_ne_zero hz0 (fun h0 => hy ((Dy.rat_eq_zero _).1 h0)))
    rw [hv1, hv2] at h
    unfold fdivOf
    simp only [hv1, hv2, FVal.isNan, FVal.isSig, FVal.isZero, FVal.isInf, hm1, hm2, decide_false, Bool.or_false, Bool.and_false, Bool.false_eq_true, if_false]
    have hp1 : 0 < (m1 : ℚ) * 2 ^ e1 := mul_pos (by exact_mod_cast Nat.pos_of_ne_zero hm1) (two_zpow_pos e1)
    have hp2 : 0 < (m2 : ℚ) * 2 ^ e2 := mul_pos (by exact_mod_cast Nat.pos_of_ne_zero hm2) (two_zpow_pos e2)
    refine roundQuot_exact _ _ m1 m2 (e1 - e2) z hz hm2 ?_ ?_
    · have hneg := Dy.rat_lt_zero z
      rw [fin_rat, fin_rat] at h
      have : (z.m < 0) ↔ (n1 != n2) = true := by
        rw [← hneg]
        cases n1 <;> cases n2 <;> simp only [Bool.false_eq_true, if_false, if_true, one_mul, neg_mul, mul_neg, bne_self_eq_false, iff_false, not_lt] at h ⊢
        · by_contra hc; push Not at hc; nlinarith
        · simp only [bne, Bool.not_eq_true', beq_eq_false_iff_ne, ne_eq, Bool.false_eq_true, not_false_eq_true, iff_true]
          by_contra hc; push Not at hc; nlinarith
        · simp only [bne, Bool.not_eq_true', beq_eq_false_iff_ne, ne_eq, Bool.true_eq_false, not_false_eq_true, iff_true]
          by_contra hc; push Not at hc; nlinarith
        · by_contra hc; push Not at hc; nlinarith
      simp only [FVal.sign]
      cases hb : (n1 != n2)
      · rw [hb] at this; simp at this; simp [this]
      · rw [hb] at this; simp at this; simp [this]
    · have habs : |z.rat| * ((m2 : ℚ) * 2 ^ e2) = (m1 : ℚ) * 2 ^ e1 := by
        rw [← fin_abs n2 m2 e2, ← abs_mul, h, fin_abs]
      have := (two_zpow_pos e2).ne'
      rw [zpow_sub₀ (by norm_num)]
      field_simp
      linarith

/-! ### Fractions of one in F32 -/

theorem f32_fraction (m : Nat) (hm : m < 2 ^ 24) :
    (FF.f32.roundFin .rne false false m (-24)).1 < 2 ^ 32 ∧
    (FF.f32.value (FF.f32.roundFin .rne false false m (-24)).1).isFin = true ∧
    (FF.f32.value (FF.f32.roundFin .rne false false m (-24)).1).sign = false ∧
    (FF.f32.value (FF.f32.roundFin .rne false false m (-24)).1).dy.rat = (m : ℚ) * (2 : ℚ) ^ (-24 : Int) := by
  by_cases h0 : m = 0
  · subst h0
    have h1 : (FF.f32.roundFin .rne false false 0 (-24)).1 = 0 := by decide
    have h2 : FF.f32.value 0 = .fin false 0 (-149) := by decide
    rw [h1, h2]; refine ⟨by norm_num, rfl, rfl, ?_⟩; rw [fin_rat]; simp
  · have hl1 : 2 ^ Nat.log2 m ≤ m := Nat.log2_self_le h0
    have hl2 : m < 2 ^ (Nat.log2 m + 1) := Nat.lt_log2_self
    have hl3 : Nat.log2 m < 24 := (Nat.log2_lt h0).2 hm
    generalize hL : Nat.log2 m = L at *
    obtain ⟨k, hk⟩ : ∃ k : Nat, L + k = 23 := ⟨23 - L, by omega⟩
    have hq1 : 2 ^ 23 ≤ m * 2 ^ k := by rw [← hk, Nat.pow_add]; exact Nat.mul_le_mul_right _ hl1
    have hq2 : m * 2 ^ k < 2 ^ 24 := by
      have : (2 : Nat) ^ 24 = 2 ^ (L + 1) * 2 ^ k := by rw [← Nat.pow_add]; congr 1; omega
      rw [this]; exact Nat.mul_lt_mul_of_pos_right hl2 (by positivity)
    have hmag : FF.f32.roundMag .rne false m (-24) = (L + 103) * 2 ^ 23 + (m * 2 ^ k - 2 ^ 23) := by
      unfold FF.roundMag
      rw [if_neg h0, hL]
      have hu : max ((L : Int) + -24 - (FF.f32.fbits : Int)) (1 - FF.f32.bias - (FF.f32.fbits : Int)) = (L : Int) - 47 := by
        simp only [FF.fbits, FF.bias]; omega
      simp only [hu]
      have hr : roundUnit .rne false m (-24) ((L : Int) - 47) = m * 2 ^ k := by
        unfold roundUnit
        rw [if_pos (by omega)]
        congr 1
        unfold p2; congr 1; omega
      rw [hr]
      rw [if_neg (show ¬ m * 2 ^ k < 2 ^ FF.f32.fbits from by simp only [FF.fbits]; omega),
        if_pos (show m * 2 ^ k < 2 ^ (FF.f32.fbits + 1) from by simp only [FF.fbits]; omega)]
      have : ((L : Int) - 47 + FF.f32.bias + FF.f32.fbits).toNat = L + 103 := by simp only [FF.fbits, FF.bias]; omega
      rw [this]; rfl
    have hfin : (FF.f32.roundFin .rne false false m (-24)).1 = (L + 103) * 2 ^ 23 + (m * 2 ^ k - 2 ^ 23) := by
      unfold FF.roundFin
      rw [hmag]
      have : ¬ FF.f32.maxCode < (L + 103) * 2 ^ 23 + (m * 2 ^ k - 2 ^ 23) := by simp only [FF.maxCode]; omega
      simp only [if_neg this]; simp
    have hval : FF.f32.value ((L + 103) * 2 ^ 23 + (m * 2 ^ k - 2 ^ 23)) = .fin false (m * 2 ^ k) ((L : Int) - 47) := by
      generalize hq : m * 2 ^ k = q at *
      unfold FF.value
      have e1 : flag ((L + 103) * 2 ^ 23 + (q - 2 ^ 23)) (8 + 23) = false := by
        rw [flag_eq _ _ (by omega)]; simp; omega
      have e2 : ((L + 103) * 2 ^ 23 + (q - 2 ^ 23)) / 2 ^ 23 % 2 ^ 8 = L + 103 := by omega
      have e3 : ((L + 103) * 2 ^ 23 + (q - 2 ^ 23)) % 2 ^ 23 = q - 2 ^ 23 := by omega
      have e4 : FF.f32.ebits = 8 := rfl
      have e5 : FF.f32.fbits = 23 := rfl
      have e6 : FF.f32.bias = 127 := rfl
      simp only [e4, e5, e6, e1, e2, e3]
      have c1 : ¬ (L + 103 = 2 ^ 8 - 1) := by omega
      have c2 : ¬ (L + 103 = 0) := by omega
      have c3 : ¬ (FF.f32 = FF.e4m3) := by decide
      simp only [c1, c2, c3, decide_false, Bool.false_and, Bool.false_eq_true, if_false]
      have c4 : q - 2 ^ 23 + 2 ^ 23 = q := by omega
      have c5 : ((L + 103 : Nat) : Int) - 127 - ((23 : Nat) : Int) = (L : Int) - 47 := by push_cast; omega
      rw [c4, c5]
    rw [hfin, hval]
    refine ⟨by omega, rfl, rfl, ?_⟩
    rw [fin_rat]
    simp only [Bool.false_eq_true, if_false, one_mul]
    push_cast
    have : (L : Int) - 47 = -(k : Int) + (-24) := by omega
    rw [this, zpow_add₀ (by norm_num), zpow_neg, zpow_natCast]
    field_simp

end Sys2Proof.Machine
end

