-- ==== Sys2Proof/Laws/Sync.lean ====
section
/-!
SUPPORT. Synchronising instructions outside deterministic grids, and instructions that answer all their fibres alike.
-/

namespace Sys2Proof.Machine

/-- A synchronising instruction acts at once outside deterministic grids. -/
theorem syncBody_plain {i : Instr} {s : State} {w : Who} {c : Ctl} {t : Team} (H : Starts s i w c t) (j : Instr) (k : Split) (act : Who → State → State) :
    syncBody j k act (w.by (s.performers w c)) s = act (w.by (s.performers w c)) s := by
  unfold syncBody
  have ht : s.team (w.by (s.performers w c)).team = some t := H.team
  rw [ht]
  simp only [H.plain, Option.isNone_none, if_true]

/-- An instruction whose fibres have no request outstanding is not held back. -/
theorem afterOrder_ok {s : State} {w : Who} {c : Ctl} (h : s.inOrder w c) (act : Who → State → State) :
    afterOrder act (w.by (s.performers w c)) s = act (w.by (s.performers w c)) s := by
  unfold afterOrder
  have ho : s.ordered (w.by (s.performers w c)) = true := by
    unfold State.ordered State.orderedFor
    rw [List.all_eq_true]
    intro x hx
    obtain ⟨h1, h2⟩ := h x hx
    show (decide ((s.fibre w.team x.1 x.2).order = 0) && (false || (s.fibre w.team x.1 x.2).loads.isEmpty)) = true
    simp [h1, h2]
  rw [ho, if_pos rfl]

/-- The instruction at hand has no operation open yet. -/
theorem who_ops {s : State} {w : Who} (h : s.who = some w) : w.ops = [] := by
  unfold State.who at h
  split at h
  · cases h
  · split at h
    · cases h
    · cases h; rfl

theorem openFor_plain {s : State} {w : Who} (h : s.who = some w) (r : State) (i : Instr) (p q : List (Nat × Nat)) :
    r.openFor i (w.by p) q = r.openOps i (w.by p) q := by
  unfold State.openFor
  have : (w.by p).ops = [] := (show (w.by p).ops = w.ops from rfl).trans (who_ops h)
  rw [this]; rfl

/-- An instruction that changes the part, and gives all its fibres the same results at once. -/
theorem completes_give {i : Instr} {s : State} {w : Who} {c : Ctl} {t : Team} (H : Starts s i w c t) {body : Who → State → State}
    (he : exec i s = native i s body) {base : State} (B : State.Near s base) (ws : List (RName × Word)) (h0 : s.performers w c ≠ [])
    (hb : body (w.by (s.performers w c)) s = base.giveAll i (w.by (s.performers w c)) ws) : Completes i s w c base (fun _ => some ws) := by
  refine completes_base H he B (fun _ => ws) (fun h => absurd h h0) (fun _ => ?_)
  rw [hb]
  unfold State.giveAll
  dsimp only
  rw [openFor_plain H.who]
  rfl

/-- A check of the leader that passes. -/
theorem leaderGate_ok {α : Type} (s : State) (w : Who) (c : Ctl) (r : Res α) (x : α) (h : r = .ok x) :
    s.leaderGate (w.by (s.performers w c)) r = (some x, s.spent w c) := by
  rw [h]; rfl

theorem Who.by_pos (w : Who) (p : List (Nat × Nat)) : (w.by p).pos = w.pos := rfl
theorem Who.by_team (w : Who) (p : List (Nat × Nat)) : (w.by p).team = w.team := rfl
theorem Who.by_perf (w : Who) (p : List (Nat × Nat)) : (w.by p).perf = p := rfl

theorem State.spent_dies (s : State) (w : Who) (c : Ctl) : (s.spent w c).dies = s.dies := by
  unfold State.spent
  exact State.foldl_keeps (·.dies) _ (fun (a : State) g => a.modGroup w.team g (fun x => { x with failed := [] })) (fun _ _ => rfl) s

theorem State.hold_isHeld {s : State} {w : Who} (h : s.who = some w) : (s.hold w).isHeld w = true := by
  unfold State.who at h
  split at h
  · cases h
  · rename_i i hi
    split at h
    · cases h
    · rename_i b hb
      cases h
      unfold State.isHeld State.hold State.modBundle
      dsimp only
      rw [fget_fmod, if_pos rfl, hb]; rfl

end Sys2Proof.Machine
end

