-- ==== Sys2Proof/Machine/Portable.lean ====
section
/-!
DEFINITION. What portable code does (R374 to R377, R380): the effect of every op on one fibre, as values, arithmetic events and native instructions. Every
TEXT that a translator makes of a section has this effect; which TEXT the part's translator makes is open (log 14).
-/

namespace Sys2Proof.Machine

/-! ### Ops on values (R374) -/

/-- A value of a type of 32 or 64 bits: the low bits of a number. -/
def nVal (is64 : Bool) (x : DWord) : DWord := if is64 then x else x.lo.setWidth 64

/-- The integer type of an op. -/
def nIty (is64 signed : Bool) : ITy := if is64 then (if signed then .i64 else .n64) else (if signed then .i32 else .n32)

/-- Compare k of eq, ne, lt_s, lt_u, gt_s, gt_u, le_s, le_u, ge_s, ge_u. -/
def nCompare (is64 : Bool) (k : Nat) (x y : DWord) : Bool :=
  let cond : ICond := match k with | 0 => .eq | 1 => .ne | 2 | 3 => .lt | 4 | 5 => .gt | 6 | 7 => .le | _ => .ge
  let t := nIty is64 (decide (k < 2) || decide (k % 2 = 0))
  icondHolds cond (ityVal t x) (ityVal t y)

/-- Compare k of eq, ne, lt, gt, le, ge on F32, with its events. -/
def nFcompare (k : Nat) (x y : FVal) : Bool × List Nat :=
  let cond : FCond := match k with | 0 => .eq | 1 => .ne | 2 => .lt | 3 => .gt | 4 => .le | _ => .ge
  (fcondHolds cond x y, oneEvent (fcondInvalid cond x y) false false)

/-- Integer op k of clz, ctz, popcnt, add, sub, mul, div_s, div_u, rem_s, rem_u, and, or, xor, shl, shr_s, shr_u, rotl. -/
def nInteger (is64 : Bool) (k : Nat) (x y : DWord) : DWord × List Nat :=
  let w := if is64 then 64 else 32
  let n := y.toNat % w
  let u := nIty is64 false
  let r : DWord × List Nat := match k with
    | 0 => (BitVec.ofNat 64 (leadZeros w x), [])
    | 1 => (BitVec.ofNat 64 (trailZeros w x), [])
    | 2 => (BitVec.ofNat 64 (popCount w x), [])
    | 3 => (x + y, [])
    | 4 => (x - y, [])
    | 5 => (x * y, [])
    | 6 | 7 => let q := divide (nIty is64 (decide (k = 6))) x y; (q.1, q.2.2)
    | 8 | 9 => let q := divide (nIty is64 (decide (k = 8))) x y; (q.2.1, q.2.2)
    | 10 => (x &&& y, [])
    | 11 => (x ||| y, [])
    | 12 => (x ^^^ y, [])
    | 13 => (shiftBits .shl u x n, [])
    | 14 => (shiftBits .sar u x n, [])
    | 15 => (shiftBits .shr u x n, [])
    | _ => (shiftBits .rol u x n, [])
  (nVal is64 r.1, r.2)

/-- The packed type of a byte: F16x2 or BF16x2. -/
def nPacked (pt : Nat) : FTy := if pt = 0x7C then .f16x2 else .bf16x2

/-- A result of one code. -/
def nCode (r : Nat × List Nat) : List DWord × List Nat := ([BitVec.ofNat 64 r.1], r.2)

/-- A conversion as a result. -/
def nConvert (dst src : CFmt) (rnd : Rnd) (x : Nat) : List DWord × List Nat :=
  let r := convert dst src rnd false x
  ([BitVec.ofNat 64 r.1], r.2.toList)

/-- A packed result, element by element. -/
def nElems (t : FTy) (rs : List (Nat × List Nat)) : List DWord × List Nat :=
  ([BitVec.ofNat 64 (packWord (FTy.ff t).width (rs.map (·.1)))], rs.flatMap (·.2))

/-- An F32 op of 0x8B to 0x98 on codes. -/
def nFloat (b x y z : Nat) : Nat × List Nat :=
  let g := FF.f32
  match b with
  | 0x8B => (x % 2 ^ 31, [])
  | 0x8C => (x ^^^ 2 ^ 31, [])
  | 0x8D => roundOf g .rup x
  | 0x8E => roundOf g .rdn x
  | 0x8F => roundOf g .rz x
  | 0x90 => roundOf g .rne x
  | 0x91 => sqrtOf g x
  | 0x92 => sumOf g .rne [] [g.value x, g.value y]
  | 0x93 => sumOf g .rne [] [g.value x, (g.value y).negate]
  | 0x94 => sumOf g .rne [(g.value x, g.value y)] []
  | 0x95 => fdivOf g x y
  | 0x96 => extremeOf g false x y
  | 0x97 => extremeOf g true x y
  | _ => sumOf g .rne [(g.value x, g.value y)] [g.value z]

/-- A special function of 0xD0 to 0xD6. -/
def nSpecial (b x : Nat) : Nat × List Nat :=
  match b with
  | 0xD0 => rcpOf .f32 x
  | 0xD1 => rsqOf .f32 x
  | 0xD2 => ex2Of .f32 x
  | 0xD3 => lg2Of .f32 x
  | 0xD4 => sinpiOf .f32 x
  | 0xD5 => cospiOf .f32 x
  | _ => tanhOf .f32 x

/-- An op of 0x99 to 0x9E on the elements of a packed type: the op of F32 beside it has the same operations. -/
def nPair (b : Nat) (g : FF) (x y z : Nat) : Nat × List Nat :=
  match b with
  | 0x99 => sumOf g .rne [] [g.value x, g.value y]
  | 0x9A => sumOf g .rne [] [g.value x, (g.value y).negate]
  | 0x9B => sumOf g .rne [(g.value x, g.value y)] []
  | 0x9C => sumOf g .rne [(g.value x, g.value y)] [g.value z]
  | 0x9D => extremeOf g false x y
  | _ => extremeOf g true x y

/-- RAND and RAND.UNIF (R157). -/
def nRandom (unif : Bool) (lo hi k : Word) : DWord :=
  let h := randHash lo hi k
  if unif then BitVec.ofNat 64 (FF.f32.roundFin .rne false false (h.toNat / 256) (-24)).1 else h.setWidth 64

/-- What an op that acts on values alone gives, its operands being the deepest first: the results, the deepest first, and its events; `pt` is its packed
type byte. None where the op is another. -/
def valueOp (b pt : Nat) (xs : List DWord) : Option (List DWord × List Nat) :=
  let d (i : Nat) : DWord := xs.getD i 0
  let n (i : Nat) : Nat := (d i).lo.toNat
  let p := nPacked pt
  let half (x : Nat) : List Nat := FTy.elems p false false (BitVec.ofNat 32 x)
  if b = 0x01 then some ([], [])
  else if b = 0x45 || decide (b = 0x50) then some ([if d 0 = 0 then 1 else 0], [])
  else if 0x46 ≤ b && decide (b ≤ 0x4F) then some ([if nCompare false (b - 0x46) (d 0) (d 1) then 1 else 0], [])
  else if 0x51 ≤ b && decide (b ≤ 0x5A) then some ([if nCompare true (b - 0x51) (d 0) (d 1) then 1 else 0], [])
  else if 0x5B ≤ b && decide (b ≤ 0x60) then
    let r := nFcompare (b - 0x5B) (FF.f32.value (n 0)) (FF.f32.value (n 1))
    some ([if r.1 then 1 else 0], r.2)
  else if 0x67 ≤ b && decide (b ≤ 0x77) then let r := nInteger false (b - 0x67) (d 0) (d 1); some ([r.1], r.2)
  else if 0x79 ≤ b && decide (b ≤ 0x89) then let r := nInteger true (b - 0x79) (d 0) (d 1); some ([r.1], r.2)
  else if 0x8B ≤ b && decide (b ≤ 0x98) then some (nCode (nFloat b (n 0) (n 1) (n 2)))
  else if 0x99 ≤ b && decide (b ≤ 0x9E) then
    let ys := half (n 1)
    let zs := half (n 2)
    some (nElems p ((List.range 2).map (fun i => nPair b (FTy.ff p) ((half (n 0)).getD i 0) (ys.getD i 0) (zs.getD i 0))))
  else if b = 0x9F then
    let g := FTy.ff p
    some (nCode (sumOf .f32 .rne (((half (n 0)).map g.value).zip ((half (n 1)).map g.value)) [FF.f32.value (n 2)]))
  else if 0xD0 ≤ b && decide (b ≤ 0xD6) then some (nCode (nSpecial b (n 0)))
  else match b with
    | 0xA7 | 0xBC | 0xBE | 0xC2 | 0xC3 => some ([nVal false (d 0)], [])
    | 0xA8 => some (nConvert .i32 .f32 .rz (n 0))
    | 0xA9 => some (nConvert .n32 .f32 .rz (n 0))
    | 0xAE => some (nConvert .i64 .f32 .rz (n 0))
    | 0xAF => some (nConvert .n64 .f32 .rz (n 0))
    | 0xAC => some ([(d 0).lo.signExtend 64], [])
    | 0xAD => some ([nVal false (d 0)], [])
    | 0xB2 => some (nConvert .f32 .i32 .rne (n 0))
    | 0xB3 => some (nConvert .f32 .n32 .rne (n 0))
    | 0xB4 => some (nConvert .f32 .i64 .rne (d 0).toNat)
    | 0xB5 => some (nConvert .f32 .n64 .rne (d 0).toNat)
    | 0xC0 =>
      let e := if pt = 0x7C then CFmt.f16 else .bf16
      let lo := convert e .f32 .rne false (n 0)
      let hi := convert e .f32 .rne false (n 1)
      some ([BitVec.ofNat 64 (packWord 16 [lo.1, hi.1])], lo.2.toList ++ hi.2.toList)
    | 0xC1 =>
      let e := if pt = 0x7C then CFmt.f16 else .bf16
      let lo := convert .f32 e .rne false (n 0 % 65536)
      let hi := convert .f32 e .rne false (n 0 / 65536)
      some ([BitVec.ofNat 64 lo.1, BitVec.ofNat 64 hi.1], lo.2.toList ++ hi.2.toList)
    | 0xD7 => some ([nRandom false (d 0).lo (d 1).lo (d 2).lo], [])
    | 0xD8 => some ([nRandom true (d 0).lo (d 1).lo (d 2).lo], [])
    | _ => none

/-! ### A fibre that runs portable code -/

/-- An open frame as the code runs (R377): a loop's start, or the place after the end of any other; the height of the stack below it, and whether its
label takes a value. -/
structure NOpen where
  loop   : Bool
  target : Nat
  h      : Nat
  value  : Bool
deriving DecidableEq, Repr

/-- One activation of a function. -/
structure NAct where
  func   : Nat
  off    : Nat
  /-- values, the top first -/
  stack  : List DWord
  frames : List NOpen
  locals : List DWord
deriving DecidableEq, Repr

/-- A fibre's portable code: the running activation, then its callers. -/
structure NFibre where
  acts : List NAct
  /-- free values taken: locals beyond the parameters have no stated first value (log 14) -/
  free : Nat
deriving DecidableEq, Repr

/-- A native instruction that an op performs: registers and predicates that hold its operands, and registers whose values it pushes, each with whether it
is a pair. -/
structure NPerform where
  instr : Instr
  args  : List (Reg × Bool × DWord)
  preds : List (Pred × Bool)
  outs  : List (Reg × Bool)
deriving DecidableEq, Repr

/-- What one op does. -/
inductive NEffect
  /-- values alone, with the events logged -/
  | goes (f : NFibre) (events : List Nat)
  /-- a native instruction, whose results are then pushed -/
  | performs (p : NPerform) (f : NFibre)
  /-- the precise TRAP with code 0 (R126) -/
  | trap
  /-- the precise DISPATCH fault (R115) -/
  | dispatch
  /-- the native instruction that the op names is ILLEGAL -/
  | illegal
  /-- the kernel's function has ended -/
  | ends
deriving DecidableEq, Repr

/-- The running activation goes on from an offset with a stack. -/
def NFibre.next (f : NFibre) (off : Nat) (stack : List DWord) : NFibre :=
  match f.acts with
  | [] => f
  | a :: as => { f with acts := { a with off := off, stack := stack } :: as }

/-- The value of an unsigned LEB128 number, and its bytes; 0 where there is none. -/
def ulebVal (bs : List Byte) (off : Nat) : Nat × Nat := (ulebGo 64 10 0 (bs.drop off)).getD (0, 1)

/-- The value of a signed LEB128 number (R374). -/
def slebVal (bs : List Byte) (off : Nat) : Int :=
  let n := ((List.range 10).find? (fun i => decide ((bs.getD (off + i) 0).toNat < 128))).getD 0 + 1
  sextNat (7 * n) (((List.range n).map (fun i => (bs.getD (off + i) 0).toNat % 128 * 2 ^ (7 * i))).foldl (· + ·) 0)

/-- The bytes of a LEB128 number. -/
def lebLen (bs : List Byte) (off : Nat) : Nat := ((List.range 10).find? (fun i => decide ((bs.getD (off + i) 0).toNat < 128))).getD 0 + 1

/-- A memarg: space, record, offset, and the place after it (R375). -/
def memargVal (bs : List Byte) (off : Nat) : Nat × Nat × Nat × Nat :=
  let sp := (bs.getD off 0).toNat
  let r := if sp = 0 then ulebVal bs (off + 1) else (0, 0)
  let o := ulebVal bs (off + 1 + r.2)
  (sp, r.1, o.1, off + 1 + r.2 + o.2)

/-- The place after some LEB128 numbers. -/
def lebSkip (bs : List Byte) : Nat → Nat → Nat
  | 0, off => off
  | n + 1, off => lebSkip bs n (off + lebLen bs off)

/-- The place after the op at an offset. -/
def opNext (bs : List Byte) (off : Nat) : Nat :=
  let b := (bs.getD off 0).toNat
  if decide (b = 0x2D) || decide (b = 0x3B) then (memargVal bs (off + 2)).2.2.2
  else if (memOp b).isSome then (memargVal bs (off + 1)).2.2.2
  else if (decide (0x02 ≤ b) && decide (b ≤ 0x04)) || decide (b = 0x23) || decide (b = 0xDD) || decide (b = 0xDE) ||
      (decide (0x99 ≤ b) && decide (b ≤ 0x9F)) || (decide (0xC0 ≤ b) && decide (b ≤ 0xC3)) then off + 2
  else if b = 0x43 then off + 5
  else if b = 0x0E then lebSkip bs ((ulebVal bs (off + 1)).1 + 2) (off + 1)
  else if (decide (0x0C ≤ b) && decide (b ≤ 0x0D)) || decide (b = 0x10) || (decide (0x20 ≤ b) && decide (b ≤ 0x22)) || decide (b = 0x41) ||
      decide (b = 0x42) || decide (b = 0xE0) then lebSkip bs 1 (off + 1)
  else off + 1

/-- The place after the end that closes a frame, or after its else, from an offset inside it; `depth` frames stand open in between. -/
def seekEnd (bs : List Byte) (orElse : Bool) : Nat → Nat → Nat → Nat
  | 0, _, off => off
  | n + 1, depth, off =>
    let b := (bs.getD off 0).toNat
    let next := opNext bs off
    if 0x02 ≤ b && decide (b ≤ 0x04) then seekEnd bs orElse n (depth + 1) next
    else if b = 0x0B then (if depth = 0 then next else seekEnd bs orElse n (depth - 1) next)
    else if b = 0x05 && decide (depth = 0) && orElse then next
    else seekEnd bs orElse n depth next

/-- The running activation ends with its result: the caller goes on with it. -/
def NFibre.returns (f : NFibre) (value : Bool) : NEffect :=
  match f.acts with
  | a :: b :: rest => .goes { f with acts := { b with stack := (if value then a.stack.take 1 else []) ++ b.stack } :: rest } []
  | _ => .ends

/-- A branch to the frame at a depth: values above its label type are discarded (R377); the function's own frame stands last. -/
def NFibre.branch (f : NFibre) (l : Nat) (value : Bool) : NEffect :=
  match f.acts with
  | [] => .ends
  | a :: as =>
    match a.frames[l]? with
    | none => f.returns value
    | some x =>
      let kept := if x.value then a.stack.take 1 else []
      let a1 := { a with stack := kept ++ a.stack.drop (a.stack.length - x.h), frames := if x.loop then a.frames.drop l else a.frames.drop (l + 1),
                         off := x.target }
      .goes { f with acts := a1 :: as } []

/-- Open a frame. -/
def NFibre.opens (f : NFibre) (x : NOpen) (off : Nat) (stack : List DWord) : NFibre :=
  match f.acts with
  | [] => f
  | a :: as => { f with acts := { a with off := off, stack := stack, frames := x :: a.frames } :: as }

/-- Call a function: its parameters come from the stack, and its other locals hold free values. -/
def NFibre.calls (f : NFibre) (fn : NFunc) (i ret : Nat) (stack : List DWord) : NFibre :=
  match f.acts with
  | [] => f
  | a :: as =>
    let np := fn.param.length
    let nl := fn.local_.length
    let first := fn.code + np + fn.res.toList.length + nl
    let rest := (List.range nl).map (fun j => dwordOf (Config.freeWord (f.free + 2 * j)) (Config.freeWord (f.free + 2 * j + 1)))
    { acts := ⟨i, first, [], [], (stack.take np).reverse ++ rest⟩ :: { a with off := ret, stack := stack.drop np } :: as, free := f.free + 2 * nl }

/-! ### Ops that a native instruction performs (R374 to R376) -/

/-- Control bits of a translated instruction: no predicate, the first counter. -/
def nCtl : Ctl := ⟨0, 1, false, 7⟩

/-- The access size of some bytes. -/
def nSize (n : Nat) : Size := match n with | 1 => .n8 | 2 => .n16 | 4 => .n32 | _ => .n64

/-- The operand of a memarg: the address is a pair under GLOBAL with record 0 (R375). -/
def nOperand (sp brec off n : Nat) : MemOp :=
  ⟨match sp with | 0 => .global (BitVec.ofNat 12 brec) | 1 => .vault | _ => .pool, 4, BitVec.ofNat 13 (off / n)⟩

/-- An op that loads. -/
def nLoad (sp brec off n : Nat) (addr : DWord) : NPerform :=
  ⟨.ld nCtl (nSize n) (nOperand sp brec off n) 8, [(4, decide (sp = 0) && decide (brec = 0), addr)], [], [(8, decide (n = 8))]⟩

/-- An op that stores. -/
def nStore (sp brec off n : Nat) (addr v : DWord) : NPerform :=
  ⟨.st nCtl (nSize n) (nOperand sp brec off n) 8, [(4, decide (sp = 0) && decide (brec = 0), addr), (8, decide (n = 8), v)], [], []⟩

/-- The special register of a selector (R144). -/
def nSreg (k : Nat) : NPerform := ⟨.srd ⟨0, 0, false, 7⟩ false ((sregOf k).getD .fid) 8, [], [], [(8, false)]⟩

/-- The operation of a reduction (R169). -/
def nXop (k : Nat) : XOp :=
  match k with | 0 => .iadd | 1 => .imin | 2 => .imax | 3 => .and | 4 => .or | 5 => .xor | 6 => .fadd | 7 => .fmin | _ => .fmax

/-- A cross-lane op (R158, R374). -/
def nCross (b xb : Nat) (xs : List DWord) : NPerform :=
  let x := xs.getD 0 0
  let one : List (Reg × Bool × DWord) := [(4, false, x)]
  let instr : Instr := match b with
    | 0xDA => .lxch nCtl .from false false .group 8 4 5
    | 0xDB => .vote nCtl .ballot false .group 8 0
    | 0xDC => .matchx nCtl false .group 8 4
    | 0xDD => .xred nCtl (nXop (xb % 16)) (xb.testBit 5) .group 8 4
    | _ => .xscan nCtl (nXop (xb % 16)) (xb.testBit 5) (xb.testBit 4) .group 8 4
  ⟨instr, if b = 0xDA then [(4, false, x), (5, false, xs.getD 1 0)] else if b = 0xDB then [] else one, if b = 0xDB then [(0, decide (nVal false x ≠ 0))] else [],
    [(8, false)]⟩

/-- The register that stands for a role. -/
def roleReg (i : Nat) : Reg := BitVec.ofNat 8 (4 * (i + 1))

/-- The native instruction of a descriptor (R376) on its operands, the deepest first; none where its word is no instruction. -/
def nNative (x : Nat) (xs : List DWord) : Option NPerform :=
  let roles := (List.range 4).map (fun i => (i, field x (67 + 4 * i) (64 + 4 * i)))
  let regs := (roles.filter (fun r => decide (r.2 ≠ 0))).map (fun r => (roleReg r.1).toNat * 2 ^ (37 - 8 * r.1))
  let word : Nat := field x 63 0 + 0x2E00000000000 + regs.foldl (· + ·) 0
  let pops := roles.filter (fun r => [1, 2, 5, 6, 7, 8].contains r.2)
  let pushes := roles.filter (fun r => decide (3 ≤ r.2))
  match decodeWord (BitVec.ofNat 64 word) with
  | .ok i => some ⟨i, List.zipWith (fun (r : Nat × Nat) v => (roleReg r.1, [2, 6, 7].contains r.2, v)) pops xs, [],
      pushes.map (fun r => (roleReg r.1, [4, 6, 8].contains r.2))⟩
  | .error _ => none

/-! ### One op (R374, R377) -/

/-- What a section holds as it runs. -/
structure NCode where
  bs    : List Byte
  head  : NbcHead
  funcs : List NFunc
deriving DecidableEq, Repr

/-- The values an op of some types pops, the deepest first, and the stack below. -/
def nTake (stack : List DWord) (n : Nat) : List DWord × List DWord := ((stack.take n).reverse, stack.drop n)

/-- The effect of the op at which a fibre stands. -/
def NCode.step (c : NCode) (f : NFibre) : NEffect :=
  match f.acts with
  | [] => .ends
  | a :: as =>
    let bs := c.bs
    let off := a.off
    let b := (bs.getD off 0).toNat
    let next := opNext bs off
    let fn := c.funcs.getD a.func ⟨[], none, [], 0, 0⟩
    let fuel := fn.len + 1
    let st := a.stack
    let top := st.headD 0
    let imm := (ulebVal bs (off + 1)).1
    let pt := (bs.getD (off + 1) 0).toNat
    let ret := fn.res.isSome
    let enter (stack : List DWord) : NEffect :=
      .goes (f.opens ⟨decide (b = 0x03), if b = 0x03 then next else seekEnd bs false fuel 0 next, stack.length, decide (b ≠ 0x03) && decide (pt ≠ 0x40)⟩ next stack) []
    let call (i : Nat) (stack : List DWord) : NEffect :=
      match c.funcs[i]? with | some g => .goes (f.calls g i next stack) [] | none => .illegal
    let sig := (plainOp b).orElse (fun _ => (nTy pt).bind (packedOp b))
    let store := match memOp b with | some (_, _, w) => w | none => decide (b = 0x3B)
    match sig, (if b = 0x2D || decide (b = 0x3B) then some 4 else (memOp b).map (·.1)) with
    | some (ins, _), _ =>
      let r := nTake st ins.length
      if b = 0xDA || decide (b = 0xDB) || decide (b = 0xDC) then .performs (nCross b 0 r.1) (f.next next r.2)
      else (match valueOp b pt r.1 with
        | some v => .goes (f.next next (v.1.reverse ++ r.2)) v.2
        | none => .illegal)
    | none, some n =>
      let m := memargVal bs (if b = 0x2D || decide (b = 0x3B) then off + 2 else off + 1)
      if store then .performs (nStore m.1 m.2.1 m.2.2.1 n ((st.drop 1).headD 0) top) (f.next next (st.drop 2))
      else .performs (nLoad m.1 m.2.1 m.2.2.1 n top) (f.next next (st.drop 1))
    | none, none =>
      match b with
      | 0x00 => .trap
      | 0x02 | 0x03 => enter st
      | 0x04 =>
        if nVal false top ≠ 0 then enter (st.drop 1)
        else
          let other := seekEnd bs true fuel 0 next
          let done := seekEnd bs false fuel 0 next
          if other = done then .goes (f.next done (st.drop 1)) []
          else .goes (f.opens ⟨false, done, (st.drop 1).length, decide (pt ≠ 0x40)⟩ other (st.drop 1)) []
      | 0x05 => f.branch 0 false
      | 0x0B =>
        (match a.frames with
        | [] => f.returns ret
        | _ :: fs => .goes { f with acts := { a with off := next, frames := fs } :: as } [])
      | 0x0C => f.branch imm ret
      | 0x0D => if nVal false top ≠ 0 then (f.next next (st.drop 1)).branch imm ret else .goes (f.next next (st.drop 1)) []
      | 0x0E =>
        let n := (ulebVal bs (off + 1)).1
        let i := min (nVal false top).toNat n
        (f.next next (st.drop 1)).branch (ulebVal bs (lebSkip bs (i + 1) (off + 1))).1 ret
      | 0x0F => f.returns ret
      | 0x10 => call imm st
      | 0x11 =>
        let i := (nVal false top).toNat
        if c.head.nct ≤ i then .dispatch else call (numAt bs (c.head.ct + 4 * i) 4) (st.drop 1)
      | 0x1A => .goes (f.next next (st.drop 1)) []
      | 0x1B => .goes (f.next next ((if nVal false top ≠ 0 then (st.drop 2).headD 0 else (st.drop 1).headD 0) :: st.drop 3)) []
      | 0x20 => .goes (f.next next (a.locals.getD imm 0 :: st)) []
      | 0x21 => .goes { f with acts := { a with off := next, stack := st.drop 1, locals := a.locals.set imm top } :: as } []
      | 0x22 => .goes { f with acts := { a with off := next, locals := a.locals.set imm top } :: as } []
      | 0x23 => .performs (nSreg pt) (f.next next st)
      | 0x41 => .goes (f.next next (nVal false (BitVec.ofInt 64 (slebVal bs (off + 1))) :: st)) []
      | 0x42 => .goes (f.next next (BitVec.ofInt 64 (slebVal bs (off + 1)) :: st)) []
      | 0x43 => .goes (f.next next (BitVec.ofNat 64 (numAt bs (off + 1) 4) :: st)) []
      | 0xDD | 0xDE =>
        let k := pt % 16
        if pt.testBit 5 && decide (k ≠ 1) && decide (k ≠ 2) then .illegal
        else .performs (nCross b pt [top]) (f.next next (st.drop 1))
      | 0xE0 =>
        let x := numAt bs (c.head.desc + 16 * imm) 16
        let r := nTake st (nDescSig x).1.length
        (match nNative x r.1 with | some p => .performs p (f.next next r.2) | none => .illegal)
      | _ => .illegal

end Sys2Proof.Machine
end

