-- ==== Sys2Proof/Tests/Slice0.lean ====
section
/-!
SUPPORT. Tests: words written out from the encodings of the spec, terms that the checks refuse, small runs, and for every statement with
hypotheses a state that meets them.
-/

namespace Sys2Proof.Tests

-- One theorem at a time: the kernel's evaluations need a deep stack each.
set_option Elab.async false

open Sys2Proof Sys2Proof.Machine

/-! ### States -/

/-- Control bits with no counter, and with SB1: STALL 0, not negated, P7. -/
def c0 : Ctl := ⟨0, 0, false, 7⟩
def c1 : Ctl := ⟨0, 1, false, 7⟩

/-- A part whose bundle in focus stands at the instruction. -/
def facing (i : Instr) : State := { State.reset.withFetchWord 64 (((encode i).map (·.toNat)).getD 0) with focus := some 3 }

/-- The part with its one fibre changed. -/
def fibre (s : State) (h : Fibre → Fibre) : State := s.modFibre 1 0 0 h

/-- The part with a register of its fibre set. -/
def reg (s : State) (r : Nat) (v : Word) : State := fibre s (fun f => { f with regs := f.regs.set r v })

/-- The part with its team changed. -/
def team (s : State) (h : Team → Team) : State := s.modTeam 1 h

/-- The leaf of a page at 1 GiB: valid, readable, writable and executable, of the ordering kind, cached or not (R176). -/
def leaf (ord : Nat) (cached : Bool) : Nat := 0x4000003B + 64 * ord + (if cached then 512 else 0)

/-- The part with a page table that maps the first 2^30 virtual addresses to that page. -/
def mapped (s : State) (ord : Nat) (cached : Bool) : State :=
  let table := memWriteN (memWriteN s.mem 0x10000 (leBytes 8 0x11001)) 0x11000 (leBytes 8 (leaf ord cached))
  { s with mem := table }

/-! ### The hypotheses of statements, as checks -/

/-- `Faces`, and apart from it the further checks of `Stands`, `Issues`, `Starts` and `Handled`. -/
def faces (s : State) (i : Instr) (w : Who) (c : Ctl) (t : Team) : Bool :=
  decide (s.who = some w) && decide (i.ctl = some c) && decide (s.team w.team = some t) && s.kills.isEmpty && !s.isHeld w &&
  (!c.counted || (groupsOf (s.performers w c)).all (fun g => !t.noRoom c.sbi.toNat g)) &&
  w.active.all (fun x => match s.fibre? w.team x.1 x.2 with | some f => decide (f.regs.length = t.kern.win) | none => false) &&
  decide w.active.Nodup

theorem faces_sound {s : State} {i : Instr} {w : Who} {c : Ctl} {t : Team} (h : faces s i w c t = true) : Faces s i w c t := by
  unfold faces at h
  simp only [Bool.and_eq_true, Bool.or_eq_true, Bool.not_eq_true', List.all_eq_true, decide_eq_true_eq, List.isEmpty_iff] at h
  obtain ⟨⟨⟨⟨⟨⟨⟨hw, hc⟩, ht⟩, h1⟩, h2⟩, h3⟩, h4⟩, h5⟩ := h
  refine ⟨hw, hc, ht, h1, h2, fun hk g hg => ?_, fun x hx => ?_, h5⟩
  · rcases h3 with h3 | h3
    · rw [h3] at hk; cases hk
    · exact h3 g hg
  · have := h4 x hx
    split at this
    · rename_i f hf; exact ⟨f, hf, by simpa using this⟩
    · cases this

def whoOf (s : State) : Who := s.who.getD ⟨0, 0, 0, 0, 0, 0, 0, 0, [], [], []⟩
def ctlOf (i : Instr) : Ctl := i.ctl.getD c0
def teamOf (s : State) : Team := (s.team (whoOf s).team).getD (Team.probe 0 0)

/-- The state faces the instruction, and fibres perform it. -/
def stands (s : State) (i : Instr) : Bool :=
  faces s i (whoOf s) (ctlOf i) (teamOf s) && !s.illegal i (whoOf s) && !(s.performers (whoOf s) (ctlOf i)).isEmpty

def issues (s : State) (i : Instr) : Bool :=
  stands s i && (s.performers (whoOf s) (ctlOf i)).all (fun x => (s.verdict i (ctlOf i) (teamOf s) (whoOf s) x).isNone)

def inOrder (s : State) (i : Instr) : Bool := (s.performers (whoOf s) (ctlOf i)).all (fun x =>
  decide ((s.fibre (whoOf s).team x.1 x.2).order = 0) && (s.fibre (whoOf s).team x.1 x.2).loads.isEmpty)

def awake (s : State) : Bool := (whoOf s).active.all (fun x => decide ((s.fibre (whoOf s).team x.1 x.2).wait = none))

def starts (s : State) (i : Instr) : Bool := issues s i && awake s && decide ((teamOf s).kern.dx = none) && inOrder s i

def handled (s : State) (i : Instr) : Bool :=
  (teamOf s).kern.trapoff.isSome && (s.performers (whoOf s) (ctlOf i)).all (fun x => !(s.fibre (whoOf s).team x.1 x.2).h) && awake s

theorem stands_sound {s : State} {i : Instr} (h : stands s i = true) :
    Stands s i (whoOf s) (ctlOf i) (teamOf s) ∧ s.performers (whoOf s) (ctlOf i) ≠ [] := by
  simp only [stands, Bool.and_eq_true, Bool.not_eq_true'] at h
  exact ⟨⟨faces_sound h.1.1, h.1.2⟩, fun e => by rw [e] at h; exact absurd h.2 (by decide)⟩

theorem issues_sound {s : State} {i : Instr} (h : issues s i = true) :
    Issues s i (whoOf s) (ctlOf i) (teamOf s) ∧ s.performers (whoOf s) (ctlOf i) ≠ [] := by
  simp only [issues, Bool.and_eq_true, List.all_eq_true, Option.isNone_iff_eq_none] at h
  exact ⟨⟨(stands_sound h.1).1, h.2⟩, (stands_sound h.1).2⟩

theorem awake_sound {s : State} (h : awake s = true) : ∀ x ∈ (whoOf s).active, (s.fibre (whoOf s).team x.1 x.2).wait = none := by
  simpa [awake] using h

theorem starts_sound {s : State} {i : Instr} (h : starts s i = true) :
    Starts s i (whoOf s) (ctlOf i) (teamOf s) ∧ s.inOrder (whoOf s) (ctlOf i) ∧ s.performers (whoOf s) (ctlOf i) ≠ [] := by
  simp only [starts, Bool.and_eq_true, decide_eq_true_eq] at h
  refine ⟨⟨(issues_sound h.1.1.1).1, awake_sound h.1.1.2, h.1.2⟩, ?_, (issues_sound h.1.1.1).2⟩
  simpa [inOrder, State.inOrder] using h.2

theorem handled_sound {s : State} {i : Instr} (h : handled s i = true) : Handled s (whoOf s) (ctlOf i) (teamOf s) := by
  simp only [handled, Bool.and_eq_true, List.all_eq_true, Bool.not_eq_true'] at h
  exact ⟨h.1.1, h.1.2, awake_sound h.2⟩

/-- What a fibre's operand resolves to; the vault's first byte where it does not. -/
def targetOf (s : State) (sp : Space) (a : Reg) (disp : Int) (size : Nat) (perm : RecPerm) (acc : Acc) (x : Nat × Nat) : Target :=
  match s.resolve (teamOf s) x.1 (s.fibre (whoOf s).team x.1 x.2) (whoOf s).pos sp a disp size perm acc with
  | .ok v => v
  | _ => .vault 0 0

/-- `Reaches` with the targets so found. -/
def reaches (s : State) (i : Instr) (sp : Space) (a : Reg) (disp : Int) (size : Nat) (perm : RecPerm) (acc : Acc) (write : Bool)
    (turn : Turn := noTurn) : Bool :=
  let u := (whoOf s).by (s.performers (whoOf s) (ctlOf i))
  let tgt := targetOf s sp a disp size perm acc
  inOrder s i && !(s.performers (whoOf s) (ctlOf i)).isEmpty && !s.poolAway u (teamOf s) sp a disp &&
  (s.performers (whoOf s) (ctlOf i)).all (fun x =>
    decide (s.resolve (teamOf s) x.1 (s.fibre (whoOf s).team x.1 x.2) (whoOf s).pos sp a disp size perm acc = .ok (tgt x))) &&
  (s.hostLines (teamOf s) perm (s.found (whoOf s) (ctlOf i) tgt) write).isEmpty && !turn (teamOf s) (s.found (whoOf s) (ctlOf i) tgt) u s

theorem reaches_sound {s : State} {i : Instr} {sp : Space} {a : Reg} {disp : Int} {size : Nat} {perm : RecPerm} {acc : Acc} {write lax : Bool} {turn : Turn}
    (h : reaches s i sp a disp size perm acc write turn = true) :
    Reaches s (whoOf s) (ctlOf i) (teamOf s) lax turn sp a disp size perm acc write (targetOf s sp a disp size perm acc) := by
  simp only [reaches, Bool.and_eq_true, Bool.not_eq_true', List.all_eq_true, decide_eq_true_eq, List.isEmpty_iff] at h
  obtain ⟨⟨⟨⟨⟨h1, h2⟩, h3⟩, h4⟩, h5⟩, h6⟩ := h
  have h7 : ∀ x ∈ s.performers (whoOf s) (ctlOf i), (s.fibre (whoOf s).team x.1 x.2).order = 0 ∧ (s.fibre (whoOf s).team x.1 x.2).loads = [] := by
    simpa [inOrder] using h1
  exact ⟨fun e => (by rw [e] at h2; exact absurd h2 (by decide)), fun x hx => ⟨(h7 x hx).1, .inr (h7 x hx).2⟩, h6, h3, h4, h5⟩

/-! ### Statements on register-only instructions: each of their instructions issues somewhere -/

theorem test_issues_IntegerArithmetic : ∀ i ∈ [Instr.iadd c0 .i64 true 4 6 8, .isub c0 .n32 true 3 4 5, .imul c0 .i32 false 1 1 1, .imulh c0 .n32 1 2 3,
    .imad c0 .i32 true 1 2 3 4, .imadw c0 .n32 254 2 3 4, .imin c0 .n64 2 4 6, .imax c0 .i32 255 254 253, .iabs c0 .i64 true 2 4, .ineg c0 .n32 true 2 4,
    .iaddi c0 .i32 false 2 4 0x800000], issues (facing i) i = true := by decide +kernel

theorem test_issues_IntegerDivision : ∀ i ∈ [Instr.idiv c0 .i32 3 1 2, .irem c0 .n32 3 1 2], issues (facing i) i = true ∧
    issues (reg (facing i) 2 0xFFFFFFFF) i = true := by decide +kernel

theorem test_issues_IntegerCompares : ∀ i ∈ [Instr.icmp c0 .lt .i64 7 4 6, .icmpi c0 .ge .n32 0 4 0xFFFFFF], issues (facing i) i = true := by
  decide +kernel

theorem test_issues_LogicAndShifts : ∀ i ∈ [Instr.and c0 .i64 2 4 6, .or c0 .n32 2 4 6, .xor c0 .i32 2 2 2, .not c0 .n64 2 4, .blut3 c0 .i32 0xF8 2 3 4 5,
    .lopi c0 .andn .i32 2 4 0x800000, .shl c0 .i64 2 4 6, .shr c0 .n32 2 4 6, .sar c0 .i32 2 4 6, .rol c0 .i32 2 4 6, .shi c0 .rol .i64 2 4 63],
    issues (facing i) i = true := by decide +kernel

theorem test_issues_BitFieldsAndCounts : ∀ i ∈ [Instr.bfx c0 .i32 2 1 3, .bfi c0 .n32 2 1 3, .popc c0 .i64 3 4, .clz c0 .n32 3 4, .ctz c0 .i64 3 4,
    .brev c0 .i64 2 4, .permb c0 1 2 3 4, .lea c0 .i64 7 8 8 3], (i.wellFormed = true → issues (facing i) i = true) := by decide +kernel

/-- The counts of leading and of trailing zeros that the statement asks for exist. -/
theorem test_counts (w : Nat → Bool) (m : Nat) : ∃ n ≤ m, (∀ i, i < n → w i = false) ∧ (n < m → w n = true) := by
  induction m with
  | zero => exact ⟨0, Nat.le_refl 0, fun i hi => absurd hi (by omega), fun h => absurd h (by omega)⟩
  | succ m ih =>
    obtain ⟨n, hn, ha, hb⟩ := ih
    by_cases h : n < m
    · exact ⟨n, by omega, ha, fun _ => hb h⟩
    · cases hw : w n
      · exact ⟨n + 1, by omega, fun i hi => (by
          rcases Nat.lt_or_ge i n with h1 | h1
          · exact ha i h1
          · rw [show i = n by omega]; exact hw), fun hx => absurd hx (by omega)⟩
      · exact ⟨n, by omega, ha, fun _ => hw⟩

theorem test_issues_SelectionAndMoves : ∀ i ∈ [Instr.nop c0, .sel c0 .i64 2 4 6 7 true, .plop c0 0x80 6 7 7 7, .mov c0 .n64 2 4, .movi c0 .w32 3 7,
    .movi c0 .s64 2 0x80000000, .movi c0 .z64 254 0], issues (facing i) i = true := by decide +kernel

/-- An index of 0 with the highest base that each form reaches in a window of 256. -/
theorem test_issues_RegisterByIndex : ∀ i ∈ [Instr.movxRd c0 false 3 1 255, .movxRd c0 true 4 1 254, .movxWr c0 false 1 255 3, .movxWr c0 true 1 254 4],
    issues (facing i) i = true ∧ (teamOf (facing i)).kern.win = 256 ∧ (teamOf (facing i)).scoreboard = false ∧
    ((facing i).fibre 1 0 0).get (whoOf (facing i)).pos 1 = 0 := by decide +kernel

theorem test_issues_SpecialRegisters : ∀ r ∈ [SReg.fid, .clpos, .lclk, .lclkh, .cyc, .win, .pw, .dtlen], ∀ i ∈ [Instr.srd c0 false r 6, .swr c0 3],
    issues (facing i) i = true := by decide +kernel

theorem test_issues_SpecialRegistersWide : ∀ r ∈ [SReg.lclk, .cyc, .tbase, .tpc, .tinst, .taddr], issues (facing (.srd c0 true r 6)) (.srd c0 true r 6) = true := by
  decide +kernel

/-- No modifier, and every modifier. -/
def m0 : FMods := ⟨false, false, false, false, false, false⟩
def mAB : FMods := ⟨true, true, true, true, false, false⟩
def mA : FMods := ⟨true, true, false, false, false, false⟩
def mAll : FMods := ⟨true, true, true, true, true, true⟩

theorem test_issues_FloatArithmetic : ∀ i ∈ [Instr.fadd c0 .f32 .rdn mAB 1 2 3, .fsub c0 .f16x2 .rne m0 1 1 1, .fmul c0 .bf16x2 .rup mAB 1 2 3,
    .ffma c0 .f32 .rz mAll 1 2 3 4, .fdot2 c0 .f16x2 .rne mAll 1 2 3 4], issues (facing i) i = true := by decide +kernel

theorem test_issues_FloatSelection : ∀ i ∈ [Instr.fmin c0 .f32 m0 1 2 3, .fmax c0 .bf16x2 mAB 1 2 3, .fcmp c0 .un .f16x2 m0 1 2 3 2, .fclass c0 .f16x2 mA 1 2],
    issues (facing i) i = true := by decide +kernel

theorem test_issues_FloatSingleOperand : ∀ i ∈ [Instr.frnd c0 .f32 .rup mA 1 2, .fscale c0 .f16x2 .rne mA 1 2 3, .fgetexp c0 .f32 mA 1 2, .fgetman c0 .bf16x2 m0 1 2],
    issues (facing i) i = true := by decide +kernel

/-- The exponents that the statement asks for exist. -/
theorem test_exponents (x : Dy) (h : x.m ≠ 0) : ∃ k, IsLog2 x k := by
  have hx : x.rat ≠ 0 := by
    unfold Dy.rat
    exact mul_ne_zero (by exact_mod_cast h) (by positivity)
  exact ⟨Int.log 2 |x.rat|, by exact_mod_cast Int.zpow_log_le_self (by norm_num) (abs_pos.2 hx), by
    exact_mod_cast Int.lt_zpow_succ_log_self (b := 2) (by norm_num) |x.rat|⟩

theorem test_issues_Conversions : ∀ i ∈ [Instr.cvt c0 .e5m2 .f32 .rz false 0 3 4, .cvt c0 .i64 .e4m3 .rne true 3 2 4, .cvt c0 .f32 .n64 .rne false 0 3 4,
    .pack c0 .e4m3 .rne true 3 4 6, .unpack c0 .f16x2 4 3], issues (facing i) i = true := by decide +kernel

theorem test_issues_SpecialFunctions : ∀ op ∈ [Special.rcp, .rsq, .sqrt, .ex2, .lg2, .sinpi, .cospi, .tanh],
    issues (facing (op.instr c0 .f16x2 mA 7 3)) (op.instr c0 .f16x2 mA 7 3) = true := by decide +kernel

theorem test_issues_FloatDivision : issues (facing (.fdiv c0 .f32 mAB 7 3 2)) (.fdiv c0 .f32 mAB 7 3 2) = true := by decide +kernel

theorem test_issues_RandomNumbers : ∀ u ∈ [true, false], issues (facing (.rand c0 u 25 22 23 24)) (.rand c0 u 25 22 23 24) = true := by decide +kernel

/-! ### Statements on sets of fibres -/

theorem test_starts_LaneExchange : ∀ i ∈ [Instr.lxch c1 .rot true true .group 2 4 6, .vote c1 .ballot true .path 3 7, .matchx c1 false .group 6 5,
    .elect c1 .path 6, .lanemap c1 .group 4, .lanemapRd c1 3, .active c1 3], starts (facing i) i = true := by decide +kernel

theorem test_starts_Reductions : ∀ i ∈ [Instr.xred c1 .fadd false .group 6 4, .xscan c1 .imin true true .path 3 4], starts (facing i) i = true ∧
    groupsOf ((facing i).performers (whoOf (facing i)) c1) = [0] := by decide +kernel

/-! ### Control -/

theorem test_issues_Transfers : ∀ i ∈ [Instr.bra c0 0x800000 true, .call c0 0x7FFFFF false, .lpad c0 7, .exit c0, .yield c0, .loop c0 10 5],
    issues (facing i) i = true ∧ issues (reg (facing i) 5 3) i = true ∧ ((facing i).fibre 1 0 0).depth < 255 ∧ ((facing i).fibre 1 0 0).nest < 3 := by
  decide +kernel

/-- A fibre in a loop of its own call. -/
def inLoop (s : State) : State := fibre s (fun f => { f with nest := 1, lc := [3, 0, 0], loops := [⟨8, 80, 0⟩] })

theorem test_issues_LoopExit : issues (inLoop (facing (.lbrk c0 false))) (.lbrk c0 false) = true ∧
    ((inLoop (facing (.lbrk c0 false))).fibre 1 0 0).loops[0]? = some ⟨8, 80, 0⟩ ∧ ((inLoop (facing (.lbrk c0 false))).fibre 1 0 0).depth = 0 := by
  decide +kernel

/-- The part mapped, with a dispatch table of one entry at address 0 that names a clause at 0x2000, which begins with a landing pad of every
kind; its fibre has been called from the clause before that. -/
def padded (i : Instr) : State :=
  let s := mapped (facing i) 0 true
  let t := memWriteN (memWriteN s.mem 0x40000000 (leBytes 8 0x2000)) 0x40002008 (leBytes 8 (((encode (.lpad c0 7)).map (·.toNat)).getD 0))
  fibre (team { s with mem := t } (fun t => { t with kern := { t.kern with dtlen := 1 } })) (fun f => { f with depth := 1, stack := [0x2000] })

/-- The places that the transfers of the statement ask for. -/
def landsAt (s : State) (kind : Nat) : Bool :=
  match s.fetchWord (teamOf s) 0 0x2008 with
  | .ok w => decide (w.toNat / 2 ^ 56 = 0x45) && decide (w.toNat / 2 ^ kind % 2 = 1)
  | _ => false

def dispatched (s : State) : Bool :=
  match s.xlate (teamOf s) 0 0 .read 2 with
  | .ok lf => decide (memNat s.mem lf.pa 8 = 0x2000) && decide (0 < (teamOf s).kern.dtlen)
  | _ => false

theorem test_issues_IndirectTransfers : ∀ i ∈ [Instr.brx c0 true 3, .callx c0 false 3, .ret c0 false], issues (padded i) i = true ∧
    landsAt (padded i) 0 = true ∧ landsAt (padded i) 1 = true ∧ landsAt (padded i) 2 = true ∧ dispatched (padded i) = true := by decide +kernel

/-- One lane is live and the others free; and every lane is live. -/
theorem test_issues_Spawns : issues (facing (.spawn c0 16 4 5)) (.spawn c0 16 4 5) = true ∧
    (facing (.spawn c0 16 4 5)).performers (whoOf (facing (.spawn c0 16 4 5))) c0 = [(0, 0)] ∧
    ((facing (.spawn c0 16 4 5)).fibre? 1 0 1).map (fun f => (f.live, f.busy)) = some (false, 0) := by decide +kernel

def crowded (s : State) : State := s.modGroup 1 0 (fun g => { g with fibres := g.fibres.map (fun f => { f with live := true }) })

theorem test_issues_SpawnsFull : issues (crowded (facing (.spawn c0 16 4 5))) (.spawn c0 16 4 5) = true := by decide +kernel

theorem test_issues_ControlFaults : ∀ e ∈ [(Instr.call c0 5 false, 255, 0), (.loop c0 5 1, 0, 3), (.lbrk c0 false, 0, 0), (.tret c0 0 false, 0, 0),
    (.tretSkip c0 255 true, 0, 0)],
    let s := fibre (facing e.1) (fun f => { f with depth := e.2.1, nest := e.2.2 })
    issues s e.1 = true ∧ handled s e.1 = true := by decide +kernel

theorem test_stands_SoftwareTraps : ∀ i ∈ [Instr.bkpt c0 7, .trap c0 0xFFF, .div64 c0 .i64 4 6 8, .rem64 c0 .n64 4 6 8, .mulh64 c0 .i64 4 6 8, .crcb c0 3 1 2 3],
    stands (facing i) i = true ∧ handled (facing i) i = true := by decide +kernel

/-- A word in a clause of another class, a register outside the window, and a read that no counter covers. -/
def misplaced : State := (facing (.iadd c0 .i32 false 3 1 2)).modBundle 3 (fun b => { b with cls := 4 })

theorem test_faces_FailedChecks : let i : Instr := .iadd c0 .i32 false 3 1 2
    faces misplaced i (whoOf misplaced) c0 (teamOf misplaced) = true ∧ misplaced.illegal i (whoOf misplaced) = true ∧ handled misplaced i = true := by
  decide +kernel

def narrow (i : Instr) : State :=
  fibre (team (facing i) (fun t => { t with kern := { t.kern with win := 16 } })) (fun f => { f with regs := f.regs.take 16, regs0 := f.regs0.take 16 })

theorem test_stands_FailedWindow : let i : Instr := .iadd c0 .i32 false 3 1 16
    stands (narrow i) i = true ∧ handled (narrow i) i = true ∧ (RName.v 16).outside (teamOf (narrow i)).kern.win = true ∧
    (RName.v 15).outside (teamOf (narrow i)).kern.win = false := by decide +kernel

def awaited (i : Instr) : State :=
  fibre (team (facing i) (fun t => { t with kern := { t.kern with sbchk := true } })) (fun f => { f with uncov := [(.v 2, 1)] })

theorem test_stands_FailedScoreboard : let i : Instr := .iadd c0 .i32 false 3 1 2
    stands (awaited i) i = true ∧ handled (awaited i) i = true ∧ (teamOf (awaited i)).scoreboard = true := by decide +kernel

/-- A fibre in its handler, trapped by TRAP at index 1 of a clause of three instructions. -/
def handling (i : Instr) : State :=
  fibre (facing i) (fun f => { f with h := true, frame := { Frame.reset with tpc := 0x0010000000001000, tcause := 12, count := 2 } })

theorem test_issues_TrapReturns : ∀ i ∈ [Instr.tret c0 0 false, .tretSkip c0 255 true], issues (handling i) i = true := by decide +kernel

/-- P7 negated: no fibre performs the instruction. -/
theorem test_stands_NothingPerformed : let i : Instr := .iadd ⟨0, 0, true, 7⟩ .i32 false 3 1 2
    faces (facing i) i (whoOf (facing i)) ⟨0, 0, true, 7⟩ (teamOf (facing i)) = true ∧ (facing i).illegal i (whoOf (facing i)) = false ∧
    (facing i).performers (whoOf (facing i)) ⟨0, 0, true, 7⟩ = [] := by decide +kernel

/-! ### Memory -/

/-- The part with bytes at an offset of its team's vault region, and at an address of the page that `mapped` maps. -/
def inVault (s : State) (off : Nat) (bs : List Byte) : State := s.vaultWrite 0 (98304 + off) bs
def inPage (s : State) (va : Nat) (bs : List Byte) : State := s.homeWrite (0x40000000 + va) bs

/-- The part in a deterministic grid of quantum 1,024. -/
def dx (s : State) : State := team s (fun t => { t with kern := { t.kern with dx := some 1024 } })

/-- Loads and stores at the last bytes of the vault region, in the pool window and on pages of every kind. -/
def accesses : List (Size × MemOp × Nat × Bool) :=
  [(.n32, ⟨.vault, 4, 0x1FFF⟩, 0, true), (.n128, ⟨.vault, 4, 0x1FFC⟩, 0, true), (.n8, ⟨.pool, 4, 0⟩, 0, true), (.n64, ⟨.global 0, 4, 8⟩, 0, true),
   (.n16, ⟨.global 0, 4, 8⟩, 1, true), (.n32, ⟨.global 0, 4, 0⟩, 2, false)]

def accessState (i : Instr) (e : Size × MemOp × Nat × Bool) : State := reg (mapped (facing i) e.2.2.1 e.2.2.2) 4 (if e.2.1.off.msb then 32768 else 64)

theorem test_reaches_Loads : ∀ e ∈ accesses, let i : Instr := .ld c1 e.1 e.2.1 8
    let s := accessState i e
    issues s i = true ∧ reaches s i e.2.1.space e.2.1.a (e.2.1.off.toInt * e.1.bytes) e.1.bytes .rd .read false plainTurn = true := by decide +kernel

theorem test_reaches_Stores : ∀ e ∈ accesses, let i : Instr := .st c0 e.1 e.2.1 8
    let s := accessState i e
    issues s i = true ∧ (teamOf s).kern.dx = none ∧ reaches s i e.2.1.space e.2.1.a (e.2.1.off.toInt * e.1.bytes) e.1.bytes .wr .write true plainTurn = true := by
  decide +kernel

/-- Accesses that complete at once: in the vault by a fibre that has stored nothing under the pool window, and on a page that is no SO page, a load there
of a line that the core holds. -/
theorem test_starts_LoadsAndStores : ∀ e ∈ [(Size.n32, MemOp.mk .vault 4 0x1FFF), (.n32, ⟨.global 0, 4, 16⟩)], ∀ i ∈ [Instr.ld c1 e.1 e.2 8, .st c0 e.1 e.2 8],
    let s := (accessState i (e.1, e.2, 1, true)).fill 0 (0x40000080 / 128) false
    let tgt := targetOf s e.2.space e.2.a (e.2.off.toInt * 4) 4 (if i = .ld c1 e.1 e.2 8 then .rd else .wr) (if i = .ld c1 e.1 e.2 8 then .read else .write)
    starts s i = true ∧ s.crossingsOf ((whoOf s).by (s.performers (whoOf s) (ctlOf i))) (isPool e.2.space) 4 (s.found (whoOf s) (ctlOf i) tgt) = [] ∧
    (match tgt (0, 0) with
      | .glob _ lf => !lf.trk && decide (lf.ord ≠ 0) && decide (s.objIf lf.trk 0 (lf.pa / 128) = none) && (s.hitOf 0 lf).isSome
      | .vault _ _ => decide (e.2.space = .vault)) = true := by decide +kernel

theorem test_reaches_DeterministicStores : let i : Instr := .st c1 .n32 ⟨.global 0, 4, 0⟩ 8
    let s := dx (mapped (facing i) 0 true)
    issues s i = true ∧ (teamOf s).kern.dx = some 1024 ∧ reaches s i (.global 0) 4 0 4 .wr .write true plainTurn = true := by decide +kernel

theorem test_reaches_MemoryUpkeep : ∀ i ∈ [Instr.cmaintWb c1 .n8 0 4 5, .cmaintWbinv c1 .n8 0 4 5, .cmaintWbmem c1 .n8 0 4 5],
    issues (mapped (facing i) 0 true) i = true ∧ reaches (mapped (facing i) 0 true) i (.global 0) 4 5 1 .rdOrWr .maint false = true ∧
    issues (dx (mapped (facing i) 0 true)) i = true ∧ reaches (dx (mapped (facing i) 0 true)) i (.global 0) 4 5 1 .rdOrWr .maint false = true := by
  decide +kernel

theorem test_starts_Fences : ∀ i ∈ [Instr.fence c1 .sc .system true, .fence c1 .rel .device false, .prefL2 c0 .n8 5 4 1, .prefL1 c0 .n128 0 4 1],
    starts (facing i) i = true := by decide +kernel

theorem test_issues_Prefetches : issues (dx (facing (.prefL1 c0 .n128 0 4 1))) (.prefL1 c0 .n128 0 4 1) = true := by decide +kernel

def k0 : ACtl := ⟨false, .device, .ar⟩

theorem test_reaches_RequestsToHomes : ∀ sp ∈ [Space.global 0, .vault, .pool], ∀ e ∈ [(Instr.atom c1 k0 .add .i32 sp 4 6, 4), (.atomn c1 k0 .max .n64 sp 4 6, 8),
    (.acas c1 k0 .n64 sp 4 8, 8), (.exsum c1 k0 sp 4 6, 64), (.excvt c1 k0 true true sp 4 6, 64)],
    let s := mapped (facing e.1) 0 true
    starts s e.1 = true ∧ reaches s e.1 sp 4 0 e.2 .at_ .rw true = true := by decide +kernel

theorem test_reaches_ExactReads : let i : Instr := .excvt c1 ⟨true, .system, .acq⟩ false false .vault 4 6
    starts (facing i) i = true ∧ reaches (facing i) i .vault 4 0 64 .at_ .read false = true := by decide +kernel

/-- The operands of lock instructions lie on a page that is not UO. -/
def onLockPage (s : State) (acc : Acc) : Bool := decide (noUo (targetOf s (.global 0) 4 0 128 .at_ acc (0, 0)) = .ok (targetOf s (.global 0) 4 0 128 .at_ acc (0, 0)))

theorem test_reaches_LockRequests : ∀ e ∈ [(Instr.llock c1 false 0 4 6, Acc.rw), (.ltry c1 true 0 4 6, .rw), (.lunlk c1 true 0 4 6, .rw), (.lstat c1 0 4 6, .read)],
    let s := mapped (facing e.1) 0 true
    starts s e.1 = true ∧ reaches s e.1 (.global 0) 4 0 128 .at_ e.2 false = true ∧ onLockPage s e.2 = true := by decide +kernel

/-- An ACPY from the vault and one from memory. -/
theorem test_issues_Copies : ∀ src ∈ [ASrc.vault, .global 0], let i : Instr := .acpy c1 .n128 src 4 6 8
    let s := mapped (facing i) 0 true
    issues s i = true ∧ inOrder s i = true ∧ issues (dx s) i = true ∧ inOrder (dx s) i = true ∧
    (match s.acpyOf ((whoOf s).by (s.performers (whoOf s) c1)) (teamOf s) 0 0 16 src 4 6 8 with
      | .ok (_, page) => decide (s.hostLines (teamOf s) .rd (page.toList.map (fun p => (0, 0, p))) false = []) | _ => false) = true := by decide +kernel

/-- The leader of the instruction's fibres. -/
def leads (s : State) (i : Instr) : Option (Nat × Nat) := ((whoOf s).by (s.performers (whoOf s) (ctlOf i))).leader

def isOk {α : Type} (r : Res α) : Bool := match r with | .ok _ => true | _ => false

/-- An MCPY of no bytes, and one of 64 bytes to one member. -/
theorem test_issues_TileCopies : let i : Instr := .mcpy c1 0 4 6 8
    let s := mapped (facing i) 0 true
    let r := reg (inPage s 0 (leBytes 64 (64 * 2 ^ 128 + 2 ^ 256))) 8 1
    issues s i = true ∧ inOrder s i = true ∧ leads s i = some (0, 0) ∧ isOk (s.mcpyOf (whoOf s) (teamOf s) (0, 0) 0 4 6 8) = true ∧
    (match r.mcpyOf (whoOf r) (teamOf r) (0, 0) 0 4 6 8 with | .ok (.mcpy _ _ n _ m _) => decide (n = 64) && decide (m = 1) | _ => false) = true := by
  decide +kernel

theorem test_reaches_TransactionBarriers : ∀ pool ∈ [true, false], ∀ step ∈ [0, 2, 5], ∀ i ∈ [Instr.tbarInit c1 pool 3 2047 4, .tbarArrive c1 pool 3 2047,
    .tbarArriveSect c1 pool 3 2047 4, .tbarSect c1 pool 3 2047 4, .tbarTest c1 pool 3 2047 5],
    starts (facing i) i = true ∧ reaches (facing i) i (tbarSpace pool) 3 (2047 * 16) 16 .rd .read false (bankTurn step) = true := by decide +kernel

theorem test_reaches_Waits : ∀ i ∈ [Instr.tbarWait c1 false 3 2047 4, .mxwait c1 4, .taskseqWait c1 4 6, .waitc c1 .ltu false 0 4 6],
    starts (mapped (facing i) 0 true) i = true := by decide +kernel

theorem test_reaches_BarrierWaits : let i : Instr := .tbarWait c1 false 3 2047 4
    reaches (facing i) i (tbarSpace false) 3 (2047 * 16) 16 .rd .read false (bankTurn 5) = true := by decide +kernel

theorem test_reaches_Monitors : let i : Instr := .waitc c1 .ltu false 0 4 6
    reaches (mapped (facing i) 0 true) i (.global 0) 4 0 4 .at_ .read false = true := by decide +kernel

theorem test_starts_Barriers : ∀ i ∈ [Instr.bar c1 .add false true 15 4 5 6, .cbar c1 .sync true false 3 0 0 0], starts (facing i) i = true := by decide +kernel

/-! ### The matrix engine -/

/-- The part with four banks of vault for its team, an MXM descriptor of one element at offset 0, and an MXST descriptor at 64. -/
def described (i : Instr) : State :=
  let s := team (facing i) (fun t => { t with kern := { t.kern with vbanks := 4 } })
  inVault (inVault s 0 (leBytes 64 (1 + 2 ^ 16 + 2 ^ 32 + 0x12 * 2 ^ 48 + 0x12 * 2 ^ 56 + 2 ^ 256))) 64 (leBytes 32 (0x10 * 2 ^ 64 + 2 ^ 160 + 2 ^ 168))

def engineFree (s : State) : Bool := decide ((s.core 0).eng.holder = none) && decide ((s.core 0).eng.reserved = none) && decide ((s.core 0).eng.queue.length < 16)

theorem test_starts_MatrixQueue : ∀ i ∈ [Instr.mxldZero c1 true false 4, .mxldFill c1 false true 4 5, .mxldRestore c1 true true 4 6 0, .mxm c1 4 6 0, .mxst c1 false 4 6 2],
    starts (described i) i = true ∧ leads (described i) i = some (0, 0) ∧ engineFree (described i) = true ∧
    (teamOf (described i)).vaultOk 0 122880 = true ∧ isOk ((described i).mxmOf (teamOf (described i)) 0) = true ∧
    isOk ((described i).mxstOf (teamOf (described i)) 0 false 64) = true := by decide +kernel

theorem test_starts_MatrixState : ∀ i ∈ [Instr.mstat c1 false 8 4, .mstat c1 true 3 4, .mstat c1 true 8 4, .sshape c1 7 4, .sshapeRd c1 7 4],
    let s := reg (reg (facing i) 4 0x77174174) 5 0x21
    starts s i = true ∧ leads s i = some (0, 0) ∧ (teamOf s).swamp.length = 4 ∧ sumShapeBad 0x2177174174 = false := by decide +kernel

/-- A stream descriptor of one tile, whose shape is an empty tile of I8 at address 0. -/
def streamed (i : Instr) : State := inPage (inVault (mapped (facing i) 0 true) 0 (leBytes 32 (2 ^ 96))) 0 [0, 0, 0, 1]

theorem test_starts_Streams : ∀ i ∈ [Instr.strmOpen c1 6 4, .strmSub c1 1 6 4 5, .strmUnsub c1 4, .strmClose c1 4],
    starts (streamed i) i = true ∧ leads (streamed i) i = some (0, 0) ∧ engineFree (streamed i) = true ∧
    isOk ((streamed i).strmOf (teamOf (streamed i)) 1 0 0) = true ∧ fget ((streamed i).die 0).streams 0 = none := by decide +kernel

def taken (s : State) : State := s.modCore 0 (fun c => { c with eng := { c.eng with holder := some (.team 9) } })
def reserved (s : State) : State := s.modCore 0 (fun c => { c with eng := { c.eng with reserved := some 9 } })
def crammed (s : State) : State := s.modCore 0 (fun c => { c with eng := { c.eng with queue := List.replicate 16 ⟨1, .zero true false, none⟩ } })

theorem test_starts_EngineBusy : ∀ i ∈ [Instr.mxldZero c1 true false 4, .mxldFill c1 false true 4 5, .mxldRestore c1 true true 4 6 0, .mxm c1 4 6 0, .mxst c1 false 4 6 2,
    .strmSub c1 1 6 4 5, .strmUnsub c1 4],
    starts (taken (facing i)) i = true ∧ starts (reserved (facing i)) i = true ∧ starts (crammed (facing i)) i = true ∧
    ((crammed (facing i)).core 0).eng.queue.length = 16 := by decide +kernel

/-! ### System instructions -/

theorem test_issues_Capabilities : let i : Instr := .caps c0 2 1 4
    issues (facing i) i = true ∧ issues (reg (facing i) 1 1) i = true ∧ handled (reg (facing i) 1 1) i = true ∧
    (facing i).performers (whoOf (facing i)) c0 = [(0, 0)] := by decide +kernel

theorem test_starts_EventLog : ∀ i ∈ [Instr.elogSync c1, .elogCnt c1 6, .elogPut c1 4 5], starts (facing i) i = true ∧ leads (facing i) i = some (0, 0) := by
  decide +kernel

/-- The context without its privilege. -/
def unprivileged (s : State) : State := { s with ctxs := fmod s.ctxs 0 (fun c => { c with priv := false }) }

theorem test_starts_TranslationsLeave : ∀ i ∈ [Instr.tlbiAll c1, .tlbiVa c1 4, .tlbiPart c1], starts (facing i) i = true ∧
    (facing i).flying ((facing i).inScope true (teamOf (facing i))) = [] ∧ ((facing i).core 0).l1 = [] ∧
    faces (unprivileged (facing i)) i (whoOf (facing i)) c1 (teamOf (facing i)) = true ∧ handled (unprivileged (facing i)) i = true ∧
    ((unprivileged (facing i)).ctxOf (teamOf (facing i))).priv = false := by decide +kernel

/-- The partition holds all cores of die 0: cores 0 and 71 are victims, 72 is none. -/
def committed (s : State) : State := s.modPart 0 (fun p => { p with live := some ((2 ^ 15 + 7 * 16 + 8) * 2 ^ 224) })

theorem test_starts_RemoteAcquire : let i : Instr := .acqr c1 true 4
    let s := committed (facing i)
    starts s i = true ∧ handled s i = true ∧ s.victimBad (teamOf s) 0 = false ∧ s.victimBad (teamOf s) 71 = false ∧ starts (reg s 4 72) i = true ∧
    s.victimBad (teamOf s) 72 = true := by decide +kernel

/-- A record to post in the vault; queue 0 is of the team's partition, and there is no queue 256. -/
theorem test_starts_TaskQueues : let i : Instr := .taskpost c1 8 4 5 0
    let s := mapped (facing i) 0 true
    starts s i = true ∧ leads s i = some (0, 0) ∧
    (match s.postOf (teamOf s) 0 0 0 with | .ok (.write q slot lf _) => decide (q = 0) && decide (slot = 0) && decide (lf.pa = 0x40000000) | _ => false) = true ∧
    s.postOf (teamOf s) 0 0 256 = .ok (.status 1) ∧ starts (facing (.taskseq c1 4 6)) (.taskseq c1 4 6) = true := by decide +kernel

/-- A communicator of one rank at address 0, and an all-gather of no elements. -/
def gathering (i : Instr) : State :=
  let s := inPage (inVault (mapped (facing i) 0 true) 0 (leBytes 64 (2 + 0x10 * 2 ^ 16))) 0 [1]
  s.modPart 0 (fun p => { p with cmlen := 1 })

theorem test_starts_CollectivesAndGrids : let i : Instr := .coll c1 6 4 0
    starts (gathering i) i = true ∧ leads (gathering i) i = some (0, 0) ∧ isOk ((gathering i).collOf (teamOf (gathering i)) 1 0 0) = true ∧
    ((gathering i).die 0).colls.length = 0 ∧ starts (facing (.dxsync c1 4)) (.dxsync c1 4) = true := by decide +kernel

theorem test_starts_ObjectInstructions : ∀ i ∈ [Instr.protld c1 4 6 4, .objdecl c1 4 6 4, .objrel c1 6 4],
    let s := mapped (facing i) 0 true
    starts s i = true ∧ leads s i = some (0, 0) ∧ isOk (s.protOf (teamOf s) 0 0) = true ∧ isOk (s.declOf (teamOf s) 0 0) = true ∧
    (s.obj 0).v = false := by decide +kernel

theorem test_issues_DeterministicWaits : ∀ i ∈ [Instr.atom c1 k0 .add .i32 .vault 4 6, .bar c1 .sync false false 0 0 0 0, .dxsync c1 4, .llock c1 false 0 4 6],
    issues (dx (facing i)) i = true ∧ inOrder (dx (facing i)) i = true ∧ (commitSplit i).isSome = true := by decide +kernel

theorem test_issues_DeterministicFences : let i : Instr := .fence c1 .sc .system true
    issues (dx (facing i)) i = true ∧ inOrder (dx (facing i)) i = true := by decide +kernel

theorem test_issues_GridQueries : ∀ sel ∈ [0, 1, 2, 3], let i : Instr := .dxq c1 sel 4
    issues (facing i) i = true ∧ issues (dx (facing i)) i = true ∧ (fget (facing i).grids 2).isSome = true ∧ (teamOf (facing i)).grid = 2 := by decide +kernel

/-! ### Events -/

def alive (s : State) : Bool := !s.tripped && s.kills.isEmpty

theorem alive_sound {s : State} (h : alive s = true) : s.Alive := by
  simp only [alive, Bool.and_eq_true, Bool.not_eq_true', List.isEmpty_iff] at h
  exact ⟨h.1, h.2⟩

/-- A team whose one group has no bundle, at a clause at address 0 whose words a page holds: a header, a NOP and an EXIT. -/
def base : State :=
  let s := mapped (facing (.nop c0)) 0 true
  let word (i : Instr) : List Byte := leBytes 8 (((encode i).map (·.toNat)).getD 0)
  let s1 := inPage (inPage (inPage s 0 (leBytes 8 0x5A02000000000000)) 8 (word (.nop c0))) 16 (word (.exit c0))
  { s1.modGroup 1 0 (fun g => { g with bundle := 0 }) with bundles := [], focus := none }

/-- The team of that part. -/
def teamHere (s : State) : Team := (s.team 1).getD (Team.probe 0 0)

def group (s : State) (h : Group → Group) : State := s.modGroup 1 0 h

/-- The part after some clocks. -/
def later (s : State) (d : Nat) : State := { s with now := s.now + d, parts := fset s.parts 0 { s.part 0 with cyc16 := 16 * d } }

theorem test_event_BundleSeed : alive base = true ∧ base.ready (teamHere base) 0 = true ∧
    base.pick 0 0 0 = some (.event (.bundleSeed 1 0)) ∧
    ((base.group 1 0).map (fun g => (g.paths.length, g.skip))) = some (1, false) := by decide +kernel

def seeded : State := { base with bundles := [(9, ⟨1, 0, 0, 0, 0, [(0, 1)], false, 0, [], 0, 0, 0, true, false, [], []⟩)] }

theorem test_event_ClauseFetch : seeded.fetchWord (teamHere base) 0 0 = .ok 0x5A02000000000000 ∧ hdrCount 0x5A02000000000000 = 1 ∧
    (∀ k ∈ [0, 1], isOk (seeded.fetchWord (teamHere base) 0 (8 + 8 * k)) = true) ∧
    clauseBad 0x5A02000000000000 [0, 0x4900E00000000000] = false := by decide +kernel

theorem test_event_ClauseBoundary : let s := facing (.nop c0)
    let r := s.modBundle 3 (fun b => { b with idx := 1 })
    alive r = true ∧ ((fget r.bundles 3).map (fun b => (b.fetched, decide (b.words.length ≤ b.idx), r.lockPending b))) = some (true, true, false) := by
  decide +kernel

theorem test_event_FairnessTimerExpiry : let s := group base (fun g => { g with paths := [⟨0, 0, 0, 1, .ready⟩, ⟨24, 0, 0, 2, .ready⟩], timer := 512 })
    alive s = true ∧ ((s.group 1 0).map (fun g => (g.bundle, g.timer, g.paths.length))) = some (0, 512, 2) ∧
    (s.team 1).map (fun t => (t.kern.fairq, t.status)) = some (512, .resident) := by decide +kernel

theorem test_event_ReadyButWaiting : let s := later base 512
    alive s = true ∧ s.ready (teamHere base) 0 = true ∧ s.coreNow 1 = 512 ∧ (s.group 1 0).map (fun g => (g.readyAt, g.due)) = some (0, none) := by
  decide +kernel

theorem test_event_EventRecordExpiry : let s := later (group base (fun g => { g with event := some ⟨4, 0, 1, 0⟩ })) 1024
    alive s = true ∧ (s.group 1 0).map (fun g => g.event.map (fun e => decide (e.opened + 1024 ≤ s.now))) = some (some true) := by decide +kernel

/-- A cross-lane instruction at index 0 whose whole set is parked. -/
theorem test_event_XlnExitCompletion : let s := group base (fun g => { g with paths := [⟨0, 0, 0, 1, .parked 1 0x6600E0C000000000 1⟩] })
    alive s = true ∧ (s.group 1 0).map (fun g => g.completeSet.isSome) = some true ∧ decodeWord 0x6600E0C000000000 = .error .field ∧
    decodeWord 0x6602E0C000000000 = .ok (.active c1 6) := by decide +kernel

theorem test_event_OperationComplete : let s := { base with ops := [(7, ⟨1, 0, 1, [], [0], [(0, .v 6, 5)], none, []⟩)] }
    alive s = true ∧ ((fget s.ops 7).map (fun o => (o.left, o.team, o.grp))) = some ([], 1, 0) := by decide +kernel

/-- A miss that waits for room in an enabled ring, and one that has been posted under tag 5. -/
def missing : State := base.modDie 0 (fun d => { d with fqen := true, fqwait := [⟨4, .walk 0, List.replicate 32 0⟩], fqout := [⟨5, .walk 1, List.replicate 32 0⟩] })

theorem test_event_FaultQueue : alive missing = true ∧ (missing.die 0).fqwait.length = 1 ∧ (missing.die 0).fqen = true ∧
    (missing.die 0).fqwr - (missing.die 0).fqrd ≠ BitVec.ofNat 32 (2 ^ (missing.die 0).fqlog2) ∧
    ((missing.die 0).fqout.find? (fun k => decide (k.tag = 5))).isSome = true ∧ (missing.die 0).fqout.find? (fun k => decide (k.tag = 4)) = none := by
  decide +kernel

/-- Requests of every kind on their way to the home of one place. -/
def asking (k : ReqKind) : State := { base with reqs := [(8, ⟨1, 0, 7, k, false, false, 0, true, none⟩)] }

theorem test_event_RequestsAtHome : ∀ k ∈ [ReqKind.atom false .ar .device .add .i32 true (.mem 0x40000000) [(0, 6, 1), (31, 6, 2)],
    .acas false .rlx .team .n64 (.vault 0 98304) [(0, 6, 1, 2)], .exsum true .rel .system (.mem 0x40000040) [(0, 1)],
    .excvt false .acq .device false true (.vault 0 98304) [(3, 6)]],
    let r : Req := ⟨1, 0, 7, k, false, false, 0, true, none⟩
    alive (asking k) = true ∧ (asking k).mayBegin 8 r = true ∧ (asking k).atPart 8 = false ∧ (asking k).bunchOf r = [8] ∧
    (match k.place? with | some (pl, _) => ((asking k).trackedBy r pl).isNone | none => false) = true ∧ (asking k).hostBars (0x40000000 / 128) true = false := by
  decide +kernel

/-- A fibre that waits at a monitor whose word has been written, and whose time is over. -/
def watching : State :=
  fibre ({ asking (.acqr false 0 0 0) with slices := [(homeKey 0x40000000, { Slice.reset with mons := [⟨1, 0, 0x40000000, false, 0, true⟩] })] })
    (fun f => { f with wait := some (.monitor 0x40000000 .eq 5 (some 0) false 6 7) })

theorem test_event_Monitors : alive watching = true ∧ (watching.monOf 1 0 0x40000000).map (fun m => (m.table, m.woken)) = some (false, true) ∧
    (watching.fibre 1 0 0).wait = some (.monitor 0x40000000 .eq 5 (some 0) false 6 7) := by decide +kernel

/-- A group's load of one line at its slice, beside a lane that waits for another. -/
theorem test_event_LoadAtHome : let k : ReqKind := .load 1 true false 0x800000 4 6 [(0, 0x40000000)]
    let r : Req := ⟨1, 0, 7, k, false, false, 0, true, none⟩
    let s := { asking k with ops := [(7, ⟨1, 0, 1, [0, 1], [0, 1], [], none, []⟩)] }
    alive s = true ∧ s.reqs.filter (fun e => decide (e.2.op = 7) && e.2.kind.isLoad) = [(8, r)] ∧ fget s.reqs 8 = some r ∧ s.mayBegin 8 r = true ∧
    (fget ((s.beginReq 8 r).performLoad 8).ops 7).map (·.left) = some [1] := by decide +kernel

/-- A request that has yet to enter its slice's queue. -/
theorem test_event_SliceRequestEnqueue : let r : Req := ⟨1, 0, 7, .exsum true .rel .system (.mem 0x40000040) [(0, 1)], false, false, 0, false, none⟩
    let s := { base with reqs := [(8, r)] }
    alive s = true ∧ s.nextEntry (coreKey 0 0) = some (8, 0x800000) ∧ (s.queued (homeKey 0x40000000)).length < 64 := by decide +kernel

/-- A core that holds a dirty line of no object. -/
theorem test_event_HomeStorePerformed : let line : L1Line := ⟨0x800000, List.replicate 128 1, List.replicate 128 true, 0, false, none, false⟩
    let s := (asking (.acqr false 0 0 0)).modCore 0 (fun c => { c with l1 := [line] })
    alive s = true ∧ (s.core (coreKey 0 0)).line 0x800000 = some line := by decide +kernel

/-- A lock request and a release at the home of a line that no object holds. -/
theorem test_event_LockRequests : let page : LockPage := ⟨false, false, false⟩
    ∀ e ∈ [(ReqKind.lock false false 0x800000 page 5 [(0, 6)], 4), (.lock true true 0x800000 page 0 [(0, 6)], 4), (.unlock false 0x800000 page [(0, 6)], 1)],
    let k := e.1
    alive (asking k) = true ∧ (asking k).lockReady 8 ⟨1, 0, 7, k, false, false, 0, true, none⟩ 0x800000 e.2 = true ∧ (asking k).hostBars 0x800000 true = false ∧
    (asking k).objAny 0x800000 = none ∧
    ((asking k).group 1 0).map (fun g => (g.held, g.lwait)) = some ([], none) ∧ ((asking k).slice (homeKey (128 * 0x800000))).lockOf 0x800000 = none ∧
    ((asking k).slice (homeKey (128 * 0x800000))).freeLock = some 0 := by decide +kernel

/-- A wait on a lock whose time is over, that is due to probe, and that is absent. -/
def lockWait (absent : Bool) : State := group base (fun g => { g with lwait := some ⟨0x800000, false, ⟨false, false, false⟩, [(0, 6, 7)], absent, false, some 0, some 0, 64, []⟩ })

theorem test_event_LockWaits : alive (lockWait false) = true ∧ ((lockWait false).group 1 0).map (fun g => g.lwait.map (fun w => (w.key, w.absent, w.left, w.probe))) =
    some (some ([], false, some 0, some 0)) ∧ ((lockWait true).group 1 0).map (fun g => g.lwait.map (·.absent)) = some (some true) ∧
    (∀ k ≤ 4, (lockWait false).lockLate 0x800000 k = false) ∧
    (group (lockWait false) (fun g => { g with lwait := g.lwait.map (fun w => { w with left := some 5 }) })).nextProbe = some (1, 0, 0x800000) ∧
    ((lockWait true).team 1).map (lockWait true).away = some false ∧
    ((team base (fun t => { t with status := .saving false false })).team 1).map base.away = some true ∧
    ((team base (fun t => { t with status := .halted })).team 1).map base.away = some true ∧
    ((team base (fun t => { t with defer := some (0, 0) })).team 1).map (·.defer) = some (some (0, 0)) := by decide +kernel

/-- Copies and an operation of the engine, each ready for its next piece. -/
theorem test_event_Copies : ∀ k ∈ [CopyKind.acpy (.vault 0 98304) 98432 16 98560 (List.replicate 16 true) false, .mcpy 0 0 0 0 1 0],
    let s := base.modCore 0 (fun c => { c with copies := [(7, ⟨1, 0, 0, [8], k, 0, none, []⟩)] })
    alive s = true ∧ (fget (s.core (coreKey 0 0)).copies 7).map (·.kind) = some k ∧ (maskMembers 1).all (fun m => !s.memberAway (teamHere base) m) = true := by
  decide +kernel

theorem test_event_MatrixOps : ∀ k ∈ [MatKind.zero true false, .fill false true 0x3F800000, .restore false true 0, .store false (mxstDesc (0x10 * 2 ^ 64 + 2 ^ 160 + 2 ^ 168)),
    .mxm (mxmDesc (1 + 2 ^ 16 + 2 ^ 32 + 0x12 * 2 ^ 48 + 0x12 * 2 ^ 56 + 2 ^ 256)) 0x2177174174],
    let s := base.modCore 0 (fun c => { c with eng := { c.eng with holder := some (.team 1), queue := [⟨1, k, none⟩] } })
    alive s = true ∧ ((s.core 0).eng.queue.head?).map (·.kind) = some k ∧ ((s.core 0).eng.holder.bind s.region).isSome = true := by decide +kernel

/-- A collective that has not started, and one that has. -/
def collecting (started : Bool) : State :=
  base.modDie 0 (fun d => { d with colls := [⟨collDesc (2 + 0x10 * 2 ^ 16), 0, 0, none, 1, 0, 1, 0, 0, 0, 0, 0, none, started, none, none, 0, [], none⟩] })

theorem test_event_Collectives : alive (collecting false) = true ∧ ((collecting false).die 0).colls.length = 1 ∧
    (fget (collecting true).ctxs 0).isSome = true ∧ (((collecting true).die 0).colls.head?).map (fun c => (c.started, c.failed, c.paused)) = some (true, none, none) := by
  decide +kernel

/-- An object of one part, at slice 0 of die 0, whose entry awaits acknowledgements and whose queue holds a host's read. -/
def shared : State :=
  let part : ObjPart := ⟨1, 127, 0, [⟨.hostRead, 73, 0, 0, 0⟩], some (0, ⟨.hostRead, 73, 0, 0, 0⟩)⟩
  { base with objs := [(5, ⟨0, true, 0, 0, 0, 0, [0], false⟩)], slices := [(0, { Slice.reset with parts := [(5, part)], hostdir := [(0, false)] })],
              prots := List.replicate 8 (some (List.replicate 576 0)) }

theorem test_event_Objects : alive shared = true ∧ (shared.obj 5).v = true ∧ ((shared.obj 5).linesAt (sliceKey 0 0)) = [0] ∧
    ((shared.slice 0).hostdir.any (fun e => decide (e.1 = 0))) = true ∧ ((shared.objPart 0 5).second).isSome = true := by decide +kernel

/-- An object whose part may serve the host's read that heads its queue, and an atomic of a fibre that its queue holds. -/
theorem test_event_Parts : let o : Obj := ⟨0, true, 0, 0, 0, 0, [0x800000], false⟩
    let s (k : PReqKind) : State := { asking (.exsum true .rel .system (.mem 0x40000040) [(0, 1)]) with
      objs := [(5, o)], prots := List.replicate 8 (some (List.replicate 576 0)),
      slices := [(homeKey 0x40000000, { Slice.reset with parts := [(5, ⟨0, 127, 0, [⟨k, 73, 0, 0, 0x40000000⟩], none⟩)] })] }
    alive (s .hostRead) = true ∧ (s .hostRead).partNext (homeKey 0x40000000) 5 = some (0, ⟨.hostRead, 73, 0, 0, 0x40000000⟩) ∧
    (s .hostRead).hostFits ⟨.hostRead, 73, 0, 0, 0x40000000⟩ = true ∧ (s (.atom 8)).atPart 8 = true := by decide +kernel

theorem test_event_Host : alive base = true ∧ base.mileskDown = false ∧ base.deviceMem 0x40000000 64 = true ∧ base.deviceMem 0x40000000 1 = true ∧
    base.present 0xC000000000000 64 = true ∧ memKind 0xC000000000000 = some .host ∧ linesOf 0xC000000000000 64 = [0x180000000000] ∧
    ((base.die 0).incOf 3) ≠ 1 ∧ base.objAny 0x180000000000 = none := by decide +kernel

theorem test_event_Snoops : let s := { base with snoops := [0x800000] }
    alive s = true ∧ 0x800000 ∈ s.snoops ∧ s.objAny 0x800000 = none ∧ s.hostExcl 0x800000 = false := by decide +kernel

theorem test_event_Retention : let s := later base 8192
    alive s = true ∧ (s.core (coreKey 1 71)).asleep = false ∧ s.coreBusy (coreKey 1 71) = false ∧ s.alwaysOn (coreKey 1 71) = false ∧
    (s.core (coreKey 1 71)).idle + 8192 ≤ s.now := by decide +kernel

/-- Queues that are not enabled and name a context or none, and a partition of one core that may be committed. -/
theorem test_event_Registers : ∀ q ∈ [0, 255],
    let s := { base with teams := [], ctxs := fset base.ctxs 128 ((fget base.ctxs 0).getD (ctxOfBlock 0 0 [])) }.modQueue q (fun x => { x with qctx := 128, en := false })
    let r := s.modPart 7 (fun p => { p with desc := 0x8000 * 2 ^ 224 })
    alive s = true ∧ (s.queue q).en = false ∧ (s.queue q).part = 0 ∧ (s.queue q).qbase.toNat % 4096 = 0 ∧ (s.queue q).qcompa.toNat % 8 = 0 ∧
    s.ctxRefuses q = false ∧ base.ctxRefuses q = true ∧ alive r = true ∧ r.commitCode 7 = 0 ∧ s.commitCode 7 = 2 ∧
    (∀ e ∈ s.tasks, e.2.part = 0 → e.2.state ≠ .entered) := by decide +kernel

theorem test_event_RegisterKill : let s := base.modQueue 0 (fun x => { x with qctx := 0 })
    alive s = true ∧ (fget s.ctxs (s.queue 0).qctx.toNat).map (·.killed) = some none ∧
    ((base.modPart 0 (fun p => { p with stopped := true })).part 0).stopped = true := by decide +kernel

/-- A queue that walks: enabled in a context, with one record at its head, whose type is none of the spec's. -/
def walking (slot : Nat) (fail : Bool) : State :=
  base.modQueue 0 (fun x => { x with en := true, qhead := BitVec.ofNat 64 (128 * slot), qtail := BitVec.ofNat 64 (128 * slot + 128), walkFail := fail })

theorem test_event_Walk : alive (walking 0 true) = true ∧ (fget (walking 0 true).ctxs ((walking 0 true).queue 0).qctx.toNat).isSome = true ∧
    (walking 0 true).walks 0 = true ∧ ((walking 0 true).queue 0).slot = 0 ∧ (walking 0 true).tableUse 0 < 4096 ∧
    (walking 31 false).walks 0 = true ∧ ((walking 31 false).queue 0).slot = 31 := by decide +kernel

/-- A task of no inputs. -/
def task0 (ty : Nat) (st : TaskState) : Machine.Task :=
  { die := 0, queue := 0, ctx := 0, part := 0, seq := 1, addr := 0x40000000, bytes := List.replicate 128 0, type := ty, ins := [], outs := [], tins := [], touts := [],
    irq := false, entered := 0, order := [1], deferred := [], defer := [], state := st, prio := 31, core := none, run := none, grid := none, kern := none, comm := 0,
    paused := none }

/-- A task without work that is ready, and one that has started. -/
theorem test_event_Tasks : let s (st : TaskState) : State := { base with tasks := [(6, task0 5 st)] }
    alive (s .entered) = true ∧ (s .entered).waitsEngine 6 (task0 5 .entered) = true ∧ (s .entered).distributedBefore 6 (task0 5 .entered) = false ∧
    (match (s .started).runTask 6 (task0 5 .started) with | .done _ => true | _ => false) = true := by decide +kernel

/-- A deterministic grid whose one fibre has stopped, before its commit and as the commit goes on. -/
theorem test_event_QuantumCommit : let x := { task0 1 .started with grid := some 2 }
    let s := group (dx { base with tasks := [(6, x)], grids := fmod base.grids 2 (fun g => { g with kern := { g.kern with dx := some 1024 } }) })
      (fun g => { g with paths := [⟨0, 0, 0, 1, .stopped⟩] })
    alive s = true ∧ s.gridStopped 2 = true ∧ s.engineSnoops (s.bufferLines 2) true = none ∧ s.engineSnoops (s.copyPas 2) false = none ∧
    (fget s.grids 2).map (fun g => (g.applied, g.safe, g.kern.dx)) = some (false, false, some 1024) := by decide +kernel

/-- Blocks being cleared and being reclaimed. -/
theorem test_event_Blocks : let s := base.modCore 0 (fun c => { c with blocks := [(3, .clearing), (4, .reclaim 9 false)] })
    alive s = true ∧ fget (s.core 0).blocks 3 = some .clearing ∧ (4, BlockState.reclaim 9 false) ∈ (s.core 0).blocks := by decide +kernel

/-- A team that has drained for a save, one that may retire, and one that waits to be placed again. -/
theorem test_event_Teams : let gone := group base (fun g => { g with fibres := List.replicate 32 Fibre.reset, paths := [] })
    let saving := team base (fun t => { t with status := .saving false false })
    alive saving = true ∧ saving.drained 1 (((saving.team 1).getD (Team.probe 0 0))) = true ∧
    alive gone = true ∧ (gone.team 1).map (fun t => (t.occupies, gone.canRetire 1 t)) = some (true, true) := by decide +kernel

/-- The part at reset, before it is booted: a link down, a link that retrains, a site to repair and a bank with many errors. -/
theorem test_event_Part : let s := { State.reset with retrain := [.ualink 3, .cxl 0], repair := [(0, 5, 3)], mileskDown := false, cores := [(5, { Core.reset with corr := [(7, 64)] })] }
    alive s = true ∧ s.boot.stat ≠ 1 ∧ s.boot.stat ≠ 2 ∧ s.attest.stat ≠ 1 ∧ bootCheck [] 0 ≠ 0 ∧ (s.port 3).width = 0 ∧ widthLanes 3 ≤ (s.port 3).working ∧
    Link.ualink 3 ∈ s.retrain ∧ Link.cxl 0 ∈ s.retrain ∧ (0, 5, 3) ∈ s.repair ∧ s.linkUp .milesk = true ∧ s.laneWorks .milesk 39 = true ∧
    (fget (s.core (coreKey 0 5)).corr 7).getD 0 = 64 ∧ (s.core (coreKey 0 5)).spares.length < 4 := by decide +kernel

theorem test_event_Power : let s := later State.reset 1500000
    alive s = true ∧ s.stepDue = true := by decide +kernel

/-- A part that has lost its power, with an event set out. -/
theorem test_event_Tripped : let s := { base with tripped := true, agenda := [(0, .event .throttleStep)] }
    s.tripped = true ∧ Instr.throttleStep.ctl = none ∧ s.agenda = [(0, .event .throttleStep)] ∧ s.kills = [] := by decide +kernel

/-- A part about to issue, at once. -/
theorem test_step_Issues : let s := State.reset.withFetchWord 64 0x0130E06020400000
    s.tripped = false ∧ s.agenda = [(0, .issue 3)] ∧ s.delay 0 (.issue 3) = 0 ∧
    (fget s.bundles 3).map (fun b => (State.picks { s with agenda := [] } 3 b, decodeWord (b.words.getD b.idx 0))) =
      some (true, .ok (.iadd ⟨3, 0, false, 7⟩ .i32 false 3 1 2)) := by decide +kernel

theorem test_step_BadWord : let s := State.reset.withFetchWord 64 0xFF00000000000000
    (fget s.bundles 3).map (fun b => (State.picks { s with agenda := [] } 3 b, decodeWord (b.words.getD b.idx 0))) = some (true, .error .unassigned) := by
  decide +kernel

/-- A move 600 clocks away: a group that is ready and waits 512 is marked due first. -/
theorem test_step_Clocks : let s := { base with agenda := [(600, .event .throttleStep)] }
    s.tripped = false ∧ s.delay 600 (.event .throttleStep) = 600 ∧ s.dueEvent = none ∧ s.upTo 600 = 512 ∧ s.upTo 511 = 511 ∧
    (later base 512).dueEvent = some (.readyButWaiting 1 0) := by decide +kernel

theorem test_memory_Canonical : State.reset.memOk ∧ (match step { base with agenda := [] } with | .next _ => true | _ => false) = true := by
  constructor
  · exact ⟨by decide, by intro e he; cases he⟩
  · decide +kernel

/-! ### What the checks of the terms refuse -/

theorem test_wellFormed_Integer : ∀ i ∈ [Instr.iadd c0 .i64 false 3 4 6, .isub c0 .n64 false 2 5 6, .imul c0 .i64 true 2 4 7, .imulh c0 .i64 2 4 6,
    .imad c0 .n64 false 2 4 6 8, .imadw c0 .i64 2 4 6 8, .imadw c0 .i32 3 4 6 8, .imadw c0 .n32 2 4 6 9, .idiv c0 .i64 2 4 6, .irem c0 .n64 2 4 6,
    .imin c0 .i64 3 4 6, .imax c0 .n64 2 4 7, .iabs c0 .n32 false 2 4, .iabs c0 .i64 false 2 5, .ineg c0 .n64 false 3 4, .iaddi c0 .i64 false 3 4 1,
    .icmp c0 .eq .i64 1 3 4, .icmpi c0 .lt .n64 1 3 0, .and c0 .n64 2 3 4, .or c0 .n64 3 2 4, .xor c0 .i64 2 4 5, .not c0 .n64 2 5,
    .blut3 c0 .n64 150 2 4 6 9, .lopi c0 .or .n64 3 4 1, .shl c0 .n64 3 4 5, .shr c0 .n64 2 5 5, .sar c0 .i64 3 4 5, .rol c0 .n64 2 3 5,
    .shi c0 .sar .i64 3 4 1, .bfx c0 .i64 2 4 6, .bfi c0 .n64 2 4 6, .popc c0 .n64 2 5, .clz c0 .i64 2 5, .ctz c0 .n64 2 5, .brev c0 .n64 3 4,
    .lea c0 .n64 2 3 4 5, .sel c0 .n64 2 4 5 1 false, .mov c0 .n64 3 4, .div64 c0 .i32 2 4 6, .rem64 c0 .n64 3 4 6, .mulh64 c0 .i64 2 4 7],
    i.wellFormed = false := by decide

theorem test_wellFormed_Moves : ∀ i ∈ [Instr.movi c0 .s64 3 1, .movi c0 .z64 3 1, .movxRd c0 true 3 4 5, .movxWr c0 true 4 5 7, .srd c0 true .fid 2, .srd c0 true .cyc 3,
    .srd c0 false .tpc 2], i.wellFormed = false := by decide

def mC : FMods := ⟨false, false, false, false, true, false⟩
def mB : FMods := ⟨false, false, false, true, false, false⟩

theorem test_wellFormed_Float : ∀ i ∈ [Instr.fadd c0 .f32 .rne mC 1 2 3, .fsub c0 .f32 .rne mC 1 2 3, .fmul c0 .f32 .rne mC 1 2 3, .fmin c0 .f32 mC 1 2 3, .fmax c0 .f32 mC 1 2 3,
    .fcmp c0 .eq .f32 mC 1 2 3 0, .fcmp c0 .eq .f32 ⟨false, false, false, false, false, false⟩ 1 2 3 1, .fclass c0 .f32 mB 1 2, .frnd c0 .f32 .rz mB 1 2,
    .fscale c0 .f32 .rne mB 1 2 3, .fgetexp c0 .f32 mB 1 2, .fgetman c0 .f32 mC 1 2, .fdot2 c0 .f32 .rne ⟨false, false, false, false, false, false⟩ 1 2 3 4,
    .cvt c0 .f32 .f16 .rne false 2 3 4, .cvt c0 .i64 .f32 .rne false 0 3 4, .cvt c0 .f32 .n64 .rne false 0 3 5, .pack c0 .e4m3 .rne false 1 3 4, .pack c0 .e2m1 .rne false 1 4 6,
    .unpack c0 .f16x2 3 4, .unpack c0 .e5m2 6 4, .unpack c0 .e2m1 4 4, .lpad c0 0, .rcp c0 .f32 mB 1 2, .rsq c0 .f32 mB 1 2, .sqrt c0 .f32 mC 1 2, .ex2 c0 .f32 mB 1 2,
    .lg2 c0 .f32 mC 1 2, .sinpi c0 .f32 mB 1 2, .cospi c0 .f32 mB 1 2, .tanh c0 .f32 mC 1 2, .fdiv c0 .f32 mC 1 2 3], i.wellFormed = false := by decide

theorem test_wellFormed_CrossLane : ∀ i ∈ [Instr.lxch c0 .rot false false .group 2 4 5, .lxch c1 .from false true .group 2 4 5, .lxch c1 .rot true false .group 3 4 5,
    .vote c0 .ballot false .group 2 1, .vote c1 .all false .group 8 1, .matchx c0 false .group 2 4, .matchx c1 true .group 2 5, .xred c1 .iadd true .group 2 4,
    .xred c0 .iadd false .group 2 4, .xscan c1 .fmin true false .group 2 4, .lanemapRd c0 2, .active c0 2, .elect c0 .group 1], i.wellFormed = false := by decide

theorem test_wellFormed_Memory : ∀ i ∈ [Instr.ld c0 .n32 ⟨.vault, 4, 0⟩ 2, .ld c1 .n64 ⟨.vault, 4, 0⟩ 3, .ld c1 .n32 ⟨.global 0, 5, 0⟩ 3, .st c0 .n128 ⟨.pool, 4, 0⟩ 6,
    .st c0 .n8 ⟨.global 0, 5, 0⟩ 3, .prefL1 c1 .n8 1 4 0, .prefL2 c0 .n8 0 5 0, .cmaintWb c0 .n8 0 5 0, .cmaintWbinv c0 .n8 0 5 0, .cmaintWbmem c0 .n8 0 5 0,
    .acpy c0 .n8 .vault 2 4 6, .acpy c0 .n32 (.global 0) 2 5 6, .mcpy c0 1 2 4 7, .tbarTest c0 false 2 0 4, .atom c0 k0 .add .i32 .vault 4 6, .atom c1 k0 .fadd .n32 .vault 4 6,
    .atom c1 k0 .add .n64 .vault 4 7, .atomn c0 k0 .fmin .i64 .vault 4 6, .acas c1 k0 .n64 .vault 4 6, .acas c1 k0 .n32 .vault 4 7, .exsum c0 k0 (.global 0) 5 6,
    .excvt c1 k0 false false .vault 4 6, .excvt c0 k0 false true .vault 4 6, .waitc c1 .eq false 1 4 7, .llock c0 false 1 4 6, .lunlk c1 false 1 4 7, .ltry c1 false 0 5 6,
    .lstat c0 1 4 6, .bar c0 .add false false 1 2 3 0, .bar c1 .sync false false 1 2 0 0, .bar c1 .add false false 1 2 3 4, .cbar c1 .sync false false 4 0 0 0],
    i.wellFormed = false := by decide

theorem test_wellFormed_Matrix : ∀ i ∈ [Instr.mxm c0 2 4 0, .mxm c1 3 4 0, .mxldZero c1 true false 3, .mxldFill c0 true false 2 4, .mxldRestore c1 true false 3 4 0, .mxst c1 false 3 4 0,
    .mxwait c0 3, .mstat c0 false 0 2, .mstat c1 false 9 2, .mstat c1 true 5 2, .sshape c0 0 3, .sshapeRd c1 0 3, .strmOpen c0 2 4, .strmSub c1 0 2 4 6, .strmSub c1 5 2 4 6,
    .taskpost c1 6 4 5 0, .taskseq c1 3 4, .taskseqWait c0 3 4, .coll c0 2 4 0, .dxsync c1 3, .dxq c0 0 2], i.wellFormed = false := by decide

theorem test_wellFormed_System : ∀ i ∈ [Instr.tret c1 0 false, .tretSkip c1 0 false, .elogCnt c0 2, .tlbiVa c0 3, .protld c1 0 3 4, .protld c1 0 2 5, .objdecl c1 0 3 4, .objrel c0 2 4],
    i.wellFormed = false := by decide

/-- Events whose arguments leave their ranges. -/
theorem test_wellFormed_Events : ∀ i ∈ [Instr.bundleSeed 1 64, .faultRecordPost 2, .sliceRequestEnqueue 0 72, .staitheTileDeliver 0 0 64, .blockClearDone 0 0 256,
    .monitorReread 1 0 32, .rd 0 16 0, .wb 0 0 4096 0 0, .l2WayReplace 0 0 16, .declare 0 128, .selfTestFail 0 80, .queueEnable 0 2, .queueEnable 256 1, .queueDisable 0 1,
    .kill 256, .commit 8, .replaysClear 18], i.wellFormed = false := by decide

/-! ### Words written out from the encodings -/

/-- `IADD.I32 V3, V1, V2` under STALL 3, and `BFX V2, V1, V3`. -/
theorem test_decode_Integer : decodeWord 0x0130E06020400000 = .ok (.iadd ⟨3, 0, false, 7⟩ .i32 false 3 1 2) ∧
    decodeWord 0x1B00E04020600000 = .ok (.bfx c0 .i32 2 1 3) := by decide

/-- `SRD V6, PW` and `MOVX.WR64 V51, 0, V54`. -/
theorem test_decode_Moves : decodeWord 0x2800E0C000000360 = .ok (.srd c0 false .pw 6) ∧
    decodeWord 0x2700E0066006C003 = .ok (.movxWr c0 true 51 0 54) := by decide

/-- `?P1 FFMA V4, V3, V5, V6` and `CVT.E5M2.F32.RZ V3, V4`. -/
theorem test_decode_Float : decodeWord 0x3300208060A0C000 = .ok (.ffma ⟨0, 0, false, 1⟩ .f32 .rne ⟨false, false, false, false, false, false⟩ 4 3 5 6) ∧
    decodeWord 0x3D00E06082820004 = .ok (.cvt c0 .e5m2 .f32 .rz false 0 3 4) := by decide

/-- `?P1 BRA.TAKEN` of offset 8, `BRA` of offset 5 and `LOOP V5` of offset 10. -/
theorem test_decode_Control : decodeWord 0x4000200001100000 = .ok (.bra ⟨0, 0, false, 1⟩ 8 true) ∧ decodeWord 0x4000E00000A00000 = .ok (.bra c0 5 false) ∧
    decodeWord 0x4600E00001405000 = .ok (.loop c0 10 5) := by decide

/-- `EX2.F32 V7, V3` and `RAND.UNIF V25, V22, V23, V24`. -/
theorem test_decode_SpecialFunctions : decodeWord 0x5400E0E060000000 = .ok (.ex2 c0 .f32 ⟨false, false, false, false, false, false⟩ 7 3) ∧
    decodeWord 0x5900E322C2E30001 = .ok (.rand c0 true 25 22 23 24) := by decide

/-- `XRED.FADD V6, V4, GROUP` and `MATCH V6, V5, GROUP` with SB1. -/
theorem test_decode_CrossLane : decodeWord 0x6302E0C080001006 = .ok (.xred c1 .fadd false .group 6 4) ∧
    decodeWord 0x6202E0C0A0001000 = .ok (.matchx c1 false .group 6 5) := by decide

/-- `LD.N32 V9, [POOL V6]` with SB1, `ST.N64 [B3 + V6 + 64], V4`, `TBAR.TEST V7, [VAULT V2 + 256]` with SB1 and `?P1 MCPY`. -/
theorem test_decode_Memory : decodeWord 0x8002E120C000000C = .ok (.ld c1 .n32 ⟨.pool, 6, 0⟩ 9) ∧ decodeWord 0x8100E080C0060083 = .ok (.st c0 .n64 ⟨.global 3, 6, 8⟩ 4) ∧
    decodeWord 0x8802E0E040000105 = .ok (.tbarTest c1 false 2 16 7) ∧ decodeWord 0x8700200000060C00 = .ok (.mcpy ⟨0, 0, false, 1⟩ 3 0 0 6) := by decide

/-- `ATOM.FADD V5, [B2 + V4]` with SB1, `FENCE.REL.DEVICE`, `BAR.ADD V6, V5, 3` with SB2, `LUNLK.UO V6, [B2 + V4]` with SB2. -/
theorem test_decode_Synchronisation : decodeWord 0x8902E0A08004A007 = .ok (.atom c1 ⟨false, .device, .rlx⟩ .fadd .i32 (.global 2) 4 5) ∧
    decodeWord 0x8400E00000000015 = .ok (.fence c0 .rel .device false) ∧ decodeWord 0x9304E0C0A0000033 = .ok (.bar ⟨0, 2, false, 7⟩ .add false false 3 6 5 0) ∧
    decodeWord 0x9004E0C080050000 = .ok (.lunlk ⟨0, 2, false, 7⟩ true 2 4 6) := by decide

/-- `MXM V10, [VAULT V2]` and `TASKPOST V8, V5, [VAULT V2 + 256]` with SB1, and `DXSYNC V4` with SB2. -/
theorem test_decode_Matrix : decodeWord 0xA002E14040000000 = .ok (.mxm c1 10 2 0) ∧ decodeWord 0xA702E10040A00040 = .ok (.taskpost c1 8 2 5 2) ∧
    decodeWord 0xAA04E08000000000 = .ok (.dxsync ⟨0, 2, false, 7⟩ 4) := by decide

/-- `CAPS V2, V1, 4` under STALL 8, `TRET.SKIP` and `DIV64.I64 V4, V6, V8`. -/
theorem test_decode_System : decodeWord 0xC180E04020000080 = .ok (.caps ⟨8, 0, false, 7⟩ 2 1 4) ∧ decodeWord 0xC000E00000000100 = .ok (.tretSkip c0 0 false) ∧
    decodeWord 0xE000E080C1000002 = .ok (.div64 c0 .i64 4 6 8) := by decide

/-- Opcodes that are not assigned, a field with an undefined value, and a load without a counter. -/
theorem test_decode_Refused : decodeWord 0xFF00000000000000 = .error .unassigned ∧ decodeWord 0x2A00E00000000000 = .error .unassigned ∧
    decodeWord 0x0E00E0200040001C = .error .field ∧ decodeWord 0x8000E120C000000C = .error .field := by decide

/-- Instructions at the ends of their operands' ranges come back from their words. -/
theorem test_encode_Words : ∀ i ∈ [Instr.nop ⟨15, 7, true, 0⟩, .imad c0 .n32 false 255 254 253 252, .ld c1 .n128 ⟨.global 4095, 254, 0x1FFF⟩ 252,
    .tretSkip c0 255 true, .movi c0 .w32 255 0xFFFFFFFF], i.wellFormed = true ∧ (match encode i with | some w => decide (decodeWord w = .ok i) | none => false) = true := by
  decide

/-! ### Results -/

/-- What an instruction leaves in V3 of the fibre, V1 and V2 holding the operands. -/
def result (i : Instr) (a b : Word) : Option Word :=
  match exec i (reg (reg (facing i) 1 a) 2 b) with
  | .next t => (t.fibre 1 0 0).regs[3]?
  | _ => none

/-- The table of R131. -/
theorem test_result_Division : ∀ e ∈ [(ITy.i32, (7 : Word), (0xFFFFFFFE : Word), (0xFFFFFFFD : Word), (1 : Word)), (.i32, 0xFFFFFFF9, 2, 0xFFFFFFFD, 0xFFFFFFFF),
    (.i32, 0x80000000, 0xFFFFFFFF, 0x80000000, 0), (.i32, 5, 0, 0xFFFFFFFF, 5), (.n32, 0xFFFFFFF9, 2, 0x7FFFFFFC, 1)],
    result (.idiv c0 e.1 3 1 2) e.2.1 e.2.2.1 = some e.2.2.2.1 ∧ result (.irem c0 e.1 3 1 2) e.2.1 e.2.2.1 = some e.2.2.2.2 := by decide +kernel

/-- The first words of the shipped INV image, and its entry for a write from the state of shared copies; every shipped image passes its checks (R317, R318). -/
theorem test_shipped_Images : imgHeader (shipped 0) % 2 ^ 64 = 0x000FE40D4C425450 ∧ imgEntry (shipped 0) 1 1 = 0x00080154 ∧
    ∀ k ∈ [0, 1, 2, 3], (imgJudge (shipped k)).1 = 0 ∧ (shipped k).length = 576 := by decide +kernel

/-! ### Portable code (R374, R377) -/

/-- i32.add keeps 32 bits. -/
theorem test_portable_add : valueOp 0x6A 0 [0xFFFFFFFF, 2] = some ([1], []) := by decide

/-- The LEB number 0x7F is -1, a value of 32 bits. -/
theorem test_portable_const :
    NCode.step ⟨[0x41, 0x7F, 0x0B], ⟨1, 0, 0, 0, 0, 0⟩, [⟨[], none, [], 0, 3⟩]⟩ ⟨[⟨0, 0, [], [], []⟩], 0⟩ = .goes ⟨[⟨0, 2, [0xFFFFFFFF], [], []⟩], 0⟩ [] := by
  decide

end Sys2Proof.Tests
end

section
/-!
PROOFS. The special registers (O8) and the capability list as CAPS reads it (O37): first what any instruction comes to that writes results for
each performing fibre by itself, then SRD, SWR and CAPS.
-/

namespace Sys2Proof.Machine

/-! ### Results that each performing fibre writes -/

/-- A list with distinct names is looked up alike from either end. -/
theorem lookup_reverse_of_nodup {α β : Type} [DecidableEq α] (ls : List (α × β)) (h : (ls.map (·.1)).Nodup) (k : α) :
    ls.reverse.lookup k = ls.lookup k := by
  induction ls with
  | nil => rfl
  | cons e ls ih =>
    obtain ⟨m, v⟩ := e
    obtain ⟨hm, hn⟩ := List.nodup_cons.1 h
    rw [List.reverse_cons, lookup_append, ih hn, List.lookup_cons, List.lookup_cons]
    by_cases hk : k = m
    · subst hk
      have : ls.lookup k = none := List.lookup_eq_none_iff.2 (fun p hp => by
        have hpk : p.1 ∈ ls.map (·.1) := List.mem_map_of_mem hp
        simpa using fun hc : k = p.1 => hm (hc ▸ hpk))
      simp [this]
    · have hb : (k == m) = false := by simpa using hk
      simp [hb]

/-- An instruction that writes, for each performing fibre, words of names it announces: what `val` tells of a place and its fibre. -/
theorem native_writes {i : Instr} {s : State} {w : Who} {c : Ctl} {t : Team} (H : Issues s i w c t) {body : Who → State → State}
    (he : exec i s = native i s body) (step : State → Nat × Nat → State) (lat : Nat)
    (val : Nat × Nat → Fibre → List (RName × Word)) {out : Nat × Nat → List (RName × Word)}
    (hbody : body (w.by (s.performers w c)) s = (s.performers w c).foldl step s)
    (hstep : ∀ a : State, ∀ x ∈ s.performers w c, { a with teams := s.teams } = s → a.fibre? w.team x.1 x.2 = s.fibre? w.team x.1 x.2 →
      step a x = a.modFibre w.team x.1 x.2 (fun f => f.writeAll w.pos lat (val x f)))
    (hnames : ∀ x f, ∀ e ∈ val x f, e.1 ∈ i.writes)
    (hout : ∀ x ∈ s.performers w c, ∀ n, (out x).lookup n = ((val x (s.fibre w.team x.1 x.2)).reverse.lookup n).map n.keep) :
    ∃ s', exec i s = .next s' ∧ Writes s w c lat out s' ∧ OnlyRegisters s w s' := by
  obtain ⟨s', hs, hfiles, honly⟩ := native_changes H body step lat (fun x => val x (s.fibre w.team x.1 x.2))
    (fun x f => f.writeAll w.pos lat (val x f)) (fun x => (upd_facts w.pos lat (val x)).1) (fun x => (upd_facts w.pos lat (val x)).2)
    (fun x _ f hf => by rw [State.fibre_eq, hf]; rfl) hbody hstep
  refine ⟨s', he.trans hs, hfiles.writes H out (fun x hx e he => ?_) (fun x hx n _ => hout x hx n), honly⟩
  by_cases hp : e.1 = .p 7#3
  · exact .inr hp
  · exact .inl (H.holds hx (hnames x _ e he) hp)

/-- What an instruction gives whose body, for its performing fibres, comes to `r`; where none performs it, `r` is the part as it stands. -/
theorem gives_of_body {i : Instr} {s : State} {w : Who} {c : Ctl} {t : Team} (H : Issues s i w c t) {body : Who → State → State}
    (he : exec i s = native i s body) {r : State} (hb : body (w.by (s.performers w c)) s = r) (h0 : s.performers w c = [] → r = s) : Gives i s w r := by
  by_cases hp : s.performers w c = []
  · unfold Gives State.finish
    rw [he, native_of_issues H, H.team, h0 hp, hp]
    rfl
  · exact hb ▸ gives_body H he hp

/-! ### SRD and SWR (R7, R65, R143, R144) -/

/-- The special registers of a fibre do not change as fibres do (R144). -/
theorem State.sreg_of_rest {a s : State} (h : { a with teams := s.teams } = s) (t : Team) (g l : Nat) (f : Fibre) (pos : Nat) (r : SReg) :
    a.sreg t g l f pos r = s.sreg t g l f pos r :=
  (congrArg (fun b : State => b.sreg t g l f pos r) h : _)

theorem sreg_fid (s : State) (t : Team) (g l : Nat) (f : Fibre) (pos : Nat) : s.sreg t g l f pos .fid = BitVec.ofNat 64 (32 * g + l) := by
  rw [Nat.mul_comm]; rfl

theorem sreg_clpos (s : State) (t : Team) (g l : Nat) (f : Fibre) (pos : Nat) :
    s.sreg t g l f pos .clpos = BitVec.ofNat 64 (t.teamid % t.kern.clw + 256 * (t.teamid / t.kern.clw)) := by
  rw [Nat.mul_comm 256]; rfl

theorem sreg_win (s : State) (t : Team) (g l : Nat) (f : Fibre) (pos : Nat) :
    s.sreg t g l f pos .win = BitVec.ofNat 64 (((t.groups[g]?).map (·.wbase)).getD 0 + 65536 * t.kern.win) := by
  rw [Nat.add_comm, Nat.mul_comm]; rfl

/-- PW holds the predicates as the fibre reads them, P7 reading 1 (R78). -/
theorem sreg_pw (s : State) (t : Team) (g l : Nat) (f : Fibre) (pos : Nat) :
    s.sreg t g l f pos .pw = (BitVec.ofFnLE (fun (i : Fin 8) => f.getP pos (BitVec.ofNat 3 i.val)) : BitVec 8).setWidth 64 :=
  pw_bits (fun i => f.getP pos (BitVec.ofNat 3 i)) rfl

theorem sreg_tbase (s : State) (t : Team) (g l : Nat) (f : Fibre) (pos : Nat) :
    s.sreg t g l f pos .tbase = match t.kern.trapoff with | some o => BitVec.ofNat 64 ((t.kern.text + o) % 2 ^ 49) | none => 0 := by
  simp only [State.sreg, Team.tbase]
  cases t.kern.trapoff with
  | none => rfl
  | some o => exact BitVec.eq_of_toNat_eq (by simp)

/-- SRD of one fibre (R143). -/
def srdLane (w64 : Bool) (sel : SReg) (d : Reg) (w : Who) (t : Team) (s : State) (g l : Nat) : State :=
  s.modFibre w.team g l (fun f => f.writeAll w.pos 8 (wrW d w64 (s.sreg t g l f w.pos sel)))

theorem exec_srd_eq (c : Ctl) (w64 : Bool) (sel : SReg) (d : Reg) (s : State) :
    exec (.srd c w64 sel d) s = native (.srd c w64 sel d) s (fun w s => perLane w s (srdLane w64 sel d w)) := rfl

/-- SRD writes each performing fibre its special register (R143). -/
theorem srd_writes {s : State} {w : Who} {t : Team} {c : Ctl} {w64 : Bool} {sel : SReg} {d : Reg} (H : Issues s (.srd c w64 sel d) w c t) :
    ComputesAt (.srd c w64 sel d) s w c (fun x => wrW d w64 (s.sreg t x.1 x.2 (s.fibre w.team x.1 x.2) w.pos sel)) :=
  native_writes H (exec_srd_eq c w64 sel d s) (fun a x => srdLane w64 sel d w t a x.1 x.2) 8 (fun x f => wrW d w64 (s.sreg t x.1 x.2 f w.pos sel))
    (perLane_eq _ H.team _) (fun a x _ ha _ => by simp only [srdLane, State.sreg_of_rest ha]) (fun _ _ _ he => wrW_names he)
    (fun _ _ n => lookup_wrW d w64 _ n)

/-- The predicates of R143 that SWR writes, with the bits of the word it writes to them. -/
def predWords (v : Word) : List (RName × Word) := (List.range 7).map (fun i => (.p (BitVec.ofNat 3 i), boolWord (v.getLsbD i)))

theorem predWords_names (v : Word) : (predWords v).map (·.1) = (List.range 7).map (fun i => RName.p (BitVec.ofNat 3 i)) := by
  simp only [predWords, List.map_map]; rfl

theorem mem_predWords {v : Word} {e : RName × Word} (he : e ∈ predWords v) : e.1 ∈ (List.range 7).map (fun i => RName.p (BitVec.ofNat 3 i)) := by
  rw [← predWords_names v]; exact List.mem_map_of_mem he

theorem lookup_predWords (v : Word) (n : RName) : (predWords v).lookup n = ((predWords v).reverse.lookup n).map n.keep := by
  have hd : ((predWords v).map (·.1)).Nodup := by rw [predWords_names]; decide
  have hk : ∀ e ∈ predWords v, e.1.keep e.2 = e.2 := by
    simp only [predWords, List.mem_map]
    rintro _ ⟨i, _, rfl⟩
    exact keep_bool _ _
  rw [lookup_reverse_of_nodup _ hd, lookup_keep n _ hk]

/-- SWR of one fibre (R143). -/
def swrLane (a : Reg) (w : Who) (s : State) (g l : Nat) : State :=
  s.modFibre w.team g l (fun f => f.writeAll w.pos 1 (predWords (f.get w.pos a)))

theorem exec_swr_eq (c : Ctl) (a : Reg) (s : State) :
    exec (.swr c a) s = native (.swr c a) s (fun w s => perLane w s (fun _ => swrLane a w)) := rfl

/-- SWR writes each performing fibre the seven predicates, for the next instruction to read (R84, R143; log 21). -/
theorem swr_writes {s : State} {w : Who} {t : Team} {c : Ctl} {a : Reg} (H : Issues s (.swr c a) w c t) :
    ∃ s', exec (.swr c a) s = .next s' ∧ Writes s w c 1 (fun x => predWords ((s.fibre w.team x.1 x.2).get w.pos a)) s' ∧ OnlyRegisters s w s' :=
  native_writes H (exec_swr_eq c a s) (fun b x => swrLane a w b x.1 x.2) 1 (fun _ f => predWords (f.get w.pos a)) (perLane_eq _ H.team _)
    (fun _ _ _ _ _ => rfl) (fun _ _ _ he => mem_predWords he) (fun _ _ n => lookup_predWords _ n)

/-- Settles O8: what SRD reads is the model's special register, brought to the words of R7 and R144 selector by selector; SWR writes the
seven predicates, whose names are distinct. -/
theorem specialRegisters : Obligations.SpecialRegisters := by
  intro s w t c w64 sel d a
  refine ⟨fun H => ?_, fun H => ?_⟩
  · refine (congrArg (ComputesAt _ s w c) (funext fun x => congrArg (wrW d w64) ?_)).mp (srd_writes H)
    cases sel
    case fid => exact sreg_fid ..
    case clpos => exact sreg_clpos ..
    case win => exact sreg_win ..
    case pw => exact sreg_pw ..
    case tbase => exact sreg_tbase ..
    all_goals rfl
  · obtain ⟨s', hs, hw, ho⟩ := swr_writes H
    exact ⟨s', hs, ho, hw⟩

/-! ### CAPS (R27) -/

/-- The byte offset that a fibre asks the capability list for (R27). -/
def capsOffset (a : Reg) (imm : BitVec 24) (pos : Nat) (f : Fibre) : Int := ((f.get pos a).toNat : Int) + imm.toInt

/-- The word of a capability list at a byte offset; outside the list it is 0. -/
def capsWord (caps : List Word) (off : Int) : Word := if off < 0 ∨ (4 * caps.length : Nat) ≤ off then 0 else caps.getD (off / 4).toNat 0

theorem capAt_aligned (caps : List Word) (off : Int) (h : off % 4 = 0) : capAt caps off = capsWord caps off := by
  unfold capAt capsWord
  by_cases hneg : off < 0
  · rw [if_pos hneg, if_pos (.inl hneg)]
  · have hidx : off.toNat / 4 = (off / 4).toNat := by omega
    rw [if_neg hneg, hidx]
    by_cases hend : ((4 * caps.length : Nat) : Int) ≤ off
    · rw [if_pos (.inr hend)]
      exact List.getD_eq_default _ _ (by omega)
    · rw [if_neg (not_or.2 ⟨hneg, hend⟩)]

theorem State.listAtHand_eq {s : State} {w : Who} {t : Team} (hw : s.who = some w) (ht : s.team w.team = some t) : s.listAtHand = (s.ctxOf t).caps := by
  simp only [State.listAtHand, hw, Option.bind_some, ht]

theorem capsLane_aligned (caps : List Word) (d a : Reg) (imm : BitVec 24) (f : Fibre) (pos : Nat) (h : capsOffset a imm pos f % 4 = 0) :
    capsLane caps d a imm f pos = .ok [(.v d, capsWord caps (capsOffset a imm pos f))] [] := by
  rw [← capAt_aligned caps _ h]
  exact if_neg (not_not_intro h)

theorem capsLane_misaligned (caps : List Word) (d a : Reg) (imm : BitVec 24) (f : Fibre) (pos : Nat) (h : capsOffset a imm pos f % 4 ≠ 0) :
    capsLane caps d a imm f pos = .trap (.misaligned (BitVec.ofInt 64 (capsOffset a imm pos f))) := if_pos h

/-- Two folds over distinct fibres agree when their steps agree wherever a step finds its own fibre as it stood before the fold, and no step
changes another fibre. -/
theorem State.foldl_fibres_congr (t : Nat) (step step' : State → Nat × Nat → State) (s : State) (ls : List (Nat × Nat)) (hd : ls.Nodup)
    (heq : ∀ a : State, ∀ x ∈ ls, a.fibre? t x.1 x.2 = s.fibre? t x.1 x.2 → step a x = step' a x)
    (hother : ∀ (a : State), ∀ x ∈ ls, ∀ y, x ≠ y → (step' a x).fibre? t y.1 y.2 = a.fibre? t y.1 y.2) :
    ls.foldl step s = ls.foldl step' s := by
  suffices ∀ a : State, (∀ x ∈ ls, a.fibre? t x.1 x.2 = s.fibre? t x.1 x.2) → ls.foldl step a = ls.foldl step' a from this s (fun _ _ => rfl)
  induction ls with
  | nil => intros; rfl
  | cons x ls ih =>
    intro a ha
    obtain ⟨hx, hls⟩ := List.nodup_cons.1 hd
    rw [List.foldl_cons, List.foldl_cons, heq a x (by simp) (ha x (by simp))]
    refine ih hls (fun b y hy => heq b y (by simp [hy])) (fun b y hy => hother b y (by simp [hy])) _ (fun y hy => ?_)
    have hxy : x ≠ y := fun hc => hx (hc ▸ hy)
    rw [hother a x (by simp) y hxy]
    exact ha y (by simp [hy])

/-- The part after CAPS of one fibre, whose offset `off` tells (R27). -/
def State.capsStep (w : Who) (c : Ctl) (d a : Reg) (imm : BitVec 24) (caps : List Word) (off : Nat × Nat → Int) (r : State) (x : Nat × Nat) : State :=
  if off x % 4 = 0 then r.modFibre w.team x.1 x.2 (fun f => f.writeAll w.pos (Instr.caps c d a imm).latency [(.v d, capsWord caps (off x))])
  else r.takeTrap w w.word x.1 x.2 (.misaligned (BitVec.ofInt 64 (off x)))

theorem State.capsStep_other {w : Who} (hw : w.ops = []) (c : Ctl) (d a : Reg) (imm : BitVec 24) (caps : List Word) (off : Nat × Nat → Int) (r : State)
    {x y : Nat × Nat} (hxy : x ≠ y) : (State.capsStep w c d a imm caps off r x).fibre? w.team y.1 y.2 = r.fibre? w.team y.1 y.2 := by
  unfold State.capsStep
  split
  · exact (State.fibre?_modFibre ..).trans (if_neg (fun hc => hxy (by simpa [Prod.ext_iff] using hc)))
  · exact State.takeTrap_other hw hxy

theorem exec_caps_eq {s : State} {w : Who} {t : Team} (hw : s.who = some w) (ht : s.team w.team = some t) (c : Ctl) (d a : Reg) (imm : BitVec 24) :
    exec (.caps c d a imm) s = alu (.caps c d a imm) s (capsLane (s.ctxOf t).caps d a imm) := by
  rw [← State.listAtHand_eq hw ht]; rfl

/-- CAPS of one fibre, by the offset that the fibre asks for. -/
theorem aluLane_caps (c : Ctl) (d a : Reg) (imm : BitVec 24) (caps : List Word) (w : Who) (off : Nat × Nat → Int) (r : State) (x : Nat × Nat)
    (h : capsOffset a imm w.pos (r.fibre w.team x.1 x.2) = off x) :
    State.aluLane (.caps c d a imm) (capsLane caps d a imm) w r x = State.capsStep w c d a imm caps off r x := by
  unfold State.aluLane State.capsStep
  by_cases ha : off x % 4 = 0
  · rw [capsLane_aligned _ _ _ _ _ _ (h ▸ ha), if_pos ha, h]; rfl
  · rw [capsLane_misaligned _ _ _ _ _ _ (h ▸ ha), if_neg ha, h]

/-- The offsets at which the fibres of a bundle ask for the list. -/
def State.capsOffsets (s : State) (w : Who) (a : Reg) (imm : BitVec 24) (x : Nat × Nat) : Int := capsOffset a imm w.pos (s.fibre w.team x.1 x.2)

section Caps

variable {s : State} {w : Who} {t : Team} {c : Ctl} {d a : Reg} {imm : BitVec 24}

/-- CAPS reads each fibre whose offset is a multiple of 4 its word, and the other fibres trap. -/
theorem caps_gives (H : Issues s (.caps c d a imm) w c t) :
    Gives (.caps c d a imm) s w ((s.performers w c).foldl
      (State.capsStep (w.by (s.performers w c)) c d a imm (s.ctxOf t).caps (s.capsOffsets w a imm)) s) := by
  refine gives_of_body H (exec_caps_eq H.who H.team c d a imm) ?_ (fun h => by rw [h]; rfl)
  refine State.foldl_fibres_congr w.team _ _ s _ (H.distinct.filter _) (fun r x _ hr => ?_) (fun r x _ y hxy => ?_)
  · exact aluLane_caps c d a imm _ _ _ r x (congrArg (capsOffset a imm w.pos) (State.fibre_of_fibre? hr))
  · exact State.capsStep_other (w := w.by (s.performers w c)) (State.who_ops H.who : w.ops = []) c d a imm _ _ r hxy

/-- Where every offset is a multiple of 4, CAPS writes each performing fibre the word of the list there. -/
theorem caps_writes (H : Issues s (.caps c d a imm) w c t) (hal : ∀ x ∈ s.performers w c, s.capsOffsets w a imm x % 4 = 0) :
    ComputesAt (.caps c d a imm) s w c (fun x => [(.v d, capsWord (s.ctxOf t).caps (s.capsOffsets w a imm x))]) := by
  refine native_writes H (exec_caps_eq H.who H.team c d a imm) (State.aluLane _ _ (w.by (s.performers w c))) _
    (fun x _ => [(.v d, capsWord (s.ctxOf t).caps (s.capsOffsets w a imm x))]) rfl (fun r x hx _ hr => ?_) (fun x f e he => ?_) (fun x _ n => ?_)
  · exact (aluLane_caps c d a imm _ _ (s.capsOffsets w a imm) r x (congrArg (capsOffset a imm w.pos) (State.fibre_of_fibre? hr))).trans (if_pos (hal x hx))
  · rw [List.mem_singleton.1 he]; exact List.mem_singleton_self _
  · exact (lookup_keep n _ (by simp [RName.keep])).symm

/-- Where no offset is a multiple of 4 and the team has a handler to enter, each performing fibre traps into it. -/
theorem caps_traps (H : Issues s (.caps c d a imm) w c t) (hd : Handled s w c t) (hmis : ∀ x ∈ s.performers w c, s.capsOffsets w a imm x % 4 ≠ 0) :
    TrapsEach (.caps c d a imm) s w c t (fun x => .misaligned (BitVec.ofInt 64 (s.capsOffsets w a imm x))) := by
  have hg := caps_gives H
  unfold Gives State.finish at hg
  rw [H.team] at hg
  exact traps_each H.toFaces hd _ (List.foldl_ext _ _ s fun _ x hx => if_neg (hmis x hx)) hg

end Caps

/-- Settles O37, by the two cases of one fibre's offset: a multiple of 4 or not. That TADDR holds the offset is the model's choice (log 11). -/
theorem capabilities : Obligations.Capabilities := by
  intro s w t c d a imm _ _ _ _ _ H
  exact ⟨caps_writes H, caps_gives H, caps_traps H⟩

end Sys2Proof.Machine
end

section
/-!
PROOFS. The register map (R400), and what its registers hold after reset (O59).
-/

namespace Sys2Proof.Machine

/-- A block of the register map: registers of one size, named by their number and the offset within them. -/
structure RegBlock where
  base  : Nat
  count : Nat
  size  : Nat
  name  : Nat → Nat → RegName

def RegBlock.covers (b : RegBlock) (n : Nat) : Bool := inBlock n b.base b.count b.size

/-- The blocks of more than one register, in ascending order. -/
def regBlocks : List RegBlock :=
  [⟨0x400000, 256, 0x40, .queue⟩, ⟨0x480000, 256, 0x40, .qctx⟩, ⟨0x500000, 8, 0x80, .part⟩, ⟨0x580000, 8, 0x40, .tiles⟩, ⟨0x600000, 2, 0x40, .faults⟩,
   ⟨0x680000, 8, 0x40, .locks⟩, ⟨0x700000, 2, 0x40, .stale⟩, ⟨0x780000, 8, 0x40, .comm⟩, ⟨0x800000, 2, 0x40, .ras⟩, ⟨0x880000, 18, 0x10, .port⟩]

/-- The first block that covers an offset names its register. -/
theorem regAt_of_find {b : RegBlock} {n : Nat} (h : regBlocks.find? (·.covers n) = some b) :
    regAt n = some (b.name ((n - b.base) / b.size) ((n - b.base) % b.size)) := by
  simp only [regBlocks, List.find?_cons, List.find?_nil, RegBlock.covers] at h
  unfold regAt
  repeat' split at h
  all_goals simp_all
  all_goals subst h; rfl

theorem inBlock_past {n base count size : Nat} (h : base + count * size ≤ n) : inBlock n base count size = false := by
  simp [inBlock]; omega

/-- Register `i` of a block, at an offset within it. -/
theorem regAt_of_mem {b : RegBlock} (hb : b ∈ regBlocks) {i off : Nat} (hi : i < b.count) (ho : off < b.size) :
    regAt (b.base + b.size * i + off) = some (b.name i off) := by
  have hin : b.covers (b.base + b.size * i + off) = true := by
    have : b.size * (i + 1) ≤ b.count * b.size := by rw [Nat.mul_comm b.count]; exact Nat.mul_le_mul_left _ hi
    simp only [RegBlock.covers, inBlock, Bool.and_eq_true, decide_eq_true_eq]
    rw [Nat.mul_succ] at this
    omega
  have hord : regBlocks.Pairwise (fun a b => a.base + a.count * a.size ≤ b.base) := by decide
  obtain ⟨before, after, heq⟩ := List.append_of_mem hb
  rw [heq, List.pairwise_append] at hord
  obtain ⟨_, _, hpast⟩ := hord
  have hfind : regBlocks.find? (·.covers (b.base + b.size * i + off)) = some b :=
    List.find?_eq_some_iff_append.2 ⟨hin, before, after, heq, fun a ha => by
      have := hpast a ha b List.mem_cons_self
      simpa [RegBlock.covers] using inBlock_past (by omega)⟩
  rw [regAt_of_find hfind, show b.base + b.size * i + off - b.base = off + b.size * i by omega, Nat.add_mul_div_left _ _ (by omega), Nat.div_eq_of_lt ho,
    Nat.zero_add, Nat.add_mul_mod_self_left, Nat.mod_eq_of_lt ho]

theorem queueBlock_mem : (⟨0x400000, 256, 0x40, .queue⟩ : RegBlock) ∈ regBlocks := by simp [regBlocks]
theorem qctxBlock_mem : (⟨0x480000, 256, 0x40, .qctx⟩ : RegBlock) ∈ regBlocks := by simp [regBlocks]
theorem partBlock_mem : (⟨0x500000, 8, 0x80, .part⟩ : RegBlock) ∈ regBlocks := by simp [regBlocks]
theorem faultsBlock_mem : (⟨0x600000, 2, 0x40, .faults⟩ : RegBlock) ∈ regBlocks := by simp [regBlocks]
theorem locksBlock_mem : (⟨0x680000, 8, 0x40, .locks⟩ : RegBlock) ∈ regBlocks := by simp [regBlocks]
theorem staleBlock_mem : (⟨0x700000, 2, 0x40, .stale⟩ : RegBlock) ∈ regBlocks := by simp [regBlocks]
theorem commBlock_mem : (⟨0x780000, 8, 0x40, .comm⟩ : RegBlock) ∈ regBlocks := by simp [regBlocks]
theorem rasBlock_mem : (⟨0x800000, 2, 0x40, .ras⟩ : RegBlock) ∈ regBlocks := by simp [regBlocks]

/-- A multiple of 8 within a register of a block is a whole word of it. -/
theorem wholeWord_of_mem {b : RegBlock} (hb : b ∈ regBlocks) {i off : Nat} (h8 : off % 8 = 0) : wholeWord (b.base + b.size * i + off) 8 = true := by
  obtain ⟨hbase, hsize⟩ : b.base % 8 = 0 ∧ b.size % 8 = 0 := (by decide : ∀ b ∈ regBlocks, b.base % 8 = 0 ∧ b.size % 8 = 0) b hb
  have : b.size * i % 8 = 0 := by rw [Nat.mul_mod, hsize, Nat.zero_mul]
  simp [wholeWord]; omega

/-! ### The part after reset (O59) -/

/-- A whole word within register `i` of a block reads that register. -/
theorem State.readReg_of_mem (s : State) {b : RegBlock} (hb : b ∈ regBlocks) {i off : Nat} (hi : i < b.count) (ho : off < b.size) (h8 : off % 8 = 0) :
    s.readReg (b.base + b.size * i + off) 8 = BitVec.ofNat 64 (s.readNamed (b.name i off)) := by
  rw [State.readReg, if_pos (wholeWord_of_mem hb h8), regAt_of_mem hb hi ho]

/-- A register whose value after reset is known reads it. -/
theorem readReg_reset {b : RegBlock} (hb : b ∈ regBlocks) {i off : Nat} {v : DWord} (hi : i < b.count) (ho : off < b.size) (h8 : off % 8 = 0)
    (hv : BitVec.ofNat 64 (State.reset.readNamed (b.name i off)) = v) : State.reset.readReg (b.base + b.size * i + off) 8 = v :=
  (State.reset.readReg_of_mem hb hi ho h8).trans hv

/-- The control word of a queue holds EN, PRIO and PART (R45). -/
theorem State.readNamed_queueControl (s : State) (q : Nat) :
    s.readNamed (.queue q 0x20) = (if (s.queue q).en then 1 else 0) + (s.queue q).prio * 2 ^ 8 + (s.queue q).part * 2 ^ 16 := rfl

/-- The lock control word of a partition holds LOCKHOLD_MAX and DLPROBE (R303). -/
theorem State.readNamed_lockControl (s : State) (p : Nat) :
    s.readNamed (.locks p 0x00) = (s.part p).holdmax.toNat + (s.part p).dlprobe.toNat * 2 ^ 32 := rfl

/-- The control word of a fault queue holds FQEN and FQLOG2 (R181). -/
theorem State.readNamed_faultControl (s : State) (d : Nat) :
    s.readNamed (.faults d 0x08) = (if (s.die d).fqen then 1 else 0) + 2 * (s.die d).fqlog2 := rfl

/-- The lock counters of a partition stand in one word (R303). -/
theorem State.readNamed_lockCounts (s : State) (p : Nat) :
    s.readNamed (.locks p 0x08) = (s.part p).novfl + (s.part p).nfull * 2 ^ 16 + (s.part p).norph * 2 ^ 32 + (s.part p).ndead * 2 ^ 48 := rfl

/-- The stale-message counters of a die stand in one word (R328). -/
theorem State.readNamed_staleCounts (s : State) (d : Nat) :
    s.readNamed (.stale d 0x00) = (s.die d).staleack.toNat + (s.die d).stalewb.toNat * 2 ^ 32 := rfl

/-- The error counters of a die stand in one word (R389). -/
theorem State.readNamed_errorCounts (s : State) (d : Nat) :
    s.readNamed (.ras d 0x00) = (s.die d).cecnt.toNat + (s.die d).uecnt.toNat * 2 ^ 32 := rfl

theorem reset_queue (q : Nat) : State.reset.queue q = Queue.reset := rfl
theorem reset_part (p : Nat) : State.reset.part p = Partition.reset := rfl
theorem reset_die (d : Nat) : State.reset.die d = Die.reset := rfl

/-- PSTAT after reset: no partition is committed, so none lends (R57). -/
theorem reset_pstat (p : Nat) : State.reset.pstat p = 0 := by
  have hlend : State.reset.lending p = false := rfl
  simp [State.pstat, hlend, reset_part, Partition.reset]

theorem reset_queueRegs {q : Nat} (hq : q < 256) :
    State.reset.readReg (0x400000 + 0x40 * q + 0x20) 8 = 0x1F00 ∧
    (∀ off ∈ [0x00, 0x08, 0x10, 0x18, 0x28], State.reset.readReg (0x400000 + 0x40 * q + off) 8 = 0) ∧
    State.reset.readReg (0x480000 + 0x40 * q) 8 = 0 := by
  refine ⟨readReg_reset queueBlock_mem hq (by decide) rfl ?_, fun off ho => ?_, readReg_reset qctxBlock_mem hq (off := 0) (by decide) rfl rfl⟩
  · simp [State.readNamed_queueControl, reset_queue, Queue.reset]
  · simp only [List.mem_cons, List.not_mem_nil, or_false] at ho
    rcases ho with rfl | rfl | rfl | rfl | rfl
    all_goals exact readReg_reset queueBlock_mem hq (by decide) rfl rfl

theorem reset_partitionRegs {p : Nat} (hp : p < 8) :
    State.reset.readReg (0x680000 + 0x40 * p) 8 = 0x4000000010 ∧ State.reset.readReg (0x680000 + 0x40 * p + 8) 8 = 0 ∧
    State.reset.readReg (0x500000 + 0x80 * p + 0x48) 8 = 0 ∧ State.reset.readReg (0x780000 + 0x40 * p) 8 = 0 := by
  refine ⟨readReg_reset locksBlock_mem hp (off := 0) (by decide) rfl ?_, readReg_reset locksBlock_mem hp (by decide) rfl ?_,
    readReg_reset partBlock_mem hp (by decide) rfl ?_, readReg_reset commBlock_mem hp (off := 0) (by decide) rfl rfl⟩
  · simp [State.readNamed_lockControl, reset_part, Partition.reset]
  · simp [State.readNamed_lockCounts, reset_part, Partition.reset]
  · exact congrArg (BitVec.ofNat 64) (reset_pstat p)

theorem reset_dieRegs {die : Nat} (hd : die < 2) :
    State.reset.readReg (0x600000 + 0x40 * die + 8) 8 = 0xC ∧ State.reset.readReg (0x700000 + 0x40 * die) 8 = 0 ∧
    State.reset.readReg (0x800000 + 0x40 * die) 8 = 0 := by
  refine ⟨readReg_reset faultsBlock_mem hd (by decide) rfl ?_, readReg_reset staleBlock_mem hd (off := 0) (by decide) rfl ?_,
    readReg_reset rasBlock_mem hd (off := 0) (by decide) rfl ?_⟩
  · simp [State.readNamed_faultControl, reset_die, Die.reset]
  · simp [State.readNamed_staleCounts, reset_die, Die.reset]
  · simp [State.readNamed_errorCounts, reset_die, Die.reset]

theorem reset_bootStatus : State.reset.readReg 0x10018 8 = 0 := by
  have hreg : regAt 0x10018 = some (.boot 0x18) := by decide
  rw [State.readReg, if_pos (by decide), hreg]
  rfl

theorem reset_memOk : State.reset.memOk := ⟨⟨.nil, fun _ h => absurd h List.not_mem_nil⟩, fun _ h => absurd h List.not_mem_nil⟩

/-- Settles O59, block by block of the register map: each register reads its field of a reset state that lists nothing. -/
theorem resetState : Obligations.ResetState :=
  ⟨fun _ => reset_queueRegs, fun _ => reset_partitionRegs, fun _ => reset_dieRegs, reset_bootStatus, fun _ _ => rfl, fun _ _ => rfl, rfl, rfl, rfl, rfl, reset_memOk⟩

end Sys2Proof.Machine
end

section
/-!
PROOFS. What writes to the registers do (O51).
-/

namespace Sys2Proof.Machine

/-! ### Events -/

/-- While the part runs, an event comes to what its body makes of the state, with the kills decided in it carried out. -/
theorem State.Alive.event {s : State} (ha : s.Alive) (body : State → State) : event s body = .next (body s).runKills := by
  rw [Machine.event, ha.power]; rfl

/-- Bits hi down to lo of a number, by division. -/
theorem field_eq_div_mod (x hi lo : Nat) : field x hi lo = x / 2 ^ lo % 2 ^ (hi - lo + 1) := by
  rw [field, Nat.shiftRight_eq_div_pow]

/-! ### The queue registers (R45 to R47, R399) -/

@[simp] theorem State.queue_setQueue_self (s : State) (q : Nat) (x : Queue) : (s.setQueue q x).queue q = x := by
  simp [State.queue, State.setQueue]

@[simp] theorem State.queue_modQueue_self (s : State) (q : Nat) (h : Queue → Queue) : (s.modQueue q h).queue q = h (s.queue q) :=
  State.queue_setQueue_self ..

/-- A write that leaves PART as it is changes PRIO alone. -/
theorem State.writePart_of_part {s : State} {q : Nat} {v : DWord} (h : v.toNat / 65536 % 8 = (s.queue q).part) :
    s.writePart q v = s.setQueue q { s.queue q with prio := v.toNat / 256 % 32 } := by
  simp [State.writePart, field_eq_div_mod, h]

/-- The part as a write of EN = 1 finds it once QERR is cleared and PRIO is taken. -/
def State.primed (s : State) (q : Nat) (v : DWord) : State :=
  (s.modQueue q (fun y => { y with qerr := 0 })).setQueue q { s.queue q with qerr := 0, prio := v.toNat / 256 % 32 }

section Enable

variable {s : State} {q : Nat} {v : DWord} (hpart : v.toNat / 65536 % 8 = (s.queue q).part) (hen : (s.queue q).en = false)

include hpart

theorem State.writePart_cleared : (s.modQueue q (fun y => { y with qerr := 0 })).writePart q v = s.primed q v := by
  rw [State.writePart_of_part (by simpa using hpart), State.queue_modQueue_self]
  rfl

include hen

/-- QERR 1: QBASE is misaligned. -/
theorem State.enableQueue_misaligned (hbase : (s.queue q).qbase.toNat % 4096 ≠ 0) :
    s.enableQueue q v = (s.primed q v).setQueue q { s.queue q with qerr := 1, prio := v.toNat / 256 % 32 } := by
  simp [State.enableQueue, State.writePart_cleared hpart, State.primed, hen, hbase]

/-- QERR 11: the context block refuses the queue. -/
theorem State.enableQueue_refused (hbase : (s.queue q).qbase.toNat % 4096 = 0) (hcomp : (s.queue q).qcompa.toNat % 8 = 0)
    (hr : (s.primed q v).ctxRefuses q = true) :
    s.enableQueue q v = (s.primed q v).setQueue q { s.queue q with qerr := 11, prio := v.toNat / 256 % 32 } := by
  simp only [State.enableQueue, State.writePart_cleared hpart, hr]
  simp [State.primed, hen, hbase, hcomp]

/-- The walk starts, or goes on, and the context comes into use. -/
theorem State.enableQueue_starts (hbase : (s.queue q).qbase.toNat % 4096 = 0) (hcomp : (s.queue q).qcompa.toNat % 8 = 0)
    (hr : (s.primed q v).ctxRefuses q = false) :
    s.enableQueue q v = ((s.primed q v).setQueue q { s.queue q with
      qerr := 0, prio := v.toNat / 256 % 32, en := true, held := false, walkFail := (s.queue q).walkFail && (s.queue q).last.isSome,
      qhead := if (s.queue q).held then (s.queue q).qhead else (s.queue q).qbase }).useCtx (s.queue q).qctx.toNat (s.queue q).part := by
  simp only [State.enableQueue, State.writePart_cleared hpart, hr]
  simp [State.primed, hen, hbase, hcomp]

end Enable

theorem State.disableQueue_of_part {s : State} {q : Nat} {v : DWord} (h : v.toNat / 65536 % 8 = (s.queue q).part) :
    s.disableQueue q v = ((s.setQueue q { s.queue q with prio := v.toNat / 256 % 32 }).modQueue q (fun y => { y with
      en := false
      last := if y.en && (y.walkTag.isSome || y.walkFail) && y.last.isNone then some y.qhead else y.last })).tidyCtx (s.queue q).qctx.toNat := by
  simp only [State.disableQueue, State.writePart_of_part h, State.queue_setQueue_self]

/-- A write of QTAIL is taken or refused by its alignment alone. -/
theorem State.writeTail_eq (s : State) (q : Nat) (v : DWord) :
    s.writeTail q v = if v.toNat % 128 = 0 then s.modQueue q (fun y => { y with qtail := v, ahead := 0 }) else s.modQueue q (fun y => { y with qerr := 4 }) := by
  unfold State.writeTail
  split <;> rfl

theorem State.killWrite_of_ctx {s : State} {q : Nat} {c : Ctx} (hc : fget s.ctxs (s.queue q).qctx.toNat = some c) (hk : c.killed = none) :
    s.killWrite q = s.askKill ⟨(s.queue q).qctx.toNat, 12, ⟨0, 0, 0, 0, 0⟩, []⟩ := by
  simp [State.killWrite, hc, hk]

/-- A COMMIT that some check fails leaves its code (R54). -/
theorem State.commitWrite_refused {s : State} {p : Nat} (h : s.commitCode p ≠ 0) : s.commitWrite p = s.modPart p (fun y => { y with cstat := s.commitCode p }) := by
  simp only [State.commitWrite, if_neg h]

theorem State.commitWrite_passed {s : State} {p : Nat} (h : s.commitCode p = 0) : s.commitWrite p = s.commitPart p := by
  simp only [State.commitWrite, if_pos h]

/-- A DRAIN of a partition whose tasks have all started discards none. -/
theorem State.drainWrite_of_started {s : State} {p : Nat} (h : ∀ e ∈ s.tasks, e.2.part = p → e.2.state ≠ .entered) :
    s.drainWrite p = State.settleDrain ((s.discard []).modPart p (fun y => { y with drain := true })) p := by
  have hnone : s.tasks.filter (fun e => decide (e.2.part = p) && decide (e.2.state = .entered)) = [] :=
    List.filter_eq_nil_iff.2 fun e he => by simpa using h e he
  simp [State.drainWrite, hnone]

/-! ### Dead agents (R327, R389) -/

/-- The host's link is declared dead at both dies, unless it was within the last 1 ms. -/
theorem State.declareDead_host (s : State) (die n : Nat) :
    s.declareDead die 73 n =
      if (match fget (s.die die).dead 73 with | some at_ => decide (s.now < at_ + 1500000) | none => false) then s
      else (((((s.bumpInc die 73).loseHost 0).loseHost 1).deadAtParts 0 73).deadAtParts 1 73).irq 8 die 73 := by
  simp only [State.declareDead]
  cases h : fget (s.die die).dead 73 with
  | none => simp
  | some at_ => by_cases hsoon : s.now < at_ + 1500000 <;> simp [clocksPerMs, hsoon]

/-! ### Writes to the register space (R45, R400) -/

/-- A write of a whole word within register `i` of a block reaches that register. -/
theorem happens_registerWrite {s : State} (ha : s.Alive) {b : RegBlock} (hb : b ∈ regBlocks) {i off : Nat} (hi : i < b.count) (ho : off < b.size)
    (h8 : off % 8 = 0) (v : DWord) : Happens (.registerWrite (b.base + b.size * i + off) 8 v) s (s.writeNamed (b.name i off) v) := by
  show execRegisterWrite _ 8 v s = _
  rw [execRegisterWrite, ha.event, if_pos (wholeWord_of_mem hb h8), regAt_of_mem hb hi ho]

/-- A write that is not aligned is ignored. -/
theorem happens_registerWrite_misaligned {s : State} (ha : s.Alive) {off : Nat} (h : off % 8 ≠ 0) (v : DWord) : Happens (.registerWrite off 8 v) s s := by
  show execRegisterWrite off 8 v s = _
  rw [execRegisterWrite, ha.event, if_neg (by simp [wholeWord, h])]

/-- Settles O51, write by write: each comes to the case of its own equation above. PRIO of a refused write, QERR 1 before the other grounds and the
counters of a context that comes into use are the model's choice (log 44), as are a DECLARE within 1 ms (log 19) and agents 74 and up (log 48). -/
theorem registerEvents : Obligations.RegisterEvents := by
  intro s q p die port agent off v c ha hq hp hdie hport x prio part
  refine ⟨fun hpart hen hbase hcomp => ⟨fun hr => ?_, fun hr => ?_⟩, fun hpart hen hbase => ?_, fun hpart => ?_, fun ht => ?_, fun ht => ?_, fun hc hk => ?_,
    fun hcode => ?_, fun hcode => ?_, ?_, fun hstop => ?_, fun hdrain => ?_, ?_, ?_, ?_, ?_, fun hagent => ?_, ?_, ?_, State.declareDead_host s die,
    fun h => happens_registerWrite_misaligned ha h v,
    happens_registerWrite ha queueBlock_mem hq (off := 0) (by decide) rfl v, happens_registerWrite ha qctxBlock_mem hq (off := 0) (by decide) rfl v,
    happens_registerWrite ha locksBlock_mem hp (off := 0) (by decide) rfl v, happens_registerWrite ha faultsBlock_mem hdie (by decide) rfl v⟩
  · show execQueueEnable q v s = _
    rw [execQueueEnable, ha.event, if_pos hq, State.enableQueue_refused hpart hen hbase hcomp hr]
    rfl
  · show execQueueEnable q v s = _
    rw [execQueueEnable, ha.event, if_pos hq, State.enableQueue_starts hpart hen hbase hcomp hr]
    rfl
  · show execQueueEnable q v s = _
    rw [execQueueEnable, ha.event, if_pos hq, State.enableQueue_misaligned hpart hen hbase]
    rfl
  · show execQueueDisable q v s = _
    rw [execQueueDisable, ha.event, if_pos hq, State.disableQueue_of_part hpart]
  · show execQtailWrite q v s = _
    rw [execQtailWrite, ha.event, if_pos hq, State.writeTail_eq, if_pos ht]
  · show execQtailWrite q v s = _
    rw [execQtailWrite, ha.event, if_pos hq, State.writeTail_eq, if_neg ht]
  · show execKill q s = _
    rw [execKill, ha.event, if_pos hq, State.killWrite_of_ctx hc hk]
  · show execCommit p s = _
    rw [execCommit, ha.event, if_pos hp, State.commitWrite_refused hcode]
  · show execCommit p s = _
    rw [execCommit, ha.event, if_pos hp, State.commitWrite_passed hcode]
  · show execOversubClear p s = _
    rw [execOversubClear, ha.event, if_pos hp, State.oversubWrite]
  · show execResume p s = _
    rw [execResume, ha.event, if_pos hp, State.resumeWrite, if_pos hstop]
  · show execDrain p s = _
    rw [execDrain, ha.event, if_pos hp, State.drainWrite_of_started hdrain]
  · show execLkcntClear p s = _
    rw [execLkcntClear, ha.event, if_pos hp, State.lkcntWrite]
  · show execStaleCountersClear die s = _
    rw [execStaleCountersClear, ha.event, if_pos hdie, State.staleWrite]
  · show execErrorCountersClear die s = _
    rw [execErrorCountersClear, ha.event, if_pos hdie, State.errorsWrite]
  · show execReplaysClear port s = _
    rw [execReplaysClear, ha.event, if_pos hport, State.replaysWrite]
  · show execDeclare die agent s = _
    rw [execDeclare, ha.event, if_pos hdie, State.declareWrite, if_pos hagent]
  · show execLinkReplayTimeout die agent s = _
    rw [execLinkReplayTimeout, ha.event, if_pos hdie]
  · show execSelfTestFail die agent s = _
    rw [execSelfTestFail, ha.event, if_pos hdie]

end Sys2Proof.Machine
end

section
/-!
PROOFS. Queues that are walked, tasks, and teams: what the events of scheduling do (O52).
-/

namespace Sys2Proof.Machine

/-! ### The walker (R231 to R237, R242) -/

/-- Bits of a number by division, where their count is known. -/
theorem field_eq_of_width {hi lo n : Nat} (x : Nat) (h : hi - lo + 1 = n) : field x hi lo = x / 2 ^ lo % 2 ^ n := by
  rw [field_eq_div_mod, h]

/-- The type of a record is its low four bits (R231). -/
theorem field_type (word : Nat) : field word 3 0 = word % 16 := by rw [field_eq_div_mod]; simp

theorem Walk.ok_andThen {α β : Type} (x : α) (s : State) (h : α → State → Walk β) : (Walk.ok x s).andThen h = h x s := rfl
theorem Walk.bad_andThen {α β : Type} (n : Nat) (s : State) (h : α → State → Walk β) : (Walk.bad n s).andThen h = .bad n s := rfl
theorem Walk.check_passes (n : Nat) (s : State) : Walk.check false n s = .ok () s := rfl
theorem Walk.check_fails (n : Nat) (s : State) : Walk.check true n s = .bad n s := rfl

section Record

variable {s s1 s2 s3 s4 s5 : State} {q word : Nat} {c : Ctx} (ha : s.Alive) (hc : fget s.ctxs (s.queue q).qctx.toNat = some c) (hwalks : s.walks q = true)
  (hq : q < 256) (hslot : (s.queue q).slot ≠ 31) (hroom : s.tableUse (q / 128) < 4096)
include ha hc hwalks hq hslot hroom

/-- The answer to a miss of the walk was FAIL. -/
theorem happens_walkRecord_failed (hfail : (s.queue q).walkFail = true) : Happens (.walkRecord q) s (s.badRecord q 9) := by
  show execWalkRecord q s = _
  rw [execWalkRecord, ha.event]
  simp [hc, hwalks, hslot, Nat.not_le.2 hq, Nat.not_le.2 hroom, hfail]

variable (hfail : (s.queue q).walkFail = false) (hread : s.walkRead q c (s.queue q).at_.toNat 128 = .ok word s1)
include hfail hread

theorem happens_walkRecord_badType (htype : (taskRec word).type = 0 ∨ 6 ≤ (taskRec word).type) : Happens (.walkRecord q) s (s1.badRecord q 5) := by
  have hbad : (decide ((taskRec word).type = 0) || decide (6 ≤ (taskRec word).type)) = true := by simpa using htype
  show execWalkRecord q s = _
  rw [execWalkRecord, ha.event]
  simp [hc, hwalks, hslot, Nat.not_le.2 hq, Nat.not_le.2 hroom, hfail, hread, Walk.ok_andThen, hbad, Walk.check_fails, Walk.bad_andThen]

theorem happens_walkRecord_enters {tin tout : List (Nat × Nat)} {kern : Option Kernel} {comm : Nat} (h0 : (taskRec word).type ≠ 0) (h6 : (taskRec word).type < 6)
    (hbad : (taskRec word).bad = false) (hpay : (taskRec word).payloadBad = false)
    (hin : s1.readTiles q c (s.part (s.queue q).part) (taskRec word).ins = .ok tin s2)
    (hout : s2.readTiles q c (s.part (s.queue q).part) (taskRec word).outs = .ok tout s3)
    (hkern : s3.readKernel q c (s.queue q).part (taskRec word) = .ok kern s4)
    (hcomm : s4.readComm q c (s.part (s.queue q).part) (taskRec word) = .ok comm s5) :
    Happens (.walkRecord q) s (s5.enterTask q word (taskRec word) tin tout kern comm) := by
  have htype : (decide ((taskRec word).type = 0) || decide (6 ≤ (taskRec word).type)) = false := by simp; omega
  show execWalkRecord q s = _
  rw [execWalkRecord, ha.event]
  simp [hc, hwalks, hslot, Nat.not_le.2 hq, Nat.not_le.2 hroom, hfail, hread, Walk.ok_andThen, htype, Walk.check_passes, hbad, hpay, hin, hout, hkern, hcomm]

end Record

section Link

variable {s s1 : State} {q word : Nat} {c : Ctx} (ha : s.Alive) (hc : fget s.ctxs (s.queue q).qctx.toNat = some c) (hwalks : s.walks q = true)
  (hq : q < 256) (hslot : (s.queue q).slot = 31) (hfail : (s.queue q).walkFail = false)
  (hread : s.walkRead q c (s.queue q).at_.toNat 128 = .ok word s1)
include ha hc hwalks hq hslot hfail hread

theorem happens_linkFollow_goes (htype : field word 3 0 = 15) (hlow : field word 63 4 = 0) (hhigh : field word 1023 128 = 0)
    (hnext : field word 127 64 % 4096 = 0) :
    Happens (.linkFollow q) s ((s1.modQueue q (fun z => z.passTo (BitVec.ofNat 64 (field word 127 64)))).tidyCtx (s.queue q).qctx.toNat) := by
  show execLinkFollow q s = _
  rw [execLinkFollow, ha.event]
  simp [hc, hwalks, hslot, Nat.not_le.2 hq, hfail, hread, Walk.ok_andThen, Walk.check_passes, htype, hlow, hhigh, hnext]

/-- A task record stands where the chain should go on. -/
theorem happens_linkFollow_taskRecord (h1 : 1 ≤ field word 3 0) (h5 : field word 3 0 ≤ 5) : Happens (.linkFollow q) s (s1.badRecord q 7) := by
  have h0 : field word 3 0 ≠ 0 := by omega
  have h6 : ¬ 6 ≤ field word 3 0 := by omega
  have h15 : field word 3 0 ≠ 15 := by omega
  show execLinkFollow q s = _
  rw [execLinkFollow, ha.event]
  simp [hc, hwalks, hslot, Nat.not_le.2 hq, hfail, hread, Walk.ok_andThen, Walk.bad_andThen, Walk.check_passes, Walk.check_fails, h0, h6, h15]

end Link


/-! ### Distributing and placing tasks (R50 to R52, R61, R239) -/

section Distribute

variable {s : State} {id : Nat} {x : Machine.Task} (ha : s.Alive) (hx : fget s.tasks id = some x) (hwaits : s.waitsEngine id x = true)
  (hfirst : s.distributedBefore id x = false)
include ha hx hwaits hfirst

/-- A task of a type that needs no engine of a core starts. -/
theorem happens_taskDistribute_sync (ht : x.type = 5) : Happens (.taskDistribute id) s (s.startTask id x none none) := by
  show execTaskDistribute id s = _
  rw [execTaskDistribute, ha.event]
  simp [hx, hwaits, hfirst, ht]

theorem happens_taskDistribute_copy {n : Nat} (ht : x.type = 3) (hcore : s.copyCore (Room.now id) x = some n) :
    Happens (.taskDistribute id) s ((s.wake (coreKey x.die n)).startTask id x (some (coreKey x.die n)) none) := by
  show execTaskDistribute id s = _
  rw [execTaskDistribute, ha.event]
  simp [hx, hwaits, hfirst, ht, hcore]

theorem happens_taskDistribute_matrix {n run0 : Nat} (ht : x.type = 2) (hgood : x.mxmBad = false) (hcore : s.mxmCore (Room.now id) x = some (n, run0)) :
    Happens (.taskDistribute id) s ((s.takeEngine id (coreKey x.die n) run0 (max 1 x.mxm.taskBlocks)).startTask id x (some (coreKey x.die n))
      (some (run0, max 1 x.mxm.taskBlocks))) := by
  show execTaskDistribute id s = _
  rw [execTaskDistribute, ha.event]
  simp [hx, hwaits, hfirst, ht, hgood, hcore]

/-- A task that fails the checks of its descriptor starts without an engine, to fault. -/
theorem happens_taskDistribute_bad (h : x.type = 2 ∧ x.mxmBad = true ∨ x.type = 4 ∧ x.collTaskBad (s.part x.part).cmlen = true) :
    Happens (.taskDistribute id) s (s.startTask id x none none) := by
  show execTaskDistribute id s = _
  rw [execTaskDistribute, ha.event]
  rcases h with ⟨ht, hbad⟩ | ⟨ht, hbad⟩
  · simp [hx, hwaits, hfirst, ht, hbad]
  · simp [hx, hwaits, hfirst, ht, hbad]

theorem happens_taskDistribute_collective (ht : x.type = 4) (hgood : x.collTaskBad (s.part x.part).cmlen = false) (hroom : (s.die x.die).colls.length < 16) :
    Happens (.taskDistribute id) s
      ((s.startTask id x none none).modDie x.die (fun d => { d with colls := d.colls ++ [{ x.coll with task := some id }] })) := by
  show execTaskDistribute id s = _
  rw [execTaskDistribute, ha.event]
  simp [hx, hwaits, hfirst, ht, hgood, hroom]

end Distribute

section Place

variable {s s1 : State} {id : Nat} {x : Machine.Task} (ha : s.Alive) (hx : fget s.tasks id = some x) (hwants : s.wantsPlace id x = true)
  (hclaims : s.claims x.die = []) (hfirst : s.placedBefore id x = false) (hsaved : s.savedAhead x.part x.die (s.taskPrio x) = false)
include ha hx hwants hclaims hfirst hsaved

/-- There is room: the cluster is placed, or the lent blocks of its runs are claimed first. -/
theorem happens_clusterPlace_room {lent : List (Nat × Nat)} (hp : s.tryPlace id x { Room.now id with ready := false } = some (s1, lent)) :
    Happens (.clusterPlace id) s (if lent = [] then s1.unclaim id else s.claimBlocks id lent) := by
  show execClusterPlace id s = _
  rw [execClusterPlace, ha.event]
  simp [hx, hwants, hclaims, hfirst, hsaved, hp]

theorem happens_clusterPlace_noRoom (hp : s.tryPlace id x { Room.now id with ready := false } = none) : Happens (.clusterPlace id) s (s.unclaim id) := by
  show execClusterPlace id s = _
  rw [execClusterPlace, ha.event]
  simp [hx, hwants, hclaims, hfirst, hsaved, hp]

end Place

/-- The teams that are being saved. -/
def State.going (s : State) : List Nat := (s.teams.filter (fun e => match e.2.status with | .saving .. => true | _ => false)).map (·.1)

/-- The need of a task is met once the teams being saved, and some victims, are gone. -/
def State.metWithout (s : State) (id : Nat) (x : Machine.Task) (vs : List (List Nat)) : Bool :=
  s.needMet id x ⟨id, s.going ++ vs.flatMap (fun v => v), true, false⟩

/-- The victims of a decision, where a need asks for some, begin to be saved. -/
def State.preempt (s : State) (id : Nat) (x : Machine.Task) (met : List (List Nat) → Bool) : State :=
  if s.needMet id x (Room.now id) || met [] then s
  else match shortest met [] (s.candidates id x (s.taskPrio x)) with
    | none => s
    | some vs => (prune met vs).foldl (fun (a : State) v => v.foldl (fun (b : State) m => b.beginSave false false (some (s.decision id x)) m) a) s

theorem happens_preemptDecision {s : State} {id : Nat} {x : Machine.Task} {vs : List (List Nat)} (ha : s.Alive) (hx : fget s.tasks id = some x)
    (hwaits : s.waitsEngine id x = true) (hneed : s.needMet id x (Room.now id) = false) (hmet : s.metWithout id x [] = false)
    (hvs : shortest (s.metWithout id x) [] (s.candidates id x (s.taskPrio x)) = some vs) :
    Happens (.preemptDecision id) s ((prune (s.metWithout id x) vs).foldl (fun (a : State) v =>
      v.foldl (fun (b : State) m => b.beginSave false false (some (s.decision id x)) m) a) s) := by
  have hbody : execPreemptDecision id s = .next (s.preempt id x (s.metWithout id x)).runKills := by
    rw [execPreemptDecision, ha.event]
    simp only [hx, hwaits]
    rfl
  show execPreemptDecision id s = _
  rw [hbody]
  simp only [State.preempt, hneed, hmet, hvs, Bool.or_false, Bool.false_eq_true, if_false]

/-! ### Reclaim and clearing (R68, R70, R71) -/

theorem happens_reclaimComplete {s : State} {die core i : Nat} {b : Nat × BlockState} (ha : s.Alive) (hb : b ∈ (s.core (coreKey die core)).blocks)
    (hi : b.2 = .reclaim i false) :
    Happens (.reclaimComplete die core) s ((s.shrink (coreKey die core)).modCore (coreKey die core) (fun z =>
      { z with blocks := z.blocks.map (fun (b : Nat × BlockState) => (b.1, match b.2 with | .reclaim i _ => .reclaim i true | st => st)) })) := by
  have hany : (s.core (coreKey die core)).blocks.any (fun b => match b.2 with | .reclaim _ d => !d | _ => false) = true :=
    List.any_eq_true.2 ⟨b, hb, by rw [hi]; rfl⟩
  show execReclaimComplete die core s = _
  rw [execReclaimComplete, ha.event]
  exact congrArg (fun r : State => Host.Outcome.next r.runKills) (if_pos hany)

theorem happens_blockClearDone {s : State} {die core block : Nat} (ha : s.Alive) (hb : fget (s.core (coreKey die core)).blocks block = some .clearing) :
    Happens (.blockClearDone die core block) s (s.modCore (coreKey die core) (fun z =>
      { z with vault := memZero z.vault (32768 * block) 32768, blocks := fdel z.blocks block })) := by
  show execBlockClearDone die core block s = _
  rw [execBlockClearDone, ha.event]
  simp only [hb]

/-! ### Running tasks (R239 to R241) -/

section Run

variable {s s1 : State} {id : Nat} {x : Machine.Task} (ha : s.Alive) (hx : fget s.tasks id = some x) (hst : x.state = .started)
include ha hx hst

theorem happens_taskRetire_done (hrun : s.runTask id x = .done s1) : Happens (.taskRetire id) s (s1.retireTask id x) := by
  show execTaskRetire id s = _
  rw [execTaskRetire, ha.event]
  simp [hx, hst, hrun]

theorem happens_taskRetire_waits (hrun : s.runTask id x = .wait s1) : Happens (.taskRetire id) s s1 := by
  show execTaskRetire id s = _
  rw [execTaskRetire, ha.event]
  simp [hx, hst, hrun]

theorem happens_taskFault (hrun : s.runTask id x = .fault) : Happens (.taskFault id) s (s.faultTask id) := by
  show execTaskFault id s = _
  rw [execTaskFault, ha.event]
  simp [hx, hst, hrun]

end Run

/-! ### Saving, restoring and retiring teams (R300, R363 to R368) -/

theorem happens_swapwaitExpiry {s : State} {id since : Nat} {t : Team} (ha : s.Alive) (ht : s.team id = some t) (hst : t.status = .resident)
    (hsw : t.kern.swapwait ≠ 0) (hall : t.allBlocked = true) (hplace : s.placementWaits t = true) (hsince : t.blocked = some since)
    (hdue : since + 1024 * t.kern.swapwait ≤ s.coreClock t.part) :
    Happens (.swapwaitExpiry id) s ((s.savedWith (id, t)).foldl (fun (a : State) o => a.beginSave true false none o) s) := by
  show execSwapwaitExpiry id s = _
  rw [execSwapwaitExpiry, ha.event]
  simp [ht, hst, hsw, hall, hplace, hsince, hdue]

section Save

variable {s : State} {id : Nat} {t : Team} {c : Ctx} {swap stop : Bool} (ha : s.Alive) (ht : s.team id = some t) (hc : fget s.ctxs t.ctx = some c)
  (hst : t.status = .saving swap stop) (hdx : t.kern.dx = none ∨ ∃ g, fget s.grids t.grid = some g ∧ g.safe = true) (hdefer : t.defer = none)
  (hdrained : s.drained id t = true)
include ha ht hc hst hdx hdefer hdrained

/-- No run of the save pool is free. -/
theorem happens_teamSave_noRun (hpool : c.poolRun (t.kern.image (decide ((s.core t.key).eng.holder = some (Holder.team id)))).units = none) :
    Happens (.teamSave id) s (s.keepTeam id t) := by
  show execTeamSave id s = _
  rw [execTeamSave, ha.event]
  rcases hdx with hdx | ⟨g, hg, hsafe⟩
  · simp [ht, hst, hc, hdefer, hdrained, hdx, hpool]
  · simp [ht, hst, hc, hdefer, hdrained, hg, hsafe, hpool]

theorem happens_teamSave_saves {first : Nat}
    (hpool : c.poolRun (t.kern.image (decide ((s.core t.key).eng.holder = some (Holder.team id)))).units = some first)
    (hsnoops : s.rangeSnoops (c.savebase + 65536 * first) (65536 * (t.kern.image (decide ((s.core t.key).eng.holder = some (Holder.team id)))).units) true = none) :
    Happens (.teamSave id) s (s.saveTeam id t c swap first) := by
  show execTeamSave id s = _
  rw [execTeamSave, ha.event]
  rcases hdx with hdx | ⟨g, hg, hsafe⟩
  · simp [ht, hst, hc, hdefer, hdrained, hdx, hpool, hsnoops]
  · simp [ht, hst, hc, hdefer, hdrained, hg, hsafe, hpool, hsnoops]

end Save

section Restore

variable {s : State} {id addr units : Nat} {t : Team} {check : DWord} {last : Bool} {run : List (Nat × Nat) × Nat} (ha : s.Alive) (ht : s.team id = some t)
  (hst : t.status = .saved addr units check last)
include ha ht hst

/-- A condition of the restore is missing: the engine is not reserved for the team. -/
theorem happens_teamRestore_waits (hmay : s.mayRestore id t = false) : Happens (.teamRestore id) s (s.unreserve t.key id) := by
  show execTeamRestore id s = _
  rw [execTeamRestore, ha.event]
  simp [ht, hst, hmay]

variable (hfits : s.teamFits (Room.now id) t.key t.kern = some run) (hmay : s.mayRestore id t = true) (hsnoops : s.rangeSnoops addr (65536 * units) false = none)
include hfits hmay hsnoops

/-- The image is not the one that was saved: the context dies. -/
theorem happens_teamRestore_kills
    (hbad : ¬ (Config.saveCheck (65536 * units) (s.imageCells addr units) = check ∧ memNat s.mem (addr + 24) 8 = check.toNat)) :
    Happens (.teamRestore id) s (s.askKill ⟨t.ctx, 10, t.who 0, leBytes 8 addr⟩) := by
  show execTeamRestore id s = _
  rw [execTeamRestore, ha.event]
  rcases not_and_or.1 hbad with hcheck | hstored
  · simp [ht, hst, hfits, hmay, hsnoops, hcheck]
  · simp [ht, hst, hfits, hmay, hsnoops, hstored]

variable (hgood : Config.saveCheck (65536 * units) (s.imageCells addr units) = check ∧ memNat s.mem (addr + 24) 8 = check.toNat)
include hgood

theorem happens_teamRestore_restores (heng : s.engineBack id t = true) : Happens (.teamRestore id) s (s.restoreTeam id t addr units run.1 run.2) := by
  obtain ⟨hcheck, hstored⟩ := hgood
  show execTeamRestore id s = _
  rw [execTeamRestore, ha.event]
  simp [ht, hst, hfits, hmay, hsnoops, hcheck, hstored, heng]

/-- Only the engine is missing, which is reserved for the team. -/
theorem happens_teamRestore_reserves (heng : s.engineBack id t = false) :
    Happens (.teamRestore id) s (s.modEng t.key (fun e => if e.reserved.isNone then { e with reserved := some id } else e)) := by
  obtain ⟨hcheck, hstored⟩ := hgood
  show execTeamRestore id s = _
  rw [execTeamRestore, ha.event]
  simp [ht, hst, hfits, hmay, hsnoops, hcheck, hstored, heng]

end Restore

theorem State.mayRestore_of {s : State} {id : Nat} {t : Team} (hroom : s.roomBack id t = true) (hfirst : s.placementFirst t = false) (hclaims : s.claims t.die = []) :
    s.mayRestore id t = true := by
  simp [State.mayRestore, hroom, hfirst, hclaims]

/-- A team that may retire writes back, flushes its records, gives up its locks, monitors, engine and blocks, and leaves its cluster. -/
theorem happens_teamRetire {s : State} {id : Nat} {t : Team} (ha : s.Alive) (ht : s.team id = some t) (hocc : t.occupies = true)
    (hcan : s.canRetire id t = true) :
    let flushed := (List.range t.groups.length).foldl (fun (a : State) g => a.flushEvent id g) (s.flushCore t.key)
    let left := (flushed.orphanLocks id true).dropMonitors id
    let freed := if (left.core t.key).eng.holder = some (Holder.team id)
      then (left.freeEngine t.key).tidyStreams t.die ((left.core t.key).eng.subs.map (·.stream)) else left
    let ended := ((freed.clearRun t.key t.run0 t.kern.blocks).unclaim id).modTeam id (fun z =>
      { z with status := .retired, groups := [], bars := List.replicate 16 Barrier.reset })
    Happens (.teamRetire id) s ((ended.tidyCluster t.grid t.clusid).settleSafe t.grid) := by
  intro flushed left freed ended
  show execTeamRetire id s = _
  rw [execTeamRetire, ha.event]
  simp only [ht, hocc, hcan, Bool.not_true, Bool.or_false, Bool.false_eq_true, if_false]
  by_cases hold : (left.core t.key).eng.holder = some (Holder.team id)
  · simp only [ended, freed, if_pos hold]
    simp only [left, flushed] at hold ⊢
    simp only [if_pos hold]
  · simp only [ended, freed, if_neg hold]
    simp only [left, flushed] at hold ⊢
    simp only [if_neg hold]

/-- Settles O52, event by event. That a restore and a matrix task take their room and reclaim lent blocks at once, that CLUSTER_PLACE waits for the
claims, and what a pre-emption asks is the model's choice (log 27). -/
theorem scheduleEvents : Obligations.ScheduleEvents := by
  intro s s1 s2 s3 s4 s5 q id die core block word c x t ha y k
  refine ⟨fun hc hw hq hslot hroom => ⟨fun hfail => ?_, fun hfail hread => ⟨fun htype => ?_, fun tin tout kern comm h0 h6 hbad hpay hin hout hkern hcomm => ?_⟩⟩,
    fun hc hw hq hslot hfail hread => ⟨fun htype hlow hhigh hnext => ?_, fun h1 h5 => ?_⟩,
    fun hx hwaits hfirst => ⟨fun ht => ?_, fun n ht hn => ?_, fun n run0 ht hgood hn => ?_, fun hbad => ?_, fun ht hgood hroom => ?_⟩,
    fun hx hwants hclaims hfirst hsaved => ⟨fun lent hp => ?_, fun hp => ?_⟩,
    fun hx hwaits hneed => ?_, fun b i hb hi => ?_, fun hb => ?_, fun hx hst => ⟨fun hrun => ?_, fun hrun => ?_, fun hrun => ?_⟩,
    fun ht hst hsw hall hplace since hsince hdue => ?_, fun swap stop ht hc hst hdx hdefer hdr => ⟨fun hpool => ?_, fun first hpool hsnoops => ?_⟩,
    fun addr units check last run ht hst hfits hroom hfirst hclaims hsnoops => ⟨fun hbad => ?_, fun hgood heng => ?_, fun hgood heng => ?_⟩,
    fun addr units check last ht hst hmay => ?_, fun ht hocc hcan => ?_⟩
  · exact happens_walkRecord_failed ha hc hw hq hslot hroom hfail
  · exact happens_walkRecord_badType ha hc hw hq hslot hroom hfail hread htype
  · exact happens_walkRecord_enters ha hc hw hq hslot hroom hfail hread h0 h6 hbad hpay hin hout hkern hcomm
  · have hfield : field word 127 64 = word / 2 ^ 64 % 2 ^ 64 := field_eq_of_width word rfl
    rw [← hfield] at hnext ⊢
    exact happens_linkFollow_goes ha hc hw hq hslot hfail hread ((field_type word).trans htype)
      ((field_eq_of_width (n := 60) word rfl).trans hlow) ((field_eq_of_width (n := 896) word rfl).trans hhigh) hnext
  · rw [← field_type word] at h1 h5
    exact happens_linkFollow_taskRecord ha hc hw hq hslot hfail hread h1 h5
  · exact happens_taskDistribute_sync ha hx hwaits hfirst ht
  · exact happens_taskDistribute_copy ha hx hwaits hfirst ht hn
  · exact happens_taskDistribute_matrix ha hx hwaits hfirst ht hgood hn
  · exact happens_taskDistribute_bad ha hx hwaits hfirst hbad
  · exact happens_taskDistribute_collective ha hx hwaits hfirst ht hgood hroom
  · exact happens_clusterPlace_room ha hx hwants hclaims hfirst hsaved hp
  · exact happens_clusterPlace_noRoom ha hx hwants hclaims hfirst hsaved hp
  · exact fun vs hmet hvs => happens_preemptDecision ha hx hwaits hneed hmet hvs
  · exact happens_reclaimComplete ha hb hi
  · exact happens_blockClearDone ha hb
  · exact happens_taskRetire_done ha hx hst hrun
  · exact happens_taskRetire_waits ha hx hst hrun
  · exact happens_taskFault ha hx hst hrun
  · exact happens_swapwaitExpiry ha ht hst hsw hall hplace hsince hdue
  · exact happens_teamSave_noRun ha ht hc hst hdx hdefer hdr hpool
  · exact happens_teamSave_saves ha ht hc hst hdx hdefer hdr hpool hsnoops
  · exact happens_teamRestore_kills ha ht hst hfits (State.mayRestore_of hroom hfirst hclaims) hsnoops hbad
  · exact happens_teamRestore_restores ha ht hst hfits (State.mayRestore_of hroom hfirst hclaims) hsnoops hgood heng
  · exact happens_teamRestore_reserves ha ht hst hfits (State.mayRestore_of hroom hfirst hclaims) hsnoops hgood heng
  · exact happens_teamRestore_waits ha ht hst hmay
  · exact happens_teamRetire ha ht hocc hcan

end Sys2Proof.Machine
end

section
/-!
PROOFS. Reset, boot, attestation and loading, links, power and repairs: what the events of the part itself do (O53).
-/

namespace Sys2Proof.Machine

/-! ### Reset, boot and attestation (R59, R392 to R396) -/

/-- Memory of which only some addresses are kept reads zero at the others. -/
theorem memRead_filter (keep : Nat → Bool) (m : Memory) (a : Nat) : memRead (m.filter (fun c => keep c.1)) a = if keep a then memRead m a else 0 := by
  induction m with
  | nil => simp [memRead]
  | cons c m ih =>
    obtain ⟨k, v⟩ := c
    by_cases hk : keep k = true
    · by_cases hka : k = a
      · simp [memRead, ← hka, hk]
      · simp [memRead, hk, hka, ih]
    · by_cases hka : k = a
      · subst hka
        simpa [hk] using ih
      · simp [memRead, hk, hka, ih]

/-- A table of the numbers below n holds each of them. -/
theorem fget_range_map {β : Type} (h : Nat → β) {n i : Nat} (hi : i < n) : fget ((List.range n).map (fun j => (j, h j))) i = some (h i) := by
  have hgen : ∀ (ls : List Nat), i ∈ ls → fget (ls.map (fun j => (j, h j))) i = some (h i) := by
    intro ls hmem
    induction ls with
    | nil => simp at hmem
    | cons j ls ih =>
      by_cases hj : j = i
      · simp [fget, hj]
      · simp only [List.map_cons, fget, if_neg hj]
        exact ih (by simpa [Ne.symm hj] using hmem)
  exact hgen _ (List.mem_range.2 hi)

theorem exec_reset (s : State) (dead : List (Nat × Nat × Nat)) (bytes : List Nat) :
    ∃ r, exec (.reset dead bytes) s = .next r ∧ r.tripped = false ∧ r.now = 0 ∧ r.teams = [] ∧ r.boot = State.reset.boot ∧ r.deadSites = dead ∧
      (Memory.wf s.mem → ∀ a, memRead r.mem a = if offPart a then memRead s.mem a else 0) ∧
      ∀ i < 8, (r.cxlPort i).cap = min (bytes.getD i 0) 0x100000000000 := by
  refine ⟨_, rfl, rfl, rfl, rfl, rfl, rfl, fun _ a => memRead_filter offPart s.mem a, fun i hi => ?_⟩
  rw [State.cxlPort, fget_range_map (fun i => expander (bytes.getD i 0)) hi]
  rfl

section Boot

variable {s : State} {image : List Byte} (ha : s.Alive) (h1 : s.boot.stat ≠ 1) (h2 : s.boot.stat ≠ 2)
include ha h1 h2

/-- What the boot ROM loads: the bytes at BOOTADDR, BOOTLEN of them. -/
def Boot.load (b : Boot) (image : List Byte) : List Byte := (image ++ List.replicate b.len.toNat 0).take b.len.toNat

/-- A check of the image fails. -/
theorem happens_bootGo_fails (hcode : bootCheck (s.boot.load image) s.boot.len.toNat ≠ 0) :
    Happens (.bootGo image) s { s with boot := { s.boot with stat := bootCheck (s.boot.load image) s.boot.len.toNat } } := by
  unfold Boot.load at hcode ⊢
  show execBootGo image s = _
  rw [execBootGo, ha.event]
  simp only [h1, h2, decide_false, Bool.or_false, Bool.false_eq_true, if_false, if_pos hcode]

variable (hcode : bootCheck (s.boot.load image) s.boot.len.toNat = 0)
include hcode

/-- The vendor protocols of the body are not the shipped ones, or fail their own checks (log 33). -/
theorem happens_bootGo_protocols
    (hbad : ∃ i < 4, (imgJudge (vendorImage (s.boot.load image) i)).1 ≠ 0 ∨ vendorImage (s.boot.load image) i ≠ shipped i) :
    Happens (.bootGo image) s { s with boot := { s.boot with stat := 7 } } := by
  have hany : (List.range 4).any (fun i => decide ((imgJudge (vendorImage (s.boot.load image) i)).1 ≠ 0) ||
      decide (vendorImage (s.boot.load image) i ≠ shipped i)) = true := by
    obtain ⟨i, hi, hne⟩ := hbad
    exact List.any_eq_true.2 ⟨i, List.mem_range.2 hi, by simpa using hne⟩
  unfold Boot.load at hcode hany
  show execBootGo image s = _
  rw [execBootGo, ha.event]
  simp only [h1, h2, decide_false, Bool.or_false, Bool.false_eq_true, if_false, hcode, ne_eq, not_true_eq_false, hany, if_true]

/-- The firmware runs, with the shipped protocols in the first four slots. -/
theorem happens_bootGo_runs (hgood : ∀ i < 4, (imgJudge (vendorImage (s.boot.load image) i)).1 = 0 ∧ vendorImage (s.boot.load image) i = shipped i) :
    Happens (.bootGo image) s { s with
      prots := (List.range 8).map (fun i => if i < 4 then some (shipped i) else s.prots.getD i none),
      boot := { s.boot with stat := 2, image := s.boot.load image }, attest := { s.attest with gen := 1 } } := by
  have hany : (List.range 4).any (fun i => decide ((imgJudge (vendorImage (s.boot.load image) i)).1 ≠ 0) ||
      decide (vendorImage (s.boot.load image) i ≠ shipped i)) = false :=
    List.any_eq_false.2 fun i hi => by obtain ⟨hj, hv⟩ := hgood i (List.mem_range.1 hi); rw [hv] at hj; simp [hv, hj]
  unfold Boot.load at hcode hany
  show execBootGo image s = _
  rw [execBootGo, ha.event]
  simp only [h1, h2, decide_false, Bool.or_false, Bool.false_eq_true, if_false, hcode, ne_eq, not_true_eq_false, hany]
  rfl

end Boot

/-- The attestation block with a status, its nonce spent. -/
def State.attested (a : State) (st : Nat) : State := { a with attest := { a.attest with stat := st, nonce := List.replicate 8 0 } }

theorem happens_attestGo {s : State} (ha : s.Alive) (h1 : s.attest.stat ≠ 1) :
    Happens .attestGo s (if s.reportBad s.attest.rptaddr.toNat then s.attested 3
      else (s.homeWrite s.attest.rptaddr.toNat (s.reportBody ++ rsaSign s.reportBody)).attested 2) := by
  show execAttestGo s = _
  rw [execAttestGo, ha.event]
  simp only [if_neg h1]
  rfl

/-! ### Loading (R379, R380) -/

theorem happens_codeObjectLoad_refused {s : State} {file : List Byte} {plan : LoadPlan} (ha : s.Alive)
    (hbad : (loaderReport file ((s.capList (s.blockCtx plan.ctxBlock).part).map (·.toNat))).1 ≠ 0) :
    Happens (.codeObjectLoad file plan) s { s with report := loaderReport file ((s.capList (s.blockCtx plan.ctxBlock).part).map (·.toNat)) } := by
  show execCodeObjectLoad file plan s = _
  rw [execCodeObjectLoad, ha.event]
  simp only [if_pos hbad]

/-- The pieces of an object, relocated. -/
def loadPieces (file : List Byte) (plan : LoadPlan) : List Piece := (entriesOf 24 (bytesOfType file 7)).foldl relocate (piecesOf file plan.base)

theorem happens_codeObjectLoad_loads {s : State} {file : List Byte} {plan : LoadPlan} {ws : List (List (Nat × List Byte))} (ha : s.Alive)
    (hgood : (loaderReport file ((s.capList (s.blockCtx plan.ctxBlock).part).map (·.toNat))).1 = 0)
    (halign : ∀ p ∈ loadPieces file plan, p.va % pieceAlign file p = 0)
    (hws : allSome (fun p => s.placesOf (s.blockCtx plan.ctxBlock) p) (loadPieces file plan) = some ws) :
    let loaded := (ws.flatMap (fun w => w)).foldl (fun (a : State) w => a.homeWrite w.1 w.2)
      { s with report := loaderReport file ((s.capList (s.blockCtx plan.ctxBlock).part).map (·.toNat)) }
    let new := presetsOf file plan.ctxBlock (loadPieces file plan)
    Happens (.codeObjectLoad file plan) s { loaded with
      presets := loaded.presets.filter (fun e => !(new.any (fun x => decide (x.1 = e.1) && decide (x.2.1 = e.2.1)))) ++ new,
      argmarks := loaded.argmarks.filter (fun e => !(decide (e.1 = plan.ctxBlock) && (loadPieces file plan).any (fun p => decide (p.va ≤ e.2.1) &&
        decide (e.2.1 < p.va + p.bytes.length)))) ++ argMarks file plan.ctxBlock (loadPieces file plan) } := by
  have hplaced : (loadPieces file plan).any (fun p => decide (p.va % pieceAlign file p ≠ 0)) = false :=
    List.any_eq_false.2 fun p hp => by simp [halign p hp]
  unfold loadPieces at hplaced hws ⊢
  intro loaded new
  show execCodeObjectLoad file plan s = _
  rw [execCodeObjectLoad, ha.event]
  simp only [hgood, ne_eq, not_true_eq_false, if_false, hplaced, Bool.false_eq_true, hws]
  rfl

/-! ### Links (R382, R387, R389, R390) -/

section Ualink

variable {s : State} {port pa n ctx cdie : Nat} {trk : Bool} (ha : s.Alive) (hport : port < 18) (hup : s.linkUp (.ualink port) = true)
include ha hport hup

/-- A request that is none of those implemented, or lies in no buffer of a collective, moves no byte and counts. -/
theorem happens_ualinkRequest_refused {q : LinkReq} (hq : (LinkReq.span q).2.2 = false ∨ s.reqColl (LinkReq.span q).1 (LinkReq.span q).2.1 = none) :
    Happens (.ualinkRequest port q) s { s with ports := fset s.ports port { s.port port with refused := sat16 (s.port port).refused } } := by
  have hnone : (if (LinkReq.span q).2.2 then s.reqColl (LinkReq.span q).1 (LinkReq.span q).2.1 else none) = none := by
    rcases hq with h | h
    · simp [h]
    · simp [h]
  show execUalinkRequest port q s = _
  rw [execUalinkRequest, ha.event]
  simp only [Nat.not_le.2 hport, decide_false, hup, Bool.not_true, Bool.or_false, Bool.false_eq_true, if_false, hnone]

theorem happens_ualinkRequest_write {data : List Byte} (h4 : 4 ≤ data.length) (h256 : data.length ≤ 256) (hlen : data.length % 4 = 0) (hpa : pa % 4 = 0)
    (hcoll : s.reqColl pa data.length = some (cdie, ctx, trk)) : Happens (.ualinkRequest port (.write pa data)) s (s.engineWrite ctx cdie trk pa data) := by
  show execUalinkRequest port _ s = _
  rw [execUalinkRequest, ha.event]
  simp [Nat.not_le.2 hport, hup, LinkReq.span, h4, h256, hlen, hpa, hcoll]

theorem happens_ualinkRequest_read (h4 : 4 ≤ n) (h256 : n ≤ 256) (hlen : n % 4 = 0) (hpa : pa % 4 = 0)
    (hcoll : s.reqColl pa n = some (cdie, ctx, trk)) : Happens (.ualinkRequest port (.read pa n)) s (s.engineRead ctx cdie trk pa n).2 := by
  show execUalinkRequest port _ s = _
  rw [execUalinkRequest, ha.event]
  simp [Nat.not_le.2 hport, hup, LinkReq.span, h4, h256, hlen, hpa, hcoll]

/-- What an atomic request leaves of an old value: a compare-and-swap, a swap or a sum. -/
def linkAtomic (op : AtomOp) (x old n : Nat) (cmp : Option Nat) : Nat :=
  match cmp with
  | some c => if old = c % 256 ^ n then x else old
  | none => if op = .swap then x else old + x

theorem happens_ualinkRequest_atomic {op : AtomOp} {x : Nat} {cmp : Option Nat} (hn : n = 4 ∨ n = 8) (hpa : pa % n = 0)
    (hop : cmp ≠ none ∨ op = .add ∨ op = .swap) (hcoll : s.reqColl pa n = some (cdie, ctx, trk)) :
    Happens (.ualinkRequest port (.atomic pa n op x cmp)) s ((s.engineRead ctx cdie trk pa n).2.engineWrite ctx cdie trk pa
      (leBytes n (linkAtomic op x (leNat (s.engineRead ctx cdie trk pa n).1) n cmp % 256 ^ n))) := by
  have hspan : LinkReq.span (.atomic pa n op x cmp) = (pa, n, true) := by
    simp [LinkReq.span, hn, hpa, ← Option.ne_none_iff_isSome, or_assoc, hop]
  show execUalinkRequest port _ s = _
  rw [execUalinkRequest, ha.event]
  simp only [Nat.not_le.2 hport, decide_false, hup, Bool.not_true, Bool.or_false, Bool.false_eq_true, if_false, hspan, if_true, hcoll]
  rfl

end Ualink

theorem happens_linkTraining {s : State} {port width : Nat} (ha : s.Alive) (hport : port < 18) (hdown : (s.port port).width = 0)
    (hwidth : width = 1 ∨ width = 2 ∨ width = 4) (hlanes : widthLanes (if width = 4 then 3 else width) ≤ (s.port port).working) :
    Happens (.linkTraining port width true) s { s with ports := fset s.ports port { s.port port with width := if width = 4 then 3 else width } } := by
  rcases hwidth with rfl | rfl | rfl
  · have hw : ¬ (s.port port).working < widthLanes 1 := Nat.not_lt.2 hlanes
    show execLinkTraining port 1 true s = _
    rw [execLinkTraining, ha.event]
    simp [Nat.not_le.2 hport, hdown, hw]
  · have hw : ¬ (s.port port).working < widthLanes 2 := Nat.not_lt.2 hlanes
    show execLinkTraining port 2 true s = _
    rw [execLinkTraining, ha.event]
    simp [Nat.not_le.2 hport, hdown, hw]
  · have hw : ¬ (s.port port).working < widthLanes 3 := Nat.not_lt.2 hlanes
    show execLinkTraining port 4 true s = _
    rw [execLinkTraining, ha.event]
    simp [Nat.not_le.2 hport, hdown, hw]

/-- The part with one more replay among those of the last 1 ms. -/
def State.replayed (s : State) (link : Link) (lane : Nat) : State :=
  { s with replays := s.replays.filter (fun r => decide (s.now < r.at_ + 1500000)) ++ [⟨link, lane, s.now⟩] }

section Flit

variable {s : State} {link : Link} {lane p : Nat} (ha : s.Alive) (hup : s.linkUp link = true) (hlane : s.laneWorks link lane = true)
include ha hup hlane

theorem happens_flitReplay (hlink : ∀ p, link ≠ .ualink p) : Happens (.flitReplay link lane) s (s.replayed link lane) := by
  show execFlitReplay link lane s = _
  rw [execFlitReplay, ha.event]
  simp only [hup, hlane, Bool.not_true, Bool.or_false, Bool.false_eq_true, if_false]
  cases link with
  | ualink p => exact absurd rfl (hlink p)
  | cxl p => rfl
  | milesk => rfl

/-- A port counts its replays (R390). -/
theorem happens_flitReplay_ualink (hlink : link = .ualink p) : Happens (.flitReplay link lane) s
    { s.replayed link lane with ports := fset s.ports p { s.port p with replays := satWord (s.port p).replays } } := by
  show execFlitReplay link lane s = _
  rw [execFlitReplay, ha.event]
  simp only [hup, hlane, Bool.not_true, Bool.or_false, Bool.false_eq_true, if_false]
  subst hlink
  rfl

/-- A link without the lane, which is to retrain. -/
def State.laneGone (s : State) (link : Link) (lane : Nat) : State :=
  { s with replays := s.replays.filter (fun r => !(decide (r.link = link) && decide (r.lane = lane))), retrain := s.retrain ++ [link] }

/-- The record of a retired lane, kept by its link. -/
def State.retireLane (s : State) (link : Link) (lane : Nat) : State :=
  match link with
  | .ualink p => { s.laneGone link lane with ports := fset s.ports p { s.port p with retired := (s.port p).retired + 2 ^ lane } }
  | .cxl p => { s.laneGone link lane with cxl := fset s.cxl p { s.cxlPort p with retired := (s.cxlPort p).retired ++ [lane] } }
  | .milesk => { s.laneGone link lane with milesk := s.milesk ++ [lane / 8] }

theorem happens_laneRetire
    (hmany : 16 < (s.replays.filter (fun r => decide (r.link = link) && decide (r.lane = lane) && decide (s.now < r.at_ + 1500000))).length) :
    Happens (.laneRetire link lane) s ((s.retireLane link lane).pause (Link.die link)) := by
  have hfew : ¬ (s.replays.filter (fun r => decide (r.link = link) && decide (r.lane = lane) && decide (s.now < r.at_ + clocksPerMs))).length ≤ 16 :=
    Nat.not_le.2 hmany
  show execLaneRetire link lane s = _
  rw [execLaneRetire, ha.event]
  simp only [hup, hlane, Bool.not_true, Bool.or_false, Bool.false_or, decide_eq_true_eq, if_neg hfew]
  cases link with
  | ualink p => rfl
  | cxl p => rfl
  | milesk => rfl

end Flit

section Retrain

variable {s : State} {link : Link} {p : Nat} (ha : s.Alive) (hlink : link ∈ s.retrain)
include ha hlink

/-- The links that retrain but for one. -/
def State.retrained (s : State) (link : Link) : State := { s with retrain := s.retrain.filter (fun l => decide (l ≠ link)) }

/-- A port that has retrained: at the next lower width, or down when no lane works, where collectives that use it fail. -/
def State.retrainPort (s : State) (link : Link) (p : Nat) : State :=
  let x := s.port p
  let done := { s.retrained link with ports := fset s.ports p { x with width := if x.working = 0 then 0 else max 1 (x.width - 1) } }
  if x.working = 0 then done.linkLost (fun e => decide (e % 1024 ≠ (s.die 0).pkgid) && Config.portReaches p (e % 1024)) else done

theorem happens_retrainDone_ualink (hp : link = .ualink p) : Happens (.retrainDone link) s (s.retrainPort link p) := by
  subst hp
  show execRetrainDone _ s = _
  rw [execRetrainDone, ha.event]
  simp only [List.contains_iff_mem.2 hlink, Bool.not_true, Bool.false_eq_true, if_false]
  rfl

theorem happens_retrainDone_narrower (hp : link = .ualink p) (hw : (s.port p).working ≠ 0) : Happens (.retrainDone link) s
    { s.retrained link with ports := fset s.ports p { s.port p with width := max 1 ((s.port p).width - 1) } } := by
  have h := happens_retrainDone_ualink ha hlink hp
  simp only [State.retrainPort, if_neg hw] at h
  exact h

theorem happens_retrainDone_down (hp : link = .ualink p) (hw : (s.port p).working = 0) : Happens (.retrainDone link) s
    (State.linkLost { s.retrained link with ports := fset s.ports p { s.port p with width := 0 } }
      (fun e => decide (e % 1024 ≠ (s.die 0).pkgid) && Config.portReaches p (e % 1024))) := by
  have h := happens_retrainDone_ualink ha hlink hp
  simp only [State.retrainPort, if_pos hw] at h
  exact h

theorem happens_retrainDone_cxl (hp : link = .cxl p) :
    Happens (.retrainDone link) s { s.retrained link with cxl := fset s.cxl p (if 16 ≤ (s.cxlPort p).retired.length
      then { s.cxlPort p with width := 0, down := true } else { s.cxlPort p with width := max 1 ((s.cxlPort p).width / 2) }) } := by
  subst hp
  show execRetrainDone _ s = _
  rw [execRetrainDone, ha.event]
  simp only [List.contains_iff_mem.2 hlink, Bool.not_true, Bool.false_eq_true, if_false]
  rfl

theorem happens_retrainDone_milesk (hp : link = .milesk) :
    Happens (.retrainDone link) s { s.retrained link with mileskDown := decide (5 ≤ s.milesk.length) } := by
  subst hp
  show execRetrainDone _ s = _
  rw [execRetrainDone, ha.event]
  simp only [List.contains_iff_mem.2 hlink, Bool.not_true, Bool.false_eq_true, if_false]
  rfl

end Retrain

/-! ### Power and thermal pressure (R58, R397) -/

/-- The committed partitions whose clock is not fixed. -/
def State.slowable (s : State) : List Nat := s.committed.filter (fun p => !descFixclk (s.desc p))

/-- The part with every clock that is not fixed a step slower. -/
def State.slowed (s : State) : State := s.slowable.foldl (fun (a : State) p => a.modPart p (fun x => { x with steps := min 12 (x.steps + 1) })) s

theorem happens_throttleStep {s : State} (ha : s.Alive) (hdue : s.stepDue = true) :
    Happens .throttleStep s { s.slowed with
      pwrStep := s.now, pwrFloor := if s.slowable.all (fun p => decide (12 ≤ (s.slowed.part p).steps)) then some (s.pwrFloor.getD s.now) else none } := by
  show execThrottleStep s = _
  rw [execThrottleStep, ha.event]
  simp only [hdue, Bool.not_true, Bool.false_eq_true, if_false]
  rfl

theorem happens_unthrottleStep {s : State} (ha : s.Alive) (hdue : s.stepDue = true) :
    Happens .unthrottleStep s { s.committed.foldl (fun (a : State) p => a.modPart p (fun x => { x with steps := x.steps - 1 })) s with
      pwrStep := s.now, pwrFloor := none, pwrQuiet := none } := by
  show execUnthrottleStep s = _
  rw [execUnthrottleStep, ha.event]
  simp only [hdue, Bool.not_true, Bool.false_eq_true, if_false]

/-- A partition of fixed clock goes first (log 31). -/
theorem happens_partitionStop {s : State} {at_ p : Nat} (ha : s.Alive) (hfloor : s.pwrFloor = some at_) (hdue : at_ + 1500000 ≤ s.now)
    (hnext : s.shedNext ((s.committed.filter (fun p => !(s.part p).stopped)).filter (fun p => descFixclk (s.desc p))) = some p) :
    Happens .partitionStop s (s.stopPart p) := by
  show execPartitionStop s = _
  rw [execPartitionStop, ha.event]
  simp only [hfloor, clocksPerMs, if_neg (Nat.not_lt.2 hdue), hnext]

/-- The part without power: its clock, and memory beyond it, are left, and the interrupt has been raised (R397; log 23). -/
def State.withoutPower (s : State) (celsius : Nat) : State :=
  { State.reset with
    now := s.now, agenda := s.agenda, free := s.free, serial := s.serial, irqs := (s.irq 9 0 celsius).irqs, mem := s.mem.filter (fun c => offPart c.1),
    tripped := true }

theorem exec_thermalTrip {s : State} (ha : s.Alive) (celsius : Nat) :
    ∃ r, exec (.thermalTrip celsius) s = .next r ∧ r.tripped = true ∧ r.teams = [] ∧ r.now = s.now ∧ r.irqs = (s.irq 9 0 celsius).irqs := by
  refine ⟨s.withoutPower celsius, ?_, rfl, rfl, rfl, rfl⟩
  show execThermalTrip celsius s = _
  rw [execThermalTrip, ha.event, State.runKills_quiet rfl]
  rfl

/-! ### Errors and repairs (R387, R388, R391) -/

section Scrub

variable {s : State} {die : Nat} {loc : ErrLoc} (ha : s.Alive)
include ha

theorem happens_scrub_corrected :
    Happens (.scrub die loc true none) s ((s.modDie die (fun d => { d with cecnt := satWord d.cecnt })).countCorrected loc) := by
  show execScrub die loc true none s = _
  rw [execScrub, ha.event]
  rfl

theorem happens_scrub_logged : Happens (.scrub die loc false none) s ((s.modDie die (fun d => { d with uecnt := satWord d.uecnt })).rasLog die) := by
  show execScrub die loc false none s = _
  rw [execScrub, ha.event]
  rfl

/-- The context of the reader that meets an error dies. -/
theorem happens_scrub_read {reader : ErrReader} :
    Happens (.scrub die loc false (some reader)) s ((s.modDie die (fun d => { d with uecnt := satWord d.uecnt })).askKill
      ⟨reader.ctx, 8, s.errWho reader loc, leBytes 8 (ErrLoc.record loc).1 ++ leBytes 8 (ErrLoc.record loc).2.1.toNat⟩) := by
  show execScrub die loc false (some reader) s = _
  rw [execScrub, ha.event]
  rfl

end Scrub

theorem happens_bankSpareCopy {s : State} {die core bank : Nat} (ha : s.Alive) (hmany : 64 ≤ (fget (s.core (coreKey die core)).corr bank).getD 0)
    (hfree : (s.core (coreKey die core)).spares.length < 4) :
    Happens (.bankSpareCopy die core bank) s ((s.setCore (coreKey die core) { s.core (coreKey die core) with
      spares := (s.core (coreKey die core)).spares ++ [bank], corr := fdel (s.core (coreKey die core)).corr bank }).pause die) := by
  show execBankSpareCopy die core bank s = _
  rw [execBankSpareCopy, ha.event]
  simp [Nat.not_lt.2 hmany, Nat.not_le.2 hfree]

theorem happens_l2WayReplace {s : State} (ha : s.Alive) (die slice way : Nat) :
    Happens (.l2WayReplace die slice way) s (s.modSlice (sliceKey die slice) (fun x => if x.spare.isNone then { x with spare := some way } else x)) := by
  show execL2WayReplace die slice way s = _
  rw [execL2WayReplace, ha.event]

/-- The teams on a core's column that its repair moves. -/
def State.teamsOfRepair (s : State) (die core : Nat) : FMap Team :=
  s.teams.filter (fun e => s.underRepair e.2.key && decide (e.2.die = die) && decide (e.2.core % 8 = core % 8) && e.2.occupies)

section Repair

variable {s : State} {die core : Nat} {site : Nat × Nat × Nat} (ha : s.Alive)
  (hsite : s.repair.find? (fun r => decide (r.1 = die) && decide (r.2.1 = core % 8) && decide (s.rowOf r.1 r.2.1 r.2.2 = core / 8)) = some site)
include ha hsite

/-- No team is in the way: the column's map is loaded anew. -/
theorem happens_coreRepair_maps (hnone : s.teamsOfRepair die core = []) : Happens (.coreRepair die core) s
    (State.pause { s with repair := s.repair.filter (fun r => decide (r ≠ site)), deadSites := s.deadSites ++ [site] } die) := by
  unfold State.teamsOfRepair at hnone
  show execCoreRepair die core s = _
  rw [execCoreRepair, ha.event]
  simp only [hsite, hnone, List.isEmpty_nil, if_true]

/-- The teams in the way begin to be saved first. -/
theorem happens_coreRepair_saves (hsome : s.teamsOfRepair die core ≠ []) : Happens (.coreRepair die core) s
    ((((s.teamsOfRepair die core).filter (fun e => decide (e.2.status = .resident) && e.2.full.isEmpty)).flatMap (fun e => s.savedWith e)).eraseDups.foldl
      (fun (a : State) m => a.beginSave false false (some (0, 0)) m) s) := by
  have hfull : (s.teamsOfRepair die core).isEmpty = false := by simpa using hsome
  unfold State.teamsOfRepair at hfull ⊢
  show execCoreRepair die core s = _
  rw [execCoreRepair, ha.event]
  simp only [hsite, hfull, Bool.false_eq_true, if_false]

end Repair

/-- Settles O53, event by event. Checks in one step and BOOTSTAT 7 (log 33), the width of a port at its last lane (log 32), stops and pauses (log 31),
the places that the loader judges (log 34) and the ports that reach a package (log 48) are the model's choice, as is what reset and the trip keep
(log 23). -/
theorem partEvents : Obligations.PartEvents := by
  intro s dead bytes image file plan port width lane die core bank slice way link loc pa n ctx cdie trk reader data celsius
  exact ⟨exec_reset s dead bytes, fun ha => ⟨fun h1 h2 => ⟨happens_bootGo_fails ha h1 h2, happens_bootGo_protocols ha h1 h2, happens_bootGo_runs ha h1 h2⟩,
    happens_attestGo ha, ⟨happens_codeObjectLoad_refused ha, fun ws => happens_codeObjectLoad_loads ha⟩,
    fun hport hup => ⟨fun q hq => happens_ualinkRequest_refused ha hport hup hq, happens_ualinkRequest_write ha hport hup, happens_ualinkRequest_read ha hport hup,
      fun op x cmp hn hpa hop hcoll => happens_ualinkRequest_atomic ha hport hup hn hpa hop hcoll⟩,
    happens_linkTraining ha,
    fun hup hlane => ⟨happens_flitReplay ha hup hlane, fun p hp => happens_flitReplay_ualink ha hup hlane hp, happens_laneRetire ha hup hlane⟩,
    fun hlink => ⟨fun p hp hw => happens_retrainDone_narrower ha hlink hp hw, fun p hp hw => happens_retrainDone_down ha hlink hp hw,
      fun p hp => happens_retrainDone_cxl ha hlink hp, happens_retrainDone_milesk ha hlink⟩,
    fun hdue => ⟨happens_throttleStep ha hdue, happens_unthrottleStep ha hdue⟩,
    fun at_ p hfloor hdue hnext => happens_partitionStop ha hfloor hdue hnext, exec_thermalTrip ha celsius,
    ⟨happens_scrub_corrected ha, happens_scrub_logged ha, happens_scrub_read ha⟩, happens_bankSpareCopy ha, happens_l2WayReplace ha die slice way,
    fun site hsite => ⟨happens_coreRepair_maps ha hsite, happens_coreRepair_saves ha hsite⟩⟩⟩

end Sys2Proof.Machine
end

section
/-!
PROOFS. The words of instructions (O56, O57): what the decoder reads, format by format, and that encoding and decoding agree.
-/

namespace Sys2Proof

/-! ### What the decoder reads (R78, R82) -/

/-- Whatever is read under an opcode carries the control bits at hand, and the opcode is assigned. -/
def ReadsFor (opc : Nat) (c : Ctl) (o : Option Instr) : Prop := ∀ i, o = some i → i.ctl = some c ∧ opcAssigned opc = true

section
variable {opc : Nat} {c : Ctl}

@[simp] theorem readsFor_none : ReadsFor opc c none := by simp [ReadsFor]

@[simp] theorem readsFor_some {i : Instr} : ReadsFor opc c (some i) ↔ i.ctl = some c ∧ opcAssigned opc = true := by
  simp [ReadsFor]

@[simp] theorem readsFor_guardOpt {ok : Bool} {i : Instr} : ReadsFor opc c (guardOpt ok i) ↔ (ok = true → i.ctl = some c ∧ opcAssigned opc = true) := by
  cases ok <;> simp [guardOpt]

@[simp] theorem readsFor_bind {α : Type} {o : Option α} {f : α → Option Instr} : ReadsFor opc c (o.bind f) ↔ ∀ x, o = some x → ReadsFor opc c (f x) := by
  cases o <;> simp

@[simp] theorem readsFor_ite {p : Prop} [Decidable p] {x y : Option Instr} :
    ReadsFor opc c (if p then x else y) ↔ (p → ReadsFor opc c x) ∧ (¬ p → ReadsFor opc c y) := by
  split <;> simp_all

end

-- Where an opcode has several forms, the form is in its MOD field, and each is read by itself. What is then left to see of a term is read off it.

theorem decodeGen_reads (opc : Nat) (c : Ctl) (w : Nat) : ReadsFor opc c (decodeGen opc c w) := by
  unfold decodeGen
  split
  case h_40 => dsimp only; split <;> simp only [readsFor_none, readsFor_some] <;> exact ⟨rfl, rfl⟩
  all_goals simp only [readsFor_none, readsFor_some, readsFor_guardOpt, readsFor_bind]
  all_goals intros; exact ⟨rfl, rfl⟩

theorem decodeFloat_reads (opc : Nat) (c : Ctl) (w : Nat) : ReadsFor opc c (decodeFloat opc c w) := by
  unfold decodeFloat
  split
  case h_7 =>
    simp only [readsFor_bind]
    intro k _ p _
    split <;> simp only [readsFor_some, readsFor_bind] <;> intros <;> exact ⟨rfl, rfl⟩
  all_goals simp only [readsFor_none, readsFor_guardOpt, readsFor_bind]
  all_goals intros; exact ⟨rfl, rfl⟩

theorem decodeControl_reads (opc : Nat) (c : Ctl) (w : Nat) : ReadsFor opc c (decodeControl opc c w) := by
  unfold decodeControl
  split
  all_goals simp only [readsFor_none, readsFor_some, readsFor_guardOpt]
  all_goals intros; exact ⟨rfl, rfl⟩

theorem decodeXln_reads (opc : Nat) (c : Ctl) (w : Nat) : ReadsFor opc c (decodeXln opc c w) := by
  unfold decodeXln
  split
  case h_6 => split <;> simp only [readsFor_guardOpt, readsFor_bind] <;> intros <;> exact ⟨rfl, rfl⟩
  all_goals simp only [readsFor_none, readsFor_guardOpt, readsFor_bind]
  all_goals intros; exact ⟨rfl, rfl⟩

theorem decodeTbar_reads (c : Ctl) (w : Nat) : ReadsFor 0x88 c (decodeTbar c w) := by
  unfold decodeTbar
  split
  all_goals simp only [readsFor_none, readsFor_some]
  all_goals exact ⟨rfl, rfl⟩

theorem decodeMem_reads (opc : Nat) (c : Ctl) (w : Nat) : ReadsFor opc c (decodeMem opc c w) := by
  unfold decodeMem
  split
  case h_3 | h_4 =>
    rw [readsFor_bind]
    intro sz _
    split <;> simp only [readsFor_none, readsFor_some] <;> exact ⟨rfl, rfl⟩
  case h_7 => dsimp only; split <;> simp only [readsFor_none, readsFor_guardOpt] <;> intros <;> exact ⟨rfl, rfl⟩
  case h_9 => exact decodeTbar_reads c w
  all_goals simp only [readsFor_none, readsFor_some, readsFor_guardOpt, readsFor_bind, Prod.forall, decodeLock, decodeBar]
  all_goals intros; exact ⟨rfl, rfl⟩

theorem decodeMat_reads (opc : Nat) (c : Ctl) (w : Nat) : ReadsFor opc c (decodeMat opc c w) := by
  unfold decodeMat
  split
  case h_2 | h_6 | h_7 | h_9 => dsimp only; split <;> simp only [readsFor_none, readsFor_some, readsFor_guardOpt] <;> intros <;> exact ⟨rfl, rfl⟩
  all_goals simp only [readsFor_none, readsFor_guardOpt]
  all_goals intros; exact ⟨rfl, rfl⟩

theorem decodeSys_reads (opc : Nat) (c : Ctl) (w : Nat) : ReadsFor opc c (decodeSys opc c w) := by
  unfold decodeSys
  split
  case h_1 => split <;> simp only [readsFor_guardOpt] <;> intros <;> exact ⟨rfl, rfl⟩
  case h_3 | h_4 => dsimp only; split <;> simp only [readsFor_none, readsFor_some] <;> exact ⟨rfl, rfl⟩
  all_goals simp only [readsFor_none, readsFor_guardOpt]
  all_goals intros; exact ⟨rfl, rfl⟩

theorem rawDecode_reads (w : Nat) : ReadsFor (bits w 56 8) (ctlOf w) (rawDecode w) := by
  simp [rawDecode, decodeGen_reads, decodeFloat_reads, decodeControl_reads, decodeXln_reads, decodeMem_reads, decodeMat_reads, decodeSys_reads]

/-- What the decoder answers is the term read from the word, and that term is well formed. -/
theorem decodeWord_ok_iff {w : DWord} {i : Instr} : decodeWord w = .ok i ↔ rawDecode w.toNat = some i ∧ i.wellFormed = true := by
  unfold decodeWord
  cases rawDecode w.toNat with
  | none => by_cases h : opcAssigned (bits w.toNat 56 8) <;> simp [h]
  | some j =>
    by_cases h : j.wellFormed
    · simp only [h, if_true, Except.ok.injEq, Option.some.injEq]
      exact ⟨fun e => ⟨e, e ▸ h⟩, fun e => e.1⟩
    · simp only [h, if_false, Option.some.injEq, Bool.false_eq_true, reduceCtorEq, false_iff, not_and]
      exact fun e => e ▸ h

theorem ctl_of_decodeWord {w : DWord} {i : Instr} (h : decodeWord w = .ok i) : i.ctl = some (ctlOf w.toNat) :=
  (rawDecode_reads w.toNat i (decodeWord_ok_iff.1 h).1).1

theorem decodeWord_unassigned {w : DWord} (h : opcAssigned (bits w.toNat 56 8) = false) : decodeWord w = .error .unassigned := by
  have hraw : rawDecode w.toNat = none := Option.eq_none_iff_forall_ne_some.2 fun i hi => by
    simpa [h] using (rawDecode_reads w.toNat i hi).2
  simp [decodeWord, hraw, h]

/-! ### What the encoder writes (R80) -/

/-- The native instructions are those that have a word. -/
theorem encode_isSome (i : Instr) : (encode i).isSome = i.ctl.isSome := by
  cases i
  case acpy c sz src x y z => cases src <;> rfl
  all_goals rfl

/-- The word of a well-formed instruction is decoded to it, with every operand: one lemma for each native instruction. -/
theorem decodeWord_of_encode {i : Instr} {w : DWord} (hwf : i.wellFormed = true) (he : encode i = some w) : decodeWord w = .ok i := by
  refine (?_ : Laws.RoundTrip.Statement i) hwf w he
  cases i with
  | nop => apply Laws.RoundTrip.nop
  | iadd => apply Laws.RoundTrip.iadd
  | isub => apply Laws.RoundTrip.isub
  | imul => apply Laws.RoundTrip.imul
  | imulh => apply Laws.RoundTrip.imulh
  | imad => apply Laws.RoundTrip.imad
  | imadw => apply Laws.RoundTrip.imadw
  | idiv => apply Laws.RoundTrip.idiv
  | irem => apply Laws.RoundTrip.irem
  | imin => apply Laws.RoundTrip.imin
  | imax => apply Laws.RoundTrip.imax
  | iabs => apply Laws.RoundTrip.iabs
  | ineg => apply Laws.RoundTrip.ineg
  | iaddi => apply Laws.RoundTrip.iaddi
  | icmp => apply Laws.RoundTrip.icmp
  | icmpi => apply Laws.RoundTrip.icmpi
  | and => apply Laws.RoundTrip.and
  | or => apply Laws.RoundTrip.or
  | xor => apply Laws.RoundTrip.xor
  | not => apply Laws.RoundTrip.not
  | blut3 => apply Laws.RoundTrip.blut3
  | lopi => apply Laws.RoundTrip.lopi
  | shl => apply Laws.RoundTrip.shl
  | shr => apply Laws.RoundTrip.shr
  | sar => apply Laws.RoundTrip.sar
  | rol => apply Laws.RoundTrip.rol
  | shi => apply Laws.RoundTrip.shi
  | bfx => apply Laws.RoundTrip.bfx
  | bfi => apply Laws.RoundTrip.bfi
  | popc => apply Laws.RoundTrip.popc
  | clz => apply Laws.RoundTrip.clz
  | ctz => apply Laws.RoundTrip.ctz
  | brev => apply Laws.RoundTrip.brev
  | permb => apply Laws.RoundTrip.permb
  | lea => apply Laws.RoundTrip.lea
  | sel => apply Laws.RoundTrip.sel
  | plop => apply Laws.RoundTrip.plop
  | mov => apply Laws.RoundTrip.mov
  | movi => apply Laws.RoundTrip.movi
  | movxRd => apply Laws.RoundTrip.movxRd
  | movxWr => apply Laws.RoundTrip.movxWr
  | srd => apply Laws.RoundTrip.srd
  | swr => apply Laws.RoundTrip.swr
  | fadd => apply Laws.RoundTrip.fadd
  | fsub => apply Laws.RoundTrip.fsub
  | fmul => apply Laws.RoundTrip.fmul
  | ffma => apply Laws.RoundTrip.ffma
  | fmin => apply Laws.RoundTrip.fmin
  | fmax => apply Laws.RoundTrip.fmax
  | fcmp => apply Laws.RoundTrip.fcmp
  | fclass => apply Laws.RoundTrip.fclass
  | frnd => apply Laws.RoundTrip.frnd
  | fscale => apply Laws.RoundTrip.fscale
  | fgetexp => apply Laws.RoundTrip.fgetexp
  | fgetman => apply Laws.RoundTrip.fgetman
  | fdot2 => apply Laws.RoundTrip.fdot2
  | cvt => apply Laws.RoundTrip.cvt
  | pack => apply Laws.RoundTrip.pack
  | unpack => apply Laws.RoundTrip.unpack
  | bra => apply Laws.RoundTrip.bra
  | brx => apply Laws.RoundTrip.brx
  | call => apply Laws.RoundTrip.call
  | callx => apply Laws.RoundTrip.callx
  | ret => apply Laws.RoundTrip.ret
  | lpad => apply Laws.RoundTrip.lpad
  | loop => apply Laws.RoundTrip.loop
  | lbrk => apply Laws.RoundTrip.lbrk
  | spawn => apply Laws.RoundTrip.spawn
  | exit => apply Laws.RoundTrip.exit
  | yield => apply Laws.RoundTrip.yield
  | bkpt => apply Laws.RoundTrip.bkpt
  | trap => apply Laws.RoundTrip.trap
  | rcp => apply Laws.RoundTrip.rcp
  | rsq => apply Laws.RoundTrip.rsq
  | sqrt => apply Laws.RoundTrip.sqrt
  | fdiv => apply Laws.RoundTrip.fdiv
  | ex2 => apply Laws.RoundTrip.ex2
  | lg2 => apply Laws.RoundTrip.lg2
  | sinpi => apply Laws.RoundTrip.sinpi
  | cospi => apply Laws.RoundTrip.cospi
  | tanh => apply Laws.RoundTrip.tanh
  | rand => apply Laws.RoundTrip.rand
  | lxch => apply Laws.RoundTrip.lxch
  | vote => apply Laws.RoundTrip.vote
  | matchx => apply Laws.RoundTrip.matchx
  | xred => apply Laws.RoundTrip.xred
  | xscan => apply Laws.RoundTrip.xscan
  | lanemap => apply Laws.RoundTrip.lanemap
  | lanemapRd => apply Laws.RoundTrip.lanemapRd
  | active => apply Laws.RoundTrip.active
  | elect => apply Laws.RoundTrip.elect
  | ld => apply Laws.RoundTrip.ld
  | st => apply Laws.RoundTrip.st
  | prefL1 => apply Laws.RoundTrip.prefL1
  | prefL2 => apply Laws.RoundTrip.prefL2
  | cmaintWb => apply Laws.RoundTrip.cmaintWb
  | cmaintWbinv => apply Laws.RoundTrip.cmaintWbinv
  | cmaintWbmem => apply Laws.RoundTrip.cmaintWbmem
  | fence => apply Laws.RoundTrip.fence
  | acqr => apply Laws.RoundTrip.acqr
  | acpy => apply Laws.RoundTrip.acpy
  | mcpy => apply Laws.RoundTrip.mcpy
  | tbarInit => apply Laws.RoundTrip.tbarInit
  | tbarArrive => apply Laws.RoundTrip.tbarArrive
  | tbarArriveSect => apply Laws.RoundTrip.tbarArriveSect
  | tbarSect => apply Laws.RoundTrip.tbarSect
  | tbarWait => apply Laws.RoundTrip.tbarWait
  | tbarTest => apply Laws.RoundTrip.tbarTest
  | atom => apply Laws.RoundTrip.atom
  | atomn => apply Laws.RoundTrip.atomn
  | acas => apply Laws.RoundTrip.acas
  | exsum => apply Laws.RoundTrip.exsum
  | excvt => apply Laws.RoundTrip.excvt
  | waitc => apply Laws.RoundTrip.waitc
  | llock => apply Laws.RoundTrip.llock
  | lunlk => apply Laws.RoundTrip.lunlk
  | ltry => apply Laws.RoundTrip.ltry
  | lstat => apply Laws.RoundTrip.lstat
  | bar => apply Laws.RoundTrip.bar
  | cbar => apply Laws.RoundTrip.cbar
  | mxm => apply Laws.RoundTrip.mxm
  | mxldZero => apply Laws.RoundTrip.mxldZero
  | mxldFill => apply Laws.RoundTrip.mxldFill
  | mxldRestore => apply Laws.RoundTrip.mxldRestore
  | mxst => apply Laws.RoundTrip.mxst
  | mxwait => apply Laws.RoundTrip.mxwait
  | mstat => apply Laws.RoundTrip.mstat
  | sshape => apply Laws.RoundTrip.sshape
  | sshapeRd => apply Laws.RoundTrip.sshapeRd
  | strmOpen => apply Laws.RoundTrip.strmOpen
  | strmSub => apply Laws.RoundTrip.strmSub
  | strmUnsub => apply Laws.RoundTrip.strmUnsub
  | strmClose => apply Laws.RoundTrip.strmClose
  | taskpost => apply Laws.RoundTrip.taskpost
  | taskseq => apply Laws.RoundTrip.taskseq
  | taskseqWait => apply Laws.RoundTrip.taskseqWait
  | coll => apply Laws.RoundTrip.coll
  | dxsync => apply Laws.RoundTrip.dxsync
  | dxq => apply Laws.RoundTrip.dxq
  | tret => apply Laws.RoundTrip.tret
  | tretSkip => apply Laws.RoundTrip.tretSkip
  | caps => apply Laws.RoundTrip.caps
  | elogSync => apply Laws.RoundTrip.elogSync
  | elogCnt => apply Laws.RoundTrip.elogCnt
  | elogPut => apply Laws.RoundTrip.elogPut
  | tlbiAll => apply Laws.RoundTrip.tlbiAll
  | tlbiVa => apply Laws.RoundTrip.tlbiVa
  | tlbiPart => apply Laws.RoundTrip.tlbiPart
  | protld => apply Laws.RoundTrip.protld
  | objdecl => apply Laws.RoundTrip.objdecl
  | objrel => apply Laws.RoundTrip.objrel
  | div64 => apply Laws.RoundTrip.div64
  | rem64 => apply Laws.RoundTrip.rem64
  | mulh64 => apply Laws.RoundTrip.mulh64
  | crcb => apply Laws.RoundTrip.crcb
  | _ => cases he

/-- Settles O56: instruction by instruction for the words of well-formed instructions; and for what the decoder answers, by the terms that each format
reads. -/
theorem encodingsAgree : Obligations.EncodingsAgree := by
  intro i w
  refine ⟨decodeWord_of_encode, fun _ hctl => ?_, fun h => ?_, decodeWord_unassigned⟩
  · exact Option.isSome_iff_exists.1 ((encode_isSome i).trans (Option.isSome_iff_ne_none.2 hctl))
  · exact ⟨(decodeWord_ok_iff.1 h).2, by simp [ctl_of_decodeWord h]⟩

/-- Settles O57: the words are decoded as they stand. -/
theorem decodesSpecWords : Obligations.DecodesSpecWords := ⟨rfl, rfl, rfl, rfl, rfl⟩

end Sys2Proof
end

section
/-!
PROOFS. Every instruction and every event answers a next state (O55).
-/

namespace Sys2Proof.Machine

/-! ### Every instruction and every event answers (R83, R397) -/

@[simp] theorem State.runKills_kills (s : State) : s.runKills.kills = [] := by
  unfold State.runKills
  split
  · next h => exact List.isEmpty_iff.1 h
  · rfl

@[simp] theorem State.endNative_kills (s r : State) (ctx : Nat) : (s.endNative ctx r).kills = [] := by
  unfold State.endNative
  split <;> exact State.runKills_kills _

/-- A native instruction leaves no kill pending. -/
theorem native_answers (i : Instr) (s : State) (body : Who → State → State) : ∃ r, native i s body = .next r ∧ (s.kills = [] → r.kills = []) := by
  unfold native
  split
  · split
    · exact ⟨s, rfl, id⟩
    · dsimp only
      split
      · exact ⟨_, rfl, id⟩
      · split <;> exact ⟨_, rfl, fun _ => State.endNative_kills _ _ _⟩
  · exact ⟨s, rfl, id⟩

/-- Every event but a reset asks first whether the part has its power, and carries out the kills that it decides. -/
theorem exec_event {i : Instr} (h : i.ctl = none) (hr : ∀ sites bytes, i ≠ .reset sites bytes) (s : State) :
    ∃ r : State, exec i s = if s.tripped then .next s else .next r.runKills := by
  cases i with
  | bundleSeed | clauseFetch | clauseBoundary | fairnessTimerExpiry | readyButWaiting | xlnExitCompletion | eventRecordExpiry | operationComplete
    | faultRecordPost | answerRetry | answerFail | badtagClear | faultQueueEnable | sliceRequestEnqueue | homeStorePerformed | monitorReread
    | waitcTimeout | atomicRequestAtHome | sluiceSectorLand | acqrWriteback | matrixOpComplete | causewayDataArrive | staitheTileDeliver
    | lockRequestAtHome | unlockAtHome | lockTimeout | deadlockProbe | absenceArrive | presenceArrive | lockholdMaxExpiry | rd | wr0 | wr1 | evc | wb
    | ack | staleMessage | hostMemoryAccess | bisnpResponse | hostLineWrite | retentionEnter | retentionWake | queueEnable | queueDisable
    | qtailWrite | registerWrite | commit | oversubClear | resume | drain | kill | lkcntClear | staleCountersClear | errorCountersClear | declare
    | replaysClear | bootGo | attestGo | codeObjectLoad | walkRecord | linkFollow | taskDistribute | clusterPlace | preemptDecision | reclaimComplete
    | blockClearDone | taskRetire | taskFault | swapwaitExpiry | teamSave | teamRestore | teamRetire | quantumCommit | collectiveStart
    | collectiveComplete | ualinkRequest | linkTraining | flitReplay | laneRetire | retrainDone | linkReplayTimeout | selfTestFail | throttleStep
    | partitionStop | unthrottleStep | thermalTrip | scrub | bankSpareCopy | l2WayReplace | coreRepair =>
    exact ⟨_, rfl⟩
  | reset sites bytes => exact absurd rfl (hr sites bytes)
  | _ => cases h

theorem exec_answers (i : Instr) (s : State) : ∃ r, exec i s = .next r ∧ (s.kills = [] → r.kills = []) := by
  cases hc : i.ctl with
  | some c =>
    obtain ⟨body, he⟩ := exec_native i c hc s
    exact he ▸ native_answers i s body
  | none =>
    by_cases hr : ∃ sites bytes, i = .reset sites bytes
    · obtain ⟨sites, bytes, rfl⟩ := hr
      exact ⟨_, rfl, fun _ => rfl⟩
    · obtain ⟨r, he⟩ := exec_event hc (fun sites bytes e => hr ⟨sites, bytes, e⟩) s
      rw [he]
      split
      · exact ⟨s, rfl, id⟩
      · exact ⟨_, rfl, fun _ => r.runKills_kills⟩

theorem exec_tripped {i : Instr} {s : State} (hp : s.tripped = true) (h : i.ctl = none) (hr : ∀ sites bytes, i ≠ .reset sites bytes) :
    exec i s = .next s := by
  obtain ⟨r, he⟩ := exec_event h hr s
  rw [he, if_pos hp]

/-- A part without power passes over a move that is no reset. -/
theorem step_tripped {i : Instr} {s : State} {d : Nat} {rest : List (Nat × Move)} (hp : s.tripped = true) (hr : ∀ sites bytes, i ≠ .reset sites bytes)
    (ha : s.agenda = (d, .event i) :: rest) : step s = .next { s with agenda := rest } := by
  have hm : (Move.event i).isReset = false := by
    unfold Move.isReset
    split
    · next sites bytes e => exact absurd (Move.event.inj e) (hr sites bytes)
    · rfl
  simp [step, State.advance, ha, hp, hm]

/-- Settles O55: a native instruction and an event each end with the kills carried out that they decided. That none ends in a fault or a refusal is the
model's choice (log 42). -/
theorem everyInstructionAnswers : Obligations.EveryInstructionAnswers := fun s i _ _ => ⟨exec_answers i s, exec_tripped, step_tripped⟩

end Sys2Proof.Machine
end

section
/-!
PROOFS. Issuing: an instruction that no fibre performs (O24) or that fails a check (O22), and how a step of the part issues the word of a bundle (O58).
-/

namespace Sys2Proof.Machine

/-! ### Nobody performs it, or checks fail (R79, R83) -/

/-- Settles O24: with no fibre to perform it, an instruction that stands issues, and only the clocks of its bundle are counted. -/
theorem nothingPerformed : Obligations.NothingPerformed := by
  intro s i w t c H hp
  have hi : Issues s i w c t := { toStands := H, passes := by simp [hp] }
  obtain ⟨body, he⟩ := exec_native i c H.ctl s
  rw [he, native_of_issues hi]
  simp [hp, H.unheld, State.endNative_quiet, H.quiet]

/-- Fibres that all fail their checks, each with a trap of its own: none performs the instruction. -/
theorem stands_traps_each {s : State} {i : Instr} {w : Who} {c : Ctl} {t : Team} {tr : Nat × Nat → Trap} (hd : Handled s w c t) (H : Stands s i w c t)
    (hv : ∀ x ∈ s.performers w c, laneCheck i c t (s.fibre w.team x.1 x.2) w.pos = some (tr x)) : TrapsEach i s w c t tr := by
  obtain ⟨body, he⟩ := exec_native i c H.ctl s
  exact traps_each H.toFaces hd tr rfl (he.trans (native_failed_each H tr hv body))

/-- A register outside the window is found before anything else (R83, step 2). -/
theorem laneCheck_window {i : Instr} {c : Ctl} {t : Team} {f : Fibre} {pos : Nat} (h : ∃ n ∈ i.reads ++ i.writes, n.outside t.kern.win = true) :
    laneCheck i c t f pos = some .window := by
  have hout : (i.reads.any (RName.outside t.kern.win) || i.writes.any (RName.outside t.kern.win)) = true := by
    rw [← List.any_append]; exact List.any_eq_true.2 h
  simp [laneCheck, hout]

/-- The checking scoreboard finds an undersized or an uncovered operand (R83, step 3). -/
theorem laneCheck_stallchk {i : Instr} {c : Ctl} {t : Team} {f : Fibre} {pos : Nat} (hin : ∀ n ∈ i.reads ++ i.writes, n.outside t.kern.win = false)
    (hsb : t.scoreboard = true) (h : (∃ n ∈ pg c.pidx ++ i.reads, f.undersized pos n = true) ∨ (∃ n ∈ pg c.pidx ++ i.reads ++ i.writes, ∃ u ∈ f.uncov, u.1 = n)) :
    laneCheck i c t f pos = some .stallchk := by
  have hout : (i.reads.any (RName.outside t.kern.win) || i.writes.any (RName.outside t.kern.win)) = false := by
    rw [← List.any_append, List.any_eq_false]; exact fun n hn => by simp [hin n hn]
  have hbad : ((pg c.pidx ++ i.reads).any (f.undersized pos) ||
      (pg c.pidx ++ i.reads ++ i.writes).any (fun x => f.uncov.any (fun u => decide (u.1 = x)))) = true := by
    simpa only [Bool.or_eq_true, List.any_eq_true, decide_eq_true_eq] using h
  simp only [laneCheck, hout, hsb, hbad, Bool.true_and, Bool.false_eq_true, if_false, if_true]

/-- Settles O22: ILLEGAL before any other check; then, for fibres that all fail, the check of each in the order of R83. -/
theorem failedChecks : Obligations.FailedChecks := by
  intro s i w t c tr hd
  refine ⟨fun H hi => ?_, fun H h => ?_, fun H hin hsb h => ?_, stands_traps_each hd⟩
  · obtain ⟨body, he⟩ := exec_native i c H.ctl s
    exact illegal_faces H hd hi he
  · exact stands_traps_each hd H (tr := fun _ => .window) fun x hx => laneCheck_window (h x hx)
  · exact stands_traps_each hd H (tr := fun _ => .stallchk) fun x hx => laneCheck_stallchk hin hsb (h x hx)

/-! ### A step (R83, R85, R103; logs 2 and 40) -/

section Step

variable {s : State} {d : Nat} {m : Move} {rest : List (Nat × Move)} (hp : s.tripped = false) (ha : s.agenda = (d, m) :: rest)
include hp ha

/-- The move set out is made after the clocks before it. -/
theorem step_performs : step s = s.perform d m rest := by
  simp [step, State.advance, ha, hp]

/-- A move before which nothing comes about is made when its clocks have passed. -/
theorem step_makes (hfree : s.delay d m = 0 ∨ (s.dueEvent = none ∧ s.upTo (s.delay d m) = s.delay d m)) :
    step s = State.make (if s.delay d m = 0 then { s with agenda := rest } else State.pass { s with agenda := rest } (s.delay d m)) m := by
  rw [step_performs hp ha, State.perform]
  by_cases h0 : s.delay d m = 0
  · simp [h0]
  · obtain ⟨hdue, hup⟩ := hfree.resolve_left h0
    simp [h0, hdue, hup]

theorem step_due {e : Instr} (hn : 0 < s.delay d m) (hdue : s.dueEvent = some e) : step s = exec e s := by
  rw [step_performs hp ha, State.perform]
  simp [Nat.ne_of_gt hn, hdue]

theorem step_passes (hn : 0 < s.delay d m) (hdue : s.dueEvent = none) (hup : s.upTo (s.delay d m) < s.delay d m) :
    step s = .next (State.pass { s with agenda := (d - s.upTo (s.delay d m), m) :: rest } (s.upTo (s.delay d m))) := by
  rw [step_performs hp ha, State.perform]
  simp [Nat.ne_of_gt hn, hdue, hup, ha]

end Step

section Issue

variable {s : State} {id : Nat} {b : Bundle} (hb : fget s.bundles id = some b) (hpick : s.picks id b = true)
include hb hpick

/-- A bundle that its sub-core picks issues the instruction of its word. -/
theorem issueNext_instr {i : Instr} (hw : decodeWord (b.words.getD b.idx 0) = .ok i) :
    s.issueNext id = andAfter (exec i { s with focus := some id }) (fun t => t.afterIssue id (groupsOf (s.activeOf b)) (b.words.getD b.idx 0)) := by
  simp only [State.issueNext, hb, hpick, hw, Bool.not_true, Bool.false_eq_true, if_false]

/-- A word that is no instruction is issued as ILLEGAL. -/
theorem issueNext_badWord {e : DecodeError} (hw : decodeWord (b.words.getD b.idx 0) = .error e) :
    s.issueNext id = .next ((State.badWord { s with focus := some id } (b.words.getD b.idx 0)).afterIssue id (groupsOf (s.activeOf b))
      (b.words.getD b.idx 0)) := by
  simp only [State.issueNext, hb, hpick, hw, Bool.not_true, Bool.false_eq_true, if_false]

end Issue

/-- Settles O58, by the form of a step: clocks and what comes about in them, then the move, and for an issue the bundle's next word. -/
theorem stepIssuesDecodedInstruction : Obligations.StepIssuesDecodedInstruction := by
  intro s d id rest b i m a n p free f word gs hp ha
  refine ⟨?_, ?_, step_due hp ha, step_passes hp ha⟩
  · rintro rfl hfree hb hpick
    have hstep : step s = p.issueNext id := step_makes hp ha hfree
    exact ⟨fun hw => hstep.trans (issueNext_instr hb hpick hw), fun e hw => hstep.trans (issueNext_badWord hb hpick hw)⟩
  · rintro rfl hfree
    exact step_makes hp ha hfree

end Sys2Proof.Machine
end

section
/-!
PROOFS. The events of a sub-core (O45): seeding a bundle, fetching its clause, its boundary, fairness, records, and operations that complete.
-/

namespace Sys2Proof.Machine

/-! ### Groups changed one after another -/

/-- A group after changes of groups of its team: those that name it, in their order. -/
theorem State.group_foldl_modGroup {α : Type} (t g : Nat) (h : Nat × α → Group → Group) (ls : List (Nat × α)) (s : State) :
    (ls.foldl (fun (a : State) m => a.modGroup t m.1 (h m)) s).group t g =
      (s.group t g).map (fun y => (ls.filter (fun m => decide (m.1 = g))).foldl (fun y m => h m y) y) := by
  induction ls generalizing s with
  | nil => simp
  | cons m ls ih =>
    rw [List.foldl_cons, ih, State.group_modGroup]
    by_cases hm : m.1 = g <;> simp [hm, Function.comp_def]

/-- What every step of a fold brings about, from an invariant that the steps keep, holds after at least one step. -/
theorem foldl_establishes {α β : Type} {f : β → α → β} (I P : β → Prop) {ls : List α} (hls : ls ≠ []) (hf : ∀ y, I y → ∀ m ∈ ls, I (f y m) ∧ P (f y m))
    {y : β} (hy : I y) : P (ls.foldl f y) := by
  induction ls generalizing y with
  | nil => exact absurd rfl hls
  | cons m ls ih =>
    obtain ⟨hi, hp⟩ := hf y hy m (by simp)
    cases ls with
    | nil => exact hp
    | cons n ls => exact ih (by simp) (fun y hy k hk => hf y hy k (List.mem_cons_of_mem _ hk)) hi

theorem filter_fst_ne_nil {α : Type} {ls : List (Nat × α)} {m : Nat × α} (hm : m ∈ ls) : ls.filter (fun n => decide (n.1 = m.1)) ≠ [] :=
  List.ne_nil_of_mem (List.mem_filter.2 ⟨hm, by simp⟩)

theorem State.fibre_modGroup_keep (s : State) (t g k l : Nat) (h : Machine.Group → Machine.Group) (hh : ∀ x, (h x).fibres = x.fibres) :
    (s.modGroup t g h).fibre t k l = s.fibre t k l := by
  rw [State.fibre_eq, State.fibre?_modGroup s t g t k l h hh, State.fibre_eq]

/-! ### Seeding a bundle (R103, R104) -/

/-- The bundle that a front path seeds. -/
def Bundle.seeded (team sub : Nat) (p : Machine.Path) (members : List (Nat × Lanes)) (now : Nat) : Bundle :=
  ⟨team, sub, p.pc, p.idx, p.depth, members, false, 0, [], 0, now, now, true, false, [], []⟩

/-- The part with a bundle seeded, which its members have joined. -/
def State.withSeeded (s : State) (team : Nat) (b : Bundle) : State :=
  b.members.foldl (fun (a : State) m => a.modGroup team m.1 (fun y => y.joinBundle s.serial m.2))
    { s with serial := s.serial + 1, bundles := fset s.bundles s.serial b }

section Seed

variable (s : State) (team : Nat) (b : Bundle)

@[simp] theorem State.withSeeded_bundles : (s.withSeeded team b).bundles = fset s.bundles s.serial b :=
  State.foldl_keeps (·.bundles) b.members (fun a m => a.modGroup team m.1 (fun y => y.joinBundle s.serial m.2)) (fun _ _ => rfl) _

@[simp] theorem State.withSeeded_serial : (s.withSeeded team b).serial = s.serial + 1 :=
  State.foldl_keeps (·.serial) b.members (fun a m => a.modGroup team m.1 (fun y => y.joinBundle s.serial m.2)) (fun _ _ => rfl) _

@[simp] theorem State.withSeeded_kills : (s.withSeeded team b).kills = s.kills :=
  State.foldl_keeps (·.kills) b.members (fun a m => a.modGroup team m.1 (fun y => y.joinBundle s.serial m.2)) (fun _ _ => rfl) _

variable {s team b}

theorem State.withSeeded_member {m : Nat × Lanes} (hm : m ∈ b.members) {y : Machine.Group} (hy : (s.withSeeded team b).group team m.1 = some y) :
    y.bundle = s.serial ∧ y.skip = false := by
  unfold State.withSeeded at hy
  rw [State.group_foldl_modGroup] at hy
  obtain ⟨z, -, rfl⟩ := Option.map_eq_some_iff.1 hy
  exact foldl_establishes (fun _ => True) (fun y : Machine.Group => y.bundle = s.serial ∧ y.skip = false) (filter_fst_ne_nil hm)
    (fun _ _ _ _ => ⟨trivial, rfl, rfl⟩) trivial

end Seed

/-! ### Fetching a clause (R75, R76, R87) -/

/-- A group all of whose words can be read is given them. -/
theorem State.fetchGroup_ok {s : State} {t : Team} {b : Bundle} {g : Nat} {h : DWord} {ws : Nat → DWord} (id : Nat)
    (hh : s.fetchWord t g b.pc.toNat = .ok h) (hw : ∀ k ≤ hdrCount h, s.fetchWord t g (b.pc + BitVec.ofNat 49 (8 + 8 * k)).toNat = .ok (ws k)) :
    s.fetchGroup t id b g = (some (h, (List.range (hdrCount h + 1)).map ws), s) := by
  have houts : (List.range (hdrCount h + 1)).map (fun i => s.fetchWord t g (b.pc + BitVec.ofNat 49 (8 + 8 * i)).toNat) =
      (List.range (hdrCount h + 1)).map (fun i => Res.ok (ws i)) :=
    List.map_congr_left fun k hk => hw k (by simpa [Nat.lt_succ_iff] using hk)
  have htrap : ((List.range (hdrCount h + 1)).map (fun i => Res.ok (ws i))).findSome? Res.trap? = none := by simp [Res.trap?]
  have hmiss : ((List.range (hdrCount h + 1)).map (fun i => Res.ok (ws i))).filterMap Res.miss? = [] := by simp [Res.miss?]
  unfold State.fetchGroup
  simp only [hh, houts, htrap, hmiss, List.isEmpty_nil, Bool.not_true, Bool.false_eq_true, if_false, List.map_map]
  rfl

/-- Groups that all read the same clause are given it. -/
theorem State.foldl_fetchGroup {s : State} {t : Team} {id : Nat} {b : Bundle} {r : DWord × List DWord} {gs : List Nat} (hne : gs ≠ [])
    (hok : ∀ g ∈ gs, s.fetchGroup t id b g = (some r, s)) :
    gs.foldl (fun (a : Option (DWord × List DWord) × State) g => (a.1.or (a.2.fetchGroup t id b g).1, (a.2.fetchGroup t id b g).2)) (none, s) = (some r, s) := by
  refine foldl_establishes (fun a => a.2 = s ∧ (a.1 = none ∨ a.1 = some r)) (· = (some r, s)) hne ?_ ⟨rfl, .inl rfl⟩
  rintro ⟨o, a⟩ ⟨rfl, ho⟩ g hg
  rw [hok g hg]
  rcases ho with rfl | rfl <;> exact ⟨⟨rfl, .inr rfl⟩, rfl⟩

section KeepText

/-- Keeping words of a clause changes what the core and its die keep, and nothing else (R76, R178). -/
theorem State.keepText_keeps {β : Type} (p : State → β) (hcore : ∀ (a : State) k h, p (a.modCore k h) = p a) (hdie : ∀ (a : State) k h, p (a.modDie k h) = p a)
    (hfree : ∀ (a : State) n, p { a with free := n } = p a) (s : State) (t : Team) (ws : List (Nat × DWord)) : p (s.keepText t ws) = p s := by
  have hfill : ∀ (a : State) (e : Nat × DWord), p (a.fillTlb (some t.key) t.die (a.ctxOf t) e.1 .fetch) = p a := by
    intro a e
    unfold State.fillTlb
    exact (hfree _ _).trans ((hdie _ _ _).trans (hcore _ _ _))
  unfold State.keepText
  exact (hcore _ _ _).trans (State.foldl_keeps p ws _ hfill s)

variable (s : State) (t : Team) (ws : List (Nat × DWord))

@[simp] theorem State.keepText_group (u g : Nat) : (s.keepText t ws).group u g = s.group u g :=
  State.keepText_keeps (·.group u g) (fun _ _ _ => rfl) (fun _ _ _ => rfl) (fun _ _ => rfl) s t ws

@[simp] theorem State.keepText_coreNow (u : Nat) : (s.keepText t ws).coreNow u = s.coreNow u :=
  State.keepText_keeps (·.coreNow u) (fun _ _ _ => rfl) (fun _ _ _ => rfl) (fun _ _ => rfl) s t ws

@[simp] theorem State.keepText_bundles : (s.keepText t ws).bundles = s.bundles :=
  State.keepText_keeps (·.bundles) (fun _ _ _ => rfl) (fun _ _ _ => rfl) (fun _ _ => rfl) s t ws

@[simp] theorem State.keepText_kills : (s.keepText t ws).kills = s.kills :=
  State.keepText_keeps (·.kills) (fun _ _ _ => rfl) (fun _ _ _ => rfl) (fun _ _ => rfl) s t ws

end KeepText

/-- The groups of a bundle's members begin a clause, but for those that sleep. -/
def State.withBegun (s : State) (b : Bundle) (waits : List Nat) : State :=
  b.members.foldl (fun (a : State) m => a.modGroup b.team m.1 (fun x => if x.asleep then x else x.beginClause m.2 waits)) s

section Begin

variable (s : State) (b : Bundle) (waits : List Nat)

@[simp] theorem State.withBegun_bundles : (s.withBegun b waits).bundles = s.bundles :=
  State.foldl_keeps (·.bundles) b.members (fun a m => a.modGroup b.team m.1 _) (fun _ _ => rfl) s

@[simp] theorem State.withBegun_kills : (s.withBegun b waits).kills = s.kills :=
  State.foldl_keeps (·.kills) b.members (fun a m => a.modGroup b.team m.1 _) (fun _ _ => rfl) s

variable {s b}

/-- A member that begins a clause is due no longer (R107). -/
theorem State.withBegun_due {m : Nat × Lanes} (hm : m ∈ b.members) {y : Machine.Group} (hy : s.group b.team m.1 = some y) (hs : y.asleep = false) :
    ((s.withBegun b waits).group b.team m.1).map (·.due) = some none := by
  unfold State.withBegun
  rw [State.group_foldl_modGroup, hy]
  refine congrArg some (foldl_establishes (fun y : Machine.Group => y.asleep = false) (fun y => y.due = none) (filter_fst_ne_nil hm) ?_ hs)
  intro z hz n _
  rw [if_neg (by simp [hz])]
  exact ⟨hz, rfl⟩

end Begin

/-- The members of a bundle begin a clause, none of them held up by its WAIT. -/
theorem State.beginMembers_ready {s : State} {id : Nat} {b : Bundle} {waits : List Nat} (hne : b.members ≠ [])
    (hready : ∀ m ∈ b.members, ∃ y, s.group b.team m.1 = some y ∧ y.asleep = false ∧ y.clearOf waits = true) :
    s.beginMembers id b waits = (s.withBegun b waits).modBundle id (fun x => { x with members := b.members }) := by
  have hlate : ∀ m ∈ b.members, (!(((s.group b.team m.1).map (fun x => x.asleep || x.clearOf waits)).getD true)) = false := by
    intro m hm
    obtain ⟨y, hy, -, hc⟩ := hready m hm
    simp [hy, hc]
  have hstay : b.members.filter (fun m => !(!(((s.group b.team m.1).map (fun x => x.asleep || x.clearOf waits)).getD true))) = b.members :=
    List.filter_eq_self.2 fun m hm => by rw [hlate m hm]; rfl
  unfold State.beginMembers
  simp only [hstay, List.isEmpty_iff, hne, if_false]
  refine congrArg (fun a : State => a.modBundle id _) (List.foldl_ext _ _ _ fun a m hm => ?_)
  simp only [hlate m hm, Bool.false_eq_true, if_false]

section Events

variable {s : State} {team grp id : Nat} {t : Team} {x : Machine.Group} (ha : s.Alive)
include ha

theorem exec_bundleSeed (ht : s.team team = some t) (hx : s.group team grp = some x) {p : Machine.Path} (hp : x.paths.head? = some p)
    (hpick : s.pick t.key x.subcore t.part = some (.event (.bundleSeed team grp))) :
    exec (.bundleSeed team grp) s = .next (s.withSeeded team
      (Bundle.seeded team x.subcore p ((grp, p.lanes) :: s.joiners t grp x.subcore p) (s.coreNow team))) := by
  show execBundleSeed team grp s = _
  rw [execBundleSeed, ha.event]
  simp only [ht, hx, hp, hpick, ne_eq, not_true_eq_false, if_false]
  exact congrArg Host.Outcome.next (State.runKills_quiet ((s.withSeeded_kills team _).trans ha.quiet))

/-- A clause that all members read alike, and that is well formed, begins for members whose counters its WAIT finds zero. -/
theorem exec_clauseFetch {b : Bundle} {h : DWord} {ws : List DWord} (hb : fget s.bundles id = some b) (ht : s.team b.team = some t)
    (hf : b.fetched = false) (hne : b.members ≠ []) (hok : ∀ g ∈ b.members.map (·.1), s.fetchGroup t id b g = (some (h, ws), s))
    (hgood : clauseBad h ws = false)
    (hready : ∀ m ∈ b.members, ∃ y, s.group b.team m.1 = some y ∧ y.asleep = false ∧ y.clearOf (hdrWaits h) = true) :
    ∃ r, exec (.clauseFetch id) s = .next r ∧
      fget r.bundles id = some { b with fetched := true, cls := hdrClass h, words := ws, readyAt := s.coreNow b.team } ∧
      ∀ m ∈ b.members, (r.group b.team m.1).map (·.due) = some none := by
  have hfold := State.foldl_fetchGroup (by simpa using hne) hok
  let kept := s.keepText t ((b.pc.toNat, h) :: (List.range ws.length).map (fun i => ((b.pc + BitVec.ofNat 49 (8 + 8 * i)).toNat, ws.getD i 0)))
  have hbegin : kept.beginMembers id b (hdrWaits h) = _ := State.beginMembers_ready hne (fun m hm => by simpa [kept] using hready m hm)
  show ∃ r, execClauseFetch id s = .next r ∧ _
  rw [execClauseFetch, ha.event]
  simp only [hb, ht, hf, hfold, hgood, Bool.false_eq_true, if_false, kept, hbegin]
  rw [State.runKills_quiet (by simp [ha.quiet])]
  refine ⟨_, rfl, by simp [hb], fun m hm => ?_⟩
  obtain ⟨y, hy, hs, -⟩ := hready m hm
  exact State.withBegun_due (s := kept) _ hm (by simpa [kept] using hy) hs

/-! ### The boundary, fairness and records (R98 to R107, R159, R359) -/

theorem happens_clauseBoundary {b : Bundle} (hb : fget s.bundles id = some b) (ht : s.team b.team = some t) (hf : b.fetched = true)
    (hend : s.activeOf b = [] ∨ b.words.length ≤ b.idx) (hlock : s.lockPending b = false) :
    let left := b.members.foldl (fun (a : State) m => a.groupBoundary t b m.1 m.2) s
    let gone : State := { left with bundles := fdel left.bundles id, focus := if left.focus = some id then none else left.focus }
    Happens (.clauseBoundary id) s (if t.kern.dx = none then gone.barSettleAll b.team else gone) := by
  have hat : s.atBoundary b = true := by simpa [State.atBoundary, hf] using hend
  show execClauseBoundary id s = _
  rw [execClauseBoundary, ha.event]
  simp only [hb, ht, hat, hlock, Bool.not_true, Bool.or_self, Bool.false_eq_true, if_false]
  cases hdx : t.kern.dx <;> simp [Team.dx, hdx]

section Group

variable (ht : s.team team = some t) (hx : s.group team grp = some x)
include ht hx

theorem happens_fairnessTimerExpiry {p q : Machine.Path} {ps : List Machine.Path} (hp : x.paths = p :: q :: ps) (htimer : t.kern.fairq ≤ x.timer)
    (hb : x.bundle = 0) (hs : t.standing = true) :
    Happens (.fairnessTimerExpiry team grp) s (s.modGroup team grp (fun y => y.rotate (s.coreNow team))) := by
  show execFairnessTimerExpiry team grp s = _
  rw [execFairnessTimerExpiry, ha.event]
  simp [ht, hx, Team.timerFull, htimer, hp, hb, hs]

theorem happens_readyButWaiting (hr : s.ready t grp = true) (hl : x.readyAt + t.kern.fairq ≤ s.coreNow team) (hd : x.due = none) :
    Happens (.readyButWaiting team grp) s (s.modGroup team grp (fun y => { y with due := some (s.coreNow team) })) := by
  show execReadyButWaiting team grp s = _
  rw [execReadyButWaiting, ha.event]
  simp [ht, hx, hr, hl, hd]

theorem happens_eventRecordExpiry {e : EventRec} (he : x.event = some e) (hdx : t.kern.dx = none) (hold : e.opened + 1024 ≤ s.coreNow team) :
    Happens (.eventRecordExpiry team grp) s ((s.modGroup team grp (fun y => { y with event := none })).eventWrite t.ctx (eventBytes t grp e)) := by
  show execEventRecordExpiry team grp s = _
  rw [execEventRecordExpiry, ha.event]
  simp [ht, hx, he, Team.dx, hdx, hold, State.flushEvent]

end Group

/-- A parked set that an exit has completed: its fibres go to their successors once the instruction is performed. -/
theorem happens_xlnExitCompletion (hx : s.group team grp = some x) {p : Machine.Path} {all ps : Lanes} {word : DWord} {count : Nat} {i : Instr}
    (hc : x.completeSet = some (p, all)) (hk : p.kind = .parked ps word count) (hw : decodeWord word = .ok i) :
    let w : Who := ⟨0, team, p.pc, p.idx, count, 0, 2, word, [], (lanesOf all).map (fun l => (grp, l)), []⟩
    let moved := (lanesOf all).foldl (fun (a : State) l =>
      let f := (a.fibre team grp l).succOf p.pc count p.idx
      (a.modFibre team grp l (fun _ => { f.1 with lclk := f.1.lclk + 1 })).modGroup team grp (fun y => y.toBack l f.2.1.1 f.2.1.2 f.1.depth))
      (s.xlnDo i w grp [] (lanesOf all))
    Happens (.xlnExitCompletion team grp) s (moved.modGroup team grp (fun y => Group.newFront x y (s.coreNow team))) := by
  show execXlnExitCompletion team grp s = _
  rw [execXlnExitCompletion, ha.event]
  simp only [hx, hc, hk, hw]

/-! ### Operations that complete (R87, R369, R370) -/

/-- One load request of an operation is performed; the operation waits for more. -/
theorem happens_operationComplete_load {rid : Nat} {rq : Req} (hone : s.reqs.filter (fun e => decide (e.2.op = id) && e.2.kind.isLoad) = [(rid, rq)])
    (hrq : fget s.reqs rid = some rq) (hmay : s.mayBegin rid rq = true) {o : Op} (ho : fget ((s.beginReq rid rq).performLoad rid).ops id = some o)
    (hleft : o.left ≠ []) : Happens (.operationComplete id) s ((s.beginReq rid rq).performLoad rid) := by
  have hserve : s.serveLoads id = (s.beginReq rid rq).performLoad rid := by simp [State.serveLoads, hone, hrq, hmay]
  show execOperationComplete id s = _
  rw [execOperationComplete, ha.event]
  simp [hserve, ho, hleft]

end Events

/-- A fibre after an operation of its group is complete: a lane of it holds what was written, and the operation is none of its results to come. -/
def Op.completedLane (o : Op) (id : Nat) (ws : Nat → List (RName × Word)) (l : Nat) (f : Fibre) : Fibre :=
  if o.lanes.contains l then
    let f1 := f.land id (ws l)
    { f1 with pend := f1.pend.filter (fun e => decide (e.2 ≠ id)), busy := if o.sb = 0 then f1.busy else f1.busy - 1 }
  else f

/-- A group after an operation of it is complete: its counter goes down (R87). -/
def Op.completed (o : Op) (id : Nat) (ws : Nat → List (RName × Word)) (x : Machine.Group) : Machine.Group :=
  { x with
    sb := x.sb.modify o.sb (fun n => n - 1),
    fibres := (List.range x.fibres.length).map (fun l => o.completedLane id ws l (x.fibres.getD l Fibre.reset)) }

section Complete

variable {s : State} {id : Nat} {o : Op} (ho : fget s.ops id = some o)
include ho

theorem State.completeOp_eq : s.completeOp id = State.modGroup { s with ops := fdel s.ops id } o.team o.grp (o.completed id (s.opWrites o)) := by
  unfold State.completeOp
  rw [ho]
  rfl

theorem State.completeOp_ops : fget (s.completeOp id).ops id = none := by
  rw [State.completeOp_eq ho, State.modGroup_ops, fget_fdel, if_pos rfl]

theorem State.completeOp_kills : (s.completeOp id).kills = s.kills := by
  rw [State.completeOp_eq ho, State.modGroup_kills]

variable {x : Machine.Group} (hx : s.group o.team o.grp = some x)
include hx

theorem State.completeOp_group : (s.completeOp id).group o.team o.grp = some (o.completed id (s.opWrites o) x) := by
  rw [State.completeOp_eq ho, State.group_modGroup, if_pos ⟨rfl, rfl⟩]
  exact congrArg (Option.map _) hx

/-- What the operation wrote is in the registers and predicates of its lanes. -/
theorem State.completeOp_fibre {l : Nat} (hl : l ∈ o.lanes) {f : Fibre} (hf : x.fibres[l]? = some f) :
    ((s.completeOp id).fibre o.team o.grp l).regs = (f.land id (s.opWrites o l)).regs ∧
    ((s.completeOp id).fibre o.team o.grp l).pw = (f.land id (s.opWrites o l)).pw := by
  have hlane : (s.completeOp id).fibre? o.team o.grp l = some (o.completedLane id (s.opWrites o) l f) := by
    rw [State.fibre?, State.completeOp_group ho hx, Option.bind_some]
    exact (range_map_getElem? _ _ _ l).trans (congrArg (Option.map _) hf)
  rw [State.fibre_eq, hlane, Option.getD_some, Op.completedLane, if_pos (List.contains_iff_mem.2 hl)]
  exact ⟨rfl, rfl⟩

end Complete

/-- A state but for the clock from which a group counts as ready. -/
def ReadyLater (c : State) (t g : Nat) (r : State) : Prop := r = c ∨ ∃ n, r = c.modGroup t g (fun y => { y with readyAt := max y.readyAt n })

section ReadyLater

variable {c r : State} {t g : Nat} (h : ReadyLater c t g r)
include h

theorem ReadyLater.ops : r.ops = c.ops := by
  rcases h with rfl | ⟨n, rfl⟩ <;> rfl

theorem ReadyLater.kills : r.kills = c.kills := by
  rcases h with rfl | ⟨n, rfl⟩ <;> rfl

theorem ReadyLater.sb : (r.group t g).map (·.sb) = (c.group t g).map (·.sb) := by
  rcases h with rfl | ⟨n, rfl⟩
  · rfl
  · simp [State.group_modGroup, Function.comp_def]

theorem ReadyLater.fibre (l : Nat) : r.fibre t g l = c.fibre t g l := by
  rcases h with rfl | ⟨n, rfl⟩
  · rfl
  · exact State.fibre_modGroup_keep _ _ _ _ _ _ (fun _ => rfl)

theorem ReadyLater.answers (hk : c.kills = []) :
    ∃ r', (Host.Outcome.next r.runKills : Host.Outcome State Fault Refusal) = .next r' ∧ ReadyLater c t g r' :=
  ⟨r, by rw [State.runKills_quiet (h.kills.trans hk)], h⟩

end ReadyLater

/-- An operation whose lanes have been answered and that waits for no other completes; at most the clock from which its group counts as ready changes
besides. -/
theorem exec_operationComplete_done {s : State} {id : Nat} {o : Op} (ha : s.Alive) (ho : fget s.ops id = some o) (hleft : o.left = [])
    (hafter : ∀ k ∈ o.after, s.inFlight k = false) (hnone : s.reqs.filter (fun e => decide (e.2.op = id) && e.2.kind.isLoad) = []) :
    ∃ r, exec (.operationComplete id) s = .next r ∧ ReadyLater (s.completeOp id) o.team o.grp r := by
  have hserve : s.serveLoads id = s := by simp [State.serveLoads, hnone]
  have hany : o.after.any s.inFlight = false := by simpa using hafter
  show ∃ r, execOperationComplete id s = .next r ∧ _
  rw [execOperationComplete, ha.event]
  simp only [hserve, ho, hleft, hany, List.isEmpty_nil, Bool.not_true, Bool.or_self, Bool.false_eq_true, if_false]
  refine ReadyLater.answers ?_ ((State.completeOp_kills ho).trans ha.quiet)
  split
  · split
    · split
      · exact .inr ⟨_, rfl⟩
      · exact .inl rfl
    · exact .inl rfl
  · exact .inl rfl

/-- Settles O45, event by event: what the body of each comes to, and of a bundle seeded, a clause fetched and an operation completed, what the bundle,
the groups and the fibres hold then. -/
theorem subCoreEvents : Obligations.SubCoreEvents := by
  intro s team grp id t x p q ps b h ws e o ha ht hx
  refine ⟨?_, ?_, ?_, happens_fairnessTimerExpiry ha ht hx, happens_readyButWaiting ha ht hx, fun all word count i => happens_xlnExitCompletion ha hx,
    happens_eventRecordExpiry ha ht hx, ?_, ?_⟩
  · intro hp hpick members
    exact ⟨_, exec_bundleSeed ha ht hx hp hpick, by simp [Bundle.seeded, members], by simp, fun m hm y hy => State.withSeeded_member hm hy⟩
  · rintro hb rfl hf hne hread words hgood
    refine exec_clauseFetch ha hb ht hf hne (fun g hg => ?_) hgood (fun m hm => ?_)
    · obtain ⟨m, hm, rfl⟩ := List.mem_map.1 hg
      obtain ⟨hh, hw, -⟩ := hread m hm
      exact State.fetchGroup_ok id hh hw
    · obtain ⟨-, -, y, hy, hs, hz⟩ := hread m hm
      exact ⟨y, hy, hs, by simpa [Group.clearOf] using hz⟩
  · rintro hb rfl hf hend hlock
    exact happens_clauseBoundary ha hb ht hf hend hlock
  · rintro rid rq hone hrq hmay served ⟨o, ho, hleft⟩
    exact happens_operationComplete_load ha hone hrq hmay ho hleft
  · rintro ho hleft hafter rfl rfl hnone
    obtain ⟨r, hr, hlater⟩ := exec_operationComplete_done ha ho hleft hafter hnone
    refine ⟨r, hr, by rw [hlater.ops, State.completeOp_ops ho], by rw [hlater.sb, State.completeOp_group ho hx]; rfl, fun l hl f hf => ?_⟩
    rw [hlater.fibre]
    exact State.completeOp_fibre ho hx hl hf

end Sys2Proof.Machine
end

section
/-!
PROOFS. Control instructions: transfers, loops, exits and yields (O17), indirect transfers (O18), the faults of their own (O20) and the software traps (O21).
-/

namespace Sys2Proof.Machine

/-! ### One fibre at a control instruction: what it becomes, or its fault (R113, R119, R122, R357) -/

/-- CALL of one fibre (R113). -/
def callFibre (off : BitVec 24) (w : Who) (f : Fibre) : Except Trap Fibre :=
  if f.depth = 255 then .error (.cflow 2) else .ok { f.push w.after with leave := .goto (w.target off) 0 }

theorem exec_call_eq (c : Ctl) (off : BitVec 24) (hint : Bool) (s : State) :
    exec (.call c off hint) s = native (.call c off hint) s (fun w s => eachFibre w s (callFibre off w)) := rfl

theorem callFibre_full {off : BitVec 24} {w : Who} {f : Fibre} (h : f.depth = 255) : callFibre off w f = .error (.cflow 2) := if_pos h

theorem callFibre_pushes {off : BitVec 24} {w : Who} {f : Fibre} (h : f.depth < 255) :
    callFibre off w f = .ok { f with depth := f.depth + 1, stack := f.stack.take f.depth ++ [w.after], leave := .goto (w.target off) 0 } :=
  if_neg (Nat.ne_of_lt h)

/-- LOOP of one fibre (R119). -/
def loopFibre (off : BitVec 24) (a : Reg) (w : Who) (f : Fibre) : Except Trap Fibre :=
  if f.nest = 3 then .error (.cflow 4)
  else if f.get w.pos a = 0 then .ok { f with leave := .goto (w.target off) 0 } else .ok (f.openLoop (f.get w.pos a) w.after (w.target off))

theorem exec_loop_eq (c : Ctl) (off : BitVec 24) (a : Reg) (s : State) :
    exec (.loop c off a) s = native (.loop c off a) s (fun w s => eachFibre w s (loopFibre off a w)) := rfl

theorem loopFibre_full {off : BitVec 24} {a : Reg} {w : Who} {f : Fibre} (h : f.nest = 3) : loopFibre off a w f = .error (.cflow 4) := if_pos h

theorem loopFibre_opens {off : BitVec 24} {a : Reg} {w : Who} {f : Fibre} (h : f.nest < 3) :
    loopFibre off a w f = .ok (if f.get w.pos a = 0 then { f with leave := .goto (w.target off) 0 } else f.openLoop (f.get w.pos a) w.after (w.target off)) := by
  rw [loopFibre, if_neg (Nat.ne_of_lt h)]
  split <;> rfl

/-- LBRK of one fibre (R122). -/
def lbrkFibre (f : Fibre) : Except Trap Fibre :=
  match f.inner with
  | none => .error (.cflow 5)
  | some v => .ok { f.closeLevel with leave := .goto v.stop 0 }

theorem exec_lbrk_eq (c : Ctl) (hint : Bool) (s : State) :
    exec (.lbrk c hint) s = native (.lbrk c hint) s (fun w s => eachFibre w s lbrkFibre) := rfl

/-- The innermost level of a fibre is the last of its loops that lies above its handler's floor, at its call depth. -/
theorem Fibre.inner_level {f : Fibre} {v : LoopLevel} (hfloor : (if f.h then f.n0 else 0) < f.nest) (hlast : f.loops[f.nest - 1]? = some v)
    (hdepth : v.depth = f.depth) : f.inner = some v := by
  have hfl : f.floor < f.nest := hfloor
  simp [Fibre.inner, hfl, hlast, hdepth]

/-- A fibre in no loop, or whose last loop is of another call depth, has no innermost level. -/
theorem Fibre.inner_none {f : Fibre} (h : f.nest = 0 ∨ ∃ v, f.loops[f.nest - 1]? = some v ∧ v.depth ≠ f.depth) : f.inner = none := by
  rcases h with hnest | ⟨v, hlast, hdepth⟩
  · simp [Fibre.inner, hnest]
  · simp [Fibre.inner, hlast, hdepth]

theorem lbrkFibre_outside {f : Fibre} (h : f.inner = none) : lbrkFibre f = .error (.cflow 5) := by rw [lbrkFibre, h]

theorem lbrkFibre_leaves {f : Fibre} {v : LoopLevel} (h : f.inner = some v) :
    lbrkFibre f = .ok { f with nest := f.nest - 1, loops := f.loops.take (f.nest - 1), leave := .goto v.stop 0 } := by rw [lbrkFibre, h]; rfl

/-! ### Direct transfers, exits and yields (R111, R117, R124, R125) -/

/-- An instruction that changes no fibre: the part stands as its base does. -/
theorem moves_none {i : Instr} {s : State} {w : Who} {c : Ctl} {t : Team} (H : Issues s i w c t) {body : Who → State → State}
    (he : exec i s = native i s body) {base : State} (hbf : ∀ t g l, base.fibre? t g l = s.fibre? t g l) (hbb : base.isHeld w = false)
    (hbk : base.kills = []) (h0 : s.performers w c = [] → base = s) (hbody : s.performers w c ≠ [] → body (w.by (s.performers w c)) s = base) :
    Moves i s w c base (fun _ f => f) :=
  moves_of H he hbf hbb hbk h0 (s.performers w c) (H.distinct.filter _) (fun _ => Iff.rfl) (fun _ f => f)
    (fun hp => by rw [hbody hp]; simp only [modFibre_id, List.foldl_fixed])

/-- A change of a bundle that leaves its stall alone holds no bundle. -/
theorem State.unheld_modBundle {s : State} {w : Who} (hs : s.isHeld w = false) {k : Nat} {h : Bundle → Bundle} (hh : ∀ b, (h b).stall = b.stall) :
    (s.modBundle k h).isHeld w = false := by
  rw [← hs]
  simp only [State.isHeld, State.modBundle_bundles, fget_fmod]
  split <;> simp [Function.comp_def, hh]

theorem exec_bra_eq (c : Ctl) (off : BitVec 24) (hint : Bool) (s : State) :
    exec (.bra c off hint) s = native (.bra c off hint) s (fun w s => w.perf.foldl (fun a x => a.jump w x (w.target off)) s) := rfl

theorem exec_lpad_eq (c : Ctl) (kinds : BitVec 3) (s : State) : exec (.lpad c kinds) s = native (.lpad c kinds) s (fun _ s => s) := rfl

theorem exec_exit_eq (c : Ctl) (s : State) :
    exec (.exit c) s = native (.exit c) s (fun w s => w.perf.foldl (fun a x => a.modFibre w.team x.1 x.2 (fun f => { f with leave := .exit })) s) := rfl

theorem exec_yield_eq (c : Ctl) (s : State) :
    exec (.yield c) s = native (.yield c) s (fun w s => s.modBundle w.bundle (fun b => { b with yields := b.yields ++ groupsOf w.perf })) := rfl

section Direct

variable {s : State} {w : Who} {t : Team} {c : Ctl}

theorem bra_moves {off : BitVec 24} {hint : Bool} (H : Issues s (.bra c off hint) w c t) :
    Moves (.bra c off hint) s w c s (fun _ f => { f with leave := .goto (w.target off) 0 }) :=
  moves_each H (exec_bra_eq c off hint s) (fun a x => a.jump (w.by (s.performers w c)) x (w.target off)) _ rfl (fun _ _ _ _ _ => rfl)

theorem call_moves {off : BitVec 24} {hint : Bool} (H : Issues s (.call c off hint) w c t)
    (hroom : ∀ x ∈ s.performers w c, (s.fibre w.team x.1 x.2).depth < 255) :
    Moves (.call c off hint) s w c s (fun _ f =>
      { f with depth := f.depth + 1, stack := f.stack.take f.depth ++ [w.after], leave := .goto (w.target off) 0 }) :=
  moves_eachFibre H (callFibre off) (exec_call_eq c off hint s) _ (fun x hx => callFibre_pushes (hroom x hx))

theorem lpad_moves {kinds : BitVec 3} (H : Issues s (.lpad c kinds) w c t) : Moves (.lpad c kinds) s w c s (fun _ f => f) :=
  moves_none H (exec_lpad_eq c kinds s) (fun _ _ _ => rfl) H.unheld H.quiet (fun _ => rfl) (fun _ => rfl)

theorem loop_moves {off : BitVec 24} {a : Reg} (H : Issues s (.loop c off a) w c t)
    (hroom : ∀ x ∈ s.performers w c, (s.fibre w.team x.1 x.2).nest < 3) :
    Moves (.loop c off a) s w c s (fun _ f =>
      if f.get w.pos a = 0 then { f with leave := .goto (w.target off) 0 } else f.openLoop (f.get w.pos a) w.after (w.target off)) :=
  moves_eachFibre H (loopFibre off a) (exec_loop_eq c off a s) _ (fun x hx => loopFibre_opens (hroom x hx))

theorem lbrk_moves {hint : Bool} {level : Nat × Nat → LoopLevel} (H : Issues s (.lbrk c hint) w c t)
    (hin : ∀ x ∈ s.performers w c, (s.fibre w.team x.1 x.2).inner = some (level x)) :
    Moves (.lbrk c hint) s w c s (fun x f =>
      { f with nest := f.nest - 1, loops := f.loops.take (f.nest - 1), leave := .goto (level x).stop 0 }) :=
  moves_eachFibre H (fun _ => lbrkFibre) (exec_lbrk_eq c hint s) _ (fun x hx => lbrkFibre_leaves (hin x hx))

theorem exit_moves (H : Issues s (.exit c) w c t) : Moves (.exit c) s w c s (fun _ f => { f with leave := .exit }) :=
  moves_each H (exec_exit_eq c s) (fun a x => a.modFibre w.team x.1 x.2 (fun f => { f with leave := .exit })) _ rfl (fun _ _ _ _ _ => rfl)

/-- The bundle notes the groups that yield; their fibres stay as they are (R125). -/
theorem yield_moves (H : Issues s (.yield c) w c t) :
    Moves (.yield c) s w c (if (s.performers w c).isEmpty then s
      else s.modBundle w.bundle (fun b => { b with yields := b.yields ++ groupsOf (s.performers w c) })) (fun _ f => f) := by
  by_cases hp : s.performers w c = []
  · rw [hp, List.isEmpty_nil, if_pos rfl]
    exact moves_none H (exec_yield_eq c s) (fun _ _ _ => rfl) H.unheld H.quiet (fun _ => rfl) (fun hne => absurd hp hne)
  · rw [if_neg (by simpa using hp)]
    exact moves_none H (exec_yield_eq c s) (fun _ _ _ => State.fibre?_of_teams rfl _ _ _)
      (State.unheld_modBundle H.unheld (fun _ => rfl)) H.quiet (fun h => absurd h hp) (fun _ => rfl)

end Direct

/-- Settles O17, instruction by instruction. A target is taken modulo 2^49, and a YIELD of a group with one path counts as any other: both are the model's
choice (logs 10 and 18). -/
theorem transfers : Obligations.Transfers := by
  intro s w t c off hint kinds a level target next
  have htarget : target = w.target off := (target_eq w off).symm
  have hnext : next = w.after := (after_eq w).symm
  rw [htarget, hnext]
  exact ⟨bra_moves, call_moves, lpad_moves, loop_moves,
    fun H hin => lbrk_moves H (fun x hx => by obtain ⟨hfloor, hlast, hdepth⟩ := hin x hx; exact Fibre.inner_level hfloor hlast hdepth),
    exit_moves, yield_moves⟩

/-! ### Indirect transfers (R115, R116, R118) -/

section Indirect

variable {s : State} {w : Who} {t : Team} {c : Ctl} {hint : Bool} {a : Reg} {target : Nat × Nat → VAddr}

/-- The body of an indirect transfer, for a bundle whose team is known. -/
theorem indirectBody_eq (ht : s.team w.team = some t) (call : Bool) (perf : List (Nat × Nat)) :
    indirectBody a call (w.by perf) s =
      (let r := s.gate (w.by perf) (fun g l => s.indirect (w.by perf) t g (s.fibre w.team g l) a call)
       let s1 := r.1.foldl (fun (x : State) e => x.modFibre w.team e.1 e.2.1 (fun f =>
         { (if call then f.push w.after else f) with leave := .goto e.2.2 0 })) r.2
       { s1 with free := s1.free + 1 }) := by
  simp only [indirectBody, Who.by, ht]; rfl

theorem exec_brx_eq (c : Ctl) (hint : Bool) (a : Reg) (s : State) : exec (.brx c hint a) s = native (.brx c hint a) s (indirectBody a false) := rfl

theorem exec_callx_eq (c : Ctl) (hint : Bool) (a : Reg) (s : State) : exec (.callx c hint a) s = native (.callx c hint a) s (indirectBody a true) := rfl

theorem brx_moves (H : Issues s (.brx c hint a) w c t)
    (hto : ∀ x ∈ s.performers w c, s.dispatches t x.1 ((s.fibre w.team x.1 x.2).get w.pos a).toNat (target x) ∧ s.landing t x.1 (target x) 0) :
    Moves (.brx c hint a) s w c (if (s.performers w c).isEmpty then s else { s.spent w c with free := s.free + 1 })
      (fun x f => { f with leave := .goto (target x) 0 }) :=
  moves_gate H (exec_brx_eq c hint a s) _ target _ _ (fun x hx => State.indirect_ok (call := false) (hto x hx).1 (hto x hx).2 nofun)
    (indirectBody_eq H.team false _) (fun _ => rfl)

theorem callx_moves (H : Issues s (.callx c hint a) w c t)
    (hto : ∀ x ∈ s.performers w c, (s.fibre w.team x.1 x.2).depth < 255 ∧
      s.dispatches t x.1 ((s.fibre w.team x.1 x.2).get w.pos a).toNat (target x) ∧ s.landing t x.1 (target x) 1) :
    Moves (.callx c hint a) s w c (if (s.performers w c).isEmpty then s else { s.spent w c with free := s.free + 1 })
      (fun x f => { f with depth := f.depth + 1, stack := f.stack.take f.depth ++ [w.after], leave := .goto (target x) 0 }) := by
  refine moves_gate H (exec_callx_eq c hint a s) _ target _ _ (fun x hx => ?_) (indirectBody_eq H.team true _) (fun _ => rfl)
  obtain ⟨hroom, hentry, hpad⟩ := hto x hx
  exact State.indirect_ok hentry hpad (fun _ => hroom)

/-- Where a return of one fibre leads (R118). -/
def State.returns (s : State) (t : Team) (g : Nat) (f : Fibre) : Res VAddr :=
  if f.depth = 0 || (f.h && decide (f.depth = f.d0)) then .trap (.cflow 3) else s.pad t g (f.stack.getD (f.depth - 1) 0) 2

theorem State.returns_ok {g : Nat} {f : Fibre} {v : VAddr} (hdepth : f.depth ≠ 0) (hframe : f.h = true → f.depth ≠ f.d0)
    (htop : f.stack[f.depth - 1]? = some v) (hpad : s.landing t g v 2) : s.returns t g f = .ok v := by
  have hin : (decide (f.depth = 0) || (f.h && decide (f.depth = f.d0))) = false := by simpa [hdepth] using hframe
  simp only [State.returns, hin, Bool.false_eq_true, if_false, List.getD_eq_getElem?_getD, htop, Option.getD_some, State.pad_ok hpad]

/-- The body of RET. -/
def retBody (w : Who) (s : State) : State :=
  match s.team w.team with
  | none => s
  | some t =>
    let r := s.gate w (fun g l => s.returns t g (s.fibre w.team g l))
    let s1 := r.1.foldl (fun (x : State) e => x.modFibre w.team e.1 e.2.1 (fun f => { f.pop with leave := .goto e.2.2 0 })) r.2
    { s1 with free := s1.free + 1 }

theorem exec_ret_eq (c : Ctl) (hint : Bool) (s : State) : exec (.ret c hint) s = native (.ret c hint) s retBody := rfl

theorem retBody_eq (ht : s.team w.team = some t) (perf : List (Nat × Nat)) :
    retBody (w.by perf) s =
      (let r := s.gate (w.by perf) (fun g l => s.returns t g (s.fibre w.team g l))
       let s1 := r.1.foldl (fun (x : State) e => x.modFibre w.team e.1 e.2.1 (fun f => { f.pop with leave := .goto e.2.2 0 })) r.2
       { s1 with free := s1.free + 1 }) := by
  simp only [retBody, Who.by, ht]

theorem ret_moves (H : Issues s (.ret c hint) w c t)
    (hto : ∀ x ∈ s.performers w c, s.returns t x.1 (s.fibre w.team x.1 x.2) = .ok (target x)) :
    Moves (.ret c hint) s w c (if (s.performers w c).isEmpty then s else { s.spent w c with free := s.free + 1 })
      (fun x f => { f.pop with leave := .goto (target x) 0 }) :=
  moves_gate H (exec_ret_eq c hint s) _ target _ _ hto (retBody_eq H.team _) (fun _ => rfl)

end Indirect

/-- Settles O18: every performing fibre finds its target, a landing pad of its kind, and all go on. The counter of free choices is the model's own (log 1). -/
theorem indirectTransfers : Obligations.IndirectTransfers := by
  intro s w t c hint a target next base at_
  have hnext : next = w.after := (after_eq w).symm
  rw [hnext]
  exact ⟨brx_moves, callx_moves, fun H hto => ret_moves H fun x hx => by
    obtain ⟨hdepth, hframe, htop, hpad⟩ := hto x hx
    exact State.returns_ok hdepth hframe htop hpad⟩

/-! ### Faults of their own (R112, R113, R119, R122, R356) -/

/-- TRET of one fibre (R357). -/
def tretFibre (keep : BitVec 8) (keepPw : Bool) (f : Fibre) : Except Trap Fibre :=
  if !f.h then .error .illegal else .ok (f.trapReturn keep keepPw f.frame.clause f.frame.index)

theorem exec_tret_eq (c : Ctl) (keep : BitVec 8) (keepPw : Bool) (s : State) :
    exec (.tret c keep keepPw) s = native (.tret c keep keepPw) s (fun w s => eachFibre w s (tretFibre keep keepPw)) := rfl

theorem tretFibre_outside {keep : BitVec 8} {keepPw : Bool} {f : Fibre} (h : f.h = false) : tretFibre keep keepPw f = .error .illegal := by
  simp [tretFibre, h]

/-- TRET.SKIP of one fibre (R357). -/
def tretSkipFibre (keep : BitVec 8) (keepPw : Bool) (f : Fibre) : Except Trap Fibre :=
  if !f.h || f.frame.noSkip then .error .illegal
  else
    let r := (f.trapReturn keep keepPw 0 0).succOf f.frame.clause f.frame.count f.frame.index
    .ok { r.1 with leave := .resume r.2.1.1 r.2.1.2 }

theorem exec_tretSkip_eq (c : Ctl) (keep : BitVec 8) (keepPw : Bool) (s : State) :
    exec (.tretSkip c keep keepPw) s = native (.tretSkip c keep keepPw) s (fun w s => eachFibre w s (tretSkipFibre keep keepPw)) := rfl

theorem tretSkipFibre_outside {keep : BitVec 8} {keepPw : Bool} {f : Fibre} (h : f.h = false) : tretSkipFibre keep keepPw f = .error .illegal := by
  simp [tretSkipFibre, h]

/-- Settles O20: the instruction's meaning for one fibre is its fault, and all performing fibres take it. -/
theorem controlFaults : Obligations.ControlFaults := by
  intro s w t c off hint keep keepPw a hd each
  refine ⟨fun H h => ?_, fun H h => ?_, fun H h => ?_, fun H => ?_, fun H => ?_⟩
  · exact traps_self H hd (.cflow 2) (callFibre off) (exec_call_eq c off hint s) (fun x hx => callFibre_full (h x hx))
  · exact traps_self H hd (.cflow 4) (loopFibre off a) (exec_loop_eq c off a s) (fun x hx => loopFibre_full (h x hx))
  · exact traps_self H hd (.cflow 5) (fun _ => lbrkFibre) (exec_lbrk_eq c hint s) (fun x hx => lbrkFibre_outside (Fibre.inner_none (h x hx)))
  · exact traps_self H hd .illegal (fun _ => tretFibre keep keepPw) (exec_tret_eq c keep keepPw s) (fun x hx => tretFibre_outside (hd.outside x hx))
  · exact traps_self H hd .illegal (fun _ => tretSkipFibre keep keepPw) (exec_tretSkip_eq c keep keepPw s)
      (fun x hx => tretSkipFibre_outside (hd.outside x hx))

/-! ### Software traps and emulated instructions (R83, R126, R354) -/

section SoftwareTraps

variable {s : State} {i : Instr} {w : Who} {c : Ctl} {t : Team}

/-- A fibre that passes the checks of its registers comes to the check for emulation (R83, step 4). -/
theorem laneCheck_emulated (h : i.emulated = true) (c : Ctl) (t : Team) (f : Fibre) (pos : Nat) :
    laneCheck i c t f pos = some .unimpl ∨ laneCheck i c t f pos = some .window ∨ laneCheck i c t f pos = some .stallchk := by
  unfold laneCheck
  dsimp only
  rw [if_pos h]
  split
  · exact .inr (.inl rfl)
  · split
    · exact .inr (.inr rfl)
    · exact .inl rfl

/-- Fibres that all fail a check give the fold of their traps. -/
theorem stands_gives_traps {tr : Nat × Nat → Trap} (H : Stands s i w c t)
    (hv : ∀ x ∈ s.performers w c, laneCheck i c t (s.fibre w.team x.1 x.2) w.pos = some (tr x)) :
    Gives i s w ((s.performers w c).foldl (fun (r : State) x => r.takeTrap (w.by (s.performers w c)) w.word x.1 x.2 (tr x)) s) := by
  obtain ⟨body, he⟩ := exec_native i c H.ctl s
  unfold Gives State.finish
  rw [he, native_failed_each H tr hv, H.team]
  rfl

/-- An instruction that is a trap gives the fold of its fibres' traps. -/
theorem gives_trapAll (H : Issues s i w c t) {tr : Trap} (he : exec i s = native i s (fun w s => s.trapAll w tr w.perf)) :
    Gives i s w ((s.performers w c).foldl (fun (r : State) x => r.takeTrap (w.by (s.performers w c)) w.word x.1 x.2 tr) s) :=
  gives_of_body H he rfl (fun hp => by rw [hp]; rfl)

/-- Where a handler stands and no fibre is inside it, the fold of the fibres' traps leads all of them there. -/
theorem traps_of_gives (H : Faces s i w c t) (hd : Handled s w c t) {tr : Trap}
    (hg : Gives i s w ((s.performers w c).foldl (fun (r : State) x => r.takeTrap (w.by (s.performers w c)) w.word x.1 x.2 tr) s)) :
    Traps i s w c t tr.cause tr.reason (fun _ => tr.taddr) := by
  unfold Gives State.finish at hg
  rw [H.team] at hg
  exact traps_of H hd tr rfl hg

theorem exec_bkpt_eq (c : Ctl) (code : BitVec 12) (s : State) :
    exec (.bkpt c code) s = native (.bkpt c code) s (fun w s => s.trapAll w .bkpt w.perf) := rfl

theorem exec_trap_eq (c : Ctl) (code : BitVec 12) (s : State) :
    exec (.trap c code) s = native (.trap c code) s (fun w s => s.trapAll w .soft w.perf) := rfl

/-- What an emulated instruction does: each performing fibre takes the trap of the check it fails first, and UNIMPL where it fails no other. -/
theorem emulated_traps (h : i.emulated = true) (s : State) (w : Who) (c : Ctl) (t : Team) (tr : Nat × Nat → Trap) :
    (∀ f p, laneCheck i c t f p = some .unimpl ∨ laneCheck i c t f p = some .window ∨ laneCheck i c t f p = some .stallchk) ∧
    (Stands s i w c t → (∀ x ∈ s.performers w c, laneCheck i c t (s.fibre w.team x.1 x.2) w.pos = some (tr x)) →
      Gives i s w ((s.performers w c).foldl (fun (r : State) x => r.takeTrap (w.by (s.performers w c)) w.word x.1 x.2 (tr x)) s) ∧
      (Handled s w c t → TrapsEach i s w c t tr)) ∧
    (Stands s i w c t → Handled s w c t → (∀ x ∈ s.performers w c, laneCheck i c t (s.fibre w.team x.1 x.2) w.pos = some .unimpl) →
      Traps i s w c t 2 0 (fun _ => 0)) :=
  ⟨laneCheck_emulated h c t, fun H hv => ⟨stands_gives_traps H hv, fun hd => stands_traps_each hd H hv⟩,
    fun H hd hv => stands_traps_each hd H (tr := fun _ => .unimpl) hv⟩

end SoftwareTraps

/-- Settles O21: BKPT and TRAP are the fold of their fibres' traps; an emulated instruction is performed by none, as each fibre fails a check. -/
theorem softwareTraps : Obligations.SoftwareTraps := by
  intro s w t c code ty n d a b tr u taken traps emulated
  have software {i : Instr} {trap : Trap} (he : exec i s = native i s (fun w s => s.trapAll w trap w.perf)) (H : Issues s i w c t) :
      Gives i s w (taken (fun _ => trap)) ∧ (Handled s w c t → Traps i s w c t trap.cause trap.reason (fun _ => trap.taddr)) :=
    ⟨gives_trapAll H he, fun hd => traps_of_gives H.toFaces hd (gives_trapAll H he)⟩
  exact ⟨software (exec_bkpt_eq c code s), software (exec_trap_eq c code s), emulated_traps rfl s w c t tr, emulated_traps rfl s w c t tr,
    emulated_traps rfl s w c t tr, emulated_traps rfl s w c t tr⟩

end Sys2Proof.Machine
end

section
/-!
PROOFS. SPAWN of one fibre (O19): the lane it finds, the fibre it creates there, and the word it writes.
-/

namespace Sys2Proof.Machine

/-! ### What counting clocks and a bundle's change leave of a fibre -/

/-- Counting clocks, in every lane of the part. -/
theorem State.countClocks_fibre?_map (s : State) (w : Who) (hd : w.active.Nodup) (u k m : Nat) :
    (s.countClocks w).fibre? u k m = (s.fibre? u k m).map (fun f => if u = w.team ∧ (k, m) ∈ w.active then f.tick else f) := by
  by_cases hu : u = w.team
  · subst hu
    rw [State.countClocks_fibre? s w hd]
    by_cases hm : (k, m) ∈ w.active <;> simp [hm]
  · rw [State.countClocks_eq, State.foldl_modFibre_team w.team (fun _ => Fibre.tick) w.active s u k m hu]
    simp [hu]

theorem State.husk_countClocks (s : State) (w : Who) : (s.countClocks w).husk = s.husk := State.husk_foldl s w.team w.active (fun _ => Fibre.tick)

theorem State.husk_modBundle (s : State) (k : Nat) (h : Bundle → Bundle) : (s.modBundle k h).husk = s.husk.modBundle k h := rfl

theorem Fibre.getP_eq_view (f : Fibre) (pos : Nat) (p : Pred) : f.getP pos p = (p == 7#3 || f.view pos (.p p) != 0) := rfl

theorem Bundle.spawn_stall (b : Bundle) (g l : Nat) (a : VAddr) : (b.spawn g l a).stall = b.stall := by
  unfold Bundle.spawn
  dsimp only
  split <;> rfl

/-! ### SPAWN of one fibre (R123) -/

/-- The part after a SPAWN that found lane n: the lane's fibre, the word of the fibre that spawned it, and the bundle's entry. -/
def spawnInto (off : BitVec 24) (a d : Reg) (w : Who) (t : Team) (s : State) (g l n : Nat) (f : Fibre) : State :=
  ((s.modFibre w.team g n (fun old => old.spawned f t.kern.win (f.get w.pos a))).modFibre w.team g l
    (fun f => f.write w.pos 0 (.v d, BitVec.ofNat 32 n))).modBundle w.bundle (fun b => b.spawn g n (w.target off))

/-- What SPAWN does for one fibre. -/
def spawnLane (off : BitVec 24) (a d : Reg) (w : Who) (t : Team) (s : State) (g l : Nat) : State :=
  match (s.group w.team g).bind Group.freeLane with
  | none => s.modFibre w.team g l (fun f => f.write w.pos 0 (.v d, 0xFFFFFFFF))
  | some n => spawnInto off a d w t s g l n (s.fibre w.team g l)

theorem exec_spawn_eq (c : Ctl) (off : BitVec 24) (a d : Reg) (s : State) :
    exec (.spawn c off a d) s = native (.spawn c off a d) s (fun w s => perLane w s (spawnLane off a d w)) := rfl

section Spawn

variable {s : State} {w : Who} {t : Team} {c : Ctl} {off : BitVec 24} {a d : Reg} {g l n : Nat} {y : Machine.Group} {f old : Fibre}

theorem spawnLane_full (hy : s.group w.team g = some y) (hn : y.freeLane = none) :
    spawnLane off a d w t s g l = s.modFibre w.team g l (fun f => f.write w.pos 0 (.v d, 0xFFFFFFFF)) := by
  simp only [spawnLane, hy, Option.bind_some, hn]

theorem spawnLane_free (hy : s.group w.team g = some y) (hn : y.freeLane = some n) :
    spawnLane off a d w t s g l = spawnInto off a d w t s g l n (s.fibre w.team g l) := by
  simp only [spawnLane, hy, Option.bind_some, hn]

theorem spawnInto_fibre? (u k m : Nat) : (spawnInto off a d w t s g l n f).fibre? u k m =
    if (w.team, g, l) = (u, k, m) then
      (if (w.team, g, n) = (u, k, m) then (s.fibre? u k m).map (fun old => old.spawned f t.kern.win (f.get w.pos a)) else s.fibre? u k m).map
        (fun f => f.write w.pos 0 (.v d, BitVec.ofNat 32 n))
    else if (w.team, g, n) = (u, k, m) then (s.fibre? u k m).map (fun old => old.spawned f t.kern.win (f.get w.pos a)) else s.fibre? u k m := by
  rw [← State.fibre?_modFibre, ← State.fibre?_modFibre]
  exact State.fibre?_of_teams rfl u k m

/-- The lane that was free holds the new fibre. -/
theorem spawnInto_child (hold : s.fibre? w.team g n = some old) (hne : n ≠ l) :
    (spawnInto off a d w t s g l n f).fibre? w.team g n = some (old.spawned f t.kern.win (f.get w.pos a)) := by
  simp [spawnInto_fibre?, hold, hne.symm]

/-- The fibre that spawned it is written the lane's number. -/
theorem spawnInto_parent (hf : s.fibre? w.team g l = some f) (hne : n ≠ l) :
    (spawnInto off a d w t s g l n f).fibre? w.team g l = some (f.write w.pos 0 (.v d, BitVec.ofNat 32 n)) := by
  simp [spawnInto_fibre?, hf, hne]

theorem spawnInto_other {u k m : Nat} (hchild : (u, k, m) ≠ (w.team, g, n)) (hparent : (u, k, m) ≠ (w.team, g, l)) :
    (spawnInto off a d w t s g l n f).fibre? u k m = s.fibre? u k m := by
  rw [spawnInto_fibre?, if_neg hparent.symm, if_neg hchild.symm]

theorem spawnInto_husk : (spawnInto off a d w t s g l n f).husk = (s.modBundle w.bundle (fun b => b.spawn g n (w.target off))).husk := by
  unfold spawnInto
  rw [State.husk_modBundle, State.husk_modBundle, State.husk_modFibre, State.husk_modFibre]

/-- A fibre that stays in its bundle and is written a register that it has: the register reads the word, all else stands, and a clock is counted. -/
theorem Fibre.tick_write {v : Word} {pos : Nat} (hrun : f.leave = .run) (hd : f.holds (.v d)) :
    let h := (f.write pos 0 (.v d, v)).tick
    (∀ p, pos ≤ p → h.get p d = v) ∧ (∀ p r, r ≠ d → h.get p r = f.get p r) ∧ (∀ p q, h.getP p q = f.getP p q) ∧ h.rest = f.rest ∧ h.lclk = f.lclk + 1 := by
  refine ⟨fun p hp => ?_, fun p r hr => ?_, fun p q => ?_, (Fibre.rest_tick _).trans (Fibre.rest_write f pos 0 _), ?_⟩
  · exact (Fibre.tick_view _ p _).trans (Fibre.view_write_self f pos 0 p (.v d) v hd hp)
  · exact (Fibre.tick_view _ p _).trans (Fibre.view_write_other f pos 0 p (.v d) (.v r) v hd (by simpa using hr.symm))
  · rw [Fibre.getP_eq_view, Fibre.getP_eq_view, Fibre.tick_view, Fibre.view_write_other f pos 0 p (.v d) (.p q) v hd nofun]
  · obtain ⟨hclock, hleave⟩ := Fibre.lclk_writeAll f pos 0 [(.v d, v)]
    have hfin : (f.write pos 0 (.v d, v)).leave.finished = true := by rw [show (f.write pos 0 (.v d, v)).leave = .run from hleave.trans hrun]; rfl
    rw [Fibre.tick, if_pos hfin]
    exact congrArg (· + 1) hclock

/-- A fibre that was in the bundle counts a clock. -/
theorem map_tick_run (hw : s.who = some w) (u k m : Nat) :
    (s.fibre? u k m).map (fun x => if u = w.team ∧ (k, m) ∈ w.active then x.tick else x) =
      (s.fibre? u k m).map (fun x => if u = w.team ∧ (k, m) ∈ w.active then { x with lclk := x.lclk + 1 } else x) := by
  cases hx : s.fibre? u k m with
  | none => rfl
  | some x =>
    by_cases ha : u = w.team ∧ (k, m) ∈ w.active
    · obtain ⟨rfl, hm⟩ := ha
      simp [hm, tick_run hw (x := (k, m)) hm hx]
    · simp [ha]

/-- SPAWN of one fibre whose group has a free lane. -/
theorem spawn_exec (H : Issues s (.spawn c off a d) w c t) (hp : s.performers w c = [(g, l)]) (hy : s.group w.team g = some y) (hn : y.freeLane = some n) :
    exec (.spawn c off a d) s = .next ((spawnInto off a d w t s g l n (s.fibre w.team g l)).countClocks w) := by
  refine exec_gives H (exec_spawn_eq c off a d s) (fun _ => ?_) (fun h0 => absurd (hp.symm.trans h0) (List.cons_ne_nil _ _))
    (State.unheld_modBundle H.unheld (fun b => b.spawn_stall _ _ _)) H.quiet
  rw [perLane_eq _ H.team, hp]
  exact spawnLane_free hy hn

/-- SPAWN of one fibre whose group has no free lane writes all ones. -/
theorem spawn_full (H : Issues s (.spawn c off a d) w c t) (hp : s.performers w c = [(g, l)]) (hy : s.group w.team g = some y) (hn : y.freeLane = none) :
    Computes (.spawn c off a d) s w c (fun _ => [(.v d, 0xFFFFFFFF)]) := by
  refine native_writes H (exec_spawn_eq c off a d s) (fun b x => b.modFibre w.team x.1 x.2 (fun f => f.write w.pos 0 (.v d, 0xFFFFFFFF))) 0
    (fun _ _ => [(.v d, 0xFFFFFFFF)]) ?_ (fun _ _ _ _ _ => rfl) (fun _ _ e he => ?_) (fun _ _ m => lookup_wrW d false 0xFFFFFFFF m)
  · rw [perLane_eq _ H.team, hp]
    exact spawnLane_full hy hn
  · rw [List.mem_singleton.1 he]
    exact List.mem_singleton.2 rfl

end Spawn

/-- Settles O19, by the lane that the group finds free: the new fibre, the one that spawned it and all others, one after another; and where no lane is
free, the word of all ones. The target is taken modulo 2^49, which is the model's choice (log 10). -/
theorem spawns : Obligations.Spawns := by
  intro s w t c off a d g l y target f free H hp hy
  have htarget : target = w.target off := (target_eq w off).symm
  have hx : (g, l) ∈ s.performers w c := by rw [hp]; exact List.mem_singleton.2 rfl
  have ha : (g, l) ∈ w.active := State.mem_performers hx
  refine ⟨fun n old hn32 hfree hleast hlive => ?_, fun hnone => spawn_full H hp hy (spawn_none hnone)⟩
  obtain ⟨hlane, hdead, hbusy, hdx⟩ := hfree
  have hold : s.fibre? w.team g n = some old := by rw [State.fibre?, hy]; exact hlane
  obtain ⟨f', hf', _⟩ := H.files (g, l) ha
  have hf : s.fibre? w.team g l = some f := by rw [hf', show f = f' by simp [f, State.fibre_eq, hf']]
  have hna : (g, n) ∉ w.active := fun hm => by
    have := hlive (g, n) hm
    simp [State.fibre_eq, hold, hdead] at this
  have hne : n ≠ l := fun h => hna (h ▸ ha)
  refine ⟨_, spawn_exec H hp hy (spawn_lane hn32 hlane hdead hbusy hdx hleast), ?_⟩
  have hafter := State.countClocks_fibre?_map (spawnInto off a d w t s g l n f) w H.distinct
  have hparent : (State.countClocks (spawnInto off a d w t s g l n f) w).fibre w.team g l = (f.write w.pos 0 (.v d, BitVec.ofNat 32 n)).tick := by
    rw [State.fibre_eq, hafter, spawnInto_parent hf hne]
    simp [ha]
  obtain ⟨hget, hregs, hpreds, hrest, hclock⟩ := Fibre.tick_write (v := BitVec.ofNat 32 n) (pos := w.pos)
    (State.who_run H.who ha) (H.holds hx (n := .v d) (List.mem_singleton.2 rfl) nofun)
  refine ⟨?_, ?_⟩
  · rw [hafter, spawnInto_child hold hne, Option.map_some, if_neg (fun h => hna h.2)]
    rfl
  · rw [hparent]
    refine ⟨hget, hregs, hpreds, hrest, hclock, fun u k m hchild hother => ?_, ?_⟩
    · rw [hafter, spawnInto_other hchild hother, map_tick_run H.who]
    · rw [State.husk_countClocks, spawnInto_husk, htarget]

end Sys2Proof.Machine
end

section
/-!
PROOFS. The integer instructions (O1 to O7): first what a register-only instruction comes to by the shape of its result, then each family,
brought to the words of its statement by what the model's operations give value by value or bit by bit.
-/

namespace Sys2Proof.Machine

/-! ### Results by their shape -/

section Shapes

variable {i : Instr} {s : State} {w : Who} {c : Ctl} {t : Team} {d : Reg} {ty : ITy}

theorem Computes.congr {out out' : Fibre → List (RName × Word)} (h : Computes i s w c out) (he : ∀ f, out f = out' f) : Computes i s w c out' :=
  (funext he : out = out') ▸ h

/-- A result of a type, given as bits. -/
theorem computes_typed {x : Fibre → Nat → DWord} (H : Issues s i w c t) (he : exec i s = alu i s (fun f pos => okW d ty (x f pos)))
    (hw : i.writes = rgW d ty.is64) : Computes i s w c (fun f => wrW d ty.is64 (x f w.pos)) :=
  alu_computes H he _ _ (fun _ => rfl) (outs_wrW_same hw _)

/-- A result of a type, of which the bits below the width count. -/
theorem computes_bits {x : Fibre → Nat → DWord} {y : Fibre → DWord} (H : Issues s i w c t)
    (he : exec i s = alu i s (fun f pos => okW d ty (x f pos))) (hw : i.writes = rgW d ty.is64)
    (hxy : ∀ f k, k < ty.width → (x f w.pos).getLsbD k = (y f).getLsbD k) : Computes i s w c (fun f => wrW d ty.is64 (y f)) :=
  (computes_typed H he hw).congr (fun f => wrW_bits d ty.is64 _ _ (hxy f))

/-- A result of a type, given as an exact value to wrap or clamp (R129). -/
theorem computes_value {sat : Bool} {r : Fibre → Nat → Int} {v : Fibre → Int} (H : Issues s i w c t)
    (he : exec i s = alu i s (fun f pos => okW d ty (intResult ty sat (r f pos)))) (hw : i.writes = rgW d ty.is64)
    (hv : ∀ f, r f w.pos = v f) : Computes i s w c (fun f => resultWords d ty sat (v f)) :=
  (computes_typed H he hw).congr (fun f => by rw [intResult_eq, hv]; rfl)

/-- A result of 32 bits. -/
theorem computes_word {x : Fibre → Nat → Word} {y : Fibre → Word} (H : Issues s i w c t) (he : exec i s = alu i s (fun f pos => ok32 d (x f pos)))
    (hw : i.writes = rg d) (hxy : ∀ f, x f w.pos = y f) : Computes i s w c (fun f => [(.v d, y f)]) :=
  alu_computes H he _ _ (fun _ => rfl) (outs_reg hw _ _ hxy)

/-- A predicate. -/
theorem computes_pred {p : Pred} {x : Fibre → Nat → Bool} {y : Fibre → Word} (H : Issues s i w c t)
    (he : exec i s = alu i s (fun f pos => okP p (x f pos))) (hw : i.writes = pg p) (hxy : ∀ f, boolWord (x f w.pos) = y f) :
    Computes i s w c (fun f => [(.p p, y f)]) :=
  alu_computes H he _ _ (fun _ => rfl) (outs_pred hw _ _ hxy)

/-- One register of 32 bits and the events of each fibre, which depend on its file alone. -/
theorem logs_word {x : Fibre → Nat → Word} {ev : Fibre → Nat → List Nat} {y : Fibre → Word} {ev' : Fibre → List Nat} (H : Issues s i w c t)
    (he : exec i s = alu i s (fun f pos => .ok [(.v d, x f pos)] (ev f pos))) (hw : i.writes = rg d) (hx : ∀ f, x f w.pos = y f)
    (hev : ∀ f, ev f w.pos = ev' f) (hfile : ∀ f g : Fibre, f.file = g.file → y f = y g ∧ ev' f = ev' g) :
    ComputesLogging i s w c (fun f => [(.v d, y f)]) ev' :=
  alu_logs H he (fun f => [(.v d, y f)]) _ _
    ⟨fun f => by rw [hx, hev], fun f g h => by simp only [hfile f g h, and_self]⟩ (outs_reg hw _ _ (fun _ => rfl))

end Shapes

/-- A type of 32 bits names one register. -/
theorem rg_eq_rgW {ty : ITy} (h : ty.is64 = false) (d : Reg) : rg d = rgW d ty.is64 := by rw [h]; rfl

/-- Of the types of 32 bits, I32 is the signed one. -/
theorem ITy.signed_of_narrow {ty : ITy} (h : ty.is64 = false) : ty.signed = decide (ty = .i32) := by
  cases ty with
  | i32 | n32 => rfl
  | i64 | n64 => cases h

/-- An instruction that encodes the types of 32 bits alone. -/
theorem Issues.narrow {i : Instr} {s : State} {w : Who} {c : Ctl} {t : Team} {ty : ITy} (H : Issues s i w c t) (hwf : i.wellFormed = !ty.is64) :
    ty.is64 = false := by
  simpa [hwf] using H.wellFormed

/-! ### Arithmetic (R129, R130) -/

section Arithmetic

variable {i : Instr} {s : State} {w : Who} {c : Ctl} {t : Team} {d a b : Reg} {ty : ITy} {sat : Bool}

/-- An operation on two values of the type. -/
theorem computes_binArith {op : Int → Int → Int} (H : Issues s i w c t) (he : exec i s = alu i s (binArith ty sat d a b op))
    (hw : i.writes = rgW d ty.is64) :
    Computes i s w c (fun f => resultWords d ty sat (op (f.value w.pos ty a) (f.value w.pos ty b))) :=
  computes_value H he hw (fun f => by rw [ival_eq, ival_eq])

/-- IMADW adds to a value of 64 bits of the same signedness (R130). -/
theorem imadw_computes {e : Reg} (H : Issues s (.imadw c ty d a b e) w c t) :
    Computes (.imadw c ty d a b e) s w c (fun f =>
      let wide := if ty = .i32 then ITy.i64 else ITy.n64
      resultWords d wide false (f.value w.pos ty a * f.value w.pos ty b + f.value w.pos wide e)) := by
  have hnarrow : ty.is64 = false := by
    have hwf : (!ty.is64 && d.mult 2 && e.mult 2) = true := H.wellFormed
    simp only [Bool.and_eq_true, Bool.not_eq_true'] at hwf
    exact hwf.1.1
  have hwide : wideOf ty = if ty = .i32 then ITy.i64 else ITy.n64 := by simp [wideOf, ITy.signed_of_narrow hnarrow]
  refine (computes_typed (ty := .n64) H rfl rfl).congr (fun f => ?_)
  rw [ival_eq, ival_eq, ival_eq, hwide]
  split <;> rfl

end Arithmetic

/-- Settles O1: each instruction is an exact operation on the values of its operands, whose result the model wraps or clamps as the statement does. -/
theorem integerArithmetic : Obligations.IntegerArithmetic := by
  intro s w t c ty sat d a b e imm
  refine ⟨fun H => computes_binArith H rfl rfl, fun H => computes_binArith H rfl rfl, fun H => computes_binArith H rfl rfl, fun H => ?imulh,
    fun H => ?imad, imadw_computes, fun H => computes_binArith H rfl rfl, fun H => computes_binArith H rfl rfl, fun H => ?iabs,
    fun H => ?ineg, fun H => ?iaddi⟩
  case imulh => exact (computes_binArith H rfl (rg_eq_rgW (H.narrow rfl) d)).congr (fun f => by norm_num)
  case imad => exact computes_value H rfl (rg_eq_rgW (H.narrow rfl) d) (fun f => by simp only [ival_eq])
  case iabs => exact computes_value H rfl rfl (fun f => by rw [ival_eq, Int.abs_eq_natAbs])
  case ineg => exact computes_value H rfl rfl (fun f => by rw [ival_eq])
  case iaddi => exact computes_value H rfl rfl (fun f => by rw [ival_eq]; rfl)

/-! ### Division (R131) -/

/-- The types that IDIV and IREM encode. -/
theorem ITy.narrow_eq (ty : ITy) : (!ty.is64) = decide (ty = .i32 ∨ ty = .n32) := by cases ty <;> rfl

theorem bits_zero_of_lt {m lo n : Nat} (h : m < 2 ^ lo) : bits m lo n = 0 := by simp [bits, Nat.div_eq_of_lt h]

/-- The fields of an RRR word with three registers and a type, and nothing else. -/
theorem rrr_typed_fields {opc : Nat} (ho : opc < 256) {c : Ctl} {d a b : Reg} {ty : ITy} {x : DWord}
    (hx : some (mkWord opc c (fRRR d.toNat a.toNat b.toNat 0 ty.code)) = some x) :
    bits x.toNat 56 8 = opc ∧ bits x.toNat 37 8 = d.toNat ∧ bits x.toNat 29 8 = a.toNat ∧ bits x.toNat 21 8 = b.toNat ∧
      bits x.toNat 2 11 = 0 ∧ bits x.toNat 0 2 = ty.code := by
  have hty := ty.code_lt
  obtain ⟨hopc, -, hd, ha, hb, -, hmod⟩ := rrr_fields opc c d.toNat a.toNat b.toNat 0 ty.code ho d.isLt a.isLt b.isLt (by decide) (by omega)
    x.toNat (congrArg BitVec.toNat (Option.some.inj hx)).symm
  refine ⟨hopc, hd, ha, hb, ?_, ?_⟩
  · rw [hmod 2 11 (by decide), bits_zero_of_lt hty]
  · rw [hmod 0 2 (by decide)]; simp only [bits]; omega

/-- Settles O2: quotient, remainder and event are those of the model's `divide` at 32 bits; the fields are those of any RRR word. -/
theorem integerDivision : Obligations.IntegerDivision := by
  intro s w t c ty d a b x
  refine ⟨fun H => ?quot, fun H => ?rem, ITy.narrow_eq ty, ITy.narrow_eq ty, rrr_typed_fields (by decide), rrr_typed_fields (by decide)⟩
  case quot =>
    exact logs_word H rfl rfl (fun f => divide_quot ty (H.narrow rfl) _ _) (fun f => divide_ev ty (H.narrow rfl) _ _)
      (fun f g h => by simp only [Fibre.get_file h, and_self])
  case rem =>
    exact logs_word H rfl rfl (fun f => divide_rem ty (H.narrow rfl) _ _) (fun f => divide_ev ty (H.narrow rfl) _ _)
      (fun f g h => by simp only [Fibre.get_file h, and_self])

/-! ### Compares (R132) -/

/-- Settles O3: the condition on the two values, as a predicate. -/
theorem integerCompares : Obligations.IntegerCompares := by
  intro s w t c cond ty p a b imm
  exact ⟨fun H => computes_pred H rfl rfl (fun f => by rw [cond_eq, ival_eq, ival_eq]),
    fun H => computes_pred H rfl rfl (fun f => by rw [cond_eq, ival_eq, immVal, ityVal_eq])⟩

/-! ### Logic and shifts (R133, R134) -/

theorem ITy.width_le (ty : ITy) : ty.width ≤ 64 := by cases ty <;> decide

theorem getLsbD_ofFnLE_of_lt (h : Fin 64 → Bool) {k : Nat} (hk : k < 64) : (BitVec.ofFnLE h).getLsbD k = h ⟨k, hk⟩ := by
  rw [BitVec.getLsbD_ofFnLE, dif_pos hk]

/-- An immediate of 24 bits, sign-extended: above its last bit stands that bit. -/
theorem imm_getLsbD (imm : BitVec 24) {k : Nat} (hk : k < 64) : (imm.signExtend 64).getLsbD k = imm.getLsbD (min k 23) := by
  rw [BitVec.getLsbD_signExtend, BitVec.msb_eq_getLsbD_last]
  by_cases h : k < 24
  · rw [if_pos h, Nat.min_eq_left (by omega)]; simp [hk]
  · rw [if_neg h, Nat.min_eq_right (by omega)]; simp [hk]

/-- Settles O4: the operations bit by bit below the width; what stands above it is not written. -/
theorem logicAndShifts : Obligations.LogicAndShifts := by
  intro s w t c ty tt op kind d a b e imm
  refine ⟨fun H => computes_typed H rfl rfl, fun H => computes_typed H rfl rfl, fun H => computes_typed H rfl rfl, fun H => computes_typed H rfl rfl,
    fun H => ?blut3, fun H => ?lopi, fun H => ?shl, fun H => ?shr, fun H => ?sar, fun H => ?rol, fun H => ?shi⟩
  case blut3 => exact computes_bits H rfl rfl (fun f k hk => blut_bits tt _ _ _ k (lt_of_lt_of_le hk (ITy.width_le ty)))
  case lopi =>
    refine computes_bits H rfl rfl (fun f k hk => ?_)
    have hk64 := lt_of_lt_of_le hk (ITy.width_le ty)
    rw [getLsbD_ofFnLE_of_lt _ hk64]
    have himm := imm_getLsbD imm hk64
    cases op with
    | and => rw [BitVec.getLsbD_and, himm]
    | or => rw [BitVec.getLsbD_or, himm]
    | xor => rw [BitVec.getLsbD_xor, himm]
    | andn => simp only [BitVec.getLsbD_and, BitVec.getLsbD_not, himm, hk64, decide_true, Bool.true_and]
  case shl => exact computes_bits H rfl rfl (fun f k hk => shift_bits .shl ty _ _ k hk)
  case shr => exact computes_bits H rfl rfl (fun f k hk => shift_bits .shr ty _ _ k hk)
  case sar => exact computes_bits H rfl rfl (fun f k hk => shift_bits .sar ty _ _ k hk)
  case rol => exact computes_bits H rfl rfl (fun f k hk => shift_bits .rol ty _ _ k hk)
  case shi => exact computes_bits H rfl rfl (fun f k hk => shift_bits kind ty _ _ k hk)

/-! ### Bit fields and counts (R135 to R139) -/

/-- BREV of the type's width (R137). -/
theorem reverse_bits (ty : ITy) (x : DWord) {k : Nat} (hk : k < ty.width) :
    (if ty.is64 then x.reverse else (DWord.lo x).reverse.setWidth 64).getLsbD k = x.getLsbD (ty.width - 1 - k) := by
  unfold ITy.width at *
  cases hwide : ty.is64 <;> simp only [hwide, if_true, if_false, Bool.false_eq_true] at hk ⊢
  · rw [BitVec.getLsbD_setWidth, BitVec.getLsbD_reverse, BitVec.getMsbD, lo_getLsbD _ _ (by omega)]
    simp [hk, show k < 64 by omega]
  · exact reverse64_bit x k hk

/-- Settles O5: fields, bytes and reversal bit by bit, counts as sums and as the place of the first bit that is set, LEA as an exact sum. -/
theorem bitFieldsAndCounts : Obligations.BitFieldsAndCounts := by
  intro s w t c ty sh d a b e count
  refine ⟨fun H => ?bfx, fun H => ?bfi, fun H => ?popc, fun H hc => ?clz, fun H hc => ?ctz, fun H => ?brev, fun H => ?permb, fun H => ?lea⟩
  case bfx =>
    refine computes_word H rfl rfl (fun f => wordOfBits_eq _ _ (fun k hk => ?_))
    rw [bitExtract_bit _ _ _ k hk, ITy.signed_of_narrow (H.narrow rfl)]
  case bfi => exact computes_word H rfl rfl (fun f => wordOfBits_eq _ _ (bitInsert_bit _ _ _))
  case popc => exact computes_word H rfl rfl (fun f => by rw [popCount_eq])
  case clz => exact computes_word H rfl rfl (fun f => by rw [leadZeros_eq _ _ _ (hc f).1 (hc f).2.1 (hc f).2.2])
  case ctz => exact computes_word H rfl rfl (fun f => by rw [trailZeros_eq _ _ _ (hc f).1 (hc f).2.1 (hc f).2.2])
  case brev =>
    refine computes_bits H rfl rfl (fun f k hk => ?_)
    rw [reverse_bits ty _ hk, getLsbD_ofFnLE_of_lt _ (lt_of_lt_of_le hk (ITy.width_le ty))]
  case permb => exact computes_word H rfl rfl (fun f => wordOfBits_eq _ _ (permBytes_bit _ _ _))
  case lea =>
    have hsigned : (ty.signed = true) = (ty = .i32 ∨ ty = .i64) := by cases ty <;> simp [ITy.signed]
    exact computes_value H rfl rfl (fun f => by simp only [ival_eq, hsigned])

/-! ### Selection and moves (R140, R141) -/

/-- An instruction without results. -/
theorem nop_computes {s : State} {w : Who} {c : Ctl} {t : Team} (H : Issues s (.nop c) w c t) : Computes (.nop c) s w c (fun _ => []) :=
  alu_computes H rfl (fun _ => []) _ (fun _ => rfl) ⟨fun _ _ he => absurd he List.not_mem_nil, fun _ _ _ => rfl⟩

/-- The index of PLOP into its table (R140). -/
theorem plop_index (p q r : Bool) :
    p.toNat + 2 * q.toNat + 4 * r.toNat = (if p then 1 else 0) + (if q then 2 else 0) + (if r then 4 else 0) := by
  cases p <;> cases q <;> cases r <;> rfl

/-- The high word of a sign-extended word repeats its sign. -/
theorem hi_signExtend (x : Word) : DWord.hi (x.signExtend 64) = if x.msb then 0xFFFFFFFF else 0 := by
  refine BitVec.eq_of_getLsbD_eq fun k hk => ?_
  have hsign : (DWord.hi (x.signExtend 64)).getLsbD k = x.msb := by
    rw [DWord.hi, BitVec.getLsbD_setWidth, BitVec.getLsbD_ushiftRight, BitVec.getLsbD_signExtend, if_neg (by omega)]
    simp [hk, show 32 + k < 64 by omega]
  rw [hsign]
  cases x.msb
  · simp
  · exact (BitVec.getLsbD_allOnes.trans (decide_eq_true hk)).symm

theorem lo_signExtend (x : Word) : DWord.lo (x.signExtend 64) = x := by
  refine BitVec.eq_of_getLsbD_eq fun k hk => ?_
  rw [lo_getLsbD _ _ hk, BitVec.getLsbD_signExtend]
  simp [hk, show k < 64 by omega]

theorem lo_setWidth (x : Word) : DWord.lo (x.setWidth 64) = x := by simp [DWord.lo]

theorem hi_setWidth (x : Word) : DWord.hi (x.setWidth 64) = 0 := by
  refine BitVec.eq_of_getLsbD_eq fun k hk => ?_
  simp [DWord.hi]

/-- A pair from its two words. -/
theorem wrW_pair {d : Reg} {x : DWord} {lo hi : Word} (hlo : x.lo = lo) (hhi : x.hi = hi) : wrW d true x = [(.v d, lo), (.v (d + 1), hi)] := by
  subst hlo hhi; rfl

/-- Settles O6: selections, lookups and moves write what the model's results say. -/
theorem selectionAndMoves : Obligations.SelectionAndMoves := by
  intro s w t c ty tt neg p q r k d a b imm
  refine ⟨nop_computes, fun H => ?sel, fun H => ?plop, fun H => computes_typed H rfl rfl, fun H => ?w32, fun H => ?s64, fun H => ?z64⟩
  case sel => exact (computes_typed H rfl rfl).congr (fun f => by cases neg <;> cases f.getP w.pos p <;> rfl)
  case plop => exact computes_pred H rfl rfl (fun f => by rw [plop_index]; rfl)
  case w32 => exact computes_word H rfl rfl (fun f => rfl)
  case s64 => exact (computes_typed (ty := .i64) H rfl rfl).congr (fun _ => wrW_pair (lo_signExtend imm) (hi_signExtend imm))
  case z64 => exact (computes_typed (ty := .n64) H rfl rfl).congr (fun _ => wrW_pair (lo_setWidth imm) (hi_setWidth imm))

/-! ### A register chosen at run time (R142) -/

/-- The registers of a result of a type. -/
theorem mem_rgW {d : Reg} {wide : Bool} {n : RName} (h : n ∈ rgW d wide) : n = .v d ∨ (wide = true ∧ n = .v (d + 1)) := by
  cases wide
  · exact .inl (List.mem_singleton.1 h)
  · simpa [rgW, regs, List.range_succ] using h

/-- MOVX of one fibre: the checks of the register it names, then what `val` tells of that register (R142). -/
def movxLane (a base : Reg) (w64 read : Bool) (val : Nat → Nat → Fibre → List (RName × Word)) (w : Who) (t : Team) (s : State) (g l : Nat) : State :=
  match movxCheck t (s.fibre w.team g l) w.pos (movxIdx (s.fibre w.team g l) w.pos a base) w64 read with
  | some tr => s.takeTrap w w.word g l tr
  | none => s.modFibre w.team g l (fun f => f.writeAll w.pos 6 (val w.pos (movxIdx (s.fibre w.team g l) w.pos a base) f))

/-- What the read form writes of the register it names. -/
def movxRead (w64 : Bool) (d : Reg) (pos n : Nat) (f : Fibre) : List (RName × Word) := wrW d w64 (f.getW pos (BitVec.ofNat 8 n) w64)

/-- What the write form writes to the register it names. -/
def movxWrite (w64 : Bool) (e : Reg) (pos n : Nat) (f : Fibre) : List (RName × Word) := wrW (BitVec.ofNat 8 n) w64 (f.getW pos e w64)

section ByIndex

variable {i : Instr} {s : State} {w : Who} {c : Ctl} {t : Team} {w64 read : Bool} {d a base e : Reg}

theorem exec_movxRd_eq : exec (.movxRd c w64 d a base) s =
    native (.movxRd c w64 d a base) s (fun w s => perLane w s (movxLane a base w64 true (movxRead w64 d) w)) := rfl

theorem exec_movxWr_eq : exec (.movxWr c w64 a base e) s =
    native (.movxWr c w64 a base e) s (fun w s => perLane w s (movxLane a base w64 false (movxWrite w64 e) w)) := rfl

theorem movxLane_of_pass {val : Nat → Nat → Fibre → List (RName × Word)} {g l : Nat}
    (h : movxCheck t (s.fibre w.team g l) w.pos (movxIdx (s.fibre w.team g l) w.pos a base) w64 read = none) :
    movxLane a base w64 read val w t s g l =
      s.modFibre w.team g l (fun f => f.writeAll w.pos 6 (val w.pos (movxIdx (s.fibre w.team g l) w.pos a base) f)) := by
  simp only [movxLane, h]

/-- MOVX of fibres whose registers pass the checks, and whose results have a place. -/
theorem movx_computes {val : Nat → Nat → Fibre → List (RName × Word)} {r : Fibre → Reg} {y : Fibre → DWord} (H : Issues s i w c t)
    (hlat : i.latency = 6) (he : exec i s = native i s (fun w s => perLane w s (movxLane a base w64 read val w)))
    (hpass : ∀ x ∈ s.performers w c, movxCheck t (s.fibre w.team x.1 x.2) w.pos (movxIdx (s.fibre w.team x.1 x.2) w.pos a base) w64 read = none)
    (hval : ∀ f, val w.pos (movxIdx f w.pos a base) f = wrW (r f) w64 (y f))
    (hheld : ∀ x ∈ s.performers w c, ∀ n ∈ rgW (r (s.fibre w.team x.1 x.2)) w64, (s.fibre w.team x.1 x.2).holds n) :
    Computes i s w c (fun f => wrW (r f) w64 (y f)) := by
  obtain ⟨s', hs, hfiles, honly⟩ := native_changes H (fun w s => perLane w s (movxLane a base w64 read val w))
    (fun b x => movxLane a base w64 read val w t b x.1 x.2) 6
    (fun x => wrW (r (s.fibre w.team x.1 x.2)) w64 (y (s.fibre w.team x.1 x.2)))
    (fun x f => f.writeAll w.pos 6 (val w.pos (movxIdx (s.fibre w.team x.1 x.2) w.pos a base) f))
    (fun _ => (upd_facts w.pos 6 _).1) (fun _ => (upd_facts w.pos 6 _).2)
    (fun x _ f hf => by
      have hfx : s.fibre w.team x.1 x.2 = f := by rw [State.fibre_eq, hf]; rfl
      rw [hfx, hval])
    (perLane_eq _ H.team _)
    (fun b x hx _ hb => by
      have hfx := State.fibre_of_fibre? hb
      rw [← hfx]
      exact movxLane_of_pass (hfx ▸ hpass x hx))
  refine ⟨s', he.trans hs, ?_, honly⟩
  rw [hlat]
  exact hfiles.writes H _ (fun x hx e he => .inl (hheld x hx e.1 (wrW_names he))) (fun x _ n _ => lookup_wrW _ _ _ n)

/-- Registers that pass the window check stand in the fibre's file. -/
theorem Faces.holds_of_fits {x : Nat × Nat} (H : Faces s i w c t) (hx : x ∈ s.performers w c) {k : Nat}
    (hk : k < t.kern.win) (hpair : w64 = true → k + 1 < t.kern.win) : ∀ n ∈ rgW (BitVec.ofNat 8 k) w64, (s.fibre w.team x.1 x.2).holds n := by
  obtain ⟨f, hf, hlen⟩ := H.files x (State.mem_performers hx)
  have hfx : s.fibre w.team x.1 x.2 = f := by rw [State.fibre_eq, hf]; rfl
  rw [hfx]
  intro n hn
  rcases mem_rgW hn with rfl | ⟨hwide, rfl⟩
  · simp only [Fibre.holds, hlen, BitVec.toNat_ofNat]; omega
  · have hsucc := hpair hwide
    have hone : (1 : Reg).toNat = 1 := rfl
    simp only [Fibre.holds, hlen, BitVec.toNat_add, BitVec.toNat_ofNat]; omega

end ByIndex

/-- Settles O7: the premises are the checks of R142, after which the read form has its destination's place, and the write form the place that
passed the window check. -/
theorem registerByIndex : Obligations.RegisterByIndex := by
  intro s w t c w64 d a base e
  refine ⟨fun H hfits => ?rd, fun H _ hfits => ?wr⟩
  case rd =>
    refine movx_computes H rfl exec_movxRd_eq (fun x hx => ?_) (fun _ => rfl) (fun x hx n hn => H.holds hx hn ?_)
    · obtain ⟨⟨hidx, hpair, hcovered⟩, hsized⟩ := hfits x hx
      refine movxCheck_none hidx hpair (fun hsb n hn => ?_)
      rw [movx_names] at hn
      exact ⟨fun _ => hsized hsb n hn, hcovered hsb n hn⟩
    · rcases mem_rgW hn with rfl | ⟨-, rfl⟩ <;> nofun
  case wr =>
    refine movx_computes H rfl exec_movxWr_eq (fun x hx => ?_) (fun _ => rfl) (fun x hx => ?_)
    · obtain ⟨hidx, hpair, hcovered⟩ := hfits x hx
      refine movxCheck_none hidx hpair (fun hsb n hn => ?_)
      rw [movx_names] at hn
      exact ⟨nofun, hcovered hsb n hn⟩
    · obtain ⟨hidx, hpair, -⟩ := hfits x hx
      exact H.holds_of_fits hx hidx (fun h => (hpair h).2)

end Sys2Proof.Machine
end

section
/-!
PROOFS. The floating-point instructions and conversions (O9 to O12): element results as the statements write them, and the rules of R146 to
R153 that give each element.
-/

namespace Sys2Proof.Machine

/-! ### Results of elements -/

section Elements

variable {i : Instr} {s : State} {w : Who} {c : Ctl} {t : Team} {d a b : Reg} {ty : FTy} {m : FMods} {r : Fibre → Nat → Nat × List Nat}

/-- One operand, element by element. -/
theorem logs_unary {op : Nat → Nat × List Nat} (H : Issues s i w c t) (he : exec i s = alu i s (unary ty m d a op)) (hw : i.writes = rg d)
    (hr : ∀ f n, op (modified ty m.na m.aa (f.get w.pos a) n) = r f n) :
    ComputesLogging i s w c (fun f => elementWords ty d (r f)) (fun f => elementEvents ty (r f)) := by
  obtain rfl : (fun f n => op (modified ty m.na m.aa (f.get w.pos a) n)) = r := funext fun f => funext (hr f)
  exact float_logs H he hw _ (fun f => unary_eq ty m d a op f w.pos) (fun f g h => by simp only [Fibre.get_file h])

/-- Two operands, element by element. -/
theorem logs_binary {op : Nat → Nat → Nat × List Nat} (H : Issues s i w c t) (he : exec i s = alu i s (binary ty m d a b op)) (hw : i.writes = rg d)
    (hr : ∀ f n, op (modified ty m.na m.aa (f.get w.pos a) n) (modified ty m.nb m.ab (f.get w.pos b) n) = r f n) :
    ComputesLogging i s w c (fun f => elementWords ty d (r f)) (fun f => elementEvents ty (r f)) := by
  obtain rfl : (fun f n => op (modified ty m.na m.aa (f.get w.pos a) n) (modified ty m.nb m.ab (f.get w.pos b) n)) = r :=
    funext fun f => funext (hr f)
  exact float_logs H he hw _ (fun f => binary_eq ty m d a b op f w.pos) (fun f g h => by simp only [Fibre.get_file h])

end Elements

/-! ### Sums, products and dot products (R146, R151) -/

@[simp] theorem FVal.isNan_negate (x : FVal) : x.negate.isNan = x.isNan := by cases x <;> rfl

@[simp] theorem FVal.isSig_negate (x : FVal) : x.negate.isSig = x.isSig := by cases x <;> rfl

/-- A sum of two terms. -/
theorem sumOf_add (g : FF) (rnd : Rnd) (x y : FVal) : sumOf g rnd [] [x, y] = nanRule g [x, y] false (addRule g rnd x y) := by
  rw [sumOf_eq]
  refine nanRule_congr g [x, y] false _ _ (fun hnan _ => ?_)
  obtain ⟨hx, hy⟩ : x.isNan = false ∧ y.isNan = false := by simpa using hnan
  exact sumCore_two g rnd x y hx hy

/-- A difference: the second term is negated, and it is a NaN as before. -/
theorem sumOf_sub (g : FF) (rnd : Rnd) (x y : FVal) : sumOf g rnd [] [x, y.negate] = nanRule g [x, y] false (addRule g rnd x y.negate) := by
  have hsig : [x, y.negate].any FVal.isSig = [x, y].any FVal.isSig := by simp
  have hnan : [x, y.negate].any FVal.isNan = [x, y].any FVal.isNan := by simp
  rw [sumOf_add]
  unfold nanRule
  rw [hsig, hnan]

/-- A product. -/
theorem sumOf_mul (g : FF) (rnd : Rnd) (x y : FVal) : sumOf g rnd [(x, y)] [] = nanRule g [x, y] (invalidProduct x y)
    (match exactProduct x y with
    | .inf p => (infinityOf g p, [])
    | v => roundedResult g rnd v.sign v.dy) := by
  rw [sumOf_eq, List.any_cons, List.any_nil, Bool.or_false]
  refine nanRule_congr g [x, y] _ _ _ (fun hnan hinv => ?_)
  obtain ⟨hx, hy⟩ : x.isNan = false ∧ y.isNan = false := by simpa using hnan
  exact sumCore_one g rnd _ (product_nan x y hx hy hinv)

/-- A fused product and sum. -/
theorem sumOf_fma (g : FF) (rnd : Rnd) (x y z : FVal) :
    sumOf g rnd [(x, y)] [z] = nanRule g [x, y, z] (invalidProduct x y) (addRule g rnd (exactProduct x y) z) := by
  rw [sumOf_eq, List.any_cons, List.any_nil, Bool.or_false]
  refine nanRule_congr g [x, y, z] _ _ _ (fun hnan hinv => ?_)
  obtain ⟨hx, hy, hz⟩ : x.isNan = false ∧ y.isNan = false ∧ z.isNan = false := by simpa using hnan
  exact sumCore_two g rnd _ z (product_nan x y hx hy hinv) hz

/-- Two products and a term. -/
theorem sumOf_dot (rnd : Rnd) (x y u v z : FVal) : sumOf .f32 rnd [(x, y), (u, v)] [z] =
    nanRule .f32 [x, y, u, v, z] (invalidProduct x y || invalidProduct u v) (dotRule rnd (exactProduct x y) (exactProduct u v) z) := by
  rw [sumOf_eq, ← sumCore_three]
  simp only [List.any_cons, List.any_nil, Bool.or_false]
  rfl

section Sums

variable {s : State} {w : Who} {c : Ctl} {t : Team} {ty : FTy} {rnd : Rnd} {m : FMods} {d a b e : Reg}

/-- FFMA element by element: of three operands, each element is the fused product and sum of its own. -/
theorem ffma_logs (H : Issues s (.ffma c ty rnd m d a b e) w c t) :
    let x := fun (f : Fibre) (i : Nat) => modifiedValue ty m.na m.aa (f.get w.pos a) i
    let y := fun (f : Fibre) (i : Nat) => modifiedValue ty m.nb m.ab (f.get w.pos b) i
    let z := fun (f : Fibre) (i : Nat) => modifiedValue ty m.nc m.ac (f.get w.pos e) i
    let r := fun f i => nanRule (FTy.ff ty) [x f i, y f i, z f i] (invalidProduct (x f i) (y f i))
      (addRule (FTy.ff ty) rnd (exactProduct (x f i) (y f i)) (z f i))
    ComputesLogging (.ffma c ty rnd m d a b e) s w c (fun f => elementWords ty d (r f)) (fun f => elementEvents ty (r f)) := by
  refine float_logs H rfl rfl _ (fun f => ?_) (fun f g h => by simp only [Fibre.get_file h])
  rw [← elemResult_eq]
  simp only [← sumOf_fma, elems_eq]
  split <;> rfl

/-- The third operand of FDOT2 is a register of F32. -/
theorem modify_f32 (neg abs : Bool) (x : Word) : FF.f32.modify neg abs x.toNat = modified .f32 neg abs x 0 := by
  rw [← modify_eq]
  have : FTy.elem .f32 x 0 = x.toNat := by simpa [FTy.elem, FTy.ff, FF.width, FF.ebits, FF.fbits] using Nat.mod_eq_of_lt x.isLt
  rw [this]; rfl

/-- FDOT2: its formats are those of two elements. -/
theorem fdot2_logs (H : Issues s (.fdot2 c ty rnd m d a b e) w c t) :
    let x := fun (f : Fibre) (i : Nat) => modifiedValue ty m.na m.aa (f.get w.pos a) i
    let y := fun (f : Fibre) (i : Nat) => modifiedValue ty m.nb m.ab (f.get w.pos b) i
    let z := fun (f : Fibre) => modifiedValue .f32 m.nc m.ac (f.get w.pos e) 0
    let r := fun (f : Fibre) => nanRule .f32 [x f 0, y f 0, x f 1, y f 1, z f] (invalidProduct (x f 0) (y f 0) || invalidProduct (x f 1) (y f 1))
      (dotRule rnd (exactProduct (x f 0) (y f 0)) (exactProduct (x f 1) (y f 1)) (z f))
    ComputesLogging (.fdot2 c ty rnd m d a b e) s w c (fun f => [(.v d, BitVec.ofNat 32 (r f).1)]) (fun f => (r f).2) := by
  intro x y z r
  have hpair : ty ≠ .f32 := bne_iff_ne.1 H.wellFormed
  have hsum : ∀ f, sumOf .f32 rnd (((FTy.elems ty m.na m.aa (f.get w.pos a)).map (FTy.ff ty).value).zip
      ((FTy.elems ty m.nb m.ab (f.get w.pos b)).map (FTy.ff ty).value)) [FF.f32.value (FF.f32.modify m.nc m.ac (f.get w.pos e).toNat)] = r f := by
    intro f
    rw [elems_eq, elems_eq, if_neg hpair, if_neg hpair, modify_f32]
    exact sumOf_dot rnd (x f 0) (y f 0) (x f 1) (y f 1) (z f)
  have hfile : ∀ f g : Fibre, f.file = g.file → r f = r g := fun f g h => by simp only [r, x, y, z, Fibre.get_file h]
  exact logs_word H rfl rfl (fun f => congrArg (fun q => BitVec.ofNat 32 q.1) (hsum f)) (fun f => congrArg Prod.snd (hsum f))
    (fun f g h => by simp only [hfile f g h, and_self])

end Sums

/-- Settles O9: each instruction is a sum of exact products and terms, which the model rounds once after the special cases of R146. -/
theorem floatArithmetic : Obligations.FloatArithmetic := by
  intro s w t c ty rnd m d a b e
  exact ⟨fun H => logs_binary H rfl rfl (fun _ _ => sumOf_add ..), fun H => logs_binary H rfl rfl (fun _ _ => sumOf_sub ..),
    fun H => logs_binary H rfl rfl (fun _ _ => sumOf_mul ..), ffma_logs, fdot2_logs⟩

/-! ### Extremes, compares, classes (R147 to R149) -/

section Compares

variable {s : State} {w : Who} {c : Ctl} {t : Team} {cond : FCond} {ty : FTy} {m : FMods} {p q : Pred} {a b : Reg}

/-- What FCMP of element n finds (R148). -/
def comparedAt (cond : FCond) (ty : FTy) (m : FMods) (a b : Reg) (pos : Nat) (f : Fibre) (n : Nat) : Bool × Bool :=
  compareRule cond ((FTy.ff ty).value (modified ty m.na m.aa (f.get pos a) n)) ((FTy.ff ty).value (modified ty m.nb m.ab (f.get pos b) n))

/-- The predicates that FCMP writes, in the order of the elements (R148). -/
def comparedWords (ty : FTy) (p q : Pred) (r : Nat → Bool × Bool) : List (RName × Word) :=
  if ty = .f32 then [(.p p, boolWord (r 0).1)] else [(.p p, boolWord (r 0).1), (.p q, boolWord (r 1).1)]

/-- The events that FCMP logs, in the order of the elements (R148). -/
def comparedEvents (ty : FTy) (r : Nat → Bool × Bool) : List Nat :=
  if ty = .f32 then (if (r 0).2 then [1] else []) else (if (r 0).2 then [1] else []) ++ (if (r 1).2 then [1] else [])

/-- FCMP, with each element as R148 compares it. -/
theorem exec_fcmp_eq (c : Ctl) (cond : FCond) (ty : FTy) (m : FMods) (p q : Pred) (a b : Reg) (s : State) :
    exec (.fcmp c cond ty m p a b q) s = alu (.fcmp c cond ty m p a b q) s (fun f pos =>
      .ok (comparedWords ty p q (comparedAt cond ty m a b pos f)) (comparedEvents ty (comparedAt cond ty m a b pos f))) := by
  refine congrArg (alu _ s) (funext fun f => funext fun pos => ?_)
  dsimp only
  rw [elems_eq, elems_eq]
  unfold comparedWords comparedEvents comparedAt
  by_cases hty : ty = .f32
  · subst hty
    simp [compare_eq]
  · simp [hty, compare_eq]

theorem writes_fcmp : (Instr.fcmp c cond ty m p a b q).writes = pg p ++ (if ty = .f32 then [] else pg q) := rfl

/-- FCMP writes predicates it names; where both are the same, the later element's stands. -/
theorem outs_compared {r : Fibre → Nat → Bool × Bool} : Outs (.fcmp c cond ty m p a b q) (fun f => comparedWords ty p q (r f))
    (fun f => if ty = .f32 then [(.p p, boolWord (r f 0).1)] else [(.p q, boolWord (r f 1).1), (.p p, boolWord (r f 0).1)]) := by
  have hpg : ∀ k : Pred, RName.p k ∈ pg k ∨ RName.p k = .p 7#3 := fun k => by
    by_cases hk : k = 7#3
    · exact .inr (congrArg _ hk)
    · exact .inl (by simp [pg, hk])
  have hreverse : ∀ f, (comparedWords ty p q (r f)).reverse =
      if ty = .f32 then [(.p p, boolWord (r f 0).1)] else [(.p q, boolWord (r f 1).1), (.p p, boolWord (r f 0).1)] := by
    intro f; unfold comparedWords; split <;> rfl
  refine ⟨fun f e he => ?_, fun f n _ => ?_⟩
  · unfold comparedWords at he
    have hp := hpg p
    have hq := hpg q
    rw [writes_fcmp, List.mem_append]
    split at he <;> rename_i hty <;> simp only [List.mem_cons, List.not_mem_nil, or_false] at he
    · subst he; exact hp.imp_left .inl
    · rcases he with rfl | rfl
      · exact hp.imp_left .inl
      · rw [if_neg hty]; exact hq.imp_left .inr
  · rw [hreverse, lookup_keep]
    intro e he
    split at he <;> simp only [List.mem_cons, List.not_mem_nil, or_false] at he
    · subst he; exact keep_bool _ _
    · rcases he with rfl | rfl <;> exact keep_bool _ _

/-- What FCMP finds depends on the file alone. -/
theorem comparedAt_file {f g : Fibre} (h : f.file = g.file) (pos : Nat) : comparedAt cond ty m a b pos f = comparedAt cond ty m a b pos g := by
  unfold comparedAt; simp only [Fibre.get_file h]

end Compares

/-- Settles O10: extremes and classes are those of the rules code by code; a compare writes its elements' predicates. -/
theorem floatSelection : Obligations.FloatSelection := by
  intro s w t c ty cond m p q d a b
  refine ⟨fun H => logs_binary H rfl rfl (fun _ _ => extreme_eq ..), fun H => logs_binary H rfl rfl (fun _ _ => extreme_eq ..),
    fun H => logs_unary H rfl rfl (fun f n => by rw [class_eq ty _ (modified_lt ..)]), fun H => ?fcmp⟩
  case fcmp =>
    exact alu_logs H (exec_fcmp_eq ..) _ _ (fun f => comparedEvents ty (comparedAt cond ty m a b w.pos f))
      ⟨fun _ => rfl, fun f g h => by simp only [comparedAt_file h, and_self]⟩ outs_compared

/-! ### Single operands (R150) -/

/-- FSCALE takes each element's power from its own part of the second operand. -/
theorem fscale_logs {s : State} {w : Who} {c : Ctl} {t : Team} {ty : FTy} {rnd : Rnd} {m : FMods} {d a b : Reg}
    (H : Issues s (.fscale c ty rnd m d a b) w c t) :
    let r := fun (f : Fibre) (i : Nat) => scaleRule (FTy.ff ty) rnd (modified ty m.na m.aa (f.get w.pos a) i)
      (if ty = .f32 then (f.get w.pos b).toInt else (((f.get w.pos b).toNat / 65536 ^ i % 65536 + 32768) % 65536 : Nat) - (32768 : Int))
    ComputesLogging (.fscale c ty rnd m d a b) s w c (fun f => elementWords ty d (r f)) (fun f => elementEvents ty (r f)) := by
  intro r
  refine float_logs H rfl rfl r (fun f => ?_) (fun f g h => by simp only [r, Fibre.get_file h])
  rw [← elemResult_eq]
  have hr : ∀ n, (ty = .f32 → n = 0) → scaleOf (FTy.ff ty) rnd (modified ty m.na m.aa (f.get w.pos a) n)
      (sextNat (FTy.ff ty).width (FTy.elem ty (f.get w.pos b) n)) = r f n := fun n hn => by rw [scale_eq, scale_count ty _ n hn]
  dsimp only
  rw [elems_eq]
  by_cases hty : ty = .f32
  · rw [if_pos hty, if_pos hty, ← hr 0 (fun _ => rfl)]; rfl
  · rw [if_neg hty, if_neg hty, ← hr 0 (fun _ => rfl), ← hr 1 (fun h => absurd h hty)]; rfl

/-- Settles O11: each rule code by code; the exponent of a nonzero finite value is the one that the model takes. -/
theorem floatSingleOperand : Obligations.FloatSingleOperand := by
  intro s w t c ty rnd m d a b k
  exact ⟨fun H => logs_unary H rfl rfl (fun _ _ => integral_eq ..), fscale_logs, fun hk =>
    ⟨fun H => logs_unary H rfl rfl (fun f n => exponent_eq _ _ _ (hk f n)), fun H => logs_unary H rfl rfl (fun f n => mantissa_eq _ _ _ (hk f n))⟩⟩

/-! ### Conversion (R152, R153) -/

/-- The register image of a converted element (R152). -/
theorem placeConverted_eq (dst : CFmt) (x : Nat) : placeConverted dst x =
    if dst = .i8 ∨ dst = .i16 then BitVec.ofInt 64 (BitVec.ofNat dst.width x).toInt else BitVec.ofNat 64 x := by
  cases dst <;> rfl

/-- The registers of UNPACK, with distinct names. -/
theorem outs_unpack {c : Ctl} {pf : PFmt} {d a : Reg} (v : Fibre → Nat → Word) :
    Outs (.unpack c pf d a) (fun f => (List.range pf.elems).map (fun n => (.v (d + BitVec.ofNat 8 n), v f n)))
      (fun f => (List.range pf.elems).map (fun n => (.v (d + BitVec.ofNat 8 n), v f n))) := by
  refine ⟨fun f e he => .inl ?_, fun f n _ => ?_⟩
  · obtain ⟨n, hn, rfl⟩ := List.mem_map.1 he
    exact List.mem_map.2 ⟨n, hn, rfl⟩
  · rw [← regs_nodup_lookup d pf.elems (by cases pf <;> decide), lookup_keep]
    intro e he
    obtain ⟨n, -, rfl⟩ := List.mem_map.1 he
    rfl

section Conversions

variable {s : State} {w : Who} {c : Ctl} {t : Team} {dst src : CFmt} {pf : PFmt} {rnd : Rnd} {sat : Bool} {el : BitVec 3} {d a b : Reg}

/-- CVT: the element, its conversion, and the place of the result. -/
theorem exec_cvt_eq (c : Ctl) (dst src : CFmt) (rnd : Rnd) (sat : Bool) (el : BitVec 3) (d a : Reg) (s : State) :
    exec (.cvt c dst src rnd sat el d a) s = alu (.cvt c dst src rnd sat el d a) s (fun f pos =>
      let r := convert dst src rnd sat ((f.getW pos a (decide (src.width = 64))).toNat / 2 ^ (src.width * el.toNat) % 2 ^ src.width)
      .ok (wrW d (decide (dst.width = 64)) (placeConverted dst r.1)) r.2.toList) := rfl

theorem writes_cvt : (Instr.cvt c dst src rnd sat el d a).writes = rgW d (decide (dst.width = 64)) := rfl

/-- CVT of the element it names. -/
theorem cvt_logs (H : Issues s (.cvt c dst src rnd sat el d a) w c t) :
    let code := fun (f : Fibre) => (f.getW w.pos a (decide (src.width = 64))).toNat / 2 ^ (src.width * el.toNat) % 2 ^ src.width
    let r := fun (f : Fibre) => convert dst src rnd sat (code f)
    ComputesLogging (.cvt c dst src rnd sat el d a) s w c
      (fun f => wrW d (decide (dst.width = 64)) (if dst = .i8 ∨ dst = .i16 then
        BitVec.ofInt 64 (BitVec.ofNat dst.width (r f).1).toInt else BitVec.ofNat 64 (r f).1))
      (fun f => (r f).2.toList) := by
  intro code r
  have hfile : ∀ f g : Fibre, f.file = g.file → r f = r g := fun f g h => by simp only [r, code, Fibre.getW_file h]
  exact alu_logs H (exec_cvt_eq ..) (fun f => wrW d (decide (dst.width = 64)) (placeConverted dst (r f).1)) _ (fun f => (r f).2.toList)
    ⟨fun _ => rfl, fun f g h => by simp only [hfile f g h, and_self]⟩
    (outs_congr (outs_wrW_same writes_cvt _) (fun f => by rw [placeConverted_eq]))

/-- PACK puts each converted element in its place. -/
theorem pack_logs (H : Issues s (.pack c pf rnd sat d a b) w c t) :
    let n := pf.elems / 2
    let r := fun (f : Fibre) (i : Nat) => convert (pfmt pf) .f32 rnd sat
      (f.get w.pos (if i < n then a + BitVec.ofNat 8 i else b + BitVec.ofNat 8 (i - n))).toNat
    ComputesLogging (.pack c pf rnd sat d a b) s w c
      (fun f => [(.v d, BitVec.ofNat 32 (∑ i ∈ Finset.range pf.elems, (r f i).1 * 2 ^ ((pfmt pf).width * i)))])
      (fun f => (List.range pf.elems).flatMap (fun i => (r f i).2.toList)) := by
  intro n r
  have hfile : ∀ f g : Fibre, f.file = g.file → r f = r g := fun f g h => by simp only [r, Fibre.get_file h]
  exact logs_word H rfl rfl (fun f => by rw [List.map_map, ← packWord_sum]; rfl) (fun f => by rw [List.flatMap_map])
    (fun f g h => by simp only [hfile f g h, and_self])

/-- UNPACK gives each converted element a register. -/
theorem unpack_logs (H : Issues s (.unpack c pf d a) w c t) :
    let r := fun (f : Fibre) (i : Nat) => convert .f32 (pfmt pf) .rne false
      ((f.get w.pos a).toNat / 2 ^ ((pfmt pf).width * i) % 2 ^ (pfmt pf).width)
    ComputesLogging (.unpack c pf d a) s w c
      (fun f => (List.range pf.elems).map (fun i => (.v (d + BitVec.ofNat 8 i), BitVec.ofNat 32 (r f i).1)))
      (fun f => (List.range pf.elems).flatMap (fun i => (r f i).2.toList)) := by
  intro r
  have hfile : ∀ f g : Fibre, f.file = g.file → r f = r g := fun f g h => by simp only [r, Fibre.get_file h]
  refine alu_logs H rfl _ _ _ ⟨fun f => ?_, fun f g h => by simp only [hfile f g h, and_self]⟩ (outs_unpack (fun f i => BitVec.ofNat 32 (r f i).1))
  dsimp only
  rw [List.flatMap_map]
  refine congrArg₂ AluRes.ok (List.map_congr_left fun i hi => ?_) rfl
  simp [List.getD_eq_getElem?_getD, List.mem_range.1 hi, r]

end Conversions

/-- Settles O12: each converted element in its place, as CVT, PACK and UNPACK put it. -/
theorem conversions : Obligations.Conversions :=
  fun _ _ _ _ _ _ _ _ _ _ _ _ _ => ⟨cvt_logs, pack_logs, unpack_logs⟩

end Sys2Proof.Machine
end

section
/-!
PROOFS. Random numbers (O14), and what sets of fibres that perform a cross-lane instruction together exchange, vote on and map (O15).
-/

namespace Sys2Proof.Machine

/-! ### Random numbers (R157) -/

/-- RAND's word of a fibre. -/
def randWord (pos : Nat) (a b e : Reg) (unif : Bool) (f : Fibre) : Word :=
  let h := randHash (f.get pos a) (f.get pos b) (f.get pos e)
  if unif then BitVec.ofNat 32 (FF.f32.roundFin .rne false false (h.toNat / 256) (-24)).1 else h

theorem rand_computes {s : State} {w : Who} {t : Team} {c : Ctl} {d a b e : Reg} {unif : Bool} (H : Issues s (.rand c unif d a b e) w c t) :
    Computes (.rand c unif d a b e) s w c (fun f => [(.v d, randWord w.pos a b e unif f)]) :=
  computes_word H rfl rfl (fun _ => rfl)

/-- Settles O14: the hash is the model's step by step, and its upper 24 bits are below 2^24, so F32 holds their fraction of 1 exactly. -/
theorem randomNumbers : Obligations.RandomNumbers := by
  intro s w t c d a b e hash h
  refine ⟨rand_computes, fun H => ⟨_, rand_computes H, fun f => ?_⟩⟩
  have hm : (h f).toNat / 256 < 2 ^ 24 := by have := (h f).isLt; omega
  obtain ⟨hlt, hfin, hsign, hrat⟩ := f32_fraction _ hm
  have hword : (randWord w.pos a b e true f).toNat = (FF.f32.roundFin .rne false false ((h f).toNat / 256) (-24)).1 :=
    (BitVec.toNat_ofNat ..).trans (Nat.mod_eq_of_lt hlt)
  rw [hword]
  exact ⟨hfin, hsign, hrat⟩

/-! ### Lane exchange (R164 to R168) -/

/-- What a cross-lane instruction finds of the operands of a set that performs it together: each lane's registers and its vote. -/
def XlnIn.Reads (x : XlnIn) (i : Instr) (s : State) (w : Who) (c : Ctl) (g : Nat) : Prop :=
  ∀ l ∈ s.lanesFor w c g, (∀ r, RName.v r ∈ i.reads → x.reg l r = (s.fibre w.team g l).get w.pos r) ∧ x.vote l = (s.fibre w.team g l).getP w.pos (votePred i)

/-- The 64-bit operand that a set's lane gives. -/
theorem XlnIn.Reads.val {x : XlnIn} {i : Instr} {s : State} {w : Who} {c : Ctl} {g : Nat} (h : x.Reads i s w c g) {l : Nat} (hl : l ∈ s.lanesFor w c g)
    {a : Reg} {w64 : Bool} (ha : ∀ n ∈ rgW a w64, n ∈ i.reads) : x.val l a w64 = (s.fibre w.team g l).getW w.pos a w64 := by
  obtain ⟨hlow, hhigh⟩ := rgW_mem a w64
  refine val_eq fun r hr => (h l hl).1 r (ha _ ?_)
  rcases hr with rfl | ⟨hw, rfl⟩
  · exact hlow
  · exact hhigh hw

/-- A 6-bit count taken as signed. -/
theorem sextNat_six (n : Nat) : sextNat 6 n = (((n + 32) % 64 : Nat) : Int) - 32 := by
  unfold sextNat
  rw [BitVec.toInt_eq_toNat_cond, BitVec.toNat_ofNat]
  split <;> omega

/-- The logical source lane is the one of R165, unless it is off the edge. -/
theorem lxchSource_eq (mode : XMode) (edge : Bool) (h : Nat) (b : Word) : lxchSource mode edge h b =
    if edge = true ∧ (exchangeSource mode h b < 0 ∨ 31 < exchangeSource mode h b) then none else some (exchangeSource mode h b % 32).toNat := by
  cases mode <;> simp [lxchSource, exchangeSource, sextNat_six]

section Exchange

variable {s : State} {w : Who} {t : Team} {c : Ctl} {mode : XMode} {w64 edge neg : Bool} {op : VoteOp} {ms : MSrc} {d a b : Reg} {p : Pred} {g : Nat} {x : XlnIn}

/-- The home lane from which a lane of an exchange takes its value (R165). -/
def exchangeFrom (s : State) (w : Who) (c : Ctl) (mode : XMode) (edge : Bool) (b : Reg) (g h : Nat) : Nat :=
  let n := exchangeSource mode h ((s.fibre w.team g h).get w.pos b)
  let u := (((s.group w.team g).map (·.remap)).getD []).getD (n % 32).toNat 0
  if (edge = true ∧ (n < 0 ∨ 31 < n)) ∨ u ∉ s.lanesFor w c g then h else u

theorem exchangeFrom_mem {h : Nat} (hh : h ∈ s.lanesFor w c g) : exchangeFrom s w c mode edge b g h ∈ s.lanesFor w c g := by
  unfold exchangeFrom
  dsimp only
  split
  · exact hh
  · rename_i hu; exact not_not.1 (not_or.1 hu).2

theorem lxchSet_eq (hx : x.Reads (.lxch c mode w64 edge ms d a b) s w c g) :
    lxchSet mode w64 edge d a b x (((s.group w.team g).map (·.remap)).getD []) (s.lanesFor w c g) =
      ⟨(s.lanesFor w c g).map (fun h => (h, wrW d w64 ((s.fibre w.team g (exchangeFrom s w c mode edge b g h)).getW w.pos a w64))), [], []⟩ := by
  refine congrArg (fun ws => XlnOut.mk ws [] []) (List.map_congr_left fun h hh => congrArg (Prod.mk h) (congrArg (wrW d w64) ?_))
  rw [← hx.val (exchangeFrom_mem hh) (fun _ hn => List.mem_append_left _ (List.mem_append_left _ hn)),
    (hx h hh).1 b (List.mem_append_left _ (List.mem_append_right _ (List.mem_singleton.2 rfl))), lxchSource_eq]
  unfold exchangeFrom
  by_cases he : edge = true ∧ (exchangeSource mode h ((s.fibre w.team g h).get w.pos b) < 0 ∨ 31 < exchangeSource mode h ((s.fibre w.team g h).get w.pos b))
  · rw [if_pos he, if_pos (.inl he)]
  · rw [if_neg he]
    simp only [he, false_or, ite_not, List.contains_eq_mem, decide_eq_true_eq]

theorem lxch_completes (H : Starts s (.lxch c mode w64 edge ms d a b) w c t) (hm : s.together w c ms) :
    Completes (.lxch c mode w64 edge ms d a b) s w c s
      (fun y => some (wrW d w64 ((s.fibre w.team y.1 (exchangeFrom s w c mode edge b y.1 y.2)).getW w.pos a w64))) :=
  xln_completes_plain H hm rfl (fun y => wrW d w64 ((s.fibre w.team y.1 (exchangeFrom s w c mode edge b y.1 y.2)).getW w.pos a w64))
    (fun _ _ _ hx => lxchSet_eq hx)

/-- What VOTE gives each lane of a set whose votes are known (R166). -/
def voteWords (op : VoteOp) (d : Reg) (ls : List Nat) (vote : Nat → Bool) : List (RName × Word) :=
  match op with
  | .ballot => [(.v d, wordOfBits (fun l => decide (l ∈ ls) && vote l))]
  | .all => [(.p (d.setWidth 3), boolWord (ls.all vote))]
  | .any => [(.p (d.setWidth 3), boolWord (ls.any vote))]
  | .eq => [(.p (d.setWidth 3), boolWord (ls.all vote || ls.all (fun l => !vote l)))]

theorem voteSet_eq (vote : Nat → Bool) (hv : ∀ l ∈ s.lanesFor w c g, (x.vote l != neg) = vote l) :
    voteSet op neg d x (s.lanesFor w c g) = ⟨(s.lanesFor w c g).map (fun l => (l, voteWords op d (s.lanesFor w c g) vote)), [], []⟩ := by
  generalize s.lanesFor w c g = ls at hv
  have hvs : ls.map (fun l => (l, x.vote l != neg)) = ls.map (fun l => (l, vote l)) := List.map_congr_left fun l hl => by rw [hv l hl]
  unfold voteSet
  rw [hvs]
  refine congrArg (fun ws => XlnOut.mk ws [] []) (List.map_congr_left fun l _ => congrArg (Prod.mk l) ?_)
  cases op with
  | ballot =>
    simp only [voteWords, List.filter_map, List.map_map]
    rw [← laneSet_word]
    simp [Function.comp_def]
  | all | any => simp [voteWords, Function.comp_def]
  | eq => simp [voteWords, Function.comp_def, List.not_any_eq_all_not]

theorem vote_completes (H : Starts s (.vote c op neg ms d p) w c t) (hm : s.together w c ms) : Completes (.vote c op neg ms d p) s w c s
    (fun y => some (voteWords op d (s.lanesFor w c y.1) (fun l => (s.fibre w.team y.1 l).getP w.pos p != neg))) :=
  xln_completes_plain H hm rfl (fun y => voteWords op d (s.lanesFor w c y.1) (fun l => (s.fibre w.team y.1 l).getP w.pos p != neg))
    (fun g _ _ hx => voteSet_eq (fun l => (s.fibre w.team g l).getP w.pos p != neg) (fun l hl => congrArg (· != neg) (hx l hl).2))

theorem matchSet_eq (hx : x.Reads (.matchx c w64 ms d a) s w c g) :
    matchSet w64 d a x (s.lanesFor w c g) = ⟨(s.lanesFor w c g).map (fun h => (h, [(.v d, wordOfBits (fun l => decide (l ∈ s.lanesFor w c g) &&
      decide ((s.fibre w.team g l).getW w.pos a w64 = (s.fibre w.team g h).getW w.pos a w64)))])), [], []⟩ := by
  have hval : ∀ l ∈ s.lanesFor w c g, x.val l a w64 = (s.fibre w.team g l).getW w.pos a w64 := fun l hl =>
    hx.val hl (fun _ hn => List.mem_append_left _ hn)
  unfold matchSet
  congr 1
  refine List.map_congr_left fun h hh => ?_
  rw [← laneSet_word, List.filter_congr fun l hl => by rw [hval l hl, hval h hh]]

theorem electSet_eq : electSet p (s.lanesFor w c g) =
    ⟨(s.lanesFor w c g).map (fun l => (l, [(.p p, boolWord ((s.lanesFor w c g).all (fun k => decide (l ≤ k))))])), [], []⟩ := by
  unfold electSet
  congr 1
  exact List.map_congr_left fun l hl => by rw [head_least s w c g l hl]

theorem lanemapSet_eq (hx : x.Reads (.lanemap c ms a) s w c g) : lanemapSet a x (s.lanesFor w c g) =
    ⟨(s.lanesFor w c g).map (fun l => (l, [])), [], (s.lanesFor w c g).map (fun l => (l, ((s.fibre w.team g l).get w.pos a).toNat % 32))⟩ := by
  unfold lanemapSet
  congr 1
  exact List.map_congr_left fun l hl => by rw [(hx l hl).1 a (List.mem_append_left _ (List.mem_singleton.2 rfl))]

theorem lanemap_completes (H : Starts s (.lanemap c ms a) w c t) (hm : s.together w c ms) : Completes (.lanemap c ms a) s w c
    ((groupsOf (s.performers w c)).foldl (fun (r : State) g => r.modGroup w.team g (fun y => { y with
      remap := (s.lanesFor w c g).foldl (fun m l => m.set l (((s.fibre w.team g l).get w.pos a).toNat % 32)) y.remap })) s) (fun _ => some []) := by
  have h := xln_completes H hm rfl (fun _ => []) (fun g => (s.lanesFor w c g).map (fun l => (l, ((s.fibre w.team g l).get w.pos a).toNat % 32)))
    (fun _ _ _ hx => lanemapSet_eq hx)
  simpa only [List.foldl_map] using h

/-- The fibres of a group that perform an instruction, as a word of bits. -/
theorem laneSet_performers (hw : s.who = some w) : laneSet (lanesIn (s.performers w c) g) = wordOfBits (fun l => decide (l ∈ s.lanesFor w c g) && true) := by
  rw [(lanesFor_eq hw).1, ← laneSet_word]
  simp

/-- An instruction that never waits: each performing fibre has its own result (R164, R168). -/
theorem xlnNow_completes {i : Instr} {val : List Nat → Option Machine.Group → Nat → Word} (H : Starts s i w c t)
    (he : exec i s = native i s (fun w s => xlnNow i d w s val)) :
    Completes i s w c s (fun y => some [(.v d, val (lanesIn (s.performers w c) y.1) (s.group w.team y.1) y.2)]) :=
  completes_now H he (fun y => [(.v d, val (lanesIn (s.performers w c) y.1) (s.group w.team y.1) y.2)]) (by unfold xlnNow; rfl)

/-- The entry of a group's remap table for a lane (R164). -/
def remapWord (gr : Option Machine.Group) (l : Nat) : Word := BitVec.ofNat 32 (((gr.map (·.remap)).getD []).getD l 0)

theorem exec_lanemapRd_eq (c : Ctl) (d : Reg) (s : State) :
    exec (.lanemapRd c d) s = native (.lanemapRd c d) s (fun w s => xlnNow (.lanemapRd c d) d w s (fun _ gr l => remapWord gr l)) := rfl

theorem lanemapRd_completes (H : Starts s (.lanemapRd c d) w c t) : Completes (.lanemapRd c d) s w c s
    (fun y => some [(.v d, remapWord (s.group w.team y.1) y.2)]) :=
  xlnNow_completes H (exec_lanemapRd_eq c d s)

theorem active_completes (H : Starts s (.active c d) w c t) : Completes (.active c d) s w c s
    (fun y => some [(.v d, wordOfBits (fun l => decide (l ∈ s.lanesFor w c y.1) && true))]) := by
  have h := xlnNow_completes (val := fun ls _ _ => laneSet ls) H rfl
  simpa only [laneSet_performers H.who] using h

end Exchange

/-- Settles O15: each instruction's set, brought to the words of its rule; the remap table takes its new entries lane by lane. -/
theorem laneExchange : Obligations.LaneExchange := by
  intro s w t c mode w64 edge neg op ms d a b p lanes x table source vote bits flag
  refine ⟨fun H hm => ?lxch, fun H hm => ?vote, fun H hm => ?matchx, fun H hm => ?elect, fun H hm => ?lanemap, fun H => ?lanemapRd, fun H => ?active⟩
  case lxch => exact lxch_completes H hm
  case vote =>
    refine (funext fun y => congrArg some ?_ : _ = _) ▸ vote_completes H hm
    cases op <;> rfl
  case matchx => exact xln_completes_plain H hm rfl _ (fun g _ x hx => matchSet_eq hx)
  case elect => exact xln_completes_plain H hm rfl _ (fun g _ x _ => electSet_eq)
  case lanemap => exact lanemap_completes H hm
  case lanemapRd => exact lanemapRd_completes H
  case active => exact active_completes H

end Sys2Proof.Machine
end

section
/-!
SUPPORT. What writes at their homes leave, with the fibres that they release, and what of a group a cross-lane instruction depends on: logging events
changes none of it.
-/

namespace Sys2Proof.Machine

/-! ### What writes at their homes leave (R262, R287) -/

/-- A view of the part that reads its teams alone, and of them nothing that releasing a waiting fibre changes. -/
structure ReleaseBlind {β : Type} (p : State → β) : Prop where
  teams   : ∀ {a r : State}, r.teams = a.teams → p r = p a
  release : ∀ (a : State) (t g l op : Nat) (ws : List (RName × Word)), p (a.release t g l op ws) = p a

namespace ReleaseBlind

variable {β : Type} {p : State → β}

theorem foldlFst {α γ : Type} (ls : List α) (step : State × γ → α → State × γ) (hs : ∀ a x, p (step a x).1 = p a.1) (a : State × γ) :
    p (ls.foldl step a).1 = p a.1 := by
  induction ls generalizing a with
  | nil => rfl
  | cons x ls ih => exact (ih _).trans (hs a x)

variable (hp : ReleaseBlind p)
include hp

theorem acquireGo (s : State) (k : Nat) (uo : Bool) : p (s.acquireGo k uo).1 = p s := hp.teams rfl
theorem modSlice (s : State) (k : Nat) (h : Slice → Slice) : p (s.modSlice k h) = p s := hp.teams rfl
theorem setMem (s : State) (m : Memory) : p { s with mem := m } = p s := hp.teams rfl

theorem forsake (s : State) (k l : Nat) : p (s.forsake k l).1 = p s := by
  unfold State.forsake
  split
  · split
    · rfl
    · exact hp.teams rfl
  · rfl

theorem judgeLane (m : Monitor) (v : Word) (a : State × List HomeEvent) (l : Nat) : p (State.judgeLane m v a l).1 = p a.1 := by
  unfold State.judgeLane
  split
  · split
    · dsimp only; split
      · exact (hp.forsake _ _ _).trans ((hp.acquireGo _ _ _).trans (hp.release _ _ _ _ _ _))
      · exact hp.release _ _ _ _ _ _
    · rfl
  · rfl

theorem judgeMon (s : State) (sk : Nat) (m : Monitor) : p (s.judgeMon sk m).1 = p s := by
  have h := foldlFst (List.range 32) (State.judgeLane m (s.word m.pa)) (hp.judgeLane m _) (s, [])
  unfold State.judgeMon
  generalize (List.range 32).foldl (State.judgeLane m (s.word m.pa)) (s, []) = r at h ⊢
  dsimp only at h ⊢
  split
  · exact h
  · dsimp only; exact (hp.modSlice r.1 sk _).trans h

theorem judge (s : State) (pa : Nat) : p (s.judge pa).1 = p s := by
  unfold State.judge
  dsimp only
  split
  · rfl
  · have hnext : ∀ a m, p (State.judgeNext (homeKey pa) a m).1 = p a.1 := by
      intro a m
      rw [← hp.judgeMon a.1 (homeKey pa) m]
      unfold State.judgeNext
      generalize a.1.judgeMon (homeKey pa) m = q
      rfl
    generalize hr : s.modSlice _ _ = r
    rw [← hp.modSlice s, hr]
    exact foldlFst _ _ hnext (r, [])

theorem hostOut (s : State) (e : HomeEvent) : p (s.hostOut e) = p s := by
  refine hp.teams ?_
  unfold State.hostOut
  split
  · rfl
  · dsimp only; split
    · unfold State.snoop; split <;> rfl
    · rfl

theorem homeGo (n : Nat) (ws : List HomeEvent) (s : State) : p (State.homeGo n ws s) = p s := by
  induction n generalizing ws s with
  | zero => exact hp.teams rfl
  | succ n ih =>
    cases ws with
    | nil => rfl
    | cons e rest => exact (ih _ _).trans ((hp.judge _ _).trans ((hp.setMem _ _).trans (hp.hostOut s e)))

theorem homeWrites (s : State) (ws : List HomeEvent) : p (s.homeWrites ws) = p s :=
  State.foldl_keeps p ws _ (fun a e => hp.homeGo 4096 [e] a) s

theorem homeWrite (s : State) (pa : Nat) (bs : List Byte) : p (s.homeWrite pa bs) = p s := by
  unfold State.homeWrite; split
  · rfl
  · split <;> exact hp.homeWrites _ _

theorem eventWrite (s : State) (k : Nat) (bytes : List Byte) : p (s.eventWrite k bytes) = p s := by
  unfold State.eventWrite State.bumpCtx State.setCtxWord
  split
  · rfl
  · dsimp only; split
    · split
      · rfl
      · exact hp.homeWrite _ _ _
    · exact (hp.homeWrite _ _ _).trans (hp.homeWrite _ _ _)

/-- Logging events leaves the view, where the books of events do (R359). -/
theorem logEvents (hbook : ∀ (a : State) (t g : Nat) (h : Machine.Group → Machine.Group),
    (∀ x, ∃ e b, h x = { x with event := e, dxbuf := b }) → p (a.modGroup t g h) = p a) (s : State) (t g : Nat) (clause : VAddr) (causes : List Nat) :
    p (s.logEvents t g clause causes) = p s := by
  have hclose : ∀ (a : State) e, p (a.closeEvent t g e) = p a := by
    intro a e
    unfold State.closeEvent
    split
    · rfl
    · split
      · exact hbook _ _ _ _ (fun x => ⟨x.event, _, rfl⟩)
      · exact hp.eventWrite _ _ _
  refine State.foldl_keeps p causes _ (fun a k => ?_) s
  unfold State.logEvent
  split
  · split
    · exact hbook _ _ _ _ (fun x => ⟨_, x.dxbuf, rfl⟩)
    · exact (hbook _ _ _ _ (fun x => ⟨_, x.dxbuf, rfl⟩)).trans (hclose _ _)
  · exact hbook _ _ _ _ (fun x => ⟨_, x.dxbuf, rfl⟩)

/-- Answering a lane leaves the view: a fibre that waits is released, any other is counted off. -/
theorem doneLane (s : State) (w : Who) (g l op : Nat) (ws : List (RName × Word)) : p (s.doneLane w g l op ws) = p s := by
  unfold State.doneLane
  split
  · exact hp.release _ _ _ _ _ _
  · exact hp.teams rfl

end ReleaseBlind

/-! ### What cross-lane instructions see of a group -/

/-- The path is parked at a cross-lane instruction. -/
def Path.isParked (p : Machine.Path) : Bool := match p.kind with | .parked .. => true | _ => false

theorem Group.parked_eq (x : Machine.Group) : x.parked = x.paths.filter Path.isParked := rfl

theorem filter_set_of_neg {α : Type} {P : α → Bool} {q : α} (hq : P q = false) (ls : List α) (i : Nat) (hi : ∀ x, ls[i]? = some x → P x = false) :
    (ls.set i q).filter P = ls.filter P := by
  induction ls generalizing i with
  | nil => rfl
  | cons x ls ih =>
    cases i with
    | zero => simp [hq, hi x rfl]
    | succ i => simp [List.filter_cons, ih i (fun y hy => hi y hy)]

theorem filter_eraseIdx_of_neg {α : Type} {P : α → Bool} (ls : List α) (i : Nat) (hi : ∀ x, ls[i]? = some x → P x = false) :
    (ls.eraseIdx i).filter P = ls.filter P := by
  induction ls generalizing i with
  | nil => rfl
  | cons x ls ih =>
    cases i with
    | zero => simp [hi x rfl]
    | succ i => simp [List.filter_cons, ih i (fun y hy => hi y hy)]

/-- A waiting path that becomes ready, by itself or merged with a ready one, changes none of the parked paths. -/
theorem Group.readyPath_parked (x : Machine.Group) (i : Nat) (hi : ∀ p, x.paths[i]? = some p → p.kind = .waiting) : (x.readyPath i).parked = x.parked := by
  have hwaits : ∀ p, x.paths[i]? = some p → Path.isParked p = false := fun p hp => by unfold Path.isParked; rw [hi p hp]
  unfold Group.readyPath
  split
  · rfl
  · dsimp only
    split
    · exact filter_set_of_neg rfl _ _ hwaits
    · rename_i j hj
      obtain ⟨hji, hmate⟩ : j ≠ i ∧ ∀ r, x.paths[j]? = some r → Path.isParked r = false := by
        have hj := List.find?_some hj
        simp only [Bool.and_eq_true, decide_eq_true_eq] at hj
        obtain ⟨⟨hne, -⟩, hready⟩ := hj
        refine ⟨hne, fun r hr => ?_⟩
        simp only [hr, Bool.and_eq_true, decide_eq_true_eq] at hready
        obtain ⟨hkind, -⟩ := hready
        unfold Path.isParked
        rw [hkind]
      rw [Group.parked_eq, Group.parked_eq]
      split
      · rw [filter_eraseIdx_of_neg _ _ (fun y hy => hwaits y (by rwa [List.getElem?_set_ne hji] at hy)), filter_set_of_neg rfl _ _ hmate]
      · rw [filter_eraseIdx_of_neg _ _ (fun y hy => hmate y (by rwa [List.getElem?_set_ne hji.symm] at hy)), filter_set_of_neg rfl _ _ hwaits]

theorem Group.released_waits {x : Machine.Group} {i : Nat} (h : x.released = some i) : ∀ p, x.paths[i]? = some p → p.kind = .waiting := by
  intro p hp
  have hfound := List.find?_some h
  simp only [hp, Bool.and_eq_true, decide_eq_true_eq] at hfound
  obtain ⟨hkind, -⟩ := hfound
  exact hkind

theorem Group.settleWaits_parked (x : Machine.Group) (now : Nat) : (x.settleWaits now).parked = x.parked := by
  unfold Group.settleWaits
  generalize x.paths.length = n
  induction n generalizing x with
  | zero => rfl
  | succ n ih =>
    unfold Group.settleGo
    split
    · rfl
    · rename_i i hi
      rw [ih, ← Group.readyPath_parked x i (Group.released_waits hi)]
      split <;> rfl

theorem Group.readyPath_remap (x : Machine.Group) (i : Nat) : (x.readyPath i).remap = x.remap := by
  unfold Group.readyPath; split
  · rfl
  · dsimp only; split
    · rfl
    · split <;> rfl

/-- What a cross-lane instruction depends on of a group: its parked paths, its remap table, and which of its fibres live, with their registers. -/
def Group.standing (x : Machine.Group) : List Machine.Path × List Nat × List (Bool × List Word × BitVec 7 × List Word × BitVec 7 × List WEntry) :=
  (x.parked, x.remap, x.fibres.map (fun f => (f.live, f.file)))

theorem Group.settleWaits_standing (x : Machine.Group) (now : Nat) : (x.settleWaits now).standing = x.standing := by
  unfold Group.standing
  rw [Group.settleWaits_parked, Group.settleWaits_keeps (·.remap) Group.readyPath_remap (fun _ _ => rfl), Group.settleWaits_fibres]

theorem Group.modFibre_standing (x : Machine.Group) (l : Nat) (h : Fibre → Fibre) (hh : ∀ f, ((h f).live, (h f).file) = (f.live, f.file)) :
    (x.modFibre l h).standing = x.standing :=
  congrArg (fun fs => (x.parked, x.remap, fs)) (List.map_modify_of_eq (fun f : Fibre => (f.live, f.file)) h hh x.fibres l)

theorem Group.standing_live {x y : Machine.Group} (h : y.standing = x.standing) : y.live = x.live := by
  have hfibres : y.fibres.map (fun f => (f.live, f.file)) = x.fibres.map (fun f => (f.live, f.file)) := congrArg (fun z => z.2.2) h
  have hlen : y.fibres.length = x.fibres.length := by simpa using congrArg List.length hfibres
  have hlive : ∀ l : Nat, (y.fibres[l]?).map Fibre.live = (x.fibres[l]?).map Fibre.live := fun l => by
    simpa [Function.comp_def] using congrArg (fun fs => (fs[l]?).map Prod.fst) hfibres
  simp only [Group.live, hlen, hlive]

theorem State.modGroup_group_keeps {β : Type} (q : Machine.Group → β) (s : State) (t g u k : Nat) (h : Machine.Group → Machine.Group)
    (hh : ∀ x, q (h x) = q x) : ((s.modGroup t g h).group u k).map q = (s.group u k).map q := by
  rw [State.group_modGroup]
  split
  · cases s.group u k <;> simp [hh]
  · rfl

theorem standing_releaseBlind (u k : Nat) : ReleaseBlind (fun s => (s.group u k).map Group.standing) where
  teams h := by simp only [State.group, State.team, h]
  release a t g l op ws := by
    have hfreed : ∀ b : State, (b.modTeam t (fun x => { x with freed := true })).group u k = b.group u k := fun b => by
      simp only [State.group, State.team_modTeam]
      split
      · cases b.team u <;> rfl
      · rfl
    unfold State.release
    rw [hfreed, State.modGroup_group_keeps _ _ _ _ _ _ _ (fun x => Group.settleWaits_standing x _)]
    exact State.modGroup_group_keeps _ _ _ _ _ _ _ (fun x => Group.modFibre_standing x l _ (fun _ => rfl))

/-- Logging events, with what the full records write and release, leaves every group standing for cross-lane instructions. -/
theorem logEvents_standing (s : State) (t g u k : Nat) (clause : VAddr) (causes : List Nat) :
    ((s.logEvents t g clause causes).group u k).map Group.standing = (s.group u k).map Group.standing :=
  (standing_releaseBlind u k).logEvents (fun a t g h hh => State.modGroup_group_keeps _ a t g u k h (fun x => by obtain ⟨e, b, he⟩ := hh x; rw [he]; rfl))
    s t g clause causes

end Sys2Proof.Machine
end

section
/-!
PROOFS. Reductions and scans (O16): groups that stand together perform their shares one after another, whatever those before them have logged.
-/

namespace Sys2Proof.Machine

/-! ### A set that stands together, whatever other groups have logged before it (R158 to R160) -/

/-- The masks that the fibres of a set read (R158). -/
def MaskGives (ms : MSrc) (masks : List Word) (live set : Lanes) : Prop :=
  match ms with
  | .path => True
  | .group => masks = [] ∧ live = set
  | .reg _ => ∃ mask, masks = [mask] ∧ set &&& ~~~mask = 0 ∧ mask &&& live = set

theorem MaskGives.parts {ms : MSrc} {masks : List Word} {live set : Lanes} (h : MaskGives ms masks live set) : xlnParts ms masks live set = set := by
  cases ms with
  | path => rfl
  | group => exact h.2
  | reg m => obtain ⟨mask, rfl, -, hset⟩ := h; exact hset

/-- No mismatch (R160): the masks agree, no fibre of the set is behind, and no parked set concerns it. -/
theorem MaskGives.not_bad {ms : MSrc} {masks : List Word} {live set : Lanes} (h : MaskGives ms masks live set) {idle : List Nat} {parked : List Machine.Path}
    {here mate : Machine.Path → Bool} (hidle : ∀ l ∈ idle, set.getLsbD l = false)
    (hparked : ms ≠ .path → ∀ p ∈ parked, p.lanes &&& set = 0 ∧ p.parts &&& set = 0) :
    xlnBad ms masks live set set idle parked here mate = false := by
  have hidle : idle.any (fun l => set.getLsbD l) = false := List.any_eq_false.2 fun l hl => by simp [hidle l hl]
  have hlanes : ms ≠ .path → parked.any (fun p => decide (p.lanes &&& set ≠ 0) && !mate p) = false := fun hm =>
    List.any_eq_false.2 fun p hp => by simp [(hparked hm p hp).1]
  have hparts : ms ≠ .path → parked.any (fun p => !here p && decide (p.parts &&& set ≠ 0)) = false := fun hm =>
    List.any_eq_false.2 fun p hp => by simp [(hparked hm p hp).2]
  cases ms with
  | path => rfl
  | group =>
    obtain ⟨rfl, rfl⟩ := h
    simp only [xlnBad, hidle, hlanes (by simp), hparts (by simp)]
    simp
  | reg m =>
    obtain ⟨mask, rfl, hmask, -⟩ := h
    simp only [xlnBad, hidle, hlanes (by simp), hparts (by simp)]
    simp [hmask]

/-- A group whose set is the fibres that perform the instruction, none of them parked there, performs it at once. -/
theorem xlnGroup_performs {i : Instr} {ms : MSrc} {w : Who} {a : State} {g : Nat} {y : Machine.Group} (hy : a.group w.team g = some y)
    (hset : MaskGives ms (a.xlnMasks w ms g (lanesIn w.perf g)) y.live (laneSet (lanesIn w.perf g)))
    (hapart : ∀ p ∈ y.parked, ¬ (p.pc = w.clause ∧ p.idx = w.idx))
    (hparked : ms ≠ .path → ∀ p ∈ y.parked, p.lanes &&& laneSet (lanesIn w.perf g) = 0 ∧ p.parts &&& laneSet (lanesIn w.perf g) = 0) :
    xlnGroup i ms w a g = a.xlnDo i w g (lanesIn w.perf g) (lanesOf (laneSet (lanesIn w.perf g))) := by
  have hmates : ∀ depth parts, y.parked.filter (fun p =>
      decide (p.pc = w.clause) && decide (p.idx = w.idx) && decide (p.depth = depth) && decide (p.parts = parts)) = [] := by
    refine fun depth parts => List.filter_eq_nil_iff.2 fun p hp => ?_
    have := hapart p hp
    simp only [Bool.and_eq_true, decide_eq_true_eq]
    tauto
  have hidle : ∀ l ∈ (lanesIn w.active g).filter (fun l => !(lanesIn w.perf g).contains l && decide ((a.fibre w.team g l).leave = .run)),
      (laneSet (lanesIn w.perf g)).getLsbD l = false := by
    intro l hl
    simp only [List.mem_filter, Bool.and_eq_true, Bool.not_eq_true', List.contains_eq_mem, decide_eq_false_iff_not] at hl
    simp [laneSet_bit, hl.2.1]
  have hnone : ∀ m : Lanes, m ||| 0 = m := fun m => BitVec.or_zero
  have hall : ∀ m : Lanes, m &&& ~~~m = 0 := fun m => BitVec.and_not_self m
  unfold xlnGroup
  rw [hy]
  simp only [hset.parts, hmates, hset.not_bad hidle hparked, List.foldl_nil, hnone, hall, Bool.false_eq_true, ne_eq, not_true_eq_false, if_false, if_true]

/-- What the operands of a set come to depends on the files of its fibres alone. -/
theorem State.xlnIn_congr {s a : State} {t g : Nat} (h : ∀ l, (a.fibre t g l).file = (s.fibre t g l).file) (i : Instr) (pos : Nat) (issuing cs : List Nat) :
    a.xlnIn t g i pos issuing cs = s.xlnIn t g i pos issuing cs := by
  have hreg : ∀ l r, (a.fibre t g l).reg r = (s.fibre t g l).reg r := fun l r => by simp only [Fibre.reg, (Fibre.file_eq (h l)).1]
  have hpred : ∀ l q, (a.fibre t g l).pred q = (s.fibre t g l).pred q := fun l q => by simp only [Fibre.pred, (Fibre.file_eq (h l)).2.1]
  simp only [State.xlnIn, Fibre.get_file (h _), Fibre.getP_file (h _), hreg, hpred]

theorem State.fibre_file_of_standing {s a : State} {t g : Nat} (h : (a.group t g).map Group.standing = (s.group t g).map Group.standing) (l : Nat) :
    (a.fibre t g l).file = (s.fibre t g l).file := by
  have hfibres := congrArg (Option.map (fun z => z.2.2)) h
  simp only [Option.map_map, Function.comp_def, Group.standing] at hfibres
  refine State.fibre_file_of ?_
  unfold State.fibre?
  rcases ha : a.group t g with _ | y <;> rcases hs : s.group t g with _ | x <;> simp only [ha, hs, Option.map_none, Option.map_some, reduceCtorEq] at hfibres
  · rfl
  · have hl := congrArg (fun fs => (fs[l]?).map Prod.snd) (Option.some.inj hfibres)
    simpa [Function.comp_def] using hl

section Together

variable {i : Instr} {s a : State} {w : Who} {c : Ctl} {t : Team} {ms : MSrc} {g : Nat}

/-- What the masks of a set that stands together are (R158). -/
theorem together_masks (hw : s.who = some w) (hm : s.together w c ms) (hg : g ∈ groupsOf (s.performers w c)) {x : Machine.Group} (hx : s.group w.team g = some x) :
    MaskGives ms (s.xlnMasks w ms g (lanesIn (s.performers w c) g)) x.live (laneSet (lanesIn (s.performers w c) g)) := by
  obtain ⟨-, hset⟩ := hm g hg x hx
  obtain ⟨l0, hl0⟩ := mem_groupsOf.1 hg
  have hlanes : ∀ l, l ∈ lanesIn (s.performers w c) g ↔ l ∈ s.lanesFor w c g := fun l => by rw [mem_lanesIn, mem_lanesFor hw]
  rw [(lanesFor_eq hw).1]
  cases ms with
  | path => trivial
  | group => exact ⟨rfl, hset⟩
  | reg m =>
    obtain ⟨mask, hread, hin, hparts⟩ := hset
    refine ⟨mask, eraseDups_const (fun y hy => ?_) (List.ne_nil_of_mem (List.mem_map_of_mem (mem_lanesIn.2 hl0))), ?_, hparts⟩
    · obtain ⟨l, hl, rfl⟩ := List.mem_map.1 hy
      exact hread l ((hlanes l).1 hl)
    · refine BitVec.eq_of_getLsbD_eq fun k hk => ?_
      simp only [BitVec.getLsbD_and, BitVec.getLsbD_not, laneSet_bit]
      by_cases hb : k ∈ s.lanesFor w c g
      · simp [hin k hb]
      · simp [hb]

/-- A group that stands as before performs its part of the instruction at once, whatever has changed elsewhere. -/
theorem xlnGroup_together (H : Starts s i w c t) (hm : s.together w c ms) (hg : g ∈ groupsOf (s.performers w c))
    (ha : (a.group w.team g).map Group.standing = (s.group w.team g).map Group.standing) :
    xlnGroup i ms (w.by (s.performers w c)) a g = a.xlnDo i (w.by (s.performers w c)) g (lanesIn (s.performers w c) g) (s.lanesFor w c g) := by
  obtain ⟨l0, hl0⟩ := mem_groupsOf.1 hg
  obtain ⟨f0, hf0, -⟩ := H.files (g, l0) (State.mem_performers hl0)
  obtain ⟨x, hx, -⟩ := Option.bind_eq_some_iff.1 hf0
  rw [hx] at ha
  obtain ⟨y, hy, hyx⟩ := Option.map_eq_some_iff.1 ha
  have hparked : y.parked = x.parked := congrArg Prod.fst hyx
  have hfiles := State.fibre_file_of_standing (s := s) (a := a) (t := w.team) (g := g) (by rw [hx, ha])
  have hmasks : a.xlnMasks (w.by (s.performers w c)) ms g (lanesIn (s.performers w c) g) = s.xlnMasks w ms g (lanesIn (s.performers w c) g) := by
    cases ms with
    | path | group => rfl
    | reg m => exact congrArg List.eraseDups (List.map_congr_left fun l _ => Fibre.get_file (hfiles l) _ _)
  have hgives := together_masks H.who hm hg hx
  obtain ⟨hpark, -⟩ := hm g hg x hx
  rw [← (lanesFor_eq H.who).1] at hpark
  rw [← (lanesFor_eq H.who).2, ← (lanesFor_eq H.who).1]
  refine xlnGroup_performs (w := w.by (s.performers w c)) hy ?_ ?_ ?_
  · rw [show (w.by (s.performers w c)).perf = s.performers w c from rfl, hmasks, Group.standing_live hyx]
    exact hgives
  · exact fun p hp => (hpark p (hparked ▸ hp)).1
  · exact fun hne p hp => (hpark p (hparked ▸ hp)).2.resolve_left hne

end Together

/-! ### Open records (R359) -/

/-- What instructions that log events leave of a team's records, and of what a step needs at its end: what becomes of each group's open record. -/
structure State.Logs (t : Nat) (h : Nat → Option EventRec → Option EventRec) (s r : State) : Prop where
  bundles : r.bundles = s.bundles
  kills   : r.kills = s.kills
  now     : r.coreNow t = s.coreNow t
  events  : ∀ k, (r.group t k).map (·.event) = (s.group t k).map (fun y => h k y.event)

theorem State.Logs.trans {t : Nat} {h h' : Nat → Option EventRec → Option EventRec} {a b d : State} (H : State.Logs t h a b) (K : State.Logs t h' b d) :
    State.Logs t (fun k e => h' k (h k e)) a d := by
  refine ⟨K.bundles.trans H.bundles, K.kills.trans H.kills, K.now.trans H.now, fun k => ?_⟩
  have hk := congrArg (Option.map (h' k)) (H.events k)
  rw [K.events]
  simpa only [Option.map_map, Function.comp_def] using hk

theorem State.Same.logs {s r : State} (H : State.Same s r) (t : Nat) : State.Logs t (fun _ e => e) s r := ⟨H.bundles, H.kills, H.now t, H.events t⟩

theorem State.calm_group (s : State) (t g : Nat) : s.calm.group t g = (s.group t g).map Group.calm := by
  have hteam : s.calm.team t = (s.team t).map Team.calm := by
    unfold State.team State.calm
    dsimp only
    induction s.teams with
    | nil => rfl
    | cons e ls ih =>
      simp only [List.map_cons, fget]
      split
      · rfl
      · exact ih
  unfold State.group
  rw [hteam]
  cases s.team t with
  | none => rfl
  | some y => simp [Team.calm]

/-- Books of operations are no part of what is logged. -/
theorem State.logs_of_calm {s r : State} (h : r.calm = s.calm) (t : Nat) : State.Logs t (fun _ e => e) s r := by
  obtain ⟨hb, hk, hn⟩ := State.calm_facts h
  refine ⟨hb, hk, hn t, fun k => ?_⟩
  have hg := congrArg (fun a : State => (a.group t k).map (·.event)) h
  simp only [State.calm_group, Option.map_map] at hg
  exact hg

/-! ### What a group's share comes to -/

/-- A group's operation is opened and answered lane by lane, and its events are logged. -/
def State.combine (r : State) (i : Instr) (u : Who) (g : Nat) (ls : List Nat) (ws : Nat → List (RName × Word)) (ev : List Nat) : State :=
  let q := r.openOps i u (ls.map (fun l => (g, l)))
  (ls.foldl (fun (x : State) l => x.doneLane u g l (opOf q.1 g) (ws l)) q.2).logEvents u.team g u.clause ev

theorem xlnDo_combine {i : Instr} {u : Who} {a : State} {g : Nat} {issuing ls : List Nat} {ws : Nat → List (RName × Word)} {ev : List Nat}
    (hout : xlnOut i (a.xlnIn u.team g i u.pos issuing ls) (((a.group u.team g).map (·.remap)).getD []) ls = ⟨ls.map (fun l => (l, ws l)), ev, []⟩) :
    a.xlnDo i u g issuing ls = a.combine i u g ls ws ev := by
  unfold State.xlnDo State.combine
  dsimp only
  rw [hout]
  simp only [List.foldl_nil, List.foldl_map]
  rw [modGroup_id]

section Combine

variable {i : Instr} {w : Who} {c : Ctl} {g : Nat} {ls : List Nat} {ws : Nat → List (RName × Word)} {ev : List Nat}

/-- A group's share leaves the other groups standing. -/
theorem State.combine_standing (hc : i.ctl = some c) (hls : ls ≠ []) (a : State) {k : Nat} (hk : k ≠ g) :
    ((a.combine i w g ls ws ev).group w.team k).map Group.standing = (a.group w.team k).map Group.standing := by
  unfold State.combine
  rw [openOps_single hc a g ls hls]
  dsimp only
  rw [logEvents_standing, State.foldl_keeps (fun b : State => (b.group w.team k).map Group.standing) ls _
    (fun b l => (standing_releaseBlind w.team k).doneLane b w g l _ _)]
  unfold State.openOne
  rw [State.group_modGroup, if_neg (fun h => hk h.2.symm)]
  rfl

/-- A group's share logs its events to the group's own record, and holds and kills nothing. -/
theorem State.combine_logs (hc : i.ctl = some c) (a : State) :
    State.Logs w.team (fun k e => if g = k then ev.foldl (fun e n => EventRec.mark w.clause (a.coreNow w.team) n e) e else e) a (a.combine i w g ls ws ev) := by
  have hopen := State.logs_of_calm (State.openOps_spec a i w (ls.map (fun l => (g, l))) c hc).2.calm w.team
  unfold State.combine
  generalize a.openOps i w (ls.map (fun l => (g, l))) = q at hopen ⊢
  dsimp only
  have hdone : State.Same q.2 (ls.foldl (fun (x : State) l => x.doneLane w g l (opOf q.1 g) (ws l)) q.2) := by
    refine State.Same.foldl ls _ (fun x l => ?_) q.2
    unfold State.doneLane
    split
    · exact .release _ _ _ _ _ _
    · exact .opLane _ _ _ _
  have hboth := hopen.trans (hdone.logs w.team)
  generalize ls.foldl (fun (x : State) l => x.doneLane w g l (opOf q.1 g) (ws l)) q.2 = r at hboth ⊢
  have hlog := State.logEvents_marks r w.team g w.clause ev
  refine hboth.trans ⟨hlog.bundles, hlog.kills, hlog.now _, fun k => ?_⟩
  rw [hlog.events, hboth.now]
  by_cases hk : g = k <;> simp [hk]

end Combine

/-! ### All groups of a bundle, one after another -/

section Groups

variable {i : Instr} {s : State} {w : Who} {c : Ctl} {t : Team} {ms : MSrc} {ws : Nat → Nat → List (RName × Word)} {ev : Nat → List Nat}

/-- What a set's operands give it, group by group, when its lanes have the words and its group the events that are told. -/
def Combines (i : Instr) (s : State) (w : Who) (c : Ctl) (ws : Nat → Nat → List (RName × Word)) (ev : Nat → List Nat) : Prop :=
  ∀ g ∈ groupsOf (s.performers w c), ∀ x : XlnIn, x.Reads i s w c g →
    xlnOut i x (((s.group w.team g).map (·.remap)).getD []) (s.lanesFor w c g) = ⟨(s.lanesFor w c g).map (fun l => (l, ws g l)), ev g, []⟩

/-- The groups' shares, one after another. -/
def State.combineAll (r : State) (i : Instr) (u : Who) (lanes : Nat → List Nat) (ws : Nat → Nat → List (RName × Word)) (ev : Nat → List Nat)
    (gs : List Nat) : State :=
  gs.foldl (fun (r : State) g => r.combine i u g (lanes g) (ws g) (ev g)) r

theorem lanesFor_ne_nil (hw : s.who = some w) {g : Nat} (hg : g ∈ groupsOf (s.performers w c)) : s.lanesFor w c g ≠ [] := by
  obtain ⟨l, hl⟩ := mem_groupsOf.1 hg
  exact List.ne_nil_of_mem ((mem_lanesFor hw).2 hl)

/-- A group that stands as at issue comes to its share: what its operands give it is what they gave then. -/
theorem xlnGroup_combine (H : Starts s i w c t) (hm : s.together w c ms) (hout : Combines i s w c ws ev) {g : Nat} (hg : g ∈ groupsOf (s.performers w c))
    {a : State} (ha : (a.group w.team g).map Group.standing = (s.group w.team g).map Group.standing) :
    xlnGroup i ms (w.by (s.performers w c)) a g = a.combine i (w.by (s.performers w c)) g (s.lanesFor w c g) (ws g) (ev g) := by
  have hremap : (a.group w.team g).map (·.remap) = (s.group w.team g).map (·.remap) := by
    simpa only [Option.map_map, Function.comp_def, Group.standing] using congrArg (Option.map (fun z => z.2.1)) ha
  rw [xlnGroup_together H hm hg ha]
  refine xlnDo_combine ?_
  show xlnOut i (a.xlnIn w.team g i w.pos (lanesIn (s.performers w c) g) (s.lanesFor w c g)) _ _ = _
  rw [State.xlnIn_congr (State.fibre_file_of_standing ha), show (w.by (s.performers w c)).team = w.team from rfl, hremap]
  exact hout g hg _ (fun l hl => xlnIn_facts H.who rfl hl)

/-- What a group logs reaches no other group of the set: each performs its part as it stood at issue. -/
theorem foldl_xlnGroup (H : Starts s i w c t) (hm : s.together w c ms) (hout : Combines i s w c ws ev) (gs : List Nat) (hd : gs.Nodup)
    (hgs : ∀ g ∈ gs, g ∈ groupsOf (s.performers w c)) (a : State)
    (ha : ∀ g ∈ gs, (a.group w.team g).map Group.standing = (s.group w.team g).map Group.standing) :
    gs.foldl (xlnGroup i ms (w.by (s.performers w c))) a = a.combineAll i (w.by (s.performers w c)) (s.lanesFor w c) ws ev gs := by
  induction gs generalizing a with
  | nil => rfl
  | cons g gs ih =>
    obtain ⟨hg, hd⟩ := List.nodup_cons.1 hd
    unfold State.combineAll at ih ⊢
    rw [List.foldl_cons, List.foldl_cons, xlnGroup_combine H hm hout (hgs g (by simp)) (ha g (by simp))]
    refine ih hd (fun k hk => hgs k (by simp [hk])) _ (fun k hk => ?_)
    refine (State.combine_standing (w := w.by (s.performers w c)) H.ctl (lanesFor_ne_nil H.who (hgs g (by simp))) a ?_).trans (ha k (by simp [hk]))
    rintro rfl
    exact hg hk

/-- Each group's events join its own record. -/
theorem combineAll_logs (hc : i.ctl = some c) (lanes : Nat → List Nat) (gs : List Nat) (hd : gs.Nodup) (a : State) :
    State.Logs w.team (fun k e => if k ∈ gs then (ev k).foldl (fun e n => EventRec.mark w.clause (a.coreNow w.team) n e) e else e) a
      (a.combineAll i w lanes ws ev gs) := by
  induction gs generalizing a with
  | nil => exact ⟨rfl, rfl, rfl, fun k => by simp [State.combineAll]⟩
  | cons g gs ih =>
    obtain ⟨hg, hd⟩ := List.nodup_cons.1 hd
    have hone := State.combine_logs (w := w) (g := g) (ls := lanes g) (ws := ws g) (ev := ev g) hc a
    have hrest := ih hd (a.combine i w g (lanes g) (ws g) (ev g))
    rw [hone.now] at hrest
    have hall := hone.trans hrest
    refine ⟨hall.bundles, hall.kills, hall.now, fun k => (hall.events k).trans ?_⟩
    by_cases hk : g = k
    · subst hk; simp [hg]
    · simp [hk, Ne.symm hk]

/-- A cross-lane instruction whose set stands together, and whose words and events are known. -/
theorem xln_combines (H : Starts s i w c t) (hm : s.together w c ms) (he : exec i s = native i s (xlnBody i ms)) (hout : Combines i s w c ws ev) :
    Gives i s w (s.combineAll i (w.by (s.performers w c)) (s.lanesFor w c) ws ev (groupsOf (s.performers w c))) :=
  gives_of_body H.toIssues he (foldl_xlnGroup H hm hout _ (groupsOf_nodup _) (fun _ h => h) s (fun _ _ => rfl)) (fun h0 => by rw [h0]; rfl)

/-- The part once the bundle's fibres have counted an instruction that neither holds the bundle nor kills. -/
theorem State.finish_quiet {r : State} (H : Issues s i w c t) (hb : r.bundles = s.bundles) (hk : r.kills = s.kills) : s.finish w r = r.countClocks w := by
  have hheld : r.isHeld w = false := by simpa only [State.isHeld, hb] using H.unheld
  unfold State.finish
  rw [if_neg (by simp [hheld]), State.endNative_quiet (by simp [hk, H.quiet])]

/-- What such an instruction leaves of the open records of the team's groups. -/
theorem xln_marks (H : Starts s i w c t) (hm : s.together w c ms) (he : exec i s = native i s (xlnBody i ms)) (hout : Combines i s w c ws ev) :
    ∃ s', exec i s = .next s' ∧ ∀ k, (s'.group w.team k).map (·.event) = (s.group w.team k).map (fun y =>
      if k ∈ groupsOf (s.performers w c) then (ev k).foldl (fun e n => EventRec.mark w.clause (s.coreNow w.team) n e) y.event else y.event) := by
  have hlogs := combineAll_logs (w := w.by (s.performers w c)) (ws := ws) (ev := ev) H.ctl (s.lanesFor w c) _ (groupsOf_nodup (s.performers w c)) s
  refine ⟨_, xln_combines H hm he hout, fun k => ?_⟩
  rw [State.finish_quiet H.toIssues hlogs.bundles hlogs.kills, (State.Same.countClocks _ w).events]
  exact hlogs.events k

end Groups

/-! ### Reductions and scans (R169) -/

section Reduce

variable {s : State} {w : Who} {t : Team} {c : Ctl} {op : XOp} {uns excl : Bool} {ms : MSrc} {d a : Reg} {g : Nat} {x : XlnIn}

/-- The values of a group's set whose lanes are told, lanes ascending. -/
def setValues (s : State) (w : Who) (c : Ctl) (a : Reg) (g : Nat) (upTo : Nat → Bool) : List Word :=
  ((s.lanesFor w c g).filter upTo).map (fun l => (s.fibre w.team g l).get w.pos a)

/-- The events of a group's steps, invalid before overflow. -/
def stepEvents (s : State) (w : Who) (c : Ctl) (op : XOp) (uns : Bool) (a : Reg) (g : Nat) : List Nat :=
  let steps := (reduceTo op uns (setValues s w c a g (fun _ => true))).2
  steps.filter (· == 1) ++ steps.filter (· == 3)

/-- What a lane of a scan receives. -/
def scanned (s : State) (w : Who) (c : Ctl) (op : XOp) (uns excl : Bool) (a : Reg) (g l : Nat) : Word :=
  if excl = false then (reduceTo op uns (setValues s w c a g (fun k => decide (k ≤ l)))).1
  else if (s.lanesFor w c g).all (fun k => decide (l ≤ k)) then reduceStart op uns
  else (reduceTo op uns (setValues s w c a g (fun k => decide (k < l)))).1

theorem setValues_all : setValues s w c a g (fun _ => true) = (s.lanesFor w c g).map (fun l => (s.fibre w.team g l).get w.pos a) := by
  simp [setValues]

theorem lanesFor_sorted : (s.lanesFor w c g).Pairwise (· < ·) := List.pairwise_lt_range.filter _

/-- The values up to a lane, and those before it, are the first ones of the set. -/
theorem setValues_take {k : Nat} (hk : k < (s.lanesFor w c g).length) :
    setValues s w c a g (fun l => decide (l ≤ (s.lanesFor w c g)[k])) = (setValues s w c a g (fun _ => true)).take (k + 1) ∧
    setValues s w c a g (fun l => decide (l < (s.lanesFor w c g)[k])) = (setValues s w c a g (fun _ => true)).take k := by
  obtain ⟨hle, hlt⟩ := sorted_take _ lanesFor_sorted k hk
  rw [setValues_all]
  unfold setValues
  rw [hle, hlt, List.map_take, List.map_take]
  exact ⟨rfl, rfl⟩

/-- A set's first lane is the least. -/
theorem lanesFor_least {k : Nat} (hk : k < (s.lanesFor w c g).length) :
    (s.lanesFor w c g).all (fun l => decide ((s.lanesFor w c g)[k] ≤ l)) = decide (k = 0) := by
  rw [← head_least s w c g _ (List.getElem_mem hk), List.head?_eq_getElem?, decide_eq_decide, ← List.getElem?_eq_getElem hk]
  exact (List.getElem?_inj hk (lanesFor_sorted.imp Nat.ne_of_lt)).trans Iff.rfl

theorem xrun_last (vs : List Word) : (xrun op uns vs).1.getLastD 0 = (reduceTo op uns vs).1 := by
  rw [xrun_eq]
  cases vs with
  | nil => rfl
  | cons v vs => simp [List.range_succ]

theorem xidentity_eq (op : XOp) (uns : Bool) : xidentity op uns = reduceStart op uns := by cases op <;> rfl

theorem reads_values {i : Instr} (hx : x.Reads i s w c g) (ha : RName.v a ∈ i.reads) :
    (s.lanesFor w c g).map (fun l => x.reg l a) = setValues s w c a g (fun _ => true) := by
  rw [setValues_all]
  exact List.map_congr_left fun l hl => (hx l hl).1 a ha

theorem xred_combines : Combines (.xred c op uns ms d a) s w c (fun g _ => [(.v d, (reduceTo op uns (setValues s w c a g (fun _ => true))).1)])
    (stepEvents s w c op uns a) := by
  intro g _ x hx
  have hrun := reads_values (a := a) hx (List.mem_append_left _ (List.mem_singleton.2 rfl))
  show xredSet op uns d a x (s.lanesFor w c g) = _
  unfold xredSet
  rw [hrun]
  dsimp only
  rw [xrun_last, xrun_eq]
  rfl

theorem xscan_combines : Combines (.xscan c op uns excl ms d a) s w c (fun g l => [(.v d, scanned s w c op uns excl a g l)]) (stepEvents s w c op uns a) := by
  intro g _ x hx
  have hrun := reads_values (a := a) hx (List.mem_append_left _ (List.mem_singleton.2 rfl))
  have hlen : (setValues s w c a g (fun _ => true)).length = (s.lanesFor w c g).length := by rw [setValues_all, List.length_map]
  show xscanSet op uns excl d a x (s.lanesFor w c g) = _
  unfold xscanSet
  rw [hrun]
  dsimp only
  rw [xrun_eq, xidentity_eq]
  refine congrArg (fun ws => XlnOut.mk ws (stepEvents s w c op uns a g) []) (List.ext_getElem ?_ fun k hk hk' => ?_)
  · cases excl <;> simp [hlen]
  · have hk : k < (s.lanesFor w c g).length := by simpa using hk'
    obtain ⟨hle, hlt⟩ := setValues_take (a := a) hk
    simp only [List.getElem_zipWith, List.getElem_map, scanned, lanesFor_least hk, hle, hlt]
    cases excl with
    | false => simp
    | true => cases k <;> simp

end Reduce

/-- Settles O16, for sets that stand together in every group: a group's events may close its record, and what that writes and releases leaves the other
groups of the set as they stood. That invalid comes before overflow is the model's choice. -/
theorem reductions : Obligations.Reductions := by
  intro s w t c op uns excl ms d a u lanes values steps ordered combines
  have hquiet : ∀ g, steps g = [] → stepEvents s w c op uns a g = [] := fun g h => by
    show (steps g).filter _ ++ (steps g).filter _ = []
    rw [h]; rfl
  refine ⟨fun H hm => ⟨fun hs => ?_, xln_combines H hm rfl xred_combines, xln_marks H hm rfl xred_combines⟩,
    fun H hm => ⟨fun hs => ?_, xln_combines H hm rfl xscan_combines, xln_marks H hm rfl xscan_combines⟩⟩
  · exact xln_completes_plain H hm rfl (fun y => [(.v d, (reduceTo op uns (setValues s w c a y.1 (fun _ => true))).1)])
      (fun g hg x hx => (xred_combines g hg x hx).trans (by rw [hquiet g (hs g hg)]))
  · exact xln_completes_plain H hm rfl (fun y => [(.v d, scanned s w c op uns excl a y.1 y.2)])
      (fun g hg x hx => (xscan_combines g hg x hx).trans (by rw [hquiet g (hs g hg)]))

end Sys2Proof.Machine
end

section
/-!
PROOFS. The matrix engine (O33 to O36): an instruction that its team may use, one that finds the engine taken or its queue full, the team's engine state, and
streams.
-/

namespace Sys2Proof.Machine

/-! ### The leader (R193) -/

theorem foldl_isSome {α : Type} {f : Option α → α → Option α} (hf : ∀ y x, (f (some y) x).isSome = true) (ls : List α) (y : α) :
    (ls.foldl f (some y)).isSome = true := by
  induction ls generalizing y with
  | nil => rfl
  | cons x ls ih =>
    obtain ⟨z, hz⟩ := Option.isSome_iff_exists.1 (hf y x)
    rw [List.foldl_cons, hz]
    exact ih z

/-- Fibres have a leader exactly where there are any. -/
theorem Who.leader_isSome (w : Who) : w.leader.isSome = true ↔ w.perf ≠ [] := by
  unfold Who.leader
  cases w.perf with
  | nil => simp
  | cons x ls =>
    simp only [ne_eq, reduceCtorEq, not_false_eq_true, iff_true]
    exact foldl_isSome (fun y z => by dsimp only; split <;> rfl) ls x

theorem performers_of_leader {s : State} {w : Who} {c : Ctl} {lead : Nat × Nat} (h : (w.by (s.performers w c)).leader = some lead) : s.performers w c ≠ [] :=
  (Who.leader_isSome _).1 (by rw [h]; rfl)

theorem team_by {s : State} {i : Instr} {w : Who} {c : Ctl} {t : Team} (H : Starts s i w c t) {p : List (Nat × Nat)} : s.team (w.by p).team = some t := H.team

/-! ### Whom the engine takes (R202, R203) -/

/-- The team holds the engine, or nobody does and it is reserved for nobody. -/
def Engine.Takes (e : Engine) (tid : Nat) : Prop := e.holder = some (.team tid) ∨ (e.holder = none ∧ e.reserved = none)

/-- Another holds the engine, or nobody does and it is reserved. -/
def Engine.Refuses (e : Engine) (tid : Nat) : Prop := (∃ h, e.holder = some h ∧ h ≠ .team tid) ∨ (e.holder = none ∧ e.reserved ≠ none)

theorem Engine.closedTo_eq_false {e : Engine} {tid : Nat} : e.closedTo tid = false ↔ e.Takes tid := by
  unfold Engine.closedTo Engine.Takes
  cases e.holder <;> simp

theorem Engine.closedTo_eq_true {e : Engine} {tid : Nat} : e.closedTo tid = true ↔ e.Refuses tid := by
  unfold Engine.closedTo Engine.Refuses
  cases e.holder <;> simp [Option.ne_none_iff_isSome]

section Body

variable {s : State} {w : Who} {t : Team} {lead : Nat × Nat} {go : Team → Nat × Nat → Fibre → Who → State → State}

/-- A team that may use the engine does the instruction's own part, by its leader. -/
theorem engineBody_open (ht : s.team w.team = some t) (hl : w.leader = some lead) (ho : (s.core t.key).eng.Takes w.team) :
    engineBody go w s = go t lead (s.fibre w.team lead.1 lead.2) w s := by
  unfold engineBody
  rw [ht, hl]
  dsimp only
  rw [Engine.closedTo_eq_false.2 ho, if_neg Bool.false_ne_true]

/-- One that may not is blocked before the instruction. -/
theorem engineBody_closed (ht : s.team w.team = some t) (hl : w.leader = some lead) (hx : (s.core t.key).eng.Refuses w.team) :
    engineBody go w s = s.blockAll w := by
  unfold engineBody
  rw [ht, hl]
  dsimp only
  rw [Engine.closedTo_eq_true.2 hx, if_pos rfl]

end Body

/-- An instruction that the engine queues: with no room in the queue it is held. -/
def queueBody (act : Team → Nat × Nat → Fibre → Who → State → State) (t : Team) (l : Nat × Nat) (f : Fibre) (w : Who) (s : State) : State :=
  if s.queueFull t then s.hold w else act t l f w s

/-- The part once an operation of a team is queued: its ticket is issued, the team holds the engine, and the bank has its mode (R203, R220 to R223). -/
def State.ticketed (s : State) (w : Who) (t : Team) (kind : MatKind) (bank mode : Bool) : State :=
  (s.modEng t.key (fun e => Engine.setMode { e with holder := some (.team w.team), queue := e.queue ++ [⟨t.issued + 1, kind, none⟩] } bank mode)).modTeam
    w.team (fun x => { x with issued := t.issued + 1 })

theorem State.queueMat_eq (s : State) (i : Instr) (w : Who) (t : Team) (d : Reg) (kind : MatKind) (bank mode : Bool) :
    s.queueMat i w t d kind bank mode = (s.ticketed w t kind bank mode).giveAll i w (wr64 d (t.issued + 1)) := rfl

theorem State.Near.ticketed (s : State) (w : Who) (t : Team) (kind : MatKind) (bank mode : Bool) : State.Near s (s.ticketed w t kind bank mode) :=
  (State.Near.modCore s t.key _).trans (.modTeam _ w.team _ (fun _ => rfl) (fun _ => rfl))

section Engine

variable {i : Instr} {s : State} {w : Who} {c : Ctl} {t : Team} {lead : Nat × Nat} {go act : Team → Nat × Nat → Fibre → Who → State → State}

/-- An instruction of the engine that its team may use, and that gives its fibres the same results. -/
theorem completes_engine (H : Starts s i w c t) (he : exec i s = native i s (syncBody i .bundle (engineBody go)))
    (hl : (w.by (s.performers w c)).leader = some lead) (ho : (s.core t.key).eng.Takes w.team) {base : State} (B : State.Near s base) {ws : List (RName × Word)}
    (hgo : go t lead (s.fibre w.team lead.1 lead.2) (w.by (s.performers w c)) s = base.giveAll i (w.by (s.performers w c)) ws) :
    Completes i s w c base (fun _ => some ws) := by
  refine completes_give H he B ws (performers_of_leader hl) ?_
  rw [syncBody_plain H, engineBody_open (team_by H) hl ho]
  exact hgo

/-- An instruction of the engine that its team may not use yet. -/
theorem engine_blocks (H : Starts s i w c t) (he : exec i s = native i s (syncBody i .bundle (engineBody go))) (h0 : s.performers w c ≠ [])
    (hx : (s.core t.key).eng.Refuses w.team) : Gives i s w (s.blockAll (w.by (s.performers w c))) := by
  obtain ⟨lead, hl⟩ := Option.isSome_iff_exists.1 ((Who.leader_isSome (w.by (s.performers w c))).2 h0)
  have hbody := gives_body H.toIssues he h0
  rwa [syncBody_plain H, engineBody_closed (team_by H) hl hx] at hbody

/-- The leader issues an instruction that its team may use, and the queue has room for it. -/
structure Queues (s : State) (i : Instr) (w : Who) (c : Ctl) (t : Team) (lead : Nat × Nat) : Prop where
  starts : Starts s i w c t
  leads  : (w.by (s.performers w c)).leader = some lead
  mine   : (s.core t.key).eng.Takes w.team
  room   : (s.core t.key).eng.queue.length < 16

/-- Such an instruction is queued, on what its descriptor's checks leave of the part. -/
theorem completes_queue (Q : Queues s i w c t lead) (he : exec i s = native i s (syncBody i .bundle (engineBody (queueBody act)))) {r : State}
    (N : State.Near s r) {d : Reg} {kind : MatKind} {bank mode : Bool}
    (hact : act t lead (s.fibre w.team lead.1 lead.2) (w.by (s.performers w c)) s = r.queueMat i (w.by (s.performers w c)) t d kind bank mode) :
    Completes i s w c (r.ticketed w t kind bank mode) (fun _ => some (wr64 d (t.issued + 1))) := by
  refine completes_engine Q.starts he Q.leads Q.mine (N.trans (.ticketed r w t kind bank mode)) ?_
  have hfull : s.queueFull t = false := by simpa [State.queueFull] using Q.room
  unfold queueBody
  rw [hfull, if_neg Bool.false_ne_true, hact, State.queueMat_eq]
  rfl

/-- An instruction that its fibres cannot do yet: the bundle is held before it, and counts nothing. -/
theorem exec_holds (H : Issues s i w c t) {body : Who → State → State} (he : exec i s = native i s body) (h0 : s.performers w c ≠ [])
    (hb : body (w.by (s.performers w c)) s = s.hold w) : exec i s = .next (s.hold w) := by
  have hgives := gives_body H he h0
  unfold Gives State.finish at hgives
  rwa [hb, if_pos (State.hold_isHeld H.who), State.endNative_quiet (show (s.hold w).kills = [] from H.quiet)] at hgives

/-- An instruction that its team may use and for which the queue has no room is held (R203). -/
theorem queue_holds (H : Starts s i w c t) (he : exec i s = native i s (syncBody i .bundle (engineBody (queueBody act)))) (h0 : s.performers w c ≠ [])
    (ho : (s.core t.key).eng.Takes w.team) (hfull : 16 ≤ (s.core t.key).eng.queue.length) : exec i s = .next (s.hold w) := by
  obtain ⟨lead, hl⟩ := Option.isSome_iff_exists.1 ((Who.leader_isSome (w.by (s.performers w c))).2 h0)
  refine exec_holds H.toIssues he h0 ?_
  rw [syncBody_plain H, engineBody_open (team_by H) hl ho]
  exact if_pos (by simpa [State.queueFull] using hfull)

end Engine

/-! ### The instructions that the engine queues (R220 to R223) -/

section Queue

variable {s : State} {w : Who} {t : Team} {c : Ctl} {int bank : Bool} {d a b : Reg} {imm : BitVec 16} {lead : Nat × Nat}

theorem mxldZero_completes (Q : Queues s (.mxldZero c int bank d) w c t lead) :
    Completes (.mxldZero c int bank d) s w c (s.ticketed w t (.zero int bank) bank int) (fun _ => some (wr64 d (t.issued + 1))) :=
  completes_queue Q rfl (.refl s) rfl

theorem mxldFill_completes (Q : Queues s (.mxldFill c int bank d b) w c t lead) :
    Completes (.mxldFill c int bank d b) s w c (s.ticketed w t (.fill int bank ((s.fibre w.team lead.1 lead.2).get w.pos b)) bank int)
      (fun _ => some (wr64 d (t.issued + 1))) :=
  completes_queue Q rfl (.refl s) rfl

theorem mxldRestore_completes (Q : Queues s (.mxldRestore c int bank d a imm) w c t lead) {off : Nat}
    (hoff : off = ((s.fibre w.team lead.1 lead.2).get w.pos a).toNat + 128 * imm.toNat) (hal : off % 128 = 0) (hin : t.vaultOk off 122880 = true) :
    Completes (.mxldRestore c int bank d a imm) s w c ((s.spent w c).ticketed w t (.restore int bank off) bank int) (fun _ => some (wr64 d (t.issued + 1))) := by
  subst hoff
  refine completes_queue Q rfl (.spent s w c) ?_
  dsimp only [Who.by_pos]
  rw [leaderGate_ok s w c _ () (by rw [hal, hin]; rfl)]

theorem mxm_completes (Q : Queues s (.mxm c d a imm) w c t lead) {x : MxmDesc}
    (hx : s.mxmOf t (((s.fibre w.team lead.1 lead.2).get w.pos a).toNat + 64 * imm.toNat) = .ok x) :
    Completes (.mxm c d a imm) s w c ((s.spent w c).ticketed w t (.mxm x (t.ssh.getD x.sshi 0)) x.bank ((x.cls).getD false))
      (fun _ => some (wr64 d (t.issued + 1))) := by
  refine completes_queue Q rfl (.spent s w c) ?_
  dsimp only [Who.by_pos]
  rw [leaderGate_ok s w c _ x hx]

theorem mxst_completes (Q : Queues s (.mxst c bank d a imm) w c t lead) {y : MxstDesc}
    (hy : s.mxstOf t lead.1 bank (((s.fibre w.team lead.1 lead.2).get w.pos a).toNat + 32 * imm.toNat) = .ok y) :
    Completes (.mxst c bank d a imm) s w c (((s.spent w c).keepRec t y.brec).ticketed w t (.store bank y) bank ((s.core t.key).eng.mode bank))
      (fun _ => some (wr64 d (t.issued + 1))) := by
  refine completes_queue Q rfl ((State.Near.spent s w c).trans (.keepRec _ _ _)) ?_
  dsimp only [Who.by_pos]
  rw [leaderGate_ok s w c _ y hy]

end Queue

/-- Settles O33: what a team may use is queued; MXLD.RESTORE, MXM and MXST once their descriptors have passed. -/
theorem matrixQueue : Obligations.MatrixQueue := by
  intro s w t c int bank d a b imm lead x y u f e queues
  exact ⟨fun H hl ho hq => mxldZero_completes ⟨H, hl, ho, hq⟩, fun H hl ho hq => mxldFill_completes ⟨H, hl, ho, hq⟩,
    fun hal hin H hl ho hq => mxldRestore_completes ⟨H, hl, ho, hq⟩ rfl hal hin, fun hx H hl ho hq => mxm_completes ⟨H, hl, ho, hq⟩ hx,
    fun hy H hl ho hq => mxst_completes ⟨H, hl, ho, hq⟩ hy⟩

/-! ### An engine that is taken or full -/

/-- Each instruction that the engine queues asks first whether its team may use the engine, and then for room in the queue. -/
theorem exec_queues {c : Ctl} {int bank : Bool} {d a b : Reg} {imm : BitVec 16} {i : Instr}
    (hi : i ∈ [Instr.mxldZero c int bank d, .mxldFill c int bank d b, .mxldRestore c int bank d a imm, .mxm c d a imm, .mxst c bank d a imm]) (s : State) :
    ∃ act, exec i s = native i s (syncBody i .bundle (engineBody (queueBody act))) := by
  simp only [List.mem_cons, List.not_mem_nil, or_false] at hi
  obtain rfl | rfl | rfl | rfl | rfl := hi <;> exact ⟨_, rfl⟩

/-- Settles O36, by what every instruction of the engine asks first. That a full queue holds the bundle is log 41. -/
theorem engineBusy : Obligations.EngineBusy := by
  intro s w t c int bank n d a b imm u e engineInstrs i H h0
  refine ⟨fun hi hx => ?_, fun hi ho hfull => ?_⟩
  · obtain hi | rfl | rfl := hi
    · obtain ⟨act, he⟩ := exec_queues hi s
      exact engine_blocks H he h0 hx
    · exact engine_blocks H rfl h0 hx
    · exact engine_blocks H rfl h0 hx
  · obtain ⟨act, he⟩ := exec_queues hi s
    exact queue_holds H he h0 ho hfull

/-! ### The team's engine state (R225, R226) -/

section MatrixState

variable {s : State} {w : Who} {t : Team} {c : Ctl} {sel : BitVec 4} {n : BitVec 3} {d a : Reg} {lead : Nat × Nat}

theorem Team.mstat_eq (t : Team) (sel : Nat) : t.mstat sel = engineValue t sel :=
  match sel with
  | 0 | 1 | 2 | 3 | 4 | 5 | 6 | 7 | 8 | _ + 9 => rfl

/-- MSTAT.CLR takes a selector of a count, or of MFLT. -/
theorem mstat_clear_selects (H : Starts s (.mstat c true sel d) w c t) : sel.toNat ≤ 3 ∨ sel.toNat = 8 := by
  have hlegal := H.legal
  simp only [State.illegal, Bool.or_eq_false_iff, Bool.not_eq_false', Instr.wellFormed] at hlegal
  obtain ⟨⟨⟨hwf, -⟩, -⟩, -⟩ := hlegal
  simp only [Bool.and_eq_true, decide_eq_true_eq, Bool.not_true, Bool.false_or, Bool.or_eq_true, beq_iff_eq] at hwf
  exact hwf.2.imp id (fun h => by rw [h]; rfl)

/-- What MSTAT.CLR clears reads 0. -/
theorem Team.mstat_mclear {t : Team} {sel : Nat} (h : sel ≤ 3 ∨ sel = 8) : (t.mclear sel).mstat sel = 0 := by
  obtain h | rfl := h
  · have hcount : (t.swamp.set sel 0).getD sel 0 = 0 := by
      rw [List.getD_eq_getElem?_getD, List.getElem?_set_self']
      cases t.swamp[sel]? <;> rfl
    have hread : (t.mclear sel).mstat sel = BitVec.ofNat 32 ((t.swamp.set sel 0).getD sel 0) := by interval_cases sel <;> rfl
    rw [hread, hcount]; rfl
  · rfl

theorem State.Near.mclear (s : State) (k sel : Nat) : State.Near s (s.modTeam k (fun x => x.mclear sel)) :=
  .modTeam s k _ (fun x => by unfold Team.mclear; split <;> rfl) (fun x => by unfold Team.mclear; split <;> rfl)

theorem State.Near.setShape (s : State) (k n : Nat) (v : DWord) : State.Near s (s.modTeam k (fun x => { x with ssh := x.ssh.set n v })) :=
  .modTeam s k _ (fun _ => rfl) (fun _ => rfl)

theorem mstat_completes (H : Starts s (.mstat c false sel d) w c t) (h0 : s.performers w c ≠ []) :
    Completes (.mstat c false sel d) s w c s (fun _ => some [(.v d, engineValue t sel.toNat)]) := by
  refine completes_base H rfl (.refl s) (fun _ => [(.v d, engineValue t sel.toNat)]) (fun h => absurd h h0) (fun _ => ?_)
  rw [syncBody_plain H, ← Team.mstat_eq]
  unfold doMstat
  rw [team_by H]
  simp only [Bool.false_eq_true, if_false, Bool.false_and, openFor_plain H.who]
  rfl

theorem mstat_clear_completes (H : Starts s (.mstat c true sel d) w c t) (hl : (w.by (s.performers w c)).leader = some lead) :
    Completes (.mstat c true sel d) s w c (s.modTeam w.team (fun x => x.mclear sel.toNat))
      (fun x => some [(.v d, if x = lead then engineValue t sel.toNat else 0)]) := by
  refine completes_base H rfl (.mclear s w.team sel.toNat) (fun x => [(.v d, if x = lead then engineValue t sel.toNat else 0)])
    (fun h => absurd h (performers_of_leader hl)) (fun _ => ?_)
  rw [syncBody_plain H, ← Team.mstat_eq, ← Team.mstat_mclear (t := t) (mstat_clear_selects H)]
  unfold doMstat
  rw [team_by H, hl]
  simp only [if_true, Bool.true_and, openFor_plain H.who, decide_eq_true_eq, ne_eq, Option.some.injEq, ite_not, @eq_comm _ lead]
  rfl

theorem sshape_completes (H : Starts s (.sshape c n a) w c t) (hl : (w.by (s.performers w c)).leader = some lead)
    (hgood : sumShapeBad ((s.fibre w.team lead.1 lead.2).get64 w.pos a).toNat = false) :
    Completes (.sshape c n a) s w c (s.modTeam w.team (fun x => { x with ssh := x.ssh.set n.toNat ((s.fibre w.team lead.1 lead.2).get64 w.pos a) }))
      (fun _ => some []) := by
  refine completes_base H (show execSshape c n a s = native _ s _ from rfl) (.setShape s w.team n.toNat _) (fun _ => [])
    (fun h => absurd h (performers_of_leader hl)) (fun _ => ?_)
  have hdx : t.dx = false := by simp [Team.dx, H.plain]
  rw [team_by H, hl]
  dsimp only [Who.by_pos, Who.by_team]
  rw [hgood, hdx]
  rfl

theorem sshapeRd_completes (H : Starts s (.sshapeRd c n d) w c t) (h0 : s.performers w c ≠ []) :
    Completes (.sshapeRd c n d) s w c s (fun _ => some (wr64 d (t.ssh.getD n.toNat 0))) := by
  refine completes_give H (show execSshapeRd c n d s = native _ s _ from rfl) (.refl s) _ h0 ?_
  rw [team_by H]

end MatrixState

/-- Settles O34, instruction by instruction: the selectors that MSTAT.CLR may name read 0 once cleared, however many counts the team has. That under
MSTAT.CLR the leader alone receives the value and every other fibre 0 is the model's choice of the order of lanes (log 37). -/
theorem matrixState : Obligations.MatrixState := by
  intro s w t c sel n d a lead u value shape
  exact ⟨mstat_completes, fun H hl _ => mstat_clear_completes H hl, sshape_completes, sshapeRd_completes⟩

/-! ### Streams (R216, R217, R227) -/

theorem Die.freeStream_none {x : Die} : x.freeStream = none ↔ ∀ m < 64, fget x.streams m ≠ none := by
  simp [Die.freeStream, Option.ne_none_iff_isSome]

theorem Die.freeStream_some {x : Die} {m : Nat} (hm : m < 64) (hfree : fget x.streams m = none) (hlow : ∀ j < m, fget x.streams j ≠ none) :
    x.freeStream = some m := by
  unfold Die.freeStream
  rw [List.find?_range_eq_some]
  exact ⟨by simp [hfree], List.mem_range.2 hm, fun j hj => by simpa [Option.isSome_iff_ne_none] using hlow j hj⟩

theorem State.Near.tidyStream (s : State) (die id : Nat) : State.Near s (s.tidyStream die id) := by
  unfold State.tidyStream
  split
  · split
    · exact .modDie _ _ _
    · exact .refl _
  · exact .refl _

section Streams

variable {s : State} {w : Who} {t : Team} {c : Ctl} {n : BitVec 3} {d a b : Reg} {lead : Nat × Nat} {x : Stream}

/-- The stream that the leader's descriptor gives is opened under the lowest ID that is free, where one is. -/
theorem strmOpen_completes (H : Starts s (.strmOpen c d a) w c t) (hl : (w.by (s.performers w c)).leader = some lead)
    (hx : s.strmOf t w.team lead.1 ((s.fibre w.team lead.1 lead.2).get w.pos a).toNat = .ok x) {free : Option Nat} (hfree : (s.die t.die).freeStream = free) :
    Completes (.strmOpen c d a) s w c
      (free.elim (s.spent w c) (fun m => (s.spent w c).modDie t.die (fun y => { y with streams := fset y.streams m x })))
      (fun _ => some [(.v d, free.elim 0xFFFFFFFF (BitVec.ofNat 32))]) := by
  have hspent : ((s.spent w c).die t.die).freeStream = free := by
    unfold State.die at hfree ⊢
    rw [State.spent_dies, hfree]
  refine completes_give H rfl ?_ _ (performers_of_leader hl) ?_
  · cases free with
    | none => exact .spent s w c
    | some m => exact (State.Near.spent s w c).trans (.modDie _ t.die (fun y => { y with streams := fset y.streams m x }))
  · rw [syncBody_plain H]
    unfold doStrmOpen
    rw [team_by H, hl]
    dsimp only [Who.by_pos, Who.by_team]
    rw [leaderGate_ok s w c _ x hx]
    dsimp only
    rw [hspent]
    cases free <;> rfl

/-- A subscription takes the engine, and is refused where the stream is not open, the engine has 4, or it has this one. -/
theorem strmSub_completes (H : Starts s (.strmSub c n d a b) w c t) (hl : (w.by (s.performers w c)).leader = some lead)
    (ho : (s.core t.key).eng.Takes w.team) {id : Nat} (hid : ((s.fibre w.team lead.1 lead.2).get w.pos a).toNat = id) {v : Word}
    (hv : v = (if ¬ (s.streamOf t.die t.ctx id).isSome then 1 else if 4 ≤ (s.core t.key).eng.subs.length then 2
      else if (s.core t.key).eng.subs.any (fun y => decide (y.stream = id)) then 3 else 0)) :
    Completes (.strmSub c n d a b) s w c
      (if v = 0 then (s.modEng t.key (fun e => { e with holder := some (.team w.team) })).modEng t.key (fun e =>
          { e with subs := e.subs ++ [⟨id, ((s.fibre w.team lead.1 lead.2).get w.pos b).toNat, n.toNat, []⟩] })
        else s.modEng t.key (fun e => { e with holder := some (.team w.team) }))
      (fun _ => some [(.v d, v)]) := by
  subst hid
  refine completes_engine H rfl hl ho ?_ ?_
  · split
    · exact (State.Near.modCore s t.key _).trans (.modCore _ _ _)
    · exact .modCore s t.key _
  · dsimp only [Who.by_pos, Who.by_team]
    simp only [Bool.not_eq_true, Option.isSome_eq_false_iff] at hv
    by_cases hclosed : (s.streamOf t.die t.ctx ((s.fibre w.team lead.1 lead.2).get w.pos a).toNat).isNone = true
    · rw [if_pos hclosed] at hv ⊢
      subst hv; rfl
    rw [if_neg hclosed] at hv ⊢
    by_cases hmany : 4 ≤ (s.core t.key).eng.subs.length
    · rw [if_pos hmany] at hv ⊢
      subst hv; rfl
    rw [if_neg hmany] at hv ⊢
    by_cases hhas : (s.core t.key).eng.subs.any (fun y => decide (y.stream = ((s.fibre w.team lead.1 lead.2).get w.pos a).toNat)) = true
    · rw [if_pos hhas] at hv ⊢
      subst hv; rfl
    rw [if_neg hhas] at hv ⊢
    subst hv; rfl

/-- A subscription ends where the team holds the engine, and a stream that closes goes with its last one. -/
theorem strmUnsub_completes (H : Starts s (.strmUnsub c a) w c t) (hl : (w.by (s.performers w c)).leader = some lead)
    (ho : (s.core t.key).eng.Takes w.team) {id : Nat} (hid : ((s.fibre w.team lead.1 lead.2).get w.pos a).toNat = id) :
    Completes (.strmUnsub c a) s w c
      (if (s.core t.key).eng.holder = some (.team w.team) then
          (s.modEng t.key (fun e => { e with subs := e.subs.filter (fun u => decide (u.stream ≠ id)) })).tidyStream t.die id
        else s) (fun _ => some []) := by
  subst hid
  refine completes_engine H rfl hl ho ?_ rfl
  split
  · exact (State.Near.modCore s t.key _).trans (.tidyStream _ _ _)
  · exact .refl s

/-- A stream of the context is closed, and goes at once where nobody subscribes to it. -/
theorem strmClose_completes (H : Starts s (.strmClose c a) w c t) (hl : (w.by (s.performers w c)).leader = some lead) {id : Nat}
    (hid : ((s.fibre w.team lead.1 lead.2).get w.pos a).toNat = id) {o : Option Stream} (hopen : s.streamOf t.die t.ctx id = o) :
    Completes (.strmClose c a) s w c
      (o.elim s (fun x => (s.modDie t.die (fun y => { y with streams := fset y.streams id { x with closing := true } })).tidyStream t.die id))
      (fun _ => some []) := by
  refine completes_give H rfl ?_ _ (performers_of_leader hl) ?_
  · cases o with
    | none => exact .refl s
    | some x => exact (State.Near.modDie s t.die _).trans (.tidyStream _ _ _)
  · rw [syncBody_plain H]
    unfold doStrmClose
    rw [team_by H, hl]
    dsimp only [Who.by_pos, Who.by_team]
    rw [hid, hopen]
    cases o <;> rfl

end Streams

/-- Settles O35, instruction by instruction. Which status STRM.SUB gives first, where several hold, is the model's order of the codes that R227 lists. -/
theorem streams : Obligations.Streams := by
  intro s w t c n d a b lead x v u f id e mine engine isOpen
  refine ⟨fun H hl hx => ⟨fun hfull => ?_, fun m hm hfree hlow => ?_⟩, fun H hl ho hv => strmSub_completes H hl ho rfl hv,
    fun H hl ho => strmUnsub_completes H hl ho rfl,
    fun H hl => ⟨fun hnone => strmClose_completes H hl rfl hnone, fun hsome => strmClose_completes H hl rfl hsome⟩⟩
  · exact strmOpen_completes H hl hx (Die.freeStream_none.2 hfull)
  · exact strmOpen_completes H hl hx (Die.freeStream_some hm hfree hlow)

end Sys2Proof.Machine
end

section
/-!
PROOFS. Task queues (O41): TASKPOST, which appends a record to a queue's chain or gives the status that ends it, and TASKSEQ, which reads a completed sequence.
-/

namespace Sys2Proof.Machine

/-! ### All fibres of a bundle alike -/

/-- Fibres that all get the same results are answered so (R87). -/
theorem giveAll_eq_answered {s : State} {w : Who} {c : Ctl} (h : s.who = some w) (r : State) (i : Instr) (ws : List (RName × Word)) :
    r.giveAll i (w.by (s.performers w c)) ws = r.answered i (w.by (s.performers w c)) (s.performers w c) (fun _ => ws) := by
  unfold State.giveAll
  rw [Who.by_perf, openFor_plain h]
  rfl

/-- Where every performing fibre finds something, the gate passes them all, in the bundle's order. -/
theorem gate_found {α : Type} {s : State} {w : Who} {c : Ctl} (hw : s.who = some w) {res : Nat → Nat → Res α} {val : Nat × Nat → α}
    (h : ∀ x ∈ s.performers w c, res x.1 x.2 = .ok (val x)) :
    s.gate (w.by (s.performers w c)) res = (s.found w c val, s.spent w c) := by
  have hgate := gate_ok s (w.by (s.performers w c)) res val h
  have hspread : (groupsOf (s.performers w c)).flatMap (fun g => (lanesIn (s.performers w c) g).map (fun l => (g, l, val (g, l)))) = s.found w c val :=
    spread_performers hw c (fun x => (x.1, x.2, val x))
  rw [Who.by_perf, hspread] at hgate
  exact hgate

/-! ### TASKPOST (R244) -/

section Post

variable {s : State} {w : Who} {t : Team} {c : Ctl} {d a b : Reg} {imm : BitVec 16} {lead : Nat × Nat}

/-- TASKPOST in order is its leader's append, whatever that comes to. -/
theorem taskpost_gives (H : Starts s (.taskpost c d a b imm) w c t) (ho : s.inOrder w c) (hl : (w.by (s.performers w c)).leader = some lead) :
    Gives (.taskpost c d a b imm) s w (doTaskpost c d a b imm (w.by (s.performers w c)) s) := by
  have hbody := gives_body H.toIssues (show exec (.taskpost c d a b imm) s = native _ s _ from rfl) (performers_of_leader hl)
  rwa [afterOrder_ok ho, syncBody_plain H] at hbody

/-- A TASKPOST that a status ends is a release at DEVICE scope all the same, and gives no sequence. -/
theorem doTaskpost_status (H : Starts s (.taskpost c d a b imm) w c t) (hl : (w.by (s.performers w c)).leader = some lead) {st : Nat}
    (hpost : s.postOf t lead.1 (((s.fibre w.team lead.1 lead.2).get w.pos a).toNat + 128 * imm.toNat)
      ((s.fibre w.team lead.1 lead.2).get w.pos b).toNat = .ok (.status st)) :
    doTaskpost c d a b imm (w.by (s.performers w c)) s = ((s.spent w c).fence t.key .rel .device false).giveAll (.taskpost c d a b imm)
      (w.by (s.performers w c)) ([(.v d, BitVec.ofNat 32 st), (.v (d + 1), 0)] ++ wr64 (d + 2) 0) := by
  unfold doTaskpost
  rw [team_by H, hl]
  dsimp only [Who.by_pos, Who.by_team]
  rw [leaderGate_ok s w c _ _ hpost]

/-- One that no host's copy of the line holds back writes its record after that release, moves QTAIL behind it, and gives its sequence number. -/
theorem doTaskpost_write (H : Starts s (.taskpost c d a b imm) w c t) (hl : (w.by (s.performers w c)).leader = some lead) {q slot : Nat} {lf : Leaf}
    {bytes : List Byte} (hpost : s.postOf t lead.1 (((s.fibre w.team lead.1 lead.2).get w.pos a).toNat + 128 * imm.toNat)
      ((s.fibre w.team lead.1 lead.2).get w.pos b).toNat = .ok (.write q slot lf bytes))
    {freed r : State} (hfreed : freed = (s.spent w c).fence t.key .rel .device false) (hsnoop : freed.engineSnoops [lf.pa] true = none)
    (hr : r = freed.engineWrite (freed.queue q).qctx.toNat t.die lf.trk lf.pa bytes) :
    doTaskpost c d a b imm (w.by (s.performers w c)) s =
      (r.modQueue q (fun x => { x with qtail := BitVec.ofNat 64 (slot + 128), ahead := x.ahead + 1 })).giveAll (.taskpost c d a b imm)
        (w.by (s.performers w c)) ([(.v d, 0), (.v (d + 1), 0)] ++
          wr64 (d + 2) ((r.queue q).seq + BitVec.ofNat 64 (r.recsBefore q (r.queue q).walkFrom))) := by
  subst hr hfreed
  unfold doTaskpost
  rw [team_by H, hl]
  dsimp only [Who.by_pos, Who.by_team]
  rw [leaderGate_ok s w c _ _ hpost]
  dsimp only
  rw [hsnoop]
  rfl

end Post

/-! ### TASKSEQ (R245) -/

/-- A queue of the team's partition is found; of any other the fibre takes a trap. -/
theorem seqQueue_ok {s : State} {t : Team} {v : Word} {q : Nat} (hv : v.toNat = q) (hq : q < 256) (hpart : (s.queue q).part = t.part) :
    seqQueue s t v = .ok q := by
  subst hv
  unfold seqQueue
  exact if_neg (by simpa [hpart] using Nat.le_of_lt_succ hq)

/-- Each fibre gets the completed sequence of its queue, after its acquire. -/
theorem taskseq_completes {s : State} {w : Who} {t : Team} {c : Ctl} {d b : Reg} {queue : Nat × Nat → Nat} (H : Starts s (.taskseq c d b) w c t)
    (h0 : s.performers w c ≠ [])
    (hq : ∀ x ∈ s.performers w c, ((s.fibre w.team x.1 x.2).get w.pos b).toNat = queue x ∧ queue x < 256 ∧ (s.queue (queue x)).part = t.part) :
    Completes (.taskseq c d b) s w c ((s.performers w c).foldl (fun (r : State) _ => r.acquire t.key false) (s.spent w c))
      (fun x => some (wr64 d (s.queue (queue x)).comp)) := by
  have hnear : State.Near s ((s.performers w c).foldl (fun (r : State) _ => r.acquire t.key false) (s.spent w c)) :=
    (State.Near.spent s w c).trans (.foldl _ _ (fun r _ => .acquire r t.key false) _)
  refine completes_base H rfl hnear (fun x => wr64 d (s.queue (queue x)).comp) (fun h => absurd h h0) (fun _ => ?_)
  have hgate := gate_found (val := queue) H.who (res := fun g l => seqQueue s t ((s.fibre w.team g l).get w.pos b))
    (fun x hx => have ⟨hv, hlow, hpart⟩ := hq x hx; seqQueue_ok hv hlow hpart)
  rw [syncBody_plain H]
  unfold doTaskseq
  rw [team_by H]
  dsimp only [Who.by_pos, Who.by_team]
  rw [hgate]
  dsimp only
  rw [pairsOf_found, openFor_plain H.who]
  unfold State.found
  rw [List.foldl_map, List.foldl_map]

/-- Settles O41: what the leader's checks of TASKPOST come to decides its effect, and TASKSEQ finds each fibre's queue before it reads it. -/
theorem taskQueues : Obligations.TaskQueues := by
  intro s w t c d a b imm lead st q slot lf bytes queue u f i off n freed give
  refine ⟨fun H ho hl => ⟨fun hpost => ?_, fun hpost hsnoop => ?_⟩, taskseq_completes⟩
  · have hgives := taskpost_gives H ho hl
    rwa [doTaskpost_status H hl hpost, giveAll_eq_answered H.who] at hgives
  · have hgives := taskpost_gives H ho hl
    rwa [doTaskpost_write H hl hpost rfl hsnoop rfl, giveAll_eq_answered H.who] at hgives

end Sys2Proof.Machine
end

section
/-!
PROOFS. Collectives and grids (O42) and lock requests (O28): COLL and DXSYNC in order, the requests of LLOCK, LTRY and LUNLK, and LSTAT.
-/

namespace Sys2Proof.Machine

/-! ### COLL (R260, R345) -/

section Coll

variable {s : State} {w : Who} {t : Team} {c : Ctl} {d a : Reg} {imm : BitVec 16} {lead : Nat × Nat} {x : Coll}

theorem State.spent_die (s : State) (w : Who) (c : Ctl) (k : Nat) : (s.spent w c).die k = s.die k := by
  unfold State.die
  rw [State.spent_dies]

/-- The part once a collective has been handed to its die's engine: its records are kept, and the stores that its core holds stand at their homes. -/
def State.handed (s : State) (t : Team) (x : Coll) : State :=
  ((((s.keepRec t x.desc.srcbrec).keepRec t x.desc.dstbrec).keepRec t x.desc.cplbrec).pushAll t.key true).modDie t.die
    (fun y => { y with colls := y.colls ++ [x] })

theorem State.Near.handed (s : State) (t : Team) (x : Coll) : State.Near s (s.handed t x) :=
  ((((State.Near.keepRec s t x.desc.srcbrec).trans (.keepRec _ t x.desc.dstbrec)).trans (.keepRec _ t x.desc.cplbrec)).trans (.pushAll _ t.key true)).trans
    (.modDie _ t.die _)

/-- A collective that passes its checks is handed to an engine with room, and refused by a full one. -/
theorem doColl_ok (H : Starts s (.coll c d a imm) w c t) (hl : (w.by (s.performers w c)).leader = some lead)
    (hx : s.collOf t w.team lead.1 (((s.fibre w.team lead.1 lead.2).get w.pos a).toNat + 64 * imm.toNat) = .ok x) :
    doColl c d a imm (w.by (s.performers w c)) s =
      if 16 ≤ (s.die t.die).colls.length then (s.spent w c).giveAll (.coll c d a imm) (w.by (s.performers w c)) [(.v d, 1)]
      else ((s.spent w c).handed t x).giveAll (.coll c d a imm) (w.by (s.performers w c)) [(.v d, 0)] := by
  unfold doColl
  rw [team_by H, hl]
  dsimp only [Who.by_pos, Who.by_team]
  rw [leaderGate_ok s w c _ _ hx]
  dsimp only
  rw [State.spent_die]
  rfl

/-- COLL in order is its leader's collective: an instruction that answers all its fibres alike. -/
theorem coll_completes (H : Starts s (.coll c d a imm) w c t) (ho : s.inOrder w c) (hl : (w.by (s.performers w c)).leader = some lead) {base : State}
    (B : State.Near s base) {v : Word}
    (hdo : doColl c d a imm (w.by (s.performers w c)) s = base.giveAll (.coll c d a imm) (w.by (s.performers w c)) [(.v d, v)]) :
    Completes (.coll c d a imm) s w c base (fun _ => some [(.v d, v)]) := by
  refine completes_give H rfl B _ (performers_of_leader hl) ?_
  rw [afterOrder_ok ho, syncBody_plain H, hdo]

end Coll

/-! ### DXSYNC (R339) -/

/-- Outside a deterministic grid DXSYNC is a fence, and no commit is counted. -/
theorem dxsync_completes {s : State} {w : Who} {t : Team} {c : Ctl} {d : Reg} (H : Starts s (.dxsync c d) w c t) (ho : s.inOrder w c)
    (h0 : s.performers w c ≠ []) :
    Completes (.dxsync c d) s w c (s.fenceBy (w.by (s.performers w c)) t.key .ar .device false) (fun _ => some (wr64 d 0)) := by
  refine completes_give H rfl (.fenceBy s _ _ _ _ _) _ h0 ?_
  rw [afterOrder_ok ho, syncBody_plain H]
  unfold doDxsync
  rw [team_by H]
  simp only [H.plain, Option.isSome_none, Bool.false_eq_true, if_false]

/-- Settles O42: a COLL that passes its leader's checks is refused by a full engine and handed to any other; DXSYNC is a fence. -/
theorem collectivesAndGrids : Obligations.CollectivesAndGrids := by
  intro s w t c d a imm lead x u f i
  refine ⟨fun H ho hl hx => ⟨fun hfull => ?_, fun hroom => ?_⟩, dxsync_completes⟩
  · exact coll_completes H ho hl (.spent s w c) ((doColl_ok H hl hx).trans (if_pos hfull))
  · exact coll_completes H ho hl ((State.Near.spent s w c).trans (.handed _ t x)) ((doColl_ok H hl hx).trans (if_neg (by omega)))

/-! ### The lines that lock operands name (R293) -/

/-- The lines that a group's fibres name. -/
def linesNamed (found : List (Nat × Nat × Target)) (g : Nat) : List Nat :=
  ((found.filter (fun x => decide (x.1 = g))).map (fun x => x.2.2.lockLine.1)).eraseDups

/-- The groups whose fibres name several lines. -/
def splitGroups (found : List (Nat × Nat × Target)) : List Nat := (groupsOf (pairsOf found)).filter (fun g => decide (1 < (linesNamed found g).length))

/-- The fibres whose group names one line. -/
def oneLine (found : List (Nat × Nat × Target)) : List (Nat × Nat × Target) := found.filter (fun x => !(splitGroups found).contains x.1)

/-- The home lanes of a group among some fibres. -/
def lanesNaming (good : List (Nat × Nat × Target)) (g : Nat) : List Nat := (good.filter (fun x => decide (x.1 = g))).map (·.2.1)

/-- The line, with its page, that the first of a group's fibres names. -/
def lineNamed (good : List (Nat × Nat × Target)) (g : Nat) : Nat × LockPage := ((good.filter (fun x => decide (x.1 = g))).headD (0, 0, .vault 0 0)).2.2.lockLine

/-! ### Requests for locks (R250, R292, R304) -/

/-- Groups that name several lines trap, and the operations of the others open, after the fence that an SO page asks for. -/
def State.lockOpened (s : State) (i : Instr) (u : Who) (t : Team) (found : List (Nat × Nat × Target)) : List (Nat × Nat) × State :=
  ((s.trapAll u .mismatch ((pairsOf found).filter (fun x => (splitGroups found).contains x.1))).soFenceBy u t.key (anySo (oneLine found))).openOps i u
    (pairsOf (oneLine found))

/-- A group's request goes to the home of its line, and its fibres' later accesses follow it. -/
def State.sendLock (s : State) (team g op : Nat) (kind : ReqKind) (page : LockPage) (lanes : List Nat) : State :=
  (s.sendReq ⟨team, g, op, kind, page.trk, page.so, 0, false, none⟩).orderAll team g lanes

section Requests

variable {s : State} {w : Who} {t : Team} {c : Ctl} {uo : Bool} {brec : BitVec 12} {a d : Reg} {tgt : Nat × Nat → Target}

/-- A lock instruction whose fibres reach their operands sends one request for each group that names one line. -/
theorem gives_lockBody {i : Instr} {go : Team → Nat → List Nat → Nat → LockPage → Nat → Who → State → State} {kind : State → Nat → ReqKind}
    (H : Starts s i w c t) (R : Reaches s w c t false noTurn (.global brec) a 0 128 .at_ .rw false tgt)
    (hpage : ∀ x ∈ s.performers w c, noUo (tgt x) = .ok (tgt x)) (he : exec i s = native i s (syncBody i .group (lockBody i brec a go)))
    (hgo : ∀ r g op, let good := oneLine (s.found w c tgt)
      go t g (lanesNaming good g) (lineNamed good g).1 (lineNamed good g).2 op (w.by (s.performers w c)) r =
        r.sendLock w.team g op (kind r g) (lineNamed good g).2 (lanesNaming good g)) :
    let good := oneLine (s.found w c tgt)
    let q := (s.readied w c t (.global brec) .rw tgt).lockOpened i (w.by (s.performers w c)) t (s.found w c tgt)
    Gives i s w ((groupsOf (pairsOf good)).foldl (fun (r : State) g =>
      r.sendLock w.team g (opOf q.1 g) (kind r g) (lineNamed good g).2 (lanesNaming good g)) q.2) := by
  intro good q
  have hgives := gives_body H.toIssues he R.some
  rw [syncBody_plain H, lockBody, homeWith_ok H.who H.team R noUo hpage] at hgives
  dsimp only at hgives
  rw [openFor_plain H.who] at hgives
  have hstep : (fun (r : State) g => go t g (lanesNaming good g) (lineNamed good g).1 (lineNamed good g).2 (opOf q.1 g) (w.by (s.performers w c)) r) =
      fun r g => r.sendLock w.team g (opOf q.1 g) (kind r g) (lineNamed good g).2 (lanesNaming good g) :=
    funext fun r => funext fun g => hgo r g _
  rw [← hstep]
  exact hgives

/-- LLOCK and LTRY ask with the time that the leader names. -/
theorem gives_doLock {i : Instr} {try_ : Bool} (H : Starts s i w c t) (R : Reaches s w c t false noTurn (.global brec) a 0 128 .at_ .rw false tgt)
    (hpage : ∀ x ∈ s.performers w c, noUo (tgt x) = .ok (tgt x)) (he : exec i s = native i s (syncBody i .group (doLock i try_ uo brec a d))) :
    let good := oneLine (s.found w c tgt)
    let q := (s.readied w c t (.global brec) .rw tgt).lockOpened i (w.by (s.performers w c)) t (s.found w c tgt)
    Gives i s w ((groupsOf (pairsOf good)).foldl (fun (r : State) g =>
      r.sendLock w.team g (opOf q.1 g) (.lock try_ uo (lineNamed good g).1 (lineNamed good g).2
        ((r.fibre w.team g ((lanesNaming good g).headD 0)).get w.pos d) ((lanesNaming good g).map (fun l => (l, d))))
        (lineNamed good g).2 (lanesNaming good g)) q.2) :=
  gives_lockBody H R hpage he (fun r g op => by simp [Team.dx, H.plain, State.sendLock, Who.by_pos, Who.by_team])

/-- LUNLK asks for the release of the line. -/
theorem gives_doUnlock {i : Instr} (H : Starts s i w c t) (R : Reaches s w c t false noTurn (.global brec) a 0 128 .at_ .rw false tgt)
    (hpage : ∀ x ∈ s.performers w c, noUo (tgt x) = .ok (tgt x)) (he : exec i s = native i s (syncBody i .group (doUnlock i uo brec a d))) :
    let good := oneLine (s.found w c tgt)
    let q := (s.readied w c t (.global brec) .rw tgt).lockOpened i (w.by (s.performers w c)) t (s.found w c tgt)
    Gives i s w ((groupsOf (pairsOf good)).foldl (fun (r : State) g =>
      r.sendLock w.team g (opOf q.1 g) (.unlock uo (lineNamed good g).1 (lineNamed good g).2 ((lanesNaming good g).map (fun l => (l, d))))
        (lineNamed good g).2 (lanesNaming good g)) q.2) :=
  gives_lockBody H R hpage he (fun r g op => by simp [Team.dx, H.plain, State.sendLock, Who.by_team])

/-! ### LSTAT (R302) -/

/-- LSTAT reads the state of each fibre's line as the instruction finds it. -/
theorem lstat_completes (H : Starts s (.lstat c brec a d) w c t) (h0 : s.performers w c ≠ [])
    (hr : ∀ x ∈ s.performers w c, s.resolve t x.1 (s.fibre w.team x.1 x.2) w.pos (.global brec) a 0 128 .at_ .read = .ok (tgt x) ∧ noUo (tgt x) = .ok (tgt x)) :
    Completes (.lstat c brec a d) s w c (s.readied w c t (.global brec) .read tgt)
      (fun x => some [(.v d, s.lockStatus w.team x.1 (tgt x).lockLine.1)]) := by
  refine completes_base H rfl (.readied s w c t _ _ tgt) (fun x => [(.v d, s.lockStatus w.team x.1 (tgt x).lockLine.1)]) (fun h => absurd h h0) (fun _ => ?_)
  have hgate := gate_found (val := tgt) H.who
    (res := fun g l => (s.resolve t g (s.fibre w.team g l) w.pos (.global brec) a 0 128 .at_ .read).andThen noUo)
    (fun x hx => by obtain ⟨hreach, hpage⟩ := hr x hx; simp only [hreach, Res.andThen, hpage])
  rw [syncBody_plain H]
  unfold doLstat
  rw [team_by H]
  dsimp only [Who.by_pos, Who.by_team]
  rw [hgate]
  dsimp only
  rw [pairsOf_found, openFor_plain H.who]
  conv_lhs => unfold State.found
  rw [List.foldl_map]
  rfl

end Requests

/-- Settles O28: each of the three requests is its own kind in the one shape that they share, and LSTAT reads the lines that it reaches. -/
theorem lockRequests : Obligations.LockRequests := by
  intro s w t c uo brec a d tgt found u lines split good mine lanes at_ sends lock
  exact ⟨fun H R hpage => gives_doLock H R hpage rfl, fun H R hpage => gives_doLock H R hpage rfl, fun H R hpage => gives_doUnlock H R hpage rfl,
    lstat_completes⟩

end Sys2Proof.Machine
end

section
/-!
PROOFS. Events at the homes of lines (O47): the values that a request's lanes see one after another, the request as its home performs it, and
write-backs, monitors and queues beside it.
-/

namespace Sys2Proof.Machine

/-! ### The values that lanes see (R272 to R276) -/

/-- A list that grows by a function of its last element holds what folding the function over each prefix gives. -/
theorem foldl_concat_eq {α β : Type} (f : β → α → β) (m : β) (vs : List α) :
    vs.foldl (fun (r : List β) v => r ++ [f (r.getLastD m) v]) [m] = (List.range (vs.length + 1)).map (fun i => (vs.take i).foldl f m) := by
  induction vs using List.reverseRecOn with
  | nil => rfl
  | append_singleton vs v ih =>
    have hprefix : ∀ i ∈ List.range (vs.length + 1), ((vs ++ [v]).take i).foldl f m = (vs.take i).foldl f m := fun i hi => by
      rw [List.take_append_of_le_length (Nat.le_of_lt_succ (List.mem_range.1 hi))]
    rw [List.foldl_append, List.foldl_cons, List.foldl_nil, ih, List.length_append, List.length_singleton, List.range_succ (n := vs.length + 1), List.map_append,
      List.map_congr_left hprefix]
    simp [List.range_succ, List.take_of_length_le]

/-- The values of an atomic's location, before each lane and after the last. -/
theorem atomChain_eq (op : AtomOp) (ty : ITy) (m : Nat) (vs : List Nat) :
    atomChain op ty m vs = (List.range (vs.length + 1)).map (atomicBefore op ty m vs) := by
  cases op with
  | fadd => simp [atomChain, atomicBefore, List.range_succ_eq_map, Function.comp_def]
  | _ => exact foldl_concat_eq (atomStep _ ty) m vs

theorem atomChain_getD {op : AtomOp} {ty : ITy} {m i : Nat} {vs : List Nat} (h : i ≤ vs.length) :
    (atomChain op ty m vs).getD i 0 = atomicBefore op ty m vs i := by
  simp [atomChain_eq, Nat.lt_succ_of_le h]

theorem atomChain_getLastD (op : AtomOp) (ty : ITy) (m : Nat) (vs : List Nat) :
    (atomChain op ty m vs).getLastD 0 = atomicBefore op ty m vs vs.length := by
  simp [atomChain_eq, List.range_succ]

/-- The values that the lanes of an ACAS see, and the one that it leaves. -/
theorem acasChain_eq (m : Nat) (ps : List (Nat × Nat)) :
    acasChain m ps = ((List.range ps.length).map (swapBefore m ps), swapBefore m ps ps.length) := by
  induction ps generalizing m with
  | nil => rfl
  | cons p ps ih =>
    rw [acasChain, ih, List.length_cons, List.range_succ_eq_map]
    simp [swapBefore, Function.comp_def]

theorem acasChain_getD {m i : Nat} {ps : List (Nat × Nat)} (h : i < ps.length) : (acasChain m ps).1.getD i 0 = swapBefore m ps i := by
  simp [acasChain_eq, h]

/-- A lane of an ACAS stores where the value before it is the one that it compares with. -/
theorem acasHits_eq (m : Nat) (ps : List (Nat × Nat)) :
    acasHits m ps = (List.range ps.length).any (fun i => decide (swapBefore m ps i = (ps.getD i (0, 0)).1)) := by
  have hzip : ((List.range ps.length).map (swapBefore m ps)).zip ps = (List.range ps.length).map (fun i => (swapBefore m ps i, ps.getD i (0, 0))) := by
    rw [← List.zip_map', range_map_getD]
  rw [acasHits, acasChain_eq, hzip, List.any_map]
  rfl

/-! ### A request as its home performs it (R258, R271 to R278) -/

/-- The part as a request that leaves it finds its place: its lanes ordered, its release side performed, and the line out of its core. -/
def State.entered (s : State) (id : Nat) (r : Req) (t : Team) (uo : Bool) (order : Order) (scope : Scope) (pl : Place) (ls : List Nat) : State :=
  (State.orderLanes { s with reqs := fdel s.reqs id } r order scope ls).enterHome t.key uo order scope pl

/-- Steps that agree at every place of a list fold alike over the list with its places. -/
theorem foldl_zipIdx_congr {α β : Type} {f g : β → α × Nat → β} (ls : List α) (h : ∀ y a i, i < ls.length → f y (a, i) = g y (a, i)) (y : β) :
    ls.zipIdx.foldl f y = ls.zipIdx.foldl g y :=
  List.foldl_ext _ _ _ (fun y e he => h y e.1 e.2 (List.snd_lt_of_mem_zipIdx he))

section Perform

variable {s : State} {id : Nat} {r : Req} {t : Team} {uo : Bool} {order : Order} {scope : Scope} {op : AtomOp} {ty : ITy} {pl : Place}
  (hr : fget s.reqs id = some r) (ht : s.team r.team = some t)
include hr ht

/-- The lanes of an atomic answer with the values before them, and the location keeps the last (R272 to R275). -/
theorem State.performReq_atom {ret : Bool} {lanes : List (Nat × Reg × Nat)} (hk : r.kind = .atom uo order scope op ty ret pl lanes) :
    let ready := s.entered id r t uo order scope pl (lanes.map (·.1))
    let value := atomicBefore op ty (ready.placeRead pl (ty.width / 8)) (lanes.map (fun l => l.2.2))
    s.performReq id =
      (lanes.zipIdx.foldl (fun (x : State) e => x.answerLane r e.1.1 (if ret then wrW e.1.2.1 ty.is64 (BitVec.ofNat 64 (value e.2)) else []))
        (ready.placeWrite pl (ty.width / 8) (value lanes.length))).leaveHome t.key uo order scope pl := by
  intro ready value
  have hvalue : ∀ i ≤ lanes.length, (atomChain op ty (ready.placeRead pl (ty.width / 8)) (lanes.map (fun l => l.2.2))).getD i 0 = value i :=
    fun i hi => atomChain_getD (by simpa using hi)
  have hlast : (atomChain op ty (ready.placeRead pl (ty.width / 8)) (lanes.map (fun l => l.2.2))).getLastD 0 = value lanes.length := by
    rw [atomChain_getLastD, List.length_map]
  rw [State.performReq, hr]
  simp only [ht, hk]
  refine congrArg (fun x : State => x.leaveHome t.key uo order scope pl) ?_
  rw [← hlast]
  exact foldl_zipIdx_congr lanes (fun y a i hi => by rw [← hvalue i hi.le]; rfl) _

/-- An ACAS writes where some lane's comparison holds (R276). -/
theorem State.performReq_acas {lanes : List (Nat × Reg × Nat × Nat)} (hk : r.kind = .acas uo order scope ty pl lanes) :
    let ready := s.entered id r t uo order scope pl (lanes.map (·.1))
    let ops := lanes.map (fun l => l.2.2)
    let value := swapBefore (ready.placeRead pl (ty.width / 8)) ops
    let swaps := (List.range ops.length).any (fun i => decide (value i = (ops.getD i (0, 0)).1))
    s.performReq id =
      (lanes.zipIdx.foldl (fun (x : State) e => x.answerLane r e.1.1 (wrW e.1.2.1 ty.is64 (BitVec.ofNat 64 (value e.2))))
        (if swaps then ready.placeWrite pl (ty.width / 8) (value lanes.length) else ready)).leaveHome t.key uo order scope pl := by
  intro ready ops value swaps
  have hvalue : ∀ i < lanes.length, (acasChain (ready.placeRead pl (ty.width / 8)) ops).1.getD i 0 = value i :=
    fun i hi => acasChain_getD (by simpa [ops] using hi)
  have hlast : (acasChain (ready.placeRead pl (ty.width / 8)) ops).2 = value lanes.length := by
    rw [acasChain_eq, List.length_map]
  have hswaps : acasHits (ready.placeRead pl (ty.width / 8)) ops = swaps := acasHits_eq _ _
  rw [State.performReq, hr]
  simp only [ht, hk]
  refine congrArg (fun x : State => x.leaveHome t.key uo order scope pl) ?_
  rw [← hlast, ← hswaps]
  exact foldl_zipIdx_congr lanes (fun y a i hi => by rw [← hvalue i hi]; rfl) _

/-- An exact sum takes all its lanes' terms at once (R277). -/
theorem State.performReq_exsum {lanes : List (Nat × Word)} (hk : r.kind = .exsum uo order scope pl lanes) :
    let ready := s.entered id r t uo order scope pl (lanes.map (·.1))
    s.performReq id =
      (lanes.foldl (fun (x : State) l => x.answerLane r l.1 [])
        (ready.placeWrite pl 64 (eswSum (ready.placeRead pl 64) (lanes.map (·.2))))).leaveHome t.key uo order scope pl := by
  rw [State.performReq, hr]
  simp only [ht, hk]
  rfl

/-- The lanes of EXCVT read one after another; under CLR the first leaves a zero sum to the others (R278). -/
theorem State.performReq_excvt {bf16 clr : Bool} {lanes : List (Nat × Reg)} (hk : r.kind = .excvt uo order scope bf16 clr pl lanes) :
    s.performReq id =
      (lanes.foldl (fun (x : State) l =>
        let code := toFF (if bf16 then .bf16 else .f32) .rne false (eswValue (x.placeRead pl 64))
        (if clr then x.placeWrite pl 64 0 else x).answerLane r l.1 [(.v l.2, BitVec.ofNat 32 code)])
        (s.entered id r t uo order scope pl (lanes.map (·.1)))).leaveHome t.key uo order scope pl := by
  rw [State.performReq, hr]
  simp only [ht, hk]
  rfl

end Perform

/-! ### Requests that arrive (R264, R271, R326, R370) -/

theorem State.beginReq_team (s : State) (id : Nat) (r : Req) (k : Nat) : (s.beginReq id r).team k = s.team k := by
  unfold State.beginReq
  split
  · rfl
  · split <;> rfl

section Arrive

variable {s : State} {id : Nat} {r : Req} {t : Team} (ha : s.Alive) (hr : fget s.reqs id = some r)
include ha hr

/-- The requests of one instruction at a vault are performed together. -/
theorem happens_request_vault {k a : Nat} {write : Bool} (hp : r.kind.place? = some (.vault k a, write)) :
    Happens (.atomicRequestAtHome id) s ((s.bunchOf r).foldl (fun (x : State) j => x.performReq j) s) := by
  show execAtomicRequestAtHome id s = _
  rw [execAtomicRequestAtHome, ha.event]
  simp only [hr, hp, Place.line?]

section Global

variable {pa : Nat} {write : Bool} (hp : r.kind.place? = some (.mem pa, write)) (hmay : s.mayBegin id r = true)
include hp hmay

/-- A request that waits at an object's part is the part's to perform. -/
theorem happens_request_atPart (hpart : (s.beginReq id r).atPart id = true) :
    Happens (.atomicRequestAtHome id) s ((s.beginReq id r).serveAtom id (pa / 128)) := by
  show execAtomicRequestAtHome id s = _
  rw [execAtomicRequestAtHome, ha.event]
  simp only [hr, hp, Place.line?, hmay, hpart, Bool.not_true, Bool.false_eq_true, if_false, if_true]

variable (ht : s.team r.team = some t) (hpart : (s.beginReq id r).atPart id = false)
include ht hpart

/-- A request of an object's line joins the queue of its part. -/
theorem happens_request_tracked {o a : Nat} (htrk : (s.beginReq id r).trackedBy r (.mem pa) = some (o, a)) :
    Happens (.atomicRequestAtHome id) s
      (((s.beginReq id r).partQueue o ⟨.atom id, agentOf (homeKey a) t.die t.core, t.die, t.core, a⟩).serveAtom id (pa / 128)) := by
  show execAtomicRequestAtHome id s = _
  rw [execAtomicRequestAtHome, ha.event]
  simp only [hr, hp, Place.line?, hmay, hpart, htrk, State.beginReq_team, ht, Bool.not_true, Bool.false_eq_true, if_false]

variable (htrk : (s.beginReq id r).trackedBy r (.mem pa) = none)
include htrk

/-- A line that the host holds is asked of it. -/
theorem happens_request_hostBars (hbars : (s.beginReq id r).hostBars (pa / 128) write = true) :
    Happens (.atomicRequestAtHome id) s ((s.beginReq id r).snoop (pa / 128)) := by
  show execAtomicRequestAtHome id s = _
  rw [execAtomicRequestAtHome, ha.event]
  simp only [hr, hp, Place.line?, hmay, hpart, htrk, hbars, State.beginReq_team, ht, Bool.not_true, Bool.false_eq_true, if_false, if_true]

/-- A request that nothing bars is performed, an object's stale copy of its line out of its core first. -/
theorem happens_request_mem (hfree : (s.beginReq id r).hostBars (pa / 128) write = false) :
    Happens (.atomicRequestAtHome id) s (((s.beginReq id r).shed t.key (pa / 128)).performReq id) := by
  show execAtomicRequestAtHome id s = _
  rw [execAtomicRequestAtHome, ha.event]
  simp only [hr, hp, Place.line?, hmay, hpart, htrk, hfree, State.beginReq_team, ht, Bool.not_true, Bool.false_eq_true, if_false]

end Global

end Arrive

/-! ### Write-backs, monitors and queues (R247, R281, R287, R289, R312, R370) -/

section Beside

variable {s : State} (ha : s.Alive)
include ha

theorem happens_acqrWriteback {id : Nat} {r : Req} {t : Team} (hr : fget s.reqs id = some r) (ht : s.team r.team = some t) {uo : Bool} {die core lane : Nat}
    (hk : r.kind = .acqr uo die core lane) :
    Happens (.acqrWriteback id) s ({ s.acqrDo t uo die core with reqs := fdel s.reqs id }.answerLane r lane []) := by
  show execAcqrWriteback id s = _
  rw [execAcqrWriteback, ha.event]
  simp only [hr, hk, ht]

section Monitor

variable {team grp lane pa op : Nat} {cond : WCond} {c : Word} {uo : Bool} {d : Reg}

/-- A woken monitor of the overflow buckets is judged, and goes to the table where that has room. -/
theorem happens_monitorReread {dl : Option Nat} (hw : (s.fibre team grp lane).wait = some (.monitor pa cond c dl uo d op)) {m : Monitor}
    (hm : s.monOf team grp pa = some m) (htable : m.table = false) (hwoken : m.woken = true) :
    let q := s.judgeMon (homeKey pa) m
    Happens (.monitorReread team grp lane) s ((q.1.modSlice (homeKey pa) (fun x =>
      let room := decide ((x.mons.filter (·.table)).length < 1024)
      { x with mons := x.mons.map (fun k => if k = m then { k with woken := false, table := room } else k) })).homeWrites q.2) := by
  show execMonitorReread team grp lane s = _
  rw [execMonitorReread, ha.event]
  simp only [hw, hm, htable, hwoken, Bool.not_true, Bool.or_self, Bool.false_eq_true, if_false]

/-- A wait whose time is over ends with the word as its home has it: met, with an acquire, or timed out. -/
theorem happens_waitcTimeout {t : Team} (ht : s.team team = some t) {at_ : Nat}
    (hw : (s.fibre team grp lane).wait = some (.monitor pa cond c (some at_) uo d op)) (hdue : at_ ≤ s.now) :
    let seen := s.monitorRead t team grp none pa
    let done := fun (st : Word) => (seen.2.release team grp lane op [(.v d, st), (.v (d + 1), seen.1)]).tidyMon team grp pa
    Happens (.waitcTimeout team grp lane) s (if condHolds cond seen.1 c then (done 0).acquire t.key uo else done 1) := by
  show execWaitcTimeout team grp lane s = _
  rw [execWaitcTimeout, ha.event]
  simp only [hw, ht, if_neg hdue.not_gt]
  cases condHolds cond (s.monitorRead t team grp none pa).1 c <;> simp only [waitcWrites, if_true, Bool.false_eq_true, if_false]

end Monitor

section Line

variable {die core line : Nat} {x : L1Line} {evict : Bool} (hx : (s.core (coreKey die core)).line line = some x)
include hx

theorem happens_homeStorePerformed_untracked (hobj : x.obj = none) :
    Happens (.homeStorePerformed die core line evict) s
      (if evict then s.evictLine (coreKey die core) line else s.pushLine (coreKey die core) line) := by
  show execHomeStorePerformed die core line evict s = _
  rw [execHomeStorePerformed, ha.event, State.maintain]
  cases evict <;> simp [hx, hobj]

theorem happens_homeStorePerformed_tracked {j gen : Nat} (hobj : x.obj = some (j, gen)) :
    Happens (.homeStorePerformed die core line evict) s
      (if evict = true ∧ line ∉ (s.core (coreKey die core)).pins then s.dropTracked (coreKey die core) j line
       else s.wbTracked (coreKey die core) j line) := by
  show execHomeStorePerformed die core line evict s = _
  rw [execHomeStorePerformed, ha.event, State.maintain]
  cases evict <;> simp [hx, hobj]

end Line

theorem happens_sliceRequestEnqueue {die core j line : Nat} {rq : Req} (hnext : s.nextEntry (coreKey die core) = some (j, line))
    (hrq : fget s.reqs j = some rq) (hroom : (s.queued (homeKey (128 * line))).length < 64) :
    Happens (.sliceRequestEnqueue die core) s
      ((s.countRead j rq).modSlice (homeKey (128 * line)) (fun z => { z with inq := s.enterQueue j (s.queued (homeKey (128 * line))) })) := by
  show execSliceRequestEnqueue die core s = _
  rw [execSliceRequestEnqueue, ha.event]
  simp only [hnext, hrq, if_pos hroom]

end Beside

/-- Settles O47, event by event: a request that nothing bars is performed in one step, by the equation of its kind. That a re-read and a time-out of WAITC
read the home alone, and that a slice begins a request at the earliest a clock after it entered, are the model's choices (log 46). -/
theorem homeEvents : Obligations.HomeEvents := by
  intro s id r r' t t' uo order scope op ty pl ha hr ht begun base ready free ends n
  -- A free request comes to its kind's equation of `performReq`, whether its place is in memory or in a vault.
  have hserved : ∀ {k write}, r.kind = k → k.place? = some (pl, write) → free write →
      ∀ {e}, (fget base.reqs id = some r' → base.team r'.team = some t' → r'.kind = k → base.performReq id = e) → Happens (.atomicRequestAtHome id) s e := by
    intro k write hk hp hfree e hperform
    subst hk
    obtain ⟨⟨hr', hkind, ht'⟩, hopen⟩ := hfree
    rw [← hperform hr' ht' hkind]
    cases pl with
    | mem pa =>
      obtain ⟨hmay, hpart, htrk, hbars⟩ := hopen
      exact happens_request_mem ha hr hp hmay ht hpart htrk hbars
    | vault k a =>
      have hvault := happens_request_vault ha hr hp
      rwa [show s.bunchOf r = [id] from hopen] at hvault
  exact ⟨fun ret lanes hk hfree => hserved hk rfl hfree fun hr' ht' hk' => State.performReq_atom hr' ht' hk',
    fun lanes hk hfree => hserved hk rfl hfree fun hr' ht' hk' => State.performReq_acas hr' ht' hk',
    fun lanes hk hfree => hserved hk rfl hfree fun hr' ht' hk' => State.performReq_exsum hr' ht' hk',
    fun bf16 clr lanes hk hfree => hserved hk rfl hfree fun hr' ht' hk' => State.performReq_excvt hr' ht' hk',
    fun k a write hp => happens_request_vault ha hr hp,
    fun pa write hp hmay => ⟨happens_request_atPart ha hr hp hmay, fun o a hpart => happens_request_tracked ha hr hp hmay ht hpart,
      happens_request_hostBars ha hr hp hmay ht⟩,
    fun die core lane => happens_acqrWriteback ha hr ht,
    fun pa cond c dl d o m lane hw => happens_monitorReread ha hw,
    fun pa cond c d o at_ lane => happens_waitcTimeout ha ht,
    fun die core line x evict => happens_homeStorePerformed_untracked ha,
    fun die core line x j gen evict hx => happens_homeStorePerformed_tracked ha hx,
    fun die core line j rq hnext hrq => happens_sliceRequestEnqueue ha hnext hrq⟩

end Sys2Proof.Machine
end

section
/-!
PROOFS. Returns from a trap (O23): TRET and TRET.SKIP, fibre by fibre.
-/

namespace Sys2Proof.Machine

/-! ### TRET (R357) -/

theorem Frame.index_eq (f : Frame) : f.index = f.tpc.toNat / 2 ^ 52 % 16 := field_eq_div_mod _ _ _

/-- A frame of no malformed clause and no failed fetch may be skipped. -/
theorem Frame.noSkip_eq_false {f : Frame} (hcause : f.tcause.toNat % 256 ≠ 3)
    (hfetch : ¬ (f.tcause.toNat % 256 = 9 ∧ f.tcause.toNat / 256 % 256 = 5)) : f.noSkip = false := by
  simp only [Frame.noSkip, field_eq_div_mod, Bool.or_eq_false_iff, Bool.and_eq_false_imp, decide_eq_false_iff_not, decide_eq_true_eq]
  exact ⟨by simpa using hcause, fun h9 h5 => hfetch ⟨by simpa using h9, by simpa using h5⟩⟩

/-- Inside its handler a fibre goes back to where its frame's TPC points. -/
theorem tretFibre_returns {keep : BitVec 8} {keepPw : Bool} {f : Fibre} (h : f.h = true) :
    tretFibre keep keepPw f = .ok { f.restored keep keepPw with leave := .resume (BitVec.ofNat 49 f.frame.tpc.toNat) (f.frame.tpc.toNat / 2 ^ 52 % 16) } := by
  rw [tretFibre, h, trapReturn_eq, Frame.index_eq]
  rfl

/-- The successor lies in the clause, or past it, where the fibre falls through from the state that it returns to. -/
theorem tretSkipFibre_skips {keep : BitVec 8} {keepPw : Bool} {f : Fibre} (h : f.h = true) (hskip : f.frame.noSkip = false) :
    tretSkipFibre keep keepPw f = .ok (if f.frame.tpc.toNat / 2 ^ 52 % 16 < f.frame.count then
        { f.restored keep keepPw with leave := .resume (BitVec.ofNat 49 f.frame.tpc.toNat) (f.frame.tpc.toNat / 2 ^ 52 % 16 + 1) }
      else
        let r := (f.restored keep keepPw).fallTo (BitVec.ofNat 49 f.frame.tpc.toNat + BitVec.ofNat 49 (8 * (f.frame.count + 2)))
        { r.1 with leave := .resume r.2.1 0 }) := by
  rw [tretSkipFibre, h, hskip, if_neg (by decide), trapReturn_eq, Frame.index_eq, Fibre.succOf]
  by_cases hin : f.frame.tpc.toNat / 2 ^ 52 % 16 < f.frame.count
  · simp only [if_pos hin]; rfl
  · simp only [if_neg hin, fallTo_leave]; rfl

/-- Settles O23: each fibre returns to where its frame's TPC points, or past it. -/
theorem trapReturns : Obligations.TrapReturns := by
  intro s w t c keep keepPw place index cause reason
  refine ⟨fun H hin => ?_, fun H hin => ?_⟩
  · exact moves_eachFibre H (fun _ => tretFibre keep keepPw) (exec_tret_eq c keep keepPw s) _ (fun x hx => tretFibre_returns (hin x hx))
  · refine moves_eachFibre H (fun _ => tretSkipFibre keep keepPw) (exec_tretSkip_eq c keep keepPw s) _ (fun x hx => ?_)
    obtain ⟨h, hcause, hfetch⟩ := hin x hx
    exact tretSkipFibre_skips h (Frame.noSkip_eq_false hcause hfetch)

end Sys2Proof.Machine
end

section
/-!
PROOFS. Requests to homes (O27) and remote acquires (O40): atomics, exact sums, and ACQR, whose victims are asked to write back.
-/

namespace Sys2Proof.Machine

/-! ### Requests to homes (R269 to R278) -/

section Requests

variable {s : State} {w : Who} {t : Team} {c : Ctl} {sp : Space} {a : Reg} {size : Nat} {acc : Acc} {write : Bool} {tgt : Nat × Nat → Target}

/-- A synchronising instruction outside deterministic grids whose fibres reach their operands does its own part. -/
theorem gives_syncHome {i : Instr} {k : Split} {go : Team → List (Nat × Nat × Target) → Who → State → State} (H : Starts s i w c t)
    (R : Reaches s w c t false noTurn sp a 0 size .at_ acc write tgt)
    (he : exec i s = native i s (syncBody i k (homeBody sp a 0 size .at_ acc write go))) :
    Gives i s w (go t (s.found w c tgt) (w.by (s.performers w c)) (s.readied w c t sp acc tgt)) := by
  have hgives := gives_body H.toIssues he R.some
  rwa [syncBody_plain H, homeBody, homeWith_ok H.who H.team R .ok (fun _ _ => rfl)] at hgives

/-- One that sends a request for each group and location. -/
theorem gives_sends {i : Instr} {k : Split} {mk : Who → State → Nat → Spot → List Nat → ReqKind} (H : Starts s i w c t)
    (R : Reaches s w c t false noTurn sp a 0 size .at_ acc write tgt)
    (he : exec i s = native i s (syncBody i k (homeBody sp a 0 size .at_ acc write (fun t ls u r =>
      let q := r.openFor i u (pairsOf ls)
      q.2.sendAll u t q.1 ls (mk u r))))) :
    let ready := s.readied w c t sp acc tgt
    let q := ready.openOps i (w.by (s.performers w c)) (pairsOf (s.found w c tgt))
    Gives i s w (q.2.sendAll (w.by (s.performers w c)) t q.1 (s.found w c tgt) (mk (w.by (s.performers w c)) ready)) := by
  have hgives := gives_syncHome H R he
  dsimp only at hgives
  rwa [openFor_plain H.who] at hgives

/-- ATOMN and EXSUM send their requests at once, or buffer them for the commit of a deterministic grid. -/
theorem gives_sendsOrBuffers {i : Instr} {mk : Who → State → Nat → Spot → List Nat → ReqKind} (H : Issues s i w c t)
    (R : Reaches s w c t false noTurn sp a 0 size .at_ acc write tgt)
    (he : exec i s = native i s (homeBody sp a 0 size .at_ acc write (fun t ls u r =>
      let q := r.openOps i u (pairsOf ls)
      if t.dx then q.2.bufferAll u t q.1 ls (mk u r) else q.2.sendAll u t q.1 ls (mk u r)))) :
    let ready := s.readied w c t sp acc tgt
    let q := ready.openOps i (w.by (s.performers w c)) (pairsOf (s.found w c tgt))
    (t.kern.dx = none → Gives i s w (q.2.sendAll (w.by (s.performers w c)) t q.1 (s.found w c tgt) (mk (w.by (s.performers w c)) ready))) ∧
    (t.kern.dx ≠ none → Gives i s w (q.2.bufferAll (w.by (s.performers w c)) t q.1 (s.found w c tgt) (mk (w.by (s.performers w c)) ready))) := by
  have hgives := gives_home H R .ok (fun _ _ => rfl) _ he
  dsimp only at hgives
  refine ⟨fun hdx => ?_, fun hdx => ?_⟩
  · rwa [if_neg (by simp [Team.dx, hdx])] at hgives
  · rwa [if_pos (by simpa [Team.dx, Option.isSome_iff_ne_none] using hdx)] at hgives

end Requests

/-- The requests of ACAS (R276). -/
def acasReqs (u : Who) (r : State) (k : ACtl) (ty : ITy) (d : Reg) (g : Nat) (p : Spot) (lanes : List Nat) : ReqKind :=
  .acas k.uo (spotOrder p k.order) (spotScope p k.scope) ty p.place (lanes.map (fun l =>
    (l, d, (r.fibre u.team g l).operand u.pos d ty, (r.fibre u.team g l).operand u.pos (if ty.is64 then d + 2 else d + 1) ty)))

/-- The requests of EXSUM (R277). -/
def exsumReqs (u : Who) (r : State) (k : ACtl) (d : Reg) (g : Nat) (p : Spot) (lanes : List Nat) : ReqKind :=
  .exsum k.uo (spotOrder p k.order) (spotScope p k.scope) p.place (lanes.map (fun l => (l, (r.fibre u.team g l).get u.pos d)))

/-- The requests of EXCVT (R278). -/
def excvtReqs (k : ACtl) (bf16 clr : Bool) (d : Reg) (p : Spot) (lanes : List Nat) : ReqKind :=
  .excvt k.uo (spotOrder p k.order) (spotScope p k.scope) bf16 clr p.place (lanes.map (fun l => (l, d)))

/-- Settles O27: each instruction is one of the two shapes, with the requests of its own kind. -/
theorem requestsToHomes : Obligations.RequestsToHomes := by
  intro s w t c k op ty sp bf16 clr a d tgt found u sends buffers reads
  exact ⟨fun H R => gives_sends (mk := fun u r => atomReqs u r k op ty d true) H R rfl,
    ⟨fun H R => (gives_sendsOrBuffers (mk := fun u r => atomReqs u r k op ty d false) H.toIssues R rfl).1 H.plain,
      fun H hdx R => (gives_sendsOrBuffers (mk := fun u r => atomReqs u r k op ty d false) H R rfl).2 hdx⟩,
    fun H R => gives_sends (mk := fun u r => acasReqs u r k ty d) H R rfl,
    ⟨fun H R => (gives_sendsOrBuffers (mk := fun u r => exsumReqs u r k d) H.toIssues R rfl).1 H.plain,
      fun H hdx R => (gives_sendsOrBuffers (mk := fun u r => exsumReqs u r k d) H R rfl).2 hdx⟩,
    fun H R => gives_sends (mk := fun _ _ _ => excvtReqs k bf16 clr d) H R rfl⟩

/-! ### ACQR (R281) -/

section Acqr

variable {s : State} {w : Who} {t : Team} {c : Ctl} {uo : Bool} {a : Reg}

/-- The core that a fibre names as the victim of its acquire. -/
def State.victimOf (s : State) (w : Who) (a : Reg) (x : Nat × Nat) : Word := (s.fibre w.team x.1 x.2).get w.pos a

/-- The fibres whose victim is no core of the partition, and the others. -/
def State.victimless (s : State) (w : Who) (c : Ctl) (t : Team) (a : Reg) : List (Nat × Nat) :=
  (s.performers w c).filter (fun x => s.victimBad t (s.victimOf w a x))

def State.victimised (s : State) (w : Who) (c : Ctl) (t : Team) (a : Reg) : List (Nat × Nat) :=
  (s.performers w c).filter (fun x => !s.victimBad t (s.victimOf w a x))

/-- The fibres that name no core of the partition take their traps. -/
def State.acqrTrapped (s : State) (w : Who) (c : Ctl) (t : Team) (a : Reg) : State :=
  (s.victimless w c t a).foldl (fun (r : State) x =>
    r.takeTrap (w.by (s.performers w c)) w.word x.1 x.2 (.access 4 ((s.victimOf w a x).setWidth 64))) s

/-- One fibre's request of its victim, with the fibre's later accesses behind it. -/
def State.askVictim (s : State) (w : Who) (uo : Bool) (op : Nat) (victim : Word) (x : Nat × Nat) : State :=
  (s.sendReq ⟨w.team, x.1, op, .acqr uo (victim.toNat / 256 % 2) (victim.toNat % 256) x.2, false, false, 0, false, none⟩).order w.team x.1 x.2

theorem pairsOf_map {α : Type} (f : Nat × Nat → α) (ls : List (Nat × Nat)) : pairsOf (ls.map (fun x => (x.1, x.2, f x))) = ls := by
  simp [pairsOf, Function.comp_def]

/-- ACQR in order asks each victim core of the partition; the other fibres trap. -/
theorem acqr_gives (H : Starts s (.acqr c uo a) w c t) (ho : s.inOrder w c) :
    let q := (s.acqrTrapped w c t a).openOps (.acqr c uo a) (w.by (s.performers w c)) (s.victimised w c t a)
    Gives (.acqr c uo a) s w
      ((s.victimised w c t a).foldl (fun (r : State) x => r.askVictim w uo (opOf q.1 x.1) (s.victimOf w a x) x) q.2) := by
  refine gives_of_body H.toIssues (show exec (.acqr c uo a) s = native _ s _ from rfl) ?_
    (fun h0 => by simp only [State.acqrTrapped, State.victimless, State.victimised, h0, List.filter_nil, List.foldl_nil]; rfl)
  rw [afterOrder_ok ho, syncBody_plain H, doAcqr, team_by H]
  have hplain : t.dx = false := by simp [Team.dx, H.plain]
  simp only [Who.by_pos, Who.by_team, Who.by_perf, List.filter_map, Function.comp_def, List.foldl_map, pairsOf_map, openFor_plain H.who, hplain,
    Bool.false_eq_true, if_false]
  rfl

/-- Where no fibre names a core of the partition, each traps into the handler. -/
theorem acqr_traps (H : Starts s (.acqr c uo a) w c t) (ho : s.inOrder w c) (hd : Handled s w c t) (hall : s.victimised w c t a = []) :
    TrapsEach (.acqr c uo a) s w c t (fun x => .access 4 ((s.victimOf w a x).setWidth 64)) := by
  have hbad : s.victimless w c t a = s.performers w c :=
    List.filter_eq_self.2 fun x hx => by simpa using List.filter_eq_nil_iff.1 hall x hx
  have hgives := acqr_gives H ho
  rw [hall] at hgives
  unfold Gives State.finish at hgives
  rw [H.team] at hgives
  refine traps_each H.toFaces hd _ ?_ hgives
  show s.acqrTrapped w c t a = _
  rw [State.acqrTrapped, hbad]
  rfl

end Acqr

/-- Settles O40: the fibres whose victim is a core of the partition ask it, and where there are none, all trap. -/
theorem remoteAcquire : Obligations.RemoteAcquire := by
  intro s w t c uo a i u victim bad good trap
  exact ⟨fun H ho _ => acqr_gives H ho, acqr_traps⟩

end Sys2Proof.Machine
end

section
/-!
PROOFS. Event log and deterministic grids (O38, O44, O54): ELOG, what synchronising instructions do in a deterministic grid, and DXQ.
-/

namespace Sys2Proof.Machine

/-! ### ELOG (R332, R359, R360) -/

section Elog

variable {s : State} {w : Who} {t : Team} {c : Ctl} {d a b : Reg} {lead : Nat × Nat}

/-- The open records of some groups are written. -/
def State.flushEvents (s : State) (w : Who) (gs : List Nat) : State := gs.foldl (fun (r : State) g => r.flushEvent w.team g) s

theorem State.Near.flushEvents (s : State) (w : Who) (gs : List Nat) : State.Near s (s.flushEvents w gs) :=
  .foldl _ _ (fun r g => .flushEvent r w.team g) s

theorem elogSync_completes (H : Starts s (.elogSync c) w c t) (h0 : s.performers w c ≠ []) :
    Completes (.elogSync c) s w c (s.flushEvents w (groupsOf (s.performers w c))) (fun _ => some []) := by
  refine completes_base H (by unfold execElogSync; rfl : execElogSync c s = native _ s _) (.flushEvents s w _) (fun _ => []) (fun h => absurd h h0) (fun _ => ?_)
  dsimp only [Who.by_team, Who.by_perf]
  simp only [H.team, H.plain, Option.isSome_none, Bool.false_eq_true, if_false]
  rfl

theorem elogSync_buffers (H : Issues s (.elogSync c) w c t) (hdx : t.kern.dx ≠ none) (h0 : s.performers w c ≠ []) :
    let q := s.openOps (.elogSync c) (w.by (s.performers w c)) (s.performers w c)
    Gives (.elogSync c) s w ((groupsOf (s.performers w c)).foldl
      (fun (r : State) g => r.dxPush (w.by (s.performers w c)) g .elogSync [opOf q.1 g]) q.2) := by
  have hgives := gives_body H (by unfold execElogSync; rfl : execElogSync c s = native _ s _) h0
  dsimp only [Who.by_team, Who.by_perf] at hgives
  simp only [H.team, Option.isSome_iff_ne_none.2 hdx, if_true] at hgives
  exact hgives

theorem elogCnt_gives (H : Starts s (.elogCnt c d) w c t) (h0 : s.performers w c ≠ []) :
    let q := s.openOps (.elogCnt c d) (w.by (s.performers w c)) (s.performers w c)
    Gives (.elogCnt c d) s w ((s.performers w c).foldl
      (fun (r : State) x => (r.sampleOp (opOf q.1 x.1) d).doneLane (w.by (s.performers w c)) x.1 x.2 (opOf q.1 x.1) []) q.2) := by
  have hgives := gives_body H.toIssues (show exec (.elogCnt c d) s = native _ s _ from rfl) h0
  rw [syncBody_plain H, doElogCnt, team_by H] at hgives
  dsimp only [Who.by_perf] at hgives
  rwa [openFor_plain H.who] at hgives

/-- A sampled operation gives the count of its context's records as it completes (R360). -/
theorem State.opWrites_sample {o : Op} (ht : s.team o.team = some t) (hd : o.sample = some d) (l : Nat) :
    s.opWrites o l = (o.writes.filter (fun e => decide (e.1 = l))).map (·.2) ++
      [(.v d, BitVec.ofNat 32 (memNat s.mem (t.ctx + 64) 4 + memNat s.mem (t.ctx + 68) 4))] := by
  rw [State.opWrites, hd, ht]
  rfl

theorem State.Near.userRecord (s : State) (t : Team) (g : Nat) (x y : Word) : State.Near s (s.userRecord t g x y) := .ctxLog s _ _ _ _ _

theorem elogPut_completes (H : Starts s (.elogPut c a b) w c t) (hl : (w.by (s.performers w c)).leader = some lead) :
    Completes (.elogPut c a b) s w c
      (s.userRecord t lead.1 ((s.fibre w.team lead.1 lead.2).get w.pos a) ((s.fibre w.team lead.1 lead.2).get w.pos b)) (fun _ => some []) := by
  refine completes_base H (by unfold execElogPut; rfl : execElogPut c a b s = native _ s _) (.userRecord s t _ _ _) (fun _ => [])
    (fun h => absurd h (performers_of_leader hl)) (fun _ => ?_)
  dsimp only [Who.by_team, Who.by_perf, Who.by_pos]
  simp only [H.team, hl, H.plain, Option.isSome_none, Bool.false_eq_true, if_false]

theorem elogPut_buffers (H : Issues s (.elogPut c a b) w c t) (hdx : t.kern.dx ≠ none) (hl : (w.by (s.performers w c)).leader = some lead) :
    let f := s.fibre w.team lead.1 lead.2
    let q := s.openOps (.elogPut c a b) (w.by (s.performers w c)) (s.performers w c)
    Gives (.elogPut c a b) s w
      (q.2.dxPush (w.by (s.performers w c)) lead.1 (.elogPut (f.get w.pos a) (f.get w.pos b)) (q.1.map (·.2))) := by
  have hgives := gives_body H (by unfold execElogPut; rfl : execElogPut c a b s = native _ s _) (performers_of_leader hl)
  dsimp only [Who.by_team, Who.by_perf, Who.by_pos] at hgives
  simp only [H.team, hl, Option.isSome_iff_ne_none.2 hdx, if_true] at hgives
  exact hgives

end Elog

/-- Settles O38, instruction by instruction, outside deterministic grids and in them. -/
theorem eventLog : Obligations.EventLog := by
  intro s w t c d a b lead u f
  exact ⟨elogSync_completes, elogSync_buffers, elogCnt_gives, fun o l ht hd => State.opWrites_sample ht hd l, elogPut_completes, elogPut_buffers⟩

/-! ### Synchronising instructions of deterministic grids (R280, R332, R334) -/

section Deterministic

variable {s : State} {i : Instr} {w : Who} {t : Team} {c : Ctl} {k : Split}

/-- In a deterministic grid the fibres of a synchronising instruction wait for a commit, whatever it will do there. -/
theorem syncBody_parks (H : Issues s i w c t) (hdx : t.kern.dx ≠ none) (act : Who → State → State) :
    syncBody i k act (w.by (s.performers w c)) s = s.parked i k (w.by (s.performers w c)) t := by
  have hdet : t.kern.dx.isNone = false := by simpa [Option.isNone_eq_false_iff, Option.isSome_iff_ne_none] using hdx
  unfold syncBody
  dsimp only [Who.by_team]
  simp only [H.team, hdet, Bool.false_eq_true, if_false]
  rfl

/-- The body of a synchronising instruction, held back behind earlier requests or not. -/
def Synchronises (i : Instr) (k : Split) (body : Who → State → State) : Prop :=
  ∃ act, body = syncBody i k act ∨ body = afterOrder (syncBody i k act)

theorem synchronising_gives {body : Who → State → State} (H : Issues s i w c t) (hdx : t.kern.dx ≠ none) (ho : s.inOrder w c) (h0 : s.performers w c ≠ [])
    (he : exec i s = native i s body) (hb : Synchronises i k body) : Gives i s w (s.parked i k (w.by (s.performers w c)) t) := by
  have hgives := gives_body H he h0
  obtain ⟨act, rfl | rfl⟩ := hb
  · rwa [syncBody_parks H hdx] at hgives
  · rwa [afterOrder_ok ho, syncBody_parks H hdx] at hgives

/-- Every instruction that makes operations of a commit is a synchronising one, with that split. -/
theorem exec_synchronises (h : commitSplit i = some k) (s : State) : ∃ body, exec i s = native i s body ∧ Synchronises i k body := by
  cases i
  case atom | acas | excvt | waitc | tbarWait | tbarTest | llock | ltry | lunlk | lstat | mxm | mxldZero | mxldFill | mxldRestore | mxst | mxwait | mstat |
      strmOpen | strmSub | strmUnsub | strmClose | taskseq | taskseqWait | elogCnt =>
    cases h; exact ⟨_, rfl, _, .inl rfl⟩
  case acqr | bar | cbar | protld | objdecl | objrel | taskpost | coll | dxsync | tlbiAll | tlbiVa | tlbiPart =>
    cases h; exact ⟨_, rfl, _, .inr rfl⟩
  all_goals cases h

end Deterministic

theorem fence_gives {s : State} {w : Who} {t : Team} {c : Ctl} {kind : FenceKind} {scope : Scope} {uo : Bool} (H : Issues s (.fence c kind scope uo) w c t)
    (hdx : t.kern.dx ≠ none) (ho : s.inOrder w c) (h0 : s.performers w c ≠ []) :
    Gives (.fence c kind scope uo) s w
      (s.answered (.fence c kind scope uo) (w.by (s.performers w c)) (s.performers w c) (fun _ => [])) := by
  have hgives := gives_body H (by unfold execFence; rfl : execFence c kind scope uo s = native _ s _) h0
  rw [afterOrder_ok ho] at hgives
  have hdet : t.dx = true := Option.isSome_iff_ne_none.2 hdx
  dsimp only [Who.by_team, Who.by_perf] at hgives
  simp only [H.team, hdet, if_true] at hgives
  exact hgives

/-- Settles O44: whatever a synchronising instruction would do, in a deterministic grid its fibres wait; FENCE answers its fibres at once. -/
theorem deterministicWaits : Obligations.DeterministicWaits := by
  intro s i w t c k H hdx ho h0 u
  refine ⟨fun hsplit => ?_, ?_⟩
  · obtain ⟨body, he, hb⟩ := exec_synchronises hsplit s
    exact synchronising_gives H hdx ho h0 he hb
  · rintro kind scope uo rfl
    exact fence_gives H hdx ho h0

/-! ### DXQ (R340) -/

/-- What DXQ's selector names, in a grid of its quantum. -/
theorem State.dxq_deterministic {s : State} {t : Team} {q : Nat} {g : Grid} (hdx : t.kern.dx = some q) (hg : fget s.grids t.grid = some g) (sel : BitVec 2) :
    s.dxq t sel.toNat = if sel = 0 then 1 else if sel = 1 then BitVec.ofNat 32 q else if sel = 2 then BitVec.ofNat 32 g.commits
      else BitVec.ofNat 32 (g.commits / 2 ^ 32) := by
  have hcommits : s.commitsOf t = g.commits := by rw [State.commitsOf, State.gridOf, hg]; rfl
  have hlo : DWord.lo (BitVec.ofNat 64 g.commits) = BitVec.ofNat 32 g.commits := BitVec.setWidth_ofNat_of_le (by decide) _
  have hhi : DWord.hi (BitVec.ofNat 64 g.commits) = BitVec.ofNat 32 (g.commits / 2 ^ 32) :=
    BitVec.eq_of_toNat_eq (by simp only [DWord.hi, BitVec.toNat_setWidth, BitVec.toNat_ushiftRight, BitVec.toNat_ofNat, Nat.shiftRight_eq_div_pow]; omega)
  rw [State.dxq, hdx, hcommits, ← hlo, ← hhi]
  obtain rfl | rfl | rfl | rfl : sel = 0 ∨ sel = 1 ∨ sel = 2 ∨ sel = 3 := by revert sel; decide
  all_goals rfl

/-- DXQ answers all its fibres alike, at once. -/
theorem dxq_gives {s : State} {w : Who} {t : Team} {c : Ctl} {sel : BitVec 2} {d : Reg} (H : Issues s (.dxq c sel d) w c t) (h0 : s.performers w c ≠ []) :
    Gives (.dxq c sel d) s w
      (s.answered (.dxq c sel d) (w.by (s.performers w c)) (s.performers w c) (fun _ => [(.v d, s.dxq t sel.toNat)])) := by
  have hgives := gives_body H (by unfold execDxq; rfl : execDxq c sel d s = native _ s _) h0
  dsimp only [Who.by_team] at hgives
  rw [H.team] at hgives
  dsimp only at hgives
  rwa [giveAll_eq_answered H.who] at hgives

/-- Settles O54: DXQ's value, by whether the grid is deterministic. -/
theorem gridQueries : Obligations.GridQueries := by
  intro s w t c sel d q g H h0 hg
  have hgives := dxq_gives H h0
  refine ⟨fun hdx => ?_, fun hdx => ?_⟩
  · rwa [State.dxq, hdx] at hgives
  · rwa [State.dxq_deterministic hdx hg] at hgives

end Sys2Proof.Machine
end

section
/-!
PROOFS. Object instructions (O43): PROTLD, OBJDECL and OBJREL, each a fence, an answer for all its fibres, and what its checks let it do.
-/

namespace Sys2Proof.Machine

/-! ### Instructions of a leader that answer all their fibres alike -/

section Objects

variable {s : State} {w : Who} {t : Team} {c : Ctl} {slot : BitVec 3} {d a : Reg} {lead : Nat × Nat}

/-- An instruction of a leader, in order, that changes the part and answers all its fibres alike. -/
theorem gives_answered {i : Instr} {k : Split} {act : Who → State → State} (H : Starts s i w c t) (ho : s.inOrder w c)
    (hl : (w.by (s.performers w c)).leader = some lead) (he : exec i s = native i s (afterOrder (syncBody i k act))) {r : State} {ws : List (RName × Word)}
    (hact : act (w.by (s.performers w c)) s = r.giveAll i (w.by (s.performers w c)) ws) :
    Gives i s w (r.answered i (w.by (s.performers w c)) (s.performers w c) (fun _ => ws)) := by
  have hgives := gives_body H.toIssues he (performers_of_leader hl)
  rwa [afterOrder_ok ho, syncBody_plain H, hact, giveAll_eq_answered H.who] at hgives

/-! ### PROTLD (R320) -/

/-- The part once an image's pages are known, after the fence. -/
def State.protReady (s : State) (w : Who) (c : Ctl) (t : Team) (va : Nat) : State :=
  ((s.spent w c).fillAll t (imagePieces va) .read).fenceBy (w.by (s.performers w c)) t.key .sc .device false

/-- PROTLD judges the image that its leader's operand names, and loads it where nothing is against it. -/
theorem doProtld_ok (H : Starts s (.protld c slot d a) w c t) (hl : (w.by (s.performers w c)).leader = some lead) {va : Nat} {pages : List Leaf}
    (hva : ((s.fibre w.team lead.1 lead.2).get64 w.pos a).toNat = va) (hp : s.protOf t lead.1 va = .ok pages)
    (hsnoop : (s.protReady w c t va).engineSnoops (pages.map (·.pa)) false = none) :
    let r := (s.protReady w c t va).readPieces t.ctx t.die 64 pages
    let judged := r.2.protJudge slot.toNat r.1
    doProtld c slot d a (w.by (s.performers w c)) s = (if judged.1 = 0 then r.2.protLoad slot.toNat r.1 else r.2).giveAll (.protld c slot d a)
      (w.by (s.performers w c)) [(.v d, BitVec.ofNat 32 judged.1), (.v (d + 1), BitVec.ofNat 32 judged.2)] := by
  subst hva
  unfold doProtld
  rw [team_by H, hl]
  dsimp only [Who.by_pos, Who.by_team]
  rw [leaderGate_ok s w c _ _ hp]
  dsimp only
  rw [State.protReady] at hsnoop
  rw [hsnoop]
  rfl

/-! ### OBJDECL (R321) -/

/-- The part once a declaration's shape and pages are known, after the fence. -/
def State.declReady (s : State) (w : Who) (c : Ctl) (t : Team) (x : Decl) : State :=
  (((s.spent w c).fillAll t (x.lines.map (fun e => 128 * e.1)) .maint).keepRec t (shapeOf x.shape).brec).fenceBy (w.by (s.performers w c))
    t.key .sc .device false

section Declares

variable (H : Starts s (.objdecl c slot d a) w c t) (hl : (w.by (s.performers w c)).leader = some lead) {x : Decl}
  (hx : s.declOf t lead.1 ((s.fibre w.team lead.1 lead.2).get w.pos a).toNat = .ok x)
include H hl hx

/-- A declaration that a status ends. -/
theorem doObjdecl_status (hst : (s.declReady w c t x).declStatus slot.toNat x ≠ 0) :
    doObjdecl c slot d a (w.by (s.performers w c)) s = (s.declReady w c t x).giveAll (.objdecl c slot d a) (w.by (s.performers w c))
      [(.v d, BitVec.ofNat 32 ((s.declReady w c t x).declStatus slot.toNat x)), (.v (d + 1), 0)] := by
  unfold doObjdecl
  rw [team_by H, hl]
  dsimp only [Who.by_pos, Who.by_team]
  rw [leaderGate_ok s w c _ _ hx]
  exact if_pos hst

/-- An object is declared under the lowest free ID. -/
theorem doObjdecl_declares (hst : (s.declReady w c t x).declStatus slot.toNat x = 0)
    (hsnoop : (s.declReady w c t x).engineSnoops (x.lines.map (fun e => e.2.pa)) true = none) {id : Nat} (hid : (s.declReady w c t x).freeObj = some id) :
    doObjdecl c slot d a (w.by (s.performers w c)) s = ((s.declReady w c t x).declare t slot.toNat id x).giveAll (.objdecl c slot d a)
      (w.by (s.performers w c)) [(.v d, 0), (.v (d + 1), handleOf ((s.declReady w c t x).obj id).gen id)] := by
  unfold doObjdecl
  rw [team_by H, hl]
  dsimp only [Who.by_pos, Who.by_team]
  rw [leaderGate_ok s w c _ _ hx]
  dsimp only
  rw [State.declReady] at hst hsnoop hid
  rw [if_neg (not_not.2 hst), hsnoop, hid, hst]
  rfl

end Declares

/-- The lowest free object ID. -/
theorem State.freeObj_eq {r : State} {id : Nat} (hlow : id < 4096) (hfree : (r.obj id).v = false) (hleast : ∀ j < id, (r.obj j).v = true) :
    r.freeObj = some id :=
  List.find?_range_eq_some.2 ⟨by simp [hfree], List.mem_range.2 hlow, fun j hj => by simp [hleast j hj]⟩

/-! ### OBJREL (R322) -/

/-- A handle names a declared object of the context, in its generation, that is not being released (R319). -/
def Obj.isNamed (o : Obj) (t : Team) (v : Nat) : Prop := v / 4096 % 16 = 0 ∧ o.v = true ∧ o.rel = false ∧ o.ctx = t.ctx ∧ o.gen = v / 65536

/-- OBJREL's check of its handle is that the object is so named. -/
theorem Obj.isNamed_iff {o : Obj} {t : Team} {v : Nat} :
    (field v 15 12 ≠ 0 || !o.v || o.rel || decide (o.ctx ≠ t.ctx) || decide (o.gen ≠ v / 65536)) = false ↔ o.isNamed t v := by
  simp [Obj.isNamed, field_eq_div_mod, and_assoc]

section Releases

variable (H : Starts s (.objrel c d a) w c t) (hl : (w.by (s.performers w c)).leader = some lead) {v : Nat}
  (hv : ((s.fibre w.team lead.1 lead.2).get w.pos a).toNat = v) {ready : State}
  (hready : s.fenceBy (w.by (s.performers w c)) t.key .sc .device false = ready)
include H hl hv hready

/-- A handle that names no such object. -/
theorem doObjrel_unnamed (hn : ¬ (ready.obj (v % 4096)).isNamed t v) :
    doObjrel c d a (w.by (s.performers w c)) s = ready.giveAll (.objrel c d a) (w.by (s.performers w c)) [(.v d, 1)] := by
  unfold doObjrel
  rw [team_by H, hl]
  dsimp only [Who.by_pos, Who.by_team]
  rw [hv, hready]
  exact if_pos (by rwa [← Obj.isNamed_iff, Bool.not_eq_false] at hn)

variable (hn : (ready.obj (v % 4096)).isNamed t v)
include hn

/-- An object with a line that is locked. -/
theorem doObjrel_locked (hlocked : (ready.obj (v % 4096)).lines.any (fun l => (ready.lockEntry l).isSome) = true) :
    doObjrel c d a (w.by (s.performers w c)) s = ready.giveAll (.objrel c d a) (w.by (s.performers w c)) [(.v d, 2)] := by
  unfold doObjrel
  rw [team_by H, hl]
  dsimp only [Who.by_pos, Who.by_team]
  rw [hv, hready, if_neg (by rw [Obj.isNamed_iff.2 hn]; decide)]
  exact if_pos hlocked

/-- An object that no lock and no copy of the host's bars is released. -/
theorem doObjrel_releases (hfree : (ready.obj (v % 4096)).lines.any (fun l => (ready.lockEntry l).isSome) = false)
    (hsnoop : ready.engineSnoops ((ready.obj (v % 4096)).lines.map (· * 128)) true = none) :
    doObjrel c d a (w.by (s.performers w c)) s = (ready.releaseObject (v % 4096)).giveAll (.objrel c d a) (w.by (s.performers w c)) [(.v d, 0)] := by
  unfold doObjrel
  rw [team_by H, hl]
  dsimp only [Who.by_pos, Who.by_team]
  rw [hv, hready, if_neg (by rw [Obj.isNamed_iff.2 hn]; decide), if_neg (by rw [hfree]; decide), hsnoop]

end Releases

end Objects

/-- Settles O43, by the checks of each instruction, one after another. -/
theorem objectInstructions : Obligations.ObjectInstructions := by
  intro s w t c slot d a lead pages x u f va v gives
  refine ⟨?_, ?_, ?_⟩
  · intro H ho hl hp ready hsnoop
    exact gives_answered H ho hl rfl (doProtld_ok H hl rfl hp hsnoop)
  · intro H ho hl hx ready st
    refine ⟨fun hst => gives_answered H ho hl rfl (doObjdecl_status H hl hx hst), fun id hst hsnoop hlow hfree hleast => ?_⟩
    exact gives_answered H ho hl rfl (doObjdecl_declares H hl hx hst hsnoop (State.freeObj_eq hlow hfree hleast))
  · intro H ho hl ready o known locked
    have hlock : o.lines.any (fun l => (ready.lockEntry l).isSome) = true ↔ locked := by simp [locked, Option.isSome_iff_ne_none]
    have hunlock : ¬ locked → o.lines.any (fun l => (ready.lockEntry l).isSome) = false := fun hfree => by rwa [← hlock, Bool.not_eq_true] at hfree
    exact ⟨fun hn => gives_answered H ho hl rfl (doObjrel_unnamed H hl rfl rfl hn),
      fun hn hlocked => gives_answered H ho hl rfl (doObjrel_locked H hl rfl rfl hn (hlock.2 hlocked)),
      fun hn hfree hsnoop => gives_answered H ho hl rfl (doObjrel_releases H hl rfl rfl hn (hunlock hfree) hsnoop)⟩

end Sys2Proof.Machine
end

section
/-!
PROOFS. Team and cluster barriers (O32): arrivals one after another, and those that complete their episode.
-/

namespace Sys2Proof.Machine

/-! ### What barriers depend on -/

/-- The live fibres of a team, group by group. -/
def Team.lives (t : Team) : List (List Bool) := t.groups.map (fun g => g.fibres.map (·.live))

/-- The number of live fibres. -/
def liveIn (lives : List (List Bool)) : Nat := (lives.map (fun ls => ls.count true)).foldl (· + ·) 0

theorem Team.liveCount_eq (t : Team) : t.liveCount = liveIn t.lives := by
  unfold Team.liveCount liveIn Team.lives
  rw [List.map_map]
  refine congrArg (fun ls : List Nat => ls.foldl (· + ·) 0) (List.map_congr_left fun g _ => ?_)
  simp [List.count, List.countP_map, ← List.countP_eq_length_filter, Function.comp_def]

/-- A team as barriers see it: its grid and cluster, its live fibres, and its own barriers. -/
def Team.barFace (t : Team) : (Nat × Nat) × List (List Bool) × List Barrier := ((t.grid, t.clusid), t.lives, t.bars)

def State.barFaces (s : State) : List (Nat × (Nat × Nat) × List (List Bool) × List Barrier) := s.teams.map (fun e => (e.1, e.2.barFace))

theorem State.barFaces_modTeam (s : State) (t : Nat) {h : Team → Team} (hh : ∀ x, (h x).barFace = x.barFace) : (s.modTeam t h).barFaces = s.barFaces :=
  fmod_map h Team.barFace hh s.teams t

theorem State.barFaces_modGroup (s : State) (t g : Nat) {h : Machine.Group → Machine.Group}
    (hh : ∀ x, (h x).fibres.map Fibre.live = x.fibres.map Fibre.live) : (s.modGroup t g h).barFaces = s.barFaces := by
  have hlives : ∀ x : Team, (x.modGroup g h).lives = x.lives := fun x =>
    List.map_modify_of_eq (fun y : Machine.Group => y.fibres.map Fibre.live) h hh x.groups g
  exact s.barFaces_modTeam t fun x => congrArg (fun lives => ((x.grid, x.clusid), lives, x.bars)) (hlives x)

theorem State.barFaces_modFibre (s : State) (t g l : Nat) {h : Fibre → Fibre} (hh : ∀ f, (h f).live = f.live) : (s.modFibre t g l h).barFaces = s.barFaces :=
  s.barFaces_modGroup t g fun x => List.map_modify_of_eq Fibre.live h hh x.fibres l

theorem barFaces_releaseBlind : ReleaseBlind State.barFaces where
  teams h := by simp only [State.barFaces, h]
  release a t g l op ws := by
    unfold State.release
    rw [State.barFaces_modTeam _ _ (h := fun x : Team => { x with freed := true }) (fun _ => rfl),
      State.barFaces_modGroup _ _ _ (fun x => by rw [Group.settleWaits_fibres]),
      State.barFaces_modFibre _ _ _ _ (h := fun f : Fibre => { f with wait := none, waited := 0, lclk := f.lclk + 1 }) (fun _ => rfl)]
    rfl

/-- Barriers do not see the books of results in flight. -/
theorem State.barFaces_of_calm {s r : State} (h : r.calm = s.calm) : r.barFaces = s.barFaces ∧ r.clusters = s.clusters := by
  have hcalm : ∀ a : State, a.barFaces = a.calm.barFaces := fun a => by
    simp [State.barFaces, State.calm, Team.barFace, Team.lives, Team.calm, Group.calm, Fibre.calm, Function.comp_def]
  exact ⟨by rw [hcalm r, h, ← hcalm s], show r.calm.clusters = s.calm.clusters from congrArg State.clusters h⟩

/-! ### Writing back leaves the clusters -/

theorem State.release_clusters (s : State) (t g l op : Nat) (ws : List (RName × Word)) : (s.release t g l op ws).clusters = s.clusters := by
  unfold State.release
  rw [State.modTeam_clusters, State.modGroup_clusters, State.modFibre_clusters]
  rfl

theorem State.judgeLane_clusters (m : Monitor) (v : Word) (a : State × List HomeEvent) (l : Nat) : (State.judgeLane m v a l).1.clusters = a.1.clusters := by
  have hforsake : ∀ (r : State) (k n : Nat), (r.forsake k n).1.clusters = r.clusters := fun r k n => by
    unfold State.forsake
    split
    · split <;> rfl
    · rfl
  have hacquire : ∀ (r : State) (k : Nat) (uo : Bool), (r.acquireGo k uo).1.clusters = r.clusters := fun _ _ _ => rfl
  unfold State.judgeLane
  split
  · split
    · dsimp only
      split
      · exact ((hforsake _ _ _).trans (hacquire _ _ _)).trans (State.release_clusters _ _ _ _ _ _)
      · exact State.release_clusters _ _ _ _ _ _
    · rfl
  · rfl

theorem State.judgeMon_clusters (s : State) (sk : Nat) (m : Monitor) : (s.judgeMon sk m).1.clusters = s.clusters := by
  have hlanes := ReleaseBlind.foldlFst (p := State.clusters) (List.range 32) (State.judgeLane m (s.word m.pa)) (State.judgeLane_clusters m _) (s, [])
  unfold State.judgeMon
  generalize (List.range 32).foldl (State.judgeLane m (s.word m.pa)) (s, []) = r at hlanes ⊢
  dsimp only at hlanes ⊢
  split <;> exact hlanes

theorem State.judge_clusters (s : State) (pa : Nat) : (s.judge pa).1.clusters = s.clusters := by
  have hnext : ∀ a m, (State.judgeNext (homeKey pa) a m).1.clusters = a.1.clusters := fun a m => by
    rw [← State.judgeMon_clusters a.1 (homeKey pa) m]
    unfold State.judgeNext
    generalize a.1.judgeMon (homeKey pa) m = q
    rfl
  unfold State.judge
  dsimp only
  split
  · rfl
  · exact (ReleaseBlind.foldlFst (p := State.clusters) _ _ hnext _).trans (State.modSlice_clusters _ _ _)

theorem State.hostOut_clusters (s : State) (e : HomeEvent) : (s.hostOut e).clusters = s.clusters := by
  unfold State.hostOut
  split
  · rfl
  · dsimp only
    split
    · unfold State.snoop
      split <;> rfl
    · rfl

theorem State.homeGo_clusters (n : Nat) (ws : List HomeEvent) (s : State) : (State.homeGo n ws s).clusters = s.clusters := by
  induction n generalizing ws s with
  | zero => rfl
  | succ n ih =>
    cases ws with
    | nil => rfl
    | cons e rest => exact (ih _ _).trans ((State.judge_clusters _ _).trans (State.hostOut_clusters s e))

theorem State.homeWrites_clusters (s : State) (ws : List HomeEvent) : (s.homeWrites ws).clusters = s.clusters :=
  State.foldl_keeps (·.clusters) ws _ (fun a e => State.homeGo_clusters 4096 [e] a) s

theorem State.pushLine_barFaces (s : State) (k l : Nat) : (s.pushLine k l).barFaces = s.barFaces ∧ (s.pushLine k l).clusters = s.clusters := by
  unfold State.pushLine
  split
  · exact ⟨rfl, rfl⟩
  · exact ⟨barFaces_releaseBlind.homeWrites _ _, State.homeWrites_clusters _ _⟩

/-- The release side of an arrival leaves what barriers see. -/
theorem State.releaseSide_barFaces (s : State) (k : Nat) (uo : Bool) (sc : Scope) :
    (s.releaseSide k uo sc).barFaces = s.barFaces ∧ (s.releaseSide k uo sc).clusters = s.clusters := by
  unfold State.releaseSide State.pushAll
  split
  · exact ⟨State.foldl_keeps State.barFaces _ _ (fun a (x : L1Line) => (a.pushLine_barFaces k x.line).1) s,
      State.foldl_keeps State.clusters _ _ (fun a (x : L1Line) => (a.pushLine_barFaces k x.line).2) s⟩
  · exact ⟨rfl, rfl⟩

theorem fget_map {α β : Type} (f : α → β) (m : FMap α) (i : Nat) : fget (m.map (fun e => (e.1, f e.2))) i = (fget m i).map f := by
  induction m with
  | nil => rfl
  | cons e m ih =>
    simp only [List.map_cons, fget, ih]
    split <;> rfl

/-- A barrier is a part of what barriers see. -/
theorem State.barrier_of_barFaces {s r : State} {tid : Nat} {t x : Team} (hf : r.barFaces = s.barFaces) (hc : r.clusters = s.clusters)
    (ht : s.team tid = some t) (hx : r.team tid = some x) (cluster : Bool) (id : Nat) : r.barrier x cluster id = s.barrier t cluster id := by
  have hget := congrArg (fun q => fget q tid) hf
  simp only [State.barFaces, fget_map Team.barFace] at hget
  rw [show fget s.teams tid = some t from ht, show fget r.teams tid = some x from hx] at hget
  simp only [Option.map_some, Option.some.injEq, Team.barFace, Prod.mk.injEq] at hget
  obtain ⟨⟨hgrid, hclusid⟩, _, hbars⟩ := hget
  unfold State.barrier State.clusterOf
  rw [hc, hgrid, hclusid, hbars]

/-! ### Seats: what the arrivals of one episode leave -/

/-- What barriers see of teams and clusters, but for the barriers themselves. -/
def State.seats (s : State) : List (Nat × (Nat × Nat) × List (List Bool) × Nat) × List ((Nat × Nat) × Nat) :=
  (s.teams.map (fun e => (e.1, (e.2.grid, e.2.clusid), e.2.lives, e.2.bars.length)), s.clusters.map (fun k => ((k.grid, k.clusid), k.bars.length)))

theorem State.seats_of_barFaces {s r : State} (hf : r.barFaces = s.barFaces) (hc : r.clusters = s.clusters) : r.seats = s.seats := by
  have hseats : ∀ a : State, a.seats =
      (a.barFaces.map (fun e => (e.1, e.2.1, e.2.2.1, e.2.2.2.length)), a.clusters.map (fun k => ((k.grid, k.clusid), k.bars.length))) := fun a => by
    simp [State.seats, State.barFaces, Team.barFace, Function.comp_def]
  rw [hseats r, hf, hc, ← hseats s]

/-- A cluster with a barrier set, where it is the team's. -/
def Cluster.withBar (t : Team) (id : Nat) (b : Barrier) (k : Cluster) : Cluster :=
  if k.grid = t.grid && decide (k.clusid = t.clusid) then { k with bars := k.bars.set id b } else k

theorem State.setBarrier_own (s : State) (tid : Nat) (t : Team) (id : Nat) (b : Barrier) :
    s.setBarrier tid t false id b = s.modTeam tid (fun x => { x with bars := x.bars.set id b }) := rfl

theorem State.setBarrier_cluster (s : State) (tid : Nat) (t : Team) (id : Nat) (b : Barrier) :
    s.setBarrier tid t true id b = { s with clusters := s.clusters.map (Cluster.withBar t id b) } := rfl

theorem Cluster.withBar_seat (t : Team) (id : Nat) (b : Barrier) (k : Cluster) :
    (((k.withBar t id b).grid, (k.withBar t id b).clusid), (k.withBar t id b).bars.length) = ((k.grid, k.clusid), k.bars.length) := by
  unfold Cluster.withBar
  split <;> simp

theorem Cluster.withBar_twice (t : Team) (id : Nat) (b e : Barrier) (k : Cluster) : (k.withBar t id b).withBar t id e = k.withBar t id e := by
  unfold Cluster.withBar
  by_cases h : k.grid = t.grid ∧ k.clusid = t.clusid <;> simp [h]

theorem State.seats_setBarrier (s : State) (tid : Nat) (t : Team) (cluster : Bool) (id : Nat) (b : Barrier) : (s.setBarrier tid t cluster id b).seats = s.seats := by
  cases cluster
  · exact congrArg (fun teams => (teams, s.clusters.map (fun k => ((k.grid, k.clusid), k.bars.length))))
      (fmod_map (fun x : Team => { x with bars := x.bars.set id b }) (fun x : Team => ((x.grid, x.clusid), x.lives, x.bars.length))
        (fun x => by simp [Team.lives]) s.teams tid)
  · rw [State.setBarrier_cluster]
    simp only [State.seats, List.map_map, Function.comp_def, Cluster.withBar_seat]

/-- Two states of a team in the same cluster, with the same live fibres. -/
structure Team.Seated (x t : Team) : Prop where
  grid   : x.grid = t.grid
  clusid : x.clusid = t.clusid
  lives  : x.lives = t.lives
  room   : x.bars.length = t.bars.length

section Seats

variable {s r : State} {tid id : Nat} {t : Team} {cluster : Bool} (hseats : r.seats = s.seats)
include hseats

theorem State.team_of_seats (ht : s.team tid = some t) : ∃ x, r.team tid = some x ∧ x.Seated t := by
  have hget := congrArg (fun q => fget q.1 tid) hseats
  simp only [State.seats, fget_map (fun x : Team => ((x.grid, x.clusid), x.lives, x.bars.length))] at hget
  rw [show fget s.teams tid = some t from ht, Option.map_some, Option.map_eq_some_iff] at hget
  obtain ⟨x, hx, heq⟩ := hget
  simp only [Prod.mk.injEq] at heq
  exact ⟨x, hx, heq.1.1, heq.1.2, heq.2.1, heq.2.2⟩

theorem State.barLive_of_seats {x : Team} (hx : x.Seated t) : r.barLive x cluster = s.barLive t cluster := by
  cases cluster
  · show x.liveCount = t.liveCount
    rw [Team.liveCount_eq, Team.liveCount_eq, hx.lives]
  · have hsum : ∀ (a : State) (y : Team), a.barLive y true =
        (a.seats.1.map (fun e => if e.2.1 = (y.grid, y.clusid) then liveIn e.2.2.1 else 0)).foldl (· + ·) 0 := fun a y => by
      simp [State.barLive, State.seats, Team.liveCount_eq, Function.comp_def]
    rw [hsum, hsum, hseats, hx.grid, hx.clusid]

end Seats

/-- A barrier stands where a team names it. -/
def State.hasBarrier (s : State) (tid : Nat) (t : Team) (cluster : Bool) (id : Nat) : Prop :=
  if cluster then ∃ k, s.clusterOf t = some k ∧ id < k.bars.length else ∃ x, s.team tid = some x ∧ id < x.bars.length

theorem State.hasBarrier_of_seats {s r : State} {tid id : Nat} {t : Team} {cluster : Bool} (hseats : r.seats = s.seats)
    (h : s.hasBarrier tid t cluster id) : r.hasBarrier tid t cluster id := by
  cases cluster
  · obtain ⟨x, hx, hid⟩ := h
    obtain ⟨y, hy, hyx⟩ := State.team_of_seats hseats hx
    exact ⟨y, hy, hyx.room ▸ hid⟩
  · obtain ⟨k, hk, hid⟩ := h
    have hfind : ∀ a : State, (a.clusterOf t).map (·.bars.length) = (a.seats.2.find? (fun e => decide (e.1 = (t.grid, t.clusid)))).map (·.2) := fun a => by
      simp only [State.clusterOf, State.seats, List.find?_map, Option.map_map, Function.comp_def, Prod.mk.injEq, Bool.decide_and]
    have hlen : (r.clusterOf t).map (·.bars.length) = some k.bars.length := by rw [hfind, hseats, ← hfind, hk]; rfl
    obtain ⟨y, hy, hyk⟩ := Option.map_eq_some_iff.mp hlen
    exact ⟨y, hy, hyk ▸ hid⟩

/-! ### Setting a barrier -/

section SetBarrier

variable (a : State) (tid : Nat) (t : Team) (cluster : Bool) (id : Nat)

/-- A barrier is the same whichever state of its team names it. -/
theorem State.setBarrier_seated {x t : Team} (hx : x.Seated t) (b : Barrier) : a.setBarrier tid x cluster id b = a.setBarrier tid t cluster id b := by
  unfold State.setBarrier
  rw [hx.grid, hx.clusid]

theorem State.setBarrier_twice (b e : Barrier) : (a.setBarrier tid t cluster id b).setBarrier tid t cluster id e = a.setBarrier tid t cluster id e := by
  cases cluster
  · have hteams := fmod_twice (fun x : Team => { x with bars := x.bars.set id b }) (fun x => { x with bars := x.bars.set id e }) a.teams tid
    simp only [List.set_set] at hteams
    exact congrArg (fun teams => ({ a with teams := teams } : State)) hteams
  · simp only [State.setBarrier_cluster, List.map_map, Function.comp_def, Cluster.withBar_twice]

/-- What changes a fibre of the team and what sets a barrier go in either order. -/
theorem State.setBarrier_modFibre (g l : Nat) (h : Fibre → Fibre) (b : Barrier) :
    (a.modFibre tid g l h).setBarrier tid t cluster id b = (a.setBarrier tid t cluster id b).modFibre tid g l h := by
  cases cluster
  · refine congrArg (fun teams => ({ a with teams := teams } : State)) ?_
    exact (fmod_twice (fun x => x.modGroup g (fun y => y.modFibre l h)) (fun x : Team => { x with bars := x.bars.set id b }) a.teams tid).trans
      (fmod_twice (fun x : Team => { x with bars := x.bars.set id b }) (fun x => x.modGroup g (fun y => y.modFibre l h)) a.teams tid).symm
  · rfl

/-- A barrier that has been set reads as it was set. -/
theorem State.barrier_setBarrier {a : State} {tid id : Nat} {t x : Team} {cluster : Bool} (hroom : a.hasBarrier tid t cluster id) (b : Barrier)
    (hx : (a.setBarrier tid t cluster id b).team tid = some x) (hseated : x.Seated t) : (a.setBarrier tid t cluster id b).barrier x cluster id = b := by
  cases cluster
  · obtain ⟨y, hy, hid⟩ := hroom
    rw [State.setBarrier_own, State.team_modTeam, if_pos rfl, hy, Option.map_some, Option.some.injEq] at hx
    show x.bars.getD id Barrier.reset = b
    rw [← hx]
    simp [List.getD_eq_getElem?_getD, hid]
  · obtain ⟨k, hk, hid⟩ := hroom
    have hmem := List.find?_some hk
    have hsame : (fun c : Cluster => decide (c.grid = x.grid) && decide (c.clusid = x.clusid)) ∘ Cluster.withBar t id b =
        fun c => decide (c.grid = t.grid) && decide (c.clusid = t.clusid) := funext fun c => by
      have hseat := Cluster.withBar_seat t id b c
      simp only [Prod.mk.injEq] at hseat
      simp only [Function.comp_apply, hseat, hseated.grid, hseated.clusid]
    have hfind : (a.setBarrier tid t true id b).clusterOf x = some (k.withBar t id b) := by
      rw [State.setBarrier_cluster, State.clusterOf, List.find?_map, hsame]
      exact congrArg (Option.map _) hk
    show (((a.setBarrier tid t true id b).clusterOf x).map (fun c => c.bars.getD id Barrier.reset)).getD Barrier.reset = b
    rw [hfind, Cluster.withBar, if_pos hmem]
    simp [List.getD_eq_getElem?_getD, hid]

end SetBarrier

/-! ### Arrivals (R282 to R284) -/

/-- The barrier that an arrival meets: the open episode, or one that it opens. -/
def Barrier.opened (b : Barrier) (op : BarOp) (cnt : Bool) (n : Nat) : Barrier :=
  if b.open_ then b else { Barrier.reset with open_ := true, op := op, cnt := cnt, count := if cnt then n else 0 }

theorem Barrier.opened_open (b : Barrier) (op : BarOp) (cnt : Bool) (n : Nat) : (b.opened op cnt n).open_ = true := by
  unfold Barrier.opened
  split
  · assumption
  · rfl

/-- A fibre waits at a barrier. -/
def State.arrive (s : State) (u : Who) (cluster : Bool) (id : Nat) (uo : Bool) (dst : Option Reg) (o : Nat) (x : Nat × Nat) : State :=
  (s.uncross u.team x.1 [x.2]).waitLane u x.1 x.2 (.bar cluster id uo dst o)

theorem State.arrive_barFaces (s : State) (u : Who) (cluster : Bool) (id : Nat) (uo : Bool) (dst : Option Reg) (o : Nat) (x : Nat × Nat) :
    (s.arrive u cluster id uo dst o x).barFaces = s.barFaces :=
  (State.barFaces_modFibre _ _ _ _ fun f => by split <;> rfl).trans (State.barFaces_modFibre s u.team x.1 x.2 (h := fun f => { f with crossed := [] }) fun _ => rfl)

theorem State.arrive_seats (s : State) (u : Who) (cluster : Bool) (id : Nat) (uo : Bool) (dst : Option Reg) (o : Nat) (x : Nat × Nat) :
    (s.arrive u cluster id uo dst o x).seats = s.seats :=
  State.seats_of_barFaces (s.arrive_barFaces u cluster id uo dst o x) rfl

theorem State.setBarrier_arrive (a : State) (u : Who) (t : Team) (cluster : Bool) (id : Nat) (uo : Bool) (dst : Option Reg) (o : Nat) (x : Nat × Nat)
    (b : Barrier) :
    (a.arrive u cluster id uo dst o x).setBarrier u.team t cluster id b = (a.setBarrier u.team t cluster id b).arrive u cluster id uo dst o x :=
  (State.setBarrier_modFibre _ _ _ _ _ _ _ _ _).trans
    (congrArg (fun r : State => r.waitLane u x.1 x.2 (.bar cluster id uo dst o)) (State.setBarrier_modFibre a u.team t cluster id x.1 x.2 _ b))

/-- Arrivals up to now: the part stands as `a` but for the barrier of the episode, which is `e`. -/
structure InEpisode (s : State) (tid : Nat) (t : Team) (cluster : Bool) (id : Nat) (op : BarOp) (cnt : Bool) (n : Nat) (r a : State) (e : Barrier) : Prop where
  seats : a.seats = s.seats
  same  : ∀ b, r.setBarrier tid t cluster id b = a.setBarrier tid t cluster id b
  bar   : ∀ x, r.team tid = some x → x.Seated t → (r.barrier x cluster id).opened op cnt n = e

section Episode

variable {s : State} {u : Who} {t : Team} {cluster : Bool} {id : Nat} {op : BarOp} {uo cnt : Bool} {d : Reg} {n : Nat}
  (ht : s.team u.team = some t) (hroom : s.hasBarrier u.team t cluster id)
include ht

theorem State.barArrive_inEpisode {r a : State} {e : Barrier} (H : InEpisode s u.team t cluster id op cnt n r a e) {m : Nat} (hm : cnt = true → m = n)
    (v : Word) (o : Nat) (x : Nat × Nat) :
    r.barArrive u cluster op uo cnt id d m v o x.1 x.2 =
      ((a.arrive u cluster id uo (if op = .sync then none else some d) o x).setBarrier u.team t cluster id (e.join (u.team, x.1, x.2) v)).barSettle
        u.team cluster id := by
  have hseats : r.seats = s.seats := by
    rw [← State.seats_setBarrier r u.team t cluster id e, H.same, State.seats_setBarrier, H.seats]
  obtain ⟨y, hy, hyt⟩ := State.team_of_seats hseats ht
  have hcount : (if cnt then m else 0) = if cnt then n else 0 := by split <;> simp_all
  have hopened : (r.barrier y cluster id).opened op cnt m = e := by
    rw [← H.bar y hy hyt, Barrier.opened, Barrier.opened, hcount]
  rw [State.setBarrier_arrive, ← H.same, ← State.setBarrier_arrive, ← hopened]
  unfold State.barArrive
  rw [hy]
  dsimp only
  rw [State.setBarrier_seated _ _ _ _ hyt]
  rfl

include hroom

/-- The episode completes when its arrivals have reached its count. -/
theorem State.barSettle_set {a : State} (hseats : a.seats = s.seats) (e : Barrier) (hopen : e.open_ = true) :
    (a.setBarrier u.team t cluster id e).barSettle u.team cluster id =
      if s.barCount t cluster e ≤ e.waiters.length then (a.setBarrier u.team t cluster id Barrier.reset).barDepart e else a.setBarrier u.team t cluster id e := by
  have hset : (a.setBarrier u.team t cluster id e).seats = s.seats := (State.seats_setBarrier _ _ _ _ _ _).trans hseats
  obtain ⟨y, hy, hyt⟩ := State.team_of_seats hset ht
  have hbar := State.barrier_setBarrier (State.hasBarrier_of_seats hseats hroom) e hy hyt
  have hcount : (a.setBarrier u.team t cluster id e).barCount y cluster e = s.barCount t cluster e := by
    rw [State.barCount, State.barCount, State.barLive_of_seats hset hyt]
  unfold State.barSettle
  rw [hy]
  dsimp only
  rw [hbar, hcount, hopen, Bool.true_and, State.setBarrier_seated _ _ _ _ hyt, State.setBarrier_twice]
  simp only [decide_eq_true_eq]

/-- Arrivals that bring an episode to its count complete it. -/
theorem State.foldl_barArrive (count : Nat × Nat → Nat) (value : Nat × Nat → Word) (o : Nat × Nat → Nat) (P : List (Nat × Nat)) {r a : State} {e : Barrier}
    (H : InEpisode s u.team t cluster id op cnt n r a e) (hopen : e.open_ = true) (hP : P ≠ []) (hn : ∀ x ∈ P, cnt = true → count x = n)
    (hcount : s.barCount t cluster e = e.waiters.length + P.length) :
    P.foldl (fun (r : State) x => r.barArrive u cluster op uo cnt id d (count x) (value x) (o x) x.1 x.2) r =
      ((P.foldl (fun (r : State) x => r.arrive u cluster id uo (if op = .sync then none else some d) (o x) x) a).setBarrier u.team t cluster id
        Barrier.reset).barDepart (P.foldl (fun (e : Barrier) x => e.join (u.team, x.1, x.2) (value x)) e) := by
  induction P generalizing r a e with
  | nil => exact absurd rfl hP
  | cons x xs ih =>
    have hjoined : s.barCount t cluster (e.join (u.team, x.1, x.2) (value x)) = e.waiters.length + (xs.length + 1) := hcount
    have hwaiters : (e.join (u.team, x.1, x.2) (value x)).waiters.length = e.waiters.length + 1 := List.length_append
    have hseats := (a.arrive_seats u cluster id uo (if op = .sync then none else some d) (o x) x).trans H.seats
    have hsettle := State.barSettle_set ht hroom hseats (e.join (u.team, x.1, x.2) (value x)) hopen
    simp only [List.foldl_cons]
    rw [State.barArrive_inEpisode ht H (hn x List.mem_cons_self), hsettle, hjoined, hwaiters]
    cases xs with
    | nil => exact if_pos (by simp)
    | cons y ys =>
      rw [if_neg (by simp)]
      refine ih ⟨hseats, fun b => State.setBarrier_twice _ _ _ _ _ _ _, fun z hz hzt => ?_⟩ hopen (List.cons_ne_nil _ _)
        (fun z hz => hn z (List.mem_cons_of_mem _ hz)) (by rw [hjoined, hwaiters]; simp; omega)
      rw [State.barrier_setBarrier (State.hasBarrier_of_seats hseats hroom) _ hz hzt]
      exact if_pos hopen

end Episode

/-- An arrival that fits the episode it meets is counted, and the next ones meet the episode that it leaves. -/
theorem barTraps_fits {most live n g l : Nat} {op : BarOp} {cnt : Bool} {e : Option (BarOp × Bool × Nat × Nat)} (hn : cnt = true → 0 < n ∧ n ≤ most)
    (he : ∀ y, e = some y → y.1 = op ∧ y.2.1 = cnt ∧ (cnt = true → y.2.2.1 = n)) (rest : List (Nat × Nat × Nat)) :
    barTraps most live op cnt e ((g, l, n) :: rest) =
      if (if cnt then n else live) ≤ (e.map (·.2.2.2)).getD 0 + 1 then barTraps most live op cnt none rest
      else barTraps most live op cnt (some (op, cnt, n, (e.map (·.2.2.2)).getD 0 + 1)) rest := by
  have hcount : (cnt && (decide (n = 0) || decide (most < n))) = false := by
    cases cnt
    · rfl
    · obtain ⟨hpos, hmost⟩ := hn rfl
      simp [hpos.ne', hmost]
  cases e with
  | none =>
    rw [barTraps]
    exact if_neg (by rw [hcount]; simp)
  | some y =>
    obtain ⟨op1, cnt1, n1, k⟩ := y
    obtain ⟨rfl, rfl, hsame⟩ := he _ rfl
    rw [barTraps]
    refine if_neg ?_
    rw [hcount]
    cases cnt1
    · simp
    · simp [show n1 = n from hsame rfl]

/-- Arrivals that bring an episode to its count all fit it (R283). -/
theorem barTraps_nil {most live n : Nat} {op : BarOp} {cnt : Bool} (hmost : cnt = true → 0 < n ∧ n ≤ most) (ls : List (Nat × Nat × Nat)) :
    ∀ e : Option (BarOp × Bool × Nat × Nat), (∀ x ∈ ls, cnt = true → x.2.2 = n) →
      (∀ y, e = some y → y.1 = op ∧ y.2.1 = cnt ∧ (cnt = true → y.2.2.1 = n)) →
      (if cnt then n else live) = (e.map (·.2.2.2)).getD 0 + ls.length → barTraps most live op cnt e ls = [] := by
  induction ls with
  | nil => intro e _ _ _; rw [barTraps]
  | cons x xs ih =>
    intro e hls he hcount
    obtain ⟨g, l, m⟩ := x
    have hm : cnt = true → m = n := hls (g, l, m) List.mem_cons_self
    have htotal : (if cnt then m else live) = if cnt then n else live := by
      split
      · exact hm ‹_›
      · rfl
    rw [barTraps_fits (fun h => hm h ▸ hmost h) (fun y hy => (he y hy).imp_right (And.imp_right fun hsame h => (hsame h).trans (hm h).symm)), htotal, hcount,
      List.length_cons]
    cases xs with
    | nil => rw [barTraps, barTraps, ite_self]
    | cons y ys =>
      rw [if_neg (by simp)]
      refine ih _ (fun z hz => hls z (List.mem_cons_of_mem _ hz)) (fun z hz => ?_) (by rw [hcount]; simp; omega)
      cases hz
      exact ⟨rfl, rfl, hm⟩

/-! ### BAR and CBAR -/

section Bar

variable {s : State} {w : Who} {t : Team} {c : Ctl} {i : Instr} {cluster : Bool} {op : BarOp} {uo cnt : Bool} {id : Nat} {d a b : Reg}

/-- The count and the value with which a fibre arrives. -/
def State.barCounts (s : State) (w : Who) (cnt : Bool) (b : Reg) (x : Nat × Nat) : Nat := if cnt then ((s.fibre w.team x.1 x.2).get w.pos b).toNat else 0
def State.barValue (s : State) (w : Who) (op : BarOp) (a : Reg) (x : Nat × Nat) : Word := if op = .sync then 0 else (s.fibre w.team x.1 x.2).get w.pos a

/-- The open episode of a barrier, as the check of arrivals takes it. -/
def Barrier.episode (b : Barrier) : Option (BarOp × Bool × Nat × Nat) := if b.open_ then some (b.op, b.cnt, b.count, b.waiters.length) else none

theorem Barrier.episode_waiters (b : Barrier) (op : BarOp) (cnt : Bool) (n : Nat) :
    (b.episode.map (·.2.2.2)).getD 0 = (b.opened op cnt n).waiters.length := by
  unfold Barrier.episode Barrier.opened
  split <;> rfl

theorem Barrier.episode_some {b : Barrier} {y : BarOp × Bool × Nat × Nat} (hy : b.episode = some y) (op : BarOp) (cnt : Bool) (n : Nat) :
    y.1 = (b.opened op cnt n).op ∧ y.2.1 = (b.opened op cnt n).cnt ∧ y.2.2.1 = (b.opened op cnt n).count := by
  unfold Barrier.episode at hy
  unfold Barrier.opened
  split at hy
  · cases hy
    simp [*]
  · cases hy

/-- The fibres that do not fit the episode they meet. -/
def State.barBad (s : State) (w : Who) (c : Ctl) (t : Team) (cluster : Bool) (op : BarOp) (cnt : Bool) (id : Nat) (b : Reg) : List (Nat × Nat) :=
  barTraps (if cluster then 24576 else 2048) (s.barLive t cluster) op cnt (s.barrier t cluster id).episode
    ((s.performers w c).map (fun x => (x.1, x.2, s.barCounts w cnt b x)))

/-- The part when those fibres have trapped and the others have released. -/
def State.barLeft (s : State) (w : Who) (c : Ctl) (t : Team) (cluster uo : Bool) (bad : List (Nat × Nat)) : State :=
  (s.trapAll (w.by (s.performers w c)) .mismatch bad).releaseSide t.key uo (if cluster then .cluster else .team)

variable (H : Starts s i w c t) (ho : s.inOrder w c) (hsome : s.performers w c ≠ [])
  (he : exec i s = native i s (afterOrder (syncBody i .fibre (doBar i cluster op uo cnt id d a b))))
include H ho hsome he

theorem bar_gives :
    let bad := s.barBad w c t cluster op cnt id b
    let good := (s.performers w c).filter (fun x => !bad.contains x)
    let q := (s.barLeft w c t cluster uo bad).openOps i (w.by (s.performers w c)) good
    Gives i s w (good.foldl (fun (r : State) x => r.barArrive (w.by (s.performers w c)) cluster op uo cnt id d (s.barCounts w cnt b x) (s.barValue w op a x)
      (opOf q.1 x.1) x.1 x.2) q.2) := by
  have hgives := gives_body H.toIssues he hsome
  rw [afterOrder_ok ho, syncBody_plain H, doBar, team_by H] at hgives
  simp only [openFor_plain H.who] at hgives
  exact hgives

omit he ho hsome in
/-- Releasing and opening operations leave what barriers see. -/
theorem State.barFaces_ready (sc : Scope) (perf : List (Nat × Nat)) :
    ((s.releaseSide t.key uo sc).openOps i (w.by (s.performers w c)) perf).2.barFaces = s.barFaces ∧
    ((s.releaseSide t.key uo sc).openOps i (w.by (s.performers w c)) perf).2.clusters = s.clusters := by
  obtain ⟨hfaces, hclusters⟩ := s.releaseSide_barFaces t.key uo sc
  obtain ⟨hopened, hkept⟩ := State.barFaces_of_calm ((s.releaseSide t.key uo sc).openOps_spec i (w.by (s.performers w c)) perf c H.ctl).2.calm
  exact ⟨hopened.trans hfaces, hkept.trans hclusters⟩

/-- Arrivals that bring an open or new episode to its count complete it. -/
theorem bar_completes :
    let P := s.performers w c
    let start := (s.barrier t cluster id).opened op cnt (s.barCounts w cnt b (P.headD (0, 0)))
    let n := start.waiters.length + P.length
    start.op = op → start.cnt = cnt →
    (if cnt then n ≤ (if cluster then 24576 else 2048) ∧ start.count = n ∧ ∀ x ∈ P, s.barCounts w cnt b x = n else n = s.barLive t cluster) →
    s.hasBarrier w.team t cluster id →
    let q := (s.barLeft w c t cluster uo []).openOps i (w.by P) P
    Gives i s w (((P.foldl (fun (r : State) x => r.arrive (w.by P) cluster id uo (if op = .sync then none else some d) (opOf q.1 x.1) x) q.2).setBarrier
      w.team t cluster id Barrier.reset).barDepart
        (P.foldl (fun (e : Barrier) x => e.join (w.team, x.1, x.2) (s.barValue w op a x)) start)) := by
  intro P start n hop hcnt hn hroom q
  have hpos : 0 < P.length := List.length_pos_of_ne_nil hsome
  have hcount : s.barCount t cluster start = n := by
    rw [State.barCount, hcnt]
    split at hn
    · exact (if_pos ‹_›).trans hn.2.1
    · exact (if_neg ‹_›).trans hn.symm
  have hall : ∀ x ∈ P, cnt = true → s.barCounts w cnt b x = n := fun x hx h => by
    rw [if_pos h] at hn
    exact hn.2.2 x hx
  have hhead : cnt = true → s.barCounts w cnt b (P.headD (0, 0)) = n := hall _ (by
    cases hP : P with
    | nil => exact absurd hP hsome
    | cons x xs => exact List.mem_cons_self)
  have hnone : s.barBad w c t cluster op cnt id b = [] := by
    refine barTraps_nil (n := n) (fun h => ?_) _ _ (fun x hx h => ?_) (fun y hy => ?_) ?_
    · rw [if_pos h] at hn
      exact ⟨by omega, hn.1⟩
    · obtain ⟨z, hz, rfl⟩ := List.mem_map.1 hx
      exact hall z hz h
    · obtain ⟨hyop, hycnt, hycount⟩ := Barrier.episode_some hy op cnt (s.barCounts w cnt b (P.headD (0, 0)))
      refine ⟨hyop.trans hop, hycnt.trans hcnt, fun h => ?_⟩
      rw [if_pos h] at hn
      exact hycount.trans hn.2.1
    · rw [Barrier.episode_waiters _ op cnt (s.barCounts w cnt b (P.headD (0, 0))), List.length_map]
      show (if cnt then n else s.barLive t cluster) = n
      split
      · rfl
      · rw [if_neg ‹_›] at hn
        exact hn.symm
  have hgives := bar_gives H ho hsome he
  dsimp only at hgives
  have hgood : (s.performers w c).filter (fun x => !([] : List (Nat × Nat)).contains x) = s.performers w c := List.filter_eq_self.2 fun _ _ => rfl
  rw [hnone, hgood] at hgives
  obtain ⟨hfaces, hclusters⟩ : q.2.barFaces = s.barFaces ∧ q.2.clusters = s.clusters := State.barFaces_ready H _ P
  have hstart : InEpisode s w.team t cluster id op cnt (s.barCounts w cnt b (P.headD (0, 0))) q.2 q.2 start :=
    ⟨State.seats_of_barFaces hfaces hclusters, fun _ => rfl, fun x hx _ =>
      congrArg (fun e : Barrier => e.opened op cnt _) (State.barrier_of_barFaces hfaces hclusters H.team hx cluster id)⟩
  have hfold := State.foldl_barArrive (u := w.by P) (uo := uo) (d := d) H.team hroom (s.barCounts w cnt b) (s.barValue w op a) (fun x => opOf q.1 x.1) P
    hstart (Barrier.opened_open _ _ _ _) hsome (fun x hx h => (hall x hx h).trans (hhead h).symm) hcount
  exact hfold ▸ hgives

end Bar

/-- Settles O32: the arrivals one after another are BAR's own fold, and by the invariant `InEpisode` those that reach the count find their episode as the
last one leaves it. -/
theorem barriers : Obligations.Barriers := by
  intro s w t c op uo cnt id d a b P u count value arrives
  have hboth : ∀ (i : Instr) (cluster : Bool),
      exec i s = native i s (afterOrder (syncBody i .fibre (doBar i cluster op uo cnt id.toNat d a b))) → arrives i cluster := by
    intro i cluster he H ho hsome
    refine ⟨bar_gives H ho hsome he, fun hop hcnt hn hplace => bar_completes H ho hsome he hop hcnt hn ?_⟩
    cases cluster
    · exact ⟨t, H.team, hplace⟩
    · exact hplace
  exact ⟨hboth _ false rfl, hboth _ true rfl⟩

end Sys2Proof.Machine
end

section
/-!
PROOFS. Lock events (O48): requests as their home decides them, releases, waits that end, absence and presence.
-/

namespace Sys2Proof.Machine

/-! ### The state in which a request is decided -/

/-- A request as its line's home decides it: its slice has begun it, and it is gone. -/
def State.lockStart (s : State) (id : Nat) (r : Req) : State := { s.beginReq id r with reqs := fdel (s.beginReq id r).reqs id }

theorem State.lockStart_team (s : State) (id : Nat) (r : Req) (k : Nat) : (s.lockStart id r).team k = s.team k := State.beginReq_team s id r k

theorem State.lockStart_group (s : State) (id : Nat) (r : Req) (t g : Nat) : (s.lockStart id r).group t g = s.group t g :=
  congrArg (·.bind (fun x : Team => x.groups[g]?)) (s.lockStart_team id r t)

/-! ### A request by the branches of R295 -/

/-- The fibres of a group wait for a lock. -/
def State.parkGroup (a : State) (t g : Nat) (wait : LockWait) (lanes : List (Nat × Reg × Nat)) : State :=
  lanes.foldl (fun (b : State) l => b.parkAtHome t g l.1 .lock) (a.modGroup t g (fun y => { y with lwait := some wait }))

/-- The wait that a request begins, with the times of R304 and R307. -/
def State.lockWait (a : State) (tm : Team) (uo : Bool) (line : Nat) (page : LockPage) (timeout : Word) (lanes : List (Nat × Reg × Nat)) (fifo : Bool) : LockWait :=
  { line := line, uo := uo, page := page, fibres := lanes, absent := false, inFifo := fifo,
    left := if timeout = 0xFFFFFFFF#32 then none
            else some (1024 * (if timeout = 0#32 then (if tm.kern.lktmo = 0 then 65536 else tm.kern.lktmo) else timeout.toNat)),
    probe := if (a.part tm.part).dlprobe.toNat = 0 then none else some (1024 * (a.part tm.part).dlprobe.toNat),
    every := 1024 * (a.part tm.part).dlprobe.toNat, key := [] }

/-- A request outside deterministic grids goes ahead of no waiter that is present (R295, R308). -/
theorem State.noneAhead_nil (a : State) (t : Nat) (queue : List Nat) : a.noneAhead t [] queue = queue.all a.grefAbsent := by
  unfold State.noneAhead
  refine congrArg queue.all (funext fun h => ?_)
  split <;> simp

/-- The part with an entry for the line, where the line has none and one is free (R290). -/
def State.atEntry (a : State) (line : Nat) : State := if (a.slice (homeKey (128 * line))).lockOf line = none then a.openLock line else a

theorem State.atEntry_eq (a : State) (line : Nat) :
    (if ((a.slice (homeKey (128 * line))).lockOf line).isNone = true then a.openLock line else a) = a.atEntry line := by
  simp only [State.atEntry, Option.isNone_iff_eq_none]

/-- The entry of a line, or an empty one. -/
def State.entryAt (a : State) (line : Nat) : LockEntry := (a.lockEntry line).getD ⟨line, false, none, []⟩

/-- The last branches of R295 once the line has its entry: the group takes the lock, or is refused, or waits as `wait` tells. -/
def State.contendAt (there : State) (gr t g : Nat) (try_ uo : Bool) (line : Nat) (page : LockPage) (wait : LockWait) (lanes : List (Nat × Reg × Nat)) : State :=
  if (there.entryAt line).holder.isNone && (there.entryAt line).queue.all there.grefAbsent then
    (there.takeLock t g line uo page).2.lockResult t g (there.takeLock t g line uo page).1 lanes
  else if try_ then there.lockResult t g 2 lanes
  else (there.parkGroup t g wait lanes).enqueue gr line

/-- The last branches of R295: for a line with no entry, where none is free, a place in the overflow FIFO (R306). -/
def State.contend (a : State) (tm : Team) (gr t g : Nat) (try_ uo : Bool) (line : Nat) (page : LockPage) (timeout : Word) (lanes : List (Nat × Reg × Nat)) :
    State :=
  let home := a.slice (homeKey (128 * line))
  let out := (home.lockOf line).isNone && home.freeLock.isNone
  let wait := a.lockWait tm uo line page timeout lanes out
  if out then
    if try_ || decide (256 ≤ home.fifo.length) then (a.modPart tm.part (fun p => { p with nfull := sat16 p.nfull })).lockResult t g 7 lanes
    else State.parkGroup ((a.modPart tm.part (fun p => { p with novfl := sat16 p.novfl })).modSlice (homeKey (128 * line))
      (fun z => { z with fifo := z.fifo ++ [(gr, line)] })) t g wait lanes
  else (a.atEntry line).contendAt gr t g try_ uo line page wait lanes

theorem State.contend_full {a : State} {tm : Team} {gr t g : Nat} {try_ uo : Bool} {line : Nat} {page : LockPage} {timeout : Word}
    {lanes : List (Nat × Reg × Nat)} (hentry : (a.slice (homeKey (128 * line))).lockOf line = none) (hfull : (a.slice (homeKey (128 * line))).freeLock = none)
    (hover : try_ = true ∨ 256 ≤ (a.slice (homeKey (128 * line))).fifo.length) :
    a.contend tm gr t g try_ uo line page timeout lanes = (a.modPart tm.part (fun p => { p with nfull := sat16 p.nfull })).lockResult t g 7 lanes := by
  rw [State.contend, hentry, hfull]
  exact (if_pos rfl).trans (if_pos (by simpa using hover))

theorem State.contend_entry {a : State} {tm : Team} {gr t g : Nat} {try_ uo : Bool} {line : Nat} {page : LockPage} {timeout : Word}
    {lanes : List (Nat × Reg × Nat)} (hroom : (a.slice (homeKey (128 * line))).lockOf line ≠ none ∨ (a.slice (homeKey (128 * line))).freeLock ≠ none) :
    a.contend tm gr t g try_ uo line page timeout lanes =
      (a.atEntry line).contendAt gr t g try_ uo line page (a.lockWait tm uo line page timeout lanes false) lanes := by
  have hin : (((a.slice (homeKey (128 * line))).lockOf line).isNone && (a.slice (homeKey (128 * line))).freeLock.isNone) = false := by
    obtain h | h := hroom <;> simp [Option.isNone_eq_false_iff, Option.isSome_iff_ne_none, h]
  rw [State.contend, hin]
  rfl

section Request

variable {a : State} {t g : Nat} {tm : Team} {x : Machine.Group} {try_ uo : Bool} {line : Nat} {page : LockPage} {timeout : Word} {lanes : List (Nat × Reg × Nat)}
  (ht : a.team t = some tm) (hx : a.group t g = some x)
include ht hx

/-- A line of an object whose protocol admits no locks: NOLOCKS. -/
theorem State.lockRequest_noLocks {o : Nat × Obj} (ho : a.lockObj tm line page.trk = some o) (hno : a.protLocks o.2.pslot = false) :
    a.lockRequest t g try_ uo line page timeout [] lanes = a.lockResult t g 4 lanes := by
  unfold State.lockRequest
  rw [ht, hx]
  dsimp only
  rw [ho]
  exact if_pos (by simp [hno])

variable (hplain : ∀ o, a.lockObj tm line page.trk = some o → a.protLocks o.2.pslot = true)
include hplain

/-- A line that the group holds: RECURSE. -/
theorem State.lockRequest_held (hheld : line ∈ x.held) : a.lockRequest t g try_ uo line page timeout [] lanes = a.lockResult t g 6 lanes := by
  unfold State.lockRequest
  rw [ht, hx]
  dsimp only
  refine (if_neg ?_).trans (if_pos (by simpa using hheld))
  cases ho : a.lockObj tm line page.trk with
  | none => simp
  | some o => simp [hplain o ho]

variable (hheld : line ∉ x.held)
include hheld

/-- A group that holds eight lines, or waits for another: LIMIT. -/
theorem State.lockRequest_limit (hmost : 8 ≤ x.held.length ∨ ∃ w, x.lwait = some w ∧ w.line ≠ line) :
    a.lockRequest t g try_ uo line page timeout [] lanes = a.lockResult t g 5 lanes := by
  unfold State.lockRequest
  rw [ht, hx]
  dsimp only
  refine (if_neg ?_).trans ((if_neg (by simpa using hheld)).trans (if_pos ?_))
  · cases ho : a.lockObj tm line page.trk with
    | none => simp
    | some o => simp [hplain o ho]
  · obtain hmany | ⟨w, hw, hline⟩ := hmost
    · simp [hmany]
    · simp [hw, hline]

variable (hfew : x.held.length < 8) (hwait : x.lwait = none)
include hfew hwait

/-- Any other request contends for the line's entry. -/
theorem State.lockRequest_contends : a.lockRequest t g try_ uo line page timeout [] lanes = a.contend tm x.gref t g try_ uo line page timeout lanes := by
  unfold State.lockRequest
  rw [ht, hx]
  dsimp only
  refine (if_neg ?_).trans ((if_neg (by simpa using hheld)).trans ((if_neg (by simp [hwait, hfew])).trans ((if_neg (by simp [hwait])).trans ?_)))
  · cases ho : a.lockObj tm line page.trk with
    | none => simp
    | some o => simp [hplain o ho]
  · rw [State.contend, State.contendAt, State.noneAhead_nil, ← State.atEntry_eq]
    rfl

end Request

/-! ### The last branches at an entry -/

section Contends

variable {a : State} {gr t g : Nat} {try_ uo : Bool} {line : Nat} {page : LockPage} {wait : LockWait} {lanes : List (Nat × Reg × Nat)}

/-- A line that nobody holds, with only absent waiters: the group takes it. -/
theorem State.contendAt_free (hfree : (a.entryAt line).holder = none) (habsent : ∀ h ∈ (a.entryAt line).queue, a.grefAbsent h = true) :
    a.contendAt gr t g try_ uo line page wait lanes = (a.takeLock t g line uo page).2.lockResult t g (a.takeLock t g line uo page).1 lanes :=
  if_pos (by simpa [hfree] using habsent)

variable (hbusy : (a.entryAt line).holder ≠ none ∨ ∃ h ∈ (a.entryAt line).queue, a.grefAbsent h = false)
include hbusy

theorem State.contendAt_busy : a.contendAt gr t g try_ uo line page wait lanes =
    if try_ then a.lockResult t g 2 lanes else (a.parkGroup t g wait lanes).enqueue gr line := by
  refine if_neg ?_
  rw [Bool.and_eq_true, Option.isNone_iff_eq_none, List.all_eq_true]
  rintro ⟨hnone, hall⟩
  obtain hheld | ⟨h, hmem, hpresent⟩ := hbusy
  · exact hheld hnone
  · rw [hall h hmem] at hpresent
    cases hpresent

end Contends

/-! ### The events -/

/-- The fibres of a request and what they write, with the operation they complete. -/
def Req.lockLanes (r : Req) (lanes : List (Nat × Reg)) : List (Nat × Reg × Nat) := lanes.map (fun l => (l.1, l.2, r.op))

section Events

variable {s : State} (ha : s.Alive)
include ha

theorem happens_lockRequest {id line : Nat} {r : Req} {try_ uo : Bool} {page : LockPage} {timeout : Word} {lanes : List (Nat × Reg)}
    (hr : fget s.reqs id = some r) (hk : r.kind = .lock try_ uo line page timeout lanes) (hready : s.lockReady id r line 4 = true)
    (hbars : (s.beginReq id r).hostBars line true = false) :
    Happens (.lockRequestAtHome id) s (((s.lockStart id r).lockRequest r.team r.grp try_ uo line page timeout [] (r.lockLanes lanes)).lockDecided r line 4) := by
  show execLockRequestAtHome id s = _
  rw [execLockRequestAtHome, ha.event]
  simp only [hr, hk, hready, hbars, Bool.not_true, Bool.false_eq_true, if_false]
  rfl

theorem happens_unlock {id line : Nat} {r : Req} {uo : Bool} {page : LockPage} {lanes : List (Nat × Reg)}
    (hr : fget s.reqs id = some r) (hk : r.kind = .unlock uo line page lanes) (hready : s.lockReady id r line 1 = true)
    (hbars : (s.beginReq id r).hostBars line true = false) :
    Happens (.unlockAtHome id) s (((s.lockStart id r).unlockRequest r.team r.grp uo line (r.lockLanes lanes)).lockDecided r line 1) := by
  show execUnlockAtHome id s = _
  rw [execUnlockAtHome, ha.event]
  simp only [hr, hk, hready, hbars, Bool.not_true, Bool.false_eq_true, if_false]
  rfl

variable {team grp : Nat} {t : Team} {x : Machine.Group} {w : LockWait} (ht : s.team team = some t) (hx : s.group team grp = some x)
  (hw : x.lwait = some w)

include hx hw

omit ha in
theorem State.freeWait_of_waits (hkey : w.key = []) : s.freeWait team grp = some w := by simp [State.freeWait, hx, hw, hkey]

omit ha in
theorem State.lockExpire_of_waits : s.lockExpire team grp = ((s.leaveQueue team grp).endWait team grp 2).tidyLock w.line := by
  simp [State.lockExpire, hx, hw]

theorem happens_lockTimeout (hkey : w.key = []) (hpresent : w.absent = false) (hleft : w.left = some 0) (hturn : s.lockLate w.line 2 = false) :
    Happens (.lockTimeout team grp) s ((((s.leaveQueue team grp).endWait team grp 2).tidyLock w.line).lockTurn w.line 2) := by
  show execLockTimeout team grp s = _
  rw [execLockTimeout, ha.event]
  simp [State.freeWait_of_waits hx hw hkey, State.lockExpire_of_waits hx hw, hpresent, hleft, hturn]

theorem happens_deadlockProbe (hkey : w.key = []) (hnext : s.nextProbe = some (team, grp, w.line)) (hdue : ∀ y ∈ s.dueWaits (·.left), y.2.2 ≠ w.line)
    (hturn : s.lockLate w.line 3 = false) :
    Happens (.deadlockProbe team grp) s (((s.lockProbe team grp).rearmProbe team grp).lockTurn w.line 3) := by
  have hnone : (s.dueWaits (·.left)).any (fun y => decide (y.2.2 = w.line)) = false := by simpa using hdue
  show execDeadlockProbe team grp s = _
  rw [execDeadlockProbe, ha.event]
  simp [State.freeWait_of_waits hx hw hkey, hnext, hnone, hturn]

include ht

theorem happens_absenceArrive (haway : s.away t = true) (hpresent : w.absent = false) (hturn : s.lockLate w.line 0 = false) :
    Happens (.absenceArrive team grp) s
      ((s.modGroup team grp (fun y => { y with lwait := y.lwait.map (fun (v : LockWait) => { v with absent := true }) })).lockTurn w.line 0) := by
  show execAbsenceArrive team grp s = _
  rw [execAbsenceArrive, ha.event]
  simp [ht, hx, hw, haway, hpresent, hturn]

theorem happens_presenceArrive (hback : s.away t = false) (habsent : w.absent = true) (hturn : s.lockLate w.line 0 = false) :
    Happens (.presenceArrive team grp) s
      (((s.modGroup team grp (fun y => { y with lwait := y.lwait.map (fun (v : LockWait) => { v with absent := false }) })).lockTurn w.line 0).waiterPresent
        team grp) := by
  show execPresenceArrive team grp s = _
  rw [execPresenceArrive, ha.event]
  simp [ht, hx, hw, hback, habsent, hturn]

omit hx hw in
theorem happens_lockholdMaxExpiry {since most : Nat} (hdefer : t.defer = some (since, most)) (hover : since + 1024 * most ≤ s.now) :
    Happens (.lockholdMaxExpiry team) s (s.modTeam team (fun y => { y with defer := none })) := by
  show execLockholdMaxExpiry team s = _
  rw [execLockholdMaxExpiry, ha.event]
  simp [ht, Team.deferEnd, hdefer, hover]

end Events

/-- Settles O48: a request by the branches of R295 one after another, and each other event by what it does where its conditions hold. -/
theorem lockEvents : Obligations.LockEvents := by
  intro s id line r t x uo ha ht hx begun start home open_
  have hstart : start = s.lockStart id r := rfl
  have hhome : home = start.slice (homeKey (128 * line)) := rfl
  clear_value home start
  subst hhome hstart
  have hteam : (s.lockStart id r).team r.team = some t := (s.lockStart_team id r _).trans ht
  have hgroup : (s.lockStart id r).group r.team r.grp = some x := (s.lockStart_group id r _ _).trans hx
  refine ⟨fun try_ page timeout lanes hr hk ⟨hready, hbars⟩ => ?_, fun page lanes hr hk ⟨hready, hbars⟩ => ?_, fun w hw => happens_lockTimeout ha hx hw,
    fun w hw => happens_deadlockProbe ha hx hw, fun w hw => happens_absenceArrive ha ht hx hw, fun w hw => happens_presenceArrive ha ht hx hw,
    fun since most => happens_lockholdMaxExpiry ha ht⟩
  · have hends := happens_lockRequest ha hr hk hready hbars
    intro plain results ends
    refine ⟨fun ⟨o, ho, hno⟩ => ?_, fun hplain hheld => ?_, fun hplain hheld hmost => ?_, fun hplain hheld hfew hwait hentry hfull hover => ?_,
      fun hplain hheld hfew hwait hroom => ?_⟩
    · rwa [State.lockRequest_noLocks hteam hgroup ho hno] at hends
    · rwa [State.lockRequest_held hteam hgroup hplain hheld] at hends
    · rwa [State.lockRequest_limit hteam hgroup hplain hheld hmost] at hends
    · rw [State.lockRequest_contends hteam hgroup hplain hheld hfew hwait, State.contend_full hentry hfull hover] at hends
      exact hends
    · rw [State.lockRequest_contends hteam hgroup hplain hheld hfew hwait, State.contend_entry hroom] at hends
      refine ⟨fun hfree habsent => ?_, fun hbusy => ?_⟩
      · rwa [State.contendAt_free (a := (s.lockStart id r).atEntry line) hfree habsent] at hends
      · rw [State.contendAt_busy (a := (s.lockStart id r).atEntry line) hbusy] at hends
        refine ⟨fun htry => ?_, fun htry => ?_⟩
        · rwa [if_pos htry] at hends
        · rw [if_neg (by simp [htry]), State.parkGroup, Req.lockLanes, List.foldl_map] at hends
          exact hends
  · have hends := happens_unlock ha hr hk hready hbars
    unfold State.unlockRequest at hends
    rw [hteam, hgroup] at hends
    simp only [List.contains_iff_mem] at hends
    exact hends

end Sys2Proof.Machine
end

section
/-!
PROOFS. Protocol events (O50): requests that a part serves, lines that agents drop and write back, acknowledgements, the host, and retention.
-/

namespace Sys2Proof.Machine

section Protocol

variable {s : State} (ha : s.Alive)

/-! ### Requests that a part serves (R314) -/

/-- What a part does with its next request: it serves it, where the host directory has room for what it gives the host (R326). -/
def State.served (s : State) (sk obj i : Nat) (rq : PReq) : State := if s.hostFits rq then s.partServe sk obj i rq else s.hostLru (rq.pa / 128)

theorem State.serveIf_next {sk obj i : Nat} {rq : PReq} {ok : PReq → Bool} (hnext : s.partNext sk obj = some (i, rq)) (hok : ok rq = true) :
    s.serveIf sk obj ok = s.served sk obj i rq := by
  rw [State.serveIf, hnext]
  exact if_neg (by simp [hok])

include ha

/-- RD, WR0 and WR1 are served by the event that the next request raises. -/
theorem happens_serves {e : Instr} {die slice obj i n : Nat} {rq : PReq}
    (he : exec e s = event s (fun s => s.serveIf (sliceKey die slice) obj (fun q => decide (s.reqEvent q = n))))
    (hnext : s.partNext (sliceKey die slice) obj = some (i, rq)) (hraises : s.reqEvent rq = n) :
    Happens e s (s.served (sliceKey die slice) obj i rq) := by
  rw [Happens, he, ha.event, State.serveIf_next hnext (decide_eq_true hraises)]

/-! ### Agents that drop and write back lines (R314) -/

section Agents

variable {die slice obj agent k line : Nat} (hv : (s.obj obj).v = true)
include hv

theorem happens_evc_host (hholds : ∃ e ∈ (s.slice (sliceKey die slice)).hostdir, e.1 ∈ (s.obj obj).linesAt (sliceKey die slice)) :
    Happens (.evc die slice obj 73) s ((s.modSlice (sliceKey die slice) (fun z =>
      { z with hostdir := z.hostdir.filter (fun e => !((s.obj obj).linesAt (sliceKey die slice)).contains e.1) })).partEvent (sliceKey die slice) obj 3
        ⟨.note 3, 73, 0, 0, 128 * ((s.obj obj).linesAt (sliceKey die slice)).headD 0⟩) := by
  have hany : ((s.slice (sliceKey die slice)).hostdir.any (fun e => ((s.obj obj).linesAt (sliceKey die slice)).contains e.1)) = true := by
    simpa using hholds
  show execEvc die slice obj 73 s = _
  rw [execEvc, ha.event]
  simp only [hv, hany, Bool.not_true, Bool.false_eq_true, if_false, if_true]

theorem happens_evc_core (hagent : agent ≠ 73) (hcore : s.agentCores (sliceKey die slice) agent = [k]) :
    Happens (.evc die slice obj agent) s (((s.core k).l1.filter (fun x => decide (x.obj = some (obj, (s.obj obj).gen)) &&
      ((s.obj obj).linesAt (sliceKey die slice)).contains x.line && !(s.core k).pins.contains x.line)).foldl
        (fun (a : State) x => a.dropTracked k obj x.line) s) := by
  show execEvc die slice obj agent s = _
  rw [execEvc, ha.event]
  simp only [hv, hagent, hcore, Bool.not_true, Bool.false_eq_true, if_false, List.foldl_cons, List.foldl_nil]

theorem happens_wb {x : L1Line} (hline : line ∈ (s.obj obj).linesAt (sliceKey die slice)) (hcore : s.agentCores (sliceKey die slice) agent = [k])
    (hx : (s.core k).line line = some x) (hobj : x.obj = some (obj, (s.obj obj).gen)) :
    Happens (.wb die slice obj agent line) s (s.wbTracked k obj line) := by
  show execWb die slice obj agent line s = _
  rw [execWb, ha.event]
  simp [hv, hline, hcore, hx, hobj]

end Agents

/-! ### Acknowledgements (R316), and messages of an earlier incarnation (R327) -/

omit ha in
theorem State.hostAnswered_of_quiet {sk obj : Nat} (hquiet : ∀ l ∈ (s.obj obj).linesAt sk, l ∉ s.snoops) : s.hostAnswered sk obj = true := by
  simpa [State.hostAnswered] using hquiet

theorem happens_ack {die slice obj : Nat} (hquiet : ∀ l ∈ (s.obj obj).linesAt (sliceKey die slice), l ∉ s.snoops) :
    Happens (.ack die slice obj) s (s.partAck (sliceKey die slice) obj) := by
  show execAck die slice obj s = _
  rw [execAck, ha.event]
  simp only [State.hostAnswered_of_quiet hquiet, if_true]

/-- An entry whose acknowledgements have come finishes its request, and the part goes to the state of its ACK entry (R316). -/
def State.acked (s : State) (sk obj y : Nat) (rq : PReq) : State :=
  let done := (s.setObjPart sk obj { s.objPart sk obj with second := none }).partFinish sk obj y rq
  ((done.modObjPart sk obj (fun p => { p with state := field (done.protEntry (done.obj obj).pslot (done.objPart sk obj).state 5) 2 0 })).relServe
    sk obj).finishRelease obj

omit ha in
theorem State.partAck_second {sk obj : Nat} {y : BitVec 32} {rq : PReq} (hsecond : (s.objPart sk obj).second = some (y, rq)) :
    s.partAck sk obj = if s.hostFits rq then s.acked sk obj y.toNat rq else s.hostLru (rq.pa / 128) := by
  unfold State.partAck
  dsimp only
  rw [hsecond]
  cases hfits : s.hostFits rq
  · exact if_pos (by simp [hfits])
  · exact if_neg (by simp [hfits])

/-- A die counts a message that it drops. -/
def Die.countStale (kind : MsgKind) (d : Die) : Die :=
  match kind with
  | .ack => { d with staleack := satWord d.staleack }
  | .writeBack => { d with stalewb := satWord d.stalewb }
  | .other => d

theorem happens_stale {die agent : Nat} {inc : BitVec 8} (kind : MsgKind) (hstale : (s.die die).incOf agent ≠ inc) :
    Happens (.staleMessage die kind agent inc) s (s.modDie die (Die.countStale kind)) := by
  show execStaleMessage die kind agent inc s = _
  rw [execStaleMessage, ha.event]
  exact congrArg (fun a : State => Host.Outcome.next a.runKills) (if_neg hstale)

/-! ### Accesses of the host (R326) -/

/-- The addresses that a host access touches. -/
def hostRun : HostAcc → Nat × Nat
  | .read pa n => (pa, n)
  | .own pa => (pa, 1)
  | .write pa bs => (pa, bs.length)

theorem happens_hostMemoryAccess {acc : HostAcc} (hup : s.mileskDown = false) (hsome : 0 < (hostRun acc).2)
    (hmem : s.deviceMem (hostRun acc).1 (hostRun acc).2 = true) :
    Happens (.hostMemoryAccess acc) s ((linesOf (hostRun acc).1 (hostRun acc).2).foldl (fun (a : State) l => a.hostLine acc l) s) := by
  show execHostMemoryAccess acc s = _
  unfold execHostMemoryAccess
  rw [ha.event]
  exact congrArg (fun a : State => Host.Outcome.next a.runKills) (if_neg (by
    show ¬ (decide ((hostRun acc).2 = 0) || !s.deviceMem (hostRun acc).1 (hostRun acc).2 || s.mileskDown) = true
    simp [hup, hmem, hsome.ne']))

section HostWrite

variable {pa line : Nat} {bytes : List Byte} (hsome : bytes ≠ []) (hpresent : s.present pa bytes.length = true) (hkind : memKind pa = some .host)
  (hline : linesOf pa bytes.length = [line])
include hsome hpresent hkind hline

theorem happens_hostLineWrite_untracked (hany : s.objAny line = none) :
    Happens (.hostLineWrite pa bytes) s (s.homeWrite (chunkIn pa bytes line).1 (chunkIn pa bytes line).2) := by
  show execHostLineWrite pa bytes s = _
  rw [execHostLineWrite, ha.event]
  simp [hsome, hpresent, hkind, hline, hany]

theorem happens_hostLineWrite_tracked {obj : Nat} {x : Obj} (hany : s.objAny line = some (obj, x)) :
    Happens (.hostLineWrite pa bytes) s (s.partQueue obj ⟨.hostOwn (chunkIn pa bytes line).2, 73, 0, 0, (chunkIn pa bytes line).1⟩) := by
  show execHostLineWrite pa bytes s = _
  rw [execHostLineWrite, ha.event]
  simp [hsome, hpresent, hkind, hline, hany]

end HostWrite

/-! ### Answers to snoops (R326) -/

/-- The owner of a part was asked to keep a line that it shares. -/
def State.hostKeeps (s : State) (line : Nat) : Bool :=
  match s.objAny line with
  | some (obj, _) => (match (s.objPart (homeKey (128 * line)) obj).second with
    | some (y, _) => act y.toNat 7 && (s.objPart (homeKey (128 * line)) obj).shr.getLsbD 73
    | none => false)
  | none => false

/-- What device agents have written to a snooped line since it was asked for. -/
def State.written (s : State) (line : Nat) : HomeEvent := (s.snooped.filter (fun x => decide (x.1 = line))).map (·.2)

/-- A snoop has been answered: the host keeps the copies `left` of the line. -/
def State.snoopDone (s : State) (line : Nat) (left : List (Nat × Bool)) : State :=
  State.modSlice { s with snoops := s.snoops.filter (fun l => decide (l ≠ line)), snooped := s.snooped.filter (fun x => decide (x.1 ≠ line)) }
    (homeKey (128 * line)) (fun z => { z with hostdir := z.hostdir.filter (fun e => decide (e.1 ≠ line)) ++ left })

/-- The host's copy of a line is gone from the part of its object, where it has one. -/
def State.hostGone (s : State) (line : Nat) : State :=
  match s.objAny line with
  | some (obj, _) => s.goneFrom (homeKey (128 * line)) obj 73 line
  | none => s

section HostCopies

variable {line obj : Nat} {x : Obj}

omit ha in
theorem State.hostKeeps_of_untracked (hany : s.objAny line = none) : s.hostKeeps line = false := by
  rw [State.hostKeeps, hany]

omit ha in
theorem State.hostKeeps_of_settled (hany : s.objAny line = some (obj, x)) (hsecond : (s.objPart (homeKey (128 * line)) obj).second = none) :
    s.hostKeeps line = false := by
  rw [State.hostKeeps, hany]
  dsimp only
  rw [hsecond]

omit ha in
theorem State.hostKeeps_of_downgrade {y : BitVec 32} {rq : PReq} (hany : s.objAny line = some (obj, x))
    (hsecond : (s.objPart (homeKey (128 * line)) obj).second = some (y, rq)) (hdown : act y.toNat 7 = true)
    (hshares : (s.objPart (homeKey (128 * line)) obj).shr.getLsbD 73 = true) : s.hostKeeps line = true := by
  rw [State.hostKeeps, hany]
  dsimp only
  rw [hsecond]
  exact Bool.and_eq_true_iff.mpr ⟨hdown, hshares⟩

omit ha in
theorem State.snoopDone_objAny (left : List (Nat × Bool)) (l : Nat) : (s.snoopDone line left).objAny l = s.objAny l := rfl

omit ha in
theorem State.hostGone_of_untracked (hany : s.objAny line = none) : s.hostGone line = s := by
  rw [State.hostGone, hany]

omit ha in
theorem State.hostGone_of_tracked (hany : s.objAny line = some (obj, x)) : s.hostGone line = s.goneFrom (homeKey (128 * line)) obj 73 line := by
  rw [State.hostGone, hany]

end HostCopies

section Snoops

variable {line : Nat} (hasked : line ∈ s.snoops)
include hasked

theorem happens_bisnpResponse_clean :
    Happens (.bisnpResponse line none) s ((s.snoopDone line (if s.hostKeeps line then [(line, false)] else [])).hostGone line).retryWords := by
  show execBisnpResponse line none s = _
  rw [execBisnpResponse, ha.event]
  exact congrArg (fun a : State => Host.Outcome.next a.runKills) (if_neg (by simpa using hasked))

theorem happens_bisnpResponse_data {bytes : List Byte} (hlen : bytes.length = 128) (hexcl : s.hostExcl line = true) :
    Happens (.bisnpResponse line (some bytes)) s
      (((s.snoopDone line (if s.hostKeeps line then [(line, false)] else [])).homeWrites [(128 * line, bytes) :: s.written line]).hostGone line).retryWords := by
  show execBisnpResponse line (some bytes) s = _
  rw [execBisnpResponse, ha.event]
  refine congrArg (fun a : State => Host.Outcome.next a.runKills) ((if_neg (by simpa using hasked)).trans ?_)
  simp only [hexcl, hlen, decide_true, Bool.and_self, if_true]
  rfl

end Snoops

/-! ### Retention (R324, R325, R398) -/

theorem happens_retentionEnter {die core : Nat} (hcore : core < 72) (hawake : (s.core (coreKey die core)).asleep = false)
    (hidle : s.coreBusy (coreKey die core) = false) (hmay : s.alwaysOn (coreKey die core) = false) (hlong : (s.core (coreKey die core)).idle + 8192 ≤ s.now) :
    Happens (.retentionEnter die core) s ((s.flushCore (coreKey die core)).modCore (coreKey die core) (fun c =>
      { c with asleep := true, slog := [], sover := false, sall := false })) := by
  show execRetentionEnter die core s = _
  rw [execRetentionEnter, ha.event]
  exact congrArg (fun a : State => Host.Outcome.next a.runKills) (if_neg (by simp [hcore, hawake, hidle, hmay, hlong]))

theorem happens_retentionWake {die core : Nat} : Happens (.retentionWake die core) s (s.wake (coreKey die core)) := by
  show execRetentionWake die core s = _
  rw [execRetentionWake, ha.event]

end Protocol

/-- Settles O50: each event does what it says where its conditions hold. That the bytes of writes are laid over the host's answer is the model's own choice
(log 49), and the 8,192 idle clocks are reference clocks by log 44. -/
theorem protocolEvents : Obligations.ProtocolEvents := by
  intro s die slice obj agent core line j rq inc y bytes pa ha sk o lines k
  refine ⟨fun hnext => ?_, happens_evc_host ha, happens_evc_core ha, fun x hv hline hcore hx => happens_wb ha hv hline hcore hx, fun hquiet hsecond => ?_,
    fun hstale => ⟨happens_stale ha .ack hstale, happens_stale ha .writeBack hstale, happens_stale ha .other hstale⟩,
    fun hup => ⟨fun hsome => ?_, ?_, ?_⟩, fun hasked => ?_, fun hsome hpresent hkind hline => ?_, happens_retentionEnter ha, ?_⟩
  · exact ⟨happens_serves ha rfl hnext, happens_serves ha rfl hnext, happens_serves ha rfl hnext⟩
  · have hack := happens_ack ha hquiet
    rw [State.partAck_second hsecond] at hack
    refine ⟨fun hfits => ?_, fun hfull => ?_⟩
    · rw [if_pos hfits] at hack
      exact hack
    · rw [if_neg (by simp [hfull])] at hack
      exact hack
  · exact happens_hostMemoryAccess ha (acc := .write pa bytes) hup (List.length_pos_of_ne_nil hsome)
  · exact happens_hostMemoryAccess ha (acc := .read pa j) hup
  · exact happens_hostMemoryAccess ha (acc := .own pa) hup Nat.one_pos
  · have hclean := happens_bisnpResponse_clean ha hasked
    refine ⟨fun hany => ?_, fun x hany => ?_⟩
    · have hkeeps := State.hostKeeps_of_untracked hany
      refine ⟨?_, fun hlen hexcl hgone => ?_⟩
      · rw [hkeeps, State.hostGone_of_untracked ((State.snoopDone_objAny _ _).trans hany)] at hclean
        exact hclean
      · have hdata := happens_bisnpResponse_data ha hasked hlen hexcl
        have huntracked : ((s.snoopDone line []).homeWrites [(128 * line, bytes) :: s.written line]).objAny line = none := hgone
        rw [hkeeps, if_neg Bool.false_ne_true, State.hostGone_of_untracked huntracked] at hdata
        exact hdata
    · rw [State.hostGone_of_tracked ((State.snoopDone_objAny _ _).trans hany)] at hclean
      refine ⟨fun hsecond => ?_, fun hsecond hdown hshares => ?_⟩
      · rw [State.hostKeeps_of_settled hany hsecond] at hclean
        exact hclean
      · rw [State.hostKeeps_of_downgrade hany hsecond hdown hshares] at hclean
        exact hclean
  · exact ⟨happens_hostLineWrite_untracked ha hsome hpresent hkind hline, fun x => happens_hostLineWrite_tracked ha hsome hpresent hkind hline⟩
  · exact happens_retentionWake ha

end Sys2Proof.Machine
end

section
/-!
PROOFS. The fault queue (O46): a miss posted to the ring, answers by tag, and the writes of its registers.
-/

namespace Sys2Proof.Machine

-- One theorem at a time: the memory of a compile of the whole text is limited.
set_option Elab.async false

section FaultQueue

variable {s : State} {die : Nat} {r : FaultRec}

/-- An answer to a tag that is out reaches the record of that tag, which leaves the queue (R181). -/
theorem State.fqAnswer_out {tag : Nat} (h : (s.die die).fqout.find? (fun k => decide (k.tag = tag)) = some r) (fail : Bool) :
    s.fqAnswer die tag fail = (s.modDie die (fun x => { x with fqout := x.fqout.filter (fun k => decide (k.tag ≠ tag)) })).answer r fail := by
  rw [State.fqAnswer, h]

/-- An answer to a tag that is not out is noted, and is lost (R181). -/
theorem State.fqAnswer_unknown {tag : Nat} (h : ∀ k ∈ (s.die die).fqout, k.tag ≠ tag) (fail : Bool) :
    s.fqAnswer die tag fail = s.modDie die (fun x => { x with badtag := true }) := by
  have hnone : (s.die die).fqout.find? (fun k => decide (k.tag = tag)) = none := List.find?_eq_none.2 fun k hk => by simpa using h k hk
  rw [State.fqAnswer, hnone]

/-- FQLOG2 changes to a size of the register's range, and only while FQEN is 0; FQEN is not set while FQBASE is misaligned (R181). -/
theorem Die.fqControl_eq (d : Die) (v : DWord) : d.fqControl v.toNat =
    { d with fqlog2 := if d.fqen = false ∧ 6 ≤ v.toNat / 2 % 16 ∧ v.toNat / 2 % 16 ≤ 12 then v.toNat / 2 % 16 else d.fqlog2,
             fqen := v.getLsbD 0 && (d.fqen || decide (d.fqbase.toNat % 4096 = 0)) } := by
  simp only [Die.fqControl, field_eq_div_mod, Bool.and_eq_true, Bool.not_eq_true', decide_eq_true_eq, and_assoc]
  rfl

variable (ha : s.Alive)
include ha

/-- The ring is enabled and has room: the first miss that waits is written at FQWR (R181). -/
theorem happens_faultRecordPost {rest : List FaultRec} (hwait : (s.die die).fqwait = r :: rest) (hen : (s.die die).fqen = true)
    (hroom : (s.die die).fqwr - (s.die die).fqrd ≠ BitVec.ofNat 32 (2 ^ (s.die die).fqlog2)) :
    Happens (.faultRecordPost die) s
      (((s.homeWrite ((s.die die).fqbase.toNat + 32 * ((s.die die).fqwr.toNat % 2 ^ (s.die die).fqlog2)) r.bytes).modDie die (fun x =>
        { x with fqwait := rest, fqout := x.fqout ++ [r], fqwr := x.fqwr + 1 })).irq 3 die (((s.die die).fqwr.toNat + 1) % 65536)) := by
  show execFaultRecordPost die s = _
  rw [execFaultRecordPost, ha.event]
  simp only [hwait, hen, Die.fqFull, hroom, Bool.not_true, decide_false, Bool.or_self, Bool.false_eq_true, if_false]

theorem happens_answerRetry (tag : BitVec 16) : Happens (.answerRetry die tag) s (s.fqAnswer die tag.toNat false) := by
  show execAnswerRetry die tag s = _
  rw [execAnswerRetry, ha.event]

theorem happens_answerFail (tag : BitVec 16) : Happens (.answerFail die tag) s (s.fqAnswer die tag.toNat true) := by
  show execAnswerFail die tag s = _
  rw [execAnswerFail, ha.event]

theorem happens_badtagClear : Happens (.badtagClear die) s (s.modDie die (fun x => { x with badtag := false })) := by
  show execBadtagClear die s = _
  rw [execBadtagClear, ha.event]

theorem happens_faultQueueEnable (v : DWord) : Happens (.faultQueueEnable die v) s (s.modDie die (fun x => x.fqControl v.toNat)) := by
  show execFaultQueueEnable die v s = _
  rw [execFaultQueueEnable, ha.event]

end FaultQueue

/-- Settles O46: each event by what it does to its die's queue. -/
theorem faultQueueEvents : Obligations.FaultQueueEvents := by
  intro s die tag value r rest ha
  refine ⟨happens_faultRecordPost ha, fun hout => ⟨?_, ?_⟩, fun hnone => ⟨?_, ?_⟩, happens_badtagClear ha, ?_⟩
  · exact State.fqAnswer_out hout false ▸ happens_answerRetry ha tag
  · exact State.fqAnswer_out hout true ▸ happens_answerFail ha tag
  · exact State.fqAnswer_unknown hnone false ▸ happens_answerRetry ha tag
  · exact State.fqAnswer_unknown hnone true ▸ happens_answerFail ha tag
  · simpa only [Die.fqControl_eq] using happens_faultQueueEnable ha value

end Sys2Proof.Machine
end

section
/-!
PROOFS. TLBI (O39): what every core holds is performed at its home, translations leave every TLB, and what was on its way ends first.
-/

namespace Sys2Proof.Machine

-- One theorem at a time: the memory of a compile of the whole text is limited.
set_option Elab.async false

/-! ### An instruction that is ILLEGAL (R83) -/

theorem State.takeTrap_bundles (s : State) (w : Who) (inst : DWord) (g l : Nat) (tr : Trap) : (s.takeTrap w inst g l tr).bundles = s.bundles := by
  have hdrop : (s.dropOp w g l).bundles = s.bundles := by
    unfold State.dropOp
    split <;> rfl
  have hvault : ∀ k v bs, ((s.dropOp w g l).vaultWrite k v bs).bundles = s.bundles := fun k v bs => (State.vaultWrite_teams _ k v bs).2.1.trans hdrop
  unfold State.takeTrap
  split
  · rfl
  · dsimp only
    split
    · exact hvault _ _ _
    · split
      · exact hvault _ _ _
      · split <;> exact hvault _ _ _

/-- Where the instruction is ILLEGAL, each performing fibre takes the trap, and nothing else of it is performed. -/
theorem gives_illegal {i : Instr} {s : State} {w : Who} {c : Ctl} {t : Team} (H : Faces s i w c t) (hi : s.illegal i w = true) :
    Gives i s w (s.trapAll w .illegal (s.performers w c)) := by
  obtain ⟨body, he⟩ := exec_native i c H.ctl s
  have hb : (s.trapAll w .illegal (s.performers w c)).bundles = s.bundles :=
    State.foldl_keeps (·.bundles) _ (fun (a : State) (x : Nat × Nat) => a.takeTrap w w.word x.1 x.2 .illegal)
      (fun a x => a.takeTrap_bundles w w.word x.1 x.2 .illegal) s
  have hheld : (s.trapAll w .illegal (s.performers w c)).isHeld w = false := by
    have := H.unheld
    unfold State.isHeld at this ⊢
    rwa [hb]
  unfold Gives State.finish
  rw [he, native_illegal H hi, H.team, hheld]
  rfl

section Tlbi

variable {s : State} {w : Who} {c : Ctl} {t : Team}

theorem tlbi_illegal {i : Instr} (hp : i.privileged = true) (H : Faces s i w c t) (h : (s.ctxOf t).priv = false) : s.illegal i w = true := by
  simp [State.illegal, hp, H.team, h]

/-! ### What leaves the caches (R179, R247) -/

/-- The part once what every core holds has been performed at its home. -/
def State.pushed (s : State) (t : Team) : State := (s.cores.map (·.1)).foldl (fun (r : State) k => r.pushAll k true) (s.flushCore t.key)

/-- The part once the translations that each fibre names have left every TLB. -/
def State.invalidated (s : State) (t : Team) (ps : List (Nat × Nat)) (out : Nat × Nat → TlbEntry → Bool) : State :=
  ps.foldl (fun (r : State) x => r.dropXlate (out x)) (s.pushed t)

theorem State.Near.flushCore {k : Nat} (h : ∀ x ∈ (s.core k).l1, x.obj.isSome → x.dirty.contains true = false) : State.Near s (s.flushCore k) := by
  refine List.foldlRecOn _ _ (motive := State.Near s) (.refl s) fun r hr x hx => ?_
  obtain ⟨hmem, hdirty⟩ := List.mem_filter.1 hx
  have hobj : x.obj = none := Option.not_isSome_iff_eq_none.1 fun hsome =>
    Bool.false_ne_true ((h x hmem hsome).symm.trans hdirty)
  simp only [hobj]
  exact hr.trans (.pushLine r k x.line)

theorem State.Near.dropXlate (s : State) (out : TlbEntry → Bool) : State.Near s (s.dropXlate out) := .of_teams rfl rfl rfl rfl rfl

theorem State.Near.invalidated {ps : List (Nat × Nat)} {out : Nat × Nat → TlbEntry → Bool}
    (h : ∀ x ∈ (s.core t.key).l1, x.obj.isSome → x.dirty.contains true = false) : State.Near s (s.invalidated t ps out) :=
  ((State.Near.flushCore h).trans (.foldl _ _ (fun r k => .pushAll r k true) _)).trans (.foldl _ _ (fun r x => .dropXlate r (out x)) _)

theorem State.dropXlate_core (s : State) (out : TlbEntry → Bool) (k : Nat) :
    ((s.dropXlate out).core k).tlb = ((s.core k).tlb).filter (fun e => !out e) := by
  have h : fget (s.dropXlate out).cores k = (fget s.cores k).map (fun x => { x with tlb := x.tlb.filter (fun e => !out e) }) :=
    fget_map (β := Core) (fun (x : Core) => { x with tlb := x.tlb.filter (fun e => !out e) }) s.cores k
  rw [State.core, State.core, h]
  cases fget s.cores k <;> rfl

theorem State.dropXlate_die (s : State) (out : TlbEntry → Bool) (k : Nat) :
    ((s.dropXlate out).die k).l2tlb = ((s.die k).l2tlb).filter (fun e => !out e) := by
  have h : fget (s.dropXlate out).dies k = (fget s.dies k).map (fun x => { x with l2tlb := x.l2tlb.filter (fun e => !out e) }) :=
    fget_map (β := Die) (fun (x : Die) => { x with l2tlb := x.l2tlb.filter (fun e => !out e) }) s.dies k
  rw [State.die, State.die, h]
  cases fget s.dies k <;> rfl

/-! ### The operation (R179; log 46) -/

/-- The operations of a TLBI end after some accesses that are on their way. -/
def State.opsAfter (s : State) (ids : List (Nat × Nat)) (left : List Nat) : State := ids.foldl (fun (r : State) e => r.opAfter e.2 left) s

theorem State.opsAfter_nil (s : State) (ids : List (Nat × Nat)) : s.opsAfter ids [] = s := by
  refine List.foldlRecOn _ _ (motive := (· = s)) rfl fun r hr e _ => ?_
  have hid : fmod r.ops e.2 (fun o => { o with after := o.after ++ [] }) = r.ops := by
    simp [fmod]
  rw [← hr, State.opAfter, hid]

/-- The body of a TLBI of fibres that are in order. -/
theorem tlbiBody_plain {i : Instr} {k : Split} {wide : Bool} {out : State → Team → Fibre → Nat → TlbEntry → Bool} (H : Starts s i w c t)
    (ho : s.inOrder w c) :
    let u := w.by (s.performers w c)
    let gone := s.invalidated t (s.performers w c) (fun x => out s t (s.fibre w.team x.1 x.2) w.pos)
    let q := gone.openOps i u (s.performers w c)
    afterOrder (syncBody i k (tlbiBody wide i out)) u s =
      (s.performers w c).foldl (fun (r : State) x => r.doneLane u x.1 x.2 (opOf q.1 x.1) []) (q.2.opsAfter q.1 (s.flying (s.inScope wide t))) := by
  intro u gone q
  rw [afterOrder_ok ho, syncBody_plain H, tlbiBody, team_by H]
  dsimp only
  rw [openFor_plain H.who]
  rfl

/-- What a TLBI of a scope does. -/
theorem tlbi_drops {i : Instr} {k : Split} {wide : Bool} {out : State → Team → Fibre → Nat → TlbEntry → Bool}
    (he : exec i s = native i s (afterOrder (syncBody i k (tlbiBody wide i out)))) (H : Starts s i w c t) (ho : s.inOrder w c)
    (h0 : s.performers w c ≠ []) :
    let u := w.by (s.performers w c)
    let pushed := (s.cores.map (·.1)).foldl (fun (r : State) k => r.pushAll k true) (s.flushCore t.key)
    let gone := (s.performers w c).foldl (fun (r : State) x => r.dropXlate (out s t (s.fibre w.team x.1 x.2) w.pos)) pushed
    let q := gone.openOps i u (s.performers w c)
    let left := s.flying (s.inScope wide t)
    Gives i s w ((s.performers w c).foldl (fun (r : State) x => r.doneLane u x.1 x.2 (opOf q.1 x.1) [])
      (q.1.foldl (fun (r : State) e => r.opAfter e.2 left) q.2)) ∧
    (left = [] → (∀ x ∈ (s.core t.key).l1, x.obj.isSome → x.dirty.contains true = false) → Completes i s w c gone (fun _ => some [])) := by
  refine ⟨tlbiBody_plain H ho ▸ gives_body H.toIssues he h0, fun hleft hl1 => ?_⟩
  refine completes_base H he (State.Near.invalidated hl1) (fun _ => []) (fun h => absurd h h0) fun _ => ?_
  rw [tlbiBody_plain H ho, hleft, State.opsAfter_nil]

theorem exec_tlbiAll (c : Ctl) (s : State) : exec (.tlbiAll c) s = native (.tlbiAll c) s (afterOrder (syncBody (.tlbiAll c) .fibre
    (tlbiBody false (.tlbiAll c) (fun s t _ _ e => decide (e.root = (s.ctxOf t).root))))) := rfl

theorem exec_tlbiVa (c : Ctl) (a : Reg) (s : State) : exec (.tlbiVa c a) s = native (.tlbiVa c a) s (afterOrder (syncBody (.tlbiVa c a) .fibre
    (tlbiBody false (.tlbiVa c a) (fun s t f pos e =>
      decide (e.root = (s.ctxOf t).root) && decide (e.pre = (f.get64 pos a).toNat % 2 ^ 49 / 2 ^ levelShift e.level))))) := rfl

theorem exec_tlbiPart (c : Ctl) (s : State) : exec (.tlbiPart c) s = native (.tlbiPart c) s (afterOrder (syncBody (.tlbiPart c) .fibre
    (tlbiBody true (.tlbiPart c) (fun s t _ _ e => s.ctxs.any (fun x => decide (x.2.part = t.part) && decide (x.2.root = e.root)))))) := rfl

end Tlbi

/-- Settles O39, scope by scope. That a TLBI has every core's stores performed at once, and waits for every access of its scope that is on its way, is
the model's choice (log 46). -/
theorem translationsLeave : Obligations.TranslationsLeave := by
  intro s w t c a u drops root
  have hall := tlbi_drops (t := t) (w := w) (c := c) (exec_tlbiAll c s)
  have hva := tlbi_drops (t := t) (w := w) (c := c) (exec_tlbiVa c a s)
  have hpart := tlbi_drops (t := t) (w := w) (c := c) (exec_tlbiPart c s)
  refine ⟨hall, hva, hpart, fun out k => ⟨s.dropXlate_core out k, s.dropXlate_die out k⟩, fun i hi H hpriv => ?_⟩
  have hp : i.privileged = true := by
    simp only [List.mem_cons, List.not_mem_nil, or_false] at hi
    obtain rfl | rfl | rfl := hi <;> rfl
  have hill := tlbi_illegal hp H hpriv
  obtain ⟨body, he⟩ := exec_native i c H.ctl s
  exact ⟨gives_illegal H hill, fun hd => illegal_faces H hd hill he⟩

end Sys2Proof.Machine
end

section
/-!
PROOFS. Memory upkeep (O26): cache maintenance beside its fences, fences, and prefetches.
-/

namespace Sys2Proof.Machine

-- One theorem at a time: the memory of a compile of the whole text is limited.
set_option Elab.async false

section MemoryUpkeep

variable {s : State} {w : Who} {t : Team} {c : Ctl} {sz : Size} {brec : BitVec 12} {a : Reg} {off : BitVec 13} {tgt : Nat × Nat → Target}

theorem Team.dx_of_plain (h : t.kern.dx = none) : t.dx = false := by rw [Team.dx, h]; rfl

theorem Team.dx_of_grid (h : t.kern.dx ≠ none) : t.dx = true := Option.isSome_iff_ne_none.2 h

/-! ### Cache maintenance (R189) -/

/-- Maintenance of the lines that the fibres name, with its fibres answered; a deterministic grid keeps the lines for the commit (R332). -/
def State.maintained (s : State) (i : Instr) (op : Nat) (t : Team) (ls : List (Nat × Nat × Target)) (w : Who) : State :=
  if t.dx then
    let q := s.openOps i w (pairsOf ls)
    (groupsOf (pairsOf ls)).foldl (fun (b : State) g =>
      b.dxPush w g (.cmaint op ((ls.filter (fun x => decide (x.1 = g))).map (fun x => x.2.2.line))) [opOf q.1 g]) q.2
  else
    let q := (ls.foldl (fun (b : State) x => b.maintain t.key x.2.2.line op) s).openOps i w (pairsOf ls)
    ls.foldl (fun (b : State) x => b.doneLane w x.1 x.2.1 (opOf q.1 x.1) []) q.2

/-- Fibres that reach their lines have them maintained, between the fences of an SO page. -/
theorem cmaint_gives {i : Instr} {op : Nat} (H : Issues s i w c t)
    (R : Reaches s w c t false noTurn (.global brec) a (off.toInt * sz.bytes) sz.bytes .rdOrWr .maint false tgt)
    (he : exec i s = native i s (cmaintBody i op sz brec a off)) :
    let u := w.by (s.performers w c)
    let so := anySo (s.found w c tgt)
    let ready := (s.readied w c t (.global brec) .maint tgt).soFenceBy u t.key so
    Gives i s w ((ready.maintained i op t (s.found w c tgt) u).soFence t.key so) :=
  gives_home H R .ok (fun _ _ => rfl) (beside fun t ls w r => r.maintained i op t ls w) he

theorem State.maintained_plain {i : Instr} {op : Nat} (r : State) (ls : List (Nat × Nat × Target)) (u : Who) (h : t.kern.dx = none) :
    r.maintained i op t ls u = (ls.foldl (fun (b : State) x => b.maintain t.key x.2.2.line op) r).answered i u (pairsOf ls) (fun _ => []) := by
  rw [State.maintained, if_neg (by simp [Team.dx_of_plain h])]
  show _ = List.foldl _ _ (ls.map (fun x => (x.1, x.2.1)))
  rw [List.foldl_map]

theorem State.maintained_grid {i : Instr} {op : Nat} (r : State) (ls : List (Nat × Nat × Target)) (u : Who) (h : t.kern.dx ≠ none) :
    r.maintained i op t ls u = (groupsOf (pairsOf ls)).foldl (fun (b : State) g =>
      b.dxPush u g (.cmaint op ((ls.filter (fun x => decide (x.1 = g))).map (fun x => x.2.2.line))) [opOf (r.openOps i u (pairsOf ls)).1 g])
      (r.openOps i u (pairsOf ls)).2 := by
  rw [State.maintained, if_pos (Team.dx_of_grid h)]

/-! ### Fences (R252, R280) -/

theorem State.fenceBy_eq {kind : FenceKind} {scope : Scope} {uo : Bool} (r : State) (u : Who) (k : Nat) :
    r.fenceBy u k kind scope uo =
      (if (kind = .ar ∨ kind = .sc) ∧ scopeTeam scope = true then r.uncrossAll u else r).fence k kind scope uo := by
  cases kind <;> simp [State.fenceBy]

theorem fence_completes {kind : FenceKind} {scope : Scope} {uo : Bool} (H : Starts s (.fence c kind scope uo) w c t) (ho : s.inOrder w c)
    (h0 : s.performers w c ≠ []) :
    Completes (.fence c kind scope uo) s w c (s.fenceBy (w.by (s.performers w c)) t.key kind scope uo) (fun _ => some []) := by
  refine completes_base H (by unfold execFence; rfl : execFence c kind scope uo s = native _ s _) (.fenceBy _ _ _ _ _ _) (fun _ => []) (fun h => absurd h h0)
    fun _ => ?_
  rw [afterOrder_ok ho, team_by H]
  simp only [Team.dx_of_plain H.plain, Bool.false_eq_true, if_false, Who.by_perf]

/-! ### Prefetches (R188) -/

/-- A prefetch into the L2 changes nothing but timing. -/
theorem prefL2_exec (H : Issues s (.prefL2 c sz brec a off) w c t) : exec (.prefL2 c sz brec a off) s = .next (s.countClocks w) :=
  exec_gives H (show exec (.prefL2 c sz brec a off) s = native _ s (fun _ s => s) from rfl) (fun _ => rfl) (fun _ => rfl) H.unheld H.quiet

/-- PREF.L1 of some fibres. -/
def prefL1Body (sz : Size) (brec : BitVec 12) (a : Reg) (off : BitVec 13) (w : Who) (s : State) : State :=
  match s.team w.team with
  | none => s
  | some t =>
    if t.dx then s
    else (s.prefLines w t brec a (MemOpDisp off sz.bytes) sz.bytes).foldl (fun (x : State) lf =>
      if lf.cached && !lf.trk && !x.hostBars (lf.pa / 128) false then x.fill t.key (lf.pa / 128) (decide (lf.ord = 2)) else x) s

theorem exec_prefL1 : exec (.prefL1 c sz brec a off) s = native (.prefL1 c sz brec a off) s (prefL1Body sz brec a off) := rfl

/-- In a deterministic grid a prefetch into the L1 does nothing. -/
theorem prefL1_grid (H : Issues s (.prefL1 c sz brec a off) w c t) (h : t.kern.dx ≠ none) :
    exec (.prefL1 c sz brec a off) s = .next (s.countClocks w) := by
  refine exec_gives H exec_prefL1 (fun _ => ?_) (fun _ => rfl) H.unheld H.quiet
  have ht : s.team (w.by (s.performers w c)).team = some t := H.team
  rw [prefL1Body, ht]
  exact if_pos (Team.dx_of_grid h)

/-- Outside one it brings the lines that the L1 may hold. -/
theorem prefL1_gives (H : Issues s (.prefL1 c sz brec a off) w c t) (h0 : s.performers w c ≠ []) (h : t.kern.dx = none) :
    Gives (.prefL1 c sz brec a off) s w ((s.prefLines (w.by (s.performers w c)) t brec a (off.toInt * sz.bytes) sz.bytes).foldl (fun (r : State) lf =>
      if lf.cached && !lf.trk && !r.hostBars (lf.pa / 128) false then r.fill t.key (lf.pa / 128) (decide (lf.ord = 2)) else r) s) := by
  have hgives := gives_body H exec_prefL1 h0
  have ht : s.team (w.by (s.performers w c)).team = some t := H.team
  rw [prefL1Body, ht] at hgives
  simp only [Team.dx_of_plain h, Bool.false_eq_true, if_false] at hgives
  exact hgives

end MemoryUpkeep

/-- Settles O26. The list of a fibre's stores to vaults that a full fence clears is the book kept for log 46, and the room that PREF.L1 makes in a full L1
is the model's choice (log 44). -/
theorem memoryUpkeep : Obligations.MemoryUpkeep := by
  intro s w t c sz brec a off kind scope uo tgt found so u ready maintains
  have hmaint : ∀ {i op}, exec i s = native i s (cmaintBody i op sz brec a off) → maintains i op := fun he H R =>
    ⟨fun h => State.maintained_plain ready found u h ▸ cmaint_gives H R he, fun h => State.maintained_grid ready found u h ▸ cmaint_gives H R he⟩
  refine ⟨hmaint rfl, hmaint rfl, hmaint rfl, fun H ho h0 => ?_, prefL2_exec, prefL1_grid, prefL1_gives⟩
  have hfence := fence_completes H ho h0
  rw [State.fenceBy_eq] at hfence
  exact hfence

end Sys2Proof.Machine
end

section
/-!
PROOFS. Copies (O29): what ACPY and MCPY hand to the core's Sluice.
-/

namespace Sys2Proof.Machine

-- One theorem at a time: the memory of a compile of the whole text is limited.
set_option Elab.async false

section Copies

variable {s : State} {w : Who} {t : Team} {c : Ctl}

/-! ### ACPY (R191, R192) -/

section Acpy

variable {sz : Size} {src : ASrc} {x y z : Reg} {kind : Nat × Nat → CopyKind} {page : Nat × Nat → Option Target}

/-- The pages of the fibres' sources, for those that lie in memory. -/
def State.copyPages (s : State) (w : Who) (c : Ctl) (page : Nat × Nat → Option Target) : List (Nat × Nat × Target) :=
  (s.performers w c).filterMap (fun e => (page e).map (fun p => (e.1, e.2, p)))

/-- The copies of the fibres, each byte supplied by the highest home lane that writes it. -/
def State.copyItems (s : State) (w : Who) (c : Ctl) (kind : Nat × Nat → CopyKind) : List (Nat × Nat × CopyKind) :=
  shadow ((s.performers w c).map (fun e => (e.1, e.2, kind e)))

/-- The part once the copies' sources have been translated, with the fences of an SO page. -/
def State.copyReady (s : State) (w : Who) (c : Ctl) (t : Team) (src : ASrc) (page : Nat × Nat → Option Target) : State :=
  (((s.spent w c).touchAll t (s.copyPages w c page) .read).soFenceBy (w.by (s.performers w c)) t.key (anySo (s.copyPages w c page))).keepSpace t
    (sourceSpace src)

theorem pairsOf_shadow (ls : List (Nat × Nat × CopyKind)) : pairsOf (shadow ls) = pairsOf ls := by
  simp [pairsOf, shadow, Function.comp_def]

theorem State.pairsOf_copyItems : pairsOf (s.copyItems w c kind) = s.performers w c := by
  rw [State.copyItems, pairsOf_shadow]
  simp [pairsOf, Function.comp_def]

/-- ACPY of fibres that pass its checks: a copy for each, or the grid's entries for the commit. -/
theorem acpy_gives (H : Issues s (.acpy c sz src x y z) w c t) (ho : s.inOrder w c) (h0 : s.performers w c ≠ [])
    (hof : ∀ e ∈ s.performers w c, s.acpyOf (w.by (s.performers w c)) t e.1 e.2 sz.bytes src x y z = .ok (kind e, page e))
    (hhost : s.hostLines t .rd (s.copyPages w c page) false = []) :
    let u := w.by (s.performers w c)
    let q := (s.copyReady w c t src page).openOps (.acpy c sz src x y z) u (s.performers w c)
    Gives (.acpy c sz src x y z) s w (if t.dx then
        (groupsOf (s.performers w c)).foldl (fun (r : State) g =>
          r.dxPush u g (.acpy (((s.copyItems w c kind).filter (fun e => decide (e.1 = g))).map (fun e => (e.2.1, e.2.2)))) [opOf q.1 g]) q.2
      else (s.copyItems w c kind).foldl (fun (r : State) e =>
        (r.pushSource t.key e.2.2).addCopy t.key ⟨w.team, e.1, e.2.1, [opOf q.1 e.1], e.2.2, 0, none, []⟩) q.2) := by
  intro u q
  have hgives := gives_body H (by unfold execAcpy; rfl : execAcpy c sz src x y z s = native _ s _) h0
  have ht : s.team u.team = some t := H.team
  have hgate := gate_found (res := fun g l => s.acpyOf u t g l sz.bytes src x y z) (val := fun e => (kind e, page e)) H.who hof
  have hpages : (s.found w c (fun e => (kind e, page e))).filterMap (fun e => e.2.2.2.map (fun p => (e.1, e.2.1, p))) = s.copyPages w c page :=
    List.filterMap_map ..
  have hitems : shadow ((s.found w c (fun e => (kind e, page e))).map (fun e => (e.1, e.2.1, e.2.2.1))) = s.copyItems w c kind := by
    rw [State.found, List.map_map]
    rfl
  rw [afterOrder_ok ho, ht] at hgives
  dsimp only at hgives
  rw [hgate] at hgives
  simp only [hpages, hhost, hitems, pairsOf_found, State.pairsOf_copyItems, List.isEmpty_nil, Bool.not_true, Bool.false_eq_true, if_false] at hgives
  exact hgives

end Acpy

/-! ### MCPY (R193, R194) -/

/-- MCPY of a leader whose description passes its checks: one copy, none of which is left where there is nothing to copy, or the grid's entry. -/
theorem mcpy_gives {brec : BitVec 12} {x y z : Reg} {lead : Nat × Nat} {shape base bytes dst mask bar : Nat} (H : Issues s (.mcpy c brec x y z) w c t)
    (ho : s.inOrder w c) (hl : (w.by (s.performers w c)).leader = some lead)
    (hof : s.mcpyOf (w.by (s.performers w c)) t lead brec x y z = .ok (.mcpy shape base bytes dst mask bar)) :
    let u := w.by (s.performers w c)
    let q := ((s.spent w c).keepRec t brec.toNat).openOps (.mcpy c brec x y z) u (s.performers w c)
    let copy : Copy := ⟨w.team, lead.1, lead.2, q.1.map (·.2), .mcpy shape base bytes dst mask bar, 0, none, []⟩
    Gives (.mcpy c brec x y z) s w (
      if t.kern.dx ≠ none then q.2.dxPush u lead.1 (.mcpy lead.2 copy.kind) copy.ops
      else if bytes = 0 ∨ mask = 0 then q.2.finishOps copy.ops
      else (q.2.pushAll t.key true).addCopy t.key copy) := by
  intro u q copy
  have hgives := gives_body H (by unfold execMcpy; rfl : execMcpy c brec x y z s = native _ s _) (performers_of_leader hl)
  have ht : s.team u.team = some t := H.team
  rw [afterOrder_ok ho, ht, hl] at hgives
  dsimp only at hgives
  rw [leaderGate_ok s w c _ _ hof] at hgives
  simp only [Team.dx, Option.isSome_iff_ne_none, Bool.or_eq_true, decide_eq_true_eq] at hgives
  exact hgives

end Copies

/-- Settles O29: what each form hands over once its checks have passed. -/
theorem copies : Obligations.Copies := by
  intro s w t c sz src brec x y z kind page lead shape base bytes dst mask bar u pages items ready
  refine ⟨fun H ho h0 hof hhost => ?_, mcpy_gives⟩
  intro q
  have hgives := acpy_gives H ho h0 hof hhost
  dsimp only at hgives
  refine ⟨fun h => ?_, fun h => ?_⟩
  · rw [Team.dx, h] at hgives
    exact hgives
  · rw [if_pos (show t.dx = true from Option.isSome_iff_ne_none.2 h)] at hgives
    exact hgives

end Sys2Proof.Machine
end

section
/-!
PROOFS. Transaction barriers (O30): the operations of fibres that reach their barriers, and the test.
-/

namespace Sys2Proof.Machine

-- One theorem at a time: the memory of a compile of the whole text is limited.
set_option Elab.async false

section TransactionBarriers

variable {s : State} {w : Who} {t : Team} {c : Ctl}

theorem State.foldl_found {α β : Type} (tgt : Nat × Nat → α) (f : β → Nat × Nat × α → β) (b : β) :
    (s.found w c tgt).foldl f b = (s.performers w c).foldl (fun b x => f b (x.1, x.2, tgt x)) b := List.foldl_map

/-- An instruction whose fibres reach their operands, that changes the part and then answers each fibre at once. -/
theorem completes_home {i : Instr} {sp : Space} {a : Reg} {disp : Int} {size : Nat} {perm : RecPerm} {acc : Acc} {write lax : Bool} {turn : Turn}
    {tgt : Nat × Nat → Target} {body : Who → State → State} {go : Team → List (Nat × Nat × Target) → Who → State → State} (H : Starts s i w c t)
    (R : Reaches s w c t lax turn sp a disp size perm acc write tgt) (he : exec i s = native i s body)
    (hbody : body (w.by (s.performers w c)) s = homeWith lax turn sp a disp size perm acc write .ok go (w.by (s.performers w c)) s) {base : State}
    (B : State.Near (s.readied w c t sp acc tgt) base) (ws : Nat × Nat → List (RName × Word))
    (hgo : let u := w.by (s.performers w c)
      let q := base.openOps i u (s.performers w c)
      go t (s.found w c tgt) u (s.readied w c t sp acc tgt) =
        (s.performers w c).foldl (fun (r : State) x => r.doneLane u x.1 x.2 (opOf q.1 x.1) (ws x)) q.2) :
    Completes i s w c base (fun x => some (ws x)) := by
  refine completes_base H he ((State.Near.readied s w c t sp acc tgt).trans B) ws (fun h => absurd h R.some) fun _ => ?_
  rw [hbody, homeWith_ok H.who H.team R .ok (fun _ _ => rfl), hgo]

/-! ### Operations that change a barrier (R196, R197, R260, R267) -/

section Changes

variable {i : Instr} {code : Nat} {pool : Bool} {a d : Reg} {off : BitVec 13} {tgt : Nat × Nat → Target}

/-- The part once the fibres' operations have been applied in ascending home lane, the release of the arriving forms before them. -/
def State.tbarDone (s : State) (code : Nat) (t : Team) (ls : List (Nat × Nat × Target)) (val : Nat → Nat → Word) : State :=
  ((byLane ls).foldl (fun (r : State) x => r.tbarDo x.2.2.place.1 x.2.2.place.2 (fun b => b.apply code (val x.1 x.2.1)))
    (if code = 1 ∨ code = 2 then s.releaseSide t.key false .cluster else s)).bankAll (tbarStep code) t ls

theorem State.Near.tbarDone (s : State) (code : Nat) (t : Team) (ls : List (Nat × Nat × Target)) (val : Nat → Nat → Word) :
    State.Near s (s.tbarDone code t ls val) := by
  have h : State.Near s (if code = 1 ∨ code = 2 then s.releaseSide t.key false .cluster else s) := by
    split
    · exact .releaseSide _ _ _ _
    · exact .refl s
  refine State.Near.trans (h.trans ?_) (.bankAll _ _ _ _)
  exact .foldl (byLane ls) (fun (r : State) x => r.tbarDo x.2.2.place.1 x.2.2.place.2 (fun b => b.apply code (val x.1 x.2.1))) (fun _ _ => .tbarDo _ _ _ _) _

theorem tbar_completes (H : Starts s i w c t) (he : exec i s = native i s (tbarBody i code pool a off d))
    (R : Reaches s w c t false (bankTurn (tbarStep code)) (tbarSpace pool) a (off.toInt * 16) 16 .rd .read false tgt) :
    let ready := s.readied w c t (tbarSpace pool) .read tgt
    Completes i s w c (ready.tbarDone code t (s.found w c tgt) (fun g l => (ready.fibre w.team g l).get w.pos d)) (fun _ => some []) := by
  refine completes_home H R he rfl (State.Near.tbarDone _ _ _ _ _) (fun _ => []) ?_
  simp only [Team.dx, H.plain, Option.isSome_none, Bool.or_eq_true, decide_eq_true_eq, pairsOf_found, State.foldl_found]
  rfl

theorem tbar_buffers (H : Issues s i w c t) (he : exec i s = native i s (tbarBody i code pool a off d)) (hdx : t.kern.dx ≠ none)
    (R : Reaches s w c t false (bankTurn (tbarStep code)) (tbarSpace pool) a (off.toInt * 16) 16 .rd .read false tgt) :
    let found := s.found w c tgt
    let u := w.by (s.performers w c)
    let ready := s.readied w c t (tbarSpace pool) .read tgt
    let q := ready.openOps i u (pairsOf found)
    Gives i s w ((groupsOf (pairsOf found)).foldl (fun (r : State) g => r.dxPush u g (.tbar code ((found.filter (fun x => decide (x.1 = g))).map
      (fun x => (x.2.2.place.1, x.2.2.place.2, (ready.fibre w.team g x.2.1).get w.pos d)))) [opOf q.1 g]) q.2) := by
  have hgives := gives_home H R .ok (fun _ _ => rfl) _ he
  dsimp only at hgives
  rwa [if_pos (show t.dx = true from Option.isSome_iff_ne_none.2 hdx)] at hgives

end Changes

/-! ### The test (R199) -/

theorem tbarTest_completes {pool : Bool} {a d : Reg} {off : BitVec 13} {tgt : Nat × Nat → Target} (H : Starts s (.tbarTest c pool a off d) w c t)
    (R : Reaches s w c t false (bankTurn 5) (tbarSpace pool) a (off.toInt * 16) 16 .rd .read false tgt) :
    let ready := s.readied w c t (tbarSpace pool) .read tgt
    Completes (.tbarTest c pool a off d) s w c (ready.bankAll 5 t (s.found w c tgt)) (fun x =>
      let b := ready.tbarAt (tgt x).place.1 (tgt x).place.2
      some [(.v d, BitVec.ofNat 32 (b.phase + 16 * b.arrivals))]) := by
  intro ready
  refine completes_home H R (show exec (.tbarTest c pool a off d) s = native _ s (syncBody _ .fibre (doTbarTest c pool a off d)) from rfl)
    (syncBody_plain H _ _ _) (.bankAll _ _ _ _) (fun x =>
      [(.v d, BitVec.ofNat 32 ((ready.tbarAt (tgt x).place.1 (tgt x).place.2).phase + 16 * (ready.tbarAt (tgt x).place.1 (tgt x).place.2).arrivals))]) ?_
  simp only [openFor_plain H.who, pairsOf_found, State.foldl_found]
  rfl

end TransactionBarriers

/-- Settles O30. The arriving forms release at CLUSTER scope by R260 and R267; the order of a bank's clock is that of R199. -/
theorem transactionBarriers : Obligations.TransactionBarriers := by
  intro s w t c pool a d off tgt found u ready reaches value changes
  have hchanges : ∀ {i code v}, exec i s = native i s (tbarBody i code pool a off v) → changes i code v := fun he R =>
    ⟨fun H => tbar_completes H he R, fun H hdx => tbar_buffers H he hdx R⟩
  exact ⟨hchanges rfl, hchanges rfl, hchanges rfl, hchanges rfl, tbarTest_completes⟩

end Sys2Proof.Machine
end

section
/-!
PROOFS. Waits (O31): TBAR.WAIT, MXWAIT, TASKSEQ.WAIT and WAITC, whose fibres go on or wait, one after another.
-/

namespace Sys2Proof.Machine

-- One theorem at a time: the memory of a compile of the whole text is limited.
set_option Elab.async false

section Waits

variable {s : State} {w : Who} {t : Team} {c : Ctl} {a d : Reg}

/-- A synchronising instruction whose fibres reach their operands does its own part. -/
theorem gives_syncWith {i : Instr} {k : Split} {sp : Space} {disp : Int} {size : Nat} {perm : RecPerm} {acc : Acc} {write lax : Bool} {turn : Turn}
    {tgt : Nat × Nat → Target} {go : Team → List (Nat × Nat × Target) → Who → State → State} (H : Starts s i w c t)
    (R : Reaches s w c t lax turn sp a disp size perm acc write tgt)
    (he : exec i s = native i s (syncBody i k (homeWith lax turn sp a disp size perm acc write .ok go))) :
    Gives i s w (go t (s.found w c tgt) (w.by (s.performers w c)) (s.readied w c t sp acc tgt)) := by
  have hgives := gives_body H.toIssues he R.some
  rwa [syncBody_plain H, homeWith_ok H.who H.team R .ok (fun _ _ => rfl)] at hgives

/-- A fibre whose phase is past goes on; the others wait for it (R198). -/
theorem tbarWait_gives {pool : Bool} {off : BitVec 13} {tgt : Nat × Nat → Target} (H : Starts s (.tbarWait c pool a off d) w c t)
    (R : Reaches s w c t false (bankTurn 5) (tbarSpace pool) a (off.toInt * 16) 16 .rd .read false tgt) :
    let found := s.found w c tgt
    let u := w.by (s.performers w c)
    let ready := s.readied w c t (tbarSpace pool) .read tgt
    let q := (ready.bankAll 5 t found).openOps (.tbarWait c pool a off d) u (pairsOf found)
    Gives (.tbarWait c pool a off d) s w ((byLane found).foldl (fun (r : State) x =>
      let ph : BitVec 4 := ((ready.fibre w.team x.1 x.2.1).get w.pos d).setWidth 4
      if (r.tbarAt x.2.2.place.1 x.2.2.place.2).phase = ph.toNat then
        r.waitOr u x.1 x.2.1 (.tbar x.2.2.place.1 x.2.2.place.2 ph (opOf q.1 x.1))
      else (r.acquire t.key false).doneLane u x.1 x.2.1 (opOf q.1 x.1) []) q.2) := by
  have hgives := gives_syncWith H R (show exec (.tbarWait c pool a off d) s = native _ s (syncBody _ .fibre (doTbarWait c pool a off d)) from rfl)
  dsimp only at hgives
  rwa [openFor_plain H.who] at hgives

/-- A fibre whose operations the engine has done goes on (R224). -/
theorem mxwait_gives (H : Starts s (.mxwait c a) w c t) (h0 : s.performers w c ≠ []) :
    let u := w.by (s.performers w c)
    let q := s.openOps (.mxwait c a) u (s.performers w c)
    Gives (.mxwait c a) s w ((s.performers w c).foldl (fun (r : State) x =>
      let v := (s.fibre w.team x.1 x.2).get64 w.pos a
      let tk := if t.issued.toNat < v.toNat then t.issued else v
      if t.doneT.toNat < tk.toNat then r.waitOr u x.1 x.2 (.mx tk (opOf q.1 x.1))
      else (r.acquire t.key false).doneLane u x.1 x.2 (opOf q.1 x.1) []) q.2) := by
  have hgives := gives_body H.toIssues (show exec (.mxwait c a) s = native _ s (syncBody _ .fibre (doMxwait c a)) from rfl) h0
  rw [syncBody_plain H, doMxwait, team_by H] at hgives
  simp only [openFor_plain H.who, BitVec.ult, decide_eq_true_eq] at hgives
  exact hgives

/-- A fibre whose sequence has completed goes on (R245). -/
theorem taskseqWait_gives {b : Reg} {queue : Nat × Nat → Nat} (H : Starts s (.taskseqWait c a b) w c t) (h0 : s.performers w c ≠ [])
    (hq : ∀ x ∈ s.performers w c, ((s.fibre w.team x.1 x.2).get w.pos b).toNat = queue x ∧ queue x < 256 ∧ (s.queue (queue x)).part = t.part) :
    let u := w.by (s.performers w c)
    let q := (s.spent w c).openOps (.taskseqWait c a b) u (s.performers w c)
    Gives (.taskseqWait c a b) s w ((byLane (s.found w c queue)).foldl (fun (r : State) x =>
      let v := (s.fibre w.team x.1 x.2.1).get64 w.pos a
      if v.toNat ≤ (r.queue x.2.2).comp.toNat then (r.acquire t.key false).doneLane u x.1 x.2.1 (opOf q.1 x.1) []
      else r.waitOr u x.1 x.2.1 (.seq x.2.2 v (opOf q.1 x.1))) q.2) := by
  have hgives := gives_body H.toIssues (show exec (.taskseqWait c a b) s = native _ s (syncBody _ .fibre (doTaskseqWait c a b)) from rfl) h0
  have hgate := gate_found (res := fun g l => seqQueue s t ((s.fibre w.team g l).get w.pos b)) (val := queue) H.who fun x hx =>
    seqQueue_ok (hq x hx).1 (hq x hx).2.1 (hq x hx).2.2
  rw [syncBody_plain H, doTaskseqWait, team_by H] at hgives
  simp only [Who.by_team, Who.by_pos, hgate, openFor_plain H.who, pairsOf_found, BitVec.ule_eq_decide] at hgives
  simp only [decide_eq_true_eq] at hgives
  exact hgives

/-- What WAITC does for one fibre: its word satisfies the condition, or its time is over, or it waits at a monitor (R286, R287). -/
def State.waitcLane (r ready : State) (u : Who) (t : Team) (cond : WCond) (uo : Bool) (d : Reg) (ops : List (Nat × Nat)) (x : Nat × Nat × Target) : State :=
  match x.2.2 with
  | .vault _ _ => r
  | .glob _ lf =>
    let f := ready.fibre u.team x.1 x.2.1
    let seen := r.monitorRead t u.team x.1 (ready.spotOf t x.2.2).tracked lf.pa
    if condHolds cond seen.1 (f.get u.pos d) then
      (seen.2.doneLane u x.1 x.2.1 (opOf ops x.1) [(.v d, 0), (.v (d + 1), seen.1)]).acquire t.key uo
    else if f.get u.pos (d + 1) = 0 then seen.2.doneLane u x.1 x.2.1 (opOf ops x.1) [(.v d, 1), (.v (d + 1), seen.1)]
    else (seen.2.armMon u.team x.1 lf.pa).waitLane u x.1 x.2.1
      (.monitor lf.pa cond (f.get u.pos d) (if f.get u.pos (d + 1) = 0xFFFFFFFF then none else some (ready.now + 1024 * (f.get u.pos (d + 1)).toNat))
        uo d (opOf ops x.1))

theorem waitc_gives {cond : WCond} {uo : Bool} {brec : BitVec 12} {tgt : Nat × Nat → Target} (H : Starts s (.waitc c cond uo brec a d) w c t)
    (R : Reaches s w c t false noTurn (.global brec) a 0 4 .at_ .read false tgt) :
    let u := w.by (s.performers w c)
    let so := anySo (s.found w c tgt)
    let ready := (s.readied w c t (.global brec) .read tgt).soFenceBy u t.key so
    let q := ready.openOps (.waitc c cond uo brec a d) u (pairsOf (s.found w c tgt))
    Gives (.waitc c cond uo brec a d) s w
      (((s.found w c tgt).foldl (fun (r : State) x => r.waitcLane ready u t cond uo d q.1 x) q.2).soFence t.key so) := by
  have hgives := gives_syncWith H R
    (show exec (.waitc c cond uo brec a d) s = native _ s (syncBody _ .fibre (doWaitc false c cond uo brec a d)) from rfl)
  simp only [beside, openFor_plain H.who, Team.dx, H.plain, Option.isSome_none, Bool.or_false, Bool.false_eq_true, if_false, decide_eq_true_eq] at hgives
  exact hgives

end Waits

/-- Settles O31. A fibre that goes on acquires: at CLUSTER scope for a barrier (R197, R260), and for a monitor with the reading of its word at the home
(R287), its time counted in clocks of 1,024 (R289). How a tracked line is read as WAITC arms is the model's choice (log 46). -/
theorem waits : Obligations.Waits := by
  intro s w t c pool uo cond brec a b d off tgt queue found u
  exact ⟨tbarWait_gives, mxwait_gives, taskseqWait_gives, waitc_gives⟩

end Sys2Proof.Machine
end

section
/-!
PROOFS. Loads and stores (O25): what LD and ST come to for any operands, and for operands that are all in vaults or all in lines at hand.
-/

namespace Sys2Proof.Machine

-- One theorem at a time: the memory of a compile of the whole text is limited.
set_option Elab.async false

section LoadsAndStores

variable {s : State} {w : Who} {t : Team} {c : Ctl} {ls : List (Nat × Nat × Target)}

/-! ### Accesses that are all to vaults, or all to memory (R252) -/

/-- Every access is to a vault. -/
def InVaults (ls : List (Nat × Nat × Target)) : Prop := ∀ x ∈ ls, ∃ k a, x.2.2 = .vault k a

/-- Every access is to memory. -/
def InMemory (ls : List (Nat × Nat × Target)) : Prop := ∀ x ∈ ls, ∃ va lf, x.2.2 = .glob va lf

theorem foldl_of_still {α β : Type} {f : β → α → β} {ls : List α} {b : β} (h : ∀ x ∈ ls, f b x = b) : ls.foldl f b = b :=
  List.foldlRecOn ls f (motive := (· = b)) rfl fun _ hr x hx => hr.symm ▸ h x hx

theorem anySo_vaults (h : InVaults ls) : anySo ls = false := by
  refine List.any_eq_false.2 fun x hx => ?_
  obtain ⟨k, a, e⟩ := h x hx
  simp [e]

theorem State.meetPins_vaults (h : InVaults ls) : s.meetPins t ls = s := by
  refine foldl_of_still fun x hx => ?_
  obtain ⟨k, a, e⟩ := h x hx
  rw [e]
  rfl

theorem State.crossingsOf_memory {pool : Bool} {n : Nat} (h : InMemory ls) : s.crossingsOf w pool n ls = [] := by
  refine List.flatMap_eq_nil_iff.2 fun x hx => ?_
  obtain ⟨va, lf, e⟩ := h x hx
  rw [e]

theorem vaultSpots_memory (h : InMemory ls) : vaultSpots ls = [] := by
  refine List.filterMap_eq_nil_iff.2 fun x hx => ?_
  obtain ⟨va, lf, e⟩ := h x hx
  rw [e]

theorem State.bankAll_memory {step : Nat} (h : InMemory ls) : s.bankAll step t ls = s := by
  unfold State.bankAll
  rw [vaultSpots_memory h]
  exact ite_self _

/-- Accesses that cross no store of their own are performed in their order (log 46). -/
theorem State.crossOld_clear {pool : Bool} {n : Nat} (h : s.crossingsOf w pool n ls = []) : s.crossOld w pool n ls = false := by
  simp [State.crossOld, h]

theorem State.crossLoad_clear {pool old : Bool} {n : Nat} (h : s.crossingsOf w pool n ls = []) : s.crossLoad w pool old n ls = s := by
  simp [State.crossLoad, h]

theorem State.crossStore_memory {before : State} {pool old : Bool} {n : Nat} (h : InMemory ls) : s.crossStore before w pool old n ls = s := by
  unfold State.crossStore
  rw [State.crossingsOf_memory h]
  simp only [List.isEmpty_nil, if_true]
  split
  · rfl
  · refine foldl_of_still fun x hx => ?_
    obtain ⟨va, lf, e⟩ := h x hx
    rw [e]

/-! ### Loads that find their bytes (R186, R369) -/

/-- Loads each of which finds its bytes and changes nothing. -/
theorem State.loadAll_found {pool old : Bool} {n : Nat} {f : Nat × Nat × Target → List Byte}
    (h : ∀ x ∈ ls, s.loadNow t w pool old x.1 x.2.1 n x.2.2 = (some (f x), s)) : s.loadAll t w pool old n ls = (ls.map (fun x => (x, some (f x))), s) := by
  suffices hacc : ∀ acc, ls.foldl (fun (r : List ((Nat × Nat × Target) × Option (List Byte)) × State) x =>
      let q := r.2.loadNow t w pool old x.1 x.2.1 n x.2.2
      (r.1 ++ [(x, q.1)], q.2)) (acc, s) = (acc ++ ls.map (fun x => (x, some (f x))), s) from hacc []
  induction ls with
  | nil => simp
  | cons x ls ih =>
    intro acc
    simp only [List.foldl_cons, h x List.mem_cons_self, List.map_cons, ih fun y hy => h y (List.mem_cons_of_mem _ hy)]
    simp

theorem State.loadNow_vault {pool : Bool} {g l n k a : Nat} (hdx : t.dx = false) :
    s.loadNow t w pool false g l n (.vault k a) = (some (s.vaultRead k a n), s) := by
  simp [State.loadNow, hdx, overlay]

/-- A line of no object is found in the core's copy (R177). -/
theorem State.loadNow_hit {pool : Bool} {g l n va : Nat} {lf : Leaf} {x : L1Line} (hdx : t.dx = false) (hobj : s.objIf lf.trk t.ctx (lf.pa / 128) = none)
    (hhit : s.hitOf t.key lf = some x) : s.loadNow t w pool false g l n (.glob va lf) = (some ((x.data.drop (lf.pa % 128)).take n), s) := by
  simp [State.loadNow, hdx, hobj, State.findCopy, hhit]

/-- The body of a load whose fibres all find their bytes: they are answered with them. -/
theorem loadBody_found {i : Instr} {sp : Space} {d : Reg} {n : Nat} {f : Nat × Nat × Target → List Byte} (hso : anySo ls = false)
    (hcross : s.crossingsOf w (isPool sp) n ls = [])
    (h : ∀ x ∈ ls, (s.meetPins t ls).loadNow t w (isPool sp) false x.1 x.2.1 n x.2.2 = (some (f x), s.meetPins t ls))
    (hpins : (s.meetPins t ls).crossingsOf w (isPool sp) n ls = []) :
    let q := ((s.meetPins t ls).bankAll 4 t ls).openOps i w (pairsOf ls)
    loadBody i sp d n t ls w s = ls.foldl (fun (r : State) x => r.doneLane w x.1 x.2.1 (opOf q.1 x.1) (loadWrites d (f x))) q.2 := by
  intro q
  unfold loadBody
  simp only [hso, State.soFenceBy, Bool.false_eq_true, if_false, State.crossOld_clear hcross, State.loadAll_found h, State.crossLoad_clear hpins]
  simp [State.askLines, State.soFence, pairsOf, groupsOf, List.foldl_map]
  rfl

/-! ### Stores that are performed as they issue (R187) -/

theorem mem_insertLane {α : Type} {x y : Nat × Nat × α} {ls : List (Nat × Nat × α)} (h : y ∈ insertLane x ls) : y = x ∨ y ∈ ls := by
  induction ls with
  | nil => exact .inl (List.mem_singleton.1 h)
  | cons z ls ih =>
    unfold insertLane at h
    split at h
    · exact List.mem_cons.1 h
    · exact (List.mem_cons.1 h).elim (fun e => .inr (e ▸ List.mem_cons_self)) fun h => (ih h).imp_right (List.mem_cons_of_mem _)

theorem mem_of_mem_byLane {α : Type} {y : Nat × Nat × α} {ls : List (Nat × Nat × α)} (h : y ∈ byLane ls) : y ∈ ls := by
  induction ls with
  | nil => exact h
  | cons x ls ih => exact (mem_insertLane h).elim (fun e => e ▸ List.mem_cons_self) fun h => List.mem_cons_of_mem _ (ih h)

/-- Stores none of which goes to an object's part. -/
theorem State.storeAll_now {counted pool old : Bool} {data : Nat → Nat → List Byte} {step : State → Nat × Nat × Target → State}
    (h : ∀ x ∈ ls, ∀ r : State, r.storeNow t w counted pool old (data x.1 x.2.1) x.1 x.2.1 x.2.2 = (false, step r x)) :
    s.storeAll t w counted pool old data ls = ([], ls.foldl step s) := by
  unfold State.storeAll
  induction ls generalizing s with
  | nil => rfl
  | cons x ls ih =>
    simp only [List.foldl_cons, h x List.mem_cons_self, Bool.false_eq_true, if_false]
    exact ih fun y hy => h y (List.mem_cons_of_mem _ hy)

theorem State.storeNow_vault {counted pool : Bool} {bs : List Byte} {g l k a : Nat} :
    s.storeNow t w counted pool false bs g l (.vault k a) = (false, s.vaultWrite k a bs) := by
  simp [State.storeNow]

/-- A store to a line of no object (R266). -/
theorem State.storeNow_untracked {counted pool : Bool} {bs : List Byte} {g l va : Nat} {lf : Leaf} (h : lf.trk = false) :
    s.storeNow t w counted pool false bs g l (.glob va lf) =
      (false, if counted then (s.store t.key lf bs).pushLine t.key (lf.pa / 128) else s.store t.key lf bs) := by
  simp [State.storeNow, State.objIf, h]

/-- The body of a store that is performed as it issues: its fibres are answered once all have stored. -/
theorem storeBody_now {i : Instr} {counted : Bool} {sp : Space} {d : Reg} {sz : Size} {step : State → Nat × Nat × Target → State} (hdx : t.dx = false)
    (hcross : s.crossingsOf w (isPool sp) sz.bytes ls = [])
    (h : ∀ x ∈ ls, ∀ r : State,
      r.storeNow t w counted (isPool sp) false ((s.fibre w.team x.1 x.2.1).storeData w.pos d sz) x.1 x.2.1 x.2.2 = (false, step r x)) :
    let base := (((byLane ls).foldl step (s.meetPins t ls)).crossStore s w (isPool sp) false sz.bytes ls).bankAll 4 t ls
    let q := base.openOps i w (pairsOf ls)
    storeBody i counted sp d sz t ls w s = ls.foldl (fun (r : State) x => r.doneLane w x.1 x.2.1 (opOf q.1 x.1) []) q.2 := by
  intro base q
  have hall := State.storeAll_now (s := s.meetPins t ls) (t := t) (w := w) (data := fun g l => (s.fibre w.team g l).storeData w.pos d sz)
    (fun x hx => h x (mem_of_mem_byLane hx))
  unfold storeBody
  simp only [hdx, Bool.false_eq_true, if_false, State.crossOld_clear hcross, hall]
  simp
  rfl

/-! ### LD and ST -/

section Whole

variable {sz : Size} {m : MemOp} {d : Reg} {tgt : Nat × Nat → Target}

theorem found_inVaults (h : ∀ x ∈ s.performers w c, ∃ k a, tgt x = .vault k a) : InVaults (s.found w c tgt) := fun x hx => by
  obtain ⟨y, hy, rfl⟩ := List.mem_map.1 hx
  exact h y hy

theorem found_inMemory {va : Nat × Nat → Nat} {lf : Nat × Nat → Leaf} (h : ∀ x ∈ s.performers w c, tgt x = .glob (va x) (lf x)) :
    InMemory (s.found w c tgt) := fun x hx => by
  obtain ⟨y, hy, rfl⟩ := List.mem_map.1 hx
  exact ⟨_, _, h y hy⟩

theorem Target.vault_place {x : Target} (h : ∃ k a, x = .vault k a) : x = .vault x.place.1 x.place.2 := by
  obtain ⟨k, a, rfl⟩ := h
  rfl

theorem ld_exec : exec (.ld c sz m d) s = native (.ld c sz m d) s (homeWith true plainTurn m.space m.a (m.off.toInt * sz.bytes) sz.bytes .rd .read false .ok
    (loadBody (.ld c sz m d) m.space d sz.bytes)) := rfl

theorem st_exec : exec (.st c sz m d) s = native (.st c sz m d) s (homeWith true plainTurn m.space m.a (m.off.toInt * sz.bytes) sz.bytes .wr .write true .ok
    (beside (storeBody (.st c sz m d) c.counted m.space d sz))) := rfl

/-- A load whose operands are all in vaults (R186, R263). -/
theorem ld_vaults (H : Starts s (.ld c sz m d) w c t)
    (R : Reaches s w c t true plainTurn m.space m.a (m.off.toInt * sz.bytes) sz.bytes .rd .read false tgt)
    (hv : ∀ x ∈ s.performers w c, ∃ k a, tgt x = .vault k a)
    (hcross : (s.readied w c t m.space .read tgt).crossingsOf (w.by (s.performers w c)) (isPool m.space) sz.bytes (s.found w c tgt) = []) :
    let ready := s.readied w c t m.space .read tgt
    Completes (.ld c sz m d) s w c (ready.bankAll 4 t (s.found w c tgt)) (fun x =>
      some (loadWrites d (ready.vaultRead (tgt x).place.1 (tgt x).place.2 sz.bytes))) := by
  intro ready
  have hin := found_inVaults hv
  have hpins : ready.meetPins t (s.found w c tgt) = ready := State.meetPins_vaults hin
  refine completes_home H R ld_exec rfl (.bankAll _ _ _ _) (fun x => loadWrites d (ready.vaultRead (tgt x).place.1 (tgt x).place.2 sz.bytes)) ?_
  have hbody := loadBody_found (w := w.by (s.performers w c)) (i := .ld c sz m d) (sp := m.space) (d := d)
    (f := fun x => ready.vaultRead x.2.2.place.1 x.2.2.place.2 sz.bytes) (anySo_vaults hin) hcross
    (fun x hx => by
      rw [hpins, Target.vault_place (hin x hx)]
      exact State.loadNow_vault (Team.dx_of_plain H.plain)) (by rw [hpins]; exact hcross)
  rw [hpins] at hbody
  dsimp only at hbody ⊢
  rw [hbody, pairsOf_found, State.foldl_found]

/-- A load whose operands are all in lines that the core has a copy of (R177, R186). -/
theorem ld_hits {va : Nat × Nat → Nat} {lf : Nat × Nat → Leaf} {copy : Nat × Nat → L1Line} (H : Starts s (.ld c sz m d) w c t)
    (R : Reaches s w c t true plainTurn m.space m.a (m.off.toInt * sz.bytes) sz.bytes .rd .read false tgt) (hso : anySo (s.found w c tgt) = false)
    (hg : ∀ x ∈ s.performers w c, tgt x = .glob (va x) (lf x))
    (hobj : ∀ x ∈ s.performers w c, ((s.readied w c t m.space .read tgt).meetPins t (s.found w c tgt)).objIf (lf x).trk t.ctx ((lf x).pa / 128) = none)
    (hhit : ∀ x ∈ s.performers w c, ((s.readied w c t m.space .read tgt).meetPins t (s.found w c tgt)).hitOf t.key (lf x) = some (copy x)) :
    let ready := s.readied w c t m.space .read tgt
    Completes (.ld c sz m d) s w c (ready.meetPins t (s.found w c tgt)) (fun x =>
      some (loadWrites d (((copy x).data.drop ((lf x).pa % 128)).take sz.bytes))) := by
  intro ready
  have hin := found_inMemory hg
  refine completes_home H R ld_exec rfl (.meetPins _ _ _) (fun x => loadWrites d (((copy x).data.drop ((lf x).pa % 128)).take sz.bytes)) ?_
  have hbody := loadBody_found (w := w.by (s.performers w c)) (i := .ld c sz m d) (sp := m.space) (d := d)
    (f := fun x => ((copy (x.1, x.2.1)).data.drop ((lf (x.1, x.2.1)).pa % 128)).take sz.bytes) hso (State.crossingsOf_memory hin)
    (fun x hx => by
      obtain ⟨y, hy, rfl⟩ := List.mem_map.1 hx
      rw [hg y hy]
      exact State.loadNow_hit (Team.dx_of_plain H.plain) (hobj y hy) (hhit y hy)) (State.crossingsOf_memory hin)
  rw [State.bankAll_memory hin] at hbody
  dsimp only at hbody ⊢
  rw [hbody, pairsOf_found, State.foldl_found]

/-- A store that is performed as it issues, beside no fence, completes. -/
theorem st_completes {step : State → Nat × Nat × Target → State} (H : Starts s (.st c sz m d) w c t)
    (R : Reaches s w c t true plainTurn m.space m.a (m.off.toInt * sz.bytes) sz.bytes .wr .write true tgt) (hso : anySo (s.found w c tgt) = false)
    (hcross : (s.readied w c t m.space .write tgt).crossingsOf (w.by (s.performers w c)) (isPool m.space) sz.bytes (s.found w c tgt) = [])
    (hnear : ∀ r x, State.Near r (step r x))
    (hstep : ∀ x ∈ s.found w c tgt, ∀ r : State, r.storeNow t (w.by (s.performers w c)) c.counted (isPool m.space) false
      (((s.readied w c t m.space .write tgt).fibre w.team x.1 x.2.1).storeData w.pos d sz) x.1 x.2.1 x.2.2 = (false, step r x)) :
    let ready := s.readied w c t m.space .write tgt
    Completes (.st c sz m d) s w c ((((byLane (s.found w c tgt)).foldl step (ready.meetPins t (s.found w c tgt))).crossStore ready (w.by (s.performers w c))
      (isPool m.space) false sz.bytes (s.found w c tgt)).bankAll 4 t (s.found w c tgt)) (fun _ => some []) := by
  intro ready
  refine completes_home H R st_exec rfl ((((State.Near.meetPins _ _ _).trans (.foldl _ _ hnear _)).trans (.crossStore _ _ _ _ _ _ _)).trans (.bankAll _ _ _ _))
    (fun _ => []) ?_
  simp only [beside, hso, State.soFenceBy, State.soFence, Bool.false_eq_true, if_false]
  rw [storeBody_now (Team.dx_of_plain H.plain) hcross hstep, pairsOf_found, State.foldl_found]

end Whole

end LoadsAndStores

/-- Settles O25. Which of its own stores under the other space of vaults an access goes before is the model's choice (log 46). -/
theorem loadsAndStores : Obligations.LoadsAndStores := by
  intro s w t c sz m d tgt lf va copy n found so pool u disp
  refine ⟨fun H R => gives_home H R .ok (fun _ _ => rfl) _ ld_exec, fun H R => ⟨ld_vaults H R, fun hso h => ?_⟩, fun H R => ?_,
    fun H R => ⟨fun hv hcross => ?_, fun hso h => ?_⟩⟩
  · exact ld_hits H R hso (fun x hx => (h x hx).1) (fun x hx => (h x hx).2.2.1) (fun x hx => (h x hx).2.2.2)
  · have hgives := gives_home H R .ok (fun _ _ => rfl) _ st_exec
    refine ⟨fun hdx => ?_, fun hdx => ?_⟩
    · simp only [beside, storeBody, Team.dx_of_plain hdx, Bool.false_eq_true, if_false] at hgives
      exact hgives
    · simp only [beside, storeBody, Team.dx_of_grid hdx, if_true] at hgives
      exact hgives
  · have hin := found_inVaults hv
    have hdone := st_completes H R (anySo_vaults hin) hcross (fun r x => State.Near.vaultWrite r _ _ _) fun x hx r => by
      rw [Target.vault_place (hin x hx)]
      exact State.storeNow_vault
    dsimp only at hdone
    rwa [State.meetPins_vaults hin] at hdone
  · have hin := found_inMemory (fun x hx => (h x hx).1)
    have hdone := st_completes H R hso (State.crossingsOf_memory hin)
      (step := fun r x => let b := r.store t.key (lf (x.1, x.2.1)) (((s.readied w c t m.space .write tgt).fibre w.team x.1 x.2.1).storeData w.pos d sz)
        if c.counted then b.pushLine t.key ((lf (x.1, x.2.1)).pa / 128) else b)
      (fun r x => by
        dsimp only
        split
        · exact (State.Near.store _ _ _ _).trans (.pushLine _ _ _)
        · exact .store _ _ _ _)
      fun x hx r => by
        obtain ⟨y, hy, rfl⟩ := List.mem_map.1 hx
        rw [(h y hy).1]
        exact State.storeNow_untracked (h y hy).2
    dsimp only at hdone
    rwa [State.crossStore_memory hin, State.bankAll_memory hin] at hdone

end Sys2Proof.Machine
end

section
/-!
PROOFS. The engines' next pieces of work (O49): the copy engine, the matrix engine, the chain between engines, the streams, the collective engine
and the commit of a deterministic grid.
-/

namespace Sys2Proof.Machine

-- One theorem at a time: the memory of a compile of the whole text is limited.
set_option Elab.async false

variable {s : State} {die core n id : Nat}

/-! ### Copies land (R191, R193) -/

section Sluice

variable {t : Team} {c : Copy}

/-- Sectors of an ACPY land, unless there are none or the barrier's bank is late. -/
theorem State.landItems_eq {k m bar : Nat} (hm : 0 < m) (hbank : s.bankLate [1] k bar = false) (src : Place) (dst size : Nat) (keep : List Bool)
    (trk : Bool) : s.landItems k id c t m src dst size bar keep trk =
      (((((List.range m).foldl (fun (r : State) i =>
        let got := c.bytesOr (4 * (c.done + i)) 4 (r.sourceRead t.ctx t.die trk src (4 * (c.done + i)) 4) r
        got.2.writeKept k (dst + 4 * (c.done + i)) got.1 (keep.drop (4 * (c.done + i)))) s).tbarDo k bar (fun b => b.pledge (-(m : Int)))).bankTake
          [1] k bar).copyAt k id c (c.done + m) (size / 4)) := by
  simp only [State.landItems, hbank, Nat.pos_iff_ne_zero.1 hm, decide_false, Bool.or_self, Bool.false_eq_true, if_false]

/-- What the caches hold of the source does not stand in the way of an ACPY: it lands the sectors that are left, n at most. -/
theorem State.landAcpy_eq {k : Nat} {src : Place} (hsnoop : ∀ pa, src = .mem pa → c.data = [] → s.engineSnoops [pa] false = none)
    (dst size bar : Nat) (keep : List Bool) (trk : Bool) :
    s.landAcpy k id c t n src dst size bar keep trk = s.landItems k id c t (min n (size / 4 - c.done)) src dst size bar keep trk := by
  cases src with
  | vault key a => rfl
  | mem pa =>
    have hnone : (if c.data.isEmpty then s.engineSnoops [pa] false else none) = none := by
      split
      next hempty => exact hsnoop pa rfl (List.isEmpty_iff.1 hempty)
      next => rfl
    simp only [State.landAcpy, hnone]

variable (ha : s.Alive) (hcopy : fget (s.core (coreKey die core)).copies id = some c) (hteam : s.team c.team = some t)
include ha hcopy hteam

theorem happens_sluiceSectorLand_acpy {src : Place} {dst size bar : Nat} {keep : List Bool} {trk : Bool} (hkind : c.kind = .acpy src dst size bar keep trk) :
    Happens (.sluiceSectorLand die core id n) s (s.landAcpy (coreKey die core) id c t n src dst size bar keep trk) := by
  show execSluiceSectorLand die core id n s = _
  rw [execSluiceSectorLand, ha.event]
  simp only [hcopy, hteam, hkind]

/-- An MCPY lands in every member of its mask, none of which is saved or has its barrier's bank late. -/
theorem happens_sluiceSectorLand_mcpy {shape base bytes dst mask bar m : Nat} {pas : List Leaf} (hkind : c.kind = .mcpy shape base bytes dst mask bar)
    (hpaused : c.paused = none) (hn : n ≠ 0) (hhere : ∀ x ∈ maskMembers mask, s.memberAway t x = false)
    (hbank : ∀ y ∈ s.copyMembers t mask, s.bankLate [1] y.key (y.dataBase + bar) = false)
    (hpages : if 0 < c.data.length / 4 - c.done then m = min (c.data.length / 4 - c.done) (min n (bytes / 4 - c.done)) ∧ pas = []
      else m = max 1 (s.tileReady (some (coreKey die core)) t.die (s.ctxOf t) (shapeOf shape) base c.done (min n (bytes / 4 - c.done))) ∧
        s.tilePas (some (coreKey die core)) t.die (s.ctxOf t) (shapeOf shape) base (4 * c.done) (4 * m) = .ok pas)
    (hsnoop : s.engineSnoops (pas.map (·.pa)) false = none) :
    let got := c.bytesOr (4 * c.done) (4 * m) (s.enginePas t.ctx t.die pas) s
    Happens (.sluiceSectorLand die core id n) s (((s.copyMembers t mask).foldl (fun (r : State) y =>
      ((r.vaultWrite y.key (y.dataBase + dst + 4 * c.done) got.1).tbarDo y.key (y.dataBase + bar) (fun b => b.pledge (-(m : Int)))).bankTake
        [1] y.key (y.dataBase + bar)) got.2).copyAt (coreKey die core) id c (c.done + m) (bytes / 4)) := by
  intro got
  have hany : (maskMembers mask).any (s.memberAway t) = false := by simpa [List.any_eq_false] using hhere
  have hlate : (s.copyMembers t mask).any (fun y => s.bankLate [1] y.key (y.dataBase + bar)) = false := by simpa [List.any_eq_false] using hbank
  show execSluiceSectorLand die core id n s = _
  rw [execSluiceSectorLand, ha.event]
  simp only [hcopy, hteam, hkind, hpaused, hn, hany, Option.isSome_none, decide_false, Bool.or_self, Bool.false_eq_true, if_false, State.landMcpy]
  split at hpages
  next hknown =>
    obtain ⟨rfl, rfl⟩ := hpages
    simp only [hknown, if_true, hsnoop, hlate, Bool.false_eq_true, if_false]
    rfl
  next hknown =>
    obtain ⟨rfl, hok⟩ := hpages
    simp only [hknown, if_false, hok, hsnoop, hlate, Bool.false_eq_true]
    rfl

end Sluice

/-! ### Matrix operations complete (R203 to R223) -/

section Matrix

/-- The rows of A that an MXM uses: what arrived from the west, or the core's own (R214). -/
def State.mxmRows (s : State) (k : Nat) (reg : Region) (d : MxmDesc) : ChainMsg :=
  let h := d.share reg.clw reg.col reg.row
  let own := if h.readsA then s.ownA k reg d h else ([], [])
  let mine : ChainMsg := ⟨d.k, d.afmt, h.rows, d.cw, own.1, own.2⟩
  if h.fromWest then (s.core k).eng.inbox.headD mine else mine

/-- The engine once an MXM has taken its rows from the west, sent them east and eaten its tile. -/
def State.mxmFed (s : State) (k : Nat) (reg : Region) (d : MxmDesc) : State :=
  let h := d.share reg.clw reg.col reg.row
  let passed := s.modEng k (fun y => { y with
    inbox := if h.fromWest then y.inbox.drop 1 else y.inbox, outbox := if h.toEast then y.outbox ++ [s.mxmRows k reg d] else y.outbox })
  if d.bsrc then passed.modEng k (fun y => y.eatTile (d.bloc % 64)) else passed

/-- Rows fit an MXM when they agree with it in length, format and number, and in the form of the cluster (R218). -/
def ChainMsg.fits (msg : ChainMsg) (d : MxmDesc) (h : Share) : Bool :=
  !(decide (msg.k ≠ d.k) || decide (msg.afmt ≠ d.afmt) || decide (msg.rows ≠ h.rows) || decide (msg.cw ≠ d.cw))

theorem ChainMsg.fits_iff (msg : ChainMsg) (d : MxmDesc) (h : Share) :
    msg.fits d h = true ↔ msg.k = d.k ∧ msg.afmt = d.afmt ∧ msg.rows = h.rows ∧ msg.cw = d.cw := by
  simp [ChainMsg.fits, and_assoc]

/-- What an MXM computes with its rows and its tile: its bank and its counts. -/
def State.mxmRun (s : State) (k : Nat) (reg : Region) (d : MxmDesc) (ssh : DWord) (tile : Option Tile) : Bank × List Nat :=
  let h := d.share reg.clw reg.col reg.row
  matRun d ssh h (s.mxmRows k reg d).data (s.mxmRows k reg d).scales (if h.readsB then s.ownB k reg d h tile else [])
    ((List.range h.cols).map (fun j => if matMx d.bfmt then s.vaultRead k (reg.base + d.bsc + (h.col0 + j) * (d.k / 32)) (d.k / 32) else []))
    ((s.core k).eng.bank d.bank)

variable {reg : Region} {d : MxmDesc} {k : Nat}

/-- The rows come from the head of the inbox for a relay and a tail, and from the core itself otherwise. -/
theorem State.stepMxm_ready {tile : Option Tile} (htile : s.tileFor k d = .ready tile)
    (hrows : (d.share reg.clw reg.col reg.row).fromWest = true → (s.core k).eng.inbox ≠ []) (ticket ssh : DWord) :
    s.stepMxm k reg ticket d ssh =
      if !(s.mxmRows k reg d).fits d (d.share reg.clw reg.col reg.row) then (s.mxmFed k reg d).abandonMat k ticket 1
      else ((s.mxmFed k reg d).modEng k (fun y => y.setBank d.bank (s.mxmRun k reg d ssh tile).1)).finishMat k ticket
        (s.mxmRun k reg d ssh tile).2 := by
  have hwait : ((d.share reg.clw reg.col reg.row).fromWest && (s.core k).eng.inbox.isEmpty) = false := by
    cases hwest : (d.share reg.clw reg.col reg.row).fromWest with
    | false => rfl
    | true => simpa using hrows hwest
  by_cases hinbox : (s.core k).eng.inbox = []
  · rw [hinbox] at hwait
    simp only [State.stepMxm, htile, hwait, hinbox, Bool.false_eq_true, if_false, State.mxmFed, State.mxmRun, State.mxmRows, ChainMsg.fits, Bool.not_not,
      List.headD_nil, ite_self]
  · obtain ⟨m, more, hcons⟩ := List.exists_cons_of_ne_nil hinbox
    rw [hcons] at hwait
    simp only [State.stepMxm, htile, hwait, hcons, Bool.false_eq_true, if_false, State.mxmFed, State.mxmRun, State.mxmRows, ChainMsg.fits, Bool.not_not,
      List.headD_cons]

end Matrix

section MatrixEvents

variable {op : MatOp} {rest : List MatOp} {reg : Region} (ha : s.Alive) (hqueue : (s.core (coreKey die core)).eng.queue = op :: rest)
  (hregion : (s.core (coreKey die core)).eng.holder.bind s.region = some reg) (hpaused : op.paused = none)
include ha hqueue hregion hpaused

theorem happens_matrixOpComplete_mxm {d : MxmDesc} {ssh : DWord} (hkind : op.kind = .mxm d ssh) :
    Happens (.matrixOpComplete die core) s (s.stepMxm (coreKey die core) reg op.ticket d ssh) := by
  show execMatrixOpComplete die core s = _
  rw [execMatrixOpComplete, ha.event]
  simp only [hqueue, hregion, hpaused, hkind, Option.isSome_none, Bool.false_eq_true, if_false]

theorem happens_matrixOpComplete_zero {int b : Bool} (hkind : op.kind = .zero int b) :
    Happens (.matrixOpComplete die core) s
      ((s.modEng (coreKey die core) (fun y => y.setBank b ⟨int, 0, []⟩)).finishMat (coreKey die core) op.ticket [0, 0, 0, 0]) := by
  show execMatrixOpComplete die core s = _
  rw [execMatrixOpComplete, ha.event]
  simp only [hqueue, hregion, hpaused, hkind, Option.isSome_none, Bool.false_eq_true, if_false]

theorem happens_matrixOpComplete_fill {int b : Bool} {v : Word} (hkind : op.kind = .fill int b v) :
    Happens (.matrixOpComplete die core) s ((s.modEng (coreKey die core) (fun y => y.setBank b
      ⟨int, if int then v.signExtend 48 else BitVec.ofNat 48 (toFF .acc48 .rne false (FF.f32.value v.toNat)), []⟩)).finishMat
        (coreKey die core) op.ticket [0, 0, 0, 0]) := by
  show execMatrixOpComplete die core s = _
  rw [execMatrixOpComplete, ha.event]
  simp only [hqueue, hregion, hpaused, hkind, Option.isSome_none, Bool.false_eq_true, if_false]

theorem happens_matrixOpComplete_restore {int b : Bool} {off : Nat} (hkind : op.kind = .restore int b off) :
    Happens (.matrixOpComplete die core) s ((s.modEng (coreKey die core) (fun y =>
      y.setBank b (bankOfImage int (s.vaultRead (coreKey die core) (reg.base + off) 122880)))).finishMat (coreKey die core) op.ticket [0, 0, 0, 0]) := by
  show execMatrixOpComplete die core s = _
  rw [execMatrixOpComplete, ha.event]
  simp only [hqueue, hregion, hpaused, hkind, Option.isSome_none, Bool.false_eq_true, if_false]

/-- A store to the core's own region (R223). -/
theorem happens_matrixOpComplete_storeLocal {b : Bool} {d : MxstDesc} (hkind : op.kind = .store b d) (hlocal : d.glb = false) :
    Happens (.matrixOpComplete die core) s (((storeWrites d ((s.core (coreKey die core)).eng.bank b)).foldl (fun (a : State) w =>
      a.vaultWrite (coreKey die core) (reg.base + w.1) w.2) s).finishMat (coreKey die core) op.ticket [0, 0, 0, 0]) := by
  show execMatrixOpComplete die core s = _
  rw [execMatrixOpComplete, ha.event]
  simp only [hqueue, hregion, hpaused, hkind, hlocal, Option.isSome_none, Bool.false_eq_true, if_false]

/-- A store to global memory, whose pages are at hand and which no cache stands in the way of (R194, R223). -/
theorem happens_matrixOpComplete_storeGlobal {b : Bool} {tid : Nat} {d : MxstDesc} {t : Team} {ps : List LeafByte} (hkind : op.kind = .store b d)
    (hglob : d.glb = true) (hholder : (s.core (coreKey die core)).eng.holder = some (.team tid)) (hteam : s.team tid = some t)
    (hpages : s.writePas (coreKey die core) t.die (s.ctxOf t) (storeWrites d ((s.core (coreKey die core)).eng.bank b)) = .ok ps)
    (hsnoop : s.engineSnoops (ps.map (·.1.pa)) true = none) :
    Happens (.matrixOpComplete die core) s
      ((s.engineBytes t.ctx t.die (fun _ => true) ps).finishMat (coreKey die core) op.ticket [0, 0, 0, 0]) := by
  rw [hholder] at hregion
  show execMatrixOpComplete die core s = _
  rw [execMatrixOpComplete, ha.event]
  simp only [hqueue, hholder, hregion, hpaused, hkind, hglob, hteam, State.stepStore, hpages, hsnoop, Option.isSome_none, Bool.false_eq_true, if_false,
    if_true]

end MatrixEvents

/-! ### The chain and the streams (R214, R217) -/

theorem happens_causewayDataArrive {t u : Team} {msg : ChainMsg} {more : List ChainMsg} (ha : s.Alive) (hcore : core % 8 ≠ 0)
    (ht : s.holderTeam (coreKey die core) = some t) (hu : s.holderTeam (coreKey die (core - 1)) = some u)
    (hout : (s.core (coreKey die (core - 1))).eng.outbox = msg :: more) (hgrid : t.grid = u.grid) (hclus : t.clusid = u.clusid)
    (hnext : t.teamid = u.teamid + 1) :
    Happens (.causewayDataArrive die core) s ((s.modEng (coreKey die (core - 1)) (fun y => { y with outbox := y.outbox.drop 1 })).modEng
      (coreKey die core) (fun y => { y with inbox := y.inbox ++ [msg] })) := by
  show execCausewayDataArrive die core s = _
  rw [execCausewayDataArrive, ha.event]
  simp only [hcore, ht, hu, hout, hgrid, hclus, hnext, decide_true, Bool.and_self, if_false, if_true]

section Staithe

variable {sub : Sub} {st : Stream} (ha : s.Alive)
  (hsub : (s.core (coreKey die core)).eng.subs.find? (fun y => decide (y.stream = id)) = some sub) (hst : fget (s.die die).streams id = some st)
  (hleft : sub.next < st.tiles) (hroom : sub.tiles.length < sub.window) (hpaused : st.paused = none)
include ha hsub hst hleft hroom hpaused

/-- A tile that the replay buffer holds is delivered from there. -/
theorem happens_staitheTileDeliver_replayed {b : Nat × List Byte} (hbuf : st.buf.find? (fun y => decide (y.1 = sub.next)) = some b) :
    Happens (.staitheTileDeliver die core id) s (s.deliver (coreKey die core) id (st.tile b.2)) := by
  show execStaitheTileDeliver die core id s = _
  rw [execStaitheTileDeliver, ha.event]
  simp only [hsub, hst, Nat.not_le.2 hleft, Nat.not_le.2 hroom, hpaused, hbuf, Option.isSome_none, decide_false, Bool.or_self, Bool.false_eq_true, if_false]

/-- Any other tile is read from the stream's source, and the replay buffer takes it. -/
theorem happens_staitheTileDeliver_read {x : Ctx} {pas : List Leaf} (hbuf : st.buf.find? (fun y => decide (y.1 = sub.next)) = none)
    (hctx : fget s.ctxs st.ctx = some x)
    (hpages : s.tilePas none die x (shapeOf st.shape) ((st.base : Int) + sub.next * st.tstride) 0 (shapeOf st.shape).bytes = .ok pas)
    (hsnoop : s.engineSnoops (pas.map (·.pa)) false = none) :
    let r := s.enginePas st.ctx die pas
    Happens (.staitheTileDeliver die core id) s ((r.2.modDie die (fun d => { d with
      streams := fset d.streams id { st with buf := keepTiles st.replay (st.buf ++ [(sub.next, r.1)]) } })).deliver (coreKey die core) id (st.tile r.1)) := by
  show execStaitheTileDeliver die core id s = _
  rw [execStaitheTileDeliver, ha.event]
  simp only [hsub, hst, Nat.not_le.2 hleft, Nat.not_le.2 hroom, hpaused, hbuf, hctx, hpages, hsnoop, Option.isSome_none, decide_false, Bool.or_self,
    Bool.false_eq_true, if_false]

end Staithe

/-! ### Collectives (R346, R347) -/

section Collectives

variable {x : Ctx} {col : Coll} {cols : List Coll} {peers : List CollParams} {data : List PeerData}

/-- Ranks that meet with equal parameters start, and others fail. -/
def Coll.met (ok : Bool) (y : Coll) : Coll := if ok then { y with started := true } else { y with failed := some 1 }

/-- Every rank stands in another package: this die's head alone starts or fails. -/
theorem State.meetRanks_alone (hpeers : peers.length = (s.farRanks die col).length) (hmate : s.mateRank die col = none) :
    s.meetRanks die peers col = s.setHead die (Coll.met (peers.all (fun p => decide (CollParams.norm p = col.params)))) := by
  simp only [State.meetRanks, hpeers, hmate, ne_eq, not_true_eq_false, if_false]
  rfl

/-- A rank on the other die whose collective is at its engine's head, and waits: both heads start or fail. -/
theorem State.meetRanks_mate {m : Coll} (hpeers : peers.length = (s.farRanks die col).length) (hrank : s.mateRank die col ≠ none)
    (hmate : s.mate die col = some m) (hidle : m.started = false) (hgood : m.failed = none) (hgoes : m.paused = none) :
    s.meetRanks die peers col =
      (s.setHead die (Coll.met (peers.all (fun p => decide (CollParams.norm p = col.params)) && decide (m.params = col.params)))).setHead (1 - die)
        (Coll.met (peers.all (fun p => decide (CollParams.norm p = col.params)) && decide (m.params = col.params))) := by
  obtain ⟨i, hi⟩ := Option.ne_none_iff_exists'.1 hrank
  simp only [State.meetRanks, hpeers, hi, hmate, hidle, hgood, hgoes, Option.isSome_none, Bool.or_self, Bool.false_eq_true, ne_eq, not_true_eq_false,
    if_false]
  rfl

/-- The spans that the rank on the other die has read for it, when it brings its data now. -/
def matesRead : Option (Coll × CollPages) → List Span
  | some y => y.2.src ++ y.2.ssc
  | none => []

variable (ha : s.Alive) (hhead : (s.die die).colls = col :: cols) (hctx : fget s.ctxs col.ctx = some x) (hpaused : col.paused = none)
include ha hhead hctx hpaused

/-- The engine reads the rank map of its next collective, which fails with LINK for a bad entry; else the ranks meet. -/
theorem happens_collectiveStart {ps : List Span} (hidle : col.started = false) (hgood : col.failed = none) (hends : col.ends = [])
    (hmap : s.xlateRun none die x col.map (4 * col.nranks) .read = .ok ps) :
    let map := s.readRuns col.ctx die ps
    let ends := (List.range col.nranks).map (fun i => leNat ((map.1.drop (4 * i)).take 4))
    let known := map.2.setHead die (fun y => { y with ends := ends })
    Happens (.collectiveStart die peers) s
      (if ends.any s.endBad then known.setHead die (fun y => { y with failed := some 2 }) else known.meetRanks die peers { col with ends := ends }) := by
  show execCollectiveStart die peers s = _
  rw [execCollectiveStart, ha.event]
  simp only [hhead, hidle, hgood, hpaused, hends, hctx, hmap, Option.isSome_none, Bool.or_self, Bool.false_eq_true, List.isEmpty_nil, Bool.not_true,
    if_false]

/-- A collective whose ranks have all brought their data finishes. -/
theorem happens_collectiveComplete_finish {p : CollPages} {mp : Option (Coll × CollPages)} (hstart : col.started = true) (hgood : col.failed = none)
    (hpages : s.collPages die x col = .ok p) (hmates : s.matePages die col = some mp) (hdata : ∀ i ∈ s.farRanks die col, ∃ y ∈ data, y.rank = i)
    (hread : s.engineSnoops ((p.src ++ p.ssc ++ matesRead mp).map (·.pa)) false = none)
    (hwrite : s.engineSnoops ((p.dst ++ p.dsc ++ p.cpl).map (·.pa)) true = none) :
    Happens (.collectiveComplete die .ok data) s (s.finishColl die col p mp data) := by
  have hall : (s.farRanks die col).all (fun i => data.any (fun q => decide (q.rank = i))) = true := by
    simpa only [List.all_eq_true, List.any_eq_true, decide_eq_true_eq] using hdata
  show execCollectiveComplete die .ok data s = _
  rw [execCollectiveComplete, ha.event]
  cases mp with
  | none =>
    simp only [matesRead] at hread
    simp only [hhead, hctx, hpaused, hstart, hgood, hpages, hmates, hall, hread, hwrite, Option.isSome_none, Bool.true_or, Bool.not_true, Bool.or_self,
      Bool.false_eq_true, if_false]
  | some y =>
    simp only [matesRead] at hread
    simp only [hhead, hctx, hpaused, hstart, hgood, hpages, hmates, hall, hread, hwrite, Option.isSome_none, Bool.true_or, Bool.not_true, Bool.or_self,
      Bool.false_eq_true, if_false]

/-- A collective under way whose link is lost fails with code 2; its destination holds some of its sectors. -/
theorem happens_collectiveComplete_link {p : CollPages} (hstart : col.started = true) (hgood : col.failed = none) (hfar : s.farRanks die col ≠ [])
    (hpages : s.collPages die x col = .ok p) :
    let r := s.collBytes die col p (col.got.toList ++ data)
    Happens (.collectiveComplete die .link data) s
      (((r.2.2.2.writeSome col.ctx die p.dst r.1).writeSome col.ctx die p.dsc r.2.1).failColl die 2 col (s.cplPages die x col)) := by
  have hempty : (s.farRanks die col).isEmpty = false := by simpa using hfar
  show execCollectiveComplete die .link data s = _
  rw [execCollectiveComplete, ha.event]
  simp only [hhead, hctx, hpaused, hstart, hgood, hpages, hempty, Option.isSome_none, Bool.true_or, Bool.not_true, Bool.not_false, Bool.or_self,
    Bool.false_eq_true, if_false, if_true]

/-- A collective that failed before it started ends in its failure. -/
theorem happens_collectiveComplete_failed {p : CollPages} {code : Nat} (hidle : col.started = false) (hbad : col.failed = some code)
    (hpages : s.collPages die x col = .ok p) :
    Happens (.collectiveComplete die .ok data) s (s.failColl die code col (s.cplPages die x col)) := by
  show execCollectiveComplete die .ok data s = _
  rw [execCollectiveComplete, ha.event]
  simp only [hhead, hctx, hpaused, hidle, hbad, hpages, Option.isSome_none, Option.isSome_some, Bool.or_true, Bool.not_true, Bool.or_self,
    Bool.false_eq_true, if_false]
  match code with
  | 0 | 1 | _ + 2 => rfl

end Collectives

/-! ### The commit of a deterministic grid (R334, R335) -/

section Commit

variable {task : Task} {gid q : Nat} {g : Grid} (ha : s.Alive) (htask : fget s.tasks id = some task) (htgrid : task.grid = some gid)
  (hgrid : fget s.grids gid = some g) (hdx : g.kern.dx = some q)
include ha htask htgrid hgrid hdx

theorem happens_quantumCommit_begin (hnew : g.applied = false) (hsafe : g.safe = false) (hstop : s.gridStopped gid = true)
    (hbuf : s.engineSnoops (s.bufferLines gid) true = none) (hcopy : s.engineSnoops (s.copyPas gid) false = none) :
    Happens (.quantumCommit id) s ((s.beginCommit gid).goCommit gid q) := by
  show execQuantumCommit id s = _
  rw [execQuantumCommit, ha.event]
  simp only [htask, Option.bind_some, htgrid, hgrid, hdx, hnew, hsafe, hstop, hbuf, hcopy, Bool.not_true, Bool.or_self, Bool.false_eq_true, if_false]

theorem happens_quantumCommit_goOn (happlied : g.applied = true) : Happens (.quantumCommit id) s (s.goCommit gid q) := by
  show execQuantumCommit id s = _
  rw [execQuantumCommit, ha.event]
  simp only [htask, Option.bind_some, htgrid, hgrid, hdx, happlied, if_true]

end Commit

/-- Settles O49: each engine's event by what it does next. The pairing of the dies' ranks, the map read at the start and the end that a bad entry gives
are the model's choice (log 48), torn words log 29, and the parts of a commit log 47. -/
theorem engineEvents : Obligations.EngineEvents := by
  intro s die core n id t u c op rest reg msg more sub st x pas col cols peers data task gid q g ha k west e
  refine ⟨fun hcopy hteam => ⟨?_, ?_⟩, fun hqueue hregion hpaused => ?_, ?_, fun hsub hst hleft hroom hpaused => ⟨?_, ?_⟩,
    fun hhead hctx hpaused => ⟨?_, ?_, ?_, ?_⟩, fun htask htgrid hgrid hdx => ?_⟩
  · intro src dst size bar keep trk hkind hsnoop m hm hbank landed
    have hlands := happens_sluiceSectorLand_acpy (n := n) ha hcopy hteam hkind
    rwa [State.landAcpy_eq hsnoop, State.landItems_eq hm hbank] at hlands
  · intro shape base bytes dst mask bar m hkind hpaused hn hhere hbank known want hpages hsnoop
    exact happens_sluiceSectorLand_mcpy ha hcopy hteam hkind hpaused hn hhere hbank hpages hsnoop
  · intro i ends
    refine ⟨fun d ssh tile hkind htile => ?_, fun int b hkind => ?_, fun int b v hkind => ?_, fun int b off hkind => ?_, fun b d hkind hlocal => ?_,
      fun b d tid hkind hglob hholder hteam ps hpages hsnoop => ?_⟩
    · intro h hrows own mine msg passed fed fits
      have hfits : (s.mxmRows k reg d).fits d (d.share reg.clw reg.col reg.row) = true ↔ fits := ChainMsg.fits_iff _ _ _
      have hsteps := happens_matrixOpComplete_mxm ha hqueue hregion hpaused hkind
      rw [State.stepMxm_ready htile hrows] at hsteps
      refine ⟨fun hfit => ?_, fun hfit => ?_⟩
      · rw [Bool.eq_false_iff.2 (mt hfits.1 hfit)] at hsteps
        exact hsteps
      · rw [hfits.2 hfit] at hsteps
        exact hsteps
    · exact happens_matrixOpComplete_zero ha hqueue hregion hpaused hkind
    · exact happens_matrixOpComplete_fill ha hqueue hregion hpaused hkind
    · exact happens_matrixOpComplete_restore ha hqueue hregion hpaused hkind
    · exact happens_matrixOpComplete_storeLocal ha hqueue hregion hpaused hkind hlocal
    · exact happens_matrixOpComplete_storeGlobal ha hqueue hregion hpaused hkind hglob hholder hteam hpages hsnoop
  · exact happens_causewayDataArrive ha
  · exact fun b hbuf => happens_staitheTileDeliver_replayed ha hsub hst hleft hroom hpaused hbuf
  · exact fun hbuf hctx hpages hsnoop => happens_staitheTileDeliver_read ha hsub hst hleft hroom hpaused hbuf hctx hpages hsnoop
  · intro ps hidle hgood hends hmap map ends known mine meets same
    have hstart : Happens (.collectiveStart die peers) s
        (if ends.any s.endBad then known.setHead die (fun y => { y with failed := some 2 }) else known.meetRanks die peers mine) :=
      happens_collectiveStart ha hhead hctx hpaused hidle hgood hends hmap
    refine ⟨fun hbad => ?_, fun hfine hpeers => ⟨fun hmate => ?_, fun m hrank hmate hmidle hmgood hmgoes => ?_⟩⟩
    · rwa [if_pos (List.any_eq_true.2 hbad)] at hstart
    · rw [if_neg (by simpa using hfine), State.meetRanks_alone hpeers hmate] at hstart
      exact hstart
    · rw [if_neg (by simpa using hfine), State.meetRanks_mate hpeers hrank hmate hmidle hmgood hmgoes] at hstart
      exact hstart
  · intro p mp hstart hgood hpages hmates hdata hread hwrite
    refine happens_collectiveComplete_finish ha hhead hctx hpaused hstart hgood hpages hmates hdata ?_ hwrite
    cases mp <;> exact hread
  · exact fun p hstart hgood hfar hpages => happens_collectiveComplete_link ha hhead hctx hpaused hstart hgood hfar hpages
  · exact fun code p hidle hbad hpages => happens_collectiveComplete_failed ha hhead hctx hpaused hidle hbad hpages
  · intro goes applied counted
    have hgoes : ∀ a : State, goes a = a.goCommit gid q := fun a => by simp only [goes, State.goCommit, List.isEmpty_iff]
    refine ⟨fun hnew hsafe hstop hbuf hcopy => ?_, fun happlied => ?_⟩
    · exact hgoes _ ▸ happens_quantumCommit_begin ha htask htgrid hgrid hdx hnew hsafe hstop hbuf hcopy
    · exact hgoes _ ▸ happens_quantumCommit_goOn ha htask htgrid hgrid hdx happlied

end Sys2Proof.Machine
end

section
/-!
SUPPORT. Which operations of the part keep memory and vaults in canonical form: all of them.
-/

namespace Sys2Proof.Machine

-- One theorem at a time: the memory of a compile of the whole text is limited.
set_option Elab.async false

/-! ### Canonical memory (R68; log 3) -/

theorem memEvent_wf {m : Memory} (h : Memory.wf m) (e : HomeEvent) : Memory.wf (memEvent m e) :=
  List.foldlRecOn e _ h fun _ hm w _ => memWriteN_wf hm w.1 w.2

theorem mem_of_mem_fset {β : Type} {m : FMap β} {i : Nat} {x : β} {e : Nat × β} (h : e ∈ fset m i x) : e = (i, x) ∨ e ∈ m := by
  induction m with
  | nil => exact .inl (List.mem_singleton.1 h)
  | cons c m ih =>
    unfold fset at h
    split at h
    · next hk => exact (List.mem_cons.1 h).imp (fun he => hk ▸ he) (List.mem_cons_of_mem _)
    · rcases List.mem_cons.1 h with rfl | h
      · exact .inr List.mem_cons_self
      · exact (ih h).imp id (List.mem_cons_of_mem _)

theorem mem_of_fget {β : Type} {m : FMap β} {i : Nat} {x : β} (h : fget m i = some x) : (i, x) ∈ m := by
  induction m with
  | nil => cases h
  | cons c m ih =>
    unfold fget at h
    split at h
    · next hk => cases h; cases hk; exact List.mem_cons_self
    · exact List.mem_cons_of_mem _ (ih h)

theorem Core.logObject_vault (c : Core) (id gen : Nat) : (c.logObject id gen).vault = c.vault := by
  unfold Core.logObject
  split
  · rfl
  · split <;> rfl

section

variable {s : State} (hs : s.memOk)
include hs

theorem State.memOk.vault (k : Nat) : Memory.wf (s.core k).vault := by
  unfold State.core
  cases h : fget s.cores k with
  | none => exact ⟨.nil, fun _ h => absurd h List.not_mem_nil⟩
  | some c => exact hs.2 _ (mem_of_fget h)

/-- Cores that keep the vaults of cores that were there. -/
theorem State.memOk.of_vaults {r : State} (hm : r.mem = s.mem) (hc : ∀ e ∈ r.cores, ∃ x ∈ s.cores, e.2.vault = x.2.vault) : r.memOk :=
  ⟨hm ▸ hs.1, fun e he => by obtain ⟨x, hx, hv⟩ := hc e he; exact hv ▸ hs.2 x hx⟩

theorem State.memOk.mapCores {f : Nat × Core → Nat × Core} (hf : ∀ e, (f e).2.vault = e.2.vault) : State.memOk { s with cores := s.cores.map f } :=
  hs.of_vaults rfl fun e he => by
    obtain ⟨x, hx, rfl⟩ := List.mem_map.1 he
    exact ⟨x, hx, hf x⟩

theorem State.memOk.setMem {m : Memory} (hm : Memory.wf m) : State.memOk { s with mem := m } := ⟨hm, hs.2⟩

theorem State.memOk.setGrids {g : FMap Grid} : State.memOk { s with grids := g } := hs

theorem State.memOk.setCore {k : Nat} {c : Core} (hc : Memory.wf c.vault) : (s.setCore k c).memOk :=
  ⟨hs.1, fun e he => (mem_of_mem_fset he).elim (fun h => h ▸ hc) (hs.2 e)⟩

/-- A change of a core that keeps the form of its vault. -/
theorem State.memOk.modVault {k : Nat} {f : Core → Core} (hf : ∀ c, Memory.wf c.vault → Memory.wf (f c).vault) : (s.modCore k f).memOk :=
  hs.setCore (hf _ (hs.vault k))

/-- A change of a core that leaves its vault. -/
theorem State.memOk.modCore {k : Nat} {f : Core → Core} (hf : ∀ c, (f c).vault = c.vault := by intro; rfl) : (s.modCore k f).memOk :=
  hs.modVault fun c hc => (hf c).symm ▸ hc

omit hs in
theorem State.memOk.ite {c : Prop} [Decidable c] {a b : State} (ha : a.memOk) (hb : b.memOk) : (if c then a else b).memOk := by
  split
  · exact ha
  · exact hb

theorem State.memOk.foldl {α : Type} {ls : List α} {f : State → α → State} (hf : ∀ a x, a.memOk → (f a x).memOk) : (ls.foldl f s).memOk :=
  List.foldlRecOn ls f hs fun a ha x _ => hf a x ha

theorem State.memOk.foldlFst {α β : Type} {ls : List α} {f : State × β → α → State × β} {b : β} (hf : ∀ q x, q.1.memOk → (f q x).1.memOk) :
    (ls.foldl f (s, b)).1.memOk := List.foldlRecOn ls f (motive := fun q => q.1.memOk) hs fun q hq x _ => hf q x hq

theorem State.memOk.foldlSnd {α β : Type} {ls : List α} {f : β × State → α → β × State} {b : β} (hf : ∀ q x, q.2.memOk → (f q x).2.memOk) :
    (ls.foldl f (b, s)).2.memOk := List.foldlRecOn ls f (motive := fun q => q.2.memOk) hs fun q hq x _ => hf q x hq

/-! ### The state -/

theorem State.memOk.setSlice {k c} : (s.setSlice k c).memOk := hs

theorem State.memOk.setDie {k c} : (s.setDie k c).memOk := hs

theorem State.memOk.setPart {k c} : (s.setPart k c).memOk := hs

theorem State.memOk.setQueue {k c} : (s.setQueue k c).memOk := hs

theorem State.memOk.modSlice {k h} : (s.modSlice k h).memOk := hs.setSlice

theorem State.memOk.modDie {k h} : (s.modDie k h).memOk := hs.setDie

theorem State.memOk.modPart {k h} : (s.modPart k h).memOk := hs.setPart

theorem State.memOk.modQueue {k h} : (s.modQueue k h).memOk := hs.setQueue

theorem State.memOk.modTeam {t h} : (s.modTeam t h).memOk := hs

theorem State.memOk.modGroup {t g h} : (s.modGroup t g h).memOk := hs.modTeam

theorem State.memOk.modFibre {t g l h} : (s.modFibre t g l h).memOk := hs.modGroup

theorem State.memOk.modBundle {b h} : (s.modBundle b h).memOk := hs

theorem State.memOk.fresh : (s.fresh).2.memOk := hs

/-! ### Translation -/

theorem State.memOk.fillTlb {ck die ctx va acc} : (s.fillTlb ck die ctx va acc).memOk := by
  unfold State.fillTlb
  extract_lets es s1 s2
  have h1 : s1.memOk := by
    unfold s1
    split
    · exact hs.modCore
    · exact hs
  exact h1

theorem State.memOk.keepRec {t i} : (s.keepRec t i).memOk := by
  unfold State.keepRec
  dsimp only
  split
  · exact hs
  · split
    · exact hs
    · exact .ite hs hs.modCore

theorem State.memOk.vaultWrite {core addr bs} : (s.vaultWrite core addr bs).memOk := .ite hs (hs.modVault fun _ hc => memWriteN_wf hc _ _)

/-! ### The home -/

theorem State.memOk.opLane {op lane ws} : (s.opLane op lane ws).memOk := hs

theorem State.memOk.release {t g l op ws} : (s.release t g l op ws).memOk := hs.opLane.modFibre.modGroup.modTeam

theorem State.memOk.acquireGo {k uo} : (s.acquireGo k uo).1.memOk := hs.setCore (hs.vault k)

theorem State.memOk.forsake {k l} : (s.forsake k l).1.memOk := by
  unfold State.forsake
  split
  · split
    · exact hs
    · exact hs.modCore
  · exact hs

omit hs in
theorem State.memOk.judgeLane {m w l} {a : State × List HomeEvent} (ha : a.1.memOk) : (State.judgeLane m w a l).1.memOk := by
  unfold State.judgeLane
  split
  · split
    · dsimp only
      split
      · exact ha.release.acquireGo.forsake
      · exact ha.release
    · exact ha
  · exact ha

theorem State.memOk.judgeMon {sk m} : (s.judgeMon sk m).1.memOk := by
  unfold State.judgeMon
  extract_lets r
  have hr : r.1.memOk := State.memOk.foldlFst hs fun _ _ h => h.judgeLane
  clear_value r
  split
  · exact hr
  · exact hr.modSlice

omit hs in
theorem State.memOk.judgeNext {sk m} {a : State × List HomeEvent} (ha : a.1.memOk) : (State.judgeNext sk a m).1.memOk := by
  unfold State.judgeNext
  dsimp only
  exact State.memOk.judgeMon ha

theorem State.memOk.judge {pa} : (s.judge pa).1.memOk := by
  unfold State.judge
  extract_lets sk s1
  split
  · exact hs
  · exact State.memOk.foldlFst (s := s1) hs fun _ _ h => h.judgeNext

theorem State.memOk.snoop {line} : (s.snoop line).memOk := by
  unfold State.snoop
  exact .ite hs hs

theorem State.memOk.hostOut {w} : (s.hostOut w).memOk := by
  unfold State.hostOut
  dsimp only
  split
  · exact hs
  · exact .ite hs.snoop hs

theorem State.memOk.homeGo {n ws} : (State.homeGo n ws s).memOk := by
  induction n generalizing ws s with
  | zero => exact hs.setMem (List.foldlRecOn ws _ hs.1 fun _ hm e _ => memEvent_wf hm e)
  | succ n ih =>
    cases ws with
    | nil => exact hs
    | cons w rest => exact ih (.judge (.setMem hs.hostOut (memEvent_wf hs.1 w)))

theorem State.memOk.homeWrites {ws} : (s.homeWrites ws).memOk := by
  unfold State.homeWrites
  exact hs.foldl fun _ _ h1 => h1.homeGo

theorem State.memOk.homeWrite {pa bs} : (s.homeWrite pa bs).memOk := by
  unfold State.homeWrite
  exact .ite hs (.ite hs.homeWrites hs.homeWrites)

theorem State.memOk.acquire {k uo} : (s.acquire k uo).memOk := hs.acquireGo.homeWrites

theorem State.memOk.pushLine {k l} : (s.pushLine k l).memOk := by
  unfold State.pushLine
  split
  · exact hs
  · exact hs.modCore.homeWrites

theorem State.memOk.evictLine {k l} : (s.evictLine k l).memOk := by
  unfold State.evictLine
  exact hs.pushLine.modCore (fun _ => by split <;> rfl)

theorem State.memOk.refreshPin {k l} : (s.refreshPin k l).memOk := by
  unfold State.refreshPin
  exact .ite (hs.modCore (fun _ => by split <;> rfl)) hs

theorem State.memOk.unpin {k line} : (s.unpin k line).memOk := hs.modCore

theorem State.memOk.recall {line} : (s.recall line).memOk := by
  unfold State.recall
  split
  · exact .ite hs hs.unpin.evictLine
  · exact hs

theorem State.memOk.recallFrom {k line} : (s.recallFrom k line).memOk := by
  unfold State.recallFrom
  exact .ite hs hs.recall

theorem State.memOk.pushAll {k uo} : (s.pushAll k uo).memOk := by
  unfold State.pushAll
  exact hs.foldl fun _ _ h1 => h1.pushLine

theorem State.memOk.fullFence {k} : (s.fullFence k).memOk := hs.pushAll.acquire

theorem State.memOk.soFence {k so} : (s.soFence k so).memOk := by
  unfold State.soFence
  exact .ite hs.fullFence hs

theorem State.memOk.makeRoom {k} : (s.makeRoom k).memOk := by
  unfold State.makeRoom
  dsimp only
  split
  · exact hs
  · split
    · exact hs.evictLine
    · exact hs

theorem State.memOk.fill {k l uo} : (s.fill k l uo).memOk := by
  unfold State.fill
  dsimp only
  split
  · exact .ite hs hs.pushLine.modCore
  · exact .ite hs.makeRoom.modCore hs.makeRoom

theorem State.memOk.load {k lf n} : (s.load k lf n).2.memOk := by
  unfold State.load
  dsimp only
  split
  · split <;> exact hs.fill
  · exact hs.evictLine

theorem State.memOk.store {k lf bs} : (s.store k lf bs).memOk := by
  unfold State.store
  dsimp only
  split
  · split
    · exact hs.fill.modCore
    · exact hs.fill.homeWrite
  · exact hs.evictLine.homeWrite

theorem State.memOk.engineSnoops {pas write a} (h : s.engineSnoops pas write = some a) : a.memOk := by
  unfold State.engineSnoops at h
  dsimp only at h
  split at h
  · cases h
  · cases h
    exact hs.foldl fun _ _ ha => ha.snoop

theorem State.memOk.rangeSnoops {pa n write a} (h : s.rangeSnoops pa n write = some a) : a.memOk := hs.engineSnoops h

/-! ### Logs -/

theorem State.memOk.irq {kind die arg} : (s.irq kind die arg).memOk := hs

theorem State.memOk.setCtxWord {k off v} : (s.setCtxWord k off v).memOk := hs.homeWrite

theorem State.memOk.bumpCtx {k off} : (s.bumpCtx k off).memOk := by
  unfold State.bumpCtx
  exact .ite hs hs.setCtxWord

theorem State.memOk.eventWrite {k bytes} : (s.eventWrite k bytes).memOk := by
  unfold State.eventWrite
  dsimp only
  split
  · exact hs
  · exact .ite hs.bumpCtx hs.homeWrite.setCtxWord

theorem State.memOk.logUnits {k c die units n} : (s.logUnits k c die units n).memOk := by
  unfold State.logUnits
  exact .irq (.setCtxWord (hs.foldl fun _ _ h1 => h1.homeWrite))

theorem State.memOk.ctxLog {k code u w payload} : (s.ctxLog k code u w payload).memOk := by
  unfold State.ctxLog
  dsimp only
  split
  · exact hs
  · exact .ite hs.bumpCtx (.logUnits (.ite hs hs.logUnits))

theorem State.memOk.closeEvent {tid g e} : (s.closeEvent tid g e).memOk := by
  unfold State.closeEvent
  split
  · exact hs
  · exact .ite hs.modGroup hs.eventWrite

theorem State.memOk.flushEvent {tid g} : (s.flushEvent tid g).memOk := by
  unfold State.flushEvent
  split
  · split
    · exact hs.modGroup.eventWrite
    · exact hs
  · exact hs

theorem State.memOk.logEvent {tid g cause clause} : (s.logEvent tid g cause clause).memOk := by
  unfold State.logEvent
  split
  · exact .ite hs.modGroup hs.closeEvent.modGroup
  · exact hs.modGroup

theorem State.memOk.logEvents {tid g clause causes} : (s.logEvents tid g clause causes).memOk := by
  unfold State.logEvents
  exact hs.foldl fun _ _ h1 => h1.logEvent

theorem State.memOk.askKill {k} : (s.askKill k).memOk := hs

/-! ### Work at the home -/

theorem State.memOk.placeWrite {pl n x} : (s.placeWrite pl n x).memOk := by
  unfold State.placeWrite
  split
  · exact hs.homeWrite
  · exact hs.vaultWrite

theorem State.memOk.releaseSide {k uo scope} : (s.releaseSide k uo scope).memOk := by
  unfold State.releaseSide
  exact .ite hs.pushAll hs

theorem State.memOk.acquireSide {k uo scope} : (s.acquireSide k uo scope).memOk := by
  unfold State.acquireSide
  exact .ite hs.acquire hs

theorem State.memOk.beginReq {id r} : (s.beginReq id r).memOk := by
  unfold State.beginReq
  split
  · exact hs
  · exact .ite hs hs

theorem State.memOk.answerLane {r lane ws} : (s.answerLane r lane ws).memOk := by
  unfold State.answerLane
  exact .ite hs.release hs.opLane.modFibre

theorem State.memOk.uncross {t g ls} : (s.uncross t g ls).memOk := by
  unfold State.uncross
  exact hs.foldl fun _ _ h1 => h1.modFibre

theorem State.memOk.orderLanes {r order scope ls} : (s.orderLanes r order scope ls).memOk := by
  unfold State.orderLanes
  exact .ite hs.uncross hs

theorem State.memOk.enterHome {k uo order scope pl} : (s.enterHome k uo order scope pl).memOk := by
  unfold State.enterHome
  dsimp only
  split
  · exact .evictLine (.recallFrom (.ite hs.releaseSide hs))
  · exact .ite hs.releaseSide hs

theorem State.memOk.leaveHome {k uo order scope pl} : (s.leaveHome k uo order scope pl).memOk := by
  unfold State.leaveHome
  dsimp only
  have h1 : State.memOk (match pl with
  | Place.mem pa => s.refreshPin k (pa / 128)
  | Place.vault core addr => s) := by
      split
      · exact hs.refreshPin
      · exact hs
  exact .ite h1.acquireSide h1

theorem State.memOk.performReq {id} : (s.performReq id).memOk := by
  unfold State.performReq
  split
  · exact hs
  · split
    · exact hs
    · extract_lets k s0
      have h0 : s0.memOk := hs
      split
      · exact .leaveHome (.foldl h0.orderLanes.enterHome.placeWrite fun _ _ h => h.answerLane)
      · exact .leaveHome (.foldl (.ite h0.orderLanes.enterHome.placeWrite h0.orderLanes.enterHome) fun _ _ h => h.answerLane)
      · exact .leaveHome (.foldl h0.orderLanes.enterHome.placeWrite fun _ _ h => h.answerLane)
      · exact .leaveHome (.foldl h0.orderLanes.enterHome fun _ _ h => .answerLane (.ite h.placeWrite h))
      · exact hs

/-! ### Objects -/

theorem State.memOk.setObjPart {sk id p} : (s.setObjPart sk id p).memOk := hs.modSlice

theorem State.memOk.modObjPart {sk id h} : (s.modObjPart sk id h).memOk := hs.setObjPart

theorem State.memOk.dropCopy {k line} : (s.dropCopy k line).memOk := hs.modCore.unpin

theorem State.memOk.probeCore {k id gen lines keep} : (s.probeCore k id gen lines keep).memOk := by
  unfold State.probeCore
  refine .ite (hs.modCore fun c => c.logObject_vault _ _) (hs.foldl fun a x h => ?_)
  exact .ite (h.pushLine.modCore fun _ => by split <;> rfl) h.pushLine.dropCopy

theorem State.memOk.probe {sk id a keep} : (s.probe sk id a keep).memOk := by
  unfold State.probe
  exact .ite (hs.foldl fun _ _ h1 => h1.snoop) (hs.foldl fun _ _ h2 => h2.probeCore)

theorem State.memOk.pushBytes {sk id a pa bs} : (s.pushBytes sk id a pa bs).memOk := by
  unfold State.pushBytes
  refine .ite (.ite hs.snoop hs) (hs.foldl fun _ _ h => .ite (h.modCore fun c => c.logObject_vault _ _) (h.modCore fun c => ?_))
  split
  · split <;> rfl
  · rfl

theorem State.memOk.behindProxy {sk id die core line excl} : (s.behindProxy sk id die core line excl).memOk := by
  unfold State.behindProxy
  exact .ite hs (hs.foldl fun _ _ h1 => h1.probeCore)

theorem State.memOk.grantCopy {die core id line excl} : (s.grantCopy die core id line excl).memOk := by
  unfold State.grantCopy
  dsimp only
  split
  · exact hs.modCore
  · exact .ite hs.makeRoom.modCore hs.makeRoom

theorem State.memOk.grant {sk id x rq} : (s.grant sk id x rq).memOk := by
  unfold State.grant
  exact .ite hs.behindProxy.grantCopy hs

theorem State.memOk.laneDone {t g l op ws} : (s.laneDone t g l op ws).memOk := hs.opLane.modFibre

theorem State.memOk.loadLane {t g l op line so ws} : (s.loadLane t g l op line so ws).memOk := hs.opLane.modFibre

theorem State.memOk.storeCopy {k pa bs} : (s.storeCopy k pa bs).memOk := by
  unfold State.storeCopy
  dsimp only
  split
  · exact .ite hs.modCore.pushLine hs.modCore
  · exact hs.homeWrite

theorem State.memOk.hostLru {line} : (s.hostLru line).memOk := hs.snoop

theorem State.memOk.hostEnter {line excl} : (s.hostEnter line excl).memOk := by
  unfold State.hostEnter
  exact .ite hs.modSlice hs.hostLru

theorem State.memOk.unperformedReq {id} : (s.unperformedReq id).memOk := by
  unfold State.unperformedReq
  split
  · exact hs
  · exact .foldl (by exact hs) fun _ _ h1 => h1.answerLane

theorem State.memOk.partFinish {sk id x rq} : (s.partFinish sk id x rq).memOk := by
  unfold State.partFinish
  dsimp only
  split
  · exact hs.grant.foldl fun _ _ h1 => h1.loadLane
  · exact .laneDone (.ite hs.grant.storeCopy (.grant (.ite hs.homeWrite hs)))
  · exact .ite hs.behindProxy.performReq.grant (.ite hs.performReq hs.unperformedReq)
  · exact .ite hs.homeWrite hs
  · exact .ite hs.hostEnter hs
  · exact .ite (.hostEnter (.ite hs.homeWrite hs)) (.ite hs.homeWrite hs)
  · exact hs.grant
  · exact hs
  · exact hs
  · exact hs
  · exact hs

theorem State.memOk.protFault {id e rq} : (s.protFault id e rq).memOk := hs.askKill

theorem State.memOk.partEvent {sk id e rq} : (s.partEvent sk id e rq).memOk := by
  unfold State.partEvent
  extract_lets o p x q s3 s4 s5 s6 s7
  split
  · exact hs.setObjPart
  · split
    · exact hs.protFault
    · have h3 : s3.memOk := hs.foldl fun _ _ h => h.probe
      have h4 : s4.memOk := by
        unfold s4
        split
        · exact .ite h3.homeWrite h3
        · exact h3
      have h5 : s5.memOk := .ite h4 h4
      have h6 : s6.memOk := by
        unfold s6
        split
        · exact .ite (h5.foldl fun _ _ h => h.pushBytes) h5
        · exact h5
      exact .ite h6.modObjPart.modObjPart h6.modObjPart.partFinish

theorem State.memOk.relServe {sk id} : (s.relServe sk id).memOk := by
  unfold State.relServe
  exact .ite hs.setObjPart.partEvent hs

theorem State.memOk.serveUntracked {rq} : (s.serveUntracked rq).memOk := by
  unfold State.serveUntracked
  dsimp only
  split
  · exact hs.foldl fun _ _ h1 => h1.load.loadLane
  · exact hs.homeWrite.laneDone
  · exact hs.performReq
  · exact hs.homeWrite
  · exact hs.hostEnter
  · exact .ite hs.hostEnter hs.homeWrite
  · exact hs
  · exact hs
  · exact hs
  · exact hs
  · exact hs

theorem State.memOk.finishRelease {id} : (s.finishRelease id).memOk := by
  unfold State.finishRelease
  dsimp only
  split
  · exact hs
  · exact .foldl (.foldl (by exact hs.mapCores fun _ => rfl) fun _ _ h1 => h1.modSlice) fun _ _ h2 => h2.serveUntracked

theorem State.memOk.partAck {sk id} : (s.partAck sk id).memOk := by
  unfold State.partAck
  dsimp only
  split
  · exact hs
  · exact .ite hs.hostLru hs.setObjPart.partFinish.modObjPart.relServe.finishRelease

theorem State.memOk.partSettle {sk id} : (s.partSettle sk id).memOk := by
  unfold State.partSettle
  exact .ite hs.partAck hs

theorem State.memOk.wbTracked {k id line} : (s.wbTracked k id line).memOk := by
  unfold State.wbTracked
  dsimp only
  split
  · exact .ite hs.pushLine.partEvent hs
  · exact hs

theorem State.memOk.pushAny {k line} : (s.pushAny k line).memOk := by
  unfold State.pushAny
  split
  · exact .ite hs.wbTracked hs.pushLine
  · exact hs.pushLine

theorem State.memOk.goneFrom {sk id a line} : (s.goneFrom sk id a line).memOk := by
  unfold State.goneFrom
  exact .ite hs hs.partEvent

theorem State.memOk.dropTracked {k id line} : (s.dropTracked k id line).memOk := hs.wbTracked.modCore.goneFrom

theorem State.memOk.shed {k line} : (s.shed k line).memOk := by
  unfold State.shed
  split
  · exact .ite hs.dropTracked hs
  · exact hs

theorem State.memOk.ownOut {k id line} : (s.ownOut k id line).memOk := by
  unfold State.ownOut
  exact hs.foldl fun _ _ h1 => .ite h1.wbTracked h1.dropTracked

theorem State.memOk.partRequest {sk id rq} : (s.partRequest sk id rq).memOk := by
  unfold State.partRequest
  dsimp only
  have h1 : State.memOk (match rq.kind with
  | PReqKind.atom req => s.ownOut (coreKey rq.die rq.core) id (rq.pa / 128)
  | x => s) := by
      split
      · exact hs.ownOut
      · exact hs
  exact .ite h1.partFinish h1.partEvent

theorem State.memOk.partServe {sk id i rq} : (s.partServe sk id i rq).memOk := hs.modObjPart.partRequest

theorem State.memOk.meet {k id} : (s.meet k id).memOk := hs.modCore

theorem State.memOk.serveIf {sk id ok} : (s.serveIf sk id ok).memOk := by
  unfold State.serveIf
  split
  · exact .ite hs (.ite hs.partServe hs.hostLru)
  · exact hs

theorem State.memOk.partQueue {id rq} : (s.partQueue id rq).memOk := hs.modObjPart

theorem State.memOk.engineAt {id pa die data} : (s.engineAt id pa die data).memOk := hs.partSettle.partEvent.partSettle

theorem State.memOk.engineRead {ctx die trk pa n} : (s.engineRead ctx die trk pa n).2.memOk := by
  unfold State.engineRead
  dsimp only
  split
  · exact hs.engineAt
  · exact hs.recall

theorem State.memOk.engineWrite {ctx die trk pa bs} : (s.engineWrite ctx die trk pa bs).memOk := by
  unfold State.engineWrite
  split
  · exact hs.engineAt
  · exact hs.recall.homeWrite

theorem State.memOk.engineBytes {ctx die lands ps} : (s.engineBytes ctx die lands ps).memOk := by
  unfold State.engineBytes
  exact hs.foldl fun _ _ h1 => h1.foldl fun _ _ h2 => h2.engineWrite

theorem State.memOk.releaseObject {id} : (s.releaseObject id).memOk := by
  unfold State.releaseObject
  exact .finishRelease (.foldl (by exact hs) fun _ _ h1 => h1.partSettle.partEvent.partSettle)

/-! ### Locks at the home -/

theorem State.memOk.setLock {line h} : (s.setLock line h).memOk := hs.modSlice

theorem State.memOk.expelOthers {k line} : (s.expelOthers k line).memOk := by
  unfold State.expelOthers
  exact hs.foldl fun _ _ h1 => .ite h1 h1.unpin.evictLine

theorem State.memOk.takeExclusive {k line} : (s.takeExclusive k line).memOk := by
  unfold State.takeExclusive
  exact hs.expelOthers.fill.modCore (fun _ => by split <;> rfl)

theorem State.memOk.addPin {k line} : (s.addPin k line).memOk := by
  unfold State.addPin
  exact .ite hs.modCore hs

theorem State.memOk.pin {t tid g line trk} : (s.pin t tid g line trk).memOk := by
  unfold State.pin
  dsimp only
  refine .addPin ?_
  split
  · exact hs.partSettle.partRequest.partSettle
  · exact hs.takeExclusive

theorem State.memOk.meetPin {t g lf} : (s.meetPin t g lf).memOk := by
  unfold State.meetPin
  exact .ite (.ite hs (.addPin (.ite hs hs.takeExclusive))) hs.recall

theorem State.memOk.lockResult {t g st lanes} : (s.lockResult t g st lanes).memOk := by
  unfold State.lockResult
  exact hs.foldl fun _ _ h1 => .ite h1.release.modFibre h1.laneDone

theorem State.memOk.parkAtHome {t g l w} : (s.parkAtHome t g l w).memOk := hs.modFibre

theorem State.memOk.endWait {t g st} : (s.endWait t g st).memOk := by
  unfold State.endWait
  split
  · exact hs
  · exact hs.modGroup.lockResult.soFence

theorem State.memOk.takeLock {t g line uo page} : (s.takeLock t g line uo page).2.memOk := by
  unfold State.takeLock
  split
  · exact hs
  · exact .acquire (.ite (.ite hs.setLock.modGroup.modPart hs.setLock.modGroup) (.pin (.ite hs.setLock.modGroup.modPart hs.setLock.modGroup)))

theorem State.memOk.grantWaiter {gr line} : (s.grantWaiter gr line).memOk := by
  unfold State.grantWaiter
  dsimp only
  split
  · exact hs.setLock.takeLock.endWait
  · exact hs

theorem State.memOk.enqueue {gr line} : (s.enqueue gr line).memOk := hs.setLock

theorem State.memOk.openLock {line} : (s.openLock line).memOk := by
  unfold State.openLock
  dsimp only
  split
  · exact hs.modSlice
  · exact hs

theorem State.memOk.leaveFifo {sk gr line} : (s.leaveFifo sk gr line).memOk := by
  unfold State.leaveFifo
  dsimp only
  refine .enqueue ?_
  split
  · exact hs.modSlice.modGroup
  · exact hs.modSlice

theorem State.memOk.decideFifo {sk gr line} : (s.decideFifo sk gr line).memOk := by
  unfold State.decideFifo
  exact .foldl (.ite (.grantWaiter (.leaveFifo (.ite hs.openLock hs))) (.leaveFifo (.ite hs.openLock hs))) fun _ _ h1 => h1.leaveFifo

theorem State.memOk.serveFifo {n sk} : (State.serveFifo n sk s).memOk := by
  induction n generalizing s with
  | zero => exact hs
  | succ n ih =>
    unfold State.serveFifo
    split
    · exact hs
    · split
      · exact hs
      · exact ih hs.decideFifo

theorem State.memOk.tidyLock {line} : (s.tidyLock line).memOk := by
  unfold State.tidyLock
  dsimp only
  split
  · exact .ite hs.modSlice.serveFifo hs
  · exact hs

theorem State.memOk.passLockIn {gid line} : (s.passLockIn gid line).memOk := by
  unfold State.passLockIn
  dsimp only
  split
  · exact hs
  · split
    · exact hs.tidyLock
    · exact .ite hs.setLock.grantWaiter hs.setLock

theorem State.memOk.passLock {line} : (s.passLock line).memOk := hs.passLockIn

theorem State.memOk.endDefer {t} : (s.endDefer t).memOk := hs.modTeam

theorem State.memOk.dropLock {t g line orphan} : (s.dropLock t g line orphan).memOk := by
  unfold State.dropLock
  exact .ite hs.modGroup.unpin.endDefer.setLock hs.modGroup.unpin.endDefer.setLock.passLock

theorem State.memOk.settleLocks {gid} : (s.settleLocks gid).memOk := by
  unfold State.settleLocks
  exact hs.foldl fun _ _ h1 => h1.passLockIn

theorem State.memOk.leaveQueue {t g} : (s.leaveQueue t g).memOk := by
  unfold State.leaveQueue
  dsimp only
  split
  · exact hs
  · exact hs.setLock.modSlice

theorem State.memOk.lockRequest {t g try_ uo line page timeout key lanes} : (s.lockRequest t g try_ uo line page timeout key lanes).memOk := by
  unfold State.lockRequest
  dsimp only
  split
  · exact .ite hs.lockResult (.ite hs.lockResult (.ite hs.lockResult (.ite (.ite hs.lockResult (hs.modGroup.foldl fun _ _ h1 => h1.parkAtHome)) (.ite
      (.ite hs.modPart.lockResult (hs.modPart.modSlice.modGroup.foldl fun _ _ h2 => h2.parkAtHome)) (.ite (.lockResult (.takeLock (.ite hs.openLock
      hs))) (.ite (.lockResult (.ite hs.openLock hs)) (.enqueue (.foldl (.modGroup (.ite hs.openLock hs)) fun _ _ h3 => h3.parkAtHome))))))))
  · exact hs

theorem State.memOk.unlockRequest {t g uo line lanes} : (s.unlockRequest t g uo line lanes).memOk := by
  unfold State.unlockRequest
  split
  · exact .ite hs.pushAll.pushAny.dropLock.lockResult hs.lockResult
  · exact hs

theorem State.memOk.lockExpire {t g} : (s.lockExpire t g).memOk := by
  unfold State.lockExpire
  split
  · exact hs
  · exact hs.leaveQueue.endWait.tidyLock

theorem State.memOk.lockProbe {t g} : (s.lockProbe t g).memOk := by
  unfold State.lockProbe
  dsimp only
  split
  · split
    · exact hs
    · exact hs.ctxLog.modPart.leaveQueue.endWait.tidyLock
  · exact hs

theorem State.memOk.waiterPresent {t g} : (s.waiterPresent t g).memOk := by
  unfold State.waiterPresent
  split
  · exact hs
  · split
    · exact .ite hs.decideFifo (.ite hs.grantWaiter hs)
    · exact hs.serveFifo

theorem State.memOk.lockTurn {line step} : (s.lockTurn line step).memOk := hs.modSlice

/-! ### Faults -/

theorem State.memOk.askFault {c who m} : (s.askFault c who m).2.memOk := hs.modDie

/-! ### Kills -/

theorem State.memOk.clearRun {k run0 n} : (s.clearRun k run0 n).memOk := hs.modCore

theorem State.memOk.wakeEngine {k} : (s.wakeEngine k).memOk := by
  unfold State.wakeEngine
  exact hs.foldl fun _ _ h1 => .ite (h1.foldl fun _ _ h2 => h2.modGroup) h1

theorem State.memOk.freeEngine {k} : (s.freeEngine k).memOk := hs.modCore.wakeEngine

theorem State.memOk.dropMonitors {tid} : (s.dropMonitors tid).memOk := hs

theorem State.memOk.leaveLocks {tid} : (s.leaveLocks tid).memOk := by
  unfold State.leaveLocks
  split
  · exact hs
  · refine hs.foldl (fun _ _ h1 => ?_)
    split
    · exact h1.leaveQueue.modGroup.tidyLock
    · exact h1

theorem State.memOk.orphanLocks {tid leak} : (s.orphanLocks tid leak).memOk := by
  unfold State.orphanLocks
  dsimp only
  split
  · exact hs
  · exact hs.leaveLocks.foldl fun _ _ h1 => h1.foldl fun _ _ h2 => .dropLock (.ite h2.ctxLog h2)

theorem State.memOk.unreserve {k id} : (s.unreserve k id).memOk := by
  unfold State.unreserve
  exact .ite hs.modCore.wakeEngine hs

theorem State.memOk.unclaim {id} : (s.unclaim id).memOk := .foldl (by exact hs.mapCores fun _ => rfl) fun _ _ h1 => h1.unreserve

theorem State.memOk.stopTeam {tid} : (s.stopTeam tid).memOk := by
  unfold State.stopTeam
  split
  · exact hs
  · extract_lets k resident s1 s2 s3 s4 s5
    have h1 : s1.memOk := hs.orphanLocks.dropMonitors
    have h2 : s2.memOk := h1
    have h3 : s3.memOk := h2.modCore
    have h4 : s4.memOk := .ite h3.freeEngine h3
    have h5 : s5.memOk := .ite h4.clearRun h4
    exact h5.unclaim.modTeam

theorem State.memOk.settleIrqs {q} : (s.settleIrqs q).memOk := by
  unfold State.settleIrqs
  exact hs.setQueue.foldl fun _ _ h1 => h1.irq

theorem State.memOk.wordWritten {q bs} : (s.wordWritten q bs).memOk := hs.modQueue.settleIrqs

theorem State.memOk.readRuns {ctx die ps} : (s.readRuns ctx die ps).2.memOk := by
  unfold State.readRuns
  exact hs.foldlSnd fun _ _ h1 => h1.engineRead

theorem State.memOk.writeRuns {ctx die ps bs} : (s.writeRuns ctx die ps bs).memOk := by
  unfold State.writeRuns
  exact hs.foldlFst fun _ _ h1 => h1.engineWrite

theorem State.memOk.fillRun {key die c va n acc} : (s.fillRun key die c va n acc).memOk := by
  unfold State.fillRun
  exact hs.foldl fun _ _ h1 => h1.fillTlb

theorem State.memOk.wordLost {q} : (s.wordLost q).memOk := hs.modQueue.irq

theorem State.memOk.queueWrite {q off bs} : (s.queueWrite q off bs).memOk := by
  unfold State.queueWrite
  dsimp only
  split
  · exact hs.setQueue
  · split
    · split
      · exact ((hs.engineSnoops ‹_›)).modQueue
      · exact .ite hs.fillRun.writeRuns.wordWritten hs.fillRun.writeRuns
    · exact .ite hs.askFault.modQueue hs.wordLost
    · exact hs.wordLost

theorem State.memOk.retryWord {q} : (s.retryWord q).memOk := by
  unfold State.retryWord
  exact hs.setQueue.foldl fun _ _ h1 => h1.queueWrite

theorem State.memOk.errorRecord {q addr code seq} : (s.errorRecord q addr code seq).memOk := hs.queueWrite.irq

theorem State.memOk.discard {ids} : (s.discard ids).memOk := by
  unfold State.discard
  exact hs.foldl fun _ _ h1 => h1.modQueue.unclaim

theorem State.memOk.settleDrain {p} : (s.settleDrain p).memOk := by
  unfold State.settleDrain
  exact .ite hs.discard.modPart hs

theorem State.memOk.tidyCtx {k} : (s.tidyCtx k).memOk := by
  unfold State.tidyCtx
  exact .ite hs (.foldl (by exact hs) fun _ _ h1 => h1.releaseObject)

theorem State.memOk.retryWords : (s.retryWords).memOk := by
  unfold State.retryWords
  exact hs.foldl fun _ _ h1 => .ite h1.retryWord.tidyCtx h1

theorem State.memOk.failTask {id} : (s.failTask id).memOk := by
  unfold State.failTask
  dsimp only
  split
  · exact hs
  · refine .settleDrain ?_
    refine .errorRecord ?_
    refine .modQueue ?_
    split
    · split
      · exact .clearRun (.ite hs.freeEngine hs)
      · exact .ite hs.freeEngine hs
    · exact hs

theorem State.memOk.faultTask {id} : (s.faultTask id).memOk := by
  unfold State.faultTask
  split
  · exact hs
  · exact hs.failTask.tidyCtx

theorem State.memOk.killContext {r} : (s.killContext r).memOk := by
  unfold State.killContext
  split
  · exact hs
  · split
    · exact hs
    · extract_lets s0 tids s1 s2 s3 s4 s5 s51 s6 s7 s8
      have h0 : s0.memOk := hs
      have h1 : s1.memOk := .foldl (h0.foldl fun _ _ h => h.leaveLocks) fun _ _ h => h.stopTeam
      have h2 : s2.memOk := h1
      have h3 : s3.memOk := h2.foldl fun _ _ h => h.releaseObject
      have h4 : s4.memOk := h3.foldl fun _ _ h => h.failTask
      have h5 : s5.memOk := by
        refine h4.foldl fun a q h => ?_
        exact .ite h.setQueue h
      have h51 : s51.memOk := h5.foldl fun _ _ h => h.unclaim
      have h6 : s6.memOk := h51.setGrids
      have h7 : s7.memOk := .ite h6 h6.ctxLog
      have h8 : s8.memOk := h7.ctxLog
      exact .tidyCtx (.irq h8.setCtxWord)

theorem State.memOk.runKills : (s.runKills).memOk := by
  unfold State.runKills
  exact .ite hs (hs.foldl fun _ _ h1 => h1.killContext)

/-! ### Performing an operation -/

theorem State.memOk.placeNow {t g l pc idx kind front} : (s.placeNow t g l pc idx kind front).memOk := hs.modGroup

theorem State.memOk.dropOp {w g l} : (s.dropOp w g l).memOk := by
  unfold State.dropOp
  split
  · exact hs.opLane
  · exact hs

theorem State.memOk.takeTrap {w inst g l tr} : (s.takeTrap w inst g l tr).memOk := by
  unfold State.takeTrap
  dsimp only
  split
  · exact hs
  · split
    · exact hs.dropOp.vaultWrite.modFibre.modFibre.askKill
    · exact .ite hs.dropOp.vaultWrite.modFibre.modFibre.askKill (.ite hs.dropOp.vaultWrite.modFibre.modFibre.modFibre.placeNow
        hs.dropOp.vaultWrite.modFibre.modFibre)

theorem State.memOk.trapAll {w tr ls} : (s.trapAll w tr ls).memOk := by
  unfold State.trapAll
  exact hs.foldl fun _ _ h1 => h1.takeTrap

theorem State.memOk.hold {w} : (s.hold w).memOk := hs.modBundle

theorem State.memOk.countClocks {w} : (s.countClocks w).memOk := by
  unfold State.countClocks
  exact hs.foldl fun _ _ h1 => h1.modFibre

theorem State.memOk.trapIf {w x} : (s.trapIf w x).memOk := by
  unfold State.trapIf
  split
  · exact hs.takeTrap
  · exact hs

theorem State.memOk.endNative {s0 : State} {ctx} (h0 : s0.memOk) : (s0.endNative ctx s).memOk := by
  unfold State.endNative
  exact .ite (.runKills h0) hs.runKills

theorem State.memOk.aluLane {i h w x} : (State.aluLane i h w s x).memOk := by
  unfold State.aluLane
  split
  · exact hs.modFibre.logEvents
  · exact hs.takeTrap

theorem State.memOk.aluBody {i h w} : (aluBody i h w s).memOk := by
  unfold Machine.aluBody
  exact hs.foldl fun _ _ h1 => h1.aluLane

theorem State.memOk.openOps {i w perf} : (s.openOps i w perf).2.memOk := hs.foldlSnd fun _ _ h => h

theorem State.memOk.openFor {i w perf} : (s.openFor i w perf).2.memOk := by
  unfold State.openFor
  split
  · exact hs.openOps
  · exact hs

theorem State.memOk.doneLane {w g l op ws} : (s.doneLane w g l op ws).memOk := by
  unfold State.doneLane
  exact .ite hs.release hs.opLane

theorem State.memOk.order {t g l} : (s.order t g l).memOk := hs.modFibre

theorem State.memOk.waitLane {w g l x} : (s.waitLane w g l x).memOk := hs.modFibre

theorem State.memOk.sampleOp {op d} : (s.sampleOp op d).memOk := hs

theorem State.memOk.completeOp {id} : (s.completeOp id).memOk := by
  unfold State.completeOp
  split
  · exact hs
  · exact hs

theorem State.memOk.waitOr {w g l x} : (s.waitOr w g l x).memOk := by
  unfold State.waitOr
  exact .ite hs hs.waitLane

theorem State.memOk.syncBody {i split w} {act : Who → State → State} (hact : ∀ w a, a.memOk → (act w a).memOk) : (syncBody i split act w s).memOk := by
  unfold Machine.syncBody
  split
  · exact hs
  · split
    · exact hact _ _ hs
    · exact .foldl (hs.openOps.foldl fun _ _ h1 => h1.waitLane) fun _ _ h2 => h2

theorem State.memOk.afterOrder {w} {act : Who → State → State} (hact : ∀ w a, a.memOk → (act w a).memOk) : (afterOrder act w s).memOk := by
  unfold Machine.afterOrder
  split
  · exact hact _ _ hs
  · exact hs.hold

theorem State.memOk.sleepGroup {w g misses exec} : (s.sleepGroup w g misses exec).memOk := by
  unfold State.sleepGroup
  split
  · exact hs
  · dsimp only
    refine .modGroup (State.memOk.foldlSnd (hs.foldl fun _ _ h1 => ?_) fun _ _ h2 => ?_)
    · exact .ite h1.dropOp.modFibre.placeNow h1.modFibre
    · dsimp only
      exact h2.askFault

theorem State.memOk.gate {w} {α : Type} {res : ℕ → ℕ → Res α} : (s.gate w res).2.memOk := by
  unfold State.gate
  dsimp only
  refine hs.foldlSnd (fun _ _ h1 => ?_)
  split
  · exact h1.sleepGroup
  · refine .modGroup ?_
    refine h1.foldl (fun _ _ h2 => ?_)
    split
    · exact h2.takeTrap
    · exact h2

theorem State.memOk.leaderGate {w} {α : Type} {r : Res α} : (s.leaderGate w r).2.memOk := by
  unfold State.leaderGate
  split
  · exact hs.foldl fun _ _ h1 => h1.modGroup
  · exact hs.trapAll
  · exact hs.foldl fun _ _ h2 => h2.sleepGroup

theorem State.memOk.touch {t x acc} : (s.touch t x acc).memOk := by
  unfold State.touch
  split
  · exact hs.fillTlb
  · exact hs

theorem State.memOk.touchAll {t ls acc} : (s.touchAll t ls acc).memOk := by
  unfold State.touchAll
  exact hs.foldl fun _ _ h1 => h1.touch

/-! ### Register-only instructions -/

theorem State.memOk.perLane {w} {f : Team → State → Nat → Nat → State} (hf : ∀ t a g l, a.memOk → (f t a g l).memOk) : (perLane w s f).memOk := by
  unfold Machine.perLane
  split
  · exact hs
  · exact hs.foldl fun _ _ => hf _ _ _ _

/-! ### Memory instructions -/

theorem State.memOk.keepSpace {t sp} : (s.keepSpace t sp).memOk := by
  unfold State.keepSpace
  split
  · exact hs.keepRec
  · exact hs

theorem State.memOk.homeWith {lax turn sp a disp size perm acc write more w} {go : Team → List (Nat × Nat × Target) → Who → State → State}
    (hgo : ∀ t ls w b, b.memOk → (go t ls w b).memOk) : (homeWith lax turn sp a disp size perm acc write more go w s).memOk := by
  unfold Machine.homeWith
  split
  · exact hs
  · split
    · exact hs.hold
    · dsimp only
      split
      · exact hs.hold
      · split
        · exact .hold (hs.foldl fun _ _ h1 => h1.snoop)
        · exact hgo _ _ _ _ hs.gate.touchAll.keepSpace

theorem State.memOk.homeBody {sp a disp size perm acc write w} {go : Team → List (Nat × Nat × Target) → Who → State → State}
    (hgo : ∀ t ls w b, b.memOk → (go t ls w b).memOk) : (homeBody sp a disp size perm acc write go w s).memOk := hs.homeWith hgo

theorem State.memOk.uncrossAll {w} : (s.uncrossAll w).memOk := by
  unfold State.uncrossAll
  exact hs.foldl fun _ _ h1 => h1.uncross

theorem State.memOk.soFenceBy {w k so} : (s.soFenceBy w k so).memOk := by
  unfold State.soFenceBy
  exact .ite hs.uncrossAll.fullFence hs

theorem State.memOk.beside {t ls w} {go : Team → List (Nat × Nat × Target) → Who → State → State} (hgo : ∀ t ls w b, b.memOk → (go t ls w b).memOk) :
    (beside go t ls w s).memOk := .soFence (hgo _ _ _ _ hs.soFenceBy)

theorem State.memOk.memBody {sp a disp size perm acc write w} {go : Team → List (Nat × Nat × Target) → Who → State → State}
    (hgo : ∀ t ls w b, b.memOk → (go t ls w b).memOk) : (memBody sp a disp size perm acc write go w s).memOk := hs.homeBody fun _ _ _ _ h1 => h1.beside hgo

theorem State.memOk.bankTake {key k a} : (s.bankTake key k a).memOk := by
  unfold State.bankTake
  exact .ite hs hs.modCore

theorem State.memOk.bankAll {step t ls} : (s.bankAll step t ls).memOk := by
  unfold State.bankAll
  exact .ite hs (hs.foldl fun _ _ h1 => h1.bankTake)

theorem State.memOk.uncrossAt {w pool n ls} : (s.uncrossAt w pool n ls).memOk := by
  unfold State.uncrossAt
  dsimp only
  refine hs.foldl (fun _ _ h1 => ?_)
  split
  · exact h1.modFibre
  · exact h1

theorem State.memOk.crossLoad {w pool old n ls} : (s.crossLoad w pool old n ls).memOk := by
  unfold State.crossLoad
  exact .ite hs (.ite hs hs.uncrossAt)

theorem State.memOk.crossStore {w pool old n ls} {before : State} : (s.crossStore before w pool old n ls).memOk := by
  unfold State.crossStore
  dsimp only
  split
  · exact .ite hs hs.uncrossAt
  · refine .foldl (by exact .ite hs hs.uncrossAt) (fun _ _ h1 => ?_)
    split
    · exact h1.modFibre
    · exact h1

theorem State.memOk.loadNow {t w pool old g l n x} : (s.loadNow t w pool old g l n x).2.memOk := by
  unfold State.loadNow
  dsimp only
  split
  · exact hs
  · split
    · split
      · exact hs.meet.engineRead
      · exact hs.load
    · split
      · exact hs.meet
      · exact hs

theorem State.memOk.loadAll {t w pool old n ls} : (s.loadAll t w pool old n ls).2.memOk := by
  unfold State.loadAll
  exact hs.foldlSnd fun _ _ h1 => h1.loadNow

theorem State.memOk.sendReq {r} : (s.sendReq r).memOk := hs.fresh

theorem State.memOk.askLines {w ops d n xs} : (s.askLines w ops d n xs).memOk := by
  unfold State.askLines
  dsimp only
  refine hs.foldl (fun _ _ h1 => ?_)
  refine h1.foldl (fun _ _ h2 => ?_)
  split
  · exact h2
  · exact h2.sendReq.foldl fun _ _ h3 => h3.modFibre

theorem State.memOk.meetPins {t ls} : (s.meetPins t ls).memOk := by
  unfold State.meetPins
  refine hs.foldl (fun _ _ h1 => ?_)
  split
  · exact h1.meetPin
  · exact h1

theorem State.memOk.loadBody {i sp d n t ls w} : (loadBody i sp d n t ls w s).memOk := by
  unfold Machine.loadBody
  dsimp only
  refine .soFence ?_
  refine .askLines ?_
  refine hs.soFenceBy.meetPins.loadAll.crossLoad.bankAll.openOps.foldl (fun _ _ h1 => ?_)
  split
  · exact h1.doneLane
  · exact h1

theorem State.memOk.performLoad {id} : (s.performLoad id).memOk := by
  unfold State.performLoad
  split
  · exact hs
  · split
    · extract_lets gone
      have hgone : gone.memOk := hs
      split
      · split
        · exact hgone.foldl fun _ _ h => h.loadLane
        · exact hgone.partQueue
      · exact .ite hs.snoop (.soFence (hgone.meetPin.foldl fun _ _ h => h.load.loadLane))
    · exact hs

theorem State.memOk.serveLoads {op} : (s.serveLoads op).memOk := by
  unfold State.serveLoads
  refine hs.foldl (fun _ _ h1 => ?_)
  split
  · exact .ite h1.beginReq.performLoad h1
  · exact h1

theorem State.memOk.storeNow {t w counted pool old bs g l x} : (s.storeNow t w counted pool old bs g l x).2.memOk := by
  unfold State.storeNow
  dsimp only
  split
  · exact hs.vaultWrite
  · split
    · split
      · split
        · exact .ite hs.meet.storeCopy.wbTracked hs.meet.storeCopy
        · exact hs.meet
      · exact hs.meet
    · exact .ite hs.store.pushLine hs.store

theorem State.memOk.storeAll {t w counted pool old data ls} : (s.storeAll t w counted pool old data ls).2.memOk := by
  unfold State.storeAll
  exact hs.foldlSnd fun _ _ h1 => h1.storeNow

theorem State.memOk.storeQueue {t w op bs x} : (s.storeQueue t w op bs x).memOk := by
  unfold State.storeQueue
  split
  · split
    · exact hs.partQueue.order
    · exact hs
  · exact hs

theorem State.memOk.dxPush {w g e ops} : (s.dxPush w g e ops).memOk := hs.modGroup

theorem State.memOk.storeBody {i counted sp d sz t ls w} : (storeBody i counted sp d sz t ls w s).memOk := by
  unfold Machine.storeBody
  exact .ite (hs.openOps.foldl fun _ _ h1 => h1.foldl fun _ _ h2 => h2.dxPush) (.foldl (hs.meetPins.storeAll.crossStore.bankAll.openOps.foldl fun _ _
      h3 => h3.storeQueue) fun _ _ h4 => h4.doneLane)

theorem State.memOk.maintain {k line op} : (s.maintain k line op).memOk := by
  unfold State.maintain
  split
  · exact hs
  · split
    · exact .ite hs.dropTracked hs.wbTracked
    · exact .ite hs.evictLine hs.pushLine

theorem State.memOk.cmaintBody {i op sz brec a off w} : (cmaintBody i op sz brec a off w s).memOk := by
  unfold Machine.cmaintBody
  exact hs.memBody (fun _ _ _ _ h1 => .ite (h1.openOps.foldl fun _ _ h2 => h2.dxPush) (.foldl (.openOps (h1.foldl fun _ _ h3 => h3.maintain)) fun _ _
      h4 => h4.doneLane))

theorem State.memOk.fence {k kind scope uo} : (s.fence k kind scope uo).memOk := by
  unfold State.fence
  dsimp only
  have h1 : State.memOk (match kind with
  | FenceKind.acq => s
  | x => s.releaseSide k uo scope) := by
      split
      · exact hs
      · exact hs.releaseSide
  split
  · exact h1
  · exact h1.acquireSide

theorem State.memOk.fenceBy {w k kind scope uo} : (s.fenceBy w k kind scope uo).memOk := by
  unfold State.fenceBy
  refine .fence ?_
  split
  · exact .ite hs.uncrossAll hs
  · exact .ite hs.uncrossAll hs
  · exact hs

theorem State.memOk.opAfter {op names} : (s.opAfter op names).memOk := hs

theorem State.memOk.flushUntracked {k} : (s.flushUntracked k).memOk := by
  unfold State.flushUntracked
  exact hs.foldl fun _ _ h1 => h1.evictLine

theorem State.memOk.acqrDo {t uo die core} : (s.acqrDo t uo die core).memOk := hs.flushUntracked.acquire

theorem State.memOk.doAcqr {c uo a w} : (doAcqr c uo a w s).memOk := by
  unfold Machine.doAcqr
  dsimp only
  split
  · exact hs
  · exact .foldl (.openFor (hs.foldl fun _ _ h1 => h1.takeTrap)) fun _ _ h2 => .ite h2.acqrDo.doneLane h2.sendReq.order

/-! ### Copies -/

theorem State.memOk.tbarWake {k a phase} : (s.tbarWake k a phase).memOk := by
  unfold State.tbarWake
  refine hs.foldl (fun _ _ h1 => ?_)
  refine h1.foldl (fun _ _ h2 => ?_)
  refine h2.foldl (fun _ _ h3 => ?_)
  split
  · exact .ite h3.release.acquire h3
  · exact h3

theorem State.memOk.tbarDo {k a h} : (s.tbarDo k a h).memOk := by
  unfold State.tbarDo
  exact .ite hs.vaultWrite hs.vaultWrite.tbarWake

theorem State.memOk.tbarBody {i code pool a off d w} : (tbarBody i code pool a off d w s).memOk := by
  unfold Machine.tbarBody
  exact hs.homeWith (fun _ _ _ _ h1 => .ite (h1.openOps.foldl fun _ _ h2 => h2.dxPush) (.foldl (.openOps (.bankAll (.foldl (.ite h1.releaseSide h1)
      fun _ _ h3 => h3.tbarDo))) fun _ _ h4 => h4.doneLane))

theorem State.memOk.doTbarWait {c pool a off d w} : (doTbarWait c pool a off d w s).memOk := by
  unfold Machine.doTbarWait
  exact hs.homeWith (fun _ _ _ _ h1 => h1.bankAll.openFor.foldl fun _ _ h2 => .ite h2.waitOr h2.acquire.doneLane)

theorem State.memOk.doTbarTest {c pool a off d w} : (doTbarTest c pool a off d w s).memOk := by
  unfold Machine.doTbarTest
  exact hs.homeWith (fun _ _ _ _ h1 => h1.bankAll.openFor.foldl fun _ _ h2 => h2.doneLane)

theorem State.memOk.addCopy {k c} : (s.addCopy k c).memOk := hs.fresh.modCore

theorem State.memOk.pushSource {k c} : (s.pushSource k c).memOk := by
  unfold State.pushSource
  split
  · exact hs.pushAny
  · exact hs

theorem State.memOk.finishOps {ops} : (s.finishOps ops).memOk := hs

theorem State.memOk.sourceRead {ctx die trk pl off n} : (s.sourceRead ctx die trk pl off n).2.memOk := by
  unfold State.sourceRead
  split
  · exact hs.engineRead
  · exact hs

omit hs in
theorem State.memOk.bytesOr {c off n now} (hs : s.memOk) (hn : Prod.snd now |>.memOk) : (Copy.bytesOr c off n now s).2.memOk := by
  unfold Copy.bytesOr
  split
  · exact hs
  · exact hn

theorem State.memOk.writeKept {k a bs keep} : (s.writeKept k a bs keep).memOk := by
  unfold State.writeKept
  exact hs.foldl fun _ _ h1 => .ite h1.vaultWrite h1

theorem State.memOk.engineKill {ctx who va kind engine} : (s.engineKill ctx who va kind engine).memOk := hs.askKill

theorem State.memOk.abandonCopy {k id va kind} : (s.abandonCopy k id va kind).memOk := by
  unfold State.abandonCopy
  dsimp only
  split
  · exact hs
  · split
    · exact hs.modCore.engineKill
    · exact hs.modCore

theorem State.memOk.enginePas {ctx die pas} : (s.enginePas ctx die pas).2.memOk := by
  unfold State.enginePas
  exact hs.foldlSnd fun _ _ h1 => h1.engineRead

theorem State.memOk.copyAt {k id c done total} : (s.copyAt k id c done total).memOk := by
  unfold State.copyAt
  dsimp only
  split
  · exact hs.modCore
  · split
    · exact hs.modCore.opLane
    · exact hs.modCore.finishOps

theorem State.memOk.landItems {k id c t m src dst size bar keep trk} : (s.landItems k id c t m src dst size bar keep trk).memOk := by
  unfold State.landItems
  extract_lets s1
  have h1 : s1.memOk := hs.foldl fun _ _ h => (h.bytesOr h.sourceRead).writeKept
  exact .ite hs h1.tbarDo.bankTake.copyAt

theorem State.memOk.landAcpy {k id c t n src dst size bar keep trk} : (s.landAcpy k id c t n src dst size bar keep trk).memOk := by
  unfold State.landAcpy
  split
  · split
    · next h =>
        split at h
        · exact hs.engineSnoops h
        · cases h
    · exact hs.landItems
  · exact hs.landItems

theorem State.memOk.landMcpy {k id c t n shape base bytes dst mask bar} : (s.landMcpy k id c t n shape base bytes dst mask bar).memOk := by
  unfold State.landMcpy
  dsimp only
  split
  · split
    · next h => exact hs.engineSnoops h
    · exact .ite hs (.copyAt (.foldl (hs.bytesOr hs.enginePas) fun _ _ h => h.vaultWrite.tbarDo.bankTake))
  · split
    · exact .ite hs.askFault.modCore hs.abandonCopy
    · exact hs.abandonCopy

/-! ### Atomics -/

theorem State.memOk.performNow {t id tracked} : (s.performNow t id tracked).memOk := by
  unfold State.performNow
  dsimp only
  split
  · exact hs.performReq
  · exact hs.partSettle.partRequest.partSettle

theorem State.memOk.sendAll {w t ops ls mk} : (s.sendAll w t ops ls mk).memOk := by
  refine State.memOk.foldl (s := s.fresh.2) hs fun _ _ h => h.foldl fun b sp h1 => .ite (State.memOk.performNow ?_) (h1.sendReq.foldl fun _ _ h => h.order)
  exact h1

theorem State.memOk.doAtom {c k op ty sp a d w} : (doAtom c k op ty sp a d w s).memOk := by
  unfold Machine.doAtom
  exact hs.homeBody (fun _ _ _ _ h1 => h1.openFor.sendAll)

theorem State.memOk.bufferAll {w t ops ls mk} : (s.bufferAll w t ops ls mk).memOk := by
  unfold State.bufferAll
  exact hs.foldl fun _ _ h1 => h1.dxPush

theorem State.memOk.doAcas {c k ty sp a d w} : (doAcas c k ty sp a d w s).memOk := by
  unfold Machine.doAcas
  exact hs.homeBody (fun _ _ _ _ h1 => h1.openFor.sendAll)

theorem State.memOk.doExcvt {c k bf16 clr sp a d w} : (doExcvt c k bf16 clr sp a d w s).memOk := by
  unfold Machine.doExcvt
  exact hs.homeBody (fun _ _ _ _ h1 => h1.openFor.sendAll)

theorem State.memOk.serveAtom {req l} : (s.serveAtom req l).memOk := by
  unfold State.serveAtom
  split
  · exact hs.serveIf
  · exact hs

theorem State.memOk.monitorRead {t tid g tracked pa} : (s.monitorRead t tid g tracked pa).2.memOk := by
  unfold State.monitorRead
  dsimp only
  split
  · exact .partSettle (.partEvent (.ite hs.ownOut.partSettle.probe hs.ownOut.partSettle))
  · exact hs.recallFrom.evictLine

theorem State.memOk.armMon {t g pa} : (s.armMon t g pa).memOk := hs.modSlice

theorem State.memOk.doWaitc {late c cond uo brec a d w} : (doWaitc late c cond uo brec a d w s).memOk := by
  unfold Machine.doWaitc
  dsimp only
  refine hs.memBody ?_
  intro _ _ _ _ h1
  refine h1.openFor.foldl (fun _ _ h2 => ?_)
  split
  · exact h2
  · exact .ite h2.monitorRead.doneLane.acquire (.ite h2.monitorRead.doneLane (.ite h2.monitorRead h2.monitorRead.armMon.waitLane))

theorem State.memOk.tidyMon {t g pa} : (s.tidyMon t g pa).memOk := by
  unfold State.tidyMon
  exact .ite hs hs.modSlice

/-! ### Barriers -/

theorem State.memOk.setBarrier {tid t cluster id b} : (s.setBarrier tid t cluster id b).memOk := by
  unfold State.setBarrier
  exact .ite hs hs.modTeam

theorem State.memOk.barDepart {b} : (s.barDepart b).memOk := by
  unfold State.barDepart
  dsimp only
  refine hs.foldl (fun _ _ h1 => ?_)
  split
  · exact h1.release.acquire
  · exact h1

theorem State.memOk.barSettle {tid cluster id} : (s.barSettle tid cluster id).memOk := by
  unfold State.barSettle
  dsimp only
  split
  · exact hs
  · exact .ite hs.setBarrier.barDepart hs

theorem State.memOk.barSettleAll {tid} : (s.barSettleAll tid).memOk := by
  unfold State.barSettleAll
  exact .foldl (hs.foldl fun _ _ h1 => h1.barSettle) fun _ _ h2 => h2.barSettle

theorem State.memOk.barArrive {w cluster op uo cnt id d n v o g l} : (s.barArrive w cluster op uo cnt id d n v o g l).memOk := by
  unfold State.barArrive
  dsimp only
  split
  · exact hs
  · exact hs.uncross.waitLane.setBarrier.barSettle

theorem State.memOk.doBar {i cluster op uo cnt id d a b w} : (doBar i cluster op uo cnt id d a b w s).memOk := by
  unfold Machine.doBar
  dsimp only
  split
  · exact hs
  · exact hs.trapAll.releaseSide.openFor.foldl fun _ _ h1 => h1.barArrive

/-! ### Cross-lane instructions -/

theorem State.memOk.pullIn {w g l} : (s.pullIn w g l).memOk := hs.modGroup.modBundle

theorem State.memOk.xlnDo {i w g issuing cs} : (s.xlnDo i w g issuing cs).memOk := by
  unfold State.xlnDo
  exact .logEvents (.modGroup (hs.openOps.foldl fun _ _ h1 => h1.doneLane))

theorem State.memOk.xlnGroup {i ms w g} : (xlnGroup i ms w s g).memOk := by
  unfold Machine.xlnGroup
  dsimp only
  split
  · exact hs
  · split
    · refine .foldl (hs.foldl fun _ _ h1 => h1.takeTrap) (fun _ _ h2 => ?_)
      refine h2.foldl (fun _ _ h3 => ?_)
      split
      · exact h3.pullIn.takeTrap
      · exact h3
    · exact .ite (hs.foldl fun _ _ h4 => h4.modFibre) (.ite hs.xlnDo (.foldl (hs.xlnDo.foldl fun _ _ h5 => h5.modFibre) fun _ _ h6 => h6.pullIn.modFibre))

theorem State.memOk.xlnBody {i ms w} : (xlnBody i ms w s).memOk := by
  unfold Machine.xlnBody
  exact hs.foldl fun _ _ h1 => h1.xlnGroup

theorem State.memOk.xlnNow {i d w val} : (xlnNow i d w s val).memOk := by
  unfold Machine.xlnNow
  exact hs.openOps.foldl fun _ _ h1 => h1.doneLane

/-! ### Control flow -/

theorem State.memOk.keepText {t ws} : (s.keepText t ws).memOk := by
  unfold State.keepText
  exact .modCore (hs.foldl fun _ _ h1 => h1.fillTlb)

theorem State.memOk.jump {w x a} : (s.jump w x a).memOk := hs.modFibre

theorem State.memOk.eachFibre {w h} : (eachFibre w s h).memOk := by
  unfold Machine.eachFibre
  refine hs.foldl (fun _ _ h1 => ?_)
  split
  · exact h1.modFibre
  · exact h1.takeTrap

theorem State.memOk.indirectBody {a call w} : (indirectBody a call w s).memOk := by
  unfold Machine.indirectBody
  dsimp only
  split
  · exact hs
  · exact hs.gate.foldl fun _ _ h1 => h1.modFibre

/-! ### Lock requests -/

theorem State.memOk.lockBody {i brec a w} {go : Team → Nat → List Nat → Nat → LockPage → Nat → Who → State → State}
    (hgo : ∀ t g ls line page op w b, b.memOk → (go t g ls line page op w b).memOk) : (lockBody i brec a go w s).memOk :=
  hs.homeWith fun _ _ _ _ h1 => h1.trapAll.soFenceBy.openFor.foldl fun _ _ => hgo _ _ _ _ _ _ _ _

theorem State.memOk.orderAll {t g ls} : (s.orderAll t g ls).memOk := by
  unfold State.orderAll
  exact hs.foldl fun _ _ h1 => h1.order

theorem State.memOk.doLock {i try_ uo brec a d w} : (doLock i try_ uo brec a d w s).memOk := by
  unfold Machine.doLock
  exact hs.lockBody (fun _ _ _ _ _ _ _ _ h1 => .ite h1.lockRequest.soFence h1.sendReq.orderAll)

theorem State.memOk.doUnlock {i uo brec a d w} : (doUnlock i uo brec a d w s).memOk := by
  unfold Machine.doUnlock
  exact hs.lockBody (fun _ _ _ _ _ _ _ _ h1 => .ite h1.unlockRequest.soFence h1.sendReq.orderAll)

theorem State.memOk.doLstat {c brec a d w} : (doLstat c brec a d w s).memOk := by
  unfold Machine.doLstat
  dsimp only
  split
  · exact hs
  · exact hs.gate.touchAll.keepRec.openFor.foldl fun _ _ h1 => h1.doneLane

theorem State.memOk.lockDecided {r line step} : (s.lockDecided r line step).memOk := hs.lockTurn.soFence

theorem State.memOk.rearmProbe {t g} : (s.rearmProbe t g).memOk := hs.modGroup

/-! ### Clauses -/

theorem State.memOk.fetchGroup {t id b g} : (s.fetchGroup t id b g).2.memOk := by
  unfold State.fetchGroup
  dsimp only
  split
  · exact hs.sleepGroup
  · exact .modGroup (hs.foldl fun _ _ h1 => h1.takeTrap)
  · split
    · exact .modGroup (hs.foldl fun _ _ h2 => h2.takeTrap)
    · split
      · exact hs.sleepGroup
      · exact hs

theorem State.memOk.beginMembers {id b waits} : (s.beginMembers id b waits).memOk := by
  unfold State.beginMembers
  exact .ite (hs.foldl fun _ _ h1 => h1.modGroup) (.modBundle (hs.foldl fun _ _ h2 => h2.modGroup))

theorem State.memOk.groupBoundary {t b g lanes} : (s.groupBoundary t b g lanes).memOk := by
  unfold State.groupBoundary
  dsimp only
  split
  · exact hs
  · exact hs.modGroup

/-! ### The matrix engine and the streams -/

theorem State.memOk.modEng {k h} : (s.modEng k h).memOk := hs.modCore

theorem State.memOk.blockAll {w} : (s.blockAll w).memOk := by
  unfold State.blockAll
  exact hs.foldl fun _ _ h1 => h1.modFibre

theorem State.memOk.engineBody {w} {go : Team → Nat × Nat → Fibre → Who → State → State} (hgo : ∀ t l f w b, b.memOk → (go t l f w b).memOk) :
    (engineBody go w s).memOk := by
  unfold Machine.engineBody
  split
  · exact .ite hs.blockAll (hgo _ _ _ _ _ hs)
  · exact hs

theorem State.memOk.giveAll {i w ws} : (s.giveAll i w ws).memOk := by
  unfold State.giveAll
  exact hs.openFor.foldl fun _ _ h1 => h1.doneLane

theorem State.memOk.queueMat {i w t d kind bank mode} : (s.queueMat i w t d kind bank mode).memOk := hs.modEng.modTeam.giveAll

theorem State.memOk.doMxm {c d a imm w} : (doMxm c d a imm w s).memOk := by
  unfold Machine.doMxm
  dsimp only
  refine hs.engineBody ?_
  intro _ _ _ _ _ h1
  split
  · exact h1.hold
  · split
    · exact h1.leaderGate
    · exact h1.leaderGate.queueMat

theorem State.memOk.doMxldZero {c int bank d w} : (doMxldZero c int bank d w s).memOk := by
  unfold Machine.doMxldZero
  exact hs.engineBody (fun _ _ _ _ _ h1 => .ite h1.hold h1.queueMat)

theorem State.memOk.doMxldFill {c int bank d b w} : (doMxldFill c int bank d b w s).memOk := by
  unfold Machine.doMxldFill
  exact hs.engineBody (fun _ _ _ _ _ h1 => .ite h1.hold h1.queueMat)

theorem State.memOk.doMxldRestore {c int bank d a imm w} : (doMxldRestore c int bank d a imm w s).memOk := by
  unfold Machine.doMxldRestore
  dsimp only
  refine hs.engineBody ?_
  intro _ _ _ _ _ h1
  split
  · exact h1.hold
  · split
    · exact h1.leaderGate
    · exact h1.leaderGate.queueMat

theorem State.memOk.doMxst {c bank d a imm w} : (doMxst c bank d a imm w s).memOk := by
  unfold Machine.doMxst
  dsimp only
  refine hs.engineBody ?_
  intro _ _ _ _ _ h1
  split
  · exact h1.hold
  · split
    · exact h1.leaderGate
    · exact h1.leaderGate.keepRec.queueMat

theorem State.memOk.doMxwait {c a w} : (doMxwait c a w s).memOk := by
  unfold Machine.doMxwait
  dsimp only
  split
  · exact hs
  · exact hs.openFor.foldl fun _ _ h1 => .ite h1.waitOr h1.acquire.doneLane

theorem State.memOk.doMstat {c clr sel d w} : (doMstat c clr sel d w s).memOk := by
  unfold Machine.doMstat
  dsimp only
  split
  · exact hs
  · exact .foldl (.openFor (.ite hs.modTeam hs)) fun _ _ h1 => h1.doneLane

theorem State.memOk.doStrmOpen {c d a w} : (doStrmOpen c d a w s).memOk := by
  unfold Machine.doStrmOpen
  dsimp only
  split
  · split
    · exact hs.leaderGate
    · split
      · exact hs.leaderGate.modDie.giveAll
      · exact hs.leaderGate.giveAll
  · exact hs

theorem State.memOk.doStrmSub {c n d a b w} : (doStrmSub c n d a b w s).memOk := by
  unfold Machine.doStrmSub
  exact hs.engineBody (fun _ _ _ _ _ h1 => .ite h1.modEng.giveAll (.ite h1.modEng.giveAll (.ite h1.modEng.giveAll h1.modEng.modEng.giveAll)))

theorem State.memOk.tidyStream {die id} : (s.tidyStream die id).memOk := by
  unfold State.tidyStream
  split
  · exact .ite hs.modDie hs
  · exact hs

theorem State.memOk.doStrmUnsub {c a w} : (doStrmUnsub c a w s).memOk := by
  unfold Machine.doStrmUnsub
  exact hs.engineBody (fun _ _ _ _ _ h1 => .giveAll (.ite h1.modEng.tidyStream h1))

theorem State.memOk.doStrmClose {c a w} : (doStrmClose c a w s).memOk := by
  unfold Machine.doStrmClose
  dsimp only
  split
  · refine .giveAll ?_
    split
    · exact hs.modDie.tidyStream
    · exact hs
  · exact hs

theorem State.memOk.wakeMx {tid} : (s.wakeMx tid).memOk := by
  unfold State.wakeMx
  split
  · exact hs
  · refine hs.foldl (fun _ _ h1 => ?_)
    refine h1.foldl (fun _ _ h2 => ?_)
    split
    · exact .ite h2 h2.release.acquire
    · exact h2

theorem State.memOk.finishMat {k ticket counts} : (s.finishMat k ticket counts).memOk := by
  unfold State.finishMat
  dsimp only
  split
  · exact hs.modEng.modTeam.wakeMx
  · exact hs.modEng

theorem State.memOk.abandonMat {k ticket code} : (s.abandonMat k ticket code).memOk := by
  unfold State.abandonMat
  dsimp only
  refine .finishMat ?_
  split
  · exact hs.modTeam
  · exact hs

theorem State.memOk.stepMxm {k r ticket d ssh} : (s.stepMxm k r ticket d ssh).memOk := by
  have h2 : ∀ {c : Bool} {f g}, State.memOk (if c then (s.modEng k f).modEng k g else s.modEng k f) := .ite hs.modEng.modEng hs.modEng
  unfold State.stepMxm
  dsimp only
  split
  · exact hs
  · refine .ite hs (.ite (.abandonMat h2) ?_)
    split
    · exact .abandonMat h2
    · exact hs
    · exact .finishMat (.modEng h2)

theorem State.memOk.stepStore {k t op ws} : (s.stepStore k t op ws).memOk := by
  unfold State.stepStore
  dsimp only
  split
  · split
    · exact (hs.engineSnoops ‹_›)
    · exact hs.engineBytes.finishMat
  · split
    · exact .ite hs.askFault.modEng hs.engineKill
    · exact hs.engineKill

theorem State.memOk.deliver {k id t} : (s.deliver k id t).memOk := hs.modEng

/-! ### The protocol of objects -/

theorem State.memOk.protLoad {slot img} : (s.protLoad slot img).memOk := hs

theorem State.memOk.fillAll {t vas acc} : (s.fillAll t vas acc).memOk := by
  unfold State.fillAll
  exact hs.foldl fun _ _ h1 => h1.fillTlb

theorem State.memOk.readPieces {ctx die n pas} : (s.readPieces ctx die n pas).2.memOk := by
  unfold State.readPieces
  exact hs.foldlSnd fun _ _ h1 => h1.engineRead

theorem State.memOk.doProtld {c slot d a w} : (doProtld c slot d a w s).memOk := by
  unfold Machine.doProtld
  dsimp only
  split
  · split
    · exact hs.leaderGate
    · split
      · exact ((hs.leaderGate.fillAll.fenceBy.engineSnoops ‹_›)).hold
      · exact .giveAll (.ite hs.leaderGate.fillAll.fenceBy.readPieces.protLoad hs.leaderGate.fillAll.fenceBy.readPieces)
  · exact hs

theorem State.memOk.expel {k line} : (s.expel k line).memOk := hs.pushLine.dropCopy

theorem State.memOk.declare {t slot id x} : (s.declare t slot id x).memOk := by
  unfold State.declare
  exact hs.foldl fun _ _ h1 => h1.foldl fun _ _ h2 => .ite h2.expel h2

theorem State.memOk.doObjdecl {c slot d a w} : (doObjdecl c slot d a w s).memOk := by
  unfold Machine.doObjdecl
  dsimp only
  split
  · split
    · exact hs.leaderGate
    · split
      · exact hs.leaderGate.fillAll.keepRec.fenceBy.giveAll
      · split
        · exact ((hs.leaderGate.fillAll.keepRec.fenceBy.engineSnoops ‹_›)).hold
        · exact hs.leaderGate.fillAll.keepRec.fenceBy.declare.giveAll
  · exact hs

theorem State.memOk.doObjrel {c d a w} : (doObjrel c d a w s).memOk := by
  unfold Machine.doObjrel
  dsimp only
  split
  · split
    · exact hs.fenceBy.giveAll
    · split
      · exact hs.fenceBy.giveAll
      · split
        · exact ((hs.fenceBy.engineSnoops ‹_›)).hold
        · exact hs.fenceBy.releaseObject.giveAll
  · exact hs

theorem State.memOk.hostPut {pa bs} : (s.hostPut pa bs).memOk := hs.modSlice.homeWrite

theorem State.memOk.hostLine {acc line} : (s.hostLine acc line).memOk := by
  unfold State.hostLine
  dsimp only
  split
  · exact hs
  · split
    · exact hs.partQueue
    · exact hs.partQueue
    · exact .ite hs.homeWrite.partEvent hs.partQueue
    · exact hs.hostEnter
    · exact hs.hostEnter
    · exact hs.hostPut

theorem State.memOk.countRead {id r} : (s.countRead id r).memOk := by
  unfold State.countRead
  dsimp only
  split
  · exact .ite hs.modPart hs
  · exact hs

theorem State.memOk.flushCore {k} : (s.flushCore k).memOk := by
  unfold State.flushCore
  refine hs.foldl (fun _ _ h1 => ?_)
  split
  · exact h1.wbTracked
  · exact h1.pushLine

theorem State.memOk.wake {k} : (s.wake k).memOk := by
  unfold State.wake
  dsimp only
  split
  · exact hs
  · refine hs.modCore.foldl (fun _ _ h1 => ?_)
    split
    · exact .ite h1.dropTracked h1.modCore
    · exact h1

/-! ### The fault queue -/

theorem State.memOk.answer {r fail} : (s.answer r fail).memOk := by
  unfold State.answer
  dsimp only
  split
  · exact .ite hs.modGroup hs.modGroup.modTeam
  · split
    · exact .ite hs (.ite hs.abandonCopy hs.modCore)
    · exact hs
  · split
    · exact .ite hs (.ite hs.engineKill hs.modEng)
    · exact hs
  · split
    · exact .ite hs (.ite hs.engineKill hs.modDie)
    · exact hs
  · exact .ite hs hs.modQueue
  · exact .ite hs (.tidyCtx (.ite hs.wordLost hs.retryWord))
  · split
    · exact .ite hs (.ite hs.faultTask hs)
    · exact hs
  · exact hs.modDie

theorem State.memOk.fqAnswer {die tag fail} : (s.fqAnswer die tag fail).memOk := by
  unfold State.fqAnswer
  split
  · exact hs.modDie
  · exact hs.modDie.answer

/-! ### Entering a task -/

theorem State.memOk.presetsFor {ctx kdesc n} : (s.presetsFor ctx kdesc n).2.memOk := by
  unfold State.presetsFor
  split <;> exact hs

theorem State.memOk.placeWriter {n id} : (State.placeWriter n id s).memOk := by
  induction n generalizing id s with
  | zero => exact hs
  | succ n ih =>
    unfold State.placeWriter
    split
    · exact hs
    · exact .ite hs (hs.foldl fun _ _ h => ih (by exact h))

theorem State.memOk.badRecord {q code} : (s.badRecord q code).memOk := hs.setQueue.errorRecord.tidyCtx

theorem State.memOk.enterTask {q word r tin tout k comm} : (s.enterTask q word r tin tout k comm).memOk :=
  .foldl (by exact .placeWriter (by exact hs)) fun _ _ h => h.placeWriter

/-! ### Placement -/

theorem State.memOk.putTeam {gid g teamid core places run0} : (s.putTeam gid g teamid core places run0).1.memOk := by
  unfold State.putTeam
  extract_lets _ _ _ _ _ _ s1 s2
  have h1 : s1.memOk := hs
  have h2 : s2.memOk := h1.modCore
  exact h2.wake.acquire

theorem State.memOk.placeNext {gid r q} (h : s.placeNext gid r = some q) : q.1.memOk := by
  unfold State.placeNext at h
  split at h
  · cases h
  · split at h
    · cases h
    · cases h
      exact .foldlFst hs fun _ _ h1 => h1.putTeam

omit hs in
theorem State.memOk.placeLoop {gid r n q} {x : State × List (Nat × Nat)} (hx : x.1.memOk) (h : State.placeLoop gid r n x = some q) : q.1.memOk := by
  induction n generalizing x with
  | zero => cases h; exact hx
  | succ n ih =>
    unfold State.placeLoop at h
    split at h
    · cases h
    · next y hy =>
        have hy1 : y.1.memOk := hx.placeNext hy
        exact ih (x := (y.1, x.2 ++ y.2)) hy1 h

theorem State.memOk.fillTiles {x} : (s.fillTiles x).memOk := hs.modPart

theorem State.memOk.openGrid {id x} : (s.openGrid id x).2.memOk := by
  unfold State.openGrid
  split
  · exact hs
  · exact .fillTiles (by exact hs)
  · exact hs

theorem State.memOk.tryPlace {id x r q} (h : s.tryPlace id x r = some q) : q.1.memOk := .placeLoop hs.openGrid h

theorem State.memOk.claimBlocks {id bs} : (s.claimBlocks id bs).memOk := by
  unfold State.claimBlocks
  exact hs.foldl fun _ _ h1 => h1.modCore

theorem State.memOk.shrink {k} : (s.shrink k).memOk := by
  unfold State.shrink
  refine hs.foldl (fun _ _ h1 => ?_)
  split
  · exact .ite h1 h1.dropTracked
  · exact h1.evictLine

theorem State.memOk.beginSave {swap stop why tid} : (s.beginSave swap stop why tid).memOk := hs.modTeam

/-! ### Saves and restores -/

theorem State.memOk.writeImage {t eng key addr} : (s.writeImage t eng key addr).1.memOk :=
  .homeWrite (.homeWrites (hs.setMem (memZero_wf hs.1 _ _)))

theorem State.memOk.moveWaits {k base n k2 base2} : (s.moveWaits k base n k2 base2).memOk := hs

theorem State.memOk.settleSafe {gid} : (s.settleSafe gid).memOk := by
  unfold State.settleSafe
  exact .ite hs hs

theorem State.memOk.spill {t} : (s.spill t).memOk := by
  unfold State.spill
  exact hs.foldl fun _ _ h1 => h1.foldl fun _ _ h2 => h2.foldl fun _ _ h3 => h3.vaultWrite

theorem State.memOk.saveTeam {tid t c swap first} : (s.saveTeam tid t c swap first).memOk := by
  unfold State.saveTeam
  extract_lets k s1 s2 s3 holds eng units addr w s4 s5 s6
  have h1 : s1.memOk := hs.foldl fun _ _ h => h.flushEvent
  have h2 : s2.memOk := h1.spill.flushCore
  have h3 : s3.memOk := h2.foldl fun _ _ h => h.foldl fun _ _ h => h.unpin
  have hw : w.1.memOk := h3.writeImage
  have h4 : s4.memOk := .ite hw.freeEngine hw
  have h5 : s5.memOk := h4.clearRun.moveWaits
  exact h5

theorem State.memOk.keepTeam {tid t} : (s.keepTeam tid t).memOk := hs.bumpCtx.modTeam.settleSafe

theorem State.memOk.freeSave {ctx addr units} : (s.freeSave ctx addr units).memOk := hs

theorem State.memOk.restoreTeam {tid t addr units places run0} : (s.restoreTeam tid t addr units places run0).memOk := by
  unfold State.restoreTeam
  extract_lets k n now off cells s1 s2
  have h1 : s1.memOk := .shrink (hs.modVault fun _ hc => List.foldlRecOn cells _ (memZero_wf hc _ _) fun _ hm _ _ => memWrite_wf hm _ _)
  have h2 : s2.memOk := h1.modTeam
  exact h2.moveWaits.freeSave.wake.settleSafe

theorem State.memOk.tidyStreams {die ids} : (s.tidyStreams die ids).memOk := by
  unfold State.tidyStreams
  exact hs.foldl fun _ _ h1 => h1.tidyStream

theorem State.memOk.tidyCluster {gid clusid} : (s.tidyCluster gid clusid).memOk := by
  unfold State.tidyCluster
  exact .ite hs hs

/-! ### Ending a task -/

theorem State.memOk.startTask {id x core run} : (s.startTask id x core run).memOk := by
  unfold State.startTask
  extract_lets y t0 t
  have h0 : t0.memOk := hs
  have ht : t.memOk := by
    unfold t
    split
    · exact h0.acquire
    · exact h0
  exact .ite ht ht.fillTiles

theorem State.memOk.takeEngine {id k run0 n} : (s.takeEngine id k run0 n).memOk :=
  .wake (.shrink (hs.modVault fun _ hc => memZero_wf hc _ _))

theorem State.memOk.wakeSeq {q} : (s.wakeSeq q).memOk := by
  unfold State.wakeSeq
  dsimp only
  refine hs.foldl (fun _ _ h1 => ?_)
  refine h1.foldl (fun _ _ h2 => ?_)
  refine h2.foldl (fun _ _ h3 => ?_)
  split
  · exact .ite h3.release.acquire h3
  · exact h3

theorem State.memOk.settleComp {q} : (s.settleComp q).memOk := by
  unfold State.settleComp
  exact .ite hs.modQueue.queueWrite.wakeSeq hs

theorem State.memOk.retireTask {id x} : (s.retireTask id x).memOk := by
  unfold State.retireTask
  extract_lets s1 s2 s3
  have h2 : s2.memOk := hs
  have h3 : s3.memOk := .ite h2.modQueue h2
  exact h3.settleComp.settleDrain.tidyCtx

theorem State.memOk.doTaskpost {c d a b imm w} : (doTaskpost c d a b imm w s).memOk := by
  unfold Machine.doTaskpost
  dsimp only
  split
  · split
    · exact hs.leaderGate
    · exact hs.leaderGate.fence.giveAll
    · split
      · exact ((hs.leaderGate.fence.engineSnoops ‹_›)).hold
      · exact hs.leaderGate.fence.engineWrite.modQueue.giveAll
  · exact hs

theorem State.memOk.doTaskseq {c d b w} : (doTaskseq c d b w s).memOk := by
  unfold Machine.doTaskseq
  dsimp only
  split
  · exact hs
  · exact .foldl (.openFor (hs.gate.foldl fun _ _ h1 => h1.acquire)) fun _ _ h2 => h2.doneLane

theorem State.memOk.doTaskseqWait {c a b w} : (doTaskseqWait c a b w s).memOk := by
  unfold Machine.doTaskseqWait
  dsimp only
  split
  · exact hs
  · exact hs.gate.openFor.foldl fun _ _ h1 => .ite h1.acquire.doneLane h1.waitOr

/-! ### The host -/

theorem State.memOk.doElogCnt {c d w} : (doElogCnt c d w s).memOk := by
  unfold Machine.doElogCnt
  dsimp only
  split
  · exact hs.openFor.foldl fun _ _ h1 => h1.sampleOp.doneLane
  · exact hs

theorem State.memOk.userRecord {t g a b} : (s.userRecord t g a b).memOk := hs.ctxLog

theorem State.memOk.dropXlate {out} : (s.dropXlate out).memOk := hs.mapCores fun _ => rfl

theorem State.memOk.tlbiBody {wide i out w} : (tlbiBody wide i out w s).memOk := by
  unfold Machine.tlbiBody
  split
  · exact hs
  · refine .foldl (.foldl (.openFor (.foldl ?_ fun _ _ h1 => h1.dropXlate)) fun _ _ h2 => h2.opAfter) fun _ _ h3 => h3.doneLane
    exact hs.flushCore.foldl fun _ _ h4 => h4.pushAll

theorem State.memOk.doTlbiAll {c w} : (doTlbiAll c w s).memOk := hs.tlbiBody

theorem State.memOk.doTlbiVa {c a w} : (doTlbiVa c a w s).memOk := hs.tlbiBody

theorem State.memOk.doTlbiPart {c w} : (doTlbiPart c w s).memOk := hs.tlbiBody

/-! ### Collectives -/

theorem State.memOk.doColl {c d a imm w} : (doColl c d a imm w s).memOk := by
  unfold Machine.doColl
  dsimp only
  split
  · split
    · exact hs.leaderGate
    · exact .ite hs.leaderGate.giveAll hs.leaderGate.keepRec.keepRec.keepRec.pushAll.modDie.giveAll
  · exact hs

theorem State.memOk.setHead {die h} : (s.setHead die h).memOk := hs.modDie

theorem State.memOk.collMiss {die x write va e a} (h : s.collMiss die x write va e = some a) : a.memOk := by
  unfold State.collMiss at h
  split at h
  · split at h
    · cases h
      exact hs.askFault.setHead
    · cases h
  · cases h

theorem State.memOk.meetRanks {die peers c} : (s.meetRanks die peers c).memOk := by
  unfold State.meetRanks
  dsimp only
  split
  · exact hs
  · split
    · exact hs.setHead
    · exact .ite hs hs.setHead.setHead
    · exact hs

theorem State.memOk.collSource {die c p} : (s.collSource die c p).2.memOk := hs.readRuns.readRuns

theorem State.memOk.mateData {die c mp} : (s.mateData die c mp).2.memOk := by
  unfold State.mateData
  dsimp only
  split
  · exact hs.collSource
  · exact hs

theorem State.memOk.collBytes {die c p peers} : (s.collBytes die c p peers).2.2.2.memOk := hs.collSource.readRuns

theorem State.memOk.writeSome {ctx die ps bs} : (s.writeSome ctx die ps bs).memOk := hs.engineBytes

theorem State.memOk.dropColl {die} : (s.dropColl die).memOk := by
  unfold State.dropColl
  dsimp only
  split
  · exact hs.modDie
  · split
    · exact hs.modDie
    · split
      · exact hs.modDie.acquire
      · exact hs.modDie

theorem State.memOk.failColl {die code c cpl} : (s.failColl die code c cpl).memOk := by
  unfold State.failColl
  extract_lets s0 s1 s2 s3
  have h0 : s0.memOk := by
    unfold s0
    split
    · exact .ite hs.setHead hs
    · exact hs
  have h3 : s3.memOk := h0.writeRuns.ctxLog.dropColl
  split
  · exact h3.faultTask
  · exact h3

theorem State.memOk.finishColl {die c p mp peers} : (s.finishColl die c p mp peers).memOk := by
  unfold State.finishColl
  dsimp only
  refine .dropColl ?_
  split
  · exact hs.mateData.collBytes.writeRuns.writeRuns.writeRuns.setHead
  · exact hs.mateData.collBytes.writeRuns.writeRuns.writeRuns

theorem State.memOk.linkLost {lost} : (s.linkLost lost).memOk := by
  unfold State.linkLost
  exact hs.foldl fun _ _ h1 => h1.modDie

/-! ### Deterministic grids -/

theorem State.memOk.doDxsync {c d w} : (doDxsync c d w s).memOk := by
  unfold Machine.doDxsync
  split
  · exact hs
  · exact .ite hs.giveAll hs.fenceBy.giveAll

theorem State.memOk.takeSource {t kind} : (s.takeSource t kind).2.memOk := by
  unfold State.takeSource
  dsimp only
  split
  · exact hs.sourceRead
  · split
    · exact hs.enginePas
    · exact hs

theorem State.memOk.handCopy {t c} : (s.handCopy t c).memOk := hs.takeSource.addCopy

theorem State.memOk.commitStore {t trk pa bs} : (s.commitStore t trk pa bs).memOk := by
  unfold State.commitStore
  split
  · exact hs.engineWrite
  · exact hs.evictLine.homeWrite

theorem State.memOk.commitReq {t tid g op r} : (s.commitReq t tid g op r).memOk := .performNow (by exact hs)

theorem State.memOk.applyItem {tid g x} : (s.applyItem tid g x).memOk := by
  unfold State.applyItem
  dsimp only
  split
  · exact hs
  · split
    · exact .finishOps (hs.foldl fun _ _ h1 => h1.commitStore)
    · exact .finishOps (hs.foldl fun _ _ h2 => h2.vaultWrite)
    · exact .finishOps (hs.foldl fun _ _ h3 => h3.commitReq)
    · exact .finishOps (hs.foldl fun _ _ h4 => h4.maintain)
    · exact .finishOps (hs.foldl fun _ _ h5 => h5.tbarDo)
    · refine hs.foldl (fun _ _ h6 => ?_)
      refine .handCopy ?_
      split
      · exact h6.pushAny
      · exact h6
    · split
      · exact .ite hs.finishOps hs.pushAll.handCopy
      · exact hs
    · exact hs.modTeam.finishOps
    · exact hs.flushEvent.finishOps
    · exact hs.userRecord.finishOps
    · exact hs.eventWrite

theorem State.memOk.applyGroup {x} : (s.applyGroup x).memOk := by
  unfold State.applyGroup
  exact .flushEvent (hs.modGroup.foldl fun _ _ h1 => h1.applyItem)

theorem State.memOk.syncAct {late i act w} (h : syncAct late i = some act) : (act w s).memOk := by
  cases i with
  | atom => exact Option.some.inj h ▸ hs.doAtom
  | acas => exact Option.some.inj h ▸ hs.doAcas
  | excvt => exact Option.some.inj h ▸ hs.doExcvt
  | waitc => exact Option.some.inj h ▸ hs.doWaitc
  | llock | ltry => exact Option.some.inj h ▸ hs.doLock
  | lunlk => exact Option.some.inj h ▸ hs.doUnlock
  | lstat => exact Option.some.inj h ▸ hs.doLstat
  | bar | cbar => exact Option.some.inj h ▸ hs.doBar
  | tbarWait => exact Option.some.inj h ▸ hs.doTbarWait
  | tbarTest => exact Option.some.inj h ▸ hs.doTbarTest
  | mxm => exact Option.some.inj h ▸ hs.doMxm
  | mxldZero => exact Option.some.inj h ▸ hs.doMxldZero
  | mxldFill => exact Option.some.inj h ▸ hs.doMxldFill
  | mxldRestore => exact Option.some.inj h ▸ hs.doMxldRestore
  | mxst => exact Option.some.inj h ▸ hs.doMxst
  | mxwait => exact Option.some.inj h ▸ hs.doMxwait
  | mstat => exact Option.some.inj h ▸ hs.doMstat
  | strmOpen => exact Option.some.inj h ▸ hs.doStrmOpen
  | strmSub => exact Option.some.inj h ▸ hs.doStrmSub
  | strmUnsub => exact Option.some.inj h ▸ hs.doStrmUnsub
  | strmClose => exact Option.some.inj h ▸ hs.doStrmClose
  | taskpost => exact Option.some.inj h ▸ hs.doTaskpost
  | taskseq => exact Option.some.inj h ▸ hs.doTaskseq
  | taskseqWait => exact Option.some.inj h ▸ hs.doTaskseqWait
  | coll => exact Option.some.inj h ▸ hs.doColl
  | objdecl => exact Option.some.inj h ▸ hs.doObjdecl
  | objrel => exact Option.some.inj h ▸ hs.doObjrel
  | protld => exact Option.some.inj h ▸ hs.doProtld
  | tlbiAll => exact Option.some.inj h ▸ hs.doTlbiAll
  | tlbiVa => exact Option.some.inj h ▸ hs.doTlbiVa
  | tlbiPart => exact Option.some.inj h ▸ hs.doTlbiPart
  | acqr => exact Option.some.inj h ▸ hs.doAcqr
  | dxsync => exact Option.some.inj h ▸ hs.doDxsync
  | elogCnt => exact Option.some.inj h ▸ hs.doElogCnt
  | _ => exact absurd h (Option.some_ne_none act).symm

theorem State.memOk.performDx {late x} : (s.performDx late x).memOk := by
  unfold State.performDx
  refine .ite hs ?_
  split
  · next act h => exact hs.syncAct h
  · exact hs

theorem State.memOk.keepDx {gid} : (s.keepDx gid).memOk := hs

theorem State.memOk.runDx {gid xs} : (s.runDx gid xs).1.memOk := by
  induction xs generalizing s with
  | nil => exact hs
  | cons x xs ih =>
    unfold State.runDx
    split
    · exact hs
    · exact ih hs.performDx

theorem State.memOk.expireWaitc {gmin x} : (s.expireWaitc gmin x).memOk := by
  unfold State.expireWaitc
  generalize x.instr = i
  cases i with
  | waitc => exact hs.performDx
  | _ => exact hs

theorem State.memOk.expireLocks {gid gmin} : (s.expireLocks gid gmin).memOk := by
  unfold State.expireLocks
  dsimp only
  refine .foldl ?_ (fun _ _ h2 => ?_)
  · refine hs.foldl (fun _ _ h1 => ?_)
    split
    · split
      · exact .ite h1.lockExpire h1
      · exact h1
    · exact h1
  · split
    · exact .ite h2.lockProbe h2
    · exact h2

theorem State.memOk.endCommit {gid q} : (s.endCommit gid q).memOk := by
  unfold State.endCommit
  dsimp only
  refine .foldl ?_ (fun _ _ h2 => h2.modTeam.acquire)
  split
  · exact .expireLocks (.keepDx (hs.settleLocks.keepDx.foldl fun _ _ h1 => h1.expireWaitc))
  · exact hs.settleLocks.keepDx

theorem State.memOk.goCommit {gid q} : (s.goCommit gid q).memOk := by
  unfold State.goCommit
  generalize hr : s.runDx gid _ = r
  have h1 : r.1.memOk := hr ▸ hs.runDx
  exact .ite (.endCommit (by exact h1)) (by exact h1)

theorem State.memOk.beginCommit {gid} : (s.beginCommit gid).memOk := by
  unfold State.beginCommit
  exact .foldl (hs.foldl fun _ _ h1 => h1.applyGroup) fun _ _ h2 => h2.barSettleAll

/-! ### Registers -/

theorem State.memOk.useCtx {k part} : (s.useCtx k part).memOk := by
  unfold State.useCtx
  split
  · exact hs
  · exact .homeWrite (by exact hs)

theorem State.memOk.writePart {q v} : (s.writePart q v).memOk := by
  unfold State.writePart
  exact .ite hs.setQueue (.ite hs.setQueue hs.setQueue)

theorem State.memOk.enableQueue {q v} : (s.enableQueue q v).memOk := by
  unfold State.enableQueue
  exact .ite hs.modQueue.writePart (.ite hs.modQueue.writePart.setQueue (.ite hs.modQueue.writePart.setQueue (.ite hs.modQueue.writePart.setQueue
      hs.modQueue.writePart.setQueue.useCtx)))

theorem State.memOk.disableQueue {q v} : (s.disableQueue q v).memOk := hs.writePart.modQueue.tidyCtx

theorem State.memOk.writeTail {q v} : (s.writeTail q v).memOk := hs.modQueue

theorem State.memOk.writeQbase {q v} : (s.writeQbase q v).memOk := hs.modQueue

theorem State.memOk.writeQcompa {q v} : (s.writeQcompa q v).memOk := hs.modQueue

theorem State.memOk.writeQctx {q v} : (s.writeQctx q v).memOk := hs.modQueue

theorem State.memOk.killWrite {q} : (s.killWrite q).memOk := by
  unfold State.killWrite
  split
  · exact .ite hs hs.askKill
  · exact hs

theorem State.memOk.keepTick {k} {before : State} : (s.keepTick before k).memOk := by
  unfold State.keepTick
  exact .ite hs hs.modCore

theorem State.memOk.commitPart {p} : (s.commitPart p).memOk := by
  unfold State.commitPart
  exact .foldl (.foldl (hs.discard.modPart.foldl fun _ _ h1 => .ite h1.modQueue h1) fun _ _ h2 => h2.keepTick) fun _ _ h3 => h3.shrink

theorem State.memOk.commitWrite {p} : (s.commitWrite p).memOk := by
  unfold State.commitWrite
  exact .ite hs.commitPart hs.modPart

theorem State.memOk.oversubWrite {p} : (s.oversubWrite p).memOk := hs.modPart

theorem State.memOk.resumeWrite {p} : (s.resumeWrite p).memOk := by
  unfold State.resumeWrite
  exact .ite hs hs

theorem State.memOk.drainWrite {p} : (s.drainWrite p).memOk := by
  unfold State.drainWrite
  exact hs.discard.modPart.settleDrain.foldl fun _ _ h1 => h1.tidyCtx

theorem State.memOk.lkcntWrite {p} : (s.lkcntWrite p).memOk := hs.modPart

theorem State.memOk.staleWrite {die} : (s.staleWrite die).memOk := hs.modDie

theorem State.memOk.errorsWrite {die} : (s.errorsWrite die).memOk := hs.modDie

theorem State.memOk.replaysWrite {port} : (s.replaysWrite port).memOk := hs

theorem State.memOk.deadAtParts {die agent} : (s.deadAtParts die agent).memOk := by
  unfold State.deadAtParts
  exact hs.foldl fun _ _ h1 => h1.foldl fun _ _ h2 => .ite h2.partEvent h2

theorem State.memOk.proxyDrops {die} : (s.proxyDrops die).memOk := by
  unfold State.proxyDrops
  exact hs.foldl fun _ _ h1 => h1.foldl fun _ _ h2 => .ite h2.goneFrom h2

theorem State.memOk.loseCopies {k} : (s.loseCopies k).memOk := hs.modCore

theorem State.memOk.loseHost {die} : (s.loseHost die).memOk := by
  unfold State.loseHost
  exact .retryWords hs

theorem State.memOk.killCore {die core inc reason} : (s.killCore die core inc reason).memOk := by
  unfold State.killCore
  exact hs.foldl fun _ _ h1 => h1.askKill

theorem State.memOk.addRepair {die core} : (s.addRepair die core).memOk := by
  unfold State.addRepair
  exact .ite hs hs

theorem State.memOk.bumpInc {die agent} : (s.bumpInc die agent).memOk := by
  unfold State.bumpInc
  exact hs.foldl fun _ _ h1 => h1.modDie

theorem State.memOk.declareDead {die agent reason} : (s.declareDead die agent reason).memOk := by
  unfold State.declareDead
  extract_lets _ _ _ _ s1 a _ s2
  have h1 : s1.memOk := hs.bumpInc
  have ha : a.memOk := h1.loseCopies.deadAtParts.proxyDrops
  have h2 : s2.memOk := by
    refine .ite ha.addRepair.killCore (.ite (.linkLost (.deadAtParts ?_)) (.ite ?_ (.ite h1.linkLost h1)))
    · refine h1.foldl fun _ _ h => ?_
      exact h.modCore
    · exact h1.loseHost.loseHost.deadAtParts.deadAtParts
  exact .ite hs h2.irq

theorem State.memOk.declareWrite {die agent} : (s.declareWrite die agent).memOk := by
  unfold State.declareWrite
  exact .ite hs.declareDead hs

theorem State.memOk.pctlWrite {p v} : (s.pctlWrite p v).memOk := by
  unfold State.pctlWrite
  have h1 : State.memOk (if flag v 1 = true then (if flag v 0 = true then s.commitWrite p else s).oversubWrite p
  else if flag v 0 = true then s.commitWrite p else s) := .ite (.oversubWrite (.ite hs.commitWrite hs)) (.ite hs.commitWrite hs)
  exact .ite (.drainWrite (.ite h1.resumeWrite h1)) (.ite h1.resumeWrite h1)

theorem State.memOk.writeNamed {r v} : (s.writeNamed r v).memOk := by
  unfold State.writeNamed
  dsimp only
  split
  · exact hs.writeQbase
  · exact hs.writeTail
  · exact hs.writeQcompa
  · exact .ite hs.enableQueue hs.disableQueue
  · exact hs.writeQctx
  · exact .ite hs.killWrite hs
  · exact hs.pctlWrite
  · exact .ite hs.modPart hs
  · exact .ite hs.modPart hs
  · exact .ite hs.modPart hs
  · exact hs.modDie
  · exact hs.modDie
  · exact hs.modDie
  · exact hs.fqAnswer
  · exact .ite hs.modDie hs
  · exact hs.modPart
  · exact hs.lkcntWrite
  · exact hs.staleWrite
  · exact hs.modDie
  · exact .ite hs hs.modPart
  · exact .ite hs hs.modPart
  · exact hs.errorsWrite
  · exact hs.modDie
  · exact .ite hs.modDie.declareWrite hs.modDie
  · exact hs.modDie
  · exact hs.replaysWrite
  · exact hs
  · exact hs
  · exact hs
  · exact .ite hs hs
  · exact hs

/-! ### Links -/

theorem State.memOk.pause {die} : (s.pause die).memOk := hs.modDie

theorem State.memOk.stopPart {p} : (s.stopPart p).memOk := by
  unfold State.stopPart
  extract_lets s1 ids s2
  have h1 : s1.memOk := hs.modPart
  have h2 : s2.memOk := h1.foldl fun _ _ h => h.beginSave
  exact h2

theorem State.memOk.countCorrected {l} : (s.countCorrected l).memOk := by
  unfold State.countCorrected
  dsimp only
  split
  · exact hs.modCore
  · exact hs

theorem State.memOk.rasLog {die} : (s.rasLog die).memOk := by
  unfold State.rasLog
  extract_lets d s1 s2
  have h1 : s1.memOk := hs.homeWrite
  exact h1

/-! ### The passing of clocks -/

theorem State.memOk.pass {d} : (s.pass d).memOk :=
  have h1 : State.memOk ((List.range 8).foldl (fun (a : State) p => a.modPart p (fun x => x.pass d)) s) := hs.foldl fun _ _ h => h.modPart
  h1.mapCores fun _ => rfl

theorem State.memOk.badWord {word} : (s.badWord word).memOk := by
  unfold State.badWord
  dsimp only
  split
  · exact hs
  · exact hs.trapAll.countClocks.runKills

theorem State.memOk.countIssue {team gs} : (s.countIssue team gs).memOk := by
  unfold State.countIssue
  split
  · exact hs
  · exact .ite hs (hs.foldl fun _ _ h1 => h1.modGroup)

theorem State.memOk.clearFailed {team gs} : (s.clearFailed team gs).memOk := by
  unfold State.clearFailed
  exact hs.foldl fun _ _ h1 => h1.modGroup

theorem State.memOk.afterIssue {id gs word} : (s.afterIssue id gs word).memOk := by
  unfold State.afterIssue
  extract_lets s0
  have h0 : s0.memOk := hs
  split
  · exact h0
  · refine .ite h0.modBundle (.countIssue (.clearFailed ?_))
    split
    · exact h0.modBundle.modCore
    · exact h0.modBundle

/-! ### After an instruction -/

omit hs in
theorem Memory.wf.filter {m : Memory} {p : Nat × Byte → Bool} (h : Memory.wf m) : Memory.wf (m.filter p) :=
  ⟨h.1.filter _, fun c hc => h.2 c (List.mem_of_mem_filter hc)⟩

/-! ### Walks and tasks (R231, R239) -/

omit hs in
/-- What a walk gives holds, and the state that it leaves keeps the form. -/
def Walk.Canonical {α : Type} (P : α → Prop) : Walk α → Prop
  | .ok x r => P x ∧ r.memOk
  | .wait r => r.memOk
  | .bad _ r => r.memOk

omit hs in
theorem Walk.Canonical.andThen {α β : Type} {P : α → Prop} {Q : β → Prop} {r : Walk α} {f : α → State → Walk β} (hr : r.Canonical P)
    (hf : ∀ x a, P x → a.memOk → (f x a).Canonical Q) : (r.andThen f).Canonical Q := by
  cases r with
  | ok x a => exact hf x a hr.1 hr.2
  | wait a => exact hr
  | bad c a => exact hr

theorem State.memOk.check {b code} : (Walk.check b code s).Canonical fun _ => True := by
  unfold Walk.check
  split
  · exact hs
  · exact ⟨trivial, hs⟩

theorem State.memOk.walkRead {q c va n} : (s.walkRead q c va n).Canonical fun _ => True := by
  unfold State.walkRead
  dsimp only
  split
  · exact hs
  · split
    · split
      · exact hs.engineSnoops ‹_›
      · exact ⟨trivial, hs.fillTlb.engineRead⟩
    · split
      · exact State.memOk.modQueue hs.askFault
      · exact hs
    · exact hs

theorem State.memOk.readTiles {q c p ts} : (s.readTiles q c p ts).Canonical fun _ => True :=
  List.foldlRecOn ts _ (motive := Walk.Canonical fun _ => True) ⟨trivial, hs⟩ fun _ hr _ _ => hr.andThen fun _ _ _ h =>
    h.check.andThen fun _ _ _ h => h.walkRead.andThen fun _ _ _ h => h.check.andThen fun _ _ _ h => ⟨trivial, h⟩

theorem State.memOk.readKernel {q c p r} : (s.readKernel q c p r).Canonical fun _ => True := by
  unfold State.readKernel
  split
  · exact ⟨trivial, hs⟩
  · exact hs.walkRead.andThen fun _ _ _ h => h.check.andThen fun _ _ _ h => h.presetsFor.check.andThen fun _ _ _ h => ⟨trivial, h⟩

theorem State.memOk.readComm {q c p r} : (s.readComm q c p r).Canonical fun _ => True := by
  unfold State.readComm
  dsimp only
  split
  · exact ⟨trivial, hs⟩
  · exact hs.walkRead

omit hs in
/-- Where running a task leaves a state, it keeps the form. -/
def Ran.Canonical : Ran → Prop
  | .done r => r.memOk
  | .wait r => r.memOk
  | .fault => True

theorem State.memOk.taskMiss {id c die core write e} : (s.taskMiss id c die core write e).Canonical := by
  unfold State.taskMiss
  split
  · split
    · exact hs
    · trivial
  · trivial

theorem State.memOk.runCopy {id x c} : (s.runCopy id x c).Canonical := by
  unfold State.runCopy
  dsimp only
  split
  · trivial
  · split
    · exact hs.taskMiss
    · exact hs.taskMiss
    · split
      · exact hs.engineSnoops ‹_›
      · exact hs.engineSnoops ‹_›
      · exact hs.readRuns.writeRuns

theorem State.memOk.runMxm {id x c} : (s.runMxm id x c).Canonical := by
  unfold State.runMxm
  split
  · extract_lets d base size core ins reads
    split
    · exact hs.taskMiss
    · exact hs.taskMiss
    · split
      · exact hs.engineSnoops ‹_›
      · exact hs.engineSnoops ‹_›
      · extract_lets s1
        have h1 : s1.memOk := hs.foldl fun _ _ h => h.readRuns.vaultWrite
        exact h1.writeRuns.freeEngine.clearRun
  · trivial

theorem State.memOk.runTask {id x} : (s.runTask id x).Canonical := by
  unfold State.runTask
  split
  · exact hs
  · split
    · exact hs
    · split
      · split
        · split <;> exact hs
        · exact hs
      · split
        · trivial
        · exact hs.runMxm
      · exact hs.runCopy
      · split
        · trivial
        · split <;> exact hs
      · exact hs

theorem State.memOk.collMiss_getD {die x write va e} {b : State} (hb : b.memOk) : ((s.collMiss die x write va e).getD b).memOk := by
  cases h : s.collMiss die x write va e with
  | none => exact hb
  | some a => exact hs.collMiss h

/-! ### Instructions and events -/

omit hs in
/-- Where a step ends in a next state, that state's memory and vaults are in canonical form. -/
def CanonicalAfter (o : Host.Outcome State Fault Refusal) : Prop := ∀ r, o = .next r → r.memOk

omit hs in
theorem CanonicalAfter.ite {c : Prop} [Decidable c] {a b : Host.Outcome State Fault Refusal} (ha : CanonicalAfter a) (hb : CanonicalAfter b) :
    CanonicalAfter (if c then a else b) := by
  split
  · exact ha
  · exact hb

theorem State.memOk.next : CanonicalAfter (.next s) := fun _ h => Host.Outcome.next.inj h ▸ hs

theorem State.memOk.native {i} {body : Who → State → State} (hb : ∀ w a, a.memOk → (body w a).memOk) : CanonicalAfter (native i s body) := by
  unfold Machine.native
  split
  · split
    · exact hs.next
    · extract_lets perf judged s1 good s2
      refine .ite hs.hold.next (.ite (hs.trapAll.countClocks.endNative hs).next ?_)
      have h1 : s1.memOk := hs.foldl fun _ _ h => h.trapIf
      have h2 : s2.memOk := .ite h1 (hb _ _ h1)
      exact (State.memOk.endNative (.ite h2 h2.countClocks) hs).next
  · exact hs.next

theorem State.memOk.event {body : State → State} (hb : ∀ a, a.memOk → (body a).memOk) : CanonicalAfter (event s body) := by
  unfold Machine.event
  split
  · exact hs.next
  · exact (hb _ hs).runKills.next

theorem State.memOk.execMovxRd {c w64 d a base} : CanonicalAfter (Machine.execMovxRd c w64 d a base s) := by
  refine hs.native fun _ _ h1 => ?_
  dsimp only
  refine h1.perLane ?_
  intro _ _ _ _ h2
  split
  · exact h2.takeTrap
  · exact h2.modFibre

theorem State.memOk.execMovxWr {c w64 a base e} : CanonicalAfter (Machine.execMovxWr c w64 a base e s) := by
  refine hs.native fun _ _ h1 => ?_
  dsimp only
  refine h1.perLane ?_
  intro _ _ _ _ h2
  split
  · exact h2.takeTrap
  · exact h2.modFibre

theorem State.memOk.execSrd {c w64 sel d} : CanonicalAfter (Machine.execSrd c w64 sel d s) :=
  hs.native fun _ _ h => h.perLane fun _ _ _ _ h => h.modFibre

theorem State.memOk.execSwr {c a} : CanonicalAfter (Machine.execSwr c a s) :=
  hs.native fun _ _ h => h.perLane fun _ _ _ _ h => h.modFibre

theorem State.memOk.execSt {c sz m d} : CanonicalAfter (Machine.execSt c sz m d s) :=
  hs.native fun _ _ h => h.homeWith fun _ _ _ _ h => h.beside fun _ _ _ _ h => h.storeBody

theorem State.memOk.execPrefL1 {c sz brec a off} : CanonicalAfter (Machine.execPrefL1 c sz brec a off s) := by
  refine hs.native fun _ _ h1 => ?_
  split
  · exact h1
  · exact .ite h1 (h1.foldl fun _ _ h2 => .ite h2.fill h2)

theorem State.memOk.execFence {c kind scope uo} : CanonicalAfter (Machine.execFence c kind scope uo s) := by
  refine hs.native fun _ _ h => h.afterOrder fun _ _ h => ?_
  dsimp only
  split
  · exact h
  · have h1 : ∀ {c} [Decidable c] {a b}, State.memOk a → State.memOk b → State.memOk (if c then a else b) := .ite
    exact .foldl (.openOps (h1 h h.fenceBy)) fun _ _ h => h.doneLane

theorem State.memOk.execAcqrWriteback {req} : CanonicalAfter (Machine.execAcqrWriteback req s) := by
  refine hs.event fun _ h => ?_
  dsimp only
  split
  · split
    · exact .answerLane (by exact h.acqrDo)
    · exact h
  · exact h

theorem State.memOk.execAcpy {c sz src x y z} : CanonicalAfter (Machine.execAcpy c sz src x y z s) := by
  refine hs.native fun _ _ h => h.afterOrder fun _ _ h => ?_
  dsimp only
  split
  · exact h
  · split
    · exact .hold (h.foldl fun _ _ h => h.snoop)
    · split
      · refine .foldl ?_ fun _ _ h => h.dxPush
        exact h.gate.touchAll.soFenceBy.keepSpace.openOps
      · refine .foldl ?_ fun _ _ h => h.pushSource.addCopy
        exact h.gate.touchAll.soFenceBy.keepSpace.openOps

theorem State.memOk.execMcpy {c brec x y z} : CanonicalAfter (Machine.execMcpy c brec x y z s) := by
  refine hs.native fun _ _ h1 => ?_
  dsimp only
  refine h1.afterOrder ?_
  intro _ _ h2
  split
  · split
    · exact h2.leaderGate
    · split
      · exact h2.leaderGate.keepRec.openOps.dxPush
      · split
        · exact .ite h2.leaderGate.keepRec.openOps.finishOps h2.leaderGate.keepRec.openOps.pushAll.addCopy
        · exact h2.leaderGate.keepRec.openOps
  · exact h2

theorem State.memOk.execSluiceSectorLand {die core copy sectors} : CanonicalAfter (Machine.execSluiceSectorLand die core copy sectors s) := by
  refine hs.event fun _ h1 => ?_
  dsimp only
  split
  · split
    · exact h1.landAcpy
    · exact .ite h1 h1.landMcpy
    · exact h1
  · exact h1

theorem State.memOk.execAtomicRequestAtHome {req} : CanonicalAfter (Machine.execAtomicRequestAtHome req s) := by
  refine hs.event fun _ h1 => ?_
  dsimp only
  split
  · exact h1
  · split
    · exact h1
    · split
      · exact h1.foldl fun _ _ h2 => h2.performReq
      · split
        · exact h1
        · split
          · exact h1.beginReq.serveAtom
          · split
            · exact h1.beginReq.partQueue.serveAtom
            · exact .ite h1.beginReq.snoop h1.beginReq.shed.performReq
            · exact h1.beginReq.performReq

theorem State.memOk.execMonitorReread {team grp lane} : CanonicalAfter (Machine.execMonitorReread team grp lane s) := by
  refine hs.event fun _ h1 => ?_
  dsimp only
  split
  · split
    · exact .ite h1 h1.judgeMon.modSlice.homeWrites
    · exact h1
  · exact h1

theorem State.memOk.execWaitcTimeout {team grp lane} : CanonicalAfter (Machine.execWaitcTimeout team grp lane s) := by
  refine hs.event fun _ h1 => ?_
  dsimp only
  split
  · exact .ite h1 (.ite h1.monitorRead.release.tidyMon.acquire h1.monitorRead.release.tidyMon)
  · exact h1

theorem State.memOk.execLanemapRd {c d} : CanonicalAfter (Machine.execLanemapRd c d s) := hs.native fun _ _ h => h.xlnNow

theorem State.memOk.execActive {c d} : CanonicalAfter (Machine.execActive c d s) := hs.native fun _ _ h => h.xlnNow

theorem State.memOk.execXlnExitCompletion {team grp} : CanonicalAfter (Machine.execXlnExitCompletion team grp s) := by
  refine hs.event fun _ h1 => ?_
  dsimp only
  split
  · exact h1
  · split
    · exact h1
    · split
      · split
        · exact h1
        · exact .modGroup (h1.xlnDo.foldl fun _ _ h2 => h2.modFibre.modGroup)
      · exact h1

theorem State.memOk.execRet {c hint} : CanonicalAfter (Machine.execRet c hint s) := by
  refine hs.native fun _ _ h1 => ?_
  dsimp only
  split
  · exact h1
  · exact h1.gate.foldl fun _ _ h2 => h2.modFibre

theorem State.memOk.execSpawn {c off a d} : CanonicalAfter (Machine.execSpawn c off a d s) := by
  refine hs.native fun _ _ h1 => ?_
  dsimp only
  refine h1.perLane ?_
  intro _ _ _ _ h2
  split
  · exact h2.modFibre
  · exact h2.modFibre.modFibre.modBundle

theorem State.memOk.execLockRequestAtHome {req} : CanonicalAfter (Machine.execLockRequestAtHome req s) := by
  refine hs.event fun _ h => ?_
  split
  · split
    · extract_lets a
      have ha : a.memOk := h.beginReq
      refine .ite h (.ite ha.snoop (.lockDecided (.lockRequest ?_)))
      exact ha
    · exact h
  · exact h

theorem State.memOk.execUnlockAtHome {req} : CanonicalAfter (Machine.execUnlockAtHome req s) := by
  refine hs.event fun _ h => ?_
  split
  · split
    · extract_lets a
      have ha : a.memOk := h.beginReq
      refine .ite h (.ite ha.snoop (.lockDecided (.unlockRequest ?_)))
      exact ha
    · exact h
  · exact h

theorem State.memOk.execLockTimeout {team grp} : CanonicalAfter (Machine.execLockTimeout team grp s) := by
  refine hs.event fun _ h1 => ?_
  split
  · exact .ite h1.lockExpire.lockTurn h1
  · exact h1

theorem State.memOk.execDeadlockProbe {team grp} : CanonicalAfter (Machine.execDeadlockProbe team grp s) := by
  refine hs.event fun _ h1 => ?_
  split
  · exact .ite h1.lockProbe.rearmProbe.lockTurn h1
  · exact h1

theorem State.memOk.execAbsenceArrive {team grp} : CanonicalAfter (Machine.execAbsenceArrive team grp s) := by
  refine hs.event fun _ h1 => ?_
  split
  · exact .ite h1.modGroup.lockTurn h1
  · exact h1

theorem State.memOk.execPresenceArrive {team grp} : CanonicalAfter (Machine.execPresenceArrive team grp s) := by
  refine hs.event fun _ h1 => ?_
  split
  · exact .ite h1 h1.modGroup.lockTurn.waiterPresent
  · exact h1

theorem State.memOk.execLockholdMaxExpiry {team} : CanonicalAfter (Machine.execLockholdMaxExpiry team s) := by
  refine hs.event fun _ h1 => ?_
  split
  · exact .ite h1.modTeam h1
  · exact h1

theorem State.memOk.execBundleSeed {team grp} : CanonicalAfter (Machine.execBundleSeed team grp s) := by
  refine hs.event fun _ h1 => ?_
  dsimp only
  split
  · split
    · exact h1
    · exact .ite h1 (.foldl (by exact h1.fresh) fun _ _ h2 => h2.modGroup)
  · exact h1

theorem State.memOk.execClauseFetch {bundle} : CanonicalAfter (Machine.execClauseFetch bundle s) := by
  refine hs.event fun _ h => ?_
  split
  · exact h
  · split
    · exact h
    · split
      · exact h
      · extract_lets r
        have hr : r.2.memOk := h.foldlSnd fun _ _ h => h.fetchGroup
        split
        · exact hr.beginMembers.modBundle
        · extract_lets s1 w
          have h1 : s1.memOk := hr.keepText
          refine .ite ?_ h1.beginMembers.modBundle
          exact (h1.foldl fun _ _ h => h.takeTrap).beginMembers.modBundle

theorem State.memOk.execClauseBoundary {bundle} : CanonicalAfter (Machine.execClauseBoundary bundle s) := by
  refine hs.event fun _ h => ?_
  split
  · exact h
  · split
    · exact h
    · extract_lets s1 s2
      have h1 : s1.memOk := h.foldl fun _ _ h => h.groupBoundary
      have h2 : s2.memOk := h1
      exact .ite h (.ite h2 h2.barSettleAll)

theorem State.memOk.execFairnessTimerExpiry {team grp} : CanonicalAfter (Machine.execFairnessTimerExpiry team grp s) := by
  refine hs.event fun _ h1 => ?_
  split
  · exact .ite h1.modGroup h1
  · exact h1

theorem State.memOk.execReadyButWaiting {team grp} : CanonicalAfter (Machine.execReadyButWaiting team grp s) := by
  refine hs.event fun _ h1 => ?_
  split
  · exact .ite h1.modGroup h1
  · exact h1

theorem State.memOk.execEventRecordExpiry {team grp} : CanonicalAfter (Machine.execEventRecordExpiry team grp s) := by
  refine hs.event fun _ h1 => ?_
  split
  · exact .ite h1.flushEvent h1
  · exact h1

theorem State.memOk.execOperationComplete {op} : CanonicalAfter (Machine.execOperationComplete op s) := by
  refine hs.event fun _ h1 => ?_
  dsimp only
  split
  · split
    · exact h1.serveLoads
    · split
      · split
        · exact .ite h1.serveLoads.completeOp.modGroup h1.serveLoads.completeOp
        · exact h1.serveLoads.completeOp
      · exact h1.serveLoads.completeOp
  · exact h1.serveLoads

theorem State.memOk.execSshape {c n a} : CanonicalAfter (Machine.execSshape c n a s) := by
  refine hs.native fun _ _ h1 => ?_
  dsimp only
  split
  · exact .ite h1.trapAll (.ite (.dxPush (.openOps (.ite h1 h1.modTeam))) (.foldl (.openOps (.ite h1 h1.modTeam)) fun _ _ h2 => h2.doneLane))
  · exact h1

theorem State.memOk.execSshapeRd {c n d} : CanonicalAfter (Machine.execSshapeRd c n d s) := by
  refine hs.native fun _ _ h1 => ?_
  split
  · exact h1.giveAll
  · exact h1

theorem State.memOk.execMatrixOpComplete {die core} : CanonicalAfter (Machine.execMatrixOpComplete die core s) := by
  refine hs.event fun _ h1 => ?_
  dsimp only
  split
  · split
    · exact h1
    · split
      · exact h1.stepMxm
      · exact h1.modEng.finishMat
      · exact h1.modEng.finishMat
      · exact h1.modEng.finishMat
      · split
        · split
          · split
            · exact h1.stepStore
            · exact h1
          · exact h1
        · exact .finishMat (h1.foldl fun _ _ h2 => h2.vaultWrite)
  · exact h1

theorem State.memOk.execCausewayDataArrive {die core} : CanonicalAfter (Machine.execCausewayDataArrive die core s) := by
  refine hs.event fun _ h1 => ?_
  dsimp only
  split
  · exact h1
  · split
    · exact .ite h1.modEng.modEng h1
    · exact h1

theorem State.memOk.execStaitheTileDeliver {die core stream} : CanonicalAfter (Machine.execStaitheTileDeliver die core stream s) := by
  refine hs.event fun _ h1 => ?_
  dsimp only
  split
  · split
    · exact h1
    · split
      · exact h1.deliver
      · split
        · exact h1
        · split
          · split
            · exact (h1.engineSnoops ‹_›)
            · exact h1.enginePas.modDie.deliver
          · split
            · exact .ite h1.askFault.modDie h1.engineKill
            · exact h1.engineKill
  · exact h1

theorem State.memOk.execWb {die slice obj agent line} : CanonicalAfter (Machine.execWb die slice obj agent line s) := by
  refine hs.event fun _ h1 => ?_
  dsimp only
  split
  · refine h1.foldl (fun _ _ h2 => ?_)
    split
    · exact .ite h2.wbTracked h2
    · exact h2
  · exact h1

theorem State.memOk.execBisnpResponse {line data} : CanonicalAfter (Machine.execBisnpResponse line data s) := by
  refine hs.event fun _ h => .ite h ?_
  extract_lets sk keep left own s1 s2
  have h1 : s1.memOk := State.memOk.modSlice (by exact h)
  have h2 : s2.memOk := by
    unfold s2
    split
    · exact .ite h1.homeWrites h1
    · exact h1
  refine .retryWords ?_
  split
  · exact h2.goneFrom
  · exact h2

theorem State.memOk.execHostLineWrite {pa data} : CanonicalAfter (Machine.execHostLineWrite pa data s) := by
  refine hs.event fun _ h1 => ?_
  dsimp only
  split
  · exact h1
  · split
    · refine h1.foldl (fun _ _ h2 => ?_)
      split
      · exact h2.partQueue
      · exact h2.homeWrite
    · exact h1

theorem State.memOk.execSliceRequestEnqueue {die core} : CanonicalAfter (Machine.execSliceRequestEnqueue die core s) := by
  refine hs.event fun _ h1 => ?_
  dsimp only
  split
  · exact h1
  · split
    · split
      · exact h1.countRead.modSlice
      · exact h1
    · exact h1

theorem State.memOk.execFaultRecordPost {die} : CanonicalAfter (Machine.execFaultRecordPost die s) := by
  refine hs.event fun _ h1 => ?_
  dsimp only
  split
  · exact h1
  · exact .ite h1 h1.homeWrite.modDie.irq

theorem State.memOk.execWalkRecord {q} : CanonicalAfter (Machine.execWalkRecord q s) := by
  refine hs.event fun a h => ?_
  extract_lets x
  split
  · exact h
  · refine .ite h (.ite h.badRecord ?_)
    extract_lets out
    have hw : out.Canonical fun t : State => t.memOk := h.walkRead.andThen fun _ _ _ h =>
      h.check.andThen fun _ _ _ h => h.check.andThen fun _ _ _ h => h.readTiles.andThen fun _ _ _ h => h.readTiles.andThen fun _ _ _ h =>
      h.readKernel.andThen fun _ _ _ h => h.readComm.andThen fun _ _ _ h => ⟨h.enterTask, h⟩
    clear_value out
    cases out with
    | ok t r => exact hw.1
    | wait r => exact hw
    | bad c r => exact hw.badRecord

theorem State.memOk.execLinkFollow {q} : CanonicalAfter (Machine.execLinkFollow q s) := by
  refine hs.event fun a h => ?_
  extract_lets x
  split
  · exact h
  · refine .ite h (.ite h.badRecord ?_)
    extract_lets out
    have hw : out.Canonical (fun _ => True) := h.walkRead.andThen fun _ _ _ h =>
      h.check.andThen fun _ _ _ h => h.check.andThen fun _ _ _ h => h.check.andThen fun _ _ _ h => ⟨trivial, h⟩
    clear_value out
    cases out with
    | ok n r => exact hw.2.modQueue.tidyCtx
    | wait r => exact hw
    | bad c r => exact hw.badRecord

theorem State.memOk.execClusterPlace {task} : CanonicalAfter (Machine.execClusterPlace task s) := by
  refine hs.event fun _ h1 => ?_
  dsimp only
  split
  · exact h1
  · split
    · exact h1
    · split
      · exact h1
      · split
        · exact h1
        · split
          · exact h1.unclaim
          · exact .ite (((h1.tryPlace ‹_›)).unclaim) h1.claimBlocks

theorem State.memOk.execBlockClearDone {die core block} : CanonicalAfter (Machine.execBlockClearDone die core block s) := by
  refine hs.event fun _ h => ?_
  dsimp only
  split
  · exact h.modVault fun _ hc => memZero_wf hc _ _
  · exact h

theorem State.memOk.execPreemptDecision {task} : CanonicalAfter (Machine.execPreemptDecision task s) := by
  refine hs.event fun _ h1 => ?_
  dsimp only
  split
  · exact h1
  · split
    · exact h1
    · split
      · exact h1
      · split
        · exact h1
        · exact h1.foldl fun _ _ h2 => h2.foldl fun _ _ h3 => h3.beginSave

theorem State.memOk.execSwapwaitExpiry {team} : CanonicalAfter (Machine.execSwapwaitExpiry team s) := by
  refine hs.event fun _ h1 => ?_
  dsimp only
  split
  · exact h1
  · exact .ite (h1.foldl fun _ _ h2 => h2.beginSave) h1

theorem State.memOk.execTeamSave {team} : CanonicalAfter (Machine.execTeamSave team s) := by
  refine hs.event fun _ h => ?_
  dsimp only
  split
  · exact h
  · split
    · refine .ite h ?_
      split
      · exact h.keepTeam
      · split
        · exact h.rangeSnoops ‹_›
        · exact h.saveTeam
    · exact h

theorem State.memOk.execTeamRestore {team} : CanonicalAfter (Machine.execTeamRestore team s) := by
  refine hs.event fun _ h1 => ?_
  split
  · exact h1
  · split
    · exact h1.unreserve
    · split
      · exact (h1.rangeSnoops ‹_›)
      · exact .ite h1.askKill (.ite h1.restoreTeam h1.modEng)
    · exact h1

theorem State.memOk.execTeamRetire {team} : CanonicalAfter (Machine.execTeamRetire team s) := by
  refine hs.event fun _ h1 => ?_
  dsimp only
  split
  · exact h1
  · exact .ite h1 (.settleSafe (.tidyCluster (.modTeam (.unclaim (.clearRun (.ite (.tidyStreams (.freeEngine (.dropMonitors (.orphanLocks
      (h1.flushCore.foldl fun _ _ h2 => h2.flushEvent))))) (.dropMonitors (.orphanLocks (h1.flushCore.foldl fun _ _ h3 => h3.flushEvent)))))))))

theorem State.memOk.execTaskDistribute {task} : CanonicalAfter (Machine.execTaskDistribute task s) := by
  refine hs.event fun _ h1 => ?_
  dsimp only
  split
  · exact h1
  · split
    · exact h1
    · split
      · split
        · exact h1.startTask
        · split
          · exact h1.takeEngine.startTask
          · exact h1
      · split
        · exact h1.wake.startTask
        · exact h1
      · exact .ite h1.startTask (.ite h1.startTask.modDie h1)
      · exact h1.startTask

theorem State.memOk.execTaskRetire {task} : CanonicalAfter (Machine.execTaskRetire task s) := by
  refine hs.event fun a h => ?_
  split
  · exact h
  · refine .ite h ?_
    rename_i x _
    have hr : (a.runTask task x).Canonical := h.runTask
    cases hx : a.runTask task x with rw [hx] at hr
    | done r => exact hr.retireTask
    | wait r => exact hr
    | fault => exact h

theorem State.memOk.execTaskFault {task} : CanonicalAfter (Machine.execTaskFault task s) := by
  refine hs.event fun _ h1 => ?_
  split
  · exact h1
  · split
    · exact h1
    · split
      · exact h1.faultTask
      · exact h1

theorem State.memOk.execElogSync {c} : CanonicalAfter (Machine.execElogSync c s) := by
  refine hs.native fun _ _ h1 => ?_
  dsimp only
  split
  · exact h1
  · exact .ite (.foldl (.openOps (.ite h1 (h1.foldl fun _ _ h2 => h2.flushEvent))) fun _ _ h3 => h3.dxPush) (.foldl (.openOps (.ite h1 (h1.foldl fun _
      _ h4 => h4.flushEvent))) fun _ _ h5 => h5.doneLane)

theorem State.memOk.execElogPut {c a b} : CanonicalAfter (Machine.execElogPut c a b s) := by
  refine hs.native fun _ _ h1 => ?_
  dsimp only
  split
  · exact .ite (.dxPush (.openOps (.ite h1 h1.userRecord))) (.foldl (.openOps (.ite h1 h1.userRecord)) fun _ _ h2 => h2.doneLane)
  · exact h1

theorem State.memOk.execCollectiveStart {die peers} : CanonicalAfter (Machine.execCollectiveStart die peers s) := by
  refine hs.event fun _ h => ?_
  split
  · exact h
  · refine .ite h (.ite h.meetRanks ?_)
    split
    · exact h
    · split
      · exact h.collMiss_getD h.setHead
      · extract_lets r ends s1
        have h1 : s1.memOk := h.readRuns.setHead
        exact .ite h1.setHead h1.meetRanks

theorem State.memOk.execCollectiveComplete {die outcome peers} : CanonicalAfter (Machine.execCollectiveComplete die outcome peers s) := by
  refine hs.event fun _ h => ?_
  split
  · exact h
  · split
    · exact h
    · refine .ite h ?_
      extract_lets far ended
      split
      · exact h.failColl
      · exact .ite h.collBytes.writeSome.writeSome.failColl h.failColl
      · exact h.failColl
      · split
        · exact h
        · refine .ite h ?_
          split
          · exact h.engineSnoops ‹_›
          · exact h.engineSnoops ‹_›
          · exact h.finishColl
      · exact h.collMiss_getD h.failColl

theorem State.memOk.execDxq {c sel d} : CanonicalAfter (Machine.execDxq c sel d s) := by
  refine hs.native fun _ _ h1 => ?_
  split
  · exact h1.giveAll
  · exact h1

theorem State.memOk.execQuantumCommit {task} : CanonicalAfter (Machine.execQuantumCommit task s) := by
  refine hs.event fun _ h1 => ?_
  split
  · exact h1
  · split
    · exact h1
    · split
      · exact h1
      · split
        · exact h1.goCommit
        · split
          · exact h1
          · split
            · exact (h1.engineSnoops ‹_›)
            · exact (h1.engineSnoops ‹_›)
            · exact h1.beginCommit.goCommit

theorem State.memOk.execRegisterWrite {off size value} : CanonicalAfter (Machine.execRegisterWrite off size value s) := by
  refine hs.event fun _ h1 => ?_
  split
  · split
    · exact h1.writeNamed
    · exact h1
  · exact h1

theorem State.memOk.execReset {deadSites cxlBytes} : CanonicalAfter (Machine.execReset deadSites cxlBytes s) := by
  refine State.memOk.next ⟨hs.1.filter, fun _ h => absurd h List.not_mem_nil⟩

theorem State.memOk.execUalinkRequest {port req} : CanonicalAfter (Machine.execUalinkRequest port req s) := by
  refine hs.event fun _ h1 => ?_
  dsimp only
  split
  · exact h1
  · split
    · exact h1
    · split
      · exact h1.engineRead
      · exact h1.engineWrite
      · exact h1.engineRead.engineWrite

theorem State.memOk.execFlitReplay {link lane} : CanonicalAfter (Machine.execFlitReplay link lane s) := by
  refine hs.event fun _ h1 => ?_
  dsimp only
  split
  · exact h1
  · split <;> exact h1

theorem State.memOk.execLaneRetire {link lane} : CanonicalAfter (Machine.execLaneRetire link lane s) := by
  refine hs.event fun _ h1 => ?_
  dsimp only
  split
  · exact h1
  · refine .pause ?_
    split <;> exact h1

theorem State.memOk.execRetrainDone {link} : CanonicalAfter (Machine.execRetrainDone link s) := by
  refine hs.event fun _ h => .ite h ?_
  dsimp only
  split
  · refine .ite (.linkLost ?_) ?_ <;> exact h
  · exact h
  · exact h

theorem State.memOk.execPartitionStop : CanonicalAfter (Machine.execPartitionStop s) := by
  refine hs.event fun _ h1 => ?_
  dsimp only
  split
  · exact h1
  · split
    · exact h1
    · split
      · exact h1.stopPart
      · split
        · exact .ite h1.stopPart h1
        · exact h1

theorem State.memOk.execThermalTrip {celsius} : CanonicalAfter (Machine.execThermalTrip celsius s) :=
  hs.event fun _ h => ⟨h.irq.1.filter, fun _ h => absurd h List.not_mem_nil⟩

theorem State.memOk.execScrub {die loc corrected reader} : CanonicalAfter (Machine.execScrub die loc corrected reader s) := by
  refine hs.event fun _ h1 => ?_
  dsimp only
  split
  · exact h1.modDie.countCorrected
  · split
    · exact h1.modDie.askKill
    · exact h1.modDie.rasLog

theorem State.memOk.execBankSpareCopy {die core bank} : CanonicalAfter (Machine.execBankSpareCopy die core bank s) :=
  hs.event fun _ h => .ite h (.pause (.setCore h (by exact h.vault _)))

theorem State.memOk.execCoreRepair {die core} : CanonicalAfter (Machine.execCoreRepair die core s) := by
  refine hs.event fun a h => ?_
  dsimp only
  split
  · exact h
  · refine .ite (.pause ?_) (h.foldl fun _ _ h => h.beginSave)
    exact h

theorem State.memOk.execCodeObjectLoad {file plan} : CanonicalAfter (Machine.execCodeObjectLoad file plan s) := by
  refine hs.event fun _ h1 => ?_
  dsimp only
  split
  · exact h1
  · split
    · exact h1
    · split
      · exact h1
      · exact .foldl (by exact h1) fun _ _ h2 => h2.homeWrite

theorem State.memOk.exec {i} : CanonicalAfter (exec i s) := by
  cases i with
  | nop | iadd | isub | imul | imulh | imad | imadw | idiv | irem | imin | imax | iabs | ineg | iaddi | icmp | icmpi | and | or | xor | not | blut3
    | lopi | shl | shr | sar | rol | shi | bfx | bfi | popc | clz | ctz | brev | permb | lea | sel | plop | mov | movi | div64 | rem64 | mulh64 | crcb
    | fadd | fsub | fmul | ffma | fdot2 | fmin | fmax | fcmp | fclass | frnd | fscale | fgetexp | fgetman | cvt | pack | unpack | rcp | rsq | sqrt
    | fdiv | ex2 | lg2 | sinpi | cospi | tanh | rand | caps =>
    dsimp only [Machine.exec]
    exact hs.native fun _ _ h => h.aluBody
  | ld =>
    dsimp only [Machine.exec]
    exact hs.native fun _ _ h => h.homeWith (fun _ _ _ _ h => h.loadBody)
  | prefL2 | lpad =>
    dsimp only [Machine.exec]
    exact hs.native (body := fun _ a => a) fun _ _ h => h
  | cmaintWb | cmaintWbinv | cmaintWbmem =>
    dsimp only [Machine.exec]
    exact hs.native fun _ _ h => h.cmaintBody
  | acqr =>
    dsimp only [Machine.exec]
    exact hs.native fun _ _ h => h.afterOrder (fun _ _ h => h.syncBody (fun _ _ h => h.doAcqr))
  | homeStorePerformed =>
    dsimp only [Machine.exec]
    exact hs.event fun _ h => h.maintain
  | tbarInit | tbarArrive | tbarArriveSect | tbarSect =>
    dsimp only [Machine.exec]
    exact hs.native fun _ _ h => h.tbarBody
  | tbarWait =>
    dsimp only [Machine.exec]
    exact hs.native fun _ _ h => h.syncBody (fun _ _ h => h.doTbarWait)
  | tbarTest =>
    dsimp only [Machine.exec]
    exact hs.native fun _ _ h => h.syncBody (fun _ _ h => h.doTbarTest)
  | atom =>
    dsimp only [Machine.exec]
    exact hs.native fun _ _ h => h.syncBody (fun _ _ h => h.doAtom)
  | atomn | exsum =>
    dsimp only [Machine.exec]
    exact hs.native fun _ _ h => h.homeBody (fun _ _ _ _ h => .ite h.openOps.bufferAll h.openOps.sendAll)
  | acas =>
    dsimp only [Machine.exec]
    exact hs.native fun _ _ h => h.syncBody (fun _ _ h => h.doAcas)
  | excvt =>
    dsimp only [Machine.exec]
    exact hs.native fun _ _ h => h.syncBody (fun _ _ h => h.doExcvt)
  | waitc =>
    dsimp only [Machine.exec]
    exact hs.native fun _ _ h => h.syncBody (fun _ _ h => h.doWaitc)
  | bar | cbar =>
    dsimp only [Machine.exec]
    exact hs.native fun _ _ h => h.afterOrder (fun _ _ h => h.syncBody (fun _ _ h => h.doBar))
  | lxch | vote | matchx | xred | xscan | lanemap | elect =>
    dsimp only [Machine.exec]
    exact hs.native fun _ _ h => h.xlnBody
  | bra =>
    dsimp only [Machine.exec]
    exact hs.native fun _ _ h => h.foldl fun _ _ h => h.jump
  | call | loop | lbrk | tret | tretSkip =>
    dsimp only [Machine.exec]
    exact hs.native fun _ _ h => h.eachFibre
  | brx | callx =>
    dsimp only [Machine.exec]
    exact hs.native fun _ _ h => h.indirectBody
  | exit =>
    dsimp only [Machine.exec]
    exact hs.native fun _ _ h => h.foldl fun _ _ h => h.modFibre
  | yield =>
    dsimp only [Machine.exec]
    exact hs.native fun _ _ h => h.modBundle
  | bkpt | trap =>
    dsimp only [Machine.exec]
    exact hs.native fun _ _ h => h.trapAll
  | llock | ltry =>
    dsimp only [Machine.exec]
    exact hs.native fun _ _ h => h.syncBody (fun _ _ h => h.doLock)
  | lunlk =>
    dsimp only [Machine.exec]
    exact hs.native fun _ _ h => h.syncBody (fun _ _ h => h.doUnlock)
  | lstat =>
    dsimp only [Machine.exec]
    exact hs.native fun _ _ h => h.syncBody (fun _ _ h => h.doLstat)
  | mxm =>
    dsimp only [Machine.exec]
    exact hs.native fun _ _ h => h.syncBody (fun _ _ h => h.doMxm)
  | mxldZero =>
    dsimp only [Machine.exec]
    exact hs.native fun _ _ h => h.syncBody (fun _ _ h => h.doMxldZero)
  | mxldFill =>
    dsimp only [Machine.exec]
    exact hs.native fun _ _ h => h.syncBody (fun _ _ h => h.doMxldFill)
  | mxldRestore =>
    dsimp only [Machine.exec]
    exact hs.native fun _ _ h => h.syncBody (fun _ _ h => h.doMxldRestore)
  | mxst =>
    dsimp only [Machine.exec]
    exact hs.native fun _ _ h => h.syncBody (fun _ _ h => h.doMxst)
  | mxwait =>
    dsimp only [Machine.exec]
    exact hs.native fun _ _ h => h.syncBody (fun _ _ h => h.doMxwait)
  | mstat =>
    dsimp only [Machine.exec]
    exact hs.native fun _ _ h => h.syncBody (fun _ _ h => h.doMstat)
  | strmOpen =>
    dsimp only [Machine.exec]
    exact hs.native fun _ _ h => h.syncBody (fun _ _ h => h.doStrmOpen)
  | strmSub =>
    dsimp only [Machine.exec]
    exact hs.native fun _ _ h => h.syncBody (fun _ _ h => h.doStrmSub)
  | strmUnsub =>
    dsimp only [Machine.exec]
    exact hs.native fun _ _ h => h.syncBody (fun _ _ h => h.doStrmUnsub)
  | strmClose =>
    dsimp only [Machine.exec]
    exact hs.native fun _ _ h => h.syncBody (fun _ _ h => h.doStrmClose)
  | protld =>
    dsimp only [Machine.exec]
    exact hs.native fun _ _ h => h.afterOrder (fun _ _ h => h.syncBody (fun _ _ h => h.doProtld))
  | objdecl =>
    dsimp only [Machine.exec]
    exact hs.native fun _ _ h => h.afterOrder (fun _ _ h => h.syncBody (fun _ _ h => h.doObjdecl))
  | objrel =>
    dsimp only [Machine.exec]
    exact hs.native fun _ _ h => h.afterOrder (fun _ _ h => h.syncBody (fun _ _ h => h.doObjrel))
  | rd | wr0 | wr1 =>
    dsimp only [Machine.exec]
    exact hs.event fun _ h => h.serveIf
  | evc =>
    dsimp only [Machine.exec]
    exact hs.event fun _ h => .ite h (.ite (.ite h.modSlice.partEvent h) (h.foldl fun _ _ h => h.foldl fun _ _ h => h.dropTracked))
  | ack =>
    dsimp only [Machine.exec]
    exact hs.event fun _ h => .ite h.partAck h
  | staleMessage =>
    dsimp only [Machine.exec]
    exact hs.event fun _ h => .ite h h.modDie
  | hostMemoryAccess =>
    dsimp only [Machine.exec]
    exact hs.event fun _ h => .ite h (h.foldl fun _ _ h => h.hostLine)
  | retentionEnter =>
    dsimp only [Machine.exec]
    exact hs.event fun _ h => .ite h h.flushCore.modCore
  | retentionWake =>
    dsimp only [Machine.exec]
    exact hs.event fun _ h => h.wake
  | answerRetry | answerFail =>
    dsimp only [Machine.exec]
    exact hs.event fun _ h => h.fqAnswer
  | badtagClear | faultQueueEnable =>
    dsimp only [Machine.exec]
    exact hs.event fun _ h => h.modDie
  | reclaimComplete =>
    dsimp only [Machine.exec]
    exact hs.event fun _ h => .ite h.shrink.modCore h
  | taskpost =>
    dsimp only [Machine.exec]
    exact hs.native fun _ _ h => h.afterOrder (fun _ _ h => h.syncBody (fun _ _ h => h.doTaskpost))
  | taskseq =>
    dsimp only [Machine.exec]
    exact hs.native fun _ _ h => h.syncBody (fun _ _ h => h.doTaskseq)
  | taskseqWait =>
    dsimp only [Machine.exec]
    exact hs.native fun _ _ h => h.syncBody (fun _ _ h => h.doTaskseqWait)
  | elogCnt =>
    dsimp only [Machine.exec]
    exact hs.native fun _ _ h => h.syncBody (fun _ _ h => h.doElogCnt)
  | tlbiAll =>
    dsimp only [Machine.exec]
    exact hs.native fun _ _ h => h.afterOrder (fun _ _ h => h.syncBody (fun _ _ h => h.doTlbiAll))
  | tlbiVa =>
    dsimp only [Machine.exec]
    exact hs.native fun _ _ h => h.afterOrder (fun _ _ h => h.syncBody (fun _ _ h => h.doTlbiVa))
  | tlbiPart =>
    dsimp only [Machine.exec]
    exact hs.native fun _ _ h => h.afterOrder (fun _ _ h => h.syncBody (fun _ _ h => h.doTlbiPart))
  | coll =>
    dsimp only [Machine.exec]
    exact hs.native fun _ _ h => h.afterOrder (fun _ _ h => h.syncBody (fun _ _ h => h.doColl))
  | dxsync =>
    dsimp only [Machine.exec]
    exact hs.native fun _ _ h => h.afterOrder (fun _ _ h => h.syncBody (fun _ _ h => h.doDxsync))
  | queueEnable =>
    dsimp only [Machine.exec]
    exact hs.event fun _ h => .ite h.enableQueue h
  | queueDisable =>
    dsimp only [Machine.exec]
    exact hs.event fun _ h => .ite h.disableQueue h
  | qtailWrite =>
    dsimp only [Machine.exec]
    exact hs.event fun _ h => .ite h.writeTail h
  | kill =>
    dsimp only [Machine.exec]
    exact hs.event fun _ h => .ite h.killWrite h
  | commit =>
    dsimp only [Machine.exec]
    exact hs.event fun _ h => .ite h.commitWrite h
  | oversubClear =>
    dsimp only [Machine.exec]
    exact hs.event fun _ h => .ite h.oversubWrite h
  | resume =>
    dsimp only [Machine.exec]
    exact hs.event fun _ h => .ite h.resumeWrite h
  | drain =>
    dsimp only [Machine.exec]
    exact hs.event fun _ h => .ite h.drainWrite h
  | lkcntClear =>
    dsimp only [Machine.exec]
    exact hs.event fun _ h => .ite h.lkcntWrite h
  | staleCountersClear =>
    dsimp only [Machine.exec]
    exact hs.event fun _ h => .ite h.staleWrite h
  | errorCountersClear =>
    dsimp only [Machine.exec]
    exact hs.event fun _ h => .ite h.errorsWrite h
  | replaysClear =>
    dsimp only [Machine.exec]
    exact hs.event fun _ h => .ite h.replaysWrite h
  | declare =>
    dsimp only [Machine.exec]
    exact hs.event fun _ h => .ite h.declareWrite h
  | linkReplayTimeout | selfTestFail =>
    dsimp only [Machine.exec]
    exact hs.event fun _ h => .ite h.declareDead h
  | bootGo =>
    dsimp only [Machine.exec]
    exact hs.event fun _ h => .ite h (.ite h (.ite h h))
  | attestGo =>
    dsimp only [Machine.exec]
    exact hs.event fun _ h => .ite h (.ite h h.homeWrite)
  | linkTraining =>
    dsimp only [Machine.exec]
    exact hs.event fun _ h => .ite h h
  | throttleStep | unthrottleStep =>
    dsimp only [Machine.exec]
    exact hs.event fun _ h => .ite h (h.foldl fun _ _ h => h.modPart)
  | l2WayReplace =>
    dsimp only [Machine.exec]
    exact hs.event fun _ h => h.modSlice
  | movxRd => exact hs.execMovxRd
  | movxWr => exact hs.execMovxWr
  | srd => exact hs.execSrd
  | swr => exact hs.execSwr
  | st => exact hs.execSt
  | prefL1 => exact hs.execPrefL1
  | fence => exact hs.execFence
  | acqrWriteback => exact hs.execAcqrWriteback
  | acpy => exact hs.execAcpy
  | mcpy => exact hs.execMcpy
  | sluiceSectorLand => exact hs.execSluiceSectorLand
  | atomicRequestAtHome => exact hs.execAtomicRequestAtHome
  | monitorReread => exact hs.execMonitorReread
  | waitcTimeout => exact hs.execWaitcTimeout
  | lanemapRd => exact hs.execLanemapRd
  | active => exact hs.execActive
  | xlnExitCompletion => exact hs.execXlnExitCompletion
  | ret => exact hs.execRet
  | spawn => exact hs.execSpawn
  | lockRequestAtHome => exact hs.execLockRequestAtHome
  | unlockAtHome => exact hs.execUnlockAtHome
  | lockTimeout => exact hs.execLockTimeout
  | deadlockProbe => exact hs.execDeadlockProbe
  | absenceArrive => exact hs.execAbsenceArrive
  | presenceArrive => exact hs.execPresenceArrive
  | lockholdMaxExpiry => exact hs.execLockholdMaxExpiry
  | bundleSeed => exact hs.execBundleSeed
  | clauseFetch => exact hs.execClauseFetch
  | clauseBoundary => exact hs.execClauseBoundary
  | fairnessTimerExpiry => exact hs.execFairnessTimerExpiry
  | readyButWaiting => exact hs.execReadyButWaiting
  | eventRecordExpiry => exact hs.execEventRecordExpiry
  | operationComplete => exact hs.execOperationComplete
  | sshape => exact hs.execSshape
  | sshapeRd => exact hs.execSshapeRd
  | matrixOpComplete => exact hs.execMatrixOpComplete
  | causewayDataArrive => exact hs.execCausewayDataArrive
  | staitheTileDeliver => exact hs.execStaitheTileDeliver
  | wb => exact hs.execWb
  | bisnpResponse => exact hs.execBisnpResponse
  | hostLineWrite => exact hs.execHostLineWrite
  | sliceRequestEnqueue => exact hs.execSliceRequestEnqueue
  | faultRecordPost => exact hs.execFaultRecordPost
  | walkRecord => exact hs.execWalkRecord
  | linkFollow => exact hs.execLinkFollow
  | clusterPlace => exact hs.execClusterPlace
  | blockClearDone => exact hs.execBlockClearDone
  | preemptDecision => exact hs.execPreemptDecision
  | swapwaitExpiry => exact hs.execSwapwaitExpiry
  | teamSave => exact hs.execTeamSave
  | teamRestore => exact hs.execTeamRestore
  | teamRetire => exact hs.execTeamRetire
  | taskDistribute => exact hs.execTaskDistribute
  | taskRetire => exact hs.execTaskRetire
  | taskFault => exact hs.execTaskFault
  | elogSync => exact hs.execElogSync
  | elogPut => exact hs.execElogPut
  | collectiveStart => exact hs.execCollectiveStart
  | collectiveComplete => exact hs.execCollectiveComplete
  | dxq => exact hs.execDxq
  | quantumCommit => exact hs.execQuantumCommit
  | registerWrite => exact hs.execRegisterWrite
  | reset => exact hs.execReset
  | ualinkRequest => exact hs.execUalinkRequest
  | flitReplay => exact hs.execFlitReplay
  | laneRetire => exact hs.execLaneRetire
  | retrainDone => exact hs.execRetrainDone
  | partitionStop => exact hs.execPartitionStop
  | thermalTrip => exact hs.execThermalTrip
  | scrub => exact hs.execScrub
  | bankSpareCopy => exact hs.execBankSpareCopy
  | coreRepair => exact hs.execCoreRepair
  | codeObjectLoad => exact hs.execCodeObjectLoad

/-! ### The step (R83) -/

omit hs in
theorem CanonicalAfter.andAfter {o} {f : State → State} (ho : CanonicalAfter o) (hf : ∀ a, a.memOk → (f a).memOk) : CanonicalAfter (andAfter o f) := by
  unfold Machine.andAfter
  split
  · exact (hf _ (ho _ rfl)).next
  · exact fun _ h => nomatch h
  · exact fun _ h => nomatch h

theorem State.memOk.issueNext {id} : CanonicalAfter (s.issueNext id) := by
  unfold State.issueNext
  split
  · exact fun _ h => nomatch h
  · refine .ite hs.next ?_
    extract_lets word gs s1
    have h1 : s1.memOk := hs
    split
    · exact h1.exec.andAfter fun _ h => h.afterIssue
    · exact h1.badWord.afterIssue.next

theorem State.memOk.make {m} : CanonicalAfter (s.make m) := by
  cases m with
  | event i => exact hs.exec
  | issue id => exact hs.issueNext
  | idle => exact hs.next

theorem State.memOk.perform {d m rest} : CanonicalAfter (s.perform d m rest) := by
  have ha : ∀ {l}, State.memOk { s with agenda := l } := hs
  unfold State.perform
  extract_lets n
  refine .ite ha.make ?_
  split
  · exact hs.exec
  · exact .ite ha.pass.next ha.pass.make

theorem State.memOk.step : CanonicalAfter (step s) := by
  have ha : ∀ {l}, State.memOk { s with agenda := l } := hs
  exact .ite ha.next hs.perform

end

/-- Settles O60: no operation of any instruction or event, and no passing of clocks, breaks the form that log 3 gives memory and vaults. -/
theorem memoryStaysCanonical : Obligations.MemoryStaysCanonical := fun _ s' hs h => hs.step s' h

end Sys2Proof.Machine
end
